-- ==== Sys2Proof/Word.lean ====
section
/-! DEFINITION. The word types of the EQ9640 and their plainest arithmetic (R8: registers are 64 bits wide;
R220: an instruction is 32 bits wide). -/

namespace Sys2Proof

/-- One byte. -/
abbrev Byte := BitVec 8

/-- A 64-bit word: a register, a general register of a thread, an operand of Roll Call. -/
abbrev Word := BitVec 64

/-- The word of a natural number, taken modulo 2^64. -/
abbrev Word.ofNat (n : Nat) : Word := BitVec.ofNat 64 n

end Sys2Proof
end

