-- ==== Sys2Proof/Machine/Bits.lean ====
section
/-! DEFINITION. Bit fields, sign extension and byte order (R6: structures in memory are stored least significant
byte first; R7: frames are sent most significant byte first). -/

namespace Sys2Proof.Machine

/-- A bit range `[hi:lo]` of a word, as the register tables write it. -/
structure Fld where
  hi : Nat
  lo : Nat
  deriving DecidableEq, Repr

/-- How many bits a range has. -/
def Fld.width (f : Fld) : Nat := f.hi + 1 - f.lo

/-- The bits of a number in a range, as a number. -/
def bitsOf (n hi lo : Nat) : Nat := n / 2 ^ lo % 2 ^ (hi + 1 - lo)

/-- One bit of a number. -/
def bitOf (n i : Nat) : Bool := n / 2 ^ i % 2 == 1

/-- The value of a field of a word. -/
def Fld.get (f : Fld) (w : Word) : Nat := bitsOf w.toNat f.hi f.lo

/-- Whether a one-bit field is 1. -/
def Fld.isSet (f : Fld) (w : Word) : Bool := f.get w != 0

/-- The mask of a field's bits in a word. -/
def Fld.mask (f : Fld) : Word := Word.ofNat ((2 ^ f.width - 1) * 2 ^ f.lo)

/-- The value `v` of a field, placed at its bits (a value too wide for the field loses its upper bits). -/
def Fld.place (f : Fld) (v : Nat) : Word := Word.ofNat (v % 2 ^ f.width * 2 ^ f.lo)

/-- A word with one field replaced. -/
def Fld.set (f : Fld) (w : Word) (v : Nat) : Word := (w &&& ~~~f.mask) ||| f.place v

/-- A Boolean as a bit. -/
def bit (b : Bool) : Nat := if b then 1 else 0

/-- The low `n` bits of `v`, sign-extended to 64 bits. -/
def sextW (n v : Nat) : Word :=
  if bitOf v (n - 1) then Word.ofNat (v % 2 ^ n + (2 ^ 64 - 2 ^ n)) else Word.ofNat (v % 2 ^ n)

/-- The value of the low `n` bits of `v` read as a signed number. -/
def signedOf (n v : Nat) : Int :=
  if bitOf v (n - 1) then (v % 2 ^ n : Nat) - (2 ^ n : Nat) else (v % 2 ^ n : Nat)

/-- An integer as a word, modulo 2^64. -/
def wordOfInt (i : Int) : Word := BitVec.ofInt 64 i

/-- The `n` bytes of a number, least significant first (R6). -/
def leBytes : Nat → Nat → List Byte
  | 0, _ => []
  | n + 1, v => BitVec.ofNat 8 v :: leBytes n (v / 256)

/-- The number that bytes spell, least significant first (R6). -/
def ofLeBytes : List Byte → Nat
  | [] => 0
  | b :: bs => b.toNat + 256 * ofLeBytes bs

/-- The `n` bytes of a number, most significant first (R7). -/
def beBytes (n v : Nat) : List Byte := (leBytes n v).reverse

/-- The number that bytes spell, most significant first (R7). -/
def ofBeBytes (bs : List Byte) : Nat := ofLeBytes bs.reverse

/-- The bytes `[off, off + len)` of a list; bytes past its end are absent. -/
def slice (bs : List Byte) (off len : Nat) : List Byte := (bs.drop off).take len

/-- A byte as a number, 0 behind the end. -/
def byteAt (bs : List Byte) (i : Nat) : Nat := (bs.getD i 0).toNat

/-- A little-endian field of a structure in memory: `len` bytes at `off`. -/
def leAt (bs : List Byte) (off len : Nat) : Nat := ofLeBytes (slice bs off len)

/-- A big-endian field of a frame: `len` bytes at `off`. -/
def beAt (bs : List Byte) (off len : Nat) : Nat := ofBeBytes (slice bs off len)

/-- A list cut or padded with zeros to `n` bytes. -/
def padTo (n : Nat) (bs : List Byte) : List Byte := bs.take n ++ List.replicate (n - bs.length) 0

/-- `n` zero bytes. -/
def zeros (n : Nat) : List Byte := List.replicate n 0

/-- `a` rounded down to a multiple of `n`. -/
def alignDown (a n : Nat) : Nat := a / n * n

/-- `a` divided by `n`, rounded up. -/
def ceilDiv (a n : Nat) : Nat := (a + n - 1) / n

/-- Serial arithmetic on a `k`-bit counter (R549): is `b` after `a`? -/
def serAfter (k b a : Nat) : Bool :=
  let d := (b + 2 ^ k - a % 2 ^ k) % 2 ^ k
  decide (1 ≤ d ∧ d ≤ 2 ^ (k - 1) - 1)

/-- Serial arithmetic on a `k`-bit counter (R549): is `b` before `a`?  A value exactly half the space away is. -/
def serBefore (k b a : Nat) : Bool :=
  let d := (b + 2 ^ k - a % 2 ^ k) % 2 ^ k
  decide (2 ^ (k - 1) ≤ d)

/-- The number of set bits among the low `n` bits of `v`. -/
def popCount : Nat → Nat → Nat
  | 0, _ => 0
  | n + 1, v => v % 2 + popCount n (v / 2)

/-- The smallest `i < n` from `start` on that satisfies `p`, if any. -/
def findIdxFrom (p : Nat → Bool) : Nat → Nat → Option Nat
  | 0, _ => none
  | n + 1, start => if p start then some start else findIdxFrom p n (start + 1)

/-- The first `i < n` that satisfies `p`. -/
def findBelow (n : Nat) (p : Nat → Bool) : Option Nat := findIdxFrom p n 0

/-- A number with bit `i` set or cleared. -/
def setBit (v i : Nat) (b : Bool) : Nat :=
  if bitOf v i then (if b then v else v - 2 ^ i) else (if b then v + 2 ^ i else v)

end Sys2Proof.Machine
end

