-- ==== Sys2Proof/Machine/RegNames.lean ====
section
/-! DEFINITION. The names of the device's registers and of their fields.

`Reg.X` is the BAR0 offset of register `X` (with the spec's own index letters as arguments), from the
"offset" line that stands above each register table of spec/02 to spec/18 and from the block bases those
chapters state.  `Fld.X_F` is the bit range of field `F` of register `X`.  The doorbell pages of the
classrooms (BAR2, R397) carry the words of a queue; the model files them at `doorbellBase`, above BAR0's 64 MiB. -/

namespace Sys2Proof.Machine

/-- Where the model files the BAR2 doorbell pages (one of 64 KiB per classroom): above BAR0. -/
abbrev doorbellBase : Nat := 0x4000000

/-! Registers of spec/02_ports_and_transport.md. -/

def Reg.ETH_GRP (g : Nat) : Nat := 0x80000 + g * 0x8000
def Fld.ETH_GRP_MODE : Fld := ⟨1, 0⟩
def Fld.ETH_GRP_MEDIA : Fld := ⟨3, 2⟩
def Fld.ETH_GRP_FEC : Fld := ⟨5, 4⟩
def Fld.ETH_GRP_MODE_ACT : Fld := ⟨33, 32⟩
def Reg.ETH_CFG (n : Nat) : Nat := 0x80008 + n * 0x2000
def Fld.ETH_CFG_PORT_EN : Fld := ⟨0, 0⟩
def Fld.ETH_CFG_PAUSE_EN : Fld := ⟨1, 1⟩
def Fld.ETH_CFG_PFC_EN : Fld := ⟨2, 2⟩
def Fld.ETH_CFG_AN_EN : Fld := ⟨3, 3⟩
def Fld.ETH_CFG_TS_EN : Fld := ⟨4, 4⟩
def Fld.ETH_CFG_OUTER_TPID : Fld := ⟨31, 16⟩
def Reg.ETH_PFC (n : Nat) : Nat := 0x80010 + n * 0x2000
def Fld.ETH_PFC_Q0_PRIO : Fld := ⟨7, 0⟩
def Fld.ETH_PFC_Q1_PRIO : Fld := ⟨15, 8⟩
def Fld.ETH_PFC_Q2_PRIO : Fld := ⟨23, 16⟩
def Reg.ETH_DEFACT (n : Nat) : Nat := 0x80018 + n * 0x2000
def Fld.ETH_DEFACT_DEFAULT_ACT : Fld := ⟨1, 0⟩
def Fld.ETH_DEFACT_FRAG_ACT : Fld := ⟨3, 2⟩
def Fld.ETH_DEFACT_DEF_CLASSROOM : Fld := ⟨13, 8⟩
def Fld.ETH_DEFACT_DEF_CLASS : Fld := ⟨18, 16⟩
def Fld.ETH_DEFACT_DEF_GRAPH : Fld := ⟨29, 20⟩
def Fld.ETH_DEFACT_MGR_Q : Fld := ⟨35, 32⟩
def Reg.ETH_PTP (n : Nat) : Nat := 0x80020 + n * 0x2000
def Fld.ETH_PTP_RX_ADJ : Fld := ⟨15, 0⟩
def Fld.ETH_PTP_TX_ADJ : Fld := ⟨31, 16⟩
def Reg.ETH_PAUSE (n : Nat) : Nat := 0x80028 + n * 0x2000
def Fld.ETH_PAUSE_LIMIT_US : Fld := ⟨31, 0⟩
def Reg.ETH_STATUS (n : Nat) : Nat := 0x80030 + n * 0x2000
def Fld.ETH_STATUS_LINK_UP : Fld := ⟨0, 0⟩
def Fld.ETH_STATUS_FEC_LOCK : Fld := ⟨1, 1⟩
def Fld.ETH_STATUS_AN_DONE : Fld := ⟨2, 2⟩
def Fld.ETH_STATUS_QPAUSED : Fld := ⟨10, 8⟩
def Fld.ETH_STATUS_PAUSE_STORM : Fld := ⟨16, 16⟩
def Fld.ETH_STATUS_LINK_CHANGE : Fld := ⟨17, 17⟩
def Fld.ETH_STATUS_TXTS_OVF : Fld := ⟨18, 18⟩
def Fld.ETH_STATUS_FEC_UNCORR : Fld := ⟨19, 19⟩
def Reg.ETH_COMMIT (n : Nat) : Nat := 0x80038 + n * 0x2000
def Fld.ETH_COMMIT_GO : Fld := ⟨0, 0⟩
def Fld.ETH_COMMIT_GRP_GO : Fld := ⟨1, 1⟩
def Fld.ETH_COMMIT_DONE : Fld := ⟨32, 32⟩
def Fld.ETH_COMMIT_GRP_DONE : Fld := ⟨33, 33⟩
def Reg.ETH_TXTS (n : Nat) : Nat := 0x80040 + n * 0x2000
def Fld.ETH_TXTS_TS : Fld := ⟨63, 0⟩
def Reg.ETH_TXTS_TAG (n : Nat) : Nat := 0x80048 + n * 0x2000
def Fld.ETH_TXTS_TAG_TAG : Fld := ⟨15, 0⟩
def Fld.ETH_TXTS_TAG_VALID : Fld := ⟨63, 63⟩
def Reg.ETH_TXTS_POP (n : Nat) : Nat := 0x80050 + n * 0x2000
def Fld.ETH_TXTS_POP_POP : Fld := ⟨0, 0⟩
def Reg.FST_CFG : Nat := 0x90000
def Fld.FST_CFG_UDP_PORT : Fld := ⟨15, 0⟩
def Fld.FST_CFG_ETHERTYPE : Fld := ⟨31, 16⟩
def Fld.FST_CFG_UDP_EN : Fld := ⟨32, 32⟩
def Fld.FST_CFG_RAW_EN : Fld := ⟨33, 33⟩
def Fld.FST_CFG_IPV6_EN : Fld := ⟨34, 34⟩
def Fld.FST_CFG_REASM_POOL : Fld := ⟨39, 36⟩
def Reg.FST_ACK : Nat := 0x90008
def Fld.FST_ACK_ACK_EVERY : Fld := ⟨7, 0⟩
def Fld.FST_ACK_ACK_DELAY_US : Fld := ⟨23, 8⟩
def Fld.FST_ACK_NAK_HOLD_US : Fld := ⟨39, 24⟩
def Reg.FST_RETX : Nat := 0x90010
def Fld.FST_RETX_RTO_US : Fld := ⟨15, 0⟩
def Fld.FST_RETX_RETX_MAX : Fld := ⟨23, 16⟩
def Fld.FST_RETX_TX_WINDOW : Fld := ⟨30, 24⟩
def Reg.FST_STATUS : Nat := 0x90018
def Fld.FST_STATUS_POOL_EMPTY : Fld := ⟨0, 0⟩
def Fld.FST_STATUS_STREAM_FAILED : Fld := ⟨1, 1⟩
def Reg.FST_COMMIT : Nat := 0x90020
def Fld.FST_COMMIT_GO : Fld := ⟨0, 0⟩
def Fld.FST_COMMIT_DONE : Fld := ⟨32, 32⟩
def Reg.FST_STREAMS : Nat := 0x90028
def Fld.FST_STREAMS_OPEN_COUNT : Fld := ⟨16, 0⟩
/-! Registers of spec/03_parse_and_classify.md. -/

def Reg.PG_STATUS : Nat := 0xa0000
def Fld.PG_STATUS_PIPE_FENCED : Fld := ⟨3, 0⟩
def Fld.PG_STATUS_CUR_SLOT : Fld := ⟨9, 8⟩
def Fld.PG_STATUS_CUR_VALID : Fld := ⟨10, 10⟩
def Fld.PG_STATUS_CUR_EPOCH : Fld := ⟨31, 16⟩
def Reg.PG_COMMIT : Nat := 0xa0008
def Fld.PG_COMMIT_GO : Fld := ⟨0, 0⟩
def Fld.PG_COMMIT_DONE : Fld := ⟨32, 32⟩
def Reg.PG_LIMIT : Nat := 0xa0010
def Fld.PG_LIMIT_MAX_VISITS : Fld := ⟨5, 0⟩
def Reg.PG_CLMASK (n : Nat) : Nat := 0xa0100 + n * 0x8
def Fld.PG_CLMASK_CLASSROOMS : Fld := ⟨63, 0⟩
/-! Registers of spec/04_roll_call_dataflow.md. -/

def Reg.RC_SPILL_BASE : Nat := 0xd0000
def Fld.RC_SPILL_BASE_BASE : Fld := ⟨47, 6⟩
def Reg.RC_SPILL_SIZE : Nat := 0xd0008
def Fld.RC_SPILL_SIZE_SLOTS : Fld := ⟨26, 0⟩
def Reg.RC_CTX_BASE : Nat := 0xd0010
def Fld.RC_CTX_BASE_BASE : Fld := ⟨47, 6⟩
def Reg.RC_CTX_COUNT : Nat := 0xd0018
def Fld.RC_CTX_COUNT_COUNT : Fld := ⟨24, 0⟩
def Reg.RC_SQM : Nat := 0xd0020
def Fld.RC_SQM_CSTORE_OFF : Fld := ⟨25, 0⟩
def Fld.RC_SQM_NCACHE_OFF : Fld := ⟨57, 32⟩
def Reg.RC_ADMIT : Nat := 0xd0028
def Fld.RC_ADMIT_RESERVE : Fld := ⟨26, 0⟩
def Fld.RC_ADMIT_REPLY_CLASSES : Fld := ⟨39, 32⟩
def Reg.RC_FLOOR : Nat := 0xd0030
def Fld.RC_FLOOR_FLOOR : Fld := ⟨26, 0⟩
def Reg.RC_URGENT : Nat := 0xd0038
def Fld.RC_URGENT_MAX_CTX : Fld := ⟨8, 0⟩
def Reg.RC_STALL : Nat := 0xd0040
def Fld.RC_STALL_WINDOW_US : Fld := ⟨19, 0⟩
def Fld.RC_STALL_EN : Fld := ⟨32, 32⟩
def Reg.RC_COMMIT : Nat := 0xd0048
def Fld.RC_COMMIT_GO : Fld := ⟨0, 0⟩
def Fld.RC_COMMIT_DONE : Fld := ⟨32, 32⟩
def Reg.RC_STATUS : Nat := 0xd0050
def Fld.RC_STATUS_BANK_FENCED : Fld := ⟨3, 0⟩
def Fld.RC_STATUS_ADMIT_HELD : Fld := ⟨4, 4⟩
def Fld.RC_STATUS_FLOOR_HELD : Fld := ⟨5, 5⟩
def Fld.RC_STATUS_SPILL_EXHAUSTED : Fld := ⟨6, 6⟩
def Fld.RC_STATUS_URGENT_CTX : Fld := ⟨16, 8⟩
def Fld.RC_STATUS_UNPARKED : Fld := ⟨50, 32⟩
def Reg.RC_SPILL_FREE : Nat := 0xd0058
def Fld.RC_SPILL_FREE_FREE : Fld := ⟨26, 0⟩
def Reg.RC_EVENT : Nat := 0xd0060
def Fld.RC_EVENT_STALEMATE : Fld := ⟨0, 0⟩
def Fld.RC_EVENT_RESERVE_REACHED : Fld := ⟨1, 1⟩
def Fld.RC_EVENT_FLOOR_REACHED : Fld := ⟨2, 2⟩
def Fld.RC_EVENT_SPILL_EXHAUSTED : Fld := ⟨3, 3⟩
def Reg.RC_STALL_INFO : Nat := 0xd0068
def Fld.RC_STALL_INFO_CONTEXT : Fld := ⟨23, 0⟩
def Fld.RC_STALL_INFO_CLASSROOM : Fld := ⟨29, 24⟩
def Fld.RC_STALL_INFO_COUNT : Fld := ⟨63, 32⟩
def Reg.RC_BANK (n : Nat) : Nat := 0xd0080 + n * 0x8
def Fld.RC_BANK_USED : Fld := ⟨16, 0⟩
def Fld.RC_BANK_PINNED : Fld := ⟨48, 32⟩
/-! Registers of spec/05_scheduling_and_ordering.md. -/

def Reg.SQ_CFG : Nat := 0xb0000
def Fld.SQ_CFG_RERUN_MAX : Fld := ⟨3, 0⟩
def Fld.SQ_CFG_PREEMPT_EN : Fld := ⟨4, 4⟩
def Reg.SQ_ACT : Nat := 0xb0008
def Fld.SQ_ACT_RECORDS : Fld := ⟨17, 0⟩
def Fld.SQ_ACT_ACT_OFF : Fld := ⟨57, 32⟩
def Reg.SQ_DLY_BASE : Nat := 0xb0010
def Fld.SQ_DLY_BASE_BASE : Fld := ⟨47, 5⟩
def Reg.SQ_DLY_SIZE : Nat := 0xb0018
def Fld.SQ_DLY_SIZE_ENTRIES : Fld := ⟨23, 0⟩
def Reg.SQ_COMMIT : Nat := 0xb0020
def Fld.SQ_COMMIT_GO : Fld := ⟨0, 0⟩
def Fld.SQ_COMMIT_DONE : Fld := ⟨32, 32⟩
def Reg.SQ_STATUS : Nat := 0xb0028
def Fld.SQ_STATUS_ACT_FREE : Fld := ⟨17, 0⟩
def Fld.SQ_STATUS_OVERDRAW_FREE : Fld := ⟨39, 32⟩
def Reg.SQ_EVENT : Nat := 0xb0030
def Fld.SQ_EVENT_ACT_EXHAUSTED : Fld := ⟨0, 0⟩
def Fld.SQ_EVENT_DLY_EXHAUSTED : Fld := ⟨1, 1⟩
def Fld.SQ_EVENT_OVERDRAW_EXHAUSTED : Fld := ⟨2, 2⟩
def Reg.SQ_TICK : Nat := 0xb0038
def Fld.SQ_TICK_TICK : Fld := ⟨63, 0⟩
def Reg.SQ_DLY_FREE : Nat := 0xb0040
def Fld.SQ_DLY_FREE_FREE : Fld := ⟨23, 0⟩
def Reg.SQ_SHARE (c : Nat) : Nat := 0xb1000 + c * 0x8
def Fld.SQ_SHARE_ENTRIES : Fld := ⟨16, 0⟩
def Fld.SQ_SHARE_WEIGHT : Fld := ⟨31, 24⟩
def Reg.SQ_OCC (c : Nat) : Nat := 0xb1200 + c * 0x8
def Fld.SQ_OCC_OCC : Fld := ⟨16, 0⟩
def Fld.SQ_OCC_HELD : Fld := ⟨32, 32⟩
def Reg.CW_BASE : Nat := 0xc0000
def Fld.CW_BASE_BASE : Fld := ⟨47, 4⟩
def Reg.CW_CFG : Nat := 0xc0008
def Fld.CW_CFG_HOLD_US : Fld := ⟨19, 0⟩
def Fld.CW_CFG_HOLD_EN : Fld := ⟨32, 32⟩
def Reg.CW_COMMIT : Nat := 0xc0010
def Fld.CW_COMMIT_GO : Fld := ⟨0, 0⟩
def Fld.CW_COMMIT_DONE : Fld := ⟨32, 32⟩
def Reg.CW_STATUS : Nat := 0xc0018
def Fld.CW_STATUS_LANE_FENCED : Fld := ⟨3, 0⟩
def Fld.CW_STATUS_LANE_MOVING : Fld := ⟨7, 4⟩
def Reg.CW_LANE (l : Nat) : Nat := 0xc0020 + l * 0x8
def Fld.CW_LANE_HOLD : Fld := ⟨0, 0⟩
def Fld.CW_LANE_DOMAINS : Fld := ⟨63, 32⟩
def Reg.CW_HOLD_INFO (l : Nat) : Nat := 0xc0040 + l * 0x8
def Fld.CW_HOLD_INFO_CONTEXT : Fld := ⟨23, 0⟩
def Fld.CW_HOLD_INFO_CLASSROOM : Fld := ⟨29, 24⟩
def Fld.CW_HOLD_INFO_HELD_US : Fld := ⟨63, 32⟩
/-! Registers of spec/06_streets_cores_threads.md. -/

def Reg.ST_STATUS (s : Nat) : Nat := 0x300000 + s * 0x100000
def Fld.ST_STATUS_CORE_FENCED : Fld := ⟨7, 0⟩
def Fld.ST_STATUS_STREET_FENCED : Fld := ⟨8, 8⟩
def Fld.ST_STATUS_RUNG_ACT : Fld := ⟨11, 9⟩
def Reg.ST_COMMIT (s : Nat) : Nat := 0x300008 + s * 0x100000
def Fld.ST_COMMIT_GO : Fld := ⟨0, 0⟩
def Fld.ST_COMMIT_DONE : Fld := ⟨32, 32⟩
def Reg.ST_PAGE (s : Nat) (p : Nat) : Nat := 0x300100 + s * 0x100000 + p * 0x8
def Fld.ST_PAGE_CLASSROOM : Fld := ⟨5, 0⟩
def Fld.ST_PAGE_VALID : Fld := ⟨6, 6⟩
def Reg.CORE_TT (s : Nat) (c : Nat) : Nat := 0x310000 + s * 0x100000 + c * 0x10000
def Fld.CORE_TT_SLOTS : Fld := ⟨63, 0⟩
def Reg.CORE_TT_ACT (s : Nat) (c : Nat) : Nat := 0x310008 + s * 0x100000 + c * 0x10000
def Fld.CORE_TT_ACT_SLOTS_ACT : Fld := ⟨63, 0⟩
def Reg.CORE_CFG (s : Nat) (c : Nat) : Nat := 0x310010 + s * 0x100000 + c * 0x10000
def Fld.CORE_CFG_HPRIO_EN : Fld := ⟨0, 0⟩
def Fld.CORE_CFG_HPRIO_THR : Fld := ⟨3, 1⟩
def Fld.CORE_CFG_SEAT_LIMIT : Fld := ⟨31, 16⟩
def Fld.CORE_CFG_TSTALL_US : Fld := ⟨51, 32⟩
def Fld.CORE_CFG_TSTALL_EN : Fld := ⟨52, 52⟩
def Reg.CORE_CTL (s : Nat) (c : Nat) : Nat := 0x310018 + s * 0x100000 + c * 0x10000
def Fld.CORE_CTL_RECOVERY : Fld := ⟨0, 0⟩
def Reg.CORE_COMMIT (s : Nat) (c : Nat) : Nat := 0x310020 + s * 0x100000 + c * 0x10000
def Fld.CORE_COMMIT_GO_TT : Fld := ⟨0, 0⟩
def Fld.CORE_COMMIT_GO_THR : Fld := ⟨1, 1⟩
def Fld.CORE_COMMIT_DONE_TT : Fld := ⟨32, 32⟩
def Fld.CORE_COMMIT_DONE_THR : Fld := ⟨33, 33⟩
def Reg.CORE_THR (s : Nat) (c : Nat) (t : Nat) : Nat := 0x310040 + s * 0x100000 + c * 0x10000 + t * 0x8
def Fld.CORE_THR_CLASSROOM : Fld := ⟨5, 0⟩
def Fld.CORE_THR_BOUND : Fld := ⟨6, 6⟩
def Reg.CORE_DESK (s : Nat) (c : Nat) : Nat := 0x310080 + s * 0x100000 + c * 0x10000
def Fld.CORE_DESK_OWNER0 : Fld := ⟨5, 0⟩
def Fld.CORE_DESK_OWNER1 : Fld := ⟨13, 8⟩
def Fld.CORE_DESK_OWNER2 : Fld := ⟨21, 16⟩
def Fld.CORE_DESK_OWNER3 : Fld := ⟨29, 24⟩
def Fld.CORE_DESK_OWNER4 : Fld := ⟨37, 32⟩
def Fld.CORE_DESK_OWNER5 : Fld := ⟨45, 40⟩
def Fld.CORE_DESK_OWNER6 : Fld := ⟨53, 48⟩
def Fld.CORE_DESK_VALID0 : Fld := ⟨6, 6⟩
def Fld.CORE_DESK_VALID1 : Fld := ⟨14, 14⟩
def Fld.CORE_DESK_VALID2 : Fld := ⟨22, 22⟩
def Fld.CORE_DESK_VALID3 : Fld := ⟨30, 30⟩
def Fld.CORE_DESK_VALID4 : Fld := ⟨38, 38⟩
def Fld.CORE_DESK_VALID5 : Fld := ⟨46, 46⟩
def Fld.CORE_DESK_VALID6 : Fld := ⟨54, 54⟩
def Reg.CORE_STATUS (s : Nat) (c : Nat) : Nat := 0x310088 + s * 0x100000 + c * 0x10000
def Fld.CORE_STATUS_STATE_0 : Fld := ⟨2, 0⟩
def Fld.CORE_STATUS_STATE_1 : Fld := ⟨6, 4⟩
def Fld.CORE_STATUS_STATE_2 : Fld := ⟨10, 8⟩
def Fld.CORE_STATUS_STATE_3 : Fld := ⟨14, 12⟩
def Fld.CORE_STATUS_STATE_4 : Fld := ⟨18, 16⟩
def Fld.CORE_STATUS_STATE_5 : Fld := ⟨22, 20⟩
def Fld.CORE_STATUS_STATE_6 : Fld := ⟨26, 24⟩
def Fld.CORE_STATUS_STATE_7 : Fld := ⟨30, 28⟩
def Fld.CORE_STATUS_SEAT_THR : Fld := ⟨34, 32⟩
def Fld.CORE_STATUS_SEAT_VALID : Fld := ⟨35, 35⟩
def Fld.CORE_STATUS_BOOSTED : Fld := ⟨47, 40⟩
def Fld.CORE_STATUS_PREEMPT_PEND : Fld := ⟨55, 48⟩
def Reg.CORE_FAULT (s : Nat) (c : Nat) : Nat := 0x310090 + s * 0x100000 + c * 0x10000
def Fld.CORE_FAULT_FAULTED : Fld := ⟨7, 0⟩
def Fld.CORE_FAULT_STALLED : Fld := ⟨15, 8⟩
def Fld.CORE_FAULT_CORE_STOPPED : Fld := ⟨16, 16⟩
def Reg.CORE_TFAULT (s : Nat) (c : Nat) (t : Nat) : Nat := 0x3100c0 + s * 0x100000 + c * 0x10000 + t * 0x8
def Fld.CORE_TFAULT_CAUSE : Fld := ⟨7, 0⟩
def Fld.CORE_TFAULT_PC : Fld := ⟨63, 16⟩
def Reg.CORE_THCTL (s : Nat) (c : Nat) : Nat := 0x310100 + s * 0x100000 + c * 0x10000
def Fld.CORE_THCTL_THREAD : Fld := ⟨2, 0⟩
def Fld.CORE_THCTL_ACTION : Fld := ⟨5, 4⟩
def Reg.CORE_DBG_CTL (s : Nat) (c : Nat) : Nat := 0x310200 + s * 0x100000 + c * 0x10000
def Fld.CORE_DBG_CTL_HALT : Fld := ⟨7, 0⟩
def Fld.CORE_DBG_CTL_RESUME : Fld := ⟨15, 8⟩
def Fld.CORE_DBG_CTL_STEP : Fld := ⟨23, 16⟩
def Reg.CORE_DBG_STATUS (s : Nat) (c : Nat) : Nat := 0x310208 + s * 0x100000 + c * 0x10000
def Fld.CORE_DBG_STATUS_HALTED : Fld := ⟨7, 0⟩
def Fld.CORE_DBG_STATUS_HALT_PENDING : Fld := ⟨15, 8⟩
def Fld.CORE_DBG_STATUS_FORCED : Fld := ⟨23, 16⟩
def Reg.CORE_DBG_SEL (s : Nat) (c : Nat) : Nat := 0x310210 + s * 0x100000 + c * 0x10000
def Fld.CORE_DBG_SEL_THREAD : Fld := ⟨2, 0⟩
def Fld.CORE_DBG_SEL_REG : Fld := ⟨13, 8⟩
def Reg.CORE_DBG_DATA (s : Nat) (c : Nat) : Nat := 0x310218 + s * 0x100000 + c * 0x10000
def Fld.CORE_DBG_DATA_DATA : Fld := ⟨63, 0⟩
def Reg.CORE_WATCH (s : Nat) (c : Nat) (w : Nat) : Nat := 0x310220 + s * 0x100000 + c * 0x10000 + w * 0x8
def Fld.CORE_WATCH_ADDR : Fld := ⟨47, 0⟩
def Fld.CORE_WATCH_THREADS : Fld := ⟨55, 48⟩
def Fld.CORE_WATCH_R : Fld := ⟨56, 56⟩
def Fld.CORE_WATCH_W : Fld := ⟨57, 57⟩
/-! Registers of spec/08_helpers.md. -/

def Reg.HLP_CFG (s : Nat) : Nat := 0x3a0000 + s * 0x100000
def Fld.HLP_CFG_URG_TAKE : Fld := ⟨0, 0⟩
def Reg.HLP_STATUS (s : Nat) : Nat := 0x3a0008 + s * 0x100000
def Fld.HLP_STATUS_UNIT_FENCED : Fld := ⟨5, 0⟩
def Fld.HLP_STATUS_UNIT_BUSY : Fld := ⟨13, 8⟩
def Fld.HLP_STATUS_WAIT_FX : Fld := ⟨22, 16⟩
def Fld.HLP_STATUS_WAIT_DX : Fld := ⟨30, 24⟩
def Fld.HLP_STATUS_WAIT_CX : Fld := ⟨38, 32⟩
def Fld.HLP_STATUS_WAIT_HX : Fld := ⟨46, 40⟩
/-! Registers of spec/09_ledger_tables.md. -/

def Reg.TE_STATUS (n : Nat) : Nat := 0x100000 + n * 0x10000
def Fld.TE_STATUS_FENCED : Fld := ⟨0, 0⟩
def Fld.TE_STATUS_RESYNC : Fld := ⟨1, 1⟩
def Fld.TE_STATUS_CHAIN : Fld := ⟨2, 2⟩
def Fld.TE_STATUS_SERVING : Fld := ⟨31, 16⟩
def Fld.TE_STATUS_REPLAY : Fld := ⟨38, 32⟩
def Reg.TE_CFG (n : Nat) : Nat := 0x100008 + n * 0x10000
def Fld.TE_CFG_LEARN_HOLD_US : Fld := ⟨19, 0⟩
def Fld.TE_CFG_LQ_THRESH : Fld := ⟨55, 32⟩
def Reg.TE_COMMIT (n : Nat) : Nat := 0x100010 + n * 0x10000
def Fld.TE_COMMIT_GO : Fld := ⟨0, 0⟩
def Fld.TE_COMMIT_DONE : Fld := ⟨32, 32⟩
def Reg.TE_LQ_BASE (n : Nat) : Nat := 0x100018 + n * 0x10000
def Fld.TE_LQ_BASE_BASE : Fld := ⟨47, 5⟩
def Reg.TE_LQ_SIZE (n : Nat) : Nat := 0x100020 + n * 0x10000
def Fld.TE_LQ_SIZE_RECORDS : Fld := ⟨23, 0⟩
def Reg.TE_LQ_HEAD (n : Nat) : Nat := 0x100028 + n * 0x10000
def Fld.TE_LQ_HEAD_HEAD : Fld := ⟨23, 0⟩
def Reg.TE_LQ_TAIL (n : Nat) : Nat := 0x100030 + n * 0x10000
def Fld.TE_LQ_TAIL_TAIL : Fld := ⟨23, 0⟩
def Reg.TE_ALOG_BASE (n : Nat) : Nat := 0x100038 + n * 0x10000
def Fld.TE_ALOG_BASE_BASE : Fld := ⟨47, 20⟩
def Reg.TE_EVENT (n : Nat) : Nat := 0x100040 + n * 0x10000
def Fld.TE_EVENT_UNCORR : Fld := ⟨0, 0⟩
def Fld.TE_EVENT_LQ_FULL : Fld := ⟨1, 1⟩
def Fld.TE_EVENT_OVERRUN : Fld := ⟨2, 2⟩
def Reg.TE_CMD (n : Nat) (p : Nat) : Nat := 0x100100 + n * 0x10000 + p * 0x100
def Fld.TE_CMD_OP : Fld := ⟨2, 0⟩
def Fld.TE_CMD_TABLE : Fld := ⟨13, 8⟩
def Reg.TE_CMD_KEY (n : Nat) (p : Nat) (k : Nat) : Nat := 0x100108 + n * 0x10000 + p * 0x100 + k * 0x8
def Fld.TE_CMD_KEY_KEY : Fld := ⟨63, 0⟩
def Reg.TE_CMD_RES (n : Nat) (p : Nat) : Nat := 0x100118 + n * 0x10000 + p * 0x100
def Fld.TE_CMD_RES_STATUS : Fld := ⟨15, 0⟩
def Fld.TE_CMD_RES_BUSY : Fld := ⟨16, 16⟩
def Fld.TE_CMD_RES_OVERRUN : Fld := ⟨17, 17⟩
def Reg.TE_CMD_DATA (n : Nat) (p : Nat) (w : Nat) : Nat := 0x100180 + n * 0x10000 + p * 0x100 + w * 0x8
def Fld.TE_CMD_DATA_WORD : Fld := ⟨63, 0⟩
/-! Registers of spec/10_directory.md. -/

def Reg.DIR_CFG : Nat := 0xe0000
def Fld.DIR_CFG_SCRUB_EN : Fld := ⟨0, 0⟩
def Reg.DIR_COMMIT : Nat := 0xe0008
def Fld.DIR_COMMIT_GO : Fld := ⟨0, 0⟩
def Fld.DIR_COMMIT_DONE : Fld := ⟨32, 32⟩
def Reg.DIR_STATUS : Nat := 0xe0010
def Fld.DIR_STATUS_SCRUB_IDX : Fld := ⟨15, 0⟩
def Fld.DIR_STATUS_PASSES : Fld := ⟨63, 32⟩
def Reg.DIR_EVENT : Nat := 0xe0018
def Fld.DIR_EVENT_CORRECTED : Fld := ⟨0, 0⟩
def Fld.DIR_EVENT_UNCORR : Fld := ⟨1, 1⟩
def Reg.DIR_ERR_LOG : Nat := 0xe0020
def Fld.DIR_ERR_LOG_INDEX : Fld := ⟨15, 0⟩
def Fld.DIR_ERR_LOG_UNCORR : Fld := ⟨16, 16⟩
def Reg.DIR_BLK (n : Nat) : Nat := 0xe0040 + n * 0x8
def Fld.DIR_BLK_WIDTH : Fld := ⟨1, 0⟩
def Reg.DIR_PART (c : Nat) : Nat := 0xe0100 + c * 0x8
def Fld.DIR_PART_BLOCKS : Fld := ⟨15, 0⟩
def Fld.DIR_PART_ROW_BASE : Fld := ⟨27, 16⟩
def Fld.DIR_PART_ROWS : Fld := ⟨44, 32⟩
def Reg.DIR_GMASK (g : Nat) (w : Nat) : Nat := 0xe0400 + g * 0x80 + w * 0x8
def Fld.DIR_GMASK_MASK : Fld := ⟨63, 0⟩
/-! Registers of spec/11_dram.md. -/

def Reg.DDR_CFG (n : Nat) : Nat := 0x200000 + n * 0x10000
def Fld.DDR_CFG_EN : Fld := ⟨0, 0⟩
def Fld.DDR_CFG_RATE : Fld := ⟨2, 1⟩
def Fld.DDR_CFG_SLOTS : Fld := ⟨4, 3⟩
def Fld.DDR_CFG_RANKS : Fld := ⟨6, 5⟩
def Fld.DDR_CFG_X8 : Fld := ⟨7, 7⟩
def Fld.DDR_CFG_DIE16 : Fld := ⟨8, 8⟩
def Fld.DDR_CFG_ROW_BITS : Fld := ⟨12, 9⟩
def Fld.DDR_CFG_MAP : Fld := ⟨14, 13⟩
def Fld.DDR_CFG_CAP_LOG2 : Fld := ⟨21, 16⟩
def Reg.DDR_ILV : Nat := 0x200008
def Fld.DDR_ILV_MODE : Fld := ⟨1, 0⟩
def Reg.DDR_TIM0 (n : Nat) : Nat := 0x200010 + n * 0x10000
def Fld.DDR_TIM0_CL : Fld := ⟨5, 0⟩
def Fld.DDR_TIM0_CWL : Fld := ⟨11, 6⟩
def Fld.DDR_TIM0_TRCD : Fld := ⟨17, 12⟩
def Fld.DDR_TIM0_TRP : Fld := ⟨23, 18⟩
def Fld.DDR_TIM0_TRAS : Fld := ⟨30, 24⟩
def Fld.DDR_TIM0_TRC : Fld := ⟨38, 32⟩
def Fld.DDR_TIM0_TRRD_S : Fld := ⟨43, 40⟩
def Fld.DDR_TIM0_TRRD_L : Fld := ⟨47, 44⟩
def Fld.DDR_TIM0_TFAW : Fld := ⟨54, 48⟩
def Reg.DDR_TIM1 (n : Nat) : Nat := 0x200018 + n * 0x10000
def Fld.DDR_TIM1_TWR : Fld := ⟨5, 0⟩
def Fld.DDR_TIM1_TWTR_S : Fld := ⟨11, 8⟩
def Fld.DDR_TIM1_TWTR_L : Fld := ⟨15, 12⟩
def Fld.DDR_TIM1_TRTP : Fld := ⟨20, 16⟩
def Fld.DDR_TIM1_TCCD_L : Fld := ⟨27, 24⟩
def Fld.DDR_TIM1_TRFC : Fld := ⟨41, 32⟩
def Fld.DDR_TIM1_TXS : Fld := ⟨53, 42⟩
def Reg.DDR_TIM2 (n : Nat) : Nat := 0x200020 + n * 0x10000
def Fld.DDR_TIM2_TREFI : Fld := ⟨15, 0⟩
def Fld.DDR_TIM2_TXP : Fld := ⟨20, 16⟩
def Fld.DDR_TIM2_TCKE : Fld := ⟨27, 24⟩
def Fld.DDR_TIM2_TMOD : Fld := ⟨37, 32⟩
def Fld.DDR_TIM2_TZQCS : Fld := ⟨47, 40⟩
def Fld.DDR_TIM2_TXSDLL : Fld := ⟨59, 48⟩
def Reg.DDR_SCHED (n : Nat) : Nat := 0x200028 + n * 0x10000
def Fld.DDR_SCHED_PANIC_LVL : Fld := ⟨4, 0⟩
def Fld.DDR_SCHED_HIT_CAP : Fld := ⟨11, 8⟩
def Fld.DDR_SCHED_WR_HI : Fld := ⟨20, 16⟩
def Fld.DDR_SCHED_WR_LO : Fld := ⟨28, 24⟩
def Fld.DDR_SCHED_WB_CORR : Fld := ⟨29, 29⟩
def Fld.DDR_SCHED_PD_IDLE : Fld := ⟨47, 32⟩
def Fld.DDR_SCHED_ZQ_MS : Fld := ⟨55, 48⟩
def Fld.DDR_SCHED_SCRUB_H : Fld := ⟨63, 56⟩
def Reg.DDR_THERM (n : Nat) : Nat := 0x200030 + n * 0x10000
def Fld.DDR_THERM_HOT_C : Fld := ⟨7, 0⟩
def Fld.DDR_THERM_LIMIT_C : Fld := ⟨15, 8⟩
def Fld.DDR_THERM_SENSOR_EN : Fld := ⟨16, 16⟩
def Reg.DDR_COMMIT (n : Nat) : Nat := 0x200038 + n * 0x10000
def Fld.DDR_COMMIT_GO : Fld := ⟨0, 0⟩
def Fld.DDR_COMMIT_DONE : Fld := ⟨32, 32⟩
def Reg.DDR_STATUS (n : Nat) : Nat := 0x200040 + n * 0x10000
def Fld.DDR_STATUS_FENCED : Fld := ⟨0, 0⟩
def Fld.DDR_STATUS_PANIC : Fld := ⟨1, 1⟩
def Fld.DDR_STATUS_REF_2X : Fld := ⟨2, 2⟩
def Fld.DDR_STATUS_OWED : Fld := ⟨6, 3⟩
def Fld.DDR_STATUS_RUNG_ACT : Fld := ⟨8, 7⟩
def Fld.DDR_STATUS_INIT_DONE : Fld := ⟨9, 9⟩
def Fld.DDR_STATUS_TEMP0 : Fld := ⟨23, 16⟩
def Fld.DDR_STATUS_TEMP1 : Fld := ⟨31, 24⟩
def Fld.DDR_STATUS_LANE_FAIL : Fld := ⟨40, 32⟩
def Reg.DDR_EVENT (n : Nat) : Nat := 0x200048 + n * 0x10000
def Fld.DDR_EVENT_CORR : Fld := ⟨0, 0⟩
def Fld.DDR_EVENT_UNCORR : Fld := ⟨1, 1⟩
def Fld.DDR_EVENT_HOT : Fld := ⟨2, 2⟩
def Fld.DDR_EVENT_OVERTEMP : Fld := ⟨3, 3⟩
def Fld.DDR_EVENT_SENSOR_FAIL : Fld := ⟨4, 4⟩
def Reg.DDR_ERR_LOG (n : Nat) : Nat := 0x200050 + n * 0x10000
def Fld.DDR_ERR_LOG_ADDR : Fld := ⟨47, 6⟩
def Fld.DDR_ERR_LOG_UNCORR : Fld := ⟨48, 48⟩
def Fld.DDR_ERR_LOG_DEVICE : Fld := ⟨53, 49⟩
def Reg.DDR_PWR (n : Nat) : Nat := 0x200058 + n * 0x10000
def Fld.DDR_PWR_RUNG : Fld := ⟨1, 0⟩
def Reg.DDR_MR (n : Nat) (m : Nat) : Nat := 0x200080 + n * 0x10000 + m * 0x8
def Fld.DDR_MR_VALUE : Fld := ⟨17, 0⟩
def Reg.DDR_RCW (n : Nat) (k : Nat) : Nat := 0x2000c0 + n * 0x10000 + k * 0x8
def Fld.DDR_RCW_VALUE : Fld := ⟨7, 0⟩
def Reg.DDR_DLY (n : Nat) (r : Nat) (l : Nat) : Nat := 0x200400 + n * 0x10000 + r * 0x80 + l * 0x8
def Fld.DDR_DLY_WL : Fld := ⟨9, 0⟩
def Fld.DDR_DLY_RG : Fld := ⟨19, 10⟩
def Fld.DDR_DLY_RD : Fld := ⟨29, 20⟩
def Fld.DDR_DLY_NIB : Fld := ⟨35, 30⟩
/-! Registers of spec/12_square_services.md. -/

def Reg.BP_EVENT : Nat := 0x280008
def Fld.BP_EVENT_EMPTY : Fld := ⟨15, 0⟩
def Fld.BP_EVENT_REF_SAT : Fld := ⟨16, 16⟩
def Reg.BP_COMMIT : Nat := 0x280010
def Fld.BP_COMMIT_GO : Fld := ⟨0, 0⟩
def Fld.BP_COMMIT_DONE : Fld := ⟨32, 32⟩
def Reg.BP_POOL_CFG (p : Nat) : Nat := 0x280100 + p * 0x20
def Fld.BP_POOL_CFG_SIZE : Fld := ⟨2, 0⟩
def Fld.BP_POOL_CFG_MEM : Fld := ⟨3, 3⟩
def Fld.BP_POOL_CFG_NEXT : Fld := ⟨7, 4⟩
def Fld.BP_POOL_CFG_NEXT_EN : Fld := ⟨8, 8⟩
def Fld.BP_POOL_CFG_COUNT : Fld := ⟨54, 32⟩
def Reg.BP_POOL_BASE (p : Nat) : Nat := 0x280108 + p * 0x20
def Fld.BP_POOL_BASE_BASE : Fld := ⟨47, 8⟩
def Reg.BP_POOL_CTL (p : Nat) : Nat := 0x280110 + p * 0x20
def Fld.BP_POOL_CTL_CTL : Fld := ⟨47, 3⟩
def Reg.BP_POOL_CL (p : Nat) : Nat := 0x280118 + p * 0x20
def Fld.BP_POOL_CL_CLASSROOMS : Fld := ⟨63, 0⟩
def Reg.BP_FREE (p : Nat) : Nat := 0x280400 + p * 0x8
def Fld.BP_FREE_FREE : Fld := ⟨22, 0⟩
def Reg.BP_WDOG (k : Nat) : Nat := 0x280600 + k * 0x8
def Fld.BP_WDOG_LIMIT : Fld := ⟨15, 0⟩
def Reg.BP_WDOG_LOG : Nat := 0x280680
def Fld.BP_WDOG_LOG_KIND : Fld := ⟨2, 0⟩
def Fld.BP_WDOG_LOG_INDEX : Fld := ⟨15, 8⟩
def Fld.BP_WDOG_LOG_REQUESTER : Fld := ⟨23, 16⟩
def Fld.BP_WDOG_LOG_BITES : Fld := ⟨63, 32⟩
def Reg.CH_GEOM : Nat := 0x290000
def Fld.CH_GEOM_BASE : Fld := ⟨25, 3⟩
def Fld.CH_GEOM_DEPTH_LOG2 : Fld := ⟨35, 32⟩
def Reg.CH_COMMIT : Nat := 0x290008
def Fld.CH_COMMIT_GO : Fld := ⟨0, 0⟩
def Fld.CH_COMMIT_DONE : Fld := ⟨32, 32⟩
def Reg.CH (n : Nat) : Nat := 0x298000 + n * 0x8
def Fld.CH_CLASSROOM : Fld := ⟨5, 0⟩
def Fld.CH_VALID : Fld := ⟨6, 6⟩
def Fld.CH_WATCH_EN : Fld := ⟨7, 7⟩
def Fld.CH_WATCH : Fld := ⟨17, 8⟩
def Fld.CH_TAIL : Fld := ⟨23, 18⟩
def Fld.CH_WORDS : Fld := ⟨34, 24⟩
def Fld.CH_FULL : Fld := ⟨35, 35⟩
def Fld.CH_PACKETS : Fld := ⟨45, 36⟩
def Fld.CH_OPEN : Fld := ⟨46, 46⟩
def Fld.CH_OVERRUN : Fld := ⟨47, 47⟩
def Fld.CH_TAIL_FIRED : Fld := ⟨48, 48⟩
def Fld.CH_WRITER : Fld := ⟨61, 52⟩
def Reg.HP_CFG : Nat := 0x2a0000
def Fld.HP_CFG_PI_EN : Fld := ⟨0, 0⟩
def Reg.HP_COMMIT : Nat := 0x2a0008
def Fld.HP_COMMIT_GO : Fld := ⟨0, 0⟩
def Fld.HP_COMMIT_DONE : Fld := ⟨32, 32⟩
def Reg.HP_EVENT : Nat := 0x2a0010
def Fld.HP_EVENT_ORPHANED : Fld := ⟨0, 0⟩
def Reg.HP_GRP_CL (g : Nat) : Nat := 0x2a1000 + g * 0x10
def Fld.HP_GRP_CL_CLASSROOMS : Fld := ⟨63, 0⟩
def Reg.HP_GRP_PRIV (g : Nat) : Nat := 0x2a1008 + g * 0x10
def Fld.HP_GRP_PRIV_MINPRIV : Fld := ⟨1, 0⟩
def Reg.HP_LOCK (l : Nat) : Nat := 0x2a8000 + l * 0x8
def Fld.HP_LOCK_HELD : Fld := ⟨0, 0⟩
def Fld.HP_LOCK_ORPHAN : Fld := ⟨1, 1⟩
def Fld.HP_LOCK_SUSPENDED : Fld := ⟨2, 2⟩
def Fld.HP_LOCK_OWNER : Fld := ⟨25, 8⟩
def Fld.HP_LOCK_CLASSROOM : Fld := ⟨31, 26⟩
def Fld.HP_LOCK_CLGEN : Fld := ⟨39, 32⟩
def Fld.HP_LOCK_TGEN : Fld := ⟨47, 40⟩
def Fld.HP_LOCK_WAITERS : Fld := ⟨57, 48⟩
/-! Registers of spec/13_host_commands.md. -/

def Reg.HI_STATUS : Nat := 0x40000
def Fld.HI_STATUS_LINK_SPEED : Fld := ⟨3, 0⟩
def Fld.HI_STATUS_LINK_WIDTH : Fld := ⟨8, 4⟩
def Fld.HI_STATUS_BME : Fld := ⟨9, 9⟩
def Fld.HI_STATUS_PASID_EN : Fld := ⟨10, 10⟩
def Reg.HI_WIN : Nat := 0x40008
def Fld.HI_WIN_WIN : Fld := ⟨38, 34⟩
def Reg.HI_LOAD_CTL : Nat := 0x40010
def Fld.HI_LOAD_CTL_LEN : Fld := ⟨25, 0⟩
def Fld.HI_LOAD_CTL_GO : Fld := ⟨63, 63⟩
def Reg.HI_LOAD_STATUS : Nat := 0x40018
def Fld.HI_LOAD_STATUS_STATE : Fld := ⟨1, 0⟩
def Fld.HI_LOAD_STATUS_REASON : Fld := ⟨15, 8⟩
def Reg.HI_EVENT : Nat := 0x40020
def Fld.HI_EVENT_LINK_CHANGE : Fld := ⟨0, 0⟩
def Fld.HI_EVENT_QUEUE_ERR : Fld := ⟨1, 1⟩
def Fld.HI_EVENT_NOTICE_DROP : Fld := ⟨2, 2⟩
def Fld.HI_EVENT_POISON : Fld := ⟨3, 3⟩
def Reg.Q_SQ_TAIL (q : Nat) : Nat := 0x41000 + q * 0x40
def Fld.Q_SQ_TAIL_TAIL : Fld := ⟨15, 0⟩
def Reg.Q_CQ_HEAD (q : Nat) : Nat := 0x41008 + q * 0x40
def Fld.Q_CQ_HEAD_HEAD : Fld := ⟨15, 0⟩
def Reg.Q_STATUS (q : Nat) : Nat := 0x41010 + q * 0x40
def Fld.Q_STATUS_SQ_HEAD : Fld := ⟨15, 0⟩
def Fld.Q_STATUS_CQ_TAIL : Fld := ⟨31, 16⟩
def Fld.Q_STATUS_EN_ACT : Fld := ⟨32, 32⟩
def Fld.Q_STATUS_PHASE : Fld := ⟨33, 33⟩
def Fld.Q_STATUS_ERR : Fld := ⟨34, 34⟩
def Fld.Q_STATUS_ERR_CODE : Fld := ⟨39, 36⟩
def Reg.Q_CTL (q : Nat) : Nat := 0x41018 + q * 0x40
def Fld.Q_CTL_EN : Fld := ⟨0, 0⟩
def Fld.Q_CTL_GO : Fld := ⟨1, 1⟩
def Fld.Q_CTL_DONE : Fld := ⟨32, 32⟩
def Reg.Q_SQ (q : Nat) : Nat := 0x41020 + q * 0x40
def Fld.Q_SQ_LOG2 : Fld := ⟨4, 0⟩
def Fld.Q_SQ_BASE : Fld := ⟨47, 12⟩
def Reg.Q_CQ (q : Nat) : Nat := 0x41028 + q * 0x40
def Fld.Q_CQ_LOG2 : Fld := ⟨4, 0⟩
def Fld.Q_CQ_BASE : Fld := ⟨47, 12⟩
def Reg.Q_NB (q : Nat) : Nat := 0x41030 + q * 0x40
def Fld.Q_NB_LOG2 : Fld := ⟨4, 0⟩
def Fld.Q_NB_BASE : Fld := ⟨47, 12⟩
/-! Registers of spec/14_classrooms.md. -/

def Reg.CL_COMMIT : Nat := 0x50000
def Fld.CL_COMMIT_GO : Fld := ⟨0, 0⟩
def Fld.CL_COMMIT_DONE : Fld := ⟨32, 32⟩
def Reg.CL_BIND (c : Nat) : Nat := 0x50100 + c * 0x8
def Fld.CL_BIND_PASID : Fld := ⟨19, 0⟩
def Fld.CL_BIND_BOUND : Fld := ⟨20, 20⟩
def Fld.CL_BIND_STATE : Fld := ⟨34, 32⟩
def Fld.CL_BIND_GEN : Fld := ⟨47, 40⟩
def Reg.CL_DLOG_BASE (c : Nat) : Nat := 0x50400 + c * 0x10
def Fld.CL_DLOG_BASE_BASE : Fld := ⟨63, 0⟩
def Reg.CL_DLOG_LEN (c : Nat) : Nat := 0x50408 + c * 0x10
def Fld.CL_DLOG_LEN_PAGES : Fld := ⟨31, 0⟩
def Fld.CL_DLOG_LEN_EN : Fld := ⟨32, 32⟩
def Fld.CL_DLOG_LEN_OVF : Fld := ⟨33, 33⟩
/-! Registers of spec/15_roundabout.md. -/

def Reg.RB_CFG : Nat := 0x2b0000
def Fld.RB_CFG_DEVICE_ID : Fld := ⟨11, 0⟩
def Fld.RB_CFG_EAST_EN : Fld := ⟨12, 12⟩
def Fld.RB_CFG_WEST_EN : Fld := ⟨13, 13⟩
def Fld.RB_CFG_MIRROR_EN : Fld := ⟨14, 14⟩
def Fld.RB_CFG_ANNOUNCE_EN : Fld := ⟨15, 15⟩
def Fld.RB_CFG_RACC_EN : Fld := ⟨16, 16⟩
def Fld.RB_CFG_MLOG_DROP : Fld := ⟨17, 17⟩
def Fld.RB_CFG_MLOG_CONS : Fld := ⟨18, 18⟩
def Fld.RB_CFG_STANDBY : Fld := ⟨43, 32⟩
def Fld.RB_CFG_ETHERTYPE : Fld := ⟨63, 48⟩
def Reg.RB_MAC : Nat := 0x2b0008
def Fld.RB_MAC_MAC : Fld := ⟨47, 0⟩
def Reg.RB_LINK : Nat := 0x2b0010
def Fld.RB_LINK_RTO_US : Fld := ⟨7, 0⟩
def Fld.RB_LINK_RETRY_MAX : Fld := ⟨15, 8⟩
def Fld.RB_LINK_HB_US : Fld := ⟨31, 16⟩
def Fld.RB_LINK_HB_MISS : Fld := ⟨35, 32⟩
def Fld.RB_LINK_MAX_HOPS : Fld := ⟨47, 36⟩
def Fld.RB_LINK_AN_EN : Fld := ⟨48, 48⟩
def Reg.RB_COMMIT : Nat := 0x2b0018
def Fld.RB_COMMIT_GO : Fld := ⟨0, 0⟩
def Fld.RB_COMMIT_DONE : Fld := ⟨32, 32⟩
def Reg.RB_STATUS : Nat := 0x2b0020
def Fld.RB_STATUS_IN_SERVICE : Fld := ⟨1, 0⟩
def Fld.RB_STATUS_FENCED : Fld := ⟨3, 2⟩
def Fld.RB_STATUS_HELD : Fld := ⟨5, 4⟩
def Fld.RB_STATUS_JOINED : Fld := ⟨6, 6⟩
def Fld.RB_STATUS_MIRROR_OK : Fld := ⟨7, 7⟩
def Fld.RB_STATUS_EAST_PEER : Fld := ⟨27, 16⟩
def Fld.RB_STATUS_WEST_PEER : Fld := ⟨43, 32⟩
def Reg.RB_EVENT (l : Nat) : Nat := 0x2b0028 + l * 0x8
def Fld.RB_EVENT_LINK_CHANGE : Fld := ⟨0, 0⟩
def Fld.RB_EVENT_BROKEN : Fld := ⟨1, 1⟩
def Fld.RB_EVENT_MIRROR_LOST : Fld := ⟨2, 2⟩
def Fld.RB_EVENT_MLOG_FULL : Fld := ⟨3, 3⟩
def Fld.RB_EVENT_TERM_SEEN : Fld := ⟨4, 4⟩
def Fld.RB_EVENT_ID_CONFLICT : Fld := ⟨5, 5⟩
def Fld.RB_EVENT_MLOG_DATA : Fld := ⟨6, 6⟩
def Reg.RB_TERM_LAST : Nat := 0x2b0038
def Fld.RB_TERM_LAST_SOURCE : Fld := ⟨11, 0⟩
def Fld.RB_TERM_LAST_SLOT : Fld := ⟨13, 12⟩
def Fld.RB_TERM_LAST_EPOCH : Fld := ⟨31, 16⟩
def Reg.RB_MLOG_BASE : Nat := 0x2b0040
def Fld.RB_MLOG_BASE_BASE : Fld := ⟨47, 6⟩
def Reg.RB_MLOG_SIZE : Nat := 0x2b0048
def Fld.RB_MLOG_SIZE_UNITS : Fld := ⟨23, 0⟩
def Reg.RB_MLOG_HEAD : Nat := 0x2b0050
def Fld.RB_MLOG_HEAD_HEAD : Fld := ⟨23, 0⟩
def Reg.RB_MLOG_TAIL : Nat := 0x2b0058
def Fld.RB_MLOG_TAIL_TAIL : Fld := ⟨23, 0⟩
def Reg.RB_ROUTE (k : Nat) : Nat := 0x2b0100 + k * 0x8
def Fld.RB_ROUTE_WEST : Fld := ⟨63, 0⟩
/-! Registers of spec/16_live_change_terms_gradebook.md. -/

def Reg.GB_BASE : Nat := 0x30000
def Fld.GB_BASE_BASE : Fld := ⟨47, 12⟩
def Reg.GB_CFG : Nat := 0x30008
def Fld.GB_CFG_SIZE_LOG2 : Fld := ⟨4, 0⟩
def Fld.GB_CFG_THRESH : Fld := ⟨55, 32⟩
def Reg.GB_COMMIT : Nat := 0x30010
def Fld.GB_COMMIT_GO : Fld := ⟨0, 0⟩
def Fld.GB_COMMIT_DONE : Fld := ⟨32, 32⟩
def Reg.GB_STATUS : Nat := 0x30018
def Fld.GB_STATUS_NEXT_SEQ : Fld := ⟨63, 0⟩
def Reg.GB_ARCHIVED : Nat := 0x30020
def Fld.GB_ARCHIVED_SEQ : Fld := ⟨63, 0⟩
def Reg.GB_EVENT : Nat := 0x30028
def Fld.GB_EVENT_THRESH : Fld := ⟨0, 0⟩
def Fld.GB_EVENT_OVERWRITE : Fld := ⟨1, 1⟩
def Reg.GB_BOOT : Nat := 0x30030
def Fld.GB_BOOT_NONCE : Fld := ⟨63, 0⟩
/-! Registers of spec/17_faults_and_detention.md. -/

def Reg.FC_CFG : Nat := 0x20000
def Fld.FC_CFG_C_HOLD_US : Fld := ⟨19, 0⟩
def Fld.FC_CFG_SR_WDOG_MS : Fld := ⟨47, 32⟩
def Reg.FC_COMMIT : Nat := 0x20008
def Fld.FC_COMMIT_GO : Fld := ⟨0, 0⟩
def Fld.FC_COMMIT_DONE : Fld := ⟨32, 32⟩
def Reg.FC_EVENT : Nat := 0x20010
def Fld.FC_EVENT_ERR : Fld := ⟨0, 0⟩
def Fld.FC_EVENT_LOG_FULL : Fld := ⟨1, 1⟩
def Fld.FC_EVENT_QUEUE_FULL : Fld := ⟨2, 2⟩
def Reg.FC_ERR : Nat := 0x20018
def Fld.FC_ERR_ASSERTED : Fld := ⟨0, 0⟩
def Fld.FC_ERR_FIRST_SOURCE : Fld := ⟨15, 8⟩
def Fld.FC_ERR_ASSERTIONS : Fld := ⟨63, 32⟩
def Reg.FC_ERR_SRC (k : Nat) : Nat := 0x20020 + k * 0x8
def Fld.FC_ERR_SRC_SOURCES : Fld := ⟨63, 0⟩
def Reg.FC_LOG : Nat := 0x20040
def Fld.FC_LOG_BASE : Fld := ⟨47, 6⟩
def Fld.FC_LOG_SIZE_LOG2 : Fld := ⟨63, 58⟩
def Reg.FC_LOG_PTR : Nat := 0x20048
def Fld.FC_LOG_PTR_HEAD : Fld := ⟨23, 0⟩
def Fld.FC_LOG_PTR_TAIL : Fld := ⟨55, 32⟩
def Reg.FC_ACK : Nat := 0x20050
def Fld.FC_ACK_SOURCE : Fld := ⟨7, 0⟩
def Fld.FC_ACK_GO : Fld := ⟨63, 63⟩
def Reg.FC_SRC (n : Nat) : Nat := 0x21000 + n * 0x8
def Fld.FC_SRC_REACT_C : Fld := ⟨5, 0⟩
def Fld.FC_SRC_REACT_U : Fld := ⟨13, 8⟩
def Fld.FC_SRC_REACT_F : Fld := ⟨21, 16⟩
def Fld.FC_SRC_ACK_C : Fld := ⟨24, 24⟩
def Reg.FC_STAT (n : Nat) : Nat := 0x22000 + n * 0x8
def Fld.FC_STAT_C_PEND : Fld := ⟨0, 0⟩
def Fld.FC_STAT_U_PEND : Fld := ⟨1, 1⟩
def Fld.FC_STAT_F_PEND : Fld := ⟨2, 2⟩
def Fld.FC_STAT_ERR : Fld := ⟨3, 3⟩
def Fld.FC_STAT_LAST_CAUSE : Fld := ⟨15, 8⟩
def Fld.FC_STAT_LAST_UNIT : Fld := ⟨31, 16⟩
def Fld.FC_STAT_FAULTS : Fld := ⟨63, 32⟩
/-! Registers of spec/18_boot_modes_power_clocks.md. -/

def Reg.DEV_ID : Nat := 0x0
def Fld.DEV_ID_PART : Fld := ⟨15, 0⟩
def Fld.DEV_ID_REV : Fld := ⟨23, 16⟩
def Fld.DEV_ID_FUSE_ERR : Fld := ⟨24, 24⟩
def Reg.DEV_MODE : Nat := 0x8
def Fld.DEV_MODE_STATE : Fld := ⟨2, 0⟩
def Reg.DEV_STRAP : Nat := 0x10
def Fld.DEV_STRAP_PCIE_W : Fld := ⟨1, 0⟩
def Fld.DEV_STRAP_SMB_A : Fld := ⟨3, 2⟩
def Fld.DEV_STRAP_TAP : Fld := ⟨4, 4⟩
def Reg.DEV_UID : Nat := 0x18
def Fld.DEV_UID_UID : Fld := ⟨63, 0⟩
def Reg.DEV_EVENT : Nat := 0x20
def Fld.DEV_EVENT_MODE_CHANGE : Fld := ⟨0, 0⟩
def Reg.CLK_STATUS : Nat := 0x10000
def Fld.CLK_STATUS_ROOT_LOCK : Fld := ⟨0, 0⟩
def Fld.CLK_STATUS_PCIE_LOCK : Fld := ⟨1, 1⟩
def Fld.CLK_STATUS_SERDES_LOCK : Fld := ⟨3, 2⟩
def Reg.PWR_THERM : Nat := 0x10008
def Fld.PWR_THERM_WARN_C : Fld := ⟨7, 0⟩
def Fld.PWR_THERM_TRIP_C : Fld := ⟨15, 8⟩
def Reg.PWR_TEMP : Nat := 0x10010
def Fld.PWR_TEMP_MAX_C : Fld := ⟨7, 0⟩
def Fld.PWR_TEMP_MAX_SENSOR : Fld := ⟨11, 8⟩
def Reg.PWR_ST (s : Nat) : Nat := 0x10100 + s * 0x8
def Fld.PWR_ST_RUNG : Fld := ⟨2, 0⟩
def Fld.PWR_ST_IDLE_NS : Fld := ⟨47, 16⟩
def Reg.TB_TIME : Nat := 0x60000
def Fld.TB_TIME_TIME : Fld := ⟨63, 0⟩
def Reg.TB_MONO : Nat := 0x60008
def Fld.TB_MONO_MONO : Fld := ⟨63, 0⟩
def Reg.TB_SET : Nat := 0x60010
def Fld.TB_SET_VALUE : Fld := ⟨63, 0⟩
def Reg.TB_STEP : Nat := 0x60018
def Fld.TB_STEP_DELTA : Fld := ⟨63, 0⟩
def Reg.TB_RATE : Nat := 0x60020
def Fld.TB_RATE_RATE : Fld := ⟨31, 0⟩
def Reg.SR_ALIVE : Nat := 0x2c0000
def Fld.SR_ALIVE_ALIVE : Fld := ⟨0, 0⟩
def Reg.SR_STATUS : Nat := 0x2c0008
def Fld.SR_STATUS_RUNNING : Fld := ⟨0, 0⟩
def Fld.SR_STATUS_RESTARTS : Fld := ⟨63, 32⟩
/-! Registers of spec/02_ports_and_transport.md. -/

def Reg.ETH_CNT_RX_FRAMES (n : Nat) : Nat := 0x80100 + n * 0x2000
def Reg.ETH_CNT_RX_BYTES (n : Nat) : Nat := 0x80108 + n * 0x2000
def Reg.ETH_CNT_RX_FCS_ERR (n : Nat) : Nat := 0x80110 + n * 0x2000
def Reg.ETH_CNT_RX_RUNT (n : Nat) : Nat := 0x80118 + n * 0x2000
def Reg.ETH_CNT_RX_OVERSIZE (n : Nat) : Nat := 0x80120 + n * 0x2000
def Reg.ETH_CNT_RX_PCS_ERR (n : Nat) : Nat := 0x80128 + n * 0x2000
def Reg.ETH_CNT_RX_MAC_CTRL (n : Nat) : Nat := 0x80130 + n * 0x2000
def Reg.ETH_CNT_RX_PAUSE_IGNORED (n : Nat) : Nat := 0x80138 + n * 0x2000
def Reg.ETH_CNT_TX_FRAMES (n : Nat) : Nat := 0x80140 + n * 0x2000
def Reg.ETH_CNT_TX_BYTES (n : Nat) : Nat := 0x80148 + n * 0x2000
def Reg.ETH_CNT_FEC_CORR_CW (n : Nat) : Nat := 0x80150 + n * 0x2000
def Reg.ETH_CNT_FEC_UNCORR_CW (n : Nat) : Nat := 0x80158 + n * 0x2000
def Reg.ETH_CNT_DEFACT_COUNT (n : Nat) : Nat := 0x80160 + n * 0x2000
def Reg.ETH_CNT_FRAG_COUNT (n : Nat) : Nat := 0x80168 + n * 0x2000
def Reg.ETH_CNT_TX_FENCED_DROP (n : Nat) : Nat := 0x80170 + n * 0x2000
def Reg.ETH_CNT_PAUSED_NS (n : Nat) : Nat := 0x80178 + n * 0x2000
def Reg.FST_CNT_RX_DATA : Nat := 0x90100
def Reg.FST_CNT_RX_DUP : Nat := 0x90108
def Reg.FST_CNT_RX_HDR_ERR : Nat := 0x90110
def Reg.FST_CNT_RX_CRC_ERR : Nat := 0x90118
def Reg.FST_CNT_RX_UNKNOWN : Nat := 0x90120
def Reg.FST_CNT_RX_WINDOW_DROP : Nat := 0x90128
def Reg.FST_CNT_SEG_CONFLICT : Nat := 0x90130
def Reg.FST_CNT_POOL_EMPTY : Nat := 0x90138
def Reg.FST_CNT_TX_ACK : Nat := 0x90140
def Reg.FST_CNT_TX_NAK : Nat := 0x90148
def Reg.FST_CNT_TX_RETX : Nat := 0x90150
def Reg.FST_CNT_STREAM_FAILED : Nat := 0x90158
def Reg.FST_CNT_TX_STREAM_DROP : Nat := 0x90160
/-! Registers of spec/03_parse_and_classify.md. -/

def Reg.PG_CNT_WALKS (p : Nat) : Nat := 0xa0200 + p * 0x40
def Reg.PG_CNT_ACCEPT (p : Nat) : Nat := 0xa0208 + p * 0x40
def Reg.PG_CNT_NO_MATCH (p : Nat) : Nat := 0xa0210 + p * 0x40
def Reg.PG_CNT_PARSE_FAIL (p : Nat) : Nat := 0xa0218 + p * 0x40
def Reg.PG_CNT_FRAGMENT (p : Nat) : Nat := 0xa0220 + p * 0x40
def Reg.PG_CNT_VISIT_LIMIT (p : Nat) : Nat := 0xa0228 + p * 0x40
def Reg.PG_CNT_NODES (p : Nat) : Nat := 0xa0230 + p * 0x40
def Reg.PG_CNT_REWALK (p : Nat) : Nat := 0xa0238 + p * 0x40
/-! Registers of spec/04_roll_call_dataflow.md. -/

def Reg.RC_CNT_TOKENS : Nat := 0xd0100
def Reg.RC_CNT_FIRES_MICRO : Nat := 0xd0108
def Reg.RC_CNT_FIRES_LOOKUP : Nat := 0xd0110
def Reg.RC_CNT_FIRES_SEARCH : Nat := 0xd0118
def Reg.RC_CNT_ACTIVATIONS : Nat := 0xd0120
def Reg.RC_CNT_PARKS : Nat := 0xd0128
def Reg.RC_CNT_UNPARKS : Nat := 0xd0130
def Reg.RC_CNT_EMITS_LOCAL : Nat := 0xd0138
def Reg.RC_CNT_EMITS_REMOTE : Nat := 0xd0140
def Reg.RC_CNT_EMIT_DEAD : Nat := 0xd0148
def Reg.RC_CNT_SPILLS : Nat := 0xd0150
def Reg.RC_CNT_REFILLS : Nat := 0xd0158
def Reg.RC_CNT_SKIPPED : Nat := 0xd0160
def Reg.RC_CNT_DUP_OPERAND : Nat := 0xd0168
def Reg.RC_CNT_LATE_TOKEN : Nat := 0xd0170
def Reg.RC_CNT_LOOP_LIMIT : Nat := 0xd0178
def Reg.RC_CNT_COPY_RANGE : Nat := 0xd0180
def Reg.RC_CNT_CONTEXTS_CREATED : Nat := 0xd0188
def Reg.RC_CNT_CONTEXTS_ENDED : Nat := 0xd0190
def Reg.RC_CNT_ABANDONED : Nat := 0xd0198
/-! Registers of spec/05_scheduling_and_ordering.md. -/

def Reg.SQ_CNT_ADMITTED : Nat := 0xb0100
def Reg.SQ_CNT_DISPATCHED : Nat := 0xb0108
def Reg.SQ_CNT_PREEMPTIONS : Nat := 0xb0110
def Reg.SQ_CNT_SEATS : Nat := 0xb0118
def Reg.SQ_CNT_RETIRED : Nat := 0xb0120
def Reg.SQ_CNT_RETIRED_TOKEN_ONLY : Nat := 0xb0128
def Reg.SQ_CNT_RETIRE_ABANDONED : Nat := 0xb0130
def Reg.SQ_CNT_JWR_APPLIED : Nat := 0xb0138
def Reg.SQ_CNT_ABANDON_RERUN : Nat := 0xb0140
def Reg.SQ_CNT_ABANDON_DROP : Nat := 0xb0148
def Reg.SQ_CNT_JOURNAL_OVF : Nat := 0xb0150
def Reg.SQ_CNT_REDISPATCHED : Nat := 0xb0158
def Reg.SQ_CNT_TIMERS_ARMED : Nat := 0xb0160
def Reg.SQ_CNT_TIMERS_DUE : Nat := 0xb0168
def Reg.SQ_CNT_TIMERS_CANCELLED : Nat := 0xb0170
def Reg.SQ_CNT_UNSEQ_DROP : Nat := 0xb0178
def Reg.CW_CNT_RELEASED : Nat := 0xc0100
def Reg.CW_CNT_RELEASED_URGENT : Nat := 0xc0108
def Reg.CW_CNT_HELD : Nat := 0xc0110
def Reg.CW_CNT_FINAL_DROP : Nat := 0xc0118
def Reg.CW_CNT_RECIRCULATED : Nat := 0xc0120
def Reg.CW_CNT_DISCARDED_GEN : Nat := 0xc0128
/-! Registers of spec/06_streets_cores_threads.md. -/

def Reg.CORE_CNT_ISSUED (s : Nat) (c : Nat) : Nat := 0x310300 + s * 0x100000 + c * 0x10000
def Reg.CORE_CNT_IDLE_CYCLES (s : Nat) (c : Nat) : Nat := 0x310308 + s * 0x100000 + c * 0x10000
def Reg.CORE_CNT_PREEMPTED_IN (s : Nat) (c : Nat) : Nat := 0x310310 + s * 0x100000 + c * 0x10000
def Reg.CORE_CNT_PREEMPTED_OUT (s : Nat) (c : Nat) : Nat := 0x310318 + s * 0x100000 + c * 0x10000
def Reg.CORE_CNT_TAKEN_BRANCH (s : Nat) (c : Nat) : Nat := 0x310320 + s * 0x100000 + c * 0x10000
def Reg.CORE_CNT_ICACHE_MISS (s : Nat) (c : Nat) : Nat := 0x310328 + s * 0x100000 + c * 0x10000
def Reg.CORE_CNT_THREAD_FAULTS (s : Nat) (c : Nat) : Nat := 0x310330 + s * 0x100000 + c * 0x10000
def Reg.CORE_CNT_HALTS_FORCED (s : Nat) (c : Nat) : Nat := 0x310338 + s * 0x100000 + c * 0x10000
/-! Registers of spec/08_helpers.md. -/

def Reg.HLP_CNT_ACCEPTED (s : Nat) (k : Nat) : Nat := 0x3a0100 + s * 0x100000 + k * 0x40
def Reg.HLP_CNT_REFUSED (s : Nat) (k : Nat) : Nat := 0x3a0108 + s * 0x100000 + k * 0x40
def Reg.HLP_CNT_HB_SET (s : Nat) (k : Nat) : Nat := 0x3a0110 + s * 0x100000 + k * 0x40
def Reg.HLP_CNT_FAILED (s : Nat) (k : Nat) : Nat := 0x3a0118 + s * 0x100000 + k * 0x40
def Reg.HLP_CNT_TAKEN (s : Nat) (k : Nat) : Nat := 0x3a0120 + s * 0x100000 + k * 0x40
def Reg.HLP_CNT_RESTARTED (s : Nat) (k : Nat) : Nat := 0x3a0128 + s * 0x100000 + k * 0x40
def Reg.HLP_CNT_BYTES (s : Nat) (k : Nat) : Nat := 0x3a0130 + s * 0x100000 + k * 0x40
def Reg.HLP_CNT_BUSY_NS (s : Nat) (k : Nat) : Nat := 0x3a0138 + s * 0x100000 + k * 0x40
/-! Registers of spec/09_ledger_tables.md. -/

def Reg.TE_CNT_LOOKUPS (n : Nat) : Nat := 0x100800 + n * 0x10000
def Reg.TE_CNT_HITS (n : Nat) : Nat := 0x100808 + n * 0x10000
def Reg.TE_CNT_NO_TABLE (n : Nat) : Nat := 0x100810 + n * 0x10000
def Reg.TE_CNT_CACHE_HITS (n : Nat) : Nat := 0x100818 + n * 0x10000
def Reg.TE_CNT_DRAM_LINES (n : Nat) : Nat := 0x100820 + n * 0x10000
def Reg.TE_CNT_REPLAYS (n : Nat) : Nat := 0x100828 + n * 0x10000
def Reg.TE_CNT_MOVES (n : Nat) : Nat := 0x100830 + n * 0x10000
def Reg.TE_CNT_JOURNAL_WRITES (n : Nat) : Nat := 0x100838 + n * 0x10000
def Reg.TE_CNT_INSERTS (n : Nat) : Nat := 0x100840 + n * 0x10000
def Reg.TE_CNT_EVICTIONS (n : Nat) : Nat := 0x100848 + n * 0x10000
def Reg.TE_CNT_LEARN_NOTICES (n : Nat) : Nat := 0x100850 + n * 0x10000
def Reg.TE_CNT_LEARN_SUPPRESSED (n : Nat) : Nat := 0x100858 + n * 0x10000
def Reg.TE_CNT_LQ_DROP (n : Nat) : Nat := 0x100860 + n * 0x10000
def Reg.TE_CNT_CHECK_FAIL (n : Nat) : Nat := 0x100868 + n * 0x10000
def Reg.TE_CNT_MIRROR_READS (n : Nat) : Nat := 0x100870 + n * 0x10000
def Reg.TE_CNT_BAD_WORD (n : Nat) : Nat := 0x100878 + n * 0x10000
/-! Registers of spec/10_directory.md. -/

def Reg.DIR_CNT_SEARCHES : Nat := 0xe0800
def Reg.DIR_CNT_HITS : Nat := 0xe0808
def Reg.DIR_CNT_MISSES : Nat := 0xe0810
def Reg.DIR_CNT_NO_PART : Nat := 0xe0818
def Reg.DIR_CNT_KEY_RANGE : Nat := 0xe0820
def Reg.DIR_CNT_SLOT_DELAYS : Nat := 0xe0828
def Reg.DIR_CNT_UPDATES : Nat := 0xe0830
def Reg.DIR_CNT_SCRUB_CORRECTED : Nat := 0xe0838
def Reg.DIR_CNT_SCRUB_UNCORR : Nat := 0xe0840
def Reg.DIR_CNT_URGENT_SEARCHES : Nat := 0xe0848
/-! Registers of spec/11_dram.md. -/

def Reg.DDR_CNT_READS (n : Nat) : Nat := 0x200800 + n * 0x10000
def Reg.DDR_CNT_WRITES (n : Nat) : Nat := 0x200808 + n * 0x10000
def Reg.DDR_CNT_ROW_HITS (n : Nat) : Nat := 0x200810 + n * 0x10000
def Reg.DDR_CNT_ROW_MISSES (n : Nat) : Nat := 0x200818 + n * 0x10000
def Reg.DDR_CNT_URGENT_READS (n : Nat) : Nat := 0x200820 + n * 0x10000
def Reg.DDR_CNT_PANIC_NS (n : Nat) : Nat := 0x200828 + n * 0x10000
def Reg.DDR_CNT_REFRESHES (n : Nat) : Nat := 0x200830 + n * 0x10000
def Reg.DDR_CNT_REF_FORCED (n : Nat) : Nat := 0x200838 + n * 0x10000
def Reg.DDR_CNT_CORR (n : Nat) : Nat := 0x200840 + n * 0x10000
def Reg.DDR_CNT_UNCORR (n : Nat) : Nat := 0x200848 + n * 0x10000
def Reg.DDR_CNT_SCRUB_LINES (n : Nat) : Nat := 0x200850 + n * 0x10000
def Reg.DDR_CNT_SR_ENTRIES (n : Nat) : Nat := 0x200858 + n * 0x10000
/-! Registers of spec/12_square_services.md. -/

def Reg.BP_CNT_ALLOCS : Nat := 0x280800
def Reg.BP_CNT_ALLOC_NONE : Nat := 0x280808
def Reg.BP_CNT_FALLBACKS : Nat := 0x280810
def Reg.BP_CNT_STALE_OP : Nat := 0x280818
def Reg.BP_CNT_REF_SAT_DROP : Nat := 0x280820
def Reg.BP_CNT_FREES : Nat := 0x280828
def Reg.CH_CNT_WORDS_WRITTEN : Nat := 0x290100
def Reg.CH_CNT_WORDS_READ : Nat := 0x290108
def Reg.CH_CNT_PACKETS_CLOSED : Nat := 0x290110
def Reg.CH_CNT_ABORTS : Nat := 0x290118
def Reg.CH_CNT_OVERRUNS : Nat := 0x290120
def Reg.CH_CNT_DISCARDED_GEN : Nat := 0x290128
def Reg.HP_CNT_ACQUIRES : Nat := 0x2a0100
def Reg.HP_CNT_REFUSED : Nat := 0x2a0108
def Reg.HP_CNT_WAITS : Nat := 0x2a0110
def Reg.HP_CNT_ORPHANED : Nat := 0x2a0118
def Reg.HP_CNT_WITHDRAWN : Nat := 0x2a0120
def Reg.HP_CNT_BOOSTS : Nat := 0x2a0128
def Reg.HP_CNT_CAS_SQM : Nat := 0x2a0130
def Reg.HP_CNT_CAS_DRAM : Nat := 0x2a0138
/-! Registers of spec/13_host_commands.md. -/

def Reg.HI_CNT_COMMANDS : Nat := 0x40100
def Reg.HI_CNT_ACCEPTED_CMDS : Nat := 0x40108
def Reg.HI_CNT_LATER_COMPLETIONS : Nat := 0x40110
def Reg.HI_CNT_NOTICES : Nat := 0x40118
def Reg.HI_CNT_NOTICE_DROP : Nat := 0x40120
def Reg.HI_CNT_REFUSED : Nat := 0x40128
def Reg.HI_CNT_DMA_ERR : Nat := 0x40130
def Reg.HI_CNT_POISON_RX : Nat := 0x40138
def Reg.HI_CNT_BAD_SIZE : Nat := 0x40140
/-! Registers of spec/14_classrooms.md. -/

def Reg.CL_CNT_PASID_VIOL (c : Nat) : Nat := 0x51000 + c * 0x10
def Reg.CL_CNT_DLOG_MARKS (c : Nat) : Nat := 0x51008 + c * 0x10
/-! Registers of spec/15_roundabout.md. -/

def Reg.RB_CNT_TX_FRAMES : Nat := 0x2b0400
def Reg.RB_CNT_RX_FRAMES : Nat := 0x2b0408
def Reg.RB_CNT_FORWARDED : Nat := 0x2b0410
def Reg.RB_CNT_TURNED : Nat := 0x2b0418
def Reg.RB_CNT_RETRANSMITTED : Nat := 0x2b0420
def Reg.RB_CNT_NAK_SENT : Nat := 0x2b0428
def Reg.RB_CNT_RX_BAD : Nat := 0x2b0430
def Reg.RB_CNT_UNREACHABLE : Nat := 0x2b0438
def Reg.RB_CNT_LOST : Nat := 0x2b0440
def Reg.RB_CNT_MIRRORED : Nat := 0x2b0448
def Reg.RB_CNT_MIRROR_SKIPPED : Nat := 0x2b0450
def Reg.RB_CNT_MLOG_DROP : Nat := 0x2b0458
def Reg.RB_CNT_TOKENS_RX : Nat := 0x2b0460
def Reg.RB_CNT_RACC_FAIL : Nat := 0x2b0468
/-! Registers of spec/16_live_change_terms_gradebook.md. -/

def Reg.GB_CNT_RECORDS : Nat := 0x30100
def Reg.GB_CNT_LOST_UNARCHIVED : Nat := 0x30108
def Reg.GB_CNT_SEALS : Nat := 0x30110
def Reg.GB_CNT_QUEUE_FULL_NS : Nat := 0x30118
/-! Registers of spec/17_faults_and_detention.md. -/

def Reg.FC_CNT_REPORTS : Nat := 0x20100
def Reg.FC_CNT_ESCALATED : Nat := 0x20108
def Reg.FC_CNT_FENCES : Nat := 0x20110
def Reg.FC_CNT_LOG_DROP : Nat := 0x20118
def Reg.FC_CNT_SAFE_ENTRIES : Nat := 0x20120
def Reg.FC_CNT_AUTO_ACKS : Nat := 0x20128
def Reg.DEV_FENCE_CORE_0 : Nat := 0x100
def Fld.DEV_FENCE_CORE_0_UNITS : Fld := ⟨63, 0⟩
def Reg.DEV_FENCE_CORE_1 : Nat := 0x108
def Fld.DEV_FENCE_CORE_1_UNITS : Fld := ⟨31, 0⟩
def Reg.DEV_FENCE_HLP_0 : Nat := 0x110
def Fld.DEV_FENCE_HLP_0_UNITS : Fld := ⟨63, 0⟩
def Reg.DEV_FENCE_HLP_1 : Nat := 0x118
def Fld.DEV_FENCE_HLP_1_UNITS : Fld := ⟨7, 0⟩
def Reg.DEV_FENCE_MISC : Nat := 0x120
def Fld.DEV_FENCE_MISC_STREETS : Fld := ⟨11, 0⟩
def Fld.DEV_FENCE_MISC_ENGINES : Fld := ⟨31, 16⟩
def Fld.DEV_FENCE_MISC_BANKS : Fld := ⟨35, 32⟩
def Fld.DEV_FENCE_MISC_PIPES : Fld := ⟨39, 36⟩
def Fld.DEV_FENCE_MISC_LANES : Fld := ⟨43, 40⟩
def Fld.DEV_FENCE_MISC_DDR : Fld := ⟨55, 48⟩
def Fld.DEV_FENCE_MISC_PORTS : Fld := ⟨57, 56⟩
def Fld.DEV_FENCE_MISC_RING : Fld := ⟨59, 58⟩
/-! Registers of spec/13_host_commands.md. -/

def Reg.CQ_SQ_TAIL (c : Nat) : Nat := 0x4000000 + c * 0x10000
def Reg.CQ_CQ_HEAD (c : Nat) : Nat := 0x4000008 + c * 0x10000
def Reg.CQ_STATUS (c : Nat) : Nat := 0x4000010 + c * 0x10000
def Reg.CQ_CTL (c : Nat) : Nat := 0x4000018 + c * 0x10000
def Reg.CQ_SQ (c : Nat) : Nat := 0x4000020 + c * 0x10000
def Reg.CQ_CQ (c : Nat) : Nat := 0x4000028 + c * 0x10000
def Reg.CQ_NB (c : Nat) : Nat := 0x4000030 + c * 0x10000

end Sys2Proof.Machine
end

