-- ==== Sys2Proof/Machine/RegTable.lean ====
section
/-! DEFINITION. The register catalogue: for every register of spec/02 to spec/18 its place, its commit group
and, field by field, its type and its reset value, as the register tables give them (R8, R10, R12, R13). -/

namespace Sys2Proof.Machine

/-- The six field types of R10. -/
inductive FieldType
  | ro | rwl | rws | rwf | w1c | wo
  deriving DecidableEq, Repr

/-- The commit groups of the table "Commit groups and their safe points" (spec/16); `fc` is the group of the
fault collector (spec/17). -/
inductive Grp
  | none
  | ethN (n : Nat) | ethGrp (g : Nat) | fst | pg | rc | sq | cw
  | tt (core : Nat) | thr (core : Nat) | st (s : Nat) | te (n : Nat) | dir | ddr (n : Nat)
  | bp | ch | hp | hiq (q : Nat) | clq (c : Nat) | cl | rb | gb | fc
  deriving DecidableEq, Repr

/-- One field of a register table: its bits, its type and its reset value. -/
structure FieldRow where
  fld : Fld
  ty : FieldType
  reset : Nat
  deriving DecidableEq, Repr

/-- The kind of a commit group, without its index. -/
inductive GrpKind
  | none | ethN | ethGrp | fst | pg | rc | sq | cw | tt | thr | st | te | dir | ddr
  | bp | ch | hp | hiq | clq | cl | rb | gb | fc
  deriving DecidableEq, Repr

/-- The group of a kind with the index its first table dimensions give. -/
def GrpKind.grp : GrpKind → Nat → Grp
  | .none, _ => .none | .ethN, i => .ethN i | .ethGrp, i => .ethGrp i | .fst, _ => .fst | .pg, _ => .pg
  | .rc, _ => .rc | .sq, _ => .sq | .cw, _ => .cw | .tt, i => .tt i | .thr, i => .thr i | .st, i => .st i
  | .te, i => .te i | .dir, _ => .dir | .ddr, i => .ddr i | .bp, _ => .bp | .ch, _ => .ch | .hp, _ => .hp
  | .hiq, i => .hiq i | .clq, i => .clq i | .cl, _ => .cl | .rb, _ => .rb | .gb, _ => .gb | .fc, _ => .fc

/-- One row of the catalogue: the offset of the first register, how many there are in each dimension and how far
apart, the commit group with the number of leading dimensions that index it, and the fields. -/
structure RegRow where
  base : Nat
  dims : List (Nat × Nat)
  grp : GrpKind
  grpDims : Nat
  fields : List FieldRow
  deriving DecidableEq, Repr

/-- The indices of an offset in a row's dimensions, outermost first, if the offset is one of the row's. -/
def dimIndex : List (Nat × Nat) → Nat → Option (List Nat)
  | [], r => if r = 0 then some [] else none
  | (count, stride) :: ds, r =>
      if r / stride < count then (dimIndex ds (r % stride)).map (r / stride :: ·) else none

/-- The indices of offset `off` in row `r`. -/
def RegRow.index (r : RegRow) (off : Nat) : Option (List Nat) :=
  if off < r.base then none else dimIndex r.dims (off - r.base)

/-- Flatten the first `k` indices to one number. -/
def flattenIdx : List (Nat × Nat) → List Nat → Nat → Nat → Nat
  | _, _, 0, acc => acc
  | (count, _) :: ds, i :: is, k + 1, acc => flattenIdx ds is k (acc * count + i)
  | _, _, _ + 1, acc => acc

/-- Catalogue rows of the ETH registers. -/
def regRowsETH : List RegRow := [
  ⟨Reg.ETH_GRP 0, [(2, 0x8000)], .ethGrp, 1,
    [⟨Fld.ETH_GRP_MODE, .rws, 0⟩, ⟨Fld.ETH_GRP_MEDIA, .rws, 0⟩, ⟨Fld.ETH_GRP_FEC, .rws, 0⟩, ⟨Fld.ETH_GRP_MODE_ACT, .ro, 0⟩]⟩,
  ⟨Reg.ETH_CFG 0, [(8, 0x2000)], .ethN, 1,
    [⟨Fld.ETH_CFG_PORT_EN, .rws, 0⟩, ⟨Fld.ETH_CFG_PAUSE_EN, .rws, 1⟩, ⟨Fld.ETH_CFG_PFC_EN, .rws, 0⟩, ⟨Fld.ETH_CFG_AN_EN, .rws, 1⟩, ⟨Fld.ETH_CFG_TS_EN, .rws, 1⟩, ⟨Fld.ETH_CFG_OUTER_TPID, .rws, 0x88a8⟩]⟩,
  ⟨Reg.ETH_PFC 0, [(8, 0x2000)], .ethN, 1,
    [⟨Fld.ETH_PFC_Q0_PRIO, .rws, 0xff⟩, ⟨Fld.ETH_PFC_Q1_PRIO, .rws, 0xff⟩, ⟨Fld.ETH_PFC_Q2_PRIO, .rws, 0xff⟩]⟩,
  ⟨Reg.ETH_DEFACT 0, [(8, 0x2000)], .ethN, 1,
    [⟨Fld.ETH_DEFACT_DEFAULT_ACT, .rws, 0⟩, ⟨Fld.ETH_DEFACT_FRAG_ACT, .rws, 0⟩, ⟨Fld.ETH_DEFACT_DEF_CLASSROOM, .rws, 0⟩, ⟨Fld.ETH_DEFACT_DEF_CLASS, .rws, 7⟩, ⟨Fld.ETH_DEFACT_DEF_GRAPH, .rws, 0⟩, ⟨Fld.ETH_DEFACT_MGR_Q, .rws, 0⟩]⟩,
  ⟨Reg.ETH_PTP 0, [(8, 0x2000)], .none, 0,
    [⟨Fld.ETH_PTP_RX_ADJ, .rwl, 0⟩, ⟨Fld.ETH_PTP_TX_ADJ, .rwl, 0⟩]⟩,
  ⟨Reg.ETH_PAUSE 0, [(8, 0x2000)], .none, 0,
    [⟨Fld.ETH_PAUSE_LIMIT_US, .rwl, 0x1388⟩]⟩,
  ⟨Reg.ETH_STATUS 0, [(8, 0x2000)], .none, 0,
    [⟨Fld.ETH_STATUS_LINK_UP, .ro, 0⟩, ⟨Fld.ETH_STATUS_FEC_LOCK, .ro, 0⟩, ⟨Fld.ETH_STATUS_AN_DONE, .ro, 0⟩, ⟨Fld.ETH_STATUS_QPAUSED, .ro, 0⟩, ⟨Fld.ETH_STATUS_PAUSE_STORM, .w1c, 0⟩, ⟨Fld.ETH_STATUS_LINK_CHANGE, .w1c, 0⟩, ⟨Fld.ETH_STATUS_TXTS_OVF, .w1c, 0⟩, ⟨Fld.ETH_STATUS_FEC_UNCORR, .w1c, 0⟩]⟩,
  ⟨Reg.ETH_COMMIT 0, [(8, 0x2000)], .none, 0,
    [⟨Fld.ETH_COMMIT_GO, .wo, 0⟩, ⟨Fld.ETH_COMMIT_GRP_GO, .wo, 0⟩, ⟨Fld.ETH_COMMIT_DONE, .ro, 1⟩, ⟨Fld.ETH_COMMIT_GRP_DONE, .ro, 1⟩]⟩,
  ⟨Reg.ETH_TXTS 0, [(8, 0x2000)], .none, 0,
    [⟨Fld.ETH_TXTS_TS, .ro, 0⟩]⟩,
  ⟨Reg.ETH_TXTS_TAG 0, [(8, 0x2000)], .none, 0,
    [⟨Fld.ETH_TXTS_TAG_TAG, .ro, 0⟩, ⟨Fld.ETH_TXTS_TAG_VALID, .ro, 0⟩]⟩,
  ⟨Reg.ETH_TXTS_POP 0, [(8, 0x2000)], .none, 0,
    [⟨Fld.ETH_TXTS_POP_POP, .wo, 0⟩]⟩,
  ⟨Reg.ETH_CNT_RX_FRAMES 0, [(8, 0x2000)], .none, 0,
    [⟨⟨63, 0⟩, .ro, 0⟩]⟩,
  ⟨Reg.ETH_CNT_RX_BYTES 0, [(8, 0x2000)], .none, 0,
    [⟨⟨63, 0⟩, .ro, 0⟩]⟩,
  ⟨Reg.ETH_CNT_RX_FCS_ERR 0, [(8, 0x2000)], .none, 0,
    [⟨⟨63, 0⟩, .ro, 0⟩]⟩,
  ⟨Reg.ETH_CNT_RX_RUNT 0, [(8, 0x2000)], .none, 0,
    [⟨⟨63, 0⟩, .ro, 0⟩]⟩,
  ⟨Reg.ETH_CNT_RX_OVERSIZE 0, [(8, 0x2000)], .none, 0,
    [⟨⟨63, 0⟩, .ro, 0⟩]⟩,
  ⟨Reg.ETH_CNT_RX_PCS_ERR 0, [(8, 0x2000)], .none, 0,
    [⟨⟨63, 0⟩, .ro, 0⟩]⟩,
  ⟨Reg.ETH_CNT_RX_MAC_CTRL 0, [(8, 0x2000)], .none, 0,
    [⟨⟨63, 0⟩, .ro, 0⟩]⟩,
  ⟨Reg.ETH_CNT_RX_PAUSE_IGNORED 0, [(8, 0x2000)], .none, 0,
    [⟨⟨63, 0⟩, .ro, 0⟩]⟩,
  ⟨Reg.ETH_CNT_TX_FRAMES 0, [(8, 0x2000)], .none, 0,
    [⟨⟨63, 0⟩, .ro, 0⟩]⟩,
  ⟨Reg.ETH_CNT_TX_BYTES 0, [(8, 0x2000)], .none, 0,
    [⟨⟨63, 0⟩, .ro, 0⟩]⟩,
  ⟨Reg.ETH_CNT_FEC_CORR_CW 0, [(8, 0x2000)], .none, 0,
    [⟨⟨63, 0⟩, .ro, 0⟩]⟩,
  ⟨Reg.ETH_CNT_FEC_UNCORR_CW 0, [(8, 0x2000)], .none, 0,
    [⟨⟨63, 0⟩, .ro, 0⟩]⟩,
  ⟨Reg.ETH_CNT_DEFACT_COUNT 0, [(8, 0x2000)], .none, 0,
    [⟨⟨63, 0⟩, .ro, 0⟩]⟩]

/-- Catalogue rows of the ETH registers. -/
def regRowsETH1 : List RegRow := [
  ⟨Reg.ETH_CNT_FRAG_COUNT 0, [(8, 0x2000)], .none, 0,
    [⟨⟨63, 0⟩, .ro, 0⟩]⟩,
  ⟨Reg.ETH_CNT_TX_FENCED_DROP 0, [(8, 0x2000)], .none, 0,
    [⟨⟨63, 0⟩, .ro, 0⟩]⟩,
  ⟨Reg.ETH_CNT_PAUSED_NS 0, [(8, 0x2000)], .none, 0,
    [⟨⟨63, 0⟩, .ro, 0⟩]⟩]

/-- Catalogue rows of the FST registers. -/
def regRowsFST : List RegRow := [
  ⟨Reg.FST_CFG, [], .fst, 0,
    [⟨Fld.FST_CFG_UDP_PORT, .rws, 0xb7e0⟩, ⟨Fld.FST_CFG_ETHERTYPE, .rws, 0x88b5⟩, ⟨Fld.FST_CFG_UDP_EN, .rws, 1⟩, ⟨Fld.FST_CFG_RAW_EN, .rws, 1⟩, ⟨Fld.FST_CFG_IPV6_EN, .rws, 1⟩, ⟨Fld.FST_CFG_REASM_POOL, .rws, 0⟩]⟩,
  ⟨Reg.FST_ACK, [], .fst, 0,
    [⟨Fld.FST_ACK_ACK_EVERY, .rws, 0x10⟩, ⟨Fld.FST_ACK_ACK_DELAY_US, .rws, 0x14⟩, ⟨Fld.FST_ACK_NAK_HOLD_US, .rws, 0xa⟩]⟩,
  ⟨Reg.FST_RETX, [], .fst, 0,
    [⟨Fld.FST_RETX_RTO_US, .rws, 0xc8⟩, ⟨Fld.FST_RETX_RETX_MAX, .rws, 8⟩, ⟨Fld.FST_RETX_TX_WINDOW, .rws, 0x40⟩]⟩,
  ⟨Reg.FST_STATUS, [], .none, 0,
    [⟨Fld.FST_STATUS_POOL_EMPTY, .w1c, 0⟩, ⟨Fld.FST_STATUS_STREAM_FAILED, .w1c, 0⟩]⟩,
  ⟨Reg.FST_COMMIT, [], .none, 0,
    [⟨Fld.FST_COMMIT_GO, .wo, 0⟩, ⟨Fld.FST_COMMIT_DONE, .ro, 1⟩]⟩,
  ⟨Reg.FST_STREAMS, [], .none, 0,
    [⟨Fld.FST_STREAMS_OPEN_COUNT, .ro, 0⟩]⟩,
  ⟨Reg.FST_CNT_RX_DATA, [], .none, 0,
    [⟨⟨63, 0⟩, .ro, 0⟩]⟩,
  ⟨Reg.FST_CNT_RX_DUP, [], .none, 0,
    [⟨⟨63, 0⟩, .ro, 0⟩]⟩,
  ⟨Reg.FST_CNT_RX_HDR_ERR, [], .none, 0,
    [⟨⟨63, 0⟩, .ro, 0⟩]⟩,
  ⟨Reg.FST_CNT_RX_CRC_ERR, [], .none, 0,
    [⟨⟨63, 0⟩, .ro, 0⟩]⟩,
  ⟨Reg.FST_CNT_RX_UNKNOWN, [], .none, 0,
    [⟨⟨63, 0⟩, .ro, 0⟩]⟩,
  ⟨Reg.FST_CNT_RX_WINDOW_DROP, [], .none, 0,
    [⟨⟨63, 0⟩, .ro, 0⟩]⟩,
  ⟨Reg.FST_CNT_SEG_CONFLICT, [], .none, 0,
    [⟨⟨63, 0⟩, .ro, 0⟩]⟩,
  ⟨Reg.FST_CNT_POOL_EMPTY, [], .none, 0,
    [⟨⟨63, 0⟩, .ro, 0⟩]⟩,
  ⟨Reg.FST_CNT_TX_ACK, [], .none, 0,
    [⟨⟨63, 0⟩, .ro, 0⟩]⟩,
  ⟨Reg.FST_CNT_TX_NAK, [], .none, 0,
    [⟨⟨63, 0⟩, .ro, 0⟩]⟩,
  ⟨Reg.FST_CNT_TX_RETX, [], .none, 0,
    [⟨⟨63, 0⟩, .ro, 0⟩]⟩,
  ⟨Reg.FST_CNT_STREAM_FAILED, [], .none, 0,
    [⟨⟨63, 0⟩, .ro, 0⟩]⟩,
  ⟨Reg.FST_CNT_TX_STREAM_DROP, [], .none, 0,
    [⟨⟨63, 0⟩, .ro, 0⟩]⟩]

/-- Catalogue rows of the PG registers. -/
def regRowsPG : List RegRow := [
  ⟨Reg.PG_STATUS, [], .none, 0,
    [⟨Fld.PG_STATUS_PIPE_FENCED, .ro, 0⟩, ⟨Fld.PG_STATUS_CUR_SLOT, .ro, 0⟩, ⟨Fld.PG_STATUS_CUR_VALID, .ro, 0⟩, ⟨Fld.PG_STATUS_CUR_EPOCH, .ro, 0⟩]⟩,
  ⟨Reg.PG_COMMIT, [], .none, 0,
    [⟨Fld.PG_COMMIT_GO, .wo, 0⟩, ⟨Fld.PG_COMMIT_DONE, .ro, 1⟩]⟩,
  ⟨Reg.PG_LIMIT, [], .pg, 0,
    [⟨Fld.PG_LIMIT_MAX_VISITS, .rws, 0x20⟩]⟩,
  ⟨Reg.PG_CLMASK 0, [(8, 0x8)], .pg, 0,
    [⟨Fld.PG_CLMASK_CLASSROOMS, .rws, 0⟩]⟩,
  ⟨Reg.PG_CNT_WALKS 0, [(4, 0x40)], .none, 0,
    [⟨⟨63, 0⟩, .ro, 0⟩]⟩,
  ⟨Reg.PG_CNT_ACCEPT 0, [(4, 0x40)], .none, 0,
    [⟨⟨63, 0⟩, .ro, 0⟩]⟩,
  ⟨Reg.PG_CNT_NO_MATCH 0, [(4, 0x40)], .none, 0,
    [⟨⟨63, 0⟩, .ro, 0⟩]⟩,
  ⟨Reg.PG_CNT_PARSE_FAIL 0, [(4, 0x40)], .none, 0,
    [⟨⟨63, 0⟩, .ro, 0⟩]⟩,
  ⟨Reg.PG_CNT_FRAGMENT 0, [(4, 0x40)], .none, 0,
    [⟨⟨63, 0⟩, .ro, 0⟩]⟩,
  ⟨Reg.PG_CNT_VISIT_LIMIT 0, [(4, 0x40)], .none, 0,
    [⟨⟨63, 0⟩, .ro, 0⟩]⟩,
  ⟨Reg.PG_CNT_NODES 0, [(4, 0x40)], .none, 0,
    [⟨⟨63, 0⟩, .ro, 0⟩]⟩,
  ⟨Reg.PG_CNT_REWALK 0, [(4, 0x40)], .none, 0,
    [⟨⟨63, 0⟩, .ro, 0⟩]⟩]

/-- Catalogue rows of the RC registers. -/
def regRowsRC : List RegRow := [
  ⟨Reg.RC_SPILL_BASE, [], .none, 0,
    [⟨Fld.RC_SPILL_BASE_BASE, .rwf, 0⟩]⟩,
  ⟨Reg.RC_SPILL_SIZE, [], .none, 0,
    [⟨Fld.RC_SPILL_SIZE_SLOTS, .rwf, 0⟩]⟩,
  ⟨Reg.RC_CTX_BASE, [], .none, 0,
    [⟨Fld.RC_CTX_BASE_BASE, .rwf, 0⟩]⟩,
  ⟨Reg.RC_CTX_COUNT, [], .none, 0,
    [⟨Fld.RC_CTX_COUNT_COUNT, .rwf, 0⟩]⟩,
  ⟨Reg.RC_SQM, [], .none, 0,
    [⟨Fld.RC_SQM_CSTORE_OFF, .rwf, 0⟩, ⟨Fld.RC_SQM_NCACHE_OFF, .rwf, 0⟩]⟩,
  ⟨Reg.RC_ADMIT, [], .rc, 0,
    [⟨Fld.RC_ADMIT_RESERVE, .rws, 0x100000⟩, ⟨Fld.RC_ADMIT_REPLY_CLASSES, .rws, 0⟩]⟩,
  ⟨Reg.RC_FLOOR, [], .rc, 0,
    [⟨Fld.RC_FLOOR_FLOOR, .rws, 0x40000⟩]⟩,
  ⟨Reg.RC_URGENT, [], .rc, 0,
    [⟨Fld.RC_URGENT_MAX_CTX, .rws, 0x80⟩]⟩,
  ⟨Reg.RC_STALL, [], .rc, 0,
    [⟨Fld.RC_STALL_WINDOW_US, .rws, 0x3e8⟩, ⟨Fld.RC_STALL_EN, .rws, 1⟩]⟩,
  ⟨Reg.RC_COMMIT, [], .none, 0,
    [⟨Fld.RC_COMMIT_GO, .wo, 0⟩, ⟨Fld.RC_COMMIT_DONE, .ro, 1⟩]⟩,
  ⟨Reg.RC_STATUS, [], .none, 0,
    [⟨Fld.RC_STATUS_BANK_FENCED, .ro, 0⟩, ⟨Fld.RC_STATUS_ADMIT_HELD, .ro, 0⟩, ⟨Fld.RC_STATUS_FLOOR_HELD, .ro, 0⟩, ⟨Fld.RC_STATUS_SPILL_EXHAUSTED, .ro, 0⟩, ⟨Fld.RC_STATUS_URGENT_CTX, .ro, 0⟩, ⟨Fld.RC_STATUS_UNPARKED, .ro, 0⟩]⟩,
  ⟨Reg.RC_SPILL_FREE, [], .none, 0,
    [⟨Fld.RC_SPILL_FREE_FREE, .ro, 0⟩]⟩,
  ⟨Reg.RC_EVENT, [], .none, 0,
    [⟨Fld.RC_EVENT_STALEMATE, .w1c, 0⟩, ⟨Fld.RC_EVENT_RESERVE_REACHED, .w1c, 0⟩, ⟨Fld.RC_EVENT_FLOOR_REACHED, .w1c, 0⟩, ⟨Fld.RC_EVENT_SPILL_EXHAUSTED, .w1c, 0⟩]⟩,
  ⟨Reg.RC_STALL_INFO, [], .none, 0,
    [⟨Fld.RC_STALL_INFO_CONTEXT, .ro, 0⟩, ⟨Fld.RC_STALL_INFO_CLASSROOM, .ro, 0⟩, ⟨Fld.RC_STALL_INFO_COUNT, .ro, 0⟩]⟩,
  ⟨Reg.RC_BANK 0, [(4, 0x8)], .none, 0,
    [⟨Fld.RC_BANK_USED, .ro, 0⟩, ⟨Fld.RC_BANK_PINNED, .ro, 0⟩]⟩,
  ⟨Reg.RC_CNT_TOKENS, [], .none, 0,
    [⟨⟨63, 0⟩, .ro, 0⟩]⟩,
  ⟨Reg.RC_CNT_FIRES_MICRO, [], .none, 0,
    [⟨⟨63, 0⟩, .ro, 0⟩]⟩,
  ⟨Reg.RC_CNT_FIRES_LOOKUP, [], .none, 0,
    [⟨⟨63, 0⟩, .ro, 0⟩]⟩,
  ⟨Reg.RC_CNT_FIRES_SEARCH, [], .none, 0,
    [⟨⟨63, 0⟩, .ro, 0⟩]⟩,
  ⟨Reg.RC_CNT_ACTIVATIONS, [], .none, 0,
    [⟨⟨63, 0⟩, .ro, 0⟩]⟩,
  ⟨Reg.RC_CNT_PARKS, [], .none, 0,
    [⟨⟨63, 0⟩, .ro, 0⟩]⟩,
  ⟨Reg.RC_CNT_UNPARKS, [], .none, 0,
    [⟨⟨63, 0⟩, .ro, 0⟩]⟩,
  ⟨Reg.RC_CNT_EMITS_LOCAL, [], .none, 0,
    [⟨⟨63, 0⟩, .ro, 0⟩]⟩,
  ⟨Reg.RC_CNT_EMITS_REMOTE, [], .none, 0,
    [⟨⟨63, 0⟩, .ro, 0⟩]⟩]

/-- Catalogue rows of the RC registers. -/
def regRowsRC1 : List RegRow := [
  ⟨Reg.RC_CNT_EMIT_DEAD, [], .none, 0,
    [⟨⟨63, 0⟩, .ro, 0⟩]⟩,
  ⟨Reg.RC_CNT_SPILLS, [], .none, 0,
    [⟨⟨63, 0⟩, .ro, 0⟩]⟩,
  ⟨Reg.RC_CNT_REFILLS, [], .none, 0,
    [⟨⟨63, 0⟩, .ro, 0⟩]⟩,
  ⟨Reg.RC_CNT_SKIPPED, [], .none, 0,
    [⟨⟨63, 0⟩, .ro, 0⟩]⟩,
  ⟨Reg.RC_CNT_DUP_OPERAND, [], .none, 0,
    [⟨⟨63, 0⟩, .ro, 0⟩]⟩,
  ⟨Reg.RC_CNT_LATE_TOKEN, [], .none, 0,
    [⟨⟨63, 0⟩, .ro, 0⟩]⟩,
  ⟨Reg.RC_CNT_LOOP_LIMIT, [], .none, 0,
    [⟨⟨63, 0⟩, .ro, 0⟩]⟩,
  ⟨Reg.RC_CNT_COPY_RANGE, [], .none, 0,
    [⟨⟨63, 0⟩, .ro, 0⟩]⟩,
  ⟨Reg.RC_CNT_CONTEXTS_CREATED, [], .none, 0,
    [⟨⟨63, 0⟩, .ro, 0⟩]⟩,
  ⟨Reg.RC_CNT_CONTEXTS_ENDED, [], .none, 0,
    [⟨⟨63, 0⟩, .ro, 0⟩]⟩,
  ⟨Reg.RC_CNT_ABANDONED, [], .none, 0,
    [⟨⟨63, 0⟩, .ro, 0⟩]⟩]

/-- Catalogue rows of the SQ registers. -/
def regRowsSQ : List RegRow := [
  ⟨Reg.SQ_CFG, [], .sq, 0,
    [⟨Fld.SQ_CFG_RERUN_MAX, .rws, 8⟩, ⟨Fld.SQ_CFG_PREEMPT_EN, .rws, 1⟩]⟩,
  ⟨Reg.SQ_ACT, [], .none, 0,
    [⟨Fld.SQ_ACT_RECORDS, .rwf, 0⟩, ⟨Fld.SQ_ACT_ACT_OFF, .rwf, 0⟩]⟩,
  ⟨Reg.SQ_DLY_BASE, [], .none, 0,
    [⟨Fld.SQ_DLY_BASE_BASE, .rwf, 0⟩]⟩,
  ⟨Reg.SQ_DLY_SIZE, [], .none, 0,
    [⟨Fld.SQ_DLY_SIZE_ENTRIES, .rwf, 0⟩]⟩,
  ⟨Reg.SQ_COMMIT, [], .none, 0,
    [⟨Fld.SQ_COMMIT_GO, .wo, 0⟩, ⟨Fld.SQ_COMMIT_DONE, .ro, 1⟩]⟩,
  ⟨Reg.SQ_STATUS, [], .none, 0,
    [⟨Fld.SQ_STATUS_ACT_FREE, .ro, 0⟩, ⟨Fld.SQ_STATUS_OVERDRAW_FREE, .ro, 0x80⟩]⟩,
  ⟨Reg.SQ_EVENT, [], .none, 0,
    [⟨Fld.SQ_EVENT_ACT_EXHAUSTED, .w1c, 0⟩, ⟨Fld.SQ_EVENT_DLY_EXHAUSTED, .w1c, 0⟩, ⟨Fld.SQ_EVENT_OVERDRAW_EXHAUSTED, .w1c, 0⟩]⟩,
  ⟨Reg.SQ_TICK, [], .none, 0,
    [⟨Fld.SQ_TICK_TICK, .ro, 0⟩]⟩,
  ⟨Reg.SQ_DLY_FREE, [], .none, 0,
    [⟨Fld.SQ_DLY_FREE_FREE, .ro, 0⟩]⟩,
  ⟨Reg.SQ_SHARE 0, [(64, 0x8)], .sq, 0,
    [⟨Fld.SQ_SHARE_ENTRIES, .rws, 0⟩, ⟨Fld.SQ_SHARE_WEIGHT, .rws, 1⟩]⟩,
  ⟨Reg.SQ_OCC 0, [(64, 0x8)], .none, 0,
    [⟨Fld.SQ_OCC_OCC, .ro, 0⟩, ⟨Fld.SQ_OCC_HELD, .ro, 0⟩]⟩,
  ⟨Reg.SQ_CNT_ADMITTED, [], .none, 0,
    [⟨⟨63, 0⟩, .ro, 0⟩]⟩,
  ⟨Reg.SQ_CNT_DISPATCHED, [], .none, 0,
    [⟨⟨63, 0⟩, .ro, 0⟩]⟩,
  ⟨Reg.SQ_CNT_PREEMPTIONS, [], .none, 0,
    [⟨⟨63, 0⟩, .ro, 0⟩]⟩,
  ⟨Reg.SQ_CNT_SEATS, [], .none, 0,
    [⟨⟨63, 0⟩, .ro, 0⟩]⟩,
  ⟨Reg.SQ_CNT_RETIRED, [], .none, 0,
    [⟨⟨63, 0⟩, .ro, 0⟩]⟩,
  ⟨Reg.SQ_CNT_RETIRED_TOKEN_ONLY, [], .none, 0,
    [⟨⟨63, 0⟩, .ro, 0⟩]⟩,
  ⟨Reg.SQ_CNT_RETIRE_ABANDONED, [], .none, 0,
    [⟨⟨63, 0⟩, .ro, 0⟩]⟩,
  ⟨Reg.SQ_CNT_JWR_APPLIED, [], .none, 0,
    [⟨⟨63, 0⟩, .ro, 0⟩]⟩,
  ⟨Reg.SQ_CNT_ABANDON_RERUN, [], .none, 0,
    [⟨⟨63, 0⟩, .ro, 0⟩]⟩,
  ⟨Reg.SQ_CNT_ABANDON_DROP, [], .none, 0,
    [⟨⟨63, 0⟩, .ro, 0⟩]⟩,
  ⟨Reg.SQ_CNT_JOURNAL_OVF, [], .none, 0,
    [⟨⟨63, 0⟩, .ro, 0⟩]⟩,
  ⟨Reg.SQ_CNT_REDISPATCHED, [], .none, 0,
    [⟨⟨63, 0⟩, .ro, 0⟩]⟩,
  ⟨Reg.SQ_CNT_TIMERS_ARMED, [], .none, 0,
    [⟨⟨63, 0⟩, .ro, 0⟩]⟩]

/-- Catalogue rows of the SQ registers. -/
def regRowsSQ1 : List RegRow := [
  ⟨Reg.SQ_CNT_TIMERS_DUE, [], .none, 0,
    [⟨⟨63, 0⟩, .ro, 0⟩]⟩,
  ⟨Reg.SQ_CNT_TIMERS_CANCELLED, [], .none, 0,
    [⟨⟨63, 0⟩, .ro, 0⟩]⟩,
  ⟨Reg.SQ_CNT_UNSEQ_DROP, [], .none, 0,
    [⟨⟨63, 0⟩, .ro, 0⟩]⟩]

/-- Catalogue rows of the CW registers. -/
def regRowsCW : List RegRow := [
  ⟨Reg.CW_BASE, [], .none, 0,
    [⟨Fld.CW_BASE_BASE, .rwf, 0⟩]⟩,
  ⟨Reg.CW_CFG, [], .cw, 0,
    [⟨Fld.CW_CFG_HOLD_US, .rws, 0x3e8⟩, ⟨Fld.CW_CFG_HOLD_EN, .rws, 1⟩]⟩,
  ⟨Reg.CW_COMMIT, [], .none, 0,
    [⟨Fld.CW_COMMIT_GO, .wo, 0⟩, ⟨Fld.CW_COMMIT_DONE, .ro, 1⟩]⟩,
  ⟨Reg.CW_STATUS, [], .none, 0,
    [⟨Fld.CW_STATUS_LANE_FENCED, .ro, 0⟩, ⟨Fld.CW_STATUS_LANE_MOVING, .ro, 0⟩]⟩,
  ⟨Reg.CW_LANE 0, [(4, 0x8)], .none, 0,
    [⟨Fld.CW_LANE_HOLD, .w1c, 0⟩, ⟨Fld.CW_LANE_DOMAINS, .ro, 0⟩]⟩,
  ⟨Reg.CW_HOLD_INFO 0, [(4, 0x8)], .none, 0,
    [⟨Fld.CW_HOLD_INFO_CONTEXT, .ro, 0⟩, ⟨Fld.CW_HOLD_INFO_CLASSROOM, .ro, 0⟩, ⟨Fld.CW_HOLD_INFO_HELD_US, .ro, 0⟩]⟩,
  ⟨Reg.CW_CNT_RELEASED, [], .none, 0,
    [⟨⟨63, 0⟩, .ro, 0⟩]⟩,
  ⟨Reg.CW_CNT_RELEASED_URGENT, [], .none, 0,
    [⟨⟨63, 0⟩, .ro, 0⟩]⟩,
  ⟨Reg.CW_CNT_HELD, [], .none, 0,
    [⟨⟨63, 0⟩, .ro, 0⟩]⟩,
  ⟨Reg.CW_CNT_FINAL_DROP, [], .none, 0,
    [⟨⟨63, 0⟩, .ro, 0⟩]⟩,
  ⟨Reg.CW_CNT_RECIRCULATED, [], .none, 0,
    [⟨⟨63, 0⟩, .ro, 0⟩]⟩,
  ⟨Reg.CW_CNT_DISCARDED_GEN, [], .none, 0,
    [⟨⟨63, 0⟩, .ro, 0⟩]⟩]

/-- Catalogue rows of the ST registers. -/
def regRowsST : List RegRow := [
  ⟨Reg.ST_STATUS 0, [(12, 0x100000)], .none, 0,
    [⟨Fld.ST_STATUS_CORE_FENCED, .ro, 0⟩, ⟨Fld.ST_STATUS_STREET_FENCED, .ro, 0⟩, ⟨Fld.ST_STATUS_RUNG_ACT, .ro, 0⟩]⟩,
  ⟨Reg.ST_COMMIT 0, [(12, 0x100000)], .none, 0,
    [⟨Fld.ST_COMMIT_GO, .wo, 0⟩, ⟨Fld.ST_COMMIT_DONE, .ro, 1⟩]⟩,
  ⟨Reg.ST_PAGE 0 0, [(12, 0x100000), (32, 0x8)], .st, 1,
    [⟨Fld.ST_PAGE_CLASSROOM, .rws, 0⟩, ⟨Fld.ST_PAGE_VALID, .rws, 0⟩]⟩]

/-- Catalogue rows of the CORE registers. -/
def regRowsCORE : List RegRow := [
  ⟨Reg.CORE_TT 0 0, [(12, 0x100000), (8, 0x10000)], .tt, 2,
    [⟨Fld.CORE_TT_SLOTS, .rws, 0x7654321076543210⟩]⟩,
  ⟨Reg.CORE_TT_ACT 0 0, [(12, 0x100000), (8, 0x10000)], .none, 0,
    [⟨Fld.CORE_TT_ACT_SLOTS_ACT, .ro, 0x7654321076543210⟩]⟩,
  ⟨Reg.CORE_CFG 0 0, [(12, 0x100000), (8, 0x10000)], .tt, 2,
    [⟨Fld.CORE_CFG_HPRIO_EN, .rws, 0⟩, ⟨Fld.CORE_CFG_HPRIO_THR, .rws, 1⟩, ⟨Fld.CORE_CFG_SEAT_LIMIT, .rws, 0x40⟩, ⟨Fld.CORE_CFG_TSTALL_US, .rws, 0x3e8⟩, ⟨Fld.CORE_CFG_TSTALL_EN, .rws, 1⟩]⟩,
  ⟨Reg.CORE_CTL 0 0, [(12, 0x100000), (8, 0x10000)], .none, 0,
    [⟨Fld.CORE_CTL_RECOVERY, .rwl, 0⟩]⟩,
  ⟨Reg.CORE_COMMIT 0 0, [(12, 0x100000), (8, 0x10000)], .none, 0,
    [⟨Fld.CORE_COMMIT_GO_TT, .wo, 0⟩, ⟨Fld.CORE_COMMIT_GO_THR, .wo, 0⟩, ⟨Fld.CORE_COMMIT_DONE_TT, .ro, 1⟩, ⟨Fld.CORE_COMMIT_DONE_THR, .ro, 1⟩]⟩,
  ⟨Reg.CORE_THR 0 0 0, [(12, 0x100000), (8, 0x10000)], .none, 0,
    []⟩,
  ⟨Reg.CORE_THR 0 0 1, [(12, 0x100000), (8, 0x10000), (7, 0x8)], .thr, 2,
    [⟨Fld.CORE_THR_CLASSROOM, .rws, 0⟩, ⟨Fld.CORE_THR_BOUND, .rws, 0⟩]⟩,
  ⟨Reg.CORE_DESK 0 0, [(12, 0x100000), (8, 0x10000)], .thr, 2,
    [⟨Fld.CORE_DESK_OWNER0, .rws, 0⟩, ⟨Fld.CORE_DESK_OWNER1, .rws, 0⟩, ⟨Fld.CORE_DESK_OWNER2, .rws, 0⟩, ⟨Fld.CORE_DESK_OWNER3, .rws, 0⟩, ⟨Fld.CORE_DESK_OWNER4, .rws, 0⟩, ⟨Fld.CORE_DESK_OWNER5, .rws, 0⟩, ⟨Fld.CORE_DESK_OWNER6, .rws, 0⟩, ⟨Fld.CORE_DESK_VALID0, .rws, 0⟩, ⟨Fld.CORE_DESK_VALID1, .rws, 0⟩, ⟨Fld.CORE_DESK_VALID2, .rws, 0⟩, ⟨Fld.CORE_DESK_VALID3, .rws, 0⟩, ⟨Fld.CORE_DESK_VALID4, .rws, 0⟩, ⟨Fld.CORE_DESK_VALID5, .rws, 0⟩, ⟨Fld.CORE_DESK_VALID6, .rws, 0⟩]⟩,
  ⟨Reg.CORE_STATUS 0 0, [(12, 0x100000), (8, 0x10000)], .none, 0,
    [⟨Fld.CORE_STATUS_STATE_0, .ro, 5⟩, ⟨Fld.CORE_STATUS_STATE_1, .ro, 5⟩, ⟨Fld.CORE_STATUS_STATE_2, .ro, 5⟩, ⟨Fld.CORE_STATUS_STATE_3, .ro, 5⟩, ⟨Fld.CORE_STATUS_STATE_4, .ro, 5⟩, ⟨Fld.CORE_STATUS_STATE_5, .ro, 5⟩, ⟨Fld.CORE_STATUS_STATE_6, .ro, 5⟩, ⟨Fld.CORE_STATUS_STATE_7, .ro, 5⟩, ⟨Fld.CORE_STATUS_SEAT_THR, .ro, 0⟩, ⟨Fld.CORE_STATUS_SEAT_VALID, .ro, 0⟩, ⟨Fld.CORE_STATUS_BOOSTED, .ro, 0⟩, ⟨Fld.CORE_STATUS_PREEMPT_PEND, .ro, 0⟩]⟩,
  ⟨Reg.CORE_FAULT 0 0, [(12, 0x100000), (8, 0x10000)], .none, 0,
    [⟨Fld.CORE_FAULT_FAULTED, .w1c, 0⟩, ⟨Fld.CORE_FAULT_STALLED, .ro, 0⟩, ⟨Fld.CORE_FAULT_CORE_STOPPED, .ro, 0⟩]⟩,
  ⟨Reg.CORE_TFAULT 0 0 0, [(12, 0x100000), (8, 0x10000), (8, 0x8)], .none, 0,
    [⟨Fld.CORE_TFAULT_CAUSE, .ro, 0⟩, ⟨Fld.CORE_TFAULT_PC, .ro, 0⟩]⟩,
  ⟨Reg.CORE_THCTL 0 0, [(12, 0x100000), (8, 0x10000)], .none, 0,
    [⟨Fld.CORE_THCTL_THREAD, .wo, 0⟩, ⟨Fld.CORE_THCTL_ACTION, .wo, 0⟩]⟩,
  ⟨Reg.CORE_DBG_CTL 0 0, [(12, 0x100000), (8, 0x10000)], .none, 0,
    [⟨Fld.CORE_DBG_CTL_HALT, .wo, 0⟩, ⟨Fld.CORE_DBG_CTL_RESUME, .wo, 0⟩, ⟨Fld.CORE_DBG_CTL_STEP, .wo, 0⟩]⟩,
  ⟨Reg.CORE_DBG_STATUS 0 0, [(12, 0x100000), (8, 0x10000)], .none, 0,
    [⟨Fld.CORE_DBG_STATUS_HALTED, .ro, 0⟩, ⟨Fld.CORE_DBG_STATUS_HALT_PENDING, .ro, 0⟩, ⟨Fld.CORE_DBG_STATUS_FORCED, .ro, 0⟩]⟩,
  ⟨Reg.CORE_DBG_SEL 0 0, [(12, 0x100000), (8, 0x10000)], .none, 0,
    [⟨Fld.CORE_DBG_SEL_THREAD, .rwl, 0⟩, ⟨Fld.CORE_DBG_SEL_REG, .rwl, 0⟩]⟩,
  ⟨Reg.CORE_DBG_DATA 0 0, [(12, 0x100000), (8, 0x10000)], .none, 0,
    [⟨Fld.CORE_DBG_DATA_DATA, .rwl, 0⟩]⟩,
  ⟨Reg.CORE_WATCH 0 0 0, [(12, 0x100000), (8, 0x10000), (2, 0x8)], .none, 0,
    [⟨Fld.CORE_WATCH_ADDR, .rwl, 0⟩, ⟨Fld.CORE_WATCH_THREADS, .rwl, 0⟩, ⟨Fld.CORE_WATCH_R, .rwl, 0⟩, ⟨Fld.CORE_WATCH_W, .rwl, 0⟩]⟩,
  ⟨Reg.CORE_CNT_ISSUED 0 0, [(12, 0x100000), (8, 0x10000)], .none, 0,
    [⟨⟨63, 0⟩, .ro, 0⟩]⟩,
  ⟨Reg.CORE_CNT_IDLE_CYCLES 0 0, [(12, 0x100000), (8, 0x10000)], .none, 0,
    [⟨⟨63, 0⟩, .ro, 0⟩]⟩,
  ⟨Reg.CORE_CNT_PREEMPTED_IN 0 0, [(12, 0x100000), (8, 0x10000)], .none, 0,
    [⟨⟨63, 0⟩, .ro, 0⟩]⟩,
  ⟨Reg.CORE_CNT_PREEMPTED_OUT 0 0, [(12, 0x100000), (8, 0x10000)], .none, 0,
    [⟨⟨63, 0⟩, .ro, 0⟩]⟩,
  ⟨Reg.CORE_CNT_TAKEN_BRANCH 0 0, [(12, 0x100000), (8, 0x10000)], .none, 0,
    [⟨⟨63, 0⟩, .ro, 0⟩]⟩,
  ⟨Reg.CORE_CNT_ICACHE_MISS 0 0, [(12, 0x100000), (8, 0x10000)], .none, 0,
    [⟨⟨63, 0⟩, .ro, 0⟩]⟩,
  ⟨Reg.CORE_CNT_THREAD_FAULTS 0 0, [(12, 0x100000), (8, 0x10000)], .none, 0,
    [⟨⟨63, 0⟩, .ro, 0⟩]⟩,
  ⟨Reg.CORE_CNT_HALTS_FORCED 0 0, [(12, 0x100000), (8, 0x10000)], .none, 0,
    [⟨⟨63, 0⟩, .ro, 0⟩]⟩]

/-- Catalogue rows of the HLP registers. -/
def regRowsHLP : List RegRow := [
  ⟨Reg.HLP_CFG 0, [(12, 0x100000)], .st, 1,
    [⟨Fld.HLP_CFG_URG_TAKE, .rws, 1⟩]⟩,
  ⟨Reg.HLP_STATUS 0, [(12, 0x100000)], .none, 0,
    [⟨Fld.HLP_STATUS_UNIT_FENCED, .ro, 0⟩, ⟨Fld.HLP_STATUS_UNIT_BUSY, .ro, 0⟩, ⟨Fld.HLP_STATUS_WAIT_FX, .ro, 0⟩, ⟨Fld.HLP_STATUS_WAIT_DX, .ro, 0⟩, ⟨Fld.HLP_STATUS_WAIT_CX, .ro, 0⟩, ⟨Fld.HLP_STATUS_WAIT_HX, .ro, 0⟩]⟩,
  ⟨Reg.HLP_CNT_ACCEPTED 0 0, [(12, 0x100000), (4, 0x40)], .none, 0,
    [⟨⟨63, 0⟩, .ro, 0⟩]⟩,
  ⟨Reg.HLP_CNT_REFUSED 0 0, [(12, 0x100000), (4, 0x40)], .none, 0,
    [⟨⟨63, 0⟩, .ro, 0⟩]⟩,
  ⟨Reg.HLP_CNT_HB_SET 0 0, [(12, 0x100000), (4, 0x40)], .none, 0,
    [⟨⟨63, 0⟩, .ro, 0⟩]⟩,
  ⟨Reg.HLP_CNT_FAILED 0 0, [(12, 0x100000), (4, 0x40)], .none, 0,
    [⟨⟨63, 0⟩, .ro, 0⟩]⟩,
  ⟨Reg.HLP_CNT_TAKEN 0 0, [(12, 0x100000), (4, 0x40)], .none, 0,
    [⟨⟨63, 0⟩, .ro, 0⟩]⟩,
  ⟨Reg.HLP_CNT_RESTARTED 0 0, [(12, 0x100000), (4, 0x40)], .none, 0,
    [⟨⟨63, 0⟩, .ro, 0⟩]⟩,
  ⟨Reg.HLP_CNT_BYTES 0 0, [(12, 0x100000), (4, 0x40)], .none, 0,
    [⟨⟨63, 0⟩, .ro, 0⟩]⟩,
  ⟨Reg.HLP_CNT_BUSY_NS 0 0, [(12, 0x100000), (4, 0x40)], .none, 0,
    [⟨⟨63, 0⟩, .ro, 0⟩]⟩]

/-- Catalogue rows of the TE registers. -/
def regRowsTE : List RegRow := [
  ⟨Reg.TE_STATUS 0, [(16, 0x10000)], .none, 0,
    [⟨Fld.TE_STATUS_FENCED, .ro, 0⟩, ⟨Fld.TE_STATUS_RESYNC, .ro, 0⟩, ⟨Fld.TE_STATUS_CHAIN, .ro, 0⟩, ⟨Fld.TE_STATUS_SERVING, .ro, 0⟩, ⟨Fld.TE_STATUS_REPLAY, .ro, 0⟩]⟩,
  ⟨Reg.TE_CFG 0, [(16, 0x10000)], .te, 1,
    [⟨Fld.TE_CFG_LEARN_HOLD_US, .rws, 0x3e8⟩, ⟨Fld.TE_CFG_LQ_THRESH, .rws, 0x400⟩]⟩,
  ⟨Reg.TE_COMMIT 0, [(16, 0x10000)], .none, 0,
    [⟨Fld.TE_COMMIT_GO, .wo, 0⟩, ⟨Fld.TE_COMMIT_DONE, .ro, 1⟩]⟩,
  ⟨Reg.TE_LQ_BASE 0, [(16, 0x10000)], .none, 0,
    [⟨Fld.TE_LQ_BASE_BASE, .rwf, 0⟩]⟩,
  ⟨Reg.TE_LQ_SIZE 0, [(16, 0x10000)], .none, 0,
    [⟨Fld.TE_LQ_SIZE_RECORDS, .rwf, 0⟩]⟩,
  ⟨Reg.TE_LQ_HEAD 0, [(16, 0x10000)], .none, 0,
    [⟨Fld.TE_LQ_HEAD_HEAD, .rwl, 0⟩]⟩,
  ⟨Reg.TE_LQ_TAIL 0, [(16, 0x10000)], .none, 0,
    [⟨Fld.TE_LQ_TAIL_TAIL, .ro, 0⟩]⟩,
  ⟨Reg.TE_ALOG_BASE 0, [(16, 0x10000)], .none, 0,
    [⟨Fld.TE_ALOG_BASE_BASE, .rwf, 0⟩]⟩,
  ⟨Reg.TE_EVENT 0, [(16, 0x10000)], .none, 0,
    [⟨Fld.TE_EVENT_UNCORR, .w1c, 0⟩, ⟨Fld.TE_EVENT_LQ_FULL, .w1c, 0⟩, ⟨Fld.TE_EVENT_OVERRUN, .w1c, 0⟩]⟩,
  ⟨Reg.TE_CMD 0 0, [(16, 0x10000), (4, 0x100)], .none, 0,
    [⟨Fld.TE_CMD_OP, .wo, 0⟩, ⟨Fld.TE_CMD_TABLE, .wo, 0⟩]⟩,
  ⟨Reg.TE_CMD_KEY 0 0 0, [(16, 0x10000), (4, 0x100), (2, 0x8)], .none, 0,
    [⟨Fld.TE_CMD_KEY_KEY, .rwl, 0⟩]⟩,
  ⟨Reg.TE_CMD_RES 0 0, [(16, 0x10000), (4, 0x100)], .none, 0,
    [⟨Fld.TE_CMD_RES_STATUS, .ro, 0⟩, ⟨Fld.TE_CMD_RES_BUSY, .ro, 0⟩, ⟨Fld.TE_CMD_RES_OVERRUN, .w1c, 0⟩]⟩,
  ⟨Reg.TE_CMD_DATA 0 0 0, [(16, 0x10000), (4, 0x100), (16, 0x8)], .none, 0,
    [⟨Fld.TE_CMD_DATA_WORD, .rwl, 0⟩]⟩,
  ⟨Reg.TE_CNT_LOOKUPS 0, [(16, 0x10000)], .none, 0,
    [⟨⟨63, 0⟩, .ro, 0⟩]⟩,
  ⟨Reg.TE_CNT_HITS 0, [(16, 0x10000)], .none, 0,
    [⟨⟨63, 0⟩, .ro, 0⟩]⟩,
  ⟨Reg.TE_CNT_NO_TABLE 0, [(16, 0x10000)], .none, 0,
    [⟨⟨63, 0⟩, .ro, 0⟩]⟩,
  ⟨Reg.TE_CNT_CACHE_HITS 0, [(16, 0x10000)], .none, 0,
    [⟨⟨63, 0⟩, .ro, 0⟩]⟩,
  ⟨Reg.TE_CNT_DRAM_LINES 0, [(16, 0x10000)], .none, 0,
    [⟨⟨63, 0⟩, .ro, 0⟩]⟩,
  ⟨Reg.TE_CNT_REPLAYS 0, [(16, 0x10000)], .none, 0,
    [⟨⟨63, 0⟩, .ro, 0⟩]⟩,
  ⟨Reg.TE_CNT_MOVES 0, [(16, 0x10000)], .none, 0,
    [⟨⟨63, 0⟩, .ro, 0⟩]⟩,
  ⟨Reg.TE_CNT_JOURNAL_WRITES 0, [(16, 0x10000)], .none, 0,
    [⟨⟨63, 0⟩, .ro, 0⟩]⟩,
  ⟨Reg.TE_CNT_INSERTS 0, [(16, 0x10000)], .none, 0,
    [⟨⟨63, 0⟩, .ro, 0⟩]⟩,
  ⟨Reg.TE_CNT_EVICTIONS 0, [(16, 0x10000)], .none, 0,
    [⟨⟨63, 0⟩, .ro, 0⟩]⟩,
  ⟨Reg.TE_CNT_LEARN_NOTICES 0, [(16, 0x10000)], .none, 0,
    [⟨⟨63, 0⟩, .ro, 0⟩]⟩]

/-- Catalogue rows of the TE registers. -/
def regRowsTE1 : List RegRow := [
  ⟨Reg.TE_CNT_LEARN_SUPPRESSED 0, [(16, 0x10000)], .none, 0,
    [⟨⟨63, 0⟩, .ro, 0⟩]⟩,
  ⟨Reg.TE_CNT_LQ_DROP 0, [(16, 0x10000)], .none, 0,
    [⟨⟨63, 0⟩, .ro, 0⟩]⟩,
  ⟨Reg.TE_CNT_CHECK_FAIL 0, [(16, 0x10000)], .none, 0,
    [⟨⟨63, 0⟩, .ro, 0⟩]⟩,
  ⟨Reg.TE_CNT_MIRROR_READS 0, [(16, 0x10000)], .none, 0,
    [⟨⟨63, 0⟩, .ro, 0⟩]⟩,
  ⟨Reg.TE_CNT_BAD_WORD 0, [(16, 0x10000)], .none, 0,
    [⟨⟨63, 0⟩, .ro, 0⟩]⟩]

/-- Catalogue rows of the DIR registers. -/
def regRowsDIR : List RegRow := [
  ⟨Reg.DIR_CFG, [], .dir, 0,
    [⟨Fld.DIR_CFG_SCRUB_EN, .rws, 1⟩]⟩,
  ⟨Reg.DIR_COMMIT, [], .none, 0,
    [⟨Fld.DIR_COMMIT_GO, .wo, 0⟩, ⟨Fld.DIR_COMMIT_DONE, .ro, 1⟩]⟩,
  ⟨Reg.DIR_STATUS, [], .none, 0,
    [⟨Fld.DIR_STATUS_SCRUB_IDX, .ro, 0⟩, ⟨Fld.DIR_STATUS_PASSES, .ro, 0⟩]⟩,
  ⟨Reg.DIR_EVENT, [], .none, 0,
    [⟨Fld.DIR_EVENT_CORRECTED, .w1c, 0⟩, ⟨Fld.DIR_EVENT_UNCORR, .w1c, 0⟩]⟩,
  ⟨Reg.DIR_ERR_LOG, [], .none, 0,
    [⟨Fld.DIR_ERR_LOG_INDEX, .ro, 0⟩, ⟨Fld.DIR_ERR_LOG_UNCORR, .ro, 0⟩]⟩,
  ⟨Reg.DIR_BLK 0, [(16, 0x8)], .none, 0,
    [⟨Fld.DIR_BLK_WIDTH, .rwf, 0⟩]⟩,
  ⟨Reg.DIR_PART 0, [(64, 0x8)], .dir, 0,
    [⟨Fld.DIR_PART_BLOCKS, .rws, 0⟩, ⟨Fld.DIR_PART_ROW_BASE, .rws, 0⟩, ⟨Fld.DIR_PART_ROWS, .rws, 0⟩]⟩,
  ⟨Reg.DIR_GMASK 0 0, [(8, 0x80), (10, 0x8)], .dir, 0,
    [⟨Fld.DIR_GMASK_MASK, .rws, 0xffffffffffffffff⟩]⟩,
  ⟨Reg.DIR_CNT_SEARCHES, [], .none, 0,
    [⟨⟨63, 0⟩, .ro, 0⟩]⟩,
  ⟨Reg.DIR_CNT_HITS, [], .none, 0,
    [⟨⟨63, 0⟩, .ro, 0⟩]⟩,
  ⟨Reg.DIR_CNT_MISSES, [], .none, 0,
    [⟨⟨63, 0⟩, .ro, 0⟩]⟩,
  ⟨Reg.DIR_CNT_NO_PART, [], .none, 0,
    [⟨⟨63, 0⟩, .ro, 0⟩]⟩,
  ⟨Reg.DIR_CNT_KEY_RANGE, [], .none, 0,
    [⟨⟨63, 0⟩, .ro, 0⟩]⟩,
  ⟨Reg.DIR_CNT_SLOT_DELAYS, [], .none, 0,
    [⟨⟨63, 0⟩, .ro, 0⟩]⟩,
  ⟨Reg.DIR_CNT_UPDATES, [], .none, 0,
    [⟨⟨63, 0⟩, .ro, 0⟩]⟩,
  ⟨Reg.DIR_CNT_SCRUB_CORRECTED, [], .none, 0,
    [⟨⟨63, 0⟩, .ro, 0⟩]⟩,
  ⟨Reg.DIR_CNT_SCRUB_UNCORR, [], .none, 0,
    [⟨⟨63, 0⟩, .ro, 0⟩]⟩,
  ⟨Reg.DIR_CNT_URGENT_SEARCHES, [], .none, 0,
    [⟨⟨63, 0⟩, .ro, 0⟩]⟩]

/-- Catalogue rows of the DDR registers. -/
def regRowsDDR : List RegRow := [
  ⟨Reg.DDR_CFG 0, [(8, 0x10000)], .none, 0,
    [⟨Fld.DDR_CFG_EN, .rwf, 0⟩, ⟨Fld.DDR_CFG_RATE, .rwf, 0⟩, ⟨Fld.DDR_CFG_SLOTS, .rwf, 0⟩, ⟨Fld.DDR_CFG_RANKS, .rwf, 0⟩, ⟨Fld.DDR_CFG_X8, .rwf, 0⟩, ⟨Fld.DDR_CFG_DIE16, .rwf, 0⟩, ⟨Fld.DDR_CFG_ROW_BITS, .rwf, 0x10⟩, ⟨Fld.DDR_CFG_MAP, .rwf, 0⟩, ⟨Fld.DDR_CFG_CAP_LOG2, .rwf, 0x22⟩]⟩,
  ⟨Reg.DDR_ILV, [], .none, 0,
    [⟨Fld.DDR_ILV_MODE, .rwf, 0⟩]⟩,
  ⟨Reg.DDR_TIM0 0, [(8, 0x10000)], .none, 0,
    [⟨Fld.DDR_TIM0_CL, .rwf, 0x16⟩, ⟨Fld.DDR_TIM0_CWL, .rwf, 0x10⟩, ⟨Fld.DDR_TIM0_TRCD, .rwf, 0x16⟩, ⟨Fld.DDR_TIM0_TRP, .rwf, 0x16⟩, ⟨Fld.DDR_TIM0_TRAS, .rwf, 0x34⟩, ⟨Fld.DDR_TIM0_TRC, .rwf, 0x4a⟩, ⟨Fld.DDR_TIM0_TRRD_S, .rwf, 4⟩, ⟨Fld.DDR_TIM0_TRRD_L, .rwf, 8⟩, ⟨Fld.DDR_TIM0_TFAW, .rwf, 0x22⟩]⟩,
  ⟨Reg.DDR_TIM1 0, [(8, 0x10000)], .none, 0,
    [⟨Fld.DDR_TIM1_TWR, .rwf, 0x18⟩, ⟨Fld.DDR_TIM1_TWTR_S, .rwf, 4⟩, ⟨Fld.DDR_TIM1_TWTR_L, .rwf, 0xc⟩, ⟨Fld.DDR_TIM1_TRTP, .rwf, 0xc⟩, ⟨Fld.DDR_TIM1_TCCD_L, .rwf, 8⟩, ⟨Fld.DDR_TIM1_TRFC, .rwf, 0x370⟩, ⟨Fld.DDR_TIM1_TXS, .rwf, 0x380⟩]⟩,
  ⟨Reg.DDR_TIM2 0, [(8, 0x10000)], .none, 0,
    [⟨Fld.DDR_TIM2_TREFI, .rwf, 0x30c0⟩, ⟨Fld.DDR_TIM2_TXP, .rwf, 0xa⟩, ⟨Fld.DDR_TIM2_TCKE, .rwf, 8⟩, ⟨Fld.DDR_TIM2_TMOD, .rwf, 0x18⟩, ⟨Fld.DDR_TIM2_TZQCS, .rwf, 0x80⟩, ⟨Fld.DDR_TIM2_TXSDLL, .rwf, 0x400⟩]⟩,
  ⟨Reg.DDR_SCHED 0, [(8, 0x10000)], .ddr, 1,
    [⟨Fld.DDR_SCHED_PANIC_LVL, .rws, 1⟩, ⟨Fld.DDR_SCHED_HIT_CAP, .rws, 4⟩, ⟨Fld.DDR_SCHED_WR_HI, .rws, 0x18⟩, ⟨Fld.DDR_SCHED_WR_LO, .rws, 8⟩, ⟨Fld.DDR_SCHED_WB_CORR, .rws, 1⟩, ⟨Fld.DDR_SCHED_PD_IDLE, .rws, 0x100⟩, ⟨Fld.DDR_SCHED_ZQ_MS, .rws, 0x80⟩, ⟨Fld.DDR_SCHED_SCRUB_H, .rws, 0x18⟩]⟩,
  ⟨Reg.DDR_THERM 0, [(8, 0x10000)], .ddr, 1,
    [⟨Fld.DDR_THERM_HOT_C, .rws, 0x55⟩, ⟨Fld.DDR_THERM_LIMIT_C, .rws, 0x5f⟩, ⟨Fld.DDR_THERM_SENSOR_EN, .rws, 1⟩]⟩,
  ⟨Reg.DDR_COMMIT 0, [(8, 0x10000)], .none, 0,
    [⟨Fld.DDR_COMMIT_GO, .wo, 0⟩, ⟨Fld.DDR_COMMIT_DONE, .ro, 1⟩]⟩,
  ⟨Reg.DDR_STATUS 0, [(8, 0x10000)], .none, 0,
    [⟨Fld.DDR_STATUS_FENCED, .ro, 0⟩, ⟨Fld.DDR_STATUS_PANIC, .ro, 0⟩, ⟨Fld.DDR_STATUS_REF_2X, .ro, 1⟩, ⟨Fld.DDR_STATUS_OWED, .ro, 0⟩, ⟨Fld.DDR_STATUS_RUNG_ACT, .ro, 0⟩, ⟨Fld.DDR_STATUS_INIT_DONE, .ro, 0⟩, ⟨Fld.DDR_STATUS_TEMP0, .ro, 0⟩, ⟨Fld.DDR_STATUS_TEMP1, .ro, 0⟩, ⟨Fld.DDR_STATUS_LANE_FAIL, .ro, 0⟩]⟩,
  ⟨Reg.DDR_EVENT 0, [(8, 0x10000)], .none, 0,
    [⟨Fld.DDR_EVENT_CORR, .w1c, 0⟩, ⟨Fld.DDR_EVENT_UNCORR, .w1c, 0⟩, ⟨Fld.DDR_EVENT_HOT, .w1c, 0⟩, ⟨Fld.DDR_EVENT_OVERTEMP, .w1c, 0⟩, ⟨Fld.DDR_EVENT_SENSOR_FAIL, .w1c, 0⟩]⟩,
  ⟨Reg.DDR_ERR_LOG 0, [(8, 0x10000)], .none, 0,
    [⟨Fld.DDR_ERR_LOG_ADDR, .ro, 0⟩, ⟨Fld.DDR_ERR_LOG_UNCORR, .ro, 0⟩, ⟨Fld.DDR_ERR_LOG_DEVICE, .ro, 0⟩]⟩,
  ⟨Reg.DDR_PWR 0, [(8, 0x10000)], .none, 0,
    [⟨Fld.DDR_PWR_RUNG, .rwl, 0⟩]⟩,
  ⟨Reg.DDR_MR 0 0, [(8, 0x10000), (7, 0x8)], .none, 0,
    [⟨Fld.DDR_MR_VALUE, .rwf, 0⟩]⟩,
  ⟨Reg.DDR_RCW 0 0, [(8, 0x10000), (16, 0x8)], .none, 0,
    [⟨Fld.DDR_RCW_VALUE, .rwf, 0⟩]⟩,
  ⟨Reg.DDR_DLY 0 0 0, [(8, 0x10000), (4, 0x80), (9, 0x8)], .none, 0,
    [⟨Fld.DDR_DLY_WL, .rwf, 0⟩, ⟨Fld.DDR_DLY_RG, .rwf, 0⟩, ⟨Fld.DDR_DLY_RD, .rwf, 0⟩, ⟨Fld.DDR_DLY_NIB, .rwf, 0⟩]⟩,
  ⟨Reg.DDR_CNT_READS 0, [(8, 0x10000)], .none, 0,
    [⟨⟨63, 0⟩, .ro, 0⟩]⟩,
  ⟨Reg.DDR_CNT_WRITES 0, [(8, 0x10000)], .none, 0,
    [⟨⟨63, 0⟩, .ro, 0⟩]⟩,
  ⟨Reg.DDR_CNT_ROW_HITS 0, [(8, 0x10000)], .none, 0,
    [⟨⟨63, 0⟩, .ro, 0⟩]⟩,
  ⟨Reg.DDR_CNT_ROW_MISSES 0, [(8, 0x10000)], .none, 0,
    [⟨⟨63, 0⟩, .ro, 0⟩]⟩,
  ⟨Reg.DDR_CNT_URGENT_READS 0, [(8, 0x10000)], .none, 0,
    [⟨⟨63, 0⟩, .ro, 0⟩]⟩,
  ⟨Reg.DDR_CNT_PANIC_NS 0, [(8, 0x10000)], .none, 0,
    [⟨⟨63, 0⟩, .ro, 0⟩]⟩,
  ⟨Reg.DDR_CNT_REFRESHES 0, [(8, 0x10000)], .none, 0,
    [⟨⟨63, 0⟩, .ro, 0⟩]⟩,
  ⟨Reg.DDR_CNT_REF_FORCED 0, [(8, 0x10000)], .none, 0,
    [⟨⟨63, 0⟩, .ro, 0⟩]⟩,
  ⟨Reg.DDR_CNT_CORR 0, [(8, 0x10000)], .none, 0,
    [⟨⟨63, 0⟩, .ro, 0⟩]⟩]

/-- Catalogue rows of the DDR registers. -/
def regRowsDDR1 : List RegRow := [
  ⟨Reg.DDR_CNT_UNCORR 0, [(8, 0x10000)], .none, 0,
    [⟨⟨63, 0⟩, .ro, 0⟩]⟩,
  ⟨Reg.DDR_CNT_SCRUB_LINES 0, [(8, 0x10000)], .none, 0,
    [⟨⟨63, 0⟩, .ro, 0⟩]⟩,
  ⟨Reg.DDR_CNT_SR_ENTRIES 0, [(8, 0x10000)], .none, 0,
    [⟨⟨63, 0⟩, .ro, 0⟩]⟩]

/-- Catalogue rows of the BP registers. -/
def regRowsBP : List RegRow := [
  ⟨Reg.BP_EVENT, [], .none, 0,
    [⟨Fld.BP_EVENT_EMPTY, .w1c, 0⟩, ⟨Fld.BP_EVENT_REF_SAT, .w1c, 0⟩]⟩,
  ⟨Reg.BP_COMMIT, [], .none, 0,
    [⟨Fld.BP_COMMIT_GO, .wo, 0⟩, ⟨Fld.BP_COMMIT_DONE, .ro, 1⟩]⟩,
  ⟨Reg.BP_POOL_CFG 0, [(16, 0x20)], .bp, 0,
    [⟨Fld.BP_POOL_CFG_SIZE, .rwf, 0⟩, ⟨Fld.BP_POOL_CFG_MEM, .rwf, 0⟩, ⟨Fld.BP_POOL_CFG_NEXT, .rws, 0⟩, ⟨Fld.BP_POOL_CFG_NEXT_EN, .rws, 0⟩, ⟨Fld.BP_POOL_CFG_COUNT, .rwf, 0⟩]⟩,
  ⟨Reg.BP_POOL_BASE 0, [(16, 0x20)], .none, 0,
    [⟨Fld.BP_POOL_BASE_BASE, .rwf, 0⟩]⟩,
  ⟨Reg.BP_POOL_CTL 0, [(16, 0x20)], .none, 0,
    [⟨Fld.BP_POOL_CTL_CTL, .rwf, 0⟩]⟩,
  ⟨Reg.BP_POOL_CL 0, [(16, 0x20)], .bp, 0,
    [⟨Fld.BP_POOL_CL_CLASSROOMS, .rws, 0⟩]⟩,
  ⟨Reg.BP_FREE 0, [(16, 0x8)], .none, 0,
    [⟨Fld.BP_FREE_FREE, .ro, 0⟩]⟩,
  ⟨Reg.BP_WDOG 0, [(6, 0x8)], .bp, 0,
    [⟨Fld.BP_WDOG_LIMIT, .rws, 0x400⟩]⟩,
  ⟨Reg.BP_WDOG_LOG, [], .none, 0,
    [⟨Fld.BP_WDOG_LOG_KIND, .ro, 0⟩, ⟨Fld.BP_WDOG_LOG_INDEX, .ro, 0⟩, ⟨Fld.BP_WDOG_LOG_REQUESTER, .ro, 0⟩, ⟨Fld.BP_WDOG_LOG_BITES, .ro, 0⟩]⟩,
  ⟨Reg.BP_CNT_ALLOCS, [], .none, 0,
    [⟨⟨63, 0⟩, .ro, 0⟩]⟩,
  ⟨Reg.BP_CNT_ALLOC_NONE, [], .none, 0,
    [⟨⟨63, 0⟩, .ro, 0⟩]⟩,
  ⟨Reg.BP_CNT_FALLBACKS, [], .none, 0,
    [⟨⟨63, 0⟩, .ro, 0⟩]⟩,
  ⟨Reg.BP_CNT_STALE_OP, [], .none, 0,
    [⟨⟨63, 0⟩, .ro, 0⟩]⟩,
  ⟨Reg.BP_CNT_REF_SAT_DROP, [], .none, 0,
    [⟨⟨63, 0⟩, .ro, 0⟩]⟩,
  ⟨Reg.BP_CNT_FREES, [], .none, 0,
    [⟨⟨63, 0⟩, .ro, 0⟩]⟩]

/-- Catalogue rows of the CH registers. -/
def regRowsCH : List RegRow := [
  ⟨Reg.CH_GEOM, [], .none, 0,
    [⟨Fld.CH_GEOM_BASE, .rwf, 0⟩, ⟨Fld.CH_GEOM_DEPTH_LOG2, .rwf, 6⟩]⟩,
  ⟨Reg.CH_COMMIT, [], .none, 0,
    [⟨Fld.CH_COMMIT_GO, .wo, 0⟩, ⟨Fld.CH_COMMIT_DONE, .ro, 1⟩]⟩,
  ⟨Reg.CH 0, [(4096, 0x8)], .ch, 0,
    [⟨Fld.CH_CLASSROOM, .rws, 0⟩, ⟨Fld.CH_VALID, .rws, 0⟩, ⟨Fld.CH_WATCH_EN, .rws, 0⟩, ⟨Fld.CH_WATCH, .rws, 0⟩, ⟨Fld.CH_TAIL, .rws, 0⟩, ⟨Fld.CH_WORDS, .ro, 0⟩, ⟨Fld.CH_FULL, .ro, 0⟩, ⟨Fld.CH_PACKETS, .ro, 0⟩, ⟨Fld.CH_OPEN, .ro, 0⟩, ⟨Fld.CH_OVERRUN, .w1c, 0⟩, ⟨Fld.CH_TAIL_FIRED, .w1c, 0⟩, ⟨Fld.CH_WRITER, .ro, 0⟩]⟩,
  ⟨Reg.CH_CNT_WORDS_WRITTEN, [], .none, 0,
    [⟨⟨63, 0⟩, .ro, 0⟩]⟩,
  ⟨Reg.CH_CNT_WORDS_READ, [], .none, 0,
    [⟨⟨63, 0⟩, .ro, 0⟩]⟩,
  ⟨Reg.CH_CNT_PACKETS_CLOSED, [], .none, 0,
    [⟨⟨63, 0⟩, .ro, 0⟩]⟩,
  ⟨Reg.CH_CNT_ABORTS, [], .none, 0,
    [⟨⟨63, 0⟩, .ro, 0⟩]⟩,
  ⟨Reg.CH_CNT_OVERRUNS, [], .none, 0,
    [⟨⟨63, 0⟩, .ro, 0⟩]⟩,
  ⟨Reg.CH_CNT_DISCARDED_GEN, [], .none, 0,
    [⟨⟨63, 0⟩, .ro, 0⟩]⟩]

/-- Catalogue rows of the HP registers. -/
def regRowsHP : List RegRow := [
  ⟨Reg.HP_CFG, [], .hp, 0,
    [⟨Fld.HP_CFG_PI_EN, .rws, 1⟩]⟩,
  ⟨Reg.HP_COMMIT, [], .none, 0,
    [⟨Fld.HP_COMMIT_GO, .wo, 0⟩, ⟨Fld.HP_COMMIT_DONE, .ro, 1⟩]⟩,
  ⟨Reg.HP_EVENT, [], .none, 0,
    [⟨Fld.HP_EVENT_ORPHANED, .w1c, 0⟩]⟩,
  ⟨Reg.HP_GRP_CL 0, [(64, 0x10)], .hp, 0,
    [⟨Fld.HP_GRP_CL_CLASSROOMS, .rws, 0⟩]⟩,
  ⟨Reg.HP_GRP_PRIV 0, [(64, 0x10)], .hp, 0,
    [⟨Fld.HP_GRP_PRIV_MINPRIV, .rws, 2⟩]⟩,
  ⟨Reg.HP_LOCK 0, [(4096, 0x8)], .none, 0,
    [⟨Fld.HP_LOCK_HELD, .ro, 0⟩, ⟨Fld.HP_LOCK_ORPHAN, .ro, 0⟩, ⟨Fld.HP_LOCK_SUSPENDED, .ro, 0⟩, ⟨Fld.HP_LOCK_OWNER, .ro, 0⟩, ⟨Fld.HP_LOCK_CLASSROOM, .ro, 0⟩, ⟨Fld.HP_LOCK_CLGEN, .ro, 0⟩, ⟨Fld.HP_LOCK_TGEN, .ro, 0⟩, ⟨Fld.HP_LOCK_WAITERS, .ro, 0⟩]⟩,
  ⟨Reg.HP_CNT_ACQUIRES, [], .none, 0,
    [⟨⟨63, 0⟩, .ro, 0⟩]⟩,
  ⟨Reg.HP_CNT_REFUSED, [], .none, 0,
    [⟨⟨63, 0⟩, .ro, 0⟩]⟩,
  ⟨Reg.HP_CNT_WAITS, [], .none, 0,
    [⟨⟨63, 0⟩, .ro, 0⟩]⟩,
  ⟨Reg.HP_CNT_ORPHANED, [], .none, 0,
    [⟨⟨63, 0⟩, .ro, 0⟩]⟩,
  ⟨Reg.HP_CNT_WITHDRAWN, [], .none, 0,
    [⟨⟨63, 0⟩, .ro, 0⟩]⟩,
  ⟨Reg.HP_CNT_BOOSTS, [], .none, 0,
    [⟨⟨63, 0⟩, .ro, 0⟩]⟩,
  ⟨Reg.HP_CNT_CAS_SQM, [], .none, 0,
    [⟨⟨63, 0⟩, .ro, 0⟩]⟩,
  ⟨Reg.HP_CNT_CAS_DRAM, [], .none, 0,
    [⟨⟨63, 0⟩, .ro, 0⟩]⟩]

/-- Catalogue rows of the HI registers. -/
def regRowsHI : List RegRow := [
  ⟨Reg.HI_STATUS, [], .none, 0,
    [⟨Fld.HI_STATUS_LINK_SPEED, .ro, 0⟩, ⟨Fld.HI_STATUS_LINK_WIDTH, .ro, 0⟩, ⟨Fld.HI_STATUS_BME, .ro, 0⟩, ⟨Fld.HI_STATUS_PASID_EN, .ro, 0⟩]⟩,
  ⟨Reg.HI_WIN, [], .none, 0,
    [⟨Fld.HI_WIN_WIN, .rwl, 0⟩]⟩,
  ⟨Reg.HI_LOAD_CTL, [], .none, 0,
    [⟨Fld.HI_LOAD_CTL_LEN, .rwl, 0⟩, ⟨Fld.HI_LOAD_CTL_GO, .wo, 0⟩]⟩,
  ⟨Reg.HI_LOAD_STATUS, [], .none, 0,
    [⟨Fld.HI_LOAD_STATUS_STATE, .ro, 0⟩, ⟨Fld.HI_LOAD_STATUS_REASON, .ro, 0⟩]⟩,
  ⟨Reg.HI_EVENT, [], .none, 0,
    [⟨Fld.HI_EVENT_LINK_CHANGE, .w1c, 0⟩, ⟨Fld.HI_EVENT_QUEUE_ERR, .w1c, 0⟩, ⟨Fld.HI_EVENT_NOTICE_DROP, .w1c, 0⟩, ⟨Fld.HI_EVENT_POISON, .w1c, 0⟩]⟩,
  ⟨Reg.HI_CNT_COMMANDS, [], .none, 0,
    [⟨⟨63, 0⟩, .ro, 0⟩]⟩,
  ⟨Reg.HI_CNT_ACCEPTED_CMDS, [], .none, 0,
    [⟨⟨63, 0⟩, .ro, 0⟩]⟩,
  ⟨Reg.HI_CNT_LATER_COMPLETIONS, [], .none, 0,
    [⟨⟨63, 0⟩, .ro, 0⟩]⟩,
  ⟨Reg.HI_CNT_NOTICES, [], .none, 0,
    [⟨⟨63, 0⟩, .ro, 0⟩]⟩,
  ⟨Reg.HI_CNT_NOTICE_DROP, [], .none, 0,
    [⟨⟨63, 0⟩, .ro, 0⟩]⟩,
  ⟨Reg.HI_CNT_REFUSED, [], .none, 0,
    [⟨⟨63, 0⟩, .ro, 0⟩]⟩,
  ⟨Reg.HI_CNT_DMA_ERR, [], .none, 0,
    [⟨⟨63, 0⟩, .ro, 0⟩]⟩,
  ⟨Reg.HI_CNT_POISON_RX, [], .none, 0,
    [⟨⟨63, 0⟩, .ro, 0⟩]⟩,
  ⟨Reg.HI_CNT_BAD_SIZE, [], .none, 0,
    [⟨⟨63, 0⟩, .ro, 0⟩]⟩]

/-- Catalogue rows of the Q registers. -/
def regRowsQ : List RegRow := [
  ⟨Reg.Q_SQ_TAIL 0, [(16, 0x40)], .none, 0,
    [⟨Fld.Q_SQ_TAIL_TAIL, .rwl, 0⟩]⟩,
  ⟨Reg.Q_CQ_HEAD 0, [(16, 0x40)], .none, 0,
    [⟨Fld.Q_CQ_HEAD_HEAD, .rwl, 0⟩]⟩,
  ⟨Reg.Q_STATUS 0, [(16, 0x40)], .none, 0,
    [⟨Fld.Q_STATUS_SQ_HEAD, .ro, 0⟩, ⟨Fld.Q_STATUS_CQ_TAIL, .ro, 0⟩, ⟨Fld.Q_STATUS_EN_ACT, .ro, 0⟩, ⟨Fld.Q_STATUS_PHASE, .ro, 1⟩, ⟨Fld.Q_STATUS_ERR, .ro, 0⟩, ⟨Fld.Q_STATUS_ERR_CODE, .ro, 0⟩]⟩,
  ⟨Reg.Q_CTL 0, [(16, 0x40)], .none, 0,
    [⟨Fld.Q_CTL_EN, .rwl, 0⟩, ⟨Fld.Q_CTL_GO, .wo, 0⟩, ⟨Fld.Q_CTL_DONE, .ro, 1⟩]⟩,
  ⟨Reg.Q_SQ 0, [(16, 0x40)], .hiq, 1,
    [⟨Fld.Q_SQ_LOG2, .rws, 0⟩, ⟨Fld.Q_SQ_BASE, .rws, 0⟩]⟩,
  ⟨Reg.Q_CQ 0, [(16, 0x40)], .hiq, 1,
    [⟨Fld.Q_CQ_LOG2, .rws, 0⟩, ⟨Fld.Q_CQ_BASE, .rws, 0⟩]⟩,
  ⟨Reg.Q_NB 0, [(16, 0x40)], .hiq, 1,
    [⟨Fld.Q_NB_LOG2, .rws, 0⟩, ⟨Fld.Q_NB_BASE, .rws, 0⟩]⟩]

/-- Catalogue rows of the CL registers. -/
def regRowsCL : List RegRow := [
  ⟨Reg.CL_COMMIT, [], .none, 0,
    [⟨Fld.CL_COMMIT_GO, .wo, 0⟩, ⟨Fld.CL_COMMIT_DONE, .ro, 1⟩]⟩,
  ⟨Reg.CL_BIND 0, [(64, 0x8)], .cl, 0,
    [⟨Fld.CL_BIND_PASID, .rws, 0⟩, ⟨Fld.CL_BIND_BOUND, .rws, 0⟩, ⟨Fld.CL_BIND_STATE, .ro, 0⟩, ⟨Fld.CL_BIND_GEN, .ro, 0⟩]⟩,
  ⟨Reg.CL_DLOG_BASE 0, [(64, 0x10)], .none, 0,
    [⟨Fld.CL_DLOG_BASE_BASE, .rwl, 0⟩]⟩,
  ⟨Reg.CL_DLOG_LEN 0, [(64, 0x10)], .none, 0,
    [⟨Fld.CL_DLOG_LEN_PAGES, .rwl, 0⟩, ⟨Fld.CL_DLOG_LEN_EN, .rwl, 0⟩, ⟨Fld.CL_DLOG_LEN_OVF, .w1c, 0⟩]⟩,
  ⟨Reg.CL_CNT_PASID_VIOL 0, [(64, 0x10)], .none, 0,
    [⟨⟨63, 0⟩, .ro, 0⟩]⟩,
  ⟨Reg.CL_CNT_DLOG_MARKS 0, [(64, 0x10)], .none, 0,
    [⟨⟨63, 0⟩, .ro, 0⟩]⟩]

/-- Catalogue rows of the RB registers. -/
def regRowsRB : List RegRow := [
  ⟨Reg.RB_CFG, [], .rb, 0,
    [⟨Fld.RB_CFG_DEVICE_ID, .rws, 0⟩, ⟨Fld.RB_CFG_EAST_EN, .rws, 0⟩, ⟨Fld.RB_CFG_WEST_EN, .rws, 0⟩, ⟨Fld.RB_CFG_MIRROR_EN, .rws, 0⟩, ⟨Fld.RB_CFG_ANNOUNCE_EN, .rws, 1⟩, ⟨Fld.RB_CFG_RACC_EN, .rws, 0⟩, ⟨Fld.RB_CFG_MLOG_DROP, .rws, 0⟩, ⟨Fld.RB_CFG_MLOG_CONS, .rws, 0⟩, ⟨Fld.RB_CFG_STANDBY, .rws, 0⟩, ⟨Fld.RB_CFG_ETHERTYPE, .rws, 0x88b6⟩]⟩,
  ⟨Reg.RB_MAC, [], .rb, 0,
    [⟨Fld.RB_MAC_MAC, .rws, 0⟩]⟩,
  ⟨Reg.RB_LINK, [], .rb, 0,
    [⟨Fld.RB_LINK_RTO_US, .rws, 5⟩, ⟨Fld.RB_LINK_RETRY_MAX, .rws, 8⟩, ⟨Fld.RB_LINK_HB_US, .rws, 0xa⟩, ⟨Fld.RB_LINK_HB_MISS, .rws, 3⟩, ⟨Fld.RB_LINK_MAX_HOPS, .rws, 0xfff⟩, ⟨Fld.RB_LINK_AN_EN, .rws, 1⟩]⟩,
  ⟨Reg.RB_COMMIT, [], .none, 0,
    [⟨Fld.RB_COMMIT_GO, .wo, 0⟩, ⟨Fld.RB_COMMIT_DONE, .ro, 1⟩]⟩,
  ⟨Reg.RB_STATUS, [], .none, 0,
    [⟨Fld.RB_STATUS_IN_SERVICE, .ro, 0⟩, ⟨Fld.RB_STATUS_FENCED, .ro, 0⟩, ⟨Fld.RB_STATUS_HELD, .ro, 0⟩, ⟨Fld.RB_STATUS_JOINED, .ro, 0⟩, ⟨Fld.RB_STATUS_MIRROR_OK, .ro, 0⟩, ⟨Fld.RB_STATUS_EAST_PEER, .ro, 0⟩, ⟨Fld.RB_STATUS_WEST_PEER, .ro, 0⟩]⟩,
  ⟨Reg.RB_EVENT 0, [(2, 0x8)], .none, 0,
    [⟨Fld.RB_EVENT_LINK_CHANGE, .w1c, 0⟩, ⟨Fld.RB_EVENT_BROKEN, .w1c, 0⟩, ⟨Fld.RB_EVENT_MIRROR_LOST, .w1c, 0⟩, ⟨Fld.RB_EVENT_MLOG_FULL, .w1c, 0⟩, ⟨Fld.RB_EVENT_TERM_SEEN, .w1c, 0⟩, ⟨Fld.RB_EVENT_ID_CONFLICT, .w1c, 0⟩, ⟨Fld.RB_EVENT_MLOG_DATA, .w1c, 0⟩]⟩,
  ⟨Reg.RB_TERM_LAST, [], .none, 0,
    [⟨Fld.RB_TERM_LAST_SOURCE, .ro, 0⟩, ⟨Fld.RB_TERM_LAST_SLOT, .ro, 0⟩, ⟨Fld.RB_TERM_LAST_EPOCH, .ro, 0⟩]⟩,
  ⟨Reg.RB_MLOG_BASE, [], .none, 0,
    [⟨Fld.RB_MLOG_BASE_BASE, .rwf, 0⟩]⟩,
  ⟨Reg.RB_MLOG_SIZE, [], .none, 0,
    [⟨Fld.RB_MLOG_SIZE_UNITS, .rwf, 0⟩]⟩,
  ⟨Reg.RB_MLOG_HEAD, [], .none, 0,
    [⟨Fld.RB_MLOG_HEAD_HEAD, .rwl, 0⟩]⟩,
  ⟨Reg.RB_MLOG_TAIL, [], .none, 0,
    [⟨Fld.RB_MLOG_TAIL_TAIL, .ro, 0⟩]⟩,
  ⟨Reg.RB_ROUTE 0, [(64, 0x8)], .none, 0,
    [⟨Fld.RB_ROUTE_WEST, .rwl, 0⟩]⟩,
  ⟨Reg.RB_CNT_TX_FRAMES, [], .none, 0,
    [⟨⟨63, 0⟩, .ro, 0⟩]⟩,
  ⟨Reg.RB_CNT_RX_FRAMES, [], .none, 0,
    [⟨⟨63, 0⟩, .ro, 0⟩]⟩,
  ⟨Reg.RB_CNT_FORWARDED, [], .none, 0,
    [⟨⟨63, 0⟩, .ro, 0⟩]⟩,
  ⟨Reg.RB_CNT_TURNED, [], .none, 0,
    [⟨⟨63, 0⟩, .ro, 0⟩]⟩,
  ⟨Reg.RB_CNT_RETRANSMITTED, [], .none, 0,
    [⟨⟨63, 0⟩, .ro, 0⟩]⟩,
  ⟨Reg.RB_CNT_NAK_SENT, [], .none, 0,
    [⟨⟨63, 0⟩, .ro, 0⟩]⟩,
  ⟨Reg.RB_CNT_RX_BAD, [], .none, 0,
    [⟨⟨63, 0⟩, .ro, 0⟩]⟩,
  ⟨Reg.RB_CNT_UNREACHABLE, [], .none, 0,
    [⟨⟨63, 0⟩, .ro, 0⟩]⟩,
  ⟨Reg.RB_CNT_LOST, [], .none, 0,
    [⟨⟨63, 0⟩, .ro, 0⟩]⟩,
  ⟨Reg.RB_CNT_MIRRORED, [], .none, 0,
    [⟨⟨63, 0⟩, .ro, 0⟩]⟩,
  ⟨Reg.RB_CNT_MIRROR_SKIPPED, [], .none, 0,
    [⟨⟨63, 0⟩, .ro, 0⟩]⟩,
  ⟨Reg.RB_CNT_MLOG_DROP, [], .none, 0,
    [⟨⟨63, 0⟩, .ro, 0⟩]⟩]

/-- Catalogue rows of the RB registers. -/
def regRowsRB1 : List RegRow := [
  ⟨Reg.RB_CNT_TOKENS_RX, [], .none, 0,
    [⟨⟨63, 0⟩, .ro, 0⟩]⟩,
  ⟨Reg.RB_CNT_RACC_FAIL, [], .none, 0,
    [⟨⟨63, 0⟩, .ro, 0⟩]⟩]

/-- Catalogue rows of the GB registers. -/
def regRowsGB : List RegRow := [
  ⟨Reg.GB_BASE, [], .none, 0,
    [⟨Fld.GB_BASE_BASE, .rwf, 0⟩]⟩,
  ⟨Reg.GB_CFG, [], .gb, 0,
    [⟨Fld.GB_CFG_SIZE_LOG2, .rwf, 0⟩, ⟨Fld.GB_CFG_THRESH, .rws, 0x800000⟩]⟩,
  ⟨Reg.GB_COMMIT, [], .none, 0,
    [⟨Fld.GB_COMMIT_GO, .wo, 0⟩, ⟨Fld.GB_COMMIT_DONE, .ro, 1⟩]⟩,
  ⟨Reg.GB_STATUS, [], .none, 0,
    [⟨Fld.GB_STATUS_NEXT_SEQ, .ro, 0⟩]⟩,
  ⟨Reg.GB_ARCHIVED, [], .none, 0,
    [⟨Fld.GB_ARCHIVED_SEQ, .rwl, 0⟩]⟩,
  ⟨Reg.GB_EVENT, [], .none, 0,
    [⟨Fld.GB_EVENT_THRESH, .w1c, 0⟩, ⟨Fld.GB_EVENT_OVERWRITE, .w1c, 0⟩]⟩,
  ⟨Reg.GB_BOOT, [], .none, 0,
    [⟨Fld.GB_BOOT_NONCE, .ro, 0⟩]⟩,
  ⟨Reg.GB_CNT_RECORDS, [], .none, 0,
    [⟨⟨63, 0⟩, .ro, 0⟩]⟩,
  ⟨Reg.GB_CNT_LOST_UNARCHIVED, [], .none, 0,
    [⟨⟨63, 0⟩, .ro, 0⟩]⟩,
  ⟨Reg.GB_CNT_SEALS, [], .none, 0,
    [⟨⟨63, 0⟩, .ro, 0⟩]⟩,
  ⟨Reg.GB_CNT_QUEUE_FULL_NS, [], .none, 0,
    [⟨⟨63, 0⟩, .ro, 0⟩]⟩]

/-- Catalogue rows of the FC registers. -/
def regRowsFC : List RegRow := [
  ⟨Reg.FC_CFG, [], .fc, 0,
    [⟨Fld.FC_CFG_C_HOLD_US, .rws, 0x3e8⟩, ⟨Fld.FC_CFG_SR_WDOG_MS, .rws, 0x64⟩]⟩,
  ⟨Reg.FC_COMMIT, [], .none, 0,
    [⟨Fld.FC_COMMIT_GO, .wo, 0⟩, ⟨Fld.FC_COMMIT_DONE, .ro, 1⟩]⟩,
  ⟨Reg.FC_EVENT, [], .none, 0,
    [⟨Fld.FC_EVENT_ERR, .w1c, 0⟩, ⟨Fld.FC_EVENT_LOG_FULL, .w1c, 0⟩, ⟨Fld.FC_EVENT_QUEUE_FULL, .w1c, 0⟩]⟩,
  ⟨Reg.FC_ERR, [], .none, 0,
    [⟨Fld.FC_ERR_ASSERTED, .ro, 0⟩, ⟨Fld.FC_ERR_FIRST_SOURCE, .ro, 0⟩, ⟨Fld.FC_ERR_ASSERTIONS, .ro, 0⟩]⟩,
  ⟨Reg.FC_ERR_SRC 0, [(3, 0x8)], .none, 0,
    [⟨Fld.FC_ERR_SRC_SOURCES, .ro, 0⟩]⟩,
  ⟨Reg.FC_LOG, [], .none, 0,
    [⟨Fld.FC_LOG_BASE, .rwf, 0⟩, ⟨Fld.FC_LOG_SIZE_LOG2, .rwf, 0⟩]⟩,
  ⟨Reg.FC_LOG_PTR, [], .none, 0,
    [⟨Fld.FC_LOG_PTR_HEAD, .rwl, 0⟩, ⟨Fld.FC_LOG_PTR_TAIL, .ro, 0⟩]⟩,
  ⟨Reg.FC_ACK, [], .none, 0,
    [⟨Fld.FC_ACK_SOURCE, .wo, 0⟩, ⟨Fld.FC_ACK_GO, .wo, 0⟩]⟩,
  ⟨Reg.FC_SRC 0, [(108, 0x8)], .fc, 0,
    [⟨Fld.FC_SRC_REACT_C, .rws, 0x1⟩, ⟨Fld.FC_SRC_REACT_U, .rws, 0x7⟩, ⟨Fld.FC_SRC_REACT_F, .rws, 0xb⟩, ⟨Fld.FC_SRC_ACK_C, .rws, 1⟩]⟩,
  ⟨Reg.FC_SRC 108, [(16, 0x8)], .fc, 0,
    [⟨Fld.FC_SRC_REACT_C, .rws, 0x1⟩, ⟨Fld.FC_SRC_REACT_U, .rws, 0x3⟩, ⟨Fld.FC_SRC_REACT_F, .rws, 0x7⟩, ⟨Fld.FC_SRC_ACK_C, .rws, 1⟩]⟩,
  ⟨Reg.FC_SRC 124, [(4, 0x8)], .fc, 0,
    [⟨Fld.FC_SRC_REACT_C, .rws, 0x1⟩, ⟨Fld.FC_SRC_REACT_U, .rws, 0x7⟩, ⟨Fld.FC_SRC_REACT_F, .rws, 0x7⟩, ⟨Fld.FC_SRC_ACK_C, .rws, 1⟩]⟩,
  ⟨Reg.FC_SRC 128, [(1, 0x8)], .fc, 0,
    [⟨Fld.FC_SRC_REACT_C, .rws, 0x1⟩, ⟨Fld.FC_SRC_REACT_U, .rws, 0x3⟩, ⟨Fld.FC_SRC_REACT_F, .rws, 0x33⟩, ⟨Fld.FC_SRC_ACK_C, .rws, 1⟩]⟩,
  ⟨Reg.FC_SRC 129, [(4, 0x8)], .fc, 0,
    [⟨Fld.FC_SRC_REACT_C, .rws, 0x1⟩, ⟨Fld.FC_SRC_REACT_U, .rws, 0x7⟩, ⟨Fld.FC_SRC_REACT_F, .rws, 0x7⟩, ⟨Fld.FC_SRC_ACK_C, .rws, 1⟩]⟩,
  ⟨Reg.FC_SRC 133, [(4, 0x8)], .fc, 0,
    [⟨Fld.FC_SRC_REACT_C, .rws, 0x1⟩, ⟨Fld.FC_SRC_REACT_U, .rws, 0x7⟩, ⟨Fld.FC_SRC_REACT_F, .rws, 0x7⟩, ⟨Fld.FC_SRC_ACK_C, .rws, 1⟩]⟩,
  ⟨Reg.FC_SRC 137, [(2, 0x8)], .fc, 0,
    [⟨Fld.FC_SRC_REACT_C, .rws, 0x1⟩, ⟨Fld.FC_SRC_REACT_U, .rws, 0x3⟩, ⟨Fld.FC_SRC_REACT_F, .rws, 0x33⟩, ⟨Fld.FC_SRC_ACK_C, .rws, 1⟩]⟩,
  ⟨Reg.FC_SRC 139, [(8, 0x8)], .fc, 0,
    [⟨Fld.FC_SRC_REACT_C, .rws, 0x1⟩, ⟨Fld.FC_SRC_REACT_U, .rws, 0x3⟩, ⟨Fld.FC_SRC_REACT_F, .rws, 0x7⟩, ⟨Fld.FC_SRC_ACK_C, .rws, 1⟩]⟩,
  ⟨Reg.FC_SRC 147, [(2, 0x8)], .fc, 0,
    [⟨Fld.FC_SRC_REACT_C, .rws, 0x1⟩, ⟨Fld.FC_SRC_REACT_U, .rws, 0x3⟩, ⟨Fld.FC_SRC_REACT_F, .rws, 0x7⟩, ⟨Fld.FC_SRC_ACK_C, .rws, 1⟩]⟩,
  ⟨Reg.FC_SRC 149, [(2, 0x8)], .fc, 0,
    [⟨Fld.FC_SRC_REACT_C, .rws, 0x1⟩, ⟨Fld.FC_SRC_REACT_U, .rws, 0x7⟩, ⟨Fld.FC_SRC_REACT_F, .rws, 0x7⟩, ⟨Fld.FC_SRC_ACK_C, .rws, 1⟩]⟩,
  ⟨Reg.FC_SRC 151, [(2, 0x8)], .fc, 0,
    [⟨Fld.FC_SRC_REACT_C, .rws, 0x1⟩, ⟨Fld.FC_SRC_REACT_U, .rws, 0x3⟩, ⟨Fld.FC_SRC_REACT_F, .rws, 0x33⟩, ⟨Fld.FC_SRC_ACK_C, .rws, 1⟩]⟩,
  ⟨Reg.FC_SRC 153, [(1, 0x8)], .fc, 0,
    [⟨Fld.FC_SRC_REACT_C, .rws, 0x1⟩, ⟨Fld.FC_SRC_REACT_U, .rws, 0x3⟩, ⟨Fld.FC_SRC_REACT_F, .rws, 0x3⟩, ⟨Fld.FC_SRC_ACK_C, .rws, 1⟩]⟩,
  ⟨Reg.FC_SRC 154, [(2, 0x8)], .fc, 0,
    [⟨Fld.FC_SRC_REACT_C, .rws, 0x1⟩, ⟨Fld.FC_SRC_REACT_U, .rws, 0x3⟩, ⟨Fld.FC_SRC_REACT_F, .rws, 0x33⟩, ⟨Fld.FC_SRC_ACK_C, .rws, 1⟩]⟩,
  ⟨Reg.FC_SRC 156, [(1, 0x8)], .fc, 0,
    [⟨Fld.FC_SRC_REACT_C, .rws, 0x3⟩, ⟨Fld.FC_SRC_REACT_U, .rws, 0x3⟩, ⟨Fld.FC_SRC_REACT_F, .rws, 0x33⟩, ⟨Fld.FC_SRC_ACK_C, .rws, 1⟩]⟩,
  ⟨Reg.FC_STAT 0, [(157, 0x8)], .none, 0,
    [⟨Fld.FC_STAT_C_PEND, .ro, 0⟩, ⟨Fld.FC_STAT_U_PEND, .ro, 0⟩, ⟨Fld.FC_STAT_F_PEND, .ro, 0⟩, ⟨Fld.FC_STAT_ERR, .ro, 0⟩, ⟨Fld.FC_STAT_LAST_CAUSE, .ro, 0⟩, ⟨Fld.FC_STAT_LAST_UNIT, .ro, 0⟩, ⟨Fld.FC_STAT_FAULTS, .ro, 0⟩]⟩,
  ⟨Reg.FC_CNT_REPORTS, [], .none, 0,
    [⟨⟨63, 0⟩, .ro, 0⟩]⟩,
  ⟨Reg.FC_CNT_ESCALATED, [], .none, 0,
    [⟨⟨63, 0⟩, .ro, 0⟩]⟩,
  ⟨Reg.FC_CNT_FENCES, [], .none, 0,
    [⟨⟨63, 0⟩, .ro, 0⟩]⟩,
  ⟨Reg.FC_CNT_LOG_DROP, [], .none, 0,
    [⟨⟨63, 0⟩, .ro, 0⟩]⟩,
  ⟨Reg.FC_CNT_SAFE_ENTRIES, [], .none, 0,
    [⟨⟨63, 0⟩, .ro, 0⟩]⟩,
  ⟨Reg.FC_CNT_AUTO_ACKS, [], .none, 0,
    [⟨⟨63, 0⟩, .ro, 0⟩]⟩]

/-- Catalogue rows of the DEV registers. -/
def regRowsDEV : List RegRow := [
  ⟨Reg.DEV_ID, [], .none, 0,
    [⟨Fld.DEV_ID_PART, .ro, 0x9640⟩, ⟨Fld.DEV_ID_REV, .ro, 0xa1⟩, ⟨Fld.DEV_ID_FUSE_ERR, .ro, 0⟩]⟩,
  ⟨Reg.DEV_MODE, [], .none, 0,
    [⟨Fld.DEV_MODE_STATE, .ro, 0⟩]⟩,
  ⟨Reg.DEV_STRAP, [], .none, 0,
    [⟨Fld.DEV_STRAP_PCIE_W, .ro, 0⟩, ⟨Fld.DEV_STRAP_SMB_A, .ro, 0⟩, ⟨Fld.DEV_STRAP_TAP, .ro, 0⟩]⟩,
  ⟨Reg.DEV_UID, [], .none, 0,
    [⟨Fld.DEV_UID_UID, .ro, 0⟩]⟩,
  ⟨Reg.DEV_EVENT, [], .none, 0,
    [⟨Fld.DEV_EVENT_MODE_CHANGE, .w1c, 0⟩]⟩,
  ⟨Reg.DEV_FENCE_CORE_0, [], .none, 0,
    [⟨Fld.DEV_FENCE_CORE_0_UNITS, .ro, 0⟩]⟩,
  ⟨Reg.DEV_FENCE_CORE_1, [], .none, 0,
    [⟨Fld.DEV_FENCE_CORE_1_UNITS, .ro, 0⟩]⟩,
  ⟨Reg.DEV_FENCE_HLP_0, [], .none, 0,
    [⟨Fld.DEV_FENCE_HLP_0_UNITS, .ro, 0⟩]⟩,
  ⟨Reg.DEV_FENCE_HLP_1, [], .none, 0,
    [⟨Fld.DEV_FENCE_HLP_1_UNITS, .ro, 0⟩]⟩,
  ⟨Reg.DEV_FENCE_MISC, [], .none, 0,
    [⟨Fld.DEV_FENCE_MISC_STREETS, .ro, 0⟩, ⟨Fld.DEV_FENCE_MISC_ENGINES, .ro, 0⟩, ⟨Fld.DEV_FENCE_MISC_BANKS, .ro, 0⟩, ⟨Fld.DEV_FENCE_MISC_PIPES, .ro, 0⟩, ⟨Fld.DEV_FENCE_MISC_LANES, .ro, 0⟩, ⟨Fld.DEV_FENCE_MISC_DDR, .ro, 0⟩, ⟨Fld.DEV_FENCE_MISC_PORTS, .ro, 0⟩, ⟨Fld.DEV_FENCE_MISC_RING, .ro, 0⟩]⟩]

/-- Catalogue rows of the PWR registers. -/
def regRowsPWR : List RegRow := [
  ⟨Reg.CLK_STATUS, [], .none, 0,
    [⟨Fld.CLK_STATUS_ROOT_LOCK, .ro, 0⟩, ⟨Fld.CLK_STATUS_PCIE_LOCK, .ro, 0⟩, ⟨Fld.CLK_STATUS_SERDES_LOCK, .ro, 0⟩]⟩,
  ⟨Reg.PWR_THERM, [], .none, 0,
    [⟨Fld.PWR_THERM_WARN_C, .rwf, 0x8c⟩, ⟨Fld.PWR_THERM_TRIP_C, .rwf, 0x9b⟩]⟩,
  ⟨Reg.PWR_TEMP, [], .none, 0,
    [⟨Fld.PWR_TEMP_MAX_C, .ro, 0⟩, ⟨Fld.PWR_TEMP_MAX_SENSOR, .ro, 0⟩]⟩,
  ⟨Reg.PWR_ST 0, [(12, 0x8)], .none, 0,
    [⟨Fld.PWR_ST_RUNG, .rwl, 0⟩, ⟨Fld.PWR_ST_IDLE_NS, .rwl, 0x3e8⟩]⟩]

/-- Catalogue rows of the TB registers. -/
def regRowsTB : List RegRow := [
  ⟨Reg.TB_TIME, [], .none, 0,
    [⟨Fld.TB_TIME_TIME, .ro, 0⟩]⟩,
  ⟨Reg.TB_MONO, [], .none, 0,
    [⟨Fld.TB_MONO_MONO, .ro, 0⟩]⟩,
  ⟨Reg.TB_SET, [], .none, 0,
    [⟨Fld.TB_SET_VALUE, .wo, 0⟩]⟩,
  ⟨Reg.TB_STEP, [], .none, 0,
    [⟨Fld.TB_STEP_DELTA, .wo, 0⟩]⟩,
  ⟨Reg.TB_RATE, [], .none, 0,
    [⟨Fld.TB_RATE_RATE, .rwl, 0⟩]⟩]

/-- Catalogue rows of the SR registers. -/
def regRowsSR : List RegRow := [
  ⟨Reg.SR_ALIVE, [], .none, 0,
    [⟨Fld.SR_ALIVE_ALIVE, .wo, 0⟩]⟩,
  ⟨Reg.SR_STATUS, [], .none, 0,
    [⟨Fld.SR_STATUS_RUNNING, .ro, 0⟩, ⟨Fld.SR_STATUS_RESTARTS, .ro, 0⟩]⟩]

/-- Catalogue rows of the CQ registers. -/
def regRowsCQ : List RegRow := [
  ⟨Reg.CQ_SQ_TAIL 0, [(64, 0x10000)], .none, 0,
    [⟨Fld.Q_SQ_TAIL_TAIL, .rwl, 0⟩]⟩,
  ⟨Reg.CQ_CQ_HEAD 0, [(64, 0x10000)], .none, 0,
    [⟨Fld.Q_CQ_HEAD_HEAD, .rwl, 0⟩]⟩,
  ⟨Reg.CQ_STATUS 0, [(64, 0x10000)], .none, 0,
    [⟨Fld.Q_STATUS_SQ_HEAD, .ro, 0⟩, ⟨Fld.Q_STATUS_CQ_TAIL, .ro, 0⟩, ⟨Fld.Q_STATUS_EN_ACT, .ro, 0⟩, ⟨Fld.Q_STATUS_PHASE, .ro, 1⟩, ⟨Fld.Q_STATUS_ERR, .ro, 0⟩, ⟨Fld.Q_STATUS_ERR_CODE, .ro, 0⟩]⟩,
  ⟨Reg.CQ_CTL 0, [(64, 0x10000)], .none, 0,
    [⟨Fld.Q_CTL_EN, .rwl, 0⟩, ⟨Fld.Q_CTL_GO, .wo, 0⟩, ⟨Fld.Q_CTL_DONE, .ro, 1⟩]⟩,
  ⟨Reg.CQ_SQ 0, [(64, 0x10000)], .clq, 1,
    [⟨Fld.Q_SQ_LOG2, .rws, 0⟩, ⟨Fld.Q_SQ_BASE, .rws, 0⟩]⟩,
  ⟨Reg.CQ_CQ 0, [(64, 0x10000)], .clq, 1,
    [⟨Fld.Q_CQ_LOG2, .rws, 0⟩, ⟨Fld.Q_CQ_BASE, .rws, 0⟩]⟩,
  ⟨Reg.CQ_NB 0, [(64, 0x10000)], .clq, 1,
    [⟨Fld.Q_NB_LOG2, .rws, 0⟩, ⟨Fld.Q_NB_BASE, .rws, 0⟩]⟩]

/-- The whole catalogue. -/
def regRows : List RegRow :=
  regRowsETH ++
  regRowsETH1 ++
  regRowsFST ++
  regRowsPG ++
  regRowsRC ++
  regRowsRC1 ++
  regRowsSQ ++
  regRowsSQ1 ++
  regRowsCW ++
  regRowsST ++
  regRowsCORE ++
  regRowsHLP ++
  regRowsTE ++
  regRowsTE1 ++
  regRowsDIR ++
  regRowsDDR ++
  regRowsDDR1 ++
  regRowsBP ++
  regRowsCH ++
  regRowsHP ++
  regRowsHI ++
  regRowsQ ++
  regRowsCL ++
  regRowsRB ++
  regRowsRB1 ++
  regRowsGB ++
  regRowsFC ++
  regRowsDEV ++
  regRowsPWR ++
  regRowsTB ++
  regRowsSR ++
  regRowsCQ


end Sys2Proof.Machine
end

