-- ==== Sys2Proof/Syntax.lean ====
section
/-! DEFINITION. The commands of the EQ9640, one constructor per row of spec/opcode_table.json, with the operands a
row takes.  A command is what the outside world, or the passing of time, makes the device do; a Q-core instruction
row is "thread `t` issues this instruction", with the fields of its word (R221) and, in `rsv`, the bits of the word
that the instruction reserves (R220). -/

namespace Sys2Proof

/-- Who makes a register access (R474): the host through BAR0 (with or without a PASID prefix, R391), Tenik, a thread
at P0 through the register-space mirror, the debug port, or a thread of another member of the ring (R458). -/
inductive Who
  | host (pasid : Option Nat)
  | tenik
  | thread (t : Nat)
  | debug
  | remote (t : Nat) (dev : Nat)
  deriving DecidableEq, Repr

/-- What a pipeline is handed (R17, R44): the next complete message of an RX stream, or the oldest unsequenced frame of
a port. -/
inductive HandOver
  | stream (id : Nat)
  | unseq (p : Nat)
  deriving DecidableEq, Repr

/-- The instruction behind a REP (R253): one of those marked Rep, or another. -/
inductive Follower
  | sdx (rd rb off : Nat) | swx (rd rb off : Nat) | shx (rd rb off : Nat) | sbx (rd rb off : Nat)
  | cpx (rd rb size rsv : Nat)
  | chwrx (ra rb : Nat) (e : Bool) (rsv : Nat)
  | other
  deriving DecidableEq, Repr

/-- The helper classes as a command names them (R262). -/
inductive HelperClass
  | fx | dx | cx | hx
  deriving DecidableEq, Repr

/-- What the check code of a storage read says (R334, R346, R347). -/
inductive EccOutcome
  | good | corrected | uncorrectable
  deriving DecidableEq, Repr

/-- The uncorrectable error within a received frame, if there is one: one that the PCS reports, or a codeword of the FEC
(R38). -/
inductive FrameErr
  | none | pcs | codeword
  deriving DecidableEq, Repr

/-- A fault that a unit finds in itself (R483): an uncorrectable error in its own state, a SerDes or PCS failure of a port
group, or a failed consistency check; the unit by the kind and index of R415. -/
inductive OwnFault
  | stateUncorr (kind idx : Nat)
  | linkFault (g : Nat)
  | logic (kind idx : Nat)
  deriving DecidableEq, Repr

/-- Where a monitored supply comes to stand (R516, R522, R532): above its range by more than 5 %, below it by as much, below its
recommended minimum only, or within its recommended range again. -/
inductive SupplyLevel
  | high | low | dip | back
  deriving DecidableEq, Repr

/-- The signals of a DDR channel that are digital pins (R521). -/
inductive DdrPin
  | dq (i : Nat) | dqsT (i : Nat) | dqsC (i : Nat) | a (i : Nat) | ba (i : Nat) | bg (i : Nat) | actN | par | csN (i : Nat)
  | cke (i : Nat) | odt (i : Nat) | ckT (i : Nat) | ckC (i : Nat) | alertN | resetN | smbScl | smbSda
  deriving DecidableEq, Repr

/-- The signals of the device that carry levels of its own or of the board (R521); a SerDes transmitter stands for its pair. -/
inductive Pin
  | ddr (n : Nat) (p : DdrPin)
  | perst | sbScl | sbSda | sbAlertN | errN | tdo | strapPcieW (i : Nat) | strapSmbA (i : Nat) | strapTap | strapTest
  | clientTx (lane : Nat) | ringTx (link lane : Nat) | pcieTx (lane : Nat)
  deriving DecidableEq, Repr

/-- What an SMBus controller does with a command code (R544): it reads the byte or word behind it, with a PEC or without; or it
writes the code, and perhaps data bytes. -/
inductive SbAccess
  | read (pec : Bool)
  | write (data : List Nat)
  deriving DecidableEq, Repr

/-- The AtomicOps the device completes (R389). -/
inductive AtomicKind
  | fetchAdd | swap | cas
  deriving DecidableEq, Repr

/-- A command packet (R400): the queue it stands in (0 to 15 a manager queue, 16 + c the ring of classroom c), the
fields of its header, and its payload. -/
structure Cmd where
  queue : Nat
  flags : Nat
  len : Nat
  tag : Word
  replyAddr : Nat
  replyMax : Nat
  rsv : Nat
  p0 : Nat
  p1 : Nat
  p2 : Nat
  p3 : Nat
  payload : List Byte
  deriving DecidableEq, Repr

/-- The commands of the device. -/
inductive Instr
  /-- REGISTER_WRITE (R10). -/
  | registerWrite (o : Who) (off : Nat) (en : Nat) (v : Word)
  /-- COMMIT_GO (R460). -/
  | commitGo (o : Who) (off : Nat) (en : Nat) (v : Word)
  /-- COMMIT_SAFE_POINT (R460). -/
  | commitSafePoint (g : Machine.Grp)
  /-- FRAME_RECEIVE (R38). -/
  | frameReceive (p : Nat) (bytes : List Byte) (err : FrameErr)
  /-- PAUSE_FRAME_RECEIVE (R47). -/
  | pauseFrameReceive (p : Nat) (quanta : Nat)
  /-- PFC_FRAME_RECEIVE (R48). -/
  | pfcFrameReceive (p : Nat) (enable : Nat) (quanta : List Nat)
  /-- PAUSE_EXPIRE (R47). -/
  | pauseExpire (p : Nat) (prio : Option Nat)
  /-- PAUSE_STORM (R50). -/
  | pauseStorm (p : Nat) (q : Nat)
  /-- CLIENT_LINK_CHANGE (R73). -/
  | clientLinkChange (p : Nat) (up : Bool)
  /-- FRAME_TRANSMIT (R46). -/
  | frameTransmit (p : Nat)
  /-- TXTS_POP (R54). -/
  | txtsPop (o : Who) (p : Nat) (en : Nat) (v : Word)
  /-- FST_DATA_RECEIVE (R65). -/
  | fstDataReceive (p : Nat)
  /-- NAK_REPEAT (R70). -/
  | nakRepeat (id : Nat)
  /-- ACK_DELAY_EXPIRE (R71). -/
  | ackDelayExpire (id : Nat)
  /-- FST_ACK_RECEIVE (R76). -/
  | fstAckReceive (p : Nat)
  /-- FST_NAK_RECEIVE (R76). -/
  | fstNakReceive (p : Nat)
  /-- FST_HELLO_RX_STREAM (R61). -/
  | fstHelloRxStream (p : Nat)
  /-- FST_HELLO_TX_STREAM (R64). -/
  | fstHelloTxStream (p : Nat)
  /-- FST_CLOSE_RX_STREAM (R62). -/
  | fstCloseRxStream (p : Nat)
  /-- FST_CLOSE_TX_STREAM (R64). -/
  | fstCloseTxStream (p : Nat)
  /-- RX_STREAM_CLOSE_DONE (R62). -/
  | rxStreamCloseDone (id : Nat)
  /-- MESSAGE_HAND_OVER (R17). -/
  | messageHandOver (src : HandOver)
  /-- FST_TX_SEND (R74). -/
  | fstTxSend (id : Nat)
  /-- FST_RTO_TIMEOUT (R76). -/
  | fstRtoTimeout (id : Nat)
  /-- HELLO_RTO_TIMEOUT (R64). -/
  | helloRtoTimeout (id : Nat)
  /-- CLOSE_RTO_TIMEOUT (R64). -/
  | closeRtoTimeout (id : Nat)
  /-- WALK_COMPLETE (R103). -/
  | walkComplete (p : Nat) (i : Nat)
  /-- HOLD_QUEUE_RELEASE (R153). -/
  | holdQueueRelease (p : Nat)
  /-- ADMIT (R152). -/
  | admission
  /-- CONTEXT_CREATE (R155). -/
  | contextCreate
  /-- TOKEN_ARRIVE (R106). -/
  | tokenArrive (b : Nat)
  /-- READY_FIRE (R135). -/
  | readyFire (b : Nat)
  /-- SPILL_REFILL (R137). -/
  | spillRefill (b : Nat)
  /-- BANK_RESUME (R138). -/
  | bankResume (b : Nat)
  /-- CONTEXT_PARK (R126). -/
  | contextPark (x : Nat)
  /-- PARK_TIMEOUT (R126). -/
  | parkTimeout (d : Nat)
  /-- CONTEXT_FREE (R110). -/
  | contextFree (x : Nat)
  /-- STALEMATE (R142). -/
  | stalemate
  /-- TENIK_STALEMATE_ACTION (R143). -/
  | tenikStalemateAction
  /-- ABANDON_CONTEXT (R145). -/
  | abandonContext (x : Nat)
  /-- ABANDON_FINISH (R145). -/
  | abandonFinish (x : Nat)
  /-- DISPATCH (R160). -/
  | dispatch (c : Nat)
  /-- PREEMPT_SAVE (R164). -/
  | preemptSave (t : Nat)
  /-- THREAD_TIMER_DUE (R168). -/
  | threadTimerDue (d : Nat)
  /-- RETIRE_APPLY (R175). -/
  | retireApply (a : Nat)
  /-- MESSAGE_RELEASE (R182). -/
  | messageRelease (l : Nat)
  /-- LANE_TAKEOVER_END (R186). -/
  | laneTakeoverEnd (l : Nat)
  /-- CROSSWALK_HOLD (R187). -/
  | crosswalkHold (l : Nat)
  /-- LOAD_RETURN (R196). -/
  | loadReturn (t : Nat) (data : Option Word)
  /-- THREAD_FAULT (R209). -/
  | threadFault (t : Nat) (cause : Nat)
  /-- SEAT_LIMIT (R208). -/
  | seatLimit (t : Nat)
  /-- THREAD_RELEASE (R211). -/
  | threadRelease (o : Who) (k : Nat) (thr : Nat)
  /-- THREAD_DROP (R211). -/
  | threadDrop (o : Who) (k : Nat) (thr : Nat)
  /-- THREAD_RESET (R211). -/
  | threadReset (o : Who) (k : Nat) (thr : Nat)
  /-- THREAD_STALEMATE (R213). -/
  | threadStalemate (k : Nat)
  /-- DEBUG_HALT (R214). -/
  | debugHalt (o : Who) (k : Nat) (mask : Nat)
  /-- HALT_FORCED (R214). -/
  | haltForced (t : Nat)
  /-- DEBUG_RESUME (R215). -/
  | debugResume (o : Who) (k : Nat) (mask : Nat)
  /-- DEBUG_STEP (R216). -/
  | debugStep (o : Who) (k : Nat) (mask : Nat)
  /-- DBG_DATA_WRITE (R218). -/
  | dbgDataWrite (o : Who) (k : Nat) (en : Nat) (v : Word)
  /-- DBG_DATA_READ (R218). -/
  | dbgDataRead (o : Who) (k : Nat)
  /-- FLAG_WAKE (R205). -/
  | flagWake (t : Nat)
  /-- ADD (R234). -/
  | add (t : Nat) (rd : Nat) (ra : Nat) (rb : Nat) (rsv : Nat)
  /-- SUB (R234). -/
  | sub (t : Nat) (rd : Nat) (ra : Nat) (rb : Nat) (rsv : Nat)
  /-- AND (R234). -/
  | and (t : Nat) (rd : Nat) (ra : Nat) (rb : Nat) (rsv : Nat)
  /-- OR (R234). -/
  | or (t : Nat) (rd : Nat) (ra : Nat) (rb : Nat) (rsv : Nat)
  /-- XOR (R234). -/
  | xor (t : Nat) (rd : Nat) (ra : Nat) (rb : Nat) (rsv : Nat)
  /-- ANDN (R234). -/
  | andn (t : Nat) (rd : Nat) (ra : Nat) (rb : Nat) (rsv : Nat)
  /-- SLL (R234). -/
  | sll (t : Nat) (rd : Nat) (ra : Nat) (rb : Nat) (rsv : Nat)
  /-- SRL (R234). -/
  | srl (t : Nat) (rd : Nat) (ra : Nat) (rb : Nat) (rsv : Nat)
  /-- SRA (R234). -/
  | sra (t : Nat) (rd : Nat) (ra : Nat) (rb : Nat) (rsv : Nat)
  /-- ROR (R234). -/
  | ror (t : Nat) (rd : Nat) (ra : Nat) (rb : Nat) (rsv : Nat)
  /-- MUL (R234). -/
  | mul (t : Nat) (rd : Nat) (ra : Nat) (rb : Nat) (rsv : Nat)
  /-- MULHU (R234). -/
  | mulhu (t : Nat) (rd : Nat) (ra : Nat) (rb : Nat) (rsv : Nat)
  /-- MULHS (R234). -/
  | mulhs (t : Nat) (rd : Nat) (ra : Nat) (rb : Nat) (rsv : Nat)
  /-- MINU (R234). -/
  | minu (t : Nat) (rd : Nat) (ra : Nat) (rb : Nat) (rsv : Nat)
  /-- MAXU (R234). -/
  | maxu (t : Nat) (rd : Nat) (ra : Nat) (rb : Nat) (rsv : Nat)
  /-- MINS (R234). -/
  | mins (t : Nat) (rd : Nat) (ra : Nat) (rb : Nat) (rsv : Nat)
  /-- MAXS (R234). -/
  | maxs (t : Nat) (rd : Nat) (ra : Nat) (rb : Nat) (rsv : Nat)
  /-- CMP (R234). -/
  | cmp (t : Nat) (rd : Nat) (ra : Nat) (rb : Nat) (rsv : Nat)
  /-- TST (R234). -/
  | tst (t : Nat) (rd : Nat) (ra : Nat) (rb : Nat) (rsv : Nat)
  /-- SEXTB (R234). -/
  | sextb (t : Nat) (rd : Nat) (ra : Nat) (rb : Nat) (rsv : Nat)
  /-- SEXTH (R234). -/
  | sexth (t : Nat) (rd : Nat) (ra : Nat) (rb : Nat) (rsv : Nat)
  /-- SEXTW (R234). -/
  | sextw (t : Nat) (rd : Nat) (ra : Nat) (rb : Nat) (rsv : Nat)
  /-- CLZ (R234). -/
  | clz (t : Nat) (rd : Nat) (ra : Nat) (rb : Nat) (rsv : Nat)
  /-- POPC (R234). -/
  | popc (t : Nat) (rd : Nat) (ra : Nat) (rb : Nat) (rsv : Nat)
  /-- BSWAP (R234). -/
  | bswap (t : Nat) (rd : Nat) (ra : Nat) (rb : Nat) (rsv : Nat)
  /-- SELZ (R234). -/
  | selz (t : Nat) (rd : Nat) (ra : Nat) (rb : Nat) (rsv : Nat)
  /-- ADDI (R235). -/
  | addi (t : Nat) (rd : Nat) (ra : Nat) (imm : Nat) (rsv : Nat)
  /-- ANDI (R235). -/
  | andi (t : Nat) (rd : Nat) (ra : Nat) (imm : Nat) (rsv : Nat)
  /-- ORI (R235). -/
  | ori (t : Nat) (rd : Nat) (ra : Nat) (imm : Nat) (rsv : Nat)
  /-- XORI (R235). -/
  | xori (t : Nat) (rd : Nat) (ra : Nat) (imm : Nat) (rsv : Nat)
  /-- CMPI (R235). -/
  | cmpi (t : Nat) (rd : Nat) (ra : Nat) (imm : Nat) (rsv : Nat)
  /-- SLLI (R235). -/
  | slli (t : Nat) (rd : Nat) (ra : Nat) (sh : Nat) (rsv : Nat)
  /-- SRLI (R235). -/
  | srli (t : Nat) (rd : Nat) (ra : Nat) (sh : Nat) (rsv : Nat)
  /-- SRAI (R235). -/
  | srai (t : Nat) (rd : Nat) (ra : Nat) (sh : Nat) (rsv : Nat)
  /-- RORI (R235). -/
  | rori (t : Nat) (rd : Nat) (ra : Nat) (sh : Nat) (rsv : Nat)
  /-- MOVI (R235). -/
  | movi (t : Nat) (rd : Nat) (h : Nat) (imm : Nat) (rsv : Nat)
  /-- MOVK (R235). -/
  | movk (t : Nat) (rd : Nat) (h : Nat) (imm : Nat) (rsv : Nat)
  /-- BKLD (R229). -/
  | bkld (t : Nat) (bk : Nat) (ra : Nat) (rsv : Nat)
  /-- BKRD (R248). -/
  | bkrd (t : Nat) (rd : Nat) (bk : Nat) (rsv : Nat)
  /-- CRD (R224). -/
  | crd (t : Nat) (rd : Nat) (num : Nat) (rsv : Nat)
  /-- CWR (R224). -/
  | cwr (t : Nat) (rd : Nat) (num : Nat) (rsv : Nat)
  /-- REP (R254). -/
  | rep (t : Nat) (i : Bool) (r : Bool) (rb : Nat) (count : Nat) (rsv : Nat) (fol : Follower) (stop : Option Nat)
  /-- LD (R236). -/
  | ld (t : Nat) (rd : Nat) (bank : Nat) (short : Nat)
  /-- LW (R236). -/
  | lw (t : Nat) (rd : Nat) (bank : Nat) (short : Nat)
  /-- LH (R236). -/
  | lh (t : Nat) (rd : Nat) (bank : Nat) (short : Nat)
  /-- LB (R236). -/
  | lb (t : Nat) (rd : Nat) (bank : Nat) (short : Nat)
  /-- SD (R236). -/
  | sd (t : Nat) (rd : Nat) (bank : Nat) (short : Nat)
  /-- SW (R236). -/
  | sw (t : Nat) (rd : Nat) (bank : Nat) (short : Nat)
  /-- SH (R236). -/
  | sh (t : Nat) (rd : Nat) (bank : Nat) (short : Nat)
  /-- SB (R236). -/
  | sb (t : Nat) (rd : Nat) (bank : Nat) (short : Nat)
  /-- LDX (R236). -/
  | ldx (t : Nat) (rd : Nat) (rb : Nat) (off : Nat)
  /-- LWX (R236). -/
  | lwx (t : Nat) (rd : Nat) (rb : Nat) (off : Nat)
  /-- LHX (R236). -/
  | lhx (t : Nat) (rd : Nat) (rb : Nat) (off : Nat)
  /-- LBX (R236). -/
  | lbx (t : Nat) (rd : Nat) (rb : Nat) (off : Nat)
  /-- SDX (R236). -/
  | sdx (t : Nat) (rd : Nat) (rb : Nat) (off : Nat)
  /-- SWX (R236). -/
  | swx (t : Nat) (rd : Nat) (rb : Nat) (off : Nat)
  /-- SHX (R236). -/
  | shx (t : Nat) (rd : Nat) (rb : Nat) (off : Nat)
  /-- SBX (R236). -/
  | sbx (t : Nat) (rd : Nat) (rb : Nat) (off : Nat)
  /-- CPX (R237). -/
  | cpx (t : Nat) (rd : Nat) (rb : Nat) (size : Nat) (rsv : Nat)
  /-- BC (R238). -/
  | bc (t : Nat) (cond : Nat) (disp : Nat)
  /-- JR (R238). -/
  | jr (t : Nat) (ra : Nat) (rsv : Nat)
  /-- JALR (R238). -/
  | jalr (t : Nat) (rd : Nat) (ra : Nat) (rsv : Nat)
  /-- GETWORK (R239). -/
  | getwork (t : Nat) (rd : Nat) (ra : Nat) (rsv : Nat)
  /-- WAITEV (R240). -/
  | waitev (t : Nat) (rd : Nat) (ra : Nat) (rsv : Nat)
  /-- WAITEV_C (R240). -/
  | waitevC (t : Nat) (rd : Nat) (ra : Nat) (rsv : Nat)
  /-- SETEV (R206). -/
  | setev (t : Nat) (ra : Nat) (flag : Nat) (rsv : Nat)
  /-- TOKEN (R241). -/
  | token (t : Nat) (ra : Nat) (rb : Nat) (rsv : Nat)
  /-- JWR (R242). -/
  | jwr (t : Nat) (ra : Nat) (rsv : Nat)
  /-- JOUT (R242). -/
  | jout (t : Nat) (ra : Nat) (rsv : Nat)
  /-- RETIRE (R175). -/
  | retire (t : Nat) (rd : Nat) (rsv : Nat)
  /-- ABANDON (R177). -/
  | abandon (t : Nat) (mode : Nat) (rsv : Nat)
  /-- CHWR (R245). -/
  | chwr (t : Nat) (ra : Nat) (rb : Nat) (e : Bool) (rsv : Nat)
  /-- CHWRX (R245). -/
  | chwrx (t : Nat) (ra : Nat) (rb : Nat) (e : Bool) (rsv : Nat)
  /-- CHRD (R245). -/
  | chrd (t : Nat) (rd : Nat) (rb : Nat) (rsv : Nat)
  /-- CHRD_NB (R245). -/
  | chrdNb (t : Nat) (rd : Nat) (rb : Nat) (rsv : Nat)
  /-- CHANNEL_READ_RESUME (R245). -/
  | channelReadResume (t : Nat)
  /-- CHANNEL_WRITE_RESUME (R375). -/
  | channelWriteResume (t : Nat)
  /-- CAS (R246). -/
  | cas (t : Nat) (rd : Nat) (ra : Nat) (rb : Nat) (rsv : Nat)
  /-- HPACQ (R247). -/
  | hpacq (t : Nat) (rd : Nat) (ra : Nat) (rsv : Nat)
  /-- HPACQ_T (R247). -/
  | hpacqT (t : Nat) (rd : Nat) (ra : Nat) (rsv : Nat)
  /-- HPACQ_E (R247). -/
  | hpacqE (t : Nat) (rd : Nat) (ra : Nat) (rsv : Nat)
  /-- HPREL (R383). -/
  | hprel (t : Nat) (ra : Nat) (rsv : Nat)
  /-- TRAP (R258). -/
  | trap (t : Nat) (imm : Nat) (rsv : Nat) (other : Option Nat)
  /-- ERET (R259). -/
  | eret (t : Nat) (rsv : Nat)
  /-- FX_BITMAP (R273). -/
  | fxBitmap (t : Nat) (ra : Nat) (rb : Nat) (rc : Nat) (flags : Nat)
  /-- FX_ISO (R274). -/
  | fxIso (t : Nat) (ra : Nat) (rb : Nat) (rc : Nat) (flags : Nat)
  /-- FX_TLV (R275). -/
  | fxTlv (t : Nat) (ra : Nat) (rb : Nat) (rc : Nat) (flags : Nat)
  /-- FX_FIELDS (R276). -/
  | fxFields (t : Nat) (ra : Nat) (rb : Nat) (rc : Nat) (flags : Nat)
  /-- DX_ADD (R279). -/
  | dxAdd (t : Nat) (ra : Nat) (rb : Nat) (rc : Nat) (flags : Nat)
  /-- DX_SUB (R279). -/
  | dxSub (t : Nat) (ra : Nat) (rb : Nat) (rc : Nat) (flags : Nat)
  /-- DX_MUL (R279). -/
  | dxMul (t : Nat) (ra : Nat) (rb : Nat) (rc : Nat) (flags : Nat)
  /-- DX_RESCALE (R279). -/
  | dxRescale (t : Nat) (ra : Nat) (rb : Nat) (rc : Nat) (flags : Nat)
  /-- DX_CCY (R279). -/
  | dxCcy (t : Nat) (ra : Nat) (rb : Nat) (rc : Nat) (flags : Nat)
  /-- DX_CMP (R279). -/
  | dxCmp (t : Nat) (ra : Nat) (rb : Nat) (rc : Nat) (flags : Nat)
  /-- DX_PARSE (R279). -/
  | dxParse (t : Nat) (ra : Nat) (rb : Nat) (rc : Nat) (flags : Nat)
  /-- DX_FORMAT (R279). -/
  | dxFormat (t : Nat) (ra : Nat) (rb : Nat) (rc : Nat) (flags : Nat)
  /-- CX_CMAC (R280). -/
  | cxCmac (t : Nat) (ra : Nat) (rb : Nat) (rc : Nat) (flags : Nat)
  /-- CX_CMAC_VER (R280). -/
  | cxCmacVer (t : Nat) (ra : Nat) (rb : Nat) (rc : Nat) (flags : Nat)
  /-- CX_GCM_ENC (R280). -/
  | cxGcmEnc (t : Nat) (ra : Nat) (rb : Nat) (rc : Nat) (flags : Nat)
  /-- CX_GCM_DEC (R282). -/
  | cxGcmDec (t : Nat) (ra : Nat) (rb : Nat) (rc : Nat) (flags : Nat)
  /-- CX_SHA256 (R280). -/
  | cxSha256 (t : Nat) (ra : Nat) (rb : Nat) (rc : Nat) (flags : Nat)
  /-- CX_HMAC (R280). -/
  | cxHmac (t : Nat) (ra : Nat) (rb : Nat) (rc : Nat) (flags : Nat)
  /-- CX_HMAC_VER (R280). -/
  | cxHmacVer (t : Nat) (ra : Nat) (rb : Nat) (rc : Nat) (flags : Nat)
  /-- HX_CRC (R283). -/
  | hxCrc (t : Nat) (ra : Nat) (rb : Nat) (rc : Nat) (flags : Nat)
  /-- HX_KEY (R284). -/
  | hxKey (t : Nat) (ra : Nat) (rb : Nat) (rc : Nat) (flags : Nat)
  /-- HX_MCMP (R285). -/
  | hxMcmp (t : Nat) (ra : Nat) (rb : Nat) (rc : Nat) (flags : Nat)
  /-- HELPER_GRANT (R263). -/
  | helperGrant (s : Nat) (k : HelperClass)
  /-- HELPER_COMPLETE (R271). -/
  | helperComplete (s : Nat) (u : Nat)
  /-- POOL_PORT_ALLOC (R372). -/
  | poolPortAlloc (t : Nat) (rd : Nat) (c : Nat) (p : Nat)
  /-- POOL_PORT_INFO (R372). -/
  | poolPortInfo (t : Nat) (rd : Nat) (c : Nat) (p : Nat)
  /-- POOL_PORT_DROP (R367). -/
  | poolPortDrop (t : Nat) (c : Nat) (h : Word)
  /-- POOL_PORT_ADD (R367). -/
  | poolPortAdd (t : Nat) (c : Nat) (h : Word)
  /-- VECTOR_SIGNAL (R427). -/
  | vectorSignal (t : Nat) (c : Nat) (v : Word)
  /-- TABLE_LOOKUP (R298). -/
  | tableLookup (n : Nat)
  /-- LOOKUP_RESULT (R123). -/
  | lookupResult (n : Nat) (i : Nat)
  /-- TABLE_MOVE (R309). -/
  | tableMove (n : Nat) (p : Nat)
  /-- TE_CMD_READ (R311). -/
  | teCmdRead (o : Who) (n : Nat) (p : Nat) (table : Nat)
  /-- TE_CMD_INSERT (R311). -/
  | teCmdInsert (o : Who) (n : Nat) (p : Nat) (table : Nat)
  /-- TE_CMD_UPDATE (R311). -/
  | teCmdUpdate (o : Who) (n : Nat) (p : Nat) (table : Nat)
  /-- TE_CMD_REMOVE (R311). -/
  | teCmdRemove (o : Who) (n : Nat) (p : Nat) (table : Nat)
  /-- TE_CMD_DONE (R311). -/
  | teCmdDone (n : Nat) (p : Nat)
  /-- MIRROR_RESYNC (R317). -/
  | mirrorResync (n : Nat)
  /-- LEARN_FORWARD (R313). -/
  | learnForward (n : Nat)
  /-- DIR_SEARCH (R329). -/
  | dirSearch
  /-- SCRUB_VISIT (R333). -/
  | scrubVisit (ecc : EccOutcome) (upset : Bool)
  /-- DRAM_COMMAND_GRANT (R350). -/
  | dramCommandGrant (n : Nat) (errs : List (List Nat))
  /-- REFRESH (R352). -/
  | refresh (n : Nat) (r : Nat)
  /-- ZQCS (R353). -/
  | zqcs (n : Nat) (r : Nat)
  /-- PATROL_SCRUB (R348). -/
  | patrolScrub (n : Nat) (errs : List Nat)
  /-- DIMM_SENSOR_READ (R354). -/
  | dimmSensorRead (n : Nat) (slot : Nat) (reading : Option Int)
  /-- DDR_RUNG_DESCEND (R355). -/
  | ddrRungDescend (n : Nat)
  /-- WATCHDOG_BITE (R361). -/
  | watchdogBite (k : Nat) (idx : Nat) (req : Nat)
  /-- CHANNEL_TAIL_TIMEOUT (R378). -/
  | channelTailTimeout (n : Nat)
  /-- LOCK_ORPHAN (R382). -/
  | lockOrphan (l : Nat)
  /-- BAR4_WRITE (R392). -/
  | bar4Write (pasid : Option Nat) (x : Nat) (bytes : List Byte) (poisoned : Bool)
  /-- BAR4_ATOMICOP (R392). -/
  | bar4Atomicop (pasid : Option Nat) (x : Nat) (op : AtomicKind) (size : Nat) (a : Nat) (b : Nat)
  /-- BAR2_REQUEST (R419). -/
  | bar2Request (pasid : Option Nat) (off : Nat) (en : Nat) (wr : Option Word)
  /-- LOAD_GO (R394). -/
  | loadGo (o : Who) (en : Nat) (v : Word)
  /-- IMAGE_VERIFY_DONE (R505). -/
  | imageVerifyDone
  /-- QUEUE_ENABLE (R398). -/
  | queueEnable (o : Who) (q : Nat)
  /-- QUEUE_DISABLE (R398). -/
  | queueDisable (o : Who) (q : Nat)
  /-- QUEUE_ERR (R404). -/
  | queueErr (q : Nat) (code : Nat)
  /-- NOP (R413). -/
  | nop (c : Cmd) (other : Option Nat)
  /-- IDENTIFY (R416). -/
  | identify (c : Cmd)
  /-- ECHO (R413). -/
  | echo (c : Cmd)
  /-- MODE_SET (R509). -/
  | modeSet (c : Cmd)
  /-- MODE_SET_COMPLETE (R512). -/
  | modeSetComplete
  /-- MODE_GET (R413). -/
  | modeGet (c : Cmd)
  /-- COMMIT (R413). -/
  | commit (c : Cmd)
  /-- FW_STAGE (R470). -/
  | fwStage (c : Cmd) (dma : List Byte)
  /-- FW_STAGE_COMPLETE (R505). -/
  | fwStageComplete
  /-- FW_SWITCH (R470). -/
  | fwSwitch (c : Cmd)
  /-- FW_SWITCH_COMPLETE (R470). -/
  | fwSwitchComplete
  /-- FW_SWITCH_FALLBACK (R470). -/
  | fwSwitchFallback
  /-- FW_INFO (R506). -/
  | fwInfo (c : Cmd)
  /-- BOARD_PROFILE_LOAD (R508). -/
  | boardProfileLoad (c : Cmd) (dma : List Byte)
  /-- DRAM_INIT (R345). -/
  | dramInit (c : Cmd)
  /-- DRAM_INIT_COMPLETE (R345). -/
  | dramInitComplete (laneFail : List Nat)
  /-- DRAM_STATUS (R413). -/
  | dramStatus (c : Cmd)
  /-- TERM_LOAD (R466). -/
  | termLoad (c : Cmd) (dma : List Byte)
  /-- TERM_LOAD_COMPLETE (R466). -/
  | termLoadComplete (slot : Nat)
  /-- TERM_ACTIVATE (R467). -/
  | termActivate (c : Cmd)
  /-- TERM_RETIRE (R469). -/
  | termRetire (c : Cmd)
  /-- TERM_RETIRE_COMPLETE (R469). -/
  | termRetireComplete (slot : Nat)
  /-- TERM_STATUS (R417). -/
  | termStatus (c : Cmd)
  /-- CLASS_CREATE (R421). -/
  | classCreate (c : Cmd)
  /-- CLASS_CREATE_COMPLETE (R429). -/
  | classCreateComplete (c : Nat)
  /-- CLASS_DESTROY (R432). -/
  | classDestroy (c : Cmd)
  /-- CLASS_DESTROY_COMPLETE (R432). -/
  | classDestroyComplete (c : Nat)
  /-- CLASS_RESET (R431). -/
  | classReset (c : Cmd)
  /-- CLASS_RESET_POINT (R431). -/
  | classResetPoint (c : Nat)
  /-- CLASS_RESET_COMPLETE (R431). -/
  | classResetComplete (c : Nat)
  /-- CLASS_SHARE (R154). -/
  | classShare (c : Cmd)
  /-- CLASS_MIGRATE_LOG (R435). -/
  | classMigrateLog (c : Cmd)
  /-- CLASS_STATUS (R437). -/
  | classStatus (c : Cmd)
  /-- TABLE_CREATE (R295). -/
  | tableCreate (c : Cmd)
  /-- TABLE_DELETE (R319). -/
  | tableDelete (c : Cmd)
  /-- TABLE_DELETE_COMPLETE (R319). -/
  | tableDeleteComplete (t : Nat)
  /-- TABLE_INSERT (R311). -/
  | tableInsert (c : Cmd)
  /-- TABLE_UPDATE (R311). -/
  | tableUpdate (c : Cmd)
  /-- TABLE_REMOVE (R311). -/
  | tableRemove (c : Cmd)
  /-- TABLE_READ (R311). -/
  | tableRead (c : Cmd)
  /-- TABLE_BULK_LOAD (R414). -/
  | tableBulkLoad (c : Cmd)
  /-- TABLE_LEARN_CFG (R414). -/
  | tableLearnCfg (c : Cmd)
  /-- DIR_WRITE (R330). -/
  | dirWrite (c : Cmd)
  /-- DIR_INVALIDATE (R330). -/
  | dirInvalidate (c : Cmd)
  /-- DIR_READ (R332). -/
  | dirRead (c : Cmd)
  /-- DIR_PROFILE (R332). -/
  | dirProfile (c : Cmd)
  /-- PORT_CFG (R413). -/
  | portCfg (c : Cmd)
  /-- PORT_STATUS (R413). -/
  | portStatus (c : Cmd)
  /-- STREAM_OPEN (R58). -/
  | streamOpen (c : Cmd)
  /-- STREAM_CLOSE (R63). -/
  | streamClose (c : Cmd)
  /-- RING_JOIN (R456). -/
  | ringJoin (c : Cmd)
  /-- RING_JOIN_COMPLETE (R456). -/
  | ringJoinComplete
  /-- RING_LEAVE (R457). -/
  | ringLeave (c : Cmd)
  /-- RING_LEAVE_COMPLETE (R457). -/
  | ringLeaveComplete
  /-- RING_STATUS (R459). -/
  | ringStatus (c : Cmd)
  /-- FENCE (R415). -/
  | fence (c : Cmd)
  /-- FENCE_COMPLETE (R493). -/
  | fenceComplete (kind : Nat) (idx : Nat)
  /-- UNFENCE (R496). -/
  | unfence (c : Cmd)
  /-- UNFENCE_COMPLETE (R496). -/
  | unfenceComplete (kind : Nat) (idx : Nat)
  /-- FAULT_ACK (R489). -/
  | faultAck (c : Cmd)
  /-- FAULT_INJECT (R499). -/
  | faultInject (c : Cmd)
  /-- GB_READ (R413). -/
  | gbRead (c : Cmd)
  /-- GB_SEAL (R480). -/
  | gbSeal (c : Cmd)
  /-- COUNTERS_READ (R413). -/
  | countersRead (c : Cmd)
  /-- TIME_SET (R519). -/
  | timeSet (c : Cmd)
  /-- POWER_RUNG (R513). -/
  | powerRung (c : Cmd)
  /-- DIAG_RUN (R520). -/
  | diagRun (c : Cmd)
  /-- DIAG_RUN_COMPLETE (R520). -/
  | diagRunComplete (result : Nat)
  /-- RING_FRAME_RECEIVE (R441). -/
  | ringFrameReceive (l : Nat) (bytes : List Byte) (pcsErr : Bool)
  /-- RING_FRAME_TRANSMIT (R444). -/
  | ringFrameTransmit (l : Nat)
  /-- HEARTBEAT_RECEIVE (R454). -/
  | heartbeatReceive (l : Nat)
  /-- REMOTE_TOKEN_RECEIVE (R449). -/
  | remoteTokenReceive (l : Nat)
  /-- MIRROR_RECORD_RECEIVE (R452). -/
  | mirrorRecordReceive (l : Nat)
  /-- TERM_RECORD_RECEIVE (R455). -/
  | termRecordReceive (l : Nat)
  /-- RACC_REQ_RECEIVE (R458). -/
  | raccReqReceive (l : Nat)
  /-- RACC_RSP_RECEIVE (R458). -/
  | raccRspReceive (l : Nat)
  /-- REMOTE_WINDOW_ACCESS (R458). -/
  | remoteWindowAccess (t : Nat) (rd : Nat) (dev : Nat) (off : Nat) (size : Nat) (wr : Option Nat)
  /-- RACC_TIMEOUT (R458). -/
  | raccTimeout (t : Nat)
  /-- HEARTBEAT_SEND (R454). -/
  | heartbeatSend (l : Nat)
  /-- LINK_BROKEN (R454). -/
  | linkBroken (l : Nat)
  /-- RING_RETX_TIMEOUT (R442). -/
  | ringRetxTimeout (l : Nat)
  /-- MIRROR_LOG_APPLY (R453). -/
  | mirrorLogApply
  /-- GB_RECORD_HASH (R472). -/
  | gbRecordHash
  /-- FAULT_REPORT (R483). -/
  | faultReport (own : Option OwnFault)
  /-- FAULT_AUTO_ACK (R488). -/
  | faultAutoAck (n : Nat)
  /-- FC_ACK_WRITE (R489). -/
  | fcAckWrite (o : Who) (en : Nat) (v : Word)
  /-- LOCKSTEP_MISMATCH (R497). -/
  | lockstepMismatch
  /-- TENIK_HANG (R498). -/
  | tenikHang
  /-- SR_ALIVE (R498). -/
  | srAlive (o : Who) (en : Nat) (v : Word)
  /-- RESTART_FAIL (R498). -/
  | restartFail
  /-- PERST_ASSERT (R500). -/
  | perstAssert
  /-- PERST_DEASSERT (R502). -/
  | perstDeassert (pcieW : Nat) (smbA : Nat) (tap : Bool) (test : Bool) (fuseOk : Bool)
  /-- STREET_RUNG_DESCEND (R513). -/
  | streetRungDescend (s : Nat)
  /-- STREET_RUNG_EXIT (R514). -/
  | streetRungExit (s : Nat)
  /-- THERM_WARN (R516). -/
  | thermWarn (reading : Int) (sensor : Nat)
  /-- THERM_TRIP (R516). -/
  | thermTrip (reading : Int) (sensor : Nat)
  /-- SUPPLY (R516). -/
  | supply (level : SupplyLevel)
  /-- ROOT_PLL_LOCK_LOSS (R517). -/
  | rootPllLockLoss
  /-- PCIE_LINK_CHANGE (R389). -/
  | pcieLinkChange (speed : Nat) (width : Nat)
  /-- TIMEBASE_TICK (R518). -/
  | timebaseTick
  /-- TB_SET (R519). -/
  | tbSet (o : Who) (en : Nat) (v : Word)
  /-- TB_STEP (R519). -/
  | tbStep (o : Who) (en : Nat) (v : Word)
  /-- TAP_RESET (R540). -/
  | tapReset
  /-- EXTEST (R541). -/
  | extest (ones : List Pin)
  /-- IDCODE (R541). -/
  | idcode
  /-- SAMPLE_PRELOAD (R541). -/
  | samplePreload (ones : List Pin)
  /-- HIGHZ (R541). -/
  | highz
  /-- CLAMP (R541). -/
  | clamp
  /-- REGACC (R542). -/
  | regacc (off : Nat) (write : Bool) (half : Bool) (rsv : Nat) (data : Word)
  /-- BYPASS (R541). -/
  | bypass (code : Nat)
  /-- SB_PART (R544). -/
  | sbPart (x : SbAccess) (other : Option Nat)
  /-- SB_REVISION (R544). -/
  | sbRevision (x : SbAccess)
  /-- SB_MODE (R544). -/
  | sbMode (x : SbAccess)
  /-- SB_ERR_STATUS (R544). -/
  | sbErrStatus (x : SbAccess)
  /-- SB_TEMP (R544). -/
  | sbTemp (x : SbAccess)
  /-- SB_DIMM_TEMP (R544). -/
  | sbDimmTemp (x : SbAccess)
  /-- SB_ALERT_RESPONSE (R545). -/
  | sbAlertResponse
  /-- RING_LINK_CHANGE (R446). -/
  | ringLinkChange (l : Nat) (up : Bool)
  /-- DDR_RUNG_EXIT (R355). -/
  | ddrRungExit (n : Nat)
  /-- STATE_COPY_END (R386). -/
  | stateCopyEnd (t : Nat)
  /-- REGACC_ACCESS_DONE (R542). -/
  | regaccAccessDone
  /-- UNCORRECTABLE_CODEWORD (R38). -/
  | uncorrectableCodeword (p : Nat)
  /-- JUNCTION_READING_FALL (R516). -/
  | junctionReadingFall (reading : Int) (sensor : Nat)
  deriving DecidableEq, Repr

end Sys2Proof
end

