-- ==== Sys2Proof/Decode.lean ====
section
/-! DEFINITION. The command a table word spells, and the command packets of the host.  No row of spec/opcode_table.json gives its
command any bits (a command of this block is a frame, a register access, a command packet, an event), so no word spells one.  A
command packet is read from the 64 bytes of its header and its payload (R400). -/

namespace Sys2Proof

/-- The command that a word spells by the table's bits: none, since no row gives bits. -/
def decodeTableWord (_nbits _w : Nat) : Option Instr := none

/-- The opcode of a command header (R400). -/
def packetOpcode (h : List Byte) : Nat := Machine.leAt h 0 2

/-- The fields of a command that a queue holds: its header of 64 bytes, and the payload behind it (R400). -/
def Cmd.ofPacket (queue : Nat) (h payload : List Byte) : Cmd where
  queue := queue
  flags := Machine.leAt h 2 2
  len := Machine.leAt h 4 4
  tag := Word.ofNat (Machine.leAt h 8 8)
  replyAddr := Machine.leAt h 16 8
  replyMax := Machine.leAt h 24 4
  rsv := Machine.leAt h 28 4
  p0 := Machine.leAt h 32 8
  p1 := Machine.leAt h 40 8
  p2 := Machine.leAt h 48 8
  p3 := Machine.leAt h 56 8
  payload := payload

/-- The header of a command (R400). -/
def Cmd.header (op : Nat) (c : Cmd) : List Byte :=
  Machine.leBytes 2 op ++ Machine.leBytes 2 c.flags ++ Machine.leBytes 4 c.len ++ Machine.leBytes 8 c.tag.toNat ++
    Machine.leBytes 8 c.replyAddr ++ Machine.leBytes 4 c.replyMax ++ Machine.leBytes 4 c.rsv ++
    Machine.leBytes 8 c.p0 ++ Machine.leBytes 8 c.p1 ++ Machine.leBytes 8 c.p2 ++ Machine.leBytes 8 c.p3

/-- The opcode and the fields of a command that a queue carries (R413); `none` for every other command of the device. -/
def Instr.packet : Instr → Option (Nat × Cmd)
  | .nop c other => some (other.getD 0x0000, c)
  | .identify c => some (0x0001, c)
  | .echo c => some (0x0002, c)
  | .modeSet c => some (0x0010, c)
  | .modeGet c => some (0x0011, c)
  | .commit c => some (0x0012, c)
  | .fwStage c _ => some (0x0020, c)
  | .fwSwitch c => some (0x0021, c)
  | .fwInfo c => some (0x0022, c)
  | .boardProfileLoad c _ => some (0x0030, c)
  | .dramInit c => some (0x0031, c)
  | .dramStatus c => some (0x0032, c)
  | .termLoad c _ => some (0x0040, c)
  | .termActivate c => some (0x0041, c)
  | .termRetire c => some (0x0042, c)
  | .termStatus c => some (0x0043, c)
  | .classCreate c => some (0x0050, c)
  | .classDestroy c => some (0x0051, c)
  | .classReset c => some (0x0052, c)
  | .classShare c => some (0x0053, c)
  | .classMigrateLog c => some (0x0054, c)
  | .classStatus c => some (0x0055, c)
  | .tableCreate c => some (0x0060, c)
  | .tableDelete c => some (0x0061, c)
  | .tableInsert c => some (0x0062, c)
  | .tableUpdate c => some (0x0063, c)
  | .tableRemove c => some (0x0064, c)
  | .tableRead c => some (0x0065, c)
  | .tableBulkLoad c => some (0x0066, c)
  | .tableLearnCfg c => some (0x0067, c)
  | .dirWrite c => some (0x0070, c)
  | .dirInvalidate c => some (0x0071, c)
  | .dirRead c => some (0x0072, c)
  | .dirProfile c => some (0x0073, c)
  | .portCfg c => some (0x0080, c)
  | .portStatus c => some (0x0081, c)
  | .streamOpen c => some (0x0082, c)
  | .streamClose c => some (0x0083, c)
  | .ringJoin c => some (0x0090, c)
  | .ringLeave c => some (0x0091, c)
  | .ringStatus c => some (0x0092, c)
  | .fence c => some (0x00A0, c)
  | .unfence c => some (0x00A1, c)
  | .faultAck c => some (0x00A2, c)
  | .faultInject c => some (0x00A3, c)
  | .gbRead c => some (0x00B0, c)
  | .gbSeal c => some (0x00B1, c)
  | .countersRead c => some (0x00C0, c)
  | .timeSet c => some (0x00C1, c)
  | .powerRung c => some (0x00D0, c)
  | .diagRun c => some (0x00F0, c)
  | _ => none

/-- Whether a packet in a queue spells a command of the device (R400, R413).  An opcode that no command has is answered with
BAD_OPCODE (R407). -/
def Instr.spelledBy (i : Instr) (queue : Nat) (h payload : List Byte) : Bool :=
  i.packet == some (packetOpcode h, Cmd.ofPacket queue h payload)

end Sys2Proof
end

