-- ==== Sys2Proof/Machine/Crypto.lean ====
section
/-! DEFINITION. The functions the spec names by their standards: CRC-32C (R283) and the Ethernet FCS, AES with CMAC and
GCM, SHA-256 and HMAC-SHA-256 (R280), SHA-384 and ECDSA P-384 (R480, R505). -/

namespace Sys2Proof.Machine

/-! Cyclic redundancy checks, in reflected form. -/

/-- One bit of a reflected CRC register. -/
def crcBit (poly c : Nat) : Nat := if c % 2 = 1 then (c / 2) ^^^ poly else c / 2

/-- One byte of a reflected CRC register. -/
def crcByte (poly c : Nat) (b : Byte) : Nat :=
  (List.range 8).foldl (fun r _ => crcBit poly r) (c ^^^ b.toNat)

/-- The register after some bytes. -/
def crcReg (poly seed : Nat) (bs : List Byte) : Nat := bs.foldl (crcByte poly) seed

/-- The Castagnoli polynomial 0x1EDC_6F41, reflected (R283). -/
def polyC : Nat := 0x82F63B78

/-- CRC-32C with a seed, the final XOR applied (R283). -/
def crc32cSeed (seed : Nat) (bs : List Byte) : Nat := crcReg polyC seed bs ^^^ 0xFFFFFFFF

/-- The standard CRC-32C (R283). -/
def crc32c (bs : List Byte) : Nat := crc32cSeed 0xFFFFFFFF bs

/-- The Ethernet frame check sequence of some bytes, as the four bytes sent behind them. -/
def fcsOf (bs : List Byte) : List Byte := leBytes 4 (crcReg 0xEDB88320 0xFFFFFFFF bs ^^^ 0xFFFFFFFF)

/-- A fold (R284, R475): up to 8 bytes most significant first; longer strings by two CRC-32Cs. -/
def keyFold (bs : List Byte) : Nat :=
  if bs.length ≤ 8 then ofBeBytes bs else crc32cSeed 0xFFFFFFFF bs * 2 ^ 32 + crc32cSeed 0 bs

/-! SHA-256 and SHA-384 (FIPS 180-4).  Both are one function of a word width: 32 bits in 64 steps, or 64 bits in 80. -/

/-- The constants of the 80 steps of SHA-384, side by side, the first one highest; SHA-256 uses the upper halves of 64. -/
def shaConstants : Nat :=
  0x428a2f98d728ae227137449123ef65cdb5c0fbcfec4d3b2fe9b5dba58189dbbc * 2 ^ 4864 +
  0x3956c25bf348b53859f111f1b605d019923f82a4af194f9bab1c5ed5da6d8118 * 2 ^ 4608 +
  0xd807aa98a303024212835b0145706fbe243185be4ee4b28c550c7dc3d5ffb4e2 * 2 ^ 4352 +
  0x72be5d74f27b896f80deb1fe3b1696b19bdc06a725c71235c19bf174cf692694 * 2 ^ 4096 +
  0xe49b69c19ef14ad2efbe4786384f25e30fc19dc68b8cd5b5240ca1cc77ac9c65 * 2 ^ 3840 +
  0x2de92c6f592b02754a7484aa6ea6e4835cb0a9dcbd41fbd476f988da831153b5 * 2 ^ 3584 +
  0x983e5152ee66dfaba831c66d2db43210b00327c898fb213fbf597fc7beef0ee4 * 2 ^ 3328 +
  0xc6e00bf33da88fc2d5a79147930aa72506ca6351e003826f142929670a0e6e70 * 2 ^ 3072 +
  0x27b70a8546d22ffc2e1b21385c26c9264d2c6dfc5ac42aed53380d139d95b3df * 2 ^ 2816 +
  0x650a73548baf63de766a0abb3c77b2a881c2c92e47edaee692722c851482353b * 2 ^ 2560 +
  0xa2bfe8a14cf10364a81a664bbc423001c24b8b70d0f89791c76c51a30654be30 * 2 ^ 2304 +
  0xd192e819d6ef5218d69906245565a910f40e35855771202a106aa07032bbd1b8 * 2 ^ 2048 +
  0x19a4c116b8d2d0c81e376c085141ab532748774cdf8eeb9934b0bcb5e19b48a8 * 2 ^ 1792 +
  0x391c0cb3c5c95a634ed8aa4ae3418acb5b9cca4f7763e373682e6ff3d6b2b8a3 * 2 ^ 1536 +
  0x748f82ee5defb2fc78a5636f43172f6084c87814a1f0ab728cc702081a6439ec * 2 ^ 1280 +
  0x90befffa23631e28a4506cebde82bde9bef9a3f7b2c67915c67178f2e372532b * 2 ^ 1024 +
  0xca273eceea26619cd186b8c721c0c207eada7dd6cde0eb1ef57d4f7fee6ed178 * 2 ^ 768 +
  0x06f067aa72176fba0a637dc5a2c898a6113f9804bef90dae1b710b35131c471b * 2 ^ 512 +
  0x28db77f523047d8432caab7b40c724933c9ebe0a15c9bebc431d67c49c100d4c * 2 ^ 256 +
  0x4cc5d4becb3e42b6597f299cfc657e2a5fcb6fab3ad6faec6c44198c4a475817 * 2 ^ 0

/-- A hash of the family: its word width in bits, the shifts of its four mixing functions (the third one of the schedule's two
drops bits), and its start, eight words side by side. -/
structure Sha where
  width : Nat
  steps : Nat
  early : List Nat
  late : List Nat
  top : List Nat
  low : List Nat
  start : Nat

/-- SHA-256. -/
def sha2w32 : Sha where
  width := 32
  steps := 64
  early := [7, 18, 3]
  late := [17, 19, 10]
  top := [2, 13, 22]
  low := [6, 11, 25]
  start := 0x6a09e667bb67ae853c6ef372a54ff53a510e527f9b05688c1f83d9ab5be0cd19

/-- SHA-384. -/
def sha2w64 : Sha where
  width := 64
  steps := 80
  early := [1, 8, 7]
  late := [19, 61, 6]
  top := [28, 34, 39]
  low := [14, 18, 41]
  start := 0xcbbb9d5dc1059ed8629a292a367cd5079159015a3070dd17152fecd8f70e593967332667ffc00b318eb44a8768581511db0c2e0d64f98fa747b5481dbefa4fa4

/-- `f n`; its evaluation computes `n` first. -/
def forced {α : Type} (n : Nat) (f : Nat → α) : α := match n with
  | 0 => f 0
  | k + 1 => f (k + 1)

theorem forced_eq {α : Type} (n : Nat) (f : Nat → α) : forced n f = f n := by cases n <;> rfl

/-- The constant of step `i`. -/
def Sha.constant (v : Sha) (i : Nat) : Nat := shaConstants / 2 ^ (64 * (80 - i) - v.width) % 2 ^ v.width

/-- Term `k` of a sequence of words kept side by side in one number, the newest, term 1, lowest. -/
def Sha.term (v : Sha) (x k : Nat) : Nat := x / 2 ^ (v.width * (k - 1)) % 2 ^ v.width

/-- A sequence of `n` words with a new one, the oldest gone. -/
def Sha.push (v : Sha) (n x w : Nat) : Nat := (x * 2 ^ v.width + w % 2 ^ v.width) % 2 ^ (v.width * n)

/-- A word turned right by some places. -/
def Sha.turn (v : Sha) (x n : Nat) : Nat := x / 2 ^ n + x % 2 ^ n * 2 ^ (v.width - n)

/-- The exclusive or of a word turned by each of some numbers of places. -/
def Sha.mix (v : Sha) (ns : List Nat) (x : Nat) : Nat := ns.foldl (fun y n => y ^^^ v.turn x n) 0

/-- The schedule's mixing: the third number of places is a shift that drops bits. -/
def Sha.smear (v : Sha) (ns : List Nat) (x : Nat) : Nat := v.mix (ns.take 2) x ^^^ x / 2 ^ ns.getD 2 0

/-- The last `n` steps of a block. The window holds sixteen words of the schedule, each of which depends on four of the sixteen
before it; a step uses the oldest. The eight working words are four terms each of two sequences, the upper one `A` and the
lower one `E`. -/
def Sha.run (v : Sha) : Nat → Nat → Nat → Nat → Nat × Nat
  | 0, _, upper, lower => (upper, lower)
  | n + 1, window, upper, lower =>
    let back := v.term window
    let a := v.term upper
    let e := v.term lower
    let choice := e 3 ^^^ (e 1 &&& (e 2 ^^^ e 3))
    let majority := (a 1 &&& a 2) ||| (a 3 &&& (a 1 ||| a 2))
    forced (e 4 + v.mix v.low (e 1) + choice + back 16 + v.constant (v.steps - (n + 1))) fun carry =>
    forced (v.push 4 upper (carry + v.mix v.top (a 1) + majority)) fun upper' =>
    forced (v.push 4 lower (a 4 + carry)) fun lower' =>
    forced (v.push 16 window (v.smear v.late (back 2) + back 7 + v.smear v.early (back 15) + back 16)) fun window' =>
    v.run n window' upper' lower'

/-- Four words added to four, each for itself. -/
def Sha.plus (v : Sha) (x y : Nat) : Nat := [4, 3, 2, 1].foldl (fun z k => v.push 4 z (v.term x k + v.term y k)) 0

/-- The state after `n` more blocks: a block's steps, added word by word to the state before them. -/
def Sha.absorb (v : Sha) : Nat → List Byte → Nat → Nat → Nat × Nat
  | 0, _, upper, lower => (upper, lower)
  | n + 1, bytes, upper, lower =>
    let out := v.run v.steps (ofBeBytes (bytes.take (2 * v.width))) upper lower
    forced (v.plus upper out.1) fun upper' => forced (v.plus lower out.2) fun lower' =>
    v.absorb n (bytes.drop (2 * v.width)) upper' lower'

/-- A message padded to whole blocks, its length in bits at the end. -/
def Sha.padded (v : Sha) (msg : List Byte) : List Byte :=
  let block := 2 * v.width
  let size := v.width / 4
  msg ++ 0x80 :: zeros ((2 * block - 1 - size - msg.length % block) % block) ++ beBytes size (8 * msg.length)

/-- The eight words behind the last block of a message. -/
def Sha.hash (v : Sha) (msg : List Byte) : List Nat :=
  let all := v.padded msg
  let half := fun (k : Nat) => [k + 1, k + 2, k + 3, k + 4].foldl (fun z j => v.push 4 z (v.term v.start j)) 0
  let (upper, lower) := v.absorb (all.length / (2 * v.width)) all (half 4) (half 0)
  ([upper, lower].flatMap fun x => [1, 2, 3, 4].map (v.term x))

/-- SHA-256 (FIPS 180-4). -/
def sha256 (msg : List Byte) : List Byte := (sha2w32.hash msg).flatMap (beBytes 4)

/-- SHA-384 (FIPS 180-4). -/
def sha384 (msg : List Byte) : List Byte := ((sha2w64.hash msg).take 6).flatMap (beBytes 8)

/-- HMAC-SHA-256 (RFC 2104) for a key of at most 64 bytes. -/
def hmac256 (key msg : List Byte) : List Byte :=
  let k := padTo 64 key
  sha256 (k.map (· ^^^ 0x5C) ++ sha256 (k.map (· ^^^ 0x36) ++ msg))

/-! AES (FIPS 197), encryption only: CMAC and GCM need no more. -/

/-- Multiplication by x in the AES field. -/
def xtime (a : Nat) : Nat := if a < 128 then 2 * a else (2 * a % 256) ^^^ 0x1B

/-- Multiplication in the AES field, over the low `n` bits of the second factor. -/
def gfMulBits : Nat → Nat → Nat → Nat
  | 0, _, _ => 0
  | n + 1, a, b => (if b % 2 = 1 then a else 0) ^^^ gfMulBits n (xtime a) (b / 2)

/-- Multiplication in the AES field. -/
def gfMul (a b : Nat) : Nat := gfMulBits 8 a b

/-- The inverse in the AES field, 0 for 0: the 254th power. -/
def gfInv (a : Nat) : Nat :=
  let a2 := gfMul a a
  let a4 := gfMul a2 a2
  let a8 := gfMul a4 a4
  let a16 := gfMul a8 a8
  let a32 := gfMul a16 a16
  let a64 := gfMul a32 a32
  let a128 := gfMul a64 a64
  gfMul a128 (gfMul a64 (gfMul a32 (gfMul a16 (gfMul a8 (gfMul a4 a2)))))

/-- Rotate a byte left. -/
def rotl8 (n x : Nat) : Nat := (x <<< n ||| x >>> (8 - n)) % 256

/-- The S-box. -/
def aesSub (x : Byte) : Byte :=
  let i := gfInv x.toNat
  BitVec.ofNat 8 (i ^^^ rotl8 1 i ^^^ rotl8 2 i ^^^ rotl8 3 i ^^^ rotl8 4 i ^^^ 0x63)

/-- Exclusive or of two byte strings. -/
def xorBytes (a b : List Byte) : List Byte := List.zipWith (· ^^^ ·) a b

/-- The next words of the key schedule (newest four-byte word first): `n` more, `i` the number of the next one, `nk` the
key's words, `rc` the next round constant. -/
def aesExpand (nk : Nat) : Nat → Nat → Nat → List (List Byte) → List (List Byte)
  | 0, _, _, ws => ws
  | n + 1, i, rc, ws =>
    let t := ws.headD []
    let back := ws.getD (nk - 1) []
    if i % nk = 0 then
      let r := (t.drop 1 ++ t.take 1).map aesSub
      aesExpand nk n (i + 1) (xtime rc) (xorBytes back (xorBytes r [BitVec.ofNat 8 rc, 0, 0, 0]) :: ws)
    else if nk > 6 ∧ i % nk = 4 then
      aesExpand nk n (i + 1) rc (xorBytes back (t.map aesSub) :: ws)
    else aesExpand nk n (i + 1) rc (xorBytes back t :: ws)

/-- `n` pieces of `k` bytes. -/
def piecesOf (k : Nat) : Nat → List Byte → List (List Byte)
  | 0, _ => []
  | n + 1, bs => bs.take k :: piecesOf k n (bs.drop k)

/-- The round keys of a key of 16, 24 or 32 bytes, 16 bytes each. -/
def aesKeys (key : List Byte) : List (List Byte) :=
  let nk := key.length / 4
  let total := 4 * (nk + 7)
  let ws := (aesExpand nk (total - nk) nk 1 (piecesOf 4 nk key).reverse).reverse
  piecesOf 16 (nk + 7) ws.flatten

/-- SubBytes and ShiftRows of a state held column by column. -/
def aesSubShift (st : List Byte) : List Byte :=
  [0, 5, 10, 15, 4, 9, 14, 3, 8, 13, 2, 7, 12, 1, 6, 11].map fun i => aesSub (st.getD i 0)

/-- MixColumns of one column. -/
def aesMixCol (c : List Byte) : List Byte :=
  let a (i : Nat) : Nat := (c.getD (i % 4) 0).toNat
  (List.range 4).map fun i => BitVec.ofNat 8 (gfMul 2 (a i) ^^^ gfMul 3 (a (i + 1)) ^^^ a (i + 2) ^^^ a (i + 3))

/-- The rounds behind the first key addition. -/
def aesRounds : List (List Byte) → List Byte → List Byte
  | [], st => st
  | [k], st => xorBytes (aesSubShift st) k
  | k :: ks, st => aesRounds ks (xorBytes ((piecesOf 4 4 (aesSubShift st)).flatMap aesMixCol) k)

/-- AES encryption of one 16-byte block under expanded keys. -/
def aesBlock (keys : List (List Byte)) (block : List Byte) : List Byte :=
  match keys with
  | [] => block
  | k :: ks => aesRounds ks (xorBytes block k)

/-- Doubling in the field of CMAC (NIST SP 800-38B). -/
def cmacDouble (b : List Byte) : List Byte :=
  let v := ofBeBytes b
  beBytes 16 (if v < 2 ^ 127 then 2 * v else (2 * v % 2 ^ 128) ^^^ 0x87)

/-- The chaining of CMAC over whole blocks. -/
def cmacChain (keys : List (List Byte)) : List (List Byte) → List Byte → List Byte
  | [], x => x
  | m :: ms, x => cmacChain keys ms (aesBlock keys (xorBytes x m))

/-- AES-CMAC (NIST SP 800-38B), 16 bytes. -/
def aesCmac (key msg : List Byte) : List Byte :=
  let keys := aesKeys key
  let k1 := cmacDouble (aesBlock keys (zeros 16))
  let n := max 1 (ceilDiv msg.length 16)
  let blocks := piecesOf 16 n msg
  let lst := blocks.getLastD []
  let last := if lst.length = 16 then xorBytes lst k1 else xorBytes (padTo 16 (lst ++ [0x80])) (cmacDouble k1)
  cmacChain keys (blocks.dropLast ++ [last]) (zeros 16)

/-- Multiplication in the field of GHASH over the top `n` bits of `x` still to come (NIST SP 800-38D). -/
def ghashMulBits : Nat → Nat → Nat → Nat
  | 0, _, _ => 0
  | n + 1, x, v =>
    (if bitOf x n then v else 0) ^^^ ghashMulBits n x (if v % 2 = 1 then (v / 2) ^^^ (0xE1 <<< 120) else v / 2)

/-- GHASH of whole blocks. -/
def ghash (h : Nat) (blocks : List (List Byte)) : Nat :=
  blocks.foldl (fun y b => ghashMulBits 128 (y ^^^ ofBeBytes b) h) 0

/-- The 16-byte blocks of a string, the last padded with zeros. -/
def blocks16 (bs : List Byte) : List (List Byte) :=
  (piecesOf 16 (ceilDiv bs.length 16) bs).map (padTo 16)

/-- The counter-mode keystream of `n` blocks from a counter value. -/
def gcmStream (keys : List (List Byte)) (iv : List Byte) : Nat → Nat → List Byte
  | 0, _ => []
  | n + 1, c => aesBlock keys (iv ++ beBytes 4 c) ++ gcmStream keys iv n (c + 1)

/-- Encryption and decryption of AES-GCM with a 96-bit IV (NIST SP 800-38D). -/
def gcmCrypt (key iv text : List Byte) : List Byte :=
  xorBytes text (gcmStream (aesKeys key) iv (ceilDiv text.length 16) 2)

/-- The 16-byte tag of AES-GCM over additional data and ciphertext. -/
def gcmTag (key iv aad ct : List Byte) : List Byte :=
  let keys := aesKeys key
  let h := ofBeBytes (aesBlock keys (zeros 16))
  let g := ghash h (blocks16 aad ++ blocks16 ct ++ [beBytes 8 (8 * aad.length) ++ beBytes 8 (8 * ct.length)])
  xorBytes (aesBlock keys (iv ++ beBytes 4 1)) (beBytes 16 g)

/-! ECDSA over P-384: verification (R505) and signing (R480). -/

/-- The field prime of P-384. -/
def p384P : Nat := 2 ^ 384 - 2 ^ 128 - 2 ^ 96 + 2 ^ 32 - 1

/-- The order of P-384. -/
def p384N : Nat :=
  0xffffffffffffffffffffffffffffffffffffffffffffffffc7634d81f4372ddf581a0db248b0a77aecec196accc52973

/-- The constant term of P-384. -/
def p384B : Nat :=
  0xb3312fa7e23ee7e4988e056be3f82d19181d9c6efe8141120314088f5013875ac656398d8a2ed19d2a85c8edd3ec2aef

/-- The base point of P-384. -/
def p384G : Nat × Nat :=
  (0xaa87ca22be8b05378eb1c71ef320ad746e1d3b628ba79b9859f741e082542a385502f25dbf55296c3a545e3872760ab7,
   0x3617de4a96262c6f5d9e98bf9292dc29f8f41dbd289a147ce9da3113b5f0b8c00a60b1ce1d7e819d7a431d7c90ea0e5f)

/-- Modular power over the low `n` bits of the exponent. -/
def powModBits (m : Nat) : Nat → Nat → Nat → Nat
  | 0, _, _ => 1
  | n + 1, b, e => forced (b * b % m) fun sq => (if e % 2 = 1 then b else 1) * powModBits m n sq (e / 2) % m

/-- The inverse modulo a prime of 384 bits. -/
def invMod (m a : Nat) : Nat := powModBits m 384 (a % m) (m - 2)

/-- A point of P-384 in Jacobian coordinates: of the point (x, y) they are (x·z², y·z³, z) for any z but 0; with z = 0 it is the
point at infinity. -/
structure P384 where
  x : Nat
  y : Nat
  z : Nat

/-- The point with coordinates reduced modulo the field prime. -/
def p384Point (x y z : Nat) : P384 :=
  forced (x % p384P) fun x => forced (y % p384P) fun y => forced (z % p384P) fun z => ⟨x, y, z⟩

/-- Twice a point. -/
def P384.twice (p : P384) : P384 :=
  let m := p384P
  forced (p.y * p.y % m) fun g => forced (p.z * p.z % m) fun d => forced (p.x * g % m) fun b =>
  forced (3 * (p.x + m - d) * (p.x + d) % m) fun a => forced ((a * a + 8 * m - 8 * b) % m) fun x =>
  p384Point x (a * (4 * b + m - x) + 8 * m * m - 8 * g * g) (2 * p.y * p.z)

/-- The sum of two points. -/
def P384.plus (p q : P384) : P384 :=
  let m := p384P
  if p.z = 0 then q
  else if q.z = 0 then p
  else
    forced (p.z * p.z % m) fun pz => forced (q.z * q.z % m) fun qz =>
    forced (p.x * qz % m) fun u => forced (p.y * qz * q.z % m) fun v =>
    forced ((q.x * pz + m - u) % m) fun h => forced ((q.y * pz * p.z + m - v) % m) fun r =>
    if h = 0 then if r = 0 then p.twice else ⟨1, 1, 0⟩
    else
      forced (h * h % m) fun hh => forced (h * hh % m) fun hhh => forced (u * hh % m) fun w =>
      forced ((r * r + 3 * m - hhh - 2 * w) % m) fun x =>
      p384Point x (r * (w + m - x) + m * m - v * hhh) (h * p.z * q.z)

/-- A multiple of a point, over the low `n` bits of the factor. -/
def P384.times (p : P384) : Nat → Nat → P384
  | 0, _ => ⟨1, 1, 0⟩
  | n + 1, k => let d := (p.times n (k / 2)).twice
    if k % 2 = 1 then d.plus p else d

/-- Whether an ECDSA P-384 signature (r then s, 48 bytes each) of a 48-byte digest verifies under a key (Qx then Qy). -/
def ecdsaVerify (key digest sig : List Byte) : Bool :=
  let qx := beAt key 0 48
  let qy := beAt key 48 48
  let r := beAt sig 0 48
  let s := beAt sig 48 48
  let onCurve := decide (qx < p384P ∧ qy < p384P ∧
    qy * qy % p384P = (qx * qx * qx + (p384P - 3) * qx + p384B) % p384P)
  if onCurve ∧ 1 ≤ r ∧ r < p384N ∧ 1 ≤ s ∧ s < p384N then
    let w := invMod p384N s
    let e := ofBeBytes digest
    let p := (P384.times ⟨p384G.1, p384G.2, 1⟩ 384 (e * w % p384N)).plus (P384.times ⟨qx, qy, 1⟩ 384 (r * w % p384N))
    p.z != 0 && p.x * invMod p384P (p.z * p.z) % p384P % p384N == r
  else false

/-- `k` times the base point, as (x, y). -/
def p384Base (k : Nat) : Nat × Nat :=
  let p := P384.times ⟨p384G.1, p384G.2, 1⟩ 384 k
  forced (invMod p384P p.z) fun i => (p.x * i * i % p384P, p.y * i * i * i % p384P)

/-- A number as a private key or a nonce: 1 to the order less 1. -/
def p384Scalar (k : Nat) : Nat := k % (p384N - 1) + 1

/-- The public key of a private one, Qx then Qy (R480). -/
def ecdsaPublic (secret : Nat) : List Byte :=
  let q := p384Base (p384Scalar secret)
  beBytes 48 q.1 ++ beBytes 48 q.2

/-- The signature, r then s, of a 48-byte digest with a nonce; `none` where ECDSA asks for another nonce. -/
def ecdsaSign (secret nonce : Nat) (digest : List Byte) : Option (List Byte) :=
  let r := (p384Base (p384Scalar nonce)).1 % p384N
  let s := invMod p384N (p384Scalar nonce) * (ofBeBytes digest + r * p384Scalar secret) % p384N
  if r = 0 ∨ s = 0 then none else some (beBytes 48 r ++ beBytes 48 s)

end Sys2Proof.Machine
end

