-- ==== Sys2Proof/Config.lean ====
section
/-! DEFINITION. What an implementation fixes and the spec leaves open: opaque constants, so that no proof can see a
value of them.  Those that take a number are applied to the draw counter `State.free`. -/

namespace Sys2Proof

/-- Random bits the device draws: the boot nonce (R476) and every other value the spec takes from entropy. -/
opaque Config.random : Nat → Nat

/-- How many frames an egress queue of a port holds (R46, R49: no size is given); an empty queue always has room. -/
opaque Config.egressRoom : Nat

/-- How many egress messages wait at the release of one TX stream (R64, R75: no size is given); the first always may. -/
opaque Config.releaseRoom : Nat

/-- How many requests the remote-access unit holds for a link (R443: no size is given); with none there, there is room. -/
opaque Config.raccRoom : Nat

/-- How many frames a link holds that are being forwarded on it (R443: no size is given); with none there, there is room. -/
opaque Config.forwardRoom : Nat

/-- How many egress messages the Crosswalk's lists hold (R180: no size is given); with none there, there is room. -/
opaque Config.crosswalkRoom : Nat

/-- Which of the free places of the context store a record takes (R108: the spec gives no rule). -/
opaque Config.storePlace : Nat → Nat

/-- The victim an insertion in RANDOM mode evicts (R308). -/
opaque Config.victim : Nat → Nat

/-- The set of an engine's cache that a line falls into, modulo the 2,048 sets of 16 ways (R292: the index is not given). -/
opaque Config.cacheSet : Nat → Nat

/-- Whether a cached line that an engine reads has an uncorrectable error (R292). -/
opaque Config.cacheError : Nat → Bool

/-- A byte of an apply log's record, by the record's sequence number, its completion mark and its offset: "its content is for the
engines alone" (R305). -/
opaque Config.logByte : Nat → Bool → Nat → Byte

/-- Whether the DRAM of a channel does not answer its fence (R356). -/
opaque Config.dramSilent : Nat → Bool

/-- The lanes, of the nine, that fail the check of a channel that UNFENCE initialises again (R345, R357). -/
opaque Config.laneFail : Nat → Nat

/-- The device's own ECDSA P-384 private key, which is fused at manufacture (R480): the spec gives no value. -/
opaque Config.deviceSecret : Nat

/-- The nonces with which the hasher signs a seal (R480): what ECDSA leaves to the signer. -/
opaque Config.signNonce : Nat → List Byte → Nat

/-- The working space Tenik keeps in its DRAM region, in units of 4 KiB (R466: its size is not given). -/
opaque Config.tenikWork : Nat

/-- The state block that Tenik writes to DRAM before it stops for FW_SWITCH (R470: its content and size are not given). -/
opaque Config.stateBlock : Nat → List Byte

/-- Where the Monitor code that Tenik loads begins on core `k` (R225: the spec names no address). -/
opaque Config.monitorEntry : Nat → Nat

/-- The P0 trap vector base that Tenik gives the Monitor of core `k` (R224: the spec names no value). -/
opaque Config.monitorTvec0 : Nat → Word

/-- The control word a payload pool keeps of a buffer, from its count, generation, owner and link: "their layout is for the
pools alone" (R364). -/
opaque Config.poolWord : Nat → Nat → Nat → Nat → Word

/-- Whether an entry of a bank that a fault has fenced cannot be read (R148). -/
opaque Config.entryLost : Nat → Bool

/-- The unique number of this device's fuses (R502). -/
opaque Config.uid : Word

/-- The hash of the vendor key in the fuses (R505). -/
opaque Config.vendorHash : List Byte

/-- The hash of the owner key in the fuses (R505). -/
opaque Config.ownerHash : List Byte

/-- The minimum security version in the fuses (R505). -/
opaque Config.minSvn : Nat

/-- How the bytes of the body of a RACC_REQ or RACC_RSP record are coded (R458 gives no layout): the byte at place `i` of a
record of type `ty` is that of the model's own layout under this mask. -/
opaque Config.raccMask : Nat → Nat → BitVec 8

/-- What more such a body holds behind its content. -/
opaque Config.raccTail : Nat → List (BitVec 8)

end Sys2Proof
end

