-- ==== Sys2Proof/Machine/Map.lean ====
section
/-! DEFINITION. A total function on addresses (or identifiers) held as plain data: a list of the keys whose value
differs from what an unlisted key reads as, keys strictly rising.  Memory is one of these (its key an address, its
value a byte), and so is every array of like things in `State`. -/

namespace Sys2Proof.Machine

/-- A map held as key and value pairs, in one canonical form (`SMap.wf`). -/
abbrev SMap (α : Type) := List (Nat × α)

/-- The value of a key: the listed one, else what `d` says an unlisted key reads as. -/
def SMap.get {α : Type} (d : Nat → α) (m : SMap α) (k : Nat) : α :=
  match m with
  | [] => d k
  | (k', v) :: r => if k' = k then v else SMap.get d r k

/-- Put a key before the first larger one, replacing an entry of the same key. -/
def SMap.insert {α : Type} (m : SMap α) (k : Nat) (v : α) : SMap α :=
  match m with
  | [] => [(k, v)]
  | (k', v') :: r =>
    if k < k' then (k, v) :: (k', v') :: r
    else if k = k' then (k, v) :: r
    else (k', v') :: SMap.insert r k v

/-- Write a key.  Writing the value an unlisted key reads as removes the entry, so equal maps are equal lists. -/
def SMap.put {α : Type} [DecidableEq α] (d : Nat → α) (m : SMap α) (k : Nat) (v : α) : SMap α :=
  if v = d k then m.filter (fun e => e.1 ≠ k) else m.insert k v

/-- The keys are strictly rising. -/
def SMap.sorted {α : Type} : SMap α → Bool
  | [] => true
  | [_] => true
  | (k, _) :: (k', v') :: r => decide (k < k') && SMap.sorted ((k', v') :: r)

/-- The canonical form: keys strictly rising, and no entry equal to what an unlisted key reads as. -/
def SMap.wf {α : Type} [DecidableEq α] (d : Nat → α) (m : SMap α) : Bool :=
  m.sorted && m.all (fun e => decide (e.2 ≠ d e.1))

end Sys2Proof.Machine
end

