-- ==== Sys2Proof/Machine/Parts.lean ====
section
/-! DEFINITION. The pieces `State` is made of, first part: threads and their journals (spec/05, spec/06, spec/07),
activations, contexts, tokens and bank entries (spec/04, spec/05). -/

namespace Sys2Proof.Machine

/-- An address of the 48-bit internal physical map (R14), and a program counter. -/
abbrev Addr := BitVec 48

/-- The condition flags of a thread (R223). -/
structure Flags where
  z : Bool
  s : Bool
  u : Bool
  hb : Bool
  deriving DecidableEq, Repr

/-- The states of a thread (R203). -/
inductive ThState
  | idle | running | waiting | stopped | halted | reset
  deriving DecidableEq, Repr

/-- The state code that CORE_STATUS.STATE_t shows (R203). -/
def ThState.code : ThState → Nat
  | .idle => 0 | .running => 1 | .waiting => 2 | .stopped => 3 | .halted => 4 | .reset => 5

/-- One use of a helper: its class, its function and the three operand pointers (R249, R266). -/
structure HelperReq where
  cls : HelperClass
  fn : Nat
  ra : Word
  rb : Word
  rc : Word
  event : Bool
  /-- HTRY: the instruction is dropped with HB set if no unit is free (R249) -/
  try_ : Bool
  /-- the bank registers its pointers are resolved through (R228) -/
  bk : SMap Word
  /-- the classroom the thread is bound to, with its generation (R291) -/
  room : Option Nat
  clgen : Nat
  /-- the generation of the thread: what has been started over is not resumed -/
  tgen : Nat
  /-- issued by a seat (R263) -/
  seat : Bool
  /-- the instruction word, which UNDEF reports (R256) -/
  word : Nat
  /-- the descriptor and the element table of FX.ISO as the helper has read them, once, when it accepted the instruction (R251,
  R270); `none` before that, or where they could not be read -/
  desc : Option (List Byte × List Byte)
  deriving DecidableEq, Repr

/-- The REP that an instruction is the follower of (R252 to R255): whether it is interruptible, and the follower. -/
structure InRep where
  inter : Bool
  fol : Follower
  deriving DecidableEq, Repr

/-- What a WAITING thread (or one blocked in GETWORK) waits for. -/
inductive Wait
  | none
  /-- WAITEV or WAITEV.C with its destination, mask and clear option (R240). -/
  | event (rd : Nat) (mask : BitVec 32) (clear : Bool)
  /-- An outstanding load of `size` bytes at an address (R196, R458). -/
  | load (rd : Nat) (addr : Addr) (size : Nat)
  /-- A CPX whose source load is outstanding; `rep` inside a REP (R237, R254). -/
  | copyLoad (rd rb size : Nat) (rep : Option InRep) (addr : Addr)
  /-- A CHWRX whose source load is outstanding: pointer register, channel, end mark (R245). -/
  | chwrxLoad (ra ch : Nat) (e : Bool) (rep : Option InRep) (addr : Addr)
  /-- A JWR or JOUT (`out`) that waits for bytes `got.length` on of the `n` at a banked pointer; `hdr` are the 32 bytes a JWR has
  copied before them (R242). -/
  | staging (out : Bool) (ptr : Word) (n : Nat) (hdr : Option (List Byte)) (got : List Byte) (addr : Addr)
  /-- A CAS whose channel is not ready: destination register, register of the new value (R246). -/
  | cas (rd rb : Nat) (addr : Addr)
  /-- A helper unit of the class to become free (R249, R263). -/
  | unit (req : HelperReq)
  /-- The completion of an accepted helper instruction in its plain form (R249). -/
  | helper (cls : HelperClass)
  /-- An earlier event-form helper instruction of the thread (R249). -/
  | helperEvent (req : HelperReq)
  /-- A Hall Pass lock (R247). -/
  | lock (rd : Nat) (l : Nat)
  /-- A word of an empty channel (R245). -/
  | chRead (rd : Nat) (ch : Nat)
  /-- The close of another writer's packet, with the word to write and its end mark (R375), the pointer register a CHWRX
  advances, and the REP it stands in. -/
  | chWrite (ch : Nat) (w : Word) (e : Bool) (adv : Option Nat) (rep : Option InRep)
  /-- The 300 ns copy of a pre-empted activation's saved state (R164, R386). -/
  | copy (act : Nat)
  deriving DecidableEq, Repr

/-- A staged table write (R171). -/
structure TableWrite where
  table : Nat
  op : Nat
  word : Nat
  key : Nat
  addend : Word
  data : List Byte
  deriving DecidableEq, Repr

/-- A staged egress descriptor (R172). -/
structure Egress where
  buffer : Nat
  off : Nat
  len : Nat
  stream : Nat
  port : Nat
  flags : Nat
  tsOff : Nat
  tsTag : Nat
  deriving DecidableEq, Repr

/-- A staged token (R174, R241). -/
structure StagedToken where
  node : Nat
  port : Nat
  absent : Bool
  iter : Nat
  value : Word
  deriving DecidableEq, Repr

/-- The journal of a running activation (R170): its content is for the device alone, so it is held as what it stages. -/
structure Journal where
  writes : List TableWrite
  outs : List Egress
  tokens : List StagedToken
  overflowed : Bool
  deriving DecidableEq, Repr

/-- A journal that stages nothing. -/
def Journal.empty : Journal := ⟨[], [], [], false⟩

/-- The saved state of a pre-empted activation (R164, R223 and the list after R224). -/
structure Saved where
  g : SMap Word
  bk : SMap Word
  flags : Flags
  repc : Nat
  pc : Addr
  priv : Nat
  tpc : Word
  tcause : Word
  tval : Word
  tstate : Word
  journal : Journal
  /-- the thread in whose save area the state lies -/
  thread : Nat
  deriving DecidableEq, Repr

/-- A hardware thread (R222 to R226), the journal slot of its running activation, and its debug state. -/
structure Thread where
  state : ThState
  wait : Wait
  g : SMap Word
  bk : SMap Word
  flags : Flags
  repc : Nat
  evf : BitVec 32
  pc : Addr
  priv : Nat
  timer : Option Nat
  helperEn : Nat
  home : Addr
  wmask : BitVec 32
  wrd : Nat
  tvec0 : Word
  tvec1 : Word
  tpc : Word
  tcause : Word
  tval : Word
  tstate : Word
  journal : Journal
  /-- the activation record the thread holds (JSTAT.ACT) -/
  act : Option Nat
  /-- an urgent activation that waits to pre-empt the thread (R164) -/
  preempt : Option Nat
  /-- thread generation, 8 bits (R381) -/
  tgen : Nat
  haltPending : Bool
  /-- a halt request that waits for the next instruction boundary or for R211 (R214, R216) -/
  forced : Bool
  /-- channels to which its writes are discarded up to the next end mark (R215) -/
  discard : List Nat
  /-- STEP is executing one instruction of the halted thread (R216) -/
  stepping : Bool
  /-- the wait a HALTED thread returns to when it is resumed -/
  heldState : ThState
  deriving DecidableEq, Repr

/-- A thread held in reset (R203): HELPER_EN at 0xFFF, every other register of it 0 (table "Control registers"). -/
def Thread.zero : Thread :=
  ⟨.reset, .none, [], [], ⟨false, false, false, false⟩, 0, 0, 0, 0, none, 0xFFF, 0, 0, 0, 0, 0, 0, 0, 0, 0,
    Journal.empty, none, none, 0, false, false, [], false, .reset⟩

/-- The states of a context (R109). -/
inductive CtxState
  | free | active | parking | parked | ending | abandoning
  deriving DecidableEq, Repr

/-- The STATE code of a context record (R109). -/
def CtxState.code : CtxState → Nat
  | .free => 0 | .active => 1 | .parking => 2 | .parked => 3 | .ending => 4 | .abandoning => 5

/-- What R159 calls the message descriptor, together with the message's place (R85, R92). -/
structure MsgDesc where
  cls : Nat
  term : Nat
  epoch : Nat
  graph : Nat
  classroom : Nat
  buffer : Nat
  msgLen : Nat
  payloadOff : Nat
  port : Nat
  stream : Nat
  seq : Nat
  sequenced : Bool
  recirc : Bool
  key : Word
  rxTs : Word
  /-- the eight record offsets of the walk (R92) -/
  records : List Nat
  /-- the action status that a default action's graph finds as the operand of entry token 0 (R78) -/
  status : Option Nat
  deriving DecidableEq, Repr

/-- A descriptor of nothing. -/
def MsgDesc.zero : MsgDesc := ⟨0, 0, 0, 0, 0, 0, 0, 0, 0, 0, 0, false, false, 0, 0, [], none⟩

/-- A context record (R108) with the message descriptor its activations receive (R159). -/
structure Ctx where
  state : CtxState
  cgen : Nat
  clgen : Nat
  pinned : Bool
  order : Nat
  msg : MsgDesc
  onChip : Nat
  spilled : Nat
  spillHead : Nat
  acts : Nat
  reqs : Nat
  timer : Option Nat
  /-- the context's seat: an encoded thread id (R162) -/
  seat : Option Nat
  /-- the record and the unpinned entries have moved to DRAM (R126) -/
  inDram : Bool
  /-- handles attached to the context (R371) -/
  attached : List Nat
  deriving DecidableEq, Repr

/-- The value of SPILL_HEAD and NEXT that ends a chain (R108, R133). -/
def chainEnd : Nat := 0x7FFFFFF

/-- A free context id that has never been used. -/
def Ctx.zero : Ctx :=
  ⟨.free, 0, 0, false, 0, MsgDesc.zero, 0, 0, chainEnd, 0, 0, none, none, false, []⟩

/-- A token (R105). -/
structure Token where
  value : Word
  tag : Nat
  port : Nat
  absent : Bool
  urgent : Bool
  cgen : Nat
  clgen : Nat
  /-- sent by an EMIT node or received as a remote token: a rejected one counts in EMIT_DEAD (R129) -/
  emitted : Bool
  deriving DecidableEq, Repr

/-- A bank entry (R133). -/
structure Entry where
  opnds : List Word
  tag : Nat
  present : Nat
  absent : Nat
  pinned : Bool
  ready : Bool
  fired : Bool
  cgen : Nat
  age : Nat
  deriving DecidableEq, Repr

/-- A Roll Call bank: its entries, its token input queue and urgent lane, and whether it is stopped (R134, R138). -/
structure Bank where
  entries : List Entry
  inq : List Token
  urgent : List Token
  stopped : Bool
  deriving DecidableEq, Repr

/-- An empty bank. -/
def Bank.empty : Bank := ⟨[], [], [], false⟩

/-- A lookup request on its way to a table engine (R123): who asks, the table and the key. -/
structure LookupReq where
  ctx : Nat
  cgen : Nat
  clgen : Nat
  tag : Nat
  /-- the absolute table number -/
  table : Nat
  key : Nat
  /-- port-0 value, returned on a miss (R123) -/
  port0 : Word
  urgent : Bool
  deriving DecidableEq, Repr

/-- A search request on its way to the Directory (R124). -/
structure SearchReq where
  ctx : Nat
  cgen : Nat
  clgen : Nat
  tag : Nat
  profile : Nat
  key : Nat
  urgent : Bool
  deriving DecidableEq, Repr

/-- One item of a fire unit's output queue (R134). -/
inductive FuItem
  | token (t : Token)
  | remote (dev : Nat) (t : Token)
  | lookup (r : LookupReq)
  | search (r : SearchReq)
  deriving DecidableEq, Repr

/-- Where an activation stands (R157, R158, R175). -/
inductive ActPlace
  | ready | running | retiring
  deriving DecidableEq, Repr

/-- An activation record (R157). -/
structure Act where
  ctx : Nat
  cgen : Nat
  clgen : Nat
  tag : Nat
  opnds : List Word
  absent : Nat
  entry : Nat
  rerun : Bool
  reruns : Nat
  place : ActPlace
  /-- the saved state of a pre-empted activation (R164) -/
  saved : Option Saved
  /-- the sealed journal of a retiring record, in the commit buffer, the timebase at the seal, and its context's ORDER (R175) -/
  sealed : Option (Journal × Nat × Nat)
  deriving DecidableEq, Repr

/-- What a delay-list entry delivers (R167, R168). -/
inductive DelayKind
  /-- the token a due park timer delivers (R126) -/
  | park (t : Token)
  | thread (t : Nat)
  deriving DecidableEq, Repr

/-- What an armed delay-list entry waits for. -/
structure DelayArm where
  list : Nat
  due : Nat
  kind : DelayKind
  deriving DecidableEq, Repr

/-- A delay-list entry (R167, R169): its generation, and what is armed on it. -/
structure DelaySlot where
  gen : Nat
  arm : Option DelayArm
  deriving DecidableEq, Repr

/-- A destination of a node (R116). -/
structure Dest where
  node : Nat
  port : Nat
  sel : Nat
  deriving DecidableEq, Repr

/-- A node descriptor (R116). -/
structure NodeDesc where
  kind : Nat
  arity : Nat
  opt : Nat
  fn : Nat
  table : Nat
  copy : Bool
  param : Nat
  imm : Word
  dests : List Dest
  deriving DecidableEq, Repr

/-- An egress message at the Crosswalk, with the message of the context that staged it (R172, R173, R182). -/
structure CwMsg where
  e : Egress
  src : MsgDesc
  /-- its reference to its buffer was made (R172, R367) -/
  held : Bool
  /-- it has waited for an older context (counter HELD) -/
  waited : Bool
  deriving DecidableEq, Repr

/-- A context registered in its ordering domain at the Crosswalk (R156, R180 to R183). -/
structure CwCtx where
  ctx : Nat
  cgen : Nat
  clgen : Nat
  key : Word
  classroom : Nat
  cls : Nat
  order : Nat
  closed : Bool
  msgs : List CwMsg
  /-- MONO in ns at its registration (R187) -/
  since : Nat
  deriving DecidableEq, Repr

/-- An admitted message in its classroom's admission queue (R152). -/
structure Admitted where
  msg : MsgDesc
  order : Nat
  /-- the classroom generation at admission (R108) -/
  clgen : Nat
  /-- it occupies an overdraw entry (R153) -/
  overdraw : Bool
  /-- the abandoned context, with its CGEN, whose place it takes (R78) -/
  heir : Option (Nat × Nat)
  deriving DecidableEq, Repr

end Sys2Proof.Machine
end

