-- ==== Sys2Proof/Machine/Parts2.lean ====
section
/-! DEFINITION. The pieces `State` is made of, second part: helpers (spec/08), table engines (spec/09), the
Directory (spec/10), DRAM channels (spec/11), and the pools, channels and locks of the Square (spec/12). -/

namespace Sys2Proof.Machine

/-- A helper unit's instruction in progress (R262, R265, R291). -/
structure HelperRun where
  thread : Nat
  req : HelperReq
  /-- order of starting: the larger started later (R265) -/
  start : Nat
  deriving DecidableEq, Repr

/-- A request that waits in a Street's queue for a helper class (R263). -/
structure HelperWait where
  thread : Nat
  req : HelperReq
  /-- it restarts under R290 and stands at the head of the queue -/
  restart : Bool
  deriving DecidableEq, Repr

/-- A table descriptor (R295). -/
structure TableDesc where
  kind : Nat
  /-- entry size in bytes -/
  esize : Nat
  key16 : Bool
  evict : Nat
  touch : Bool
  learn : Bool
  decay : Bool
  mirror : Bool
  par : Bool
  /-- lookups do not allocate cache lines -/
  bypass : Bool
  valid : Bool
  engBase : Nat
  engLog2 : Nat
  classroom : Nat
  bucketsLog2 : Nat
  base : Nat
  span : Nat
  mirrorOff : Nat
  count : Nat
  salt : Nat
  periodUs : Nat
  deriving DecidableEq, Repr

/-- A lookup that an engine has taken (R298, R299). -/
structure Lookup where
  req : LookupReq
  /-- the table as it stood when the lookup was taken (R319); `none` where there was none for its context -/
  desc : Option TableDesc
  /-- it waits in the replay buffer for a move lock or a journal lock -/
  replay : Bool
  /-- the unit's data came back marked uncorrectable at the end of a bitten transaction (R361) -/
  lost : Bool
  /-- every read it needs has been made: its second bucket's too, and after a replay both again (R298, R299) -/
  made : Bool
  deriving DecidableEq, Repr

/-- The origin of a change (R474). -/
structure Origin where
  kind : Nat
  unit : Nat
  pasid : Nat
  thread : Nat
  device : Nat
  deriving DecidableEq, Repr

/-- The origin as the record's word (R474). -/
def Origin.word (o : Origin) : Nat :=
  o.kind % 16 + o.unit % 256 * 2 ^ 8 + o.pasid % 2 ^ 20 * 2 ^ 16 + o.thread % 1024 * 2 ^ 36 + o.device % 4096 * 2 ^ 46

/-- No origin. -/
def Origin.nobody : Origin := ⟨0, 0, 0, 0, 0⟩
/-- Manager queue `q`. -/
def Origin.queue (q : Nat) : Origin := ⟨1, q, 0, 0, 0⟩
/-- Classroom `c` with its PASID. -/
def Origin.classroom (c pasid : Nat) : Origin := ⟨2, c, pasid, 0, 0⟩
/-- Thread `t` of classroom `c` (0xFF if unbound) on a device. -/
def Origin.thr (t c dev : Nat) : Origin := ⟨3, c, 0, t, dev⟩
/-- The debug port. -/
def Origin.debug : Origin := ⟨4, 0, 0, 0, 0⟩
/-- Tenik. -/
def Origin.tenik : Origin := ⟨5, 0, 0, 0, 0⟩
/-- The fault collector. -/
def Origin.collector : Origin := ⟨6, 0, 0, 0, 0⟩
/-- The boot ROM. -/
def Origin.bootRom : Origin := ⟨7, 0, 0, 0, 0⟩
/-- A BAR0 write by the host. -/
def Origin.host : Origin := ⟨8, 0, 0, 0, 0⟩

/-- One move of an insertion chain: from slot address to slot address (R309). -/
structure Move where
  src : Nat
  dst : Nat
  deriving DecidableEq, Repr

/-- A command in progress on an engine's command port (R311), with the insertion plan it executes (R308). -/
structure PortCmd where
  /-- who issued it (R474) -/
  origin : Origin
  op : Nat
  table : Nat
  /-- the table as it stood when the engine took the command (R319) -/
  desc : TableDesc
  key : Nat
  entry : List Byte
  /-- moves still to make, the next one first -/
  chain : List Move
  /-- the slot that the key is written into last (R308); kept for it once the chain has begun -/
  slot : Option Nat
  deriving DecidableEq, Repr

/-- A recent MISS notice of an engine (R312): table, key and when. -/
structure MissNote where
  table : Nat
  key : Nat
  at_ : Nat
  deriving DecidableEq, Repr

/-- What a record of an apply log holds (R305): the entry to be written to an address, or a move between two slots. -/
inductive LogBody
  | image (addr : Nat) (entry : List Byte)
  | move (m : Move)
  deriving DecidableEq, Repr

/-- A record of an apply log (R305). -/
structure LogRec where
  seq : Nat
  table : Nat
  /-- the table's descriptor, which a successor needs to replay the record (R318) -/
  desc : TableDesc
  body : LogBody
  /-- the completion mark -/
  done : Bool
  deriving DecidableEq, Repr

/-- A table engine (R292, R300, R304, R305, R308, R311, R312, R317). -/
structure Engine where
  /-- requests waiting to be taken -/
  queue : List LookupReq
  /-- lookups taken and not yet returned, those of the replay buffer included -/
  taken : List Lookup
  /-- command ports with an operation in progress -/
  ports : SMap (Option PortCmd)
  /-- the most recent MISS notices, newest first, at most 256 -/
  misses : List MissNote
  /-- notices produced, modulo 2^32 -/
  notices : Nat
  /-- lines of mirrored tables whose copy could not be written, with the surviving line each is copied from (R317) -/
  resync : List (Nat × Nat)
  /-- addresses of the lines its cache holds, the most recently used first (R292); a write goes to DRAM as well, so what they
  hold is what memory holds -/
  cache : List Nat
  /-- its apply log, oldest record first (R305) -/
  log : List LogRec
  /-- the sequence number of the log's next record -/
  logSeq : Nat
  deriving DecidableEq, Repr

/-- An engine at reset. -/
def Engine.empty : Engine := ⟨[], [], [], [], 0, [], [], [], 0⟩

/-- A Directory row: its ternary pattern, priority, validity and associated word (R322, R323). -/
structure DirRow where
  value : Nat
  mask : Nat
  prio : Nat
  valid : Bool
  assoc : Nat
  deriving DecidableEq, Repr

/-- A row that holds nothing. -/
def DirRow.zero : DirRow := ⟨0, 0, 0, false, 0⟩

/-- The Directory's own state beside its rows (R329, R333). -/
structure DirState where
  queue : List SearchReq
  urgent : List SearchReq
  deriving DecidableEq, Repr

/-- A 64-byte line as it was before a queued write: its bytes, and which of its four 16-byte parts could not be read. -/
structure OldLine where
  bytes : List Byte
  bad : List Bool
  deriving DecidableEq, Repr

/-- A request at a DDR channel controller (R349): consecutive lines of one row. -/
structure DdrReq where
  lines : List Nat
  write : Bool
  urgent : Bool
  /-- order of arrival -/
  seq : Nat
  /-- of a write, what DRAM holds until it is issued -/
  old : OldLine
  /-- the event-source number of the requester (R361) -/
  who : Nat
  /-- of a write of data held as bytes, where they go and the bytes -/
  at_ : Nat
  bytes : List Byte
  deriving DecidableEq, Repr

/-- An AtomicOp of the host at a DRAM address (R389, R392): its kind, size and operands. -/
structure Atomic where
  kind : AtomicKind
  size : Nat
  a : Nat
  b : Nat
  deriving DecidableEq, Repr

/-- A write or an AtomicOp that waits for DRAM_INIT, or an AtomicOp that waits for a channel's return to D0 (R345, R355). -/
structure EarlyWrite where
  addr : Nat
  bytes : List Byte
  who : Nat
  atomic : Option Atomic
  deriving DecidableEq, Repr

/-- A DDR channel controller (R345 to R357). -/
structure Ddr where
  readQ : List DdrReq
  urgentQ : List DdrReq
  writeQ : List DdrReq
  /-- requests whose requesters a full queue holds back (R350) -/
  held : List DdrReq
  /-- requests that have arrived -/
  arrived : Nat
  /-- normal row hits in a row that have passed a waiting urgent request (R350) -/
  passes : Nat
  /-- writes and AtomicOps that wait for INIT_DONE, or for D0 behind an AtomicOp, oldest first (R345, R355) -/
  early : List EarlyWrite
  /-- the row open in each bank group and bank of each rank -/
  openRow : SMap (Option Nat)
  /-- refreshes owed per rank (R352) -/
  owed : SMap Nat
  /-- picoseconds since the ranks last came to owe a refresh (R352) -/
  sinceRefresh : Nat
  /-- short ZQ calibrations issued to each rank (R353) -/
  calibrations : SMap Nat
  /-- MR2 of the DRAM selects the extended self-refresh temperature range (R354) -/
  extended : Bool
  /-- the DRAM has not answered a fence and is held in reset, RESET_n asserted and CKE low (R356) -/
  inReset : Bool
  /-- set while the write queue drains past its low watermark (R349) -/
  draining : Bool
  /-- slots whose last three sensor reads failed (R354) -/
  blind : List Nat
  /-- slots whose sensor has given a reading (R354, R544) -/
  seen : List Nat
  /-- next line the patrol scrubber reads -/
  scrub : Nat
  /-- a request waits for the exit from a power rung (R355) -/
  waking : Bool
  deriving DecidableEq, Repr

/-- A channel controller at reset. -/
def Ddr.empty : Ddr := ⟨[], [], [], [], 0, 0, [], [], [], 0, [], false, false, false, [], [], 0, false⟩

/-- The control words of a pool buffer (R364); an owner of `none` is the device. -/
structure Buf where
  count : Nat
  gen : Nat
  owner : Option Nat
  deriving DecidableEq, Repr

/-- A pool's free list: indices never used begin at `next`; freed ones follow, least recently freed first (R366). -/
structure Pool where
  next : Nat
  freed : List Nat
  deriving DecidableEq, Repr

/-- A channel (R373 to R379).  The words lie in Square memory; the marks, oldest first, in the channel unit. -/
structure Chan where
  head : Nat
  /-- end mark and abort mark of each word held -/
  marks : List (Bool × Bool)
  packets : Nat
  writer : Option Nat
  /-- a read has happened since the tail timeout last fired -/
  tailArmed : Bool
  /-- threads that wait to write, in order of arrival -/
  waiters : List Nat
  deriving DecidableEq, Repr

/-- A channel that holds nothing. -/
def Chan.empty : Chan := ⟨0, [], 0, none, true, []⟩

/-- Who holds a lock (R381, R386). -/
inductive LockHolder
  | thread (t : Nat)
  | act (a : Nat)
  deriving DecidableEq, Repr

/-- The owner record of a held lock (R381), and whether it was granted with ORPHAN (R382). -/
structure LockOwner where
  holder : LockHolder
  classroom : Nat
  clgen : Nat
  tgen : Nat
  viaOrphan : Bool
  deriving DecidableEq, Repr

/-- A queued lock request (R383, R384). -/
structure LockWait where
  thread : Nat
  priority : Nat
  event : Bool
  rd : Nat
  tgen : Nat
  classroom : Nat
  clgen : Nat
  deriving DecidableEq, Repr

/-- A Hall Pass lock. -/
structure Lock where
  owner : Option LockOwner
  orphan : Bool
  waiters : List LockWait
  /-- a waiter's priority has exceeded the owner's since it was granted: the owner is boosted until it releases the lock (R387) -/
  boost : Bool
  deriving DecidableEq, Repr

/-- A lock that nobody holds. -/
def Lock.free : Lock := ⟨none, false, [], false⟩

end Sys2Proof.Machine
end

