-- ==== Sys2Proof/Machine/Parts3.lean ====
section
/-! DEFINITION. The pieces `State` is made of, third part: client ports and FST streams (spec/02), ingress
pipelines and Terms (spec/03, spec/16). -/

namespace Sys2Proof.Machine

/-- A frame that waits in an egress queue of a port (R46, R54). -/
structure TxFrame where
  bytes : List Byte
  /-- two-step timestamp tag, one-step timestamp offset (R54) -/
  tsTwo : Option Nat
  tsOne : Option Nat
  /-- the buffer whose reference is dropped after transmission (R172) -/
  buffer : Option Nat
  /-- where the EtherType of a frame lies that the device has built -/
  ether : Option Nat
  /-- it carries FST's EtherType, which is the one in force when it is sent (R74) -/
  rawFst : Bool
  /-- the stream and sequence of the egress message it is a segment of -/
  msg : Option (Nat × Nat)
  deriving DecidableEq, Repr

/-- A received FST frame (R56) that waits for the FST engine, with what the engine needs of the frame. -/
structure FstFrame where
  port : Nat
  ver : Nat
  ty : Nat
  flags : Nat
  segLen : Nat
  stream : Nat
  seq : Nat
  segIdx : Nat
  segCnt : Nat
  lenInfo : Nat
  segOff : Nat
  crc : Nat
  /-- the frame headers in front of the payload (R66, R69) -/
  hdr : List Byte
  payload : List Byte
  udp : Bool
  udpLen : Nat
  ts : Word
  deriving DecidableEq, Repr

/-- An unsequenced frame that waits in its port's receive buffer (R44, R153). -/
structure UnseqFrame where
  bytes : List Byte
  ts : Word
  /-- handed to a pipeline, and not yet admitted or acted on -/
  walking : Bool
  deriving DecidableEq, Repr

/-- A client port (R46 to R54). -/
structure Port where
  q0 : List TxFrame
  q1 : List TxFrame
  q2 : List TxFrame
  /-- an 802.3x pause is running (R47) -/
  paused : Bool
  /-- priorities paused by PFC, one bit each (R48) -/
  pfc : Nat
  /-- two-step timestamps and their tags, oldest first (R54) -/
  txts : List (Word × Nat)
  rx : List FstFrame
  unseq : List UnseqFrame
  deriving DecidableEq, Repr

/-- A port at reset. -/
def Port.empty : Port := ⟨[], [], [], false, 0, [], [], []⟩

/-- What has become of a message of an RX stream (R67, R71). -/
inductive RxPhase
  /-- segments missing -/
  | incomplete
  /-- complete, waiting in the window -/
  | complete
  /-- handed to a pipeline -/
  | walking
  /-- admitted, or default-actioned -/
  | done
  deriving DecidableEq, Repr

/-- A held segment: its index, offset and bytes (R68). -/
structure Seg where
  idx : Nat
  off : Nat
  data : List Byte
  deriving DecidableEq, Repr

/-- A message of an RX stream that holds segments (R65 to R71). -/
structure RxMsg where
  seq : Nat
  segCnt : Nat
  msgLen : Nat
  buffer : Nat
  /-- the frame headers of segment 0 (R69) -/
  hdr : List Byte
  segs : List Seg
  acknow : Bool
  ts : Word
  phase : RxPhase
  deriving DecidableEq, Repr

/-- A message of a TX stream, waiting at release or sent and not yet covered by an ACK (R75); `urgent`: of a class-0
context (R46). -/
structure TxMsg where
  seq : Nat
  e : Egress
  urgent : Bool
  deriving DecidableEq, Repr

/-- The states of a stream (table "Stream states"). -/
inductive StreamState
  | openWait | open_ | closing | failed
  deriving DecidableEq, Repr

/-- An open FST stream (R58 to R76). -/
structure Stream where
  tx : Bool
  port : Nat
  classroom : Nat
  state : StreamState
  /-- RX: next expected sequence.  TX: next sequence to send -/
  n : Nat
  closeSeq : Option Nat
  -- RX
  held : List RxMsg
  /-- messages admitted or default-actioned since the last ACK (R71) -/
  sinceAck : Nat
  /-- monotonic time of the last ACK sent for a duplicate (R65) -/
  dupAckAt : Option Nat
  /-- the NAK condition of R70 has been signalled and persists -/
  nakOn : Bool
  /-- TX: the endpoint block.  RX: the same for what the device sends back, made from the last frame received -/
  endpoint : List Byte
  -- TX
  start : Nat
  unacked : List TxMsg
  waiting : List TxMsg
  /-- every sequence before it is acknowledged -/
  ackSeq : Nat
  /-- SEQ and WINDOW of the last ACK received (R75) -/
  lastAck : Nat
  window : Nat
  retries : Nat
  closeSent : Bool
  deriving DecidableEq, Repr

/-- What a walk started from (R79, R101): a message of a stream, a frame of a port, or a recirculated message. -/
inductive WalkSource
  | stream (id : Nat) (seq : Nat)
  | unseq (port : Nat)
  | recirc (port : Nat)
  deriving DecidableEq, Repr

/-- A message at a pipeline (R79 to R83, R99). -/
structure Walk where
  src : WalkSource
  port : Nat
  /-- the Term it is walked with; `none` while none is current -/
  term : Option Nat
  epoch : Nat
  /-- buffer that holds the presentation, if it has one -/
  buffer : Option Nat
  /-- the presentation (R69, R84) and its PAYLOAD_OFF -/
  bytes : List Byte
  hdrLen : Nat
  ts : Word
  /-- the classroom its result must name: the stream's, or that of the context it is recirculated from (R96, R173) -/
  classroom : Option Nat
  strm : Nat
  /-- MAX_VISITS and CLASSROOMS of its port as they were in force at its start -/
  visits : Nat
  mask : Nat
  deriving DecidableEq, Repr

/-- The outcome of a walk (R98, R78): a classification with the classroom generation read then (R96), or an action status. -/
inductive WalkOutcome
  | result (m : MsgDesc) (clgen : Nat)
  | action (status : Nat)
  deriving DecidableEq, Repr

/-- A finished walk: in a hold queue, or handed to admission, where it waits (`taken` is none) or the stage has taken it: with an
admission entry of its classroom or, for true, one of the overdraw reserve (R151, R153). -/
structure WalkDone where
  walk : Walk
  out : WalkOutcome
  taken : Option Bool
  deriving DecidableEq, Repr

/-- A walker's message, with its outcome while that waits to be handed on. -/
structure Walker where
  walk : Walk
  out : Option WalkOutcome
  deriving DecidableEq, Repr

/-- An ingress pipeline: the messages its 32 walkers hold, in starting order (any behind the first 32 wait for a walker),
and its hold queue (R80, R103, R153). -/
structure Pipe where
  walks : List Walker
  hold : List WalkDone
  deriving DecidableEq, Repr

/-- A pipeline at reset. -/
def Pipe.empty : Pipe := ⟨[], []⟩

/-- The states of a Term slot. -/
inductive TermState
  | empty | loading | ready | current | retiring
  deriving DecidableEq, Repr

/-- STATE code of TERM_STATUS (R417). -/
def TermState.code : TermState → Nat
  | .empty => 0 | .loading => 1 | .ready => 2 | .current => 3 | .retiring => 4

/-- A Term slot (R466 to R469): where its image lies in Tenik's DRAM region and what its header says. -/
structure TermSlot where
  state : TermState
  epoch : Nat
  check : Nat
  graphs : Nat
  entries : Nat
  base : Nat
  len : Nat
  parseOff : Nat
  profileOff : Nat
  graphOff : Nat
  entryOff : Nat
  codeOff : Nat
  codeLen : Nat
  urgentLen : Nat
  start : Word
  /-- reference count (R468) -/
  refs : Nat
  /-- descriptors it holds locked in the node cache: DRAM address and length (R466, R469) -/
  locked : List (Nat × Nat)
  deriving DecidableEq, Repr

/-- An empty slot. -/
def TermSlot.empty : TermSlot := ⟨.empty, 0, 0, 0, 0, 0, 0, 0, 0, 0, 0, 0, 0, 0, 0, 0, []⟩

end Sys2Proof.Machine
end

