-- ==== Sys2Proof/Machine/Parts4.lean ====
section
/-! DEFINITION. The pieces `State` is made of, fourth part: host queues and MSI-X (spec/13), classrooms (spec/14),
the ring (spec/15), the Gradebook (spec/16), faults (spec/17), boot, timebase and Staff Room (spec/18), the test
access port (spec/19), and what leaves the device. -/

namespace Sys2Proof.Machine

/-- An entry of the MSI-X table (R395). -/
structure MsixEntry where
  addr : Word
  data : Nat
  masked : Bool
  deriving DecidableEq, Repr

/-- Everything that leaves the device, in the order it leaves (the model's own record of its outputs). -/
inductive Out
  /-- A frame leaves client port `port`. -/
  | frame (port : Nat) (bytes : List Byte)
  /-- A frame leaves Roundabout link `link` (0 east, 1 west). -/
  | ring (link : Nat) (bytes : List Byte)
  /-- A write to host memory, with the PASID it carries (R390). -/
  | hostWrite (pasid : Option Nat) (addr : Nat) (bytes : List Byte)
  /-- An MSI-X message. -/
  | msix (entry : Nat) (addr : Word) (data : Nat)
  /-- A read request to host memory (R426). -/
  | hostRead (pasid : Option Nat) (addr : Nat) (len : Nat)
  /-- Data returned to a host or debug read; `poisoned` for uncorrectable data (R347). -/
  | readData (data : List Byte) (poisoned : Bool)
  /-- A byte or word returned on the sideband, or its NACK (R544). -/
  | sideband (value : Option Nat)
  /-- A command code written on the sideband is accepted (R544). -/
  | sidebandAck
  /-- The packet error code behind a read of the sideband (R544). -/
  | sidebandPec (crc : Nat)
  /-- What a capture of the boundary-scan chain shifts out: the pins found at 1 (R540). -/
  | scan (ones : List Pin)
  /-- The address the device answers an Alert Response with (R545). -/
  | alert (addr : Nat)
  deriving DecidableEq, Repr

/-- The unit kinds that can be fenced (R415). -/
inductive UnitKind
  | core | street | helper | engine | bank | pipe | lane | ddr | portGroup | link
  deriving DecidableEq, Repr

/-- The kind's number in FENCE and in records (R415). -/
def UnitKind.code : UnitKind → Nat
  | .core => 0 | .street => 1 | .helper => 2 | .engine => 3 | .bank => 4 | .pipe => 5 | .lane => 6 | .ddr => 7
  | .portGroup => 8 | .link => 9

/-- The kind of a number, if it names one. -/
def UnitKind.ofCode : Nat → Option UnitKind
  | 0 => some .core | 1 => some .street | 2 => some .helper | 3 => some .engine | 4 => some .bank
  | 5 => some .pipe | 6 => some .lane | 7 => some .ddr | 8 => some .portGroup | 9 => some .link
  | _ => none

/-- How many units of a kind there are (R415). -/
def UnitKind.count : UnitKind → Nat
  | .core => 96 | .street => 12 | .helper => 72 | .engine => 16 | .bank => 4 | .pipe => 4 | .lane => 4 | .ddr => 8
  | .portGroup => 2 | .link => 2

/-- A unit that can be fenced. -/
structure UnitId where
  kind : UnitKind
  idx : Nat
  deriving DecidableEq, Repr

/-- What a background operation does when it ends (R406). -/
inductive BgKind
  | modeSet (target : Nat)
  /-- COMMIT: the DONE bits (register offset, bit) that must all be 1 -/
  | commit (dones : List (Nat × Nat))
  | fwStage (image : List Byte)
  | fwSwitch
  | dramInit
  | termLoad (slot : Nat) (image : List Byte)
  | termRetire (slot : Nat)
  | classCreate (c : Nat) (pasid : Nat) (grant : List Byte)
  | classDestroy (c : Nat)
  | classReset (c : Nat)
  | tableDelete (t : Nat) (d : TableDesc)
  | portGroup (g : Nat)
  | streamClose (id : Nat)
  | ringJoin
  | ringLeave
  | fence (u : UnitId)
  | unfence (u : UnitId) (keep : Bool)
  | diag (test : Nat)
  deriving DecidableEq, Repr

/-- An ACCEPTED command that has not completed (R406). -/
structure BgOp where
  queue : Nat
  tag : Word
  opcode : Nat
  irq : Bool
  kind : BgKind
  /-- how far it is: of a CLASS_RESET or CLASS_DESTROY 0 up to the reset point, 1 behind it, 2 while its last commits are
  pending (R431, R432) -/
  phase : Nat
  /-- its queue has been disabled since: its later completion is discarded (R398) -/
  muted : Bool
  deriving DecidableEq, Repr

/-- A reply that waits for a free completion entry (R403); its SQ_HEAD and PHASE are filled in when it is written. -/
structure OwedReply where
  bytes : List Byte
  irq : Bool
  /-- it announces a notice -/
  notice : Bool
  deriving DecidableEq, Repr

/-- What Tenik keeps in DRAM of a queue's last command whose effect has been made (R410): the command, its opcode, what its reply
says, and whether the reply has been written. -/
structure LastCmd where
  cmd : Cmd
  op : Nat
  status : Nat
  result : Nat
  data : List Byte
  replied : Bool
  deriving DecidableEq, Repr

/-- A notice whose space is still held: the completion entry that announced it, once it is written, and its offset and
length in the notice buffer (R411). -/
structure NoticeHold where
  entry : Option Nat
  off : Nat
  len : Nat
  deriving DecidableEq, Repr

/-- A queue of the host: manager queue q at key q, the ring of classroom c at key 16 + c (R397 to R404). -/
structure HostQ where
  nbOff : Nat
  notices : List NoticeHold
  owed : List OwedReply
  last : Option LastCmd
  deriving DecidableEq, Repr

/-- A queue at reset. -/
def HostQ.empty : HostQ := ⟨0, [], [], none⟩

/-- The grant of a classroom as its 128 bytes, with what Tenik bound from it (R420, R422). -/
structure Classroom where
  grant : List Byte
  deriving DecidableEq, Repr

/-- A classroom that does not exist. -/
def Classroom.none : Classroom := ⟨[]⟩

/-- A record of a ring frame (R439). -/
structure RingRec where
  ty : Nat
  more : Bool
  body : List Byte
  deriving DecidableEq, Repr

/-- A ring frame (R439). -/
structure RingFrame where
  bcast : Bool
  turned : Bool
  unseq : Bool
  nak : Bool
  hold : Bool
  src : Nat
  dst : Nat
  hops : Nat
  lseq : Nat
  lack : Nat
  bseq : Nat
  recs : List RingRec
  /-- cut through with an FCS that failed: it leaves with an inverted one (R445) -/
  bad : Bool
  /-- the bytes of a received frame without its FCS, from which a forwarded one keeps its records and reserved bits (R445); none
  of a frame that this device originates -/
  raw : List Byte
  deriving DecidableEq, Repr

/-- A received record with its frame's source, and whether the frame was a broadcast. -/
structure RingIn where
  src : Nat
  bcast : Bool
  ty : Nat
  more : Bool
  body : List Byte
  deriving DecidableEq, Repr

/-- A Roundabout link (R441 to R450, R454). -/
structure RingLink where
  /-- LSEQ of the next sequenced frame -/
  tx : Nat
  /-- next LSEQ expected -/
  e : Nat
  /-- sequenced frames not yet covered by a LACK, oldest first -/
  held : List RingFrame
  fwd : List RingFrame
  retx : List RingFrame
  urgent : List RingFrame
  mirror : List RingFrame
  other : List RingFrame
  /-- a heartbeat, an acknowledgement or a NAK is due -/
  hbDue : Bool
  ackDue : Bool
  nakDue : Bool
  retries : Nat
  up : Bool
  /-- the peer's heartbeats are current -/
  current : Bool
  /-- the peer announced LEAVING -/
  leaving : Bool
  /-- the sender's own id came back (R455) -/
  conflict : Bool
  /-- the peer's id from its last heartbeat -/
  peer : Option Nat
  /-- a mirror record has been sent in part (R440) -/
  midMirror : Bool
  /-- pieces received of a MIRROR record that continues -/
  partialRec : List Byte
  /-- records received and not yet taken by the unit they are for, oldest first -/
  rx : List RingIn
  deriving DecidableEq, Repr

/-- A link at reset. -/
def RingLink.empty : RingLink :=
  ⟨0, 0, [], [], [], [], [], [], false, false, false, 0, false, false, false, false, none, false, [], []⟩

/-- A remote access in progress (R458). -/
structure Remote where
  /-- the number of the access among those of this device -/
  tag : Nat
  thread : Nat
  dev : Nat
  off : Nat
  size : Nat
  write : Option Nat
  /-- its request has left: it does not wait behind an earlier one of its thread to its device -/
  sent : Bool
  deriving DecidableEq, Repr

/-- The ring's state beside the links. -/
structure RingState where
  bseq : Nat
  mseq : Nat
  /-- last broadcast sequence accepted per source -/
  lastB : List (Nat × Nat)
  remotes : List Remote
  /-- remote tokens that wait for a link, oldest first, with the device each is for (R449) -/
  remoteOut : List (Nat × Token)
  /-- entries of the mirror log, oldest first: first unit and number of units (R452) -/
  mlog : List (Nat × Nat)
  /-- the device has been in SAFE: its heartbeats say LEAVING, and nothing is originated, until it is in service again (R511,
  R512) -/
  leavingUs : Bool
  /-- RING_LEAVE is in progress: nothing is originated (R457) -/
  going : Bool
  /-- remote accesses made so far -/
  racc : Nat
  deriving DecidableEq, Repr

/-- A Gradebook record in the hasher queue (R472, R473). -/
structure GbRec where
  time : Nat
  origin : Nat
  object : Nat
  old : Nat
  new : Nat
  seq : Nat
  deriving DecidableEq, Repr

/-- The Gradebook's own state (R472, R476, R477, R480). -/
structure GbState where
  queue : List GbRec
  /-- hash of the last record (16 bytes) -/
  hash : List Byte
  /-- hashed records kept on chip, newest first, at most 4,096 (R477) -/
  sram : List (List Byte)
  dropped : Bool
  lastSeal : Option Nat
  /-- SEQ of the first record of the ring in its present place (R477) -/
  ringStart : Nat
  deriving DecidableEq, Repr

/-- A fault report (R482). -/
structure Report where
  source : Nat
  cls : Nat
  cause : Nat
  unit : Option UnitId
  info : Nat
  deriving DecidableEq, Repr

/-- A fence in progress (R493): the unit, and whose change it is (R495). -/
structure Fencing where
  unit : UnitId
  origin : Origin
  deriving DecidableEq, Repr

/-- The fault collector's own state (R483, R487, R491). -/
structure FcState where
  queue : List Report
  fencing : List Fencing
  deriving DecidableEq, Repr

/-- The timebase (R518): both counts in units of 2^-32 ns, and the set or step that waits for the next tick. -/
structure TimeState where
  time : Nat
  mono : Nat
  set : Option Word
  step : Option Word
  deriving DecidableEq, Repr

/-- Straps (R501). -/
structure Straps where
  pcieW : Nat
  smbA : Nat
  tap : Bool
  test : Bool
  deriving DecidableEq, Repr

/-- The fuse block as loaded at boot (R502, R505). -/
structure Fuses where
  uid : Word
  vendorHash : List Byte
  ownerHash : List Byte
  minSvn : Nat
  deriving DecidableEq, Repr

/-- A Tenik image that runs or is staged (R506). -/
structure FwImage where
  version : Nat
  svn : Nat
  crc : Nat
  bytes : List Byte
  deriving DecidableEq, Repr

/-- What the boot ROM and the Staff Room keep (R500 to R508, R497). -/
structure BootState where
  perst : Bool
  straps : Straps
  fuses : Fuses
  running : Option FwImage
  staged : Option FwImage
  /-- where in DRAM the running and the staged image lie (R470, R506) -/
  runAt : Nat
  stagedAt : Nat
  /-- the queue from which Tenik took its last command (R405) -/
  lastQueue : Nat
  /-- the board profile as accepted, its entries not yet applied -/
  profile : Option (List Byte)
  tenikBase : Nat
  tenikLen : Nat
  dramStarted : Bool
  dramDone : Bool
  /-- Tenik is stopped or restarting: host commands wait (R410, R497) -/
  tenikDown : Bool
  /-- a later image load that MODE_SET or a restart must finish -/
  restarting : Bool
  /-- THERM_WARN is armed (R516) -/
  warnArmed : Bool
  /-- every Street is held at L3 after a trip (R516) -/
  tripHold : Bool
  /-- the device has left SAFE since the trip -/
  leftSafe : Bool
  /-- a junction reading has been taken since PERST# (R544) -/
  tempRead : Bool
  /-- the highest junction reading in °C, 0 until the first (R516) -/
  hottest : Int
  /-- a monitored supply is below its operating minimum (R522) -/
  supplyLow : Bool
  deriving DecidableEq, Repr

/-- Boot ROM and Staff Room while PERST# is asserted (R500). -/
def BootState.zero : BootState :=
  ⟨true, ⟨0, 0, false, false⟩, ⟨0, [], [], 0⟩, none, none, 0, 0, 79, none, 0, 0, false, false, true, false, true, false, false,
    false, 0, false⟩

/-- What the test access port holds (R540 to R543). -/
structure TapState where
  /-- the current instruction's code -/
  ir : Nat
  busy : Bool
  done : Bool
  ignored : Bool
  data : Word
  /-- the access in progress: offset, write data, half -/
  access : Option (Nat × Option Word × Bool)
  /-- the pins whose boundary-scan cell holds 1 (R540) -/
  boundary : List Pin
  deriving DecidableEq, Repr

/-- The test access port in Test-Logic-Reset, IDCODE selected (R540, R541). -/
def TapState.zero : TapState := ⟨1, false, false, false, 0, none, []⟩

/-- Admission, dispatch and delay lists (R151 to R169): what is not per classroom, thread or record. -/
structure SqState where
  /-- device admission counter -/
  admitNext : Nat
  /-- where the weighted round robin of R155 stands: classroom and turns left -/
  wrrAt : Nat
  wrrLeft : Nat
  /-- threads blocked in GETWORK, the one blocked longest first -/
  blocked : List Nat
  /-- class-0 activations waiting for a thread -/
  bypass : List Nat
  /-- results handed to admission and not yet admitted, in order of hand-over -/
  results : List WalkDone
  /-- activation records freed, and the first one never used -/
  actNext : Nat
  actFreed : List Nat
  /-- delay entries freed, and the first one never used -/
  dlyNext : Nat
  dlyFreed : List Nat
  /-- host reads outstanding of threads that no longer wait for them: thread and classroom, oldest first; their data is
  discarded (R431 step 4) -/
  lateReads : List (Nat × Nat)
  deriving DecidableEq, Repr

/-- Roll Call's own state beside banks and contexts (R107, R133, R137, R143). -/
structure RcState where
  ctxNext : Nat
  ctxFreed : List Nat
  entryCtr : Nat
  spillNext : Nat
  spillFreed : List Nat
  /-- contexts that Tenik is to abandon (R144), each with the CGEN of the life that is meant -/
  toAbandon : List (Nat × Nat)
  /-- the records held in the context store of Square memory: context and place there (R108) -/
  store : List (Nat × Nat)
  deriving DecidableEq, Repr

end Sys2Proof.Machine
end

