-- ==== Sys2Proof/Machine/Regs.lean ====
section
/-! DEFINITION. Looking a register up in the catalogue: its row, its commit group, its reset value and the bits of it
that each type of field covers (R8 to R13). -/

namespace Sys2Proof.Machine

/-- The row an offset belongs to, with the indices of the register in the row. -/
def regFind : List RegRow → Nat → Option (RegRow × List Nat)
  | [], _ => none
  | r :: rs, off => match r.index off with
    | some is => some (r, is)
    | none => regFind rs off

/-- The catalogue entry of an offset: `none` for an unpopulated one (R13). -/
def regRow? (off : Nat) : Option (RegRow × List Nat) := regFind regRows off

/-- The reset value of a register: each field at the value of its table. -/
def RegRow.resetValue (r : RegRow) : Word :=
  r.fields.foldl (fun w f => w ||| f.fld.place f.reset) 0

/-- The value of a register at reset (0 for an unpopulated offset). -/
def regReset (off : Nat) : Word :=
  match regRow? off with
  | some (r, _) => r.resetValue
  | none => 0

/-- The commit group of an offset. -/
def regGrp (off : Nat) : Grp :=
  match regRow? off with
  | some (r, is) => r.grp.grp (flattenIdx r.dims is r.grpDims 0)
  | none => .none

/-- The bits of a register whose fields have one of the given types. -/
def RegRow.maskOf (r : RegRow) (p : FieldType → Bool) : Word :=
  r.fields.foldl (fun w f => if p f.ty then w ||| f.fld.mask else w) 0

/-- All the offsets of a row's dimensions, from a base. -/
def dimOffsets : List (Nat × Nat) → Nat → List Nat
  | [], b => [b]
  | (count, stride) :: ds, b => (List.range count).flatMap fun i => dimOffsets ds (b + i * stride)

/-- Every populated offset of a row. -/
def RegRow.offsets (r : RegRow) : List Nat := dimOffsets r.dims r.base

/-- The kind of a group. -/
def Grp.kind : Grp → GrpKind
  | .none => .none | .ethN _ => .ethN | .ethGrp _ => .ethGrp | .fst => .fst | .pg => .pg | .rc => .rc | .sq => .sq
  | .cw => .cw | .tt _ => .tt | .thr _ => .thr | .st _ => .st | .te _ => .te | .dir => .dir | .ddr _ => .ddr
  | .bp => .bp | .ch => .ch | .hp => .hp | .hiq _ => .hiq | .clq _ => .clq | .cl => .cl | .rb => .rb | .gb => .gb
  | .fc => .fc

/-- The offsets of the registers of a commit group. -/
def grpOffsets (g : Grp) : List Nat :=
  (regRows.filter fun r => r.grp ≠ .none && r.grp = g.kind).flatMap fun r =>
    r.offsets.filter fun off => regGrp off = g

end Sys2Proof.Machine
end

