-- ==== Sys2Proof/Machine/State.lean ====
section
/-! DEFINITION. The state of the EQ9640: every register, memory, table, queue and mode the spec gives it, the queue of
commands that wait, and two fields of the model's own (`free`, `outbox`).  An array of like things is an `SMap`, its
key written in the field's comment. -/

namespace Sys2Proof.Machine

/-- The machine. -/
structure State where
  /-- commands that wait, first in first out -/
  pending : List Instr
  /-- how many free values have been drawn: the counter the opaque constants of Config are applied to (the model's own field) -/
  free : Nat
  /-- what the device has sent, newest first (the model's own record of its outputs) -/
  outbox : List Out
  /-- DRAM, Street memories and Square memory, by internal physical address (R14) -/
  mem : SMap Byte
  /-- 16-byte parts of lines (by internal address) whose check code is uncorrectable (R315, R346) -/
  bad : SMap Bool
  /-- the desks: core n × 0x20000 + offset for the shared pages, n × 0x20000 + 0x10000 + thread × 0x400 + offset for a private page (R193) -/
  desk : SMap Byte
  /-- slot headers and node store of the parse graph, by offset in block PG (R102) -/
  pg : SMap Byte
  /-- registers, by BAR0 offset; of an RW-S field the shadow (R10) -/
  regs : SMap Word
  /-- the values in force of the RW-S fields, by BAR0 offset (R10, R460) -/
  act : SMap Word
  /-- the pending copies of the RW-S fields between GO and the safe point (R460) -/
  pendc : SMap Word
  /-- whose GO the pending copies come from (R471): by offset of the xx_COMMIT register and its GO bit -/
  goBy : SMap Origin
  /-- MSI-X table, by entry (R395) -/
  msix : SMap MsixEntry
  /-- threads, by encoded identifier (R3) -/
  threads : SMap Thread
  /-- activation records in use (R157) -/
  acts : SMap (Option Act)
  /-- ready lists: classroom × 8 + class (R158) -/
  ready : SMap (List Nat)
  /-- delay-list entries (R167, R169) -/
  delay : SMap DelaySlot
  /-- contexts, by id (R107) -/
  ctxs : SMap Ctx
  /-- Roll Call banks (R132) -/
  banks : SMap Bank
  /-- output queues of the 16 fire units (R134) -/
  fuq : SMap (List FuItem)
  /-- helper units: Street × 6 + unit, the instruction each executes (R262) -/
  units : SMap (Option HelperRun)
  /-- helper request queues: Street × 4 + class (R263) -/
  hqueues : SMap (List HelperWait)
  /-- locked ways of the instruction caches: core × 4 + way, the urgent thread code it holds (R197) -/
  icache : SMap (List Byte)
  /-- consumer of each table's learn notices: a manager queue, or 0x40 + classroom (R313, R414) -/
  learn : SMap (Option Nat)
  /-- table engines (R292) -/
  engines : SMap Engine
  /-- Directory rows (R320) -/
  dirRows : SMap DirRow
  /-- the second copy of the Directory in check-coded SRAM (R322) -/
  dirShadow : SMap DirRow
  /-- Directory search queue and urgent lane (R329) -/
  dir : DirState
  /-- DDR channel controllers (R349) -/
  ddrs : SMap Ddr
  /-- buffers: pool × 2^22 + index (R364) -/
  bufs : SMap Buf
  /-- free lists of the pools (R366) -/
  pools : SMap Pool
  /-- channels (R373) -/
  chans : SMap Chan
  /-- Hall Pass locks (R380) -/
  locks : SMap Lock
  /-- open FST streams, by stream identifier (R58) -/
  streams : SMap (Option Stream)
  /-- client ports (R46) -/
  ports : SMap Port
  /-- ingress pipelines (R79) -/
  pipes : SMap Pipe
  /-- admission queues of the classrooms: classroom × 2, class 0 at classroom × 2 + 1 (R152) -/
  admitQ : SMap (List Admitted)
  /-- Term slots (R466) -/
  terms : SMap TermSlot
  /-- classrooms (R420) -/
  classes : SMap Classroom
  /-- queues of the host: manager queue q, 16 + c the ring of classroom c (R397) -/
  hostq : SMap HostQ
  /-- Roundabout links, 0 east and 1 west (R441) -/
  ringLinks : SMap RingLink
  /-- admission and dispatch (R151 to R169) -/
  sq : SqState
  /-- Roll Call beside banks and contexts (R107, R137) -/
  rc : RcState
  /-- contexts registered at the Crosswalk, in order of admission (R180) -/
  cw : List CwCtx
  /-- the ring beside the links (R449 to R458) -/
  ring : RingState
  /-- the Gradebook (R472 to R480) -/
  gb : GbState
  /-- the fault collector (R483 to R493) -/
  fc : FcState
  /-- the timebase (R518) -/
  tb : TimeState
  /-- boot ROM and Staff Room (R500 to R508) -/
  boot : BootState
  /-- test access port (R540) -/
  tap : TapState
  /-- ACCEPTED commands that have not completed (R406) -/
  bg : List BgOp
  deriving DecidableEq, Repr

/-- No command stops this model: every row of the table has an effect the spec gives it, and a row whose condition does
not hold leaves the state as it is (notes/assumptions/2.md). -/
inductive Fault
  deriving DecidableEq, Repr

/-- Why a command is refused. -/
inductive Refusal
  /-- The command has no meaning in this model yet (safe: nothing can be proved of a state after it). Raised by `exec`
  for the arms that name it. -/
  | notModelled (mnemonic : String)
  deriving DecidableEq, Repr

/-- What an unlisted key of `State.mem` reads as. -/
def dfltMem : Nat → Byte := fun _ => 0

/-- What an unlisted key of `State.bad` reads as. -/
def dfltBad : Nat → Bool := fun _ => false

/-- What an unlisted key of `State.desk` reads as. -/
def dfltDesk : Nat → Byte := fun _ => 0

/-- What an unlisted key of `State.pg` reads as. -/
def dfltPg : Nat → Byte := fun _ => 0

/-- What an unlisted key of `State.regs` reads as. -/
def dfltRegs : Nat → Word := regReset

/-- What an unlisted key of `State.act` reads as. -/
def dfltAct : Nat → Word := regReset

/-- What an unlisted key of `State.pendc` reads as. -/
def dfltPendc : Nat → Word := regReset

/-- What an unlisted key of `State.goBy` reads as. -/
def dfltGoBy : Nat → Origin := fun _ => Origin.nobody

/-- What an unlisted key of `State.msix` reads as. -/
def dfltMsix : Nat → MsixEntry := fun _ => ⟨0, 0, true⟩

/-- What an unlisted key of `State.threads` reads as. -/
def dfltThreads : Nat → Thread := fun _ => Thread.zero

/-- What an unlisted key of `State.acts` reads as. -/
def dfltActs : Nat → Option Act := fun _ => none

/-- What an unlisted key of `State.ready` reads as. -/
def dfltReady : Nat → List Nat := fun _ => []

/-- What an unlisted key of `State.delay` reads as. -/
def dfltDelay : Nat → DelaySlot := fun _ => ⟨0, none⟩

/-- What an unlisted key of `State.ctxs` reads as. -/
def dfltCtxs : Nat → Ctx := fun _ => Ctx.zero

/-- What an unlisted key of `State.banks` reads as. -/
def dfltBanks : Nat → Bank := fun _ => Bank.empty

/-- What an unlisted key of `State.fuq` reads as. -/
def dfltFuq : Nat → List FuItem := fun _ => []

/-- What an unlisted key of `State.units` reads as. -/
def dfltUnits : Nat → Option HelperRun := fun _ => none

/-- What an unlisted key of `State.hqueues` reads as. -/
def dfltHqueues : Nat → List HelperWait := fun _ => []

/-- What an unlisted key of `State.icache` reads as. -/
def dfltIcache : Nat → List Byte := fun _ => []

/-- What an unlisted key of `State.learn` reads as. -/
def dfltLearn : Nat → Option Nat := fun _ => none

/-- What an unlisted key of `State.engines` reads as. -/
def dfltEngines : Nat → Engine := fun _ => Engine.empty

/-- What an unlisted key of `State.dirRows` reads as. -/
def dfltDirRows : Nat → DirRow := fun _ => DirRow.zero

/-- What an unlisted key of `State.dirShadow` reads as. -/
def dfltDirShadow : Nat → DirRow := fun _ => DirRow.zero

/-- What an unlisted key of `State.ddrs` reads as. -/
def dfltDdrs : Nat → Ddr := fun _ => Ddr.empty

/-- What an unlisted key of `State.bufs` reads as. -/
def dfltBufs : Nat → Buf := fun _ => ⟨0, 0, none⟩

/-- What an unlisted key of `State.pools` reads as. -/
def dfltPools : Nat → Pool := fun _ => ⟨0, []⟩

/-- What an unlisted key of `State.chans` reads as. -/
def dfltChans : Nat → Chan := fun _ => Chan.empty

/-- What an unlisted key of `State.locks` reads as. -/
def dfltLocks : Nat → Lock := fun _ => Lock.free

/-- What an unlisted key of `State.streams` reads as. -/
def dfltStreams : Nat → Option Stream := fun _ => none

/-- What an unlisted key of `State.ports` reads as. -/
def dfltPorts : Nat → Port := fun _ => Port.empty

/-- What an unlisted key of `State.pipes` reads as. -/
def dfltPipes : Nat → Pipe := fun _ => Pipe.empty

/-- What an unlisted key of `State.admitQ` reads as. -/
def dfltAdmitQ : Nat → List Admitted := fun _ => []

/-- What an unlisted key of `State.terms` reads as. -/
def dfltTerms : Nat → TermSlot := fun _ => TermSlot.empty

/-- What an unlisted key of `State.classes` reads as. -/
def dfltClasses : Nat → Classroom := fun _ => Classroom.none

/-- What an unlisted key of `State.hostq` reads as. -/
def dfltHostq : Nat → HostQ := fun _ => HostQ.empty

/-- What an unlisted key of `State.ringLinks` reads as. -/
def dfltRingLinks : Nat → RingLink := fun _ => RingLink.empty

/-- The device while PERST# is asserted, which is how a reset begins (R500, R502). -/
def State.reset : State where
  pending := []
  free := 0
  outbox := []
  mem := []
  bad := []
  desk := []
  pg := []
  regs := []
  act := []
  pendc := []
  goBy := []
  msix := []
  threads := []
  acts := []
  ready := []
  delay := []
  ctxs := []
  banks := []
  fuq := []
  units := []
  hqueues := []
  icache := []
  learn := []
  engines := []
  dirRows := []
  dirShadow := []
  dir := ⟨[], []⟩
  ddrs := []
  bufs := []
  pools := []
  chans := []
  locks := []
  streams := []
  ports := []
  pipes := []
  admitQ := []
  terms := []
  classes := []
  hostq := []
  ringLinks := []
  sq := ⟨0, 0, 0, [], [], [], 0, [], 0, [], []⟩
  rc := ⟨0, [], 0, 0, [], [], []⟩
  cw := []
  ring := ⟨0, 0, [], [], [], [], false, false, 0⟩
  gb := ⟨[], [], [], false, none, 0⟩
  fc := ⟨[], []⟩
  tb := ⟨0, 0, none, none⟩
  boot := BootState.zero
  tap := TapState.zero
  bg := []

/-- The value of key `k` of `State.mem`. -/
def State.memAt (s : State) (k : Nat) : Byte := s.mem.get dfltMem k

/-- The value of key `k` of `State.bad`. -/
def State.badAt (s : State) (k : Nat) : Bool := s.bad.get dfltBad k

/-- The value of key `k` of `State.desk`. -/
def State.deskAt (s : State) (k : Nat) : Byte := s.desk.get dfltDesk k

/-- The value of key `k` of `State.pg`. -/
def State.pgAt (s : State) (k : Nat) : Byte := s.pg.get dfltPg k

/-- The value of key `k` of `State.regs`. -/
def State.regsAt (s : State) (k : Nat) : Word := s.regs.get dfltRegs k

/-- The value of key `k` of `State.act`. -/
def State.actAt (s : State) (k : Nat) : Word := s.act.get dfltAct k

/-- The value of key `k` of `State.pendc`. -/
def State.pendcAt (s : State) (k : Nat) : Word := s.pendc.get dfltPendc k

/-- The value of key `k` of `State.goBy`. -/
def State.goByAt (s : State) (k : Nat) : Origin := s.goBy.get dfltGoBy k

/-- The value of key `k` of `State.msix`. -/
def State.msixAt (s : State) (k : Nat) : MsixEntry := s.msix.get dfltMsix k

/-- The value of key `k` of `State.threads`. -/
def State.threadsAt (s : State) (k : Nat) : Thread := s.threads.get dfltThreads k

/-- The value of key `k` of `State.acts`. -/
def State.actsAt (s : State) (k : Nat) : Option Act := s.acts.get dfltActs k

/-- The value of key `k` of `State.ready`. -/
def State.readyAt (s : State) (k : Nat) : List Nat := s.ready.get dfltReady k

/-- The value of key `k` of `State.delay`. -/
def State.delayAt (s : State) (k : Nat) : DelaySlot := s.delay.get dfltDelay k

/-- The value of key `k` of `State.ctxs`. -/
def State.ctxsAt (s : State) (k : Nat) : Ctx := s.ctxs.get dfltCtxs k

/-- The value of key `k` of `State.banks`. -/
def State.banksAt (s : State) (k : Nat) : Bank := s.banks.get dfltBanks k

/-- The value of key `k` of `State.fuq`. -/
def State.fuqAt (s : State) (k : Nat) : List FuItem := s.fuq.get dfltFuq k

/-- The value of key `k` of `State.units`. -/
def State.unitsAt (s : State) (k : Nat) : Option HelperRun := s.units.get dfltUnits k

/-- The value of key `k` of `State.hqueues`. -/
def State.hqueuesAt (s : State) (k : Nat) : List HelperWait := s.hqueues.get dfltHqueues k

/-- The value of key `k` of `State.icache`. -/
def State.icacheAt (s : State) (k : Nat) : List Byte := s.icache.get dfltIcache k

/-- The value of key `k` of `State.learn`. -/
def State.learnAt (s : State) (k : Nat) : Option Nat := s.learn.get dfltLearn k

/-- The value of key `k` of `State.engines`. -/
def State.enginesAt (s : State) (k : Nat) : Engine := s.engines.get dfltEngines k

/-- The value of key `k` of `State.dirRows`. -/
def State.dirRowsAt (s : State) (k : Nat) : DirRow := s.dirRows.get dfltDirRows k

/-- The value of key `k` of `State.dirShadow`. -/
def State.dirShadowAt (s : State) (k : Nat) : DirRow := s.dirShadow.get dfltDirShadow k

/-- The value of key `k` of `State.ddrs`. -/
def State.ddrsAt (s : State) (k : Nat) : Ddr := s.ddrs.get dfltDdrs k

/-- The value of key `k` of `State.bufs`. -/
def State.bufsAt (s : State) (k : Nat) : Buf := s.bufs.get dfltBufs k

/-- The value of key `k` of `State.pools`. -/
def State.poolsAt (s : State) (k : Nat) : Pool := s.pools.get dfltPools k

/-- The value of key `k` of `State.chans`. -/
def State.chansAt (s : State) (k : Nat) : Chan := s.chans.get dfltChans k

/-- The value of key `k` of `State.locks`. -/
def State.locksAt (s : State) (k : Nat) : Lock := s.locks.get dfltLocks k

/-- The value of key `k` of `State.streams`. -/
def State.streamsAt (s : State) (k : Nat) : Option Stream := s.streams.get dfltStreams k

/-- The value of key `k` of `State.ports`. -/
def State.portsAt (s : State) (k : Nat) : Port := s.ports.get dfltPorts k

/-- The value of key `k` of `State.pipes`. -/
def State.pipesAt (s : State) (k : Nat) : Pipe := s.pipes.get dfltPipes k

/-- The value of key `k` of `State.admitQ`. -/
def State.admitQAt (s : State) (k : Nat) : List Admitted := s.admitQ.get dfltAdmitQ k

/-- The value of key `k` of `State.terms`. -/
def State.termsAt (s : State) (k : Nat) : TermSlot := s.terms.get dfltTerms k

/-- The value of key `k` of `State.classes`. -/
def State.classesAt (s : State) (k : Nat) : Classroom := s.classes.get dfltClasses k

/-- The value of key `k` of `State.hostq`. -/
def State.hostqAt (s : State) (k : Nat) : HostQ := s.hostq.get dfltHostq k

/-- The value of key `k` of `State.ringLinks`. -/
def State.ringLinksAt (s : State) (k : Nat) : RingLink := s.ringLinks.get dfltRingLinks k

/-- Every map of the state is in its canonical form: keys strictly rising, no entry equal to the default. -/
def State.mapsWf (s : State) : Bool :=
  SMap.wf dfltMem s.mem &&
  SMap.wf dfltBad s.bad &&
  SMap.wf dfltDesk s.desk &&
  SMap.wf dfltPg s.pg &&
  SMap.wf dfltRegs s.regs &&
  SMap.wf dfltAct s.act &&
  SMap.wf dfltPendc s.pendc &&
  SMap.wf dfltGoBy s.goBy &&
  SMap.wf dfltMsix s.msix &&
  SMap.wf dfltThreads s.threads &&
  SMap.wf dfltActs s.acts &&
  SMap.wf dfltReady s.ready &&
  SMap.wf dfltDelay s.delay &&
  SMap.wf dfltCtxs s.ctxs &&
  SMap.wf dfltBanks s.banks &&
  SMap.wf dfltFuq s.fuq &&
  SMap.wf dfltUnits s.units &&
  SMap.wf dfltHqueues s.hqueues &&
  SMap.wf dfltIcache s.icache &&
  SMap.wf dfltLearn s.learn &&
  SMap.wf dfltEngines s.engines &&
  SMap.wf dfltDirRows s.dirRows &&
  SMap.wf dfltDirShadow s.dirShadow &&
  SMap.wf dfltDdrs s.ddrs &&
  SMap.wf dfltBufs s.bufs &&
  SMap.wf dfltPools s.pools &&
  SMap.wf dfltChans s.chans &&
  SMap.wf dfltLocks s.locks &&
  SMap.wf dfltStreams s.streams &&
  SMap.wf dfltPorts s.ports &&
  SMap.wf dfltPipes s.pipes &&
  SMap.wf dfltAdmitQ s.admitQ &&
  SMap.wf dfltTerms s.terms &&
  SMap.wf dfltClasses s.classes &&
  SMap.wf dfltHostq s.hostq &&
  SMap.wf dfltRingLinks s.ringLinks

end Sys2Proof.Machine
end

