-- ==== Sys2Proof/Machine/Update.lean ====
section
/-! DEFINITION. One change of the state (`Upd`), and the little programs (`M`) every meaning is written in: a program reads
the state as changed so far and makes further changes; `commit` answers the state it ends in.  No change touches the queue
of waiting commands. -/

namespace Sys2Proof.Machine

/-- One change of one field of the state. -/
inductive Upd
  | free (v : Nat)
  | outbox (v : List Out)
  | mem (k : Nat) (v : Byte)
  | bad (k : Nat) (v : Bool)
  | desk (k : Nat) (v : Byte)
  | pg (k : Nat) (v : Byte)
  | regs (k : Nat) (v : Word)
  | act (k : Nat) (v : Word)
  | pendc (k : Nat) (v : Word)
  | goBy (k : Nat) (v : Origin)
  | msix (k : Nat) (v : MsixEntry)
  | threads (k : Nat) (v : Thread)
  | acts (k : Nat) (v : Option Act)
  | ready (k : Nat) (v : List Nat)
  | delay (k : Nat) (v : DelaySlot)
  | ctxs (k : Nat) (v : Ctx)
  | banks (k : Nat) (v : Bank)
  | fuq (k : Nat) (v : List FuItem)
  | units (k : Nat) (v : Option HelperRun)
  | hqueues (k : Nat) (v : List HelperWait)
  | icache (k : Nat) (v : List Byte)
  | learn (k : Nat) (v : Option Nat)
  | engines (k : Nat) (v : Engine)
  | dirRows (k : Nat) (v : DirRow)
  | dirShadow (k : Nat) (v : DirRow)
  | dir (v : DirState)
  | ddrs (k : Nat) (v : Ddr)
  | bufs (k : Nat) (v : Buf)
  | pools (k : Nat) (v : Pool)
  | chans (k : Nat) (v : Chan)
  | locks (k : Nat) (v : Lock)
  | streams (k : Nat) (v : Option Stream)
  | ports (k : Nat) (v : Port)
  | pipes (k : Nat) (v : Pipe)
  | admitQ (k : Nat) (v : List Admitted)
  | terms (k : Nat) (v : TermSlot)
  | classes (k : Nat) (v : Classroom)
  | hostq (k : Nat) (v : HostQ)
  | ringLinks (k : Nat) (v : RingLink)
  | sq (v : SqState)
  | rc (v : RcState)
  | cw (v : List CwCtx)
  | ring (v : RingState)
  | gb (v : GbState)
  | fc (v : FcState)
  | tb (v : TimeState)
  | boot (v : BootState)
  | tap (v : TapState)
  | bg (v : List BgOp)
  /-- PERST#: every field at its reset value (the queue and the model's own fields stay) -/
  | toReset
  /-- a range of memory zeroed -/
  | memZero (lo n : Nat)
  /-- a range of the desks zeroed -/
  | deskZero (lo n : Nat)

/-- The state after a change. -/
def Upd.apply : Upd → State → State
  | .free v, s => { s with free := v }
  | .outbox v, s => { s with outbox := v }
  | .mem k v, s => { s with mem := s.mem.put dfltMem k v }
  | .bad k v, s => { s with bad := s.bad.put dfltBad k v }
  | .desk k v, s => { s with desk := s.desk.put dfltDesk k v }
  | .pg k v, s => { s with pg := s.pg.put dfltPg k v }
  | .regs k v, s => { s with regs := s.regs.put dfltRegs k v }
  | .act k v, s => { s with act := s.act.put dfltAct k v }
  | .pendc k v, s => { s with pendc := s.pendc.put dfltPendc k v }
  | .goBy k v, s => { s with goBy := s.goBy.put dfltGoBy k v }
  | .msix k v, s => { s with msix := s.msix.put dfltMsix k v }
  | .threads k v, s => { s with threads := s.threads.put dfltThreads k v }
  | .acts k v, s => { s with acts := s.acts.put dfltActs k v }
  | .ready k v, s => { s with ready := s.ready.put dfltReady k v }
  | .delay k v, s => { s with delay := s.delay.put dfltDelay k v }
  | .ctxs k v, s => { s with ctxs := s.ctxs.put dfltCtxs k v }
  | .banks k v, s => { s with banks := s.banks.put dfltBanks k v }
  | .fuq k v, s => { s with fuq := s.fuq.put dfltFuq k v }
  | .units k v, s => { s with units := s.units.put dfltUnits k v }
  | .hqueues k v, s => { s with hqueues := s.hqueues.put dfltHqueues k v }
  | .icache k v, s => { s with icache := s.icache.put dfltIcache k v }
  | .learn k v, s => { s with learn := s.learn.put dfltLearn k v }
  | .engines k v, s => { s with engines := s.engines.put dfltEngines k v }
  | .dirRows k v, s => { s with dirRows := s.dirRows.put dfltDirRows k v }
  | .dirShadow k v, s => { s with dirShadow := s.dirShadow.put dfltDirShadow k v }
  | .dir v, s => { s with dir := v }
  | .ddrs k v, s => { s with ddrs := s.ddrs.put dfltDdrs k v }
  | .bufs k v, s => { s with bufs := s.bufs.put dfltBufs k v }
  | .pools k v, s => { s with pools := s.pools.put dfltPools k v }
  | .chans k v, s => { s with chans := s.chans.put dfltChans k v }
  | .locks k v, s => { s with locks := s.locks.put dfltLocks k v }
  | .streams k v, s => { s with streams := s.streams.put dfltStreams k v }
  | .ports k v, s => { s with ports := s.ports.put dfltPorts k v }
  | .pipes k v, s => { s with pipes := s.pipes.put dfltPipes k v }
  | .admitQ k v, s => { s with admitQ := s.admitQ.put dfltAdmitQ k v }
  | .terms k v, s => { s with terms := s.terms.put dfltTerms k v }
  | .classes k v, s => { s with classes := s.classes.put dfltClasses k v }
  | .hostq k v, s => { s with hostq := s.hostq.put dfltHostq k v }
  | .ringLinks k v, s => { s with ringLinks := s.ringLinks.put dfltRingLinks k v }
  | .sq v, s => { s with sq := v }
  | .rc v, s => { s with rc := v }
  | .cw v, s => { s with cw := v }
  | .ring v, s => { s with ring := v }
  | .gb v, s => { s with gb := v }
  | .fc v, s => { s with fc := v }
  | .tb v, s => { s with tb := v }
  | .boot v, s => { s with boot := v }
  | .tap v, s => { s with tap := v }
  | .bg v, s => { s with bg := v }
  | .toReset, s => { State.reset with pending := s.pending, free := s.free, outbox := s.outbox }
  | .memZero lo n, s => { s with mem := s.mem.filter fun e => !(decide (lo ≤ e.1) && decide (e.1 < lo + n)) }
  | .deskZero lo n, s => { s with desk := s.desk.filter fun e => !(decide (lo ≤ e.1) && decide (e.1 < lo + n)) }

/-- A program. -/
abbrev M := StateM State

/-- Make one change. -/
def emit (u : Upd) : M Unit := fun s => ((), u.apply s)

/-- Read the state as changed so far. -/
def rd {α : Type} (f : State → α) : M α := fun s => (f s, s)

/-- A command's effect: the state its program ends in. -/
def commit (p : M Unit) (s : State) : Host.Outcome State Fault Refusal := .next (p s).2

/-- Run a program for each element of a list, in order. -/
def each {α : Type} : List α → (α → M Unit) → M Unit
  | [], _ => pure ()
  | x :: xs, f => do f x; each xs f

/-- Run a program only under a condition. -/
def onlyIf (c : Bool) (p : M Unit) : M Unit := if c then p else pure ()

/-- Map a list through a program. -/
def mapEach {α β : Type} : List α → (α → M β) → M (List β)
  | [], _ => pure []
  | x :: xs, f => do
    let y ← f x
    let ys ← mapEach xs f
    pure (y :: ys)

/-- Change `State.free`. -/
def modFree (f : Nat → Nat) : M Unit := do
  let x ← rd (·.free)
  emit (.free (f x))

/-- Change `State.outbox`. -/
def modOutbox (f : List Out → List Out) : M Unit := do
  let x ← rd (·.outbox)
  emit (.outbox (f x))

/-- Change the value of key `k` of `State.mem`. -/
def modMem (k : Nat) (f : Byte → Byte) : M Unit := do
  let x ← rd (·.memAt k)
  emit (.mem k (f x))

/-- Change the value of key `k` of `State.bad`. -/
def modBad (k : Nat) (f : Bool → Bool) : M Unit := do
  let x ← rd (·.badAt k)
  emit (.bad k (f x))

/-- Change the value of key `k` of `State.desk`. -/
def modDesk (k : Nat) (f : Byte → Byte) : M Unit := do
  let x ← rd (·.deskAt k)
  emit (.desk k (f x))

/-- Change the value of key `k` of `State.pg`. -/
def modPg (k : Nat) (f : Byte → Byte) : M Unit := do
  let x ← rd (·.pgAt k)
  emit (.pg k (f x))

/-- Change the value of key `k` of `State.regs`. -/
def modRegs (k : Nat) (f : Word → Word) : M Unit := do
  let x ← rd (·.regsAt k)
  emit (.regs k (f x))

/-- Change the value of key `k` of `State.act`. -/
def modAct (k : Nat) (f : Word → Word) : M Unit := do
  let x ← rd (·.actAt k)
  emit (.act k (f x))

/-- Change the value of key `k` of `State.pendc`. -/
def modPendc (k : Nat) (f : Word → Word) : M Unit := do
  let x ← rd (·.pendcAt k)
  emit (.pendc k (f x))

/-- Change the value of key `k` of `State.goBy`. -/
def modGoBy (k : Nat) (f : Origin → Origin) : M Unit := do
  let x ← rd (·.goByAt k)
  emit (.goBy k (f x))

/-- Change the value of key `k` of `State.msix`. -/
def modMsix (k : Nat) (f : MsixEntry → MsixEntry) : M Unit := do
  let x ← rd (·.msixAt k)
  emit (.msix k (f x))

/-- Change the value of key `k` of `State.threads`. -/
def modThreads (k : Nat) (f : Thread → Thread) : M Unit := do
  let x ← rd (·.threadsAt k)
  emit (.threads k (f x))

/-- Change the value of key `k` of `State.acts`. -/
def modActs (k : Nat) (f : Option Act → Option Act) : M Unit := do
  let x ← rd (·.actsAt k)
  emit (.acts k (f x))

/-- Change the value of key `k` of `State.ready`. -/
def modReady (k : Nat) (f : List Nat → List Nat) : M Unit := do
  let x ← rd (·.readyAt k)
  emit (.ready k (f x))

/-- Change the value of key `k` of `State.delay`. -/
def modDelay (k : Nat) (f : DelaySlot → DelaySlot) : M Unit := do
  let x ← rd (·.delayAt k)
  emit (.delay k (f x))

/-- Change the value of key `k` of `State.ctxs`. -/
def modCtxs (k : Nat) (f : Ctx → Ctx) : M Unit := do
  let x ← rd (·.ctxsAt k)
  emit (.ctxs k (f x))

/-- Change the value of key `k` of `State.banks`. -/
def modBanks (k : Nat) (f : Bank → Bank) : M Unit := do
  let x ← rd (·.banksAt k)
  emit (.banks k (f x))

/-- Change the value of key `k` of `State.fuq`. -/
def modFuq (k : Nat) (f : List FuItem → List FuItem) : M Unit := do
  let x ← rd (·.fuqAt k)
  emit (.fuq k (f x))

/-- Change the value of key `k` of `State.units`. -/
def modUnits (k : Nat) (f : Option HelperRun → Option HelperRun) : M Unit := do
  let x ← rd (·.unitsAt k)
  emit (.units k (f x))

/-- Change the value of key `k` of `State.hqueues`. -/
def modHqueues (k : Nat) (f : List HelperWait → List HelperWait) : M Unit := do
  let x ← rd (·.hqueuesAt k)
  emit (.hqueues k (f x))

/-- Change the value of key `k` of `State.icache`. -/
def modIcache (k : Nat) (f : List Byte → List Byte) : M Unit := do
  let x ← rd (·.icacheAt k)
  emit (.icache k (f x))

/-- Change the value of key `k` of `State.learn`. -/
def modLearn (k : Nat) (f : Option Nat → Option Nat) : M Unit := do
  let x ← rd (·.learnAt k)
  emit (.learn k (f x))

/-- Change the value of key `k` of `State.engines`. -/
def modEngines (k : Nat) (f : Engine → Engine) : M Unit := do
  let x ← rd (·.enginesAt k)
  emit (.engines k (f x))

/-- Change the value of key `k` of `State.dirRows`. -/
def modDirRows (k : Nat) (f : DirRow → DirRow) : M Unit := do
  let x ← rd (·.dirRowsAt k)
  emit (.dirRows k (f x))

/-- Change the value of key `k` of `State.dirShadow`. -/
def modDirShadow (k : Nat) (f : DirRow → DirRow) : M Unit := do
  let x ← rd (·.dirShadowAt k)
  emit (.dirShadow k (f x))

/-- Change `State.dir`. -/
def modDir (f : DirState → DirState) : M Unit := do
  let x ← rd (·.dir)
  emit (.dir (f x))

/-- Change the value of key `k` of `State.ddrs`. -/
def modDdrs (k : Nat) (f : Ddr → Ddr) : M Unit := do
  let x ← rd (·.ddrsAt k)
  emit (.ddrs k (f x))

/-- Change the value of key `k` of `State.bufs`. -/
def modBufs (k : Nat) (f : Buf → Buf) : M Unit := do
  let x ← rd (·.bufsAt k)
  emit (.bufs k (f x))

/-- Change the value of key `k` of `State.pools`. -/
def modPools (k : Nat) (f : Pool → Pool) : M Unit := do
  let x ← rd (·.poolsAt k)
  emit (.pools k (f x))

/-- Change the value of key `k` of `State.chans`. -/
def modChans (k : Nat) (f : Chan → Chan) : M Unit := do
  let x ← rd (·.chansAt k)
  emit (.chans k (f x))

/-- Change the value of key `k` of `State.locks`. -/
def modLocks (k : Nat) (f : Lock → Lock) : M Unit := do
  let x ← rd (·.locksAt k)
  emit (.locks k (f x))

/-- Change the value of key `k` of `State.streams`. -/
def modStreams (k : Nat) (f : Option Stream → Option Stream) : M Unit := do
  let x ← rd (·.streamsAt k)
  emit (.streams k (f x))

/-- Change the value of key `k` of `State.ports`. -/
def modPorts (k : Nat) (f : Port → Port) : M Unit := do
  let x ← rd (·.portsAt k)
  emit (.ports k (f x))

/-- Change the value of key `k` of `State.pipes`. -/
def modPipes (k : Nat) (f : Pipe → Pipe) : M Unit := do
  let x ← rd (·.pipesAt k)
  emit (.pipes k (f x))

/-- Change the value of key `k` of `State.admitQ`. -/
def modAdmitQ (k : Nat) (f : List Admitted → List Admitted) : M Unit := do
  let x ← rd (·.admitQAt k)
  emit (.admitQ k (f x))

/-- Change the value of key `k` of `State.terms`. -/
def modTerms (k : Nat) (f : TermSlot → TermSlot) : M Unit := do
  let x ← rd (·.termsAt k)
  emit (.terms k (f x))

/-- Change the value of key `k` of `State.classes`. -/
def modClasses (k : Nat) (f : Classroom → Classroom) : M Unit := do
  let x ← rd (·.classesAt k)
  emit (.classes k (f x))

/-- Change the value of key `k` of `State.hostq`. -/
def modHostq (k : Nat) (f : HostQ → HostQ) : M Unit := do
  let x ← rd (·.hostqAt k)
  emit (.hostq k (f x))

/-- Change the value of key `k` of `State.ringLinks`. -/
def modRingLinks (k : Nat) (f : RingLink → RingLink) : M Unit := do
  let x ← rd (·.ringLinksAt k)
  emit (.ringLinks k (f x))

/-- Change `State.sq`. -/
def modSq (f : SqState → SqState) : M Unit := do
  let x ← rd (·.sq)
  emit (.sq (f x))

/-- Change `State.rc`. -/
def modRc (f : RcState → RcState) : M Unit := do
  let x ← rd (·.rc)
  emit (.rc (f x))

/-- Change `State.cw`. -/
def modCw (f : List CwCtx → List CwCtx) : M Unit := do
  let x ← rd (·.cw)
  emit (.cw (f x))

/-- Change `State.ring`. -/
def modRing (f : RingState → RingState) : M Unit := do
  let x ← rd (·.ring)
  emit (.ring (f x))

/-- Change `State.gb`. -/
def modGb (f : GbState → GbState) : M Unit := do
  let x ← rd (·.gb)
  emit (.gb (f x))

/-- Change `State.fc`. -/
def modFc (f : FcState → FcState) : M Unit := do
  let x ← rd (·.fc)
  emit (.fc (f x))

/-- Change `State.tb`. -/
def modTb (f : TimeState → TimeState) : M Unit := do
  let x ← rd (·.tb)
  emit (.tb (f x))

/-- Change `State.boot`. -/
def modBoot (f : BootState → BootState) : M Unit := do
  let x ← rd (·.boot)
  emit (.boot (f x))

/-- Change `State.tap`. -/
def modTap (f : TapState → TapState) : M Unit := do
  let x ← rd (·.tap)
  emit (.tap (f x))

/-- Change `State.bg`. -/
def modBg (f : List BgOp → List BgOp) : M Unit := do
  let x ← rd (·.bg)
  emit (.bg (f x))

end Sys2Proof.Machine
end

