-- ==== Sys2Proof/Machine/Ops.lean ====
section
/-! DEFINITION. The operations every unit shares: reading and writing registers and memory bytes, counters, events and
MSI-X (R395), fault reports (R482, R483), host writes with their dirty-log marks (R390, R435) and Gradebook records
(R471 to R478). -/

namespace Sys2Proof.Machine

/-! Registers. -/

/-- A register's stored word: of an RW-S field the shadow. -/
def State.reg (s : State) (off : Nat) : Word := s.regsAt off

/-- A field as stored. -/
def State.fld (s : State) (off : Nat) (f : Fld) : Nat := f.get (s.regsAt off)

/-- The value in force of an RW-S field (R10, R460). -/
def State.inForce (s : State) (off : Nat) (f : Fld) : Nat := f.get (s.actAt off)

/-- Store a field. -/
def setFld (off : Nat) (f : Fld) (n : Nat) : M Unit := modRegs off fun w => f.set w n

/-- Store a field in both the shadow and the copy in force. -/
def setBoth (off : Nat) (f : Fld) (n : Nat) : M Unit := do
  modRegs off fun w => f.set w n
  modAct off fun w => f.set w n

/-- Add to a counter; counters wrap at 2^64. -/
def countBy (off n : Nat) : M Unit := modRegs off fun w => w + Word.ofNat n

/-- Count one. -/
def count (off : Nat) : M Unit := countBy off 1

/-- Draw the next number for a free value of `Config`. -/
def draw : M Nat := do
  let n ← rd (·.free)
  emit (.free (n + 1))
  pure n

/-! The operating modes (R509). -/

abbrev modeReset : Nat := 0
abbrev modeLoad : Nat := 1
abbrev modeStage : Nat := 2
abbrev modeService : Nat := 3
abbrev modeDegraded : Nat := 4
abbrev modeSafe : Nat := 5

/-- DEV_MODE.STATE. -/
def State.mode (s : State) : Nat := s.fld Reg.DEV_MODE Fld.DEV_MODE_STATE

/-- Whether the datapath runs (table "What runs in each mode"). -/
def State.datapathOn (s : State) : Bool := s.mode = modeService || s.mode = modeDegraded

/-- Whether threads run: in STAGE, SERVICE and DEGRADED all of them, in SAFE the Monitors. -/
def State.threadsOn (s : State) : Bool := s.mode = modeStage || s.datapathOn

/-- TIME in ns (R518). -/
def State.timeNs (s : State) : Nat := s.tb.time / 2 ^ 32 % 2 ^ 64

/-- MONO in ns (R518). -/
def State.monoNs (s : State) : Nat := s.tb.mono / 2 ^ 32 % 2 ^ 64

/-! What leaves the device. -/

/-- Send something out of the device. -/
def send (o : Out) : M Unit := modOutbox (o :: ·)

/-- BAR0 offset of the word of the MSI-X pending-bit array that holds entry `e` (R395). -/
def pbaOff (e : Nat) : Nat := 0x4E000 + e / 64 * 8

/-- Signal an MSI-X entry: a masked one becomes pending (R395). -/
def msixSignal (e : Nat) : M Unit := do
  let m ← rd (·.msixAt e)
  if m.masked then modRegs (pbaOff e) fun w => w ||| Word.ofNat (2 ^ (e % 64))
  else send (.msix e m.addr m.data)

/-- Raise event source `e`: MSI-X entry `e` below 240 (R395), and vector 1 of classroom `e − 160` (R427), where the grant gives
the classroom that entry: VECTORS, byte 14 of the grant (R420, R428). -/
def event (e : Nat) : M Unit := do
  onlyIf (decide (e < 240)) (msixSignal e)
  let owned ← rd fun s => decide (1 < leAt (s.classesAt (e - 160)).grant 14 1)
  onlyIf (decide (160 ≤ e ∧ e < 224) && owned) (msixSignal (256 + 16 * (e - 160) + 1))

/-- Set a status bit; one that goes from 0 to 1 raises event `e`. -/
def sticky (off : Nat) (f : Fld) (e : Nat) : M Unit := do
  let old ← rd (·.fld off f)
  if old = 0 then do
    setFld off f 1
    event e
  else pure ()

/-! Fault reports (R482, R483). -/

/-- The size of the fault log ring as SIZE_LOG2 gives it; 0 with none (R491). -/
def State.faultLog2 (s : State) : Nat :=
  let n := s.fld Reg.FC_LOG Fld.FC_LOG_SIZE_LOG2
  if n = 0 then 0 else min 20 (max 10 n)

/-- FC_EVENT.QUEUE_FULL is set while the collector's queue holds 256 (R483). -/
def queueFull : M Unit := do
  let f ← rd (·.fc)
  onlyIf (decide (256 ≤ f.queue.length)) (sticky Reg.FC_EVENT Fld.FC_EVENT_QUEUE_FULL 155)

/-- Hand a report to the collector's queue (R483). -/
def report (source cls cause : Nat) (unit : Option UnitId) (info : Nat) : M Unit := do
  modFc fun f => { f with queue := f.queue ++ [⟨source, cls, cause, unit, info⟩] }
  queueFull

/-- The fault classes C, U and F (R481). -/
abbrev clsC : Nat := 0
abbrev clsU : Nat := 1
abbrev clsF : Nat := 2

/-! Memory bytes (R6, R14). -/

/-- `n` bytes of memory from an internal address. -/
def State.bytes (s : State) (a n : Nat) : List Byte := (List.range n).map fun i => s.memAt (a + i)

/-- A little-endian number of `n` bytes in memory. -/
def State.leMem (s : State) (a n : Nat) : Nat := ofLeBytes (s.bytes a n)

/-- Write bytes to memory from an internal address on. -/
def writeMem : Nat → List Byte → M Unit
  | _, [] => pure ()
  | a, b :: bs => do
    emit (.mem a b)
    writeMem (a + 1) bs

/-- Internal base of Square memory, and of the memory of Street `s` (R14). -/
abbrev squareBase : Nat := 0x020000000000

/-- Byte `k` of the LOAD window, which Square memory backs from its first byte on (R393, R506; DESIGN CHOICE: the spec does not say
which part of Square memory). -/
def State.loadWinAt (s : State) (k : Nat) : Byte := s.memAt (squareBase + k)
def streetBase (s : Nat) : Nat := 0x010000000000 + s * 0x01000000

/-! Host writes with a classroom's PASID, and the dirty log (R390, R435). -/

/-- The PASID bound to a classroom. -/
def State.pasidOf (s : State) (c : Nat) : Nat := s.inForce (Reg.CL_BIND c) Fld.CL_BIND_PASID

/-- A number of the classroom's grant (R420). -/
def State.grantLe (s : State) (c off len : Nat) : Nat := leAt (s.classesAt c).grant off len

/-- Mark the dirty log for the pages from `page` on, `n` of them (R435). -/
def markPages (c : Nat) : Nat → Nat → M Unit
  | 0, _ => pure ()
  | n + 1, page => do
    let base ← rd (·.grantLe c 80 8)
    let len ← rd (·.fld (Reg.CL_DLOG_LEN c) Fld.CL_DLOG_LEN_PAGES)
    let map ← rd (·.reg (Reg.CL_DLOG_BASE c))
    if base / 4096 ≤ page ∧ page - base / 4096 < len then do
      send (.hostWrite none (map.toNat + (page - base / 4096)) [1])
      count (Reg.CL_CNT_DLOG_MARKS c)
    else sticky (Reg.CL_DLOG_LEN c) Fld.CL_DLOG_LEN_OVF (160 + c)
    markPages c n (page + 1)

/-- A device write to host memory, for a classroom (with its PASID, and marked while its log is on) or for the manager. -/
def hostWrite (c : Option Nat) (addr : Nat) (bs : List Byte) : M Unit := do
  match c with
  | none => send (.hostWrite none addr bs)
  | some c => do
    let p ← rd (·.pasidOf c)
    send (.hostWrite (some p) addr bs)
    let on ← rd (·.fld (Reg.CL_DLOG_LEN c) Fld.CL_DLOG_LEN_EN)
    onlyIf (on = 1 && !bs.isEmpty) (markPages c ((addr + bs.length - 1) / 4096 - addr / 4096 + 1) (addr / 4096))

/-! The Gradebook (R471 to R478). -/

/-- The ring's SIZE_LOG2 as it acts: 0 for no ring, else 10 to 24 (GB_CFG). -/
def State.gbLog2 (s : State) : Nat :=
  let n := s.fld Reg.GB_CFG Fld.GB_CFG_SIZE_LOG2
  if n = 0 then 0 else min 24 (max 10 n)

/-- DRAM address of slot 0 of the ring. -/
def State.gbBase (s : State) : Nat := s.fld Reg.GB_BASE Fld.GB_BASE_BASE * 4096

/-- Bytes 0 to 47 of a record (R473). -/
def GbRec.bytes48 (r : GbRec) : List Byte :=
  leBytes 8 r.time ++ leBytes 8 r.origin ++ leBytes 8 r.object ++ leBytes 8 r.old ++ leBytes 8 r.new ++ leBytes 8 r.seq

/-! Fenced units (R493, table "DEV_FENCE registers"). -/

/-- The DEV_FENCE word and bit of a unit. -/
def UnitId.fenceBit (u : UnitId) : Nat × Nat :=
  match u.kind with
  | .core => if u.idx < 64 then (Reg.DEV_FENCE_CORE_0, u.idx) else (Reg.DEV_FENCE_CORE_1, u.idx - 64)
  | .helper => if u.idx < 64 then (Reg.DEV_FENCE_HLP_0, u.idx) else (Reg.DEV_FENCE_HLP_1, u.idx - 64)
  | .street => (Reg.DEV_FENCE_MISC, u.idx)
  | .engine => (Reg.DEV_FENCE_MISC, 16 + u.idx)
  | .bank => (Reg.DEV_FENCE_MISC, 32 + u.idx)
  | .pipe => (Reg.DEV_FENCE_MISC, 36 + u.idx)
  | .lane => (Reg.DEV_FENCE_MISC, 40 + u.idx)
  | .ddr => (Reg.DEV_FENCE_MISC, 48 + u.idx)
  | .portGroup => (Reg.DEV_FENCE_MISC, 56 + u.idx)
  | .link => (Reg.DEV_FENCE_MISC, 58 + u.idx)

/-- Whether a unit is in Detention. -/
def State.fenced (s : State) (u : UnitId) : Bool :=
  bitOf (s.reg u.fenceBit.1).toNat u.fenceBit.2

/-- Set or clear a unit's DEV_FENCE bit. -/
def setFenceBit (u : UnitId) (b : Bool) : M Unit :=
  modRegs u.fenceBit.1 fun w => Word.ofNat (setBit w.toNat u.fenceBit.2 b)

/-- Whether any unit is in Detention. -/
def State.anyFenced (s : State) : Bool :=
  s.reg Reg.DEV_FENCE_CORE_0 != 0 || s.reg Reg.DEV_FENCE_CORE_1 != 0 || s.reg Reg.DEV_FENCE_HLP_0 != 0 ||
  s.reg Reg.DEV_FENCE_HLP_1 != 0 || s.reg Reg.DEV_FENCE_MISC != 0

/-- Whether a unit is on its way into Detention. -/
def State.fencing (s : State) (u : UnitId) : Bool := s.fc.fencing.any fun f => f.unit = u

/-- The event source of a unit (R482, table "Fault sources"); a helper's is its Street's (R490). -/
def UnitId.source (u : UnitId) : Nat :=
  match u.kind with
  | .core => u.idx
  | .street => 96 + u.idx
  | .helper => 96 + u.idx / 6
  | .engine => 108 + u.idx
  | .bank => 124 + u.idx
  | .pipe => 129 + u.idx
  | .lane => 133 + u.idx
  | .ddr => 139 + u.idx
  | .portGroup => 147 + u.idx
  | .link => 149 + u.idx

/-- The unit a source reports for, if it has one of its own (R499). -/
def sourceUnit (n : Nat) : Option UnitId :=
  if n < 96 then some ⟨.core, n⟩
  else if n < 108 then some ⟨.street, n - 96⟩
  else if n < 124 then some ⟨.engine, n - 108⟩
  else if n < 128 then some ⟨.bank, n - 124⟩
  else if 129 ≤ n ∧ n < 133 then some ⟨.pipe, n - 129⟩
  else if 133 ≤ n ∧ n < 137 then some ⟨.lane, n - 133⟩
  else if 139 ≤ n ∧ n < 147 then some ⟨.ddr, n - 139⟩
  else if n = 147 ∨ n = 148 then some ⟨.portGroup, n - 147⟩
  else if n = 149 ∨ n = 150 then some ⟨.link, n - 149⟩
  else none

/-! Roundabout links (R446). -/

/-- A Roundabout link as a fenceable unit. -/
abbrev linkUnit (l : Nat) : UnitId := ⟨.link, l⟩

/-- Whether a link carries frames: the device has joined, the link is selected and up, and it is not in Detention. -/
def State.ringRuns (s : State) (l : Nat) : Bool :=
  s.fld Reg.RB_STATUS Fld.RB_STATUS_JOINED = 1 &&
    s.inForce Reg.RB_CFG (if l = 0 then Fld.RB_CFG_EAST_EN else Fld.RB_CFG_WEST_EN) = 1 &&
    (s.ringLinksAt l).up && !(s.fenced (linkUnit l) || s.fencing (linkUnit l))

/-- Whether a link is in service (R446, R455). -/
def State.ringUp (s : State) (l : Nat) : Bool :=
  let k := s.ringLinksAt l
  s.ringRuns l && k.current && !k.leaving && !k.conflict

/-- The link a frame for device `d` leaves by, and whether it is turned; `none` with no link in service (R446). -/
def State.ringRoute (s : State) (d : Nat) : Option (Nat × Bool) :=
  let first := bit (bitOf (s.reg (Reg.RB_ROUTE (d % 4096 / 64))).toNat (d % 64))
  if s.ringUp first then some (first, false)
  else if s.ringUp (1 - first) then some (1 - first, true)
  else none

end Sys2Proof.Machine
end

