-- ==== Sys2Proof/Machine/TableBase.lean ====
section
/-! DEFINITION. Ledger tables as the engines' descriptors lay them out (R293 to R297): descriptors, stripes, candidate
buckets and the bytes of an entry. -/

namespace Sys2Proof.Machine

/-- BAR0 offset of word `w` of the descriptor of table `t` (R295). -/
def tableWordOff (t w : Nat) : Nat := 0x108000 + t % 64 * 0x40 + w * 8

/-- The descriptor in six words. -/
def TableDesc.ofWords (w0 w1 w2 w3 w4 w5 : Nat) : TableDesc where
  kind := bitsOf w0 1 0
  esize := 16 * 2 ^ bitsOf w0 3 2
  key16 := bitOf w0 4
  evict := bitsOf w0 6 5
  touch := bitOf w0 7
  learn := bitOf w0 8
  decay := bitOf w0 9
  mirror := bitOf w0 10
  par := bitOf w0 11
  bypass := bitOf w0 12
  valid := bitOf w0 13
  engBase := bitsOf w0 19 16
  engLog2 := min 4 (bitsOf w0 22 20)
  classroom := bitsOf w0 29 24
  bucketsLog2 := bitsOf w0 36 32
  base := bitsOf w1 47 12 * 4096
  span := bitsOf w2 47 12 * 4096
  mirrorOff := bitsOf w3 47 12 * 4096
  count := bitsOf w4 31 0
  salt := bitsOf w4 63 32
  periodUs := max 1 (bitsOf w5 31 0)

/-- The descriptor of table `t`. -/
def State.table (s : State) (t : Nat) : TableDesc :=
  let w := fun k => (s.reg (tableWordOff t k)).toNat
  TableDesc.ofWords (w 0) (w 1) (w 2) (w 3) (w 4) (w 5)

abbrev kindHash : Nat := 1
abbrev kindArray : Nat := 2
abbrev kindCounter : Nat := 3

/-- Bytes of a table's key. -/
def TableDesc.keyLen (d : TableDesc) : Nat := if d.key16 then 16 else 8

/-- A key as the table takes it (R297). -/
def TableDesc.keyOf (d : TableDesc) (key : Nat) : Nat := key % 2 ^ (8 * d.keyLen)

/-- The bytes both hashes run over: the key, then the table number (R297). -/
def TableDesc.hashBytes (d : TableDesc) (t key : Nat) : List Byte := leBytes d.keyLen key ++ leBytes 1 t

/-- The hash h1 of a key (R297). -/
def TableDesc.h1 (d : TableDesc) (t key : Nat) : Nat := crc32c (d.hashBytes t key)
/-- The hash h2 of a key (R297). -/
def TableDesc.h2 (d : TableDesc) (t key : Nat) : Nat := crc32cSeed d.salt (d.hashBytes t key)

/-- The stripe of an entry (R294). -/
def TableDesc.stripe (d : TableDesc) (t key : Nat) : Nat :=
  if d.kind = kindHash then d.h1 t key / 2 ^ 28 % 2 ^ d.engLog2 else key % 2 ^ d.engLog2

/-- The engine an entry's stripe lies on (R294). -/
def TableDesc.engine (d : TableDesc) (t key : Nat) : Nat := (d.engBase + d.stripe t key) % 16

/-- The candidate buckets of a key (R297). -/
def TableDesc.buckets (d : TableDesc) (t key : Nat) : Nat × Nat :=
  let b1 := d.h1 t key % 2 ^ d.bucketsLog2
  let b2 := d.h2 t key % 2 ^ d.bucketsLog2
  (b1, if b2 = b1 then b1 ^^^ 1 else b2)

/-- DRAM address of a stripe's region. -/
def TableDesc.stripeBase (d : TableDesc) (st : Nat) : Nat := d.base + st * d.span

/-- DRAM address of way `w` of bucket `b` of a stripe (R297). -/
def TableDesc.slot (d : TableDesc) (st b w : Nat) : Nat := d.stripeBase st + b * 4 * d.esize + w * d.esize

/-- DRAM address of an array entry (R294). -/
def TableDesc.elem (d : TableDesc) (i : Nat) : Nat :=
  d.stripeBase (i % 2 ^ d.engLog2) + i / 2 ^ d.engLog2 * d.esize

/-- The four ways of a bucket. -/
def TableDesc.ways (d : TableDesc) (st b : Nat) : List Nat := [d.slot st b 0, d.slot st b 1, d.slot st b 2, d.slot st b 3]

/-- The engine that serves the stripes of engine `m`: itself, or the first of the next ones in service (R318). -/
def State.serving (s : State) (m : Nat) : Nat :=
  ((List.range 16).map fun k => (m + k) % 16).find? (fun n => !s.fenced ⟨.engine, n⟩) |>.getD m

/-- The engine that takes a lookup. -/
def State.lookupEngine (s : State) (r : LookupReq) : Nat :=
  let d := s.table r.table
  s.serving (d.engine r.table (d.keyOf r.key))

/-- The descriptor of a table whose TABLE_DELETE is unfinished (R319). -/
def State.dying (s : State) (t : Nat) : Option TableDesc :=
  s.bg.findSome? fun b => match b.kind with
    | .tableDelete k d => if k = t then some d else none
    | _ => none

/-- Whether a TABLE_DELETE of a table is unfinished (R319). -/
def State.tableDying (s : State) (t : Nat) : Bool := (s.dying t).isSome

/-- The tables whose regions are the engines' own: the valid ones, and those whose TABLE_DELETE has not released them (R293,
R319). -/
def State.regions (s : State) : List TableDesc :=
  ((List.range 64).map s.table).filter (·.valid) ++ (List.range 64).filterMap s.dying

/-- Whether an address lies in a stripe region of a table, or in its secondary copy. -/
def TableDesc.covers (d : TableDesc) (a : Nat) : Bool :=
  (List.range (2 ^ d.engLog2)).any fun st =>
    let b := d.stripeBase st
    decide (b ≤ a ∧ a < b + d.span) || (d.mirror && decide (b + d.mirrorOff ≤ a ∧ a < b + d.mirrorOff + d.span))

/-- Records that an apply log of 1 MiB keeps, at 256 bytes each (R305). -/
abbrev logRecords : Nat := 4096

/-- Whether an address lies in a region that only table engines write (R293). -/
def State.inStripe (s : State) (a : Nat) : Bool := s.regions.any (·.covers a)

end Sys2Proof.Machine
end

