-- ==== Sys2Proof/Machine/Dram.lean ====
section
/-! DEFINITION. DRAM (R339 to R357): which channel and which row an address lies on, the requests a controller holds,
and how units of the device read and write memory (R14, R293, R347, R356, R494). -/

namespace Sys2Proof.Machine

/-! Address mapping (R340 to R343). -/

/-- A DDR channel as a fenceable unit. -/
abbrev ddrUnit (n : Nat) : UnitId := ⟨.ddr, n⟩

/-- Whether channel `n` is enabled. -/
def State.ddrEn (s : State) (n : Nat) : Bool := s.fld (Reg.DDR_CFG n) Fld.DDR_CFG_EN = 1

/-- The capacity of a channel, as a power of two: that of the first enabled one (R340, R341). -/
def State.capLog2 (s : State) : Nat :=
  match findBelow 8 s.ddrEn with
  | some n => s.fld (Reg.DDR_CFG n) Fld.DDR_CFG_CAP_LOG2
  | none => 32

/-- DDR_ILV.MODE; 3 acts as 0. -/
def State.ilv (s : State) : Nat := s.fld Reg.DDR_ILV Fld.DDR_ILV_MODE % 3

/-- Whether all eight channels are enabled. -/
def State.allDdr (s : State) : Bool := (List.range 8).all s.ddrEn

/-- The channel of an internal address and its channel address; `none` for an unmapped one (R340, R341). -/
def State.dramLoc (s : State) (a : Nat) : Option (Nat × Nat) :=
  let c := 2 ^ s.capLog2
  if a ≥ 0x008000000000 ∨ 8 * c ≤ a then none
  else if s.ilv = 0 then
    if s.ddrEn (a / c) then some (a / c, a % c) else none
  else if !s.allDdr then none
  else if s.ilv = 1 then some (bitsOf a 14 12, a / 2 ^ 15 * 2 ^ 12 + a % 2 ^ 12)
  else
    let t := s.capLog2 + 3
    some (bitsOf a 14 13 * 2 + bitsOf a (t - 1) (t - 1), bitsOf a (t - 2) 15 * 2 ^ 13 + a % 2 ^ 13)

/-- The channel of an internal address. -/
def State.dramChan (s : State) (a : Nat) : Option Nat := (s.dramLoc a).map Prod.fst

/-- Rank bits of a channel. -/
def State.rankBits (s : State) (n : Nat) : Nat :=
  match s.fld (Reg.DDR_CFG n) Fld.DDR_CFG_RANKS with
  | 0 => 0 | 1 => 1 | _ => 2

/-- DRAM coordinates of a byte within a channel (R342): rank, bank group, bank, row, column, and byte within the beat. -/
structure DramPlace where
  rank : Nat
  group : Nat
  bank : Nat
  row : Nat
  column : Nat
  byte : Nat
  deriving DecidableEq, Repr

/-- Where a channel address lies in the DRAM (R342). -/
def State.dramPlace (s : State) (n ca : Nat) : DramPlace :=
  let k := s.rankBits n
  let r := s.fld (Reg.DDR_CFG n) Fld.DDR_CFG_ROW_BITS
  let take := fun lo w => ca / 2 ^ lo % 2 ^ w
  match s.fld (Reg.DDR_CFG n) Fld.DDR_CFG_MAP with
  | 0 => ⟨take 17 k, take 13 2, take 15 2, take (17 + k) r, take 3 10, take 0 3⟩
  | 1 => ⟨take (17 + r) k, take 13 2, take 15 2, take 17 r, take 3 10, take 0 3⟩
  | 2 => ⟨take 13 k, take (13 + k) 2, take (15 + k) 2, take (17 + k) r, take 3 10, take 0 3⟩
  | _ => ⟨take 17 k, take 10 2, take 15 2, take (17 + k) r, take 3 7 + take 12 3 * 2 ^ 7, take 0 3⟩

/-! Requests at a controller (R349 to R351, R355). -/

/-- Whether a channel takes no requests: it is in Detention, or on its way there (R356). -/
def State.ddrOut (s : State) (n : Nat) : Bool := s.fenced (ddrUnit n) || s.fencing (ddrUnit n)

/-- Whether the DRAM of a channel is initialised (R345). -/
def State.ddrInit (s : State) (n : Nat) : Bool := s.fld (Reg.DDR_STATUS n) Fld.DDR_STATUS_INIT_DONE = 1

/-- Whether a channel answers a request now: it is initialised, in D0, and no full queue holds requesters back (R345, R350, R355);
a fenced one answers as R356 says. -/
def State.ddrReady (s : State) (n : Nat) : Bool :=
  s.ddrOut n ||
    (s.ddrInit n && s.fld (Reg.DDR_STATUS n) Fld.DDR_STATUS_RUNG_ACT = 0 && (s.ddrsAt n).held.isEmpty)

/-- Whether a read of DRAM at an address can be answered now. -/
def State.dramReady (s : State) (a : Nat) : Bool := (s.dramChan a).all s.ddrReady

/-- The reads a channel controller has not issued. -/
def Ddr.reads (d : Ddr) : List DdrReq := d.readQ ++ d.urgentQ ++ d.held.filter (!·.write)

/-- Whether a read that requester `who` has made of some lines is outstanding (R347, R349). -/
def State.readsOut (s : State) (who : Nat) (ls : List Nat) : Bool :=
  ls.any fun l => (s.dramChan l).any fun n => (s.ddrsAt n).reads.any fun q => q.who == who && q.lines.contains l

/-- Whether a channel answers the reads it has issued: it is initialised and in D0, or fenced (R345, R355, R356). -/
def State.ddrAnswers (s : State) (n : Nat) : Bool :=
  s.ddrOut n || (s.ddrInit n && s.fld (Reg.DDR_STATUS n) Fld.DDR_STATUS_RUNG_ACT = 0)

/-- Whether the reads that requester `who` has made of some lines are answered. -/
def State.answered (s : State) (who : Nat) (ls : List Nat) : Bool :=
  ls.all (fun l => (s.dramChan l).all s.ddrAnswers) && !s.readsOut who ls

/-- PANIC_LVL as it acts (R351). -/
def State.panicLvl (s : State) (n : Nat) : Nat := min 16 (max 1 (s.inForce (Reg.DDR_SCHED n) Fld.DDR_SCHED_PANIC_LVL))

/-- DDR_STATUS.PANIC (R351). -/
def State.panic (s : State) (n : Nat) : Bool := decide (s.panicLvl n ≤ (s.ddrsAt n).urgentQ.length)

/-- WR_HI and WR_LO as they act. -/
def State.wrHi (s : State) (n : Nat) : Nat := s.inForce (Reg.DDR_SCHED n) Fld.DDR_SCHED_WR_HI
def State.wrLo (s : State) (n : Nat) : Nat := min (s.wrHi n) (s.inForce (Reg.DDR_SCHED n) Fld.DDR_SCHED_WR_LO)

/-- The address of a request's first line. -/
def DdrReq.addr (q : DdrReq) : Nat := q.lines.headD 0

/-- The key of an address's bank among the open rows, and its row. -/
def State.rowOf (s : State) (n : Nat) (a : Nat) : Nat × Nat :=
  match s.dramLoc a with
  | some (_, ca) => let p := s.dramPlace n ca; (p.rank * 16 + p.group * 4 + p.bank, p.row)
  | none => (0, 0)

/-- Whether a request hits an open row. -/
def State.rowHit (s : State) (n : Nat) (q : DdrReq) : Bool :=
  let (k, w) := s.rowOf n q.addr
  (s.ddrsAt n).openRow.get (fun _ => none) k = some w

/-- The earlier of two requests. -/
def earlierReq (a b : Option DdrReq) : Option DdrReq :=
  match a, b with
  | some x, some y => if y.seq < x.seq then some y else some x
  | some x, none => some x
  | none, y => y

/-- The request the command bus is granted to next, if any (R350, steps 2 to 5): with PANIC the oldest urgent request; a write
while the write queue drains; a row hit, oldest first, urgent before normal, the normal ones past a waiting urgent request at
most HIT_CAP times in a row; the oldest urgent request, then the oldest normal one. -/
def State.grantPick (s : State) (n : Nat) : Option DdrReq :=
  let d := s.ddrsAt n
  let normal := fun (f : List DdrReq → Option DdrReq) => earlierReq (f d.readQ) (f d.writeQ)
  let hit := fun (l : List DdrReq) => l.find? (s.rowHit n)
  let mayPass := d.urgentQ.isEmpty || decide (d.passes < s.inForce (Reg.DDR_SCHED n) Fld.DDR_SCHED_HIT_CAP)
  if s.panic n then d.urgentQ.head?
  else if d.draining && !d.writeQ.isEmpty then d.writeQ.head?
  else (hit d.urgentQ).orElse fun _ => (if mayPass then normal hit else none).orElse fun _ =>
    (d.urgentQ.head?).orElse fun _ => normal List.head?

/-- The lines that some requests name. -/
def linesIn (l : List DdrReq) : Nat := (l.map (·.lines.length)).sum

/-- Whether the queue a request belongs to has room for its lines: 64 normal reads, 16 urgent ones, 32 writes (R349). -/
def Ddr.room (d : Ddr) (q : DdrReq) : Bool :=
  if q.write then decide (linesIn d.writeQ + q.lines.length ≤ 32)
  else if q.urgent then decide (linesIn d.urgentQ + q.lines.length ≤ 16) else decide (linesIn d.readQ + q.lines.length ≤ 64)

/-- Whether two requests belong to one queue. -/
def DdrReq.mates (p q : DdrReq) : Bool := p.write == q.write && (p.write || p.urgent == q.urgent)

/-- Whether a request can enter its queue: it has room, and no earlier request to it is held back. -/
def Ddr.admits (d : Ddr) (q : DdrReq) : Bool := d.room q && !d.held.any (·.mates q)

/-- A queue without the reads of some lines, which the write queue serves (R349). -/
def unread (ls : List Nat) (l : List DdrReq) : List DdrReq :=
  (l.map fun q => { q with lines := q.lines.filter (!ls.contains ·) }).filter (!·.lines.isEmpty)

/-- A request enters its queue.  Lines that wait in the write queue are read from there, never from DRAM (R349). -/
def Ddr.enter (d : Ddr) (q : DdrReq) : Ddr :=
  if q.write then
    { d with writeQ := d.writeQ ++ [q], readQ := unread q.lines d.readQ, urgentQ := unread q.lines d.urgentQ }
  else
    let new := unread (d.writeQ.flatMap (·.lines)) [q]
    if q.urgent then { d with urgentQ := d.urgentQ ++ new } else { d with readQ := d.readQ ++ new }

/-- Requests that were held back enter their queues, oldest first, while there is room. -/
def Ddr.letIn (d : Ddr) : Ddr :=
  d.held.foldl (fun d q => if d.admits q then d.enter q else { d with held := d.held ++ [q] }) { d with held := [] }

/-- Take a request out of its queue. -/
def Ddr.leave (d : Ddr) (q : DdrReq) : Ddr :=
  if q.write then { d with writeQ := d.writeQ.erase q }
  else if q.urgent then { d with urgentQ := d.urgentQ.erase q } else { d with readQ := d.readQ.erase q }

/-- Issue one request of a controller: its row is opened, and stays open (R350, R351). -/
def ddrIssue (n : Nat) (q : DdrReq) : M Unit := do
  let hit ← rd (·.rowHit n q)
  let (k, w) ← rd (·.rowOf n q.addr)
  let lo ← rd (·.wrLo n)
  let hi ← rd (·.wrHi n)
  modDdrs n fun d =>
    let passes := if hit && !q.urgent && !d.draining && !d.urgentQ.isEmpty then d.passes + 1 else 0
    let d := ({ d.leave q with openRow := d.openRow.put (fun _ => none) k (some w), passes := passes }).letIn
    { d with draining := (d.draining && decide (lo < linesIn d.writeQ)) || decide (hi ≤ linesIn d.writeQ) }
  countBy (if q.write then Reg.DDR_CNT_WRITES n else Reg.DDR_CNT_READS n) q.lines.length
  onlyIf (!q.write && q.urgent) (countBy (Reg.DDR_CNT_URGENT_READS n) q.lines.length)
  count (if hit then Reg.DDR_CNT_ROW_HITS n else Reg.DDR_CNT_ROW_MISSES n)

/-- A line as it stands, as a queued write would find it. -/
def State.lineNow (s : State) (a : Nat) : OldLine :=
  ⟨s.bytes (alignDown a 64) 64, (List.range 4).map fun i => s.badAt (alignDown a 64 + 16 * i)⟩

/-- Hand a request for lines of one row to its controller: a full queue holds its requester back (R349, R350). -/
def ddrRequest (req : DdrReq) : M Unit := do
  let n ← rd (·.dramChan req.addr)
  match n with
  | none => pure ()
  | some n => do
    let out ← rd (·.ddrOut n)
    onlyIf (!out) do
      let hi ← rd (·.wrHi n)
      let below ← rd fun s => s.fld (Reg.DDR_STATUS n) Fld.DDR_STATUS_RUNG_ACT != 0
      modDdrs n fun d =>
        let q := { req with seq := d.arrived }
        let d := { d with arrived := d.arrived + 1, waking := d.waking || below }
        let d := if d.admits q then d.enter q else { d with held := d.held ++ [q] }
        { d with draining := d.draining || decide (hi ≤ linesIn d.writeQ) }

/-- The line addresses that `len` bytes from `a` touch. -/
def linesOf (a len : Nat) : List Nat :=
  if len = 0 then [] else (List.range ((a + len - 1) / 64 - a / 64 + 1)).map fun i => (a / 64 + i) * 64

/-- What a read request gives for the line before it. -/
abbrev noLine : OldLine := ⟨[], []⟩

/-- A read request. -/
abbrev readReq (who : Nat) (lines : List Nat) (urgent : Bool) : DdrReq := ⟨lines, false, urgent, 0, noLine, who, 0, []⟩

/-- The source of a unit of the device that has none of its own (R361). -/
abbrev squareSource : Nat := 155

/-- The line reads of an access by a requester. -/
def touch (who a len : Nat) (urgent : Bool) : M Unit := each (linesOf a len) fun l => ddrRequest (readReq who [l] urgent)

/-- The reads of an access within one row, as one request (R298, R343). -/
def touchRow (who a len : Nat) (urgent : Bool) : M Unit := ddrRequest (readReq who (linesOf a len) urgent)

/-! Reading (R346, R347, R494). -/

/-- The addresses of the 16-byte parts that `len` bytes from `a` touch.  A part is the smallest table entry: one entry of a line
that cannot be read is repaired without the others (R315). -/
def partsOf (a len : Nat) : List Nat :=
  if len = 0 then [] else (List.range ((a + len - 1) / 16 - a / 16 + 1)).map fun i => (a / 16 + i) * 16

/-- Whether some byte of an access cannot be read: its check code is uncorrectable, or its channel takes no requests (R347,
R356). -/
def State.anyBad (s : State) (a len : Nat) : Bool :=
  (partsOf a len).any s.badAt || (linesOf a len).any fun l => (s.dramChan l).any s.ddrOut

/-- Whether a line cannot be read. -/
def State.lineBad (s : State) (a : Nat) : Bool := s.anyBad (alignDown a 64) 64

/-- A line's check code becomes uncorrectable, or good. -/
def markLine (a : Nat) (bad : Bool) : M Unit := each (partsOf (alignDown a 64) 64) fun g => emit (.bad g bad)

/-- The source that reports lost data at an address: its DDR channel, its Street, or 155 for Square memory (R483). -/
def State.dataSource (s : State) (a : Nat) : Nat × Option UnitId :=
  match s.dramChan a with
  | some n => (139 + n, some (ddrUnit n))
  | none =>
    if 0x010000000000 ≤ a ∧ a < streetBase 12 then (96 + (a - 0x010000000000) / 0x01000000, none) else (155, none)

/-- An uncorrectable read is counted, logged and reported (R347, R483). -/
def reportBad (a : Nat) : M Unit := do
  let (src, u) ← rd (·.dataSource a)
  let n ← rd (·.dramChan a)
  match n with
  | some n => do
    let dev ← draw
    count (Reg.DDR_CNT_UNCORR n)
    emit (.regs (Reg.DDR_ERR_LOG n) (Word.ofNat (alignDown a 64 % 2 ^ 48 + 2 ^ 48 + Config.random dev % 18 * 2 ^ 49)))
    sticky (Reg.DDR_EVENT n) Fld.DDR_EVENT_UNCORR (139 + n)
  | none => pure ()
  report src clsU 0x02 u (alignDown a 64)

/-- The lines of an access that cannot be read are reported. -/
def reportBads (a len : Nat) : M Unit := do
  let ls ← rd fun s => (linesOf a len).filter s.lineBad
  each ls reportBad

/-- A range of the internal physical map (R14) as memory of the device: DRAM, Street memory, Square memory. -/
inductive Region
  | dram | street (s : Nat) | square | regs | host | remote | unmapped
  deriving DecidableEq, Repr

/-- The region of an internal address (R14). -/
def State.region (s : State) (a : Nat) : Region :=
  if a < 0x008000000000 then (if (s.dramChan a).isSome then .dram else .unmapped)
  else if 0x010000000000 ≤ a ∧ a < streetBase 12 then
    (if (a - 0x010000000000) % 0x01000000 < 0x400000 then .street ((a - 0x010000000000) / 0x01000000) else .unmapped)
  else if squareBase ≤ a ∧ a < squareBase + 0x04000000 then .square
  else if 0x030000000000 ≤ a ∧ a < 0x030004000000 then .regs
  else if 0x040000000000 ≤ a ∧ a < 0x050000000000 then .host
  else if 0x050000000000 ≤ a ∧ a < 0x054000000000 then .remote
  else .unmapped

/-! Writing. -/

/-- Whether an address lies in the Gradebook ring (R477, R479). -/
def State.inGbRing (s : State) (a : Nat) : Bool :=
  s.gbLog2 != 0 && decide (s.gbBase ≤ a ∧ a < s.gbBase + 64 * 2 ^ s.gbLog2)

/-- Who writes: a table engine, the Gradebook's hasher, any other unit. -/
inductive Writer
  | engine | hasher | other
  deriving DecidableEq, Repr

/-- Whether a write of a line takes effect: a stripe region is the table engines' (R293), the Gradebook ring is the hasher's
(R479), a channel that takes no requests and a fenced Street take no writes (R356, R494), and an unmapped address none
(R13). -/
def State.lineTakes (s : State) (a : Nat) (w : Writer) : Bool :=
  match s.region a with
  | .dram => !(s.dramChan a).any s.ddrOut && (w == .engine || !s.inStripe a) && (w != .other || !s.inGbRing a)
  | .street k => !s.fenced ⟨.street, k⟩
  | .square => true
  | _ => false

/-- Bytes that lie in one line are written; the parts written whole read well again. -/
def setLine (a : Nat) (bs : List Byte) : M Unit := do
  writeMem a bs
  each ((partsOf a bs.length).filter fun g => decide (a ≤ g ∧ g + 16 ≤ a + bs.length)) fun g => emit (.bad g false)

/-- Requester `who` writes bytes that lie in one line, and the write is queued at the line's controller. -/
def putLine (who a : Nat) (bs : List Byte) : M Unit := do
  let old ← rd (·.lineNow a)
  setLine a bs
  ddrRequest ⟨[alignDown a 64], true, false, 0, old, who, a, bs⟩

/-- The channel of an address at which writes wait: its DRAM is not initialised yet, or AtomicOps wait there (R345, R355). -/
def State.rawChan (s : State) (a : Nat) : Option Nat :=
  (s.dramChan a).filter fun n => !s.ddrInit n || !(s.ddrsAt n).early.isEmpty

/-- A write or an AtomicOp waits at a channel, which is on its way back to D0. -/
def addEarly (n : Nat) (e : EarlyWrite) : M Unit := do
  let below ← rd fun s => s.fld (Reg.DDR_STATUS n) Fld.DDR_STATUS_RUNG_ACT != 0
  modDdrs n fun d => { d with early := d.early ++ [e], waking := d.waking || below }

/-- A unit writes bytes that lie in one line; before INIT_DONE the write waits (R345). -/
def storeLine (w : Writer) (who a : Nat) (bs : List Byte) : M Unit := do
  let ok ← rd (·.lineTakes a w)
  let raw ← rd (·.rawChan a)
  onlyIf ok (match raw with
    | some n => addEarly n ⟨a, bs, who, none⟩
    | none => putLine who a bs)

/-- Cut an access at line boundaries. -/
def cutLines : Nat → Nat → List Byte → List (Nat × List Byte)
  | 0, _, _ => []
  | n + 1, a, bs =>
    if bs.isEmpty then [] else
      let k := 64 - a % 64
      (a, bs.take k) :: cutLines n (a + k) (bs.drop k)

/-- A write by a unit of the device, `who` its source. -/
def store (who a : Nat) (bs : List Byte) : M Unit :=
  each (cutLines (bs.length / 64 + 2) a bs) fun l => storeLine .other who l.1 l.2

/-- A write by table engine `n`. -/
def engineStore (n a : Nat) (bs : List Byte) : M Unit :=
  each (cutLines (bs.length / 64 + 2) a bs) fun l => storeLine .engine (108 + n) l.1 l.2

/-! The rows of the controllers. -/

/-- Ranks of a channel. -/
def State.ranks (s : State) (n : Nat) : Nat := s.fld (Reg.DDR_CFG n) Fld.DDR_CFG_RANKS + 1

/-- The rank of an address on its channel. -/
def State.rankOf (s : State) (n a : Nat) : Nat := (s.rowOf n a).1 / 16

/-- Whether a request waits for a rank. -/
def State.rankBusy (s : State) (n r : Nat) (urgentOnly : Bool) : Bool :=
  let d := s.ddrsAt n
  d.urgentQ.any (fun q => s.rankOf n q.addr = r) ||
    (!urgentOnly && (d.readQ ++ d.writeQ).any fun q => s.rankOf n q.addr = r)

/-- A rank's refresh closes its rows (R352). -/
def refreshRank (n r : Nat) : M Unit := do
  modDdrs n fun d => { d with openRow := d.openRow.filter (fun e => e.1 / 16 != r)
                              owed := d.owed.put (fun _ => 0) r (d.owed.get (fun _ => 0) r - 1) }
  count (Reg.DDR_CNT_REFRESHES n)

/-- A forced refresh (R352). -/
def refreshForced (n r : Nat) : M Unit := do
  refreshRank n r
  count (Reg.DDR_CNT_REF_FORCED n)

/-- Refreshes a rank owes. -/
def State.owed (s : State) (n r : Nat) : Nat := (s.ddrsAt n).owed.get (fun _ => 0) r

/-- Whether a channel is running its DRAM itself: in service, initialised, its rung not one of self-refresh. -/
def State.ddrRuns (s : State) (n : Nat) : Bool :=
  decide (n < 8) && s.ddrEn n && !s.fenced (ddrUnit n) &&
  s.ddrInit n && decide (s.fld (Reg.DDR_STATUS n) Fld.DDR_STATUS_RUNG_ACT < 2)

/-- REFRESH: a rank that owes a refresh is refreshed, once it has no request waiting and PANIC is clear, or at once when
it owes eight (R352). -/
def execRefresh (n r : Nat) (s : State) : Host.Outcome State Fault Refusal :=
  commit (do
    let owed ← rd (·.owed n r)
    let on ← rd fun s => s.ddrRuns n && decide (r < s.ranks n)
    let free ← rd fun s => !s.panic n && !s.rankBusy n r false
    onlyIf (on && decide (0 < owed) && (free || decide (8 ≤ owed)))
      (if 8 ≤ owed then refreshForced n r else refreshRank n r)) s

/-- ZQCS: a short calibration of a rank, under the conditions of R353; it closes no page (R351). -/
def execZqcs (n r : Nat) (s : State) : Host.Outcome State Fault Refusal :=
  commit (do
    let ok ← rd fun s => s.ddrRuns n && decide (r < s.ranks n) && !s.panic n && (s.ddrsAt n).urgentQ.isEmpty &&
      decide (s.owed n r ≤ 6)
    onlyIf ok (modDdrs n fun d =>
      { d with calibrations := d.calibrations.put (fun _ => 0) r (d.calibrations.get (fun _ => 0) r + 1) })) s

/-! The check code (R346, R347). -/

/-- What the check code makes of a line in which some 4-bit columns of the 18 err (R346).  Of x4 devices a column is a device,
of x8 devices half of one.  What it makes of more than it is said to correct or detect is free. -/
def eccOf (n : Nat) (errs : List Nat) : M EccOutcome := do
  let x4 ← rd fun s => s.fld (Reg.DDR_CFG n) Fld.DDR_CFG_X8 == 0
  let k ← draw
  let free := if Config.random k % 3 = 0 then .good else if Config.random k % 3 = 1 then .corrected else .uncorrectable
  pure (match (errs.map (· % 18)).eraseDups with
    | [] => .good
    | [_] => .corrected
    | [a, b] => if x4 || a / 2 == b / 2 then .uncorrectable else free
    | _ => free)

/-- The position of the device a column belongs to (DDR_ERR_LOG). -/
def State.eccDevice (s : State) (n : Nat) (errs : List Nat) : Nat :=
  let c := errs.headD 0 % 18
  if s.fld (Reg.DDR_CFG n) Fld.DDR_CFG_X8 = 0 then c else c / 2

/-- A corrected read (R347). -/
def ddrCorrected (n a dev : Nat) : M Unit := do
  count (Reg.DDR_CNT_CORR n)
  emit (.regs (Reg.DDR_ERR_LOG n) (Word.ofNat (alignDown a 64 % 2 ^ 48 + dev * 2 ^ 49)))
  sticky (Reg.DDR_EVENT n) Fld.DDR_EVENT_CORR (139 + n)
  let wb ← rd (·.inForce (Reg.DDR_SCHED n) Fld.DDR_SCHED_WB_CORR)
  let old ← rd (·.lineNow a)
  onlyIf (wb = 1) (ddrRequest ⟨[alignDown a 64], true, false, 0, old, 139 + n, 0, []⟩)
  report (139 + n) clsC 0x01 (some (ddrUnit n)) (alignDown a 64)

/-- A controller has read a line of its DRAM in which some columns err: corrected, or uncorrectable from then on (R346, R347). -/
def lineRead (n a : Nat) (errs : List Nat) : M Unit := do
  let known ← rd fun s => (partsOf (alignDown a 64) 64).any s.badAt
  let dev ← rd (·.eccDevice n errs)
  let ecc ← eccOf n errs
  if known then reportBad a
  else match ecc with
    | .good => pure ()
    | .corrected => ddrCorrected n a dev
    | .uncorrectable => do
      markLine a true
      reportBad a

/-- A line that a request has read for an engine and found uncorrectable is not kept in its cache (R292, R347). -/
def uncache (who a : Nat) : M Unit :=
  onlyIf (decide (108 ≤ who ∧ who < 124)) do
    let bad ← rd fun s => (partsOf (alignDown a 64) 64).any s.badAt
    onlyIf bad (modEngines (who - 108) fun e => { e with cache := e.cache.erase (alignDown a 64) })

/-- One grant of the command bus (R350): a forced refresh, else a request, in whose lines, if it is a read, the columns
`errs` err, line by line.  A forced refresh that becomes ready stands in front of every request, which keeps its place. -/
def ddrGrant (n : Nat) (errs : List (List Nat)) : M Unit := do
  let forced ← rd fun s => if s.ddrRuns n then (List.range (s.ranks n)).find? fun r => decide (8 ≤ s.owed n r) else none
  let ready ← rd fun s => s.ddrInit n && s.fld (Reg.DDR_STATUS n) Fld.DDR_STATUS_RUNG_ACT = 0 && !s.ddrOut n
  let q ← rd (·.grantPick n)
  match forced, q with
  | some r, _ => refreshForced n r
  | none, some q => onlyIf ready do
    ddrIssue n q
    onlyIf (!q.write) (each (q.lines.zipIdx) fun x => do
      let e := errs.getD x.2 []
      onlyIf (!e.isEmpty) (lineRead n x.1 e)
      uncache q.who x.1)
  | none, none => pure ()

/-- DRAM_COMMAND_GRANT: one grant of the command bus (R347, R350). -/
def execDramCommandGrant (n : Nat) (errs : List (List Nat)) (s : State) : Host.Outcome State Fault Refusal :=
  commit (onlyIf (decide (n < 8)) (ddrGrant n errs)) s

/-- The internal address of a channel address: the inverse of `dramLoc` (R340). -/
def State.dramAddr (s : State) (n ca : Nat) : Nat :=
  if s.ilv = 0 then n * 2 ^ s.capLog2 + ca
  else if s.ilv = 1 then ca / 2 ^ 12 * 2 ^ 15 + n * 2 ^ 12 + ca % 2 ^ 12
  else n % 2 * 2 ^ (s.capLog2 + 2) + ca / 2 ^ 13 * 2 ^ 15 + n / 2 * 2 ^ 13 + ca % 2 ^ 13

/-- PATROL_SCRUB: the scrubber reads the next line of its channel, in which the columns `errs` err (R346 to R348). -/
def execPatrolScrub (n : Nat) (errs : List Nat) (s : State) : Host.Outcome State Fault Refusal :=
  commit (do
    let on ← rd fun s => s.ddrRuns n && !s.panic n && s.inForce (Reg.DDR_SCHED n) Fld.DDR_SCHED_SCRUB_H != 0 &&
      s.ddrReady n
    onlyIf on do
      let line ← rd fun s => (s.ddrsAt n).scrub
      let a ← rd (·.dramAddr n (line * 64))
      let cap ← rd (·.capLog2)
      modDdrs n fun d => { d with scrub := (line + 1) % 2 ^ (cap - 6) }
      count (Reg.DDR_CNT_SCRUB_LINES n)
      touch (139 + n) a 64 false
      lineRead n a errs) s

/-! Temperature (R354). -/

/-- DDR_STATUS.REF_2X and the temperature range that MR2 of the DRAM selects change together; a rise sets the HOT event
(R354). -/
def setRef2x (n : Nat) (on : Bool) : M Unit := do
  let was ← rd (·.fld (Reg.DDR_STATUS n) Fld.DDR_STATUS_REF_2X)
  setFld (Reg.DDR_STATUS n) Fld.DDR_STATUS_REF_2X (bit on)
  modDdrs n fun d => { d with extended := on }
  onlyIf (on && was = 0) (sticky (Reg.DDR_EVENT n) Fld.DDR_EVENT_HOT (139 + n))

/-- A Celsius reading as its register's signed byte. -/
def tempByte (t : Int) : Nat := (BitVec.ofInt 8 t).toNat

/-- DIMM_SENSOR_READ: one reading of a slot's thermal sensor, or the third failed one in a row (R354). -/
def execDimmSensorRead (n slot : Nat) (reading : Option Int) (s : State) : Host.Outcome State Fault Refusal :=
  commit (do
    let on ← rd fun s => decide (n < 8 ∧ slot < 2) && s.ddrEn n &&
      bitOf (s.fld (Reg.DDR_CFG n) Fld.DDR_CFG_SLOTS) slot &&
      s.inForce (Reg.DDR_THERM n) Fld.DDR_THERM_SENSOR_EN = 1
    onlyIf on do
      let hot ← rd fun s => signedOf 8 (s.inForce (Reg.DDR_THERM n) Fld.DDR_THERM_HOT_C)
      let limit ← rd fun s => signedOf 8 (s.inForce (Reg.DDR_THERM n) Fld.DDR_THERM_LIMIT_C)
      let slots ← rd fun s => s.fld (Reg.DDR_CFG n) Fld.DDR_CFG_SLOTS
      let was ← rd (·.fld (Reg.DDR_STATUS n) Fld.DDR_STATUS_REF_2X)
      match reading with
      | some t => do
        setFld (Reg.DDR_STATUS n) (if slot = 0 then Fld.DDR_STATUS_TEMP0 else Fld.DDR_STATUS_TEMP1) (tempByte t)
        modDdrs n fun d => { d with blind := d.blind.filter (· != slot), seen := if d.seen.contains slot then d.seen else slot :: d.seen }
        onlyIf (decide (limit ≤ t)) (sticky (Reg.DDR_EVENT n) Fld.DDR_EVENT_OVERTEMP (139 + n))
      | none => do
        modDdrs n fun d => { d with blind := if d.blind.contains slot then d.blind else slot :: d.blind }
        sticky (Reg.DDR_EVENT n) Fld.DDR_EVENT_SENSOR_FAIL (139 + n)
      let t0 ← rd fun s => signedOf 8 (s.fld (Reg.DDR_STATUS n) Fld.DDR_STATUS_TEMP0)
      let t1 ← rd fun s => signedOf 8 (s.fld (Reg.DDR_STATUS n) Fld.DDR_STATUS_TEMP1)
      let d ← rd (·.ddrsAt n)
      let isHot := fun (k : Nat) (t : Int) => bitOf slots k &&
        (d.blind.contains k || decide (hot < t))
      let unread := (List.range 2).any fun k => bitOf slots k && !d.seen.contains k
      setRef2x n (isHot 0 t0 || isHot 1 t1 || (unread && was = 1))) s

/-- DDR_RUNG_DESCEND: a channel with no request for PD_IDLE goes down to its permitted rung (R355). -/
def execDdrRungDescend (n : Nat) (s : State) : Host.Outcome State Fault Refusal :=
  commit (do
    let rung ← rd (·.fld (Reg.DDR_PWR n) Fld.DDR_PWR_RUNG)
    let act ← rd (·.fld (Reg.DDR_STATUS n) Fld.DDR_STATUS_RUNG_ACT)
    let d ← rd (·.ddrsAt n)
    let on ← rd fun s => decide (n < 8) && s.ddrEn n && !s.fenced (ddrUnit n) &&
      s.ddrInit n && s.inForce (Reg.DDR_SCHED n) Fld.DDR_SCHED_PD_IDLE != 0
    onlyIf (on && decide (act < rung) && d.urgentQ.isEmpty && d.readQ.isEmpty && d.writeQ.isEmpty && d.held.isEmpty) do
      setFld (Reg.DDR_STATUS n) Fld.DDR_STATUS_RUNG_ACT rung
      modDdrs n fun d => { d with openRow := [] }
      onlyIf (decide (2 ≤ rung ∧ act < 2)) (count (Reg.DDR_CNT_SR_ENTRIES n))) s

/-- A refresh interval passes: every rank of the channel owes one more, up to eight (R352). -/
def owePass (n : Nat) : M Unit := do
  let on ← rd (·.ddrRuns n)
  let r ← rd (·.ranks n)
  onlyIf on (modDdrs n fun d =>
    { d with owed := (List.range r).foldl (fun m k => m.put (fun _ => 0) k (min 8 (m.get (fun _ => 0) k + 1))) d.owed })

/-- The refresh interval of a channel in ps (R352): TREFI in tCK, halved while REF_2X. -/
def State.refreshPs (s : State) (n : Nat) : Nat :=
  let tck := match s.fld (Reg.DDR_CFG n) Fld.DDR_CFG_RATE with
    | 0 => 625 | 1 => 750 | _ => 833
  max 1 (s.fld (Reg.DDR_TIM2 n) Fld.DDR_TIM2_TREFI * tck / (1 + s.fld (Reg.DDR_STATUS n) Fld.DDR_STATUS_REF_2X))

/-- A timebase tick of 4 ns passes at a channel: at the end of a refresh interval its ranks owe one more (R352). -/
def ddrTick (n : Nat) : M Unit := do
  let on ← rd (·.ddrRuns n)
  let due ← rd (·.refreshPs n)
  let t ← rd fun s => (s.ddrsAt n).sinceRefresh + 4000
  onlyIf on (if due ≤ t then do
      modDdrs n fun d => { d with sinceRefresh := t - due }
      owePass n
    else modDdrs n fun d => { d with sinceRefresh := t })

end Sys2Proof.Machine
end

