-- ==== Sys2Proof/Machine/Gradebook.lean ====
section
/-! DEFINITION. The Gradebook (R471 to R478): records, their chain hash, and the ring that keeps them. -/

namespace Sys2Proof.Machine

/-- Put a whole record in its slot of the ring; one that overwrites an unarchived record is counted (R478). -/
def gbStore (seq : Nat) (rec64 : List Byte) : M Unit := do
  let k ← rd (·.gbLog2)
  let base ← rd (·.gbBase)
  let start ← rd (·.gb.ringStart)
  let arch ← rd (·.reg Reg.GB_ARCHIVED)
  onlyIf (decide (start + 2 ^ k ≤ seq ∧ arch.toNat ≤ seq - 2 ^ k)) do
    count Reg.GB_CNT_LOST_UNARCHIVED
    sticky Reg.GB_EVENT Fld.GB_EVENT_OVERWRITE 154
  storeLine .hasher 154 (base + seq % 2 ^ k * 64) rec64

/-- Complete the oldest record of the hasher queue: chain its hash and store it (R476, R477). -/
def gbHashOne : M Unit := do
  let g ← rd (·.gb)
  match g.queue with
  | [] => pure ()
  | r :: rest => do
    let h := (sha256 (g.hash ++ r.bytes48)).take 16
    emit (.gb { g with queue := rest, hash := h })
    count Reg.GB_CNT_RECORDS
    let k ← rd (·.gbLog2)
    if k = 0 then
      modGb fun g => { g with sram := ((r.bytes48 ++ h) :: g.sram).take 4096
                              dropped := g.dropped || decide (4096 ≤ g.sram.length) }
    else gbStore r.seq (r.bytes48 ++ h)

/-- Whether the next SEQ is THRESH or more beyond GB_ARCHIVED (R478). -/
def State.gbDue (s : State) : Bool :=
  decide (s.inForce Reg.GB_CFG Fld.GB_CFG_THRESH ≤
    ((s.reg Reg.GB_STATUS).toNat + 2 ^ 64 - (s.reg Reg.GB_ARCHIVED).toNat) % 2 ^ 64)

/-- Whatever makes the distance reach THRESH sets the bit: a record, a THRESH that takes effect, a GB_ARCHIVED written lower
(R478). -/
def gbTrack (body : M Unit) : M Unit := do
  let was ← rd (·.gbDue)
  body
  let now ← rd (·.gbDue)
  onlyIf (now && !was) (sticky Reg.GB_EVENT Fld.GB_EVENT_THRESH 154)

/-- Put a record in the hasher queue.  With the queue full the source waits for the hasher to complete one record
(R472); the last of the 1,024 entries is the fault collector's (R485). -/
def gbRecord (o : Origin) (kind action id old new : Nat) : M Unit := do
  let g ← rd (·.gb)
  onlyIf (decide ((if o.kind = 6 then 1024 else 1023) ≤ g.queue.length)) gbHashOne
  let t ← rd (·.timeNs)
  let seq ← rd fun s => (s.reg Reg.GB_STATUS).toNat
  modGb fun g => { g with queue := g.queue ++
    [⟨t, o.word, kind * 2 ^ 56 + action * 2 ^ 48 + id % 2 ^ 48, old, new, seq⟩] }
  gbTrack (emit (.regs Reg.GB_STATUS (Word.ofNat (seq + 1))))

/-- Change DEV_MODE.STATE: a record of kind mode, and event 159 (R509). -/
def setMode (o : Origin) (m : Nat) : M Unit := do
  let old ← rd (·.mode)
  gbRecord o 8 1 0 old m
  setFld Reg.DEV_MODE Fld.DEV_MODE_STATE m
  sticky Reg.DEV_EVENT Fld.DEV_EVENT_MODE_CHANGE 159

end Sys2Proof.Machine
end

