-- ==== Sys2Proof/Machine/Flags.lean ====
section
/-! DEFINITION. The condition flags of a thread (R223), what each instruction computes them from (R234, R238, R245,
R246), and the 32 event flags (table "Thread event flags"). -/

namespace Sys2Proof.Machine

/-- FLAGS as a number, in the layout of control register 0x002. -/
def Flags.toNat (f : Flags) : Nat := bit f.z + 2 * bit f.s + 4 * bit f.u + 8 * bit f.hb

/-- FLAGS from a number. -/
def Flags.ofNat (n : Nat) : Flags := ⟨bitOf n 0, bitOf n 1, bitOf n 2, bitOf n 3⟩

/-- No flag set. -/
def Flags.clear : Flags := ⟨false, false, false, false⟩

/-- CMP and CMPI (R234, R235): equal, signed less-than, unsigned less-than; HB unchanged. -/
def Flags.cmp (f : Flags) (a b : Word) : Flags := { f with z := a == b, s := a.slt b, u := a.ult b }

/-- TST (R234). -/
def Flags.tst (f : Flags) (a b : Word) : Flags := { f with z := (a &&& b) == 0, s := (a &&& b).msb, u := false }

/-- CHRD with a word (R245): end mark, abort mark. -/
def Flags.chanWord (f : Flags) (e a : Bool) : Flags := { f with z := e, s := a, u := false }

/-- CHRD.NB of an empty channel (R245). -/
def Flags.chanEmpty (f : Flags) : Flags := { f with z := false, s := false, u := true }

/-- Whether a branch condition holds (R238); `none` for conditions 13 to 30, which raise UNDEF. -/
def condHolds (c : Nat) (f : Flags) : Option Bool :=
  match c with
  | 0 => some true
  | 1 => some f.z
  | 2 => some (!f.z)
  | 3 => some f.s
  | 4 => some (!f.s)
  | 5 => some f.u
  | 6 => some (!f.u)
  | 7 => some (f.s || f.z)
  | 8 => some (!f.s && !f.z)
  | 9 => some (f.u || f.z)
  | 10 => some (!f.u && !f.z)
  | 11 => some f.hb
  | 12 => some (!f.hb)
  | 31 => some true
  | _ => none

abbrev evFaultNotify : Nat := 0
abbrev evTimer : Nat := 1
abbrev evChannel : Nat := 2
abbrev evLockGrant : Nat := 3
abbrev evHelperDone : Nat := 4
abbrev evPreempt : Nat := 5
abbrev evTermChange : Nat := 6
abbrev evDebug : Nat := 7

/-- Set an event flag of a thread; a thread that waits on it is woken by FLAG_WAKE (R205). -/
def setFlag (t f : Nat) : M Unit :=
  onlyIf (decide (t < 768)) (modThreads t fun th => { th with evf := th.evf ||| BitVec.ofNat 32 (2 ^ f) })

/-- Clear an event flag of a thread. -/
def clearFlag (t f : Nat) : M Unit :=
  modThreads t fun th => { th with evf := th.evf &&& ~~~ BitVec.ofNat 32 (2 ^ f) }

/-- Whether a thread's event flag is set. -/
def Thread.flag (th : Thread) (f : Nat) : Bool := bitOf th.evf.toNat f

end Sys2Proof.Machine
end

