-- ==== Sys2Proof/Machine/Operands.lean ====
section
/-! DEFINITION. Where an instruction's operands are: general registers (R222), bank registers (R226), banked pointers
(R227, R228), and what a thread is (R3, R4, R204). -/

namespace Sys2Proof.Machine

/-- The core, 0 to 95, of a thread (R3, R5). -/
abbrev coreOf (t : Nat) : Nat := t / 8
/-- The Street of a thread (R3). -/
abbrev streetOf (t : Nat) : Nat := t / 64
/-- The number of a thread within its core. -/
abbrev thrOf (t : Nat) : Nat := t % 8

/-- The offset of a core register, for core `k` of the device. -/
def coreReg (r : Nat → Nat → Nat) (k : Nat) : Nat := r (k / 8) (k % 8)

/-- Whether a thread is the Monitor of its core (R5). -/
def isMonitor (t : Nat) : Bool := t % 8 = 0

/-- Whether a number names a thread (R4). -/
def isThread (t : Nat) : Bool := t < 768

/-- The thread `t`. -/
def State.thread (s : State) (t : Nat) : Thread := s.threadsAt t

/-- The CORE_THR register of a thread. -/
def thrReg (t : Nat) : Nat := Reg.CORE_THR (t / 64) (t / 8 % 8) (t % 8)

/-- The classroom a thread is bound to, by the binding in force (R204); a Monitor is never bound (R5). -/
def State.boundTo (s : State) (t : Nat) : Option Nat :=
  if isMonitor t || !isThread t then none
  else if s.inForce (thrReg t) Fld.CORE_THR_BOUND = 1 then some (s.inForce (thrReg t) Fld.CORE_THR_CLASSROOM) else none

/-- The classroom generation (R430). -/
def State.clgen (s : State) (c : Nat) : Nat := s.fld (Reg.CL_BIND c) Fld.CL_BIND_GEN

/-- The generation of a thread's classroom, 0 for an unbound thread. -/
def State.threadClgen (s : State) (t : Nat) : Nat := (s.boundTo t).elim 0 s.clgen

/-- Whether a thread holds its core's seat (R162). -/
def State.isSeat (s : State) (t : Nat) : Bool :=
  let o := coreReg Reg.CORE_STATUS (coreOf t)
  s.fld o Fld.CORE_STATUS_SEAT_VALID = 1 && s.fld o Fld.CORE_STATUS_SEAT_THR = thrOf t

/-- Whether a core holds a seat. -/
def State.coreHasSeat (s : State) (k : Nat) : Bool := s.fld (coreReg Reg.CORE_STATUS k) Fld.CORE_STATUS_SEAT_VALID = 1

/-- A thread's weight: how many slots of the Timetable in force name it. -/
def State.weight (s : State) (t : Nat) : Nat :=
  let w := (s.actAt (coreReg Reg.CORE_TT (coreOf t))).toNat
  (List.range 16).countP fun k => bitsOf w (4 * k + 3) (4 * k) = thrOf t

/-- A general register (R222). -/
def Thread.gr (th : Thread) (r : Nat) : Word := if r = 0 then 0 else th.g.get (fun _ => 0) r

/-- A thread with a general register written; a write to G0 is discarded (R222). -/
def Thread.setG (th : Thread) (r : Nat) (v : Word) : Thread :=
  if r = 0 then th else { th with g := th.g.put (fun _ => 0) r v }

/-- What BK0 always reads (R226). -/
def bk0 : Word := 0xC000000000000000

/-- A bank register (R226). -/
def Thread.bank (th : Thread) (i : Nat) : Word := if i = 0 then bk0 else th.bk.get (fun _ => 0) i

/-- A thread with BK1 to BK7 written; BK0 is fixed (R226). -/
def Thread.setBank (th : Thread) (i : Nat) (v : Word) : Thread :=
  if i = 0 then th else { th with bk := th.bk.put (fun _ => 0) i v }

/-- What BKLD makes of a value: bits [47:18] the base, VALID set, DESK clear (R229). -/
def bankOf (w : Word) : Word := (w &&& 0x0000FFFFFFFC0000) ||| 0x8000000000000000

/-- An address an instruction forms: within the desk of its core, or in the internal physical map. -/
structure Ea where
  desk : Bool
  addr : Nat
  deriving DecidableEq, Repr

/-- The bank number of a banked pointer (R228). -/
def ptrBank (p : Word) : Nat := bitsOf p.toNat 20 18
/-- The offset of a banked pointer (R228). -/
def ptrOff (p : Word) : Nat := bitsOf p.toNat 17 0

/-- The address of offset `off` in the window of bank `b`; `none` while the bank is not VALID (R227, R230). -/
def Thread.ea (th : Thread) (b off : Nat) : Option Ea :=
  let w := th.bank b
  if w.msb then some ⟨bitOf w.toNat 62, bitsOf w.toNat 47 18 * 2 ^ 18 + off % 2 ^ 18⟩ else none

/-- The address of a banked pointer moved by a signed displacement within its window (R228). -/
def Thread.ptrEa (th : Thread) (p : Word) (disp : Nat) : Option Ea := th.ea (ptrBank p) ((ptrOff p + disp) % 2 ^ 18)

/-- A 16-bit displacement, sign-extended, modulo the window (R228). -/
def disp16 (off : Nat) : Nat := (sextW 16 off).toNat % 2 ^ 18

/-- A banked pointer with its offset advanced modulo the window (R236, R237). -/
def ptrAdvance (p : Word) (n : Nat) : Word :=
  Word.ofNat (p.toNat / 2 ^ 18 * 2 ^ 18 + (ptrOff p + n) % 2 ^ 18)

/-- A program counter `n` bytes on. -/
def Thread.pcPlus (th : Thread) (n : Nat) : Addr := th.pc + BitVec.ofNat 48 n

/-- The mask a wait acts on: for a Monitor flag 0 is always included (R205). -/
def waitMask (t : Nat) (mask : BitVec 32) : BitVec 32 := if isMonitor t then mask ||| 1 else mask

end Sys2Proof.Machine
end

