-- ==== Sys2Proof/Machine/ThreadOps.lean ====
section
/-! DEFINITION. How an instruction of a thread ends and how it begins to wait (R203, R214, R216). -/

namespace Sys2Proof.Machine

/-- Whether a thread holds an open channel packet (R214). -/
def State.openPacket (s : State) (t : Nat) : Bool := s.chans.any fun e => e.2.writer = some t

/-- A thread at the instruction boundary behind an instruction: it runs on at `pc`, unless it is halted, was stepped, or
has a halt pending that may take effect (R214, R216). -/
def Thread.finish (th : Thread) (pc : Addr) (openPkt : Bool) : Thread :=
  let th := { th with pc := pc, wait := .none }
  if th.state = .halted then { th with heldState := .running }
  else if th.stepping then { th with state := .halted, heldState := .running, stepping := false }
  else if th.haltPending && !openPkt then { th with state := .halted, heldState := .running, haltPending := false }
  else { th with state := .running }

/-- End the instruction of a thread: apply `f` to the thread and go on at `pc`. -/
def finishAt (t : Nat) (pc : Addr) (f : Thread → Thread) : M Unit := do
  let o ← rd (·.openPacket t)
  modThreads t fun th => (f th).finish pc o

/-- End the instruction of a thread and go on behind it. -/
def finishNext (t : Nat) (f : Thread → Thread) : M Unit := do
  let th ← rd (·.thread t)
  finishAt t (th.pcPlus 4) f

/-- The instruction of a thread begins to wait. -/
def enterWait (t : Nat) (w : Wait) : M Unit := modThreads t fun th => { th with state := .waiting, wait := w }

/-- Whether a thread is inside a non-interruptible REP, one of whose repetitions waits (R255). -/
def Thread.midRep (th : Thread) : Bool :=
  match th.wait with
  | .copyLoad _ _ _ (some r) _ | .chwrxLoad _ _ _ (some r) _ | .chWrite _ _ _ _ (some r) => !r.inter
  | _ => false

/-- Whether a thread waits in an instruction, halted or not (R216, R384). -/
def Thread.waiting (th : Thread) : Bool := th.state = .waiting || (th.state = .halted && th.heldState = .waiting)

/-- Whether a thread stands blocked in GETWORK, halted or not. -/
def Thread.idling (th : Thread) : Bool := th.state = .idle || (th.state = .halted && th.heldState = .idle)

/-- Address and size of the load a thread waits for; `none` if it waits for none. -/
def Thread.loading (th : Thread) : Option (Nat × Nat) :=
  if !th.waiting then none else match th.wait with
  | .load _ a n => some (a.toNat, n)
  | .copyLoad _ _ n _ a => some (a.toNat, n)
  | .chwrxLoad _ _ _ _ a => some (a.toNat, 8)
  | .cas _ _ a => some (a.toNat, 8)
  | .staging _ _ _ _ _ a => some (a.toNat, 8)
  | _ => none

/-- Whether a thread is free to issue an instruction (R203). -/
def Thread.running (th : Thread) : Bool := th.state = .running

end Sys2Proof.Machine
end

