-- ==== Sys2Proof/Machine/Access.lean ====
section
/-! DEFINITION. Who makes a register access, as the Gradebook names it (R474), and whether that access reaches the
registers at all (R391, table "What runs in each mode"). -/

namespace Sys2Proof.Machine

/-- Whether a thread issues in the present mode: all of them in STAGE, SERVICE and DEGRADED, the Monitors in SAFE (R511). -/
def State.threadRuns (s : State) (t : Nat) : Bool := s.threadsOn || (s.mode = modeSafe && isMonitor t)

/-- The origin a thread's change carries. -/
def State.threadOrigin (s : State) (t : Nat) : Origin :=
  .thr t ((s.boundTo t).getD 0xFF) (s.inForce Reg.RB_CFG Fld.RB_CFG_DEVICE_ID)

/-- The origin of an access (R474). -/
def State.originOf (s : State) (o : Who) : Origin :=
  match o with
  | .host _ => .host
  | .tenik => .tenik
  | .thread t => s.threadOrigin t
  | .debug => .debug
  | .remote t dev => .thr t 0xFF dev

/-- Whether an offset lies in the block that BAR0 places at `base`, `len` bytes long. -/
def inBlock (off base len : Nat) : Bool := decide (base ≤ off ∧ off < base + len)

/-- What BAR0 reaches in the present mode (R393, table "What runs in each mode"): in RESET the DEV block, in LOAD that,
the HI block and the LOAD window, otherwise all but that window. -/
def State.modeReaches (s : State) (off : Nat) : Bool :=
  if s.mode = modeReset then inBlock off 0 0x10000
  else if s.mode = modeLoad then inBlock off 0 0x10000 || inBlock off 0x40000 0x10000 || decide (0x2000000 ≤ off)
  else decide (off < 0x2000000)

/-- Whether an access reaches a register: a host request with a PASID does not (R391), a thread needs P0, the debug port
needs STRAP_TAP at 0 (R542), a thread of another member needs RACC_EN (R458), and Tenik must be up. -/
def State.mayAccess (s : State) (o : Who) (off : Nat) : Bool :=
  match o with
  | .host (some _) => false
  | .host none => !s.boot.perst && s.modeReaches off
  | .tenik => decide (modeStage ≤ s.mode) && !s.boot.tenikDown
  | .thread t => isThread t && (s.thread t).priv = 0 && s.threadRuns t
  | .debug => !s.boot.perst && !s.boot.straps.tap && s.modeReaches off
  | .remote _ _ => decide (modeStage ≤ s.mode) && s.modeReaches off && s.inForce Reg.RB_CFG Fld.RB_CFG_RACC_EN = 1

/-- Whether byte enables name a whole word or one aligned half of it (R8, R9). -/
def laneOk (en : Nat) : Bool := en = 0xFF || en = 0x0F || en = 0xF0

/-- The bits that byte enables cover. -/
def laneMask (en : Nat) : Word :=
  if en = 0x0F then 0x00000000FFFFFFFF else if en = 0xF0 then 0xFFFFFFFF00000000 else 0xFFFFFFFFFFFFFFFF

/-- A word with the half that a write enables replaced (R8). -/
def laneMerge (old v : Word) (en : Nat) : Word := (old &&& ~~~laneMask en) ||| (v &&& laneMask en)

/-- Do an access to a register word: nothing where it does not reach it; a host access with byte enables of another pattern is
counted in BAD_SIZE, whatever its offset and the mode (R9). -/
def access (o : Who) (off en : Nat) (p : M Unit) : M Unit := do
  let ok ← rd (·.mayAccess o off)
  let perst ← rd (·.boot.perst)
  if laneOk en then onlyIf ok p
  else match o with
    | .host none => onlyIf (!perst) (count Reg.HI_CNT_BAD_SIZE)
    | _ => pure ()

/-- A record of a register write (R475): action 1 LIVE, 2 SHADOW, 3 COMMIT, 4 FROZEN. -/
def regRecord (o : Origin) (action off : Nat) (old new : Word) : M Unit := gbRecord o 1 action off old.toNat new.toNat

end Sys2Proof.Machine
end

