-- ==== Sys2Proof/Machine/Square.lean ====
section
/-! DEFINITION. Buffer pools (R362 to R372), channels (R373 to R379) and Hall Pass (R380 to R387). -/

namespace Sys2Proof.Machine

/-! Buffer pools. -/

/-- Bytes of a buffer by BP_POOL_CFG_p.SIZE (R362). -/
def poolSizeOf (n : Nat) : Nat :=
  match n with
  | 0 => 256 | 1 => 1024 | 2 => 4096 | 3 => 16384 | _ => 65792

/-- Bytes of a buffer of pool `p`. -/
def State.poolSize (s : State) (p : Nat) : Nat := poolSizeOf (s.fld (Reg.BP_POOL_CFG p) Fld.BP_POOL_CFG_SIZE)

/-- Buffers of pool `p` (BP_POOL_CFG_p.COUNT). -/
def State.poolCount (s : State) (p : Nat) : Nat := min 4194304 (s.fld (Reg.BP_POOL_CFG p) Fld.BP_POOL_CFG_COUNT)

/-- Free buffers of pool `p` (BP_FREE_p). -/
def State.poolFree (s : State) (p : Nat) : Nat :=
  let q := s.poolsAt p
  (s.poolCount p - q.next) + q.freed.length

/-- Internal address of buffer 0 of pool `p`. -/
def State.poolBase (s : State) (p : Nat) : Nat := s.fld (Reg.BP_POOL_BASE p) Fld.BP_POOL_BASE_BASE * 256

/-- A buffer handle (R363). -/
def handleOf (p gen idx : Nat) : Nat := p % 16 * 2 ^ 28 + gen % 64 * 2 ^ 22 + idx % 2 ^ 22
abbrev hPool (h : Nat) : Nat := h / 2 ^ 28 % 16
abbrev hGen (h : Nat) : Nat := h / 2 ^ 22 % 64
abbrev hIndex (h : Nat) : Nat := h % 2 ^ 22
/-- The key of a handle's buffer in `State.bufs`. -/
abbrev bufKey (h : Nat) : Nat := hPool h * 2 ^ 22 + hIndex h

/-- Internal address of a handle's buffer. -/
def State.bufAddr (s : State) (h : Nat) : Nat := s.poolBase (hPool h) + hIndex h * s.poolSize (hPool h)

/-- Bytes of a handle's buffer. -/
def State.bufSize (s : State) (h : Nat) : Nat := s.poolSize (hPool h)

/-- The pools of the chain that begins at pool `p`: each NEXT must be strictly larger, at most five in all (R365). -/
def State.poolChain (s : State) : Nat → Nat → List Nat
  | 0, _ => []
  | n + 1, p =>
    let nx := s.inForce (Reg.BP_POOL_CFG p) Fld.BP_POOL_CFG_NEXT
    if s.inForce (Reg.BP_POOL_CFG p) Fld.BP_POOL_CFG_NEXT_EN = 1 ∧ s.poolSize p < s.poolSize nx then
      p :: s.poolChain n nx
    else [p]

/-- Whether a pool may serve a request (R365): `cls` is the classroom it is made for, if any. -/
def State.poolServes (s : State) (cls : Option Nat) (minSize p : Nat) : Bool :=
  decide (minSize ≤ s.poolSize p) && decide (0 < s.poolFree p) &&
    cls.all fun c => bitOf (s.actAt (Reg.BP_POOL_CL p)).toNat c

/-- The pool that serves a request that begins at pool `p` (R365). -/
def State.poolPick (s : State) (cls : Option Nat) (p minSize : Nat) : Option Nat :=
  (s.poolChain 5 p).find? (s.poolServes cls minSize)

/-- Set bit `i` of a status word; one that goes from 0 to 1 raises event `e`. -/
def stickyBit (off i e : Nat) : M Unit := sticky off ⟨i, i⟩ e

/-- Allocate a buffer (R365, R366): the handle, or `none`. -/
def poolAlloc (cls : Option Nat) (p minSize : Nat) (owner : Option Nat) : M (Option Nat) := do
  let pick ← rd (·.poolPick cls p minSize)
  match pick with
  | none => do
    count Reg.BP_CNT_ALLOC_NONE
    pure none
  | some q => do
    let pool ← rd (·.poolsAt q)
    let n ← rd (·.poolCount q)
    let idx := if pool.next < n then pool.next else pool.freed.headD 0
    emit (.pools q (if pool.next < n then { pool with next := pool.next + 1 } else { pool with freed := pool.freed.drop 1 }))
    let b ← rd (·.bufsAt (q * 2 ^ 22 + idx))
    emit (.bufs (q * 2 ^ 22 + idx) { b with count := 1, owner := owner })
    count Reg.BP_CNT_ALLOCS
    onlyIf (q != p) (count Reg.BP_CNT_FALLBACKS)
    let left ← rd (·.poolFree q)
    onlyIf (left = 0) (stickyBit Reg.BP_EVENT q 137)
    pure (some (handleOf q b.gen idx))

/-- Whether an add or drop is ignored (R369): `who` is the classroom it comes from; `none` is a unit of the device or P0. -/
def State.staleHandle (s : State) (who : Option Nat) (h : Nat) : Bool :=
  let b := s.bufsAt (bufKey h)
  b.gen != hGen h || b.count = 0 || who.any fun c => b.owner != some c

/-- Add a reference (R367, R369); whether it was made. -/
def bufAdd (who : Option Nat) (h : Nat) : M Bool := do
  let stale ← rd (·.staleHandle who h)
  if stale then do
    count Reg.BP_CNT_STALE_OP
    pure false
  else do
    let b ← rd (·.bufsAt (bufKey h))
    if b.count ≥ 255 then do
      sticky Reg.BP_EVENT Fld.BP_EVENT_REF_SAT 137
      pure false
    else do
      emit (.bufs (bufKey h) { b with count := b.count + 1 })
      pure true

/-- Return a buffer to its pool: its generation moves on and it goes to the tail of the free list (R368). -/
def bufFree (h : Nat) : M Unit := do
  modBufs (bufKey h) fun b => { count := 0, gen := (b.gen + 1) % 64, owner := none }
  modPools (hPool h) fun p => { p with freed := p.freed ++ [hIndex h] }
  count Reg.BP_CNT_FREES

/-- Drop a reference (R367 to R369). -/
def bufDrop (who : Option Nat) (h : Nat) : M Unit := do
  let stale ← rd (·.staleHandle who h)
  if stale then count Reg.BP_CNT_STALE_OP
  else do
    let b ← rd (·.bufsAt (bufKey h))
    if b.count = 1 then bufFree h else emit (.bufs (bufKey h) { b with count := b.count - 1 })

/-- The handle a buffer of `State.bufs` has now. -/
def liveHandle (key : Nat) (b : Buf) : Nat := handleOf (key / 2 ^ 22) b.gen (key % 2 ^ 22)

/-! Channels. -/

/-- Depth of every channel, as a power of two (CH_GEOM.DEPTH_LOG2). -/
def State.chDepth (s : State) : Nat := 2 ^ min 10 (max 4 (s.fld Reg.CH_GEOM Fld.CH_GEOM_DEPTH_LOG2))

/-- Internal address of slot `i` of channel `n` (R373). -/
def State.chSlot (s : State) (n i : Nat) : Nat :=
  squareBase + s.fld Reg.CH_GEOM Fld.CH_GEOM_BASE * 8 + n * 8 * s.chDepth + i % s.chDepth * 8

/-- Whether a channel is full (R373). -/
def State.chFull (s : State) (n : Nat) : Bool := decide (s.chDepth - 1 ≤ (s.chansAt n).marks.length)

/-- Whether a thread may use a channel (R374). -/
def State.chAllowed (s : State) (t n : Nat) : Bool :=
  (s.thread t).priv = 0 ||
    (s.inForce (Reg.CH n) Fld.CH_VALID = 1 && s.boundTo t = some (s.inForce (Reg.CH n) Fld.CH_CLASSROOM))

/-- Whether a write of thread `t` must wait: another thread's packet is open, or other writers wait ahead (R375). -/
def State.chBlocked (s : State) (t n : Nat) : Bool :=
  match (s.chansAt n).writer with
  | some w => w != t
  | none => match (s.chansAt n).waiters with
    | [] => false
    | h :: _ => h != t

/-- Put a word behind the last one of a channel. -/
def chAppend (n : Nat) (w : Word) (e a : Bool) : M Unit := do
  let c ← rd (·.chansAt n)
  let slot ← rd (·.chSlot n (c.head + c.marks.length))
  writeMem slot (leBytes 8 w.toNat)
  emit (.chans n { c with marks := c.marks ++ [(e, a)] })

/-- A word written by a thread that need not wait (R375, R376). -/
def chWrite (t n : Nat) (w : Word) (e : Bool) : M Unit := do
  let full ← rd (·.chFull n)
  modChans n fun c => { c with waiters := c.waiters.filter (· != t) }
  if full then do
    count Reg.CH_CNT_OVERRUNS
    let cl ← rd (·.inForce (Reg.CH n) Fld.CH_CLASSROOM)
    sticky (Reg.CH n) Fld.CH_OVERRUN (160 + cl)
  else do
    chAppend n w e false
    count Reg.CH_CNT_WORDS_WRITTEN
    if e then do
      modChans n fun c => { c with packets := c.packets + 1, writer := none }
      count Reg.CH_CNT_PACKETS_CLOSED
      let en ← rd (·.inForce (Reg.CH n) Fld.CH_WATCH_EN)
      let who ← rd (·.inForce (Reg.CH n) Fld.CH_WATCH)
      onlyIf (en = 1) (setFlag who evChannel)
    else modChans n fun c => { c with writer := some t }

/-- The oldest word of a channel, with its marks; the channel without it (R376, R378). -/
def chRead (n : Nat) : M (Option (Word × Bool × Bool)) := do
  let c ← rd (·.chansAt n)
  match c.marks with
  | [] => pure none
  | (e, a) :: rest => do
    let slot ← rd (·.chSlot n c.head)
    let w ← rd (·.leMem slot 8)
    let depth ← rd (·.chDepth)
    emit (.chans n { c with head := (c.head + 1) % depth, marks := rest, tailArmed := true
                            packets := if e then c.packets - 1 else c.packets })
    count Reg.CH_CNT_WORDS_READ
    pure (some (Word.ofNat w, e, a))

/-- The last mark of a list replaced by the abort mark. -/
def markAbort : List (Bool × Bool) → List (Bool × Bool)
  | [] => []
  | [(e, _)] => [(e, true)]
  | m :: ms => m :: markAbort ms

/-- Abort the open packet of a channel (R377). -/
def chAbort (n : Nat) : M Unit := do
  let c ← rd (·.chansAt n)
  if c.marks.isEmpty then chAppend n 0 false true
  else modChans n fun c => { c with marks := markAbort c.marks }
  modChans n fun c => { c with writer := none }
  count Reg.CH_CNT_ABORTS

/-- The channels on which a thread has an open packet. -/
def State.openChans (s : State) (t : Nat) : List Nat := (s.chans.filter fun e => e.2.writer = some t).map Prod.fst

/-- Take a thread out of the lines of waiting writers (R375). -/
def chLeave (t : Nat) : M Unit := do
  let ws ← rd fun s => (s.chans.filter fun e => e.2.waiters.contains t).map Prod.fst
  each ws fun n => modChans n fun c => { c with waiters := c.waiters.filter (· != t) }

/-- Abort every open packet of a thread, which leaves the lines of waiting writers (R377). -/
def chAbortAll (t : Nat) : M Unit := do
  let ns ← rd (·.openChans t)
  each ns chAbort
  chLeave t

/-- Empty a channel (R379). -/
def chEmpty (n : Nat) : M Unit := do
  let c ← rd (·.chansAt n)
  onlyIf c.writer.isSome (count Reg.CH_CNT_ABORTS)
  emit (.chans n { c with marks := [], packets := 0, writer := none })

/-! Hall Pass. -/

/-- Whether a thread may use a lock's group (R380). -/
def State.lockAllowed (s : State) (t l : Nat) : Bool :=
  let p := (s.thread t).priv
  p = 0 || ((s.boundTo t).any (fun c => bitOf (s.actAt (Reg.HP_GRP_CL (l / 64))).toNat c) &&
    decide (p ≤ min 2 (s.inForce (Reg.HP_GRP_PRIV (l / 64)) Fld.HP_GRP_PRIV_MINPRIV)))

/-- The priority of a thread's request (R383). -/
def State.lockPrio (s : State) (t : Nat) : Nat := if s.isSeat t then 17 else s.weight t

/-- Whether an owner record matches its owner's current generations (R382, R386). -/
def State.ownerCurrent (s : State) (o : LockOwner) : Bool :=
  match o.holder with
  | .thread t => (s.thread t).tgen = o.tgen && s.threadClgen t = o.clgen
  | .act a => (s.actsAt a).any fun r => r.saved.isSome && r.clgen = o.clgen

/-- Whether a thread holds a lock. -/
def State.holdsLock (s : State) (t l : Nat) : Bool :=
  (s.locksAt l).owner.any fun o => o.holder = .thread t && s.ownerCurrent o

/-- The locks a thread holds. -/
def State.locksOf (s : State) (t : Nat) : List Nat := (s.locks.map Prod.fst).filter (s.holdsLock t)

/-- Whether a thread has a queued request. -/
def State.lockQueued (s : State) (t : Nat) : Bool := s.locks.any fun e => e.2.waiters.any (·.thread = t)

/-- The owner record of a grant to a thread now. -/
def State.ownerOf (s : State) (t : Nat) (viaOrphan : Bool) : LockOwner :=
  ⟨.thread t, (s.boundTo t).getD 0, s.threadClgen t, (s.thread t).tgen, viaOrphan⟩

/-- Queue a request: highest priority first, in order of request within one priority (R383). -/
def lockEnqueue : List LockWait → LockWait → List LockWait
  | [], w => [w]
  | x :: xs, w => if x.priority < w.priority then w :: x :: xs else x :: lockEnqueue xs w

/-- The thread whose lock has a waiter of higher priority than its own (R387). -/
def State.lockBoosts (s : State) (l : Nat) : Option Nat :=
  let k := s.locksAt l
  match k.owner, k.waiters with
  | some o, w :: _ =>
    match o.holder with
    | .thread t =>
      if s.inForce Reg.HP_CFG Fld.HP_CFG_PI_EN = 1 && s.ownerCurrent o && decide (s.lockPrio t < w.priority) then some t
      else none
    | .act _ => none
  | _, _ => none

/-- A lock's owner comes to be boosted (R387). -/
def lockBoost (l : Nat) : M Unit := do
  let b ← rd (·.lockBoosts l)
  let k ← rd (·.locksAt l)
  onlyIf (b.isSome && !k.boost) do
    modLocks l fun k => { k with boost := true }
    count Reg.HP_CNT_BOOSTS

/-- Every lock whose owner a waiter now exceeds: weights or PI_EN have changed (R387). -/
def lockBoostAll : M Unit := do
  let ls ← rd (·.locks.map Prod.fst)
  each ls lockBoost

/-- Whether a thread is boosted (R200, R387): for a lock that it has not released since, or for one of a higher waiter now. -/
def State.boosted (s : State) (t : Nat) : Bool := s.locks.any fun e =>
  s.lockBoosts e.1 == some t || (e.2.boost && e.2.owner.any fun o => o.holder == .thread t && s.ownerCurrent o)

/-- Give a lock to its head waiter with status 1 (GRANTED) or 2 (ORPHAN) (R247, R382, R383). -/
def lockGrantHead (l : Nat) (viaOrphan : Bool) : M Unit := do
  let k ← rd (·.locksAt l)
  match k.waiters with
  | [] => emit (.locks l Lock.free)
  | w :: ws => do
    let o ← rd (·.ownerOf w.thread viaOrphan)
    emit (.locks l { owner := some o, orphan := false, waiters := ws, boost := false })
    count Reg.HP_CNT_ACQUIRES
    lockBoost l
    if w.event then setFlag w.thread evLockGrant
    else finishNext w.thread fun th => th.setG w.rd (if viaOrphan then 2 else 1)

/-- Withdraw a thread's queued request (R384). -/
def lockWithdraw (t : Nat) : M Unit := do
  let ls ← rd fun s => (s.locks.filter fun e => e.2.waiters.any (·.thread = t)).map Prod.fst
  each ls fun l => do
    modLocks l fun k => { k with waiters := k.waiters.filter (·.thread != t) }
    count Reg.HP_CNT_WITHDRAWN

/-- What became of a lock request. -/
inductive LockAnswer
  | refused | granted | orphan | held | queued
  deriving DecidableEq, Repr

/-- A request for a lock (R247, R380 to R383): `form` 1 HPACQ, 2 HPACQ.T, 3 HPACQ.E.  `queued` puts the request in line. -/
def lockRequest (t l form rd' : Nat) : M LockAnswer := do
  let ok ← rd (·.lockAllowed t l)
  let mine ← rd (·.holdsLock t l)
  let k ← rd (·.locksAt l)
  let inLine ← rd (·.lockQueued t)
  if !ok then do
    count Reg.HP_CNT_REFUSED
    pure .refused
  else if mine && form != 3 then
    pure (if k.owner.any (·.viaOrphan) then .orphan else .granted)
  else if form = 3 && inLine then pure .held
  else if k.owner.isNone || k.orphan then do
    let o ← rd (·.ownerOf t k.orphan)
    emit (.locks l { k with owner := some o, orphan := false, boost := false })
    count Reg.HP_CNT_ACQUIRES
    pure (if k.orphan then .orphan else .granted)
  else if form = 2 || inLine then pure .held
  else do
    let p ← rd (·.lockPrio t)
    let th ← rd (·.thread t)
    let c ← rd fun s => (s.boundTo t).getD 0
    let g ← rd (·.threadClgen t)
    emit (.locks l { k with waiters := lockEnqueue k.waiters ⟨t, p, form = 3, rd', th.tgen, c, g⟩ })
    count Reg.HP_CNT_WAITS
    lockBoost l
    pure .queued

/-- Release a lock a thread holds (R247, R383); any other release is ignored. -/
def lockRelease (t l : Nat) : M Unit := do
  let mine ← rd (·.holdsLock t l)
  onlyIf mine (lockGrantHead l false)

/-- Locks a pre-empted thread holds pass to the saved activation (R386). -/
def locksToAct (t a : Nat) : M Unit := do
  let ls ← rd (·.locksOf t)
  each ls fun l => modLocks l fun k => { k with owner := k.owner.map fun o => { o with holder := .act a }, boost := false }

/-- Locks of a saved activation pass to the thread that continues it (R386). -/
def locksToThread (a t : Nat) : M Unit := do
  let th ← rd (·.thread t)
  let g ← rd (·.threadClgen t)
  let ls ← rd fun s => (s.locks.filter fun e => e.2.owner.any (·.holder = .act a)).map Prod.fst
  each ls fun l => do
    modLocks l fun k => { k with owner := k.owner.map fun o => { o with holder := .thread t, tgen := th.tgen, clgen := g } }
    lockBoost l

/-- Whether the owner record of a held lock is stale (R382). -/
def State.lockStale (s : State) (l : Nat) : Bool :=
  (s.locksAt l).orphan || (s.locksAt l).owner.any fun o => !s.ownerCurrent o

/-- A held lock whose owner record no longer matches is orphaned (R382). -/
def lockOrphan (l : Nat) : M Unit := do
  let k ← rd (·.locksAt l)
  let stale ← rd (·.lockStale l)
  onlyIf (stale && !k.orphan) do
    count Reg.HP_CNT_ORPHANED
    sticky Reg.HP_EVENT Fld.HP_EVENT_ORPHANED 138
    if k.waiters.isEmpty then emit (.locks l { k with orphan := true, boost := false }) else lockGrantHead l true

end Sys2Proof.Machine
end

