-- ==== Sys2Proof/Machine/View.lean ====
section
/-! DEFINITION. What a read finds where device units keep their own records in Square memory or DRAM: the context store
(R108), the control words of the payload pools (R364) and the apply logs of the table engines (R305).  The records themselves
are structured state. -/

namespace Sys2Proof.Machine

/-- The context `x`. -/
def State.ctx (s : State) (x : Nat) : Ctx := s.ctxsAt x

/-- The bytes of a context record (R108). -/
def Ctx.bytes (x : Nat) (c : Ctx) : List Byte :=
  leBytes 4 (x + c.cgen * 2 ^ 24 + c.state.code * 2 ^ 28) ++ leBytes 1 c.msg.classroom ++ leBytes 1 c.clgen ++
  leBytes 1 (c.msg.cls + 8 * bit c.pinned) ++ leBytes 1 c.msg.term ++ leBytes 2 c.msg.epoch ++ leBytes 2 c.msg.graph ++
  leBytes 4 c.msg.buffer ++ leBytes 8 c.order ++ leBytes 8 c.msg.key.toNat ++ leBytes 4 c.onChip ++ leBytes 4 c.spilled ++
  leBytes 4 c.spillHead ++ leBytes 2 c.acts ++ leBytes 2 c.reqs ++ leBytes 4 (c.timer.getD 0xFFFFFFFF) ++ zeros 12

/-- Where the context store lies (RC_SQM). -/
def State.storeBase (s : State) : Nat := squareBase + s.fld Reg.RC_SQM Fld.RC_SQM_CSTORE_OFF / 64 * 64

/-- The byte of a context record held at an address of the context store (R108). -/
def State.recordByte (s : State) (a : Nat) : Option Byte :=
  if a < s.storeBase ∨ s.storeBase + 0x1000000 ≤ a then none
  else (s.rc.store.find? fun e => e.2 == (a - s.storeBase) / 64).map fun e =>
    ((s.ctx e.1).bytes e.1).getD ((a - s.storeBase) % 64) 0

/-- Where the control words of pool `p` lie (R364). -/
def State.poolCtl (s : State) (p : Nat) : Nat := s.fld (Reg.BP_POOL_CTL p) Fld.BP_POOL_CTL_CTL * 8

/-- The control word of a buffer: its count, generation, owner and link, in the layout of the pools (R364). -/
def State.ctlWord (s : State) (p i : Nat) : Word :=
  let b := s.bufsAt (p * 2 ^ 22 + i)
  let f := (s.poolsAt p).freed
  Config.poolWord b.count b.gen (b.owner.getD 64) (f.getD (f.idxOf i + 1) (s.poolsAt p).next)

/-- The byte of a pool's control words at an address. -/
def State.ctlByte (s : State) (a : Nat) : Option Byte :=
  ((List.range 16).find? fun p => decide (s.poolCtl p ≤ a ∧ a < s.poolCtl p + 8 * s.poolCount p)).map fun p =>
    (leBytes 8 (s.ctlWord p ((a - s.poolCtl p) / 8)).toNat).getD ((a - s.poolCtl p) % 8) 0

/-- The byte of a record of an engine's apply log at an address (R305). -/
def State.logByte (s : State) (a : Nat) : Option Byte :=
  (List.range 16).findSome? fun n =>
    let b := s.fld (Reg.TE_ALOG_BASE n) Fld.TE_ALOG_BASE_BASE * 2 ^ 20
    if a < b ∨ b + 2 ^ 20 ≤ a then none
    else ((s.enginesAt n).log.find? fun r => r.seq % logRecords == (a - b) / 256).map fun r =>
      Config.logByte r.seq r.done ((a - b) % 256)

/-- A byte of Square memory or DRAM as a reader finds it. -/
def State.seenAt (s : State) (a : Nat) : Byte :=
  ((s.recordByte a).orElse fun _ => (s.ctlByte a).orElse fun _ => s.logByte a).getD (s.memAt a)

/-- Bytes of Square memory or DRAM as a reader finds them. -/
def State.seen (s : State) (a n : Nat) : List Byte := (List.range n).map fun i => s.seenAt (a + i)

end Sys2Proof.Machine
end

