-- ==== Sys2Proof/Machine/RollCall.lean ====
section
/-! DEFINITION. Roll Call (R104 to R150): tags and tokens, contexts, banks, firing, spilling, and the activation records
and delay entries a firing takes (R157, R167). -/

namespace Sys2Proof.Machine

/-! Tags (R104) and where they live. -/

/-- A tag from its fields. -/
def tagOf (classroom ctx node iter : Nat) : Nat :=
  classroom % 64 * 2 ^ 42 + ctx % 2 ^ 24 * 2 ^ 18 + node % 4096 * 64 + iter % 64
abbrev tagClass (t : Nat) : Nat := t / 2 ^ 42 % 64
abbrev tagCtx (t : Nat) : Nat := t / 2 ^ 18 % 2 ^ 24
abbrev tagNode (t : Nat) : Nat := t / 64 % 4096
abbrev tagIter (t : Nat) : Nat := t % 64

/-- A Roll Call bank as a fenceable unit. -/
abbrev bankUnit (b : Nat) : UnitId := ⟨.bank, b⟩

/-- Whether a bank takes new tokens: it is neither in Detention nor on its way there (R147). -/
def State.bankServes (s : State) (b : Nat) : Bool := !(s.fenced (bankUnit b) || s.fencing (bankUnit b))

/-- The home bank of a tag (R132). -/
def homeOf (tag : Nat) : Nat := crc32cSeed 0xFFFFFFFF (leBytes 6 tag) % 4

/-- The bank a tag goes to: its home, or the first of the next three that is in service (R132). -/
def State.bankOfTag (s : State) (tag : Nat) : Nat :=
  let h := homeOf tag
  (([h, (h + 1) % 4, (h + 2) % 4, (h + 3) % 4]).find? s.bankServes).getD h

/-! Contexts. -/

/-- Contexts in use: id and record. -/
def State.ctxList (s : State) : List (Nat × Ctx) := s.ctxs.filter fun e => e.2.state ≠ .free

/-- Ask Tenik to abandon a context in the life that `cgen` names (R144); a life that is over needs no end. -/
def wantAbandon (x cgen : Nat) : M Unit := do
  let c ← rd (·.ctx x)
  onlyIf (c.cgen = cgen && c.state != .free) (modRc fun r =>
    if r.toAbandon.contains (x, cgen) then r else { r with toAbandon := r.toAbandon ++ [(x, cgen)] })

/-! The context store (R108). -/

/-- The number that `k` places behind the free ones leave: the `k`-th natural number that a rising list does not hold. -/
def nthFree (k : Nat) : List Nat → Nat
  | [] => k
  | u :: us => nthFree (if u ≤ k then k + 1 else k) us

/-- The places of the context store in use, rising. -/
def RcState.storeUsed (r : RcState) : List Nat := (r.store.map Prod.snd).mergeSort (· ≤ ·)

/-- Records in the context store (RC_STATUS.UNPARKED). -/
def storeSize : Nat := 262144

/-- A context's record takes a place of the context store (R108).  DESIGN CHOICE: with none free it takes one beyond the 262,144
(notes/assumptions/170.md). -/
def storeTake (x : Nat) : M Unit := do
  let n ← draw
  modRc fun r => { r with store :=
    (x, nthFree (Config.storePlace n % (storeSize - r.store.length)) r.storeUsed) :: r.store.filter (·.1 != x) }

/-- A context's record leaves the context store. -/
def storeLeave (x : Nat) : M Unit := modRc fun r => { r with store := r.store.filter (·.1 != x) }

/-- Context ids there are (R107, RC_CTX_COUNT).  DESIGN CHOICE: a COUNT above 2^24 acts as 2^24, since the id has 24 bits
(notes/assumptions/169.md). -/
def State.ctxTotal (s : State) : Nat := min 16777216 (s.fld Reg.RC_CTX_COUNT Fld.RC_CTX_COUNT_COUNT)

/-- DRAM address of a parked context's record (R108). -/
def State.ctxAddr (s : State) (x : Nat) : Nat := s.fld Reg.RC_CTX_BASE Fld.RC_CTX_BASE_BASE * 64 + 64 * x

/-- What changes in the record of a context that lies in the DRAM context table changes there (R108). -/
def ctxSync (x : Nat) : M Unit := do
  let c ← rd (·.ctx x)
  let a ← rd (·.ctxAddr x)
  onlyIf c.inDram (store squareSource a (c.bytes x))

/-- Change a context's record, wherever it lies (R108). -/
def changeCtx (x : Nat) (f : Ctx → Ctx) : M Unit := do
  modCtxs x f
  ctxSync x

/-! The Crosswalk's contexts (R181). -/

/-- The Crosswalk forgets contexts that are closed and have no message left to release. -/
def cwClean (l : List CwCtx) : List CwCtx := l.filter fun e => !(e.closed && e.msgs.isEmpty)

/-- Close a context for the Crosswalk (R181). -/
def cwClose (x cgen : Nat) : M Unit :=
  modCw fun l => cwClean (l.map fun e => if e.ctx = x ∧ e.cgen = cgen then { e with closed := true } else e)

/-- A context that has reached its end with no activation left is closed for the Crosswalk, requests outstanding or not
(R181). -/
def cwEnded (x : Nat) : M Unit := do
  let c ← rd (·.ctx x)
  onlyIf (c.state = .ending && c.acts = 0) (cwClose x c.cgen)

/-! Tokens and bank queues (R105, R134). -/

/-- The bytes of a token (R105). -/
def Token.bytes (t : Token) : List Byte :=
  leBytes 8 t.value.toNat ++ leBytes 6 t.tag ++
  leBytes 1 (t.port % 4 + 4 * bit t.absent + 8 * bit t.urgent + 16 * t.cgen) ++ leBytes 1 t.clgen

/-- A token for a node of a context, as its activations, entry graph and nodes form it. -/
def State.mkToken (s : State) (x node port iter : Nat) (v : Word) (absent : Bool) : Token :=
  let c := s.ctx x
  ⟨if absent then 0 else v, tagOf c.msg.classroom x node iter, port, absent, c.pinned, c.cgen, c.clgen, false⟩

/-- Whether a bank's queue for such tokens has room for `n` more (R134). -/
def State.bankRoom (s : State) (b : Nat) (urgent : Bool) (n : Nat) : Bool :=
  let k := s.banksAt b
  if urgent then decide (k.urgent.length + n ≤ 64) else decide (k.inq.length + n ≤ 1024)

/-- Put a token into its bank's queue. -/
def pushToken (t : Token) : M Unit := do
  let b ← rd (·.bankOfTag t.tag)
  modBanks b fun k => if t.urgent then { k with urgent := k.urgent ++ [t] } else { k with inq := k.inq ++ [t] }

/-- Whether every one of some tokens finds room in its bank's queue, were all put there. -/
def State.roomFor (s : State) (ts : List Token) : Bool :=
  (List.range 4).all fun b =>
    let mine := ts.filter fun t => s.bankOfTag t.tag = b
    s.bankRoom b true (mine.countP (·.urgent)) && s.bankRoom b false (mine.countP (!·.urgent))

/-- Whether the unit an item is for can take it now. -/
def State.itemRoom (s : State) (i : FuItem) : Bool :=
  match i with
  | .token t => s.bankRoom (s.bankOfTag t.tag) t.urgent 1
  | .remote _ _ => true
  | .lookup _ => true
  | .search r => if r.urgent then decide (s.dir.urgent.length < 32) else decide (s.dir.queue.length < 256)

/-- Hand an item on to the unit it is for. -/
def handItem (i : FuItem) : M Unit := do
  match i with
  | .token t => pushToken t
  | .remote d t => do
    let way ← rd fun s => s.ringRoute d
    let leaving ← rd fun s => s.ring.leavingUs || s.ring.going
    if way.isNone || leaving then count Reg.RB_CNT_UNREACHABLE
    else modRing fun r => { r with remoteOut := r.remoteOut ++ [(d, t)] }
  | .lookup r => do
    let n ← rd (·.lookupEngine r)
    modEngines n fun e => { e with queue := e.queue ++ [r] }
  | .search r => modDir fun d =>
    if r.urgent then { d with urgent := d.urgent ++ [r] } else { d with queue := d.queue ++ [r] }

/-- Hand on the items at the head of a fire unit's output queue, in order, as long as there is room for them (R134). -/
def drainUnit (f : Nat) : Nat → M Unit
  | 0 => pure ()
  | n + 1 => do
    let q ← rd (·.fuqAt f)
    match q with
    | [] => pure ()
    | i :: rest => do
      let ok ← rd (·.itemRoom i)
      if ok then do
        emit (.fuq f rest)
        handItem i
        drainUnit f n
      else pure ()

/-- The tokens in a bank's queues that another bank now serves (R147, R149). -/
def State.strayTokens (s : State) (b : Nat) : List Token :=
  ((s.banksAt b).urgent ++ (s.banksAt b).inq).filter fun t => s.bankOfTag t.tag != b

/-- A queue without the first token like `t`. -/
def Bank.lose (k : Bank) (t : Token) : Bank :=
  if t.urgent then { k with urgent := k.urgent.erase t } else { k with inq := k.inq.erase t }

/-- Hand the tokens of a bank that another bank now serves on to it, in order, as far as there is room for them (R134, R147,
R149). -/
def passStrays (b : Nat) : M Unit := do
  let l ← rd (·.strayTokens b)
  each l fun t => do
    let room ← rd fun s => s.bankRoom (s.bankOfTag t.tag) t.urgent 1
    onlyIf room do
      modBanks b (·.lose t)
      pushToken t

/-- Hand on what the output queues of the 16 fire units hold, and the tokens that another bank now serves, as far as there is
room (R134). -/
def pump : M Unit := do
  each (List.range 4) passStrays
  each (List.range 16) fun f => drainUnit f 256

/-! Graphs and nodes (R112, R116). -/

/-- A graph of a Term (R112). -/
structure Graph where
  nodeCount : Nat
  entryCount : Nat
  flags : Nat
  endNode : Nat
  maxPartial : Nat
  nodeBase : Nat
  entryBase : Nat
  check : Nat
  deriving DecidableEq, Repr

/-- DRAM address of the header of graph `g` of the Term in a slot. -/
def State.graphAddr (s : State) (slot g : Nat) : Nat := (s.termsAt slot).base + (s.termsAt slot).graphOff + 32 * g

/-- The graph a header describes. -/
def Graph.ofBytes (h : List Byte) : Graph :=
  ⟨leAt h 0 2, leAt h 2 1, leAt h 3 1, leAt h 4 2, leAt h 6 2, leAt h 8 8, leAt h 16 8, leAt h 28 4⟩

/-- Graph `g` of the Term in a slot. -/
def State.graph (s : State) (slot g : Nat) : Graph := Graph.ofBytes (s.bytes (s.graphAddr slot g) 32)

/-- A destination field (R116). -/
def Dest.ofNat (n : Nat) : Dest := ⟨bitsOf n 11 0, bitsOf n 13 12, bitsOf n 15 14⟩

/-- The node a descriptor describes (R116). -/
def NodeDesc.ofBytes (b : List Byte) : NodeDesc :=
  let w0 := leAt b 0 8
  let w2 := leAt b 16 8
  { kind := bitsOf w0 3 0, arity := bitsOf w0 6 4, opt := bitsOf w0 11 8, fn := bitsOf w0 19 12
    table := bitsOf w0 25 20, copy := bitOf w0 26, param := bitsOf w0 63 32, imm := Word.ofNat (leAt b 8 8)
    dests := (List.range 4).map fun d => Dest.ofNat (bitsOf w2 (16 * d + 15) (16 * d)) }

/-- Node `n` of a graph of the Term in a slot. -/
def State.nodeDesc (s : State) (slot g n : Nat) : NodeDesc :=
  NodeDesc.ofBytes (s.bytes ((s.termsAt slot).base + (s.graph slot g).nodeBase + 32 * n) 32)

/-- The node a tag names in the graph of its context. -/
def State.nodeOf (s : State) (tag : Nat) : NodeDesc :=
  let m := (s.ctx (tagCtx tag)).msg
  s.nodeDesc m.term m.graph (tagNode tag)

abbrev kMicro : Nat := 0
abbrev kLookup : Nat := 1
abbrev kSearch : Nat := 2
abbrev kActivate : Nat := 3
abbrev kPark : Nat := 4
abbrev kJoinAny : Nat := 5
abbrev kLoopEnter : Nat := 6
abbrev kLoopExit : Nat := 7
abbrev kEmit : Nat := 8
abbrev kEnd : Nat := 9

/-- The arity table of R122; `none` for an undefined function. -/
def microArity (fn : Nat) : Option Nat :=
  if fn = 0x00 ∨ fn = 0x01 ∨ fn = 0x04 ∨ fn = 0x18 ∨ fn = 0x19 ∨ fn = 0x23 ∨ fn = 0x24 then some 1
  else if fn = 0x02 ∨ fn = 0x03 ∨ (0x05 ≤ fn ∧ fn ≤ 0x08) ∨ (0x10 ≤ fn ∧ fn ≤ 0x15) ∨ (0x20 ≤ fn ∧ fn ≤ 0x22) ∨ fn = 0x29
  then some 2
  else if fn = 0x28 then some 3
  else none

/-- A Boolean as the word 1 or 0. -/
def boolW (b : Bool) : Word := if b then 1 else 0

/-- OUT of a micro-op (R122). -/
def microOut (fn : Nat) (imm a b c : Word) : Word :=
  match fn with
  | 0x00 => a
  | 0x01 => imm
  | 0x02 => a + b
  | 0x03 => a - b
  | 0x04 => a + imm
  | 0x05 => if a.ult b then a else b
  | 0x06 => if a.ult b then b else a
  | 0x07 => if a.slt b then a else b
  | 0x08 => if a.slt b then b else a
  | 0x10 => boolW (a == b)
  | 0x11 => boolW (a != b)
  | 0x12 => boolW (a.ult b)
  | 0x13 => boolW (!b.ult a)
  | 0x14 => boolW (a.slt b)
  | 0x15 => boolW (!b.slt a)
  | 0x18 => boolW (!a.ult imm)
  | 0x19 => boolW (!a.slt imm)
  | 0x20 => a &&& b
  | 0x21 => a ||| b
  | 0x22 => a ^^^ b
  | 0x23 => a &&& imm
  | 0x24 => a >>> (imm.toNat % 64)
  | 0x28 => if a != 0 then b else c
  | _ => b

/-- COND of a micro-op (R120, R122). -/
def microCond (fn : Nat) (a out : Word) : Bool := if fn = 0x29 then a != 0 else out != 0

/-- Whether a destination is in use: SEL is not 3, or it is the DEST3 a park timer delivers to. -/
def NodeDesc.destUsed (d : NodeDesc) (i : Nat) : Bool :=
  (d.dests.getD i ⟨0, 0, 3⟩).sel != 3 || (d.kind = kPark && i = 3 && d.param != 0)

/-- Whether a node is invalid for a token on port `port` with the tag's iteration (R117).  DEDUCED: one at or above NODE_COUNT is too,
though R117 names only destinations in use (notes/assumptions/171.md). -/
def State.nodeInvalid (s : State) (tag port : Nat) : Bool :=
  let m := (s.ctx (tagCtx tag)).msg
  let count := (s.graph m.term m.graph).nodeCount
  let d := s.nodeOf tag
  decide (count ≤ tagNode tag) || decide (kEnd < d.kind) || (d.kind = kMicro && (microArity d.fn).isNone) ||
  ((List.range 4).any fun i => d.destUsed i && decide (count ≤ (d.dests.getD i ⟨0, 0, 3⟩).node)) ||
  (d.kind = kLoopEnter && ((port = 0 && tagIter tag != 0) || decide (2 ≤ port))) ||
  (d.kind != kLoopEnter && d.kind != kLoopExit && decide (d.arity ≤ port))

/-- The tokens a node sends to its destinations in use (R120): `out i` is OUT for destination `i`.  DEDUCED: a destination with SEL 3
is in use for no firing, not even for that of a skipped PARK whose timer would use it (notes/assumptions/172.md). -/
def State.destTokens (s : State) (tag iter : Nat) (d : NodeDesc) (absent cond : Bool) (out : Nat → Word) : List Token :=
  (List.range 4).filterMap fun i =>
    let x := d.dests.getD i ⟨0, 0, 3⟩
    if x.sel = 3 then none
    else
      let gone := absent || (x.sel = 1 && !cond) || (x.sel = 2 && cond)
      some (s.mkToken (tagCtx tag) x.node x.port iter (out i) gone)

/-- Whether a node that fires is skipped (R119). -/
def NodeDesc.skipped (d : NodeDesc) (absent : Nat) : Bool :=
  !(d.kind = kJoinAny || d.kind = kEnd || d.kind = kLoopEnter || d.kind = kLoopExit) &&
    (List.range d.arity).any fun p => bitOf absent p && !bitOf d.opt p

/-- A LOOP_ENTER token that has reached the iteration limit (R128). -/
def NodeDesc.atLimit (d : NodeDesc) (tag port : Nat) : Bool := d.kind = kLoopEnter && port = 1 && tagIter tag = 63

/-- The device's own id on the ring. -/
def State.deviceId (s : State) : Nat := s.inForce Reg.RB_CFG Fld.RB_CFG_DEVICE_ID

/-- The token of a target word (R129, R130), sent from classroom `c`; its CGEN is the target context's.  What a device knows of a
context of its own it does not know of another device's: a remote token's URGENT (R105) is that of the context that emits it,
`urgent` (DEDUCED). -/
def State.targetToken (s : State) (c : Nat) (urgent : Bool) (w v : Word) : Token :=
  let x := tagCtx w.toNat
  let t := s.ctx x
  let here := bitsOf w.toNat 61 50 = s.deviceId
  ⟨v, tagOf c x (tagNode w.toNat) (tagIter w.toNat), bitsOf w.toNat 49 48, false, if here then t.pinned else urgent,
    if here then t.cgen else 0, if here then s.clgen c else 0, true⟩

/-- What a node that fires hands to its fire unit's output queue (R117 to R131).  DESIGN CHOICE: an operand of a micro-op that the
node's ARITY leaves out is a free value (notes/assumptions/174.md). -/
def State.fireItems (s : State) (tag port : Nat) (d : NodeDesc) (op : List Word) (absent : Nat) : List FuItem :=
  let a := op.getD 0 0
  let b := op.getD 1 0
  let c := op.getD 2 0
  let iter := tagIter tag
  let x := tagCtx tag
  let k := s.ctx x
  let toks := fun (ts : List Token) => ts.map FuItem.token
  let v := op.getD port 0
  let gone := bitOf absent port
  if d.skipped absent then toks (s.destTokens tag iter d true false fun _ => 0)
  else if d.kind = kMicro then
    let need := (microArity d.fn).getD 0
    let b := if d.arity < 2 ∧ 2 ≤ need then Word.ofNat (Config.random s.free) else b
    let c := if d.arity < 3 ∧ 3 ≤ need then Word.ofNat (Config.random (s.free + 1)) else c
    let out := microOut d.fn d.imm a b c
    toks (s.destTokens tag iter d false (microCond d.fn a out) fun _ => out)
  else if d.kind = kLookup then
    [.lookup ⟨x, k.cgen, k.clgen, tag, d.table, a.toNat + b.toNat * 2 ^ 64, a, k.pinned⟩]
  else if d.kind = kSearch then
    [.search ⟨x, k.cgen, k.clgen, tag, d.table % 32, a.toNat + b.toNat * 2 ^ 64 + c.toNat % 2 ^ 32 * 2 ^ 128, k.pinned⟩]
  else if d.kind = kJoinAny then
    toks (s.destTokens tag iter d gone (v != 0) fun _ => v)
  else if d.kind = kLoopEnter then
    if d.atLimit tag port then
      let x3 := d.dests.getD 3 ⟨0, 0, 3⟩
      if x3.sel = 3 then [] else [.token (s.mkToken x x3.node x3.port 0 v gone)]
    else toks (s.destTokens tag (if port = 0 then 1 else iter + 1) { d with dests := d.dests.take 3 } gone (v != 0) fun _ => v)
  else if d.kind = kLoopExit then toks (s.destTokens tag 0 d gone (v != 0) fun _ => v)
  else if d.kind = kEmit then
    let dev := bitsOf b.toNat 61 50
    let t := s.targetToken k.msg.classroom k.pinned b a
    if dev = s.deviceId then [.token t] else [.remote dev t]
  else []

/-! Activation records and delay entries (R157, R167 to R169). -/

/-- The size of the activation record pool. -/
def State.actTotal (s : State) : Nat := min 131072 (s.fld Reg.SQ_ACT Fld.SQ_ACT_RECORDS)

/-- Free activation records (SQ_STATUS.ACT_FREE). -/
def State.actFree (s : State) : Nat := (s.actTotal - s.sq.actNext) + s.sq.actFreed.length

/-- Whether an ACTIVATE node of a context may take a record: the last 256 are class 0's (R157). -/
def State.actRoom (s : State) (pinned : Bool) : Bool := if pinned then decide (0 < s.actFree) else decide (256 < s.actFree)

/-- Take an activation record: one never used, else the one freed longest ago. -/
def actAlloc (a : Act) : M Nat := do
  let q ← rd (·.sq)
  let n ← rd (·.actTotal)
  let i := if q.actNext < n then q.actNext else q.actFreed.headD 0
  emit (.sq (if q.actNext < n then { q with actNext := q.actNext + 1 } else { q with actFreed := q.actFreed.drop 1 }))
  emit (.acts i (some a))
  pure i

/-- Free an activation record and decrement ACTS of its context, while that is still the same one (R175 step 6). -/
def actRelease (i : Nat) : M Unit := do
  let a ← rd (·.actsAt i)
  match a with
  | none => pure ()
  | some a => do
    emit (.acts i none)
    modSq fun q => { q with actFreed := q.actFreed ++ [i] }
    changeCtx a.ctx fun c => if c.cgen = a.cgen && c.state != .free then { c with acts := c.acts - 1 } else c
    cwEnded a.ctx

/-- The key of the ready list of a record's classroom and class; class 0 waits in the bypass lane (R158). -/
def readyKey (c : Ctx) : Nat := c.msg.classroom * 8 + c.msg.cls

/-- Put an activation behind the others of its list (R158). -/
def readyTail (i x : Nat) : M Unit := do
  let c ← rd (·.ctx x)
  if c.msg.cls = 0 then modSq fun q => { q with bypass := q.bypass ++ [i] }
  else modReady (readyKey c) (· ++ [i])

/-- Put an activation back at the head of its list (R158). -/
def readyHead (i x : Nat) : M Unit := do
  let c ← rd (·.ctx x)
  if c.msg.cls = 0 then modSq fun q => { q with bypass := i :: q.bypass }
  else modReady (readyKey c) (i :: ·)

/-- Delay entries (SQ_DLY_SIZE). -/
def State.dlyFree (s : State) : Nat := (s.fld Reg.SQ_DLY_SIZE Fld.SQ_DLY_SIZE_ENTRIES - s.sq.dlyNext) + s.sq.dlyFreed.length

/-- SQ_TICK: 1 µs ticks of the timebase. -/
def State.tick (s : State) : Nat := s.monoNs / 1000

/-- Arm a delay entry: its handle (R167, R169); with none free SQ_EVENT.DLY_EXHAUSTED is set (R168). -/
def delayArm (list ticks : Nat) (kind : DelayKind) : M (Option Nat) := do
  let free ← rd (·.dlyFree)
  if free = 0 then do
    sticky Reg.SQ_EVENT Fld.SQ_EVENT_DLY_EXHAUSTED 157
    pure none
  else do
    let q ← rd (·.sq)
    let n ← rd (·.fld Reg.SQ_DLY_SIZE Fld.SQ_DLY_SIZE_ENTRIES)
    let i := if q.dlyNext < n then q.dlyNext else q.dlyFreed.headD 0
    emit (.sq (if q.dlyNext < n then { q with dlyNext := q.dlyNext + 1 } else { q with dlyFreed := q.dlyFreed.drop 1 }))
    let d ← rd (·.delayAt i)
    let now ← rd (·.tick)
    emit (.delay i { d with arm := some ⟨list, now + ticks, kind⟩ })
    count Reg.SQ_CNT_TIMERS_ARMED
    pure (some (i + list * 2 ^ 24 + d.gen * 2 ^ 27))

/-- Free a delay entry: its generation moves on (R169). -/
def delayFree (i : Nat) : M Unit := do
  modDelay i fun d => ⟨(d.gen + 1) % 32, none⟩
  modSq fun q => { q with dlyFreed := q.dlyFreed ++ [i] }

/-- Cancel a handle; a stale one, or one whose entry is due, does nothing (R169). -/
def delayCancel (h : Nat) : M Unit := do
  let i := h % 2 ^ 24
  let d ← rd (·.delayAt i)
  let now ← rd (·.tick)
  onlyIf (d.arm.any (fun a => decide (now < a.due)) && d.gen = h / 2 ^ 27) do
    delayFree i
    count Reg.SQ_CNT_TIMERS_CANCELLED

/-- Cancel a context's park timer. -/
def cancelPark (x : Nat) : M Unit := do
  let c ← rd (·.ctx x)
  match c.timer with
  | none => pure ()
  | some h => do
    delayCancel h
    changeCtx x fun c => { c with timer := none }

/-- A context's record as the 64 bytes of its DRAM record give it (R108). -/
def Ctx.fromRecord (c : Ctx) (b : List Byte) : Ctx :=
  let timer := leAt b 48 4
  { c with
    cgen := leAt b 3 1 % 16, clgen := leAt b 5 1, pinned := bitOf (leAt b 6 1) 3, order := leAt b 16 8
    msg := { c.msg with
      classroom := leAt b 4 1 % 64, cls := leAt b 6 1 % 8, term := leAt b 7 1 % 4, epoch := leAt b 8 2
      graph := leAt b 10 2 % 1024, buffer := leAt b 12 4, key := Word.ofNat (leAt b 24 8) }
    onChip := leAt b 32 4, spilled := leAt b 36 4, spillHead := leAt b 40 4 % 2 ^ 27, acts := leAt b 44 2, reqs := leAt b 46 2
    timer := if timer = 0xFFFFFFFF then none else some timer }

/-- A parked context's record comes back from the DRAM context table to the context store (R108, R126); one that cannot be read
is reported, and its record in use is what the device last held (DESIGN CHOICE: the spec says nothing of it). -/
def ctxReload (x : Nat) : M Unit := do
  let a ← rd (·.ctxAddr x)
  let bad ← rd (·.anyBad a 64)
  if bad then reportBads a 64
  else do
    let b ← rd (·.bytes a 64)
    modCtxs x fun c => c.fromRecord b
  storeTake x

/-- Whether the record of a context can be used: it is on chip, or its DRAM channel answers (R108, R345, R355). -/
def State.recordReady (s : State) (x : Nat) : Bool := !(s.ctx x).inDram || s.dramReady (s.ctxAddr x)

/-- What needs a context's record goes on once its DRAM channel answers; until then it waits, and its read is requested (R345,
R355). -/
def withRecord (x : Nat) (p : M Unit) : M Unit := do
  let ok ← rd (·.recordReady x)
  let a ← rd (·.ctxAddr x)
  let c ← rd (·.ctx x)
  if ok then do
    onlyIf c.inDram (touch squareSource a 64 (decide (c.msg.cls = 0)))
    p
  else touch squareSource a 64 (decide (c.msg.cls = 0))

/-- A context that leaves PARKED has its record in the context store again (R108). -/
def unstore (x : Nat) : M Unit := do
  let c ← rd (·.ctx x)
  onlyIf c.inDram do
    ctxReload x
    modCtxs x fun c => { c with inDram := false }

/-! Firing (R118 to R131, R135). -/

/-- The first fire unit of a bank whose output queue of 256 items is not full.  What a unit has fired behind the 256th item it
still holds in its hands, and it takes nothing new meanwhile (R134). -/
def State.fireUnit (s : State) (b : Nat) : Option Nat :=
  ([4 * b, 4 * b + 1, 4 * b + 2, 4 * b + 3]).find? fun f => decide ((s.fuqAt f).length < 256)

/-- Whether a node that is complete can fire now: an output queue of its bank that is not full, and the record or delay entry
it needs (R135, R157, R168). -/
def State.canFire (s : State) (b tag : Nat) (d : NodeDesc) (absent : Nat) : Bool :=
  let k := s.ctx (tagCtx tag)
  let go := !d.skipped absent
  (s.fireUnit b).isSome &&
  (!(go && d.kind = kActivate) || s.actRoom k.pinned) &&
  (!(go && d.kind = kPark && d.param != 0) || decide (0 < s.dlyFree))

/-- Record what a node that cannot fire lacks (R157, R168). -/
def noteShort (tag : Nat) (d : NodeDesc) (absent : Nat) : M Unit := do
  let k ← rd (·.ctx (tagCtx tag))
  let acts ← rd (·.actRoom k.pinned)
  let dly ← rd (·.dlyFree)
  onlyIf (!d.skipped absent) do
    onlyIf (d.kind = kActivate && !acts) (sticky Reg.SQ_EVENT Fld.SQ_EVENT_ACT_EXHAUSTED 157)
    onlyIf (d.kind = kPark && d.param != 0 && dly = 0) (sticky Reg.SQ_EVENT Fld.SQ_EVENT_DLY_EXHAUSTED 157)

/-- Fire a node (R118 to R131). -/
def fireNode (b tag port : Nat) (d : NodeDesc) (op : List Word) (absent : Nat) : M Unit := do
  let x := tagCtx tag
  let k ← rd (·.ctx x)
  let items ← rd (·.fireItems tag port d op absent)
  let unit ← rd (·.fireUnit b)
  modFuq (unit.getD (4 * b)) (· ++ items)
  if d.skipped absent then count Reg.RC_CNT_SKIPPED
  else if d.kind = kMicro then do
    modFree (· + 2)
    count Reg.RC_CNT_FIRES_MICRO
  else if d.kind = kLookup then do
    count Reg.RC_CNT_FIRES_LOOKUP
    changeCtx x fun c => { c with reqs := c.reqs + 1 }
  else if d.kind = kSearch then do
    count Reg.RC_CNT_FIRES_SEARCH
    changeCtx x fun c => { c with reqs := c.reqs + 1 }
  else if d.kind = kActivate then do
    count Reg.RC_CNT_ACTIVATIONS
    let i ← actAlloc ⟨x, k.cgen, k.clgen, tag, op, absent, d.param % 2 ^ 16, false, 0, .ready, none, none⟩
    changeCtx x fun c => { c with acts := c.acts + 1 }
    readyTail i x
  else if d.kind = kPark then do
    count Reg.RC_CNT_PARKS
    let x3 := d.dests.getD 3 ⟨0, 0, 3⟩
    let tok ← rd (·.mkToken x x3.node x3.port (tagIter tag) (op.getD 0 0) false)
    let h ← if d.param = 0 then pure none else delayArm k.msg.cls d.param (.park tok)
    changeCtx x fun c => { c with state := if c.state = .active then .parking else c.state
                                  timer := if d.param = 0 then c.timer else h }
  else if d.kind = kLoopEnter && d.atLimit tag port then do
    count Reg.RC_CNT_LOOP_LIMIT
    onlyIf ((d.dests.getD 3 ⟨0, 0, 3⟩).sel = 3) do
      event (124 + b)
      wantAbandon x k.cgen
  else if d.kind = kEmit then
    (match items with
     | [.remote _ _] => count Reg.RC_CNT_EMITS_REMOTE
     | _ => count Reg.RC_CNT_EMITS_LOCAL)
  else if d.kind = kEnd then do
    unstore x
    modCtxs x fun c => { c with state := .ending }
    cwEnded x
  else pure ()

/-! Spilling (R136 to R138) and the admission reserve's flags (R139). -/

/-- Spill slots there are. -/
def State.spillSlots (s : State) : Nat := min 67108864 (s.fld Reg.RC_SPILL_SIZE Fld.RC_SPILL_SIZE_SLOTS)

/-- RC_SPILL_FREE.FREE. -/
def State.spillFree (s : State) : Nat := (s.spillSlots - s.rc.spillNext) + s.rc.spillFreed.length

/-- RESERVE and FLOOR as they act (R139, R141). -/
def State.reserve (s : State) : Nat := s.inForce Reg.RC_ADMIT Fld.RC_ADMIT_RESERVE
def State.floor (s : State) : Nat := min s.reserve (s.inForce Reg.RC_FLOOR Fld.RC_FLOOR_FLOOR)

/-- Bring RC_STATUS.ADMIT_HELD and FLOOR_HELD up to date, with the events of their becoming 1. -/
def reserveFlags : M Unit := do
  let f ← rd (·.spillFree)
  let r ← rd (·.reserve)
  let l ← rd (·.floor)
  let a0 ← rd (·.fld Reg.RC_STATUS Fld.RC_STATUS_ADMIT_HELD)
  let f0 ← rd (·.fld Reg.RC_STATUS Fld.RC_STATUS_FLOOR_HELD)
  setFld Reg.RC_STATUS Fld.RC_STATUS_ADMIT_HELD (bit (decide (f < r)))
  setFld Reg.RC_STATUS Fld.RC_STATUS_FLOOR_HELD (bit (decide (f < l)))
  onlyIf (a0 = 0 && decide (f < r)) (sticky Reg.RC_EVENT Fld.RC_EVENT_RESERVE_REACHED 157)
  onlyIf (f0 = 0 && decide (f < l)) (sticky Reg.RC_EVENT Fld.RC_EVENT_FLOOR_REACHED 157)

/-- DRAM address of a spill slot. -/
def State.spillAddr (s : State) (i : Nat) : Nat := s.fld Reg.RC_SPILL_BASE Fld.RC_SPILL_BASE_BASE * 64 + 64 * i

/-- The bytes of a spilled entry with its link (R133). -/
def Entry.bytes (e : Entry) (next : Nat) : List Byte :=
  let b := (e.opnds.flatMap fun w => leBytes 8 w.toNat) ++ leBytes 6 e.tag ++
    leBytes 1 (e.present + 16 * e.absent) ++
    leBytes 1 (1 + 2 * bit e.pinned + 4 * bit e.ready + 8 * bit e.fired + 16 * e.cgen) ++
    leBytes 4 e.age ++ zeros 4 ++ leBytes 4 next ++ zeros 8
  b ++ leBytes 4 (crc32c b)

/-- The entry a spill slot's bytes hold (R133). -/
def Entry.ofBytes (b : List Byte) : Entry :=
  let f := leAt b 39 1
  ⟨(List.range 4).map fun i => Word.ofNat (leAt b (8 * i) 8), leAt b 32 6, leAt b 38 1 % 16, leAt b 38 1 / 16,
    bitOf f 1, bitOf f 2, bitOf f 3, f / 16, leAt b 40 4⟩

/-- Whether a spill slot's CHECK holds (R133). -/
def slotGood (b : List Byte) : Bool := leAt b 60 4 = crc32c (b.take 60)

/-- The slots of a context's spill chain, in chain order. -/
def State.chainFrom (s : State) : Nat → Nat → List Nat
  | 0, _ => []
  | n + 1, i => if i = chainEnd then [] else i :: s.chainFrom n (s.leMem (s.spillAddr i + 48) 4 % 2 ^ 27)
def State.chain (s : State) (x : Nat) : List Nat := s.chainFrom (s.ctx x).spilled (s.ctx x).spillHead

/-- The spill slot that holds the entry of a tag, if its context has spilled it. -/
def State.spilledSlot (s : State) (tag : Nat) : Option Nat :=
  (s.chain (tagCtx tag)).find? fun i => s.leMem (s.spillAddr i + 32) 6 = tag

/-- Put an entry at the head of its context's spill chain. -/
def spillEntry (e : Entry) : M Unit := do
  let x := tagCtx e.tag
  let r ← rd (·.rc)
  let n ← rd (·.spillSlots)
  let i := if r.spillNext < n then r.spillNext else r.spillFreed.headD 0
  emit (.rc (if r.spillNext < n then { r with spillNext := r.spillNext + 1 } else { r with spillFreed := r.spillFreed.drop 1 }))
  let a ← rd (·.spillAddr i)
  let c ← rd (·.ctx x)
  let b ← rd (·.bankOfTag e.tag)
  store (124 + b) a (e.bytes c.spillHead)
  emit (.ctxs x { c with onChip := c.onChip - 1, spilled := c.spilled + 1, spillHead := i })
  ctxSync x
  count Reg.RC_CNT_SPILLS
  reserveFlags

/-- Take a slot out of its context's spill chain and free it. -/
def unlinkSlot (x i : Nat) : M Unit := do
  let chain ← rd (·.chain x)
  let a ← rd (·.spillAddr i)
  let next ← rd (·.leMem (a + 48) 4)
  let prev := (chain.takeWhile (· != i)).getLast?
  match prev with
  | none => modCtxs x fun c => { c with spillHead := next % 2 ^ 27 }
  | some p => do
    let pa ← rd (·.spillAddr p)
    let pb ← rd (·.bytes pa 60)
    let nb := pb.take 48 ++ leBytes 4 (next % 2 ^ 27) ++ pb.drop 52
    store squareSource pa (nb ++ leBytes 4 (crc32c nb))
  changeCtx x fun c => { c with spilled := c.spilled - 1 }
  modRc fun r => { r with spillFreed := r.spillFreed ++ [i] }
  reserveFlags

/-- Entries a bank holds. -/
def bankSize : Nat := 65536

/-- Before in age: serial arithmetic on the device entry counter (R133, R549). -/
def olderThan (a b : Entry) : Bool := serBefore 32 a.age b.age

/-- The oldest of some entries. -/
def oldest : List Entry → Option Entry
  | [] => none
  | e :: es => match oldest es with
    | none => some e
    | some o => if olderThan o e then some o else some e

/-- The entry a full bank spills: the oldest unpinned one that is not READY, else the oldest unpinned READY one (R136). -/
def Bank.victim (k : Bank) : Option Entry :=
  let un := k.entries.filter fun e => !e.pinned
  (oldest (un.filter fun e => !e.ready)).orElse fun _ => oldest un

/-- Whether a bank has, or can make, room for one more entry (R136, R138). -/
def State.entryRoom (s : State) (b : Nat) : Bool :=
  let k := s.banksAt b
  decide (k.entries.length < bankSize) || (k.victim.isSome && decide (0 < s.spillFree))

/-- Make room for an entry in a bank that has or can make it, spilling if it is full (R136). -/
def makeRoom (b : Nat) : M Unit := do
  let k ← rd (·.banksAt b)
  onlyIf (decide (bankSize ≤ k.entries.length)) do
    match k.victim with
    | none => pure ()
    | some e => do
      emit (.banks b { k with entries := k.entries.filter (· != e) })
      spillEntry e

/-- Stop a bank (R138). -/
def stopBank (b : Nat) : M Unit := do
  modBanks b fun k => { k with stopped := true }
  sticky Reg.RC_EVENT Fld.RC_EVENT_SPILL_EXHAUSTED 157

/-- Put an entry into a bank that has room. -/
def putEntry (b : Nat) (e : Entry) : M Unit := do
  makeRoom b
  modBanks b fun k => { k with entries := k.entries ++ [e] }
  changeCtx (tagCtx e.tag) fun c => { c with onChip := c.onChip + 1 }

/-- Whether two entries are the same one: its tag, and when it was created. -/
def Entry.same (e x : Entry) : Bool := x.tag = e.tag && x.age = e.age

/-- Take an entry out of a bank. -/
def dropEntry (b : Nat) (e : Entry) : M Unit := do
  modBanks b fun k => { k with entries := k.entries.filter fun x => !e.same x }
  changeCtx (tagCtx e.tag) fun c => { c with onChip := c.onChip - 1 }

/-- Replace an entry of a bank. -/
def setEntry (b : Nat) (e : Entry) : M Unit :=
  modBanks b fun k => { k with entries := k.entries.map fun x => if e.same x then e else x }

/-! Tokens at a bank (R106, R117, R118, R121, R126, R127). -/

/-- Whether a bank accepts a token (R106): the generations match, and the context lives, in the tag's classroom (DEDUCED: R106 does
not list a context of another classroom; notes/assumptions/168.md). -/
def State.tokenAccepted (s : State) (t : Token) : Bool :=
  let c := s.ctx (tagCtx t.tag)
  t.clgen = s.clgen (tagClass t.tag) && t.cgen = c.cgen && c.msg.classroom = tagClass t.tag &&
    (c.state = .active || c.state = .parking || c.state = .parked)

/-- Take the token at the head of a bank's urgent lane, else of its queue (R134). -/
def Bank.head (k : Bank) : Option Token := k.urgent.head?.orElse fun _ => k.inq.head?
def Bank.pop (k : Bank) : Bank := if k.urgent.isEmpty then { k with inq := k.inq.drop 1 } else { k with urgent := k.urgent.drop 1 }

/-- A context accepts a token: a PARKED one returns to ACTIVE, its record back in the context store and its timer cancelled
(R108, R126). -/
def acceptToken (x : Nat) : M Unit := do
  count Reg.RC_CNT_TOKENS
  let c ← rd (·.ctx x)
  onlyIf (c.state = .parked) do
    count Reg.RC_CNT_UNPARKS
    unstore x
    cancelPark x
    modCtxs x fun c => { c with state := .active }

/-- A list with element `i` replaced. -/
def listSet {α : Type} (l : List α) (i : Nat) (v : α) : List α := l.take i ++ v :: l.drop (i + 1)

/-- An entry with a token's operand added; a JOIN_ANY that has its value takes later operands as absent (R127). -/
def Entry.add (e : Entry) (t : Token) (drop : Bool) : Entry :=
  { e with opnds := if drop then e.opnds else listSet e.opnds t.port t.value
           present := setBit e.present t.port true
           absent := if t.absent || drop then setBit e.absent t.port true else e.absent }

/-- Whether every port of a node holds a token. -/
def Entry.full (e : Entry) (d : NodeDesc) : Bool := (List.range d.arity).all fun p => bitOf e.present p

/-- The port a complete entry's JOIN_ANY value stands on: the one that is not absent, else port 0. -/
def Entry.joinPort (e : Entry) : Nat := (findBelow 4 fun p => bitOf e.present p && !bitOf e.absent p).getD 0

/-- Whether a node fires on each token by itself, without an entry of its own (R118). -/
def NodeDesc.alone (d : NodeDesc) : Bool := d.kind = kLoopEnter || d.kind = kLoopExit || d.arity = 1

/-- The port whose token a JOIN_ANY or a loop node passes on. -/
def Entry.firePort (e : Entry) (d : NodeDesc) : Nat :=
  if d.kind = kJoinAny then e.joinPort else if d.alone then (findBelow 4 fun p => bitOf e.present p).getD 0 else 0

/-- Whether an entry is due to fire: every operand there, or a JOIN_ANY's value (R118, R127). -/
def Entry.due (e : Entry) (d : NodeDesc) : Bool :=
  if d.kind = kJoinAny then
    !e.fired && (e.full d || (List.range 4).any fun p => bitOf e.present p && !bitOf e.absent p)
  else e.full d

/-- An entry that holds nothing. -/
def State.newEntry (s : State) (tag : Nat) : Entry :=
  let c := s.ctx (tagCtx tag)
  ⟨[0, 0, 0, 0], tag, 0, 0, c.pinned, false, false, c.cgen, s.rc.entryCtr % 2 ^ 32⟩

/-- Fire an entry of a bank that is due, if it can fire now; else it is READY (R127, R135). -/
def fireEntry (b : Nat) (e : Entry) : M Unit := do
  let d ← rd (·.nodeOf e.tag)
  let port := e.firePort d
  let can ← rd (·.canFire b e.tag d e.absent)
  if !can then do
    noteShort e.tag d e.absent
    setEntry b { e with ready := true }
  else do
    if d.kind = kJoinAny && !e.full d then setEntry b { e with ready := false, fired := true }
    else dropEntry b e
    fireNode b e.tag port d e.opnds e.absent

/-- A token joins the entry of its tag in a bank (R118, R121, R127). -/
def joinEntry (b : Nat) (e : Entry) (t : Token) : M Unit := do
  let d ← rd (·.nodeOf t.tag)
  if bitOf e.present t.port then count Reg.RC_CNT_DUP_OPERAND
  else do
    let e' := e.add t (d.kind = kJoinAny && (e.fired || e.ready))
    if e.ready then setEntry b e'
    else if e.fired then (if e'.full d then dropEntry b e else setEntry b e')
    else if e'.due d then do
      setEntry b e'
      fireEntry b e'
    else setEntry b e'

/-- A token with no entry yet: it fires at once, takes an entry, or stops its bank (R118, R136, R138). -/
def firstToken (b : Nat) (t : Token) (pop : M Unit) : M Unit := do
  let d ← rd (·.nodeOf t.tag)
  let alone := d.alone
  let op := listSet [0, 0, 0, 0] t.port t.value
  let absent := if t.absent then 2 ^ t.port else 0
  let can ← rd (·.canFire b t.tag d absent)
  if alone && can then do
    pop
    acceptToken (tagCtx t.tag)
    fireNode b t.tag t.port d op absent
  else do
    let room ← rd (·.entryRoom b)
    if !room then stopBank b
    else do
      pop
      acceptToken (tagCtx t.tag)
      let e ← rd (·.newEntry t.tag)
      modRc fun r => { r with entryCtr := r.entryCtr + 1 }
      let e' := e.add t false
      putEntry b e'
      onlyIf (alone || e'.due d) (fireEntry b e')

/-- Whether Roll Call runs: wherever threads and the datapath may act. -/
def State.rollCallOn (s : State) : Bool := s.threadsOn

/-- TOKEN_ARRIVE: a bank takes one token (R106).  DEDUCED: a node of one port needs no entry, so that a second token of its fires
anew or gets an entry of its own, and is no second token of R121 (notes/assumptions/173.md). -/
def tokenArriveM (b : Nat) : M Unit := do
  let k ← rd (·.banksAt b)
  let on ← rd fun s => s.rollCallOn && !s.fenced (bankUnit b)
  onlyIf (on && !k.stopped && decide (b < 4)) do
    match k.head with
    | none => pure ()
    | some t => do
     let here ← rd fun s => s.bankOfTag t.tag == b
     onlyIf here do
      let pop := modBanks b Bank.pop
      let ok ← rd (·.tokenAccepted t)
      let spilled ← rd (·.spilledSlot t.tag)
      let inv ← rd (·.nodeInvalid t.tag t.port)
      if !ok then do
        pop
        count Reg.RC_CNT_LATE_TOKEN
        onlyIf t.emitted (count Reg.RC_CNT_EMIT_DEAD)
      else if spilled.isSome then pure ()
      else withRecord (tagCtx t.tag) (if inv then do
        pop
        acceptToken (tagCtx t.tag)
        event (124 + b)
        wantAbandon (tagCtx t.tag) t.cgen
      else do
        let d ← rd (·.nodeOf t.tag)
        match (if d.alone then none else k.entries.find? (·.tag = t.tag)) with
        | some e => do
          pop
          acceptToken (tagCtx t.tag)
          joinEntry b e t
        | none => firstToken b t pop)
      pump

/-- TOKEN_ARRIVE. -/
def execTokenArrive (b : Nat) (s : State) : Host.Outcome State Fault Refusal := commit (tokenArriveM b) s

/-- Whether a READY entry may fire: its context still takes tokens. -/
def State.mayFire (s : State) (e : Entry) : Bool :=
  let c := s.ctx (tagCtx e.tag)
  e.ready && c.cgen = e.cgen && (c.state = .active || c.state = .parking || c.state = .parked)

/-- The spill slots that hold READY entries of tags a bank serves (R147): context, slot and entry. -/
def State.spilledReady (s : State) (b : Nat) : List (Nat × Nat × Entry) :=
  s.ctxs.flatMap fun c => (s.chain c.1).filterMap fun i =>
    let e := Entry.ofBytes (s.bytes (s.spillAddr i) 64)
    if s.bankOfTag e.tag = b && s.mayFire e then some (c.1, i, e) else none

/-- A spill slot that cannot be read or whose CHECK fails: its report, its slot freed, and its context is abandoned
(R137, R347). -/
def badSlot (b x i : Nat) : M Unit := do
  let a ← rd (·.spillAddr i)
  let bad ← rd (·.lineBad a)
  if bad then reportBad a else report (124 + b) clsU 0x04 (some (bankUnit b)) x
  unlinkSlot x i
  let c ← rd (·.ctx x)
  wantAbandon x c.cgen

/-- Whether a spill slot reads good. -/
def State.slotOk (s : State) (i : Nat) : Bool := !s.lineBad (s.spillAddr i) && slotGood (s.bytes (s.spillAddr i) 64)

/-- SPILL_REFILL: the spilled entry that the token at the head of bank `b` matches is brought back (R137). -/
def execSpillRefill (b : Nat) (s : State) : Host.Outcome State Fault Refusal :=
  commit (do
    let k ← rd (·.banksAt b)
    let on ← rd fun s => s.rollCallOn && !s.fenced (bankUnit b)
    onlyIf (on && !k.stopped && decide (b < 4)) do
      match k.head with
      | none => pure ()
      | some t => do
        let ok ← rd (·.tokenAccepted t)
        let slot ← rd (·.spilledSlot t.tag)
        match slot with
        | none => pure ()
        | some i => do
          let x := tagCtx t.tag
          let a ← rd (·.spillAddr i)
          let ready ← rd (·.dramReady a)
          onlyIf ok do
            touch (124 + b) a 64 t.urgent
            let good ← rd (·.slotOk i)
            let room ← rd (·.entryRoom b)
            if !ready then pure ()
            else if !good then badSlot b x i
            else if !room then stopBank b
            else do
              let e ← rd fun s => Entry.ofBytes (s.bytes a 64)
              unlinkSlot x i
              putEntry b e
              count Reg.RC_CNT_REFILLS) s

/-- The oldest of some spilled entries. -/
def oldestSlot (l : List (Nat × Nat × Entry)) : Option (Nat × Nat × Entry) :=
  (oldest (l.map (·.2.2))).bind fun e => l.find? fun x => x.2.2 == e

/-- The spilled READY entry that fires next at a bank: the oldest, if no READY entry that the bank holds is older, and the bank
has room for it or holds none (R135). -/
def State.readySlot (s : State) (b : Nat) : Option (Nat × Nat × Entry) :=
  let here := oldest ((s.banksAt b).entries.filter s.mayFire)
  (oldestSlot (s.spilledReady b)).filter fun x => here.all fun e => olderThan x.2.2 e && s.entryRoom b

/-- A READY entry fires; an END whose context's record lies in DRAM waits for it (R108, R345). -/
def fireReady (b : Nat) (e : Entry) : M Unit := do
  let d ← rd (·.nodeOf e.tag)
  if d.kind = kEnd then withRecord (tagCtx e.tag) (fireEntry b e) else fireEntry b e

/-- READY_FIRE: the oldest READY entry of bank `b`, spilled ones among them, fires if it can (R135). -/
def execReadyFire (b : Nat) (s : State) : Host.Outcome State Fault Refusal :=
  commit (do
    let on ← rd fun s => s.rollCallOn && !s.fenced (bankUnit b) && decide (b < 4)
    onlyIf on do
      pump
      let e ← rd fun s => oldest ((s.banksAt b).entries.filter s.mayFire)
      let slot ← rd (·.readySlot b)
      match slot with
      | none => match e with
        | none => pure ()
        | some e => fireReady b e
      | some (x, i, e) => do
          let a ← rd (·.spillAddr i)
          let ready ← rd (·.dramReady a)
          let good ← rd (·.slotOk i)
          let room ← rd (·.entryRoom b)
          if !ready then touch (124 + b) a 64 false
          else if !good then badSlot b x i
          else onlyIf room do
            touch (124 + b) a 64 false
            unlinkSlot x i
            putEntry b e
            count Reg.RC_CNT_REFILLS
            fireReady b e
      pump) s

/-- BANK_RESUME: a stopped bank goes on once it has, or can make, room for an entry (R138). -/
def execBankResume (b : Nat) (s : State) : Host.Outcome State Fault Refusal :=
  commit (do
    let k ← rd (·.banksAt b)
    let room ← rd (·.entryRoom b)
    onlyIf (k.stopped && room) (modBanks b fun k => { k with stopped := false })) s

end Sys2Proof.Machine
end

