-- ==== Sys2Proof/Machine/Contexts.lean ====
section
/-! DEFINITION. The life of a context (R107 to R111, R126, R142 to R145): parking, its timer, its end, the stalemate
detector and the start of an abandonment. -/

namespace Sys2Proof.Machine

/-- Whether Tenik runs (R410, R497). -/
def State.tenikUp (s : State) : Bool := !s.boot.tenikDown

/-- The seat of a core is given up (R162): its thread has its own weight again, which a waiter of its locks may exceed (R387). -/
def releaseSeat (t : Nat) : M Unit := do
  let o := coreReg Reg.CORE_STATUS (coreOf t)
  let held ← rd (·.isSeat t)
  onlyIf held do
    setFld o Fld.CORE_STATUS_SEAT_VALID 0
    lockBoostAll

/-- One reference to a Term slot ends (R468). -/
def termUnref (slot : Nat) : M Unit := modTerms slot fun t => { t with refs := t.refs - 1 }

/-- One reference to a Term slot begins (R468). -/
def termRef (slot : Nat) : M Unit := modTerms slot fun t => { t with refs := t.refs + 1 }

/-- The entries a context holds in a bank. -/
def Bank.without (k : Bank) (x : Nat) : Bank := { k with entries := k.entries.filter fun e => tagCtx e.tag != x }

/-- A context goes to FREE (R110): entries, slots, timer, place, buffers, seat and Term reference are released and its
CGEN moves on. -/
def freeCtx (x : Nat) : M Unit := do
  let c ← rd (·.ctx x)
  cancelPark x
  each (List.range 4) fun b => modBanks b fun k => k.without x
  let chain ← rd (·.chain x)
  modRc fun r => { r with spillFreed := r.spillFreed ++ chain, ctxFreed := r.ctxFreed ++ [x]
                          toAbandon := r.toAbandon.filter (·.1 != x)
                          store := r.store.filter (·.1 != x) }
  onlyIf (!chain.isEmpty) reserveFlags
  bufDrop none c.msg.buffer
  each c.attached (bufDrop none)
  match c.seat with
  | some t => releaseSeat t
  | none => pure ()
  termUnref c.msg.term
  emit (.ctxs x { Ctx.zero with cgen := (c.cgen + 1) % 16 })

/-- CONTEXT_FREE: an ENDING context with no activation and no request left becomes FREE (R109, R110, R181). -/
def execContextFree (x : Nat) (s : State) : Host.Outcome State Fault Refusal :=
  commit (do
    let c ← rd (·.ctx x)
    let on ← rd (·.rollCallOn)
    onlyIf (on && c.state = .ending && c.acts = 0 && c.reqs = 0) do
      cwClose x c.cgen
      count Reg.RC_CNT_CONTEXTS_ENDED
      freeCtx x) s

/-- CONTEXT_PARK: a PARKING context with no activation and no request left becomes PARKED; its record and its entries
move from the context store to DRAM unless it parks in place: a class-0 context, one whose entries find no room, and every
one while there are no spill slots (R108, R109, R126, RC_SPILL_SIZE). -/
def execContextPark (x : Nat) (s : State) : Host.Outcome State Fault Refusal :=
  commit (do
    let c ← rd (·.ctx x)
    let on ← rd (·.rollCallOn)
    onlyIf (on && c.state = .parking && c.acts = 0 && c.reqs = 0) do
      modCtxs x fun c => { c with state := .parked }
      let mine ← rd fun s => (List.range 4).flatMap fun b => (s.banksAt b).entries.filter fun e => tagCtx e.tag = x
      let free ← rd (·.spillFree)
      let slots ← rd (·.spillSlots)
      onlyIf (!c.pinned && slots != 0 && decide (mine.length ≤ free)) do
        each (List.range 4) fun b => modBanks b fun k => k.without x
        each mine spillEntry
        let c ← rd (·.ctx x)
        let a ← rd (·.ctxAddr x)
        store squareSource a (c.bytes x)
        storeLeave x
        modCtxs x fun c => { c with inDram := true }) s

/-- Whether a due entry of the delay lists can be delivered: a park's token needs room in its bank's queue. -/
def State.deliverable (s : State) (a : DelayArm) : Bool :=
  decide (a.due ≤ s.tick) && match a.kind with
    | .park t => s.roomFor [t]
    | .thread _ => true

/-- Whether entry `d`, which waits for `a`, is delivered next: no deliverable one stands on a lower list, or on its own list
with an earlier time (R167). -/
def State.dueNext (s : State) (a : DelayArm) : Bool :=
  s.deliverable a && !(s.delay.any fun e => e.2.arm.any fun b =>
    s.deliverable b && decide (b.list < a.list ∨ b.list = a.list ∧ b.due < a.due))

/-- PARK_TIMEOUT: a park timer falls due and delivers its token, which waits for room in its bank's queue (R126, R167,
R168). -/
def execParkTimeout (d : Nat) (s : State) : Host.Outcome State Fault Refusal :=
  commit (do
    let e ← rd (·.delayAt d)
    let on ← rd (·.rollCallOn)
    match e.arm with
    | some ⟨l, due, .park t⟩ => do
      let next ← rd (·.dueNext ⟨l, due, .park t⟩)
      onlyIf (on && next) do
        delayFree d
        count Reg.SQ_CNT_TIMERS_DUE
        changeCtx (tagCtx t.tag) fun c =>
          { c with timer := if c.cgen = t.cgen && c.timer = some (d + (c.timer.getD 0) / 2 ^ 24 * 2 ^ 24) then none else c.timer }
        pushToken t
    | _ => pure ()) s

/-- STALEMATE: the window has passed with no progress while a context that is not parked exists (R142). -/
def execStalemate (s : State) : Host.Outcome State Fault Refusal :=
  commit (do
    let en ← rd (·.inForce Reg.RC_STALL Fld.RC_STALL_EN)
    let on ← rd fun s => s.rollCallOn && s.ctxs.any fun e => e.2.state != .free && e.2.state != .parked
    onlyIf (en = 1 && on) (sticky Reg.RC_EVENT Fld.RC_EVENT_STALEMATE 157)) s

/-- The youngest context, by admission order, that is not PARKED (R143). -/
def State.youngest (s : State) : Option Nat :=
  (s.ctxs.foldl (fun (best : Option (Nat × Nat)) e =>
    if e.2.state = .free ∨ e.2.state = .parked then best
    else match best with
      | none => some (e.1, e.2.order)
      | some (_, o) => if o < e.2.order then some (e.1, e.2.order) else best) none).map Prod.fst

/-- TENIK_STALEMATE_ACTION: Tenik clears STALEMATE and abandons the youngest context that is not PARKED (R143). -/
def execTenikStalemateAction (s : State) : Host.Outcome State Fault Refusal :=
  commit (do
    let set ← rd (·.fld Reg.RC_EVENT Fld.RC_EVENT_STALEMATE)
    let up ← rd fun s => s.tenikUp && s.rollCallOn
    onlyIf (up && set = 1) do
      setFld Reg.RC_EVENT Fld.RC_EVENT_STALEMATE 0
      let y ← rd (·.youngest)
      match y with
      | none => pure ()
      | some x => do
        let c ← rd (·.ctx x)
        setFld Reg.RC_STALL_INFO Fld.RC_STALL_INFO_CONTEXT x
        setFld Reg.RC_STALL_INFO Fld.RC_STALL_INFO_CLASSROOM c.msg.classroom
        let n ← rd (·.fld Reg.RC_STALL_INFO Fld.RC_STALL_INFO_COUNT)
        setFld Reg.RC_STALL_INFO Fld.RC_STALL_INFO_COUNT (n + 1)
        wantAbandon x c.cgen) s

/-! Activations of a context that go away. -/

/-- The activation records of a context's present life. -/
def State.actsOf (s : State) (x : Nat) : List (Nat × Act) :=
  s.acts.filterMap fun e => match e.2 with
    | some a => if a.ctx = x ∧ a.cgen = (s.ctx x).cgen then some (e.1, a) else none
    | none => none

/-- Take an activation out of the list, the bypass lane or the pre-emption it waits in. -/
def unqueueAct (i : Nat) : M Unit := do
  modSq fun q => { q with bypass := q.bypass.filter (· != i) }
  let keys ← rd fun s => (s.ready.filter fun e => e.2.contains i).map Prod.fst
  each keys fun k => modReady k fun l => l.filter (· != i)
  let ts ← rd fun s => (s.threads.filter fun e => e.2.preempt = some i).map Prod.fst
  each ts fun t => do
    modThreads t fun th => { th with preempt := none }
    clearFlag t evPreempt

/-- Remove a context's queued activations from the dispatcher (R145). -/
def dropQueued (x : Nat) : M Unit := do
  let l ← rd fun s => (s.actsOf x).filter fun e => e.2.place = .ready
  each l fun e => do
    unqueueAct e.1
    actRelease e.1

/-- ABANDON_CONTEXT: the first step of an abandonment Tenik has been asked for (R144, R145); a context of its classroom's old
generation is left to be freed without default action (R150). -/
def execAbandonContext (x : Nat) (s : State) : Host.Outcome State Fault Refusal :=
  commit (do
    let c ← rd (·.ctx x)
    let asked ← rd fun s => s.rc.toAbandon.contains (x, c.cgen) && s.tenikUp && s.rollCallOn
    let live ← rd fun s => s.clgen c.msg.classroom == c.clgen
    onlyIf asked (withRecord x do
      modRc fun r => { r with toAbandon := r.toAbandon.filter (·.1 != x) }
      onlyIf (c.state != .free && c.state != .abandoning && live) do
        unstore x
        modCtxs x fun c => { c with state := .abandoning }
        count Reg.RC_CNT_ABANDONED
        dropQueued x
        cancelPark x)) s

end Sys2Proof.Machine
end

