-- ==== Sys2Proof/Machine/Tables.lean ====
section
/-! DEFINITION. Table engines (R292 to R319): reading and writing entries, lookups, insertion with relocation and
eviction, command ports, learn notices and mirrored placement. -/

namespace Sys2Proof.Machine

/-- A table engine as a fenceable unit. -/
abbrev engineUnit (n : Nat) : UnitId := ⟨.engine, n⟩

/-! Status codes (R402). -/
abbrev stDone : Nat := 0x0000
abbrev stAccepted : Nat := 0x0001
abbrev stBadOpcode : Nat := 0x0010
abbrev stBadLength : Nat := 0x0011
abbrev stBadParam : Nat := 0x0012
abbrev stWrongMode : Nat := 0x0013
abbrev stNotFound : Nat := 0x0014
abbrev stExists : Nat := 0x0015
abbrev stNoRoom : Nat := 0x0016
abbrev stEvicted : Nat := 0x0017
abbrev stBusyRetry : Nat := 0x0018
abbrev stIntegrity : Nat := 0x001A
abbrev stInternal : Nat := 0x00FF

/-! Entries (R296, R303, R307, R315 to R317). -/

/-- META of an entry. -/
def metaOf (d : TableDesc) (e : List Byte) : Nat := leAt e (d.esize - 8) 8

/-- CHECK of an entry (R296). -/
def checkOf (d : TableDesc) (t : Nat) (e : List Byte) : Nat := crc32c (e.take (d.esize - 8) ++ leBytes 1 t) % 65536

/-- Whether an entry's CHECK holds: an empty slot and an array entry that is still zero have none (R296). -/
def entryGood (d : TableDesc) (t : Nat) (e : List Byte) : Bool :=
  (if d.kind = kindHash then metaOf d e = 0 else e.all (· == 0)) || metaOf d e % 65536 = checkOf d t e

/-- The key stored in a HASH entry. -/
def storedKey (d : TableDesc) (e : List Byte) : Nat := leAt e (d.esize - 8 - d.keyLen) d.keyLen

/-- Whether a HASH slot is empty, and whether it holds a valid entry (R296). -/
def slotEmpty (d : TableDesc) (e : List Byte) : Bool := metaOf d e = 0
def slotValid (d : TableDesc) (e : List Byte) : Bool := bitOf (metaOf d e) 32

/-- AGE of a HASH entry. -/
def ageOf (d : TableDesc) (e : List Byte) : Nat := bitsOf (metaOf d e) 31 16

/-- The age clock of a table, and its decay period number (R303, R307). -/
def State.period (s : State) (d : TableDesc) : Nat := s.timeNs / (d.periodUs * 1000)

/-- A HASH entry as the engine stores it (R296, R306, R307). -/
def State.hashEntry (s : State) (d : TableDesc) (t key : Nat) (data : List Byte) : List Byte :=
  let body := padTo (d.esize - 8 - d.keyLen) data ++ leBytes d.keyLen key
  body ++ leBytes 8 (crc32c (body ++ leBytes 1 t) % 65536 + s.period d % 65536 * 2 ^ 16 + 2 ^ 32)

/-- An ARRAY or COUNTER entry as the engine stores it; a decayed one is stamped (R296, R303). -/
def arrayEntry (d : TableDesc) (t stamp : Nat) (data : List Byte) : List Byte :=
  let body := padTo (d.esize - 8) data
  body ++ leBytes 8 (crc32c (body ++ leBytes 1 t) % 65536 +
    (if d.kind = kindCounter && d.decay then stamp % 2 ^ 48 * 2 ^ 16 else 0))

/-- The stamp of a decayed entry. -/
def stampOf (d : TableDesc) (e : List Byte) : Nat := bitsOf (metaOf d e) 63 16

/-- A word shifted right towards zero (R303). -/
def decayWord (k : Nat) (w : Word) : Word :=
  if k ≥ 64 then 0 else if w.msb then 0 - ((0 - w) >>> k) else w >>> k

/-- An entry with its data words decayed to period `p` (R303). -/
def decayEntry (d : TableDesc) (p : Nat) (e : List Byte) : List Byte :=
  if d.kind = kindCounter && d.decay then
    let k := (p % 2 ^ 48 + 2 ^ 48 - stampOf d e) % 2 ^ 48
    ((List.range (d.esize / 8 - 1)).flatMap fun i => leBytes 8 (decayWord k (Word.ofNat (leAt e (8 * i) 8))).toNat) ++
      e.drop (d.esize - 8)
  else e

/-- The other copy of a line of a mirrored table (R316). -/
def TableDesc.partner (d : TableDesc) (a : Nat) : Nat :=
  if d.base + d.mirrorOff ≤ a then a - d.mirrorOff else a + d.mirrorOff

/-- Whether a line still waits to be copied back (R317). -/
def State.unsynced (s : State) (a : Nat) : Bool :=
  (List.range 16).any fun n => (s.enginesAt n).resync.any fun r => r.1 = alignDown a 64

/-! The caches (R292, R309). -/

/-- A line is the most recently used of its set of 16; the least recently used one leaves a full set (R292). -/
def cachePut (c : List Nat) (l : Nat) : List Nat :=
  let c := l :: c.erase l
  let mates := c.filter fun x => Config.cacheSet x % 2048 == Config.cacheSet l % 2048
  if c.length ≤ 16 || mates.length ≤ 16 then c else c.erase (mates.getLastD 0)

/-- Whether an engine's cache holds a line. -/
def State.cached (s : State) (l : Nat) : Bool := s.engines.any fun e => e.2.cache.contains l

/-- Whether an engine reads an entry's secondary copy in place of its primary: the primary's channel takes no requests, or its
line waits to be copied back (R316, R317). -/
def State.redirected (s : State) (a len : Nat) : Bool :=
  (linesOf a len).any fun l => (s.dramChan l).any s.ddrOut || s.unsynced l

/-- Engine `n` reads bytes that lie in one DRAM row.  A line read from DRAM is allocated unless the
table bypasses the cache or the line cannot be read (R347); an uncorrectable error of a cached line has it fetched again, and
counts as corrected (R292). -/
def engineRead (n : Nat) (d : TableDesc) (a len : Nat) (urgent : Bool) : M Unit := do
  let away ← rd fun s => d.mirror && s.redirected a len
  let a := if away then a + d.mirrorOff else a
  let ls := linesOf a len
  let held ← rd fun s => ls.all (s.enginesAt n).cache.contains
  let k ← draw
  let spoiled := held && Config.cacheError k
  onlyIf spoiled (report (108 + n) clsC 0x01 (some (engineUnit n)) a)
  let good ← rd fun s => ls.filter fun l => !(s.lineBad l) || (s.enginesAt n).cache.contains l && !spoiled
  modEngines n fun e =>
    let kept := if spoiled then e.cache.filter (!ls.contains ·) else e.cache
    { e with cache := if held || !d.bypass then good.foldl cachePut kept else kept }
  if held && !spoiled then count (Reg.TE_CNT_CACHE_HITS n)
  else do
    countBy (Reg.TE_CNT_DRAM_LINES n) ls.length
    touchRow (108 + n) a len urgent

/-- Whether an engine cannot read some bytes: their channel takes no requests, or their check code is uncorrectable and no
cache holds them (R292, R315). -/
def State.unreadable (s : State) (a len : Nat) : Bool :=
  (linesOf a len).any (fun l => (s.dramChan l).any s.ddrOut) ||
    (partsOf a len).any fun g => s.badAt g && !s.cached (alignDown g 64)

/-- Whether an entry at an address reads good. -/
def State.entryOk (s : State) (d : TableDesc) (t a : Nat) : Bool :=
  !s.unreadable a d.esize && !(linesOf a d.esize).any s.unsynced && entryGood d t (s.bytes a d.esize)

/-- The entry at a primary address: the primary, or of a mirrored table its good secondary (R315, R317). -/
def State.entryAt (s : State) (d : TableDesc) (t a : Nat) : Option (List Byte) :=
  if s.entryOk d t a then some (s.bytes a d.esize)
  else if d.mirror && s.entryOk d t (a + d.mirrorOff) then some (s.bytes (a + d.mirrorOff) d.esize)
  else none

/-! The apply log (R305). -/

/-- DRAM address of the record with sequence number `seq`. -/
def State.logAddr (s : State) (n seq : Nat) : Nat :=
  s.fld (Reg.TE_ALOG_BASE n) Fld.TE_ALOG_BASE_BASE * 2 ^ 20 + seq % logRecords * 256

/-- The DRAM write of a record. -/
def logWrite (n seq : Nat) : M Unit := do
  let a ← rd (·.logAddr n seq)
  ddrRequest ⟨linesOf a 256, true, false, 0, noLine, 108 + n, 0, []⟩

/-- Put a record into an engine's apply log before what it announces is done; its sequence number (R305). -/
def logRecord (n t : Nat) (d : TableDesc) (b : LogBody) : M Nat := do
  let q ← rd fun s => (s.enginesAt n).logSeq
  modEngines n fun g =>
    let l := g.log ++ [⟨q, t, d, b, false⟩]
    { g with log := l.drop (l.length - logRecords), logSeq := q + 1 }
  logWrite n q
  pure q

/-- Mark a record of an apply log complete (R305). -/
def logDone (n q : Nat) : M Unit := do
  modEngines n fun g => { g with log := g.log.map fun r => if r.seq = q then { r with done := true } else r }
  logWrite n q

/-- Mark the record of a move complete, in the log that holds it: the engine that makes the move may have taken over from the one
that began it (R305, R318). -/
def logMoved (m : Move) : M Unit :=
  each (List.range 16) fun n => do
    let l ← rd fun s => (s.enginesAt n).log.filter fun r => r.body == .move m && !r.done
    each l fun r => logDone n r.seq

/-- The incomplete records of an engine's log (R318). -/
def State.logOpen (s : State) (n : Nat) : List LogRec := (s.enginesAt n).log.filter (!·.done)

/-! Writing entries (R304, R305, R315 to R317). -/

/-- Write an entry to its primary address, and of a mirrored table to both copies; a copy on a channel that takes no requests is
left for the resynchronisation (R316, R317). -/
def writeCopies (n : Nat) (d : TableDesc) (a : Nat) (e : List Byte) : M Unit := do
  engineStore n a e
  onlyIf d.mirror do
    engineStore n (a + d.mirrorOff) e
    let lost ← rd fun s => (linesOf a d.esize).flatMap fun l =>
      let out := fun (x : Nat) => (s.dramChan x).any s.ddrOut
      (if out l then [(l, l + d.mirrorOff)] else []) ++ (if out (l + d.mirrorOff) then [(l + d.mirrorOff, l)] else [])
    onlyIf (!lost.isEmpty) (modEngines n fun g => { g with resync := g.resync.filter (fun r => !lost.contains r) ++ lost })

/-- Change an entry in place: its image goes to the apply log first, and the record is marked complete afterwards (R305). -/
def writeEntry (n t : Nat) (d : TableDesc) (a : Nat) (e : List Byte) : M Unit := do
  let q ← logRecord n t d (.image a e)
  writeCopies n d a e
  logDone n q

/-- What reading an entry leaves behind: counts, a repaired primary, or an uncorrected fault (R315, R347). -/
def readMarks (n : Nat) (d : TableDesc) (t a : Nat) : M Unit := do
  let ok ← rd (·.entryOk d t a)
  let away ← rd (·.redirected a d.esize)
  let lost ← rd (·.unreadable a d.esize)
  let good ← rd fun s => entryGood d t (s.bytes a d.esize)
  let e ← rd (·.entryAt d t a)
  onlyIf (!ok) do
    onlyIf (lost && !(away && d.mirror)) (reportBads a d.esize)
    onlyIf (!lost && !away && !good) (count (Reg.TE_CNT_CHECK_FAIL n))
    match e with
    | some e => do
      count (Reg.TE_CNT_MIRROR_READS n)
      onlyIf (!away) do
        engineStore n a e
        report (108 + n) clsC 0x01 (some (engineUnit n)) a
    | none => do
      sticky (Reg.TE_EVENT n) Fld.TE_EVENT_UNCORR (108 + n)
      report (108 + n) clsU 0x02 (some (engineUnit n)) a

/-! Learn notices (R312, R313). -/

/-- Whether a MISS of a key is to be noticed now (R312). -/
def State.missNotice (s : State) (n t key : Nat) : Bool :=
  let hold := s.inForce (Reg.TE_CFG n) Fld.TE_CFG_LEARN_HOLD_US
  !((s.enginesAt n).misses.any fun m => m.table = t && m.key = key && decide (s.monoNs < m.at_ + hold * 1000))

/-- Records in an engine's learn ring. -/
def State.lqFill (s : State) (n : Nat) : Nat :=
  let size := s.fld (Reg.TE_LQ_SIZE n) Fld.TE_LQ_SIZE_RECORDS
  let h := s.fld (Reg.TE_LQ_HEAD n) Fld.TE_LQ_HEAD_HEAD
  let t := s.fld (Reg.TE_LQ_TAIL n) Fld.TE_LQ_TAIL_TAIL
  if size = 0 then 0 else (t + size - h % size) % size

/-- DRAM address of a notice of an engine's ring. -/
def State.lqAddr (s : State) (n i : Nat) : Nat := s.fld (Reg.TE_LQ_BASE n) Fld.TE_LQ_BASE_BASE * 32 + i * 160

/-- Write a learn notice into an engine's ring (R313). -/
def learnNotice (n kind : Nat) (d : TableDesc) (t key : Nat) (victim : List Byte) : M Unit := do
  let size ← rd (·.fld (Reg.TE_LQ_SIZE n) Fld.TE_LQ_SIZE_RECORDS)
  let fill ← rd (·.lqFill n)
  let seq ← rd fun s => (s.enginesAt n).notices
  modEngines n fun e => { e with notices := (e.notices + 1) % 2 ^ 32 }
  if size ≤ fill + 1 then do
    count (Reg.TE_CNT_LQ_DROP n)
    sticky (Reg.TE_EVENT n) Fld.TE_EVENT_LQ_FULL (108 + n)
  else do
    let tail ← rd (·.fld (Reg.TE_LQ_TAIL n) Fld.TE_LQ_TAIL_TAIL)
    let now ← rd (·.timeNs)
    let a ← rd (·.lqAddr n tail)
    store (108 + n) a (leBytes 1 kind ++ leBytes 1 t ++ leBytes 1 d.classroom ++ [0] ++ leBytes 4 seq ++ leBytes 8 now ++ leBytes 16 key ++
      padTo 128 victim)
    setFld (Reg.TE_LQ_TAIL n) Fld.TE_LQ_TAIL_TAIL ((tail + 1) % size)
    count (Reg.TE_CNT_LEARN_NOTICES n)
    let thresh ← rd (·.inForce (Reg.TE_CFG n) Fld.TE_CFG_LQ_THRESH)
    onlyIf (fill = 0 || fill + 1 = thresh) (event (224 + n))

/-- The notice a lookup miss produces, or its suppression (R312). -/
def learnMiss (n : Nat) (d : TableDesc) (t key : Nat) : M Unit := do
  let go ← rd (·.missNotice n t key)
  if go then do
    let now ← rd (·.monoNs)
    modEngines n fun e => { e with misses := (⟨t, key, now⟩ :: e.misses).take 256 }
    learnNotice n 1 d t key []
  else count (Reg.TE_CNT_LEARN_SUPPRESSED n)

/-! Lookup (R298). -/

/-- What a lookup finds: the entry's primary address and its bytes, nothing, or no answer (R315). -/
inductive Found
  | hit (addr : Nat) (e : List Byte)
  | miss
  | unresolved
  deriving DecidableEq, Repr

/-- The first of some slots that holds a key (R297, R298). -/
def State.findKey (s : State) (d : TableDesc) (t key : Nat) : List Nat → Option (Nat × List Byte)
  | [] => none
  | a :: as => match s.entryAt d t a with
    | some e => if slotValid d e && storedKey d e = key then some (a, e) else s.findKey d t key as
    | none => s.findKey d t key as

/-- The slots of a key's two candidate buckets, b1's first. -/
def TableDesc.candidates (d : TableDesc) (t key : Nat) : List Nat :=
  let st := d.stripe t key
  let b := d.buckets t key
  d.ways st b.1 ++ d.ways st b.2

/-- Whether the index of an array entry lies outside the table (R298). -/
def TableDesc.outside (d : TableDesc) (key : Nat) : Bool := key % 2 ^ 64 / 2 ^ 32 != 0 || decide (d.count ≤ key % 2 ^ 32)

/-- The lookup of R298 in a table: arrays by index, HASH tables by key. -/
def State.lookup (s : State) (d : TableDesc) (t key : Nat) : Found :=
  if d.kind != kindHash then
    if d.outside key then .miss
    else match s.entryAt d t (d.elem (key % 2 ^ 32)) with
      | some e => .hit (d.elem (key % 2 ^ 32)) e
      | none => .unresolved
  else
    let k := d.keyOf key
    let slots := d.candidates t k
    match s.findKey d t k slots with
    | some (a, e) => .hit a e
    | none => if slots.all fun a => (s.entryAt d t a).isSome then .miss else .unresolved

/-- The slots a lookup may read (R298). -/
def TableDesc.slots (d : TableDesc) (t key : Nat) : List Nat :=
  if d.kind != kindHash then (if d.outside key then [] else [d.elem (key % 2 ^ 32)]) else d.candidates t (d.keyOf key)

/-- Whether both buckets are read at once (R298). -/
def TableDesc.together (d : TableDesc) (urgent : Bool) : Bool := urgent || d.par

/-- Bucket 1 or 2 of a key, read whole: its address and length (R298). -/
def TableDesc.bucketRead (d : TableDesc) (t key : Nat) (second : Bool) : Nat × Nat :=
  let k := d.keyOf key
  let b := d.buckets t k
  (d.slot (d.stripe t k) (if second then b.2 else b.1) 0, 4 * d.esize)

/-- What a lookup reads at once (R298). -/
def TableDesc.firstReads (d : TableDesc) (t key : Nat) (both : Bool) : List (Nat × Nat) :=
  if d.kind != kindHash then (if d.outside key then [] else [(d.elem (key % 2 ^ 32), d.esize)])
  else d.bucketRead t key false :: (if both then [d.bucketRead t key true] else [])

/-- Whether a lookup needs no second bucket: a way of the first holds the key (R298). -/
def State.firstHolds (s : State) (d : TableDesc) (t key : Nat) : Bool :=
  let k := d.keyOf key
  (s.findKey d t k (d.ways (d.stripe t k) (d.buckets t k).1)).isSome

/-- What a lookup reads after its first bucket (R298). -/
def State.laterReads (s : State) (d : TableDesc) (t key : Nat) (both : Bool) : List (Nat × Nat) :=
  if d.kind != kindHash || both || s.firstHolds d t key then [] else [d.bucketRead t key true]

/-- The slots a lookup has read when it ends (R298). -/
def State.slotsRead (s : State) (d : TableDesc) (t key : Nat) (both : Bool) : List Nat :=
  if d.kind = kindHash && !both && s.firstHolds d t key then (d.slots t key).take 4 else d.slots t key

/-- Whether the DRAM of all the slots a table operation reads can answer. -/
def State.slotsReady (s : State) (slots : List Nat) : Bool := slots.all s.dramReady

/-- Engine `n` makes some reads of a table. -/
def engineReads (n : Nat) (d : TableDesc) (l : List (Nat × Nat)) (urgent : Bool) : M Unit :=
  each l fun x => engineRead n d x.1 x.2 urgent

/-- The table a lookup finds when an engine takes it: a valid one of its context's classroom (R298). -/
def State.tableFor (s : State) (r : LookupReq) : Option TableDesc :=
  let d := s.table r.table
  if d.valid && d.classroom == tagClass r.tag then some d else none

/-- The first reads of a lookup that engine `n` has taken. -/
def lookupStart (n : Nat) (l : Lookup) : M Unit :=
  match l.desc with
  | none => pure ()
  | some d => engineReads n d (d.firstReads l.req.table l.req.key (d.together l.req.urgent)) l.req.urgent

/-- TABLE_LOOKUP: engine `n` takes the oldest request that waits for it, unless the replay buffer is full (R298, R300). -/
def execTableLookup (n : Nat) (s : State) : Host.Outcome State Fault Refusal :=
  commit (do
    let e ← rd (·.enginesAt n)
    let on ← rd fun s => decide (n < 16) && s.threadsOn && !s.fenced (engineUnit n) && !s.fencing (engineUnit n)
    match e.queue with
    | [] => pure ()
    | r :: rest =>
      onlyIf (on && decide (e.taken.countP (·.replay) < 64)) do
        let d ← rd (·.tableFor r)
        let l : Lookup := ⟨r, d, false, false, false⟩
        modEngines n fun e => { e with queue := rest, taken := e.taken ++ [l] }
        count (Reg.TE_CNT_LOOKUPS n)
        lookupStart n l) s

/-- One request of a context less outstanding (R109). -/
def requestDone (x cgen : Nat) : M Unit :=
  changeCtx x fun c => if c.cgen = cgen then { c with reqs := c.reqs - 1 } else c

/-- A token that carries the generations of the request it answers (R319). -/
def Token.stamped (t : Token) (cgen clgen : Nat) (urgent : Bool) : Token :=
  { t with cgen := cgen, clgen := clgen, urgent := urgent }

/-- The tokens of a lookup's result (R120, R123): `copyOff` is COPY_OFF where a hit copied the entry.  DESIGN CHOICE: a word W_d that
lies beyond the end of the table's entries is a free value (notes/assumptions/175.md). -/
def State.lookupTokens (s : State) (r : LookupReq) (res : Option (List Byte)) (copyOff : Option Nat) : List Token :=
  let d := s.nodeOf r.tag
  let word := fun i => match res with
    | none => r.port0
    | some e => match copyOff with
      | some o => Word.ofNat o
      | none =>
        let at_ := 8 * bitsOf d.param (4 * i + 3) (4 * i)
        if at_ + 8 ≤ e.length then Word.ofNat (leAt e at_ 8) else Word.ofNat (Config.random (s.free + i))
  (s.destTokens r.tag (tagIter r.tag) d false res.isSome word).map (·.stamped r.cgen r.clgen r.urgent)

/-- The table a lookup is made in: where there is none, one without entries. -/
def Lookup.table (l : Lookup) : TableDesc := l.desc.getD (TableDesc.ofWords 0 0 0 0 0 0)

/-- What a lookup delivers to a context: of its own classroom's table, decayed if the table decays (R298, R303); nothing where
its data was lost (R361). -/
def State.lookupFor (s : State) (l : Lookup) : Found :=
  match l.desc with
  | none => .miss
  | some d => if l.lost then .unresolved else match s.lookup d l.req.table l.req.key with
    | .hit a e => .hit a (decayEntry d (s.period d) e)
    | x => x

/-- The lines a lookup may read, in both copies of a mirrored table. -/
def Lookup.lines (l : Lookup) : List Nat :=
  let d := l.table
  let own := (d.slots l.req.table l.req.key).flatMap fun a => linesOf a d.esize
  own ++ (if d.mirror then own.map (· + d.mirrorOff) else [])

/-- Whether every read that a lookup of engine `n` has made is answered (R347). -/
def State.lookupAnswered (s : State) (n : Nat) (l : Lookup) : Bool := s.answered (108 + n) l.lines

/-- The reads that complete a lookup of engine `n`, number `i` of those taken: the second bucket if it is needed, both again
after a replay (R298, R299). -/
def lookupReads (n i : Nat) (l : Lookup) : M Unit := do
  let d := l.table
  let t := l.req.table
  let both := d.together l.req.urgent
  let later ← rd (·.laterReads d t l.req.key both)
  onlyIf l.desc.isSome do
    onlyIf l.replay (engineReads n d (d.firstReads t l.req.key both) l.req.urgent)
    engineReads n d later l.req.urgent
  modEngines n fun e =>
    { e with taken := e.taken.zipIdx.map fun x => if x.2 = i then { x.1 with made := true } else x.1 }

/-- What a lookup's reads find (R315). -/
def lookupMarks (n : Nat) (l : Lookup) : M Unit := do
  let d := l.table
  let t := l.req.table
  let slots ← rd (·.slotsRead d t l.req.key (d.together l.req.urgent))
  onlyIf l.desc.isSome (each slots (readMarks n d t))

/-- A lookup whose reads are answered completes and its tokens go back to Roll Call (R123, R298, R312, R315).  DESIGN CHOICE: a
COPY_OFF that is no multiple of 64 acts as the multiple below it (notes/assumptions/175.md). -/
def lookupEnd (n i : Nat) (l : Lookup) : M Unit := do
  let r := l.req
  let d := l.table
  let found ← rd (·.lookupFor l)
  let nd ← rd (·.nodeOf r.tag)
  let buf ← rd fun s => (s.ctx r.ctx).msg.buffer
  let size ← rd (·.bufSize buf)
  let copyOff := bitsOf nd.param 31 16 / 64 * 64
  let entry := match found with
    | .hit _ b => some b
    | _ => none
  let tooFar := nd.copy && entry.isSome && decide (size < copyOff + d.esize)
  let res := if tooFar then none else entry
  let toks ← rd (·.lookupTokens r res (if nd.copy then some copyOff else none))
  let room ← rd (·.roomFor toks)
  onlyIf room do
    modFree (· + 4)
    modEngines n fun e => { e with taken := e.taken.eraseIdx i }
    lookupMarks n l
    requestDone r.ctx r.cgen
    onlyIf l.desc.isNone (count (Reg.TE_CNT_NO_TABLE n))
    match found with
    | .unresolved => do
      wantAbandon r.ctx r.cgen
    | .miss => do
      onlyIf d.learn (learnMiss n d r.table (d.keyOf r.key))
      each toks pushToken
    | .hit a b => do
      count (Reg.TE_CNT_HITS n)
      let clock ← rd (·.period d)
      onlyIf (d.kind = kindHash && d.touch)
        (writeEntry n r.table d a (b.take (d.esize - 6) ++ leBytes 2 (clock % 65536) ++ b.drop (d.esize - 4)))
      if tooFar then count Reg.RC_CNT_COPY_RANGE
      else onlyIf nd.copy do
        let at_ ← rd (·.bufAddr buf)
        store (108 + n) (at_ + copyOff) b
      each toks pushToken

/-- LOOKUP_RESULT: lookup `i` of engine `n`, once its reads are answered, makes the further reads it needs, and once those
are answered completes (R298, R299, R347). -/
def execLookupResult (n i : Nat) (s : State) : Host.Outcome State Fault Refusal :=
  commit (do
    let e ← rd (·.enginesAt n)
    let on ← rd fun s => decide (n < 16) && s.threadsOn && !s.fenced (engineUnit n)
    match e.taken[i]? with
    | none => pure ()
    | some l => do
      let first ← rd (·.lookupAnswered n l)
      onlyIf (on && first) do
        onlyIf (!l.made) (lookupReads n i l)
        let all ← rd (·.lookupAnswered n l)
        onlyIf all (lookupEnd n i l)
      pump) s

/-! Insertion (R308, R309). -/

/-- The bucket a slot of a stripe lies in. -/
def TableDesc.bucketOf (d : TableDesc) (st a : Nat) : Nat := (a - d.stripeBase st) / (4 * d.esize)

/-- The other candidate bucket of the occupant of a slot, if it can be read (R308). -/
def State.altBucket (s : State) (d : TableDesc) (t st a : Nat) : Option Nat :=
  match s.entryAt d t a with
  | some e =>
    let b := d.buckets t (storedKey d e)
    some (if d.bucketOf st a = b.1 then b.2 else b.1)
  | none => none

/-- The lowest empty way of a bucket. -/
def State.emptyWay (s : State) (d : TableDesc) (t st b : Nat) : Option Nat :=
  (d.ways st b).find? fun a => (s.entryAt d t a).any (slotEmpty d)

/-- The breadth-first search for a displacement chain (R308): `front` holds occupants still to examine, each with the
moves, innermost first, that would free its slot's chain; `seen` the buckets read; `fuel` the occupants still to examine.  It
gives the slots of the chain, and the buckets it has read. -/
def State.planFrom (s : State) (d : TableDesc) (t st : Nat) :
    Nat → List (Nat × List Nat) → List Nat → Option (List Nat) × List Nat
  | 0, _, seen => (none, seen)
  | fuel + 1, front, seen =>
    match front with
    | [] => (none, seen)
    | (a, path) :: rest =>
      match s.altBucket d t st a with
      | none => s.planFrom d t st fuel rest seen
      | some b =>
        if seen.contains b || decide (128 ≤ seen.length) then s.planFrom d t st fuel rest seen
        else match s.emptyWay d t st b with
          | some w => (some (w :: a :: path), b :: seen)
          | none => s.planFrom d t st fuel (rest ++ (d.ways st b).map fun w => (w, a :: path)) (b :: seen)

/-- The moves of a chain of slots, listed from the empty slot back: the far end moves first. -/
def movesOf : List Nat → List Move
  | dst :: src :: rest => ⟨src, dst⟩ :: movesOf (src :: rest)
  | _ => []

/-- The displacement chain of an insertion, in order of execution, and the slot the key then takes (R308). -/
def State.plan (s : State) (d : TableDesc) (t key : Nat) : Option (List Move × Nat) :=
  let st := d.stripe t key
  let b := d.buckets t key
  match (s.emptyWay d t st b.1).orElse fun _ => s.emptyWay d t st b.2 with
  | some w => some ([], w)
  | none =>
    match (s.planFrom d t st 520 ((d.candidates t key).map fun a => (a, [])) [b.1, b.2]).1 with
    | some slots =>
      let m := movesOf slots
      if m.length ≤ 32 then some (m, slots.getLast?.getD 0) else none
    | none => none

/-- The buckets that planning an insertion reads beside the key's own (R308). -/
def State.planReads (s : State) (d : TableDesc) (t key : Nat) : List (Nat × Nat) :=
  let st := d.stripe t key
  let b := d.buckets t key
  if (s.emptyWay d t st b.1).isSome || (s.emptyWay d t st b.2).isSome then []
  else (((s.planFrom d t st 520 ((d.candidates t key).map fun a => (a, [])) [b.1, b.2]).2).filter
    fun x => x != b.1 && x != b.2).reverse.map fun x => (d.slot st x 0, 4 * d.esize)

/-- The occupant an insertion evicts (R308): its slot. -/
def State.victimSlot (s : State) (d : TableDesc) (t key : Nat) (random : Option Nat) : Nat :=
  let slots := d.candidates t key
  match random with
  | some k => slots.getD (k % 8) 0
  | none =>
    let age : Nat → Nat := fun a => match s.entryAt d t a with
      | some e => (s.period d % 65536 + 65536 - ageOf d e) % 65536
      | none => 0
    slots.foldl (fun best a => if age best < age a ∨ (age best = age a ∧ a < best) then a else best) (slots.headD 0)

/-- Whether a lookup that an engine has taken reads one of the buckets of a move (R299). -/
def Lookup.touches (l : Lookup) (d : TableDesc) (t : Nat) (m : Move) : Bool :=
  let bucket := fun (a : Nat) => a / (4 * d.esize)
  l.req.table == t && l.desc == some d &&
    (d.candidates t (d.keyOf l.req.key)).any fun a => bucket a == bucket m.src || bucket a == bucket m.dst

/-- One move: the entry is copied to its new slot and the old one is invalidated; lookups taken that read either bucket
are replayed (R299, R309). -/
def doMove (n t : Nat) (d : TableDesc) (m : Move) : M Unit := do
  engineRead n d m.src d.esize false
  let e ← rd fun s => (s.entryAt d t m.src).getD (zeros d.esize)
  writeCopies n d m.dst e
  writeCopies n d m.src (zeros d.esize)
  count (Reg.TE_CNT_MOVES n)
  let k ← rd fun s => (s.enginesAt n).taken.countP fun l => l.touches d t m && !l.replay
  countBy (Reg.TE_CNT_REPLAYS n) k
  modEngines n fun g => { g with taken := g.taken.map fun l => if l.touches d t m then { l with replay := true, made := false } else l }

/-- A move with its record in the apply log (R305). -/
def loggedMove (n t : Nat) (d : TableDesc) (m : Move) : M Unit := do
  let q ← logRecord n t d (.move m)
  doMove n t d m
  logDone n q

/-- Place a key that is not in the table: its chain is executed, or an occupant evicted; the victim, if any, or `none`
for no room (R308). `journal` insertions are never refused (R306). -/
def insertKey (n t : Nat) (d : TableDesc) (key : Nat) (data : List Byte) (journal : Bool) : M (Option (Option (List Byte))) := do
  let e ← rd (·.hashEntry d t key data)
  let p ← rd (·.plan d t key)
  let more ← rd (·.planReads d t key)
  engineReads n d more false
  match p with
  | some (moves, slot) => do
    each moves (loggedMove n t d)
    writeEntry n t d slot e
    count (Reg.TE_CNT_INSERTS n)
    pure (some none)
  | none =>
    if d.evict = 0 && !journal then pure none
    else do
      let r ← draw
      let slot ← rd (·.victimSlot d t key (if d.evict = 1 then some (Config.victim r) else none))
      let victim ← rd fun s => (s.entryAt d t slot).getD (zeros d.esize)
      writeEntry n t d slot e
      count (Reg.TE_CNT_INSERTS n)
      count (Reg.TE_CNT_EVICTIONS n)
      learnNotice n 2 d t (storedKey d victim) victim
      pure (some (some victim))

/-- Operations that run whole in one command wait, if they would move an entry, until their engine has answered the lookups it
has taken: none is then left to be replayed between their moves (R299). -/
def quiet (p : M Unit) : M Unit := do
  let s ← rd id
  let moved := fun (n : Nat) => (p s).2.reg (Reg.TE_CNT_MOVES n) != s.reg (Reg.TE_CNT_MOVES n)
  onlyIf ((List.range 16).all fun n => (s.enginesAt n).taken.isEmpty || !moved n) p

/-! Journal writes (R171, R302 to R306). -/

/-- An entry with a counter word increased (R302, R303). -/
def State.added (s : State) (d : TableDesc) (t word : Nat) (addend : Word) (e : List Byte) : List Byte :=
  let e := decayEntry d (s.period d) e
  let w := Word.ofNat (leAt e (8 * word) 8) + addend
  arrayEntry d t (s.period d) (e.take (8 * word) ++ leBytes 8 w.toNat ++ (e.drop (8 * word + 8)).take (d.esize - 16 - 8 * word))

/-- The slots of a key that cannot be read (R315). -/
def State.deadSlots (s : State) (d : TableDesc) (t key : Nat) : List Nat :=
  (d.candidates t key).filter fun a => (s.entryAt d t a).isNone

/-- The first reads of a command of a table (R298). -/
def tableReads (n op t : Nat) (d : TableDesc) (key : Nat) : M Unit :=
  engineReads n d (d.firstReads t key (op != 1 || d.par)) false

/-- A journal PUT to a HASH table replaces the entry, or an unreadable one that may be it, or inserts it (R306, R315). -/
def putKey (n t : Nat) (d : TableDesc) (key : Nat) (data : List Byte) : M Unit := do
  let at_ ← rd fun s => ((s.findKey d t key (d.candidates t key)).map Prod.fst).orElse fun _ => (s.deadSlots d t key).head?
  let e ← rd (·.hashEntry d t key data)
  tableReads n 3 t d key
  each (d.candidates t key) (readMarks n d t)
  match at_ with
  | some a => writeEntry n t d a e
  | none => do
    let _ ← insertKey n t d key data true
    pure ()

/-- A journal DEL from a HASH table removes the entry, or the unreadable ones of which one may be it (R306, R315). -/
def deleteKey (n t : Nat) (d : TableDesc) (key : Nat) : M Unit := do
  let at_ ← rd fun s => s.findKey d t key (d.candidates t key)
  let dead ← rd (·.deadSlots d t key)
  tableReads n 4 t d key
  each (d.candidates t key) (readMarks n d t)
  match at_ with
  | some (a, _) => writeEntry n t d a (zeros d.esize)
  | none => each dead fun a => writeEntry n t d a (zeros d.esize)

/-- The engine that serves a key of a table now (R294, R318). -/
def State.keyEngine (s : State) (d : TableDesc) (t key : Nat) : Nat := s.serving (d.engine t (d.keyOf key))

/-- Apply one staged table write of a classroom (R171, R306, R315). -/
def applyWrite (classroom : Nat) (w : TableWrite) : M Unit := do
  let t := w.table
  let d ← rd (·.table t)
  onlyIf (d.valid && d.classroom = classroom) do
    let key := d.keyOf w.key
    let n ← rd (·.keyEngine d t w.key)
    count (Reg.TE_CNT_JOURNAL_WRITES n)
    if d.kind = kindHash then
      (if w.op = 0 then putKey n t d key w.data
       else if w.op = 1 then deleteKey n t d key
       else count (Reg.TE_CNT_BAD_WORD n))
    else if d.outside w.key then count (Reg.TE_CNT_BAD_WORD n)
    else do
      let i := w.key % 2 ^ 32
      let a := d.elem i
      let p ← rd (·.period d)
      if w.op = 0 then writeEntry n t d a (arrayEntry d t p w.data)
      else if w.op = 1 then writeEntry n t d a (zeros d.esize)
      else if d.kind != kindCounter || decide (d.esize / 8 - 1 ≤ w.word) then count (Reg.TE_CNT_BAD_WORD n)
      else do
        let e ← rd (·.entryAt d t a)
        engineRead n d a d.esize false
        readMarks n d t a
        match e with
        | some e => do
          let e' ← rd (·.added d t w.word w.addend e)
          writeEntry n t d a e'
        | none => learnNotice n 3 d t i []

/-! Command ports (R310, R311). -/

/-- The command a port executes. -/
def State.portCmd (s : State) (n p : Nat) : Option PortCmd := (s.enginesAt n).ports.get (fun _ => none) p

/-- The engine that executes a port's command (R318). -/
def State.portEngine (s : State) (c : PortCmd) : Nat := s.keyEngine c.desc c.table c.key

/-- The ports whose insertion chains execute on an engine: from the first move's planning until the key is written (R308,
R310). -/
def State.chains (s : State) (n : Nat) : List (Nat × Nat) :=
  (List.range 16).flatMap fun m => (List.range 4).filterMap fun p => match s.portCmd m p with
    | some c => if (!c.chain.isEmpty || c.slot.isSome) && s.portEngine c == n then some (m, p) else none
    | none => none

/-- Whether an insertion chain executes on an engine (TE_STATUS.CHAIN). -/
def State.chainOn (s : State) (n : Nat) : Bool := !(s.chains n).isEmpty

/-- Whether the engine of a key can take a write or a command: no chain executes on it (R310), and its DRAM answers. -/
def State.keyFree (s : State) (d : TableDesc) (t key : Nat) : Bool :=
  !d.valid || (!s.chainOn (s.keyEngine d t key) && s.slotsReady (d.slots t key))

/-- Whether the engines of a journal's writes can take them (R310). -/
def State.writesFree (s : State) (l : List TableWrite) : Bool := l.all fun w => s.keyFree (s.table w.table) w.table w.key

/-- Gradebook record of a change of a table by command (R475): ID is the table and the fold of the key, or the index. -/
def tableRecord (o : Origin) (action t : Nat) (d : TableDesc) (key : Nat) (old new : List Byte) : M Unit :=
  let id := if d.kind = kindHash then keyFold (leBytes d.keyLen key) % 2 ^ 40 else key % 2 ^ 32
  gbRecord o 5 action (t + id * 2 ^ 8) (if old.isEmpty then 0 else keyFold old) (if new.isEmpty then 0 else keyFold new)

/-- INSERT of a key that is not in its table (R308, R311): `slot` is where a finished chain left room for it. -/
def tableInsert (o : Origin) (n t : Nat) (d : TableDesc) (k : Nat) (entry : List Byte) (slot : Option Nat) : M (Nat × List Byte) := do
  let e ← rd (·.hashEntry d t k entry)
  match slot with
  | some a => do
    writeEntry n t d a e
    count (Reg.TE_CNT_INSERTS n)
    tableRecord o 3 t d k [] e
    pure (stDone, [])
  | none => do
    let r ← insertKey n t d k entry false
    match r with
    | none => pure (stNoRoom, [])
    | some none => do
      tableRecord o 3 t d k [] e
      pure (stDone, [])
    | some (some v) => do
      tableRecord o 3 t d k [] e
      tableRecord o 6 t d (storedKey d v) v []
      pure (stEvicted, v)

/-- READ, INSERT, UPDATE or REMOVE of a table (R311) by engine `n`: status and data.  `replace` makes INSERT replace a present
key (R414); `slot` is where a finished chain left room for it. -/
def tableOp (o : Origin) (n op t : Nat) (d : TableDesc) (key : Nat) (entry : List Byte) (replace : Bool) (slot : Option Nat) :
    M (Nat × List Byte) := do
  let k := d.keyOf key
  let both := op != 1 || d.par
  if d.kind != kindHash && d.outside key then pure (stBadParam, [])
  else do
    let found ← rd (·.lookup d t key)
    let slots ← rd (·.slotsRead d t key both)
    let p ← rd (·.period d)
    let old ← rd fun s => (s.entryAt d t (d.elem (key % 2 ^ 32))).getD []
    let new ← rd (·.hashEntry d t k entry)
    let later ← rd (·.laterReads d t key both)
    engineReads n d later false
    each slots (readMarks n d t)
    if op = 1 then
      match found with
      | .hit _ e => pure (stDone, decayEntry d p e)
      | .miss => pure (stNotFound, [])
      | .unresolved => pure (stIntegrity, [])
    else if d.kind != kindHash then do
      let new := if op = 4 then zeros d.esize else arrayEntry d t p entry
      writeEntry n t d (d.elem (key % 2 ^ 32)) new
      tableRecord o (op + 1) t d (key % 2 ^ 32) old (if op = 4 then [] else new)
      pure (stDone, [])
    else match found with
      | .unresolved => pure (stIntegrity, [])
      | .miss => if op = 2 then tableInsert o n t d k entry slot else pure (stNotFound, [])
      | .hit a old =>
        if op = 2 && !replace then pure (stExists, [])
        else if op = 4 then do
          writeEntry n t d a (zeros d.esize)
          tableRecord o 5 t d k old []
          pure (stDone, [])
        else do
          writeEntry n t d a new
          tableRecord o 4 t d k old new
          pure (stDone, [])

/-- Set what a command port works on. -/
def setPort (n p : Nat) (c : Option PortCmd) : M Unit :=
  modEngines n fun e => { e with ports := e.ports.put (fun _ => none) p c }

/-- The key and the entry in a command port's registers. -/
def State.portKey (s : State) (n p : Nat) : Nat :=
  (s.reg (Reg.TE_CMD_KEY n p 0)).toNat + (s.reg (Reg.TE_CMD_KEY n p 1)).toNat * 2 ^ 64
def State.portData (s : State) (n p : Nat) : List Byte :=
  (List.range 16).flatMap fun w => leBytes 8 (s.reg (Reg.TE_CMD_DATA n p w)).toNat

/-- Put an entry into a port's data registers. -/
def setPortData (n p : Nat) (data : List Byte) : M Unit :=
  each (List.range 16) fun w => emit (.regs (Reg.TE_CMD_DATA n p w) (Word.ofNat (leAt data (8 * w) 8)))

/-- Put a key into a port's registers. -/
def setPortKey (n p key : Nat) : M Unit :=
  each (List.range 2) fun w => emit (.regs (Reg.TE_CMD_KEY n p w) (Word.ofNat (key / 2 ^ (64 * w))))

/-- A port's command ends: STATUS, for READ and EVICTED the data, and BUSY 0 (R311). -/
def portEnd (n p st : Nat) (data : List Byte) : M Unit := do
  setFld (Reg.TE_CMD_RES n p) Fld.TE_CMD_RES_STATUS st
  onlyIf (!data.isEmpty) (setPortData n p data)
  setFld (Reg.TE_CMD_RES n p) Fld.TE_CMD_RES_BUSY 0
  setPort n p none

/-- Whether a command port is busy. -/
def State.portBusy (s : State) (n p : Nat) : Bool := s.fld (Reg.TE_CMD_RES n p) Fld.TE_CMD_RES_BUSY = 1

/-- A write to a port's registers while it is busy (R311). -/
def portOverrun (n p : Nat) : M Unit := do
  setFld (Reg.TE_CMD_RES n p) Fld.TE_CMD_RES_OVERRUN 1
  sticky (Reg.TE_EVENT n) Fld.TE_EVENT_OVERRUN (108 + n)

/-- Whether a command's table and key belong to the port's engine, or to one whose stripes it serves (R311, R318). -/
def State.portFits (s : State) (n : Nat) (c : PortCmd) : Bool := c.desc.valid && s.portEngine c == s.serving n

/-- The chain an insertion of a port needs, and the slot it frees for the key; none where no chain is needed or may begin
(R308, R310). -/
def State.portPlan (s : State) (n : Nat) (c : PortCmd) : Option (Move × List Move × Nat) :=
  if c.op = 2 ∧ c.slot.isNone ∧ s.portFits n c ∧ c.desc.kind = kindHash ∧ s.lookup c.desc c.table c.key = .miss then
    match s.plan c.desc c.table (c.desc.keyOf c.key) with
    | some (m :: ms, slot) => some (m, ms, slot)
    | _ => none
  else none

/-- A port's chain begins: its first move is put into the apply log (R305, R308). -/
def portChain (n p : Nat) (c : PortCmd) (m : Move) (ms : List Move) (slot : Nat) : M Unit := do
  let w ← rd (·.portEngine c)
  let more ← rd (·.planReads c.desc c.table (c.desc.keyOf c.key))
  engineReads w c.desc more false
  setPort n p (some { c with chain := m :: ms, slot := some slot })
  let _ ← logRecord w c.table c.desc (.move m)
  pure ()

/-- Start a command on a port (R311): an insertion that needs a chain plans it now, unless a chain is executing. -/
def portStart (o : Origin) (n p op t : Nat) : M Unit := do
  let busy ← rd (·.portBusy n p)
  if busy then portOverrun n p
  else onlyIf (decide (1 ≤ op ∧ op ≤ 4 ∧ n < 16 ∧ p < 4)) do
    let key ← rd (·.portKey n p)
    let data ← rd (·.portData n p)
    let d ← rd (·.table t)
    let c : PortCmd := ⟨o, op, t, d, key, data, [], none⟩
    let free ← rd (·.keyFree d t key)
    let plan ← rd (·.portPlan n c)
    setFld (Reg.TE_CMD_RES n p) Fld.TE_CMD_RES_BUSY 1
    setPort n p (some c)
    onlyIf d.valid do
      let w ← rd (·.portEngine c)
      tableReads w op t d key
    match plan with
    | some (m, ms, slot) => onlyIf free (portChain n p c m ms slot)
    | none => pure ()

/-- One move of a port's chain; the next one goes into the apply log (R305, R309). -/
def portMove (n p : Nat) (c : PortCmd) (m : Move) (rest : List Move) : M Unit := do
  let w ← rd (·.portEngine c)
  doMove w c.table c.desc m
  logMoved m
  setPort n p (some { c with chain := rest })
  match rest with
  | [] => pure ()
  | m' :: _ => do
    let _ ← logRecord w c.table c.desc (.move m')
    pure ()

/-- TABLE_MOVE: one move of the insertion chain of port `p`, once the replayed lookups have been served; it waits where it would
put more than 64 lookups into the replay buffer (R299, R300, R309). -/
def execTableMove (n p : Nat) (s : State) : Host.Outcome State Fault Refusal :=
  commit (do
    let c ← rd (·.portCmd n p)
    match c with
    | some c => match c.chain with
      | m :: rest => do
        let e ← rd fun s => s.enginesAt (s.portEngine c)
        let ready ← rd (·.slotsReady [m.src, m.dst])
        onlyIf (ready && !e.taken.any (·.replay) && decide (e.taken.countP (·.touches c.desc c.table m) ≤ 64))
          (portMove n p c m rest)
      | [] => pure ()
    | none => pure ()) s

/-- TE_CMD_DONE: the operation of a command port completes; an insertion whose chain could not begin begins it (R308, R310,
R311). -/
def execTeCmdDone (n p : Nat) (s : State) : Host.Outcome State Fault Refusal :=
  commit (do
    let c ← rd (·.portCmd n p)
    match c with
    | none => pure ()
    | some c => do
      let w ← rd (·.portEngine c)
      let other ← rd fun s => (s.chains w).any (· != (n, p))
      let ready ← rd (·.answered (108 + w) ((c.desc.slots c.table c.key).flatMap fun a => linesOf a c.desc.esize))
      let fits ← rd (·.portFits n c)
      let plan ← rd (·.portPlan n c)
      onlyIf (ready && (c.slot.isSome || !other) && c.chain.isEmpty) (match plan with
        | some (m, ms, slot) => portChain n p c m ms slot
        | none => do
          let (st, data) ← if fits then tableOp c.origin w c.op c.table c.desc c.key c.entry false c.slot
            else pure (stBadParam, [])
          portEnd n p st data)) s

/-- The free one of Tenik's two ports on an engine, with which it carries out a host command (R311). -/
def State.tenikPort (s : State) (n : Nat) : Option Nat := [0, 1].find? fun p => !s.portBusy n p

/-- A host command runs as an operation of one of Tenik's ports, from its registers' writing to its end (R311). -/
def portOp (o : Origin) (op t : Nat) (d : TableDesc) (key : Nat) (entry : List Byte) (replace : Bool) : M (Nat × List Byte) := do
  let n ← rd (·.keyEngine d t key)
  let p ← rd fun s => (s.tenikPort n).getD 0
  setPortKey n p key
  onlyIf (op = 2 || op = 3) (setPortData n p entry)
  tableReads n op t d key
  let (st, data) ← tableOp o n op t d key entry replace none
  portEnd n p st data
  pure (st, data)

/-! Resynchronisation (R317). -/

/-- The line an engine copies back next: one whose channel is back in service (R317). -/
def State.resyncNext (s : State) (n : Nat) : Option (Nat × Nat) :=
  (s.enginesAt n).resync.find? fun r => !(s.dramChan r.1).any s.ddrOut

/-- Copy a line, and which parts of it cannot be read, to its other copy. -/
def copyLine (n dst src : Nat) : M Unit := do
  let bs ← rd (·.bytes src 64)
  engineStore n dst bs
  each (List.range 4) fun i => do
    let b ← rd (·.badAt (src + 16 * i))
    emit (.bad (dst + 16 * i) b)

/-- MIRROR_RESYNC: one line written during a fence is copied back to the returning channel (R317). -/
def execMirrorResync (n : Nat) (s : State) : Host.Outcome State Fault Refusal :=
  commit (do
    let r ← rd (·.resyncNext n)
    match r with
    | none => pure ()
    | some (dst, src) => do
      let ready ← rd fun s => s.dramReady dst && s.dramReady src && !(s.dramChan src).any s.ddrOut && !s.chainOn n
      onlyIf ready do
        touch (108 + n) src 64 false
        copyLine n dst src
        modEngines n fun e => { e with resync := e.resync.filter (· != (dst, src)) }) s

end Sys2Proof.Machine
end

