-- ==== Sys2Proof/Machine/Host.lean ====
section
/-! DEFINITION. The host's queues (spec/13): rings, replies, later completions, notices (R397 to R412), and what every
command packet goes through (R399 to R409). -/

namespace Sys2Proof.Machine

/-! A queue's registers: manager queue `k` below 16, the ring of classroom `k` − 16 from 16 on (R397). -/

/-- Where a queue's registers lie: in the HI block, or in a doorbell page (whose words have places of their own above
BAR0). -/
def qBase (k : Nat) : Nat := if k < 16 then Reg.Q_SQ_TAIL k else Reg.CQ_SQ_TAIL (k - 16)

abbrev qTail (k : Nat) : Nat := qBase k
abbrev qHead (k : Nat) : Nat := qBase k + 8
abbrev qStatus (k : Nat) : Nat := qBase k + 16
abbrev qCtl (k : Nat) : Nat := qBase k + 24
abbrev qSq (k : Nat) : Nat := qBase k + 32
abbrev qCq (k : Nat) : Nat := qBase k + 40
abbrev qNb (k : Nat) : Nat := qBase k + 48

/-- Whether a number names a queue. -/
def isQueue (k : Nat) : Bool := k < 80

/-- The classroom of a queue, if it is a classroom's ring. -/
def qClass (k : Nat) : Option Nat := if k < 16 then none else some (k - 16)

/-- The MSI-X entry a queue signals (R395). -/
def qVector (k : Nat) : Nat := if k < 16 then 240 + k else 256 + 16 * (k - 16)

/-- Slots of the submission ring. -/
def State.sqSize (s : State) (k : Nat) : Nat := 2 ^ min 16 (max 4 (s.inForce (qSq k) Fld.Q_SQ_LOG2))

/-- Entries of the completion ring. -/
def State.cqSize (s : State) (k : Nat) : Nat := 2 ^ min 16 (max 4 (s.inForce (qCq k) Fld.Q_CQ_LOG2))

/-- Bytes of the notice buffer, 0 for none. -/
def State.nbSize (s : State) (k : Nat) : Nat :=
  let n := s.inForce (qNb k) Fld.Q_NB_LOG2
  if n = 0 then 0 else 2 ^ min 24 (max 16 n)

/-- Whether a queue is served (R398, R404). -/
def State.qOn (s : State) (k : Nat) : Bool :=
  isQueue k && s.fld (qStatus k) Fld.Q_STATUS_EN_ACT = 1 && s.fld (qStatus k) Fld.Q_STATUS_ERR = 0

/-- Whether the completion ring has a free entry (R403); one entry stays unused, so that a full ring differs from an empty
one. -/
def State.cqFree (s : State) (k : Nat) : Bool :=
  let n := s.cqSize k
  decide ((s.fld (qStatus k) Fld.Q_STATUS_CQ_TAIL + 1) % n ≠ s.fld (qHead k) Fld.Q_CQ_HEAD_HEAD % n)

/-- Slots posted and not yet read (R399). -/
def State.sqPosted (s : State) (k : Nat) : Nat :=
  let n := s.sqSize k
  (s.fld (qTail k) Fld.Q_SQ_TAIL_TAIL % n + n - s.fld (qStatus k) Fld.Q_STATUS_SQ_HEAD % n) % n

/-! Replies (R401). -/

/-- The reply's bytes, SQ_HEAD and PHASE still 0. -/
def replyBytes (status op flags : Nat) (tag : Word) (len result : Nat) : List Byte :=
  leBytes 2 status ++ leBytes 2 op ++ leBytes 2 0 ++ leBytes 1 flags ++ [0] ++ leBytes 8 tag.toNat ++ leBytes 4 len ++
  leBytes 4 0 ++ leBytes 8 result

/-- The oldest notice that no completion entry has announced yet is announced by entry `e` (R411). -/
def announce (e : Nat) : List NoticeHold → List NoticeHold
  | [] => []
  | h :: hs => if h.entry.isNone then { h with entry := some e } :: hs else h :: announce e hs

/-- Whether a notice's space is still held, in a completion ring of `n` entries with its head and tail (R411). -/
def NoticeHold.live (h : NoticeHold) (n head tail : Nat) : Bool :=
  h.entry.all fun e => decide ((e + n - head % n) % n < (tail + n - head % n) % n)

/-- Write a reply at the completion tail (R396, R401). -/
def qWrite (k : Nat) (r : OwedReply) : M Unit := do
  let st ← rd (·.reg (qStatus k))
  let n ← rd (·.cqSize k)
  let base ← rd fun s => s.inForce (qCq k) Fld.Q_CQ_BASE * 4096
  let tail := Fld.Q_STATUS_CQ_TAIL.get st % n
  let phase := Fld.Q_STATUS_PHASE.get st
  let b := r.bytes
  hostWrite (qClass k) (base + 32 * tail)
    (b.take 4 ++ leBytes 2 (Fld.Q_STATUS_SQ_HEAD.get st) ++ leBytes 1 (byteAt b 6 + phase) ++ b.drop 7)
  let next := (tail + 1) % n
  setFld (qStatus k) Fld.Q_STATUS_CQ_TAIL next
  onlyIf (next = 0) (setFld (qStatus k) Fld.Q_STATUS_PHASE (1 - phase))
  onlyIf r.notice (modHostq k fun q => { q with notices := announce tail q.notices })
  onlyIf r.irq (msixSignal (qVector k))

/-- Send a reply to a queue: it waits while the completion ring is full (R403), and is discarded while the queue is not
enabled (R398). -/
def qSend (k : Nat) (r : OwedReply) : M Unit := do
  let en ← rd fun s => isQueue k && s.fld (qStatus k) Fld.Q_STATUS_EN_ACT = 1
  let wait ← rd fun s => !s.cqFree k || !s.qOn k || !(s.hostqAt k).owed.isEmpty
  onlyIf en (if wait then modHostq k fun q => { q with owed := q.owed ++ [r] } else qWrite k r)

/-- Write what a queue is owed while there is room (R403). -/
def qDrain : Nat → Nat → M Unit
  | 0, _ => pure ()
  | n + 1, k => do
    let ok ← rd fun s => s.qOn k && s.cqFree k
    let q ← rd (·.hostqAt k)
    match q.owed with
    | [] => pure ()
    | r :: rest => onlyIf ok do
      emit (.hostq k { q with owed := rest })
      qWrite k r
      qDrain n k

/-- The host frees completion entries by writing Q_CQ_HEAD: notice space they announced is free again, and what waited is
written (R403, R411). -/
def qFreed (k : Nat) : M Unit := do
  let n ← rd (·.cqSize k)
  let head ← rd (·.fld (qHead k) Fld.Q_CQ_HEAD_HEAD)
  let tail ← rd (·.fld (qStatus k) Fld.Q_STATUS_CQ_TAIL)
  modHostq k fun q => { q with notices := q.notices.filter (·.live n head tail) }
  let q ← rd (·.hostqAt k)
  qDrain q.owed.length k

/-! Background operations (R406). -/

/-- The final completion of an ACCEPTED command (R401, R406). -/
def bgEnd (b : BgOp) (status result : Nat) : M Unit := do
  modBg fun l => l.erase b
  onlyIf (!b.muted) do
    count Reg.HI_CNT_LATER_COMPLETIONS
    qSend b.queue ⟨replyBytes status b.opcode 2 b.tag 0 result, true, false⟩

/-- The unfinished background operation that satisfies a condition. -/
def State.bgFind (s : State) (p : BgKind → Bool) : Option BgOp := s.bg.find? fun b => p b.kind

/-- Whether DRAM_INIT has completed with DONE (R507). -/
def State.dramUp (s : State) : Bool := s.boot.dramDone

/-- Complete the unfinished background operation that satisfies a condition, if there is one. -/
def bgFinish (p : BgKind → Bool) (status result : Nat) : M Unit := do
  let b ← rd (·.bgFind p)
  match b with
  | some b => bgEnd b status result
  | none => pure ()

/-- The origin a background operation's changes carry: its command's (R409). -/
def State.bgOrigin (s : State) (b : BgOp) : Origin :=
  match qClass b.queue with
  | none => .queue b.queue
  | some c => .classroom c (s.pasidOf c)

/-! Notices (R411, R412). -/

/-- Where a record of `n` bytes goes in a notice buffer; `none` without room. -/
def State.noticeRoom (s : State) (k n : Nat) : Option Nat :=
  let size := s.nbSize k
  let q := s.hostqAt k
  let off := if size < q.nbOff + n then 0 else q.nbOff
  if n ≤ size ∧ (q.notices.all fun h => decide (off + n ≤ h.off ∨ h.off + h.len ≤ off)) then some off else none

/-- Post a notice on a queue; whether it was posted. -/
def postNotice (k kind : Nat) (rec_ : List Byte) : M Bool := do
  let n := ceilDiv rec_.length 64 * 64
  let on ← rd (·.qOn k)
  let room ← rd (·.noticeRoom k n)
  match (if on then room else none) with
  | none => do
    count Reg.HI_CNT_NOTICE_DROP
    sticky Reg.HI_EVENT Fld.HI_EVENT_NOTICE_DROP 151
    pure false
  | some off => do
    let base ← rd fun s => s.inForce (qNb k) Fld.Q_NB_BASE * 4096
    count Reg.HI_CNT_NOTICES
    hostWrite (qClass k) (base + off) (padTo n rec_)
    modHostq k fun q => { q with nbOff := off + n, notices := q.notices ++ [⟨none, off, n⟩] }
    qSend k ⟨replyBytes 0 kind 4 0 rec_.length off, true, true⟩
    pure true

/-! Enabling, disabling, errors (R398, R404). -/

/-- A queue begins afresh (R398). -/
def queueStart (k : Nat) : M Unit := do
  modRegs (qStatus k) fun w =>
    Fld.Q_STATUS_PHASE.set (Fld.Q_STATUS_EN_ACT.set (Fld.Q_STATUS_CQ_TAIL.set (Fld.Q_STATUS_SQ_HEAD.set w 0) 0) 1) 1
  emit (.hostq k HostQ.empty)

/-- A queue stops being served: what it is owed, now or later, is discarded and ERR is cleared (R398, R404). -/
def queueStop (k : Nat) : M Unit := do
  modRegs (qStatus k) fun w =>
    Fld.Q_STATUS_ERR_CODE.set (Fld.Q_STATUS_ERR.set (Fld.Q_STATUS_EN_ACT.set w 0) 0) 0
  modBg fun l => l.map fun b => if b.queue = k then { b with muted := true } else b
  emit (.hostq k HostQ.empty)

/-- Whether an access reaches a queue's registers: BAR0 for a manager queue, the doorbell page for a classroom's ring
(R391, R397, R419). -/
def State.mayQueue (s : State) (o : Who) (k : Nat) : Bool :=
  match qClass k with
  | none => s.mayAccess o (qCtl k)
  | some c => isQueue k && decide (modeStage ≤ s.mode) && match o with
    | .host (some p) => s.inForce (Reg.CL_BIND c) Fld.CL_BIND_BOUND = 1 && s.pasidOf c = p
    | _ => false

/-- The origin of an access to a queue's registers (R474). -/
def State.queueOrigin (s : State) (o : Who) (k : Nat) : Origin :=
  match qClass k with
  | none => s.originOf o
  | some c => .classroom c (s.pasidOf c)

/-- Write Q_CTL.EN (R398). -/
def queueEn (o : Who) (k : Nat) (en : Bool) : M Unit := do
  let old ← rd (·.reg (qCtl k))
  let org ← rd (·.queueOrigin o k)
  let new := Fld.Q_CTL_EN.set old (bit en)
  gbRecord org 1 1 (qCtl k % 2 ^ 26) old.toNat new.toNat
  emit (.regs (qCtl k) new)
  onlyIf (en && !Fld.Q_CTL_EN.isSet old) (queueStart k)
  onlyIf (!en && Fld.Q_CTL_EN.isSet old) (queueStop k)

/-- QUEUE_ENABLE (R398). -/
def execQueueEnable (o : Who) (q : Nat) (s : State) : Host.Outcome State Fault Refusal :=
  commit (do
    let ok ← rd (·.mayQueue o q)
    onlyIf ok (queueEn o q true)) s

/-- QUEUE_DISABLE (R398). -/
def execQueueDisable (o : Who) (q : Nat) (s : State) : Host.Outcome State Fault Refusal :=
  commit (do
    let ok ← rd (·.mayQueue o q)
    onlyIf ok (queueEn o q false)) s

/-- QUEUE_ERR: a host memory access for a queue completes with an error, of one of five kinds (R404). -/
def execQueueErr (q code : Nat) (s : State) : Host.Outcome State Fault Refusal :=
  commit (do
    let on ← rd (·.qOn q)
    onlyIf (on && decide (1 ≤ code ∧ code ≤ 5)) do
      count Reg.HI_CNT_DMA_ERR
      setFld (qStatus q) Fld.Q_STATUS_ERR 1
      setFld (qStatus q) Fld.Q_STATUS_ERR_CODE code
      match qClass q with
      | none => sticky Reg.HI_EVENT Fld.HI_EVENT_QUEUE_ERR 151
      | some c => event (160 + c)) s

/-! Commands (R399 to R409). -/

/-- What a command answers: status, RESULT, the reply payload, and what happens behind the reply. -/
structure Answer where
  status : Nat
  result : Nat
  data : List Byte
  after : M Unit

/-- An answer of a status alone. -/
def ans (status : Nat) : Answer := ⟨status, 0, [], pure ()⟩

/-- An answer with RESULT and a payload. -/
def ansData (result : Nat) (data : List Byte) : Answer := ⟨0, result, data, pure ()⟩

/-- The modes of the tables "Commands": A, R, S and SF. -/
abbrev modesA : List Nat := [modeStage, modeService, modeDegraded, modeSafe]
abbrev modesR : List Nat := [modeStage, modeService, modeDegraded]
abbrev modesS : List Nat := [modeStage]
abbrev modesSF : List Nat := [modeStage, modeSafe]

/-- A command's row of the tables "Commands" (R413): code, modes, whether classroom software may issue it, the LEN it takes,
the bytes of its reply payload, the named bits of P0 to P3, and whether its values lie in their ranges. -/
structure CmdRow where
  op : Nat
  modes : List Nat
  classOk : Bool
  len : Nat → Bool
  need : Nat
  m0 : Nat
  m1 : Nat
  m2 : Nat
  range : Bool

/-- Whether a number has only bits of a mask. -/
def within (n mask : Nat) : Bool := n &&& mask == n

/-- Bits `[hi:lo]` as a mask. -/
def maskOf (hi lo : Nat) : Nat := 2 ^ (hi + 1) - 2 ^ lo

/-- The checks of R407 that need no more than the row: the status and the PAYLOAD_LEN it carries. -/
def State.cmdCheck (s : State) (r : CmdRow) (c : Cmd) : Option (Nat × Nat) :=
  if !r.classOk && (qClass c.queue).isSome then some (stNotFound, 0)
  else if !r.len c.len then some (stBadLength, 0)
  else if c.replyMax < r.need then some (stBadLength, r.need)
  else if !r.modes.contains s.mode then some (stWrongMode, 0)
  else if c.rsv % 2 ^ 32 != 0 || !within (c.flags % 2 ^ 16) 3 || !within c.p0 r.m0 || !within c.p1 r.m1 ||
      !within c.p2 r.m2 || c.p3 != 0 || !r.range || (r.need != 0 && c.replyAddr % 8 != 0) then some (stBadParam, 0)
  else none

/-- The origin of a command's changes (R409). -/
def State.cmdOrigin (s : State) (c : Cmd) : Origin :=
  match qClass c.queue with
  | none => .queue c.queue
  | some k => .classroom k (s.pasidOf k)

/-- The classroom a command names: a classroom issuer's value is replaced by its own (R408). -/
def cmdClass (c : Cmd) (named : Nat) : Nat := (qClass c.queue).getD named

/-- The states of a classroom (CL_BIND_c.STATE). -/
abbrev clFree : Nat := 0
abbrev clCreating : Nat := 1
abbrev clActive : Nat := 2
abbrev clResetting : Nat := 3
abbrev clDestroying : Nat := 4

/-- Whether the command at the head of a queue is due: the queue is served, has a slot posted and room for its reply, and no
background operation of it runs, for which the command might wait (R399, R400, R403). -/
def State.queueDue (s : State) (k : Nat) : Bool :=
  decide (0 < s.sqPosted k) && s.qOn k && s.cqFree k &&
    (qClass k).all (fun c => s.fld (Reg.CL_BIND c) Fld.CL_BIND_STATE = clActive) && !(s.bg.any fun b => b.queue == k)

/-- Whether it is a queue's turn: none between the queue served last and it is due (R405). -/
def State.queueTurn (s : State) (k : Nat) : Bool :=
  (((List.range 80).map fun i => (s.boot.lastQueue + 1 + i) % 80).takeWhile (· != k)).all fun q => !s.queueDue q

/-- Whether Tenik takes this command now (R399, R400, R403 to R405, R410); none from the ring of a classroom that is not ACTIVE
(table "Classroom states"). -/
def State.cmdTaken (s : State) (c : Cmd) : Bool :=
  s.qOn c.queue && s.cqFree c.queue && decide (modeStage ≤ s.mode) && !s.boot.tenikDown &&
    decide (c.len + 1 ≤ s.sqPosted c.queue) && s.queueTurn c.queue &&
    (qClass c.queue).all (fun k => s.fld (Reg.CL_BIND k) Fld.CL_BIND_STATE = clActive) &&
    !(bitOf c.flags 1 && s.bg.any fun b => b.queue == c.queue)

/-- Begin a background operation (R406). -/
def background (c : Cmd) (op : Nat) (k : BgKind) : M Answer := do
  modBg fun l => l ++ [⟨c.queue, c.tag, op, bitOf c.flags 0, k, 0, false⟩]
  pure (ans stAccepted)

/-- Write a command's reply: payload, reply, interrupt (R396, R401). -/
def reply (c : Cmd) (op status len result : Nat) (data : List Byte) : M Unit := do
  onlyIf (!data.isEmpty) (hostWrite (qClass c.queue) c.replyAddr data)
  qSend c.queue ⟨replyBytes status op 0 c.tag len result, bitOf c.flags 0, false⟩

/-- The record of a command whose effect has been made (R410). -/
def noteCmd (l : LastCmd) : M Unit := modHostq l.cmd.queue fun q => { q with last := some l }

/-- The reply of a command whose effect has been made, from its record (R410). -/
def replyLast (l : LastCmd) : M Unit := do
  reply l.cmd l.op l.status l.data.length l.result l.data
  noteCmd { l with replied := true }

/-- Tenik is back: it writes the replies of the commands that had made their effect and executes none of them again (R410). -/
def replyMissing : M Unit := do
  let l ← rd fun s => s.hostq.filterMap fun e => e.2.last.filter (!·.replied)
  each l replyLast

/-- The opcodes of the command tables (R413). -/
def opcodes : List Nat :=
  [0x00, 0x01, 0x02, 0x10, 0x11, 0x12, 0x20, 0x21, 0x22, 0x30, 0x31, 0x32, 0x40, 0x41, 0x42, 0x43, 0x50, 0x51, 0x52, 0x53, 0x54,
   0x55, 0x60, 0x61, 0x62, 0x63, 0x64, 0x65, 0x66, 0x67, 0x70, 0x71, 0x72, 0x73, 0x80, 0x81, 0x82, 0x83, 0x90, 0x91, 0x92, 0xA0,
   0xA1, 0xA2, 0xA3, 0xB0, 0xB1, 0xC0, 0xC1, 0xD0, 0xF0]

/-- The reply to an opcode that is in none of the tables (R407 step 1). -/
def replyUnlisted (op : Nat) (c : Cmd) : M Unit := do
  count Reg.HI_CNT_REFUSED
  reply c op stBadOpcode 0 0 []

/-- A command leaves its queue (R399, R405). -/
def takeSlots (c : Cmd) : M Unit := do
  let n ← rd (·.sqSize c.queue)
  let h ← rd (·.fld (qStatus c.queue) Fld.Q_STATUS_SQ_HEAD)
  setFld (qStatus c.queue) Fld.Q_STATUS_SQ_HEAD ((h + c.len + 1) % n)
  modBoot fun b => { b with lastQueue := c.queue }
  count Reg.HI_CNT_COMMANDS

/-- Take a command whose opcode is in none of the tables. -/
def commandUnlisted (op : Nat) (c : Cmd) : M Unit := do
  let go ← rd (·.cmdTaken c)
  onlyIf (go && !opcodes.contains op) do
    takeSlots c
    replyUnlisted op c

/-- Take a command, check it, run it and reply (R399 to R407). -/
def command (row : State → CmdRow) (c : Cmd) (body : M Answer) : M Unit := do
  let go ← rd (·.cmdTaken c)
  onlyIf go do
    takeSlots c
    let r ← rd row
    let bad ← rd (·.cmdCheck r c)
    match bad with
    | some (status, len) => do
      count Reg.HI_CNT_REFUSED
      reply c r.op status len 0 []
    | none => do
      let a ← body
      onlyIf (a.status = stAccepted) (count Reg.HI_CNT_ACCEPTED_CMDS)
      onlyIf (decide (0x10 ≤ a.status) && a.status != stEvicted) (count Reg.HI_CNT_REFUSED)
      let l : LastCmd := ⟨c, r.op, a.status, a.result, a.data, false⟩
      noteCmd l
      replyLast l
      a.after

end Sys2Proof.Machine
end

