-- ==== Sys2Proof/Machine/Mem.lean ====
section
/-! DEFINITION. What a thread or a helper reaches: the desk (R193, R194), Street memory (R191, R192), the memory rights
of a classroom (R229, R230, R425), the rights of instruction fetch (R232), and reads and writes of the bytes that lie
in memory. -/

namespace Sys2Proof.Machine

/-! The desk. -/

/-- The key in `State.desk` of a desk offset as thread `t` sees it (R193); `none` where nothing is stored. -/
def deskKey (t off : Nat) : Option Nat :=
  if off < 0xE000 then some (coreOf t * 0x20000 + off)
  else if 0xFC00 ≤ off ∧ off < 0x10000 then some (coreOf t * 0x20000 + 0x10000 + thrOf t * 0x400 + (off - 0xFC00))
  else none

/-- Whether a thread of core `k`, of classroom `c` and at level `priv`, reaches a desk offset (R193, R194). -/
def State.deskRight (s : State) (k : Nat) (c : Option Nat) (priv off : Nat) : Bool :=
  if off < 0xE000 then
    let w := (s.actAt (coreReg Reg.CORE_DESK k)).toNat
    let p := off / 0x2000
    priv = 0 || (bitOf w (8 * p + 6) && c = some (bitsOf w (8 * p + 5) (8 * p)))
  else decide (0xFC00 ≤ off ∧ off < 0x10000)

/-- Write bytes of the desk as thread `t` sees it. -/
def writeDesk (t : Nat) : Nat → List Byte → M Unit
  | _, [] => pure ()
  | off, b :: bs => do
    match deskKey t off with
    | some k => emit (.desk k b)
    | none => pure ()
    writeDesk t (off + 1) bs

/-- Bytes of the desk as thread `t` sees it; reserved offsets read 0. -/
def State.deskBytes (s : State) (t off n : Nat) : List Byte :=
  (List.range n).map fun i => (deskKey t (off + i)).elim 0 s.deskAt

/-! Rights. -/

/-- Whether an address lies in a range. -/
def inRange (a base len : Nat) : Bool := decide (base ≤ a ∧ a < base + len)

/-- Whether an offset in Street memory is in the code region, which no load or store reaches (R191, R192). -/
def inCodeRegion (off : Nat) : Bool := decide (0x120000 ≤ off ∧ off < 0x200000)

/-- Whether classroom `c` reaches an offset of the memory of Street `k` (R192). -/
def State.streetRight (s : State) (c k off : Nat) : Bool :=
  let w := Reg.ST_PAGE k ((off - 0x200000) / 0x10000)
  decide (0x200000 ≤ off ∧ off < 0x400000) && s.inForce w Fld.ST_PAGE_VALID = 1 &&
    s.inForce w Fld.ST_PAGE_CLASSROOM = c

/-- Whether an address lies in the region of a pool granted to a classroom (R425). -/
def State.poolRight (s : State) (c a : Nat) : Bool :=
  (List.range 16).any fun p =>
    bitOf (s.actAt (Reg.BP_POOL_CL p)).toNat c && inRange a (s.poolBase p) (s.poolCount p * s.poolSize p)

/-- The memory rights of classroom `c` at level P1 or P2 (R425). -/
def State.classRight (s : State) (c priv : Nat) (write : Bool) (a : Nat) : Bool :=
  match s.region a with
  | .street k => s.streetRight c k ((a - 0x010000000000) % 0x01000000)
  | .square => inRange (a - squareBase) (s.grantLe c 56 4) (s.grantLe c 60 4) || s.poolRight c a
  | .dram =>
    !(s.inStripe a || s.inGbRing a) &&
      ((inRange a (s.grantLe c 64 8) (s.grantLe c 72 8) &&
        !(write && priv = 2 && inRange a (s.grantLe c 96 8) (s.grantLe c 104 4))) || s.poolRight c a)
  | .host => inRange (a - 0x040000000000) (s.grantLe c 80 8) (s.grantLe c 88 8)
  | .unmapped =>
    if inRange a 0x020004000000 0x40000 then (a - 0x020004000000) / 0x1000 = c
    else if inRange a 0x020004040000 0x40000 then write && priv = 1 && (a - 0x020004040000) / 0x1000 = c
    else false
  | _ => false

/-- Whether thread `t` at level `priv` reaches a byte. -/
def State.right (s : State) (t priv : Nat) (write : Bool) (e : Ea) : Bool :=
  if e.desk then s.deskRight (coreOf t) (s.boundTo t) priv e.addr
  else if priv = 0 then
    match s.region e.addr with
    | .street _ => !inCodeRegion ((e.addr - 0x010000000000) % 0x01000000)
    | _ => true
  else (s.boundTo t).any fun c => s.classRight c priv write e.addr

/-- Whether some byte of a 256 KiB window lies within the rights of a thread at its level (R229).  Every range a right
covers is a multiple of 256 bytes. -/
def State.windowRight (s : State) (t priv base : Nat) : Bool :=
  (List.range 1024).any fun i =>
    s.right t priv false ⟨false, base + 256 * i⟩ || s.right t priv true ⟨false, base + 256 * i⟩

/-- Whether a thread may fetch an instruction at an address (R232): at P0 anywhere; else from the code of a resident Term
or the supervisor code of its classroom, but for bytes of a table's stripe region (R425). -/
def State.mayFetch (s : State) (t : Nat) (pc : Nat) : Bool :=
  (s.thread t).priv = 0 ||
  ((List.range 4).any fun k =>
    let m := s.termsAt k
    (m.state = .ready || m.state = .current || m.state = .retiring) && inRange pc (m.base + m.codeOff) m.codeLen) ||
  (!s.inStripe pc && (s.boundTo t).any fun c => inRange pc (s.grantLe c 96 8) (s.grantLe c 104 4))

/-! Bytes that lie in memory: the desk, Street memory, Square memory and DRAM. -/

/-- `n` bytes at an effective address of thread `t`: 0 where nothing lies. -/
def State.eaBytes (s : State) (t : Nat) (e : Ea) (n : Nat) : List Byte :=
  if e.desk then s.deskBytes t e.addr n
  else match s.region e.addr with
    | .dram | .square => s.seen e.addr n
    | .street _ => s.bytes e.addr n
    | _ => zeros n

/-- One byte at an effective address of thread `t`, 0 outside its rights (R230, R268). -/
def State.eaByte (s : State) (t : Nat) (e : Ea) : Byte :=
  if s.right t (s.thread t).priv false e then (s.eaBytes t e 1).headD 0 else 0

/-- Write bytes of memory at an effective address of thread `t`; the caller has checked the rights. -/
def eaStore (t : Nat) (e : Ea) (bs : List Byte) : M Unit :=
  if e.desk then writeDesk t e.addr bs else store (coreOf t) e.addr bs

/-- Whether data at an effective address cannot be read: its check code is uncorrectable, its channel or its Street is in
Detention (R347, R356, R494). -/
def State.eaBad (s : State) (e : Ea) (n : Nat) : Bool :=
  !e.desk && match s.region e.addr with
    | .dram | .square => s.anyBad e.addr n
    | .street k => s.anyBad e.addr n || s.fenced ⟨.street, k⟩
    | _ => false

/-- Report data that cannot be read, where it is the memory that has lost it. -/
def eaReport (e : Ea) (n : Nat) : M Unit := if e.desk then pure () else reportBads e.addr n

/-- The addresses of `n` bytes behind a banked pointer, which never leave its window (R228); `none` while its bank is not
VALID. -/
def Thread.ptrBytes (th : Thread) (p : Word) (n : Nat) : Option (List Ea) :=
  if (th.bank (ptrBank p)).msb then some ((List.range n).filterMap fun i => th.ptrEa p i) else none

/-- Whether some byte within the thread's rights cannot be read. -/
def State.anyUnreadable (s : State) (t : Nat) (es : List Ea) : Option Ea :=
  es.find? fun e => s.right t (s.thread t).priv false e && s.eaBad e 1

end Sys2Proof.Machine
end

