-- ==== Sys2Proof/Machine/Sched.lean ====
section
/-! DEFINITION. Threads between instructions: stopping, faults and notices (R208 to R212), the actions of R211, trap
entry (R258), starting and continuing activations (R158 to R166, R239) and the dispatcher's rows. -/

namespace Sys2Proof.Machine

/-- Whether what a thread does is on behalf of a class-0 context (R358). -/
def State.onUrgent (s : State) (t : Nat) : Bool :=
  (s.thread t).act.any fun i => (s.actsAt i).any fun a => (s.ctx a.ctx).msg.cls = 0

/-! Putting activations back (R158, R164, R177, R178). -/

/-- Put an activation back at the head of its list: `rerun` for a run that starts again, `bump` for ABANDON 0.  A record
whose context no longer takes activations is freed. -/
def requeueAct (i : Nat) (rerun bump : Bool) : M Unit := do
  let a ← rd (·.actsAt i)
  match a with
  | none => pure ()
  | some a => do
    let c ← rd (·.ctx a.ctx)
    onlyIf (rerun && !bump) (count Reg.SQ_CNT_REDISPATCHED)
    if c.cgen != a.cgen || c.state = .free || c.state = .abandoning then actRelease i
    else do
      emit (.acts i (some { a with
        rerun := a.rerun || rerun
        reruns := if bump then min 65535 (a.reruns + 1) else a.reruns
        place := .ready
        saved := if rerun then none else a.saved }))
      readyHead i a.ctx

/-- A seat is taken: the context's seat, and the core's (R162). -/
def takeSeat (x t : Nat) : M Unit := do
  let o := coreReg Reg.CORE_STATUS (coreOf t)
  modCtxs x fun c => { c with seat := some t }
  setFld o Fld.CORE_STATUS_SEAT_THR (thrOf t)
  setFld o Fld.CORE_STATUS_SEAT_VALID 1
  count Reg.SQ_CNT_SEATS

/-- A thread loses its core's seat; the context that held it chooses a new one (R178, R211). -/
def loseSeat (t : Nat) : M Unit := do
  let held ← rd (·.isSeat t)
  onlyIf held do
    releaseSeat t
    let xs ← rd fun s => (s.ctxs.filter fun e => e.2.seat = some t).map Prod.fst
    each xs fun x => modCtxs x fun c => { c with seat := none }

/-- The dispatcher withdraws PREEMPT from a thread, and the urgent activation waits again: for another thread (R217), or, where
the thread stops and so keeps its seat (R210), for what R211 does with it. -/
def withdrawPreempt (t : Nat) (keepSeat : Bool) : M Unit := do
  let th ← rd (·.thread t)
  match th.preempt with
  | none => pure ()
  | some a => do
    modThreads t fun th => { th with preempt := none }
    clearFlag t evPreempt
    onlyIf (!keepSeat) (loseSeat t)
    requeueAct a false false

/-! Stopping (R210, R381, R384). -/

/-- A bound thread leaves WAITEV or is stopped: a stalemate notice of its core is no longer current (R213). -/
def breakStall (t : Nat) : M Unit := do
  let bound ← rd fun s => (s.boundTo t).isSome
  onlyIf bound (setFld (coreReg Reg.CORE_FAULT (coreOf t)) Fld.CORE_FAULT_STALLED 0)

/-- A thread's helper request that no unit has accepted leaves its queue (R288). -/
def withdrawHelper (t : Nat) : M Unit :=
  each (List.range 4) fun k => modHqueues (streetOf t * 4 + k) fun l => l.filter fun w => w.thread != t || w.restart

/-- A thread no longer waits for a host read that is outstanding: its data will be discarded (R431 step 4, R433). -/
def forgetRead (t : Nat) : M Unit := do
  let th ← rd (·.thread t)
  let c ← rd (·.boundTo t)
  match th.loading, c with
  | some (a, _), some c => do
    let r ← rd (·.region a)
    onlyIf (decide (r = .host)) (modSq fun q => { q with lateReads := q.lateReads ++ [(t, c)] })
  | _, _ => pure ()

/-- A thread enters STOPPED or RESET: it leaves every queue, its open packets are aborted and its generation moves on; the halt
behind a step stays pending (R216). -/
def stopThread (t : Nat) (st : ThState) : M Unit := do
  forgetRead t
  modThreads t fun th => { th with state := st, wait := .none, tgen := (th.tgen + 1) % 256, stepping := false
                                   haltPending := th.haltPending || th.stepping }
  lockWithdraw t
  chAbortAll t
  modSq fun q => { q with blocked := q.blocked.filter (· != t) }
  withdrawHelper t
  withdrawPreempt t true
  breakStall t

/-- Cancel a thread's timer (R207). -/
def cancelTimer (t : Nat) : M Unit := do
  let th ← rd (·.thread t)
  match th.timer with
  | none => pure ()
  | some h => do
    delayCancel h
    modThreads t fun th => { th with timer := none }

/-! Notices and faults (R208, R209). -/

/-- Write the fault notice into the Monitor's private page and set FAULT_NOTIFY (R208). -/
def notify (k : Nat) : M Unit := do
  let f ← rd (·.reg (coreReg Reg.CORE_FAULT k))
  let mode ← rd (·.mode)
  let rec_ ← rd (·.fld (coreReg Reg.CORE_CTL k) Fld.CORE_CTL_RECOVERY)
  let m := 8 * k
  writeDesk m 0xFE00 (leBytes 1 (Fld.CORE_FAULT_FAULTED.get f) ++ leBytes 1 (Fld.CORE_FAULT_STALLED.get f) ++
    leBytes 1 mode ++ leBytes 1 rec_)
  each (List.range 8) fun t => do
    let w ← rd (·.reg (Reg.CORE_TFAULT (k / 8) (k % 8) t))
    writeDesk m (0xFE10 + 16 * t) (leBytes 1 (Fld.CORE_TFAULT_CAUSE.get w))
    writeDesk m (0xFE18 + 16 * t) (leBytes 8 (Fld.CORE_TFAULT_PC.get w))
  setFlag m evFaultNotify

/-- A thread fault (R209): the thread stops, or its whole core. -/
def threadFault (t cause : Nat) : M Unit := do
  let k := coreOf t
  let f := coreReg Reg.CORE_FAULT k
  let th ← rd (·.thread t)
  let alone ← rd fun s => s.datapathOn && s.fld (coreReg Reg.CORE_CTL k) Fld.CORE_CTL_RECOVERY = 0 && !isMonitor t
  emit (.regs (Reg.CORE_TFAULT (k / 8) (k % 8) (thrOf t))
    (Fld.CORE_TFAULT_CAUSE.place cause ||| Fld.CORE_TFAULT_PC.place th.pc.toNat))
  modRegs f fun w => Fld.CORE_FAULT_FAULTED.set w (setBit (Fld.CORE_FAULT_FAULTED.get w) (thrOf t) true)
  count (coreReg Reg.CORE_CNT_THREAD_FAULTS k)
  if alone then do
    stopThread t .stopped
    notify k
  else do
    each (List.range 8) fun i => stopThread (8 * k + i) .stopped
    setFld f Fld.CORE_FAULT_CORE_STOPPED 1
    notify k
    report k clsU 0x05 (some ⟨.core, k⟩) 0

/-! Traps (R256 to R258). -/

abbrev causeUndef : Nat := 1
abbrev causePriv : Nat := 2
abbrev causeBank : Nat := 3
abbrev causeAlign : Nat := 4
abbrev causeBus : Nat := 5
abbrev causeHelper : Nat := 6
abbrev causeRep : Nat := 7
abbrev causeTrap : Nat := 8
abbrev causeWatch : Nat := 9

/-- TSTATE.INH: the thread is in its trap handler. -/
def Thread.inHandler (th : Thread) : Bool := bitOf th.tstate.toNat 6

/-- The thread after a trap has entered its handler (R258). -/
def Thread.trapped (th : Thread) (cause : Nat) (value : Word) (tpc : Addr) : Thread :=
  { th with
    tpc := Word.ofNat tpc.toNat
    tcause := Word.ofNat cause
    tval := value
    tstate := Word.ofNat (th.priv + 4 * th.flags.toNat + 64)
    priv := if th.priv = 0 then 0 else 1 }

/-- Where the handler of a cause begins (R258). -/
def Thread.vector (th : Thread) (cause : Nat) : Addr :=
  let base := if th.priv = 0 then th.tvec0 else th.tvec1
  BitVec.ofNat 48 (base.toNat + cause * 0x40)

/-- Trap entry (R258); inside a trap handler it is a thread fault. -/
def trap (t cause : Nat) (value : Word) (tpc : Addr) : M Unit := do
  let th ← rd (·.thread t)
  if th.inHandler then threadFault t 1
  else finishAt t (th.vector cause) fun th => th.trapped cause value tpc

/-! Starting and continuing activations (R159, R164, R239). -/

/-- The activation block (R159). -/
def State.actBlock (s : State) (i : Nat) (a : Act) : List Byte :=
  let c := s.ctx a.ctx
  let m := c.msg
  (List.range 4).flatMap (fun k => leBytes 8 (a.opnds.getD k 0).toNat) ++ leBytes 6 a.tag ++ leBytes 1 (a.absent % 16 + 16 * bit a.rerun + 32 * bit m.recirc) ++
  leBytes 1 (m.cls + 16 * m.term) ++ leBytes 2 a.entry ++ leBytes 2 m.epoch ++ leBytes 4 m.buffer ++ leBytes 4 m.msgLen ++
  leBytes 2 m.payloadOff ++ leBytes 1 m.port ++ leBytes 1 c.clgen ++ leBytes 4 (if m.sequenced then m.stream else 0) ++ leBytes 4 i ++
  leBytes 8 m.key.toNat ++ leBytes 8 m.rxTs.toNat ++ (List.range 8).flatMap (fun r => leBytes 2 (m.records.getD r 0xFFFF)) ++
  leBytes 8 c.order ++ leBytes 6 m.seq ++ leBytes 2 a.reruns ++ zeros 16

/-- The address of thread-code entry `e` of the Term in a slot (R161, R465). -/
def State.entryAddr (s : State) (slot e : Nat) : Nat :=
  let t := s.termsAt slot
  t.base + t.codeOff + s.leMem (t.base + t.entryOff + 4 * e) 4

/-- A thread as an activation starts on it (R239). -/
def Thread.started (th : Thread) (i entry : Nat) : Thread :=
  { th.setG (th.wrd % 32) (Word.ofNat (2 ^ 62 + entry)) with
    priv := 2, flags := .clear, repc := 0, bk := [], journal := .empty, act := some i }

/-- An activation starts on a thread (R239). -/
def startAct (t i : Nat) (a : Act) : M Unit := do
  let pc ← rd fun s => s.entryAddr (s.ctx a.ctx).msg.term a.entry
  finishAt t (BitVec.ofNat 48 pc) fun th => th.started i a.entry

/-- Whether class-0 activations pre-empt (R166). -/
def State.preemptEn (s : State) : Bool := s.inForce Reg.SQ_CFG Fld.SQ_CFG_PREEMPT_EN = 1

/-- An activation is given to a thread that stands in GETWORK, with its activation block (R159): it starts there, or the copy
of its saved state begins (R160, R164, R239). -/
def give (t i : Nat) : M Unit := do
  unqueueAct i
  modSq fun q => { q with blocked := q.blocked.filter (· != t) }
  let a ← rd (·.actsAt i)
  match a with
  | none => pure ()
  | some a => do
    let c ← rd (·.ctx a.ctx)
    let en ← rd (·.preemptEn)
    onlyIf (c.msg.cls = 0 && c.seat.isNone && en) (takeSeat a.ctx t)
    count Reg.SQ_CNT_DISPATCHED
    emit (.acts i (some { a with place := .running }))
    let blk ← rd (·.actBlock i a)
    writeDesk t 0xFF80 blk
    match a.saved with
    | none => startAct t i a
    | some _ => modThreads t fun th => { th with state := .waiting, wait := .copy i, act := some i }

/-- The context whose seat a thread is. -/
def State.seatCtx (s : State) (t : Nat) : Option Nat := (s.ctxs.find? fun e => e.2.seat = some t).map Prod.fst

/-- The activations of the bypass lane of classroom `c`, in order, with their records. -/
def State.urgentOf (s : State) (c : Nat) : List (Nat × Act) :=
  s.sq.bypass.filterMap fun i => match s.actsAt i with
    | some a => if (s.ctx a.ctx).msg.classroom = c then some (i, a) else none
    | none => none

/-- The head activation of classroom `c`'s ready lists, class 1 first (R160). -/
def State.readyOf (s : State) (c : Nat) : Option Nat :=
  ((List.range 7).filterMap fun k => (s.readyAt (c * 8 + k + 1)).head?).head?

/-- Whether a thread has a halt pending, or halts behind the one instruction that it steps (R216, R217). -/
def Thread.haltDue (th : Thread) : Bool := th.haltPending || th.stepping

/-- Whether the dispatcher gives activations (R511). -/
def State.dispatchOn (s : State) : Bool := s.threadsOn

/-- Whether the dispatcher has a core: one that is in Detention, or on its way there itself or with its Street, is withdrawn
(R493). -/
def State.coreServes (s : State) (k : Nat) : Bool :=
  !(s.fenced ⟨.core, k⟩ || s.fencing ⟨.core, k⟩ || s.fencing ⟨.street, k / 8⟩)

/-- The activation the dispatcher has for a thread that enters GETWORK (R160, R162, R166): a seat takes its own context's
activations only; another thread an urgent one that has no seat yet, unless it has a halt pending (R217), then the head of
the ready lists. -/
def State.workFor (s : State) (t : Nat) : Option Nat :=
  match s.boundTo t with
  | none => none
  | some c =>
    match s.seatCtx t with
    | some x => ((s.urgentOf c).find? fun e => e.2.ctx = x).map Prod.fst
    | none =>
      let urgent := (s.urgentOf c).find? fun e =>
        (s.ctx e.2.ctx).seat.isNone && (!s.preemptEn || (!s.coreHasSeat (coreOf t) && !(s.thread t).haltDue))
      (urgent.map Prod.fst).orElse fun _ => s.readyOf c

/-- The activation a thread that enters GETWORK takes: the one it has been pre-empted for, else what the dispatcher has; nothing
on a core that is withdrawn (R160, R493). -/
def State.workNext (s : State) (t : Nat) : Option Nat :=
  if s.coreServes (coreOf t) then (s.thread t).preempt.orElse fun _ => if s.dispatchOn then s.workFor t else none
  else none

/-- Whether a Street stands at L0 (R514). -/
def State.streetUp (s : State) (k : Nat) : Bool := s.fld (Reg.ST_STATUS k) Fld.ST_STATUS_RUNG_ACT = 0

/-- A Street below L0 returns to L0 for an access to its registers or memory, unless it is held or in Detention (R514). -/
def wakeStreet (k : Nat) : M Unit := do
  let stay ← rd fun s => s.boot.tripHold || s.fenced ⟨.street, k⟩
  onlyIf (!stay) (setFld (Reg.ST_STATUS k) Fld.ST_STATUS_RUNG_ACT 0)

/-- A thread whose state has been copied in continues its activation (R164, R386). -/
def continueAct (t i : Nat) (a : Act) (v : Saved) : M Unit := do
  emit (.acts i (some { a with saved := none }))
  locksToThread i t
  finishAt t v.pc fun th =>
    { th with g := v.g, bk := v.bk, flags := v.flags, repc := v.repc, priv := v.priv, tpc := v.tpc, tcause := v.tcause,
              tval := v.tval, tstate := v.tstate, journal := v.journal, act := some i }

/-- A thread blocks in GETWORK (R160); a halt that waits takes effect, unless the thread holds an open packet (R214). -/
def blockThread (t : Nat) : M Unit := do
  let o ← rd (·.openPacket t)
  modThreads t fun th =>
    let th := { th with wait := .none, pc := th.home }
    if th.haltPending && !o then { th with state := .halted, heldState := .idle, haltPending := false }
    else { th with state := .idle }
  modSq fun q => { q with blocked := q.blocked.filter (· != t) ++ [t] }

/-- GETWORK as recorded in HOME and WMASK (R239): an event, an activation, or the thread blocks. -/
def getWork (t : Nat) : M Unit := do
  let th ← rd (·.thread t)
  let ev := th.evf &&& waitMask t th.wmask
  if ev != 0 then
    finishAt t (th.home + 4) fun th => th.setG (th.wrd % 32) (Word.ofNat (2 ^ 63 + ev.toNat))
  else do
    let next ← rd (·.workNext t)
    match next with
    | some i => do
      onlyIf th.preempt.isSome (count (coreReg Reg.CORE_CNT_PREEMPTED_IN (coreOf t)))
      give t i
    | none => blockThread t

/-! What the Monitor, and Tenik, do with a thread (R211, R429). -/

/-- A thread's activation leaves it unsealed and goes back to its list (R178, R211). -/
def dropActRerun (t : Nat) : M Unit := do
  let th ← rd (·.thread t)
  match th.act with
  | none => pure ()
  | some i => do
    modThreads t fun th => { th with act := none, journal := .empty }
    requeueAct i true false

/-- RELEASE (1), DROP (2) or RESET (3) of a thread that is STOPPED or WAITING, which enters IDLE (R211). -/
def threadAction (t action : Nat) : M Unit := do
  let th ← rd (·.thread t)
  onlyIf (isThread t && !isMonitor t && (th.state = .stopped || th.state = .waiting)) do
    stopThread t .stopped
    if action = 2 then
      match th.act with
      | none => pure ()
      | some i => do
        let a ← rd (·.actsAt i)
        modThreads t fun th => { th with act := none }
        match a with
        | some a => wantAbandon a.ctx a.cgen
        | none => pure ()
        actRelease i
    else do
      loseSeat t
      dropActRerun t
    cancelTimer t
    let f := coreReg Reg.CORE_FAULT (coreOf t)
    modRegs f fun w => Fld.CORE_FAULT_FAULTED.set w (setBit (Fld.CORE_FAULT_FAULTED.get w) (thrOf t) false)
    modThreads t fun th =>
      { th with g := [], bk := [], repc := 0, flags := .clear, evf := th.evf &&& 1, journal := .empty, act := none
                forced := false }
    blockThread t

/-- A thread restarts at P1 at its classroom's supervisor entry (R429 step 4). -/
def restartThread (t : Nat) : M Unit := do
  let th ← rd (·.thread t)
  let c ← rd (·.boundTo t)
  match c with
  | none => pure ()
  | some c => do
    let pc ← rd fun s => s.grantLe c 96 8 + s.grantLe c 108 4
    let tv ← rd (·.grantLe c 112 8)
    let h ← rd (·.grantLe c 13 1)
    emit (.threads t { Thread.zero with
      tgen := th.tgen, state := .running, priv := 1, pc := BitVec.ofNat 48 pc
      tvec0 := th.tvec0, tvec1 := Word.ofNat tv &&& 0x0000FFFFFFFFFC00, helperEn := h % 256 + 0xF00 })

/-- A Monitor starts at P0 at the Monitor code (R225); the spec names neither its entry nor its trap vector. -/
def startMonitor (k : Nat) : M Unit := do
  let th ← rd (·.thread (8 * k))
  emit (.threads (8 * k) { Thread.zero with
    tgen := th.tgen, evf := th.evf &&& 1, state := .running, priv := 0, pc := BitVec.ofNat 48 (Config.monitorEntry k)
    tvec0 := Config.monitorTvec0 k &&& 0x0000FFFFFFFFFC00, helperEn := 0xFFF })

/-- Every thread of a core as the core enters Detention (R178, R493); the generation of one held in reset moves on too (R381). -/
def withdrawCore (k : Nat) : M Unit :=
  each (List.range 8) fun i => do
    let t := 8 * k + i
    let th ← rd (·.thread t)
    if th.state = .reset then modThreads t fun th => { th with tgen := (th.tgen + 1) % 256 }
    else do
      stopThread t .stopped
      loseSeat t
      dropActRerun t
      cancelTimer t

/-! The dispatcher's rows. -/

/-- Whether a thread of classroom `c` that blocks in GETWORK may be given an activation: not before it has returned an event that
its mask lets through (R239).  One whose Street stands below L0 may, and the Street returns for it (R514). -/
def State.canTake (s : State) (c t : Nat) : Bool :=
  let th := s.thread t
  th.state = .idle && s.boundTo t = some c && (th.evf &&& waitMask t th.wmask) = 0 && s.coreServes (coreOf t)

/-- Whether a busy thread of classroom `c` may be pre-empted (R162, R217, R385). -/
def State.victim (s : State) (c t : Nat) : Bool :=
  let th := s.thread t
  s.boundTo t = some c && !s.coreHasSeat (coreOf t) && (th.state = .running || th.state = .waiting) &&
  !th.midRep && th.preempt.isNone && !th.haltDue && s.coreServes (coreOf t) &&
  !s.lockQueued t && th.act.any fun i => (s.actsAt i).any fun a => (s.ctx a.ctx).msg.cls != 0

/-- The victim of the lowest weight, the lowest thread among equals (R162). -/
def State.chooseVictim (s : State) (c : Nat) : Option Nat :=
  ((List.range 768).filter (s.victim c)).foldl (fun best t =>
    match best with
    | none => some t
    | some b => if s.weight t < s.weight b then some t else best) none

/-- What the dispatcher does next for classroom `c`. -/
inductive Choice
  | give (t i : Nat)
  | preempt (t i x : Nat)
  deriving DecidableEq, Repr

/-- What becomes of one urgent activation (R162, R166). -/
def State.urgentChoice (s : State) (c i : Nat) (a : Act) : Option Choice :=
  let free := s.sq.blocked.filter (s.canTake c)
  match (s.ctx a.ctx).seat with
  | some t => if free.contains t then some (.give t i) else none
  | none =>
    if !s.preemptEn then (free.find? fun t => (s.seatCtx t).isNone).map (Choice.give · i)
    else
      match free.find? fun t => !s.coreHasSeat (coreOf t) && !(s.thread t).haltDue with
      | some t => some (.give t i)
      | none => (s.chooseVictim c).map (Choice.preempt · i a.ctx)

/-- The dispatcher's choice for classroom `c`: urgent activations first, then the ready lists. -/
def State.choice (s : State) (c : Nat) : Option Choice :=
  ((s.urgentOf c).filterMap fun e => s.urgentChoice c e.1 e.2).head?.orElse fun _ =>
    match s.sq.blocked.find? fun t => s.canTake c t && (s.seatCtx t).isNone, s.readyOf c with
    | some t, some i => some (.give t i)
    | _, _ => none

/-- DISPATCH: a ready activation of classroom `c` goes to a blocked thread, or a victim is chosen for an urgent one. -/
def execDispatch (c : Nat) (s : State) : Host.Outcome State Fault Refusal :=
  commit (do
    let on ← rd (·.dispatchOn)
    let ch ← rd (·.choice c)
    match if on then ch else none with
    | none => pure ()
    | some (.give t i) => give t i
    | some (.preempt t i x) => do
      unqueueAct i
      takeSeat x t
      modThreads t fun th => { th with preempt := some i }
      setFlag t evPreempt) s

/-- Whether a thread stands at an instruction boundary or in an instruction that has had no effect yet. -/
def Thread.atBoundary (th : Thread) : Bool :=
  match th.state with
  | .running => true
  | .waiting => match th.wait with
    | .event _ _ _ | .chRead _ _ | .chWrite _ _ _ _ _ | .unit _ | .helperEvent _ => !th.midRep
    | _ => false
  | _ => false

/-- The saved state of a pre-empted activation (R164). -/
def Thread.save (th : Thread) (t : Nat) : Saved :=
  ⟨th.g, th.bk, th.flags, th.repc, th.pc, th.priv, th.tpc, th.tcause, th.tval, th.tstate, th.journal, t⟩

/-- PREEMPT_SAVE: at an instruction boundary the victim's activation is saved and the urgent one loaded (R164). -/
def execPreemptSave (t : Nat) (s : State) : Host.Outcome State Fault Refusal :=
  commit (do
    let th ← rd (·.thread t)
    let on ← rd fun s => s.dispatchOn && s.coreServes (coreOf t)
    match th.preempt with
    | none => pure ()
    | some i => onlyIf (on && th.atBoundary && !th.haltPending) do
      match th.act with
      | none => pure ()
      | some o => do
        modActs o fun a => a.map fun a => { a with saved := some (th.save t) }
        locksToAct t o
        requeueAct o false false
        count (coreReg Reg.CORE_CNT_PREEMPTED_OUT (coreOf t))
        count Reg.SQ_CNT_PREEMPTIONS
      withdrawHelper t
      chLeave t
      breakStall t
      modThreads t fun th => { th with preempt := none, act := none, wait := .none }
      clearFlag t evPreempt
      count (coreReg Reg.CORE_CNT_PREEMPTED_IN (coreOf t))
      give t i) s

/-- STATE_COPY_END: the saved state of a pre-empted activation has been copied in (R164, R386). -/
def execStateCopyEnd (t : Nat) (s : State) : Host.Outcome State Fault Refusal :=
  commit (do
    let th ← rd (·.thread t)
    match th.wait with
    | .copy i => do
      let a ← rd (·.actsAt i)
      match a with
      | some a => match a.saved with
        | some v => continueAct t i a v
        | none => pure ()
      | none => pure ()
    | _ => pure ()) s

/-- THREAD_TIMER_DUE: a thread's delay entry falls due and sets its TIMER flag (R167, R168, R207). -/
def execThreadTimerDue (d : Nat) (s : State) : Host.Outcome State Fault Refusal :=
  commit (do
    let e ← rd (·.delayAt d)
    let on ← rd (·.threadsOn)
    match e.arm with
    | some ⟨l, due, .thread t⟩ => do
      let next ← rd (·.dueNext ⟨l, due, .thread t⟩)
      onlyIf (on && next) do
        delayFree d
        count Reg.SQ_CNT_TIMERS_DUE
        modThreads t fun th => { th with timer := th.timer.filter (· != d + l * 2 ^ 24 + e.gen * 2 ^ 27) }
        setFlag t evTimer
    | _ => pure ()) s

/-- FLAG_WAKE: a thread waits in WAITEV or GETWORK and one of its flags matches (R205, R239). -/
def execFlagWake (t : Nat) (s : State) : Host.Outcome State Fault Refusal :=
  commit (do
    let th ← rd (·.thread t)
    let on ← rd fun s => s.threadRuns t && s.streetUp (streetOf t)
    match th.state with
    | .waiting => match th.wait with
      | .event r mask clear => do
        let ev := th.evf &&& waitMask t mask
        onlyIf (on && ev != 0) do
          breakStall t
          finishNext t fun th =>
            { th.setG r (Word.ofNat ev.toNat) with evf := if clear then th.evf &&& ~~~(ev &&& ~~~0x20#32) else th.evf }
      | _ => pure ()
    | .idle => onlyIf (on && (th.evf &&& waitMask t th.wmask) != 0) do
      modSq fun q => { q with blocked := q.blocked.filter (· != t) }
      getWork t
    | _ => pure ()) s

end Sys2Proof.Machine
end

