-- ==== Sys2Proof/Machine/Issue.lean ====
section
/-! DEFINITION. What every instruction shares: it issues from a RUNNING thread (R195, R203) that may fetch it (R232), a
reserved bit raises UNDEF (R220), and its word is what UNDEF and PRIV report in TVAL (R256).  The words are formed from
the formats of R221 and the opcode map of R233. -/

namespace Sys2Proof.Machine

/-! Instruction words (R221). -/

/-- Format A. -/
def wordA (op rd ra rb fn : Nat) : Nat :=
  op * 2 ^ 26 + rd % 32 * 2 ^ 21 + ra % 32 * 2 ^ 16 + rb % 32 * 2 ^ 11 + fn % 2 ^ 11

/-- Format I. -/
def wordI (op rd ra sub imm : Nat) : Nat :=
  op * 2 ^ 26 + rd % 32 * 2 ^ 21 + ra % 32 * 2 ^ 16 + sub % 4 * 2 ^ 14 + imm % 2 ^ 14

/-- Format M. -/
def wordM (op rd bank short : Nat) : Nat := op * 2 ^ 26 + rd % 32 * 2 ^ 21 + bank % 8 * 2 ^ 18 + short % 2 ^ 18

/-- Format X. -/
def wordX (op rd rb off : Nat) : Nat := op * 2 ^ 26 + rd % 32 * 2 ^ 21 + rb % 32 * 2 ^ 16 + off % 2 ^ 16

/-- Format B. -/
def wordB (op cond disp : Nat) : Nat := op * 2 ^ 26 + cond % 32 * 2 ^ 21 + disp % 2 ^ 21

/-- Format H. -/
def wordH (op fn ra rb rc flags : Nat) : Nat :=
  op * 2 ^ 26 + fn % 64 * 2 ^ 20 + ra % 32 * 2 ^ 15 + rb % 32 * 2 ^ 10 + rc % 32 * 2 ^ 5 + flags % 32

/-- UNDEF with its reason (R256). -/
def undef (t word reason : Nat) : M Unit := do
  let th ← rd (·.thread t)
  trap t causeUndef (Word.ofNat (word % 2 ^ 32 + reason * 2 ^ 32)) th.pc

/-- A trap of the instruction at the thread's pc. -/
def trapHere (t cause : Nat) (value : Word) : M Unit := do
  let th ← rd (·.thread t)
  trap t cause value th.pc

/-- Whether a thread issues its next instruction. -/
def State.issues (s : State) (t : Nat) : Bool :=
  isThread t && (s.thread t).running && s.threadRuns t && s.streetUp (streetOf t) && !s.fenced ⟨.core, coreOf t⟩

/-- A thread issues an instruction of word `word`; `ok` says that no bit it reserves is set. -/
def issue (t word : Nat) (ok : Bool) (body : Thread → M Unit) : M Unit := do
  let run ← rd (·.issues t)
  onlyIf run do
    count (coreReg Reg.CORE_CNT_ISSUED (coreOf t))
    let th ← rd (·.thread t)
    let fetch ← rd (·.mayFetch t th.pc.toNat)
    if !fetch then trap t causeBus (Word.ofNat th.pc.toNat) th.pc
    else if !ok then undef t word 0
    else body th

/-- Whether a store of a thread through the remote window is outstanding: no other device has it yet (R458). -/
def State.storesOut (s : State) (t : Nat) : Bool := s.ring.remotes.any fun m => m.thread == t && m.write.isSome

/-- A thread issues a releasing instruction (R260): what it stored before must be visible first, so while one of its stores
through the remote window is outstanding the instruction does not issue, and the thread stands before it. -/
def issueRel (t word : Nat) (ok : Bool) (body : Thread → M Unit) : M Unit := do
  let out ← rd (·.storesOut t)
  onlyIf (!out) (issue t word ok body)

/-! Words to which no instruction is assigned, which raise UNDEF.  The opcode table has no row for them: `execTrap` carries one
(notes/assumptions/55.md). -/

/-- Whether a field of a word is 0. -/
def clearField (w hi lo : Nat) : Bool := bitsOf w hi lo == 0

/-- Whether some instruction is assigned to a word's major, and to its fn or sub where it has one (R233 to R248). -/
def assigned (w : Nat) : Bool :=
  let fn := bitsOf w 10 0
  let sub := bitsOf w 15 14
  match bitsOf w 31 26 with
  | 0x00 => fn % 64 ≤ 0x19
  | 0x06 => true
  | 0x09 | 0x0A | 0x0B | 0x0E | 0x23 => false
  | 0x0D | 0x28 => sub < 2
  | 0x20 => (condHolds (bitsOf w 25 21) (.ofNat 0)).isSome
  | 0x24 => fn % 16 < 4
  | 0x25 => fn % 16 < 5
  | 0x26 => fn % 16 < 4
  | 0x27 => fn % 16 < 5
  | m => m < 0x29 || (0x38 ≤ m && m < 0x3C)

/-- The functions of a helper major that are implemented (R273 to R285). -/
def helperFns (major : Nat) : Nat :=
  match major with
  | 0x38 => 4 | 0x39 => 8 | 0x3A => 7 | 0x3B => 3 | _ => 0

/-- The reason UNDEF gives for a word that no instruction is assigned to (R256, R287); `none` for one that is assigned. -/
def unassigned (w : Nat) : Option Nat :=
  let m := bitsOf w 31 26
  if 0x3C ≤ m then some 1
  else if 0x38 ≤ m then (if bitsOf w 25 20 < helperFns m then none else some 2)
  else if assigned w then none else some 0


end Sys2Proof.Machine
end

