-- ==== Sys2Proof/Machine/Journal.lean ====
section
/-! DEFINITION. The journal of an activation (R170 to R177, R241 to R244): staging, sealing and abandoning. -/

namespace Sys2Proof.Machine

/-- An instruction of major 0x25 that needs an activation: without one it raises UNDEF with reason 5 (R243).  JOUT and
RETIRE are releasing (R260). -/
def journalOp (t rd' ra rb code rsv : Nat) (body : Thread → Nat → M Unit) : M Unit :=
  let word := wordA 0x25 rd' ra rb (rsv % 64 * 32 + code)
  (if code = 2 ∨ code = 3 then issueRel else issue) t word (decide (rsv % 64 = 0)) fun th =>
    match th.act with
    | none => undef t word 5
    | some i => body th i

/-- A staging instruction: `stage` beyond no limit, else the journal is marked OVERFLOWED (R170). -/
def stageIn (t : Nat) (room : Bool) (stage : Journal → Journal) : M Unit :=
  finishNext t fun th => { th with journal := if room then stage th.journal else { th.journal with overflowed := true } }

/-- TOKEN (R174, R241); `rsv` is fn[10:5]. -/
def execToken (t ra rb rsv : Nat) (s : State) : Host.Outcome State Fault Refusal :=
  commit (journalOp t 0 ra rb 0 rsv fun th i => do
    let w := (th.gr (rb % 32)).toNat
    let a ← rd (·.actsAt i)
    let own := (a.map fun a => tagIter a.tag).getD 0
    let tok : StagedToken := ⟨bitsOf w 11 0, bitsOf w 13 12, bitOf w 14, if bitOf w 22 then bitsOf w 21 16 else own, th.gr (ra % 32)⟩
    stageIn t (decide (th.journal.tokens.length < 16)) fun j => { j with tokens := j.tokens ++ [tok] }) s

/-- What one 8-byte word of the source of a staging instruction gives. -/
inductive Staged
  | bytes (b : List Byte)
  | waits
  | trapped
  deriving DecidableEq, Repr

/-- The bytes a staging instruction may copy of a word: 0 outside the thread's rights (R230). -/
def State.stagedWord (s : State) (t : Nat) (es : List Ea) : List Byte := es.map (s.eaByte t)

/-- The same of a word that the host has returned (R426). -/
def State.hostStaged (s : State) (t : Nat) (es : List Ea) (v : Word) : List Byte :=
  es.zipIdx.map fun x => if s.right t (s.thread t).priv false x.1 then (leBytes 8 v.toNat).getD x.2 0 else 0

/-- One word of the source of a staging instruction: at once, or from DRAM or the host when they answer; data that cannot be
read raises BUS (R230, R256, R347, R426). -/
def stageWord (t : Nat) (es : List Ea) : M Staged := do
  let a := (es.headD ⟨true, 0⟩)
  let bad ← rd (·.anyUnreadable t es)
  let any ← rd fun s => es.any fun e => s.right t (s.thread t).priv false e
  let r ← rd (·.region a.addr)
  match bad with
  | some e => do
    eaReport e 1
    trapHere t causeBus (Word.ofNat e.addr)
    pure .trapped
  | none =>
    if !any || a.desk then do
      let b ← rd (·.stagedWord t es)
      pure (.bytes b)
    else match r with
      | .host => do
        let p ← rd fun s => (s.boundTo t).map s.pasidOf
        send (.hostRead p (a.addr - 0x040000000000) es.length)
        pure .waits
      | .dram => do
        let u ← rd (·.onUrgent t)
        touch (coreOf t) a.addr es.length u
        pure .waits
      | .street k => do
        wakeStreet k
        let b ← rd (·.stagedWord t es)
        pure (.bytes b)
      | _ => do
        let b ← rd (·.stagedWord t es)
        pure (.bytes b)

/-- Cut a list into words of 8. -/
def wordsOf {α : Type} : Nat → List α → List (List α)
  | 0, _ => []
  | n + 1, l => if l.isEmpty then [] else l.take 8 :: wordsOf n (l.drop 8)

/-- The addresses of `n` bytes behind a banked pointer that a staging instruction reads. -/
def Thread.source (th : Thread) (p : Word) (n : Nat) : List Ea := (th.ptrBytes p n).getD []

/-- The words still to copy, one after the other; `none` where the instruction waits or has trapped. -/
def stageWords (t : Nat) (wait : List Byte → Addr → Wait) : List (List Ea) → List Byte → M (Option (List Byte))
  | [], got => pure (some got)
  | es :: rest, got => do
    let r ← stageWord t es
    match r with
    | .bytes b => stageWords t wait rest (got ++ b)
    | .waits => do
      enterWait t (wait got (BitVec.ofNat 48 (es.headD ⟨true, 0⟩).addr))
      pure none
    | .trapped => pure none

/-- Copy what is left of the `n` bytes at a banked pointer. -/
def stageRest (t : Nat) (out : Bool) (p : Word) (n : Nat) (hdr : Option (List Byte)) (got : List Byte) : M (Option (List Byte)) := do
  let th ← rd (·.thread t)
  stageWords t (.staging out p n hdr) (wordsOf n ((th.source p n).drop got.length)) got

/-- How many bytes JWR copies behind the first 32: the entry of a PUT into a table of the thread's classroom (R242). -/
def State.putLen (s : State) (t : Nat) (hdr : List Byte) : Nat :=
  let d := s.table (leAt hdr 0 1 % 64)
  if leAt hdr 1 1 = 0 ∧ d.valid ∧ s.boundTo t = some d.classroom then d.esize else 0

/-- A staged table write (R171). -/
def TableWrite.ofBytes (b : List Byte) : TableWrite :=
  ⟨leAt b 0 1 % 64, leAt b 1 1, leAt b 2 1, leAt b 8 16, Word.ofNat (leAt b 24 8), b.drop 32⟩

/-- A staged egress message (R172). -/
def Egress.ofBytes (b : List Byte) : Egress :=
  ⟨leAt b 0 4, leAt b 4 2, leAt b 8 4, leAt b 12 4, leAt b 16 1, leAt b 17 1 % 16, leAt b 18 2, leAt b 20 2⟩

/-- The bytes of a table write stand in the journal (R170, R171). -/
def stageWrite (t : Nat) (b : List Byte) : M Unit := do
  let th ← rd (·.thread t)
  stageIn t (decide (th.journal.writes.length < 32)) fun j => { j with writes := j.writes ++ [TableWrite.ofBytes b] }

/-- The bytes of an egress descriptor stand in the journal (R170, R172). -/
def stageOut (t : Nat) (b : List Byte) : M Unit := do
  let th ← rd (·.thread t)
  stageIn t (decide (th.journal.outs.length < 4)) fun j => { j with outs := j.outs ++ [Egress.ofBytes b] }

/-- A staging instruction goes on behind the bytes it has copied, `got` of `n`: JWR copies its entry after its first 32
(R242). -/
def stageOn (t : Nat) (out : Bool) (p : Word) (n : Nat) (hdr : Option (List Byte)) (got : List Byte) : M Unit := do
  let b ← stageRest t out p n hdr got
  match b, hdr with
  | none, _ => pure ()
  | some b, some h => stageWrite t (h ++ b)
  | some b, none =>
    if out then stageOut t b
    else do
      let more ← rd (·.putLen t b)
      let d ← stageRest t false (ptrAdvance p 32) more (some b) []
      match d with
      | none => pure ()
      | some d => stageWrite t (b ++ d)

/-- A staging instruction begins: its bank is VALID and its pointer a multiple of 8, or it traps (R228, R231). -/
def stageBegin (t : Nat) (out : Bool) (p : Word) : M Unit := do
  let th ← rd (·.thread t)
  match th.ptrBytes p 32 with
  | none => trapHere t causeBank (Word.ofNat (ptrBank p))
  | some es => do
    let a := (es.headD ⟨false, 0⟩).addr
    if a % 8 != 0 then trapHere t causeAlign (Word.ofNat a) else stageOn t out p 32 none []

/-- The word a staging instruction waits for is there; `data` is what the host has returned (R242, R347, R426). -/
def stageArrives (t : Nat) (data : Option Word) : M Unit := do
  let th ← rd (·.thread t)
  match th.wait with
  | .staging out p n hdr got _ => do
    let es := ((th.source p n).drop got.length).take 8
    let bad ← rd (·.anyUnreadable t es)
    match data, bad with
    | none, some e => do
      eaReport e 1
      trapHere t causeBus (Word.ofNat e.addr)
    | none, none => do
      let b ← rd (·.stagedWord t es)
      stageOn t out p n hdr (got ++ b)
    | some v, _ => do
      let b ← rd (·.hostStaged t es v)
      stageOn t out p n hdr (got ++ b)
  | _ => pure ()

/-- JWR (R171, R242); `rsv` is fn[10:5]. -/
def execJwr (t ra rsv : Nat) (s : State) : Host.Outcome State Fault Refusal :=
  commit (journalOp t 0 ra 0 1 rsv fun th _ => stageBegin t false (th.gr (ra % 32))) s

/-- JOUT (R172, R242); `rsv` is fn[10:5]. -/
def execJout (t ra rsv : Nat) (s : State) : Host.Outcome State Fault Refusal :=
  commit (journalOp t 0 ra 0 2 rsv fun th _ => stageBegin t true (th.gr (ra % 32))) s

/-- Whether an activation's context still is the one it was fired for, and may commit (R146, R175). -/
def State.mayCommit (s : State) (a : Act) : Bool :=
  let c := s.ctx a.ctx
  c.cgen = a.cgen && c.clgen = s.clgen c.msg.classroom && c.state != .free && c.state != .abandoning

/-- The thread behind RETIRE: its result, and no activation. -/
def Thread.retired (th : Thread) (rd' : Nat) (r : Word) : Thread :=
  { th.setG rd' r with act := none, journal := .empty }

/-- RETIRE (R175 steps 1 and 2, R243); `rsv` is fn[10:5]. -/
def execRetire (t rd rsv : Nat) (s : State) : Host.Outcome State Fault Refusal :=
  commit (journalOp t rd 0 0 3 rsv fun th i => do
    let a ← Sys2Proof.Machine.rd (·.actsAt i)
    match a with
    | none => finishNext t fun th => th.retired (rd % 32) 1
    | some a => do
      let ok ← Sys2Proof.Machine.rd (·.mayCommit a)
      if !ok then do
        actRelease i
        count Reg.SQ_CNT_RETIRE_ABANDONED
        finishNext t fun th => th.retired (rd % 32) 1
      else if th.journal.overflowed then do
        wantAbandon a.ctx a.cgen
        actRelease i
        count Reg.SQ_CNT_RETIRE_ABANDONED
        count Reg.SQ_CNT_JOURNAL_OVF
        finishNext t fun th => th.retired (rd % 32) 2
      else do
        let now ← Sys2Proof.Machine.rd (·.timeNs)
        let order ← Sys2Proof.Machine.rd fun s => (s.ctx a.ctx).order
        emit (.acts i (some { a with place := .retiring, sealed := some (th.journal, now, order) }))
        count Reg.SQ_CNT_RETIRED
        onlyIf (th.journal.writes.isEmpty && th.journal.outs.isEmpty) (count Reg.SQ_CNT_RETIRED_TOKEN_ONLY)
        finishNext t fun th => th.retired (rd % 32) 0) s

/-- SQ_CFG.RERUN_MAX; 0 acts as 1. -/
def State.rerunMax (s : State) : Nat := max 1 (s.inForce Reg.SQ_CFG Fld.SQ_CFG_RERUN_MAX)

/-- ABANDON (R177, R243): `mode` is fn[4], `rsv` fn[10:5]. -/
def execAbandon (t mode rsv : Nat) (s : State) : Host.Outcome State Fault Refusal :=
  commit (journalOp t 0 0 0 (mode % 2 * 16 + 4) rsv fun _ i => do
    let a ← rd (·.actsAt i)
    let max ← rd (·.rerunMax)
    modThreads t fun th => { th with act := none, journal := .empty }
    match a with
    | none => pure ()
    | some a =>
      if mode % 2 = 0 ∧ a.reruns < max then do
        count Reg.SQ_CNT_ABANDON_RERUN
        requeueAct i true true
      else do
        count Reg.SQ_CNT_ABANDON_DROP
        wantAbandon a.ctx a.cgen
        actRelease i
    getWork t) s

end Sys2Proof.Machine
end

