-- ==== Sys2Proof/Machine/Ring.lean ====
section
/-! DEFINITION. The Roundabout ring (spec/15): frames, link sequencing, forwarding, heartbeats, remote tokens, mirror
records and the mirror log. -/

namespace Sys2Proof.Machine

/-- The event source of a link. -/
abbrev linkEvent (l : Nat) : Nat := 149 + l

/-- The other link. -/
abbrev otherLink (l : Nat) : Nat := 1 - l

/-- The record types of R439. -/
abbrev recHeartbeat : Nat := 1
abbrev recToken : Nat := 2
abbrev recMirror : Nat := 3
abbrev recTerm : Nat := 4
abbrev recRaccReq : Nat := 5
abbrev recRaccRsp : Nat := 6

/-- Serial arithmetic on link sequences (R441). -/
def ringAdd (a n : Nat) : Nat := (a + n) % 2 ^ 32

/-! Frames (R439). -/

/-- A record as it stands in a frame. -/
def RingRec.bytes (r : RingRec) : List Byte :=
  beBytes 1 r.ty ++ beBytes 1 (bit r.more) ++ beBytes 2 r.body.length ++ r.body

/-- The records of a frame's payload, and how many of no known type were skipped.  Zeros up to the end are padding to the
Ethernet minimum. -/
def parseRecs : Nat → List Byte → List RingRec × Nat
  | 0, _ => ([], 0)
  | fuel + 1, bs =>
    let n := beAt bs 2 2
    if bs.length < 4 + n ∨ bs.length < 4 ∨ bs.all (· == 0) then ([], 0)
    else
      let (rs, bad) := parseRecs fuel (bs.drop (4 + n))
      let ty := beAt bs 0 1
      if 1 ≤ ty ∧ ty ≤ 6 then (⟨ty, bitOf (beAt bs 1 1) 0, slice bs 4 n⟩ :: rs, bad) else (rs, bad + 1)

/-- The bits of a received frame's header field from bit `k` up, which a forwarded frame keeps (R445). -/
def RingFrame.keep (f : RingFrame) (off n k : Nat) : Nat := beAt f.raw off n / 2 ^ k * 2 ^ k

/-- A frame's bytes without its FCS, padded to the Ethernet minimum: a forwarded frame has the records and the reserved bits it
came with (R445). -/
def State.ringBytes (s : State) (f : RingFrame) : List Byte :=
  let mac := beBytes 6 (s.inForce Reg.RB_MAC Fld.RB_MAC_MAC)
  let flags := bit f.bcast + 2 * bit f.turned + 4 * bit f.unseq + 8 * bit f.nak + 16 * bit f.hold
  let out := mac ++ mac ++ beBytes 2 (s.inForce Reg.RB_CFG Fld.RB_CFG_ETHERTYPE) ++ beBytes 1 (16 + beAt f.raw 14 1 % 16) ++
    beBytes 1 (flags + f.keep 15 1 5) ++ beBytes 2 (f.src + f.keep 16 2 12) ++ beBytes 2 (f.dst + f.keep 18 2 12) ++
    beBytes 2 (f.hops + f.keep 20 2 12) ++ beBytes 4 f.lseq ++ beBytes 4 f.lack ++ beBytes 4 f.bseq ++
    (if f.raw.isEmpty then zeros 4 ++ f.recs.flatMap RingRec.bytes else f.raw.drop 34)
  if out.length < 60 then padTo 60 out else out

/-- The frame that bytes (without FCS) spell, with the number of records skipped. -/
def RingFrame.ofBytes (b : List Byte) : RingFrame × Nat :=
  let flags := beAt b 15 1
  let (recs, bad) := parseRecs b.length (b.drop 38)
  (⟨bitOf flags 0, bitOf flags 1, bitOf flags 2, bitOf flags 3, bitOf flags 4, beAt b 16 2 % 4096, beAt b 18 2 % 4096,
    beAt b 20 2 % 4096, beAt b 22 4, beAt b 26 4, beAt b 30 4, recs, false, b⟩, bad)

/-- A frame this device originates for device `d` (R446). -/
def State.ownFrame (s : State) (d : Nat) (turned : Bool) (recs : List RingRec) : RingFrame :=
  ⟨false, turned, false, false, false, s.deviceId, d, s.inForce Reg.RB_LINK Fld.RB_LINK_MAX_HOPS, 0, 0, 0, recs, false, []⟩

/-! Bodies of remote accesses (R458 gives none): the content in the model's own layout, its bytes coded by a mask nobody
knows, with anything behind it. -/

/-- Bytes under the mask of a record type, from place `i` on. -/
def raccCode (ty : Nat) : Nat → List Byte → List Byte
  | _, [] => []
  | i, b :: bs => (b ^^^ Config.raccMask ty i) :: raccCode ty (i + 1) bs

/-- The body of a RACC_REQ record: number of the access, issuing thread, register offset, size, and the data of a store. -/
def raccReq (tag t off n : Nat) (wr : Option Nat) : List Byte :=
  raccCode recRaccReq 0 (leBytes 8 tag ++ leBytes 2 t ++ leBytes 4 off ++ leBytes 1 n ++ leBytes 1 (bit wr.isSome) ++
    leBytes 8 (wr.getD 0)) ++ Config.raccTail recRaccReq

/-- What the body of a RACC_REQ record asks for. -/
def raccReqOf (body : List Byte) : Nat × Nat × Nat × Nat × Option Nat :=
  let b := raccCode recRaccReq 0 (body.take 24)
  (leAt b 0 8, leAt b 8 2, leAt b 10 4, leAt b 14 1, if bitOf (leAt b 15 1) 0 then some (leAt b 16 8) else none)

/-- The body of a RACC_RSP record: number of the access and the value read. -/
def raccRsp (tag v : Nat) : List Byte :=
  raccCode recRaccRsp 0 (leBytes 8 tag ++ leBytes 8 v) ++ Config.raccTail recRaccRsp

/-- What the body of a RACC_RSP record answers. -/
def raccRspOf (body : List Byte) : Nat × Nat :=
  let b := raccCode recRaccRsp 0 (body.take 16)
  (leAt b 0 8, leAt b 8 8)

/-! Service (R446, R448, R450). -/

/-- The standby's mirror link: the link in service whose peer it is (R450). -/
def State.mirrorLink (s : State) : Option Nat :=
  [0, 1].find? fun l => s.ringUp l && (s.ringLinksAt l).peer = some (s.inForce Reg.RB_CFG Fld.RB_CFG_STANDBY)

/-- RB_STATUS.MIRROR_OK. -/
def State.mirrorOk (s : State) : Bool := s.inForce Reg.RB_CFG Fld.RB_CFG_MIRROR_EN = 1 && s.mirrorLink.isSome

/-- Whether the device originates no frames: it leaves the ring, or has been in SAFE (R457, R511). -/
def RingState.mute (r : RingState) : Bool := r.leavingUs || r.going

/-- Queue a frame among the "other" frames of a link. -/
def linkSend (l : Nat) (f : RingFrame) : M Unit := modRingLinks l fun k => { k with other := k.other ++ [f] }

/-- Send a record to another device, on the link that serves for it (R446). -/
def ringSend (d : Nat) (r : RingRec) : M Unit := do
  let way ← rd (·.ringRoute d)
  let leaving ← rd (·.ring.mute)
  match way with
  | some (l, turned) =>
    if leaving then count Reg.RB_CNT_UNREACHABLE
    else do
      let f ← rd (·.ownFrame d turned [r])
      linkSend l f
  | none => count Reg.RB_CNT_UNREACHABLE

/-- Broadcast a record on every link in service (R447). -/
def ringBroadcast (r : RingRec) : M Unit := do
  let n ← rd (·.ring.bseq)
  let leaving ← rd (·.ring.mute)
  onlyIf (!leaving) do
    modRing fun g => { g with bseq := ringAdd n 1 }
    each [0, 1] fun l => do
      let up ← rd (·.ringUp l)
      let f ← rd (·.ownFrame 0 false [r])
      onlyIf up (linkSend l { f with bcast := true, bseq := n })

/-- Broadcast the announcement of a Term (R455). -/
def announceTerm (slot epoch : Nat) : M Unit :=
  ringBroadcast ⟨recTerm, false, leBytes 1 slot ++ zeros 1 ++ leBytes 2 epoch ++ zeros 4⟩

/-- Pass a frame on from the link it arrived on (R445 to R447). -/
def passOn (l : Nat) (f : RingFrame) : M Unit := do
  let o := otherLink l
  let out ← rd (·.ringUp o)
  let back ← rd (·.ringUp l)
  let g := { f with hops := f.hops - 1 }
  if f.hops = 0 then count Reg.RB_CNT_UNREACHABLE
  else if out then do
    count Reg.RB_CNT_FORWARDED
    modRingLinks o fun k => { k with fwd := k.fwd ++ [g] }
  else if f.bcast then pure ()
  else if back && !f.turned then do
    count Reg.RB_CNT_TURNED
    modRingLinks l fun k => { k with fwd := k.fwd ++ [{ g with turned := true }] }
  else count Reg.RB_CNT_UNREACHABLE

/-- A link has left service: what it holds unacknowledged is lost, mirror records are discarded, and frames it has not sent
take another way (R446, R448, R450). -/
def linkOut (l : Nat) : M Unit := do
  let k ← rd (·.ringLinksAt l)
  countBy Reg.RB_CNT_LOST k.held.length
  countBy Reg.RB_CNT_MIRROR_SKIPPED (k.mirror.countP fun f => !(f.recs.any (·.more)))
  modRingLinks l fun k => { k with held := [], retx := [], fwd := [], urgent := [], mirror := [], other := [], midMirror := false
                                   retries := 0 }
  each k.fwd fun f => passOn (otherLink l) { f with hops := f.hops + 1 }
  each (k.urgent ++ k.other) fun f => onlyIf (!f.bcast) (each f.recs (ringSend f.dst))
  let none_ ← rd fun s => !s.ringUp 0 && !s.ringUp 1
  let n ← rd (·.ring.remoteOut.length)
  onlyIf none_ do
    countBy Reg.RB_CNT_UNREACHABLE n
    modRing fun r => { r with remoteOut := [] }

/-- Do what may change whether links are in service, with what follows from it (R446, R448, R450). -/
def ringTrack (p : M Unit) : M Unit := do
  let up0 ← rd (·.ringUp 0)
  let up1 ← rd (·.ringUp 1)
  let ok ← rd (·.mirrorOk)
  let via ← rd (·.mirrorLink)
  p
  let now0 ← rd (·.ringUp 0)
  let now1 ← rd (·.ringUp 1)
  let ok' ← rd (·.mirrorOk)
  each [(0, up0, now0), (1, up1, now1)] fun (l, was, is) => do
    onlyIf (was != is) (sticky (Reg.RB_EVENT l) Fld.RB_EVENT_LINK_CHANGE (linkEvent l))
    onlyIf (ok && !ok' && via = some l) (sticky (Reg.RB_EVENT l) Fld.RB_EVENT_MIRROR_LOST (linkEvent l))
    onlyIf (was && !is) (linkOut l)

/-- Link numbering begins afresh, and no HOLD of the peer stands: the link is brought up, goes down, or enters Detention. -/
def linkFresh (l : Nat) : M Unit := do
  setFld Reg.RB_STATUS ⟨4 + l, 4 + l⟩ 0
  modRingLinks l fun k => { k with tx := 0, e := 0, hbDue := false, ackDue := false, nakDue := false, retries := 0
                                   midMirror := false, partialRec := [] }

/-- A link enters Detention: it leaves service, and is current again only on a heartbeat behind UNFENCE (R448, R454). -/
def linkDetained (l : Nat) : M Unit :=
  ringTrack do
    modRingLinks l fun k => { k with current := false }
    linkFresh l

/-! Receiving (R441, R446, R447). -/

/-- A LACK covers the held frames before it; an advance restarts the count of timeouts; a NAK asks for the rest (R442). -/
def linkAcked (l : Nat) (f : RingFrame) : M Unit := do
  let k ← rd (·.ringLinksAt l)
  let rest := k.held.filter fun h => !(serAfter 32 f.lack h.lseq)
  modRingLinks l fun k => { k with held := rest, retries := if rest.length < k.held.length then 0 else k.retries
                                   retx := if f.nak then rest else k.retx.filter fun h => !(serAfter 32 f.lack h.lseq) }

/-- Hand a frame's records to the units they are for; the pieces of a MIRROR record are put together (R440). -/
def takeRecs (l : Nat) (f : RingFrame) : M Unit :=
  each f.recs fun r => modRingLinks l fun k =>
    let body := if r.ty = recMirror then k.partialRec ++ r.body else r.body
    if r.ty = recMirror ∧ r.more then { k with partialRec := body }
    else { k with partialRec := if r.ty = recMirror then [] else k.partialRec
                  rx := k.rx ++ [⟨f.src, f.bcast, r.ty, false, body⟩] }

/-- Whether a broadcast is another member's, and not old (R447). -/
def State.freshBroadcast (s : State) (f : RingFrame) : Bool :=
  f.src != s.deviceId && match s.ring.lastB.find? fun e => e.1 = f.src with
    | none => true
    | some e => serAfter 32 f.bseq e.2

/-- A broadcast from another member, unless it is old (R447). -/
def takeBroadcast (l : Nat) (f : RingFrame) : M Unit := do
  let fresh ← rd (·.freshBroadcast f)
  onlyIf fresh do
    modRing fun g => { g with lastB := (g.lastB.filter fun e => e.1 != f.src) ++ [(f.src, f.bseq)] }
    takeRecs l f
    passOn l f

/-- A sequenced frame that is the next one (R446). -/
def takeFrameOf (l : Nat) (f : RingFrame) : M Unit := do
  let own ← rd (·.deviceId)
  if f.bcast then takeBroadcast l f
  else if f.dst = own then takeRecs l f
  else passOn l f

/-- A good ring frame (R441, R443). -/
def ringGood (l : Nat) (f : RingFrame) : M Unit := do
  setFld Reg.RB_STATUS ⟨4 + l, 4 + l⟩ (bit f.hold)
  linkAcked l f
  let k ← rd (·.ringLinksAt l)
  if f.unseq then takeRecs l { f with recs := f.recs.filter fun r => r.ty = recHeartbeat }
  else if f.lseq = k.e then do
    modRingLinks l fun k => { k with e := ringAdd k.e 1, ackDue := true }
    takeFrameOf l f
  else modRingLinks l fun k => if serAfter 32 f.lseq k.e then { k with nakDue := true } else { k with ackDue := true }

/-- RING_FRAME_RECEIVE: a whole frame with its FCS; `pcsErr`: the PCS or FEC reports an uncorrectable error (R438, R441, R445). -/
def execRingFrameReceive (l : Nat) (bytes : List Byte) (pcsErr : Bool) (s : State) : Host.Outcome State Fault Refusal :=
  commit (do
    let runs ← rd (·.ringRuns l)
    let n := bytes.length
    let b := bytes.take (n - 4)
    let (f, skipped) := RingFrame.ofBytes b
    let ety ← rd (·.inForce Reg.RB_CFG Fld.RB_CFG_ETHERTYPE)
    let own ← rd (·.deviceId)
    let e ← rd fun s => (s.ringLinksAt l).e
    let fresh ← rd (·.freshBroadcast f)
    let shape := decide (64 ≤ n ∧ n ≤ 2048) && beAt b 12 2 = ety && beAt b 14 1 / 16 = 1
    onlyIf (runs && decide (l < 2)) <|
      if pcsErr || fcsOf b != bytes.drop (n - 4) then do
        count Reg.RB_CNT_RX_BAD
        onlyIf (shape && !f.unseq && (if f.bcast then fresh else f.dst != own) && f.lseq = e) (passOn l { f with bad := true })
      else if beAt b 12 2 = 0x8808 then pure ()
      else if !shape then count Reg.RB_CNT_RX_BAD
      else do
        count Reg.RB_CNT_RX_FRAMES
        countBy Reg.RB_CNT_RX_BAD skipped
        ringGood l f) s

/-- Units of the mirror log. -/
def State.mlogUnits (s : State) : Nat := s.fld Reg.RB_MLOG_SIZE Fld.RB_MLOG_SIZE_UNITS

/-- Where an entry of `n` units goes in the mirror log; one unit stays free, so that HEAD equal to TAIL is an empty log. -/
def State.mlogPlace (s : State) (n : Nat) : Option Nat :=
  let size := s.mlogUnits
  let head := s.fld Reg.RB_MLOG_HEAD Fld.RB_MLOG_HEAD_HEAD
  let tail := s.fld Reg.RB_MLOG_TAIL Fld.RB_MLOG_TAIL_TAIL
  let at_ := if tail + n ≤ size then tail else 0
  let used := if size = 0 then 0 else (tail + size - head % size) % size
  if n < size ∧ used + (if at_ = tail then 0 else size - tail) + n < size then some at_ else none

/-- The mirror log entry of a record: its header, its source and its body (R452). -/
def RingIn.logEntry (r : RingIn) : List Byte :=
  leBytes 1 recMirror ++ zeros 1 ++ leBytes 2 r.body.length ++ leBytes 4 r.src ++ r.body

/-- The units that the log entry of a record takes. -/
def RingIn.logUnits (r : RingIn) : Nat := ceilDiv r.logEntry.length 64

/-! Sending (R440, R443, R444). -/

/-- Whether what a link has brought and a link has yet to forward is as much as it holds: back-pressure reaches the link it came
by (R443). -/
def State.forwardFull (s : State) (l : Nat) : Bool :=
  [s.ringLinksAt l, s.ringLinksAt (otherLink l)].any fun k => !k.fwd.isEmpty && decide (Config.forwardRoom ≤ k.fwd.length)

/-- Whether the receiver of a link cannot take the records addressed to it: a token's bank has no room, the mirror log is full and
nothing is dropped, the remote-access unit is full, or what it forwards is held (R443, R452). -/
def State.linkHolds (s : State) (l : Nat) : Bool :=
  let rx := (s.ringLinksAt l).rx
  s.forwardFull l || match rx.find? fun r => r.ty != recHeartbeat with
  | none => false
  | some r =>
    if r.ty = recRaccReq ∨ r.ty = recRaccRsp then
      decide (Config.raccRoom < rx.countP fun x => x.ty == recRaccReq || x.ty == recRaccRsp)
    else if r.ty = recToken then
      let tag := leAt r.body 8 6
      !s.bankRoom (s.bankOfTag tag) (s.ctx (tagCtx tag)).pinned 1
    else r.ty == recMirror && (s.mlogPlace r.logUnits).isNone && s.inForce Reg.RB_CFG Fld.RB_CFG_MLOG_DROP == 0

/-- A heartbeat of a link, with LEAVING or without (R454). -/
def State.heartbeatWith (s : State) (l : Nat) (leaving : Bool) : RingFrame :=
  let flags := bit leaving + 2 * bit (s.ringUp (otherLink l)) + 4 * s.fld Reg.RB_STATUS Fld.RB_STATUS_JOINED
  { s.ownFrame ((s.ringLinksAt l).peer.getD 0) false
      [⟨recHeartbeat, false, leBytes 2 s.deviceId ++ leBytes 1 flags ++ zeros 5 ++ leBytes 8 s.timeNs⟩] with unseq := true }

/-- The heartbeat a link sends (R454): with LEAVING from SAFE on until the device is in service again (R511, R512). -/
def State.heartbeat (s : State) (l : Nat) : RingFrame := s.heartbeatWith l s.ring.leavingUs

/-- A frame leaves on a link with the link's current LACK, NAK and HOLD; a bad one with an inverted FCS (R441, R443, R445). -/
def ringEmit (l : Nat) (f : RingFrame) : M Unit := do
  let k ← rd (·.ringLinksAt l)
  let hold ← rd (·.linkHolds l)
  let b ← rd (·.ringBytes { f with lack := k.e, nak := k.nakDue, hold := hold })
  send (.ring l (b ++ (if f.bad then (fcsOf b).map fun x => ~~~x else fcsOf b)))
  count Reg.RB_CNT_TX_FRAMES
  onlyIf k.nakDue (count Reg.RB_CNT_NAK_SENT)
  modRingLinks l fun k => { k with nakDue := false, ackDue := false }

/-- Send a new sequenced frame and hold it until it is acknowledged (R442). -/
def sendNew (l : Nat) (f : RingFrame) : M Unit := do
  let k ← rd (·.ringLinksAt l)
  let g := { f with lseq := k.tx }
  ringEmit l g
  onlyIf (!f.bad) (modRingLinks l fun k => { k with tx := ringAdd k.tx 1, held := k.held ++ [g] })

/-- The token a link sends next: an urgent one, or any (R444). -/
def State.linkToken (s : State) (l : Nat) (urgent : Bool) : Option ((Nat × Token) × Bool) :=
  (s.ring.remoteOut.find? fun e => (s.ringRoute e.1).any (fun w => w.1 = l) && (!urgent || e.2.urgent)).map fun e =>
    (e, (s.ringRoute e.1).any (·.2))

/-- Send a remote token (R449). -/
def sendToken (l : Nat) (e : Nat × Token) (turned : Bool) : M Unit := do
  modRing fun r => { r with remoteOut := r.remoteOut.erase e }
  let f ← rd (·.ownFrame e.1 turned [⟨recToken, false, Token.bytes { e.2 with cgen := 0, clgen := 0 }⟩])
  sendNew l f

/-- Whether a link has sent a part of a MIRROR record, so that nothing but its rest may follow (R440). -/
def RingLink.midRecord (k : RingLink) : Bool := k.midMirror && !k.mirror.isEmpty

/-- Send the next sequenced frame that a link originates: the rest of a mirror record begun, an urgent token, a mirror record, any
other (R440, R444). -/
def sendNext (l : Nat) : M Unit := do
  let k ← rd (·.ringLinksAt l)
  let urgent ← rd (·.linkToken l true)
  let any ← rd (·.linkToken l false)
  let mirror (f : RingFrame) : M Unit := do
    modRingLinks l fun k => { k with mirror := k.mirror.drop 1, midMirror := f.recs.any (·.more) }
    sendNew l f
  match (if k.midMirror then k.mirror.head? else none), urgent, k.mirror, k.other, any with
  | some f, _, _, _, _ => mirror f
  | none, some (e, turned), _, _, _ => sendToken l e turned
  | none, none, f :: _, _, _ => mirror f
  | none, none, [], f :: _, _ => do
    modRingLinks l fun k => { k with other := k.other.drop 1 }
    sendNew l f
  | none, none, [], [], some (e, turned) => sendToken l e turned
  | none, none, [], [], none => pure ()

/-- Pass on the next forwarded frame of a link. -/
def forwardNext (l : Nat) : M Unit := do
  let k ← rd (·.ringLinksAt l)
  each k.fwd.head?.toList fun f => do
    modRingLinks l fun k => { k with fwd := k.fwd.drop 1 }
    sendNew l f

/-- Send the oldest frame of a link's retransmission again (R442). -/
def resendNext (l : Nat) : M Unit := do
  let k ← rd (·.ringLinksAt l)
  each k.retx.head?.toList (ringEmit l)
  modRingLinks l fun k => { k with retx := k.retx.drop 1 }
  count Reg.RB_CNT_RETRANSMITTED

/-- RING_FRAME_TRANSMIT: a link takes its next frame (R444), of those it originates none once it leaves the ring (R457); in SAFE it sends no other frame than heartbeats (R511).  An acknowledgement or a NAK that is due goes out with a
heartbeat frame, which is the frame that holds no record of its own. -/
def execRingFrameTransmit (l : Nat) (s : State) : Host.Outcome State Fault Refusal :=
  commit (do
    let runs ← rd (·.ringRuns l)
    let up ← rd (·.ringUp l)
    let k ← rd (·.ringLinksAt l)
    let holds ← rd (·.fld Reg.RB_STATUS ⟨4 + l, 4 + l⟩)
    let safe ← rd fun s => s.mode == modeSafe
    let leaving ← rd (·.ring.mute)
    onlyIf (runs && decide (l < 2)) <|
      if k.hbDue || k.ackDue || k.nakDue then do
        let f ← rd (·.heartbeat l)
        modRingLinks l fun k => { k with hbDue := false }
        ringEmit l f
      else if safe then pure ()
      else
        let new := up && holds = 0 && decide (k.held.length < 128)
        if new && !k.fwd.isEmpty && (leaving || !k.midRecord) then forwardNext l
        else if !k.retx.isEmpty then resendNext l
        else onlyIf (new && !leaving) (sendNext l)) s

/-- HEARTBEAT_SEND (R454). -/
def execHeartbeatSend (l : Nat) (s : State) : Host.Outcome State Fault Refusal :=
  commit (do
    let runs ← rd (·.ringRuns l)
    onlyIf runs (modRingLinks l fun k => { k with hbDue := true })) s

/-- RING_RETX_TIMEOUT: no LACK has advanced for RTO_US (R442, R443). -/
def execRingRetxTimeout (l : Nat) (s : State) : Host.Outcome State Fault Refusal :=
  commit (do
    let runs ← rd (·.ringRuns l)
    let k ← rd (·.ringLinksAt l)
    let holds ← rd (·.fld Reg.RB_STATUS ⟨4 + l, 4 + l⟩)
    let max ← rd fun s => max 1 (s.inForce Reg.RB_LINK Fld.RB_LINK_RETRY_MAX)
    onlyIf (runs && !k.held.isEmpty && decide (k.retries < max)) do
      modRingLinks l fun k => { k with retx := k.held, retries := k.retries + bit (holds = 0) }) s

/-- LINK_BROKEN: heartbeats are missed, or the retries are used up (R454). -/
def execLinkBroken (l : Nat) (s : State) : Host.Outcome State Fault Refusal :=
  commit (do
    let runs ← rd fun s => s.ringRuns l && s.tenikUp
    onlyIf (runs && decide (l < 2)) do
      sticky (Reg.RB_EVENT l) Fld.RB_EVENT_BROKEN (linkEvent l)
      report (linkEvent l) clsU 7 (some (linkUnit l)) 0
      ringTrack (modRingLinks l fun k => { k with current := false })) s

/-- RING_LINK_CHANGE: a link goes physically up or down (R446, R448). -/
def execRingLinkChange (l : Nat) (up : Bool) (s : State) : Host.Outcome State Fault Refusal :=
  commit (do
    let old ← rd fun s => (s.ringLinksAt l).up
    onlyIf (decide (l < 2) && old != up) (ringTrack do
      modRingLinks l fun k => { k with up := up }
      linkFresh l)) s

/-! Records (R449, R452, R454, R455). -/

/-- Take the oldest record of a link of the given type: a heartbeat wherever it stands, another where no other is before it. -/
def takeRec (l ty : Nat) (p : RingIn → M Unit) : M Unit := do
  let k ← rd (·.ringLinksAt l)
  let r := if ty = recHeartbeat then k.rx.find? fun r => r.ty = recHeartbeat else k.rx.find? fun r => r.ty != recHeartbeat
  match r with
  | none => pure ()
  | some r => onlyIf (decide (l < 2) && r.ty = ty) (p r)

/-- The record is done with. -/
def dropRec (l : Nat) (r : RingIn) : M Unit := modRingLinks l fun k => { k with rx := k.rx.erase r }

/-- HEARTBEAT_RECEIVE (R454, R455). -/
def execHeartbeatReceive (l : Nat) (s : State) : Host.Outcome State Fault Refusal :=
  commit (takeRec l recHeartbeat fun r => do
    dropRec l r
    let id := leAt r.body 0 2 % 4096
    let own ← rd (·.deviceId)
    onlyIf (id = own) (sticky (Reg.RB_EVENT l) Fld.RB_EVENT_ID_CONFLICT (linkEvent l))
    ringTrack (modRingLinks l fun k =>
      { k with peer := some id, current := true, conflict := id = own, leaving := bitOf (leAt r.body 2 1) 0 })) s

/-- REMOTE_TOKEN_RECEIVE (R449). -/
def execRemoteTokenReceive (l : Nat) (s : State) : Host.Outcome State Fault Refusal :=
  commit (takeRec l recToken fun r => do
    let tag := leAt r.body 8 6
    let ctl := leAt r.body 14 1
    let c := tagClass tag
    let t ← rd fun s =>
      let x := s.ctx (tagCtx tag)
      Token.mk (Word.ofNat (leAt r.body 0 8)) tag (ctl % 4) (bitOf ctl 2) x.pinned x.cgen (s.clgen c) true
    let ok ← rd fun s => s.fld (Reg.CL_BIND c) Fld.CL_BIND_STATE = 2 && s.tokenAccepted t
    let room ← rd (·.roomFor [t])
    if !ok then do
      dropRec l r
      count Reg.RB_CNT_TOKENS_RX
      count Reg.RC_CNT_EMIT_DEAD
      count Reg.RC_CNT_LATE_TOKEN
    else onlyIf room do
      dropRec l r
      count Reg.RB_CNT_TOKENS_RX
      pushToken t) s

/-- TERM_RECORD_RECEIVE (R455). -/
def execTermRecordReceive (l : Nat) (s : State) : Host.Outcome State Fault Refusal :=
  commit (takeRec l recTerm fun r => do
    dropRec l r
    setFld Reg.RB_TERM_LAST Fld.RB_TERM_LAST_SOURCE r.src
    setFld Reg.RB_TERM_LAST Fld.RB_TERM_LAST_SLOT (leAt r.body 0 1 % 4)
    setFld Reg.RB_TERM_LAST Fld.RB_TERM_LAST_EPOCH (leAt r.body 2 2)
    sticky (Reg.RB_EVENT l) Fld.RB_EVENT_TERM_SEEN (linkEvent l)) s

/-! Mirroring (R450 to R453). -/

/-- The bytes of a staged table write (R171), byte 3 as a mirror record has it (R451). -/
def TableWrite.mirrorBytes (w : TableWrite) : List Byte :=
  let esize := match w.data.length with
    | 16 => 0 | 32 => 1 | 64 => 2 | 128 => 3 | _ => 0xFF
  leBytes 1 w.table ++ leBytes 1 w.op ++ leBytes 1 w.word ++ leBytes 1 esize ++ zeros 4 ++ leBytes 16 w.key ++
    leBytes 8 w.addend.toNat ++ w.data

/-- The bytes of an egress descriptor (R172). -/
def Egress.bytes (e : Egress) : List Byte :=
  leBytes 4 e.buffer ++ leBytes 2 e.off ++ zeros 2 ++ leBytes 4 e.len ++ leBytes 4 e.stream ++ leBytes 1 e.port ++
    leBytes 1 e.flags ++ leBytes 2 e.tsOff ++ leBytes 2 e.tsTag ++ zeros 10

/-- Records waiting in a link's mirror queue. -/
def RingLink.mirrored (k : RingLink) : Nat := k.mirror.countP fun f => !(f.recs.any (·.more))

/-- Whether step 4 of R175 can go on: mirroring is off, no link leads to the standby, the record is discarded since the device
leaves the ring, or the link's queue has room (R450, R457). -/
def State.mirrorRoom (s : State) : Bool :=
  s.inForce Reg.RB_CFG Fld.RB_CFG_MIRROR_EN = 0 || s.ring.mute || s.mirrorLink.all fun l => decide ((s.ringLinksAt l).mirrored < 1024)

/-- A record body cut into pieces that fit a frame each (R440). -/
def mirrorPieces : Nat → List Byte → List RingRec
  | 0, _ => []
  | fuel + 1, b =>
    if b.length ≤ 2002 then [⟨recMirror, false, b⟩] else ⟨recMirror, true, b.take 2002⟩ :: mirrorPieces fuel (b.drop 2002)

/-- Step 4 of R175: hand the mirror record of a sealed journal to the link to the standby (R450). -/
def mirrorJournal (x order time classroom clgen : Nat) (j : Journal) : M Unit := do
  let en ← rd (·.inForce Reg.RB_CFG Fld.RB_CFG_MIRROR_EN)
  onlyIf (en = 1 && !(j.writes.isEmpty && j.outs.isEmpty)) do
    let n ← rd (·.ring.mseq)
    let leaving ← rd (·.ring.mute)
    let l ← rd (·.mirrorLink)
    match (if leaving then none else l) with
    | none => do
      count Reg.RB_CNT_MIRROR_SKIPPED
      modRing fun r => { r with mseq := (n + 1) % 2 ^ 64 }
    | some l => do
      let body := leBytes 8 n ++ leBytes 8 order ++ leBytes 8 time ++ leBytes 4 x ++ leBytes 1 classroom ++ leBytes 1 clgen ++
        leBytes 1 j.writes.length ++ leBytes 1 j.outs.length ++ j.writes.flatMap TableWrite.mirrorBytes ++
        j.outs.flatMap Egress.bytes
      let peer ← rd (·.inForce Reg.RB_CFG Fld.RB_CFG_STANDBY)
      let f ← rd (·.ownFrame peer false [])
      modRing fun r => { r with mseq := (n + 1) % 2 ^ 64 }
      modRingLinks l fun k => { k with mirror := k.mirror ++ (mirrorPieces 8 body).map fun p => { f with recs := [p] } }
      count Reg.RB_CNT_MIRRORED

/-- MIRROR_RECORD_RECEIVE: a complete mirror record is written into the log, dropped, or waits (R452, R453). -/
def execMirrorRecordReceive (l : Nat) (s : State) : Host.Outcome State Fault Refusal :=
  commit (takeRec l recMirror fun r => do
    let n := r.logUnits
    let place ← rd (·.mlogPlace n)
    let cfg ← rd (·.inForce Reg.RB_CFG Fld.RB_CFG_MLOG_DROP)
    match place with
    | none => do
      sticky (Reg.RB_EVENT l) Fld.RB_EVENT_MLOG_FULL (linkEvent l)
      onlyIf (cfg = 1) do
        dropRec l r
        count Reg.RB_CNT_MLOG_DROP
    | some at_ => do
      dropRec l r
      let base ← rd fun s => s.fld Reg.RB_MLOG_BASE Fld.RB_MLOG_BASE_BASE * 64
      let empty ← rd fun s => s.fld Reg.RB_MLOG_HEAD Fld.RB_MLOG_HEAD_HEAD == s.fld Reg.RB_MLOG_TAIL Fld.RB_MLOG_TAIL_TAIL
      let cons ← rd (·.inForce Reg.RB_CFG Fld.RB_CFG_MLOG_CONS)
      let size ← rd (·.mlogUnits)
      store (149 + l) (base + at_ * 64) (padTo (n * 64) r.logEntry)
      setFld Reg.RB_MLOG_TAIL Fld.RB_MLOG_TAIL_TAIL ((at_ + n) % size)
      modRing fun g => { g with mlog := g.mlog ++ [(at_, n)] }
      onlyIf (empty && cons = 0) (sticky (Reg.RB_EVENT l) Fld.RB_EVENT_MLOG_DATA (linkEvent l))) s

/-- Whoever consumes the mirror log has advanced HEAD: entries before it are gone. -/
def mlogAdvanced : M Unit := do
  let head ← rd (·.fld Reg.RB_MLOG_HEAD Fld.RB_MLOG_HEAD_HEAD)
  let tail ← rd (·.fld Reg.RB_MLOG_TAIL Fld.RB_MLOG_TAIL_TAIL)
  modRing fun g => { g with mlog := if head = tail then [] else g.mlog.dropWhile fun e => e.1 != head }

/-- The table writes of a mirror log entry's body. -/
def mirrorWrites : Nat → List Byte → List TableWrite
  | 0, _ => []
  | n + 1, b =>
    let e := leAt b 3 1
    let len := if e ≤ 3 then 16 * 2 ^ e else 0
    TableWrite.ofBytes (b.take (32 + len)) :: mirrorWrites n (b.drop (32 + len))

/-- MIRROR_LOG_APPLY: Tenik applies the oldest entry of the mirror log (R453). -/
def execMirrorLogApply (s : State) : Host.Outcome State Fault Refusal :=
  commit (do
    let on ← rd fun s => s.tenikUp && decide (modeStage ≤ s.mode) && s.inForce Reg.RB_CFG Fld.RB_CFG_MLOG_CONS = 1
    let g ← rd (·.ring)
    match g.mlog with
    | [] => pure ()
    | (u, n) :: _ => do
      let base ← rd fun s => s.fld Reg.RB_MLOG_BASE Fld.RB_MLOG_BASE_BASE * 64
      let size ← rd (·.mlogUnits)
      let e ← rd (·.bytes (base + u * 64) (n * 64))
      let ws := mirrorWrites (leAt e 38 1) (e.drop 40)
      let free ← rd (·.writesFree ws)
      onlyIf (on && free) (quiet do
        each ws (applyWrite (leAt e 36 1 % 64))
        setFld Reg.RB_MLOG_HEAD Fld.RB_MLOG_HEAD_HEAD (if size = 0 then 0 else (u + n) % size)
        modRing fun g => { g with mlog := g.mlog.drop 1 })) s

end Sys2Proof.Machine
end

