-- ==== Sys2Proof/Machine/Commit.lean ====
section
/-! DEFINITION. Commit groups (R460 to R463): where a group's GO and DONE stand, what GO captures, when the safe point
is reached and what it does. -/

namespace Sys2Proof.Machine

/-- The register that commits a group, and its GO and DONE bits (R460). -/
def Grp.place : Grp → Option (Nat × Nat × Nat)
  | .none => Option.none
  | .ethN n => some (Reg.ETH_COMMIT n, 0, 32)
  | .ethGrp g => some (Reg.ETH_COMMIT (4 * g), 1, 33)
  | .fst => some (Reg.FST_COMMIT, 0, 32)
  | .pg => some (Reg.PG_COMMIT, 0, 32)
  | .rc => some (Reg.RC_COMMIT, 0, 32)
  | .sq => some (Reg.SQ_COMMIT, 0, 32)
  | .cw => some (Reg.CW_COMMIT, 0, 32)
  | .tt c => some (coreReg Reg.CORE_COMMIT c, 0, 32)
  | .thr c => some (coreReg Reg.CORE_COMMIT c, 1, 33)
  | .st s => some (Reg.ST_COMMIT s, 0, 32)
  | .te n => some (Reg.TE_COMMIT n, 0, 32)
  | .dir => some (Reg.DIR_COMMIT, 0, 32)
  | .ddr n => some (Reg.DDR_COMMIT n, 0, 32)
  | .bp => some (Reg.BP_COMMIT, 0, 32)
  | .ch => some (Reg.CH_COMMIT, 0, 32)
  | .hp => some (Reg.HP_COMMIT, 0, 32)
  | .hiq q => some (Reg.Q_CTL q, 1, 32)
  | .clq c => some (Reg.CQ_CTL c, 1, 32)
  | .cl => some (Reg.CL_COMMIT, 0, 32)
  | .rb => some (Reg.RB_COMMIT, 0, 32)
  | .gb => some (Reg.GB_COMMIT, 0, 32)
  | .fc => some (Reg.FC_COMMIT, 0, 32)

/-- Every commit group of the device. -/
def allGrps : List Grp :=
  [.fst, .pg, .rc, .sq, .cw, .dir, .bp, .ch, .hp, .cl, .rb, .gb, .fc, .ethGrp 0, .ethGrp 1] ++
  (List.range 8).map .ethN ++ (List.range 96).map .tt ++ (List.range 96).map .thr ++ (List.range 12).map .st ++
  (List.range 16).map .te ++ (List.range 8).map .ddr ++ (List.range 16).map .hiq ++ (List.range 64).map .clq

/-- Whether a group exists. -/
def Grp.exists (g : Grp) : Bool := allGrps.contains g

/-- The groups a value written to a commit register commits. -/
def grpsOf (off : Nat) (v : Word) : List Grp :=
  allGrps.filter fun g => g.place.any fun p => p.1 == off && bitOf v.toNat p.2.1

/-- Whether an offset is that of a commit register. -/
def isCommitReg (off : Nat) : Bool := allGrps.any fun g => g.place.any fun p => p.1 == off

/-- Whether a group's DONE is 1. -/
def State.grpDone (s : State) (g : Grp) : Bool := g.place.all fun p => bitOf (s.reg p.1).toNat p.2.2

/-- Set a group's DONE. -/
def setDone (g : Grp) (b : Bool) : M Unit :=
  match g.place with
  | none => pure ()
  | some (off, _, d) => modRegs off fun w => Word.ofNat (setBit w.toNat d b)

/-- The bits of a word that RW-S fields cover. -/
def shadowed (off : Nat) : Word :=
  match regRow? off with
  | some (r, _) => r.maskOf (· == .rws)
  | none => 0

/-- The fields of CH_n that show the channel (R373 to R376). -/
def State.chWord (s : State) (n : Nat) (w : Word) : Word :=
  let c := s.chansAt n
  let w := Fld.CH_PACKETS.set (Fld.CH_FULL.set (Fld.CH_WORDS.set w c.marks.length) (bit (s.chFull n))) c.packets
  Fld.CH_WRITER.set (Fld.CH_OPEN.set w (bit c.writer.isSome)) (c.writer.getD 0)

/-- The field of ETH_GRP_g that shows the mode in force (R35). -/
def ethGrpWord (w : Word) (mode : Nat) : Word := Fld.ETH_GRP_MODE_ACT.set w mode

/-- A word in force with the read-only fields that show something of the state: CH_n and ETH_GRP_g have such fields beside
written ones (R475). -/
def State.roFields (s : State) (off : Nat) (w : Word) : Word :=
  match regRow? off with
  | none => w
  | some (r, is) =>
    if r.base = Reg.CH 0 then s.chWord (is.headD 0) w
    else if r.base = Reg.ETH_GRP 0 then ethGrpWord w (Fld.ETH_GRP_MODE.get w)
    else w

/-- A word as it is in force (R475). -/
def State.wordInForce (s : State) (off : Nat) : Word :=
  let m := shadowed off
  s.roFields off ((s.reg off &&& ~~~m) ||| (s.actAt off &&& m))

/-- The pending copy of a word becomes the copy in force (R460); a word that changes makes a record (R471). -/
def bringIntoForce (o : Origin) (off : Nat) : M Unit := do
  let m := shadowed off
  let old ← rd (·.wordInForce off)
  let p ← rd (·.pendcAt off)
  let new ← rd (·.roFields off ((old &&& ~~~m) ||| (p &&& m)))
  onlyIf (new != old) do
    gbRecord o 1 3 off old.toNat new.toNat
    modAct off fun w => (w &&& ~~~m) ||| (p &&& m)

/-- The classroom a CORE_THR_t word binds, if it binds one (R204). -/
def bindingOf (w : Word) : Option Nat :=
  if Fld.CORE_THR_BOUND.isSet w then some (Fld.CORE_THR_CLASSROOM.get w) else none

/-- The pending copies of a group become the copies in force; a changed binding breaks a thread stalemate (R213). -/
def takeEffect (g : Grp) : M Unit := do
  let o ← rd fun s => s.goByAt (g.place.elim 0 fun p => p.1 + p.2.1)
  let body := each (grpOffsets g) (bringIntoForce o)
  match g with
  | .rb => ringTrack body
  | .gb => gbTrack body
  | .thr k => do
    let moved ← rd fun s => (List.range 8).any fun t =>
      bindingOf (s.actAt (thrReg (8 * k + t))) != bindingOf (s.pendcAt (thrReg (8 * k + t)))
    body
    onlyIf moved (breakStall (8 * k))
  | .rc => do
    body
    reserveFlags
  | .tt _ | .hp => do
    body
    lockBoostAll
  | .ddr n => do
    body
    let off ← rd fun s => s.inForce (Reg.DDR_THERM n) Fld.DDR_THERM_SENSOR_EN == 0
    onlyIf off (setRef2x n true)
  | _ => body

/-- Whether a port group is in Detention (R37). -/
def State.groupFenced (s : State) (g : Nat) : Bool := s.fenced ⟨.portGroup, g⟩

/-- The classroom that a CORE_DESK word grants page `p` to. -/
def pageOwner (w : Word) (p : Nat) : Option Nat :=
  if bitOf w.toNat (8 * p + 6) then some (bitsOf w.toNat (8 * p + 5) (8 * p)) else none

/-- Whether the pending copy of group THR_c changes what thread `t` of core `k` depends on: its binding, or a desk page of
its classroom (R204). -/
def State.thrConcerned (s : State) (k t : Nat) : Bool :=
  let off := thrReg (8 * k + t)
  let d := coreReg Reg.CORE_DESK k
  let now := bindingOf (s.actAt off)
  now != bindingOf (s.pendcAt off) || (now.isSome && (List.range 7).any fun p =>
    let a := pageOwner (s.actAt d) p
    let b := pageOwner (s.pendcAt d) p
    a != b && (a == now || b == now))

/-- Whether a thread is IDLE, STOPPED, HALTED or RESET and holds no activation (R204). -/
def Thread.atRest (th : Thread) : Bool :=
  (th.state = .idle || th.state = .stopped || th.state = .halted || th.state = .reset) && th.act.isNone

/-- Whether a group stands at its safe point (table "Commit groups and their safe points").  A safe point that is a gap
between operations is reached between any two steps. -/
def State.safePoint (s : State) (g : Grp) : Bool :=
  match g with
  | .ethGrp g => s.groupFenced g
  | .thr k => (List.range 8).all fun t => !s.thrConcerned k t || (s.thread (8 * k + t)).atRest
  | .hiq q => s.fld (Reg.Q_STATUS q) Fld.Q_STATUS_EN_ACT = 0
  | .clq c => s.fld (Reg.CQ_STATUS c) Fld.Q_STATUS_EN_ACT = 0
  | .rb => !s.ringUp 0 && !s.ringUp 1
  | _ => true

/-- GO of a group (R460, R461). -/
def goGrp (o : Origin) (g : Grp) : M Unit := do
  each (grpOffsets g) fun off => do
    let w ← rd (·.reg off)
    emit (.pendc off w)
  match g.place with
  | none => pure ()
  | some (off, go, _) => emit (.goBy (off + go) o)
  setDone g false

/-- Whether an operation that waits for commits has seen them all done (R413). -/
def State.commitsSeen (s : State) (k : BgKind) : Bool :=
  match k with
  | .commit ds => ds.all fun d => bitOf (s.reg d.1).toNat d.2
  | .portGroup g => s.grpDone (.ethGrp g)
  | _ => false

/-- The later DONE of the operations that wait for commits (R413, R37). -/
def bgCommits : M Unit := do
  let up ← rd (·.tenikUp)
  let l ← rd fun s => s.bg.filter fun b => s.commitsSeen b.kind
  onlyIf up (each l fun b => bgEnd b stDone 0)

/-- The safe point of a group with a commit pending (R460). -/
def reachSafe (g : Grp) : M Unit := do
  let done ← rd (·.grpDone g)
  onlyIf (!done) do
    takeEffect g
    setDone g true
    bgCommits

/-- Commit a group, if its safe point is reached at once (CLASS_CREATE and the like). -/
def commitGrp (o : Origin) (g : Grp) : M Unit := do
  goGrp o g
  let ok ← rd (·.safePoint g)
  onlyIf ok (reachSafe g)

/-- COMMIT_SAFE_POINT: a group with a commit pending reaches its safe point (R460). -/
def execCommitSafePoint (g : Grp) (s : State) : Host.Outcome State Fault Refusal :=
  commit (do
    let ok ← rd (·.safePoint g)
    onlyIf (ok && g.exists) (reachSafe g)) s

end Sys2Proof.Machine
end

