-- ==== Sys2Proof/Machine/Ports.lean ====
section
/-! DEFINITION. Client ports (R34 to R55): receiving and recognising frames, flow control from link partners, the three
egress queues, timestamps, and how a frame is built. -/

namespace Sys2Proof.Machine

/-! Ports and groups. -/

/-- The port group of a port, as a unit. -/
abbrev groupOf (p : Nat) : UnitId := ⟨.portGroup, p / 4⟩

/-- The event source of a port's group. -/
abbrev groupEvent (p : Nat) : Nat := 147 + p / 4

/-- The mode of a port's group that is in force (R34). -/
def State.grpMode (s : State) (p : Nat) : Nat := s.inForce (Reg.ETH_GRP (p / 4)) Fld.ETH_GRP_MODE

/-- Whether a port exists in its group's mode (R34, R35). -/
def State.portExists (s : State) (p : Nat) : Bool :=
  decide (p < 8) && match s.grpMode p with
    | 0 => false
    | 1 => p % 4 == 0
    | _ => true

/-- Whether a port does not exist because its group runs as one 100G port (R35): its registers are unpopulated, and a
command that names it is refused. -/
def State.portAbsent (s : State) (p : Nat) : Bool := decide (8 ≤ p) || (s.grpMode p = 1 && p % 4 != 0)

/-- Whether a port's group is cabled as SFI, which 4 x 10G alone knows (R34, ETH_GRP.MEDIA); MEDIA 2 in another mode is taken as
no SFI (DESIGN CHOICE). -/
def State.portSfi (s : State) (p : Nat) : Bool :=
  s.grpMode p == 3 && s.inForce (Reg.ETH_GRP (p / 4)) Fld.ETH_GRP_MEDIA == 2

/-- Whether a port's lanes work under an error-correcting code, and under RS-FEC (R34, R36); SFI has none. The codes of
ETH_GRP.FEC that the register leaves unused (3 in 4 x 25G, 2 and 3 in 4 x 10G) act as no FEC: DESIGN CHOICE. -/
def State.portFec (s : State) (p : Nat) : Bool :=
  let f := s.inForce (Reg.ETH_GRP (p / 4)) Fld.ETH_GRP_FEC
  match s.grpMode p with
  | 1 => true
  | 2 => f ≤ 1
  | _ => f == 1 && !s.portSfi p

def State.portRsFec (s : State) (p : Nat) : Bool :=
  match s.grpMode p with
  | 1 => true
  | 2 => s.inForce (Reg.ETH_GRP (p / 4)) Fld.ETH_GRP_FEC == 0
  | _ => false

/-- Whether a port is set up and not in Detention, in a mode in which the ports run (table "What runs in each mode"). -/
def State.portOn (s : State) (p : Nat) : Bool :=
  !s.boot.perst && decide (modeStage ≤ s.mode) && s.portExists p &&
    s.inForce (Reg.ETH_CFG p) Fld.ETH_CFG_PORT_EN = 1 && !s.fenced (groupOf p)

/-- Whether a port carries frames (R49, R73). -/
def State.portUp (s : State) (p : Nat) : Bool := s.portOn p && s.fld (Reg.ETH_STATUS p) Fld.ETH_STATUS_LINK_UP = 1

/-! Internet checksums. -/

/-- The sum of some bytes as big-endian 16-bit words, the last padded with zero. -/
def sum16 : List Byte → Nat
  | a :: b :: r => a.toNat * 256 + b.toNat + sum16 r
  | [a] => a.toNat * 256
  | [] => 0

/-- A one's-complement sum folded to 16 bits. -/
def fold16 (n : Nat) : Nat := if n = 0 then 0 else (n - 1) % 65535 + 1

/-- The checksum of some bytes. -/
def inetSum (bs : List Byte) : Nat := 65535 - fold16 (sum16 bs)

/-- The checksum of a UDP datagram with its pseudo-header's bytes in front; a computed 0 is sent as all ones. -/
def udpSum (bs : List Byte) : Nat := if inetSum bs = 0 then 65535 else inetSum bs

/-! What a frame is (R40, R41). -/

/-- The tags of a frame: how many, up to two (R40). -/
def State.tagsOf (s : State) (p : Nat) (f : List Byte) : Nat :=
  let outer := beAt f 12 2
  if outer = 0x8100 ∨ outer = s.inForce (Reg.ETH_CFG p) Fld.ETH_CFG_OUTER_TPID then (if beAt f 16 2 = 0x8100 then 2 else 1)
  else 0

/-- Where the UDP header of a frame lies, with the bytes of its pseudo-header except the length, and whether it is IPv6, if
the frame is a UDP datagram that is no fragment and has no extension header; `off` is where the EtherType stands. A
header of EtherType 0x0800 whose version is not 4, or whose IHL is below 5, is no IPv4 header (DESIGN CHOICE: R41 does not
name it), nor is one of EtherType 0x86DD whose version is not 6 an IPv6 header. -/
def udpAt (f : List Byte) (off : Nat) : Option (Nat × List Byte × Bool) :=
  let l3 := off + 2
  let ty := beAt f off 2
  if ty = 0x0800 then
    let ihl := beAt f l3 1 % 16
    if f.length < l3 + 20 ∨ beAt f l3 1 / 16 ≠ 4 ∨ ihl < 5 ∨ beAt f (l3 + 6) 2 % 2 ^ 14 ≠ 0 ∨ beAt f (l3 + 9) 1 ≠ 17 then none
    else some (l3 + 4 * ihl, slice f (l3 + 12) 8 ++ [0, 17], false)
  else if ty = 0x86DD then
    if f.length < l3 + 40 ∨ beAt f l3 1 / 16 ≠ 6 ∨ beAt f (l3 + 6) 1 ≠ 17 then none
    else some (l3 + 40, slice f (l3 + 8) 32 ++ [0, 17], true)
  else none

/-- How FST lies in a frame: where its header begins, and the UDP header with its pseudo-header, if there is one. -/
structure FstAt where
  off : Nat
  udp : Option (Nat × List Byte × Bool)

/-- Whether a frame (without its FCS) is FST (R41, R43). -/
def State.fstAt (s : State) (p : Nat) (f : List Byte) : Option FstAt :=
  let off := 12 + 4 * s.tagsOf p f
  let cfg := s.actAt Reg.FST_CFG
  if beAt f off 2 = Fld.FST_CFG_ETHERTYPE.get cfg ∧ Fld.FST_CFG_RAW_EN.get cfg = 1 ∧ off + 2 ≤ f.length then
    some ⟨off + 2, none⟩
  else match udpAt f off with
    | none => none
    | some (u, ps, v6) =>
      if Fld.FST_CFG_UDP_EN.get cfg = 1 ∧ (v6 → Fld.FST_CFG_IPV6_EN.get cfg = 1) ∧ u + 4 ≤ f.length ∧
          beAt f (u + 2) 2 = Fld.FST_CFG_UDP_PORT.get cfg then some ⟨u + 8, some (u, ps, v6)⟩
      else none

/-- Whether the UDP checksum of a frame is acceptable (R42). -/
def udpGood (f : List Byte) (u : Nat) (ps : List Byte) (v6 : Bool) : Bool :=
  let len := beAt f (u + 4) 2
  if beAt f (u + 6) 2 = 0 then !v6
  else decide (u + len ≤ f.length) && fold16 (sum16 (ps ++ beBytes 2 len ++ slice f u len)) == 65535

/-- What the FST engine needs of a recognised frame (R56). -/
def fstFrameOf (p : Nat) (f : List Byte) (a : FstAt) (ts : Word) : FstFrame :=
  let h := a.off
  { port := p, ver := beAt f h 1 / 16, ty := beAt f h 1 % 16, flags := beAt f (h + 1) 1, segLen := beAt f (h + 2) 2
    stream := beAt f (h + 4) 4, seq := beAt f (h + 8) 6, segIdx := beAt f (h + 14) 1, segCnt := beAt f (h + 15) 1
    lenInfo := beAt f (h + 16) 4, segOff := beAt f (h + 20) 2, crc := beAt f (h + 28) 4, hdr := f.take (h + 32)
    payload := f.drop (h + 32), udp := a.udp.isSome, udpLen := a.udp.elim 0 fun u => beAt f (u.1 + 4) 2, ts := ts }

/-- Where a frame of an open stream goes wrong before its type's own rules: the counter it is counted in (R59, R76, R550). -/
def State.fstReject (s : State) (f : FstFrame) : Option Nat :=
  match s.streamsAt f.stream with
  | none => some Reg.FST_CNT_RX_UNKNOWN
  | some st =>
    if st.port != f.port then some Reg.FST_CNT_RX_UNKNOWN
    else if (if st.tx then f.ty = 1 else f.ty = 2 ∨ f.ty = 3) then some Reg.FST_CNT_RX_HDR_ERR
    else if st.state = .failed then some Reg.FST_CNT_RX_UNKNOWN
    else none

/-! Flow control from link partners (R46 to R50). -/

/-- Whether a pause stops egress queue `q` of a port (R47, R48). -/
def State.qPaused (s : State) (p q : Nat) : Bool :=
  let cfg := s.actAt (Reg.ETH_CFG p)
  if Fld.ETH_CFG_PFC_EN.get cfg = 1 then
    bitsOf (s.actAt (Reg.ETH_PFC p)).toNat (8 * q + 7) (8 * q) &&& (s.portsAt p).pfc != 0
  else Fld.ETH_CFG_PAUSE_EN.get cfg = 1 && (s.portsAt p).paused

/-- Whether an egress queue is stopped (R47 to R49). -/
def State.qStopped (s : State) (p q : Nat) : Bool :=
  s.fld (Reg.ETH_STATUS p) Fld.ETH_STATUS_LINK_UP = 0 || s.qPaused p q

/-- A PAUSE frame takes effect, or is counted as ignored (R47, R48).  A pause that a time of 0 ends, and the time a queue
stands stopped because the link is down, add nothing to PAUSED_NS: DESIGN CHOICE. -/
def pauseFrame (p quanta : Nat) : M Unit := do
  let cfg ← rd (·.actAt (Reg.ETH_CFG p))
  if Fld.ETH_CFG_PFC_EN.get cfg = 0 ∧ Fld.ETH_CFG_PAUSE_EN.get cfg = 1 then
    modPorts p fun q => { q with paused := quanta != 0 }
  else count (Reg.ETH_CNT_RX_PAUSE_IGNORED p)

/-- The priorities paused behind a PFC frame: those it enables are paused for a nonzero time and released by 0. -/
def pfcAfter (enable : Nat) (quanta : List Nat) (old : Nat) : Nat :=
  (List.range 8).foldl (fun a i => if bitOf enable i then setBit a i (quanta.getD i 0 != 0) else a) (old % 256)

/-- A PFC frame takes effect (R48); with PFC_EN clear it is counted as an ignored PAUSE frame is: DESIGN CHOICE (R48 names
PAUSE frames only). -/
def pfcFrame (p enable : Nat) (quanta : List Nat) : M Unit := do
  let cfg ← rd (·.actAt (Reg.ETH_CFG p))
  if Fld.ETH_CFG_PFC_EN.get cfg = 1 then modPorts p fun q => { q with pfc := pfcAfter enable quanta q.pfc }
  else count (Reg.ETH_CNT_RX_PAUSE_IGNORED p)

/-- A MAC control frame is consumed (R39, R47, R48). -/
def macControl (p : Nat) (f : List Byte) : M Unit := do
  count (Reg.ETH_CNT_RX_MAC_CTRL p)
  if beAt f 14 2 = 0x0001 then pauseFrame p (beAt f 16 2)
  else if beAt f 14 2 = 0x0101 then pfcFrame p (beAt f 17 1) ((List.range 8).map fun i => beAt f (18 + 2 * i) 2)
  else pure ()

/-! Receiving (R38 to R44, R52). -/

/-- A signed field of ETH_PTP. -/
def State.ptpAdj (s : State) (p : Nat) (f : Fld) : Word := sextW 16 (s.fld (Reg.ETH_PTP p) f)

/-- The timestamp of a frame received now (R52, R53). -/
def State.rxStamp (s : State) (p : Nat) : Word :=
  if s.inForce (Reg.ETH_CFG p) Fld.ETH_CFG_TS_EN = 1 then Word.ofNat s.timeNs + s.ptpAdj p Fld.ETH_PTP_RX_ADJ else 0

/-- Bytes of the unsequenced frames in a port's receive buffer, which holds 64 KiB (R153). -/
def Port.unseqBytes (q : Port) : Nat := q.unseq.foldl (fun a f => a + f.bytes.length) 0

/-- An accepted frame, its FCS taken off (R39 to R44).  A frame with a header error that also names a stream that is not
open is counted in RX_HDR_ERR, the header being read first: DESIGN CHOICE (R59 gives no order). -/
def acceptFrame (p : Nat) (f : List Byte) : M Unit := do
  let ts ← rd (·.rxStamp p)
  let a ← rd (·.fstAt p f)
  if beAt f 12 2 = 0x8808 then macControl p f
  else match a with
    | none => do
      let q ← rd (·.portsAt p)
      if 65536 < q.unseqBytes + f.length then count Reg.SQ_CNT_UNSEQ_DROP
      else modPorts p fun q => { q with unseq := q.unseq ++ [⟨f, ts, false⟩] }
    | some a => do
      let fr := fstFrameOf p f a ts
      let bad ← rd (·.fstReject fr)
      if f.length < a.off + 32 || !(a.udp.all fun (u, ps, v6) => udpGood f u ps v6) || fr.ver != 1 ||
          !decide (1 ≤ fr.ty ∧ fr.ty ≤ 5) then count Reg.FST_CNT_RX_HDR_ERR
      else match bad with
        | some c => count c
        | none => modPorts p fun q => { q with rx := q.rx ++ [fr] }

/-- An uncorrectable codeword (R38). -/
def uncorrCodeword (p : Nat) : M Unit := do
  count (Reg.ETH_CNT_FEC_UNCORR_CW p)
  sticky (Reg.ETH_STATUS p) Fld.ETH_STATUS_FEC_UNCORR (groupEvent p)

/-- FRAME_RECEIVE: a whole frame, FCS included (R38); `err`: the uncorrectable error that the PCS or the FEC reports within
it.  RX_FRAMES and RX_BYTES count the accepted frames, RX_BYTES with their FCS: DESIGN CHOICE (R38 does not say). -/
def execFrameReceive (p : Nat) (bytes : List Byte) (err : FrameErr) (s : State) : Host.Outcome State Fault Refusal :=
  commit (do
    let up ← rd (·.portUp p)
    let fec ← rd (·.portFec p)
    onlyIf up do
      onlyIf (decide (err = .codeword) && fec) (uncorrCodeword p)
      let n := bytes.length
      let f := bytes.take (n - 4)
      if err = .pcs ∨ err = .codeword ∧ fec then count (Reg.ETH_CNT_RX_PCS_ERR p)
      else if n < 64 then count (Reg.ETH_CNT_RX_RUNT p)
      else if 2048 < n then count (Reg.ETH_CNT_RX_OVERSIZE p)
      else if fcsOf f != bytes.drop (n - 4) then count (Reg.ETH_CNT_RX_FCS_ERR p)
      else do
        count (Reg.ETH_CNT_RX_FRAMES p)
        countBy (Reg.ETH_CNT_RX_BYTES p) n
        acceptFrame p f) s

/-- PAUSE_FRAME_RECEIVE: a good PAUSE frame of 64 bytes (R39, R47). -/
def execPauseFrameReceive (p quanta : Nat) (s : State) : Host.Outcome State Fault Refusal :=
  commit (do
    let up ← rd (·.portUp p)
    onlyIf up do
      count (Reg.ETH_CNT_RX_FRAMES p)
      countBy (Reg.ETH_CNT_RX_BYTES p) 64
      count (Reg.ETH_CNT_RX_MAC_CTRL p)
      pauseFrame p (quanta % 2 ^ 16)) s

/-- PFC_FRAME_RECEIVE: a good PFC frame of 64 bytes (R39, R48). -/
def execPfcFrameReceive (p enable : Nat) (quanta : List Nat) (s : State) : Host.Outcome State Fault Refusal :=
  commit (do
    let up ← rd (·.portUp p)
    onlyIf up do
      count (Reg.ETH_CNT_RX_FRAMES p)
      countBy (Reg.ETH_CNT_RX_BYTES p) 64
      count (Reg.ETH_CNT_RX_MAC_CTRL p)
      pfcFrame p (enable % 256) (quanta.map (· % 2 ^ 16))) s

/-- PAUSE_EXPIRE: the pause of a port, or of one priority, runs out (R47, R48).  How long it lasted is timing: what it adds to
PAUSED_NS is free. -/
def execPauseExpire (p : Nat) (prio : Option Nat) (s : State) : Host.Outcome State Fault Refusal :=
  commit (do
    let q ← rd (·.portsAt p)
    let on := match prio with
      | none => q.paused
      | some i => bitOf q.pfc i && decide (i < 8)
    onlyIf (decide (p < 8) && on) do
      let k ← draw
      countBy (Reg.ETH_CNT_PAUSED_NS p) (Config.random k)
      modPorts p fun q => match prio with
        | none => { q with paused := false }
        | some i => { q with pfc := setBit q.pfc i false }) s

/-- PAUSE_STORM: a queue has stayed stopped by a pause for longer than LIMIT_US (R49, R50). -/
def execPauseStorm (p q : Nat) (s : State) : Host.Outcome State Fault Refusal :=
  commit (do
    let on ← rd fun s => s.portUp p && decide (q < 3) && s.qPaused p q
    onlyIf on (sticky (Reg.ETH_STATUS p) Fld.ETH_STATUS_PAUSE_STORM (groupEvent p))) s

/-- UNCORRECTABLE_CODEWORD: the FEC decoder meets one outside any frame (R38). -/
def execUncorrectableCodeword (p : Nat) (s : State) : Host.Outcome State Fault Refusal :=
  commit (do
    let on ← rd fun s => s.portUp p && s.portFec p
    onlyIf on (uncorrCodeword p)) s

/-! Building frames (R54, R74). -/

/-- Bytes of IP and UDP headers of an encapsulation. -/
def encapLen (enc : Nat) : Nat := match enc with
  | 0 => 28
  | 1 => 48
  | _ => 0

/-- A frame, without its FCS, to the endpoint of a TX endpoint block (R416); `r` supplies the header fields that the spec
leaves open: the IPv4 identification and DF bit, the IPv6 flow label. -/
def buildFrame (ep : List Byte) (ethertype : Nat) (pay : List Byte) (r : Nat) : List Byte :=
  let enc := byteAt ep 12
  let tag (i : Nat) := beBytes 2 (leAt ep (i + 2) 2) ++ beBytes 2 (leAt ep i 2)
  let tags := byteAt ep 13 / 2 % 4
  let eth := ep.take 12 ++ (if 1 ≤ tags then tag 16 else []) ++ (if 2 ≤ tags then tag 20 else [])
  let ulen := 8 + pay.length
  let ports := beBytes 2 (leAt ep 56 2) ++ beBytes 2 (leAt ep 58 2)
  let ttl := slice ep 60 1
  match enc with
  | 0 =>
    let addrs := slice ep 24 4 ++ slice ep 40 4
    let h1 := [0x45] ++ slice ep 61 1 ++ beBytes 2 (20 + ulen) ++ beBytes 2 (r % 2 ^ 16) ++
      beBytes 2 (r / 2 ^ 16 % 2 * 2 ^ 14) ++ ttl ++ [17]
    let ip := h1 ++ beBytes 2 (inetSum (h1 ++ addrs)) ++ addrs
    let sum := if byteAt ep 13 % 2 = 1 then udpSum (addrs ++ [0, 17] ++ beBytes 2 ulen ++ ports ++ beBytes 2 ulen ++ pay) else 0
    eth ++ beBytes 2 0x0800 ++ ip ++ ports ++ beBytes 2 ulen ++ beBytes 2 sum ++ pay
  | 1 =>
    let addrs := slice ep 24 16 ++ slice ep 40 16
    let ip := beBytes 4 (6 * 2 ^ 28 + byteAt ep 61 * 2 ^ 20 + r % 2 ^ 20) ++ beBytes 2 ulen ++ [17] ++ ttl ++ addrs
    let sum := udpSum (addrs ++ [0, 17] ++ beBytes 2 ulen ++ ports ++ beBytes 2 ulen ++ pay)
    eth ++ beBytes 2 0x86DD ++ ip ++ ports ++ beBytes 2 ulen ++ beBytes 2 sum ++ pay
  | _ => eth ++ beBytes 2 ethertype ++ pay

/-- An FST header with its payload (R56). -/
def fstBytes (ty flags stream seq idx cnt lenInfo off : Nat) (pay : List Byte) : List Byte :=
  beBytes 1 (16 + ty) ++ beBytes 1 flags ++ beBytes 2 pay.length ++ beBytes 4 stream ++ beBytes 6 seq ++ beBytes 1 idx ++
  beBytes 1 cnt ++ beBytes 4 lenInfo ++ beBytes 2 off ++ zeros 6 ++ beBytes 4 (if pay.isEmpty then 0 else crc32c pay) ++ pay

/-- The endpoint block of what the device sends back to the sender of a frame: addresses, UDP ports and tags turned round.
The hop limit and the traffic class are the low bytes of `r` (the spec gives none). -/
def State.endpointBack (s : State) (p : Nat) (hdr : List Byte) (r : Nat) : List Byte :=
  let tags := s.tagsOf p hdr
  let off := 12 + 4 * tags
  let tag (i : Nat) := if i < tags then leBytes 2 (beAt hdr (14 + 4 * i) 2) ++ leBytes 2 (beAt hdr (12 + 4 * i) 2) else zeros 4
  let l3 := off + 2
  let head (enc ck : Nat) := slice hdr 6 6 ++ hdr.take 6 ++ leBytes 1 enc ++ leBytes 1 (ck + 2 * tags) ++ zeros 2 ++ tag 0 ++ tag 1
  match udpAt hdr off with
  | none => head 2 0 ++ zeros 104
  | some (u, _, v6) =>
    let ck := bit (beAt hdr (u + 6) 2 != 0)
    let ports := leBytes 2 (beAt hdr (u + 2) 2) ++ leBytes 2 (beAt hdr u 2)
    (if v6 then head 1 ck ++ slice hdr (l3 + 24) 16 ++ slice hdr (l3 + 8) 16
     else head 0 ck ++ slice hdr (l3 + 16) 4 ++ zeros 12 ++ slice hdr (l3 + 12) 4 ++ zeros 12) ++
    ports ++ leBytes 1 (r % 256) ++ leBytes 1 (r / 256 % 256) ++ zeros 66

/-! Sending (R46, R54, R77). -/

/-- Whether an egress queue takes another frame (R16, R49). -/
def State.qRoom (s : State) (p q : Nat) : Bool :=
  let l := match q with
    | 0 => (s.portsAt p).q0
    | 1 => (s.portsAt p).q1
    | _ => (s.portsAt p).q2
  l.isEmpty || decide (l.length < Config.egressRoom)

/-- Put a frame in an egress queue; one released to a port in Detention is discarded and counted (R77).  Whether it was
queued. -/
def portPush (p q : Nat) (f : TxFrame) : M Bool := do
  let det ← rd (·.fenced (groupOf p))
  if det then do
    count (Reg.ETH_CNT_TX_FENCED_DROP p)
    pure false
  else do
    modPorts p fun x => match q with
      | 0 => { x with q0 := x.q0 ++ [f] }
      | 1 => { x with q1 := x.q1 ++ [f] }
      | _ => { x with q2 := x.q2 ++ [f] }
    pure true

/-- The next frame of a port, with the port behind it (R46). -/
def State.nextFrame (s : State) (p : Nat) : Option (TxFrame × Port) :=
  let x := s.portsAt p
  match x.q0, s.qStopped p 0, x.q1, s.qStopped p 1, x.q2, s.qStopped p 2 with
  | f :: r, false, _, _, _, _ => some (f, { x with q0 := r })
  | _, _, f :: r, false, _, _ => some (f, { x with q1 := r })
  | _, _, _, _, f :: r, false => some (f, { x with q2 := r })
  | _, _, _, _, _, _ => none

/-- The bytes `bs` put into a list at an offset, as far as it reaches. -/
def patch (l : List Byte) (off : Nat) (bs : List Byte) : List Byte :=
  (l.take off ++ bs ++ l.drop (off + bs.length)).take l.length

/-- The IEEE 1588 form of a time (R54). -/
def ptpTime (ns : Nat) : List Byte := beBytes 6 (ns / 1000000000) ++ beBytes 4 (ns % 1000000000)

/-- A frame with a one-step timestamp written at an offset, its UDP checksum brought up to date where it is nonzero; `ether`
is where the EtherType of a frame of the device's own lies, whose tags may be of any kind (R416). -/
def State.oneStep (s : State) (p : Nat) (ether : Option Nat) (f : List Byte) (off : Nat) (ns : Nat) : List Byte :=
  let g := patch f off (ptpTime ns)
  match udpAt g (ether.getD (12 + 4 * s.tagsOf p g)) with
  | none => g
  | some (u, ps, _) =>
    let len := beAt g (u + 4) 2
    if g.length < u + 8 ∨ beAt g (u + 6) 2 = 0 then g
    else patch g (u + 6) (beBytes 2 (udpSum (ps ++ beBytes 2 len ++ slice (patch g (u + 6) [0, 0]) u len)))

/-- The bytes of a queued frame as it is sent now: FST over raw Ethernet has the EtherType in force (R74). -/
def State.etherNow (s : State) (f : TxFrame) : List Byte :=
  match f.ether with
  | some off => if f.rawFst then patch f.bytes off (beBytes 2 (s.inForce Reg.FST_CFG Fld.FST_CFG_ETHERTYPE)) else f.bytes
  | none => f.bytes

/-- FRAME_TRANSMIT: the port takes its next frame and sends it (R46, R54); a short frame is padded to the Ethernet minimum. -/
def execFrameTransmit (p : Nat) (s : State) : Host.Outcome State Fault Refusal :=
  commit (do
    let up ← rd (·.portUp p)
    let next ← rd (·.nextFrame p)
    match next with
    | none => pure ()
    | some (f, q) => onlyIf up do
      emit (.ports p q)
      let adj ← rd (·.ptpAdj p Fld.ETH_PTP_TX_ADJ)
      let now ← rd fun s => Word.ofNat s.timeNs + adj
      let bytes ← rd fun s => match f.tsOne with
        | some off => s.oneStep p f.ether (s.etherNow f) off now.toNat
        | none => s.etherNow f
      let out := bytes ++ zeros (60 - bytes.length)
      onlyIf (f.tsOne.isNone && f.tsTwo.isSome) do
        if q.txts.length < 64 then modPorts p fun q => { q with txts := q.txts ++ [(now, f.tsTwo.getD 0)] }
        else sticky (Reg.ETH_STATUS p) Fld.ETH_STATUS_TXTS_OVF (groupEvent p)
      send (.frame p (out ++ fcsOf out))
      count (Reg.ETH_CNT_TX_FRAMES p)
      countBy (Reg.ETH_CNT_TX_BYTES p) (out.length + 4)
      match f.buffer with
      | some h => bufDrop none h
      | none => pure ()) s

/-- Remove the head of the two-step timestamp FIFO (R54). -/
def txtsPop (p : Nat) (v : Word) : M Unit :=
  onlyIf (bitOf v.toNat 0) (modPorts p fun q => { q with txts := q.txts.drop 1 })

/-- TXTS_POP (R54). -/
def execTxtsPop (o : Who) (p en : Nat) (v : Word) (s : State) : Host.Outcome State Fault Refusal :=
  commit (do
    let here ← rd (!·.portAbsent p)
    onlyIf here (access o (Reg.ETH_TXTS_POP p) en (txtsPop p (v &&& laneMask en)))) s

end Sys2Proof.Machine
end

