-- ==== Sys2Proof/Machine/Fst.lean ====
section
/-! DEFINITION. The Folbun Sequenced Transport (R56 to R77): streams, the reorder window, acknowledgements, and sending
with retransmission. -/

namespace Sys2Proof.Machine

/-! Streams. -/

/-- The numbers of FST_ACK and FST_RETX as they act. -/
def State.ackEvery (s : State) : Nat := min 64 (max 1 (s.inForce Reg.FST_ACK Fld.FST_ACK_ACK_EVERY))
def State.retxMax (s : State) : Nat := max 1 (s.inForce Reg.FST_RETX Fld.FST_RETX_RETX_MAX)
def State.txWindow (s : State) : Nat := min 64 (max 1 (s.inForce Reg.FST_RETX Fld.FST_RETX_TX_WINDOW))

/-- Whether the FST engine works: from STAGE on (table "What runs in each mode"). -/
def State.fstOn (s : State) : Bool := !s.boot.perst && decide (modeStage ≤ s.mode)

/-- Open streams (FST_STREAMS). -/
def State.openStreams (s : State) : Nat := s.streams.countP fun e => e.2.isSome

/-- A stream identifier's open stream. -/
def State.stream (s : State) (id : Nat) : Option Stream := s.streamsAt id

/-- Change an open stream. -/
def modStream (id : Nat) (g : Stream → Stream) : M Unit := modStreams id fun o => o.map g

/-- The sequence `n` behind another (R56). -/
def seqAdd (a n : Nat) : Nat := (a + n) % 2 ^ 48

/-- How far a sequence lies behind another. -/
def seqDist (a b : Nat) : Nat := (b + 2 ^ 48 - a % 2 ^ 48) % 2 ^ 48

/-- STREAM_OPEN and STREAM_CLOSE records: whether it is open, its direction, port and classroom (R475). -/
def Stream.recWord (st : Stream) : Nat := 1 + 2 * bit st.tx + st.port * 2 ^ 8 + st.classroom * 2 ^ 16

/-- Data the device reads from memory to send it: where the memory has lost it, the loss is reported and the bytes are free
(R347). -/
def readData (a n : Nat) : M (List Byte) := do
  let bad ← rd (·.anyBad a n)
  if bad then do
    reportBads a n
    mapEach (List.range n) fun _ => do
      let k ← draw
      pure (BitVec.ofNat 8 (Config.random k))
  else rd (·.bytes a n)

/-- Where the EtherType lies in a frame to an endpoint, and whether that is FST's own (R74, R416). -/
def etherOf (ep : List Byte) : Nat := 12 + 4 * (min 2 (byteAt ep 13 / 2 % 4))
def rawFst (ep : List Byte) : Bool := decide (2 ≤ byteAt ep 12)

/-- Send an FST control frame for a stream on Q1 of its port (R46, R56). -/
def sendControl (id ty seq lenInfo : Nat) : M Unit := do
  let o ← rd (·.stream id)
  match o with
  | none => pure ()
  | some st => do
    let r ← draw
    let et ← rd (·.inForce Reg.FST_CFG Fld.FST_CFG_ETHERTYPE)
    let f := buildFrame st.endpoint et (fstBytes ty 0 id seq 0 0 lenInfo 0 []) (Config.random r)
    let det ← rd (·.fenced (groupOf st.port))
    onlyIf (!det) do
      let _ ← portPush st.port 1 ⟨f, none, none, none, some (etherOf st.endpoint), rawFst st.endpoint, none⟩
      onlyIf (ty = 2) (count Reg.FST_CNT_TX_ACK)
      onlyIf (ty = 3) (count Reg.FST_CNT_TX_NAK)

/-- A stream's slot is freed. -/
def streamRemove (id : Nat) : M Unit := emit (.streams id none)

/-! Receiving (R65 to R71). -/

/-- Whether the message at a sequence is incomplete, holding no segment included. -/
def Stream.incomplete (st : Stream) (seq : Nat) : Bool :=
  match st.held.find? fun m => m.seq = seq with
  | some m => m.phase = .incomplete
  | none => true

/-- How far the highest message that holds a segment lies from N. -/
def Stream.highest (st : Stream) : Nat := st.held.foldl (fun a m => max a (seqDist st.n m.seq)) 0

/-- GAP: the consecutive incomplete messages from N on, at most `k`. -/
def Stream.gapFrom (st : Stream) : Nat → Nat → Nat
  | 0, _ => 0
  | k + 1, i => if st.incomplete (seqAdd st.n i) then st.gapFrom k (i + 1) + 1 else 0

/-- The GAP of the NAK that R70 calls for; `none` while it calls for none. -/
def Stream.nakGap (st : Stream) : Option Nat :=
  if !st.tx && st.incomplete st.n && decide (0 < st.highest) then some (st.gapFrom (min 64 (st.highest + 1)) 0) else none

/-- A NAK for the gap at N, when the condition first arises (R70). -/
def nakCheck (id : Nat) : M Unit := do
  let o ← rd (·.stream id)
  match o with
  | none => pure ()
  | some st => match st.nakGap with
    | none => modStream id fun st => { st with nakOn := false }
    | some g => onlyIf (!st.nakOn) do
      modStream id fun st => { st with nakOn := true }
      sendControl id 3 st.n g

/-- WINDOW: 64 less the messages at or beyond N that hold segments (R71). -/
def Stream.rxWindow (st : Stream) : Nat := 64 - st.held.length

/-- Send an ACK (R71). -/
def sendAck (id : Nat) : M Unit := do
  let o ← rd (·.stream id)
  match o with
  | none => pure ()
  | some st => do
    sendControl id 2 st.n st.rxWindow
    modStream id fun st => { st with sinceAck := 0 }

/-- N passes the messages that are admitted or finished with. -/
def Stream.advance : Nat → Stream → Stream
  | 0, st => st
  | k + 1, st =>
    if st.held.any fun m => m.seq = st.n && m.phase = .done then
      Stream.advance k { st with held := st.held.filter (fun m => m.seq != st.n), n := seqAdd st.n 1 }
    else st

/-- A message of an RX stream has been admitted or has taken its default action (R18, R71). -/
def rxDone (id seq : Nat) : M Unit := do
  let o ← rd (·.stream id)
  match o with
  | none => pure ()
  | some st => match st.held.find? fun m => m.seq = seq with
    | none => pure ()
    | some m => do
      let held := st.held.map fun x => if x.seq = seq then { x with phase := .done } else x
      modStream id fun st => Stream.advance 64 { st with held := held, sinceAck := st.sinceAck + 1 }
      let every ← rd (·.ackEvery)
      onlyIf (m.acknow || decide (every ≤ st.sinceAck + 1)) (sendAck id)
      nakCheck id

/-- Discard what a message of an RX stream holds. -/
def dropRxMsg (id seq : Nat) : M Unit := do
  let o ← rd (·.stream id)
  match o with
  | none => pure ()
  | some st => match st.held.find? fun m => m.seq = seq with
    | none => pure ()
    | some m => do
      bufDrop none m.buffer
      modStream id fun st => { st with held := st.held.filter fun x => x.seq != seq }

/-- The held segments of a stream are discarded; messages already handed on are not the stream's to discard (R63, R73). -/
def dropHeld (id : Nat) : M Unit := do
  let o ← rd (·.stream id)
  match o with
  | none => pure ()
  | some st => do
    each (st.held.filter fun m => m.phase = .incomplete || m.phase = .complete) fun m => dropRxMsg id m.seq
    modStream id fun st => { st with nakOn := false }

/-- Whether a DATA segment is well formed but for its CRC (R57). -/
def segGood (f : FstFrame) : Bool :=
  f.ver = 1 && decide (1 ≤ f.segCnt ∧ f.segCnt ≤ 64 ∧ f.segIdx < f.segCnt ∧ 1 ≤ f.lenInfo ∧ f.lenInfo ≤ 65536 ∧
    f.segOff + f.segLen ≤ f.lenInfo ∧ (f.segIdx + 1 = f.segCnt → f.segOff + f.segLen = f.lenInfo) ∧
    (f.udp → f.udpLen = 40 + f.segLen) ∧ f.segLen ≤ f.payload.length)

/-- Whether a segment conflicts with those held for its message (R68). -/
def segConflict (m : RxMsg) (f : FstFrame) : Bool :=
  m.segCnt != f.segCnt || m.msgLen != f.lenInfo || m.segs.any fun g =>
    if g.idx = f.segIdx then g.off != f.segOff || g.data.length != f.segLen
    else decide (g.off < f.segOff + f.segLen ∧ f.segOff < g.off + g.data.length)

/-- Hold a segment in its message, which exists (R67, R71). -/
def holdSegment (id : Nat) (f : FstFrame) : M Unit := do
  let data := f.payload.take f.segLen
  modStream id fun st => { st with held := st.held.map fun m =>
    if m.seq != f.seq then m
    else
      let m := { m with
        segs := m.segs ++ [Seg.mk f.segIdx f.segOff data], acknow := m.acknow || bitOf f.flags 1
        hdr := if f.segIdx = 0 then f.hdr else m.hdr, ts := if f.segIdx = 0 then f.ts else m.ts }
      { m with phase := if m.segs.length = m.segCnt then .complete else m.phase } }

/-- The first segment of a message takes a reassembly buffer (R66). -/
def holdFirst (id : Nat) (st : Stream) (f : FstFrame) : M Unit := do
  let pool ← rd (·.inForce Reg.FST_CFG Fld.FST_CFG_REASM_POOL)
  let h ← poolAlloc (some st.classroom) pool (f.lenInfo + 128) none
  match h with
  | none => do
    count Reg.FST_CNT_POOL_EMPTY
    sticky Reg.FST_STATUS Fld.FST_STATUS_POOL_EMPTY 158
  | some h => do
    modStream id fun st => { st with held := st.held ++ [RxMsg.mk f.seq f.segCnt f.lenInfo h [] [] false 0 .incomplete] }
    holdSegment id f

/-- A good DATA segment within the window (R66 to R68).  ACKNOW of a segment that is already held has no effect on its
message, since R67 discards the segment: DESIGN CHOICE (R71 says "any accepted segment", R57 accepts it). -/
def windowSegment (id : Nat) (st : Stream) (f : FstFrame) : M Unit := do
  match st.held.find? fun m => m.seq = f.seq with
  | none => holdFirst id st f
  | some m =>
    if m.phase != .incomplete then count Reg.FST_CNT_RX_DUP
    else if segConflict m f then do
      count Reg.FST_CNT_SEG_CONFLICT
      dropRxMsg id f.seq
    else if m.segs.any fun g => g.idx = f.segIdx then count Reg.FST_CNT_RX_DUP
    else holdSegment id f
  nakCheck id

/-- A good DATA segment (R65). -/
def dataSegment (id : Nat) (st : Stream) (f : FstFrame) : M Unit := do
  let d := seqDist st.n f.seq
  if d < 64 then windowSegment id st f
  else if serAfter 48 f.seq st.n then count Reg.FST_CNT_RX_WINDOW_DROP
  else do
    count Reg.FST_CNT_RX_DUP
    let now ← rd (·.monoNs)
    let hold ← rd (·.inForce Reg.FST_ACK Fld.FST_ACK_NAK_HOLD_US)
    onlyIf (st.dupAckAt.all fun t => decide (t + hold * 1000 ≤ now)) do
      sendAck id
      modStream id fun st => { st with dupAckAt := some now }

/-- Take the oldest received FST frame of a port if it is of the given type and direction, and hand it on with its stream,
whose return addresses it renews; one whose stream has meanwhile closed or failed is discarded and counted (R59, R76,
R550).  Nothing waits at a port that is down or in Detention (R73). -/
def takeFrame (p ty : Nat) (tx : Option Bool) (body : Nat → Stream → FstFrame → M Unit) : M Unit := do
  let on ← rd fun s => s.fstOn && s.portUp p
  let q ← rd (·.portsAt p)
  match q.rx with
  | [] => pure ()
  | f :: rest => do
    let bad ← rd (·.fstReject f)
    let o ← rd (·.stream f.stream)
    let mine := f.ty = ty && match o with
      | none => true
      | some st => tx.all (· == st.tx)
    onlyIf (on && mine) do
      emit (.ports p { q with rx := rest })
      match bad, o with
      | some c, _ => count c
      | none, none => pure ()
      | none, some st => do
        let r ← draw
        let ep ← rd (·.endpointBack p f.hdr (Config.random r))
        onlyIf (!st.tx) (modStream f.stream fun st => { st with endpoint := ep })
        body f.stream st f

/-- FST_DATA_RECEIVE (R57, R58, R65).  SEG_LEN 0 is none of the failures of R57, and such a segment is accepted (R56 gives
SEG_LEN of DATA from 1 on); one that fails the CRC and another test is counted in RX_HDR_ERR, the header being read first:
DESIGN CHOICE. -/
def execFstDataReceive (p : Nat) (s : State) : Host.Outcome State Fault Refusal :=
  commit (takeFrame p 1 none fun id st f =>
    if st.state = .openWait then count Reg.FST_CNT_RX_UNKNOWN
    else if !segGood f then count Reg.FST_CNT_RX_HDR_ERR
    else if crc32c (f.payload.take f.segLen) != f.crc then count Reg.FST_CNT_RX_CRC_ERR
    else do
      count Reg.FST_CNT_RX_DATA
      dataSegment id st f) s

/-- NAK_REPEAT: NAK_HOLD_US passes with the gap still open (R70). -/
def execNakRepeat (id : Nat) (s : State) : Host.Outcome State Fault Refusal :=
  commit (do
    let on ← rd (·.fstOn)
    let o ← rd (·.stream id)
    match o with
    | none => pure ()
    | some st => match st.nakGap with
      | some g => onlyIf (on && st.nakOn) (sendControl id 3 st.n g)
      | none => pure ()) s

/-- ACK_DELAY_EXPIRE (R71). -/
def execAckDelayExpire (id : Nat) (s : State) : Host.Outcome State Fault Refusal :=
  commit (do
    let on ← rd (·.fstOn)
    let o ← rd (·.stream id)
    match o with
    | none => pure ()
    | some st => onlyIf (on && !st.tx && decide (0 < st.sinceAck)) (sendAck id)) s

/-- FST_HELLO_RX_STREAM (R61). -/
def execFstHelloRxStream (p : Nat) (s : State) : Host.Outcome State Fault Refusal :=
  commit (takeFrame p 4 (some false) fun id st f =>
    if st.state = .openWait then do
      modStream id fun st => { st with state := .open_, n := f.seq }
      sendControl id 4 f.seq 0
    else sendControl id 4 st.n 0) s

/-- FST_CLOSE_RX_STREAM (R62); a repeated CLOSE for a CLOSING stream changes nothing. -/
def execFstCloseRxStream (p : Nat) (s : State) : Host.Outcome State Fault Refusal :=
  commit (takeFrame p 5 (some false) fun id st f =>
    if st.state = .openWait then count Reg.FST_CNT_RX_UNKNOWN
    else if serBefore 48 f.seq st.n then count Reg.FST_CNT_RX_HDR_ERR
    else onlyIf (decide (st.state = .open_)) (modStream id fun st => { st with state := .closing, closeSeq := some f.seq })) s

/-- RX_STREAM_CLOSE_DONE: N reaches CLOSE.SEQ (R62). -/
def execRxStreamCloseDone (id : Nat) (s : State) : Host.Outcome State Fault Refusal :=
  commit (do
    let on ← rd (·.fstOn)
    let o ← rd (·.stream id)
    match o with
    | none => pure ()
    | some st => onlyIf (on && !st.tx && decide (st.state = .closing) && decide (st.closeSeq = some st.n)) do
      sendControl id 5 st.n 0
      dropHeld id
      streamRemove id) s

/-! Sending (R74 to R77). -/

/-- The largest SEG_LEN of an endpoint block's encapsulation. -/
def maxSeg (ep : List Byte) : Nat := 2048 - (4 + 14 + 4 * (byteAt ep 13 / 2 % 4) + encapLen (byteAt ep 12) + 32)

/-- Send a message of a TX stream segment by segment (R74); a requested timestamp is that of the frame of segment 0, and it is
taken again when that frame is sent again: DESIGN CHOICE (R54 speaks of one transmission). -/
def sendMessage (id : Nat) (m : TxMsg) (retx : Bool) : M Unit := do
  let o ← rd (·.stream id)
  match o with
  | none => pure ()
  | some st => do
    let a ← rd (·.bufAddr m.e.buffer)
    let data ← readData (a + m.e.off) m.e.len
    let et ← rd (·.inForce Reg.FST_CFG Fld.FST_CFG_ETHERTYPE)
    let k := maxSeg st.endpoint
    let n := ceilDiv m.e.len k
    each (List.range n) fun i => do
      let r ← draw
      let pay := fstBytes 1 (bit retx) id m.seq i n m.e.len (i * k) (slice data (i * k) k)
      let two := if i = 0 ∧ bitOf m.e.flags 2 ∧ !bitOf m.e.flags 3 then some m.e.tsTag else none
      let one := if i = 0 ∧ bitOf m.e.flags 3 then some m.e.tsOff else none
      let _ ← portPush st.port (if m.urgent then 0 else 2)
        ⟨buildFrame st.endpoint et pay (Config.random r), two, one, none, some (etherOf st.endpoint), rawFst st.endpoint,
          some (id, m.seq)⟩
      onlyIf retx (count Reg.FST_CNT_TX_RETX)

/-- Discard an egress message of a TX stream (R63, R76). -/
def dropTx (m : TxMsg) : M Unit := do
  count Reg.FST_CNT_TX_STREAM_DROP
  bufDrop none m.e.buffer

/-- A TX stream lets go of what it holds: sent messages, and those that still wait, which are counted. -/
def txRelease (id : Nat) : M Unit := do
  let o ← rd (·.stream id)
  match o with
  | none => pure ()
  | some st => do
    each st.unacked fun m => bufDrop none m.e.buffer
    each st.waiting dropTx
    modStream id fun st => { st with unacked := [], waiting := [] }

/-- A TX stream closes; a graceful STREAM_CLOSE that waits for it completes with RESULT[0] as given (R64). -/
def txClose (id result : Nat) : M Unit := do
  txRelease id
  let b ← rd (·.bgFind fun k => k = .streamClose id)
  let o ← rd (·.stream id)
  match b, o with
  | some b, some st => do
    let org ← rd (·.bgOrigin b)
    gbRecord org 9 2 id st.recWord (st.recWord - 1)
    streamRemove id
    bgEnd b stDone result
  | _, _ => streamRemove id

/-- A TX stream enters FAILED; one that is closing is closed (R64, R76). -/
def txFail (id : Nat) : M Unit := do
  let o ← rd (·.stream id)
  match o with
  | none => pure ()
  | some st => do
    count Reg.FST_CNT_STREAM_FAILED
    sticky Reg.FST_STATUS Fld.FST_STATUS_STREAM_FAILED 158
    if st.state = .closing then txClose id 1
    else do
      txRelease id
      modStream id fun st => { st with state := .failed }

/-- A graceful close whose messages are all acknowledged sends CLOSE (R64). -/
def closeCheck (id : Nat) : M Unit := do
  let o ← rd (·.stream id)
  match o with
  | none => pure ()
  | some st =>
    onlyIf (decide (st.state = .closing) && st.tx && st.unacked.isEmpty && st.waiting.isEmpty && !st.closeSent) do
      modStream id fun st => { st with closeSent := true, retries := 0 }
      sendControl id 5 st.n 0

/-- Whether the release of a stream takes another message: there is room at it, or the message is to be discarded (R16, R64). -/
def State.streamRoom (s : State) (id : Nat) : Bool :=
  (s.stream id).all fun st => st.waiting.isEmpty || decide (st.waiting.length < Config.releaseRoom)

/-- An egress message released to a TX stream (R63, R64, R75, R76); one whose port is in Detention is discarded and counted in
TX_FENCED_DROP, and the stream fails (R77), where R76 would count it in TX_STREAM_DROP (DEDUCED: R77 is the rule of such a port). -/
def streamRelease (id : Nat) (classroom : Nat) (e : Egress) (urgent : Bool) : M Unit := do
  let o ← rd (·.stream id)
  let mine := o.any fun st => st.tx && st.classroom == classroom
  let ok := mine && o.any fun st => st.state = .open_ || st.state = .openWait
  let det ← rd fun s => o.any fun st => s.fenced (groupOf st.port)
  if mine && det then do
    each (o.map (·.port)).toList fun p => count (Reg.ETH_CNT_TX_FENCED_DROP p)
    bufDrop none e.buffer
    onlyIf (o.any fun st => st.state != .failed) (txFail id)
  else if ok then modStream id fun st => { st with waiting := st.waiting ++ [⟨0, e, urgent⟩] }
  else dropTx ⟨0, e, urgent⟩

/-- FST_TX_SEND: the next waiting message takes its sequence and is sent, as far as the windows allow (R74, R75). -/
def execFstTxSend (id : Nat) (s : State) : Host.Outcome State Fault Refusal :=
  commit (do
    let on ← rd (·.fstOn)
    let w ← rd (·.txWindow)
    let o ← rd (·.stream id)
    match o with
    | none => pure ()
    | some st => match st.waiting with
      | [] => pure ()
      | m :: rest =>
        let go := st.tx && (st.state = .open_ || st.state = .closing) && decide (st.unacked.length < w) &&
          serBefore 48 st.n (seqAdd st.lastAck st.window)
        let room ← rd (·.qRoom st.port (if m.urgent then 0 else 2))
        onlyIf (on && go && room) do
          let m := { m with seq := st.n }
          modStream id fun st => { st with waiting := rest, unacked := st.unacked ++ [m], n := seqAdd st.n 1 }
          sendMessage id m false) s

/-- An acknowledgement of every sequence before `seq`; `false` if it lies beyond what was sent (R76). -/
def ackTo (id seq : Nat) : M Bool := do
  let o ← rd (·.stream id)
  match o with
  | none => pure false
  | some st =>
    if serAfter 48 seq st.n then do
      count Reg.FST_CNT_RX_HDR_ERR
      pure false
    else do
      onlyIf (serAfter 48 seq st.ackSeq) do
        each (st.unacked.filter fun m => serBefore 48 m.seq seq) fun m => bufDrop none m.e.buffer
        modStream id fun st =>
          { st with unacked := st.unacked.filter (fun m => !serBefore 48 m.seq seq), ackSeq := seq, retries := 0 }
      modStream id fun st => { st with lastAck := seq }
      closeCheck id
      pure true

/-- FST_ACK_RECEIVE (R64, R75, R76). -/
def execFstAckReceive (p : Nat) (s : State) : Host.Outcome State Fault Refusal :=
  commit (takeFrame p 2 none fun id st f =>
    if st.state = .openWait then count Reg.FST_CNT_RX_HDR_ERR
    else do
      let ok ← ackTo id f.seq
      onlyIf ok (modStream id fun st => { st with window := f.lenInfo })) s

/-- FST_NAK_RECEIVE (R64, R76): the named messages that have been sent and not acknowledged are sent again.  Of a NAK whose
SEQ is acknowledged the acknowledged messages are ignored and the others it names are sent again; a GAP above 64 acts as
64, and GAP 0 names no message: DESIGN CHOICE (R76 gives neither case). -/
def execFstNakReceive (p : Nat) (s : State) : Host.Outcome State Fault Refusal :=
  commit (takeFrame p 3 none fun id st f =>
    if st.state = .openWait || !serBefore 48 f.seq st.n then count Reg.FST_CNT_RX_HDR_ERR
    else each (st.unacked.filter fun m => decide (seqDist f.seq m.seq < min 64 f.lenInfo)) fun m => sendMessage id m true) s

/-- FST_HELLO_TX_STREAM (R64). -/
def execFstHelloTxStream (p : Nat) (s : State) : Host.Outcome State Fault Refusal :=
  commit (takeFrame p 4 (some true) fun id st f =>
    if st.state = .openWait then
      (if f.seq = st.start then modStream id fun st => { st with state := .open_, retries := 0 }
       else count Reg.FST_CNT_RX_HDR_ERR)
    else do
      let ok ← ackTo id f.seq
      onlyIf ok (sendControl id 4 st.n 0)) s

/-- FST_CLOSE_TX_STREAM (R64); messages that still wait at the stream's release are discarded and counted as those released
afterwards are: DESIGN CHOICE (R64 names the later ones only).  In OPEN_WAIT nothing has been sent that a CLOSE could end, and it is discarded as an ACK is. -/
def execFstCloseTxStream (p : Nat) (s : State) : Host.Outcome State Fault Refusal :=
  commit (takeFrame p 5 (some true) fun id st f =>
    if st.state = .open_ then do
      sendControl id 5 st.n 0
      txRelease id
      streamRemove id
    else if st.state = .closing && f.seq = st.n then txClose id 0
    else count Reg.FST_CNT_RX_HDR_ERR) s

/-- FST_RTO_TIMEOUT: no ACK advances for RTO_US (R76). -/
def execFstRtoTimeout (id : Nat) (s : State) : Host.Outcome State Fault Refusal :=
  commit (do
    let on ← rd (·.fstOn)
    let k ← rd (·.retxMax)
    let o ← rd (·.stream id)
    match o with
    | none => pure ()
    | some st => match st.unacked with
      | [] => pure ()
      | m :: _ => onlyIf (on && st.tx && (st.state = .open_ || st.state = .closing)) <|
        (if k ≤ st.retries then txFail id
         else do
           modStream id fun st => { st with retries := st.retries + 1 }
           sendMessage id m true)) s

/-- Send the opening HELLO of a TX stream (R64). -/
def sendHello (id : Nat) : M Unit := do
  let o ← rd (·.stream id)
  match o with
  | none => pure ()
  | some st => sendControl id 4 st.start 0

/-- HELLO_RTO_TIMEOUT: RTO_US passes in OPEN_WAIT (R64). -/
def execHelloRtoTimeout (id : Nat) (s : State) : Host.Outcome State Fault Refusal :=
  commit (do
    let on ← rd (·.fstOn)
    let k ← rd (·.retxMax)
    let o ← rd (·.stream id)
    match o with
    | none => pure ()
    | some st => onlyIf (on && st.tx && decide (st.state = .openWait)) <|
      (if k ≤ st.retries + 1 then txFail id
       else do
         modStream id fun st => { st with retries := st.retries + 1 }
         sendHello id)) s

/-- CLOSE_RTO_TIMEOUT: RTO_US passes behind a CLOSE (R64). -/
def execCloseRtoTimeout (id : Nat) (s : State) : Host.Outcome State Fault Refusal :=
  commit (do
    let on ← rd (·.fstOn)
    let k ← rd (·.retxMax)
    let o ← rd (·.stream id)
    match o with
    | none => pure ()
    | some st => onlyIf (on && st.tx && decide (st.state = .closing) && st.closeSent) <|
      (if k ≤ st.retries + 1 then txFail id
       else do
         modStream id fun st => { st with retries := st.retries + 1 }
         sendControl id 5 st.n 0)) s

/-- The streams of a port. -/
def State.portStreams (s : State) (p : Nat) : List Nat :=
  (s.streams.filter fun e => e.2.any fun st => st.port == p).map Prod.fst

/-- The link of a port is lost: what its RX streams hold is discarded, and their sequences are kept (R73). -/
def linkLost (p : Nat) : M Unit := do
  let ids ← rd (·.portStreams p)
  each ids fun id => do
    let o ← rd (·.stream id)
    onlyIf (o.any fun st => !st.tx) (dropHeld id)
  modPorts p fun q => { q with rx := [] }

/-- Set LINK_UP of a port and what follows it; a change raises the group's event.  SFI has no auto-negotiation (R36), and MEDIA 2
outside 4 × 10G is taken as no SFI (DESIGN CHOICE, as in `State.portSfi`). -/
def setLink (p : Nat) (up : Bool) : M Unit := do
  let was ← rd (·.fld (Reg.ETH_STATUS p) Fld.ETH_STATUS_LINK_UP)
  onlyIf (was != bit up) do
    let fec ← rd (·.portFec p)
    let an ← rd fun s => s.inForce (Reg.ETH_CFG p) Fld.ETH_CFG_AN_EN == 1 && !s.portSfi p
    setFld (Reg.ETH_STATUS p) Fld.ETH_STATUS_LINK_UP (bit up)
    setFld (Reg.ETH_STATUS p) Fld.ETH_STATUS_FEC_LOCK (bit (up && fec))
    setFld (Reg.ETH_STATUS p) Fld.ETH_STATUS_AN_DONE (bit (up && an))
    sticky (Reg.ETH_STATUS p) Fld.ETH_STATUS_LINK_CHANGE (groupEvent p)
    onlyIf (!up) (linkLost p)

/-- CLIENT_LINK_CHANGE (R49, R73). -/
def execClientLinkChange (p : Nat) (up : Bool) (s : State) : Host.Outcome State Fault Refusal :=
  commit (do
    let on ← rd (·.portOn p)
    onlyIf on (setLink p up)) s

end Sys2Proof.Machine
end

