-- ==== Sys2Proof/Machine/Parse.lean ====
section
/-! DEFINITION. The parse graph (spec/03): node descriptors, one walk over a presentation and its metadata, the ordering
key, and the validation of the result. -/

namespace Sys2Proof.Machine

/-- An ingress pipeline as a fenceable unit. -/
abbrev pipeUnit (p : Nat) : UnitId := ⟨.pipe, p⟩

/-! Node descriptors (R87 to R90). -/

/-- A transition: a value to compare with, and where it leads: a node, or a terminal code. -/
structure Transition where
  value : Nat
  next : Nat
  term : Bool
  deriving DecidableEq, Repr

/-- A node of the parse graph. -/
structure ParseNode where
  src : Nat
  off : Nat
  /-- bytes of the field -/
  len : Nat
  shift : Nat
  /-- bits kept -/
  width : Nat
  trans : Nat
  advKind : Nat
  adv : Nat
  advShift : Nat
  fstore : Nat
  rec_ : Nat
  classroomC : Option Nat
  classC : Option Nat
  graphC : Option Nat
  dflt : Transition
  entries : List Transition
  deriving DecidableEq, Repr

/-- A transition entry (R90). -/
def Transition.ofNat (n : Nat) : Transition := ⟨bitsOf n 15 0, bitsOf n 23 16, bitOf n 24⟩

/-- The node a 32-byte descriptor describes. -/
def ParseNode.ofBytes (b : List Byte) : ParseNode :=
  let sel := leAt b 0 8
  let st := leAt b 8 8
  { src := bitsOf sel 1 0, off := bitsOf sel 10 2, len := bitsOf sel 13 11 + 1, shift := bitsOf sel 19 14
    width := if bitsOf sel 25 20 = 0 then 64 else bitsOf sel 25 20
    trans := bitsOf sel 27 26, advKind := bitsOf sel 29 28, adv := bitsOf sel 40 32, advShift := bitsOf sel 44 41
    fstore := bitsOf st 2 0, rec_ := bitsOf st 5 3
    classroomC := if bitOf st 6 then some (bitsOf st 12 7) else none
    classC := if bitOf st 13 then some (bitsOf st 16 14) else none
    graphC := if bitOf st 17 then some (bitsOf st 27 18) else none
    dflt := ⟨0, bitsOf st 39 32, bitOf st 40⟩
    entries := (List.range (min 4 (bitsOf st 43 41))).map fun i => Transition.ofNat (leAt b (16 + 4 * i) 4) }

/-- Node `n` of the node store of a Term slot (table "PG registers"). -/
def State.parseNode (s : State) (slot n : Nat) : ParseNode :=
  ParseNode.ofBytes ((List.range 32).map fun i => s.pgAt (0x8000 + slot * 0x2000 + n * 0x20 + i))

/-- The start node that a slot header names for a port (R102). -/
def State.startNode (s : State) (slot port : Nat) : Nat := (s.pgAt (0x7000 + slot * 0x20 + port)).toNat

/-! A walk (R84 to R95). -/

/-- What a walk reads. -/
structure WalkView where
  window : List Byte
  info : List Byte
  payloadOff : Nat

/-- What a walk has built (R94): cursor, classroom, class, entry graph, key with its length in bits, and records. -/
structure WalkAcc where
  cursor : Nat
  classroom : Option Nat
  cls : Nat
  graph : Option Nat
  key : Nat
  keyLen : Nat
  records : List Nat
  deriving DecidableEq, Repr

/-- How a walk ends. -/
inductive WalkEnd
  | accept
  | noMatch
  | fail
  /-- it was about to make one visit too many (R93) -/
  | limit
  deriving DecidableEq, Repr

/-- The outcome of a terminal code. -/
def WalkEnd.ofCode (c : Nat) : WalkEnd := if c = 0 then .accept else if c = 1 then .noMatch else .fail

/-- The offset a node's field is read at. -/
def ParseNode.place (d : ParseNode) (a : WalkAcc) : Nat := if d.src = 0 then a.cursor + d.off else d.off

/-- The value of a node (R88); `none` for a read outside the window or the metadata block. -/
def ParseNode.value (d : ParseNode) (v : WalkView) (a : WalkAcc) : Option Nat :=
  let bytes := if d.src = 2 then v.info else v.window
  if d.src = 3 then some 0
  else if bytes.length < d.place a + d.len then none
  else some (beAt bytes (d.place a) d.len / 2 ^ d.shift % 2 ^ d.width)

/-- The field store, then the constant stores (R89, R91, R92, R95); `none` when a key grows beyond 256 bits. -/
def ParseNode.store (d : ParseNode) (val : Nat) (a : WalkAcc) : Option WalkAcc :=
  let recOff := if d.src = 2 ∨ d.src = 3 then 0xFFFF else d.place a % 65536
  let field : Option WalkAcc := match d.fstore with
    | 1 => if a.keyLen + d.width ≤ 256
        then some { a with key := a.key * 2 ^ d.width + val, keyLen := a.keyLen + d.width } else none
    | 2 => some { a with records := a.records.take d.rec_ ++ recOff :: a.records.drop (d.rec_ + 1) }
    | 3 => some { a with classroom := some (val % 64) }
    | 4 => some { a with cls := val % 8 }
    | 5 => some { a with graph := some (val % 1024) }
    | _ => some a
  field.map fun a => { a with classroom := d.classroomC.orElse fun _ => a.classroom
                              cls := d.classC.getD a.cls
                              graph := d.graphC.orElse fun _ => a.graph }

/-- The transition a visit takes (R91). -/
def ParseNode.transition (d : ParseNode) (val : Nat) : Transition :=
  let low := val % 65536
  let hit := match d.trans with
    | 0 => d.entries.find? fun (e : Transition) => e.value = low
    | 1 => d.entries.find? fun (e : Transition) => decide (low ≤ e.value)
    | _ => none
  hit.getD d.dflt

/-- Where the cursor goes (R87, R91). -/
def ParseNode.move (d : ParseNode) (v : WalkView) (val cursor : Nat) : Nat :=
  match d.advKind with
  | 0 => cursor
  | 1 => cursor + d.adv
  | 2 => cursor + val * 2 ^ d.advShift + d.adv
  | _ => v.payloadOff + d.adv

/-- Walk from a node with so many visits left: what was built, the visits made, and the end (R91, R93). -/
def walkFrom (node : Nat → ParseNode) (v : WalkView) : Nat → Nat → WalkAcc → WalkAcc × Nat × WalkEnd
  | 0, _, a => (a, 0, .limit)
  | left + 1, n, a =>
    let d := node n
    match d.value v a with
    | none => (a, 1, .fail)
    | some val => match d.store val a with
      | none => (a, 1, .fail)
      | some b =>
        let t := d.transition val
        let b := { b with cursor := d.move v val b.cursor }
        if t.term then (b, 1, WalkEnd.ofCode t.next)
        else
          let (c, k, e) := walkFrom node v left t.next b
          (c, k + 1, e)

/-- The ordering key of an accumulator of `len` bits (R95). -/
def orderingKey (acc len : Nat) : Word :=
  if len ≤ 64 then Word.ofNat acc
  else
    let bs := beBytes (ceilDiv len 8) acc
    Word.ofNat (crc32cSeed 0xFFFFFFFF bs * 2 ^ 32 + crc32cSeed 0 bs)

/-! Presentations (R84 to R86). -/

/-- Whether a message is sequenced: one of an FST stream. -/
def Walk.sequenced (w : Walk) : Bool := match w.src with | .stream _ _ => true | _ => false

/-- Whether it is a second pass. -/
def Walk.recirc (w : Walk) : Bool := match w.src with | .recirc _ => true | _ => false

/-- Its FST sequence, 0 if it is unsequenced. -/
def Walk.seq (w : Walk) : Nat := match w.src with | .stream _ q => q | _ => 0

/-- MSG_LEN: of the payload of an FST message, else of the presentation (R85). -/
def Walk.msgLen (w : Walk) : Nat := w.bytes.length - w.hdrLen

/-- The metadata block (R85). -/
def State.walkMeta (s : State) (w : Walk) : List Byte :=
  let tags := s.tagsOf w.port w.bytes
  let flags := bit w.sequenced + 2 * tags + 8 * bit w.recirc
  beBytes 8 w.ts.toNat ++ beBytes 4 w.strm ++ beBytes 1 w.port ++ beBytes 1 flags ++ beBytes 2 w.hdrLen ++
    beBytes 4 w.msgLen ++ beBytes 2 (if tags = 0 then 0 else beAt w.bytes 14 2 % 4096) ++
    beBytes 2 (if tags = 2 then beAt w.bytes 18 2 % 4096 else 0) ++ zeros 8

/-- Whether a message that is not FST is a fragment (R86).  DESIGN CHOICE: its tags are counted with the OUTER_TPID in force when the
walk ends (notes/assumptions/167.md). -/
def State.isFragment (s : State) (w : Walk) : Bool :=
  let off := 12 + 4 * s.tagsOf w.port w.bytes
  let ty := beAt w.bytes off 2
  !w.sequenced && (decide (ty = 0x0800 ∧ beAt w.bytes (off + 8) 2 % 2 ^ 14 ≠ 0) ||
    decide (ty = 0x86DD ∧ beAt w.bytes (off + 8) 1 = 44))

/-- What a walk starts with (R94). -/
def Walk.start (w : Walk) : WalkAcc := ⟨0, if w.sequenced then w.classroom else none, 7, none, 0, 0, List.replicate 8 0xFFFF⟩

/-- Walk a message's presentation with the parse graph of its Term (R99); with none it visits nothing (R103). -/
def State.walk (s : State) (w : Walk) : WalkAcc × Nat × WalkEnd :=
  match w.term with
  | none => (w.start, 0, .fail)
  | some slot =>
    walkFrom (s.parseNode slot) ⟨w.bytes.take 512, s.walkMeta w, w.hdrLen⟩ w.visits (s.startNode slot w.port) w.start

/-- STATE of a classroom. -/
def State.clState (s : State) (c : Nat) : Nat := s.fld (Reg.CL_BIND c) Fld.CL_BIND_STATE

/-- The validation of R96, with the checks of R173 for a second pass. -/
def State.resultValid (s : State) (w : Walk) (a : WalkAcc) : Bool :=
  match a.classroom, a.graph, w.term with
  | some c, some g, some slot =>
    w.classroom.all (· = c) && (w.sequenced || w.recirc || bitOf w.mask c) &&
      s.clState c != 0 && decide (g < (s.termsAt slot).graphs)
  | _, _, _ => false

/-- The classification result of an accepted walk, BUFFER still open for a message that has none. -/
def Walk.result (w : Walk) (a : WalkAcc) : MsgDesc :=
  { cls := a.cls, term := w.term.getD 0, epoch := w.epoch, graph := a.graph.getD 0, classroom := a.classroom.getD 0
    buffer := w.buffer.getD 0, msgLen := w.msgLen, payloadOff := w.hdrLen, port := w.port, stream := w.strm, seq := w.seq
    sequenced := w.sequenced, recirc := w.recirc, key := orderingKey a.key a.keyLen, rxTs := w.ts, records := a.records
    status := none }

/-- The action statuses of R78. -/
abbrev actNoMatch : Nat := 1
abbrev actParseFail : Nat := 2
abbrev actFragment : Nat := 3
abbrev actRetry : Nat := 4

/-- A counter of pipeline `p`. -/
def pgCount (reg : Nat → Nat) (p n : Nat) : M Unit := countBy (reg p) n

/-- Parse a message to its outcome, and count it (R86, R93, R98, table "PG counters"). -/
def walkOutcome (p : Nat) (w : Walk) : M WalkOutcome := do
  let frag ← rd (·.isFragment w)
  if frag then do
    pgCount Reg.PG_CNT_FRAGMENT p 1
    pure (.action actFragment)
  else do
    let (a, visits, e) ← rd (·.walk w)
    pgCount Reg.PG_CNT_NODES p visits
    onlyIf (e = .limit) (pgCount Reg.PG_CNT_VISIT_LIMIT p 1)
    let ok ← rd (·.resultValid w a)
    if e = .noMatch then do
      pgCount Reg.PG_CNT_NO_MATCH p 1
      pure (.action actNoMatch)
    else if e = .accept ∧ ok then do
      pgCount Reg.PG_CNT_ACCEPT p 1
      let gen ← rd (·.clgen (a.classroom.getD 0))
      pure (.result (w.result a) gen)
    else do
      pgCount Reg.PG_CNT_PARSE_FAIL p 1
      pure (.action actParseFail)

end Sys2Proof.Machine
end

