-- ==== Sys2Proof/Machine/Admission.lean ====
section
/-! DEFINITION. From a complete message to its context (spec/02 R17, R78, R552; spec/03 R79 to R83; spec/04 R107, R114,
R115, R139, R145; spec/05 R151 to R156): hand-over to a pipeline, hold queues, default actions, admission, context
creation, and the end of an abandonment. -/

namespace Sys2Proof.Machine

/-! Pipelines (R79, R83). -/

/-- Whether a pipeline is in service. -/
def State.pipeUp (s : State) (p : Nat) : Bool := !(s.fenced (pipeUnit p) || s.fencing (pipeUnit p))

/-- The home pipeline of a stream, and of a port. -/
def streamHome (id : Nat) : Nat :=
  (bitsOf id 1 0 ^^^ bitsOf id 9 8 ^^^ bitsOf id 17 16 ^^^ bitsOf id 25 24) % 4

/-- The pipeline that serves for a home pipeline: itself, or the first of the next three in service. -/
def State.servingPipe (s : State) (home : Nat) : Option Nat :=
  ((List.range 4).map fun k => (home + k) % 4).find? s.pipeUp

/-- The home pipeline of a message. -/
def WalkSource.home : WalkSource → Nat
  | .stream id _ => streamHome id
  | .unseq p => p % 4
  | .recirc p => p % 4

/-- The stream a message is of, or the port of an unsequenced one, which a recirculated message is too (R80, R173). -/
def WalkSource.origin : WalkSource → Bool × Nat
  | .stream id _ => (true, id)
  | .unseq p => (false, p)
  | .recirc p => (false, p)

/-- Whether results of two messages are handed on in order: one stream, or one port (R80). -/
def WalkSource.same (a b : WalkSource) : Bool := a.origin == b.origin

/-- Whether a pipeline holds a message of a source. -/
def Pipe.holds (q : Pipe) (src : WalkSource) : Bool :=
  (q.walks.any fun w => w.walk.src.same src) || (q.hold.any fun w => w.walk.src.same src)

/-- The current Term. -/
def State.curTerm (s : State) : Option Nat :=
  if s.fld Reg.PG_STATUS Fld.PG_STATUS_CUR_VALID = 1 then some (s.fld Reg.PG_STATUS Fld.PG_STATUS_CUR_SLOT) else none

/-- A message taken up for a walk with a Term: the limits in force now (R93, R96, R99). -/
def State.freshWalk (s : State) (w : Walk) (term : Option Nat) : Walk :=
  { w with term := term, epoch := (term.map fun t => (s.termsAt t).epoch).getD 0
           visits := min 32 (max 1 (s.inForce Reg.PG_LIMIT Fld.PG_LIMIT_MAX_VISITS))
           mask := s.inForce (Reg.PG_CLMASK w.port) Fld.PG_CLMASK_CLASSROOMS }

/-- Hold or drop a reference on a walk's Term, if it has one (R99, R468). -/
def optRef (f : Nat → M Unit) : Option Nat → M Unit
  | some t => f t
  | none => pure ()

/-- Hand a message to a pipeline (R99).  Its walk uses the values of group PG in force at its start: a commit pending takes effect
before it (table "Commit groups and their safe points"). -/
def startWalk (p : Nat) (w : Walk) (term : Option Nat) : M Unit := do
  reachSafe .pg
  let w ← rd (·.freshWalk w term)
  optRef termRef term
  pgCount Reg.PG_CNT_WALKS p 1
  modPipes p fun q => { q with walks := q.walks ++ [⟨w, none⟩] }

/-- Whether a pipeline may take the next message of a source now: it has a walker free, and no message of the source
remains in another pipeline (R79, R83). -/
def State.pipeFor (s : State) (src : WalkSource) : Option Nat :=
  match s.servingPipe src.home with
  | none => none
  | some p =>
    if (s.pipesAt p).walks.length < 32 ∧ ((List.range 4).all fun k => k = p || !(s.pipesAt k).holds src) then some p else none

/-! Occupancy and holding (R153, R551). -/

/-- Whether a result is for a classroom. -/
def WalkDone.isFor (w : WalkDone) (c : Nat) : Bool := match w.out with
  | .result m _ => m.classroom = c
  | .action _ => false

/-- The admission queues of a classroom, class 0 behind the others. -/
def State.admitted (s : State) (c : Nat) : List Admitted := s.admitQAt (2 * c) ++ s.admitQAt (2 * c + 1)

/-- SQ_OCC.OCC: results the stage has taken, and messages admitted whose context is not created yet. -/
def State.occupancy (s : State) (c : Nat) : Nat :=
  (s.admitted c).length + s.sq.results.countP fun w => w.taken.isSome && w.isFor c

/-- SQ_STATUS.OVERDRAW_FREE. -/
def State.overdrawFree (s : State) : Nat :=
  128 - ((s.sq.results.countP (·.taken == some true)) + (s.admitQ.foldl (fun a e => a + e.2.countP (·.overdraw)) 0))

/-- SQ_OCC.HELD. -/
def State.held (s : State) (c : Nat) : Bool :=
  !s.datapathOn || s.clState c != 2 || decide (s.inForce (Reg.SQ_SHARE c) Fld.SQ_SHARE_ENTRIES ≤ s.occupancy c)

/-! Default actions (R78, R552). -/

/-- A field of a port's ETH_DEFACT. -/
def State.defact (s : State) (p : Nat) (f : Fld) : Nat := s.inForce (Reg.ETH_DEFACT p) f

/-- Count a message as discarded by its port's action. -/
def countDiscard (p status : Nat) : M Unit :=
  count (if status = actFragment then Reg.ETH_CNT_FRAG_COUNT p else Reg.ETH_CNT_DEFACT_COUNT p)

/-- Whether the graph of a GRAPH action can run in a classroom (R552). -/
def State.graphRuns (s : State) (p c : Nat) : Bool :=
  match s.curTerm with
  | none => false
  | some t => decide (s.defact p Fld.ETH_DEFACT_DEF_GRAPH < (s.termsAt t).graphs) && s.clState c != 0

/-- The action a message takes in effect: 0 DISCARD, 1 HOST, 2 GRAPH, for a graph in classroom `c`. -/
def State.actionIn (s : State) (p status c : Nat) : Nat :=
  let a := s.defact p (if status = actFragment then Fld.ETH_DEFACT_FRAG_ACT else Fld.ETH_DEFACT_DEFAULT_ACT)
  if a = 1 then 1 else if a = 2 ∧ s.graphRuns p c then 2 else 0

/-- The same for a message that no context has: the graph runs in DEF_CLASSROOM. -/
def State.action (s : State) (p status : Nat) : Nat := s.actionIn p status (s.defact p Fld.ETH_DEFACT_DEF_CLASSROOM)

/-- Post a default-action notice; one that finds no room has acted as DISCARD (R78, R412). -/
def hostAction (p status stream seq : Nat) (ts : Word) (pres : List Byte) : M Unit := do
  let k ← rd (·.defact p Fld.ETH_DEFACT_MGR_Q)
  let posted ← postNotice k 0x80 (leBytes 2 status ++ leBytes 1 p ++ zeros 1 ++ leBytes 4 stream ++ leBytes 8 seq ++
    leBytes 8 ts.toNat ++ leBytes 4 pres.length ++ zeros 4 ++ pres)
  onlyIf (!posted) (countDiscard p status)

/-- The message a GRAPH action admits (R78). -/
def State.graphMsg (s : State) (m : MsgDesc) (slot c status : Nat) : MsgDesc :=
  { m with cls := s.defact m.port Fld.ETH_DEFACT_DEF_CLASS, classroom := c, graph := s.defact m.port Fld.ETH_DEFACT_DEF_GRAPH
           term := slot, epoch := (s.termsAt slot).epoch
           key := if m.sequenced then Word.ofNat m.stream else 0
           records := List.replicate 8 0xFFFF, status := some status }

/-- The frame of a message no longer stands in its port's receive buffer (R153). -/
def dropFrame (p : Nat) (w : Walk) : M Unit :=
  modPorts p fun q => { q with unseq := q.unseq.erase ⟨w.bytes, w.ts, true⟩ }

/-- A message has been admitted, or has taken its default action: FST and the port may forget it (R18, R153). -/
def msgDone (w : Walk) : M Unit :=
  match w.src with
  | .stream id q => rxDone id q
  | .unseq p => dropFrame p w
  | .recirc _ => pure ()

/-- A message takes an action that is no GRAPH: it is finished with. -/
def finishAction (w : Walk) (status kind : Nat) : M Unit := do
  if kind = 1 then hostAction w.port status w.strm w.seq w.ts w.bytes else countDiscard w.port status
  optRef (bufDrop none) w.buffer
  optRef termUnref w.term
  msgDone w

/-- A result as the GRAPH action makes it: the current Term replaces the walk's (R78). -/
def graphResult (w : Walk) (status : Nat) : M WalkDone := do
  let cur ← rd (·.curTerm)
  let slot := cur.getD 0
  optRef termUnref w.term
  termRef slot
  let c ← rd (·.defact w.port Fld.ETH_DEFACT_DEF_CLASSROOM)
  let m ← rd (·.graphMsg (w.result w.start) slot c status)
  let gen ← rd (·.clgen c)
  pure ⟨{ w with term := some slot }, .result m gen, none⟩

/-! Handing results on (R80, R153). -/

/-- Whether a result may leave its walker or hold queue now, for admission or for its default action. -/
def State.canLeave (s : State) (w : WalkDone) : Bool :=
  match w.out with
  | .result m _ => !s.held m.classroom || (s.datapathOn && decide (0 < s.overdrawFree))
  | .action st => s.action w.walk.port st != 2 || !s.held (s.defact w.walk.port Fld.ETH_DEFACT_DEF_CLASSROOM)

/-- Whether a result is acted on at once in STAGE and SAFE, ahead of what waits (R551). -/
def State.actsAtOnce (s : State) (w : WalkDone) : Bool :=
  match w.out with
  | .result _ _ => false
  | .action st => !s.datapathOn && s.action w.walk.port st != 2

/-- A result that may leave does so: to the stage, where it waits to be taken (R151), or to its default action. -/
def leave (w : WalkDone) : M Unit := do
  match w.out with
  | .result _ _ => modSq fun q => { q with results := q.results ++ [w] }
  | .action st => do
    let kind ← rd (·.action w.walk.port st)
    if kind = 2 then do
      let r ← graphResult w.walk st
      modSq fun q => { q with results := q.results ++ [r] }
    else finishAction w.walk st kind

/-- A held classroom's result has found the overdraw reserve empty (SQ_EVENT). -/
def noteOverdraw (w : WalkDone) : M Unit := do
  let empty ← rd fun s => s.datapathOn && s.overdrawFree = 0
  match w.out with
  | .result _ _ => onlyIf empty (sticky Reg.SQ_EVENT Fld.SQ_EVENT_OVERDRAW_EXHAUSTED 157)
  | .action _ => pure ()

/-- A walker hands its result on, to the hold queue behind earlier results of its source or while it is held, if there is
room (R153). -/
def handWalker (p : Nat) (k : Walker) : M Unit := do
  match k.out with
  | none => pure ()
  | some out => do
    let w : WalkDone := ⟨k.walk, out, none⟩
    let q ← rd (·.pipesAt p)
    let first := (q.walks.find? fun x => x.walk.src.same k.walk.src) == some k
    let behind := q.hold.any fun x => x.walk.src.same k.walk.src
    let once ← rd (·.actsAtOnce w)
    let can ← rd (·.canLeave w)
    if once || (first && !behind && can) then do
      modPipes p fun q => { q with walks := q.walks.erase k }
      leave w
    else onlyIf first do
      onlyIf (!can) (noteOverdraw w)
      onlyIf (q.hold.length < 256) do
        modPipes p fun q => { q with walks := q.walks.erase k, hold := q.hold ++ [w] }

/-- Hand on what a pipeline's walkers have finished, in starting order. -/
def handOn (p : Nat) : M Unit := do
  let q ← rd (·.pipesAt p)
  each q.walks (handWalker p)

/-- The messages that a pipeline's Detention has found in it are walked again on its replacement, once there is one: itself, if
it is the first to return (R82). -/
def pipeMove (p : Nat) : M Unit := do
  let q ← rd (·.pipesAt p)
  let target ← rd (·.servingPipe p)
  let cur ← rd (·.curTerm)
  match target with
  | none => pure ()
  | some r => do
    modPipes p fun q => { q with walks := [], hold := [] }
    each (q.hold.map (·.walk) ++ q.walks.map (·.walk)) fun w => do
      pgCount Reg.PG_CNT_REWALK r 1
      let term := if w.recirc then w.term else cur
      optRef termUnref w.term
      startWalk r w term

/-! The rows of spec/02 and spec/03. -/

/-- The message a stream hands over next: the first not handed over yet, if it is complete (R17). -/
def Stream.nextComplete (st : Stream) : Option RxMsg :=
  let next := ((List.range 64).map fun d => seqAdd st.n d).find? fun q =>
    !(st.held.any fun m => m.seq = q && (m.phase = .walking || m.phase = .done))
  match next with
  | none => none
  | some q => st.held.find? fun m => m.seq = q && m.phase = .complete

/-- The payload of a complete message: zeros where no segment covers it (R69). -/
def RxMsg.payload (m : RxMsg) : List Byte := m.segs.foldl (fun l g => patch l g.off g.data) (zeros m.msgLen)

/-- MESSAGE_HAND_OVER of a stream: its next message goes to a pipeline unless its classroom is held (R17, R79, R153). -/
def handStream (id : Nat) : M Unit := do
  let o ← rd (·.stream id)
  match o with
  | none => pure ()
  | some st => do
    let held ← rd (·.held st.classroom)
    let pipe ← rd (·.pipeFor (.stream id 0))
    match st.nextComplete, pipe with
    | some m, some p => onlyIf (!st.tx && !held) do
      let pres := m.hdr ++ m.payload
      let a ← rd (·.bufAddr m.buffer)
      store squareSource a pres
      modStream id fun st => { st with held := st.held.map fun x => if x.seq = m.seq then { x with phase := .walking, segs := [] } else x }
      let cur ← rd (·.curTerm)
      startWalk p { src := .stream id m.seq, port := st.port, term := none, epoch := 0, buffer := some m.buffer, bytes := pres,
                    hdrLen := m.hdr.length, ts := m.ts, classroom := some st.classroom, strm := id, visits := 0, mask := 0 } cur
    | _, _ => pure ()

/-- The oldest frame that no pipeline has is marked as handed over. -/
def markWalking : List UnseqFrame → List UnseqFrame
  | [] => []
  | f :: r => if f.walking then f :: markWalking r else { f with walking := true } :: r

/-- MESSAGE_HAND_OVER of a port: its oldest unsequenced frame goes to a pipeline (R44, R79). -/
def handFrame (port : Nat) : M Unit := do
  let q ← rd (·.portsAt port)
  let pipe ← rd (·.pipeFor (.unseq port))
  let on ← rd (·.fstOn)
  match q.unseq.find? fun f => !f.walking, pipe with
  | some f, some p => onlyIf on do
    modPorts port fun q => { q with unseq := markWalking q.unseq }
    let cur ← rd (·.curTerm)
    startWalk p { src := .unseq port, port := port, term := none, epoch := 0, buffer := none, bytes := f.bytes, hdrLen := 0
                  ts := f.ts, classroom := none, strm := 0, visits := 0, mask := 0 } cur
  | _, _ => pure ()

/-- MESSAGE_HAND_OVER (R17, R69, R79). -/
def execMessageHandOver (src : HandOver) (s : State) : Host.Outcome State Fault Refusal :=
  commit (match src with
    | .stream id => handStream id
    | .unseq p => handFrame p) s

/-- WALK_COMPLETE: walk `i` of a pipeline ends; its result is handed on, held, or sent to a default action (R80, R98). -/
def execWalkComplete (p i : Nat) (s : State) : Host.Outcome State Fault Refusal :=
  commit (do
    let q ← rd (·.pipesAt p)
    let up ← rd (·.pipeUp p)
    match q.walks[i]? with
    | none => pure ()
    | some k => onlyIf (up && decide (i < 32) && k.out.isNone) do
      let out ← walkOutcome p k.walk
      modPipes p fun q => { q with walks := listSet q.walks i ⟨k.walk, some out⟩ }
      handOn p) s

/-- HOLD_QUEUE_RELEASE: the first result of a hold queue that is the oldest of its source there and may leave does so, and
walkers that wait for its place follow (R153); in STAGE and SAFE one that takes a DISCARD or HOST action goes at once,
whatever stands before it (R551). -/
def execHoldQueueRelease (p : Nat) (s : State) : Host.Outcome State Fault Refusal :=
  commit (do
    let q ← rd (·.pipesAt p)
    let up ← rd (·.pipeUp p)
    let pick ← rd fun s => q.hold.find? fun w =>
      s.actsAtOnce w || ((q.hold.find? fun x => x.walk.src.same w.walk.src) == some w && s.canLeave w)
    match pick with
    | none => pure ()
    | some w => onlyIf up do
      modPipes p fun q => { q with hold := q.hold.erase w }
      leave w
      handOn p) s

/-! Admission (R151, R152). -/

/-- Whether the stage could take a result now, or has it: while its classroom is held, a result takes an entry of the overdraw
reserve, and the message of a GRAPH action waits (R153, R552). -/
def State.stageTakes (s : State) (w : WalkDone) : Bool := match w.out with
  | .result m _ => w.taken.isSome || (if m.status.isSome then !s.held m.classroom else s.canLeave w)
  | .action _ => s.canLeave w

/-- The entry that a result occupies from when the stage takes it: one of the overdraw reserve while its classroom is held
(R153). -/
def State.takenOver (s : State) (w : WalkDone) (m : MsgDesc) : Bool := w.taken.getD (s.held m.classroom)

/-- Whether a result is one of class 0. -/
def WalkDone.urgent (w : WalkDone) : Bool := match w.out with
  | .result m _ => m.cls = 0
  | .action _ => false

/-- Whether one waiting result must not be passed by another of its source: the results of one stream keep their order (R20),
and none passes a waiting GRAPH action. -/
def State.notPassed (s : State) (x w : WalkDone) : Bool :=
  x.walk.src.same w.walk.src && (w.walk.sequenced || !s.stageTakes x)

/-- The result the stage takes next: a class-0 one, else the one handed over first (R20, R151). -/
def State.nextResult (s : State) : Option WalkDone :=
  let ready := s.sq.results.filter fun w =>
    match s.sq.results.find? fun x => x == w || s.notPassed x w with
    | some x => x == w && s.stageTakes w
    | none => false
  (ready.find? (·.urgent)).orElse fun _ => ready.head?

/-- The checks of R152 step 1: generation (R97), class 0 and URGENT_OK (R113), class grant (R423). -/
def State.admissible (s : State) (m : MsgDesc) (gen : Nat) : Bool :=
  s.clgen m.classroom = gen && bitOf (s.grantLe m.classroom 12 1) m.cls &&
    (m.cls != 0 || bitOf (s.graph m.term m.graph).flags 0)

/-- Place a message in its classroom's admission queue with its ORDER (R152 steps 2 and 3). -/
def admitMsg (m : MsgDesc) (gen : Nat) (overdraw : Bool) (heir : Option (Nat × Nat)) : M Unit := do
  let n ← rd (·.sq.admitNext)
  modSq fun q => { q with admitNext := (n + 1) % 2 ^ 64 }
  modBufs (bufKey m.buffer) fun b => { b with owner := some m.classroom }
  modAdmitQ (2 * m.classroom + bit (m.cls = 0)) fun l => l ++ [⟨m, n, gen, overdraw, heir⟩]
  count Reg.SQ_CNT_ADMITTED

/-- A list with its first element equal to `w` replaced by others. -/
def replaceFirst {α : Type} [DecidableEq α] (w : α) (r : List α) : List α → List α
  | [] => []
  | x :: l => if x = w then r ++ l else x :: replaceFirst w r l

/-- The result `w` is taken from the admission stage, with what takes its place there. -/
def replaceResult (w : WalkDone) (r : List WalkDone) : M Unit :=
  modSq fun q => { q with results := replaceFirst w r q.results }

/-- A result fails the checks: its default action, at once or, for a GRAPH action, when its classroom admits (R97, R552). -/
def failResult (w : WalkDone) (m : MsgDesc) : M Unit := do
  match m.status with
  | some st => do
    replaceResult w []
    finishAction w.walk st 0
  | none => do
    let kind ← rd (·.action w.walk.port actParseFail)
    if kind = 2 then replaceResult w [⟨w.walk, .action actParseFail, none⟩]
    else do
      replaceResult w []
      finishAction w.walk actParseFail kind

/-- ADMIT (R151, R152): the stage takes a result, which occupies its entry from then on (R153), and admits it, once it has a
buffer.  Values of group SQ that wait for their safe point are in force from the first admission on (R154). -/
def execAdmit (s : State) : Host.Outcome State Fault Refusal :=
  commit (do
    let on ← rd (·.datapathOn)
    onlyIf (on && !s.sq.results.isEmpty) (reachSafe .sq)
    let next ← rd (·.nextResult)
    match next with
    | none => pure ()
    | some w => onlyIf on do
     match w.out with
      | .action st => do
        let kind ← rd (·.action w.walk.port st)
        if kind = 2 then do
          let r ← graphResult w.walk st
          replaceResult w [{ r with taken := some false }]
        else do
          replaceResult w []
          finishAction w.walk st kind
      | .result m gen => do
        let ok ← rd (·.admissible m gen)
        let extra ← rd (·.takenOver w m)
        if !ok then failResult w m
        else match w.walk.buffer with
          | some _ => do
            replaceResult w []
            admitMsg m gen extra none
            msgDone w.walk
          | none => do
            let pool ← rd (·.inForce Reg.FST_CFG Fld.FST_CFG_REASM_POOL)
            let free ← rd (·.poolPick (some m.classroom) pool w.walk.bytes.length)
            if free.isNone then replaceResult w [{ w with taken := some extra }]
            else do
              let h ← poolAlloc (some m.classroom) pool w.walk.bytes.length none
              let a ← rd (·.bufAddr (h.getD 0))
              store squareSource a w.walk.bytes
              replaceResult w []
              admitMsg { m with buffer := h.getD 0 } gen extra none
              msgDone w.walk) s

/-! Context creation (R107, R108, R114, R115, R139, R155, R156). -/

/-- Contexts a classroom holds. -/
def State.ctxsOf (s : State) (c : Nat) : Nat := s.ctxList.countP fun e => e.2.msg.classroom = c

/-- RC_STATUS.URGENT_CTX: class-0 contexts. -/
def State.urgentCtx (s : State) : Nat := s.ctxList.countP fun e => e.2.pinned

/-- Whether a free context id exists (R107). -/
def State.ctxFree (s : State) : Bool :=
  decide (s.rc.ctxNext < s.ctxTotal) || !s.rc.ctxFreed.isEmpty

/-- Whether R139 admits a class at this moment. -/
def State.reserveAdmits (s : State) (cls : Nat) : Bool :=
  let f := s.spillFree
  let reply := cls != 0 && bitOf (s.inForce Reg.RC_ADMIT Fld.RC_ADMIT_REPLY_CLASSES) cls
  (decide (s.reserve ≤ f) || (decide (s.floor ≤ f) && (cls = 0 || reply))) &&
    (cls != 0 || decide (s.urgentCtx < min 256 (max 1 (s.inForce Reg.RC_URGENT Fld.RC_URGENT_MAX_CTX))))

/-- The 16-byte descriptor of entry token `i` of a message's graph (R114). -/
def State.entryDesc (s : State) (m : MsgDesc) (i : Nat) : List Byte :=
  s.bytes ((s.termsAt m.term).base + (s.graph m.term m.graph).entryBase + 16 * i) 16

/-- How many entry tokens a message's graph has. -/
def State.entryCount (s : State) (m : MsgDesc) : Nat := min 16 (s.graph m.term m.graph).entryCount

/-- The value of an entry token, `none` for an absent one (R114, R115).  A LEN that the spec does not define gives a free
value. -/
def entryValue (x : Nat) (m : MsgDesc) (i : Nat) (d : List Byte) : M (Option Word) := do
  let imm := leAt d 0 8
  let record := m.records.getD (leAt d 11 1 % 8) 0xFFFF
  if i = 0 ∧ m.status.isSome then pure (m.status.map Word.ofNat)
  else match leAt d 10 1 with
    | 0 => pure (some (Word.ofNat imm))
    | 1 => pure (some m.key)
    | 2 => pure (some m.rxTs)
    | 3 => pure (some (Word.ofNat (m.buffer + m.msgLen * 2 ^ 32)))
    | 4 => pure (some (Word.ofNat record))
    | 5 => do
      let len := leAt d 12 1
      let off := record + leAt d 13 2
      if record = 0xFFFF ∨ m.payloadOff + m.msgLen < off + len then pure none
      else if 1 ≤ len ∧ len ≤ 8 then do
        let a ← rd (·.bufAddr m.buffer)
        let bs ← readData (a + off) len
        pure (some (Word.ofNat (ofBeBytes bs)))
      else do
        let k ← draw
        pure (some (Word.ofNat (Config.random k)))
    | 7 => do
      let dev ← rd (·.deviceId)
      pure (some (Word.ofNat (tagOf m.classroom x (imm % 4096) 0 + dev * 2 ^ 50)))
    | _ => pure none

/-- Inject entry token `i` of a context (R115). -/
def injectEntry (x : Nat) (m : MsgDesc) (i : Nat) : M Unit := do
  let d ← rd (·.entryDesc m i)
  let v ← entryValue x m i d
  let dest := leAt d 8 2
  let t ← rd (·.mkToken x (bitsOf dest 11 0) (bitsOf dest 13 12) 0 (v.getD 0) v.isNone)
  pushToken t

/-- The context id that creation takes. -/
def State.nextCtx (s : State) : Nat :=
  if s.rc.ctxNext < s.ctxTotal then s.rc.ctxNext else s.rc.ctxFreed.headD 0

/-- Whether the entry tokens of a message find room in their banks' queues (R134). -/
def State.entriesFit (s : State) (m : MsgDesc) : Bool :=
  let x := s.nextCtx
  s.roomFor ((List.range (s.entryCount m)).map fun i =>
    Token.mk 0 (tagOf m.classroom x (leAt (s.entryDesc m i) 8 2 % 4096) 0) 0 false (m.cls = 0) 0 0 false)

/-- Whether a context may be created for a message now (R107, R108, R139). -/
def State.mayCreate (s : State) (a : Admitted) : Bool :=
  let c := a.msg.classroom
  s.clState c = 2 && s.ctxFree && decide (s.ctxsOf c < s.grantLe c 24 4 % 2 ^ 25) &&
    decide (s.rc.store.length < storeSize) && s.reserveAdmits a.msg.cls

/-- The earlier of two messages in ORDER. -/
def earlier : Option Admitted → Admitted → Option Admitted
  | none, b => some b
  | some a, b => if b.order < a.order then some b else some a

/-- The message of one class in a classroom that is next. -/
def State.firstOf (s : State) (c cls : Nat) : Option Admitted :=
  ((s.admitted c).filter fun a => a.msg.cls = cls).foldl earlier none

/-- The message of a classroom that creation takes: the oldest that may be created. -/
def State.createFrom (s : State) (c : Nat) : Option Admitted :=
  (((List.range 8).filterMap fun k => s.firstOf c k).filter s.mayCreate).foldl earlier none

/-- The message creation takes next, and where the round robin stands then (R155). -/
def State.nextCreate (s : State) : Option (Admitted × Nat × Nat) :=
  let urgent := (((List.range 64).filterMap fun c => s.firstOf c 0).filter s.mayCreate).foldl earlier none
  match urgent with
  | some a => some (a, s.sq.wrrAt, s.sq.wrrLeft)
  | none =>
    let order := (List.range 64).map fun k => (s.sq.wrrAt + k) % 64
    match order.find? fun c => (s.createFrom c).isSome with
    | none => none
    | some c => (s.createFrom c).map fun a =>
      let turns := if c = s.sq.wrrAt ∧ 0 < s.sq.wrrLeft then s.sq.wrrLeft
        else max 1 (s.inForce (Reg.SQ_SHARE c) Fld.SQ_SHARE_WEIGHT)
      if turns = 1 then (a, (c + 1) % 64, 0) else (a, c, turns - 1)

/-- A list of the Crosswalk with a new entry: in the place of context `y` of generation `g`, if that is still there, else behind
all others. -/
def cwInherit (new : CwCtx) (y g : Nat) (l : List CwCtx) : List CwCtx :=
  if l.any (fun e => e.ctx = y && e.cgen = g) then
    l.map fun e => if e.ctx = y ∧ e.cgen = g then { e with ctx := new.ctx, cgen := new.cgen, clgen := new.clgen } else e
  else l ++ [new]

/-- A context's entry at the Crosswalk: behind all others, or in an abandoned context's place (R28, R156).  DESIGN CHOICE: one
whose place the Crosswalk has passed already stands behind all others (notes/assumptions/177.md). -/
def registerCw (x : Nat) (c : Ctx) (heir : Option (Nat × Nat)) : M Unit := do
  let now ← rd (·.monoNs)
  let new : CwCtx := ⟨x, c.cgen, c.clgen, c.msg.key, c.msg.classroom, c.msg.cls, c.order, false, [], now⟩
  match heir with
  | none => modCw (· ++ [new])
  | some (y, g) => modCw (cwInherit new y g)

/-- CONTEXT_CREATE (R155, R156): the message creation takes waits until its entry tokens find room (R134).  Values of group RC
that wait for their safe point are in force from the first admission on (R141). -/
def execContextCreate (s : State) : Host.Outcome State Fault Refusal :=
  commit (do
    let on ← rd (·.datapathOn)
    let some_ ← rd fun s => s.admitQ.any fun q => !q.2.isEmpty
    onlyIf (on && some_) (reachSafe .rc)
    let next ← rd (·.nextCreate)
    match next with
    | none => pure ()
    | some (a, at_, left) => do
     let fits ← rd (·.entriesFit a.msg)
     onlyIf (on && fits) do
      let x ← rd (·.nextCtx)
      let fresh ← rd fun s => decide (s.rc.ctxNext < s.ctxTotal)
      modRc fun r => if fresh then { r with ctxNext := r.ctxNext + 1 } else { r with ctxFreed := r.ctxFreed.drop 1 }
      modSq fun q => { q with wrrAt := at_, wrrLeft := left }
      modAdmitQ (2 * a.msg.classroom + bit (a.msg.cls = 0)) fun l => l.filter fun b => b.order != a.order
      let old ← rd (·.ctx x)
      let c : Ctx := { Ctx.zero with state := .active, cgen := old.cgen, clgen := a.clgen, pinned := a.msg.cls = 0
                                     order := a.order, msg := a.msg }
      emit (.ctxs x c)
      storeTake x
      count Reg.RC_CNT_CONTEXTS_CREATED
      registerCw x c a.heir
      let n ← rd (·.entryCount a.msg)
      each (List.range n) (injectEntry x a.msg)) s

/-! The end of an abandonment (R145). -/

/-- An abandoned context that was closed through FINAL or by its end holds its place again, while that has not been passed, for
the output of its default action (R28, R145). -/
def cwReopen (x cgen : Nat) : M Unit :=
  modCw fun l => l.map fun e => if e.ctx = x ∧ e.cgen = cgen then { e with closed := false } else e

/-- The context `x` gives up its place and becomes FREE. -/
def abandonEnd (x cgen : Nat) : M Unit := do
  cwClose x cgen
  freeCtx x

/-- ABANDON_FINISH: an ABANDONING context with no request outstanding, and no sealed RETIRE unfinished, takes its port's default action with RETRY and becomes
FREE; a message that is itself a default action's takes none (R145, R552), nor does a context of its classroom's old
generation, which is freed with the classroom's reset (R150). -/
def execAbandonFinish (x : Nat) (s : State) : Host.Outcome State Fault Refusal :=
  commit (do
    let c ← rd (·.ctx x)
    let on ← rd fun s => s.tenikUp && s.rollCallOn
    let m := c.msg
    let sealed ← rd fun s => (s.actsOf x).any fun e => e.2.place = .retiring
    let live ← rd fun s => s.clgen m.classroom == c.clgen
    onlyIf (on && live && c.state = .abandoning && c.reqs = 0 && !sealed) <|
      if m.status.isSome then abandonEnd x c.cgen
      else do
        let kind ← rd (·.actionIn m.port actRetry m.classroom)
        if kind = 1 then do
          let a ← rd (·.bufAddr m.buffer)
          let pres ← readData a (m.payloadOff + m.msgLen)
          hostAction m.port actRetry m.stream m.seq m.rxTs pres
          abandonEnd x c.cgen
        else if kind = 2 then do
          let held ← rd (·.held m.classroom)
          onlyIf (!held) do
            let slot ← rd fun s => s.curTerm.getD 0
            let g ← rd (·.graphMsg m slot m.classroom actRetry)
            let ok ← rd (·.admissible g c.clgen)
            if ok then do
              let _ ← bufAdd none m.buffer
              cwReopen x c.cgen
              termRef slot
              admitMsg g c.clgen false (some (x, c.cgen))
              freeCtx x
            else do
              countDiscard m.port actRetry
              abandonEnd x c.cgen
        else do
          countDiscard m.port actRetry
          abandonEnd x c.cgen) s

end Sys2Proof.Machine
end

