-- ==== Sys2Proof/Machine/Alu.lean ====
section
/-! DEFINITION. Arithmetic and logic (R234, R235). -/

namespace Sys2Proof.Machine

/-- Leading zero bits of a word, 0 to 64. -/
def leadingZeros (w : Word) : Nat := if w = 0 then 64 else 63 - Nat.log2 w.toNat

/-- A register ALU instruction, major 0x00 (R234): `rsv` is fn[10:6], `ok` what else must be zero. -/
def alu (t fn rd' ra rb rsv : Nat) (ok : Bool) (f : Thread → Word → Word → Thread) : M Unit :=
  issue t (wordA 0x00 rd' ra rb (rsv % 32 * 64 + fn)) (decide (rsv % 32 = 0) && ok) fun th =>
    finishNext t fun _ => f th (th.gr (ra % 32)) (th.gr (rb % 32))

/-- One that writes rd. -/
def aluTo (t fn rd' ra rb rsv : Nat) (ok : Bool) (f : Word → Word → Word) : M Unit :=
  alu t fn rd' ra rb rsv ok fun th a b => th.setG (rd' % 32) (f a b)

/-- ADD (R234). -/
def execAdd (t rd ra rb rsv : Nat) (s : State) : Host.Outcome State Fault Refusal :=
  commit (aluTo t 0x0 rd ra rb rsv true fun a b => a + b) s

/-- SUB (R234). -/
def execSub (t rd ra rb rsv : Nat) (s : State) : Host.Outcome State Fault Refusal :=
  commit (aluTo t 0x1 rd ra rb rsv true fun a b => a - b) s

/-- AND (R234). -/
def execAnd (t rd ra rb rsv : Nat) (s : State) : Host.Outcome State Fault Refusal :=
  commit (aluTo t 0x2 rd ra rb rsv true fun a b => a &&& b) s

/-- OR (R234). -/
def execOr (t rd ra rb rsv : Nat) (s : State) : Host.Outcome State Fault Refusal :=
  commit (aluTo t 0x3 rd ra rb rsv true fun a b => a ||| b) s

/-- XOR (R234). -/
def execXor (t rd ra rb rsv : Nat) (s : State) : Host.Outcome State Fault Refusal :=
  commit (aluTo t 0x4 rd ra rb rsv true fun a b => a ^^^ b) s

/-- ANDN (R234). -/
def execAndn (t rd ra rb rsv : Nat) (s : State) : Host.Outcome State Fault Refusal :=
  commit (aluTo t 0x5 rd ra rb rsv true fun a b => a &&& ~~~b) s

/-- SLL (R234). -/
def execSll (t rd ra rb rsv : Nat) (s : State) : Host.Outcome State Fault Refusal :=
  commit (aluTo t 0x6 rd ra rb rsv true fun a b => a <<< (b.toNat % 64)) s

/-- SRL (R234). -/
def execSrl (t rd ra rb rsv : Nat) (s : State) : Host.Outcome State Fault Refusal :=
  commit (aluTo t 0x7 rd ra rb rsv true fun a b => a >>> (b.toNat % 64)) s

/-- SRA (R234). -/
def execSra (t rd ra rb rsv : Nat) (s : State) : Host.Outcome State Fault Refusal :=
  commit (aluTo t 0x8 rd ra rb rsv true fun a b => a.sshiftRight (b.toNat % 64)) s

/-- ROR (R234). -/
def execRor (t rd ra rb rsv : Nat) (s : State) : Host.Outcome State Fault Refusal :=
  commit (aluTo t 0x9 rd ra rb rsv true fun a b => a.rotateRight (b.toNat % 64)) s

/-- MUL (R234). -/
def execMul (t rd ra rb rsv : Nat) (s : State) : Host.Outcome State Fault Refusal :=
  commit (aluTo t 0xa rd ra rb rsv true fun a b => a * b) s

/-- MULHU (R234). -/
def execMulhu (t rd ra rb rsv : Nat) (s : State) : Host.Outcome State Fault Refusal :=
  commit (aluTo t 0xb rd ra rb rsv true fun a b => Word.ofNat (a.toNat * b.toNat / 2 ^ 64)) s

/-- MULHS (R234). -/
def execMulhs (t rd ra rb rsv : Nat) (s : State) : Host.Outcome State Fault Refusal :=
  commit (aluTo t 0xc rd ra rb rsv true fun a b => wordOfInt (a.toInt * b.toInt / 2 ^ 64)) s

/-- MINU (R234). -/
def execMinu (t rd ra rb rsv : Nat) (s : State) : Host.Outcome State Fault Refusal :=
  commit (aluTo t 0xd rd ra rb rsv true fun a b => if a.ult b then a else b) s

/-- MAXU (R234). -/
def execMaxu (t rd ra rb rsv : Nat) (s : State) : Host.Outcome State Fault Refusal :=
  commit (aluTo t 0xe rd ra rb rsv true fun a b => if a.ult b then b else a) s

/-- MINS (R234). -/
def execMins (t rd ra rb rsv : Nat) (s : State) : Host.Outcome State Fault Refusal :=
  commit (aluTo t 0xf rd ra rb rsv true fun a b => if a.slt b then a else b) s

/-- MAXS (R234). -/
def execMaxs (t rd ra rb rsv : Nat) (s : State) : Host.Outcome State Fault Refusal :=
  commit (aluTo t 0x10 rd ra rb rsv true fun a b => if a.slt b then b else a) s

/-- CMP (R234): the flags; rd must be 0. -/
def execCmp (t rd ra rb rsv : Nat) (s : State) : Host.Outcome State Fault Refusal :=
  commit (alu t 0x11 rd ra rb rsv (decide (rd % 32 = 0)) fun th a b => { th with flags := th.flags.cmp a b }) s

/-- TST (R234): the flags; rd must be 0. -/
def execTst (t rd ra rb rsv : Nat) (s : State) : Host.Outcome State Fault Refusal :=
  commit (alu t 0x12 rd ra rb rsv (decide (rd % 32 = 0)) fun th a b => { th with flags := th.flags.tst a b }) s

/-- SEXTB (R234): rb must be 0. -/
def execSextb (t rd ra rb rsv : Nat) (s : State) : Host.Outcome State Fault Refusal :=
  commit (aluTo t 0x13 rd ra rb rsv (decide (rb % 32 = 0)) fun a _ => sextW 8 a.toNat) s

/-- SEXTH (R234): rb must be 0. -/
def execSexth (t rd ra rb rsv : Nat) (s : State) : Host.Outcome State Fault Refusal :=
  commit (aluTo t 0x14 rd ra rb rsv (decide (rb % 32 = 0)) fun a _ => sextW 16 a.toNat) s

/-- SEXTW (R234): rb must be 0. -/
def execSextw (t rd ra rb rsv : Nat) (s : State) : Host.Outcome State Fault Refusal :=
  commit (aluTo t 0x15 rd ra rb rsv (decide (rb % 32 = 0)) fun a _ => sextW 32 a.toNat) s

/-- CLZ (R234): rb must be 0. -/
def execClz (t rd ra rb rsv : Nat) (s : State) : Host.Outcome State Fault Refusal :=
  commit (aluTo t 0x16 rd ra rb rsv (decide (rb % 32 = 0)) fun a _ => Word.ofNat (leadingZeros a)) s

/-- POPC (R234): rb must be 0. -/
def execPopc (t rd ra rb rsv : Nat) (s : State) : Host.Outcome State Fault Refusal :=
  commit (aluTo t 0x17 rd ra rb rsv (decide (rb % 32 = 0)) fun a _ => Word.ofNat (popCount 64 a.toNat)) s

/-- BSWAP (R234): rb must be 0. -/
def execBswap (t rd ra rb rsv : Nat) (s : State) : Host.Outcome State Fault Refusal :=
  commit (aluTo t 0x18 rd ra rb rsv (decide (rb % 32 = 0)) fun a _ => Word.ofNat (ofBeBytes (leBytes 8 a.toNat))) s

/-- SELZ (R234). -/
def execSelz (t rd ra rb rsv : Nat) (s : State) : Host.Outcome State Fault Refusal :=
  commit (alu t 0x19 rd ra rb rsv true fun th a b => th.setG (rd % 32) (if th.flags.z then a else b)) s

/-- An immediate instruction, majors 0x01 to 0x05 (R235): `rsv` is sub. -/
def aluImm (t op rd' ra imm rsv : Nat) (ok : Bool) (f : Thread → Word → Thread) : M Unit :=
  issue t (wordI op rd' ra rsv imm) (decide (rsv % 4 = 0) && ok) fun th => finishNext t fun _ => f th (th.gr (ra % 32))

/-- ADDI (R235): rd = ra + sext(imm14). -/
def execAddi (t rd ra imm rsv : Nat) (s : State) : Host.Outcome State Fault Refusal :=
  commit (aluImm t 0x1 rd ra imm rsv true fun th a => th.setG (rd % 32) (a + sextW 14 imm)) s

/-- ANDI (R235): zero-extended. -/
def execAndi (t rd ra imm rsv : Nat) (s : State) : Host.Outcome State Fault Refusal :=
  commit (aluImm t 0x2 rd ra imm rsv true fun th a => th.setG (rd % 32) (a &&& Word.ofNat (imm % 2 ^ 14))) s

/-- ORI (R235): zero-extended. -/
def execOri (t rd ra imm rsv : Nat) (s : State) : Host.Outcome State Fault Refusal :=
  commit (aluImm t 0x3 rd ra imm rsv true fun th a => th.setG (rd % 32) (a ||| Word.ofNat (imm % 2 ^ 14))) s

/-- XORI (R235): zero-extended. -/
def execXori (t rd ra imm rsv : Nat) (s : State) : Host.Outcome State Fault Refusal :=
  commit (aluImm t 0x4 rd ra imm rsv true fun th a => th.setG (rd % 32) (a ^^^ Word.ofNat (imm % 2 ^ 14))) s

/-- CMPI (R235): rd must be 0. -/
def execCmpi (t rd ra imm rsv : Nat) (s : State) : Host.Outcome State Fault Refusal :=
  commit (aluImm t 0x5 rd ra imm rsv (decide (rd % 32 = 0)) fun th a => { th with flags := th.flags.cmp a (sextW 14 imm) }) s

/-- A shift by an immediate, major 0x06 (R235): `rsv` is imm14[13:6]. -/
def shiftImm (t sub rd' ra sh rsv : Nat) (f : Word → Nat → Word) : M Unit :=
  issue t (wordI 0x06 rd' ra sub (rsv % 256 * 64 + sh % 64)) (decide (rsv % 256 = 0)) fun th =>
    finishNext t fun _ => th.setG (rd' % 32) (f (th.gr (ra % 32)) (sh % 64))

/-- SLLI (R235). -/
def execSlli (t rd ra sh rsv : Nat) (s : State) : Host.Outcome State Fault Refusal :=
  commit (shiftImm t 0 rd ra sh rsv fun a n => a <<< n) s

/-- SRLI (R235). -/
def execSrli (t rd ra sh rsv : Nat) (s : State) : Host.Outcome State Fault Refusal :=
  commit (shiftImm t 1 rd ra sh rsv fun a n => a >>> n) s

/-- SRAI (R235). -/
def execSrai (t rd ra sh rsv : Nat) (s : State) : Host.Outcome State Fault Refusal :=
  commit (shiftImm t 2 rd ra sh rsv fun a n => a.sshiftRight n) s

/-- RORI (R235). -/
def execRori (t rd ra sh rsv : Nat) (s : State) : Host.Outcome State Fault Refusal :=
  commit (shiftImm t 3 rd ra sh rsv fun a n => a.rotateRight n) s

/-- MOVI (R235): `rsv` is rb[4:2]. -/
def execMovi (t rd h imm rsv : Nat) (s : State) : Host.Outcome State Fault Refusal :=
  commit (issue t (wordX 0x07 rd (rsv % 8 * 4 + h % 4) imm) (decide (rsv % 8 = 0)) fun th =>
    finishNext t fun _ => th.setG (rd % 32) (Word.ofNat (imm % 2 ^ 16 * 2 ^ (16 * (h % 4))))) s

/-- MOVK (R235): `rsv` is rb[4:2]. -/
def execMovk (t rd h imm rsv : Nat) (s : State) : Host.Outcome State Fault Refusal :=
  commit (issue t (wordX 0x08 rd (rsv % 8 * 4 + h % 4) imm) (decide (rsv % 8 = 0)) fun th =>
    finishNext t fun _ => th.setG (rd % 32) (Fld.set ⟨16 * (h % 4) + 15, 16 * (h % 4)⟩ (th.gr (rd % 32)) (imm % 2 ^ 16))) s

end Sys2Proof.Machine
end

