-- ==== Sys2Proof/Machine/Crosswalk.lean ====
section
/-! DEFINITION. What follows a seal, and the Crosswalk (spec/05 R175, R180 to R187): table writes, mirror record, tokens and
egress messages of a sealed journal; lanes and release. -/

namespace Sys2Proof.Machine

/-- A Crosswalk lane as a fenceable unit. -/
abbrev laneUnit (l : Nat) : UnitId := ⟨.lane, l⟩

/-- The home lane of a domain (R180). -/
def homeLane (key : Word) (classroom cls : Nat) : Nat :=
  crc32cSeed 0xFFFFFFFF (leBytes 8 key.toNat ++ leBytes 1 classroom ++ leBytes 1 cls) % 4

/-- The lane that serves a home lane: itself, or the first of the next three in service (R180). -/
def State.servingLane (s : State) (home : Nat) : Option Nat :=
  ((List.range 4).map fun k => (home + k) % 4).find? fun l => !(s.fenced (laneUnit l) || s.fencing (laneUnit l))

/-- Whether two contexts are of one ordering domain (R26). -/
def CwCtx.sameDomain (a b : CwCtx) : Bool := a.key = b.key && a.classroom = b.classroom && a.cls = b.cls

/-- The oldest context of a context's domain that is not closed and done. -/
def State.domainHead (s : State) (e : CwCtx) : Option CwCtx := s.cw.find? fun x => x.sameDomain e

/-- Whether a context is the oldest of its domain. -/
def State.heads (s : State) (e : CwCtx) : Bool := s.domainHead e == some e

/-- The lane a context's domain is with, unless its takeover is in progress (R186). -/
def State.laneOf (s : State) (e : CwCtx) : Option Nat :=
  let home := homeLane e.key e.classroom e.cls
  if bitOf (s.fld Reg.CW_STATUS Fld.CW_STATUS_LANE_MOVING) home then none else s.servingLane home

/-! After the seal (R175 steps 3 to 6). -/

/-- The tokens of a sealed journal (R174). -/
def sealedTokens (a : Act) (urgent : Bool) (j : Journal) : List Token :=
  j.tokens.map fun k =>
    ⟨if k.absent then 0 else k.value, tagOf (tagClass a.tag) a.ctx k.node k.iter, k.port, k.absent, urgent, a.cgen, a.clgen, false⟩

/-- A sealed egress message reaches the Crosswalk: its reference is made, and it takes its context's place; behind FINAL it is
dropped, and with an old generation it is discarded (R172, R183, R184). -/
def handEgress (a : Act) (live : Bool) (c : Ctx) (e : Egress) : M Unit := do
  let at_ ← rd fun s => s.cw.find? fun x => x.ctx = a.ctx && x.cgen = a.cgen
  match (if live then at_ else none) with
  | none => count (if live then Reg.CW_CNT_FINAL_DROP else Reg.CW_CNT_DISCARDED_GEN)
  | some x =>
    if x.closed then count Reg.CW_CNT_FINAL_DROP
    else do
      let held ← bufAdd (some (tagClass a.tag)) e.buffer
      let first ← rd (·.heads x)
      modCw fun l => l.map fun y =>
        if y == x then { y with msgs := y.msgs ++ [⟨e, c.msg, held, !first⟩] } else y

/-- Whether the Crosswalk's lists take more egress messages (R16). -/
def State.cwRoom (s : State) : Bool :=
  let n := s.cw.foldl (fun a e => a + e.msgs.length) 0
  n == 0 || decide (n < Config.crosswalkRoom)

/-- RETIRE_APPLY: everything behind the seal of activation record `i` (R175). -/
def execRetireApply (i : Nat) (s : State) : Host.Outcome State Fault Refusal :=
  commit (do
    let r ← rd (·.actsAt i)
    match r with
    | none => pure ()
    | some a => match a.sealed with
      | none => pure ()
      | some (j, time, order) => do
        let c ← rd (·.ctx a.ctx)
        let classroom := tagClass a.tag
        let live ← rd fun s => c.cgen == a.cgen && c.state != .free && s.clgen classroom == a.clgen
        let toks := sealedTokens a c.pinned j
        let room ← rd fun s => s.roomFor toks && s.mirrorRoom && decide (modeStage ≤ s.mode) && (j.outs.isEmpty || s.cwRoom) &&
          s.writesFree j.writes
        onlyIf room (quiet do
          each j.writes fun w => do
            let mine ← rd fun s => (s.table w.table).valid && (s.table w.table).classroom == classroom
            onlyIf mine (count Reg.SQ_CNT_JWR_APPLIED)
            applyWrite classroom w
          mirrorJournal a.ctx order time classroom a.clgen j
          each toks pushToken
          each j.outs (handEgress a live c)
          onlyIf (live && j.outs.any fun e => bitOf e.flags 1) (cwClose a.ctx a.cgen)
          actRelease i)) s

/-! Release (R172, R173, R182, R185). -/

/-- Whether a message's way out is open (R16, R182): a recirculated one needs a walker (R173), a raw frame room in its port's
queue (R49), a stream's message room at the stream's release.  What is to be discarded needs no room. -/
def State.outOpen (s : State) (m : CwMsg) : Bool :=
  if !m.held then true
  else if !bitOf m.e.flags 0 then s.streamRoom m.e.stream
  else if m.e.port = 8 then (s.pipeFor (.recirc m.src.port)).isSome
  else s.fenced (groupOf m.e.port) || s.qRoom m.e.port (if m.src.cls = 0 then 0 else 2)

/-- Whether a context is of a classroom generation that has ended: its messages are discarded at the Crosswalk (R184, R433). -/
def State.oldLife (s : State) (e : CwCtx) : Bool := s.clgen e.classroom != e.clgen

/-- The messages a lane may release now, in admission order (R182). -/
def State.releasable (s : State) (l : Nat) : List (CwCtx × CwMsg) :=
  s.cw.filterMap fun e => match e.msgs with
    | [] => none
    | m :: _ => if s.laneOf e = some l ∧ s.heads e ∧ (s.oldLife e || s.outOpen m) then some (e, m) else none

/-- A message is walked again (R101, R173): with the Term it was stamped with, while that is still resident. -/
def recirculate (m : CwMsg) : M Unit := do
  let a ← rd (·.bufAddr m.e.buffer)
  let bs ← readData (a + m.e.off) m.e.len
  bufDrop none m.e.buffer
  let pipe ← rd (·.pipeFor (.recirc m.src.port))
  let term ← rd fun s =>
    let t := s.termsAt m.src.term
    if t.state != .empty && t.state != .loading && t.epoch = m.src.epoch then some m.src.term else none
  count Reg.CW_CNT_RECIRCULATED
  each pipe.toList fun p =>
    startWalk p { src := .recirc m.src.port, port := m.src.port, term := none, epoch := 0, buffer := none, bytes := bs
                  hdrLen := 0, ts := m.src.rxTs, classroom := some m.src.classroom, strm := m.src.stream, visits := 0
                  mask := 0 } term

/-- A raw frame goes to its port's queue: Q0 for a class-0 context, else Q2 (R46, R172). -/
def releaseRaw (m : CwMsg) : M Unit := do
  let a ← rd (·.bufAddr m.e.buffer)
  let bs ← readData (a + m.e.off) m.e.len
  let one := bitOf m.e.flags 3
  let ok ← portPush m.e.port (if m.src.cls = 0 then 0 else 2)
    ⟨bs, if bitOf m.e.flags 2 && !one then some m.e.tsTag else none, if one then some m.e.tsOff else none, some m.e.buffer,
      none, false, none⟩
  onlyIf (!ok) (bufDrop none m.e.buffer)

/-- What becomes of a released message (R172, R367). -/
def releaseMsg (m : CwMsg) : M Unit := do
  let raw := bitOf m.e.flags 0
  let there ← rd (·.portExists m.e.port)
  let lenOk := decide (1 ≤ m.e.len ∧ m.e.len ≤ 65536)
  if !m.held then count Reg.BP_CNT_REF_SAT_DROP
  else if !lenOk || (raw && m.e.port != 8 && !(decide (m.e.port < 8) && there)) then do
    count Reg.CW_CNT_FINAL_DROP
    bufDrop none m.e.buffer
  else do
    count Reg.CW_CNT_RELEASED
    onlyIf (m.src.cls = 0) (count Reg.CW_CNT_RELEASED_URGENT)
    onlyIf m.waited (count Reg.CW_CNT_HELD)
    if !raw then streamRelease m.e.stream m.src.classroom m.e (m.src.cls = 0)
    else if m.e.port = 8 then recirculate m
    else releaseRaw m

/-- An egress message of an ended generation is discarded (R184). -/
def discardMsg (m : CwMsg) : M Unit := do
  count Reg.CW_CNT_DISCARDED_GEN
  onlyIf m.held (bufDrop none m.e.buffer)

/-- MESSAGE_RELEASE: lane `l` releases its next message, class 0 first (R182, R185); one of an ended generation is discarded in
its place (R433). -/
def execMessageRelease (l : Nat) (s : State) : Host.Outcome State Fault Refusal :=
  commit (do
    let on ← rd (·.datapathOn)
    let ready ← rd (·.releasable l)
    match (ready.find? fun p => p.2.src.cls = 0).orElse fun _ => ready.head? with
    | none => pure ()
    | some (e, m) => onlyIf on do
      let old ← rd (·.oldLife e)
      modCw fun l => cwClean (l.map fun x => if x == e then { x with msgs := x.msgs.drop 1 } else x)
      if old then discardMsg m else releaseMsg m) s

/-- LANE_TAKEOVER_END: the domains of lane `l` are with the lane that now serves them (R186). -/
def execLaneTakeoverEnd (l : Nat) (s : State) : Host.Outcome State Fault Refusal :=
  commit (do
    let moving ← rd (·.fld Reg.CW_STATUS Fld.CW_STATUS_LANE_MOVING)
    onlyIf (decide (l < 4) && moving.testBit l) (setFld Reg.CW_STATUS Fld.CW_STATUS_LANE_MOVING (setBit moving l false))) s

/-- The first context of a lane that alone holds back a younger one's message: it is unclosed with nothing of its own left to
release, and every context between them is closed and done (R182, R187). -/
def State.holding (s : State) (l : Nat) : Option CwCtx :=
  s.cw.find? fun e => s.laneOf e = some l && !e.closed && e.msgs.isEmpty && s.heads e &&
    (((s.cw.filter fun y => y.sameDomain e && y != e).find? fun y => !(y.closed && y.msgs.isEmpty)).any fun y =>
      !y.msgs.isEmpty)

/-- CROSSWALK_HOLD: such a context has been unclosed for HOLD_US (R187). -/
def execCrosswalkHold (l : Nat) (s : State) : Host.Outcome State Fault Refusal :=
  commit (do
    let en ← rd (·.inForce Reg.CW_CFG Fld.CW_CFG_HOLD_EN)
    let us ← rd fun s => max 1 (s.inForce Reg.CW_CFG Fld.CW_CFG_HOLD_US)
    let old ← rd (·.fld (Reg.CW_LANE l) Fld.CW_LANE_HOLD)
    let h ← rd (·.holding l)
    let now ← rd (·.monoNs)
    match h with
    | none => pure ()
    | some e => onlyIf (decide (l < 4) && en = 1 && old = 0 && decide (us ≤ (now - e.since) / 1000)) do
      setFld (Reg.CW_HOLD_INFO l) Fld.CW_HOLD_INFO_CONTEXT e.ctx
      setFld (Reg.CW_HOLD_INFO l) Fld.CW_HOLD_INFO_CLASSROOM e.classroom
      setFld (Reg.CW_HOLD_INFO l) Fld.CW_HOLD_INFO_HELD_US ((now - e.since) / 1000)
      sticky (Reg.CW_LANE l) Fld.CW_LANE_HOLD (133 + l)) s

end Sys2Proof.Machine
end

