-- ==== Sys2Proof/Machine/DramWait.lean ====
section
/-! DEFINITION. What waits at a DRAM channel until it answers (R345, R355): early writes, and AtomicOps of the host (R392). -/

namespace Sys2Proof.Machine

/-- What an AtomicOp leaves of the operand's old value. -/
def atomicNew (k : AtomicKind) (n old a b : Nat) : Nat :=
  match k with
  | .fetchAdd => (old + a) % 2 ^ (8 * n)
  | .swap => a % 2 ^ (8 * n)
  | .cas => if old = a % 2 ^ (8 * n) then b % 2 ^ (8 * n) else old

/-- An AtomicOp takes effect at a DRAM address: the value read is returned, and the new one stored, except where data cannot be
read (R347, R392). -/
def atomicNow (a : Nat) (x : Atomic) : M Unit := do
  let bad ← rd (·.anyBad a x.size)
  let old ← rd fun s => ofLeBytes (s.seen a x.size)
  touch 151 a x.size false
  if bad then do
    reportBads a x.size
    send (.readData (zeros x.size) true)
  else do
    onlyIf (x.kind != .cas || old == x.a % 2 ^ (8 * x.size))
      (store 151 a (leBytes x.size (atomicNew x.kind x.size old x.a x.b)))
    send (.readData (leBytes x.size old) false)

/-- An AtomicOp at a DRAM address: it waits while its channel answers no requests; a stripe region stores nothing and
returns 0 (R345, R355, R388, R392). -/
def atomicAt (a : Nat) (x : Atomic) : M Unit := do
  let r ← rd (·.region a)
  let shut ← rd (·.inStripe a)
  let late ← rd fun s => (s.dramChan a).filter fun n => !s.ddrAnswers n || !(s.ddrsAt n).early.isEmpty
  if r != .dram || shut then send (.readData (zeros x.size) false)
  else match late with
    | some n => addEarly n ⟨a, [], 151, some x⟩
    | none => atomicNow a x

/-- What has waited at a channel takes effect, oldest first (R345, R355). -/
def runEarly (n : Nat) : M Unit := do
  let d ← rd (·.ddrsAt n)
  emit (.ddrs n { d with early := [] })
  each d.early fun e => match e.atomic with
    | some x => atomicNow e.addr x
    | none => putLine e.who e.addr e.bytes

/-- What waits at a channel that is fenced ends: a write is discarded, an AtomicOp returns poisoned data (R356). -/
def dropEarly (n : Nat) : M Unit := do
  let d ← rd (·.ddrsAt n)
  emit (.ddrs n { d with early := [] })
  each (d.early.filterMap (·.atomic)) fun x => send (.readData (zeros x.size) true)

/-- DDR_RUNG_EXIT: a channel below D0 is back in D0; nothing is owed after self-refresh (R355). -/
def execDdrRungExit (n : Nat) (s : State) : Host.Outcome State Fault Refusal :=
  commit (do
    let act ← rd (·.fld (Reg.DDR_STATUS n) Fld.DDR_STATUS_RUNG_ACT)
    let d ← rd (·.ddrsAt n)
    onlyIf (decide (n < 8 ∧ 0 < act) && d.waking) do
      setFld (Reg.DDR_STATUS n) Fld.DDR_STATUS_RUNG_ACT 0
      modDdrs n fun d => { d with waking := false, owed := if 2 ≤ act then [] else d.owed }
      runEarly n) s

end Sys2Proof.Machine
end

