-- ==== Sys2Proof/Machine/HelperFn.lean ====
section
/-! DEFINITION. What each helper function makes of its descriptor and its source bytes (R272 to R285). -/

namespace Sys2Proof.Machine

/-! Error codes (R272). -/

abbrev hMemUncorr : Nat := 1
abbrev hOverflow : Nat := 2
abbrev hInexact : Nat := 3
abbrev hFormat : Nat := 4
abbrev hRange : Nat := 5
abbrev hUnitFenced : Nat := 6

/-- What a function produces: the error code (0 on success), OUT if the function gives it, the destination bytes written,
and what it writes into its descriptor at an offset. -/
structure HelperOut where
  code : Nat
  out : Option Nat
  dst : List Byte
  desc : List (Nat × List Byte)
  deriving DecidableEq, Repr

/-- A success. -/
def hOk (out : Option Nat) (dst : List Byte) (desc : List (Nat × List Byte)) : HelperOut := ⟨0, out, dst, desc⟩

/-- A failure that had produced `dst`: only whole 64-byte units of it have been written (R271). -/
def hFail (code : Nat) (dst : List Byte) : HelperOut := ⟨code, none, dst.take (dst.length / 64 * 64), []⟩

/-- The outcome of a computation that may fail. -/
def hOf (r : Except Nat HelperOut) : HelperOut := match r with
  | .ok o => o
  | .error e => hFail e []

/-! Characters. -/

/-- The value of an ASCII hexadecimal character. -/
def hexVal (b : Nat) : Option Nat :=
  if 0x30 ≤ b ∧ b ≤ 0x39 then some (b - 0x30)
  else if 0x41 ≤ b ∧ b ≤ 0x46 then some (b - 0x37)
  else if 0x61 ≤ b ∧ b ≤ 0x66 then some (b - 0x57)
  else none

/-- The value of an ASCII decimal digit. -/
def decVal (b : Nat) : Option Nat := if 0x30 ≤ b ∧ b ≤ 0x39 then some (b - 0x30) else none

/-- The value of a BCD digit. -/
def bcdVal (b : Nat) : Option Nat := if b ≤ 9 then some b else none

/-- A number read from its digits, most significant first. -/
def digitsVal (base : Nat) (f : Nat → Option Nat) (ds : List Nat) : Option Nat :=
  ds.foldl (fun a d => do
    let a ← a
    let v ← f d
    pure (a * base + v)) (some 0)

/-- The nibbles of some bytes, most significant first. -/
def nibbles (bs : List Byte) : List Nat := bs.flatMap fun b => [b.toNat / 16, b.toNat % 16]

/-- The `n` decimal digits of a number, most significant first. -/
def decDigits : Nat → Nat → List Nat
  | 0, _ => []
  | n + 1, v => decDigits n (v / 10) ++ [v % 10]

/-- Nibbles packed two a byte. -/
def packNibbles : List Nat → List Byte
  | a :: b :: r => BitVec.ofNat 8 (a * 16 + b) :: packNibbles r
  | [a] => [BitVec.ofNat 8 (a * 16)]
  | [] => []

/-! Bitmaps (R273). -/

/-- Bytes of one bitmap in an encoding. -/
def mapLen (enc : Nat) : Nat := if enc = 0 then 8 else 16

/-- One bitmap, its first bit the most significant. -/
def readMap (enc off : Nat) (src : List Byte) : Except Nat Nat :=
  if src.length < off + mapLen enc then .error hRange
  else if enc = 0 then .ok (beAt src off 8)
  else match digitsVal 16 hexVal ((slice src off 16).map BitVec.toNat) with
    | some v => .ok v
    | none => .error hFormat

/-- A bitmap turned over: bit `i` of the result is the bitmap's bit `i + 1`. -/
def revMap (v : Nat) : Nat := (List.range 64).foldl (fun a i => a + bit (bitOf v (63 - i)) * 2 ^ i) 0

/-- The presence mask and the bytes the bitmaps take (R273). -/
def readMaps (enc : Nat) (src : List Byte) : Except Nat (Nat × Nat) := do
  let p ← readMap enc 0 src
  if bitOf p 63 then do
    let q ← readMap enc (mapLen enc) src
    pure (revMap p + revMap q * 2 ^ 64, 2 * mapLen enc)
  else pure (revMap p, mapLen enc)

/-- FX.BITMAP. -/
def fxBitmapFn (d src : List Byte) : HelperOut :=
  hOf do
    let (m, n) ← readMaps (byteAt d 8) src
    pure (hOk (some n) (leBytes 16 m) [])

/-! FX.ISO (R274). -/

/-- The word of a result: offset and length of the data, or the absence (R274, R275). -/
def fxWord (r : Option (Nat × Nat)) : List Byte :=
  match r with
  | some (off, len) => leBytes 2 off ++ leBytes 2 len
  | none => leBytes 4 0xFFFFFFFF

/-- How many bytes a length counted in UNIT takes. -/
def unitBytes (unit n : Nat) : Nat :=
  match unit with
  | 1 => ceilDiv n 2
  | 3 => ceilDiv n 8
  | _ => n

/-- Bytes of the prefix of a KIND. -/
def prefixLen (kind : Nat) : Nat :=
  match kind with
  | 1 => 1 | 2 => 2 | 3 => 2 | 4 => 3 | 5 => 1 | 6 => 2
  | _ => 0

/-- The length a prefix spells. -/
def prefixVal (kind maxLen : Nat) (bs : List Byte) : Option Nat :=
  match kind with
  | 0 => some maxLen
  | 1 | 2 => digitsVal 10 bcdVal (nibbles bs)
  | 3 | 4 => digitsVal 10 decVal (bs.map BitVec.toNat)
  | 5 | 6 => some (ofBeBytes bs)
  | _ => none

/-- One present element at an offset: where its data begins and how long it is. -/
def isoElement (entry off : Nat) (src : List Byte) : Except Nat (Nat × Nat) :=
  let kind := bitsOf entry 3 0
  let maxLen := bitsOf entry 23 8
  let p := prefixLen kind
  if kind = 7 then .error hFormat
  else if src.length < off + p then .error hRange
  else match prefixVal kind maxLen (slice src off p) with
    | none => .error hFormat
    | some n =>
      if maxLen < n then .error hFormat
      else
        let len := unitBytes (bitsOf entry 7 4) n
        if src.length < off + p + len then .error hRange else .ok (off + p, len)

/-- The walk over elements `n` on, `k` of them, with what it has produced: the results and how many were present. -/
def isoWalk (mask select : Nat) (spec src : List Byte) : Nat → Nat → Nat → List Byte → Nat → HelperOut
  | 0, _, _, acc, found => hOk (some found) acc []
  | k + 1, n, off, acc, found =>
    let sel := bitOf select (n - 1)
    if bitOf mask (n - 1) then
      match isoElement (leAt spec (4 * (n - 1)) 4) off src with
      | .error e => hFail e acc
      | .ok (o, len) =>
        isoWalk mask select spec src k (n + 1) (o + len) (if sel then acc ++ fxWord (some (o, len)) else acc)
          (found + bit sel)
    else isoWalk mask select spec src k (n + 1) off (if sel then acc ++ fxWord none else acc) found

/-- The highest selected element, 0 for none. -/
def highest (select : Nat) : Nat := (List.range 128).foldl (fun a i => if bitOf select i then i + 1 else a) 0

/-- FX.ISO.  The walk begins behind the primary bitmap: element 1 is the secondary bitmap itself. -/
def fxIsoFn (d spec src : List Byte) : HelperOut :=
  let select := leAt d 16 16
  match readMaps (byteAt d 8) src with
  | .error e => hFail e []
  | .ok (m, _) => isoWalk m select spec src (highest select) 1 (mapLen (byteAt d 8)) [] 0

/-! FX.TLV (R275). -/

/-- A tag at an offset: its value and its length in bytes. -/
def tlvTag (off : Nat) (src : List Byte) : Except Nat (Nat × Nat) :=
  let b := byteAt src off
  if b % 32 < 31 then .ok (b, 1)
  else if src.length < off + 2 then .error hRange
  else if byteAt src (off + 1) < 128 then .ok (beAt src off 2, 2)
  else if src.length < off + 3 then .error hRange
  else if byteAt src (off + 2) < 128 then .ok (beAt src off 3, 3)
  else .error hFormat

/-- A length at an offset: its value and how many bytes it takes. -/
def tlvLen (off : Nat) (src : List Byte) : Except Nat (Nat × Nat) :=
  if src.length < off + 1 then .error hRange
  else
    let b := byteAt src off
    if b < 0x80 then .ok (b, 1)
    else if b = 0x81 then (if src.length < off + 2 then .error hRange else .ok (beAt src (off + 1) 1, 2))
    else if b = 0x82 then (if src.length < off + 3 then .error hRange else .ok (beAt src (off + 1) 2, 3))
    else .error hFormat

/-- The walk: every tag met, with the offset and length of its value, in order. -/
def tlvWalk (descend : Bool) (src : List Byte) : Nat → Nat → Except Nat (List (Nat × Nat × Nat))
  | 0, _ => .ok []
  | fuel + 1, off =>
    if src.length ≤ off then .ok []
    else if byteAt src off = 0 ∨ byteAt src off = 0xFF then tlvWalk descend src fuel (off + 1)
    else do
      let (tag, tl) ← tlvTag off src
      let (len, ll) ← tlvLen (off + tl) src
      let v := off + tl + ll
      if src.length < v + len then .error hRange
      else do
        let rest ← tlvWalk descend src fuel (if descend && bitOf (byteAt src off) 5 then v else v + len)
        pure ((tag, v, len) :: rest)

/-- FX.TLV. -/
def fxTlvFn (d src : List Byte) : HelperOut :=
  hOf do
    let seen ← tlvWalk (bitOf (byteAt d 9) 0) src src.length 0
    let found := (List.range (byteAt d 8)).map fun i =>
      (seen.find? fun e => e.1 = leAt d (16 + 4 * i) 4 % 2 ^ 24).map Prod.snd
    pure (hOk (some (found.countP Option.isSome)) (found.flatMap fxWord) [])

/-! FX.FIELDS (R276). -/

/-- The largest LEN of a conversion; 0 for a CONV that is not handled. -/
def convMax (conv : Nat) : Nat :=
  match conv with
  | 0 | 1 | 5 => 8 | 2 => 10 | 3 => 20 | 4 => 16
  | _ => 0

/-- A field's value. -/
def convVal (conv : Nat) (bs : List Byte) : Except Nat Nat :=
  let v := match conv with
    | 0 => some (ofBeBytes bs)
    | 1 | 5 => some (ofLeBytes bs)
    | 2 => digitsVal 10 bcdVal (nibbles bs)
    | 3 => digitsVal 10 decVal (bs.map BitVec.toNat)
    | _ => digitsVal 16 hexVal (bs.map BitVec.toNat)
  match v with
  | none => .error hFormat
  | some n => if 2 ^ 64 ≤ n then .error hOverflow else .ok n

/-- The items from `i` on. -/
def fieldsWalk (d src : List Byte) : Nat → Nat → List Byte → HelperOut
  | 0, i, acc => hOk (some i) acc []
  | k + 1, i, acc =>
    let off := leAt d (16 + 8 * i) 2
    let len := leAt d (18 + 8 * i) 1
    if src.length < off + len then hFail hRange acc
    else match convVal (leAt d (19 + 8 * i) 1 % 16) (slice src off len) with
      | .error e => hFail e acc
      | .ok v => fieldsWalk d src k (i + 1) (acc ++ leBytes 8 v)

/-- FX.FIELDS. -/
def fxFieldsFn (d src : List Byte) : HelperOut := fieldsWalk d src (byteAt d 8) 0 []

/-! DX: decimal arithmetic (R277 to R279). -/

/-- A decimal number: c × 10^−s, the scale of an exact result possibly negative. -/
structure Dec where
  c : Int
  s : Int
  deriving DecidableEq, Repr

/-- The largest magnitude of a coefficient. -/
def decMax : Nat := 10 ^ 34 - 1

/-- An operand (R277); `none` for one that breaks the format. -/
def decRead (bs : List Byte) : Option Dec :=
  let c := signedOf 120 (leAt bs 0 15)
  let s := byteAt bs 15
  if decMax < c.natAbs ∨ 38 < s then none else some ⟨c, s⟩

/-- The bytes of a DEC128. -/
def decBytes (c : Int) (s : Nat) : List Byte := leBytes 15 ((c % (2 ^ 120 : Int)).toNat) ++ leBytes 1 s

/-- Whether a quotient is moved away from zero: the rule of a rounding mode for a number of sign `neg` whose kept magnitude
is `q` and whose discarded part is `r` out of `m` (R278). -/
def roundsUp (mode : Nat) (neg : Bool) (q r m : Nat) : Bool :=
  match mode with
  | 0 => decide (m < 2 * r) || (decide (2 * r = m) && decide (q % 2 = 1))
  | 1 => decide (m ≤ 2 * r)
  | 2 => decide (m < 2 * r)
  | 3 => false
  | 4 => decide (0 < r)
  | 5 => neg && decide (0 < r)
  | 6 => !neg && decide (0 < r)
  | _ => false

/-- An exact result rounded once to a scale: its coefficient, and whether a nonzero digit was discarded (R279). -/
def decRound (mode : Nat) (x : Dec) (ts : Nat) : Except Nat (Int × Bool) :=
  let up := ((ts : Int) - x.s).toNat
  let down := (x.s - (ts : Int)).toNat
  let a := x.c.natAbs * 10 ^ up
  let m := 10 ^ down
  let neg := decide (x.c < 0)
  let q := a / m
  let r := a % m
  let q' := if roundsUp mode neg q r m then q + 1 else q
  if mode = 7 ∧ 0 < r then .error hInexact
  else if decMax < q' then .error hOverflow
  else .ok (if neg then -(q' : Int) else q', decide (0 < r))

/-- Two numbers brought to one scale. -/
def decAlign (a b : Dec) : Int × Int × Int :=
  let s := max a.s b.s
  (a.c * 10 ^ (s - a.s).toNat, b.c * 10 ^ (s - b.s).toNat, s)

/-- The exact result of a function with two DEC128 operands, and its natural scale (table "DX functions"). -/
def decExact (fn : Nat) (d : List Byte) (a b : Dec) : Dec × Nat :=
  let (x, y, s) := decAlign a b
  match fn with
  | 0 => (⟨x + y, s⟩, s.toNat)
  | 1 => (⟨x - y, s⟩, s.toNat)
  | 2 => (⟨a.c * b.c, a.s + b.s⟩, min (a.s + b.s).toNat 38)
  | 3 => (a, a.s.toNat)
  | 4 => (⟨a.c * b.c, a.s + b.s - ((byteAt d 11 : Int) - byteAt d 10)⟩, 0)
  | _ => (⟨if x < y then -1 else if y < x then 1 else 0, 0⟩, 0)

/-- The target scale: TSCALE, or the natural one for 0xFF. -/
def decTarget (d : List Byte) (natural : Nat) : Nat := if byteAt d 9 = 0xFF then natural else byteAt d 9

/-- A result rounded and written. -/
def decFinish (d : List Byte) (x : Dec) (natural : Nat) : HelperOut :=
  hOf do
    let ts := decTarget d natural
    let (c, inexact) ← decRound (byteAt d 8 % 8) x ts
    pure (hOk (some (bit inexact)) [] [(16, decBytes c ts)])

/-- DX.ADD, SUB, MUL, RESCALE, CCY and CMP. -/
def dxFn (fn : Nat) (d a b : List Byte) : HelperOut :=
  match decRead a, (if fn = 3 then some ⟨0, 0⟩ else decRead b) with
  | some x, some y =>
    let (e, n) := decExact fn d x y
    decFinish d e n
  | _, _ => hFail hFormat []

/-- Bytes that `n` digits take in an encoding. -/
def digitBytes (enc n : Nat) : Nat := match enc with
  | 0 => n
  | 1 => ceilDiv n 2
  | _ => ceilDiv (n + 1) 2

/-- The digits of a source in an encoding, with its sign (R277); a packed number of odd length begins with a zero nibble. -/
def readDigits (enc n : Nat) (src : List Byte) : Option Int :=
  match enc with
  | 0 => (digitsVal 10 decVal (src.map BitVec.toNat)).map Int.ofNat
  | 1 =>
    let ns := nibbles src
    if ns.length = n + 1 ∧ ns.headD 0 ≠ 0 then none else (digitsVal 10 bcdVal ns).map Int.ofNat
  | _ =>
    let ns := nibbles src
    let ds := ns.dropLast
    if ds.length = n + 1 ∧ ds.headD 0 ≠ 0 then none
    else match ns.getLast?, digitsVal 10 bcdVal ds with
      | some 0xC, some v => some v
      | some 0xD, some v => some (-(v : Int))
      | _, _ => none

/-- DX.PARSE. -/
def dxParseFn (d src : List Byte) : HelperOut :=
  match readDigits (byteAt d 12) (leAt d 4 4) src with
  | none => hFail hFormat []
  | some v => decFinish d ⟨v, byteAt d 13⟩ (byteAt d 13)

/-- Digits as a destination holds them. -/
def writeDigits (enc n : Nat) (v : Int) : List Byte :=
  let ds := decDigits n v.natAbs
  match enc with
  | 0 => ds.map fun x => BitVec.ofNat 8 (0x30 + x)
  | 1 => packNibbles (if n % 2 = 1 then 0 :: ds else ds)
  | _ =>
    let ds := ds ++ [if v < 0 then 0xD else 0xC]
    packNibbles (if ds.length % 2 = 1 then 0 :: ds else ds)

/-- DX.FORMAT (R279). -/
def dxFormatFn (d a : List Byte) : HelperOut :=
  match decRead a with
  | none => hFail hFormat []
  | some x => match decRound (byteAt d 8 % 8) x (byteAt d 9) with
    | .error e => hFail e []
    | .ok (c, inexact) =>
      let n := leAt d 4 4
      if 10 ^ n ≤ c.natAbs then hFail hOverflow []
      else if c < 0 ∧ byteAt d 12 < 2 then hFail hFormat []
      else hOk (some (bit inexact)) (writeDigits (byteAt d 12) n c) [(16, decBytes c (byteAt d 9))]

/-! CX: cryptography (R280 to R282). -/

/-- CX.CMAC and CX.HMAC. -/
def cxMacFn (mac d : List Byte) : HelperOut := hOk (some (byteAt d 9)) (mac.take (byteAt d 9)) []

/-- CX.CMAC_VER and CX.HMAC_VER: the comparison covers the leading MACLEN bytes. -/
def cxVerFn (mac d want : List Byte) : HelperOut :=
  hOk (some (bit (mac.take (byteAt d 9) == want.take (byteAt d 9)))) [] []

/-- CX.GCM_ENC: the ciphertext, and the tag that goes where MAC points. -/
def cxEncFn (d key iv aad text : List Byte) : HelperOut × List Byte :=
  let ct := gcmCrypt key iv text
  (hOk (some text.length) ct [], (gcmTag key iv aad ct).take (byteAt d 9))

/-- CX.GCM_DEC (R282): the plaintext only if the tag verifies. -/
def cxDecFn (d key iv aad ct tag : List Byte) : HelperOut :=
  if (gcmTag key iv aad ct).take (byteAt d 9) == tag.take (byteAt d 9) then hOk (some 1) (gcmCrypt key iv ct) []
  else hOk (some 0) [] []

/-- CX.SHA256. -/
def cxShaFn (src : List Byte) : HelperOut := hOk (some 32) (sha256 src) []

/-! HX: hashing and compare (R283 to R285). -/

/-- HX.CRC: the result replaces SEED; the spec gives no OUT. -/
def hxCrcFn (d src : List Byte) : HelperOut :=
  let r := crcReg polyC (leAt d 8 4) src
  hOk none [] [(8, leBytes 4 (if bitOf (byteAt d 12) 0 then r else r ^^^ 0xFFFFFFFF))]

/-- HX.KEY: the spec gives no OUT. -/
def hxKeyFn (src : List Byte) : HelperOut := hOk none [] [(8, leBytes 8 (keyFold src))]

/-- HX.MCMP over data, and pattern bytes followed by mask bytes. -/
def hxMcmpFn (data pm : List Byte) : HelperOut :=
  let n := data.length
  match findBelow n fun i => ((byteAt data i ^^^ byteAt pm i) &&& byteAt pm (n + i)) != 0 with
  | some i => hOk (some 0) [] [(8, leBytes 2 i)]
  | none => hOk (some 1) [] [(8, leBytes 2 0xFFFF)]

end Sys2Proof.Machine
end

