-- ==== Sys2Proof/Machine/Helpers.lean ====
section
/-! DEFINITION. Helper units (spec/08): issue, waiting, grant, the operand forms a function handles, completion, taking
and restarting (R249 to R251, R262 to R291). -/

namespace Sys2Proof.Machine

/-! Units and classes (R262). -/

/-- The number of a class in registers. -/
def helperNum : HelperClass → Nat
  | .fx => 0 | .dx => 1 | .cx => 2 | .hx => 3

/-- The major of a class. -/
def classMajor (k : HelperClass) : Nat := 0x38 + helperNum k

/-- The units of a class within a Street. -/
def classUnits : HelperClass → List Nat
  | .fx => [0, 1] | .dx => [2, 3] | .cx => [4] | .hx => [5]

/-- The class of a unit. -/
def unitClass (u : Nat) : HelperClass := if u < 2 then .fx else if u < 4 then .dx else if u = 4 then .cx else .hx

/-- Whether a unit is in service. -/
def State.helperUp (s : State) (st u : Nat) : Bool :=
  !s.fenced ⟨.helper, 6 * st + u⟩ && !s.fenced ⟨.street, st⟩ && !s.fencing ⟨.helper, 6 * st + u⟩

/-- Whether some unit of a class is in service in a Street. -/
def State.classUp (s : State) (st : Nat) (k : HelperClass) : Bool := (classUnits k).any (s.helperUp st)

/-- A unit of a class that is in service and idle. -/
def State.freeUnit (s : State) (st : Nat) (k : HelperClass) : Option Nat :=
  (classUnits k).find? fun u => s.helperUp st u && (s.unitsAt (6 * st + u)).isNone

/-- Whether an event-form instruction of a thread is outstanding: it runs, or it stands in the queue to restart (R249). -/
def State.helperOut (s : State) (t : Nat) : Bool :=
  ((List.range 6).any fun u => (s.unitsAt (6 * streetOf t + u)).any fun r => r.thread == t && r.req.event) ||
  ((List.range 4).any fun k => (s.hqueuesAt (4 * streetOf t + k)).any fun w => w.thread == t && w.restart && w.req.event)

/-- Count in a class's counter. -/
def helperCount (reg : Nat → Nat → Nat) (t : Nat) (k : HelperClass) : M Unit := count (reg (streetOf t) (helperNum k))

/-! Operands (R267, R268). -/

/-- The address of a byte behind a pointer of a request. -/
def HelperReq.ea (q : HelperReq) (p : Word) (i : Nat) : Option Ea := { Thread.zero with bk := q.bk }.ptrEa p i

/-- Whether the bank of a pointer is VALID. -/
def HelperReq.valid (q : HelperReq) (p : Word) : Bool := (q.ea p 0).isSome

/-- The addresses of `n` bytes behind a pointer. -/
def HelperReq.range (q : HelperReq) (p : Word) (n : Nat) : List Ea := (List.range n).filterMap (q.ea p)

/-- Bytes behind a pointer, 0 outside the rights of the thread as they stand (R268). -/
def State.helperBytes (s : State) (t : Nat) (q : HelperReq) (p : Word) (n : Nat) : List Byte :=
  (q.range p n).map (s.eaByte t)

/-- Write bytes behind a pointer; those outside the rights are ignored (R268). -/
def helperWrite (t : Nat) (q : HelperReq) (p : Word) (bs : List Byte) : M Unit :=
  each ((List.range bs.length).zip bs) fun (i, b) => do
    match q.ea p i with
    | none => pure ()
    | some e => do
      let ok ← rd fun s => s.right t (s.thread t).priv true e
      onlyIf ok (eaStore t e [b])

/-- What a function reads and writes: ranges as pointer and length; and whether its descriptor's fields lie in their
ranges. -/
structure HelperForm where
  descLen : Nat
  srcs : List (Word × Nat)
  dsts : List (Word × Nat)
  ok : Bool

/-- A pointer held in a descriptor. -/
def descPtr (d : List Byte) (off : Nat) : Word := Word.ofNat (leAt d off 8)

/-- LEN of a descriptor. -/
def descLen (d : List Byte) : Nat := leAt d 4 4

/-- The operand form of an FX function; `spec` is the element table (R273 to R276). -/
def fxForm (q : HelperReq) (d spec : List Byte) : HelperForm :=
  let n := descLen d
  let src := (q.rb, n)
  match q.fn with
  | 0 => ⟨9, [src], [(q.rc, 16)], decide (byteAt d 8 ≤ 1)⟩
  | 1 =>
    let sel := leAt d 16 16
    ⟨40, [src, (descPtr d 32, 512)], [(q.rc, 4 * popCount 128 sel)],
      byteAt d 8 ≤ 1 && leAt d 9 7 == 0 &&
        (List.range (highest sel)).all fun i => bitsOf (leAt spec (4 * i) 4) 3 0 < 8 && bitsOf (leAt spec (4 * i) 4) 7 4 < 4⟩
  | 2 =>
    let c := byteAt d 8
    ⟨16 + 4 * c, [src], [(q.rc, 4 * c)], decide (1 ≤ c ∧ c ≤ 16)⟩
  | _ =>
    let c := byteAt d 8
    ⟨16 + 8 * c, [src], [(q.rc, 8 * c)],
      decide (1 ≤ c ∧ c ≤ 16) && (List.range c).all fun i =>
        let w := leAt d (16 + 8 * i) 8
        let len := bitsOf w 23 16
        decide (1 ≤ len ∧ len ≤ convMax (bitsOf w 27 24)) && bitsOf w 63 28 == 0⟩

/-- The operand form of a DX function (R277). -/
def dxForm (q : HelperReq) (d : List Byte) : HelperForm :=
  let n := descLen d
  let common := byteAt d 8 < 8 && (byteAt d 9 ≤ 38 || byteAt d 9 == 0xFF) && leAt d 14 2 == 0
  let al (p : Word) := ptrOff p % 8 == 0
  match q.fn with
  | 3 => ⟨32, [(q.rb, 16)], [], common && al q.rb⟩
  | 4 => ⟨32, [(q.rb, 16), (q.rc, 16)], [], common && al q.rb && al q.rc && byteAt d 10 ≤ 9 && byteAt d 11 ≤ 9⟩
  | 6 => ⟨32, [(q.rb, digitBytes (byteAt d 12) n)], [],
      common && decide (1 ≤ n ∧ n ≤ 34) && byteAt d 12 ≤ 2 && byteAt d 13 ≤ 38⟩
  | 7 => ⟨32, [(q.rb, 16)], [(q.rc, digitBytes (byteAt d 12) n)],
      common && al q.rb && decide (1 ≤ n ∧ n ≤ 34) && byteAt d 12 ≤ 2 && byteAt d 9 != 0xFF⟩
  | _ => ⟨32, [(q.rb, 16), (q.rc, 16)], [], common && al q.rb && al q.rc⟩

/-- The operand form of a CX function (R280). -/
def cxForm (q : HelperReq) (d : List Byte) : HelperForm :=
  let n := descLen d
  let kl := byteAt d 8
  let ml := byteAt d 9
  let aad := leAt d 12 4
  let key := (descPtr d 16, kl)
  let aes := kl == 16 || kl == 24 || kl == 32
  let rsv := leAt d 10 2 == 0
  let noAad := aad == 0
  let aadSrc := if aad = 0 then [] else [(descPtr d 40, aad)]
  let cm := aes && decide (4 ≤ ml ∧ ml ≤ 16) && rsv && noAad
  let hm := decide (1 ≤ kl ∧ kl ≤ 64) && decide (4 ≤ ml ∧ ml ≤ 32) && rsv && noAad
  let gc := aes && (ml == 12 || ml == 16) && rsv && decide (aad + n ≤ 65536)
  match q.fn with
  | 0 => ⟨48, [(q.rb, n), key], [(q.rc, ml)], cm⟩
  | 1 => ⟨48, [(q.rb, n), key, (descPtr d 32, ml)], [], cm⟩
  | 2 => ⟨48, (q.rb, n) :: key :: (descPtr d 24, 12) :: aadSrc, [(q.rc, n), (descPtr d 32, ml)], gc⟩
  | 3 => ⟨48, (q.rb, n) :: key :: (descPtr d 24, 12) :: (descPtr d 32, ml) :: aadSrc, [(q.rc, n)], gc⟩
  | 4 => ⟨48, [(q.rb, n)], [(q.rc, 32)], kl == 0 && ml == 0 && rsv && noAad⟩
  | 5 => ⟨48, [(q.rb, n), key], [(q.rc, ml)], hm⟩
  | _ => ⟨48, [(q.rb, n), key, (descPtr d 32, ml)], [], hm⟩

/-- The operand form of an HX function (R283 to R285). -/
def hxForm (q : HelperReq) (d : List Byte) : HelperForm :=
  let n := descLen d
  match q.fn with
  | 0 => ⟨13, [(q.rb, n)], [], true⟩
  | 1 => ⟨16, [(q.rb, n)], [], decide (1 ≤ n ∧ n ≤ 32)⟩
  | _ => ⟨10, [(q.rb, n), (q.rc, 2 * n)], [], decide (1 ≤ n ∧ n ≤ 256)⟩

/-- Whether a request is FX.ISO's, whose descriptor points to an element table. -/
def HelperReq.iso (q : HelperReq) : Bool := q.cls == .fx && q.fn == 1

/-- A request's descriptor and FX.ISO's element table as they stand in memory. -/
def State.helperDesc (s : State) (t : Nat) (q : HelperReq) : List Byte × List Byte :=
  let d := s.helperBytes t q q.ra 144
  (d, if q.iso then s.helperBytes t q (descPtr d 32) 512 else [])

/-- Whether the second operands that registers name are aligned as their function needs them: a DX record is (R277). -/
def HelperReq.aligned (q : HelperReq) : Bool :=
  let al (p : Word) := ptrOff p % 8 == 0
  match q.cls, q.fn with
  | .dx, 3 | .dx, 7 => al q.rb
  | .dx, 6 => true
  | .dx, _ => al q.rb && al q.rc
  | _, _ => true

/-- What is known of a form without its descriptor: the pointers that registers name. -/
def HelperReq.bareForm (q : HelperReq) (n : Nat) : HelperForm := ⟨n, [(q.rb, 0), (q.rc, 0)], [], q.aligned⟩

/-- The operand form of a request with its descriptor and element table.  Behind a pointer that is not VALID there is no
descriptor: the form has the operands that registers name. -/
def HelperReq.form (q : HelperReq) (d : List Byte × List Byte) : HelperForm :=
  if !q.valid q.ra then q.bareForm 0
  else match q.cls with
  | .fx => fxForm q d.1 d.2
  | .dx => dxForm q d.1
  | .cx => cxForm q d.1
  | .hx => hxForm q d.1

/-- The bytes a helper reads when it accepts an instruction (R251). -/
def HelperReq.descRange (q : HelperReq) (d : List Byte × List Byte) : List Ea :=
  q.range q.ra (q.form d).descLen ++ if q.iso then q.range (descPtr d.1 32) 512 else []

/-- Whether a range lies in a memory a helper reaches, and within its window (R267). -/
def State.helperRange (s : State) (t : Nat) (q : HelperReq) (r : Word × Nat) : Bool :=
  decide (ptrOff r.1 + r.2 ≤ 2 ^ 18) &&
  (q.ea r.1 0).any fun e => e.desk || match s.region e.addr with
    | .street k => k == streetOf t
    | .square => true
    | _ => false

/-- Whether two ranges have a byte in common. -/
def HelperReq.overlap (q : HelperReq) (a b : Word × Nat) : Bool :=
  match q.ea a.1 0, q.ea b.1 0 with
  | some x, some y =>
    x.desk == y.desk && decide (0 < a.2 ∧ 0 < b.2 ∧ x.addr < y.addr + b.2 ∧ y.addr < x.addr + a.2)
  | _, _ => false

/-- Whether the operand form is handled (R267).  A pointer whose bank is not VALID has no window: BANK says so, behind this
(R257). -/
def State.helperHandles (s : State) (t : Nat) (q : HelperReq) (d : List Byte) (f : HelperForm) : Bool :=
  let desc := (q.ra, f.descLen)
  decide (descLen d ≤ 65536) && ptrOff q.ra % 8 == 0 && f.ok &&
  ((desc :: (f.srcs ++ f.dsts)).filter fun r => q.valid r.1).all (s.helperRange t q) &&
  f.dsts.all fun r => (desc :: f.srcs).all fun x => !q.overlap r x

/-- A pointer of the form whose bank is not VALID (R230). -/
def HelperForm.badBank (q : HelperReq) (f : HelperForm) : Option Word :=
  (q.ra :: q.rb :: q.rc :: (f.srcs ++ f.dsts).map Prod.fst).find? fun p => !q.valid p

/-! Grant, completion, loss of a unit. -/

/-- An instruction is refused: the thread takes UNDEF at it, with the reason.  In the event form HELPER_DONE is set as the
trap is entered (R250, R287). -/
def helperRefuse (t : Nat) (q : HelperReq) (reason : Nat) : M Unit := do
  helperCount Reg.HLP_CNT_REFUSED t q.cls
  onlyIf q.event (setFlag t evHelperDone)
  undef t q.word reason

/-- The order number of the next start in a Street. -/
def State.nextStart (s : State) (st : Nat) : Nat :=
  (List.range 6).foldl (fun a u => max a ((s.unitsAt (6 * st + u)).elim 0 (·.start) + 1)) 0

/-- A helper accepts an instruction, with what it has read of the descriptor (R251). -/
def helperAccept (t u : Nat) (q : HelperReq) : M Unit := do
  let n ← rd (·.nextStart (streetOf t))
  helperCount Reg.HLP_CNT_ACCEPTED t q.cls
  emit (.units (6 * streetOf t + u) (some ⟨t, q, n⟩))
  if q.event then finishNext t id else enterWait t (.helper q.cls)

/-- What a helper finds of an instruction's operand form, from what can be read of its descriptor: the form, whether it is handled
(R267), and the first byte that cannot be read. -/
structure HelperTrial where
  desc : List Byte × List Byte
  form : HelperForm
  ok : Bool
  lost : Option Ea

/-- The trial of a request: a descriptor that cannot be read leaves the pointers that registers name, an element table that cannot
be read leaves the descriptor. -/
def State.helperTrial (s : State) (t : Nat) (q : HelperReq) : HelperTrial :=
  let d := s.helperDesc t q
  let n := (q.form d).descLen
  let lost := s.anyUnreadable t (q.descRange d)
  if (s.anyUnreadable t (q.range q.ra n)).isSome then
    ⟨d, q.bareForm n, s.helperHandles t q [] (q.bareForm n), lost⟩
  else
    let f := q.form (if lost.isSome then (d.1, []) else d)
    ⟨d, f, s.helperHandles t q d.1 f, lost⟩

/-- A unit is granted: the helper reads the descriptor, once, and accepts or refuses the instruction (R251, R267, R270): UNDEF
comes before BANK (R257).  An instruction whose descriptor cannot be read, but for that in order, is accepted, and fails. -/
def helperStart (t u : Nat) (q : HelperReq) : M Unit := do
  let x ← rd (·.helperTrial t q)
  if !x.ok then helperRefuse t q 3
  else match x.form.badBank q with
    | some p => trapHere t causeBank (Word.ofNat (ptrBank p))
    | none => match x.lost with
      | some e => do
        eaReport e 1
        helperAccept t u q
      | none => helperAccept t u { q with desc := some x.desc }

/-- A register pointer whose bank is not VALID: the instruction does not reach its helper (R268). -/
def HelperReq.badRegister (q : HelperReq) : Option Word := [q.ra, q.rb, q.rc].find? fun p => !q.valid p

/-- A helper instruction at the point where it needs a unit: with no unit of its class in service it is refused with reason 4;
with a register pointer whose bank is not VALID it raises BANK without a unit, unless UNDEF comes before that (R257, R268); else it
starts, sets HB, or joins the queue (R249, R263, R264, R287). -/
def helperSeek (t : Nat) (q : HelperReq) : M Unit := do
  let st := streetOf t
  let up ← rd (·.classUp st q.cls)
  let u ← rd (·.freeUnit st q.cls)
  let w ← rd (·.hqueuesAt (4 * st + (helperNum q.cls)))
  let x ← rd (·.helperTrial t q)
  if !up then helperRefuse t q 4
  else match q.badRegister with
  | some p => if x.ok then trapHere t causeBank (Word.ofNat (ptrBank p)) else helperRefuse t q 3
  | none => match (if w.isEmpty then u else none) with
  | some u => do
    onlyIf q.try_ (modThreads t fun th => { th with flags := { th.flags with hb := false } })
    helperStart t u q
  | none =>
    if q.try_ then do
      helperCount Reg.HLP_CNT_HB_SET t q.cls
      finishNext t fun th => { th with flags := { th.flags with hb := true } }
    else do
      modHqueues (4 * st + (helperNum q.cls)) fun l => l ++ [⟨t, q, false⟩]
      enterWait t (.unit q)

/-- Whether a thread's HELPER_EN enables a class at its level, and a unit of it is in service in its Street (R250, R287). -/
def State.helperEnabled (s : State) (t : Nat) (k : HelperClass) : Bool :=
  let th := s.thread t
  let level := if th.priv = 0 then 8 else if th.priv = 1 then 4 else 0
  bitOf th.helperEn (level + helperNum k) && s.classUp (streetOf t) k

/-- The class of a helper major. -/
def majorClass (m : Nat) : HelperClass := if m = 0x38 then .fx else if m = 0x39 then .dx else if m = 0x3A then .cx else .hx

/-- A thread fetches a word that no instruction is assigned to: UNDEF (R233, R234, R250, R287): an unimplemented function of a class
that is disabled or has no unit in service gives reason 4.  The event form of a helper major sets HELPER_DONE as the trap is entered. -/
def issueUnassigned (t w : Nat) : M Unit :=
  match unassigned w with
  | none => pure ()
  | some r => issue t w true fun _ => do
    let on ← rd (·.helperEnabled t (majorClass (bitsOf w 31 26)))
    onlyIf (r = 2) (helperCount Reg.HLP_CNT_REFUSED t (majorClass (bitsOf w 31 26)))
    let up ← rd (·.classUp (streetOf t) (majorClass (bitsOf w 31 26)))
    onlyIf (r != 0 && bitOf w 1) (setFlag t evHelperDone)
    undef t w (if r = 2 && !(on && up) then 4 else r)

/-- A helper instruction of thread `t`: class, function, its register fields, its flags, and whether it uses rc (R249, R287). -/
def helperM (k : HelperClass) (fn : Nat) (usesRc : Bool) (t ra rb rc flags : Nat) : M Unit :=
  let word := wordH (classMajor k) fn ra rb rc flags
  issue t word (flags % 32 / 4 = 0 && (usesRc || rc % 32 = 0)) fun th => do
    let on ← rd (·.helperEnabled t k)
    let room ← rd (·.boundTo t)
    let gen ← rd (·.threadClgen t)
    let seat ← rd (·.isSeat t)
    let q : HelperReq := ⟨k, fn, th.gr (ra % 32), th.gr (rb % 32), if usesRc then th.gr (rc % 32) else 0,
      bitOf flags 1, bitOf flags 0, th.bk, room, gen, th.tgen, seat, word, none⟩
    if !on then helperRefuse t q 4
    else do
      let out ← rd (·.helperOut t)
      if out then enterWait t (.helperEvent q) else helperSeek t q

/-- What a function of a running instruction produces, and the tag of CX.GCM_ENC; `de` is the descriptor and the element table
the helper has read. -/
def State.helperResult (s : State) (t : Nat) (q : HelperReq) (de : List Byte × List Byte) : HelperOut × List Byte :=
  let d := de.1
  let n := descLen d
  let get (p : Word) (k : Nat) := s.helperBytes t q p k
  let key := get (descPtr d 16) (byteAt d 8)
  let mac := get (descPtr d 32) (byteAt d 9)
  match q.cls, q.fn with
  | .fx, 0 => (fxBitmapFn d (get q.rb n), [])
  | .fx, 1 => (fxIsoFn d de.2 (get q.rb n), [])
  | .fx, 2 => (fxTlvFn d (get q.rb n), [])
  | .fx, _ => (fxFieldsFn d (get q.rb n), [])
  | .dx, 6 => (dxParseFn d (get q.rb (digitBytes (byteAt d 12) n)), [])
  | .dx, 7 => (dxFormatFn d (get q.rb 16), [])
  | .dx, f => (dxFn f d (get q.rb 16) (get q.rc 16), [])
  | .cx, 0 => (cxMacFn (aesCmac key (get q.rb n)) d, [])
  | .cx, 1 => (cxVerFn (aesCmac key (get q.rb n)) d mac, [])
  | .cx, 2 => cxEncFn d key (get (descPtr d 24) 12) (get (descPtr d 40) (leAt d 12 4)) (get q.rb n)
  | .cx, 3 => (cxDecFn d key (get (descPtr d 24) 12) (get (descPtr d 40) (leAt d 12 4)) (get q.rb n) mac, [])
  | .cx, 4 => (cxShaFn (get q.rb n), [])
  | .cx, 5 => (cxMacFn (hmac256 key (get q.rb n)) d, [])
  | .cx, _ => (cxVerFn (hmac256 key (get q.rb n)) d mac, [])
  | .hx, 0 => (hxCrcFn d (get q.rb n), [])
  | .hx, 1 => (hxKeyFn (get q.rb n), [])
  | .hx, _ => (hxMcmpFn (get q.rb n) (get q.rc (2 * n)), [])

/-- STATUS and OUT are written last, and the thread goes on, takes HELPER, or has HELPER_DONE set (R251, R271).  An OUT the
function does not give is free. -/
def helperEnd (t : Nat) (q : HelperReq) (code : Nat) (out : Option Nat) : M Unit := do
  let o ← match out with
    | some o => pure o
    | none => do
      let k ← draw
      pure (Config.random k % 2 ^ 16)
  helperWrite t q q.ra (leBytes 2 code ++ leBytes 2 o)
  onlyIf (code != 0) (helperCount Reg.HLP_CNT_FAILED t q.cls)
  let th ← rd (·.thread t)
  if q.event then setFlag t evHelperDone
  else onlyIf (decide (th.wait = .helper q.cls) && th.waiting && decide (th.tgen = q.tgen)) <|
    (if code = 0 then finishNext t id else trapHere t causeHelper (Word.ofNat code))

/-- A thread that waits for its own event-form instruction goes on to seek a unit (R249). -/
def helperAgain (t : Nat) : M Unit := do
  let th ← rd (·.thread t)
  let out ← rd (·.helperOut t)
  match th.wait with
  | .helperEvent q => onlyIf (th.waiting && !out) (helperSeek t q)
  | _ => pure ()

/-- The instruction of a lost or taken unit goes to the head of the queue to restart; with no unit of the class left in
service it fails with UNIT_FENCED (R265, R290). -/
def helperRestart (st u : Nat) : M Unit := do
  let r ← rd (·.unitsAt (6 * st + u))
  match r with
  | none => pure ()
  | some r => do
    emit (.units (6 * st + u) none)
    let up ← rd (·.classUp st r.req.cls)
    if up then modHqueues (4 * st + helperNum r.req.cls) fun l => ⟨r.thread, r.req, true⟩ :: l
    else do
      helperEnd r.thread r.req hUnitFenced none
      helperAgain r.thread

/-- A class that has lost its last unit: the instructions that wait to restart fail, and the requests that wait are refused
with reason 4 (R287, R290). -/
def helperClassLost (st : Nat) (k : HelperClass) : M Unit := do
  let up ← rd (·.classUp st k)
  onlyIf (!up) do
    let l ← rd (·.hqueuesAt (4 * st + helperNum k))
    emit (.hqueues (4 * st + helperNum k) [])
    each l fun w => do
      if w.restart then do
        helperEnd w.thread w.req hUnitFenced none
        helperAgain w.thread
      else helperRefuse w.thread w.req 4

/-- The request a Street serves next: one that restarts at the head, then the seats', then in order of arrival (R263). -/
def nextHelper (l : List HelperWait) : Option HelperWait :=
  match l with
  | [] => none
  | w :: _ => if w.restart then some w else match l.find? (·.req.seat) with
    | some x => some x
    | none => some w

/-- The unit a seat takes: the one that started last among those not running a seat's instruction (R265). -/
def State.takeUnit (s : State) (st : Nat) (k : HelperClass) : Option Nat :=
  (classUnits k).foldl (fun best u => match s.unitsAt (6 * st + u) with
    | none => best
    | some r =>
      if r.req.seat || !s.helperUp st u then best
      else match best with
        | none => some u
        | some b => if ((s.unitsAt (6 * st + b)).elim 0 (·.start)) < r.start then some u else best) none

/-- Whether helpers of a Street work. -/
def State.helpersRun (s : State) (st : Nat) : Bool :=
  decide (st < 12) && (s.threadsOn || s.mode = modeSafe) && s.streetUp st && !s.fenced ⟨.street, st⟩

/-- Give a unit to a request of the queue. -/
def helperGive (st u : Nat) (k : HelperClass) (w : HelperWait) : M Unit := do
  modHqueues (4 * st + helperNum k) fun l => l.erase w
  if w.restart then do
    let n ← rd (·.nextStart st)
    helperCount Reg.HLP_CNT_RESTARTED w.thread k
    emit (.units (6 * st + u) (some ⟨w.thread, w.req, n⟩))
  else helperStart w.thread u w.req

/-- The seat's request that may take a unit (R265): what restarts waits for a unit to become free (R290). -/
def seatTaker (l : List HelperWait) : Option HelperWait := l.find? fun w => w.req.seat && !w.restart

/-- HELPER_GRANT: the next request of a class is given a free unit, or a seat takes one (R263, R265). -/
def execHelperGrant (s : Nat) (k : HelperClass) (m : State) : Host.Outcome State Fault Refusal :=
  commit (do
    let on ← rd (·.helpersRun s)
    let l ← rd (·.hqueuesAt (4 * s + helperNum k))
    let free ← rd (·.freeUnit s k)
    let take ← rd (·.takeUnit s k)
    let urg ← rd fun m => m.inForce (Reg.HLP_CFG s) Fld.HLP_CFG_URG_TAKE == 1
    match free with
    | some u => match nextHelper l with
      | some w => onlyIf on (helperGive s u k w)
      | none => pure ()
    | none => match seatTaker l, take with
      | some w, some u => onlyIf (on && urg) do
        helperCount Reg.HLP_CNT_TAKEN (64 * s) k
        modHqueues (4 * s + helperNum k) fun l => l.erase w
        helperRestart s u
        helperStart w.thread u w.req
      | _, _ => pure ()) m

/-- HELPER_COMPLETE: a unit performs its instruction and writes STATUS and OUT (R271); of a classroom that has been reset
it stops without a word (R291). -/
def execHelperComplete (s u : Nat) (m : State) : Host.Outcome State Fault Refusal :=
  commit (do
    let on ← rd (·.helpersRun s)
    let up ← rd (·.helperUp s u)
    let r ← rd (·.unitsAt (6 * s + u))
    match r with
    | none => pure ()
    | some r => onlyIf (on && up && decide (u < 6)) do
      let t := r.thread
      let q := r.req
      let old ← rd fun m => q.room.any fun c => m.clgen c != q.clgen
      emit (.units (6 * s + u) none)
      if old then pure ()
      else do
        let ns ← draw
        countBy (Reg.HLP_CNT_BUSY_NS s (helperNum q.cls)) (Config.random ns)
        match q.desc with
        | none => helperEnd t q hMemUncorr none
        | some d => do
          let f := q.form d
          let bad ← rd (·.anyUnreadable t ((f.srcs.filter fun r => !(q.iso && r.1 == descPtr d.1 32)).flatMap fun r => q.range r.1 r.2))
          let (o, tag) ← rd (·.helperResult t q d)
          countBy (Reg.HLP_CNT_BYTES s (helperNum q.cls)) (f.srcs.foldl (fun a r => a + r.2) 0)
          match bad with
          | some e => do
            eaReport e 1
            helperEnd t q hMemUncorr none
          | none => do
            helperWrite t q q.rc o.dst
            onlyIf (!tag.isEmpty) (helperWrite t q (descPtr d.1 32) tag)
            each o.desc fun (off, bs) => helperWrite t q (q.ra + Word.ofNat off) bs
            helperEnd t q o.code o.out
      helperAgain t) m

/-! The helper instructions. -/

/-- FX.BITMAP (R273). -/
def execFxBitmap (t ra rb rc flags : Nat) (s : State) : Host.Outcome State Fault Refusal :=
  commit (helperM .fx 0 true t ra rb rc flags) s

/-- FX.ISO (R274). -/
def execFxIso (t ra rb rc flags : Nat) (s : State) : Host.Outcome State Fault Refusal :=
  commit (helperM .fx 1 true t ra rb rc flags) s

/-- FX.TLV (R275). -/
def execFxTlv (t ra rb rc flags : Nat) (s : State) : Host.Outcome State Fault Refusal :=
  commit (helperM .fx 2 true t ra rb rc flags) s

/-- FX.FIELDS (R276). -/
def execFxFields (t ra rb rc flags : Nat) (s : State) : Host.Outcome State Fault Refusal :=
  commit (helperM .fx 3 true t ra rb rc flags) s

/-- DX.ADD (R279). -/
def execDxAdd (t ra rb rc flags : Nat) (s : State) : Host.Outcome State Fault Refusal :=
  commit (helperM .dx 0 true t ra rb rc flags) s

/-- DX.SUB (R279). -/
def execDxSub (t ra rb rc flags : Nat) (s : State) : Host.Outcome State Fault Refusal :=
  commit (helperM .dx 1 true t ra rb rc flags) s

/-- DX.MUL (R279). -/
def execDxMul (t ra rb rc flags : Nat) (s : State) : Host.Outcome State Fault Refusal :=
  commit (helperM .dx 2 true t ra rb rc flags) s

/-- DX.RESCALE (R279). -/
def execDxRescale (t ra rb rc flags : Nat) (s : State) : Host.Outcome State Fault Refusal :=
  commit (helperM .dx 3 false t ra rb rc flags) s

/-- DX.CCY (R279). -/
def execDxCcy (t ra rb rc flags : Nat) (s : State) : Host.Outcome State Fault Refusal :=
  commit (helperM .dx 4 true t ra rb rc flags) s

/-- DX.CMP (R279). -/
def execDxCmp (t ra rb rc flags : Nat) (s : State) : Host.Outcome State Fault Refusal :=
  commit (helperM .dx 5 true t ra rb rc flags) s

/-- DX.PARSE (R279). -/
def execDxParse (t ra rb rc flags : Nat) (s : State) : Host.Outcome State Fault Refusal :=
  commit (helperM .dx 6 false t ra rb rc flags) s

/-- DX.FORMAT (R279). -/
def execDxFormat (t ra rb rc flags : Nat) (s : State) : Host.Outcome State Fault Refusal :=
  commit (helperM .dx 7 true t ra rb rc flags) s

/-- CX.CMAC (R280). -/
def execCxCmac (t ra rb rc flags : Nat) (s : State) : Host.Outcome State Fault Refusal :=
  commit (helperM .cx 0 true t ra rb rc flags) s

/-- CX.CMAC_VER (R280). -/
def execCxCmacVer (t ra rb rc flags : Nat) (s : State) : Host.Outcome State Fault Refusal :=
  commit (helperM .cx 1 false t ra rb rc flags) s

/-- CX.GCM_ENC (R280). -/
def execCxGcmEnc (t ra rb rc flags : Nat) (s : State) : Host.Outcome State Fault Refusal :=
  commit (helperM .cx 2 true t ra rb rc flags) s

/-- CX.GCM_DEC (R282). -/
def execCxGcmDec (t ra rb rc flags : Nat) (s : State) : Host.Outcome State Fault Refusal :=
  commit (helperM .cx 3 true t ra rb rc flags) s

/-- CX.SHA256 (R280). -/
def execCxSha256 (t ra rb rc flags : Nat) (s : State) : Host.Outcome State Fault Refusal :=
  commit (helperM .cx 4 true t ra rb rc flags) s

/-- CX.HMAC (R280). -/
def execCxHmac (t ra rb rc flags : Nat) (s : State) : Host.Outcome State Fault Refusal :=
  commit (helperM .cx 5 true t ra rb rc flags) s

/-- CX.HMAC_VER (R280). -/
def execCxHmacVer (t ra rb rc flags : Nat) (s : State) : Host.Outcome State Fault Refusal :=
  commit (helperM .cx 6 false t ra rb rc flags) s

/-- HX.CRC (R283). -/
def execHxCrc (t ra rb rc flags : Nat) (s : State) : Host.Outcome State Fault Refusal :=
  commit (helperM .hx 0 false t ra rb rc flags) s

/-- HX.KEY (R284). -/
def execHxKey (t ra rb rc flags : Nat) (s : State) : Host.Outcome State Fault Refusal :=
  commit (helperM .hx 1 false t ra rb rc flags) s

/-- HX.MCMP (R285). -/
def execHxMcmp (t ra rb rc flags : Nat) (s : State) : Host.Outcome State Fault Refusal :=
  commit (helperM .hx 2 true t ra rb rc flags) s

end Sys2Proof.Machine
end

