-- ==== Sys2Proof/Machine/Faults.lean ====
section
/-! DEFINITION. The fault collector, Detention and SAFE (spec/17; R511): reports and reactions (R481 to R492), fences and
their sequences by unit kind (R493 to R496), and the Staff Room's own faults (R497, R498). -/

namespace Sys2Proof.Machine

/-- A unit as a report names it: fence kind and index (R482). -/
def UnitId.word (u : UnitId) : Nat := u.kind.code * 4096 + u.idx % 4096

/-- The unit of a report, 0xFFFF for none. -/
def unitWord (u : Option UnitId) : Nat := u.elim 0xFFFF UnitId.word

/-- The Street of a core, a helper or a Street. -/
def UnitId.street? (u : UnitId) : Option Nat :=
  match u.kind with
  | .core => some (u.idx / 8)
  | .helper => some (u.idx / 6)
  | .street => some u.idx
  | _ => none

/-- Whether a unit exists (R415). -/
def UnitId.exists (u : UnitId) : Bool := decide (u.idx < u.kind.count)

/-- A unit with the units that go into Detention with it: a Street's cores and helpers. -/
def UnitId.members (u : UnitId) : List UnitId :=
  if u.kind = .street then
    u :: ((List.range 8).map fun i => UnitId.mk .core (8 * u.idx + i)) ++ (List.range 6).map fun i => UnitId.mk .helper (6 * u.idx + i)
  else [u]

/-- Whether a fence of a unit is in progress, its own or that of its Street (R495). -/
def State.beingFenced (s : State) (u : UnitId) : Bool :=
  s.fencing u || u.street?.any fun k => s.fencing ⟨.street, k⟩

/-- Whether fencing a unit would leave no table engine, no Roll Call bank or no Crosswalk lane in service (R415, R486). -/
def State.lastOne (s : State) (u : UnitId) : Bool :=
  (u.kind = .engine || u.kind = .bank || u.kind = .lane) && (List.range u.kind.count).all fun i =>
    i == u.idx || s.fenced ⟨u.kind, i⟩ || s.fencing ⟨u.kind, i⟩

/-! What each kind of unit does on its way into Detention (R493). -/

/-- The activations whose saved state lies in a Street go back to the head of their lists and are dispatched again from the
start, one that is being copied to a thread among them, which goes back to GETWORK (R178); the locks they hold are orphaned
with it (R386). -/
def dropSaved (k : Nat) : M Unit := do
  let l ← rd fun s => s.acts.filterMap fun e => match e.2 with
    | some a => if a.saved.any fun v => streetOf v.thread == k then some e.1 else none
    | none => none
  each l fun i => do
    let ts ← rd fun s => (s.threads.filter fun e => e.2.act = some i).map Prod.fst
    each ts fun t => do
      modThreads t fun th => { th with act := none }
      blockThread t
    unqueueAct i
    requeueAct i true false

/-- A helper unit stops (R290). -/
def helperDetained (i : Nat) : M Unit := do
  helperRestart (i / 6) (i % 6)
  helperClassLost (i / 6) (unitClass (i % 6))

/-- The ports whose chain engine `n` serves and whose next move is `m`. -/
def State.loggedPorts (s : State) (n : Nat) (m : Move) : List (Nat × Nat × PortCmd) :=
  (s.chains n).filterMap fun x => match s.portCmd x.1 x.2 with
    | some c => if c.chain.head? == some m then some (x.1, x.2, c) else none
    | none => none

/-- A successor `w` replays an incomplete record of engine `n`'s apply log; a replayed move is no longer to be made, and the
next one of its chain goes into the successor's log (R318 step 2). -/
def replayRecord (n w : Nat) (ps : List (Nat × Nat × PortCmd)) (r : LogRec) : M Unit := do
  match r.body with
  | .image a e => writeCopies w r.desc a e
  | .move m => do
    doMove w r.table r.desc m
    each ps fun (i, p, c) => do
      setPort i p (some { c with chain := c.chain.drop 1 })
      match c.chain.drop 1 with
      | [] => pure ()
      | m' :: _ => do
        let _ ← logRecord w c.table c.desc (.move m')
        pure ()
  logDone n r.seq

/-- The ports whose chain a record of a log belongs to. -/
def LogRec.ports (s : State) (n : Nat) (r : LogRec) : List (Nat × Nat × PortCmd) :=
  match r.body with
  | .move m => s.loggedPorts n m
  | .image _ _ => []

/-- A table engine hands its work to its successor (R318): incomplete records of its apply log are
replayed, lookups taken are asked again, and so is what waits; a port keeps its command. -/
def engineDetained (n : Nat) : M Unit := do
  let w ← rd (·.serving n)
  let l ← rd fun s => (s.logOpen n).map fun r => (r, r.ports s w)
  each l fun (r, ps) => replayRecord n w ps r
  let e ← rd (·.enginesAt n)
  modEngines n fun e => { e with cache := [] }
  onlyIf (w != n) do
    modEngines n fun e => { e with queue := [], taken := [], resync := [] }
    modEngines w fun x => { x with queue := x.queue ++ e.queue, resync := x.resync ++ e.resync
                                   taken := x.taken ++ e.taken.map fun l => { l with replay := false } }
    each e.taken (lookupStart w)

/-- Whether a line lies in a stripe, or the copy of a stripe, of engine `n`. -/
def State.ownLine (s : State) (n l : Nat) : Bool :=
  s.regions.any fun d => (List.range (2 ^ d.engLog2)).any fun st =>
    (d.engBase + st) % 16 == n &&
      (decide (d.stripeBase st ≤ l ∧ l < d.stripeBase st + d.span) ||
        (d.mirror && decide (d.stripeBase st + d.mirrorOff ≤ l ∧ l < d.stripeBase st + d.mirrorOff + d.span)))

/-- A table engine returns: the successor hands its stripes back, with what waits for them, and no line of them stays in the
successor's cache (R318). -/
def engineReturns (n : Nat) : M Unit :=
  each ((List.range 16).filter (· != n)) fun w => do
    let e ← rd (·.enginesAt w)
    let mine ← rd fun s => e.queue.filter fun r => s.lookupEngine r == n
    let kept ← rd fun s => e.cache.filter fun l => !s.ownLine n l
    let back ← rd fun s => e.resync.filter fun r => s.ownLine n r.1
    let moves ← rd fun s => (s.logOpen w).filter fun r => !(r.ports s n).isEmpty
    each moves fun r => do
      let _ ← logRecord n r.table r.desc r.body
      logDone w r.seq
    onlyIf (!mine.isEmpty || kept != e.cache || !back.isEmpty) do
      modEngines w fun x => { x with queue := x.queue.filter (!mine.contains ·), cache := kept,
                                     resync := x.resync.filter (!back.contains ·) }
      modEngines n fun x => { x with queue := x.queue ++ mine, resync := x.resync ++ back }

/-- Put an entry into another bank that takes over its tag, which spills an unpinned one if it needs room (R147). -/
def adoptEntry (e : Entry) : M Unit := do
  let b ← rd (·.bankOfTag e.tag)
  let free ← rd (·.spillFree)
  onlyIf (decide (0 < free)) (makeRoom b)
  modBanks b fun k => { k with entries := k.entries ++ [e] }

/-- Move an entry out of a bank: unpinned to the spill region while it has room, else to the bank that takes over (R147,
R149). -/
def moveEntry (b : Nat) (e : Entry) : M Unit := do
  modBanks b fun k => { k with entries := k.entries.filter fun x => !e.same x }
  let free ← rd (·.spillFree)
  if !e.pinned && decide (0 < free) then spillEntry e else adoptEntry e

/-- A bank drains (R147); behind an uncorrected fault of its own, a context with an entry that cannot be read is abandoned
(R148). -/
def drainBank (b : Nat) (byFault : Bool) : M Unit := do
  let k ← rd (·.banksAt b)
  each k.entries fun e => do
    let n ← draw
    if byFault && Config.entryLost n then do
      dropEntry b e
      wantAbandon (tagCtx e.tag) e.cgen
    else moveEntry b e
  modBanks b fun k => { k with stopped := false }
  passStrays b

/-- A returning bank takes its tags again (R149). -/
def refillBank (b : Nat) : M Unit :=
  each ((List.range 4).filter (· != b)) fun o => do
    let es ← rd fun s => (s.banksAt o).entries.filter fun e => s.bankOfTag e.tag == b
    each es (moveEntry o)
    passStrays o

/-- The lines of mirrored tables on a DDR channel, each with its table engine and its copy (R316). -/
def State.mirrorLines (s : State) (n : Nat) : List (Nat × Nat × Nat) :=
  s.regions.flatMap fun d =>
    if !d.mirror then [] else
      (List.range (2 ^ d.engLog2)).flatMap fun st =>
        (linesOf (d.stripeBase st) d.span).flatMap fun l =>
          let e := (d.engBase + st) % 16
          (if s.dramChan l = some n then [(e, l, l + d.mirrorOff)] else []) ++
          (if s.dramChan (l + d.mirrorOff) = some n then [(e, l + d.mirrorOff, l)] else [])

/-- Note lines that must be copied back to a channel when it returns (R317). -/
def resyncLines (l : List (Nat × Nat × Nat)) : M Unit :=
  each l fun (e, dst, src) => do
    let w ← rd (·.serving e)
    modEngines w fun x => { x with resync := x.resync.filter (· != (dst, src)) ++ [(dst, src)] }

/-- A queued write is undone: its line is as it was before it (R356). -/
def restoreLine (q : DdrReq) : M Unit := do
  onlyIf (!q.old.bytes.isEmpty) (writeMem q.addr q.old.bytes)
  each q.old.bad.zipIdx fun x => emit (.bad (q.addr + 16 * x.2) x.1)

/-- The writes a channel controller has not issued, the last to arrive first. -/
def Ddr.writes (d : Ddr) : List DdrReq := (d.writeQ ++ d.held.filter (·.write)).reverse

/-- One queued write of a channel is discarded, and none of those behind it (R361). -/
def dropWrite (n : Nat) (q : DdrReq) : M Unit := do
  let after ← rd fun s => (s.ddrsAt n).writes.reverse.filter fun r => r.addr == q.addr && decide (q.seq < r.seq)
  restoreLine q
  modDdrs n fun d => { d with writeQ := d.writeQ.erase q, held := d.held.erase q }
  each after fun r => do
    let old ← rd (·.lineNow r.addr)
    let put := fun (x : DdrReq) => if x = r then { x with old := old } else x
    modDdrs n fun d => { d with writeQ := d.writeQ.map put, held := d.held.map put }
    setLine r.at_ r.bytes

/-- A DDR channel stops: queued writes are discarded, queued reads end as uncorrectable, and the DRAM enters self-refresh, or is
held in reset if it does not answer (R356).  No engine's cache keeps a line of it. -/
def ddrDetained (n : Nat) : M Unit := do
  let d ← rd (·.ddrsAt n)
  let ws := d.writes.map (·.addr)
  let mir ← rd fun s => if ws.isEmpty then [] else (s.mirrorLines n).filter fun m => ws.contains m.2.1
  each d.writes restoreLine
  dropEarly n
  resyncLines mir
  each (List.range 16) fun e => do
    let kept ← rd fun s => (s.enginesAt e).cache.filter fun l => s.dramChan l != some n
    modEngines e fun g => { g with cache := kept }
  let act ← rd (·.fld (Reg.DDR_STATUS n) Fld.DDR_STATUS_RUNG_ACT)
  let k ← draw
  let silent := Config.dramSilent k
  onlyIf (decide (act < 2) && !silent) (count (Reg.DDR_CNT_SR_ENTRIES n))
  onlyIf (!silent) (setFld (Reg.DDR_STATUS n) Fld.DDR_STATUS_RUNG_ACT 2)
  modDdrs n fun d =>
    { d with readQ := [], urgentQ := [], writeQ := [], held := [], openRow := [], draining := false, waking := false
             passes := 0, inReset := silent }
  event (139 + n)

/-- A port group goes down: links, queued frames and TX streams (R73, R77). -/
def groupDetained (g : Nat) : M Unit :=
  each ((List.range 4).map (4 * g + ·)) fun p => do
    setLink p false
    let q ← rd (·.portsAt p)
    let out := q.q0 ++ q.q1 ++ q.q2
    countBy (Reg.ETH_CNT_TX_FENCED_DROP p) ((out.filterMap (·.buffer)).length + (out.filterMap (·.msg)).eraseDups.length)
    each (out.filterMap (·.buffer)) fun h => bufDrop none h
    modPorts p fun q => { q with q0 := [], q1 := [], q2 := [] }
    let ids ← rd (·.portStreams p)
    each ids fun id => do
      let o ← rd (·.stream id)
      onlyIf (o.any fun st => st.tx && st.state != .failed) (txFail id)

/-- A unit's own sequence, once its DEV_FENCE bits are set (table "Detention by unit kind").  A bank has drained, and
a lane's takeover has ended. -/
def fenceSequence (u : UnitId) : M Unit :=
  match u.kind with
  | .core => withdrawCore u.idx
  | .street => do
    each (List.range 8) fun i => withdrawCore (8 * u.idx + i)
    dropSaved u.idx
    each (List.range 6) fun i => helperDetained (6 * u.idx + i)
  | .helper => helperDetained u.idx
  | .engine => engineDetained u.idx
  | .bank => pure ()
  | .pipe => pipeMove u.idx
  | .lane => pure ()
  | .ddr => ddrDetained u.idx
  | .portGroup => groupDetained u.idx
  | .link => linkDetained u.idx

/-- The commit groups of a unit, for which Detention is a safe point (R463): those that the table "Commit groups and their safe
points" gives its block (DEDUCED for a bank, a pipeline, a lane and a link, which share their block's one group). -/
def UnitId.grps (u : UnitId) : List Grp :=
  match u.kind with
  | .core => [.tt u.idx, .thr u.idx]
  | .street => .st u.idx :: (List.range 8).flatMap fun i => [.tt (8 * u.idx + i), .thr (8 * u.idx + i)]
  | .helper => [.st (u.idx / 6)]
  | .engine => [.te u.idx]
  | .ddr => [.ddr u.idx]
  | .portGroup => .ethGrp u.idx :: (List.range 4).map fun i => .ethN (4 * u.idx + i)
  | .bank => [.rc]
  | .pipe => [.pg]
  | .lane => [.cw]
  | .link => [.rb]

/-! Power rungs of a Street (R513). -/

/-- The rung a Street's register permits; L4 only in Detention (R513). -/
def State.streetRung (s : State) (k : Nat) : Nat :=
  let r := s.fld (Reg.PWR_ST k) Fld.PWR_ST_RUNG
  let r := if 4 < r then 3 else r
  if s.fenced ⟨.street, k⟩ then r else min r 3

/-- What an unpowered Street loses: its private desk pages hold nothing that is known (R513).  Its shared desk pages and its memory
are out of reach in Detention, where alone it is unpowered, and are zeroed or restored at its return (R496). -/
def losePages (k : Nat) : M Unit :=
  each (List.range 8) fun c => each (List.range 0x2000) fun i => do
    let n ← draw
    emit (.desk ((8 * k + c) * 0x20000 + 0x10000 + i) (BitVec.ofNat 8 (Config.random n)))

/-- A Street goes down to a rung. -/
def streetTo (k r : Nat) : M Unit := do
  let now ← rd (·.fld (Reg.ST_STATUS k) Fld.ST_STATUS_RUNG_ACT)
  onlyIf (decide (now < r)) do
    setFld (Reg.ST_STATUS k) Fld.ST_STATUS_RUNG_ACT r
    onlyIf (r = 4) (losePages k)

/-- A Street is called back to L0 (R514), unless a trip holds it (R516). -/
def streetBack (k : Nat) : M Unit := do
  let hold ← rd (·.boot.tripHold)
  onlyIf (!hold) (setFld (Reg.ST_STATUS k) Fld.ST_STATUS_RUNG_ACT 0)

/-- A Street in Detention enters its RUNG at once, whether it lies deeper or higher; after a trip none above L3 (R513,
R516). -/
def rungSet (k : Nat) : M Unit := do
  let fen ← rd (·.fenced ⟨.street, k⟩)
  let r ← rd fun s => if s.boot.tripHold then max 3 (s.streetRung k) else s.streetRung k
  let now ← rd (·.fld (Reg.ST_STATUS k) Fld.ST_STATUS_RUNG_ACT)
  onlyIf fen (if now < r then streetTo k r else setFld (Reg.ST_STATUS k) Fld.ST_STATUS_RUNG_ACT r)

/-! Entering Detention (R493, R495). -/

/-- A record of kind fence (R475). -/
def fenceRecord (o : Origin) (u : UnitId) (on : Bool) : M Unit :=
  gbRecord o 7 (if on then 1 else 2) (u.kind.code + u.idx * 256) (bit (!on)) (bit on)

/-- The mode that the DEV_FENCE bits give (R493). -/
def modeFollows (o : Origin) : M Unit := do
  let m ← rd (·.mode)
  let any ← rd (·.anyFenced)
  onlyIf (m = modeService && any) (setMode o modeDegraded)
  onlyIf (m = modeDegraded && !any) (setMode o modeService)

/-- The later DONE of FENCE commands whose unit is in Detention (R493). -/
def bgFences : M Unit := do
  let up ← rd (·.tenikUp)
  let l ← rd fun s => s.bg.filter fun b => match b.kind with
    | .fence u => s.fenced u
    | _ => false
  onlyIf up (each l fun b => bgEnd b stDone 0)

/-- A unit enters Detention; its own sequence runs unless the device is in SAFE, which halts the datapath (R493).  A Street then
enters its RUNG (R513). -/
def detain (f : Fencing) : M Unit := do
  let u := f.unit
  let safe ← rd fun s => s.mode == modeSafe
  let enter : M Unit := do
    each u.members fun m => setFenceBit m true
    modFc fun c => { c with fencing := c.fencing.filter fun g => !u.members.contains g.unit }
  if u.kind = .link then do
    ringTrack enter
    linkDetained u.idx
  else do
    enter
    onlyIf (!safe) (fenceSequence u)
    onlyIf (u.kind = .street) (rungSet u.idx)
  each u.grps reachSafe
  modeFollows f.origin
  bgFences

/-- The home lanes whose domains are with a lane (R180). -/
def State.lanesWith (s : State) (l : Nat) : List Nat := (List.range 4).filter fun h => s.servingLane h == some l

/-- The domains of some home lanes pause until their takeover ends (R186). -/
def lanesMove (l : List Nat) : M Unit := do
  let m ← rd (·.fld Reg.CW_STATUS Fld.CW_STATUS_LANE_MOVING)
  setFld Reg.CW_STATUS Fld.CW_STATUS_LANE_MOVING (l.foldl (fun m h => setBit m h true) m)

/-- A fence begins (R493): one that is in progress is joined, and a unit in Detention stays there (R495).  A Street below
L0 returns to L0 first (R514), and its fence takes in those of its cores and helpers. -/
def beginFence (o : Origin) (byFault : Bool) (u : UnitId) : M Unit := do
  let done ← rd fun s => s.fenced u || s.beingFenced u || !u.exists
  onlyIf (!done) do
    fenceRecord o u true
    let safe ← rd fun s => s.mode == modeSafe
    onlyIf (u.kind = .street) (streetBack u.idx)
    if safe then detain ⟨u, o⟩
    else do
      let add : M Unit := modFc fun c =>
        { c with fencing := c.fencing.filter (fun g => !u.members.contains g.unit) ++ [⟨u, o⟩] }
      match u.kind with
      | .bank => do
        add
        drainBank u.idx byFault
      | .lane => do
        let l ← rd (·.lanesWith u.idx)
        add
        lanesMove (u.idx :: l)
      | .link => ringTrack add
      | _ => add

/-- FENCE_COMPLETE: a unit's fence sequence ends and it enters Detention (R493). -/
def execFenceComplete (kind idx : Nat) (s : State) : Host.Outcome State Fault Refusal :=
  commit (do
    match UnitKind.ofCode kind with
    | none => pure ()
    | some k => do
      let f ← rd fun s => s.fc.fencing.find? fun f => f.unit = ⟨k, idx⟩
      let moving ← rd (·.fld Reg.CW_STATUS Fld.CW_STATUS_LANE_MOVING)
      let drained ← rd fun s => (s.banksAt idx).urgent.isEmpty && (s.banksAt idx).inq.isEmpty
      match f with
      | none => pure ()
      | some f => onlyIf ((k != .lane || moving = 0) && (k != .bank || drained)) (detain f)) s

/-! SAFE (R511). -/

/-- The device enters SAFE: threads other than the Monitors stop, the Monitors are notified, the ring announces that it
leaves, and the units on their way into Detention are in it. -/
def enterSafe (o : Origin) : M Unit := do
  setMode o modeSafe
  let ts ← rd fun s => (s.threads.map Prod.fst).filter fun t =>
    isThread t && !isMonitor t && (s.thread t).state != .reset && (s.thread t).state != .stopped
  each ts fun t => stopThread t .stopped
  let ks ← rd fun s => (List.range 96).filter fun k => !s.fenced ⟨.core, k⟩ && (s.thread (8 * k)).state != .reset
  each ks notify
  modRing fun r => { r with leavingUs := true }
  let fs ← rd (·.fc.fencing)
  each fs detain

/-- A SAFE reaction (R484, R486); a MODE_SET in progress gives way (R510). -/
def safeReaction : M Unit := do
  let m ← rd (·.mode)
  onlyIf (m = modeStage || m = modeService || m = modeDegraded) do
    count Reg.FC_CNT_SAFE_ENTRIES
    enterSafe .collector
  let l ← rd fun s => s.bg.filter fun b => match b.kind with
    | .modeSet _ => true
    | _ => false
  each l fun b => bgEnd b stWrongMode 0

/-! Reports (R483 to R492). -/

/-- The reactions set for a class of a source. -/
def State.reactSet (s : State) (n cls : Nat) : Nat :=
  s.inForce (Reg.FC_SRC n) (if cls = clsC then Fld.FC_SRC_REACT_C else if cls = clsU then Fld.FC_SRC_REACT_U else Fld.FC_SRC_REACT_F)

/-- The reactions of a report that are applied: those set for its class, less what has no effect (R484, R486, R495). -/
def State.reactions (s : State) (r : Report) (cls : Nat) : Nat :=
  let m := s.reactSet r.source cls
  if s.mode < modeStage then m &&& 0x20
  else
    let held := r.unit.any s.fenced || (sourceUnit r.source).any s.fenced
    let m := if r.unit.isNone || held then m &&& 0x33 else m
    let m := if (r.unit.bind UnitId.street?).isNone then m &&& 0x37 else m
    if bitOf m 2 && r.unit.any (fun u => !s.beingFenced u && s.lastOne u) then (m &&& 0x3B) ||| 0x10 else m

/-- The pending field of a class. -/
def pendFld (cls : Nat) : Fld := ⟨cls, cls⟩

/-- Write a fault log record, or drop it (R491). -/
def faultLog (rec32 : List Byte) : M Unit := do
  let k ← rd (·.faultLog2)
  let tail ← rd (·.fld Reg.FC_LOG_PTR Fld.FC_LOG_PTR_TAIL)
  let head ← rd (·.fld Reg.FC_LOG_PTR Fld.FC_LOG_PTR_HEAD)
  let base ← rd (·.fld Reg.FC_LOG Fld.FC_LOG_BASE)
  if k = 0 ∨ (tail + 1) % 2 ^ k = head % 2 ^ k then do
    count Reg.FC_CNT_LOG_DROP
    sticky Reg.FC_EVENT Fld.FC_EVENT_LOG_FULL 155
  else do
    store 152 (base * 64 + tail % 2 ^ k * 32) rec32
    setFld Reg.FC_LOG_PTR Fld.FC_LOG_PTR_TAIL ((tail + 1) % 2 ^ k)

/-- ERR_N is asserted for a source (R492). -/
def assertErr (n : Nat) : M Unit := do
  setFld (Reg.FC_STAT n) Fld.FC_STAT_ERR 1
  modRegs (Reg.FC_ERR_SRC (n / 64)) fun w => Word.ofNat (setBit w.toNat (n % 64) true)
  let on ← rd (·.fld Reg.FC_ERR Fld.FC_ERR_ASSERTED)
  let c ← rd (·.fld Reg.FC_ERR Fld.FC_ERR_ASSERTIONS)
  setFld Reg.FC_ERR Fld.FC_ERR_ASSERTIONS (c + 1)
  onlyIf (on = 0) do
    setFld Reg.FC_ERR Fld.FC_ERR_ASSERTED 1
    setFld Reg.FC_ERR Fld.FC_ERR_FIRST_SOURCE n
    sticky Reg.FC_EVENT Fld.FC_EVENT_ERR 155

/-- The NOTIFY reaction (R484): event n, and for a Street's sources FAULT_NOTIFY on its Monitors in service. -/
def faultNotify (n : Nat) : M Unit := do
  event n
  onlyIf (decide (n < 108)) do
    let st := if n < 96 then n / 8 else n - 96
    let ks ← rd fun s => ((List.range 8).map (8 * st + ·)).filter fun k => !s.fenced ⟨.core, k⟩
    each ks fun k => setFlag (8 * k) evFaultNotify

/-- A fence reaction. -/
def fenceReaction (cls : Nat) (u : UnitId) : M Unit := do
  let new ← rd fun s => !s.fenced u && !s.beingFenced u
  onlyIf new (count Reg.FC_CNT_FENCES)
  beginFence .collector (decide (1 ≤ cls)) u

/-- The class of a report after escalation (R487). -/
def State.escalated (s : State) (r : Report) : Nat :=
  if r.cls != clsF && s.fld (Reg.FC_STAT r.source) (pendFld r.cls) = 1 then r.cls + 1 else r.cls

/-- Take a report (R484 to R487, R491, R492). -/
def takeReport (r : Report) : M Unit := do
  let st := Reg.FC_STAT r.source
  let k ← rd (·.escalated r)
  let again ← rd fun s => k == clsF && s.fld st (pendFld clsF) = 1
  let seq ← rd (·.reg Reg.FC_CNT_REPORTS)
  let now ← rd (·.timeNs)
  let m ← rd (·.reactions r k)
  let err := again || bitOf m 5
  count Reg.FC_CNT_REPORTS
  onlyIf (k != r.cls) (count Reg.FC_CNT_ESCALATED)
  let old ← rd (·.fld st Fld.FC_STAT_FAULTS)
  setFld st (pendFld k) 1
  setFld st Fld.FC_STAT_LAST_CAUSE r.cause
  setFld st Fld.FC_STAT_LAST_UNIT (unitWord r.unit)
  setFld st Fld.FC_STAT_FAULTS (old + 1)
  onlyIf (bitOf m 0) (faultLog (leBytes 8 now ++ leBytes 1 r.source ++ leBytes 1 (r.cls + 4 * k + 16 * bit err) ++
    leBytes 1 r.cause ++ leBytes 1 m ++ leBytes 2 (unitWord r.unit) ++ zeros 2 ++ leBytes 8 r.info ++ leBytes 8 seq.toNat))
  onlyIf (bitOf m 1) (faultNotify r.source)
  onlyIf err (assertErr r.source)
  match r.unit with
  | none => pure ()
  | some u => do
    onlyIf (bitOf m 2) (fenceReaction k u)
    match u.street? with
    | some s => onlyIf (bitOf m 3) (fenceReaction k ⟨.street, s⟩)
    | none => pure ()
  onlyIf (bitOf m 4) safeReaction

/-- The unit that finds a fault in itself, with the class and the cause of its report (R483). -/
def ownFault : OwnFault → Option (UnitId × Nat × Nat)
  | .stateUncorr k i => (UnitKind.ofCode k).bind fun u =>
      if [.helper, .engine, .bank, .pipe, .lane].contains u then some (⟨u, i⟩, clsU, 0x03) else none
  | .linkFault g => some (⟨.portGroup, g⟩, clsU, 0x08)
  | .logic k i => (UnitKind.ofCode k).map fun u => (⟨u, i⟩, clsF, 0x0B)

/-- A unit in service reports a fault that it finds in itself, on its own source; a helper on its Street's (R148, R290, R483). -/
def reportOwn (f : OwnFault) : M Unit :=
  match ownFault f with
  | none => pure ()
  | some (u, cls, cause) => do
    let out ← rd (·.fenced u)
    onlyIf (u.exists && !out) (report u.source cls cause (some u) 0)

/-- FAULT_REPORT: the collector takes the oldest report (R483).  DESIGN CHOICE: that a unit finds a fault in itself has no row of
its own; `own` is such a fault, whose report arrives first. -/
def execFaultReport (own : Option OwnFault) (s : State) : Host.Outcome State Fault Refusal :=
  commit (do
    let up ← rd (!·.boot.perst)
    onlyIf up (each own.toList reportOwn)
    let f ← rd (·.fc)
    match f.queue with
    | [] => pure ()
    | r :: rest => onlyIf up do
      modFc fun f => { f with queue := rest }
      takeReport r) s

/-! Acknowledgement (R488, R489). -/

/-- FAULT_AUTO_ACK: C_HOLD_US after a pending C was set (R488). -/
def execFaultAutoAck (n : Nat) (s : State) : Host.Outcome State Fault Refusal :=
  commit (do
    let auto ← rd (·.inForce (Reg.FC_SRC n) Fld.FC_SRC_ACK_C)
    let pend ← rd (·.fld (Reg.FC_STAT n) Fld.FC_STAT_C_PEND)
    onlyIf (decide (n < 157) && auto = 1 && pend = 1) do
      setFld (Reg.FC_STAT n) Fld.FC_STAT_C_PEND 0
      count Reg.FC_CNT_AUTO_ACKS) s

/-- Whether a source has something to acknowledge. -/
def State.faultHeld (s : State) (n : Nat) : Bool := bitsOf (s.reg (Reg.FC_STAT n)).toNat 3 0 != 0

/-- Acknowledge a source: its pending classes and its ERR bit clear, and ERR_N is released when no source holds it (R489,
R492). -/
def ackSource (n : Nat) : M Unit := do
  modRegs (Reg.FC_STAT n) fun w => w &&& ~~~0xF
  modRegs (Reg.FC_ERR_SRC (n / 64)) fun w => Word.ofNat (setBit w.toNat (n % 64) false)
  let held ← rd fun s => (List.range 3).any fun k => s.reg (Reg.FC_ERR_SRC k) != 0
  onlyIf (!held) (setFld Reg.FC_ERR Fld.FC_ERR_ASSERTED 0)

/-- FC_ACK_WRITE: a 64-bit write makes its record, and acts with GO on a source there is; a 32-bit write is ignored (R8,
R489). -/
def fcAck (o : Who) (en : Nat) (v : Word) : M Unit := do
  let n := Fld.FC_ACK_SOURCE.get v
  onlyIf (en = 0xFF) do
    let org ← rd (·.originOf o)
    gbRecord org 13 1 n 0 0
    onlyIf (Fld.FC_ACK_GO.isSet v && decide (n < 157)) (ackSource n)

/-- FC_ACK_WRITE. -/
def execFcAckWrite (o : Who) (en : Nat) (v : Word) (s : State) : Host.Outcome State Fault Refusal :=
  commit (access o Reg.FC_ACK en (fcAck o en v)) s

/-- FAULT_ACK (R489). -/
def execFaultAck (c : Cmd) (s : State) : Host.Outcome State Fault Refusal :=
  commit (command (fun _ => ⟨0xA2, modesA, false, (· == 0), 0, 0xFF, 0, 0, decide (c.p0 % 256 < 157)⟩) c (do
    let n := c.p0 % 256
    let held ← rd (·.faultHeld n)
    let org ← rd (·.cmdOrigin c)
    onlyIf held do
      gbRecord org 13 1 n 0 0
      ackSource n
    pure (ans stDone))) s

/-- FAULT_INJECT (R499). -/
def execFaultInject (c : Cmd) (s : State) : Host.Outcome State Fault Refusal :=
  commit (command (fun _ => ⟨0xA3, modesR, false, (· == 0), 0, 0x3FF, 0, 0,
      decide (c.p0 % 256 < 157 ∧ c.p0 / 256 % 4 < 3)⟩) c (do
    let n := c.p0 % 256
    let org ← rd (·.cmdOrigin c)
    gbRecord org 13 2 n 0 (c.p0 / 256 % 4)
    report n (c.p0 / 256 % 4) 0x0F (sourceUnit n) 0
    pure (ans stDone))) s

/-- The first thread of core `k` with a load outstanding on DRAM channel `n`, and the load's address. -/
def State.loadOn (s : State) (k n : Nat) : Option (Nat × Nat) :=
  (List.range 8).findSome? fun i => match (s.thread (8 * k + i)).loading with
    | some (a, z) => if s.dramChan a == some n && s.readsOut k (linesOf a z) then some (8 * k + i, a) else none
    | none => none

/-- The first lookup of engine `e` with a read outstanding on DRAM channel `n`. -/
def State.lookupOn (s : State) (e n : Nat) : Option Nat :=
  (s.enginesAt e).taken.findIdx? fun l => !l.lost &&
    s.readsOut (108 + e) (l.lines.filter fun a => s.dramChan a == some n)

/-- Reads of a requester are taken out of a channel's queues. -/
def dropReads (n who : Nat) (ls : List Nat) : M Unit :=
  modDdrs n fun d =>
    let go := List.filter fun (q : DdrReq) => q.write || !(q.who == who && q.lines.any ls.contains)
    ({ d with readQ := go d.readQ, urgentQ := go d.urgentQ, held := go d.held }).letIn

/-- The transaction that a requester has at the request port of DRAM channel `n` ends as an error: a thread's load takes BUS, an
engine's lookup has lost its data, else the write of its own that arrived last is discarded (R361 step 1). -/
def endTransaction (n req : Nat) : M Unit := do
  let load ← rd fun s => if req < 96 then s.loadOn req n else none
  let lookup ← rd fun s => if 108 ≤ req ∧ req < 124 then s.lookupOn (req - 108) n else none
  let d ← rd (·.ddrsAt n)
  match load, lookup, d.writes.find? (·.who == req) with
  | some (t, a), _, _ => do
    dropReads n req (linesOf a 8)
    trapHere t causeBus (Word.ofNat a)
  | none, some i, _ => do
    let ls ← rd fun s => ((s.enginesAt (req - 108)).taken[i]?).elim [] (·.lines)
    dropReads n req ls
    modEngines (req - 108) fun e =>
      { e with taken := e.taken.zipIdx.map fun x => if x.2 = i then { x.1 with lost := true } else x.1 }
  | none, none, some q => dropWrite n q
  | none, none, none => pure ()

/-- WATCHDOG_BITE: a resource watchdog bites a requester (R361).  Transactions at resources other than a DRAM channel's request
port are one step of the model each: none of them is ever in progress. -/
def execWatchdogBite (k idx req : Nat) (s : State) : Host.Outcome State Fault Refusal :=
  commit (do
    let up ← rd fun s => decide (modeStage ≤ s.mode)
    onlyIf (up && decide (k < 6 ∧ req < 157)) do
      onlyIf (decide (k = 2 ∧ idx < 8)) (endTransaction idx req)
      let n ← rd (·.fld Reg.BP_WDOG_LOG Fld.BP_WDOG_LOG_BITES)
      setFld Reg.BP_WDOG_LOG Fld.BP_WDOG_LOG_KIND k
      setFld Reg.BP_WDOG_LOG Fld.BP_WDOG_LOG_INDEX idx
      setFld Reg.BP_WDOG_LOG Fld.BP_WDOG_LOG_REQUESTER req
      setFld Reg.BP_WDOG_LOG Fld.BP_WDOG_LOG_BITES (n + 1)
      report req (if req = 155 then clsF else clsU) 0x06 (sourceUnit req) 0) s

/-! FENCE and UNFENCE (R415, R493, R496). -/

/-- The unit a FENCE or UNFENCE names. -/
def cmdUnit (c : Cmd) : Option UnitId :=
  match UnitKind.ofCode (c.p0 % 16) with
  | some k => let u : UnitId := ⟨k, c.p0 / 256 % 65536⟩; if u.exists then some u else none
  | none => none

/-- Whether an unfinished FENCE or UNFENCE names a unit (R406). -/
def State.unitBusy (s : State) (u : UnitId) : Bool := s.bg.any fun b => match b.kind with
  | .fence v | .unfence v _ => v == u
  | _ => false

/-- FENCE (R415, R493). -/
def execFence (c : Cmd) (s : State) : Host.Outcome State Fault Refusal :=
  commit (command (fun _ => ⟨0xA0, modesA, false, (· == 0), 0, maskOf 3 0 ||| maskOf 23 8, 0, 0, (cmdUnit c).isSome⟩) c (do
    match cmdUnit c with
    | none => pure (ans stBadParam)
    | some u => do
      let held ← rd (·.fenced u)
      let busy ← rd (·.unitBusy u)
      let last ← rd fun s => !s.beingFenced u && s.lastOne u
      let org ← rd (·.cmdOrigin c)
      if held then pure (ans stDone)
      else if last then pure (ans stBadParam)
      else if busy then pure (ans stBusyRetry)
      else do
        let a ← background c 0xA0 (.fence u)
        pure { a with after := beginFence org false u })) s

/-- Whether a unit's source holds a pending U or F (R490). -/
def State.faultsOpen (s : State) (u : UnitId) : Bool := bitsOf (s.reg (Reg.FC_STAT u.source)).toNat 2 1 != 0

/-- What begins a return (R496): a lane's domains pause for the move back (R186), and a Street in L4 returns to L0 (R514). -/
def beginUnfence (u : UnitId) : M Unit :=
  match u.kind with
  | .lane => do
    let l ← rd fun s => (List.range 4).filter fun h =>
      ((List.range 4).map fun k => (h + k) % 4).find? (fun l => l == u.idx || !(s.fenced (laneUnit l) || s.fencing (laneUnit l))) == some u.idx
    lanesMove l
  | .street => streetBack u.idx
  | _ => pure ()

/-- UNFENCE (R490, R496). -/
def execUnfence (c : Cmd) (s : State) : Host.Outcome State Fault Refusal :=
  commit (command (fun _ => ⟨0xA1, modesR, false, (· == 0), 0, maskOf 3 0 ||| maskOf 24 8, 0, 0, (cmdUnit c).isSome⟩) c (do
    match cmdUnit c with
    | none => pure (ans stBadParam)
    | some u => do
      let out ← rd (·.fenced u)
      let going ← rd (·.beingFenced u)
      let open_ ← rd (·.faultsOpen u)
      let street ← rd fun s => u.kind != .street && u.street?.any fun k => s.fenced ⟨.street, k⟩
      let busy ← rd (·.unitBusy u)
      if !out && !going then pure (ans stDone)
      else if going || open_ || street || busy then pure (ans stBusyRetry)
      else do
        let a ← background c 0xA1 (.unfence u (bitOf c.p0 24))
        pure { a with after := beginUnfence u })) s

/-- The urgent thread code of a Term slot: nothing where the slot holds no loaded Term (R197, R465). -/
def State.urgentCode (s : State) (slot : Nat) : List Byte :=
  let t := s.termsAt slot
  if t.state = .ready || t.state = .current || t.state = .retiring then s.bytes (t.base + t.codeOff) t.urgentLen else []

/-- A core fills way `slot` of its instruction cache (R197). -/
def fillWay (slot k : Nat) : M Unit := do
  let b ← rd (·.urgentCode slot)
  emit (.icache (4 * k + slot) b)

/-- Every core in service fills a way (R197). -/
def fillWays (slot : Nat) : M Unit := do
  let ks ← rd fun s => (List.range 96).filter fun k => !s.fenced ⟨.core, k⟩
  each ks (fillWay slot)

/-- A core returns: its locked ways filled, shared desk pages zeroed, Monitor and bound threads restarted (R496); in SAFE only Monitors run. -/
def coreReturns (k : Nat) : M Unit := do
  each (List.range 4) fun slot => fillWay slot k
  let ks ← rd fun s => (s.desk.map Prod.fst).filter fun x => decide (k * 0x20000 ≤ x ∧ x < k * 0x20000 + 0xE000)
  each ks fun x => emit (.desk x 0)
  setFld (coreReg Reg.CORE_FAULT k) Fld.CORE_FAULT_CORE_STOPPED 0
  startMonitor k
  let safe ← rd fun s => s.mode == modeSafe
  onlyIf (!safe) (each (List.range 8) fun i => restartThread (8 * k + i))

/-- Zero a range of memory, with good check codes. -/
def zeroMem (a n : Nat) : M Unit := do
  let ks ← rd fun s => (s.mem.map Prod.fst).filter fun x => decide (a ≤ x ∧ x < a + n)
  each ks fun x => emit (.mem x 0)
  let bs ← rd fun s => (s.bad.map Prod.fst).filter fun x => decide (a ≤ x ∧ x < a + n)
  each bs fun x => emit (.bad x false)

/-- A Street returns: its memory zeroed but for Tenik's and the Monitors' data, which is restored (R496). -/
def streetReturns (k : Nat) : M Unit := do
  zeroMem (streetBase k) 0x110000
  zeroMem (streetBase k + 0x120000) 0x2E0000
  each (List.range 8) fun i => coreReturns (8 * k + i)

/-- A channel's initialisation ends: its lanes are checked, and without a failing one every line is zero (R345). -/
def initChannel (n fail : Nat) : M Unit := do
  setFld (Reg.DDR_STATUS n) Fld.DDR_STATUS_LANE_FAIL fail
  onlyIf (fail = 0) do
    let here ← rd fun s => (s.mem.map Prod.fst).filter fun a => s.dramChan a == some n
    each here fun a => emit (.mem a 0)
    let bad ← rd fun s => (s.bad.map Prod.fst).filter fun a => s.dramChan a == some n
    each bad fun a => emit (.bad a false)
    setFld (Reg.DDR_STATUS n) Fld.DDR_STATUS_INIT_DONE 1
    runEarly n

/-- A channel returns without its contents: it is initialised, what belongs to no mirrored table reads as uncorrectable, and the
lines of mirrored tables are copied back (R357). -/
def ddrAfresh (n : Nat) : M Unit := do
  let k ← draw
  setFld (Reg.DDR_STATUS n) Fld.DDR_STATUS_INIT_DONE 0
  initChannel n (Config.laneFail k % 2 ^ 9)
  let mir ← rd (·.mirrorLines n)
  let all ← rd fun s => (linesOf 0 (8 * 2 ^ s.capLog2)).filter fun l => s.dramChan l == some n && !mir.any fun m => m.2.1 == l
  each all (markLine · true)
  resyncLines mir

/-- A DDR channel returns, with its contents or without (R357); a DRAM that was reset has none. -/
def ddrReturns (n : Nat) (keep : Bool) : M Unit := do
  let d ← rd (·.ddrsAt n)
  setFld (Reg.DDR_STATUS n) Fld.DDR_STATUS_RUNG_ACT 0
  modDdrs n fun d => { d with owed := [], inReset := false }
  onlyIf (!keep || d.inReset) (ddrAfresh n)

/-- A unit's return sequence, once its DEV_FENCE bits are clear (R496). -/
def returnSequence (u : UnitId) (keep : Bool) : M Unit :=
  match u.kind with
  | .core => coreReturns u.idx
  | .street => streetReturns u.idx
  | .bank => refillBank u.idx
  | .pipe => each (u.idx :: (List.range 4).filter (· != u.idx)) fun p => do
    let up ← rd (·.pipeUp p)
    onlyIf (p = u.idx || !up) (pipeMove p)
  | .ddr => ddrReturns u.idx keep
  | .engine => engineReturns u.idx
  | _ => pure ()

/-- UNFENCE_COMPLETE: a unit is back in service (R496). -/
def execUnfenceComplete (kind idx : Nat) (s : State) : Host.Outcome State Fault Refusal :=
  commit (do
    let up ← rd (·.tenikUp)
    match UnitKind.ofCode kind with
    | none => pure ()
    | some k => do
      let u : UnitId := ⟨k, idx⟩
      let b ← rd (·.bgFind fun b => match b with
        | .unfence v _ => v == u
        | _ => false)
      let moving ← rd (·.fld Reg.CW_STATUS Fld.CW_STATUS_LANE_MOVING)
      match b with
      | none => pure ()
      | some b => onlyIf (up && (k != .lane || moving = 0)) do
        let org ← rd (·.bgOrigin b)
        let keep := match b.kind with
          | .unfence _ keep => keep
          | _ => false
        fenceRecord org u false
        ringTrack (each u.members fun m => setFenceBit m false)
        returnSequence u keep
        modeFollows org
        bgEnd b stDone 0) s

/-! The Staff Room (R497, R498). -/

/-- Version and CRC-32C of the running Tenik image, as a Gradebook record gives them (R475). -/
def FwImage.word (f : FwImage) : Nat := f.version % 2 ^ 32 + f.crc % 2 ^ 32 * 2 ^ 32

/-- Where the Staff Room finds the running image: in Tenik's DRAM region, before DRAM_INIT in the LOAD window (R506). -/
def State.imageAddr (s : State) : Nat := if s.boot.dramDone then s.boot.runAt else squareBase

/-- Whether the running image can be read and still matches its CRC-32C (R497 step 2). -/
def State.imageGood (s : State) : Bool :=
  s.boot.running.all fun f =>
    !s.anyBad s.imageAddr f.bytes.length && crc32c (s.bytes s.imageAddr f.bytes.length) == f.crc

/-- Tenik goes down and the Staff Room restarts it from the image it keeps, if that matches its CRC; else Tenik stays away until
PERST# (R497, R498). -/
def restartTenik : M Unit := do
  let w ← rd fun s => s.boot.running.elim 0 FwImage.word
  gbRecord .bootRom 3 4 0 w w
  let good ← rd (·.imageGood)
  modBoot fun b => { b with tenikDown := true, restarting := good }
  setFld Reg.SR_STATUS Fld.SR_STATUS_RUNNING 0
  let n ← rd (·.fld Reg.SR_STATUS Fld.SR_STATUS_RESTARTS)
  setFld Reg.SR_STATUS Fld.SR_STATUS_RESTARTS (n + 1)
  onlyIf (!good) (report 152 clsF 0x10 none 0)

/-- Whether Tenik runs in a mode that has it (table "What runs in each mode"). -/
def State.tenikRuns (s : State) : Bool := s.tenikUp && decide (modeStage ≤ s.mode)

/-- LOCKSTEP_MISMATCH: the Staff Room's cores disagree (R497). -/
def execLockstepMismatch (s : State) : Host.Outcome State Fault Refusal :=
  commit (do
    let up ← rd (·.tenikRuns)
    onlyIf up do
      report 152 clsU 0x09 none 0
      restartTenik) s

/-- TENIK_HANG: SR_ALIVE has not been written for SR_WDOG_MS (R498). -/
def execTenikHang (s : State) : Host.Outcome State Fault Refusal :=
  commit (do
    let up ← rd (·.tenikRuns)
    onlyIf up do
      report 152 clsU 0x0A none 0
      restartTenik) s

/-- Tenik is back: it resumes its background operations (R410, R497). -/
def tenikReturns : M Unit := do
  modBoot fun b => { b with tenikDown := false, restarting := false }
  replyMissing
  bgCommits
  bgFences

/-- SR_ALIVE, accepted from the Staff Room only (R498). -/
def srAlive (o : Who) (en : Nat) (v : Word) : M Unit := do
  let mode ← rd fun s => decide (modeStage ≤ s.mode)
  let b ← rd (·.boot)
  onlyIf (o = .tenik && mode && (!b.tenikDown || b.restarting) && Fld.SR_ALIVE_ALIVE.isSet (laneMerge 0 v en)) do
    setFld Reg.SR_STATUS Fld.SR_STATUS_RUNNING 1
    onlyIf b.tenikDown tenikReturns

/-- SR_ALIVE; a bad pattern of byte enables is counted as at any register (R9). -/
def execSrAlive (o : Who) (en : Nat) (v : Word) (s : State) : Host.Outcome State Fault Refusal :=
  commit (if laneOk en then srAlive o en v else access o Reg.SR_ALIVE en (pure ())) s

/-- RESTART_FAIL: a restarted Tenik does not come up, and stays away until PERST# (R498). -/
def execRestartFail (s : State) : Host.Outcome State Fault Refusal :=
  commit (do
    let b ← rd (·.boot)
    onlyIf (b.tenikDown && b.restarting) do
      modBoot fun b => { b with restarting := false }
      report 152 clsF 0x10 none 0) s

end Sys2Proof.Machine
end

