-- ==== Sys2Proof/Machine/Boot.lean ====
section
/-! DEFINITION. Reset, the boot ROM, power rungs, the junction sensors, clocks and the timebase (spec/18). -/

namespace Sys2Proof.Machine

/-! Reset and the boot ROM (R500 to R503). -/

/-- Every register at its reset value, every memory and queue empty (R500, R463).  What is kept is what PERST# does not
reach: the test access port (R540), and the model's own fields. -/
def wipe : M Unit := do
  let ks ← rd fun s => s.mem.map Prod.fst
  each ks fun k => emit (.mem k (dfltMem k))
  let ks ← rd fun s => s.bad.map Prod.fst
  each ks fun k => emit (.bad k (dfltBad k))
  let ks ← rd fun s => s.desk.map Prod.fst
  each ks fun k => emit (.desk k (dfltDesk k))
  let ks ← rd fun s => s.pg.map Prod.fst
  each ks fun k => emit (.pg k (dfltPg k))
  let ks ← rd fun s => s.regs.map Prod.fst
  each ks fun k => emit (.regs k (dfltRegs k))
  let ks ← rd fun s => s.act.map Prod.fst
  each ks fun k => emit (.act k (dfltAct k))
  let ks ← rd fun s => s.pendc.map Prod.fst
  each ks fun k => emit (.pendc k (dfltPendc k))
  let ks ← rd fun s => s.goBy.map Prod.fst
  each ks fun k => emit (.goBy k (dfltGoBy k))
  let ks ← rd fun s => s.msix.map Prod.fst
  each ks fun k => emit (.msix k (dfltMsix k))
  let ks ← rd fun s => s.threads.map Prod.fst
  each ks fun k => emit (.threads k (dfltThreads k))
  let ks ← rd fun s => s.acts.map Prod.fst
  each ks fun k => emit (.acts k (dfltActs k))
  let ks ← rd fun s => s.ready.map Prod.fst
  each ks fun k => emit (.ready k (dfltReady k))
  let ks ← rd fun s => s.delay.map Prod.fst
  each ks fun k => emit (.delay k (dfltDelay k))
  let ks ← rd fun s => s.ctxs.map Prod.fst
  each ks fun k => emit (.ctxs k (dfltCtxs k))
  let ks ← rd fun s => s.banks.map Prod.fst
  each ks fun k => emit (.banks k (dfltBanks k))
  let ks ← rd fun s => s.fuq.map Prod.fst
  each ks fun k => emit (.fuq k (dfltFuq k))
  let ks ← rd fun s => s.units.map Prod.fst
  each ks fun k => emit (.units k (dfltUnits k))
  let ks ← rd fun s => s.hqueues.map Prod.fst
  each ks fun k => emit (.hqueues k (dfltHqueues k))
  let ks ← rd fun s => s.icache.map Prod.fst
  each ks fun k => emit (.icache k (dfltIcache k))
  let ks ← rd fun s => s.learn.map Prod.fst
  each ks fun k => emit (.learn k (dfltLearn k))
  let ks ← rd fun s => s.engines.map Prod.fst
  each ks fun k => emit (.engines k (dfltEngines k))
  let ks ← rd fun s => s.dirRows.map Prod.fst
  each ks fun k => emit (.dirRows k (dfltDirRows k))
  let ks ← rd fun s => s.dirShadow.map Prod.fst
  each ks fun k => emit (.dirShadow k (dfltDirShadow k))
  emit (.dir State.reset.dir)
  let ks ← rd fun s => s.ddrs.map Prod.fst
  each ks fun k => emit (.ddrs k (dfltDdrs k))
  let ks ← rd fun s => s.bufs.map Prod.fst
  each ks fun k => emit (.bufs k (dfltBufs k))
  let ks ← rd fun s => s.pools.map Prod.fst
  each ks fun k => emit (.pools k (dfltPools k))
  let ks ← rd fun s => s.chans.map Prod.fst
  each ks fun k => emit (.chans k (dfltChans k))
  let ks ← rd fun s => s.locks.map Prod.fst
  each ks fun k => emit (.locks k (dfltLocks k))
  let ks ← rd fun s => s.streams.map Prod.fst
  each ks fun k => emit (.streams k (dfltStreams k))
  let ks ← rd fun s => s.ports.map Prod.fst
  each ks fun k => emit (.ports k (dfltPorts k))
  let ks ← rd fun s => s.pipes.map Prod.fst
  each ks fun k => emit (.pipes k (dfltPipes k))
  let ks ← rd fun s => s.admitQ.map Prod.fst
  each ks fun k => emit (.admitQ k (dfltAdmitQ k))
  let ks ← rd fun s => s.terms.map Prod.fst
  each ks fun k => emit (.terms k (dfltTerms k))
  let ks ← rd fun s => s.classes.map Prod.fst
  each ks fun k => emit (.classes k (dfltClasses k))
  let ks ← rd fun s => s.hostq.map Prod.fst
  each ks fun k => emit (.hostq k (dfltHostq k))
  let ks ← rd fun s => s.ringLinks.map Prod.fst
  each ks fun k => emit (.ringLinks k (dfltRingLinks k))
  emit (.sq State.reset.sq)
  emit (.rc State.reset.rc)
  emit (.cw State.reset.cw)
  emit (.ring State.reset.ring)
  emit (.gb State.reset.gb)
  emit (.fc State.reset.fc)
  emit (.tb State.reset.tb)
  emit (.bg State.reset.bg)

/-- A register access of the debug port that PERST# cuts short (R543). -/
def TapState.cut (t : TapState) : TapState := if t.busy then { t with busy := false, done := false, access := none } else t

/-- PERST_ASSERT (R500). -/
def execPerstAssert (s : State) : Host.Outcome State Fault Refusal :=
  commit (do
    wipe
    let low ← rd (·.boot.supplyLow)
    emit (.boot { BootState.zero with supplyLow := low })
    modTap TapState.cut) s

/-- The boot ROM from the fuses to LOAD (R502 steps 2 to 6): clocks, fuses, boot nonce, LOAD. -/
def bootRom : M Unit := do
  emit (.regs Reg.CLK_STATUS 0xF)
  modBoot fun b => { b with fuses := ⟨Config.uid, Config.vendorHash, Config.ownerHash, Config.minSvn⟩ }
  let n ← draw
  let nonce := Word.ofNat (Config.random n)
  emit (.regs Reg.GB_BOOT nonce)
  modGb fun g => { g with hash := (sha256 (leBytes 8 Config.uid.toNat ++ leBytes 8 nonce.toNat)).take 16 }
  setMode .bootRom modeLoad

/-- PERST_DEASSERT: straps are sampled and the boot ROM runs (R501, R502).  In manufacturing test, or with a fuse block that
fails its check, the device stays in RESET; in the second case its clocks have started, and PCIe trains. -/
def execPerstDeassert (pcieW smbA : Nat) (tap test fuseOk : Bool) (s : State) : Host.Outcome State Fault Refusal :=
  commit (do
    let low ← rd (·.boot.perst)
    onlyIf low do
      modBoot fun b => { b with perst := false, straps := ⟨pcieW % 4, smbA % 4, tap, test⟩ }
      if test then pure ()
      else if !fuseOk then do
        emit (.regs Reg.CLK_STATUS 0xF)
        setFld Reg.DEV_ID Fld.DEV_ID_FUSE_ERR 1
      else bootRom) s

/-- A warm reset: as PERST#, but the PCIe link stays up and the straps stand (R503). -/
def warmReset : M Unit := do
  let st ← rd (·.boot.straps)
  let link ← rd (·.reg Reg.HI_STATUS)
  wipe
  emit (.regs Reg.HI_STATUS link)
  let low ← rd (·.boot.supplyLow)
  emit (.boot { BootState.zero with perst := false, straps := st, supplyLow := low })
  modTap TapState.cut
  bootRom

/-! Power rungs (R513, R514). -/

/-- Whether a thread lets its Street rest (R513). -/
def Thread.resting (th : Thread) : Bool :=
  match th.state with
  | .idle | .stopped | .halted | .reset => true
  | .waiting => match th.wait with
    | .event _ _ _ => true
    | _ => false
  | .running => false

/-- Whether a Street is idle (R513). -/
def State.streetIdle (s : State) (k : Nat) : Bool :=
  ((List.range 64).all fun i => (s.thread (64 * k + i)).resting) && ((List.range 6).all fun u => (s.unitsAt (6 * k + u)).isNone) &&
  (List.range 4).all fun q => (s.hqueuesAt (4 * k + q)).isEmpty

/-- STREET_RUNG_DESCEND: a Street that has been idle for IDLE_NS (R513). -/
def execStreetRungDescend (k : Nat) (s : State) : Host.Outcome State Fault Refusal :=
  commit (do
    let idle ← rd fun s => decide (k < 12 ∧ modeStage ≤ s.mode) && (s.streetIdle k || s.fenced ⟨.street, k⟩)
    let r ← rd (·.streetRung k)
    onlyIf idle (streetTo k r)) s

/-- STREET_RUNG_EXIT: something has called a Street below L0 back, and its exit time has passed (R514); after a trip it is
held (R516), and in Detention it stays in its rung (R513). -/
def execStreetRungExit (k : Nat) (s : State) : Host.Outcome State Fault Refusal :=
  commit (do
    let stay ← rd fun s => s.boot.tripHold || s.fenced ⟨.street, k⟩ || decide (12 ≤ k)
    onlyIf (!stay) (setFld (Reg.ST_STATUS k) Fld.ST_STATUS_RUNG_ACT 0)) s

/-! Junction sensors and supplies (R516). -/

/-- WARN_C and TRIP_C as they act. -/
def State.warnC (s : State) : Nat := s.fld Reg.PWR_THERM Fld.PWR_THERM_WARN_C
def State.tripC (s : State) : Nat := max s.warnC (min 160 (s.fld Reg.PWR_THERM Fld.PWR_THERM_TRIP_C))

/-- The highest junction reading, whole (R516, R545).  DESIGN CHOICE: MAX_C shows its low byte, signed, which cannot hold the
thresholds of 140 and 155 °C; what the thresholds are compared with is the reading itself. -/
def State.junction (s : State) : Int := s.boot.hottest

/-- Record the highest junction reading. -/
def noteReading (reading : Int) (sensor : Nat) : M Unit := do
  setFld Reg.PWR_TEMP Fld.PWR_TEMP_MAX_C (reading % 256).toNat
  setFld Reg.PWR_TEMP Fld.PWR_TEMP_MAX_SENSOR sensor
  modBoot fun b => { b with tempRead := true, hottest := reading }

/-- THERM_WARN: the reading rises to WARN_C; reported once until it has fallen again (R516). -/
def execThermWarn (reading : Int) (sensor : Nat) (s : State) : Host.Outcome State Fault Refusal :=
  commit (do
    let w ← rd (·.warnC)
    let b ← rd (·.boot)
    onlyIf (!b.perst && decide ((w : Int) ≤ reading ∧ sensor < 16)) do
      noteReading reading sensor
      onlyIf b.warnArmed do
        modBoot fun b => { b with warnArmed := false }
        report 156 clsC 0x0C none 0) s

/-- THERM_TRIP: the reading reaches TRIP_C; every Street is held at L3 (R516). -/
def execThermTrip (reading : Int) (sensor : Nat) (s : State) : Host.Outcome State Fault Refusal :=
  commit (do
    let t ← rd (·.tripC)
    let b ← rd (·.boot)
    onlyIf (!b.perst && decide ((t : Int) ≤ reading ∧ sensor < 16)) do
      noteReading reading sensor
      report 156 clsF 0x0D none 0
      modBoot fun b => { b with tripHold := true, leftSafe := false }
      each (List.range 12) fun k => streetTo k 3) s

/-- The hold after a trip ends once the reading is below WARN_C and the device has left SAFE: the Streets in service return to
L0 (R514, R516). -/
def tripEnds : M Unit := do
  let b ← rd (·.boot)
  let cool ← rd fun s => decide (s.junction < s.warnC)
  onlyIf (b.tripHold && b.leftSafe && cool) do
    modBoot fun b => { b with tripHold := false }
    each (List.range 12) fun k => do
      let fen ← rd (·.fenced ⟨.street, k⟩)
      onlyIf (!fen) (setFld (Reg.ST_STATUS k) Fld.ST_STATUS_RUNG_ACT 0)

/-- JUNCTION_READING_FALL (R516, R545). -/
def execJunctionReadingFall (reading : Int) (sensor : Nat) (s : State) : Host.Outcome State Fault Refusal :=
  commit (do
    let w ← rd (·.warnC)
    let b ← rd (·.boot)
    onlyIf (!b.perst && decide (reading < (w : Int) ∧ sensor < 16)) do
      noteReading reading sensor
      onlyIf (decide (reading ≤ (w : Int) - 5)) (modBoot fun b => { b with warnArmed := true })
      tripEnds) s

/-- SUPPLY: a supply has been outside its limits for more than 1 µs (R516); whether one lies below its recommended minimum,
which the pins follow, is noted (R522).  DESIGN CHOICE: its return has no row of its own; `back` is that return. -/
def execSupply (level : SupplyLevel) (s : State) : Host.Outcome State Fault Refusal :=
  commit (do
    let b ← rd (·.boot)
    modBoot fun b => { b with supplyLow := level == .low || level == .dip || (level == .high && b.supplyLow) }
    onlyIf (!b.perst && (level == .low || level == .high)) (report 156 clsF 0x0E none 0)) s

/-- ROOT_PLL_LOCK_LOSS (R517). -/
def execRootPllLockLoss (s : State) : Host.Outcome State Fault Refusal :=
  commit (do
    let on ← rd (·.fld Reg.CLK_STATUS Fld.CLK_STATUS_ROOT_LOCK)
    onlyIf (on = 1) do
      setFld Reg.CLK_STATUS Fld.CLK_STATUS_ROOT_LOCK 0
      report 156 clsF 0x0B none 0) s

/-- The widest PCIe link the straps allow (R501). -/
def Straps.width (t : Straps) : Nat := if t.pcieW = 1 then 8 else if t.pcieW = 2 then 4 else 16

/-- PCIE_LINK_CHANGE: the link trains to another speed or width (R389). -/
def execPcieLinkChange (speed width : Nat) (s : State) : Host.Outcome State Fault Refusal :=
  commit (do
    let b ← rd (·.boot)
    let old ← rd fun s => (s.fld Reg.HI_STATUS Fld.HI_STATUS_LINK_SPEED, s.fld Reg.HI_STATUS Fld.HI_STATUS_LINK_WIDTH)
    onlyIf (!b.perst && decide (1 ≤ speed ∧ speed ≤ 4) && [4, 8, 16].contains width && decide (width ≤ b.straps.width) &&
        old != (speed, width)) do
      setFld Reg.HI_STATUS Fld.HI_STATUS_LINK_SPEED speed
      setFld Reg.HI_STATUS Fld.HI_STATUS_LINK_WIDTH width
      sticky Reg.HI_EVENT Fld.HI_EVENT_LINK_CHANGE 151) s

/-! The timebase (R518, R519). -/

/-- What one tick adds, in units of 2^−32 ns: 4 × (1 + RATE × 2^−32) ns. -/
def State.tickStep (s : State) : Int := 4 * (2 ^ 32 + signedOf 32 (s.fld Reg.TB_RATE Fld.TB_RATE_RATE))

/-- A count of 64 bits of nanoseconds and 32 of fraction, moved. -/
def tbAdd (n : Nat) (d : Int) : Nat := ((n : Int) + d) % 2 ^ 96 |>.toNat

/-- TIMEBASE_TICK: both counts advance, and a pending set or step takes effect (R518, R519). -/
def execTimebaseTick (s : State) : Host.Outcome State Fault Refusal :=
  commit (do
    let on ← rd (·.fld Reg.CLK_STATUS Fld.CLK_STATUS_ROOT_LOCK)
    let d ← rd (·.tickStep)
    onlyIf (on = 1) do
      modTb fun t =>
        let base := match t.set with
          | some v => v.toNat * 2 ^ 32
          | none => tbAdd t.time d
        let time := match t.step with
          | some v => tbAdd base (v.toInt * 2 ^ 32)
          | none => base
        ⟨time, tbAdd t.mono d, none, none⟩
      each (List.range 8) ddrTick) s

/-- Load TIME at the next tick (R519). -/
def tbSet (o : Origin) (v : Word) : M Unit := do
  let now ← rd (·.timeNs)
  gbRecord o 11 1 0 now v.toNat
  modTb fun t => { t with set := some v }

/-- Step TIME at the next tick (R519). -/
def tbStep (o : Origin) (v : Word) : M Unit := do
  let now ← rd (·.timeNs)
  gbRecord o 11 2 0 now (Word.ofNat now + v).toNat
  modTb fun t => { t with step := some v }

/-- Change RATE (R519). -/
def tbRate (o : Origin) (v : Word) : M Unit := do
  let old ← rd (·.fld Reg.TB_RATE Fld.TB_RATE_RATE)
  gbRecord o 11 3 0 old (Fld.TB_RATE_RATE.get v)
  setFld Reg.TB_RATE Fld.TB_RATE_RATE (Fld.TB_RATE_RATE.get v)

/-- TB_SET. -/
def execTbSet (o : Who) (en : Nat) (v : Word) (s : State) : Host.Outcome State Fault Refusal :=
  commit (access o Reg.TB_SET en do
    let org ← rd (·.originOf o)
    tbSet org (laneMerge 0 v en)) s

/-- TB_STEP. -/
def execTbStep (o : Who) (en : Nat) (v : Word) (s : State) : Host.Outcome State Fault Refusal :=
  commit (access o Reg.TB_STEP en do
    let org ← rd (·.originOf o)
    tbStep org (laneMerge 0 v en)) s

end Sys2Proof.Machine
end

