-- ==== Sys2Proof/Machine/Directory.lean ====
section
/-! DEFINITION. The Directory (R320 to R338): entries, profiles, searches, updates and the scrubber. -/

namespace Sys2Proof.Machine

/-- Segments of a width code; 3 acts as 0 (R321). -/
def segsOf (w : Nat) : Nat :=
  match w with
  | 1 => 2 | 2 => 4 | _ => 1

/-- Segments of the entries of a block. -/
def State.blockSegs (s : State) (b : Nat) : Nat := segsOf (s.fld (Reg.DIR_BLK b) Fld.DIR_BLK_WIDTH)

/-- Whether block `b` heads a chain whose blocks agree in width (R321). -/
def State.chainHead (s : State) (b : Nat) : Bool :=
  let w := s.blockSegs b
  b % w = 0 && (List.range w).all fun k => s.blockSegs (b + k) = w

/-- The indices of the rows of the entry whose index is `i`. -/
def State.entryRows (s : State) (i : Nat) : List Nat := (List.range (s.blockSegs (i / 4096))).map fun k => i + k * 4096

/-- The image of one segment (R322). -/
def DirRow.bytes (r : DirRow) : List Byte :=
  leBytes 20 r.value ++ leBytes 20 r.mask ++ leBytes 2 r.prio ++ leBytes 1 (bit r.valid) ++ [0] ++ leBytes 4 r.assoc

/-- A row from segment `k` of an image (R322, R323). -/
def DirRow.ofBytes (k : Nat) (b : List Byte) : DirRow :=
  let m := leAt b 20 20
  ⟨leAt b 0 20 &&& m, m, if k = 0 then leAt b 40 2 else 0, k = 0 && bitOf (leAt b 42 1) 0, if k = 0 then leAt b 44 4 else 0⟩

/-- The stored image of an entry, from the shadow (R333). -/
def State.dirImage (s : State) (i : Nat) : List Byte := (s.entryRows i).flatMap fun r => (s.dirShadowAt r).bytes

/-- One update: rows and their shadows, in a slot that delays a waiting search (R330). -/
def dirPut (rows : List (Nat × DirRow)) : M Unit := do
  each rows fun p => do
    emit (.dirRows p.1 p.2)
    emit (.dirShadow p.1 p.2)
  count Reg.DIR_CNT_UPDATES
  let waits ← rd fun s => !s.dir.queue.isEmpty || !s.dir.urgent.isEmpty
  onlyIf waits (count Reg.DIR_CNT_SLOT_DELAYS)

/-- An update of every segment of an entry and its shadow (R330). -/
def dirUpdate (i : Nat) (rows : List DirRow) : M Unit := do
  let idx ← rd (·.entryRows i)
  dirPut (idx.zip rows)

/-- The rows of the entry that row `i` is a segment of (R321); only itself, where its block is no part of a chain whose blocks
agree. -/
def State.entryOf (s : State) (i : Nat) : List Nat :=
  let head := i - i / 4096 % s.blockSegs (i / 4096) * 4096
  if s.chainHead (head / 4096) && (s.entryRows head).contains i then s.entryRows head else [i]

/-- A search profile (R325). -/
structure Profile where
  width : Nat
  gmask : Nat
  valid : Bool
  blocks : Nat
  missAssoc : Nat
  deriving DecidableEq, Repr

/-- A profile from its 16 bytes. -/
def Profile.ofBytes (b : List Byte) : Profile :=
  let c := leAt b 0 1
  ⟨bitsOf c 1 0, bitsOf c 4 2, bitOf c 7, leAt b 2 2, leAt b 4 4⟩

/-- Profile `p` of the Term in a slot. -/
def State.profile (s : State) (slot p : Nat) : Profile :=
  Profile.ofBytes (s.bytes ((s.termsAt slot).base + (s.termsAt slot).profileOff + 16 * p) 16)

/-- Segment `k` of global mask `g` as in force. -/
def State.gmask (s : State) (g k : Nat) : Nat :=
  let all := (List.range 10).foldl (fun n w => n + (s.actAt (Reg.DIR_GMASK g w)).toNat * 2 ^ (64 * w)) 0
  all / 2 ^ (160 * k) % 2 ^ 160

/-- Whether the entry whose segment 0 is row `i` matches a key under a global mask (R323). -/
def State.dirMatch (s : State) (w g key i : Nat) : Bool :=
  (s.dirRowsAt i).valid && (List.range w).all fun k =>
    let r := s.dirRowsAt (i + 4096 * k)
    ((key / 2 ^ (160 * k) % 2 ^ 160 ^^^ r.value) &&& r.mask &&& s.gmask g k) = 0

/-- Blocks of a search set (R326). -/
def State.searchBlocks (s : State) (c : Nat) (p : Profile) : List Nat :=
  (List.range 16).filter fun b =>
    bitOf p.blocks b && bitOf (s.inForce (Reg.DIR_PART c) Fld.DIR_PART_BLOCKS) b && s.chainHead b &&
      s.blockSegs b = segsOf p.width

/-- Whether a row of a block lies in a classroom's partition (R326). -/
def State.partRow (s : State) (c row : Nat) : Bool :=
  let b := s.inForce (Reg.DIR_PART c) Fld.DIR_PART_ROW_BASE
  decide (b ≤ row ∧ row < min 4096 (b + s.inForce (Reg.DIR_PART c) Fld.DIR_PART_ROWS))

/-- Whether a search set is empty (R326). -/
def State.noPart (s : State) (c : Nat) (p : Profile) : Bool :=
  !p.valid || (s.searchBlocks c p).isEmpty || s.inForce (Reg.DIR_PART c) Fld.DIR_PART_ROWS = 0 ||
    decide (4096 ≤ s.inForce (Reg.DIR_PART c) Fld.DIR_PART_ROW_BASE)

/-- The winning entry of a search (R324): highest priority, then lowest index. -/
def State.dirWinner (s : State) (c : Nat) (p : Profile) (key : Nat) : Option Nat :=
  let bs := s.searchBlocks c p
  s.dirRows.foldl (fun best e =>
    if bs.contains (e.1 / 4096) && s.partRow c (e.1 % 4096) && s.dirMatch (segsOf p.width) p.gmask key e.1 then
      match best with
      | some j => if (s.dirRowsAt j).prio < e.2.prio then some e.1 else best
      | none => some e.1
    else best) none

/-- The result word of a hit (R328). -/
def State.dirOut (s : State) (i : Nat) : Word :=
  let r := s.dirRowsAt i
  Word.ofNat (r.assoc + i * 2 ^ 32 + r.prio * 2 ^ 48)

/-- Where a wide key lies: its address, or `none` past the end of the payload buffer (R327). -/
def State.wideKey (s : State) (r : SearchReq) (p : Profile) : Option Nat :=
  let h := (s.ctx r.ctx).msg.buffer
  let off := r.key % 2 ^ 64
  let n := 20 * segsOf p.width
  if off + n ≤ s.bufSize h then some (s.bufAddr h + off) else none

/-- DIR_SEARCH: one search starts, from the urgent lane before the queue, and its result goes back to Roll Call
(R326 to R331). -/
def execDirSearch (s : State) : Host.Outcome State Fault Refusal :=
  commit (do
    let d ← rd (·.dir)
    let on ← rd (·.threadsOn)
    match d.urgent.head?.orElse fun _ => d.queue.head? with
    | none => pure ()
    | some r => do
      let slot ← rd fun s => (s.ctx r.ctx).msg.term
      let p ← rd (·.profile slot r.profile)
      let none_ ← rd (·.noPart (tagClass r.tag) p)
      let wide ← rd (·.wideKey r p)
      let n := 20 * segsOf p.width
      let ready ← rd fun s => p.width = 0 || none_ || wide.all fun a => (linesOf a n).all s.dramReady
      let key ← rd fun s => if segsOf p.width = 1 then r.key else s.leMem (wide.getD 0) n
      let range := segsOf p.width != 1 && wide.isNone
      let win ← rd fun s => if none_ || range then none else s.dirWinner (tagClass r.tag) p key
      let out ← rd fun s => match win with
        | some i => s.dirOut i
        | none => Word.ofNat p.missAssoc
      let nd ← rd (·.nodeOf r.tag)
      let toks ← rd fun s => (s.destTokens r.tag (tagIter r.tag) nd false win.isSome fun _ => out).map
        (·.stamped r.cgen r.clgen r.urgent)
      let room ← rd (·.roomFor toks)
      onlyIf (on && ready && room) do
        emit (.dir (if d.urgent.isEmpty then { d with queue := d.queue.drop 1 } else { d with urgent := d.urgent.drop 1 }))
        count Reg.DIR_CNT_SEARCHES
        onlyIf (!d.urgent.isEmpty) (count Reg.DIR_CNT_URGENT_SEARCHES)
        if none_ then count Reg.DIR_CNT_NO_PART
        else onlyIf range (count Reg.DIR_CNT_KEY_RANGE)
        onlyIf (!none_ && segsOf p.width != 1 && wide.isSome) do
          touch 128 (wide.getD 0) n r.urgent
          reportBads (wide.getD 0) n
        count (if win.isSome then Reg.DIR_CNT_HITS else Reg.DIR_CNT_MISSES)
        requestDone r.ctx r.cgen
        each toks pushToken
        pump) s

/-- Log a scrubber's fault (R334). -/
def dirFault (i : Nat) (uncorr : Bool) : M Unit := do
  emit (.regs Reg.DIR_ERR_LOG (Word.ofNat (i + bit uncorr * 65536)))
  if uncorr then do
    sticky Reg.DIR_EVENT Fld.DIR_EVENT_UNCORR 128
    report 128 clsU 0x03 none i
  else do
    sticky Reg.DIR_EVENT Fld.DIR_EVENT_CORRECTED 128
    report 128 clsC 0x01 none i

/-- SCRUB_VISIT: the scrubber compares one row, which an upset may have made different, with its shadow, whose check code says
`ecc` (R333 to R335). -/
def execScrubVisit (ecc : EccOutcome) (upset : Bool) (s : State) : Host.Outcome State Fault Refusal :=
  commit (do
    let on ← rd fun s => s.inForce Reg.DIR_CFG Fld.DIR_CFG_SCRUB_EN = 1 && decide (modeStage ≤ s.mode)
    onlyIf on do
      let i ← rd (·.fld Reg.DIR_STATUS Fld.DIR_STATUS_SCRUB_IDX)
      let passes ← rd (·.fld Reg.DIR_STATUS Fld.DIR_STATUS_PASSES)
      setFld Reg.DIR_STATUS Fld.DIR_STATUS_SCRUB_IDX (i + 1)
      onlyIf (i = 65535) (setFld Reg.DIR_STATUS Fld.DIR_STATUS_PASSES (passes + 1))
      let row ← rd (·.dirRowsAt i)
      let shadow ← rd (·.dirShadowAt i)
      let entry ← rd (·.entryOf i)
      if ecc = .uncorrectable then do
        let old ← rd fun s => entry.flatMap fun r => (s.dirRowsAt r).bytes
        dirPut (entry.map fun r => (r, DirRow.zero))
        gbRecord Origin.tenik 6 3 (entry.headD i) (keyFold old) (keyFold (entry.flatMap fun _ => DirRow.zero.bytes))
        count Reg.DIR_CNT_SCRUB_UNCORR
        dirFault i true
      else do
        onlyIf (ecc = .corrected) (count Reg.DIR_CNT_SCRUB_CORRECTED)
        onlyIf (upset || row != shadow) do
          let rows ← rd fun s => entry.map fun r => (r, s.dirShadowAt r)
          dirPut rows
          dirFault i false) s

end Sys2Proof.Machine
end

