-- ==== Sys2Proof/Machine/Classrooms.lean ====
section
/-! DEFINITION. Classrooms (spec/14): the grant and its checks (R420 to R422), creation, reset and destruction (R429 to
R432), shares, the dirty log and status (R154, R435 to R437). -/

namespace Sys2Proof.Machine

/-- A classroom's state changes. -/
def setClState (c st : Nat) : M Unit := setFld (Reg.CL_BIND c) Fld.CL_BIND_STATE st

/-- A write of a word of RW-S fields on behalf of a command (R471). -/
def shadowWrite (o : Origin) (off : Nat) (w : Word) : M Unit := do
  let old ← rd (·.reg off)
  regRecord o 2 off old w
  emit (.regs off w)

/-- A write of a word of RW-L fields on behalf of a command (R471). -/
def liveWrite (o : Origin) (off : Nat) (w : Word) : M Unit := do
  let old ← rd (·.reg off)
  regRecord o 1 off old w
  emit (.regs off w)

/-! The grant (R420, R421). -/

/-- A number of a grant. -/
def gNum (g : List Byte) (off len : Nat) : Nat := leAt g off len

/-- Whether two ranges share a place. -/
def overlaps (a la b lb : Nat) : Bool := decide (0 < la ∧ 0 < lb ∧ a < b + lb ∧ b < a + la)

/-- Whether a field of a grant lies outside its range, or a reserved byte is nonzero (R420, R421). -/
def grantBad (g : List Byte) : Bool :=
  let n := gNum g
  (List.range 12).any (fun s => decide (56 < n s 1)) || n 12 1 = 0 || n 14 1 = 0 || decide (16 < n 14 1) ||
  decide (7 < n 15 1) || decide (65536 < n 16 4) || n 20 1 = 0 || decide (32 < n 21 1) || decide (64 < n 22 1) ||
  n 23 1 != 0 || decide (16777216 < n 24 4) || decide (4096 < n 28 2 + n 30 2) ||
  decide (4096 ≤ n 42 2 ∨ 4096 < n 44 2) || n 46 2 != 0 || decide (65536 < n 48 4) || n 54 2 != 0 ||
  n 56 4 % 4096 != 0 || n 60 4 % 4096 != 0 || decide (0x04000000 < n 56 4 + n 60 4) ||
  n 64 8 % 4096 != 0 || n 72 8 % 4096 != 0 || decide (0x008000000000 < n 64 8 + n 72 8) ||
  n 80 8 % 4096 != 0 || n 88 8 % 4096 != 0 || decide (2 ^ 40 ≤ n 80 8 ∨ 2 ^ 40 < n 80 8 + n 88 8) ||
  n 96 8 % 4096 != 0 || n 104 4 % 4096 != 0 || decide (n 96 8 < n 64 8 ∨ n 64 8 + n 72 8 < n 96 8 + n 104 4) ||
  decide (n 104 4 ≤ n 108 4) ||
  n 112 8 % 1024 != 0 || decide (2 ^ 48 ≤ n 112 8) || !inRange (n 112 8) (n 96 8) (n 104 4) ||
  n 120 8 != 0

/-- The ranges of internal addresses that the device's own units hold (R421 step 1). -/
def State.deviceRanges (s : State) : List (Nat × Nat) :=
  let ids := s.ctxTotal
  let sqm := fun off => squareBase + off / 64 * 64
  [(sqm (s.fld Reg.RC_SQM Fld.RC_SQM_CSTORE_OFF), 0x1000000), (sqm (s.fld Reg.RC_SQM Fld.RC_SQM_NCACHE_OFF), 0x400000),
   (sqm (s.fld Reg.SQ_ACT Fld.SQ_ACT_ACT_OFF), 64 * s.actTotal),
   (s.fld Reg.RC_SPILL_BASE Fld.RC_SPILL_BASE_BASE * 64, 64 * s.spillSlots),
   (s.fld Reg.RC_CTX_BASE Fld.RC_CTX_BASE_BASE * 64, 64 * ids),
   (s.fld Reg.SQ_DLY_BASE Fld.SQ_DLY_BASE_BASE * 32, 32 * s.fld Reg.SQ_DLY_SIZE Fld.SQ_DLY_SIZE_ENTRIES),
   (s.fld Reg.CW_BASE Fld.CW_BASE_BASE * 16, 16 * ids)] ++
  ((List.range 16).map fun p => (s.poolBase p, s.poolCount p * s.poolSize p)) ++
  ((List.range 16).flatMap fun n =>
    [(s.fld (Reg.TE_ALOG_BASE n) Fld.TE_ALOG_BASE_BASE * 0x100000, 0x100000),
     (s.fld (Reg.TE_LQ_BASE n) Fld.TE_LQ_BASE_BASE * 32, 160 * s.fld (Reg.TE_LQ_SIZE n) Fld.TE_LQ_SIZE_RECORDS)]) ++
  s.regions.flatMap fun d =>
    (d.base, 2 ^ d.engLog2 * d.span) :: if d.mirror then [(d.base + d.mirrorOff, 2 ^ d.engLog2 * d.span)] else []

/-- Whether a grant's Square memory or DRAM range overlaps one of the device's (R421 step 1). -/
def State.grantClash (s : State) (g : List Byte) : Bool :=
  s.deviceRanges.any fun r =>
    overlaps (squareBase + gNum g 56 4) (gNum g 60 4) r.1 r.2 || overlaps (gNum g 64 8) (gNum g 72 8) r.1 r.2

/-- The classrooms that exist, but for `c`. -/
def State.otherClasses (s : State) (c : Nat) : List Nat :=
  (List.range 64).filter fun k => k != c && (s.classesAt k).grant != []

/-- Whether a grant's Directory partition overlaps the rows that another classroom's register holds in some block (R326). -/
def State.partClash (s : State) (c : Nat) (g : List Byte) : Bool :=
  (List.range 64).any fun k =>
    let f := fun (x : Fld) => s.inForce (Reg.DIR_PART k) x
    k != c && gNum g 40 2 &&& f Fld.DIR_PART_BLOCKS != 0 &&
      overlaps (gNum g 42 2) (gNum g 44 2) (f Fld.DIR_PART_ROW_BASE) (f Fld.DIR_PART_ROWS)

/-- Whether a grant's sums and ranges leave room for it beside the other classrooms' (R421 step 2, R326). -/
def State.grantFits (s : State) (c : Nat) (g : List Byte) : Bool :=
  let n := gNum g
  let others := (s.otherClasses c).map fun k => gNum (s.classesAt k).grant
  let entries := (List.range 64).foldl (fun a k => if k = c then a else a + s.fld (Reg.SQ_SHARE k) Fld.SQ_SHARE_ENTRIES) 0
  decide (entries + n 16 4 ≤ 65536) &&
  decide (others.foldl (fun a m => a + m 24 4) (n 24 4) ≤ s.ctxTotal) &&
  decide (others.foldl (fun a m => a + m 48 4) (n 48 4) ≤ 65536) &&
  !s.partClash c g && others.all fun m =>
    !overlaps (n 28 2) (n 30 2) (m 28 2) (m 30 2) &&
    !(n 40 2 &&& m 40 2 != 0 && overlaps (n 42 2) (n 44 2) (m 42 2) (m 44 2)) &&
    !overlaps (n 56 4) (n 60 4) (m 56 4) (m 60 4) && !overlaps (n 64 8) (n 72 8) (m 64 8) (m 72 8)

/-! What a grant binds (R422). -/

/-- The shared desk pages of a core that no classroom holds. -/
def State.freeDesk (s : State) (k : Nat) : List Nat :=
  let d := coreReg Reg.CORE_DESK k
  (List.range 7).filter fun p => (pageOwner (s.reg d) p).isNone && (pageOwner (s.actAt d) p).isNone

/-- The threads of a core that are free to bind. -/
def State.freeThreads (s : State) (k : Nat) : List Nat :=
  ((List.range 8).map (8 * k + ·)).filter fun t =>
    !isMonitor t && (bindingOf (s.reg (thrReg t))).isNone && (bindingOf (s.actAt (thrReg t))).isNone

/-- The memory pages of a Street that no classroom holds. -/
def State.freePages (s : State) (st : Nat) : List Nat :=
  (List.range 32).filter fun p =>
    s.fld (Reg.ST_PAGE st p) Fld.ST_PAGE_VALID = 0 && s.inForce (Reg.ST_PAGE st p) Fld.ST_PAGE_VALID = 0

/-- The threads that a grant takes in a Street: one core at a time, and round again. -/
def State.pickThreads (s : State) (st n desk : Nat) : List Nat :=
  let cores := ((List.range 8).map (8 * st + ·)).filter fun k => decide (desk ≤ (s.freeDesk k).length)
  ((List.range 7).flatMap fun j => cores.filterMap fun k => (s.freeThreads k)[j]?).take n

/-- All the threads a grant takes; `none` if there are too few, or too few pages (R421 step 2). -/
def State.grantPlan (s : State) (g : List Byte) : Option (List Nat) :=
  let per := (List.range 12).map fun st => (st, gNum g st 1, s.pickThreads st (gNum g st 1) (gNum g 15 1))
  if per.all fun p => p.2.2.length = p.2.1 && (p.2.1 = 0 || decide (gNum g 21 1 ≤ (s.freePages p.1).length)) then
    some (per.flatMap (·.2.2))
  else none

/-- The cores that threads lie on, and the Streets. -/
def coresOf (ts : List Nat) : List Nat := (List.range 96).filter fun k => ts.any fun t => coreOf t == k
def streetsOf (ts : List Nat) : List Nat := (List.range 12).filter fun st => ts.any fun t => streetOf t == st

/-- Write the register grants of a classroom and commit them (R429 step 1). -/
def writeGrants (o : Origin) (c : Nat) (g : List Byte) (ts : List Nat) : M Unit := do
  let n := gNum g
  let cores := coresOf ts
  let streets := streetsOf ts
  shadowWrite o (Reg.SQ_SHARE c) (Fld.SQ_SHARE_ENTRIES.place (n 16 4) ||| Fld.SQ_SHARE_WEIGHT.place (n 20 1))
  shadowWrite o (Reg.DIR_PART c)
    (Fld.DIR_PART_BLOCKS.place (n 40 2) ||| Fld.DIR_PART_ROW_BASE.place (n 42 2) ||| Fld.DIR_PART_ROWS.place (n 44 2))
  each ((List.range (n 30 2)).map (n 28 2 + ·)) fun i => do
    let w ← rd (·.reg (Reg.CH i))
    shadowWrite o (Reg.CH i)
      (Fld.CH_TAIL.set (Fld.CH_WATCH_EN.set (Fld.CH_VALID.set (Fld.CH_CLASSROOM.set w c) 1) 0) 0)
  each ((List.range 64).filter (bitOf (n 32 8))) fun i => do
    let w ← rd (·.reg (Reg.HP_GRP_CL i))
    shadowWrite o (Reg.HP_GRP_CL i) (Word.ofNat (setBit w.toNat c true))
  each ((List.range 16).filter (bitOf (n 52 2))) fun p => do
    let w ← rd (·.reg (Reg.BP_POOL_CL p))
    shadowWrite o (Reg.BP_POOL_CL p) (Word.ofNat (setBit w.toNat c true))
  each streets fun st => do
    let ps ← rd (·.freePages st)
    each (ps.take (n 21 1)) fun p =>
      shadowWrite o (Reg.ST_PAGE st p) (Fld.ST_PAGE_CLASSROOM.place c ||| Fld.ST_PAGE_VALID.place 1)
  each cores fun k => do
    let ps ← rd (·.freeDesk k)
    let w ← rd (·.reg (coreReg Reg.CORE_DESK k))
    onlyIf (n 15 1 != 0) (shadowWrite o (coreReg Reg.CORE_DESK k)
      ((ps.take (n 15 1)).foldl (fun w p => Fld.set ⟨8 * p + 6, 8 * p⟩ w (c + 64)) w))
  each ts fun t => do
    let w ← rd (·.reg (thrReg t))
    shadowWrite o (thrReg t) (Fld.CORE_THR_BOUND.set (Fld.CORE_THR_CLASSROOM.set w c) 1)
  each ([.sq, .dir, .ch, .hp, .bp] ++ streets.map .st ++ cores.map .thr) (commitGrp o)

/-- The threads bound to a classroom. -/
def State.classThreads (s : State) (c : Nat) : List Nat := (List.range 768).filter fun t => s.boundTo t == some c

/-- The shared desk pages a classroom holds, as core and page. -/
def State.classDesk (s : State) (c : Nat) : List (Nat × Nat) :=
  (List.range 96).flatMap fun k =>
    ((List.range 7).filter fun p => pageOwner (s.actAt (coreReg Reg.CORE_DESK k)) p == some c).map fun p => (k, p)

/-- The Street memory pages a classroom holds, as Street and page. -/
def State.classPages (s : State) (c : Nat) : List (Nat × Nat) :=
  (List.range 12).flatMap fun st => ((List.range 32).filter fun p =>
    s.inForce (Reg.ST_PAGE st p) Fld.ST_PAGE_VALID = 1 && s.inForce (Reg.ST_PAGE st p) Fld.ST_PAGE_CLASSROOM = c).map
      fun p => (st, p)

/-- Zero every desk page and Street memory page of a classroom (R429 step 2, R432 step 4). -/
def zeroPages (c : Nat) : M Unit := do
  let ds ← rd (·.classDesk c)
  each ds fun p => do
    let a := p.1 * 0x20000 + p.2 * 0x2000
    let ks ← rd fun s => (s.desk.map Prod.fst).filter fun x => decide (a ≤ x ∧ x < a + 0x2000)
    each ks fun x => emit (.desk x 0)
  let ps ← rd (·.classPages c)
  each ps fun p => zeroMem (streetBase p.1 + 0x200000 + p.2 * 0x10000) 0x10000

/-- Start every bound thread of a classroom (R429 step 4); those of a core in Detention start when it returns (R496). -/
def startClass (c : Nat) : M Unit := do
  let ts ← rd fun s => (s.classThreads c).filter fun t => !s.fenced ⟨.core, coreOf t⟩
  each ts restartThread

/-- GEN and STATE of a classroom as a record gives them (R475). -/
def clWord (gen st : Nat) : Nat := gen % 256 + st % 8 * 2 ^ 8

/-! Creation (R418, R421, R429). -/

/-- Whether a PASID is bound to a classroom, or about to be (R418). -/
def State.pasidTaken (s : State) (p : Nat) : Bool :=
  ((List.range 64).any fun k =>
    s.fld (Reg.CL_BIND k) Fld.CL_BIND_BOUND = 1 && s.fld (Reg.CL_BIND k) Fld.CL_BIND_PASID = p) ||
  s.bg.any fun b => match b.kind with
    | .classCreate _ q _ => q == p
    | _ => false

/-- CLASS_CREATE (R418, R421, R429 step 1, R507). -/
def execClassCreate (c : Cmd) (s : State) : Host.Outcome State Fault Refusal :=
  commit (command (fun s => ⟨0x50, modesR, false, (· == 2), 0, maskOf 5 0 ||| maskOf 27 8, 0, 0,
      !(grantBad (padTo 128 c.payload) || s.grantClash (padTo 128 c.payload))⟩) c (do
    let k := c.p0 % 64
    let pasid := bitsOf c.p0 27 8
    let g := padTo 128 c.payload
    let st ← rd (·.clState k)
    let taken ← rd (·.pasidTaken pasid)
    let fits ← rd (·.grantFits k g)
    let plan ← rd (·.grantPlan g)
    let o ← rd (·.cmdOrigin c)
    let dram ← rd (·.dramUp)
    if !dram || (st != clFree && st != clActive) then pure (ans stBusyRetry)
    else if st = clActive || taken then pure (ans stExists)
    else match (if fits then plan else none) with
      | none => pure (ans stNoRoom)
      | some ts => do
        let a ← background c 0x50 (.classCreate k pasid g)
        pure { a with after := do
          gbRecord o 4 1 k 0 (keyFold g)
          setClState k clCreating
          emit (.classes k ⟨g⟩)
          writeGrants o k g ts })) s

/-- Whether the thread groups that an operation committed have taken effect (R204). -/
def State.thrDone (s : State) (ks : List Nat) : Bool := ks.all fun k => s.grpDone (.thr k)

/-- CLASS_CREATE_COMPLETE: the grants are in force; pages are zeroed, the PASID bound, the threads started (R429 steps 2 to
5). -/
def execClassCreateComplete (c : Nat) (s : State) : Host.Outcome State Fault Refusal :=
  commit (do
    let up ← rd (·.tenikUp)
    let b ← rd (·.bgFind fun k => match k with
      | .classCreate k _ _ => k == c
      | _ => false)
    let cores ← rd fun s => (List.range 96).filter fun k => ((List.range 8).any fun i =>
      bindingOf (s.reg (thrReg (8 * k + i))) == some c)
    let done ← rd (·.thrDone cores)
    match b with
    | none => pure ()
    | some b => match b.kind with
      | .classCreate _ pasid _ => onlyIf (up && done) do
        let o ← rd (·.bgOrigin b)
        zeroPages c
        let w ← rd (·.reg (Reg.CL_BIND c))
        shadowWrite o (Reg.CL_BIND c) (Fld.CL_BIND_BOUND.set (Fld.CL_BIND_PASID.set w pasid) 1)
        commitGrp o .cl
        startClass c
        setClState c clActive
        bgEnd b stDone 0
      | _ => pure ()) s

/-! Reset (R430, R431, R512). -/

/-- The activation of a thread goes away with its journal. -/
def dropThreadAct (t : Nat) : M Unit := do
  let th ← rd (·.thread t)
  modThreads t fun th => { th with act := none, journal := .empty }
  match th.act with
  | some i => actRelease i
  | none => pure ()

/-- The reset point: the generation moves on, and every bound thread stops with what it has under way (R430, R431 step 2,
R291). -/
def resetPoint (c : Nat) : M Unit := do
  let gen ← rd (·.clgen c)
  setFld (Reg.CL_BIND c) Fld.CL_BIND_GEN ((gen + 1) % 256)
  let ts ← rd fun s => (s.classThreads c).filter fun t => (s.thread t).state != .reset
  let late ← rd fun s => ts.countP fun t => match (s.thread t).wait with
    | .chWrite .. => true
    | _ => false
  countBy Reg.CH_CNT_DISCARDED_GEN late
  each ts fun t => do
    stopThread t .stopped
    dropThreadAct t
    cancelTimer t
  let us ← rd fun s => (s.units.filter fun e => e.2.any fun r => r.req.room == some c).map Prod.fst
  each us fun u => emit (.units u none)
  let qs ← rd fun s => (s.hqueues.filter fun e => e.2.any fun w => w.req.room == some c).map Prod.fst
  each qs fun q => modHqueues q fun l => l.filter fun w => w.req.room != some c

/-- A context is freed without default action; what a sealed RETIRE of it has still to hand on stays (R150, R181). -/
def discardCtx (x : Nat) : M Unit := do
  let l ← rd fun s => (s.actsOf x).filter fun e => e.2.place != .retiring
  each l fun e => do
    unqueueAct e.1
    actRelease e.1
  let c ← rd (·.ctx x)
  cwClose x c.cgen
  freeCtx x

/-- A message that was admitted and has no context yet is discarded (R33). -/
def discardAdmitted (a : Admitted) : M Unit := do
  bufDrop none a.msg.buffer
  termUnref a.msg.term
  match a.heir with
  | some (y, g) => cwClose y g
  | none => pure ()

/-- The egress messages of a classroom's old life are discarded (R184). -/
def discardEgress (c : Nat) : M Unit := do
  let gen ← rd (·.clgen c)
  let l ← rd fun s => s.cw.filter fun e => e.classroom = c && e.clgen != gen
  each l fun e => each e.msgs discardMsg
  modCw fun w => w.filter fun e => !(e.classroom = c && e.clgen != gen)

/-- Whether a TX stream refers to a buffer. -/
def State.txHolds (s : State) (h : Nat) : Bool :=
  s.streams.any fun e => e.2.any fun st => st.tx && (st.unacked ++ st.waiting).any fun m => m.e.buffer == h

/-- The buffers a classroom owns, as handles (R431 step 5). -/
def State.classBufs (s : State) (c : Nat) : List Nat :=
  (s.bufs.filter fun e => e.2.owner == some c && e.2.count != 0).map fun e => liveHandle e.1 e.2

/-- Steps 3 and 5 of R431: contexts, queued messages, egress messages, channels and buffers of the old life. -/
def discardOld (c : Nat) : M Unit := do
  let gen ← rd (·.clgen c)
  let xs ← rd fun s => (s.ctxList.filter fun e => e.2.msg.classroom = c && e.2.clgen != gen).map Prod.fst
  each xs discardCtx
  let l ← rd fun s => (s.admitted c).filter fun a => a.clgen != gen
  each [2 * c, 2 * c + 1] fun k => modAdmitQ k fun q => q.filter fun a => a.clgen = gen
  each l discardAdmitted
  discardEgress c
  let chs ← rd fun s => (s.chans.map Prod.fst).filter fun n =>
    s.inForce (Reg.CH n) Fld.CH_VALID = 1 && s.inForce (Reg.CH n) Fld.CH_CLASSROOM = c
  each chs chEmpty
  let bs ← rd fun s => (s.classBufs c).filter fun h => !s.txHolds h
  each bs bufFree

/-- The unfinished CLASS_RESET or CLASS_DESTROY of a classroom. -/
def State.classOp (s : State) (c : Nat) : Option BgOp := s.bgFind fun k => match k with
  | .classReset k | .classDestroy k => k == c
  | _ => false

/-- Note how far a background operation is. -/
def setPhase (b : BgOp) (n : Nat) : M Unit := modBg fun l => l.map fun x => if x == b then { x with phase := n } else x

/-- The record of a reset or destruction of a classroom, the generation it ends and the one it begins (R475): it enters the
queue before the change begins (R472). -/
def resetRecord (o : Origin) (c action st : Nat) : M Unit := do
  let gen ← rd (·.clgen c)
  gbRecord o 4 action c (clWord gen clActive) (clWord ((gen + 1) % 256) st)

/-- The begin of CLASS_RESET and CLASS_DESTROY: the record, the state, and the classroom's ring is disabled (R431 step 1). -/
def beginReset (o : Origin) (c st : Nat) : M Unit := do
  if st = clResetting then resetRecord o c 3 clActive else resetRecord o c 4 clFree
  setClState c st
  let k := 16 + c
  let old ← rd (·.reg (qCtl k))
  let new := Fld.Q_CTL_EN.set old 0
  onlyIf (Fld.Q_CTL_EN.isSet old) do
    gbRecord o 1 1 (qCtl k % 2 ^ 26) old.toNat new.toNat
    emit (.regs (qCtl k) new)
    queueStop k

/-- CLASS_RESET and CLASS_DESTROY as commands. -/
def classCommand (c : Cmd) (op st : Nat) (kind : Nat → BgKind) : M Unit :=
  command (fun _ => ⟨op, modesR, false, (· == 0), 0, maskOf 5 0, 0, 0, true⟩) c (do
    let k := c.p0 % 64
    let now ← rd (·.clState k)
    let o ← rd (·.cmdOrigin c)
    if now = clFree then pure (ans stNotFound)
    else if now != clActive then pure (ans stBusyRetry)
    else do
      let a ← background c op (kind k)
      pure { a with after := beginReset o k st })

/-- CLASS_RESET (R431). -/
def execClassReset (c : Cmd) (s : State) : Host.Outcome State Fault Refusal :=
  commit (classCommand c 0x52 clResetting .classReset) s

/-- CLASS_DESTROY (R432). -/
def execClassDestroy (c : Cmd) (s : State) : Host.Outcome State Fault Refusal :=
  commit (classCommand c 0x51 clDestroying .classDestroy) s

/-- CLASS_RESET_POINT: the ring is idle (R431 step 2). -/
def execClassResetPoint (c : Nat) (s : State) : Host.Outcome State Fault Refusal :=
  commit (do
    let up ← rd fun s => s.tenikUp && s.fld (qStatus (16 + c)) Fld.Q_STATUS_EN_ACT = 0
    let b ← rd (·.classOp c)
    match b with
    | none => pure ()
    | some b => onlyIf (up && b.phase = 0) do
      resetPoint c
      setPhase b 1) s

/-- Whether the old life of a classroom has no request and no host read outstanding and no sealed RETIRE unfinished (R150,
R431). -/
def State.classIdle (s : State) (c : Nat) : Bool :=
  (s.sq.lateReads.all fun r => r.2 != c) &&
  (s.ctxList.all fun e => e.2.msg.classroom != c || e.2.reqs = 0) &&
  s.acts.all fun e => e.2.all fun a => tagClass a.tag != c || a.place != .retiring

/-- CLASS_RESET_COMPLETE (R431 steps 3 to 7). -/
def execClassResetComplete (c : Nat) (s : State) : Host.Outcome State Fault Refusal :=
  commit (do
    let up ← rd fun s => s.tenikUp && s.classIdle c
    let b ← rd (·.bgFind (· = .classReset c))
    match b with
    | none => pure ()
    | some b => onlyIf (up && b.phase = 1) do
      let gen ← rd (·.clgen c)
      discardOld c
      startClass c
      setClState c clActive
      bgEnd b stDone gen) s

/-- Steps 2 to 6 of R431 for an ACTIVE classroom, on the way from SAFE to STAGE (R512). -/
def resetNow (o : Origin) (c : Nat) : M Unit := do
  resetRecord o c 3 clActive
  resetPoint c
  discardOld c
  startClass c

/-! Destruction (R432). -/

/-- Close a stream at once (R63, R432 step 1); egress messages that wait at its release are counted, and a graceful close of it
that was under way ends (R64). -/
def closeNow (o : Origin) (id : Nat) : M Unit := do
  let st ← rd (·.stream id)
  match st with
  | none => pure ()
  | some st => do
    gbRecord o 9 2 id st.recWord (st.recWord - 1)
    if st.tx then txRelease id else dropHeld id
    streamRemove id
    bgFinish (· == .streamClose id) stDone 1

/-- A table's descriptor as its 64 bytes (R295). -/
def State.tableBytes (s : State) (t : Nat) : List Byte :=
  (List.range 8).flatMap fun k => leBytes 8 (s.reg (tableWordOff t k)).toNat

/-- A table stops being valid: its descriptor is cleared (R295, R319). -/
def tableClear (o : Origin) (t : Nat) : M Unit := do
  let ws ← rd (·.tableBytes t)
  gbRecord o 5 2 t (keyFold ws) 0
  each (List.range 8) fun k => emit (.regs (tableWordOff t k) 0)
  emit (.learn t none)

/-- Whether an engine has taken an operation on a table that has not completed (R319). -/
def State.tableBusy (s : State) (t : Nat) : Bool :=
  s.engines.any fun e => (e.2.ports.any fun p => p.2.any fun k => k.table == t && k.desc.valid) ||
    e.2.taken.any fun l => l.req.table == t && l.desc.isSome

/-- Make a Directory entry invalid (R330, R338). -/
def dirClear (o : Origin) (i : Nat) : M Unit := do
  let old ← rd (·.dirImage i)
  let rows ← rd fun s => (s.entryOf i).map fun r => (r, { s.dirShadowAt r with valid := false })
  dirPut rows
  let new ← rd (·.dirImage i)
  gbRecord o 6 2 i (keyFold old) (keyFold new)

/-- The valid entries of a classroom's Directory partition, whatever the widths of its blocks are now (R326, R338). -/
def State.partEntries (s : State) (c : Nat) : List Nat :=
  (s.dirShadow.filter fun e => e.2.valid && s.partRow c (e.1 % 4096) &&
    bitOf (s.inForce (Reg.DIR_PART c) Fld.DIR_PART_BLOCKS) (e.1 / 4096)).map Prod.fst

/-- The channels whose CH_n names a classroom and is VALID. -/
def State.chansOf (s : State) (c : Nat) : List Nat :=
  (List.range 4096).filter fun n => s.fld (Reg.CH n) Fld.CH_VALID = 1 && s.fld (Reg.CH n) Fld.CH_CLASSROOM = c

/-- Clear the register grants of a classroom and commit them (R432 step 5): whatever the grant said and whoever wrote them. -/
def clearGrants (o : Origin) (c : Nat) : M Unit := do
  let ts ← rd (·.classThreads c)
  let ds ← rd (·.classDesk c)
  let ps ← rd (·.classPages c)
  let chs ← rd (·.chansOf c)
  let share ← rd (·.reg (Reg.SQ_SHARE c))
  shadowWrite o (Reg.SQ_SHARE c) (Fld.SQ_SHARE_ENTRIES.set share 0)
  shadowWrite o (Reg.DIR_PART c) 0
  each chs fun i => do
    let w ← rd (·.reg (Reg.CH i))
    shadowWrite o (Reg.CH i) (Fld.CH_VALID.set w 0)
  each ((List.range 64).map Reg.HP_GRP_CL ++ (List.range 16).map Reg.BP_POOL_CL) fun off => do
    let w ← rd (·.reg off)
    onlyIf (w.getLsbD c) (shadowWrite o off (Word.ofNat (setBit w.toNat c false)))
  each ps fun p => do
    let w ← rd (·.reg (Reg.ST_PAGE p.1 p.2))
    shadowWrite o (Reg.ST_PAGE p.1 p.2) (Fld.ST_PAGE_VALID.set w 0)
  let cores := (List.range 96).filter fun k => ds.any fun p => p.1 == k
  each cores fun k => do
    let w ← rd (·.reg (coreReg Reg.CORE_DESK k))
    shadowWrite o (coreReg Reg.CORE_DESK k) (Word.ofNat
      ((ds.filter fun p => p.1 == k).foldl (fun w p => setBit w (8 * p.2 + 6) false) w.toNat))
  each ts fun t => do
    let w ← rd (·.reg (thrReg t))
    shadowWrite o (thrReg t) (Fld.CORE_THR_BOUND.set w 0)
  each ts fun t => modThreads t fun th => { Thread.zero with tgen := (th.tgen + 1) % 256 }
  each ([.sq, .dir, .ch, .hp, .bp] ++ (streetsOf ts).map .st ++ (coresOf ts).map .thr) (commitGrp o)

/-- The cores on which a classroom still holds a thread or a desk page. -/
def State.classCores (s : State) (c : Nat) : List Nat :=
  (List.range 96).filter fun k => (s.classDesk c).any (fun p => p.1 == k) || (s.classThreads c).any fun t => coreOf t == k

/-- The end of a destruction: the PASID is unbound and the classroom is FREE (R432 step 6). -/
def endDestroy (b : BgOp) (o : Origin) (c : Nat) : M Unit := do
  let w ← rd (·.reg (Reg.CL_BIND c))
  shadowWrite o (Reg.CL_BIND c) (Fld.CL_BIND_BOUND.set w 0)
  commitGrp o .cl
  emit (.classes c Classroom.none)
  setClState c clFree
  bgEnd b stDone 0

/-- CLASS_DESTROY_COMPLETE (R432); it waits where a thread group that it commits has another change pending. -/
def execClassDestroyComplete (c : Nat) (s : State) : Host.Outcome State Fault Refusal :=
  commit (do
    let up ← rd (·.tenikUp)
    let tables ← rd fun s => (List.range 64).filter fun t => (s.table t).valid && (s.table t).classroom = c
    let idle ← rd fun s => s.classIdle c && tables.all fun t => !s.tableBusy t
    let b ← rd (·.bgFind (· = .classDestroy c))
    match b with
    | none => pure ()
    | some b => do
      let o ← rd (·.bgOrigin b)
      onlyIf (up && b.phase = 1 && idle) do
        discardOld c
        let ids ← rd fun s => (s.streams.filter fun e => e.2.any fun st => st.classroom = c).map Prod.fst
        each ids (closeNow o)
        each tables (tableClear o)
        let es ← rd (·.partEntries c)
        each es (dirClear o)
        let bs ← rd (·.classBufs c)
        each bs bufFree
        zeroPages c
        clearGrants o c
        setPhase b 2
      let b' ← rd (·.bgFind (· = .classDestroy c))
      let gone ← rd fun s => (s.classCores c).isEmpty
      match b' with
      | some b' => onlyIf (up && b'.phase = 2 && gone) (endDestroy b' o c)
      | none => pure ()) s

/-! Shares, the dirty log, status. -/

/-- What a command that names an ACTIVE classroom answers otherwise (table "Classroom states"). -/
def State.classRefusal (s : State) (c : Nat) : Option Nat :=
  if s.clState c = clFree then some stNotFound else if s.clState c != clActive then some stBusyRetry else none

/-- CLASS_SHARE (R154, R424). -/
def execClassShare (c : Cmd) (s : State) : Host.Outcome State Fault Refusal :=
  commit (command (fun _ => ⟨0x53, modesR, false, (· == 0), 0, maskOf 5 0, maskOf 16 0 ||| maskOf 31 24, 0,
      decide (bitsOf c.p1 16 0 ≤ 65536)⟩) c (do
    let k := c.p0 % 64
    let no ← rd (·.classRefusal k)
    let sum ← rd fun s => (List.range 64).foldl
      (fun a i => if i = k then a else a + s.fld (Reg.SQ_SHARE i) Fld.SQ_SHARE_ENTRIES) (bitsOf c.p1 16 0)
    let o ← rd (·.cmdOrigin c)
    match no with
    | some st => pure (ans st)
    | none =>
      if 65536 < sum then pure (ans stNoRoom)
      else do
        let old ← rd (·.reg (Reg.SQ_SHARE k))
        let new := Fld.SQ_SHARE_WEIGHT.set (Fld.SQ_SHARE_ENTRIES.set old (bitsOf c.p1 16 0)) (bitsOf c.p1 31 24)
        gbRecord o 4 2 k old.toNat new.toNat
        shadowWrite o (Reg.SQ_SHARE k) new
        commitGrp o .sq
        pure (ans stDone))) s

/-- CLASS_MIGRATE_LOG (R435, R436). -/
def execClassMigrateLog (c : Cmd) (s : State) : Host.Outcome State Fault Refusal :=
  commit (command (fun _ => ⟨0x54, modesR, false, (· == 0), 0, maskOf 5 0 ||| maskOf 8 8, 2 ^ 64 - 1, maskOf 31 0, true⟩) c (do
    let k := c.p0 % 64
    let no ← rd (·.classRefusal k)
    let o ← rd (·.cmdOrigin c)
    let gen ← rd (·.clgen k)
    match no with
    | some st => pure (ans st)
    | none => do
      let w := clWord gen clActive
      let len ← rd (·.reg (Reg.CL_DLOG_LEN k))
      if bitOf c.p0 8 then do
        gbRecord o 4 5 k w w
        liveWrite o (Reg.CL_DLOG_BASE k) (Word.ofNat c.p1)
        liveWrite o (Reg.CL_DLOG_LEN k) (Fld.CL_DLOG_LEN_EN.set (Fld.CL_DLOG_LEN_PAGES.set len c.p2) 1)
      else do
        gbRecord o 4 6 k w w
        liveWrite o (Reg.CL_DLOG_LEN k) (Fld.CL_DLOG_LEN_EN.set len 0)
      pure (ans stDone))) s

/-- The CLASS_STATUS block (R437). -/
def State.classBlock (s : State) (c : Nat) : List Byte :=
  let len := s.reg (Reg.CL_DLOG_LEN c)
  leBytes 1 (s.clState c) ++ leBytes 1 (s.clgen c) ++ leBytes 1 (s.grantLe c 14 1) ++ [0] ++ leBytes 4 (s.pasidOf c) ++
  leBytes 4 (s.occupancy c) ++ leBytes 4 (s.ctxsOf c) ++ leBytes 2 (s.classThreads c).length ++
  leBytes 1 ((List.range 64).countP fun t => (s.table t).valid && (s.table t).classroom = c) ++ [0] ++
  leBytes 4 (s.streams.countP fun e => e.2.any fun st => st.classroom = c) ++
  leBytes 8 (s.reg (Reg.CL_CNT_PASID_VIOL c)).toNat ++ leBytes 8 (s.reg (Reg.CL_CNT_DLOG_MARKS c)).toNat ++
  leBytes 1 (Fld.CL_DLOG_LEN_EN.get len + 2 * Fld.CL_DLOG_LEN_OVF.get len) ++ zeros 23

/-- CLASS_STATUS (R437). -/
def execClassStatus (c : Cmd) (s : State) : Host.Outcome State Fault Refusal :=
  commit (command (fun _ => ⟨0x55, modesA, true, (· == 0), 64, maskOf 5 0, 0, 0, true⟩) c (do
    let k := cmdClass c (c.p0 % 64)
    let no ← rd (·.classRefusal k)
    let d ← rd (·.classBlock k)
    match no with
    | some st => pure (ans st)
    | none => pure (ansData 0 d))) s

end Sys2Proof.Machine
end

