-- ==== Sys2Proof/Machine/Control.lean ====
section
/-! DEFINITION. Branches (R238), traps (R258, R259), bank and control registers (R224, R229, R248), events and work
(R205, R206, R239, R240), channels (R245, R373 to R378) and Hall Pass (R247, R380 to R387). -/

namespace Sys2Proof.Machine

/-! Branches. -/

/-- BC (R238). -/
def execBc (t cond disp : Nat) (s : State) : Host.Outcome State Fault Refusal :=
  commit (issue t (wordB 0x20 cond disp) true fun th =>
    match condHolds (cond % 32) th.flags with
    | none => undef t (wordB 0x20 cond disp) 0
    | some false => finishNext t id
    | some true => do
      count (coreReg Reg.CORE_CNT_TAKEN_BRANCH (coreOf t))
      finishAt t (th.pc + BitVec.ofNat 48 ((sextW 21 disp).toNat * 4)) fun th =>
        if cond % 32 = 31 then th.setG 31 (Word.ofNat (th.pcPlus 4).toNat) else th) s

/-- A jump to a register's value, linking `rd'` (R238). -/
def jumpTo (t rd' : Nat) (target : Word) : M Unit :=
  if target.toNat % 4 != 0 then trapHere t causeAlign target
  else do
    count (coreReg Reg.CORE_CNT_TAKEN_BRANCH (coreOf t))
    finishAt t (BitVec.ofNat 48 target.toNat) fun th => th.setG rd' (Word.ofNat (th.pcPlus 4).toNat)

/-- JR (R238); `rsv` the bits of fn above its lowest. -/
def execJr (t ra rsv : Nat) (s : State) : Host.Outcome State Fault Refusal :=
  commit (issue t (wordA 0x21 0 ra 0 (rsv % 1024 * 2)) (decide (rsv % 1024 = 0)) fun th => jumpTo t 0 (th.gr (ra % 32))) s

/-- JALR (R238). -/
def execJalr (t rd ra rsv : Nat) (s : State) : Host.Outcome State Fault Refusal :=
  commit (issue t (wordA 0x21 rd ra 0 (rsv % 1024 * 2 + 1)) (decide (rsv % 1024 = 0)) fun th =>
    jumpTo t (rd % 32) (th.gr (ra % 32))) s

/-! Traps. -/

/-- TRAP (R248, R256): TPC is the next address.  DESIGN CHOICE: a word that no instruction is assigned to has no row of its own;
`other` is such a word issued in the place of a TRAP, and it raises UNDEF (R233, R234, R250, R287). -/
def execTrap (t imm _rsv : Nat) (other : Option Nat) (s : State) : Host.Outcome State Fault Refusal :=
  commit (match other with
    | some w => issueUnassigned t w
    | none => issue t (wordI 0x28 0 0 0 imm) true fun th => trap t causeTrap (Word.ofNat (imm % 2 ^ 14)) (th.pcPlus 4)) s

/-- The level ERET takes: a TPRIV of 3 acts as 2, a Monitor never leaves P0, and ERET never raises the privilege (R225, R259,
TSTATE). -/
def eretPriv (t priv : Nat) (tstate : Word) : Nat := if isMonitor t then 0 else max priv (min 2 (bitsOf tstate.toNat 1 0))

/-- ERET (R259); `rsv` its rd, ra and imm14. -/
def execEret (t rsv : Nat) (s : State) : Host.Outcome State Fault Refusal :=
  let word := wordI 0x28 (rsv / 2 ^ 19) (rsv / 2 ^ 14) 1 rsv
  commit (issue t word (decide (rsv % 2 ^ 24 = 0)) fun th =>
    if th.priv = 2 then trapHere t causePriv (Word.ofNat word)
    else finishAt t (BitVec.ofNat 48 (th.tpc.toNat / 4 * 4)) fun th =>
      { th with flags := .ofNat (bitsOf th.tstate.toNat 5 2), priv := eretPriv t th.priv th.tstate
                tstate := th.tstate &&& ~~~0x40 }) s

/-! Bank and control registers. -/

/-- BKLD (R229); `rsv` holds rd[4:3], rb and fn[10:1]. -/
def execBkld (t bk ra rsv : Nat) (s : State) : Host.Outcome State Fault Refusal :=
  let word := wordA 0x0C (bk % 8 + rsv % 4 * 8) ra (rsv / 4) (rsv / 128 % 1024 * 2)
  commit (issue t word (decide (rsv % 2 ^ 17 = 0 ∧ bk % 8 ≠ 0)) fun th => do
    let v := th.gr (ra % 32)
    let ok ← rd fun s => th.priv = 0 || s.windowRight t th.priv (bitsOf v.toNat 47 18 * 2 ^ 18)
    if ok then finishNext t fun th => th.setBank (bk % 8) (bankOf v) else trapHere t causeBank v) s

/-- BKRD (R248); `rsv` holds ra[4:3], rb and fn[10:1]. -/
def execBkrd (t rd bk rsv : Nat) (s : State) : Host.Outcome State Fault Refusal :=
  let word := wordA 0x0C rd (bk % 8 + rsv % 4 * 8) (rsv / 4) (rsv / 128 % 1024 * 2 + 1)
  commit (issue t word (decide (rsv % 2 ^ 17 = 0)) fun _ =>
    finishNext t fun th => th.setG (rd % 32) (th.bank (bk % 8))) s

/-- What a privilege level may do with a control register (table "Control registers"): read it, write it; `none` for a
number not in the table. -/
def crAccess (num priv : Nat) : Option (Bool × Bool) :=
  let p0 := priv = 0
  let p01 := priv ≤ 1
  if num = 0x000 ∨ num = 0x001 ∨ num = 0x004 ∨ num = 0x007 ∨ num = 0x008 ∨ (0x00A ≤ num ∧ num ≤ 0x00C) then some (true, false)
  else if num = 0x002 ∨ num = 0x003 ∨ num = 0x006 then some (true, true)
  else if num = 0x005 then some (false, true)
  else if num = 0x009 then some (true, p01)
  else if num = 0x010 then some (p01, p0)
  else if num = 0x011 then some (p0, p0)
  else if 0x012 ≤ num ∧ num ≤ 0x015 then some (p01, p01)
  else none

/-- JSTAT. -/
def Thread.jstat (th : Thread) : Nat :=
  th.journal.writes.length % 64 + th.journal.outs.length % 8 * 2 ^ 8 + th.journal.tokens.length % 32 * 2 ^ 16 +
    bit th.journal.overflowed * 2 ^ 24 + bit th.act.isSome * 2 ^ 25

/-- What CRD reads (table "Control registers"). -/
def State.crRead (s : State) (t num : Nat) : Word :=
  let th := s.thread t
  match num with
  | 0x000 => Word.ofNat (t + (s.boundTo t).getD 0 * 2 ^ 16 + bit (s.boundTo t).isSome * 2 ^ 22 + s.deviceId % 2 ^ 12 * 2 ^ 32)
  | 0x001 => Word.ofNat th.priv
  | 0x002 => Word.ofNat th.flags.toNat
  | 0x003 => Word.ofNat th.repc
  | 0x004 => Word.ofNat th.evf.toNat
  | 0x006 => match th.timer with
    | some h => Word.ofNat (h + 2 ^ 32)
    | none => 0
  | 0x007 => Word.ofNat (2 * s.monoNs)
  | 0x008 => Word.ofNat s.timeNs
  | 0x009 => Word.ofNat th.helperEn
  | 0x00A => Word.ofNat th.jstat
  | 0x00B => Word.ofNat th.home.toNat
  | 0x00C => Word.ofNat (th.wmask.toNat + th.wrd % 32 * 2 ^ 32)
  | 0x010 => th.tvec1
  | 0x011 => th.tvec0
  | 0x012 => th.tpc
  | 0x013 => th.tcause
  | 0x014 => th.tval
  | 0x015 => th.tstate
  | _ => 0

/-- The list a thread's timer goes on: the lowest class of its classroom's grant, list 0 for a Monitor or an unbound
thread (R207, R423). -/
def State.timerList (s : State) (t : Nat) : Nat :=
  match s.boundTo t with
  | none => 0
  | some c => (findBelow 8 (bitOf (s.grantLe c 12 1))).getD 0

/-- A write to TIMER (R207). -/
def writeTimer (t d : Nat) : M Unit := do
  cancelTimer t
  onlyIf (d != 0) do
    let l ← rd (·.timerList t)
    let h ← delayArm l d (.thread t)
    modThreads t fun th => { th with timer := h }

/-- TSTATE as a write at a level leaves it: at P1 a TPRIV of 0 acts as 1, and 3 acts as 2. -/
def tstateOf (priv : Nat) (v : Word) : Word :=
  let p := v.toNat % 4
  let p := if p = 3 then 2 else if p = 0 ∧ priv = 1 then 1 else p
  Word.ofNat (v.toNat % 128 / 4 * 4 + p)

/-- A thread with a control register written by CWR; TIMER and what may only be read are elsewhere. -/
def Thread.crWrite (th : Thread) (num : Nat) (v : Word) : Thread :=
  match num with
  | 0x002 => { th with flags := .ofNat v.toNat }
  | 0x003 => { th with repc := v.toNat % 2 ^ 17 }
  | 0x005 =>
    let m : BitVec 32 := v.setWidth 32 &&& ~~~0x20#32
    { th with evf := th.evf &&& ~~~(if th.priv = 0 then m else m &&& ~~~1#32) }
  | 0x009 => { th with helperEn := if th.priv = 0 then v.toNat % 2 ^ 12 else th.helperEn / 16 * 16 + v.toNat % 16 }
  | 0x010 => { th with tvec1 := v &&& 0x0000FFFFFFFFFC00 }
  | 0x011 => { th with tvec0 := v &&& 0x0000FFFFFFFFFC00 }
  | 0x012 => { th with tpc := v &&& 0x0000FFFFFFFFFFFC }
  | 0x013 => { th with tcause := v &&& 0xF }
  | 0x014 => { th with tval := v }
  | 0x015 => { th with tstate := tstateOf th.priv v }
  | _ => th

/-- CRD (R224, R248); `rsv` is its ra.  What a read of the write-only EVCLR gives the spec does not state: it is free. -/
def execCrd (t rd num rsv : Nat) (s : State) : Host.Outcome State Fault Refusal :=
  let word := wordI 0x0D rd rsv 0 num
  commit (issue t word (decide (rsv % 32 = 0)) fun th =>
    match crAccess (num % 2 ^ 14) th.priv with
    | none => undef t word 0
    | some (r, w) =>
      if !r && !w then trapHere t causePriv (Word.ofNat word)
      else if !r then do
        let k ← draw
        finishNext t fun th => th.setG (rd % 32) (Word.ofNat (Config.random k))
      else do
        let v ← Sys2Proof.Machine.rd (·.crRead t (num % 2 ^ 14))
        finishNext t fun th => th.setG (rd % 32) v) s

/-- CWR (R224, R248); `rsv` is its ra. -/
def execCwr (t rd num rsv : Nat) (s : State) : Host.Outcome State Fault Refusal :=
  let word := wordI 0x0D rd rsv 1 num
  commit (issue t word (decide (rsv % 32 = 0)) fun th =>
    match crAccess (num % 2 ^ 14) th.priv with
    | none => undef t word 0
    | some (r, w) =>
      if !r && !w then trapHere t causePriv (Word.ofNat word)
      else do
        let v := th.gr (rd % 32)
        onlyIf (w && num % 2 ^ 14 = 6) (writeTimer t (v.toNat % 2 ^ 32))
        finishNext t fun th => if w then th.crWrite (num % 2 ^ 14) v else th) s

/-! Events and work. -/

/-- GETWORK (R239); `rsv` is fn[10:4]. -/
def execGetwork (t rd ra rsv : Nat) (s : State) : Host.Outcome State Fault Refusal :=
  let word := wordA 0x24 rd ra 0 (rsv % 128 * 16)
  commit (issue t word (decide (rsv % 128 = 0)) fun th =>
    if th.act.isSome then undef t word 5
    else do
      modThreads t fun th => { th with home := th.pc, wmask := (th.gr (ra % 32)).setWidth 32, wrd := rd % 32 }
      getWork t) s

/-- WAITEV and WAITEV.C (R205, R240). -/
def waitEvent (t rd' ra : Nat) (clear : Bool) (th : Thread) : M Unit := do
  let mask : BitVec 32 := (th.gr ra).setWidth 32
  let ev := th.evf &&& waitMask t mask
  if ev = 0 then enterWait t (.event rd' mask clear)
  else finishNext t fun th =>
    { th.setG rd' (Word.ofNat ev.toNat) with evf := if clear then th.evf &&& ~~~(ev &&& ~~~0x20#32) else th.evf }

/-- WAITEV (R240). -/
def execWaitev (t rd ra rsv : Nat) (s : State) : Host.Outcome State Fault Refusal :=
  commit (issue t (wordA 0x24 rd ra 0 (rsv % 128 * 16 + 1)) (decide (rsv % 128 = 0))
    (waitEvent t (rd % 32) (ra % 32) false)) s

/-- WAITEV.C (R240). -/
def execWaitevC (t rd ra rsv : Nat) (s : State) : Host.Outcome State Fault Refusal :=
  commit (issue t (wordA 0x24 rd ra 0 (rsv % 128 * 16 + 2)) (decide (rsv % 128 = 0))
    (waitEvent t (rd % 32) (ra % 32) true)) s

/-- Whether a thread may set flag `f` of thread `d` (R206). -/
def State.mayFlag (s : State) (t d f : Nat) : Bool :=
  isThread d && decide (8 ≤ f ∧ f < 32) &&
    ((s.thread t).priv = 0 || ((s.boundTo t).isSome && s.boundTo d = s.boundTo t))

/-- SETEV (R206, R240); `rsv` is fn[5:4]. -/
def execSetev (t ra flag rsv : Nat) (s : State) : Host.Outcome State Fault Refusal :=
  commit (issueRel t (wordA 0x24 0 ra 0 (flag % 32 * 64 + rsv % 4 * 16 + 3)) (decide (rsv % 4 = 0)) fun th => do
    let d := (th.gr (ra % 32)).toNat % 1024
    let ok ← rd (·.mayFlag t d (flag % 32))
    onlyIf ok (setFlag d (flag % 32))
    finishNext t id) s

/-! Channels (R245). -/

/-- A channel write of a thread: discarded behind a forced halt (R215), ignored outside the rights, written, or the thread
joins the writers that wait (R375).  `true` if it waits. -/
def channelWrite (t n : Nat) (w : Word) (e : Bool) : M Bool := do
  let th ← rd (·.thread t)
  let ok ← rd (·.chAllowed t n)
  let blocked ← rd (·.chBlocked t n)
  if !ok then do
    modChans n fun c => { c with waiters := c.waiters.filter (· != t) }
    pure false
  else if th.discard.contains n then do
    onlyIf e (modThreads t fun th => { th with discard := th.discard.filter (· != n) })
    pure false
  else if blocked then do
    modChans n fun c => if c.waiters.contains t then c else { c with waiters := c.waiters ++ [t] }
    pure true
  else do
    chWrite t n w e
    pure false

/-- CHWR (R245); `rsv` is fn[10:5]. -/
def execChwr (t ra rb : Nat) (e : Bool) (rsv : Nat) (s : State) : Host.Outcome State Fault Refusal :=
  commit (issueRel t (wordA 0x26 0 ra rb (rsv % 64 * 32 + bit e * 16)) (decide (rsv % 64 = 0)) fun th => do
    let n := (th.gr (rb % 32)).toNat % 4096
    let w := th.gr (ra % 32)
    let waits ← channelWrite t n w e
    if waits then enterWait t (.chWrite n w e none none) else finishNext t id) s

/-- A channel read: a word with its marks, or what an empty CHRD.NB gives; `false` if the channel is empty and the thread is
to wait (R245). -/
def channelRead (t n rd' : Nat) (nb : Bool) : M Bool := do
  let ok ← rd (·.chAllowed t n)
  let r ← if ok then chRead n else pure none
  match r with
  | some (w, e, a) => do
    finishNext t fun th => { th.setG rd' w with flags := th.flags.chanWord e a }
    pure true
  | none =>
    if nb || !ok then do
      finishNext t fun th => { th.setG rd' 0 with flags := th.flags.chanEmpty }
      pure true
    else pure false

/-- CHRD (R245); `rsv` is fn[10:4]. -/
def execChrd (t rd rb rsv : Nat) (s : State) : Host.Outcome State Fault Refusal :=
  commit (issue t (wordA 0x26 rd 0 rb (rsv % 128 * 16 + 2)) (decide (rsv % 128 / 2 = 0)) fun th => do
    let n := (th.gr (rb % 32)).toNat % 4096
    let done ← channelRead t n (rd % 32) false
    onlyIf (!done) (enterWait t (.chRead (rd % 32) n))) s

/-- CHRD.NB (R245). -/
def execChrdNb (t rd rb rsv : Nat) (s : State) : Host.Outcome State Fault Refusal :=
  commit (issue t (wordA 0x26 rd 0 rb (rsv % 128 * 16 + 3)) (decide (rsv % 128 / 2 = 0)) fun th => do
    let n := (th.gr (rb % 32)).toNat % 4096
    let _ ← channelRead t n (rd % 32) true
    pure ()) s

/-- CHANNEL_READ_RESUME: a thread that waits in CHRD finds a word (R245). -/
def execChannelReadResume (t : Nat) (s : State) : Host.Outcome State Fault Refusal :=
  commit (do
    let th ← rd (·.thread t)
    onlyIf th.waiting (match th.wait with
      | .chRead r n => do
        let _ ← channelRead t n r false
        pure ()
      | _ => pure ())) s

/-- CHANNEL_TAIL_TIMEOUT: a non-empty channel has not been read for TAIL × 16 µs (R378). -/
def execChannelTailTimeout (n : Nat) (s : State) : Host.Outcome State Fault Refusal :=
  commit (do
    let c ← rd (·.chansAt n)
    let tail ← rd (·.inForce (Reg.CH n) Fld.CH_TAIL)
    let en ← rd (·.inForce (Reg.CH n) Fld.CH_WATCH_EN)
    let who ← rd (·.inForce (Reg.CH n) Fld.CH_WATCH)
    let on ← rd fun s => decide (modeStage ≤ s.mode)
    onlyIf (decide (n < 4096) && on && tail != 0 && !c.marks.isEmpty && c.tailArmed) do
      emit (.chans n { c with tailArmed := false })
      setFld (Reg.CH n) Fld.CH_TAIL_FIRED 1
      onlyIf (en = 1) (setFlag who evChannel)) s

/-! Hall Pass (R247). -/

/-- The status HPACQ writes (table "HPACQ status"). -/
def LockAnswer.status : LockAnswer → Word
  | .refused => 0 | .granted => 1 | .orphan => 2 | .held => 3 | .queued => 4

/-- HPACQ in one of its forms; `rsv` is fn[10:4]. -/
def hpacqM (t form rd' ra rsv : Nat) : M Unit :=
  issue t (wordA 0x27 rd' ra 0 (rsv % 128 * 16 + form)) (decide (rsv % 128 = 0)) fun th => do
    let l := (th.gr (ra % 32)).toNat % 4096
    let a ← lockRequest t l form (rd' % 32)
    if a = .queued ∧ form = 1 then enterWait t (.lock (rd' % 32) l)
    else finishNext t fun th => th.setG (rd' % 32) a.status

/-- HPACQ (R247). -/
def execHpacq (t rd ra rsv : Nat) (s : State) : Host.Outcome State Fault Refusal := commit (hpacqM t 1 rd ra rsv) s

/-- HPACQ.T (R247). -/
def execHpacqT (t rd ra rsv : Nat) (s : State) : Host.Outcome State Fault Refusal := commit (hpacqM t 2 rd ra rsv) s

/-- HPACQ.E (R247). -/
def execHpacqE (t rd ra rsv : Nat) (s : State) : Host.Outcome State Fault Refusal := commit (hpacqM t 3 rd ra rsv) s

/-- HPREL (R247, R383). -/
def execHprel (t ra rsv : Nat) (s : State) : Host.Outcome State Fault Refusal :=
  commit (issueRel t (wordA 0x27 0 ra 0 (rsv % 128 * 16 + 4)) (decide (rsv % 128 = 0)) fun th => do
    lockRelease t ((th.gr (ra % 32)).toNat % 4096)
    finishNext t id) s

/-- LOCK_ORPHAN: a held lock's owner record no longer matches (R382). -/
def execLockOrphan (l : Nat) (s : State) : Host.Outcome State Fault Refusal :=
  commit (onlyIf (decide (l < 4096)) (lockOrphan l)) s

end Sys2Proof.Machine
end

