-- ==== Sys2Proof/Machine/Terms.lean ====
section
/-! DEFINITION. Terms and the Gradebook's commands (spec/16): loading, activating and retiring a Term (R465 to R469), reading
and sealing the Gradebook (R413, R472, R480). -/

namespace Sys2Proof.Machine

/-- Ask the host for bytes; `bytes` are what it returns, as many as were asked for (R390). -/
def hostRead (c : Option Nat) (addr len : Nat) (bytes : List Byte) : M (List Byte) := do
  let p ← rd fun s => c.map s.pasidOf
  send (.hostRead p addr len)
  pure (padTo len bytes)

/-! The Term image (R465). -/

/-- A Term image's header. -/
structure TermHdr where
  epoch : Nat
  graphs : Nat
  entries : Nat
  check : Nat
  start : Nat
  parseOff : Nat
  profileOff : Nat
  graphOff : Nat
  entryOff : Nat
  codeOff : Nat
  codeLen : Nat
  urgentLen : Nat
  deriving DecidableEq, Repr

/-- The header of an image. -/
def TermHdr.ofBytes (b : List Byte) : TermHdr :=
  ⟨leAt b 6 2, leAt b 8 2, leAt b 10 2, leAt b 12 4, leAt b 16 8, leAt b 24 4, leAt b 28 4, leAt b 32 4, leAt b 36 4,
    leAt b 40 4, leAt b 44 4, leAt b 48 2⟩

/-- Graph `g` of an image. -/
def imageGraph (b : List Byte) (h : TermHdr) (g : Nat) : Graph := Graph.ofBytes (slice b (h.graphOff + 32 * g) 32)

/-- The graphs of an image. -/
def imageGraphs (b : List Byte) (h : TermHdr) : List (Nat × Graph) := (List.range h.graphs).map fun g => (g, imageGraph b h g)

/-- Whether an image's structure holds (R466 step 3). -/
def imageShape (b : List Byte) : Bool :=
  let h := TermHdr.ofBytes b
  let n := b.length
  let fits := fun (off len : Nat) => decide (off + len ≤ n)
  decide (64 ≤ n ∧ n ≤ 2 ^ 28) && slice b 0 4 == [0x51, 0x54, 0x52, 0x4D] && leAt b 4 2 == 1 &&
  decide (1 ≤ h.graphs ∧ h.graphs ≤ 1024 ∧ 1 ≤ h.entries) && fits h.parseOff 0x2000 && fits h.profileOff 512 &&
  fits h.graphOff (32 * h.graphs) && fits h.entryOff (4 * h.entries) && fits h.codeOff h.codeLen && h.codeOff % 4096 == 0 &&
  ((List.range h.entries).all fun e => let o := leAt b (h.entryOff + 4 * e) 4; o % 4 == 0 && decide (o < h.codeLen)) &&
  decide (h.urgentLen ≤ h.codeLen) && (slice b 50 14).all (· == 0) &&
  (imageGraphs b h).all fun g => decide (1 ≤ g.2.nodeCount ∧ g.2.nodeCount ≤ 4096 ∧ 1 ≤ g.2.entryCount ∧ g.2.entryCount ≤ 16) &&
    fits g.2.nodeBase (32 * g.2.nodeCount) && fits g.2.entryBase (16 * g.2.entryCount)

/-- Whether an image's CHECK holds (R465). -/
def imageCheck (b : List Byte) : Bool := crc32c (b.take 12 ++ zeros 4 ++ b.drop 16) == (TermHdr.ofBytes b).check

/-- Whether TERM_LOAD accepts a node of a graph (R113). -/
def nodeAllowed (entries : Nat) (urgent : Bool) (d : NodeDesc) : Bool :=
  (!urgent || [kMicro, kLookup, kSearch, kActivate, kPark, kJoinAny, kEnd].contains d.kind) &&
  (d.kind != kPark || (d.arity == 1 && (d.dests.take 3).all fun x => x.sel == 3)) &&
  (d.kind != kActivate || decide (d.param % 65536 < entries))

/-- Whether TERM_LOAD accepts a graph (R113). -/
def graphAllowed (b : List Byte) (h : TermHdr) (g : Nat × Graph) : Bool :=
  let nodes := slice b g.2.nodeBase (32 * g.2.nodeCount)
  let entries := slice b g.2.entryBase (16 * g.2.entryCount)
  let urgent := bitOf g.2.flags 0
  !(urgent && decide (256 < g.2.maxPartial)) &&
  crc32c (slice b (h.graphOff + 32 * g.1) 28 ++ nodes ++ entries) == g.2.check &&
  (List.range g.2.nodeCount).all fun n => nodeAllowed h.entries urgent (NodeDesc.ofBytes (slice nodes (32 * n) 32))

/-- Whether TERM_LOAD accepts a Term's graphs, urgent code and profiles (R466 step 7). -/
def termAllowed (b : List Byte) : Bool :=
  let h := TermHdr.ofBytes b
  ((imageGraphs b h).all (graphAllowed b h)) && decide (h.urgentLen ≤ 4096) &&
  (List.range 32).all fun p => let q := leAt b (h.profileOff + 16 * p) 1; !(q % 4 == 3 && bitOf q 7)

/-- Whether a slot holds a loaded Term. -/
def TermSlot.resident (t : TermSlot) : Bool := t.state = .ready || t.state = .current || t.state = .retiring

/-- A length rounded up to whole 4 KiB pages. -/
def pages (n : Nat) : Nat := ceilDiv n 4096 * 4096

/-- The end of what images may use of Tenik's region: its working space lies behind (R466 step 4). -/
def State.tenikTop (s : State) : Nat := s.boot.tenikBase + s.boot.tenikLen - 4096 * Config.tenikWork

/-- Where the running and the staged image lie, and how long they are. -/
def BootState.images (b : BootState) : List (Nat × Nat) :=
  (b.running.toList.map fun f => (b.runAt, f.bytes.length)) ++ b.staged.toList.map fun f => (b.stagedAt, f.bytes.length)

/-- The lowest free place for `len` bytes in Tenik's region, beside the images `own` and the resident Terms (R466 step 4). -/
def State.freePlace (s : State) (own : List (Nat × Nat)) (len : Nat) : Option Nat :=
  let used := own ++ (((List.range 4).map s.termsAt).filter (·.resident)).map fun t => (t.base, t.len)
  let starts := s.boot.tenikBase :: used.map fun u => u.1 + pages u.2
  let ok := fun (a : Nat) => decide (s.boot.tenikBase ≤ a ∧ a + len ≤ s.tenikTop) &&
    used.all fun u => decide (a + len ≤ u.1 ∨ u.1 + pages u.2 ≤ a)
  (starts.filter ok).min?

/-- The place of a Term image. -/
def State.termPlace (s : State) (len : Nat) : Option Nat := s.freePlace s.boot.images len

/-- The descriptors of a Term at `base` that its load locks into the node cache: header, entries and nodes of every graph with
URGENT_OK, by DRAM address and length (R466). -/
def lockedNodes (b : List Byte) (base : Nat) : List (Nat × Nat) :=
  let h := TermHdr.ofBytes b
  (imageGraphs b h).flatMap fun g => if bitOf g.2.flags 0 then
      [(base + h.graphOff + 32 * g.1, 32), (base + g.2.entryBase, 16 * g.2.entryCount), (base + g.2.nodeBase, 32 * g.2.nodeCount)]
    else []

/-- EPOCH, VALID and CHECK of a resident slot as a record gives them (R475). -/
def TermSlot.word (t : TermSlot) : Nat := if t.resident then t.epoch + 2 ^ 16 + t.check * 2 ^ 32 else 0

/-- A slot's header as a walk reads it (R102). -/
def slotHeader (h : TermHdr) : List Byte :=
  leBytes 8 h.start ++ leBytes 2 h.epoch ++ [1, 0] ++ leBytes 2 h.graphs ++ zeros 18

/-- Write bytes of the block PG. -/
def writePg : Nat → List Byte → M Unit
  | _, [] => pure ()
  | a, b :: bs => do
    emit (.pg a b)
    writePg (a + 1) bs

/-- What TERM_LOAD finds wrong with an image, in the order of R466 (steps 3 to 7). -/
def State.termRefusal (s : State) (b : List Byte) : Option Nat :=
  let h := TermHdr.ofBytes b
  if !imageShape b then some stBadParam
  else if (s.termPlace b.length).isNone then some stNoRoom
  else if !imageCheck b then some stIntegrity
  else if (List.range 4).any fun k => (s.termsAt k).resident && (s.termsAt k).epoch == h.epoch then some stBadParam
  else if !termAllowed b then some stBadParam
  else none

/-- TERM_LOAD (R466). -/
def execTermLoad (c : Cmd) (dma : List Byte) (s : State) : Host.Outcome State Fault Refusal :=
  commit (command (fun _ => ⟨0x40, modesR, false, (· == 0), 0, 2 ^ 64 - 1, maskOf 33 0, 0, true⟩) c (do
    let slot := c.p1 / 2 ^ 32 % 4
    let t ← rd (·.termsAt slot)
    let up ← rd (·.dramUp)
    if !up || t.state = .loading || t.state = .retiring then pure (ans stBusyRetry)
    else if t.state = .ready || t.state = .current then pure (ans stExists)
    else do
      let len := c.p1 % 2 ^ 32
      let b ← hostRead none c.p0 len dma
      modTerms slot fun t => { t with state := .loading }
      background c 0x40 (.termLoad slot b))) s

/-- A Term becomes resident in a slot (R466). -/
def placeTerm (o : Origin) (slot : Nat) (b : List Byte) (base : Nat) : M Unit := do
  let h := TermHdr.ofBytes b
  let t : TermSlot := ⟨.ready, h.epoch, h.check, h.graphs, h.entries, base, b.length, h.parseOff, h.profileOff, h.graphOff,
    h.entryOff, h.codeOff, h.codeLen, h.urgentLen, Word.ofNat h.start, 0, lockedNodes b base⟩
  gbRecord o 2 1 slot 0 t.word
  store 152 base b
  writePg (0x7000 + 0x20 * slot) (slotHeader h)
  writePg (0x8000 + 0x2000 * slot) (slice b h.parseOff 0x2000)
  emit (.terms slot t)
  fillWays slot

/-- TERM_LOAD_COMPLETE (R466). -/
def execTermLoadComplete (slot : Nat) (s : State) : Host.Outcome State Fault Refusal :=
  commit (do
    let up ← rd (·.tenikUp)
    let b ← rd (·.bgFind fun k => match k with
      | .termLoad n _ => n == slot
      | _ => false)
    match b with
    | none => pure ()
    | some b => match b.kind with
      | .termLoad _ img => onlyIf up do
        let bad ← rd (·.termRefusal img)
        let place ← rd (·.termPlace img.length)
        let o ← rd (·.bgOrigin b)
        match bad with
        | some st => do
          modTerms slot fun _ => TermSlot.empty
          bgEnd b st 0
        | none => do
          placeTerm o slot img (place.getD 0)
          bgEnd b stDone 0
      | _ => pure ()) s

/-! Activating (R467). -/

/-- The current Term as a record gives it (R475). -/
def State.curWord (s : State) : Nat :=
  match s.curTerm with
  | some k => k + 4 + (s.termsAt k).epoch * 2 ^ 16
  | none => 0

/-- Every thread that is bound, and every Monitor. -/
def State.boundOrMonitor (s : State) : List Nat :=
  (List.range 768).filter fun t => isMonitor t || (s.boundTo t).isSome

/-- TERM_ACTIVATE (R467). -/
def execTermActivate (c : Cmd) (s : State) : Host.Outcome State Fault Refusal :=
  commit (command (fun _ => ⟨0x41, modesR, false, (· == 0), 0, maskOf 1 0 ||| maskOf 31 16, 0, 0, true⟩) c (do
    let slot := c.p0 % 4
    let t ← rd (·.termsAt slot)
    let cur ← rd (·.curTerm)
    let newer ← rd fun s => cur.all fun k => serAfter 16 t.epoch (s.termsAt k).epoch
    let o ← rd (·.cmdOrigin c)
    if t.state = .empty then pure (ans stNotFound)
    else if t.state = .loading || t.state = .retiring then pure (ans stBusyRetry)
    else if bitsOf c.p0 31 16 != t.epoch || !newer then pure (ans stBadParam)
    else do
      let old ← rd (·.curWord)
      gbRecord o 2 2 slot old (slot + 4 + t.epoch * 2 ^ 16)
      match cur with
      | some k => modTerms k fun t => { t with state := .ready }
      | none => pure ()
      modTerms slot fun t => { t with state := .current }
      setFld Reg.PG_STATUS Fld.PG_STATUS_CUR_SLOT slot
      setFld Reg.PG_STATUS Fld.PG_STATUS_CUR_VALID 1
      setFld Reg.PG_STATUS Fld.PG_STATUS_CUR_EPOCH t.epoch
      let ts ← rd (·.boundOrMonitor)
      each ts fun x => setFlag x evTermChange
      let ann ← rd (·.inForce Reg.RB_CFG Fld.RB_CFG_ANNOUNCE_EN)
      onlyIf (ann = 1) (announceTerm slot t.epoch)
      pure (ans stDone))) s

/-! Retiring (R469). -/

/-- TERM_RETIRE (R469). -/
def execTermRetire (c : Cmd) (s : State) : Host.Outcome State Fault Refusal :=
  commit (command (fun _ => ⟨0x42, modesR, false, (· == 0), 0, 3, 0, 0, true⟩) c (do
    let slot := c.p0 % 4
    let t ← rd (·.termsAt slot)
    if t.state = .empty then pure (ans stNotFound)
    else if t.state != .ready then pure (ans stBusyRetry)
    else do
      modTerms slot fun t => { t with state := .retiring }
      background c 0x42 (.termRetire slot))) s

/-- TERM_RETIRE_COMPLETE: the last reference is gone (R469). -/
def execTermRetireComplete (slot : Nat) (s : State) : Host.Outcome State Fault Refusal :=
  commit (do
    let up ← rd (·.tenikUp)
    let t ← rd (·.termsAt slot)
    let b ← rd (·.bgFind fun k => k == .termRetire slot)
    match b with
    | none => pure ()
    | some b => onlyIf (up && t.state = .retiring && t.refs = 0) do
      let o ← rd (·.bgOrigin b)
      gbRecord o 2 3 slot t.word 0
      emit (.pg (0x7000 + 0x20 * slot + 10) 0)
      emit (.terms slot TermSlot.empty)
      fillWays slot
      bgEnd b stDone 0) s

/-- The TERM_STATUS entry of a slot (R417). -/
def State.termEntry (s : State) (k : Nat) : List Byte :=
  let t := s.termsAt k
  leBytes 1 t.state.code ++ leBytes 1 (bit t.resident + 2 * bit (t.state = .current)) ++ leBytes 2 t.epoch ++ leBytes 4 t.refs ++
  leBytes 4 t.check ++ (List.range 2).map (fun i => s.pgAt (0x7000 + 0x20 * k + 12 + i)) ++ zeros 2

/-- TERM_STATUS (R417). -/
def execTermStatus (c : Cmd) (s : State) : Host.Outcome State Fault Refusal :=
  commit (command (fun _ => ⟨0x43, modesA, true, (· == 0), 64, 0, 0, 0, true⟩) c (do
    let b ← rd fun s => (List.range 4).flatMap s.termEntry
    pure (ansData 0 b))) s

/-! The Gradebook (R472, R477, R480). -/

/-- GB_RECORD_HASH: the hasher completes the oldest record of its queue (R472). -/
def execGbRecordHash (s : State) : Host.Outcome State Fault Refusal := commit gbHashOne s

/-- Records that the hasher has completed. -/
def State.gbHashed (s : State) : Nat := (s.reg Reg.GB_STATUS).toNat - s.gb.queue.length

/-- A record that is kept: in its slot of the ring, or in the hasher's SRAM (R477). -/
def State.gbAt (s : State) (seq : Nat) : Option (List Byte) :=
  let n := s.gbHashed
  if n ≤ seq then none
  else if s.gbLog2 = 0 then s.gb.sram[n - 1 - seq]?
  else
    let size := 2 ^ s.gbLog2
    if s.gb.ringStart ≤ seq ∧ n ≤ seq + size then some (s.bytes (s.gbBase + seq % size * 64) 64) else none

/-- GB_READ (R413).  Behind the newest record the reply's bytes are not stated. -/
def execGbRead (c : Cmd) (s : State) : Host.Outcome State Fault Refusal :=
  commit (command (fun _ => ⟨0xB0, modesA, false, (· == 0), 64 * (c.p1 % 2048), 2 ^ 64 - 1, maskOf 10 0, 0,
      decide (1 ≤ c.p1 % 2048 ∧ c.p1 % 2048 ≤ 1024)⟩) c (do
    let first ← rd (·.gbAt c.p0)
    if first.isNone then pure (ans stNotFound)
    else do
      let l ← mapEach (List.range (c.p1 % 2048)) fun i => do
        let r ← rd (·.gbAt (c.p0 + i))
        match r with
        | some b => pure b
        | none => mapEach (List.range 64) fun _ => do
          let n ← draw
          pure (BitVec.ofNat 8 (Config.random n))
      pure (ansData 0 l.flatten))) s

/-- The hasher completes every record of its queue. -/
def gbHashAll : M Unit := do
  let g ← rd (·.gb)
  each g.queue fun _ => gbHashOne

/-- The signature of a checkpoint by the device's own key, over SHA-384 of its first 160 bytes (R480): with the first of some
free nonces that ECDSA does not pass over. -/
def sealSignature (n : Nat) (body : List Byte) : List Byte :=
  ((List.range 4).findSome? fun i =>
    ecdsaSign Config.deviceSecret (Config.signNonce n (BitVec.ofNat 8 i :: body)) (sha384 body)).getD (zeros 96)

/-- GB_SEAL: a seal record, and the signed checkpoint of it (R480). -/
def execGbSeal (c : Cmd) (s : State) : Host.Outcome State Fault Refusal :=
  commit (command (fun _ => ⟨0xB1, modesA, false, (· == 0), 256, 0, 0, 0, true⟩) c (do
    let o ← rd (·.cmdOrigin c)
    let g ← rd (·.gb)
    let seq ← rd fun s => (s.reg Reg.GB_STATUS).toNat
    gbRecord o 16 1 0 (g.lastSeal.getD (2 ^ 64 - 1)) 0
    let time ← rd fun s => (s.gb.queue.getLast?.map (·.time)).getD 0
    gbHashAll
    modGb fun g => { g with lastSeal := some seq }
    count Reg.GB_CNT_SEALS
    let g ← rd (·.gb)
    let boot ← rd (·.reg Reg.GB_BOOT)
    let dev ← rd (·.deviceId)
    let ver ← rd fun s => s.boot.running.elim 0 (·.version)
    let uid ← rd (·.boot.fuses.uid)
    let body := leBytes 8 seq ++ padTo 16 g.hash ++ leBytes 8 time ++ leBytes 8 uid.toNat ++ leBytes 8 boot.toNat ++
      leBytes 2 dev ++ zeros 2 ++ leBytes 4 ver ++ zeros 8 ++ ecdsaPublic Config.deviceSecret
    let n ← draw
    pure (ansData 0 (body ++ sealSignature n body)))) s

end Sys2Proof.Machine
end

