-- ==== Sys2Proof/Machine/Threads.lean ====
section
/-! DEFINITION. Faults of threads (R208 to R213) and the core debug registers (R214 to R218). -/

namespace Sys2Proof.Machine

/-- Whether a thread is in the middle of running code. -/
def Thread.active (th : Thread) : Bool := th.state = .running || th.state = .waiting

/-- Whether a core has a filled locked way of its instruction cache (R197). -/
def State.lockedWay (s : State) (k : Nat) : Bool := (List.range 4).any fun w => s.icacheAt (4 * k + w) != []

/-- THREAD_FAULT: an uncorrectable error in a thread's registers (2), desk data (3), locked cache way (4) or journal (5)
(R209). -/
def execThreadFault (t cause : Nat) (s : State) : Host.Outcome State Fault Refusal :=
  commit (do
    let th ← rd (·.thread t)
    let on ← rd (·.threadRuns t)
    let way ← rd (·.lockedWay (coreOf t))
    onlyIf (isThread t && on && th.active && decide (2 ≤ cause ∧ cause ≤ 5) && (cause != 4 || way) &&
        (cause != 5 || th.act.isSome))
      (threadFault t cause)) s

/-- SEAT_LIMIT: a seat has run one activation for SEAT_LIMIT × 1,024 issue cycles (table "Thread fault causes"). -/
def execSeatLimit (t : Nat) (s : State) : Host.Outcome State Fault Refusal :=
  commit (do
    let th ← rd (·.thread t)
    let on ← rd fun s => s.threadRuns t && s.isSeat t
    onlyIf (isThread t && on && th.state = .running && th.act.isSome) (threadFault t 6)) s

/-- A write to CORE_THCTL of core `k` (R211). -/
def thctl (o : Who) (k thr action : Nat) : M Unit :=
  access o (coreReg Reg.CORE_THCTL k) 0xFF
    (onlyIf (decide (k < 96 ∧ 1 ≤ thr ∧ thr ≤ 7 ∧ 1 ≤ action ∧ action ≤ 3)) (threadAction (8 * k + thr) action))

/-- THREAD_RELEASE (R211). -/
def execThreadRelease (o : Who) (k thr : Nat) (s : State) : Host.Outcome State Fault Refusal :=
  commit (thctl o k thr 1) s

/-- THREAD_DROP (R211). -/
def execThreadDrop (o : Who) (k thr : Nat) (s : State) : Host.Outcome State Fault Refusal :=
  commit (thctl o k thr 2) s

/-- THREAD_RESET (R211). -/
def execThreadReset (o : Who) (k thr : Nat) (s : State) : Host.Outcome State Fault Refusal :=
  commit (thctl o k thr 3) s

/-- The bound non-Monitor threads of a core. -/
def State.boundThreads (s : State) (k : Nat) : List Nat :=
  ((List.range 8).map fun i => 8 * k + i).filter fun t => (s.boundTo t).isSome

/-- Whether a thread is in WAITEV with a mask that has no bit from 0 to 7 set (R213). -/
def Thread.softWait (th : Thread) : Bool :=
  match th.state, th.wait with
  | .waiting, .event _ mask _ => (mask &&& 0xFF) == 0
  | _, _ => false

/-- THREAD_STALEMATE: the stalemate of R213 has lasted for the window. -/
def execThreadStalemate (k : Nat) (s : State) : Host.Outcome State Fault Refusal :=
  commit (do
    let en ← rd (·.inForce (coreReg Reg.CORE_CFG k) Fld.CORE_CFG_TSTALL_EN)
    let ts ← rd (·.boundThreads k)
    let all ← rd fun s => ts.all fun t => (s.thread t).softWait
    let old ← rd (·.fld (coreReg Reg.CORE_FAULT k) Fld.CORE_FAULT_STALLED)
    let on ← rd (·.threadRuns (8 * k))
    onlyIf (decide (k < 96) && on && en = 1 && !ts.isEmpty && all && old = 0) do
      setFld (coreReg Reg.CORE_FAULT k) Fld.CORE_FAULT_STALLED (ts.foldl (fun v t => setBit v (thrOf t) true) 0)
      notify k) s

/-! Debug (R214 to R218). -/

/-- Threads of core `k` that a mask names. -/
def maskThreads (k mask : Nat) : List Nat :=
  ((List.range 8).filter (bitOf mask)).map fun i => 8 * k + i

/-- A thread that waits before a helper instruction, for a unit or for its own earlier one, is back in front of it: its request
is withdrawn (R288). -/
def Thread.beforeHelper (th : Thread) : Thread :=
  match th.wait with
  | .unit _ | .helperEvent _ => if th.state = .waiting then { th with state := .running, wait := .none } else th
  | _ => th

/-- A thread becomes HALTED (R216, R217, R288). -/
def haltThread (t : Nat) (forced : Bool) : M Unit := do
  withdrawHelper t
  modThreads t fun th =>
    let th := th.beforeHelper
    { th with heldState := th.state, state := .halted, haltPending := false, forced := forced }
  withdrawPreempt t false
  breakStall t

/-- Whether a thread waits inside a channel write (CHWR, CHWRX). -/
def Wait.inChWrite : Wait → Bool
  | .chWrite _ _ _ _ _ | .chwrxLoad _ _ _ _ _ => true
  | _ => false

/-- A halt request (R214): deferred while the thread holds an open channel packet, is inside a non-interruptible REP or inside a
channel write, whose word may open a packet, and on a STOPPED thread (R216). -/
def haltRequest (t : Nat) : M Unit := do
  let th ← rd (·.thread t)
  let o ← rd (·.openPacket t)
  match th.state with
  | .running | .waiting | .idle =>
    if o || th.midRep || th.wait.inChWrite then do
      modThreads t fun th => { th with haltPending := true }
      withdrawPreempt t false
    else haltThread t false
  | .stopped => modThreads t fun th => { th with haltPending := true }
  | _ => pure ()

/-- HALT_FORCED: 4,096 cycles have passed without the end mark (R214). -/
def execHaltForced (t : Nat) (s : State) : Host.Outcome State Fault Refusal :=
  commit (do
    let th ← rd (·.thread t)
    let cs ← rd (·.openChans t)
    onlyIf (isThread t && (th.active || th.state = .idle) && th.haltPending && !cs.isEmpty) do
      each cs chAbort
      modThreads t fun th => { th with discard := th.discard ++ cs.filter (!th.discard.contains ·) }
      haltThread t true
      count (coreReg Reg.CORE_CNT_HALTS_FORCED (coreOf t))) s

/-- A resume (R215, R216). -/
def resumeThread (t : Nat) : M Unit := do
  let th ← rd (·.thread t)
  onlyIf (th.state = .halted) do
    modThreads t fun th => { th with state := th.heldState, forced := false }
    onlyIf th.forced (setFlag t evDebug)

/-- A step: one instruction, then HALTED again (R216). -/
def stepThread (t : Nat) : M Unit := do
  let th ← rd (·.thread t)
  onlyIf (th.state = .halted) do
    modThreads t fun th => { th with state := th.heldState, stepping := true }

/-- Whether a debug access finds a core: its Street stands at L0, or returns to it for the access (R514); a Street that is held
after a trip, or in Detention, stays where it is. -/
def State.coreUp (s : State) (k : Nat) : Bool :=
  decide (k < 96) && (s.streetUp (k / 8) || !(s.boot.tripHold || s.fenced ⟨.street, k / 8⟩))

/-- An access to a register of a Street finds it at L0, or brings it back there (R514). -/
def wakeFor (off : Nat) : M Unit :=
  onlyIf (decide (0x300000 ≤ off ∧ off < 0xF00000)) (wakeStreet ((off - 0x300000) / 0x100000))

/-- A write to CORE_DBG_CTL (R214 to R218); its record is made whether or not it finds the core. -/
def dbgCtl (o : Who) (k : Nat) (v : Word) (p : M Unit) : M Unit := do
  let off := coreReg Reg.CORE_DBG_CTL k
  let up ← rd (·.coreUp k)
  access o off 0xFF (onlyIf (decide (k < 96)) do
    let org ← rd (·.originOf o)
    regRecord org 1 off 0 v
    onlyIf up do
      wakeStreet (k / 8)
      p)

/-- DEBUG_HALT (R214). -/
def execDebugHalt (o : Who) (k mask : Nat) (s : State) : Host.Outcome State Fault Refusal :=
  commit (dbgCtl o k (Fld.CORE_DBG_CTL_HALT.place mask) (each (maskThreads k mask) haltRequest)) s

/-- DEBUG_RESUME (R215). -/
def execDebugResume (o : Who) (k mask : Nat) (s : State) : Host.Outcome State Fault Refusal :=
  commit (dbgCtl o k (Fld.CORE_DBG_CTL_RESUME.place mask) (each (maskThreads k mask) resumeThread)) s

/-- DEBUG_STEP (R216). -/
def execDebugStep (o : Who) (k mask : Nat) (s : State) : Host.Outcome State Fault Refusal :=
  commit (dbgCtl o k (Fld.CORE_DBG_CTL_STEP.place mask) (each (maskThreads k mask) stepThread)) s

/-- Register `r` of a thread as CORE_DBG_DATA shows it (R218). -/
def Thread.dbgReg (th : Thread) (r : Nat) : Word :=
  if r < 32 then th.gr r
  else if r < 40 then th.bank (r - 32)
  else if r = 40 then Word.ofNat th.pc.toNat
  else if r = 41 then Word.ofNat th.repc
  else if r = 42 then Word.ofNat th.flags.toNat
  else if r = 43 then Word.ofNat th.priv
  else if r = 44 then Word.ofNat th.evf.toNat
  else 0

/-- A thread with register `r` written through CORE_DBG_DATA; `bankOk` says whether BKLD's check passes (R218).  A Monitor stays
at P0 (R5, R225), and on any other thread flag 0 is never set (R205). -/
def Thread.setDbgReg (th : Thread) (monitor : Bool) (r : Nat) (v : Word) (bankOk : Bool) : Thread :=
  if r < 32 then th.setG r v
  else if r < 40 then (if bankOk then th.setBank (r - 32) (bankOf v) else th)
  else if r = 40 then { th with pc := BitVec.ofNat 48 (v.toNat / 4 * 4) }
  else if r = 41 then { th with repc := v.toNat % 2 ^ 17 }
  else if r = 42 then { th with flags := .ofNat v.toNat }
  else if r = 43 then (if monitor then th else { th with priv := min 2 (v.toNat % 4) })
  else if r = 44 then { th with evf := if monitor then v.setWidth 32 else v.setWidth 32 &&& ~~~1#32 }
  else th

/-- The thread and the register that CORE_DBG_SEL of core `k` selects. -/
def State.dbgSel (s : State) (k : Nat) : Nat × Nat :=
  let w := s.reg (coreReg Reg.CORE_DBG_SEL k)
  (8 * k + Fld.CORE_DBG_SEL_THREAD.get w, Fld.CORE_DBG_SEL_REG.get w)

/-- What CORE_DBG_DATA of core `k` reads: 0 unless the selected thread is HALTED and the access finds the core. -/
def State.dbgData (s : State) (k : Nat) : Word :=
  let (t, r) := s.dbgSel k
  if (s.thread t).state = .halted && s.coreUp k then (s.thread t).dbgReg r else 0

/-- A write to CORE_DBG_DATA (R218). -/
def dbgDataWrite (o : Who) (k en : Nat) (v : Word) : M Unit := do
  let off := coreReg Reg.CORE_DBG_DATA k
  let up ← rd (·.coreUp k)
  access o off en (onlyIf (decide (k < 96)) do
    let (t, r) ← rd (·.dbgSel k)
    let old ← rd (·.dbgData k)
    let new := laneMerge old v en
    let th ← rd (·.thread t)
    let ok ← rd fun s => th.priv = 0 || s.windowRight t th.priv (bitsOf new.toNat 47 18 * 2 ^ 18)
    let org ← rd (·.originOf o)
    regRecord org 1 off old new
    onlyIf up do
      wakeStreet (k / 8)
      onlyIf (th.state = .halted) (modThreads t fun th => th.setDbgReg (isMonitor t) r new ok))

/-- DBG_DATA_WRITE (R218). -/
def execDbgDataWrite (o : Who) (k en : Nat) (v : Word) (s : State) : Host.Outcome State Fault Refusal :=
  commit (dbgDataWrite o k en v) s

/-- The record of a read of CORE_DBG_DATA (R218, R475). -/
def dbgReadRecord (o : Who) (k : Nat) : M Unit := do
  let org ← rd (·.originOf o)
  let sel ← rd (·.reg (coreReg Reg.CORE_DBG_SEL k))
  let v ← rd (·.dbgData k)
  gbRecord org 0x0F 1 (coreReg Reg.CORE_DBG_DATA k) sel.toNat v.toNat

/-- DBG_DATA_READ (R218). -/
def execDbgDataRead (o : Who) (k : Nat) (s : State) : Host.Outcome State Fault Refusal :=
  commit (do
    let up ← rd (·.coreUp k)
    access o (coreReg Reg.CORE_DBG_DATA k) 0xFF (onlyIf (decide (k < 96)) do
      onlyIf up (wakeStreet (k / 8))
      let v ← rd (·.dbgData k)
      dbgReadRecord o k
      send (.readData (leBytes 8 v.toNat) false))) s

end Sys2Proof.Machine
end

