-- ==== Sys2Proof/Machine/RegRead.lean ====
section
/-! DEFINITION. What a read of a register word returns (R8 to R13): the stored word, with the RO fields that show state held
elsewhere computed from that state. -/

namespace Sys2Proof.Machine

/-- Set bit `i` of a word to a condition. -/
def putBit (w : Word) (i : Nat) (b : Bool) : Word := Word.ofNat (setBit w.toNat i b)

/-- Bits of a condition on 0 to n − 1, placed from bit `lsb` on. -/
def maskBits (n lsb : Nat) (p : Nat → Bool) : Word :=
  Word.ofNat ((List.range n).foldl (fun a i => if p i then a + 2 ^ (lsb + i) else a) 0)

/-- The port of an offset in the ETH block. -/
def ethPort (off : Nat) : Option Nat := if inBlock off 0x80000 0x10000 then some ((off - 0x80000) / 0x2000) else none

/-- Whether an offset is populated: it is in the catalogue, and not in the block of a port that does not exist (R13, R35). -/
def State.populated (s : State) (off : Nat) : Bool :=
  (regRow? off).isSome && (ethPort off).all fun p => !s.portAbsent p

/-- The domains a lane serves with an unclosed context (CW_LANE_l.DOMAINS). -/
def State.laneDomains (s : State) (l : Nat) : Nat :=
  let open_ := s.cw.filter fun e => !e.closed && s.servingLane (homeLane e.key e.classroom e.cls) == some l
  open_.countP fun e => open_.find? (fun x => x.sameDomain e) == some e

/-- The entries a bank uses, and those of them that are pinned (RC_BANK_b). -/
def State.bankWord (s : State) (b : Nat) : Word :=
  let es := (s.banksAt b).entries
  Fld.RC_BANK_USED.place es.length ||| Fld.RC_BANK_PINNED.place (es.countP (·.pinned))

/-- HP_LOCK_l (R382, R386). -/
def State.lockWord (s : State) (l : Nat) : Word :=
  let k := s.locksAt l
  match k.owner with
  | none => Fld.HP_LOCK_WAITERS.place k.waiters.length
  | some o =>
    let owner := match o.holder with
      | .thread t => t
      | .act a => a
    Fld.HP_LOCK_HELD.place 1 ||| Fld.HP_LOCK_ORPHAN.place (bit (s.lockStale l)) |||
    Fld.HP_LOCK_SUSPENDED.place (match o.holder with
      | .thread _ => 0
      | .act _ => 1) |||
    Fld.HP_LOCK_OWNER.place owner ||| Fld.HP_LOCK_CLASSROOM.place o.classroom ||| Fld.HP_LOCK_CLGEN.place o.clgen |||
    Fld.HP_LOCK_TGEN.place o.tgen ||| Fld.HP_LOCK_WAITERS.place k.waiters.length

/-- The RO fields of CORE_STATUS that show the threads (R200, R203). -/
def State.coreWord (s : State) (k : Nat) (w : Word) : Word :=
  let ts := (List.range 8).map fun i => (i, 8 * k + i)
  let w := ts.foldl (fun w p => Fld.set ⟨4 * p.1 + 2, 4 * p.1⟩ w (s.thread p.2).state.code) w
  Fld.CORE_STATUS_PREEMPT_PEND.set
    (Fld.CORE_STATUS_BOOSTED.set w (maskBits 8 0 fun i => s.boosted (8 * k + i)).toNat)
    (maskBits 8 0 fun i => bitOf (s.thread (8 * k + i)).evf.toNat evPreempt).toNat

/-- CORE_DBG_STATUS (R214, R216). -/
def State.dbgStatus (s : State) (k : Nat) : Word :=
  maskBits 8 0 (fun i => (s.thread (8 * k + i)).state = .halted) |||
  maskBits 8 8 (fun i => (s.thread (8 * k + i)).haltPending) ||| maskBits 8 16 (fun i => (s.thread (8 * k + i)).forced)

/-- HLP_STATUS (R262, R263). -/
def State.hlpStatus (s : State) (k : Nat) : Word :=
  let q := fun i => (s.hqueuesAt (4 * k + i)).length
  maskBits 6 0 (fun u => s.fenced ⟨.helper, 6 * k + u⟩) ||| maskBits 6 8 (fun u => (s.unitsAt (6 * k + u)).isSome) |||
  Fld.HLP_STATUS_WAIT_FX.place (q 0) ||| Fld.HLP_STATUS_WAIT_DX.place (q 1) ||| Fld.HLP_STATUS_WAIT_CX.place (q 2) |||
  Fld.HLP_STATUS_WAIT_HX.place (q 3)

/-- TE_STATUS (R299, R309, R317, R318). -/
def State.teStatus (s : State) (n : Nat) : Word :=
  Fld.TE_STATUS_FENCED.place (bit (s.fenced ⟨.engine, n⟩)) |||
  Fld.TE_STATUS_RESYNC.place (bit (s.resyncNext n).isSome) ||| Fld.TE_STATUS_CHAIN.place (bit (s.chainOn n)) |||
  maskBits 16 16 (fun m => m != n && s.serving m == n) |||
  Fld.TE_STATUS_REPLAY.place ((s.enginesAt n).taken.countP (·.replay))

/-- The fields of DDR_STATUS that show the controller (R351, R352). -/
def State.ddrWord (s : State) (n : Nat) (w : Word) : Word :=
  let owed := (List.range (s.ranks n)).foldl (fun a r => max a ((s.ddrsAt n).owed.get (fun _ => 0) r)) 0
  Fld.DDR_STATUS_OWED.set (Fld.DDR_STATUS_PANIC.set (Fld.DDR_STATUS_FENCED.set w (bit (s.fenced ⟨.ddr, n⟩)))
    (bit (s.panic n))) owed

/-- The fields of RB_STATUS that show the links (R446, R450). -/
def State.ringWord (s : State) (w : Word) : Word :=
  let w := Fld.RB_STATUS_IN_SERVICE.set w (bit (s.ringUp 0) + 2 * bit (s.ringUp 1))
  let w := Fld.RB_STATUS_FENCED.set w (bit (s.fenced (linkUnit 0)) + 2 * bit (s.fenced (linkUnit 1)))
  let w := Fld.RB_STATUS_MIRROR_OK.set w (bit s.mirrorOk)
  Fld.RB_STATUS_WEST_PEER.set (Fld.RB_STATUS_EAST_PEER.set w ((s.ringLinksAt 0).peer.getD 0)) ((s.ringLinksAt 1).peer.getD 0)

/-- The fields of RC_STATUS that show Roll Call (R108, R138). -/
def State.rcWord (s : State) (w : Word) : Word :=
  let w := Fld.RC_STATUS_BANK_FENCED.set w (maskBits 4 0 fun b => s.fenced ⟨.bank, b⟩).toNat
  let w := Fld.RC_STATUS_SPILL_EXHAUSTED.set w (bit ((List.range 4).any fun b => (s.banksAt b).stopped))
  Fld.RC_STATUS_UNPARKED.set (Fld.RC_STATUS_URGENT_CTX.set w s.urgentCtx) (s.ctxList.countP fun e => !e.2.inDram)

/-- What the registers show that the state keeps elsewhere: first offset of the register, and its word from the stored one
and the indices. -/
def roViews : List (Nat × (State → List Nat → Word → Word)) := [
  (Reg.ETH_GRP 0, fun s is w => ethGrpWord w (s.inForce (Reg.ETH_GRP (is.headD 0)) Fld.ETH_GRP_MODE)),
  (Reg.ETH_STATUS 0, fun s is w => Fld.ETH_STATUS_QPAUSED.set w (maskBits 3 0 (s.qStopped (is.headD 0))).toNat),
  (Reg.ETH_TXTS 0, fun s is _ => ((s.portsAt (is.headD 0)).txts.head?).elim 0 Prod.fst),
  (Reg.ETH_TXTS_TAG 0, fun s is _ => ((s.portsAt (is.headD 0)).txts.head?).elim 0 fun e =>
    Fld.ETH_TXTS_TAG_TAG.place e.2 ||| Fld.ETH_TXTS_TAG_VALID.place 1),
  (Reg.FST_STREAMS, fun s _ _ => Fld.FST_STREAMS_OPEN_COUNT.place s.openStreams),
  (Reg.PG_STATUS, fun s _ w => Fld.PG_STATUS_PIPE_FENCED.set w (maskBits 4 0 fun p => s.fenced ⟨.pipe, p⟩).toNat),
  (Reg.RC_STATUS, fun s _ w => s.rcWord w),
  (Reg.RC_BANK 0, fun s is _ => s.bankWord (is.headD 0)),
  (Reg.RC_SPILL_FREE, fun s _ _ => Word.ofNat s.spillFree),
  (Reg.SQ_STATUS, fun s _ _ =>
    Fld.SQ_STATUS_ACT_FREE.place s.actFree ||| Fld.SQ_STATUS_OVERDRAW_FREE.place s.overdrawFree),
  (Reg.SQ_TICK, fun s _ _ => Word.ofNat s.tick),
  (Reg.SQ_DLY_FREE, fun s _ _ => Word.ofNat s.dlyFree),
  (Reg.SQ_OCC 0, fun s is _ =>
    Fld.SQ_OCC_OCC.place (s.occupancy (is.headD 0)) ||| Fld.SQ_OCC_HELD.place (bit (s.held (is.headD 0)))),
  (Reg.CW_STATUS, fun s _ w => Fld.CW_STATUS_LANE_FENCED.set w (maskBits 4 0 fun l => s.fenced ⟨.lane, l⟩).toNat),
  (Reg.CW_LANE 0, fun s is w => Fld.CW_LANE_DOMAINS.set w (s.laneDomains (is.headD 0))),
  (Reg.ST_STATUS 0, fun s is w =>
    Fld.ST_STATUS_STREET_FENCED.set
      (Fld.ST_STATUS_CORE_FENCED.set w (maskBits 8 0 fun i => s.fenced ⟨.core, 8 * is.headD 0 + i⟩).toNat)
      (bit (s.fenced ⟨.street, is.headD 0⟩))),
  (Reg.CORE_TT_ACT 0 0, fun s is _ => s.actAt (Reg.CORE_TT (is.headD 0) ((is.drop 1).headD 0))),
  (Reg.CORE_STATUS 0 0, fun s is w => s.coreWord (8 * is.headD 0 + (is.drop 1).headD 0) w),
  (Reg.CORE_DBG_STATUS 0 0, fun s is _ => s.dbgStatus (8 * is.headD 0 + (is.drop 1).headD 0)),
  (Reg.CORE_DBG_DATA 0 0, fun s is _ => s.dbgData (8 * is.headD 0 + (is.drop 1).headD 0)),
  (Reg.HLP_STATUS 0, fun s is _ => s.hlpStatus (is.headD 0)),
  (Reg.TE_STATUS 0, fun s is _ => s.teStatus (is.headD 0)),
  (Reg.DDR_STATUS 0, fun s is w => s.ddrWord (is.headD 0) w),
  (Reg.BP_FREE 0, fun s is _ => Word.ofNat (s.poolFree (is.headD 0))),
  (Reg.CH 0, fun s is w => s.chWord (is.headD 0) w),
  (Reg.HP_LOCK 0, fun s is _ => s.lockWord (is.headD 0)),
  (Reg.RB_STATUS, fun s _ w => s.ringWord w),
  (Reg.DEV_STRAP, fun s _ _ =>
    Fld.DEV_STRAP_PCIE_W.place s.boot.straps.pcieW ||| Fld.DEV_STRAP_SMB_A.place s.boot.straps.smbA |||
    Fld.DEV_STRAP_TAP.place (bit s.boot.straps.tap)),
  (Reg.DEV_UID, fun s _ _ => s.boot.fuses.uid),
  (Reg.TB_TIME, fun s _ _ => Word.ofNat s.timeNs),
  (Reg.TB_MONO, fun s _ _ => Word.ofNat s.monoNs)]

/-- A word of the MSI-X table (R395). -/
def State.msixWord (s : State) (off : Nat) : Word :=
  let m := s.msixAt ((off - 0x48000) / 16)
  if off % 16 < 8 then m.addr else Word.ofNat (m.data % 2 ^ 32 + 2 ^ 32 * bit m.masked)

/-- Whether an offset lies in the MSI-X table, or in the pending-bit array behind it (R395). -/
def inMsix (off : Nat) : Bool := inBlock off 0x48000 (16 * 1280)
def inPba (off : Nat) : Bool := inBlock off 0x4E000 (1280 / 8)

/-- What a read of the word at a BAR0 offset returns. -/
def State.regRead (s : State) (off : Nat) : Word :=
  if off % 8 != 0 || decide (0x4000000 ≤ off) then 0
  else if 0x2000000 ≤ off then
    (if s.mode = modeLoad then Word.ofNat (ofLeBytes ((List.range 8).map fun i => s.loadWinAt (off - 0x2000000 + i))) else 0)
  else if inMsix off then s.msixWord off
  else if inPba off then s.reg off
  else if inBlock off 0xA7000 0x9000 then
    (if off < 0xA7080 || 0xA8000 ≤ off then Word.ofNat (ofLeBytes ((List.range 8).map fun i => s.pgAt (off - 0xA0000 + i))) else 0)
  else if inBlock off 0x108000 0x1000 then s.reg off
  else match regRow? off with
    | none => 0
    | some (r, is) =>
      if !s.populated off then 0
      else match roViews.find? fun v => v.1 == r.base with
        | some v => v.2 s is (s.reg off)
        | none => s.reg off

/-- A read by an agent: 0 where it does not reach the register, and for a half word the half it asks for (R8, R13). -/
def State.regReadBy (s : State) (o : Who) (off : Nat) : Word := if s.mayAccess o off then s.regRead off else 0

/-- The offset is that of a core's CORE_DBG_DATA, a read of which makes a record (R218). -/
def dbgDataCore (off : Nat) : Option Nat := (List.range 96).find? fun k => coreReg Reg.CORE_DBG_DATA k == off

/-- Read a register word, with the record that a read of CORE_DBG_DATA makes; a Street below L0 returns to it first (R514). -/
def readReg (o : Who) (off : Nat) : M Word := do
  let ok ← rd (·.mayAccess o off)
  onlyIf ok (wakeFor off)
  let v ← rd (·.regReadBy o off)
  match dbgDataCore off with
  | some k => onlyIf ok (dbgReadRecord o k)
  | none => pure ()
  pure v

/-- A read of BAR0 outside the LOAD window: other patterns of byte enables than a word or a half read 0, have no side effect and are
counted (R8, R9), and so does one with a PASID prefix, which is not (R391).  The opcode table has no row for a plain read of a
register, so no command carries one. -/
def bar0Read (o : Who) (off en : Nat) : M Word :=
  if laneOk en then do
    let v ← readReg o off
    pure (v &&& laneMask en)
  else do
    access o off en (pure ())
    pure 0

end Sys2Proof.Machine
end

