-- ==== Sys2Proof/Machine/RegWrite.lean ====
section
/-! DEFINITION. What a write of a register word does (R8 to R13, R460, R464, R471): stored fields by type, and the writes
that act. -/

namespace Sys2Proof.Machine

/-! Words that only store. -/

/-- A word with the fields that a write changes: live ones, frozen ones in STAGE, shadows, and bits cleared by a 1 (R10). -/
def RegRow.merge (r : RegRow) (stage : Bool) (old v : Word) (en : Nat) : Word :=
  let wr := (r.maskOf (· == .rwl) ||| r.maskOf (· == .rws) ||| (if stage then r.maskOf (· == .rwf) else 0)) &&& laneMask en
  let clr := r.maskOf (· == .w1c) &&& laneMask en &&& v
  ((old &&& ~~~wr) ||| (v &&& wr)) &&& ~~~clr

/-- The registers whose writes make no record: progress of a consumer, and what is only staged (R471). -/
def quietRegs : List Nat :=
  [Reg.Q_SQ_TAIL 0, Reg.Q_CQ_HEAD 0, Reg.CQ_SQ_TAIL 0, Reg.CQ_CQ_HEAD 0, Reg.TE_LQ_HEAD 0, Reg.RB_MLOG_HEAD, Reg.GB_ARCHIVED,
   Reg.FC_LOG_PTR, Reg.HI_WIN, Reg.TE_CMD_KEY 0 0 0, Reg.TE_CMD_DATA 0 0 0]

/-- The records of a write: one for the live fields, one for the frozen ones, one for the shadows it reaches (R471, R475); every
write to CORE_DBG_SEL makes one (R218). -/
def writeRecords (r : RegRow) (org : Origin) (off en : Nat) (stage : Bool) (old new : Word) : M Unit := do
  let hit := fun (t : FieldType) => (r.maskOf (· == t) &&& laneMask en) != 0
  let f ← rd (·.wordInForce off)
  let rws := r.maskOf (· == .rws)
  let g ← rd (·.roFields off ((f &&& rws) ||| (new &&& ~~~rws)))
  onlyIf (!quietRegs.contains r.base) do
    onlyIf (hit .rwl || r.base = Reg.CORE_DBG_SEL 0 0) (regRecord org 1 off f g)
    onlyIf (hit .rwf && stage) (regRecord org 4 off f g)
    onlyIf (hit .rws) (regRecord org 2 off old new)

/-! What follows a stored write. -/

/-- The Gradebook ring takes its present place: the first one takes the records kept on chip, a later one begins afresh
(R477). -/
def gbMoved (was : Nat) : M Unit := do
  let k ← rd (·.gbLog2)
  let next ← rd (·.gbHashed)
  let g ← rd (·.gb)
  if was = 0 && k != 0 then do
    modGb fun g => { g with ringStart := next - g.sram.length, sram := [], dropped := false }
    each ((List.range g.sram.length).zip g.sram.reverse) fun p => gbStore (next - g.sram.length + p.1) p.2
    onlyIf g.dropped (sticky Reg.GB_EVENT Fld.GB_EVENT_OVERWRITE 154)
  else modGb fun g => { g with ringStart := next }

/-- What a write of a stored word brings about beside the stored value. -/
def afterWrite (base : Nat) (i : Nat) (changed : Bool) (gbWas : Nat) : M Unit := do
  let k ← rd (·.faultLog2)
  if base = Reg.Q_CQ_HEAD 0 then qFreed i
  else if base = Reg.CQ_CQ_HEAD 0 then qFreed (16 + i)
  else if base = Reg.RB_MLOG_HEAD then mlogAdvanced
  else if base = Reg.PWR_ST 0 then rungSet i
  else if base = Reg.RC_SPILL_SIZE then reserveFlags
  else if base = Reg.FC_LOG_PTR then modRegs Reg.FC_LOG_PTR fun w => Fld.FC_LOG_PTR_HEAD.set w (Fld.FC_LOG_PTR_HEAD.get w % 2 ^ k)
  else if base = Reg.FC_EVENT then queueFull
  else if base = Reg.GB_BASE || base = Reg.GB_CFG then onlyIf changed (gbMoved gbWas)
  else pure ()

/-- Write a stored word of the catalogue (R10). -/
def storeWord (org : Origin) (off en : Nat) (v : Word) : M Unit :=
  match regRow? off with
  | none => pure ()
  | some (r, is) => do
    let stage ← rd fun s => s.mode == modeStage
    let old ← rd (·.reg off)
    let was ← rd fun s => (s.gbLog2, s.gbBase)
    let new := r.merge stage old v en
    writeRecords r org off en stage old new
    if r.base = Reg.GB_ARCHIVED then gbTrack (emit (.regs off new)) else emit (.regs off new)
    let now ← rd fun s => (s.gbLog2, s.gbBase)
    afterWrite r.base (is.headD 0) (now != was) was.1

/-! Words that act. -/

/-- A write to a word of engine `n`'s command port `p` (R311). -/
def portWrite (org : Origin) (off n p en : Nat) (v : Word) : M Unit := do
  let busy ← rd (·.portBusy n p)
  if busy then portOverrun n p else storeWord org off en v

/-- A write to a commit register (R460). -/
def commitWrite (org : Origin) (off : Nat) (w : Word) : M Unit := each (grpsOf off w) (goGrp org)

/-- A write to Q_CTL or its word in a doorbell page: EN, then GO (R398, R460). -/
def qCtlWrite (o : Who) (org : Origin) (k off en : Nat) (w : Word) : M Unit := do
  onlyIf (en != 0xF0) (queueEn o k (Fld.Q_CTL_EN.isSet w))
  commitWrite org off w

/-- HI_LOAD_CTL: the length, and GO, which starts the verification of what the LOAD window holds (R394).  GO and LEN lie in
different halves, so a write of one half is ignored (R8). -/
def loadCtl (org : Origin) (en : Nat) (v : Word) : M Unit := onlyIf (en = 0xFF) do
  storeWord org Reg.HI_LOAD_CTL en v
  let load ← rd fun s => s.mode == modeLoad
  let st ← rd (·.fld Reg.HI_LOAD_STATUS Fld.HI_LOAD_STATUS_STATE)
  let len ← rd (·.fld Reg.HI_LOAD_CTL Fld.HI_LOAD_CTL_LEN)
  onlyIf (load && Fld.HI_LOAD_CTL_GO.isSet (v &&& laneMask en) && st != 1) do
    if len = 0 ∨ 33554432 < len then do
      setFld Reg.HI_LOAD_STATUS Fld.HI_LOAD_STATUS_STATE 3
      setFld Reg.HI_LOAD_STATUS Fld.HI_LOAD_STATUS_REASON 1
    else do
      setFld Reg.HI_LOAD_STATUS Fld.HI_LOAD_STATUS_STATE 1
      setFld Reg.HI_LOAD_STATUS Fld.HI_LOAD_STATUS_REASON 0

/-- The writes that act, by the first offset of their register: the action takes the issuer, its origin, the indices, the
offset, the byte enables and the value. -/
def actWrites : List (Nat × (Who → Origin → List Nat → Nat → Nat → Word → M Unit)) := [
  (Reg.ETH_TXTS_POP 0, fun _ _ is _ en v => txtsPop (is.headD 0) (v &&& laneMask en)),
  (Reg.CORE_THCTL 0 0, fun _ _ is _ en v =>
    let k := 8 * is.headD 0 + (is.drop 1).headD 0
    let w := v &&& laneMask en
    let t := Fld.CORE_THCTL_THREAD.get w
    let a := Fld.CORE_THCTL_ACTION.get w
    onlyIf (t != 0 && a != 0) (threadAction (8 * k + t) a)),
  (Reg.CORE_DBG_CTL 0 0, fun o _ is _ en v =>
    let k := 8 * is.headD 0 + (is.drop 1).headD 0
    let w := v &&& laneMask en
    dbgCtl o k w (do
      each (maskThreads k (Fld.CORE_DBG_CTL_HALT.get w)) haltRequest
      each (maskThreads k (Fld.CORE_DBG_CTL_RESUME.get w)) resumeThread
      each (maskThreads k (Fld.CORE_DBG_CTL_STEP.get w)) stepThread)),
  (Reg.CORE_DBG_DATA 0 0, fun o _ is _ en v => dbgDataWrite o (8 * is.headD 0 + (is.drop 1).headD 0) en v),
  (Reg.TE_CMD 0 0, fun _ org is _ en v =>
    let w := v &&& laneMask en
    portStart org (is.headD 0) ((is.drop 1).headD 0) (Fld.TE_CMD_OP.get w) (Fld.TE_CMD_TABLE.get w)),
  (Reg.TE_CMD_KEY 0 0 0, fun _ org is off en v => portWrite org off (is.headD 0) ((is.drop 1).headD 0) en v),
  (Reg.TE_CMD_DATA 0 0 0, fun _ org is off en v => portWrite org off (is.headD 0) ((is.drop 1).headD 0) en v),
  (Reg.TE_CMD_RES 0 0, fun _ org is off en v => portWrite org off (is.headD 0) ((is.drop 1).headD 0) en v),
  (Reg.FC_ACK, fun o _ _ _ en v => fcAck o en v),
  (Reg.TB_SET, fun _ org _ _ en v => tbSet org (laneMerge 0 v en)),
  (Reg.TB_STEP, fun _ org _ _ en v => tbStep org (laneMerge 0 v en)),
  (Reg.TB_RATE, fun _ org _ _ en v => onlyIf (en != 0xF0) (tbRate org v)),
  (Reg.SR_ALIVE, fun o _ _ _ en v => srAlive o en v),
  (Reg.HI_LOAD_CTL, fun _ org _ _ en v => loadCtl org en v),
  (Reg.Q_CTL 0, fun o org is off en v => qCtlWrite o org (is.headD 0) off en (v &&& laneMask en))]

/-- Write half of an MSI-X table entry; one that becomes unmasked sends what is pending (R395). -/
def msixWrite (off en : Nat) (v : Word) : M Unit := do
  let e := (off - 0x48000) / 16
  let old ← rd (·.msixWord off)
  let w := laneMerge old v en
  if off % 16 < 8 then modMsix e fun m => { m with addr := w &&& 0xFFFFFFFFFFFFFFFC }
  else modMsix e fun m => { m with data := bitsOf w.toNat 31 0, masked := bitOf w.toNat 32 }
  let m ← rd (·.msixAt e)
  let pend ← rd fun s => bitOf (s.reg (pbaOff e)).toNat (e % 64)
  onlyIf (!m.masked && pend) do
    modRegs (pbaOff e) fun w => Word.ofNat (setBit w.toNat (e % 64) false)
    send (.msix e m.addr m.data)

/-- Write a word of the registers; the access has reached them, with whole-word or half-word enables. -/
def regWrite (o : Who) (off en : Nat) (v : Word) : M Unit := do
  let org ← rd (·.originOf o)
  let there ← rd (·.populated off)
  if inMsix off then msixWrite off en v
  else match regRow? off with
    | none => pure ()
    | some (r, is) => onlyIf there do
      wakeFor off
      match actWrites.find? fun a => a.1 == r.base with
      | some a => a.2 o org is off en v
      | none => if isCommitReg off then commitWrite org off (v &&& laneMask en) else storeWord org off en v

/-- Write the enabled bytes of a word of the LOAD window (R9, R393). -/
def loadWinWrite (off en : Nat) (v : Word) : M Unit :=
  each ((List.range 8).filter (bitOf en)) fun i =>
    emit (.mem (squareBase + (off - 0x2000000 + i)) (BitVec.ofNat 8 (v.toNat / 2 ^ (8 * i))))

/-- A write of a BAR0 word by an agent (R8, R9, R13). -/
def regWriteBy (o : Who) (off en : Nat) (v : Word) : M Unit := do
  let ok ← rd (·.mayAccess o off)
  onlyIf (off % 8 = 0 && decide (off < 0x4000000)) <|
    if 0x2000000 ≤ off then (do
      let load ← rd fun s => s.mode == modeLoad
      onlyIf (ok && load) (loadWinWrite off en v)) else access o off en (regWrite o off en v)

/-- REGISTER_WRITE (R8 to R13). -/
def execRegisterWrite (o : Who) (off en : Nat) (v : Word) (s : State) : Host.Outcome State Fault Refusal :=
  commit (regWriteBy o off en v) s

/-- COMMIT_GO: a write of a commit register (R460, R461). -/
def execCommitGo (o : Who) (off en : Nat) (v : Word) (s : State) : Host.Outcome State Fault Refusal :=
  commit (onlyIf (isCommitReg off) (regWriteBy o off en v)) s

/-- LOAD_GO (R394). -/
def execLoadGo (o : Who) (en : Nat) (v : Word) (s : State) : Host.Outcome State Fault Refusal :=
  commit (regWriteBy o Reg.HI_LOAD_CTL en v) s

/-- A write of TE_CMD with an operation (R311). -/
def teCmd (o : Who) (n p op table : Nat) : M Unit :=
  onlyIf (decide (n < 16 ∧ p < 4)) (regWriteBy o (Reg.TE_CMD n p) 0xFF (Fld.TE_CMD_OP.place op ||| Fld.TE_CMD_TABLE.place table))

/-- TE_CMD_READ (R311). -/
def execTeCmdRead (o : Who) (n p table : Nat) (s : State) : Host.Outcome State Fault Refusal := commit (teCmd o n p 1 table) s

/-- TE_CMD_INSERT (R308 to R311). -/
def execTeCmdInsert (o : Who) (n p table : Nat) (s : State) : Host.Outcome State Fault Refusal := commit (teCmd o n p 2 table) s

/-- TE_CMD_UPDATE (R311). -/
def execTeCmdUpdate (o : Who) (n p table : Nat) (s : State) : Host.Outcome State Fault Refusal := commit (teCmd o n p 3 table) s

/-- TE_CMD_REMOVE (R311). -/
def execTeCmdRemove (o : Who) (n p table : Nat) (s : State) : Host.Outcome State Fault Refusal := commit (teCmd o n p 4 table) s

end Sys2Proof.Machine
end

