-- ==== Sys2Proof/Machine/Firmware.lean ====
section
/-! DEFINITION. Tenik images (R394, R470, R504 to R506), and the host's requests to BAR4 and BAR2 (R392, R419). -/

namespace Sys2Proof.Machine

/-! The image (R504, R505). -/

/-- Bytes of an image's body. -/
def bodyLen (b : List Byte) : Nat := leAt b 16 4

/-- An image that passed its checks. -/
def FwImage.ofBytes (b : List Byte) : FwImage := ⟨leAt b 8 4, leAt b 12 4, crc32c b, b⟩

/-- Whether the owner key hash fuse is programmed. -/
def Fuses.owned (f : Fuses) : Bool := f.ownerHash.any (· != 0)

/-- The digest that an image's signatures sign. -/
def imageDigest (b : List Byte) : List Byte := sha384 (b.take 32 ++ slice b 4096 (bodyLen b))

/-- The first check that an image of `b.length` bytes fails, if it fails one (R505). -/
def imageFault (f : Fuses) (b : List Byte) : Option Nat :=
  if b.length < 4096 ∨ 33554432 < b.length ∨ b.length < 4096 + bodyLen b then some 1
  else if slice b 0 4 != [0x54, 0x4E, 0x49, 0x4B] || leAt b 4 2 != 1 ||
      (slice b 6 2 ++ slice b 24 8 ++ slice b 416 3680).any (· != 0) then some 2
  else if sha384 (slice b 32 96) != f.vendorHash then some 3
  else if !ecdsaVerify (slice b 32 96) (imageDigest b) (slice b 128 96) then some 4
  else if f.owned && sha384 (slice b 224 96) != f.ownerHash then some 5
  else if f.owned && !ecdsaVerify (slice b 224 96) (imageDigest b) (slice b 320 96) then some 6
  else if leAt b 12 4 < f.minSvn then some 7
  else none

/-- An accepted image starts Tenik: the mode becomes STAGE and every Monitor starts (R394, R502, R506). -/
def startTenik (b : List Byte) : M Unit := do
  setFld Reg.HI_LOAD_STATUS Fld.HI_LOAD_STATUS_STATE 2
  let f := FwImage.ofBytes b
  gbRecord .bootRom 3 1 0 0 f.word
  modBoot fun s => { s with running := some f, tenikDown := false, restarting := false }
  setMode .bootRom modeStage
  each (List.range 96) startMonitor

/-- IMAGE_VERIFY_DONE (R394, R505). -/
def execImageVerifyDone (s : State) : Host.Outcome State Fault Refusal :=
  commit (do
    let on ← rd fun s => s.mode == modeLoad && s.fld Reg.HI_LOAD_STATUS Fld.HI_LOAD_STATUS_STATE == 1
    onlyIf on do
      let len ← rd (·.fld Reg.HI_LOAD_CTL Fld.HI_LOAD_CTL_LEN)
      let b ← rd fun s => (List.range len).map s.loadWinAt
      let f ← rd (·.boot.fuses)
      match imageFault f b with
      | some r => do
        setFld Reg.HI_LOAD_STATUS Fld.HI_LOAD_STATUS_STATE 3
        setFld Reg.HI_LOAD_STATUS Fld.HI_LOAD_STATUS_REASON r
      | none => startTenik b) s

/-! Staging and switching (R470). -/

/-- Whether FW_STAGE or FW_SWITCH is unfinished (R406). -/
def State.fwBusy (s : State) : Bool := s.bg.any fun b => match b.kind with
  | .fwStage _ | .fwSwitch => true
  | _ => false

/-- A Tenik image as a record gives it, 0 for none (R475). -/
def fwWord (f : Option FwImage) : Nat := f.elim 0 FwImage.word

/-- FW_STAGE (R470, R507). -/
def execFwStage (c : Cmd) (dma : List Byte) (s : State) : Host.Outcome State Fault Refusal :=
  commit (command (fun _ => ⟨0x20, modesR, false, (· == 0), 0, 2 ^ 64 - 1, maskOf 25 0, 0, decide (c.p1 ≤ 33554432)⟩) c (do
    let up ← rd (·.dramUp)
    let busy ← rd (·.fwBusy)
    if !up || busy then pure (ans stBusyRetry)
    else do
      let b ← hostRead none c.p0 c.p1 dma
      background c 0x20 (.fwStage b))) s

/-- FW_STAGE_COMPLETE: the image passes the checks of R505 and is held in DRAM, or it fails one, or finds no room in Tenik's region
beside the Terms there. -/
def execFwStageComplete (s : State) : Host.Outcome State Fault Refusal :=
  commit (do
    let up ← rd (·.tenikUp)
    let b ← rd (·.bgFind fun k => match k with
      | .fwStage _ => true
      | _ => false)
    match b with
    | none => pure ()
    | some b => match b.kind with
      | .fwStage img => onlyIf up do
        let boot ← rd (·.boot)
        let o ← rd (·.bgOrigin b)
        match imageFault boot.fuses img with
        | some _ => bgEnd b stIntegrity 0
        | none => do
          let f := FwImage.ofBytes img
          let place ← rd (·.freePlace ({ boot with staged := none }).images img.length)
          match place with
          | none => bgEnd b stNoRoom 0
          | some a => do
            gbRecord o 3 2 0 (fwWord boot.staged) f.word
            store 152 a img
            modBoot fun s => { s with staged := some f, stagedAt := a }
            bgEnd b stDone 0
      | _ => pure ()) s

/-- FW_SWITCH: Tenik writes its state block to DRAM, into its working space, and stops, and the Staff Room starts the staged image (R470). -/
def execFwSwitch (c : Cmd) (s : State) : Host.Outcome State Fault Refusal :=
  commit (command (fun _ => ⟨0x21, modesR, false, (· == 0), 0, 0, 0, 0, true⟩) c (do
    let busy ← rd (·.fwBusy)
    let f ← rd (·.boot.staged)
    if busy then pure (ans stBusyRetry)
    else if f.isNone then pure (ans stNotFound)
    else do
      let a ← background c 0x21 .fwSwitch
      let top ← rd (·.tenikTop)
      let k ← draw
      pure { a with after := do
        store 152 top ((Config.stateBlock k).take (4096 * Config.tenikWork))
        modBoot fun b => { b with tenikDown := true }
        setFld Reg.SR_STATUS Fld.SR_STATUS_RUNNING 0 })) s

/-- The unfinished FW_SWITCH. -/
def State.switching (s : State) : Option BgOp := s.bgFind (· == .fwSwitch)

/-- FW_SWITCH_COMPLETE: the new Tenik is ready, has read the state block and resumes (R470).  What the block says stands in the
state that the model keeps of Tenik. -/
def execFwSwitchComplete (s : State) : Host.Outcome State Fault Refusal :=
  commit (do
    let b ← rd (·.switching)
    let boot ← rd (·.boot)
    match b with
    | none => pure ()
    | some b => do
      let o ← rd (·.bgOrigin b)
      gbRecord o 3 3 0 (fwWord boot.running) (fwWord boot.staged)
      let top ← rd (·.tenikTop)
      touch 152 top (4096 * Config.tenikWork) false
      modBoot fun s => { s with running := s.staged, runAt := s.stagedAt, staged := none }
      setFld Reg.SR_STATUS Fld.SR_STATUS_RUNNING 1
      tenikReturns
      bgEnd b stDone 0) s

/-- FW_SWITCH_FALLBACK: the Staff Room starts the previous image again (R470), unless its bytes no longer match their CRC (R498). -/
def execFwSwitchFallback (s : State) : Host.Outcome State Fault Refusal :=
  commit (do
    let b ← rd (·.switching)
    match b with
    | none => pure ()
    | some b => do
      restartTenik
      let back ← rd (·.boot.restarting)
      onlyIf back do
        tenikReturns
        bgEnd b stInternal 0) s

/-- The FW_INFO block (R506). -/
def State.fwBlock (s : State) : List Byte :=
  let b := s.boot
  let ver := fun (f : Option FwImage) => leBytes 4 (f.elim 0 (·.version)) ++ leBytes 4 (f.elim 0 (·.svn))
  ver b.running ++ leBytes 4 (b.running.elim 0 (·.crc)) ++ zeros 4 ++ ver b.staged ++
  leBytes 1 (bit b.staged.isSome + 2 * bit b.fuses.owned) ++ zeros 3 ++ leBytes 4 b.fuses.minSvn ++
  padTo 16 b.fuses.vendorHash ++ leBytes 8 (s.fld Reg.SR_STATUS Fld.SR_STATUS_RESTARTS) ++ zeros 8

/-- FW_INFO (R506). -/
def execFwInfo (c : Cmd) (s : State) : Host.Outcome State Fault Refusal :=
  commit (command (fun _ => ⟨0x22, modesA, false, (· == 0), 64, 0, 0, 0, true⟩) c (do
    let b ← rd (·.fwBlock)
    pure (ansData 0 b))) s

/-! BAR4 (R391, R392). -/

/-- The DRAM address of an offset in BAR4. -/
def State.bar4 (s : State) (x : Nat) : Nat := s.fld Reg.HI_WIN Fld.HI_WIN_WIN * 0x400000000 + x

/-- Whether the host's requests reach DRAM: all of host access is open from STAGE on (table "What runs in each mode"), and a
request with a PASID is a silent violation (R391). -/
def State.bar4Open (s : State) (pasid : Option Nat) (x n : Nat) : Bool :=
  pasid.isNone && decide (modeStage ≤ s.mode) && decide (x + n ≤ 0x400000000)

/-- BAR4_WRITE (R392). -/
def execBar4Write (pasid : Option Nat) (x : Nat) (bytes : List Byte) (poisoned : Bool) (s : State) :
    Host.Outcome State Fault Refusal :=
  commit (do
    let ok ← rd (·.bar4Open pasid x bytes.length)
    let a ← rd (·.bar4 x)
    onlyIf ok (if poisoned then do
        count Reg.HI_CNT_POISON_RX
        sticky Reg.HI_EVENT Fld.HI_EVENT_POISON 151
      else store 151 a bytes)) s

/-- What a plain read through BAR4 returns, and whether the device returns it poisoned (R13, R347, R391, R392): zero where the
window is not open to it and where there is no DRAM, poisoned where the data cannot be read.  The opcode table has no row for
such a read, so no command carries one. -/
def State.bar4Read (s : State) (pasid : Option Nat) (x n : Nat) : List Byte × Bool :=
  let a := s.bar4 x
  if !s.bar4Open pasid x n || s.region a != .dram then (zeros n, false)
  else if s.anyBad a n then (zeros n, true)
  else (s.seen a n, false)

/-- BAR4_ATOMICOP (R389, R392). -/
def execBar4Atomicop (pasid : Option Nat) (x : Nat) (op : AtomicKind) (size a b : Nat) (s : State) :
    Host.Outcome State Fault Refusal :=
  commit (onlyIf ((size = 4 || size = 8) && x % size == 0) do
    let ok ← rd (·.bar4Open pasid x size)
    let d ← rd (·.bar4 x)
    let up ← rd (!·.boot.perst)
    if ok then atomicAt d ⟨op, size, a, b⟩ else onlyIf up (send (.readData (zeros size) false))) s

/-! BAR2 (R397, R419). -/

/-- Whether a request with a PASID reaches classroom `c`'s doorbell page. -/
def State.pageReached (s : State) (pasid : Option Nat) (c : Nat) : Bool :=
  pasid.any fun p => s.inForce (Reg.CL_BIND c) Fld.CL_BIND_BOUND = 1 && s.pasidOf c = p

/-- The origin of a write to a doorbell page (R474). -/
def State.pageOrigin (s : State) (c : Nat) : Origin := .classroom c (s.pasidOf c)

/-- Write a word of classroom `c`'s doorbell page (R397, R398). -/
def pageWrite (pasid : Option Nat) (c off en : Nat) (v : Word) : M Unit := do
  let org ← rd (·.pageOrigin c)
  let w := Reg.CQ_SQ_TAIL c + off
  if w = Reg.CQ_CTL c then qCtlWrite (.host pasid) org (16 + c) w en (v &&& laneMask en)
  else storeWord org w en v

/-- A word of a doorbell page; the rest of the page reads 0 (R397). -/
def State.pageWord (s : State) (c off : Nat) : Word :=
  let w := Reg.CQ_SQ_TAIL c + off
  if off % 8 = 0 ∧ (regRow? w).isSome then s.reg w else 0

/-- BAR2_REQUEST: one word of a read (`wr` absent) or a write (R419); one with another pattern of byte enables than a word or a
half is counted in BAD_SIZE alone, whatever it would reach (R9). -/
def execBar2Request (pasid : Option Nat) (off en : Nat) (wr : Option Word) (s : State) : Host.Outcome State Fault Refusal :=
  commit (do
    let c := off / 0x10000
    let perst ← rd (·.boot.perst)
    let up ← rd fun s => decide (modeStage ≤ s.mode)
    let bound ← rd (·.pageReached pasid c)
    let ok := up && laneOk en && bound
    onlyIf (!perst && decide (off < 0x400000 ∧ off % 8 = 0)) do
      onlyIf (!laneOk en) (count Reg.HI_CNT_BAD_SIZE)
      onlyIf (up && laneOk en && !bound) (count (Reg.CL_CNT_PASID_VIOL c))
      match wr with
      | some v => onlyIf ok (pageWrite pasid c (off % 0x10000) en v)
      | none => do
        let w ← rd (·.pageWord c (off % 0x10000))
        send (.readData (if ok then leBytes 8 (w &&& laneMask en).toNat else zeros 8) false)) s

end Sys2Proof.Machine
end

