-- ==== Sys2Proof/Machine/Memory.lean ====
section
/-! DEFINITION. One access of a thread to what an address reaches (R191 to R194, R219, R227 to R231, R372, R426, R427,
R458): what traps, what a load finds and what a store does. -/

namespace Sys2Proof.Machine

/-! What traps before an access is made (R257). -/

/-- Whether a watch register of its core watches a thread's access (R219). -/
def State.watched (s : State) (t : Nat) (write : Bool) (a : Nat) : Bool :=
  (List.range 2).any fun w =>
    let v := s.reg (Reg.CORE_WATCH (streetOf t) (coreOf t % 8) w)
    bitOf (Fld.CORE_WATCH_THREADS.get v) (thrOf t) && (if write then Fld.CORE_WATCH_W else Fld.CORE_WATCH_R).isSet v &&
      Fld.CORE_WATCH_ADDR.get v / 8 = a / 8

/-- A trap: its cause and its value. -/
abbrev TrapVal := Nat × Word

/-- What an access of `n` bytes traps on before it takes place (R219, R230, R231): bank `b` of its pointer and, where that is
VALID, its address. -/
def State.accessTrap (s : State) (t : Nat) (write : Bool) (n b : Nat) (e : Option Ea) : Option TrapVal :=
  match e with
  | none => some (causeBank, Word.ofNat b)
  | some e =>
    if e.addr % n ≠ 0 then some (causeAlign, Word.ofNat e.addr)
    else if s.watched t write e.addr then some (causeWatch, Word.ofNat e.addr)
    else if !e.desk && decide (s.region e.addr = .regs ∧ n < 4) && s.right t (s.thread t).priv write e then
      some (causeBus, Word.ofNat e.addr)
    else none

/-- The place of a cause in the order of R257. -/
def causeRank (c : Nat) : Nat := if c = causeBank then 0 else if c = causeAlign then 1 else if c = causeWatch then 2 else 3

/-- The trap an instruction with two memory operands takes (R257); which of two equal causes gives TVAL the spec does not
say: it is free. -/
def firstTrap (a b : Option TrapVal) : M (Option TrapVal) :=
  match a, b with
  | some x, some y =>
    if causeRank x.1 < causeRank y.1 then pure (some x)
    else if causeRank y.1 < causeRank x.1 then pure (some y)
    else if x = y then pure (some x)
    else do
      let k ← draw
      pure (some (if Config.random k % 2 = 0 then x else y))
  | some x, none => pure (some x)
  | none, y => pure y

/-! Pool port pages and vector pages. -/

/-- Whether an address lies in a pool port page (R372), and whether in a vector page (R427). -/
def inPoolPages (a : Nat) : Bool := inRange a 0x020004000000 0x40000
def inVectorPages (a : Nat) : Bool := inRange a 0x020004040000 0x40000

/-- Attach a buffer to the context of the activation its allocator holds (R371). -/
def attachBuf (t h : Nat) : M Unit := do
  let th ← rd (·.thread t)
  match th.act with
  | none => pure ()
  | some i => do
    let a ← rd (·.actsAt i)
    match a with
    | none => pure ()
    | some a => do
      let c ← rd (·.ctx a.ctx)
      onlyIf (c.cgen = a.cgen && c.state != .free) (modCtxs a.ctx fun c => { c with attached := c.attached ++ [h] })

/-- An allocation from the pool port page of classroom `c` (R365, R366, R372). -/
def portAlloc (t c p : Nat) : M Word := do
  let h ← poolAlloc (some c) p 0 (some c)
  match h with
  | none => pure 0x8000000000000000
  | some h => do
    attachBuf t h
    pure (Word.ofNat h)

/-- What the page of classroom `c` says of a pool (R372). -/
def State.portInfo (s : State) (c p : Nat) : Word :=
  Word.ofNat (s.poolBase p % 2 ^ 48 + s.fld (Reg.BP_POOL_CFG p) Fld.BP_POOL_CFG_SIZE % 8 * 2 ^ 48 +
    bit (bitOf (s.actAt (Reg.BP_POOL_CL p)).toNat c) * 2 ^ 51)

/-- A load of thread `t` from an address at which no memory lies (R13, R372). -/
def portLoad (t a n : Nat) : M Word :=
  let c := (a - 0x020004000000) / 0x1000
  let off := a % 0x1000
  if inPoolPages a && n = 8 then
    if off < 0x80 then portAlloc t c (off / 8)
    else if 0x100 ≤ off ∧ off < 0x180 then rd (·.portInfo c ((off - 0x100) / 8))
    else pure 0
  else pure 0

/-- A vector signalled by software of classroom `c` (R427). -/
def vectorStore (c : Nat) (v : Word) : M Unit := do
  let n ← rd (·.grantLe c 14 1)
  let k := v.toNat % 16
  onlyIf (decide (2 ≤ k ∧ k < n)) (msixSignal (256 + 16 * c + k))

/-- A store of thread `t` to an address at which no memory lies (R13, R367, R372, R427). -/
def portStore (t a n : Nat) (v : Word) : M Unit := do
  let th ← rd (·.thread t)
  let h := v.toNat % 2 ^ 32
  let who := if th.priv = 0 then none else some ((a - 0x020004000000) / 0x1000)
  if inPoolPages a && n = 8 then
    if a % 0x1000 = 0x800 then bufDrop who h
    else onlyIf (a % 0x1000 = 0x808) (do
      let _ ← bufAdd who h
      pure ())
  else onlyIf (inVectorPages a && n = 8 && a % 0x1000 = 0 && th.priv = 1) (vectorStore ((a - 0x020004040000) / 0x1000) v)

/-! The register space and the remote window. -/

/-- The byte enables of an access of 4 or 8 bytes to the register space (R8). -/
def spaceEnables (off n : Nat) : Nat := if n = 8 then 0xFF else if off % 8 = 0 then 0x0F else 0xF0

/-- Read 4 or 8 bytes of the register space. -/
def spaceRead (o : Who) (off n : Nat) : M Word := do
  let w ← readReg o (off / 8 * 8)
  pure (if n = 8 then w else if off % 8 = 0 then w &&& 0xFFFFFFFF else w >>> 32)

/-- Write 4 or 8 bytes of the register space. -/
def spaceWrite (o : Who) (off n : Nat) (v : Word) : M Unit :=
  regWriteBy o (off / 8 * 8) (spaceEnables off n) (if n = 4 && off % 8 != 0 then v <<< 32 else v)

/-- Device and offset of an address of the remote window (R458). -/
def remoteDev (a : Nat) : Nat := (a - 0x050000000000) / 0x4000000
def remoteOff (a : Nat) : Nat := (a - 0x050000000000) % 0x4000000

/-- Whether a record can leave for a device (R446, R457). -/
def State.reachable (s : State) (d : Nat) : Bool := (s.ringRoute d).isSome && !s.ring.mute

/-- The record that asks for a remote access. -/
def Remote.req (m : Remote) : RingRec := ⟨recRaccReq, false, raccReq m.tag m.thread m.off m.size m.write⟩

/-- Make a remote access; `false` if it fails at once (R458).  The accesses of one thread to one device take effect in program
order: the request of one leaves when those before it are over. -/
def remoteSend (t d off n : Nat) (wr : Option Nat) : M Bool := do
  let ok ← rd (·.reachable d)
  let behind ← rd fun s => s.ring.remotes.any fun m => m.thread == t && m.dev == d
  let tag ← rd (·.ring.racc)
  let m : Remote := ⟨tag, t, d, off, n, wr, !behind⟩
  onlyIf (!(ok && behind)) (ringSend d m.req)
  if ok then do
    modRing fun r => { r with racc := (tag + 1) % 2 ^ 64, remotes := r.remotes ++ [m] }
    pure true
  else do
    count Reg.RB_CNT_RACC_FAIL
    pure false

/-! Loads. -/

/-- What a load comes to. -/
inductive Got
  | value (v : Word)
  | waits
  | traps (cause : Nat) (v : Word)
  deriving DecidableEq, Repr

/-- Read `n` bytes of memory: an uncorrectable error raises BUS (R256, R347). -/
def memLoad (t : Nat) (e : Ea) (n : Nat) : M Got := do
  let bad ← rd (·.eaBad e n)
  if bad then do
    eaReport e n
    pure (.traps causeBus (Word.ofNat e.addr))
  else do
    let bs ← rd (·.eaBytes t e n)
    pure (.value (Word.ofNat (ofLeBytes bs)))

/-- A load of `n` bytes by thread `t`, once nothing of `State.accessTrap` stops it (R230).  One from DRAM waits for its channel,
which answers at LOAD_RETURN (R347); a channel that takes no requests gives BUS at once (R356). -/
def loadEa (t : Nat) (e : Ea) (n : Nat) : M Got := do
  let th ← rd (·.thread t)
  let ok ← rd (·.right t th.priv false e)
  let r ← rd (·.region e.addr)
  if !ok then pure (.value 0)
  else if e.desk then memLoad t e n
  else match r with
    | .dram => do
      let out ← rd fun s => (s.dramChan e.addr).any s.ddrOut
      let u ← rd (·.onUrgent t)
      touch (coreOf t) e.addr n u
      if out then memLoad t e n else pure .waits
    | .street k => do
      wakeStreet k
      memLoad t e n
    | .square => memLoad t e n
    | .regs => do
      let v ← spaceRead (.thread t) (e.addr - 0x030000000000) n
      pure (.value v)
    | .host => do
      let p ← rd fun s => (s.boundTo t).map s.pasidOf
      send (.hostRead p (e.addr - 0x040000000000) n)
      pure .waits
    | .remote => do
      let own ← rd (·.deviceId)
      if n < 4 then pure (.value 0)
      else if remoteDev e.addr = own then do
        let v ← spaceRead (.thread t) (remoteOff e.addr) n
        pure (.value v)
      else do
        let sent ← remoteSend t (remoteDev e.addr) (remoteOff e.addr) n none
        pure (if sent then .waits else .value 0)
    | .unmapped => do
      let v ← portLoad t e.addr n
      pure (.value v)

/-! Stores. -/

/-- The low `n` bytes of a register. -/
def lowBytes (v : Word) (n : Nat) : List Byte := leBytes n (v.toNat % 2 ^ (8 * n))

/-- A store of the low `n` bytes of `v` by thread `t`, once nothing of `State.accessTrap` stops it (R230). -/
def storeEa (t : Nat) (e : Ea) (n : Nat) (v : Word) : M Unit := do
  let th ← rd (·.thread t)
  let ok ← rd (·.right t th.priv true e)
  let r ← rd (·.region e.addr)
  if !ok then pure ()
  else if e.desk then writeDesk t e.addr (lowBytes v n)
  else match r with
    | .dram | .square => store (coreOf t) e.addr (lowBytes v n)
    | .street k => do
      wakeStreet k
      store (coreOf t) e.addr (lowBytes v n)
    | .regs => spaceWrite (.thread t) (e.addr - 0x030000000000) n v
    | .host => do
      let c ← rd (·.boundTo t)
      hostWrite c (e.addr - 0x040000000000) (lowBytes v n)
    | .remote => do
      let own ← rd (·.deviceId)
      if n < 4 then pure ()
      else if remoteDev e.addr = own then spaceWrite (.thread t) (remoteOff e.addr) n v
      else do
        let _ ← remoteSend t (remoteDev e.addr) (remoteOff e.addr) n (some (v.toNat % 2 ^ (8 * n)))
        pure ()
    | .unmapped => portStore t e.addr n v

end Sys2Proof.Machine
end

