-- ==== Sys2Proof/Machine/LoadStore.lean ====
section
/-! DEFINITION. Loads and stores (R227 to R231, R236, R237), CHWRX (R245), CAS (R246, R388), REP (R252 to R255), the
return of loads (R196), and remote accesses of the ring (R458). -/

namespace Sys2Proof.Machine

/-! What one execution of an instruction that reads or writes memory comes to. -/

/-- The outcome of one execution: it completes with an update of the thread, waits, or traps. -/
inductive Done
  | ends (f : Thread → Thread)
  | waits (w : Wait)
  | traps (cause : Nat) (v : Word)

/-- End an instruction outside REP. -/
def conclude (t : Nat) (d : Done) : M Unit :=
  match d with
  | .ends f => finishNext t f
  | .waits w => enterWait t w
  | .traps c v => trapHere t c v

/-- A load into `rd'` from bank `b` (R227, R230, R231, R236). -/
def loadInstr (t rd' n b : Nat) (e : Option Ea) : M Done := do
  let tr ← rd (·.accessTrap t false n b e)
  match tr, e with
  | some (c, v), _ => pure (.traps c v)
  | none, none => pure (.ends id)
  | none, some e => do
    let g ← loadEa t e n
    pure (match g with
      | .value v => .ends fun th => th.setG rd' v
      | .waits => .waits (.load rd' (BitVec.ofNat 48 e.addr) n)
      | .traps c v => .traps c v)

/-- A store of `v` to bank `b`; `f` is what it does to the thread beside (R227, R230, R231, R236). -/
def storeInstr (t n b : Nat) (e : Option Ea) (v : Word) (f : Thread → Thread) : M Done := do
  let tr ← rd (·.accessTrap t true n b e)
  match tr, e with
  | some (c, v), _ => pure (.traps c v)
  | none, none => pure (.ends f)
  | none, some e => do
    storeEa t e n v
    pure (.ends f)

/-! M form. -/

/-- A load in M form. -/
def loadM (t op n rd' bank short : Nat) (s : State) : Host.Outcome State Fault Refusal :=
  commit (issue t (wordM op rd' bank short) true fun th => do
    let d ← loadInstr t (rd' % 32) n (bank % 8) (th.ea (bank % 8) short)
    conclude t d) s

/-- A store in M form. -/
def storeM (t op n rd' bank short : Nat) (s : State) : Host.Outcome State Fault Refusal :=
  commit (issue t (wordM op rd' bank short) true fun th => do
    let d ← storeInstr t n (bank % 8) (th.ea (bank % 8) short) (th.gr (rd' % 32)) id
    conclude t d) s

/-- LD (R236). -/
def execLd (t rd bank short : Nat) (s : State) : Host.Outcome State Fault Refusal := loadM t 0x10 8 rd bank short s

/-- LW (R236). -/
def execLw (t rd bank short : Nat) (s : State) : Host.Outcome State Fault Refusal := loadM t 0x11 4 rd bank short s

/-- LH (R236). -/
def execLh (t rd bank short : Nat) (s : State) : Host.Outcome State Fault Refusal := loadM t 0x12 2 rd bank short s

/-- LB (R236). -/
def execLb (t rd bank short : Nat) (s : State) : Host.Outcome State Fault Refusal := loadM t 0x13 1 rd bank short s

/-- SD (R236). -/
def execSd (t rd bank short : Nat) (s : State) : Host.Outcome State Fault Refusal := storeM t 0x14 8 rd bank short s

/-- SW (R236). -/
def execSw (t rd bank short : Nat) (s : State) : Host.Outcome State Fault Refusal := storeM t 0x15 4 rd bank short s

/-- SH (R236). -/
def execSh (t rd bank short : Nat) (s : State) : Host.Outcome State Fault Refusal := storeM t 0x16 2 rd bank short s

/-- SB (R236). -/
def execSb (t rd bank short : Nat) (s : State) : Host.Outcome State Fault Refusal := storeM t 0x17 1 rd bank short s

/-! X form. -/

/-- A load in X form. -/
def loadX (t op n rd' rb off : Nat) (s : State) : Host.Outcome State Fault Refusal :=
  commit (issue t (wordX op rd' rb off) true fun th => do
    let p := th.gr (rb % 32)
    let d ← loadInstr t (rd' % 32) n (ptrBank p) (th.ptrEa p (disp16 off))
    conclude t d) s

/-- LDX (R236). -/
def execLdx (t rd rb off : Nat) (s : State) : Host.Outcome State Fault Refusal := loadX t 0x18 8 rd rb off s

/-- LWX (R236). -/
def execLwx (t rd rb off : Nat) (s : State) : Host.Outcome State Fault Refusal := loadX t 0x19 4 rd rb off s

/-- LHX (R236). -/
def execLhx (t rd rb off : Nat) (s : State) : Host.Outcome State Fault Refusal := loadX t 0x1A 2 rd rb off s

/-- LBX (R236). -/
def execLbx (t rd rb off : Nat) (s : State) : Host.Outcome State Fault Refusal := loadX t 0x1B 1 rd rb off s

/-- One execution of a store in X form; behind REP its pointer advances by the size (R236). -/
def storeXOnce (t n rd' rb off : Nat) (inRep : Bool) : M Done := do
  let th ← rd (·.thread t)
  let p := th.gr (rb % 32)
  storeInstr t n (ptrBank p) (th.ptrEa p (disp16 off)) (th.gr (rd' % 32))
    (if inRep then fun th => th.setG (rb % 32) (ptrAdvance p n) else id)

/-- A store in X form. -/
def storeX (t op n rd' rb off : Nat) (s : State) : Host.Outcome State Fault Refusal :=
  commit (issue t (wordX op rd' rb off) true fun _ => do
    let d ← storeXOnce t n rd' rb off false
    conclude t d) s

/-- SDX (R236). -/
def execSdx (t rd rb off : Nat) (s : State) : Host.Outcome State Fault Refusal := storeX t 0x1C 8 rd rb off s

/-- SWX (R236). -/
def execSwx (t rd rb off : Nat) (s : State) : Host.Outcome State Fault Refusal := storeX t 0x1D 4 rd rb off s

/-- SHX (R236). -/
def execShx (t rd rb off : Nat) (s : State) : Host.Outcome State Fault Refusal := storeX t 0x1E 2 rd rb off s

/-- SBX (R236). -/
def execSbx (t rd rb off : Nat) (s : State) : Host.Outcome State Fault Refusal := storeX t 0x1F 1 rd rb off s

/-! CPX (R237). -/

/-- Bytes of CPX's size code. -/
def cpxSize (code : Nat) : Nat :=
  match code % 4 with
  | 0 => 8 | 1 => 4 | 2 => 2 | _ => 1

/-- Both pointers of a CPX advanced (R237). -/
def cpxAdvance (rd' rb n : Nat) (th : Thread) : Thread :=
  (th.setG rd' (ptrAdvance (th.gr rd') n)).setG rb (ptrAdvance (th.gr rb) n)

/-- CPX behind its load: the value goes to the destination, and the pointers advance. -/
def cpxStore (t rd' n : Nat) (v : Word) : M Unit := do
  let th ← rd (·.thread t)
  match th.ptrEa (th.gr rd') 0 with
  | some e => storeEa t e n v
  | none => pure ()

/-- One execution of CPX; `rep` the REP it follows (R237, R257). -/
def cpxOnce (t rd' rb n : Nat) (rep : Option InRep) : M Done := do
  let th ← rd (·.thread t)
  let src := th.gr rb
  let dst := th.gr rd'
  let a ← rd (·.accessTrap t false n (ptrBank src) (th.ptrEa src 0))
  let b ← rd (·.accessTrap t true n (ptrBank dst) (th.ptrEa dst 0))
  let tr ← firstTrap a b
  match tr, th.ptrEa src 0 with
  | some (c, v), _ => pure (.traps c v)
  | none, none => pure (.ends id)
  | none, some e => do
    let g ← loadEa t e n
    match g with
    | .value v => do
      cpxStore t rd' n v
      pure (.ends (cpxAdvance rd' rb n))
    | .waits => pure (.waits (.copyLoad rd' rb n rep (BitVec.ofNat 48 e.addr)))
    | .traps c v => pure (.traps c v)

/-- The word of a CPX, `rsv` its off16[15:2]. -/
def wordCpx (rd' rb size rsv : Nat) : Nat := wordX 0x22 rd' rb (size % 4 + rsv % 2 ^ 14 * 4)

/-- CPX (R237). -/
def execCpx (t rd rb size rsv : Nat) (s : State) : Host.Outcome State Fault Refusal :=
  commit (issue t (wordCpx rd rb size rsv) (decide (rsv % 2 ^ 14 = 0)) fun _ => do
    let d ← cpxOnce t (rd % 32) (rb % 32) (cpxSize size) none
    conclude t d) s

/-! CHWRX (R245). -/

/-- CHWRX behind its load: the word goes to the channel, or waits for another packet to close. -/
def chwrxWrite (t ra ch : Nat) (e : Bool) (rep : Option InRep) (v : Word) : M Done := do
  let waits ← channelWrite t ch v e
  pure (if waits then .waits (.chWrite ch v e (some ra) rep)
    else .ends fun th => th.setG ra (ptrAdvance (th.gr ra) 8))

/-- One execution of CHWRX with end mark `e`; `rep` the REP it follows. -/
def chwrxOnce (t ra rb : Nat) (e : Bool) (rep : Option InRep) : M Done := do
  let th ← rd (·.thread t)
  let p := th.gr ra
  let ch := (th.gr rb).toNat % 4096
  let tr ← rd (·.accessTrap t false 8 (ptrBank p) (th.ptrEa p 0))
  match tr, th.ptrEa p 0 with
  | some (c, v), _ => pure (.traps c v)
  | none, none => pure (.ends id)
  | none, some a => do
    let g ← loadEa t a 8
    match g with
    | .value v => chwrxWrite t ra ch e rep v
    | .waits => pure (.waits (.chwrxLoad ra ch e rep (BitVec.ofNat 48 a.addr)))
    | .traps c v => pure (.traps c v)

/-- The word of a CHWRX, `rsv` its fn[10:5]. -/
def wordChwrx (ra rb : Nat) (e : Bool) (rsv : Nat) : Nat := wordA 0x26 0 ra rb (rsv % 64 * 32 + bit e * 16 + 1)

/-- CHWRX (R245). -/
def execChwrx (t ra rb : Nat) (e : Bool) (rsv : Nat) (s : State) : Host.Outcome State Fault Refusal :=
  commit (issueRel t (wordChwrx ra rb e rsv) (decide (rsv % 64 = 0)) fun _ => do
    let d ← chwrxOnce t (ra % 32) (rb % 32) e none
    conclude t d) s

/-! CAS (R246, R388). -/

/-- The compare and swap itself: the word is read, compared with `rd'` and, if equal, replaced by `rb`. -/
def casMem (t rd' rb : Nat) (e : Ea) : M Done := do
  let th ← rd (·.thread t)
  let square ← rd fun s => s.region e.addr == .square
  let g ← memLoad t e 8
  match g with
  | .value old => do
    let eq := old == th.gr rd'
    onlyIf eq (store (coreOf t) e.addr (lowBytes (th.gr rb) 8))
    count (if square then Reg.HP_CNT_CAS_SQM else Reg.HP_CNT_CAS_DRAM)
    pure (.ends fun th => { th.setG rd' old with flags := { th.flags with z := eq } })
  | .waits => pure (.ends id)
  | .traps c v => pure (.traps c v)

/-- Whether a CAS reaches its word: it must be within the rights, for reading and writing, and in no table's stripe (R246,
R388). -/
def State.casRight (s : State) (t : Nat) (e : Ea) : Bool :=
  s.right t (s.thread t).priv false e && s.right t (s.thread t).priv true e && !s.inStripe e.addr

/-- What a CAS traps on (R246, R256, R257). -/
def State.casTrap (s : State) (t b : Nat) (e : Option Ea) : Option TrapVal :=
  match e with
  | none => some (causeBank, Word.ofNat b)
  | some e =>
    if e.addr % 8 ≠ 0 then some (causeAlign, Word.ofNat e.addr)
    else if s.watched t false e.addr || s.watched t true e.addr then some (causeWatch, Word.ofNat e.addr)
    else if e.desk || !decide (s.region e.addr = .square ∨ s.region e.addr = .dram) then some (causeBus, Word.ofNat e.addr)
    else none

/-- One execution of CAS. -/
def casOnce (t rd' ra rb : Nat) : M Done := do
  let th ← rd (·.thread t)
  let p := th.gr ra
  let tr ← rd (·.casTrap t (ptrBank p) (th.ptrEa p 0))
  match tr, th.ptrEa p 0 with
  | some (c, v), _ => pure (.traps c v)
  | none, none => pure (.ends id)
  | none, some e => do
    let ok ← rd (·.casRight t e)
    let now ← rd fun s => (s.dramChan e.addr).all s.ddrOut
    if !ok then pure (.ends fun th => { th.setG rd' 0 with flags := { th.flags with z := false } })
    else do
      let u ← rd (·.onUrgent t)
      touch (coreOf t) e.addr 8 u
      if now then casMem t rd' rb e else pure (.waits (.cas rd' rb (BitVec.ofNat 48 e.addr)))

/-- CAS (R246); `rsv` is fn[10:4]. -/
def execCas (t rd ra rb rsv : Nat) (s : State) : Host.Outcome State Fault Refusal :=
  commit (issueRel t (wordA 0x27 rd ra rb (rsv % 128 * 16)) (decide (rsv % 128 = 0)) fun _ => do
    let d ← casOnce t (rd % 32) (ra % 32) (rb % 32)
    conclude t d) s

/-! REP (R252 to R255). -/

/-- One repetition of a follower; `last` on the last one (R236, R237, R245). -/
def repOnce (t : Nat) (r : InRep) (last : Bool) : M Done :=
  match r.fol with
  | .sdx rd' rb off => storeXOnce t 8 rd' rb off true
  | .swx rd' rb off => storeXOnce t 4 rd' rb off true
  | .shx rd' rb off => storeXOnce t 2 rd' rb off true
  | .sbx rd' rb off => storeXOnce t 1 rd' rb off true
  | .cpx rd' rb size rsv =>
    if rsv % 2 ^ 14 = 0 then cpxOnce t (rd' % 32) (rb % 32) (cpxSize size) (some r)
    else pure (.traps causeUndef (Word.ofNat (wordCpx rd' rb size rsv)))
  | .chwrx ra rb e rsv =>
    if rsv % 64 = 0 then chwrxOnce t (ra % 32) (rb % 32) (e && last) (some r)
    else pure (.traps causeUndef (Word.ofNat (wordChwrx ra rb e rsv)))
  | .other => pure (.ends id)

/-- The thread stands between two repetitions with `left` to do, or behind the follower with none (R254). -/
def repPause (t left : Nat) : M Unit := do
  let th ← rd (·.thread t)
  finishAt t (if left = 0 then th.pcPlus 8 else th.pc) fun th => { th with repc := left }

/-- At most `fuel` repetitions of the `left` that remain (R254). -/
def repLoop (t : Nat) (r : InRep) : Nat → Nat → M Unit
  | 0, left => repPause t left
  | _ + 1, 0 => repPause t 0
  | fuel + 1, left + 1 => do
    modThreads t fun th => { th with repc := left + 1 }
    count (coreReg Reg.CORE_CNT_ISSUED (coreOf t))
    let d ← repOnce t r (left = 0)
    match d with
    | .ends f => do
      modThreads t f
      repLoop t r fuel left
    | .waits w => enterWait t w
    | .traps c v => trapHere t c v

/-- Whether the instruction behind a REP is one marked Rep (R253). -/
def repeats : Follower → Bool
  | .other => false
  | _ => true

/-- Whether a follower is a releasing instruction (R260). -/
def releases : Follower → Bool
  | .chwrx _ _ _ _ => true
  | _ => false

/-- REP (R252 to R255).  `stop` says after how many repetitions an interruptible one stops for a pre-emption save, a halt or
a step.  A pre-emption victim issues no non-interruptible REP (R164). -/
def execRep (t : Nat) (i r : Bool) (rb count rsv : Nat) (fol : Follower) (stop : Option Nat) (s : State) :
    Host.Outcome State Fault Refusal :=
  let word := wordX 0x0F (bit i * 16 + bit r * 8 + rsv % 8) rb count
  let ok := rsv % 8 = 0 ∧ (if r then count % 2 ^ 16 = 0 else rb % 32 = 0)
  commit (do
    let th ← rd (·.thread t)
    onlyIf (i || th.preempt.isNone) <| (if releases fol then issueRel else issue) t word (decide ok) fun th => do
      let next := th.pcPlus 4
      let fetch ← rd (·.mayFetch t next.toNat)
      let fresh := if r then (th.gr (rb % 32)).toNat else count % 2 ^ 16 + 1
      let n := if th.repc != 0 then th.repc else fresh
      if (th.repc = 0 && decide (65536 < fresh)) || (!i && decide (256 < n)) then trapHere t causeRep (Word.ofNat n)
      else if !fetch then trap t causeBus (Word.ofNat next.toNat) next
      else if !repeats fol then trapHere t causeRep (Word.ofNat n)
      else repLoop t ⟨i, fol⟩ (if i then min n (stop.getD n) else n) n) s

/-- Go on behind an instruction that had waited; inside a REP with the repetitions that are left, which an interruptible one
leaves to the REP itself (R254, R255). -/
def finishRep (t : Nat) (rep : Option InRep) (f : Thread → Thread) : M Unit :=
  match rep with
  | none => finishNext t f
  | some r => do
    modThreads t f
    let th ← rd (·.thread t)
    repLoop t r (if r.inter then 0 else th.repc - 1) (th.repc - 1)

/-- The outcome of an instruction that had waited. -/
def concludeRep (t : Nat) (rep : Option InRep) (d : Done) : M Unit :=
  match d with
  | .ends f => finishRep t rep f
  | .waits w => enterWait t w
  | .traps c v => trapHere t c v

/-- CHANNEL_WRITE_RESUME: the packet a thread waited for is closed, and its own word is written (R375). -/
def execChannelWriteResume (t : Nat) (s : State) : Host.Outcome State Fault Refusal :=
  commit (do
    let th ← rd (·.thread t)
    onlyIf th.waiting (match th.wait with
      | .chWrite n w e adv rep => do
        let waits ← channelWrite t n w e
        onlyIf (!waits) (finishRep t rep fun th => match adv with
          | some r => th.setG r (ptrAdvance (th.gr r) 8)
          | none => th)
      | _ => pure ())) s

/-! The return of loads (R196). -/

/-- The value of an outstanding load is there: the instruction that waits for it goes on. -/
def loadArrives (t : Nat) (v : Word) : M Unit := do
  let th ← rd (·.thread t)
  match th.wait with
  | .load r _ _ => finishNext t fun th => th.setG r v
  | .copyLoad r rb n rep _ => do
    cpxStore t r n v
    finishRep t rep (cpxAdvance r rb n)
  | .chwrxLoad ra ch e rep _ => do
    let d ← chwrxWrite t ra ch e rep v
    concludeRep t rep d
  | .staging .. => stageArrives t (some v)
  | _ => pure ()

/-- The host's answer to a read that its thread no longer waits for is discarded (R431 step 4, R433). -/
def lateReturn (t : Nat) : M Unit :=
  modSq fun q => { q with lateReads := q.lateReads.eraseP (·.1 == t) }

/-- Whether the next answer of the host for a thread belongs to a read that it no longer waits for. -/
def State.readLate (s : State) (t : Nat) : Bool :=
  s.sq.lateReads.any (·.1 == t) && (s.thread t).loading.all fun x => s.region x.1 == .host

/-- LOAD_RETURN: a DRAM channel that has read a thread's line answers, or the host returns `data`, `none` if its read ends with an
error (R196, R256, R347, R426). -/
def execLoadReturn (t : Nat) (data : Option Word) (s : State) : Host.Outcome State Fault Refusal :=
  commit (do
    let late ← rd (·.readLate t)
    let th ← rd (·.thread t)
    let on ← rd (·.threadRuns t)
    if late then lateReturn t
    else match if on then th.loading else none with
    | none => pure ()
    | some (a, n) => do
      let r ← rd (·.region a)
      let ready ← rd (·.answered (coreOf t) (linesOf a n))
      match r with
      | .remote => pure ()
      | .host => match data with
        | some v => loadArrives t (Word.ofNat (v.toNat % 2 ^ (8 * n)))
        | none => trapHere t causeBus (Word.ofNat a)
      | _ => onlyIf ready (match th.wait with
        | .cas r rb _ => do
          let d ← casMem t r rb ⟨false, a⟩
          conclude t d
        | .staging .. => stageArrives t none
        | _ => do
          let g ← memLoad t ⟨false, a⟩ n
          match g with
          | .value v => loadArrives t v
          | .waits => pure ()
          | .traps c v => trapHere t c v)) s

/-! Accesses of a thread to the pages of the Square and to the remote window, as instructions of 8 bytes or of the size
named. -/

/-- An 8-byte or 4-byte load of thread `t` from an address. -/
def loadAt (t rd' n a : Nat) : M Unit :=
  issue t 0 true fun _ => do
    let d ← loadInstr t rd' n 0 (some ⟨false, a⟩)
    conclude t d

/-- An 8-byte or 4-byte store of thread `t` to an address. -/
def storeAt (t n a : Nat) (v : Word) : M Unit :=
  issue t 0 true fun _ => do
    let d ← storeInstr t n 0 (some ⟨false, a⟩) v id
    conclude t d

/-- The address of offset `off` in the pool port page of classroom `c` (R372). -/
def poolPage (c off : Nat) : Nat := 0x020004000000 + c * 0x1000 + off

/-- POOL_PORT_ALLOC (R372). -/
def execPoolPortAlloc (t rd c p : Nat) (s : State) : Host.Outcome State Fault Refusal :=
  commit (onlyIf (decide (c < 64 ∧ p < 16)) (loadAt t (rd % 32) 8 (poolPage c (8 * p)))) s

/-- POOL_PORT_INFO (R372). -/
def execPoolPortInfo (t rd c p : Nat) (s : State) : Host.Outcome State Fault Refusal :=
  commit (onlyIf (decide (c < 64 ∧ p < 16)) (loadAt t (rd % 32) 8 (poolPage c (0x100 + 8 * p)))) s

/-- POOL_PORT_DROP (R367 to R369, R372). -/
def execPoolPortDrop (t c : Nat) (h : Word) (s : State) : Host.Outcome State Fault Refusal :=
  commit (onlyIf (decide (c < 64)) (storeAt t 8 (poolPage c 0x800) h)) s

/-- POOL_PORT_ADD (R367, R369, R372). -/
def execPoolPortAdd (t c : Nat) (h : Word) (s : State) : Host.Outcome State Fault Refusal :=
  commit (onlyIf (decide (c < 64)) (storeAt t 8 (poolPage c 0x808) h)) s

/-- VECTOR_SIGNAL (R427). -/
def execVectorSignal (t c : Nat) (v : Word) (s : State) : Host.Outcome State Fault Refusal :=
  commit (onlyIf (decide (c < 64)) (storeAt t 8 (0x020004040000 + c * 0x1000) v)) s

/-- REMOTE_WINDOW_ACCESS (R458): a load of `size` bytes, or a store of `wr`. -/
def execRemoteWindowAccess (t rd dev off size : Nat) (wr : Option Nat) (s : State) : Host.Outcome State Fault Refusal :=
  commit (onlyIf (decide (dev < 4096 ∧ off < 0x4000000) && (size = 4 || size = 8)) (
    let a := 0x050000000000 + dev * 0x4000000 + off
    match wr with
    | none => loadAt t (rd % 32) size a
    | some v => storeAt t size a (Word.ofNat v))) s

/-! Remote accesses (R458). -/

/-- RACC_REQ_RECEIVE: an access of another member is made if RB_CFG.RACC_EN is set, and answered. -/
def execRaccReqReceive (l : Nat) (s : State) : Host.Outcome State Fault Refusal :=
  commit (takeRec l recRaccReq fun r => do
    dropRec l r
    let (tag, t, off, n, wr) := raccReqOf r.body
    let ok ← rd (·.mayAccess (.remote t r.src) off)
    onlyIf (ok && (n = 4 || n = 8) && off % n = 0) do
      let v ← match wr with
        | some v => do
          spaceWrite (.remote t r.src) off n (Word.ofNat v)
          pure 0
        | none => spaceRead (.remote t r.src) off n
      ringSend r.src ⟨recRaccRsp, false, raccRsp tag v.toNat⟩) s

/-- A remote access of this device ends: a load that its thread still waits for takes `v`. -/
def remoteEnd (m : Remote) (v : Word) : M Unit := do
  let newer ← rd fun s => s.ring.remotes.any fun x => x.thread = m.thread && x.write.isNone && decide (m.tag < x.tag)
  modRing fun r => { r with remotes := r.remotes.filter (·.tag != m.tag) }
  let th ← rd (·.thread m.thread)
  match th.loading with
  | some (a, _) => do
    let here ← rd fun s => s.region a == .remote
    onlyIf (m.write.isNone && !newer && here) (loadArrives m.thread v)
  | none => pure ()

/-- The next access of a thread to a device leaves, now that those before it are over; what cannot be reached fails (R458). -/
def remoteNext (t d : Nat) : Nat → M Unit
  | 0 => pure ()
  | n + 1 => do
    let m ← rd fun s => s.ring.remotes.find? fun m => m.thread == t && m.dev == d
    let ok ← rd (·.reachable d)
    match m with
    | none => pure ()
    | some m => onlyIf (!m.sent) do
      ringSend d m.req
      if ok then modRing fun r => { r with remotes := r.remotes.map fun x => if x.tag = m.tag then { x with sent := true } else x }
      else do
        count Reg.RB_CNT_RACC_FAIL
        remoteEnd m 0
        remoteNext t d n

/-- A remote access of this device is over, and the next one that waited for it leaves. -/
def remoteOver (m : Remote) (v : Word) : M Unit := do
  remoteEnd m v
  let n ← rd (·.ring.remotes.length)
  remoteNext m.thread m.dev n

/-- RACC_RSP_RECEIVE. -/
def execRaccRspReceive (l : Nat) (s : State) : Host.Outcome State Fault Refusal :=
  commit (takeRec l recRaccRsp fun r => do
    dropRec l r
    let (tag, v) := raccRspOf r.body
    let m ← rd fun s => s.ring.remotes.find? fun m => m.tag = tag && m.dev = r.src
    match m with
    | none => pure ()
    | some m => remoteOver m (Word.ofNat (v % 2 ^ (8 * m.size)))) s

/-- RACC_TIMEOUT: the oldest access of a thread has had no response for 100 µs; a request that has not left is discarded. -/
def execRaccTimeout (t : Nat) (s : State) : Host.Outcome State Fault Refusal :=
  commit (do
    let m ← rd fun s => s.ring.remotes.find? fun m => m.thread = t
    match m with
    | none => pure ()
    | some m => do
      count Reg.RB_CNT_RACC_FAIL
      each [0, 1] fun l => modRingLinks l fun k => { k with other := k.other.filter fun f => f.recs != [m.req] }
      remoteOver m 0) s

end Sys2Proof.Machine
end

