-- ==== Sys2Proof/Machine/Manage.lean ====
section
/-! DEFINITION. The manager's general commands (spec/13, spec/18): identity, modes (R509 to R512), commits, the board profile
and DRAM_INIT (R341, R345, R507, R508), counters, time, power rungs and diagnostics (R513, R519, R520). -/

namespace Sys2Proof.Machine

/-- Whether ERR_N is asserted (R492); with a supply below its recommended minimum the pin is released (R522). -/
def State.errN (s : State) : Bool := s.fld Reg.FC_ERR Fld.FC_ERR_ASSERTED = 1 && !s.boot.supplyLow

/-- NOP (R413).  DESIGN CHOICE: a command whose opcode is in no table has no row of its own; `other` is its opcode, and it is
answered as R407 step 1 says. -/
def execNop (c : Cmd) (other : Option Nat) (s : State) : Host.Outcome State Fault Refusal :=
  commit (match other with
    | some op => commandUnlisted op c
    | none => command (fun _ => ⟨0, modesA, true, (· == 0), 0, 0, 0, 0, true⟩) c (pure (ans stDone))) s

/-- Populated DRAM in GiB. -/
def State.dramGib (s : State) : Nat := ((List.range 8).countP s.ddrEn) * 2 ^ s.capLog2 / 2 ^ 30

/-- The identity block (R416). -/
def State.identity (s : State) (q : Nat) : List Byte :=
  ([0x45, 0x51, 0x39, 0x36, 0x34, 0x30, 0x2D, 0x46, 0x43, 0x33, 0x34, 0x38, 0x31, 0x2D, 0x41, 0x31] : List Byte) ++
  leBytes 4 (s.boot.running.elim 0 (·.version)) ++ zeros 4 ++ leBytes 8 s.boot.fuses.uid.toNat ++ leBytes 2 s.deviceId ++
  leBytes 1 s.mode ++ leBytes 1 (match qClass q with
    | none => q
    | some c => 0x40 + c) ++
  leBytes 2 s.dramGib ++ leBytes 1 (maskBits 8 0 s.ddrEn).toNat ++ zeros 25

/-- IDENTIFY (R416). -/
def execIdentify (c : Cmd) (s : State) : Host.Outcome State Fault Refusal :=
  commit (command (fun _ => ⟨1, modesA, true, (· == 0), 64, 0, 0, 0, true⟩) c (do
    let b ← rd (·.identity c.queue)
    pure (ansData 0 b))) s

/-- ECHO (R413). -/
def execEcho (c : Cmd) (s : State) : Host.Outcome State Fault Refusal :=
  commit (command (fun _ => ⟨2, modesA, true, fun n => decide (n ≤ 1024), 64 * c.len, 0, 0, 0, true⟩) c
    (pure (ansData 0 (padTo (64 * c.len) c.payload)))) s

/-! Modes (R509 to R512). -/

/-- Whether STAGE may be left for SERVICE (R509). -/
def State.serviceReady (s : State) : Bool :=
  ((List.range 8).all fun n => !s.ddrEn n || s.fld (Reg.DDR_STATUS n) Fld.DDR_STATUS_INIT_DONE = 1) &&
    s.fld Reg.PG_STATUS Fld.PG_STATUS_CUR_VALID = 1

/-- Whether some source holds a pending F (R490). -/
def State.fatalPending (s : State) : Bool :=
  (List.range 157).any fun n => s.fld (Reg.FC_STAT n) Fld.FC_STAT_F_PEND = 1

/-- Whether a MODE_SET changes nothing: its target is the present mode, or SERVICE while DEGRADED (R510). -/
def State.modeThere (s : State) (target : Nat) : Bool :=
  target == s.mode || (target == modeService && s.mode == modeDegraded)

/-- What a MODE_SET meets when it is carried out: a final status, or `none` where the transition is made (R509, R510); a SAFE
reaction has ended those it found in progress (`safeReaction`). -/
def State.modeAnswer (s : State) (target : Nat) : Option Nat :=
  let m := s.mode
  if s.modeThere target then some stDone
  else if target = modeReset then none
  else if target = modeSafe then none
  else if target = modeService then (if m = modeStage && s.serviceReady then none else some stWrongMode)
  else if m = modeSafe && !s.fatalPending then none
  else some stWrongMode

/-- MODE_SET (R509, R510). -/
def execModeSet (c : Cmd) (s : State) : Host.Outcome State Fault Refusal :=
  commit (command (fun _ => ⟨0x10, modesA, false, (· == 0), 0, 7, 0, 0, [modeReset, modeStage, modeService, modeSafe].contains c.p0⟩) c
    (do
      let there ← rd (·.modeThere c.p0)
      if there then pure (ans stDone) else background c 0x10 (.modeSet c.p0))) s

/-- Every unit of a kind. -/
def unitsOf (k : UnitKind) : List UnitId := (List.range k.count).map fun i => ⟨k, i⟩

/-- The sequence of a unit that entered Detention in SAFE, which did not run it there (R493): it is made up for on the way
back to STAGE, where it has something left to do. -/
def settleUnit (u : UnitId) : M Unit :=
  match u.kind with
  | .core => do
    let run ← rd fun s => (s.thread (8 * u.idx)).state != .reset && (s.thread (8 * u.idx)).state != .stopped
    onlyIf run (withdrawCore u.idx)
  | .ddr => do
    let up ← rd fun s => s.fld (Reg.DDR_STATUS u.idx) Fld.DDR_STATUS_RUNG_ACT != 2 && !(s.ddrsAt u.idx).inReset
    onlyIf up (ddrDetained u.idx)
  | .helper | .engine | .pipe | .portGroup => fenceSequence u
  | .street | .bank | .lane | .link => pure ()

/-- The units in Detention settle. -/
def settleFenced : M Unit :=
  each ([UnitKind.core, .helper, .engine, .pipe, .ddr, .portGroup].flatMap unitsOf) fun u => do
    let f ← rd (·.fenced u)
    onlyIf f (settleUnit u)

/-- From SAFE to STAGE: every ACTIVE classroom begins a new generation, every context is freed (R512), egress messages not yet released
are not sent, whatever the state of their classroom (R33), and the hold of a trip may end (R516). -/
def leaveSafe (o : Origin) : M Unit := do
  let cs ← rd fun s => (List.range 64).filter fun c => s.fld (Reg.CL_BIND c) Fld.CL_BIND_STATE = clActive
  each cs (resetNow o)
  let xs ← rd fun s => s.ctxList.map Prod.fst
  each xs discardCtx
  let out ← rd fun s => s.cw.flatMap (·.msgs)
  each (out.filter (·.held)) fun m => bufDrop none m.e.buffer
  emit (.cw [])
  setMode o modeStage
  settleFenced
  modBoot fun b => { b with leftSafe := true }
  tripEnds

/-- From STAGE into service: DEGRADED with a unit in Detention (R509); heartbeats drop LEAVING (R512). -/
def enterService (o : Origin) : M Unit := do
  let any ← rd (·.anyFenced)
  setMode o (if any then modeDegraded else modeService)
  modRing fun r => { r with leavingUs := false }

/-- A mode transition that MODE_SET names. -/
def modeGo (o : Origin) (target : Nat) : M Unit :=
  if target = modeSafe then enterSafe o
  else if target = modeService then enterService o
  else leaveSafe o

/-- MODE_SET_COMPLETE (R509 to R512); a warm reset starts once its DONE is written (R503). -/
def execModeSetComplete (s : State) : Host.Outcome State Fault Refusal :=
  commit (do
    let up ← rd (·.tenikUp)
    let b ← rd (·.bgFind fun k => match k with
      | .modeSet _ => true
      | _ => false)
    match b with
    | none => pure ()
    | some b => match b.kind with
      | .modeSet target => do
        let a ← rd (·.modeAnswer target)
        let o ← rd (·.bgOrigin b)
        let room ← rd fun s => !s.qOn b.queue || s.cqFree b.queue
        onlyIf (up && (target != modeReset || room)) <| match a with
          | some st => bgEnd b st 0
          | none => if target = modeReset then do
              bgEnd b stDone 0
              setMode o modeReset
              warmReset
            else do
              modeGo o target
              bgEnd b stDone 0
      | _ => pure ()) s

/-- MODE_GET (R413). -/
def execModeGet (c : Cmd) (s : State) : Host.Outcome State Fault Refusal :=
  commit (command (fun _ => ⟨0x11, modesA, true, (· == 0), 0, 0, 0, 0, true⟩) c (do
    let r ← rd fun s => s.mode + 8 * bit s.errN + s.deviceId * 2 ^ 16
    pure (Answer.mk stDone r [] (pure ())))) s

/-! Commits (R413, R460). -/

/-- An xx_COMMIT register of BAR0 that exists. -/
def State.commitAt (s : State) (off : Nat) : Bool :=
  isCommitReg off && s.populated off && (List.range 16).all fun q => Reg.Q_CTL q != off

/-- COMMIT (R413). -/
def execCommit (c : Cmd) (s : State) : Host.Outcome State Fault Refusal :=
  commit (command (fun s => ⟨0x12, modesR, false, (· == 0), 0, maskOf 25 0, 2 ^ 64 - 1, 0, s.commitAt c.p0⟩) c (do
    let o ← rd (·.cmdOrigin c)
    let w := Word.ofNat c.p1
    commitWrite o c.p0 w
    let ds := (grpsOf c.p0 w).filterMap fun g => g.place.map fun p => (p.1, p.2.2)
    let a ← background c 0x12 (.commit ds)
    pure { a with after := bgCommits })) s

/-! The board profile (R508). -/

/-- A Directory of a profile's entries: BAR0 offset and value. -/
def profileEntries (b : List Byte) : List (Nat × Word) :=
  (List.range (leAt b 8 4)).map fun i => (leAt b (64 + 16 * i) 4, Word.ofNat (leAt b (64 + 16 * i + 8) 8))

/-- Whether a field type is one that a write reaches. -/
def FieldType.writable (t : FieldType) : Bool :=
  match t with
  | .ro => false
  | _ => true

/-- Whether a profile may name a word (R508). -/
def profileWord (off : Nat) : Bool :=
  decide (off % 8 = 0 ∧ off < 0x2000000) && (regRow? off).any fun r =>
    [Reg.ETH_PTP 0, Reg.DDR_SCHED 0, Reg.DDR_THERM 0].contains r.1.base ||
      r.1.fields.all fun f => !f.ty.writable || f.ty == .rwf

/-- Whether a profile's header or an entry is bad (R508). -/
def profileBad (b : List Byte) : Bool :=
  let n := leAt b 8 4
  b.length < 64 || slice b 0 4 != [0x51, 0x42, 0x52, 0x44] || leAt b 4 2 != 1 || (slice b 6 2).any (· != 0) ||
  n = 0 || decide (65532 < n) || decide (b.length < 64 + 16 * n) || (slice b 32 32).any (· != 0) ||
  leAt b 16 8 % 2 ^ 20 != 0 || leAt b 24 8 % 2 ^ 20 != 0 || decide (leAt b 24 8 < 2 ^ 29) ||
  decide (0x008000000000 < leAt b 16 8 + leAt b 24 8) ||
  (List.range n).any (fun i => (slice b (64 + 16 * i + 4) 4).any (· != 0)) ||
  (profileEntries b).any fun e => !profileWord e.1

/-- Whether a profile's CHECK holds (R508). -/
def profileCheck (b : List Byte) : Bool := crc32c (b.take 12 ++ zeros 4 ++ b.drop 16) == leAt b 12 4

/-- Whether an entry names a word of the DDR or ETH blocks, which Tenik applies at once. -/
def earlyEntry (off : Nat) : Bool := inBlock off 0x80000 0x10000 || inBlock off 0x200000 0x80000

/-- The commit group of a word. -/
def grpOfWord (off : Nat) : Grp :=
  let g := regGrp off
  if allGrps.contains g then g else .none

/-- Apply an entry of the profile: a frozen or live field at once, a committed one through its group; the words of a port that
does not exist ignore it (R13, R35). -/
def applyEntry (o : Origin) (e : Nat × Word) : M Unit := do
  let there ← rd (·.populated e.1)
  onlyIf there do
    storeWord o e.1 0xFF e.2
    onlyIf (grpOfWord e.1 != .none) (commitGrp o (grpOfWord e.1))

/-- BOARD_PROFILE_LOAD (R507, R508). -/
def execBoardProfileLoad (c : Cmd) (dma : List Byte) (s : State) : Host.Outcome State Fault Refusal :=
  commit (command (fun _ => ⟨0x30, modesS, false, (· == 0), 0, 2 ^ 64 - 1, maskOf 19 0, 0, true⟩) c (do
    let started ← rd (·.boot.dramStarted)
    if started then pure (ans stBusyRetry)
    else do
      let b ← hostRead none c.p0 c.p1 dma
      let o ← rd (·.cmdOrigin c)
      let old ← rd fun s => (s.boot.profile.map keyFold).getD 0
      if !profileCheck b then pure (ans stIntegrity)
      else if profileBad b then pure (ans stBadParam)
      else do
        gbRecord o 12 1 0 old (keyFold b)
        modBoot fun s => { s with profile := some b, tenikBase := leAt b 16 8, tenikLen := leAt b 24 8 }
        each ((profileEntries b).filter fun e => earlyEntry e.1) (applyEntry o)
        pure (ans stDone))) s

/-! DRAM_INIT (R341, R345). -/

/-- The registers as they will stand once the profile's later entries are applied. -/
def State.withProfile (s : State) (es : List (Nat × Word)) : State :=
  { s with regs := es.foldl (fun m e => match regRow? e.1 with
      | some (r, _) => m.put dfltRegs e.1 (r.merge true (m.get dfltRegs e.1) e.2 0xFF)
      | none => m) s.regs }

/-- The regions of DRAM that a profile places: the word that places each, its first address and its length (R508). -/
def State.profileRegions (s : State) : List (Nat × Nat × Nat) :=
  let ids := s.ctxTotal
  let fc := s.fld Reg.FC_LOG Fld.FC_LOG_SIZE_LOG2
  [(Reg.RC_SPILL_BASE, s.fld Reg.RC_SPILL_BASE Fld.RC_SPILL_BASE_BASE * 64, 64 * s.spillSlots),
   (Reg.RC_CTX_BASE, s.fld Reg.RC_CTX_BASE Fld.RC_CTX_BASE_BASE * 64, 64 * ids),
   (Reg.SQ_DLY_BASE, s.fld Reg.SQ_DLY_BASE Fld.SQ_DLY_BASE_BASE * 32, 32 * s.fld Reg.SQ_DLY_SIZE Fld.SQ_DLY_SIZE_ENTRIES),
   (Reg.CW_BASE, s.fld Reg.CW_BASE Fld.CW_BASE_BASE * 16, 16 * ids),
   (Reg.FC_LOG, s.fld Reg.FC_LOG Fld.FC_LOG_BASE * 64, if fc = 0 then 0 else 32 * 2 ^ min 20 (max 10 fc)),
   (Reg.RB_MLOG_BASE, s.fld Reg.RB_MLOG_BASE Fld.RB_MLOG_BASE_BASE * 64, s.mlogUnits * 64),
   (Reg.GB_BASE, s.gbBase, if s.gbLog2 = 0 then 0 else 64 * 2 ^ s.gbLog2)] ++
  ((List.range 16).map fun p => (Reg.BP_POOL_BASE p, s.poolBase p, s.poolCount p * s.poolSize p)) ++
  (List.range 16).flatMap fun n =>
    [(Reg.TE_ALOG_BASE n, s.fld (Reg.TE_ALOG_BASE n) Fld.TE_ALOG_BASE_BASE * 0x100000, 0x100000),
     (Reg.TE_LQ_BASE n, s.fld (Reg.TE_LQ_BASE n) Fld.TE_LQ_BASE_BASE * 32, 160 * s.fld (Reg.TE_LQ_SIZE n) Fld.TE_LQ_SIZE_RECORDS)]

/-- Whether two ranges of a list overlap. -/
def anyOverlap : List (Nat × Nat) → Bool
  | [] => false
  | r :: rs => rs.any (fun q => overlaps r.1 r.2 q.1 q.2) || anyOverlap rs

/-- Whether DRAM_INIT refuses what the profile sets: an interleave without all channels, unequal capacities (R341), or
regions that overlap (R508). -/
def State.initRefused (s : State) (es : List (Nat × Word)) : Bool :=
  let t := s.withProfile es
  let placed := (t.profileRegions.filter fun r => es.any fun e => e.1 == r.1).map Prod.snd
  (s.ilv != 0 && !s.allDdr) ||
  ((List.range 8).any fun n => s.ddrEn n && s.fld (Reg.DDR_CFG n) Fld.DDR_CFG_CAP_LOG2 != s.capLog2) ||
  anyOverlap ((s.boot.tenikBase, s.boot.tenikLen) :: placed)

/-- DRAM_INIT (R345, R507). -/
def execDramInit (c : Cmd) (s : State) : Host.Outcome State Fault Refusal :=
  commit (command (fun _ => ⟨0x31, modesS, false, (· == 0), 0, 0, 0, 0, true⟩) c (do
    let p ← rd (·.boot.profile)
    let busy ← rd fun s => s.bg.any fun b => b.kind == .dramInit
    if p.isNone then pure (ans stNotFound)
    else if busy then pure (ans stBusyRetry)
    else do
      modBoot fun b => { b with dramStarted := true }
      background c 0x31 .dramInit)) s

/-- DRAM_INIT_COMPLETE: `laneFail` gives the failing lanes of each channel, 9 bits (R345). -/
def execDramInitComplete (laneFail : List Nat) (s : State) : Host.Outcome State Fault Refusal :=
  commit (do
    let up ← rd (·.tenikUp)
    let b ← rd (·.bgFind (· == .dramInit))
    let p ← rd fun s => profileEntries (s.boot.profile.getD [])
    let late := p.filter fun e => !earlyEntry e.1
    match b with
    | none => pure ()
    | some b => onlyIf up do
      let refused ← rd (·.initRefused late)
      let o ← rd (·.bgOrigin b)
      if refused then do
        modBoot fun s => { s with dramStarted := s.dramDone }
        bgEnd b stBadParam 0
      else do
        let en ← rd fun s => (List.range 8).filter s.ddrEn
        let was ← rd fun s => maskBits 8 0 fun n => s.fld (Reg.DDR_STATUS n) Fld.DDR_STATUS_INIT_DONE == 1
        let bad := en.any fun n => laneFail.getD n 0 % 512 != 0
        onlyIf (!bad) (gbRecord o 12 2 0 was.toNat (maskBits 8 0 en.contains).toNat)
        each en fun n => initChannel n (laneFail.getD n 0 % 512)
        if bad then bgEnd b stIntegrity 0
        else do
          each late (applyEntry o)
          let f ← rd (·.boot)
          let img ← rd fun s => (List.range (f.running.elim 0 (·.bytes.length))).map s.loadWinAt
          store 152 f.tenikBase img
          modBoot fun s => { s with dramDone := true, runAt := s.tenikBase }
          bgEnd b stDone 0) s

/-- DRAM_STATUS (R413). -/
def execDramStatus (c : Cmd) (s : State) : Host.Outcome State Fault Refusal :=
  commit (command (fun _ => ⟨0x32, modesA, false, (· == 0), 128, 0, 0, 0, true⟩) c (do
    let b ← rd fun s => (List.range 8).flatMap fun n => if s.ddrEn n then
        leBytes 8 (s.regRead (Reg.DDR_STATUS n)).toNat ++ leBytes 8 (s.regRead (Reg.DDR_ERR_LOG n)).toNat
      else zeros 16
    pure (ansData 0 b))) s

/-! Counters, time, power, diagnostics. -/

/-- COUNTERS_READ (R413). -/
def execCountersRead (c : Cmd) (s : State) : Host.Outcome State Fault Refusal :=
  commit (command (fun _ => ⟨0xC0, modesA, false, (· == 0), 8 * c.p1, maskOf 25 0, maskOf 13 0, 0,
      decide (c.p0 % 8 = 0 ∧ 1 ≤ c.p1 ∧ c.p1 ≤ 8192)⟩) c (do
    let t ← rd (·.timeNs)
    let ws ← mapEach (List.range c.p1) fun i => readReg .tenik (c.p0 + 8 * i)
    pure (ansData t (ws.flatMap fun w => leBytes 8 w.toNat)))) s

/-- TIME_SET (R519). -/
def execTimeSet (c : Cmd) (s : State) : Host.Outcome State Fault Refusal :=
  let v := Word.ofNat c.p1
  commit (command (fun _ => ⟨0xC1, modesA, false, (· == 0), 0, 3, 2 ^ 64 - 1, 0,
      decide (c.p0 < 3 ∧ (c.p0 = 2 → v.toInt.natAbs ≤ 2 ^ 22))⟩) c (do
    let o ← rd (·.cmdOrigin c)
    if c.p0 = 0 then tbSet o v else if c.p0 = 1 then tbStep o v else tbRate o v
    pure (ans stDone))) s

/-- Whether POWER_RUNG may set a rung (R513). -/
def State.rungOk (s : State) (ddr : Bool) (i r : Nat) : Bool :=
  if ddr then decide (i < 8 ∧ r ≤ 3) else decide (i < 12 ∧ r ≤ 4) && (r != 4 || s.fenced ⟨.street, i⟩)

/-- POWER_RUNG (R355, R513). -/
def execPowerRung (c : Cmd) (s : State) : Host.Outcome State Fault Refusal :=
  let ddr := bitOf c.p0 0
  let i := c.p0 / 256 % 16
  let r := c.p0 / 2 ^ 16 % 8
  commit (command (fun s => ⟨0xD0, modesR, false, (· == 0), 0, 1 ||| maskOf 11 8 ||| maskOf 18 16, 0, 0, s.rungOk ddr i r⟩) c (do
    let o ← rd (·.cmdOrigin c)
    let off := if ddr then Reg.DDR_PWR i else Reg.PWR_ST i
    let f := if ddr then Fld.DDR_PWR_RUNG else Fld.PWR_ST_RUNG
    let old ← rd (·.fld off f)
    gbRecord o 14 1 (c.p0 % 0x1000) old r
    setFld off f r
    onlyIf (!ddr) (rungSet i)
    pure (ans stDone))) s

/-- The unit that a diagnostic test tests (R520). -/
def diagUnit (n : Nat) : Option UnitId :=
  let u : Option UnitId := match n / 256 with
    | 1 => some ⟨.ddr, n % 256⟩
    | 2 => some ⟨.street, n % 256⟩
    | 3 => some ⟨.portGroup, n % 256⟩
    | 4 => some ⟨.link, n % 256⟩
    | _ => none
  u.filter (·.exists)

/-- DIAG_RUN (R520). -/
def execDiagRun (c : Cmd) (s : State) : Host.Outcome State Fault Refusal :=
  commit (command (fun _ => ⟨0xF0, modesSF, false, (· == 0), 0, 0xFFFF, 0, 0, (diagUnit c.p0).isSome⟩) c (do
    let used ← rd fun s => s.mode != modeStage && (diagUnit c.p0).any fun u => !s.fenced u
    if used then pure (ans stWrongMode) else background c 0xF0 (.diag c.p0))) s

/-- Bytes that hold nothing known. -/
def loseBytes (addrs : List Nat) : M Unit :=
  each addrs fun a => do
    let n ← draw
    emit (.mem a (BitVec.ofNat 8 (Config.random n)))

/-- What a test costs the unit it tests (R520). -/
def diagEffect (u : UnitId) : M Unit :=
  match u.kind with
  | .ddr => do
    let cap ← rd (·.capLog2)
    let as ← rd fun s => (List.range (2 ^ cap)).map (s.dramAddr u.idx)
    loseBytes as
  | .street => loseBytes ((List.range 0x400000).map (streetBase u.idx + ·))
  | _ => pure ()

/-- The bits of a test's result (R520). -/
def diagMask (u : UnitId) : Nat :=
  match u.kind with
  | .ddr => 2 ^ 9
  | .street => 2 ^ 14
  | _ => 2 ^ 4

/-- DIAG_RUN_COMPLETE (R520). -/
def execDiagRunComplete (result : Nat) (s : State) : Host.Outcome State Fault Refusal :=
  commit (do
    let up ← rd (·.tenikUp)
    let b ← rd (·.bgFind fun k => match k with
      | .diag _ => true
      | _ => false)
    match b with
    | none => pure ()
    | some b => match b.kind with
      | .diag n => match diagUnit n with
        | some u => onlyIf up do
          let o ← rd (·.bgOrigin b)
          let r := result % diagMask u
          diagEffect u
          gbRecord o 0x11 1 n 0 r
          bgEnd b stDone r
        | none => pure ()
      | _ => pure ()) s

end Sys2Proof.Machine
end

