-- ==== Sys2Proof/Machine/Pins.lean ====
section
/-! DEFINITION. The levels of the pins (R521, R522, R528), the test access port and the sideband (R540 to R545). -/

namespace Sys2Proof.Machine

/-! The pins (R521, R522). -/

/-- What the device does to a pin: it leaves it in high impedance, drives it low or high, or lets a SerDes transmitter idle; or the
pin follows a function of the device that the state does not hold (a frame's bits, a DRAM command). -/
inductive Drive
  | highZ | low | high | idle | active
  deriving DecidableEq, Repr

/-- The digital pins of a DDR channel (R521). -/
def ddrPins : List DdrPin :=
  (List.range 72).map .dq ++ (List.range 18).map .dqsT ++ (List.range 18).map .dqsC ++ (List.range 18).map .a ++
  (List.range 2).map .ba ++ (List.range 2).map .bg ++ [.actN, .par] ++ (List.range 4).map .csN ++ (List.range 2).map .cke ++
  (List.range 2).map .odt ++ (List.range 2).map .ckT ++ (List.range 2).map .ckC ++ [.alertN, .resetN, .smbScl, .smbSda]

/-- The boundary-scan chain: every DDR signal and every digital pin (R540).  DEDUCED: but for the test access port's own, as IEEE
1149.1 has it.  DESIGN CHOICE: the order of the cells is not given, and no cell controls another's direction. -/
def pinChain : List Pin :=
  (List.range 8).flatMap (fun n => ddrPins.map (.ddr n)) ++
  [.perst, .sbScl, .sbSda, .sbAlertN, .errN] ++ (List.range 2).map .strapPcieW ++ (List.range 2).map .strapSmbA ++
  [.strapTap, .strapTest]

/-- The pins of the chain that the device drives, at least at times (R521). -/
def cellDrives : Pin → Bool
  | .ddr _ .alertN | .perst | .strapPcieW _ | .strapSmbA _ | .strapTap | .strapTest => false
  | .tdo | .clientTx _ | .ringTx _ _ | .pcieTx _ => false
  | _ => true

/-- SB_ALERT_N is asserted: ERR_N is, or the junction is at or above WARN_C (R545). -/
def State.alertN (s : State) : Bool := s.errN || decide ((s.warnC : Int) ≤ s.junction)

/-- A pin of DDR channel `n`: RESET_n and CKE low under reset, CKE low too in every rung below D0 (R355, R356, R522); strobes 9 to
17 are not used with x8 devices (R528).  Before DRAM_INIT the channel's levels are its own affair. -/
def State.ddrDrive (s : State) (n : Nat) (p : DdrPin) : Drive :=
  let off := s.boot.perst || s.boot.supplyLow
  let d := (s.ddrsAt n).inReset
  let low := s.fld (Reg.DDR_STATUS n) Fld.DDR_STATUS_RUNG_ACT != 0
  let x8 := s.fld (Reg.DDR_CFG n) Fld.DDR_CFG_X8 = 1
  match p with
  | .resetN => if off || d then .low else if s.ddrInit n then .high else .active
  | .cke _ => if off || d || low then .low else if s.ddrInit n then .high else .active
  | .dqsT i | .dqsC i => if off || (x8 && decide (9 ≤ i)) then .highZ else .active
  | .alertN => .highZ
  | _ => if off then .highZ else .active

/-- What the device itself does to a pin (R522): open-drain pins are low or released. -/
def State.ownDrive (s : State) (p : Pin) : Drive :=
  let off := s.boot.perst || s.boot.supplyLow
  match p with
  | .ddr n q => s.ddrDrive n q
  | .errN => if !off && s.errN then .low else .highZ
  | .sbAlertN => if !off && s.alertN then .low else .highZ
  | .sbScl | .sbSda => if off then .highZ else .active
  | .clientTx _ | .ringTx _ _ | .pcieTx _ => if off then .idle else .active
  | .perst | .tdo | .strapPcieW _ | .strapSmbA _ | .strapTap | .strapTest => .highZ

/-- Whether the current TAP instruction holds the pins: EXTEST, HIGHZ or CLAMP, and only while PERST# is asserted (R541). -/
def State.pinsHeld (s : State) : Bool := s.boot.perst && [0x00, 0x03, 0x04].contains s.tap.ir

/-- What becomes of a pin: its boundary-scan cell drives it under EXTEST and CLAMP, none does under HIGHZ, and else the device does
(R541).  TDO is between the TAP's shifts. -/
def State.drive (s : State) (p : Pin) : Drive :=
  if s.pinsHeld && cellDrives p then
    if s.tap.ir = 0x03 then .highZ
    else if s.tap.boundary.contains p then .high else .low
  else s.ownDrive p

/-- The pins that a capture of the chain finds at 1: what the device drives is known; the level of every other pin is the board's,
or that of a function of the device, and is a free value. -/
def State.pinsHigh (s : State) (n : Nat) : List Pin :=
  ((List.range pinChain.length).zip pinChain).filterMap fun e =>
    let one := match s.drive e.2 with
      | .high => true
      | .low => false
      | _ => (Config.random n).testBit e.1
    if one then some e.2 else none

/-! The test access port (R540 to R543). -/

/-- One scan of the boundary-scan chain: the levels of the pins are captured and shifted out, and the cells take what is shifted in
(R540). -/
def scanChain (ones : List Pin) : M Unit := do
  let n ← draw
  let high ← rd (·.pinsHigh n)
  send (.scan high)
  modTap fun t => { t with boundary := ones }

/-- Load a TAP instruction. -/
def loadIr (code : Nat) : M Unit := modTap fun t => { t with ir := code }

/-- TAP_RESET: IDCODE is the instruction after it; an access in progress goes on (R540, R541). -/
def execTapReset (s : State) : Host.Outcome State Fault Refusal := commit (loadIr 0x01) s

/-- EXTEST: while PERST# is asserted the cells hold the pins, and the chain is scanned; else it acts as BYPASS (R541). -/
def execExtest (ones : List Pin) (s : State) : Host.Outcome State Fault Refusal :=
  commit (do
    loadIr 0x00
    let held ← rd (·.pinsHeld)
    onlyIf held (scanChain ones)) s

/-- IDCODE: the instruction is loaded and its register, captured, is shifted out, bit 0 first (R540, R541). -/
def execIdcode (s : State) : Host.Outcome State Fault Refusal :=
  commit (do
    loadIr 0x01
    send (.readData (leBytes 4 0x1964056F) false)) s

/-- SAMPLE_PRELOAD: the chain is scanned while the device keeps its pins (R541). -/
def execSamplePreload (ones : List Pin) (s : State) : Host.Outcome State Fault Refusal :=
  commit (do
    loadIr 0x02
    scanChain ones) s

/-- HIGHZ: `State.drive` says what it does to the pins (R541). -/
def execHighz (s : State) : Host.Outcome State Fault Refusal := commit (loadIr 0x03) s

/-- CLAMP: `State.drive` says what it does to the pins (R541). -/
def execClamp (s : State) : Host.Outcome State Fault Refusal := commit (loadIr 0x04) s

/-- BYPASS, and every code that is not listed, which acts as it (R541). -/
def execBypass (code : Nat) (s : State) : Host.Outcome State Fault Refusal :=
  commit (loadIr (if [0x00, 0x01, 0x02, 0x03, 0x04, 0x20].contains (code % 256) then 0xFF else code % 256)) s

/-- What Capture-DR loads into the REGACC register: status bits and the data last read (R542). -/
def TapState.captured (t : TapState) : List Byte :=
  leBytes 4 (2 ^ 26 * bit t.busy + 2 ^ 27 * bit t.done + 2 ^ 28 * bit t.ignored) ++ leBytes 8 t.data.toNat

/-- Update-DR of REGACC: busy, it is ignored; misaligned, it starts nothing; else the access is in progress (R542, R543). -/
def TapState.update (t : TapState) (off : Nat) (wr half : Bool) (data : Word) : TapState :=
  if t.busy then { t with ignored := true }
  else if off % (if half then 4 else 8) ≠ 0 then { t with done := false }
  else { t with
    busy := true, done := false, ignored := false, access := some (off, if wr then some data else none, half) }

/-- REGACC: one scan of its data register, Capture-DR and then Update-DR; with STRAP_TAP at 1 it acts as BYPASS (R542,
R543). -/
def execRegacc (off : Nat) (write half : Bool) (_rsv : Nat) (data : Word) (s : State) : Host.Outcome State Fault Refusal :=
  commit (do
    loadIr 0x20
    let bypass ← rd (·.boot.straps.tap)
    onlyIf (!bypass) do
      let t ← rd (·.tap)
      send (.readData t.captured false)
      modTap fun t => t.update (off % 2 ^ 26) write half data) s

/-- The byte enables of an access of the debug port: the word, or the half its offset names (R8, R542). -/
def tapEnables (off : Nat) (half : Bool) : Nat := if !half then 0xFF else if off % 8 = 0 then 0x0F else 0xF0

/-- REGACC_ACCESS_DONE: the access in progress is made, as the debug port (R542). -/
def execRegaccAccessDone (s : State) : Host.Outcome State Fault Refusal :=
  commit (do
    let t ← rd (·.tap)
    match t.access with
    | none => pure ()
    | some (off, wr, half) => do
      let got ← match wr with
        | some v => do
          regWriteBy .debug (off / 8 * 8) (tapEnables off half) (if half && off % 8 != 0 then v <<< 32 else v)
          pure 0
        | none => do
          let w ← readReg .debug (off / 8 * 8)
          pure (if !half then w else if off % 8 = 0 then w &&& 0xFFFFFFFF else w >>> 32)
      modTap fun t => { t with busy := false, done := true, access := none, data := got }) s

/-! The sideband (R544, R545). -/

/-- A CRC-8 with polynomial x⁸ + x² + x + 1, most significant bit first.  PRESUMED: the packet error code of SMBus, which R544
names by its standard. -/
def crc8 (bs : List Nat) : Nat :=
  bs.foldl (fun c b => (List.range 8).foldl (fun c _ => if c < 128 then 2 * c else (2 * c % 256) ^^^ 7) (c ^^^ b % 256)) 0

/-- A transfer to the sideband's command `code`, whose content is `n` bytes (R544): a read returns it, with its PEC where that is
asked for; a write of the code is accepted, and a data byte behind it is answered with NACK. -/
def sbServe (code n : Nat) (x : SbAccess) (v : Nat) : M Unit := do
  let a ← rd fun s => 0x5C + s.boot.straps.smbA
  match x with
  | .read pec => do
    send (.sideband (some v))
    onlyIf pec (send (.sidebandPec (crc8 ([2 * a, code, 2 * a + 1] ++ (leBytes n v).map (·.toNat)))))
  | .write d => do
    send .sidebandAck
    onlyIf (!d.isEmpty) (send (.sideband none))

/-- SB_PART: command 0x00.  DESIGN CHOICE: a transfer to a code that the table does not list has no row of its own; `other` is
that code, and it is answered with NACK (R544). -/
def execSbPart (x : SbAccess) (other : Option Nat) (s : State) : Host.Outcome State Fault Refusal :=
  commit (match other with
    | some _ => send (.sideband none)
    | none => sbServe 0x00 2 x 0x9640) s

/-- SB_REVISION: command 0x01. -/
def execSbRevision (x : SbAccess) (s : State) : Host.Outcome State Fault Refusal := commit (sbServe 0x01 1 x 0xA1) s

/-- SB_MODE: command 0x02. -/
def execSbMode (x : SbAccess) (s : State) : Host.Outcome State Fault Refusal :=
  commit (do
    let m ← rd (·.mode)
    sbServe 0x02 1 x (m % 8)) s

/-- SB_ERR_STATUS: command 0x03. -/
def execSbErrStatus (x : SbAccess) (s : State) : Host.Outcome State Fault Refusal :=
  commit (do
    let e ← rd (·.errN)
    let src ← rd (·.fld Reg.FC_ERR Fld.FC_ERR_FIRST_SOURCE)
    sbServe 0x03 2 x (bit e + 256 * (src % 256))) s

/-- SB_TEMP: command 0x04. -/
def execSbTemp (x : SbAccess) (s : State) : Host.Outcome State Fault Refusal :=
  commit (do
    let taken ← rd (·.boot.tempRead)
    let t ← rd (·.fld Reg.PWR_TEMP Fld.PWR_TEMP_MAX_C)
    sbServe 0x04 1 x (if taken then t else 0x80)) s

/-- The DIMM readings there are: of the populated slots of enabled channels whose sensor has given one. -/
def State.dimmReadings (s : State) : List Int :=
  (List.range 8).flatMap fun n =>
    if !s.ddrEn n then [] else ((List.range 2).filter fun k =>
      bitOf (s.fld (Reg.DDR_CFG n) Fld.DDR_CFG_SLOTS) k && (s.ddrsAt n).seen.contains k).map fun k =>
        signedOf 8 (s.fld (Reg.DDR_STATUS n) (if k = 0 then Fld.DDR_STATUS_TEMP0 else Fld.DDR_STATUS_TEMP1))

/-- SB_DIMM_TEMP: command 0x05. -/
def execSbDimmTemp (x : SbAccess) (s : State) : Host.Outcome State Fault Refusal :=
  commit (do
    let ts ← rd (·.dimmReadings)
    sbServe 0x05 1 x (match ts with
      | [] => 0x80
      | t :: r => tempByte (r.foldl max t))) s

/-- SB_ALERT_RESPONSE: the device answers with its own address while it alerts; the answer releases nothing (R545). -/
def execSbAlertResponse (s : State) : Host.Outcome State Fault Refusal :=
  commit (do
    let on ← rd (·.alertN)
    let a ← rd (·.boot.straps.smbA)
    onlyIf on (send (.alert (0x5C + a)))) s

end Sys2Proof.Machine
end

