-- ==== Sys2Proof/Machine/PortCmd.lean ====
section
/-! DEFINITION. The commands of client ports, FST streams and the Roundabout (R35, R37, R58, R63, R64, R413, R416, R456, R457,
R459). -/

namespace Sys2Proof.Machine

/-! Ports (R35, R37). -/

/-- The registers whose images PORT_CFG carries, in order (R413). -/
def portImages (p : Nat) : List Nat :=
  [Reg.ETH_CFG p, Reg.ETH_PFC p, Reg.ETH_DEFACT p, Reg.ETH_PAUSE p, Reg.ETH_PTP p, Reg.ETH_GRP (p / 4)]

/-- The bits of a register that are not reserved. -/
def namedBits (off : Nat) : Word :=
  match regRow? off with
  | some (r, _) => r.maskOf fun _ => true
  | none => 0

/-- Whether PORT_CFG's payload holds a reserved bit. -/
def portCfgBad (p : Nat) (b : List Byte) : Bool :=
  (b.drop 48).any (· != 0) ||
    ((List.range 6).zip (portImages p)).any fun e => !within (leAt b (8 * e.1) 8) (namedBits e.2).toNat

/-- PORT_CFG (R37, R413): with GROUP the mode of the port's group too, which waits for Detention. -/
def execPortCfg (c : Cmd) (s : State) : Host.Outcome State Fault Refusal :=
  let p := c.p0 % 8
  let b := padTo 64 c.payload
  let w := fun k => Word.ofNat (leAt b (8 * k) 8)
  commit (command (fun s => ⟨0x80, modesR, false, (· == 1), 0, 7 ||| 0x100, 0, 0, !s.portAbsent p && !portCfgBad p b⟩) c (do
    let o ← rd (·.cmdOrigin c)
    shadowWrite o (Reg.ETH_CFG p) (w 0)
    shadowWrite o (Reg.ETH_PFC p) (w 1)
    shadowWrite o (Reg.ETH_DEFACT p) (w 2)
    liveWrite o (Reg.ETH_PAUSE p) (w 3)
    liveWrite o (Reg.ETH_PTP p) (w 4)
    commitGrp o (.ethN p)
    if bitOf c.p0 8 then do
      shadowWrite o (Reg.ETH_GRP (p / 4)) (w 5 &&& shadowed (Reg.ETH_GRP (p / 4)))
      goGrp o (.ethGrp (p / 4))
      let a ← background c 0x80 (.portGroup (p / 4))
      pure { a with after := do
        let ok ← rd (·.safePoint (.ethGrp (p / 4)))
        onlyIf ok (reachSafe (.ethGrp (p / 4))) }
    else pure (ans stDone))) s

/-- PORT_STATUS (R413). -/
def execPortStatus (c : Cmd) (s : State) : Host.Outcome State Fault Refusal :=
  let p := c.p0 % 8
  commit (command (fun s => ⟨0x81, modesA, true, (· == 0), 136, 7, 0, 0, !s.portAbsent p⟩) c (do
    let b ← rd fun s => leBytes 8 (s.regRead (Reg.ETH_STATUS p)).toNat ++
      (List.range 16).flatMap fun k => leBytes 8 (s.regRead (0x80000 + p * 0x2000 + 0x100 + 8 * k)).toNat
    pure (ansData 0 b))) s

/-! Streams (R58, R63, R64). -/

/-- Whether a TX endpoint block holds a reserved bit or a value out of range (R416). -/
def endpointBad (b : List Byte) : Bool :=
  decide (2 < byteAt b 12) || decide (5 < byteAt b 13) || (slice b 14 2).any (· != 0) || (b.drop 62).any (· != 0)

/-- A stream as STREAM_OPEN makes it. -/
def Stream.opened (tx : Bool) (port c : Nat) (hello : Bool) (start : Nat) (ep : List Byte) : Stream where
  tx := tx
  port := port
  classroom := c
  state := if tx || hello then .openWait else .open_
  n := start
  closeSeq := none
  held := []
  sinceAck := 0
  dupAckAt := none
  nakOn := false
  endpoint := ep
  start := start
  unacked := []
  waiting := []
  ackSeq := start
  lastAck := start
  window := 64
  retries := 0
  closeSent := false

/-- Streams that a classroom has open. -/
def State.streamsOf (s : State) (c : Nat) : Nat := s.streams.countP fun e => e.2.any fun st => st.classroom == c

/-- STREAM_OPEN (R58, R64); a TX stream bound to a port in Detention enters FAILED (R77). -/
def execStreamOpen (c : Cmd) (s : State) : Host.Outcome State Fault Refusal :=
  let id := c.p0 % 2 ^ 32
  let tx := bitOf c.p0 32
  let p := c.p0 / 2 ^ 40 % 8
  let k := cmdClass c (c.p0 / 2 ^ 48 % 64)
  let ep := if tx then padTo 128 c.payload else []
  commit (command (fun s => ⟨0x82, modesR, true, (· == if tx then 2 else 0), 0,
      maskOf 32 0 ||| maskOf 42 40 ||| maskOf 53 48 ||| maskOf 56 56, maskOf 47 0, 0,
      !s.portAbsent p && !(tx && endpointBad ep)⟩) c (do
    let up ← rd (·.dramUp)
    let st ← rd (·.fld (Reg.CL_BIND k) Fld.CL_BIND_STATE)
    let there ← rd (·.stream id)
    let full ← rd fun s => decide (65536 ≤ s.openStreams ∨ s.grantLe k 48 4 ≤ s.streamsOf k)
    let o ← rd (·.cmdOrigin c)
    if !up then pure (ans stBusyRetry)
    else if st = clFree then pure (ans stNotFound)
    else if st != clActive then pure (ans stBusyRetry)
    else if there.isSome then pure (ans stExists)
    else if full then pure (ans stNoRoom)
    else do
      let x := Stream.opened tx p k (bitOf c.p0 56) c.p1 ep
      gbRecord o 9 1 id 0 x.recWord
      emit (.streams id (some x))
      onlyIf tx (sendHello id)
      let det ← rd (·.fenced (groupOf p))
      onlyIf (tx && det) (txFail id)
      pure (ans stDone))) s

/-- STREAM_CLOSE (R63, R64). -/
def execStreamClose (c : Cmd) (s : State) : Host.Outcome State Fault Refusal :=
  let id := c.p0 % 2 ^ 32
  commit (command (fun _ => ⟨0x83, modesR, true, (· == 0), 0, maskOf 32 0, 0, 0, true⟩) c (do
    let o ← rd (·.cmdOrigin c)
    let x ← rd fun s => (s.stream id).filter fun x => (qClass c.queue).all (· == x.classroom)
    match x with
    | none => pure (ans stNotFound)
    | some x =>
      if bitOf c.p0 32 && x.tx && x.state = .open_ then do
        modStream id fun x => { x with state := .closing }
        let a ← background c 0x83 (.streamClose id)
        pure { a with after := closeCheck id }
      else do
        closeNow o id
        pure (ans stDone))) s

/-! The ring (R456, R457, R459). -/

/-- RB_CFG as RING_JOIN writes it over an older word. -/
def joinCfg (c : Cmd) (old : Word) : Word :=
  let put (f : Fld) (n : Nat) (w : Word) : Word := f.set w n
  put Fld.RB_CFG_DEVICE_ID (c.p0 % 4096) <| put Fld.RB_CFG_EAST_EN (c.p0 / 2 ^ 16 % 2) <|
    put Fld.RB_CFG_WEST_EN (c.p0 / 2 ^ 17 % 2) <| put Fld.RB_CFG_STANDBY (c.p1 % 4096) <|
    put Fld.RB_CFG_MIRROR_EN (c.p1 / 2 ^ 16 % 2) <| put Fld.RB_CFG_MLOG_CONS (c.p1 / 2 ^ 17 % 2) old

/-- The links come up, with sequences that begin at 0 (R456 step 2); behind SAFE their heartbeats still say LEAVING (R512). -/
def ringStart : M Unit := do
  each [0, 1] fun l => do
    linkFresh l
    modRingLinks l fun k => { k with current := false, leaving := false, conflict := false, peer := none }
  setFld Reg.RB_STATUS Fld.RB_STATUS_JOINED 1
  modRing fun r => { r with mseq := 0, bseq := 0, going := false }

/-- RING_JOIN (R456). -/
def execRingJoin (c : Cmd) (s : State) : Host.Outcome State Fault Refusal :=
  commit (command (fun _ => ⟨0x90, modesR, false, (· == 0), 0, maskOf 11 0 ||| maskOf 17 16, maskOf 11 0 ||| maskOf 17 16, 0,
      true⟩) c (do
    let up ← rd (·.dramUp)
    let joined ← rd (·.fld Reg.RB_STATUS Fld.RB_STATUS_JOINED)
    let o ← rd (·.cmdOrigin c)
    if joined = 1 then pure (ans stExists)
    else if c.p0 / 2 ^ 16 = 0 ∨ c.p1 % 4096 = c.p0 % 4096 then pure (ans stBadParam)
    else if !up then pure (ans stBusyRetry)
    else do
      let old ← rd (·.actAt Reg.RB_CFG)
      let sh ← rd (·.reg Reg.RB_CFG)
      shadowWrite o Reg.RB_CFG (joinCfg c sh)
      commitGrp o .rb
      let new ← rd (·.actAt Reg.RB_CFG)
      gbRecord o 10 1 0 old.toNat new.toNat
      ringStart
      background c 0x90 .ringJoin)) s

/-- RING_JOIN_COMPLETE: a selected link is in service, or 1 s has passed (R456 step 4). -/
def execRingJoinComplete (s : State) : Host.Outcome State Fault Refusal :=
  commit (do
    let up ← rd (·.tenikUp)
    let r ← rd fun s => bit (s.ringUp 0) + 2 * bit (s.ringUp 1)
    onlyIf up (bgFinish (· == .ringJoin) stDone r)) s

/-- RING_LEAVE (R457). -/
def execRingLeave (c : Cmd) (s : State) : Host.Outcome State Fault Refusal :=
  commit (command (fun _ => ⟨0x91, modesR, false, (· == 0), 0, 0, 0, 0, true⟩) c (do
    modRing fun r => { r with going := true }
    background c 0x91 .ringLeave)) s

/-- The three heartbeats with LEAVING that a link sends (R457 step 3). -/
def sayLeaving (l : Nat) : M Unit := do
  let runs ← rd (·.ringRuns l)
  onlyIf runs (each (List.range 3) fun _ => do
    let f ← rd (·.heartbeatWith l true)
    ringEmit l f)

/-- RING_LEAVE_COMPLETE: what is held has been acknowledged, or 1 ms has passed (R457). -/
def execRingLeaveComplete (s : State) : Host.Outcome State Fault Refusal :=
  commit (do
    let up ← rd (·.tenikUp)
    let b ← rd (·.bgFind (· == .ringLeave))
    match b with
    | none => pure ()
    | some b => onlyIf up do
      let o ← rd (·.bgOrigin b)
      let w ← rd (·.actAt Reg.RB_CFG)
      each [0, 1] sayLeaving
      ringTrack (setFld Reg.RB_STATUS Fld.RB_STATUS_JOINED 0)
      each [0, 1] linkFresh
      gbRecord o 10 2 0 w.toNat w.toNat
      bgEnd b stDone 0) s

/-- The RING_STATUS block (R459). -/
def State.ringBlock (s : State) : List Byte :=
  leBytes 2 s.deviceId ++
  leBytes 1 (s.fld Reg.RB_STATUS Fld.RB_STATUS_JOINED + 2 * bit (s.ringUp 0) + 4 * bit (s.ringUp 1) + 8 * bit s.mirrorOk) ++
  zeros 1 ++ leBytes 2 ((s.ringLinksAt 0).peer.getD 0xFFFF) ++ leBytes 2 ((s.ringLinksAt 1).peer.getD 0xFFFF) ++
  leBytes 2 (s.inForce Reg.RB_CFG Fld.RB_CFG_STANDBY) ++ zeros 6 ++ leBytes 8 s.ring.mseq ++
  leBytes 8 (s.reg Reg.RB_CNT_MIRROR_SKIPPED).toNat ++ leBytes 8 (s.reg Reg.RB_CNT_LOST).toNat ++
  leBytes 8 (s.reg Reg.RB_CNT_UNREACHABLE).toNat ++ zeros 16

/-- RING_STATUS (R459). -/
def execRingStatus (c : Cmd) (s : State) : Host.Outcome State Fault Refusal :=
  commit (command (fun _ => ⟨0x92, modesA, false, (· == 0), 64, 0, 0, 0, true⟩) c (do
    let b ← rd (·.ringBlock)
    pure (ansData 0 b))) s

end Sys2Proof.Machine
end

