-- ==== Sys2Proof/Machine/TableCmd.lean ====
section
/-! DEFINITION. The commands of tables and of the Directory (R295, R313, R316, R319, R322, R332, R413, R414). -/

namespace Sys2Proof.Machine

/-! Creating and deleting tables. -/

/-- The table descriptor that 64 bytes describe (R295). -/
def TableDesc.ofBytes (b : List Byte) : TableDesc :=
  TableDesc.ofWords (leAt b 0 8) (leAt b 8 8) (leAt b 16 8) (leAt b 24 8) (leAt b 32 8) (leAt b 40 8)

/-- The bits of word 0 that are not reserved (R295). -/
def descMask0 : Nat := maskOf 13 0 ||| maskOf 22 16 ||| maskOf 29 24 ||| maskOf 36 32

/-- Bytes of a stripe's region that a table's entries take. -/
def TableDesc.stripeBytes (d : TableDesc) : Nat :=
  if d.kind = kindHash then 2 ^ d.bucketsLog2 * (4 * d.esize) else ceilDiv d.count (2 ^ d.engLog2) * d.esize

/-- Whether a descriptor holds a reserved bit, or a value out of its range (R294, R295). -/
def descBad (b : List Byte) : Bool :=
  let d := TableDesc.ofBytes b
  !within (leAt b 0 8) descMask0 || ([8, 16, 24].any fun k => !within (leAt b k 8) (maskOf 47 12)) ||
  leAt b 44 4 != 0 || leAt b 48 8 != 0 || leAt b 56 8 != 0 ||
  d.kind = 0 || decide (4 < bitsOf (leAt b 0 8) 22 20) || d.engBase % 2 ^ d.engLog2 != 0 ||
  (d.kind = kindHash && (d.esize = 16 || d.bucketsLog2 = 0 || decide (28 < d.bucketsLog2))) ||
  decide (d.span < d.stripeBytes) || decide (0x008000000000 < d.base + 2 ^ d.engLog2 * d.span)

/-- Whether every line of a mirrored table has its copy on the partner of its channel (R316). -/
def State.mirrorFits (s : State) (d : TableDesc) : Bool :=
  (linesOf d.base (2 ^ d.engLog2 * d.span)).all fun l =>
    match s.dramChan l, s.dramChan (l + d.mirrorOff) with
    | some a, some b => b == a ^^^ 1
    | _, _ => false

/-- Tables that a classroom holds. -/
def State.tablesOf (s : State) (c : Nat) : Nat := (List.range 64).countP fun t => (s.table t).valid && (s.table t).classroom == c

/-- Whether an unfinished operation holds a classroom (R406). -/
def State.classBusy (s : State) (c : Nat) : Bool := s.bg.any fun b => match b.kind with
  | .classCreate k _ _ | .classDestroy k | .classReset k => k == c
  | _ => false

/-- TABLE_CREATE (R295, R316). -/
def execTableCreate (c : Cmd) (s : State) : Host.Outcome State Fault Refusal :=
  let b := padTo 64 c.payload
  let d := TableDesc.ofBytes b
  let t := c.p0
  commit (command (fun s => ⟨0x60, modesR, false, (· == 1), 0, 63, 0, 0, !descBad b && (!d.mirror || s.mirrorFits d)⟩) c (do
    let up ← rd (·.dramUp)
    let there ← rd fun s => (s.classesAt d.classroom).grant != []
    let busy ← rd fun s => s.tableDying t || s.classBusy d.classroom
    let taken ← rd fun s => (s.table t).valid
    let full ← rd fun s => decide (s.grantLe d.classroom 22 1 ≤ s.tablesOf d.classroom)
    if !up then pure (ans stBusyRetry)
    else if busy then pure (ans stBusyRetry)
    else if !there then pure (ans stNotFound)
    else if taken then pure (ans stExists)
    else if full then pure (ans stNoRoom)
    else do
      let o ← rd (·.cmdOrigin c)
      zeroMem d.base (2 ^ d.engLog2 * d.span)
      onlyIf d.mirror (zeroMem (d.base + d.mirrorOff) (2 ^ d.engLog2 * d.span))
      each (List.range 8) fun k =>
        emit (.regs (tableWordOff t k) (Word.ofNat (setBit (leAt b (8 * k) 8) 13 (k == 0 || bitOf (leAt b (8 * k) 8) 13))))
      let new ← rd (·.tableBytes t)
      gbRecord o 5 1 t 0 (keyFold new)
      pure (ans stDone))) s

/-- TABLE_DELETE (R319). -/
def execTableDelete (c : Cmd) (s : State) : Host.Outcome State Fault Refusal :=
  commit (command (fun _ => ⟨0x61, modesR, false, (· == 0), 0, 63, 0, 0, true⟩) c (do
    let dying ← rd (·.tableDying c.p0)
    let d ← rd (·.table c.p0)
    let o ← rd (·.cmdOrigin c)
    if dying then pure (ans stBusyRetry)
    else if !d.valid then pure (ans stNotFound)
    else do
      tableClear o c.p0
      background c 0x61 (.tableDelete c.p0 d))) s

/-- TABLE_DELETE_COMPLETE: every operation taken before the delete is done, and the region is released (R319). -/
def execTableDeleteComplete (t : Nat) (s : State) : Host.Outcome State Fault Refusal :=
  commit (do
    let up ← rd fun s => s.tenikUp && !s.tableBusy t
    onlyIf up (bgFinish (fun b => match b with
      | .tableDelete k _ => k == t
      | _ => false) stDone 0)) s

/-! Entries (R311, R413, R414). -/

/-- A table that exists, or that is being deleted. -/
def State.tableOrDying (s : State) (t : Nat) : TableDesc := (s.dying t).getD (s.table t)

/-- Whether a command's issuer has rights over a table that exists, or that is being deleted (R408). -/
def State.tableSeen (s : State) (c : Cmd) (t : Nat) : Bool :=
  (s.tableOrDying t).valid && (qClass c.queue).all (· == (s.tableOrDying t).classroom)

/-- Bytes of an entry of the table a command names, 0 where its issuer has no rights. -/
def State.seenSize (s : State) (c : Cmd) : Nat :=
  let t := c.p0 % 64
  if s.tableSeen c t then (s.tableOrDying t).esize else 0

/-- LEN of a command that carries `n` bytes: any for a table that its issuer may not see, so that LEN reveals nothing
(R408). -/
def seenLen (esize n len : Nat) : Bool := esize == 0 || len == ceilDiv n 64

/-- Whether the engine of a command's table can take an operation, and one of Tenik's ports on it is free (R310, R311). -/
def State.tableFree (s : State) (t key : Nat) : Bool :=
  let d := s.table t
  s.keyFree d t key && (!d.valid || (s.tenikPort (s.keyEngine d t key)).isSome)

/-- The key of a command. -/
def cmdKey (c : Cmd) : Nat := c.p1 + c.p2 * 2 ^ 64

/-- Answer one table operation that a command makes. -/
def tableAnswer (c : Cmd) (op : Nat) : M Answer := do
  let t := c.p0 % 64
  let seen ← rd (·.tableSeen c t)
  let dying ← rd (·.tableDying t)
  let o ← rd (·.cmdOrigin c)
  let d ← rd (·.table t)
  if !seen then pure (ans stNotFound)
  else if dying then pure (ans stBusyRetry)
  else do
    let (st, data) ← portOp o op t d (cmdKey c) (padTo d.esize c.payload) false
    pure (Answer.mk st 0 data (pure ()))

/-- A command of one table operation. -/
def tableCommand (c : Cmd) (row : State → CmdRow) (op : Nat) : M Unit := do
  let free ← rd (·.tableFree (c.p0 % 64) (cmdKey c))
  onlyIf free (quiet (command row c (tableAnswer c op)))

/-- Bytes that TABLE_INSERT may return: those of a victim, of a HASH table that evicts (R308). -/
def State.victimSize (s : State) (c : Cmd) : Nat :=
  let d := s.tableOrDying (c.p0 % 64)
  if d.kind = kindHash && d.evict != 0 then s.seenSize c else 0

/-- TABLE_INSERT (R308, R311). -/
def execTableInsert (c : Cmd) (s : State) : Host.Outcome State Fault Refusal :=
  commit (tableCommand c (fun s => ⟨0x62, modesR, true, seenLen (s.seenSize c) (s.seenSize c), s.victimSize c, 63, 2 ^ 64 - 1,
    2 ^ 64 - 1, true⟩) 2) s

/-- TABLE_UPDATE (R311). -/
def execTableUpdate (c : Cmd) (s : State) : Host.Outcome State Fault Refusal :=
  commit (tableCommand c (fun s => ⟨0x63, modesR, true, seenLen (s.seenSize c) (s.seenSize c), 0, 63, 2 ^ 64 - 1,
    2 ^ 64 - 1, true⟩) 3) s

/-- TABLE_REMOVE (R311). -/
def execTableRemove (c : Cmd) (s : State) : Host.Outcome State Fault Refusal :=
  commit (tableCommand c (fun _ => ⟨0x64, modesR, true, (· == 0), 0, 63, 2 ^ 64 - 1, 2 ^ 64 - 1, true⟩) 4) s

/-- TABLE_READ (R311). -/
def execTableRead (c : Cmd) (s : State) : Host.Outcome State Fault Refusal :=
  commit (tableCommand c (fun s => ⟨0x65, modesA, true, (· == 0), s.seenSize c, 63, 2 ^ 64 - 1, 2 ^ 64 - 1, true⟩) 1) s

/-- One record of a bulk load; whether it was placed (R414). -/
def bulkOne (o : Origin) (t : Nat) (replace : Bool) (r : List Byte) : M Bool := do
  let d ← rd (·.table t)
  let (st, _) ← portOp o 2 t d (leAt r 0 16) (r.drop 16) replace
  pure (st == stDone || st == stEvicted)

/-- Whether every engine can take a bulk load's operations. -/
def State.bulkFree (s : State) : Bool :=
  ((List.range 16).all fun n => !s.chainOn n && (s.tenikPort n).isSome) && (List.range 8).all fun n => !s.ddrEn n || s.ddrReady n

/-- TABLE_BULK_LOAD (R414). -/
def execTableBulkLoad (c : Cmd) (s : State) : Host.Outcome State Fault Refusal :=
  let t := c.p0 % 64
  let n := c.p1
  commit (do
    let free ← rd (·.bulkFree)
    onlyIf free (quiet (command (fun s => ⟨0x66, modesR, true, seenLen (s.seenSize c) (n * (16 + s.seenSize c)), 0, 63 ||| 0x100,
        0xFFFF, 0, true⟩) c (do
      let seen ← rd (·.tableSeen c t)
      let dying ← rd (·.tableDying t)
      let o ← rd (·.cmdOrigin c)
      let e ← rd fun s => 16 + (s.table t).esize
      if !seen then pure (ans stNotFound)
      else if dying then pure (ans stBusyRetry)
      else do
        let l ← mapEach (List.range n) fun i => bulkOne o t (bitOf c.p0 8) (padTo e (slice c.payload (e * i) e))
        let placed := l.countP id
        pure (Answer.mk stDone (placed + (n - placed) * 2 ^ 32) [] (pure ())))))) s

/-- The consumer that TABLE_LEARN_CFG names: a classroom issuer's is its own ring (R414). -/
def learnConsumer (c : Cmd) : Nat :=
  match qClass c.queue with
  | some k => 0x40 + k
  | none => c.p0 / 2 ^ 16 % 256

/-- TABLE_LEARN_CFG (R313, R414). -/
def execTableLearnCfg (c : Cmd) (s : State) : Host.Outcome State Fault Refusal :=
  let t := c.p0 % 64
  let k := learnConsumer c
  commit (command (fun _ => ⟨0x67, modesR, true, (· == 0), 0, 63 ||| 0x100 ||| maskOf 23 16, 0, 0,
      decide (k < 16 ∨ (0x40 ≤ k ∧ k < 0x80))⟩) c (do
    let seen ← rd (·.tableSeen c t)
    let dying ← rd (·.tableDying t)
    let o ← rd (·.cmdOrigin c)
    if !seen then pure (ans stNotFound)
    else if dying then pure (ans stBusyRetry)
    else do
      let old ← rd (·.tableBytes t)
      modRegs (tableWordOff t 0) fun w => Word.ofNat (setBit w.toNat 8 (bitOf c.p0 8))
      emit (.learn t (some k))
      let new ← rd (·.tableBytes t)
      gbRecord o 5 7 t (keyFold old) (keyFold new)
      pure (ans stDone))) s

/-- The host's queue of a consumer. -/
def consumerQueue (k : Nat) : Nat := if k < 16 then k else 16 + (k - 0x40)

/-- LEARN_FORWARD: Tenik hands the oldest notice of engine `n`'s ring to the consumer of its table, if it names one
(R313, R411). -/
def execLearnForward (n : Nat) (s : State) : Host.Outcome State Fault Refusal :=
  commit (do
    let up ← rd fun s => s.tenikRuns && decide (n < 16) && decide (0 < s.lqFill n)
    let size ← rd (·.fld (Reg.TE_LQ_SIZE n) Fld.TE_LQ_SIZE_RECORDS)
    let head ← rd fun s => s.fld (Reg.TE_LQ_HEAD n) Fld.TE_LQ_HEAD_HEAD % size
    let a ← rd (·.lqAddr n head)
    let ready ← rd fun s => (linesOf a 160).all s.dramReady
    let k ← rd fun s => s.learnAt ((s.memAt (a + 1)).toNat % 64)
    match k with
    | none => pure ()
    | some k => onlyIf (up && ready) do
      let b ← readData a 160
      setFld (Reg.TE_LQ_HEAD n) Fld.TE_LQ_HEAD_HEAD ((head + 1) % size)
      let _ ← postNotice (consumerQueue k) 0x67 b
      pure ()) s

/-! The Directory (R322, R332). -/

/-- Whether an index names the first block of a chain, in the issuer's partition (R332). -/
def State.dirSeen (s : State) (c : Cmd) (i : Nat) : Bool :=
  let b := i / 4096
  b % s.blockSegs b = 0 && (qClass c.queue).all fun k =>
    bitOf (s.inForce (Reg.DIR_PART k) Fld.DIR_PART_BLOCKS) b && s.partRow k (i % 4096)

/-- Segments of the image that a DIR_WRITE of some LEN carries. -/
def imageSegs (len : Nat) : Nat := if len = 3 then 4 else len

/-- Whether an image holds a reserved bit, or in a later segment what only segment 0 holds (R322). -/
def imageBad (w : Nat) (b : List Byte) : Bool :=
  (List.range w).any fun k =>
    let g := slice b (48 * k) 48
    byteAt g 43 != 0 || (if k = 0 then decide (1 < byteAt g 42) else (g.drop 40).any (· != 0))

/-- DIR_WRITE (R322, R330, R332). -/
def execDirWrite (c : Cmd) (s : State) : Host.Outcome State Fault Refusal :=
  let w := imageSegs c.len
  let b := padTo (48 * w) c.payload
  commit (command (fun _ => ⟨0x70, modesR, true, fun n => decide (1 ≤ n ∧ n ≤ 3), 0, 0xFFFF, 0, 0, !imageBad w b⟩) c (do
    let i := c.p0
    let seen ← rd (·.dirSeen c i)
    let segs ← rd (·.blockSegs (i / 4096))
    let o ← rd (·.cmdOrigin c)
    if !seen then pure (ans stNotFound)
    else if segs != w then pure (ans stBadParam)
    else do
      let old ← rd (·.dirImage i)
      dirUpdate i ((List.range w).map fun k => DirRow.ofBytes k (slice b (48 * k) 48))
      let new ← rd (·.dirImage i)
      gbRecord o 6 1 i (keyFold old) (keyFold new)
      pure (ans stDone))) s

/-- DIR_INVALIDATE (R330, R332). -/
def execDirInvalidate (c : Cmd) (s : State) : Host.Outcome State Fault Refusal :=
  commit (command (fun _ => ⟨0x71, modesR, true, (· == 0), 0, 0xFFFF, 0, 0, true⟩) c (do
    let seen ← rd (·.dirSeen c c.p0)
    let o ← rd (·.cmdOrigin c)
    if !seen then pure (ans stNotFound)
    else do
      dirClear o c.p0
      pure (ans stDone))) s

/-- DIR_READ (R323, R332). -/
def execDirRead (c : Cmd) (s : State) : Host.Outcome State Fault Refusal :=
  commit (command (fun s => ⟨0x72, modesA, true, (· == 0),
      if s.dirSeen c (c.p0 % 65536) then 48 * s.blockSegs (c.p0 % 65536 / 4096) else 0, 0xFFFF, 0, 0, true⟩) c (do
    let seen ← rd (·.dirSeen c c.p0)
    let b ← rd (·.dirImage c.p0)
    pure (if seen then ansData 0 b else ans stNotFound))) s

/-- DIR_PROFILE: a global mask is written and committed (R325, R332, R413). -/
def execDirProfile (c : Cmd) (s : State) : Host.Outcome State Fault Refusal :=
  let b := padTo 128 c.payload
  commit (command (fun _ => ⟨0x73, modesR, false, (· == 2), 0, 7, 0, 0, (b.drop 80).all (· == 0)⟩) c (do
    let o ← rd (·.cmdOrigin c)
    each (List.range 10) fun w => shadowWrite o (Reg.DIR_GMASK c.p0 w) (Word.ofNat (leAt b (8 * w) 8))
    commitGrp o .dir
    pure (ans stDone))) s

end Sys2Proof.Machine
end

