-- ==== Sys2Proof/Machine/Dispatch.lean ====
section
/-! DEFINITION. What each command does: one arm per constructor of `Instr`, each a call of its meaning. -/

namespace Sys2Proof.Machine

/-- The effect of a command on everything but the queue. -/
def exec (i : Instr) (s : State) : Host.Outcome State Fault Refusal :=
  match i with
  | .registerWrite o off en v => Sys2Proof.Machine.execRegisterWrite o off en v s
  | .commitGo o off en v => Sys2Proof.Machine.execCommitGo o off en v s
  | .commitSafePoint g => Sys2Proof.Machine.execCommitSafePoint g s
  | .frameReceive p bytes err => Sys2Proof.Machine.execFrameReceive p bytes err s
  | .pauseFrameReceive p quanta => Sys2Proof.Machine.execPauseFrameReceive p quanta s
  | .pfcFrameReceive p enable quanta => Sys2Proof.Machine.execPfcFrameReceive p enable quanta s
  | .pauseExpire p prio => Sys2Proof.Machine.execPauseExpire p prio s
  | .pauseStorm p q => Sys2Proof.Machine.execPauseStorm p q s
  | .clientLinkChange p up => Sys2Proof.Machine.execClientLinkChange p up s
  | .frameTransmit p => Sys2Proof.Machine.execFrameTransmit p s
  | .txtsPop o p en v => Sys2Proof.Machine.execTxtsPop o p en v s
  | .fstDataReceive p => Sys2Proof.Machine.execFstDataReceive p s
  | .nakRepeat id => Sys2Proof.Machine.execNakRepeat id s
  | .ackDelayExpire id => Sys2Proof.Machine.execAckDelayExpire id s
  | .fstAckReceive p => Sys2Proof.Machine.execFstAckReceive p s
  | .fstNakReceive p => Sys2Proof.Machine.execFstNakReceive p s
  | .fstHelloRxStream p => Sys2Proof.Machine.execFstHelloRxStream p s
  | .fstHelloTxStream p => Sys2Proof.Machine.execFstHelloTxStream p s
  | .fstCloseRxStream p => Sys2Proof.Machine.execFstCloseRxStream p s
  | .fstCloseTxStream p => Sys2Proof.Machine.execFstCloseTxStream p s
  | .rxStreamCloseDone id => Sys2Proof.Machine.execRxStreamCloseDone id s
  | .messageHandOver src => Sys2Proof.Machine.execMessageHandOver src s
  | .fstTxSend id => Sys2Proof.Machine.execFstTxSend id s
  | .fstRtoTimeout id => Sys2Proof.Machine.execFstRtoTimeout id s
  | .helloRtoTimeout id => Sys2Proof.Machine.execHelloRtoTimeout id s
  | .closeRtoTimeout id => Sys2Proof.Machine.execCloseRtoTimeout id s
  | .walkComplete p ix => Sys2Proof.Machine.execWalkComplete p ix s
  | .holdQueueRelease p => Sys2Proof.Machine.execHoldQueueRelease p s
  | .admission => Sys2Proof.Machine.execAdmit s
  | .contextCreate => Sys2Proof.Machine.execContextCreate s
  | .tokenArrive b => Sys2Proof.Machine.execTokenArrive b s
  | .readyFire b => Sys2Proof.Machine.execReadyFire b s
  | .spillRefill b => Sys2Proof.Machine.execSpillRefill b s
  | .bankResume b => Sys2Proof.Machine.execBankResume b s
  | .contextPark x => Sys2Proof.Machine.execContextPark x s
  | .parkTimeout d => Sys2Proof.Machine.execParkTimeout d s
  | .contextFree x => Sys2Proof.Machine.execContextFree x s
  | .stalemate => Sys2Proof.Machine.execStalemate s
  | .tenikStalemateAction => Sys2Proof.Machine.execTenikStalemateAction s
  | .abandonContext x => Sys2Proof.Machine.execAbandonContext x s
  | .abandonFinish x => Sys2Proof.Machine.execAbandonFinish x s
  | .dispatch c => Sys2Proof.Machine.execDispatch c s
  | .preemptSave t => Sys2Proof.Machine.execPreemptSave t s
  | .threadTimerDue d => Sys2Proof.Machine.execThreadTimerDue d s
  | .retireApply a => Sys2Proof.Machine.execRetireApply a s
  | .messageRelease l => Sys2Proof.Machine.execMessageRelease l s
  | .laneTakeoverEnd l => Sys2Proof.Machine.execLaneTakeoverEnd l s
  | .crosswalkHold l => Sys2Proof.Machine.execCrosswalkHold l s
  | .loadReturn t data => Sys2Proof.Machine.execLoadReturn t data s
  | .threadFault t cause => Sys2Proof.Machine.execThreadFault t cause s
  | .seatLimit t => Sys2Proof.Machine.execSeatLimit t s
  | .threadRelease o k thr => Sys2Proof.Machine.execThreadRelease o k thr s
  | .threadDrop o k thr => Sys2Proof.Machine.execThreadDrop o k thr s
  | .threadReset o k thr => Sys2Proof.Machine.execThreadReset o k thr s
  | .threadStalemate k => Sys2Proof.Machine.execThreadStalemate k s
  | .debugHalt o k mask => Sys2Proof.Machine.execDebugHalt o k mask s
  | .haltForced t => Sys2Proof.Machine.execHaltForced t s
  | .debugResume o k mask => Sys2Proof.Machine.execDebugResume o k mask s
  | .debugStep o k mask => Sys2Proof.Machine.execDebugStep o k mask s
  | .dbgDataWrite o k en v => Sys2Proof.Machine.execDbgDataWrite o k en v s
  | .dbgDataRead o k => Sys2Proof.Machine.execDbgDataRead o k s
  | .flagWake t => Sys2Proof.Machine.execFlagWake t s
  | .add t rd ra rb rsv => Sys2Proof.Machine.execAdd t rd ra rb rsv s
  | .sub t rd ra rb rsv => Sys2Proof.Machine.execSub t rd ra rb rsv s
  | .and t rd ra rb rsv => Sys2Proof.Machine.execAnd t rd ra rb rsv s
  | .or t rd ra rb rsv => Sys2Proof.Machine.execOr t rd ra rb rsv s
  | .xor t rd ra rb rsv => Sys2Proof.Machine.execXor t rd ra rb rsv s
  | .andn t rd ra rb rsv => Sys2Proof.Machine.execAndn t rd ra rb rsv s
  | .sll t rd ra rb rsv => Sys2Proof.Machine.execSll t rd ra rb rsv s
  | .srl t rd ra rb rsv => Sys2Proof.Machine.execSrl t rd ra rb rsv s
  | .sra t rd ra rb rsv => Sys2Proof.Machine.execSra t rd ra rb rsv s
  | .ror t rd ra rb rsv => Sys2Proof.Machine.execRor t rd ra rb rsv s
  | .mul t rd ra rb rsv => Sys2Proof.Machine.execMul t rd ra rb rsv s
  | .mulhu t rd ra rb rsv => Sys2Proof.Machine.execMulhu t rd ra rb rsv s
  | .mulhs t rd ra rb rsv => Sys2Proof.Machine.execMulhs t rd ra rb rsv s
  | .minu t rd ra rb rsv => Sys2Proof.Machine.execMinu t rd ra rb rsv s
  | .maxu t rd ra rb rsv => Sys2Proof.Machine.execMaxu t rd ra rb rsv s
  | .mins t rd ra rb rsv => Sys2Proof.Machine.execMins t rd ra rb rsv s
  | .maxs t rd ra rb rsv => Sys2Proof.Machine.execMaxs t rd ra rb rsv s
  | .cmp t rd ra rb rsv => Sys2Proof.Machine.execCmp t rd ra rb rsv s
  | .tst t rd ra rb rsv => Sys2Proof.Machine.execTst t rd ra rb rsv s
  | .sextb t rd ra rb rsv => Sys2Proof.Machine.execSextb t rd ra rb rsv s
  | .sexth t rd ra rb rsv => Sys2Proof.Machine.execSexth t rd ra rb rsv s
  | .sextw t rd ra rb rsv => Sys2Proof.Machine.execSextw t rd ra rb rsv s
  | .clz t rd ra rb rsv => Sys2Proof.Machine.execClz t rd ra rb rsv s
  | .popc t rd ra rb rsv => Sys2Proof.Machine.execPopc t rd ra rb rsv s
  | .bswap t rd ra rb rsv => Sys2Proof.Machine.execBswap t rd ra rb rsv s
  | .selz t rd ra rb rsv => Sys2Proof.Machine.execSelz t rd ra rb rsv s
  | .addi t rd ra imm rsv => Sys2Proof.Machine.execAddi t rd ra imm rsv s
  | .andi t rd ra imm rsv => Sys2Proof.Machine.execAndi t rd ra imm rsv s
  | .ori t rd ra imm rsv => Sys2Proof.Machine.execOri t rd ra imm rsv s
  | .xori t rd ra imm rsv => Sys2Proof.Machine.execXori t rd ra imm rsv s
  | .cmpi t rd ra imm rsv => Sys2Proof.Machine.execCmpi t rd ra imm rsv s
  | .slli t rd ra sh rsv => Sys2Proof.Machine.execSlli t rd ra sh rsv s
  | .srli t rd ra sh rsv => Sys2Proof.Machine.execSrli t rd ra sh rsv s
  | .srai t rd ra sh rsv => Sys2Proof.Machine.execSrai t rd ra sh rsv s
  | .rori t rd ra sh rsv => Sys2Proof.Machine.execRori t rd ra sh rsv s
  | .movi t rd h imm rsv => Sys2Proof.Machine.execMovi t rd h imm rsv s
  | .movk t rd h imm rsv => Sys2Proof.Machine.execMovk t rd h imm rsv s
  | .bkld t bk ra rsv => Sys2Proof.Machine.execBkld t bk ra rsv s
  | .bkrd t rd bk rsv => Sys2Proof.Machine.execBkrd t rd bk rsv s
  | .crd t rd num rsv => Sys2Proof.Machine.execCrd t rd num rsv s
  | .cwr t rd num rsv => Sys2Proof.Machine.execCwr t rd num rsv s
  | .rep t ix r rb count rsv fol stop => Sys2Proof.Machine.execRep t ix r rb count rsv fol stop s
  | .ld t rd bank short => Sys2Proof.Machine.execLd t rd bank short s
  | .lw t rd bank short => Sys2Proof.Machine.execLw t rd bank short s
  | .lh t rd bank short => Sys2Proof.Machine.execLh t rd bank short s
  | .lb t rd bank short => Sys2Proof.Machine.execLb t rd bank short s
  | .sd t rd bank short => Sys2Proof.Machine.execSd t rd bank short s
  | .sw t rd bank short => Sys2Proof.Machine.execSw t rd bank short s
  | .sh t rd bank short => Sys2Proof.Machine.execSh t rd bank short s
  | .sb t rd bank short => Sys2Proof.Machine.execSb t rd bank short s
  | .ldx t rd rb off => Sys2Proof.Machine.execLdx t rd rb off s
  | .lwx t rd rb off => Sys2Proof.Machine.execLwx t rd rb off s
  | .lhx t rd rb off => Sys2Proof.Machine.execLhx t rd rb off s
  | .lbx t rd rb off => Sys2Proof.Machine.execLbx t rd rb off s
  | .sdx t rd rb off => Sys2Proof.Machine.execSdx t rd rb off s
  | .swx t rd rb off => Sys2Proof.Machine.execSwx t rd rb off s
  | .shx t rd rb off => Sys2Proof.Machine.execShx t rd rb off s
  | .sbx t rd rb off => Sys2Proof.Machine.execSbx t rd rb off s
  | .cpx t rd rb size rsv => Sys2Proof.Machine.execCpx t rd rb size rsv s
  | .bc t cond disp => Sys2Proof.Machine.execBc t cond disp s
  | .jr t ra rsv => Sys2Proof.Machine.execJr t ra rsv s
  | .jalr t rd ra rsv => Sys2Proof.Machine.execJalr t rd ra rsv s
  | .getwork t rd ra rsv => Sys2Proof.Machine.execGetwork t rd ra rsv s
  | .waitev t rd ra rsv => Sys2Proof.Machine.execWaitev t rd ra rsv s
  | .waitevC t rd ra rsv => Sys2Proof.Machine.execWaitevC t rd ra rsv s
  | .setev t ra flag rsv => Sys2Proof.Machine.execSetev t ra flag rsv s
  | .token t ra rb rsv => Sys2Proof.Machine.execToken t ra rb rsv s
  | .jwr t ra rsv => Sys2Proof.Machine.execJwr t ra rsv s
  | .jout t ra rsv => Sys2Proof.Machine.execJout t ra rsv s
  | .retire t rd rsv => Sys2Proof.Machine.execRetire t rd rsv s
  | .abandon t mode rsv => Sys2Proof.Machine.execAbandon t mode rsv s
  | .chwr t ra rb e rsv => Sys2Proof.Machine.execChwr t ra rb e rsv s
  | .chwrx t ra rb e rsv => Sys2Proof.Machine.execChwrx t ra rb e rsv s
  | .chrd t rd rb rsv => Sys2Proof.Machine.execChrd t rd rb rsv s
  | .chrdNb t rd rb rsv => Sys2Proof.Machine.execChrdNb t rd rb rsv s
  | .channelReadResume t => Sys2Proof.Machine.execChannelReadResume t s
  | .channelWriteResume t => Sys2Proof.Machine.execChannelWriteResume t s
  | .cas t rd ra rb rsv => Sys2Proof.Machine.execCas t rd ra rb rsv s
  | .hpacq t rd ra rsv => Sys2Proof.Machine.execHpacq t rd ra rsv s
  | .hpacqT t rd ra rsv => Sys2Proof.Machine.execHpacqT t rd ra rsv s
  | .hpacqE t rd ra rsv => Sys2Proof.Machine.execHpacqE t rd ra rsv s
  | .hprel t ra rsv => Sys2Proof.Machine.execHprel t ra rsv s
  | .trap t imm rsv other => Sys2Proof.Machine.execTrap t imm rsv other s
  | .eret t rsv => Sys2Proof.Machine.execEret t rsv s
  | .fxBitmap t ra rb rc flags => Sys2Proof.Machine.execFxBitmap t ra rb rc flags s
  | .fxIso t ra rb rc flags => Sys2Proof.Machine.execFxIso t ra rb rc flags s
  | .fxTlv t ra rb rc flags => Sys2Proof.Machine.execFxTlv t ra rb rc flags s
  | .fxFields t ra rb rc flags => Sys2Proof.Machine.execFxFields t ra rb rc flags s
  | .dxAdd t ra rb rc flags => Sys2Proof.Machine.execDxAdd t ra rb rc flags s
  | .dxSub t ra rb rc flags => Sys2Proof.Machine.execDxSub t ra rb rc flags s
  | .dxMul t ra rb rc flags => Sys2Proof.Machine.execDxMul t ra rb rc flags s
  | .dxRescale t ra rb rc flags => Sys2Proof.Machine.execDxRescale t ra rb rc flags s
  | .dxCcy t ra rb rc flags => Sys2Proof.Machine.execDxCcy t ra rb rc flags s
  | .dxCmp t ra rb rc flags => Sys2Proof.Machine.execDxCmp t ra rb rc flags s
  | .dxParse t ra rb rc flags => Sys2Proof.Machine.execDxParse t ra rb rc flags s
  | .dxFormat t ra rb rc flags => Sys2Proof.Machine.execDxFormat t ra rb rc flags s
  | .cxCmac t ra rb rc flags => Sys2Proof.Machine.execCxCmac t ra rb rc flags s
  | .cxCmacVer t ra rb rc flags => Sys2Proof.Machine.execCxCmacVer t ra rb rc flags s
  | .cxGcmEnc t ra rb rc flags => Sys2Proof.Machine.execCxGcmEnc t ra rb rc flags s
  | .cxGcmDec t ra rb rc flags => Sys2Proof.Machine.execCxGcmDec t ra rb rc flags s
  | .cxSha256 t ra rb rc flags => Sys2Proof.Machine.execCxSha256 t ra rb rc flags s
  | .cxHmac t ra rb rc flags => Sys2Proof.Machine.execCxHmac t ra rb rc flags s
  | .cxHmacVer t ra rb rc flags => Sys2Proof.Machine.execCxHmacVer t ra rb rc flags s
  | .hxCrc t ra rb rc flags => Sys2Proof.Machine.execHxCrc t ra rb rc flags s
  | .hxKey t ra rb rc flags => Sys2Proof.Machine.execHxKey t ra rb rc flags s
  | .hxMcmp t ra rb rc flags => Sys2Proof.Machine.execHxMcmp t ra rb rc flags s
  | .helperGrant st k => Sys2Proof.Machine.execHelperGrant st k s
  | .helperComplete st u => Sys2Proof.Machine.execHelperComplete st u s
  | .poolPortAlloc t rd c p => Sys2Proof.Machine.execPoolPortAlloc t rd c p s
  | .poolPortInfo t rd c p => Sys2Proof.Machine.execPoolPortInfo t rd c p s
  | .poolPortDrop t c h => Sys2Proof.Machine.execPoolPortDrop t c h s
  | .poolPortAdd t c h => Sys2Proof.Machine.execPoolPortAdd t c h s
  | .vectorSignal t c v => Sys2Proof.Machine.execVectorSignal t c v s
  | .tableLookup n => Sys2Proof.Machine.execTableLookup n s
  | .lookupResult n ix => Sys2Proof.Machine.execLookupResult n ix s
  | .tableMove n p => Sys2Proof.Machine.execTableMove n p s
  | .teCmdRead o n p table => Sys2Proof.Machine.execTeCmdRead o n p table s
  | .teCmdInsert o n p table => Sys2Proof.Machine.execTeCmdInsert o n p table s
  | .teCmdUpdate o n p table => Sys2Proof.Machine.execTeCmdUpdate o n p table s
  | .teCmdRemove o n p table => Sys2Proof.Machine.execTeCmdRemove o n p table s
  | .teCmdDone n p => Sys2Proof.Machine.execTeCmdDone n p s
  | .mirrorResync n => Sys2Proof.Machine.execMirrorResync n s
  | .learnForward n => Sys2Proof.Machine.execLearnForward n s
  | .dirSearch => Sys2Proof.Machine.execDirSearch s
  | .scrubVisit ecc upset => Sys2Proof.Machine.execScrubVisit ecc upset s
  | .dramCommandGrant n errs => Sys2Proof.Machine.execDramCommandGrant n errs s
  | .refresh n r => Sys2Proof.Machine.execRefresh n r s
  | .zqcs n r => Sys2Proof.Machine.execZqcs n r s
  | .patrolScrub n errs => Sys2Proof.Machine.execPatrolScrub n errs s
  | .dimmSensorRead n slot reading => Sys2Proof.Machine.execDimmSensorRead n slot reading s
  | .ddrRungDescend n => Sys2Proof.Machine.execDdrRungDescend n s
  | .watchdogBite k idx req => Sys2Proof.Machine.execWatchdogBite k idx req s
  | .channelTailTimeout n => Sys2Proof.Machine.execChannelTailTimeout n s
  | .lockOrphan l => Sys2Proof.Machine.execLockOrphan l s
  | .bar4Write pasid x bytes poisoned => Sys2Proof.Machine.execBar4Write pasid x bytes poisoned s
  | .bar4Atomicop pasid x op size a b => Sys2Proof.Machine.execBar4Atomicop pasid x op size a b s
  | .bar2Request pasid off en wr => Sys2Proof.Machine.execBar2Request pasid off en wr s
  | .loadGo o en v => Sys2Proof.Machine.execLoadGo o en v s
  | .imageVerifyDone => Sys2Proof.Machine.execImageVerifyDone s
  | .queueEnable o q => Sys2Proof.Machine.execQueueEnable o q s
  | .queueDisable o q => Sys2Proof.Machine.execQueueDisable o q s
  | .queueErr q code => Sys2Proof.Machine.execQueueErr q code s
  | .nop c other => Sys2Proof.Machine.execNop c other s
  | .identify c => Sys2Proof.Machine.execIdentify c s
  | .echo c => Sys2Proof.Machine.execEcho c s
  | .modeSet c => Sys2Proof.Machine.execModeSet c s
  | .modeSetComplete => Sys2Proof.Machine.execModeSetComplete s
  | .modeGet c => Sys2Proof.Machine.execModeGet c s
  | .commit c => Sys2Proof.Machine.execCommit c s
  | .fwStage c dma => Sys2Proof.Machine.execFwStage c dma s
  | .fwStageComplete => Sys2Proof.Machine.execFwStageComplete s
  | .fwSwitch c => Sys2Proof.Machine.execFwSwitch c s
  | .fwSwitchComplete => Sys2Proof.Machine.execFwSwitchComplete s
  | .fwSwitchFallback => Sys2Proof.Machine.execFwSwitchFallback s
  | .fwInfo c => Sys2Proof.Machine.execFwInfo c s
  | .boardProfileLoad c dma => Sys2Proof.Machine.execBoardProfileLoad c dma s
  | .dramInit c => Sys2Proof.Machine.execDramInit c s
  | .dramInitComplete laneFail => Sys2Proof.Machine.execDramInitComplete laneFail s
  | .dramStatus c => Sys2Proof.Machine.execDramStatus c s
  | .termLoad c dma => Sys2Proof.Machine.execTermLoad c dma s
  | .termLoadComplete slot => Sys2Proof.Machine.execTermLoadComplete slot s
  | .termActivate c => Sys2Proof.Machine.execTermActivate c s
  | .termRetire c => Sys2Proof.Machine.execTermRetire c s
  | .termRetireComplete slot => Sys2Proof.Machine.execTermRetireComplete slot s
  | .termStatus c => Sys2Proof.Machine.execTermStatus c s
  | .classCreate c => Sys2Proof.Machine.execClassCreate c s
  | .classCreateComplete c => Sys2Proof.Machine.execClassCreateComplete c s
  | .classDestroy c => Sys2Proof.Machine.execClassDestroy c s
  | .classDestroyComplete c => Sys2Proof.Machine.execClassDestroyComplete c s
  | .classReset c => Sys2Proof.Machine.execClassReset c s
  | .classResetPoint c => Sys2Proof.Machine.execClassResetPoint c s
  | .classResetComplete c => Sys2Proof.Machine.execClassResetComplete c s
  | .classShare c => Sys2Proof.Machine.execClassShare c s
  | .classMigrateLog c => Sys2Proof.Machine.execClassMigrateLog c s
  | .classStatus c => Sys2Proof.Machine.execClassStatus c s
  | .tableCreate c => Sys2Proof.Machine.execTableCreate c s
  | .tableDelete c => Sys2Proof.Machine.execTableDelete c s
  | .tableDeleteComplete t => Sys2Proof.Machine.execTableDeleteComplete t s
  | .tableInsert c => Sys2Proof.Machine.execTableInsert c s
  | .tableUpdate c => Sys2Proof.Machine.execTableUpdate c s
  | .tableRemove c => Sys2Proof.Machine.execTableRemove c s
  | .tableRead c => Sys2Proof.Machine.execTableRead c s
  | .tableBulkLoad c => Sys2Proof.Machine.execTableBulkLoad c s
  | .tableLearnCfg c => Sys2Proof.Machine.execTableLearnCfg c s
  | .dirWrite c => Sys2Proof.Machine.execDirWrite c s
  | .dirInvalidate c => Sys2Proof.Machine.execDirInvalidate c s
  | .dirRead c => Sys2Proof.Machine.execDirRead c s
  | .dirProfile c => Sys2Proof.Machine.execDirProfile c s
  | .portCfg c => Sys2Proof.Machine.execPortCfg c s
  | .portStatus c => Sys2Proof.Machine.execPortStatus c s
  | .streamOpen c => Sys2Proof.Machine.execStreamOpen c s
  | .streamClose c => Sys2Proof.Machine.execStreamClose c s
  | .ringJoin c => Sys2Proof.Machine.execRingJoin c s
  | .ringJoinComplete => Sys2Proof.Machine.execRingJoinComplete s
  | .ringLeave c => Sys2Proof.Machine.execRingLeave c s
  | .ringLeaveComplete => Sys2Proof.Machine.execRingLeaveComplete s
  | .ringStatus c => Sys2Proof.Machine.execRingStatus c s
  | .fence c => Sys2Proof.Machine.execFence c s
  | .fenceComplete kind idx => Sys2Proof.Machine.execFenceComplete kind idx s
  | .unfence c => Sys2Proof.Machine.execUnfence c s
  | .unfenceComplete kind idx => Sys2Proof.Machine.execUnfenceComplete kind idx s
  | .faultAck c => Sys2Proof.Machine.execFaultAck c s
  | .faultInject c => Sys2Proof.Machine.execFaultInject c s
  | .gbRead c => Sys2Proof.Machine.execGbRead c s
  | .gbSeal c => Sys2Proof.Machine.execGbSeal c s
  | .countersRead c => Sys2Proof.Machine.execCountersRead c s
  | .timeSet c => Sys2Proof.Machine.execTimeSet c s
  | .powerRung c => Sys2Proof.Machine.execPowerRung c s
  | .diagRun c => Sys2Proof.Machine.execDiagRun c s
  | .diagRunComplete result => Sys2Proof.Machine.execDiagRunComplete result s
  | .ringFrameReceive l bytes pcsErr => Sys2Proof.Machine.execRingFrameReceive l bytes pcsErr s
  | .ringFrameTransmit l => Sys2Proof.Machine.execRingFrameTransmit l s
  | .heartbeatReceive l => Sys2Proof.Machine.execHeartbeatReceive l s
  | .remoteTokenReceive l => Sys2Proof.Machine.execRemoteTokenReceive l s
  | .mirrorRecordReceive l => Sys2Proof.Machine.execMirrorRecordReceive l s
  | .termRecordReceive l => Sys2Proof.Machine.execTermRecordReceive l s
  | .raccReqReceive l => Sys2Proof.Machine.execRaccReqReceive l s
  | .raccRspReceive l => Sys2Proof.Machine.execRaccRspReceive l s
  | .remoteWindowAccess t rd dev off size wr => Sys2Proof.Machine.execRemoteWindowAccess t rd dev off size wr s
  | .raccTimeout t => Sys2Proof.Machine.execRaccTimeout t s
  | .heartbeatSend l => Sys2Proof.Machine.execHeartbeatSend l s
  | .linkBroken l => Sys2Proof.Machine.execLinkBroken l s
  | .ringRetxTimeout l => Sys2Proof.Machine.execRingRetxTimeout l s
  | .mirrorLogApply => Sys2Proof.Machine.execMirrorLogApply s
  | .gbRecordHash => Sys2Proof.Machine.execGbRecordHash s
  | .faultReport own => Sys2Proof.Machine.execFaultReport own s
  | .faultAutoAck n => Sys2Proof.Machine.execFaultAutoAck n s
  | .fcAckWrite o en v => Sys2Proof.Machine.execFcAckWrite o en v s
  | .lockstepMismatch => Sys2Proof.Machine.execLockstepMismatch s
  | .tenikHang => Sys2Proof.Machine.execTenikHang s
  | .srAlive o en v => Sys2Proof.Machine.execSrAlive o en v s
  | .restartFail => Sys2Proof.Machine.execRestartFail s
  | .perstAssert => Sys2Proof.Machine.execPerstAssert s
  | .perstDeassert pcieW smbA tap test fuseOk => Sys2Proof.Machine.execPerstDeassert pcieW smbA tap test fuseOk s
  | .streetRungDescend st => Sys2Proof.Machine.execStreetRungDescend st s
  | .streetRungExit st => Sys2Proof.Machine.execStreetRungExit st s
  | .thermWarn reading sensor => Sys2Proof.Machine.execThermWarn reading sensor s
  | .thermTrip reading sensor => Sys2Proof.Machine.execThermTrip reading sensor s
  | .supply level => Sys2Proof.Machine.execSupply level s
  | .rootPllLockLoss => Sys2Proof.Machine.execRootPllLockLoss s
  | .pcieLinkChange speed width => Sys2Proof.Machine.execPcieLinkChange speed width s
  | .timebaseTick => Sys2Proof.Machine.execTimebaseTick s
  | .tbSet o en v => Sys2Proof.Machine.execTbSet o en v s
  | .tbStep o en v => Sys2Proof.Machine.execTbStep o en v s
  | .tapReset => Sys2Proof.Machine.execTapReset s
  | .extest ones => Sys2Proof.Machine.execExtest ones s
  | .idcode => Sys2Proof.Machine.execIdcode s
  | .samplePreload ones => Sys2Proof.Machine.execSamplePreload ones s
  | .highz => Sys2Proof.Machine.execHighz s
  | .clamp => Sys2Proof.Machine.execClamp s
  | .regacc off write half rsv data => Sys2Proof.Machine.execRegacc off write half rsv data s
  | .bypass code => Sys2Proof.Machine.execBypass code s
  | .sbPart x other => Sys2Proof.Machine.execSbPart x other s
  | .sbRevision x => Sys2Proof.Machine.execSbRevision x s
  | .sbMode x => Sys2Proof.Machine.execSbMode x s
  | .sbErrStatus x => Sys2Proof.Machine.execSbErrStatus x s
  | .sbTemp x => Sys2Proof.Machine.execSbTemp x s
  | .sbDimmTemp x => Sys2Proof.Machine.execSbDimmTemp x s
  | .sbAlertResponse => Sys2Proof.Machine.execSbAlertResponse s
  | .ringLinkChange l up => Sys2Proof.Machine.execRingLinkChange l up s
  | .ddrRungExit n => Sys2Proof.Machine.execDdrRungExit n s
  | .stateCopyEnd t => Sys2Proof.Machine.execStateCopyEnd t s
  | .regaccAccessDone => Sys2Proof.Machine.execRegaccAccessDone s
  | .uncorrectableCodeword p => Sys2Proof.Machine.execUncorrectableCodeword p s
  | .junctionReadingFall reading sensor => Sys2Proof.Machine.execJunctionReadingFall reading sensor s

end Sys2Proof.Machine
end

