-- ==== Sys2Proof/Safety.lean ====
section
/-! DEFINITION. The terms in which statements speak of runs: when a thread issues its next instruction, and the state behind
an instruction that ends, waits or traps (R195, R203, R232, R258). -/

namespace Sys2Proof.Machine

/-- Thread `t` issues its next instruction, and may fetch it from where its pc points (R195, R203, R232). -/
def State.canIssue (s : State) (t : Nat) : Bool := s.issues t && s.mayFetch t (s.thread t).pc.toNat

/-- One more instruction issued by the core of thread `t` (counter ISSUED), nothing else changed. -/
def State.issued (s : State) (t : Nat) : State :=
  (Upd.regs (coreReg Reg.CORE_CNT_ISSUED (coreOf t)) (s.regsAt (coreReg Reg.CORE_CNT_ISSUED (coreOf t)) + 1)).apply s

/-- The instruction of thread `t` has done `f` to the thread and ended at `pc`; nothing else changed.  A thread that was
stepped, or has a halt pending, stands HALTED there (R214, R216). -/
def State.ended (s : State) (t : Nat) (pc : Addr) (f : Thread → Thread) : State :=
  (Upd.threads t ((f (s.thread t)).finish pc (s.openPacket t))).apply s

/-- It has ended behind itself. -/
def State.endedNext (s : State) (t : Nat) (f : Thread → Thread) : State := s.ended t ((s.thread t).pcPlus 4) f

/-- It waits for `w`; nothing else changed. -/
def State.waits (s : State) (t : Nat) (w : Wait) : State :=
  (Upd.threads t { s.thread t with state := .waiting, wait := w }).apply s

/-- It has entered the trap handler of a cause (R258); nothing else changed. -/
def State.trapped (s : State) (t cause : Nat) (value : Word) (tpc : Addr) : State :=
  s.ended t ((s.thread t).vector cause) fun th => th.trapped cause value tpc

/-- It has trapped at its own pc. -/
def State.trappedHere (s : State) (t cause : Nat) (value : Word) : State := s.trapped t cause value (s.thread t).pc

/-- The activation block of record `i`, which holds `a`, stands at desk offset 0xFF80 of thread `t` in `u`; `s` holds its context
(R159). -/
def State.BlockHolds (u s : State) (t i : Nat) (a : Act) : Prop :=
  let b := u.deskBytes t 0xFF80 128
  let c := s.ctx a.ctx
  let m := c.msg
  (∀ k, k < 4 → leAt b (8 * k) 8 = (a.opnds.getD k 0).toNat) ∧ leAt b 32 6 = a.tag % 2 ^ 48 ∧
  leAt b 38 1 = a.absent % 16 + 16 * bit a.rerun + 32 * bit m.recirc ∧ leAt b 39 1 = (m.cls + 16 * m.term) % 2 ^ 8 ∧
  leAt b 40 2 = a.entry % 2 ^ 16 ∧ leAt b 42 2 = m.epoch % 2 ^ 16 ∧ leAt b 44 4 = m.buffer % 2 ^ 32 ∧
  leAt b 48 4 = m.msgLen % 2 ^ 32 ∧ leAt b 52 2 = m.payloadOff % 2 ^ 16 ∧ leAt b 54 1 = m.port % 2 ^ 8 ∧
  leAt b 55 1 = c.clgen % 2 ^ 8 ∧ leAt b 56 4 = (if m.sequenced then m.stream else 0) % 2 ^ 32 ∧ leAt b 60 4 = i % 2 ^ 32 ∧
  leAt b 64 8 = m.key.toNat ∧ leAt b 72 8 = m.rxTs.toNat ∧
  (∀ r, r < 8 → leAt b (80 + 2 * r) 2 = m.records.getD r 0xFFFF % 2 ^ 16) ∧ leAt b 96 8 = c.order % 2 ^ 64 ∧
  leAt b 104 6 = m.seq % 2 ^ 48 ∧ leAt b 110 2 = a.reruns % 2 ^ 16 ∧ leAt b 112 16 = 0

/-! Loads and stores: what statements about them require, for an access of `n` bytes whose pointer names bank `b` and comes
to the address `e` (`none` while the bank is not VALID).  `s` is the state behind the issue of the instruction, `o` what the
command answers. -/

/-- What a load of `n` bytes into `rd` does (R227, R230, R231, R236): it takes the trap that stops it, writes 0 outside the
rights, writes the bytes read, or waits for DRAM or host memory; a channel that takes no requests answers at once, with an
error. -/
def State.LoadsWell (s : State) (t : Nat) (o : Host.Outcome State Fault Refusal) (rd n b : Nat) (e : Option Ea) : Prop :=
  let th := s.thread t
  (∀ c v, s.accessTrap t false n b e = some (c, v) → th.inHandler = false → o = .next (s.trappedHere t c v)) ∧
  ∀ a, e = some a → s.accessTrap t false n b e = none →
    (s.right t th.priv false a = false → o = .next (s.endedNext t fun th => th.setG rd 0)) ∧
    (s.right t th.priv false a = true → (a.desk ∨ s.region a.addr = .square) → s.eaBad a n = false →
      o = .next (s.endedNext t fun th => th.setG rd (BitVec.ofNat 64 (ofLeBytes (s.eaBytes t a n))))) ∧
    (∀ k, s.right t th.priv false a = true → a.desk = false → s.region a.addr = .street k →
      ((wakeStreet k) s).2.eaBad a n = false →
      ∃ u, o = .next u ∧ u.mem = s.mem ∧ u.desk = s.desk ∧
        u.thread t = (th.setG rd (BitVec.ofNat 64 (ofLeBytes (s.bytes a.addr n)))).finish (th.pcPlus 4) (s.openPacket t)) ∧
    (s.right t th.priv false a = true → a.desk = false → s.region a.addr = .dram →
      (s.dramChan a.addr).any s.ddrOut = true → s.eaBad a n = true → th.inHandler = false →
      o = .next ((eaReport a n s).2.trappedHere t causeBus (Word.ofNat a.addr))) ∧
    (s.right t th.priv false a = true → a.desk = false → s.region a.addr = .dram →
      (s.dramChan a.addr).any s.ddrOut = false →
      ∃ u, o = .next u ∧ u.mem = s.mem ∧ u.desk = s.desk ∧
        u.thread t = { th with state := .waiting, wait := .load rd (BitVec.ofNat 48 a.addr) n }) ∧
    (s.right t th.priv false a = true → a.desk = false → s.region a.addr = .host →
      o = .next ((Upd.outbox (.hostRead ((s.boundTo t).map s.pasidOf) (a.addr - 0x040000000000) n :: s.outbox)).apply s
        |>.waits t (.load rd (BitVec.ofNat 48 a.addr) n))) ∧
    (s.right t th.priv false a = true → a.desk = false → s.region a.addr = .regs →
      let r := spaceRead (.thread t) (a.addr - 0x030000000000) n s
      o = .next (r.2.endedNext t fun th => th.setG rd r.1)) ∧
    (s.right t th.priv false a = true → a.desk = false → s.region a.addr = .unmapped → inPoolPages a.addr = false →
      o = .next (s.endedNext t fun th => th.setG rd 0))

/-- What a store of the low `n` bytes of `v` does (R227, R230, R231, R236): it takes the trap that stops it, does nothing
outside the rights, or stores its bytes and no others. -/
def State.StoresWell (s : State) (t : Nat) (o : Host.Outcome State Fault Refusal) (n b : Nat) (e : Option Ea) (v : Word) :
    Prop :=
  let th := s.thread t
  (∀ c w, s.accessTrap t true n b e = some (c, w) → th.inHandler = false → o = .next (s.trappedHere t c w)) ∧
  ∀ a, e = some a → s.accessTrap t true n b e = none →
    (s.right t th.priv true a = false → o = .next (s.endedNext t id)) ∧
    (∀ k, s.right t th.priv true a = true → a.desk = true → deskKey t a.addr = some k →
      ∃ u, o = .next u ∧ u.thread t = th.finish (th.pcPlus 4) (s.openPacket t) ∧ u.mem = s.mem ∧
        (∀ j, j < n → u.deskAt (k + j) = BitVec.ofNat 8 (v.toNat / 2 ^ (8 * j))) ∧
        ∀ x, (x < k ∨ k + n ≤ x) → u.deskAt x = s.deskAt x) ∧
    (s.right t th.priv true a = true → a.desk = false → (s.region a.addr = .square ∨ s.region a.addr = .dram) →
      s.lineTakes a.addr .other = true → s.rawChan a.addr = none →
      ∃ u, o = .next u ∧ u.thread t = th.finish (th.pcPlus 4) (s.openPacket t) ∧ u.desk = s.desk ∧
        (∀ j, j < n → u.memAt (a.addr + j) = BitVec.ofNat 8 (v.toNat / 2 ^ (8 * j))) ∧
        ∀ x, (x < a.addr ∨ a.addr + n ≤ x) → u.memAt x = s.memAt x) ∧
    (∀ k, s.right t th.priv true a = true → a.desk = false → s.region a.addr = .dram →
      s.lineTakes a.addr .other = true → s.rawChan a.addr = some k →
      ∃ u, o = .next u ∧ u.thread t = th.finish (th.pcPlus 4) (s.openPacket t) ∧ u.desk = s.desk ∧ u.mem = s.mem ∧
        (u.ddrsAt k).early = (s.ddrsAt k).early ++ [⟨a.addr, lowBytes v n, coreOf t, none⟩]) ∧
    (∀ k, s.right t th.priv true a = true → a.desk = false → s.region a.addr = .street k →
      ((wakeStreet k) s).2.lineTakes a.addr .other = true →
      ∃ u, o = .next u ∧ u.thread t = th.finish (th.pcPlus 4) (s.openPacket t) ∧ u.desk = s.desk ∧
        (∀ j, j < n → u.memAt (a.addr + j) = BitVec.ofNat 8 (v.toNat / 2 ^ (8 * j))) ∧
        ∀ x, (x < a.addr ∨ a.addr + n ≤ x) → u.memAt x = s.memAt x) ∧
    (s.right t th.priv true a = true → a.desk = false → s.region a.addr = .regs →
      o = .next ((spaceWrite (.thread t) (a.addr - 0x030000000000) n v s).2.endedNext t id)) ∧
    (s.right t th.priv true a = true → a.desk = false → s.region a.addr = .host →
      (∀ c, s.boundTo t = some c → s.fld (Reg.CL_DLOG_LEN c) Fld.CL_DLOG_LEN_EN ≠ 1) →
      ∃ u, o = .next u ∧ u.thread t = th.finish (th.pcPlus 4) (s.openPacket t) ∧ u.mem = s.mem ∧ u.desk = s.desk ∧
        u.outbox = .hostWrite ((s.boundTo t).map s.pasidOf) (a.addr - 0x040000000000) (lowBytes v n) :: s.outbox) ∧
    (s.right t th.priv true a = true → a.desk = false → s.region a.addr = .unmapped →
      inPoolPages a.addr = false → inVectorPages a.addr = false → o = .next (s.endedNext t id))

/-- The request a helper instruction of thread `t` makes, with the registers and banks as it issues (R249, R268). -/
def helperReqOf (s : State) (t : Nat) (k : HelperClass) (fn : Nat) (usesRc : Bool) (ra rb rc flags : Nat) : HelperReq :=
  let th := s.thread t
  ⟨k, fn, th.gr (ra % 32), th.gr (rb % 32), if usesRc then th.gr (rc % 32) else 0, flags.testBit 1, flags.testBit 0, th.bk,
    s.boundTo t, s.threadClgen t, th.tgen, s.isSeat t, wordH (classMajor k) fn ra rb rc flags, none⟩

/-! What statements about commands of the other units require. -/

/-- Port `p` is up, the oldest FST frame received there is `f`, and the stream it names is open, of that port, and takes frames of its
type (R59, R76, R550). -/
def State.fstFrame (s : State) (p : Nat) (f : FstFrame) (rest : List FstFrame) (st : Stream) : Prop :=
  s.fstOn = true ∧ s.portUp p = true ∧ (s.portsAt p).rx = f :: rest ∧ s.stream f.stream = some st ∧ s.fstReject f = none

/-- The entry at an address reads good by itself: its channels take requests, none of its lines waits to be copied back, every part
of it reads, and its check holds (R296, R315, R317). -/
def State.slotClean (s : State) (d : TableDesc) (t a : Nat) : Prop :=
  (∀ l ∈ linesOf a d.esize, (s.dramChan l).any s.ddrOut = false ∧ s.unsynced l = false) ∧
  (∀ g ∈ partsOf a d.esize, s.badAt g = false) ∧ entryGood d t (s.bytes a d.esize) = true

/-- A table engine's write of a whole entry at an address takes effect at once, in both copies of a mirrored table (R304, R316,
R345, R356). -/
def State.slotWritable (s : State) (d : TableDesc) (a : Nat) : Prop :=
  0 < d.esize ∧ d.esize % 16 = 0 ∧ (∀ l ∈ linesOf a d.esize, s.unsynced l = false) ∧
  ∀ c, (c = a ∨ d.mirror = true ∧ c = a + d.mirrorOff) →
    c % 16 = 0 ∧ (∀ l ∈ linesOf c d.esize, (s.dramChan l).any s.ddrOut = false) ∧
    ∀ i, i < d.esize → s.lineTakes (c + i) .engine = true ∧ s.rawChan (c + i) = none

/-- The entries of a table at some addresses do not overlap, nor does one of them and the second copy of one (R294, R316). -/
def TableDesc.apart (d : TableDesc) (l : List Nat) : Prop :=
  ∀ x ∈ l, ∀ y ∈ l, (x = y ∨ x + d.esize ≤ y ∨ y + d.esize ≤ x) ∧
    (d.mirror = true → x + d.esize ≤ y + d.mirrorOff ∨ y + d.mirrorOff + d.esize ≤ x)

/-! Commands of the host's queues (R399 to R407): `s` is the state before, `s.took c` behind the taking of the packet. -/

/-- Command `c` has been taken from its queue: SQ_HEAD stands behind its slots, its queue is the one served last, and it is counted
(R399, R405); nothing else changed. -/
def State.took (s : State) (c : Cmd) : State :=
  let h := (s.fld (qStatus c.queue) Fld.Q_STATUS_SQ_HEAD + c.len + 1) % s.sqSize c.queue
  let t := (Upd.regs (qStatus c.queue) (Fld.Q_STATUS_SQ_HEAD.set (s.regsAt (qStatus c.queue)) h)).apply s
  let t := (Upd.boot { s.boot with lastQueue := c.queue }).apply t
  (Upd.regs Reg.HI_CNT_COMMANDS (t.regsAt Reg.HI_CNT_COMMANDS + 1)).apply t

/-- The reply to `c` has been sent: an accepted or a refused command is counted, its record is kept, the payload is written where
the packet says, and the reply goes to the queue's completion ring (R401, R410). -/
def State.replied (s : State) (c : Cmd) (op status result : Nat) (data : List Byte) : State :=
  ((do
    onlyIf (status = stAccepted) (count Reg.HI_CNT_ACCEPTED_CMDS)
    onlyIf (decide (0x10 ≤ status) && status != stEvicted) (count Reg.HI_CNT_REFUSED)
    noteCmd ⟨c, op, status, result, data, false⟩
    replyLast ⟨c, op, status, result, data, false⟩ : M Unit) s).2

/-- Command `c` has failed a check: it is counted, and replied to with the status and PAYLOAD_LEN (R407). -/
def State.turnedAway (s : State) (c : Cmd) (op status len : Nat) : State :=
  ((do
    count Reg.HI_CNT_REFUSED
    reply c op status len 0 [] : M Unit) s).2

/-- The background operation of `c` has begun (R406); nothing else changed. -/
def State.started (s : State) (c : Cmd) (op : Nat) (k : BgKind) : State :=
  (Upd.bg (s.bg ++ [⟨c.queue, c.tag, op, bitOf c.flags 0, k, 0, false⟩])).apply s

/-- Tenik takes command `c`, and the packet passes what the table of commands asks of it: modes, issuer, LEN, REPLY_MAX, and
no bit set in P0 to P3 outside the named ones (R407). -/
def State.accepts (s : State) (c : Cmd) (modes : List Nat) (classOk : Bool) (len need m0 m1 m2 : Nat) : Prop :=
  s.cmdTaken c = true ∧ s.mode ∈ modes ∧ (classOk = true ∨ c.queue < 16) ∧ c.len = len ∧ need ≤ c.replyMax ∧
  (need = 0 ∨ c.replyAddr % 8 = 0) ∧ c.rsv % 2 ^ 32 = 0 ∧ c.flags % 2 ^ 16 < 4 ∧ within c.p0 m0 = true ∧
  within c.p1 m1 = true ∧ within c.p2 m2 = true ∧ c.p3 = 0

/-- The background operation `b` is unfinished, the oldest that `p` holds of, and Tenik is up. -/
def State.running (s : State) (p : BgKind → Bool) (b : BgOp) : Prop := s.tenikUp = true ∧ s.bgFind p = some b

/-- The final completion of `b` has been sent (R406). -/
def State.finished (s : State) (b : BgOp) (status result : Nat) : State := (bgEnd b status result s).2

end Sys2Proof.Machine
end

