-- ==== Sys2Proof/Certificates/Slice0/Obligations.lean ====
section
/-! DEFINITION. The statements for the provers.  Every command of the table is named in one of them. -/

open Sys2Proof Sys2Proof.Machine

/-! ## The queue -/

/-- Taking a step runs the command at the front of the queue on the state with the queue's rest. With nothing waiting
the block idles (the model's choice: notes/assumptions/1.md). -/
def Obligations.StepRunsTheFrontCommand : Prop :=
  (∀ (s : State) (c : Instr) (rest : List Instr),
    step { s with pending := c :: rest } = exec c { s with pending := rest }) ∧
  (∀ s : State, s.pending = [] → step s = .next s)

/-- Every command answers a next state, whose queue is the queue it ran with. What an effect is, the statements of the
commands say; that a command whose row is not enabled in the state answers it unchanged, and is not refused, is the
model's choice (notes/assumptions/2.md). -/
def Obligations.EveryCommandAnswersAndKeepsTheQueue : Prop :=
  ∀ (c : Instr) (s : State), ∃ t, exec c s = .next t ∧ t.pending = s.pending

/-- Every step keeps every map of the state, memory among them, in its canonical form. -/
def Obligations.StepKeepsMapsCanonical : Prop :=
  ∀ s t : State, s.mapsWf = true → step s = .next t → t.mapsWf = true

/-- The state right after reset: nothing waits, every map is canonical, every register reads its reset value in its
shadow, in its pending copy and in force, every commit group is DONE, both counts of the timebase are 0, the mode is
RESET and PERST# is asserted (R460, R463, R500, R518). What no statement rests on: the values the model chose where no
reset value is given. -/
def Obligations.ResetIsAsTheSpecSays : Prop :=
  let s := State.reset
  s.pending = [] ∧ s.mapsWf = true ∧ s.mode = 0 ∧ s.boot.perst = true ∧ s.timeNs = 0 ∧ s.monoNs = 0 ∧
  (∀ x, s.regsAt x = regReset x ∧ s.pendcAt x = regReset x ∧ s.actAt x = regReset x) ∧
  ∀ g, g.exists = true → s.grpDone g = true

/-- Nothing but the commands named here reaches what the tables of classrooms, the Directory's rows, the parse images,
the consumers of learn notices, the locked ways of the instruction caches and the test access port hold, whatever
their operands. -/
def Obligations.OnlyTheirOwnCommandsReachTheseUnits : Prop :=
  ∀ (c : Instr) (s u : State), exec c s = .next u →
    (u.classes ≠ s.classes →
      c = .perstAssert ∨ c = .modeSetComplete ∨ (∃ k, c = .classCreate k) ∨ ∃ n, c = .classDestroyComplete n) ∧
    ((u.dirRows ≠ s.dirRows ∨ u.dirShadow ≠ s.dirShadow) →
      c = .perstAssert ∨ c = .modeSetComplete ∨ (∃ n, c = .classDestroyComplete n) ∨ (∃ e x, c = .scrubVisit e x) ∨
      (∃ k, c = .dirWrite k) ∨ ∃ k, c = .dirInvalidate k) ∧
    (u.pg ≠ s.pg →
      c = .perstAssert ∨ c = .modeSetComplete ∨ (∃ n, c = .termLoadComplete n) ∨ ∃ n, c = .termRetireComplete n) ∧
    (u.learn ≠ s.learn →
      c = .perstAssert ∨ c = .modeSetComplete ∨ (∃ n, c = .classDestroyComplete n) ∨ (∃ k, c = .tableDelete k) ∨
      ∃ k, c = .tableLearnCfg k) ∧
    (u.tap ≠ s.tap →
      c ∈ [Instr.perstAssert, .modeSetComplete, .tapReset, .idcode, .highz, .clamp, .regaccAccessDone] ∨
      (∃ x, c = .extest x) ∨ (∃ x, c = .samplePreload x) ∨ (∃ k, c = .bypass k) ∨
      ∃ off w h r d, c = .regacc off w h r d) ∧
    (u.icache ≠ s.icache →
      c = .perstAssert ∨ c = .modeSetComplete ∨ (∃ n, c = .termLoadComplete n) ∨ (∃ n, c = .termRetireComplete n) ∨
      ∃ k n, c = .unfenceComplete k n)

/-! ## The Q core: arithmetic, logic and branches -/

/-- The register instructions of R234 that write rd: each writes the value the table gives and ends behind itself, and
nothing else changes but the core's counter ISSUED. The instructions of R234 with one operand, whose rb is 0, and
SELZ, which chooses by Z. -/
def Obligations.AluInstructionsWriteTheirResult : Prop :=
  (∀ (op : Nat → Nat → Nat → Nat → Nat → Instr) (f : Word → Word → Word),
    (op, f) ∈ ([(Instr.add, fun a b => a + b), (Instr.sub, fun a b => a - b), (Instr.and, fun a b => a &&& b),
      (Instr.or, fun a b => a ||| b), (Instr.xor, fun a b => a ^^^ b), (Instr.andn, fun a b => a &&& ~~~b),
      (Instr.sll, fun a b => a <<< (b.toNat % 64)), (Instr.srl, fun a b => a >>> (b.toNat % 64)),
      (Instr.sra, fun a b => a.sshiftRight (b.toNat % 64)), (Instr.ror, fun a b => a.rotateRight (b.toNat % 64)),
      (Instr.mul, fun a b => a * b), (Instr.mulhu, fun a b => BitVec.ofNat 64 (a.toNat * b.toNat / 2 ^ 64)),
      (Instr.mulhs, fun a b => BitVec.ofInt 64 (a.toInt * b.toInt / 2 ^ 64)),
      (Instr.minu, fun a b => if a.ult b then a else b), (Instr.maxu, fun a b => if a.ult b then b else a),
      (Instr.mins, fun a b => if a.slt b then a else b), (Instr.maxs, fun a b => if a.slt b then b else a)] :
        List ((Nat → Nat → Nat → Nat → Nat → Instr) × (Word → Word → Word))) →
    ∀ (s : State) (t rd ra rb : Nat), s.canIssue t = true →
      exec (op t rd ra rb 0) s = .next ((s.issued t).endedNext t fun th =>
        th.setG (rd % 32) (f (th.gr (ra % 32)) (th.gr (rb % 32))))) ∧
  ((∀ (op : Nat → Nat → Nat → Nat → Nat → Instr) (f : Word → Word),
    (op, f) ∈ ([(Instr.sextb, fun a => (a.setWidth 8).signExtend 64), (Instr.sexth, fun a => (a.setWidth 16).signExtend 64),
      (Instr.sextw, fun a => (a.setWidth 32).signExtend 64), (Instr.clz, fun a => BitVec.ofNat 64 (leadingZeros a)),
      (Instr.popc, fun a => BitVec.ofNat 64 (popCount 64 a.toNat)),
      (Instr.bswap, fun a => BitVec.ofNat 64 (ofBeBytes (leBytes 8 a.toNat)))] :
        List ((Nat → Nat → Nat → Nat → Nat → Instr) × (Word → Word))) →
    ∀ (s : State) (t rd ra : Nat), s.canIssue t = true →
      exec (op t rd ra 0 0) s = .next ((s.issued t).endedNext t fun th => th.setG (rd % 32) (f (th.gr (ra % 32))))) ∧
  ∀ (s : State) (t rd ra rb : Nat), s.canIssue t = true →
    exec (.selz t rd ra rb 0) s = .next ((s.issued t).endedNext t fun th =>
      th.setG (rd % 32) (if th.flags.z then th.gr (ra % 32) else th.gr (rb % 32))))

/-- The immediate instructions of R235 that write rd. With a reserved bit set, a CMPI with an rd other than 0, and a
shift or a move with one of its own reserved bits, an immediate instruction raises UNDEF with its word in TVAL and has
no other effect. CMP, TST and CMPI change the flags the table names and nothing else of the thread; HB is unchanged.
-/
def Obligations.ImmediatesAndComparesActAsTheyShould : Prop :=
  (∀ (s : State) (t rd ra imm sh h : Nat), s.canIssue t = true → h < 4 →
    let done := fun (f : Thread → Word) =>
      (Host.Outcome.next ((s.issued t).endedNext t fun th => th.setG (rd % 32) (f th)) :
        Host.Outcome State Fault Refusal)
    exec (.addi t rd ra imm 0) s = done (fun th => th.gr (ra % 32) + (BitVec.ofNat 14 imm).signExtend 64) ∧
    exec (.andi t rd ra imm 0) s = done (fun th => th.gr (ra % 32) &&& (BitVec.ofNat 14 imm).setWidth 64) ∧
    exec (.ori t rd ra imm 0) s = done (fun th => th.gr (ra % 32) ||| (BitVec.ofNat 14 imm).setWidth 64) ∧
    exec (.xori t rd ra imm 0) s = done (fun th => th.gr (ra % 32) ^^^ (BitVec.ofNat 14 imm).setWidth 64) ∧
    exec (.slli t rd ra sh 0) s = done (fun th => th.gr (ra % 32) <<< (sh % 64)) ∧
    exec (.srli t rd ra sh 0) s = done (fun th => th.gr (ra % 32) >>> (sh % 64)) ∧
    exec (.srai t rd ra sh 0) s = done (fun th => (th.gr (ra % 32)).sshiftRight (sh % 64)) ∧
    exec (.rori t rd ra sh 0) s = done (fun th => (th.gr (ra % 32)).rotateRight (sh % 64)) ∧
    exec (.movi t rd h imm 0) s = done (fun _ => (BitVec.ofNat 16 imm).setWidth 64 <<< (16 * h)) ∧
    exec (.movk t rd h imm 0) s = done (fun th =>
      (th.gr (rd % 32) &&& ~~~((0xFFFF : Word) <<< (16 * h))) ||| (BitVec.ofNat 16 imm).setWidth 64 <<< (16 * h))) ∧
  (∀ (s : State) (t rd ra imm sh h rsv : Nat), s.canIssue t = true → (s.thread t).inHandler = false →
    let undef := fun (w : Nat) =>
      (Host.Outcome.next ((s.issued t).trappedHere t causeUndef (BitVec.ofNat 64 (w % 2 ^ 32))) :
        Host.Outcome State Fault Refusal)
    (rsv % 4 ≠ 0 →
      exec (.addi t rd ra imm rsv) s = undef (wordI 0x01 rd ra rsv imm) ∧
      exec (.andi t rd ra imm rsv) s = undef (wordI 0x02 rd ra rsv imm) ∧
      exec (.ori t rd ra imm rsv) s = undef (wordI 0x03 rd ra rsv imm) ∧
      exec (.xori t rd ra imm rsv) s = undef (wordI 0x04 rd ra rsv imm)) ∧
    (rsv % 4 ≠ 0 ∨ rd % 32 ≠ 0 → exec (.cmpi t rd ra imm rsv) s = undef (wordI 0x05 rd ra rsv imm)) ∧
    (rsv % 256 ≠ 0 →
      exec (.slli t rd ra sh rsv) s = undef (wordI 0x06 rd ra 0 (rsv % 256 * 64 + sh % 64)) ∧
      exec (.srli t rd ra sh rsv) s = undef (wordI 0x06 rd ra 1 (rsv % 256 * 64 + sh % 64)) ∧
      exec (.srai t rd ra sh rsv) s = undef (wordI 0x06 rd ra 2 (rsv % 256 * 64 + sh % 64)) ∧
      exec (.rori t rd ra sh rsv) s = undef (wordI 0x06 rd ra 3 (rsv % 256 * 64 + sh % 64))) ∧
    (rsv % 8 ≠ 0 →
      exec (.movi t rd h imm rsv) s = undef (wordX 0x07 rd (rsv % 8 * 4 + h % 4) imm) ∧
      exec (.movk t rd h imm rsv) s = undef (wordX 0x08 rd (rsv % 8 * 4 + h % 4) imm))) ∧
  (∀ (s : State) (t ra rb imm : Nat), s.canIssue t = true →
    exec (.cmp t 0 ra rb 0) s = .next ((s.issued t).endedNext t fun th =>
      let a := th.gr (ra % 32)
      let b := th.gr (rb % 32)
      { th with flags := ⟨a == b, a.slt b, a.ult b, th.flags.hb⟩ }) ∧
    exec (.tst t 0 ra rb 0) s = .next ((s.issued t).endedNext t fun th =>
      let v := th.gr (ra % 32) &&& th.gr (rb % 32)
      { th with flags := ⟨v == 0, v.msb, false, th.flags.hb⟩ }) ∧
    exec (.cmpi t 0 ra imm 0) s = .next ((s.issued t).endedNext t fun th =>
      let a := th.gr (ra % 32)
      let b := (BitVec.ofNat 14 imm).signExtend 64
      { th with flags := ⟨a == b, a.slt b, a.ult b, th.flags.hb⟩ }))

/-- G0 reads as zero and keeps nothing written; ADD, SUB, MUL and ADDI give their integer result modulo 2^64, and end
behind themselves whatever their operands: they never trap on overflow (R222). -/
def Obligations.ZeroRegisterAndArithmeticModulo : Prop :=
  (∀ (th : Thread) (v : Word), th.gr 0 = 0 ∧ th.setG 0 v = th) ∧
  (∀ (s : State) (t rd ra rb imm : Nat), s.canIssue t = true →
    let x := ((s.thread t).gr (ra % 32)).toInt
    let y := ((s.thread t).gr (rb % 32)).toInt
    let gives := fun (z : Int) => (Host.Outcome.next ((s.issued t).endedNext t fun th => th.setG (rd % 32) (BitVec.ofInt 64 z)) :
      Host.Outcome State Fault Refusal)
    exec (.add t rd ra rb 0) s = gives (x + y) ∧ exec (.sub t rd ra rb 0) s = gives (x - y) ∧
    exec (.mul t rd ra rb 0) s = gives (x * y) ∧
    exec (.addi t rd ra imm 0) s = gives (x + (BitVec.ofNat 14 imm).toInt)) ∧
  ∀ (s : State) (t ra rb imm : Nat), s.canIssue t = true →
    exec (.add t 0 ra rb 0) s = .next ((s.issued t).endedNext t id) ∧
    exec (.sub t 0 ra rb 0) s = .next ((s.issued t).endedNext t id) ∧
    exec (.mul t 0 ra rb 0) s = .next ((s.issued t).endedNext t id) ∧
    exec (.addi t 0 ra imm 0) s = .next ((s.issued t).endedNext t id)

/-- The general and bank registers hold what is written to them, each alone; BK0 reads its constant and keeps nothing
written. -/
def Obligations.RegistersHoldWhatIsWritten : Prop :=
  ∀ (th : Thread) (r : Nat) (v : Word),
    th.setBank 0 v = th ∧ (th.setBank r v).bank 0 = 0xC000000000000000 ∧
    (r ≠ 0 → (th.setG r v).gr r = v) ∧ (∀ q, q ≠ r → (th.setG r v).gr q = th.gr q) ∧
    (r ≠ 0 → (th.setBank r v).bank r = v) ∧ (∀ q, q ≠ r → (th.setBank r v).bank q = th.bank q)

/-- BC, JR and JALR: where they go, what they link, and that a register target must be 4-byte aligned (R238). -/
def Obligations.BranchesAndJumps : Prop :=
  ∀ (s : State) (t : Nat), s.canIssue t = true →
    let th := s.thread t
    let taken := fun (s : State) =>
      (Upd.regs (coreReg Reg.CORE_CNT_TAKEN_BRANCH (coreOf t))
        (s.regsAt (coreReg Reg.CORE_CNT_TAKEN_BRANCH (coreOf t)) + 1)).apply s
    (∀ cond disp : Nat, (cond < 13 ∨ cond = 31) →
      ∃ b, condHolds cond th.flags = some b ∧
      exec (.bc t cond disp) s = .next (
        if b then (taken (s.issued t)).ended t (th.pc + ((BitVec.ofNat 21 disp).signExtend 48 <<< 2)) (fun th =>
          if cond = 31 then th.setG 31 ((th.pc + 4#48).setWidth 64) else th)
        else (s.issued t).endedNext t id)) ∧
    (∀ ra rd : Nat, (th.gr (ra % 32)).toNat % 4 = 0 →
      exec (.jr t ra 0) s = .next ((taken (s.issued t)).ended t ((th.gr (ra % 32)).setWidth 48) id) ∧
      exec (.jalr t rd ra 0) s = .next ((taken (s.issued t)).ended t ((th.gr (ra % 32)).setWidth 48) fun th =>
        th.setG (rd % 32) ((th.pc + 4#48).setWidth 64))) ∧
    (∀ ra rd : Nat, (th.gr (ra % 32)).toNat % 4 ≠ 0 → th.inHandler = false →
      exec (.jr t ra 0) s = .next ((s.issued t).trappedHere t causeAlign (th.gr (ra % 32))) ∧
      exec (.jalr t rd ra 0) s = .next ((s.issued t).trappedHere t causeAlign (th.gr (ra % 32))))

/-! ## Traps, bank and control registers -/

/-- Trap entry: TPC, TCAUSE, TVAL and TSTATE are written, the level and the pc change, and nothing else of the thread,
no other thread, no register of the space and no byte of memory does. -/
def Obligations.TrapEntrySavesStateAndVectors : Prop :=
  ∀ (s : State) (t c : Nat) (v : Word) (pc : Addr),
    let th := s.thread t
    let s' := s.trapped t c v pc
    let u := s'.thread t
    u.tpc = pc.setWidth 64 ∧ u.tcause = BitVec.ofNat 64 c ∧ u.tval = v ∧
    u.tstate = BitVec.ofNat 64 (th.priv + 4 * th.flags.toNat + 64) ∧
    u.priv = (if th.priv = 0 then 0 else 1) ∧
    u.pc = BitVec.ofNat 48 ((if th.priv = 0 then th.tvec0 else th.tvec1).toNat + c * 0x40) ∧
    u.flags = th.flags ∧ u.repc = th.repc ∧ u.g = th.g ∧ u.bk = th.bk ∧ u.evf = th.evf ∧ u.journal = th.journal ∧
    u.act = th.act ∧ (∀ x, x ≠ t → s'.thread x = s.thread x) ∧ s'.regs = s.regs ∧ s'.mem = s.mem ∧ s'.desk = s.desk

/-- TRAP enters the handler with the next address in TPC, whatever its reserved field holds (the model's choice:
notes/assumptions/54.md); a word that no instruction is assigned to raises UNDEF (that a TRAP carries it is the
model's choice: notes/assumptions/55.md); ERET at P0 and P1 restores pc, FLAGS and the level and clears INH; at P2 it
raises PRIV. A word of major 0x00 with a reserved bit set raises UNDEF with reason 0 and TVAL the word, and has no
other effect. -/
def Obligations.TrapsReturnsAndReservedBits : Prop :=
  (∀ (s : State) (t imm rsv : Nat), s.canIssue t = true →
    let th := s.thread t
    (th.inHandler = false →
      exec (.trap t imm rsv none) s =
        .next ((s.issued t).trapped t causeTrap (BitVec.ofNat 64 (imm % 2 ^ 14)) (th.pc + 4#48))) ∧
    (∀ w r, th.inHandler = false → unassigned w = some r → (r = 0 ∨ r = 1 ∧ w.testBit 1 = false) →
      exec (.trap t imm rsv (some w)) s =
        .next ((s.issued t).trappedHere t causeUndef (BitVec.ofNat 64 (w % 2 ^ 32 + r * 2 ^ 32)))) ∧
    (th.priv ≠ 2 →
      exec (.eret t 0) s = .next ((s.issued t).ended t (BitVec.ofNat 48 (th.tpc.toNat / 4 * 4)) fun th =>
        { th with flags := .ofNat (th.tstate.toNat / 4 % 16), tstate := th.tstate &&& ~~~0x40,
                  priv := if t % 8 = 0 then 0 else max th.priv (min 2 (th.tstate.toNat % 4)) })) ∧
    (th.priv = 2 → th.inHandler = false →
      exec (.eret t 0) s = .next ((s.issued t).trappedHere t causePriv (BitVec.ofNat 64 (wordI 0x28 0 0 1 0))))) ∧
  (∀ (op : Nat → Nat → Nat → Nat → Nat → Instr) (fn : Nat),
    (op, fn) ∈ ([(Instr.add, 0x00), (Instr.sub, 0x01), (Instr.and, 0x02), (Instr.or, 0x03), (Instr.xor, 0x04),
      (Instr.andn, 0x05), (Instr.sll, 0x06), (Instr.srl, 0x07), (Instr.sra, 0x08), (Instr.ror, 0x09), (Instr.mul, 0x0A),
      (Instr.mulhu, 0x0B), (Instr.mulhs, 0x0C), (Instr.minu, 0x0D), (Instr.maxu, 0x0E), (Instr.mins, 0x0F),
      (Instr.maxs, 0x10), (Instr.cmp, 0x11), (Instr.tst, 0x12), (Instr.sextb, 0x13), (Instr.sexth, 0x14),
      (Instr.sextw, 0x15), (Instr.clz, 0x16), (Instr.popc, 0x17), (Instr.bswap, 0x18), (Instr.selz, 0x19)] :
        List ((Nat → Nat → Nat → Nat → Nat → Instr) × Nat)) →
    ∀ (s : State) (t rd ra rb rsv : Nat), s.canIssue t = true → (s.thread t).inHandler = false → rsv % 32 ≠ 0 →
      exec (op t rd ra rb rsv) s = .next ((s.issued t).trappedHere t causeUndef
        (BitVec.ofNat 64 (wordA 0x00 rd ra rb (rsv % 32 * 64 + fn) % 2 ^ 32))))

/-- BKLD, BKRD, CRD and CWR: BKLD loads BK1 to BK7 at P0 and, elsewhere, where some byte of the window lies within the
rights, and raises BANK otherwise; BKLD to BK0 raises UNDEF; CRD and CWR act as the table of control registers allows
the level, raise PRIV where it allows neither reading nor writing, and UNDEF for a number that is not in it; TIMER is
armed on the thread's delay list, or cancelled. -/
def Obligations.BankAndControlRegisters : Prop :=
  ∀ (s : State) (t : Nat), s.canIssue t = true →
    let th := s.thread t
    (∀ bk ra, bk < 8 → bk ≠ 0 →
      let v := th.gr (ra % 32)
      let ok := th.priv = 0 ∨ (s.issued t).windowRight t th.priv (v.toNat / 2 ^ 18 % 2 ^ 30 * 2 ^ 18) = true
      (ok → exec (.bkld t bk ra 0) s = .next ((s.issued t).endedNext t fun th => th.setBank bk (bankOf v))) ∧
      (¬ok → th.inHandler = false → exec (.bkld t bk ra 0) s = .next ((s.issued t).trappedHere t causeBank v))) ∧
    (∀ ra, th.inHandler = false → exec (.bkld t 0 ra 0) s =
      .next ((s.issued t).trappedHere t causeUndef (BitVec.ofNat 64 (wordA 0x0C 0 ra 0 0 % 2 ^ 32)))) ∧
    (∀ rd bk, bk < 8 → exec (.bkrd t rd bk 0) s = .next ((s.issued t).endedNext t fun th => th.setG (rd % 32) (th.bank bk))) ∧
    (∀ rd num w, num < 2 ^ 14 → crAccess num th.priv = some (true, w) →
      exec (.crd t rd num 0) s =
        .next ((s.issued t).endedNext t fun th => th.setG (rd % 32) ((s.issued t).crRead t num))) ∧
    (∀ rd num r, num < 2 ^ 14 → num ≠ 6 → crAccess num th.priv = some (r, true) →
      exec (.cwr t rd num 0) s = .next ((s.issued t).endedNext t fun th => th.crWrite num (th.gr (rd % 32)))) ∧
    (∀ rd, let d := (th.gr (rd % 32)).toNat % 2 ^ 32
      ∃ u, exec (.cwr t rd 6 0) s = .next u ∧ (u.thread t).pc = th.pc + 4#48 ∧ (u.thread t).g = th.g ∧ u.mem = s.mem ∧
        (d = 0 → (u.thread t).timer = none) ∧
        (d ≠ 0 → th.timer = none → s.dlyFree ≠ 0 → ∃ i h, (u.thread t).timer = some (i + 2 ^ 24 * h) ∧
          (u.delayAt i).arm = some ⟨s.timerList t, s.monoNs / 1000 + d, .thread t⟩)) ∧
    (∀ rd num, num < 2 ^ 14 → crAccess num th.priv = some (true, false) →
      exec (.cwr t rd num 0) s = .next ((s.issued t).endedNext t id)) ∧
    (∀ rd num, num < 2 ^ 14 → crAccess num th.priv = some (false, true) →
      ∃ u, exec (.crd t rd num 0) s = .next u ∧ (u.thread t).pc = th.pc + 4#48 ∧ u.mem = s.mem ∧
        ∀ q, q ≠ rd % 32 → (u.thread t).gr q = th.gr q) ∧
    (∀ rd num, num < 2 ^ 14 → crAccess num th.priv = none → th.inHandler = false →
      exec (.crd t rd num 0) s =
        .next ((s.issued t).trappedHere t causeUndef (BitVec.ofNat 64 (wordI 0x0D rd 0 0 num % 2 ^ 32))) ∧
      exec (.cwr t rd num 0) s =
        .next ((s.issued t).trappedHere t causeUndef (BitVec.ofNat 64 (wordI 0x0D rd 0 1 num % 2 ^ 32)))) ∧
    (∀ rd num, num < 2 ^ 14 → crAccess num th.priv = some (false, false) → th.inHandler = false →
      exec (.crd t rd num 0) s =
        .next ((s.issued t).trappedHere t causePriv (BitVec.ofNat 64 (wordI 0x0D rd 0 0 num))) ∧
      exec (.cwr t rd num 0) s =
        .next ((s.issued t).trappedHere t causePriv (BitVec.ofNat 64 (wordI 0x0D rd 0 1 num))))

/-! ## Loads, stores and copies -/

/-- The loads of format M: each reads the address that BASE of its bank makes with short, BK[bank][47:18] before
short[17:0], and raises BANK where the bank is not VALID (R227). What then becomes of the load, LoadsWell says (R230,
R231, R236): that a load of DRAM always waits for LOAD_RETURN, and that one of a Street below L0 wakes it, is the
model's reading (notes/assumptions/65.md, notes/assumptions/66.md). The stores of format M, at the same addresses
(R227). What becomes of the store, StoresWell says (R230, R231, R236), before INIT_DONE too, where it waits (the
model's reading: notes/assumptions/153.md). -/
def Obligations.MFormatLoadsAndStores : Prop :=
  (∀ (op : Nat → Nat → Nat → Nat → Instr) (n : Nat),
    (op, n) ∈ ([(Instr.ld, 8), (Instr.lw, 4), (Instr.lh, 2), (Instr.lb, 1)] :
      List ((Nat → Nat → Nat → Nat → Instr) × Nat)) →
    ∀ (s : State) (t rd bank short : Nat), s.canIssue t = true → bank < 8 →
      let w := (s.thread t).bank bank
      (w.msb = true → (s.issued t).LoadsWell t (exec (op t rd bank short) s) (rd % 32) n bank
        (some ⟨w.getLsbD 62, (w.extractLsb 47 18 ++ BitVec.ofNat 18 short).toNat⟩)) ∧
      (w.msb = false → (s.thread t).inHandler = false →
        exec (op t rd bank short) s = .next ((s.issued t).trappedHere t causeBank (BitVec.ofNat 64 bank)))) ∧
  (∀ (op : Nat → Nat → Nat → Nat → Instr) (n : Nat),
    (op, n) ∈ ([(Instr.sd, 8), (Instr.sw, 4), (Instr.sh, 2), (Instr.sb, 1)] :
      List ((Nat → Nat → Nat → Nat → Instr) × Nat)) →
    ∀ (s : State) (t rd bank short : Nat), s.canIssue t = true → bank < 8 →
      let w := (s.thread t).bank bank
      (w.msb = true → (s.issued t).StoresWell t (exec (op t rd bank short) s) n bank
        (some ⟨w.getLsbD 62, (w.extractLsb 47 18 ++ BitVec.ofNat 18 short).toNat⟩) ((s.thread t).gr (rd % 32))) ∧
      (w.msb = false → (s.thread t).inHandler = false →
        exec (op t rd bank short) s = .next ((s.issued t).trappedHere t causeBank (BitVec.ofNat 64 bank))))

/-- The loads and stores of format X: the address is the offset of the banked pointer moved by the signed displacement
within the bank's window. LoadsWell and StoresWell say what becomes of them: that a load of DRAM waits for
LOAD_RETURN, that an access wakes a Street, and that a store before INIT_DONE waits, is the model's reading
(notes/assumptions/65.md, notes/assumptions/66.md, notes/assumptions/153.md). -/
def Obligations.XFormatLoadsAndStores : Prop :=
  (∀ (op : Nat → Nat → Nat → Nat → Instr) (n : Nat),
    (op, n) ∈ ([(Instr.ldx, 8), (Instr.lwx, 4), (Instr.lhx, 2), (Instr.lbx, 1)] :
      List ((Nat → Nat → Nat → Nat → Instr) × Nat)) →
    ∀ (s : State) (t rd rb off : Nat), s.canIssue t = true →
      let p := (s.thread t).gr (rb % 32)
      (s.issued t).LoadsWell t (exec (op t rd rb off) s) (rd % 32) n (ptrBank p) ((s.thread t).ptrEa p (disp16 off))) ∧
  (∀ (op : Nat → Nat → Nat → Nat → Instr) (n : Nat),
    (op, n) ∈ ([(Instr.sdx, 8), (Instr.swx, 4), (Instr.shx, 2), (Instr.sbx, 1)] :
      List ((Nat → Nat → Nat → Nat → Instr) × Nat)) →
    ∀ (s : State) (t rd rb off : Nat), s.canIssue t = true →
      let p := (s.thread t).gr (rb % 32)
      (s.issued t).StoresWell t (exec (op t rd rb off) s) n (ptrBank p) ((s.thread t).ptrEa p (disp16 off))
        ((s.thread t).gr (rd % 32))) ∧
  ∀ (th : Thread) (p : Word) (off : Nat), off < 2 ^ 16 → (th.bank (p.extractLsb 20 18).toNat).msb = true →
    let w := th.bank (p.extractLsb 20 18).toNat
    th.ptrEa p (disp16 off) = some ⟨w.getLsbD 62,
      (w.extractLsb 47 18 ++ (p.setWidth 18 + (BitVec.ofNat 16 off).signExtend 18)).toNat⟩

/-- CPX moves what a load reads to where a store puts it and advances both pointers; CAS on Square memory reads,
compares and stores. That CPX with rd equal to rb advances the register once is the model's choice
(notes/assumptions/63.md). A releasing instruction of a thread with a store through the remote window outstanding
stands before itself until the other device has the store (R260, the model's reading: notes/assumptions/150.md). -/
def Obligations.CopyAndCompareSwap : Prop :=
  (∀ (s : State) (t : Nat), s.canIssue t = true →
    let th := s.thread t
    let s1 := s.issued t
    (∀ rd rb size a d, size < 4 →
      let n := cpxSize size
      let src := th.gr (rb % 32)
      let dst := th.gr (rd % 32)
      th.ptrEa src 0 = some a → th.ptrEa dst 0 = some d →
      s1.accessTrap t false n (ptrBank src) (some a) = none → s1.accessTrap t true n (ptrBank dst) (some d) = none →
      s1.right t th.priv false a = true → (a.desk ∨ s1.region a.addr = .square) → s1.eaBad a n = false →
      let v := ofLeBytes (s1.eaBytes t a n)
      let adv := fun (th : Thread) => (th.setG (rd % 32) (ptrAdvance (th.gr (rd % 32)) n)).setG (rb % 32)
        (ptrAdvance (th.gr (rb % 32)) n)
      (s1.right t th.priv true d = false → exec (.cpx t rd rb size 0) s = .next (s1.endedNext t adv)) ∧
      (∀ k, s1.right t th.priv true d = true → d.desk = true → deskKey t d.addr = some k →
        ∃ u, exec (.cpx t rd rb size 0) s = .next u ∧ u.mem = s.mem ∧
          u.thread t = (adv th).finish (th.pcPlus 4) (s.openPacket t) ∧
          (∀ j, j < n → u.deskAt (k + j) = BitVec.ofNat 8 (v % 2 ^ 64 / 2 ^ (8 * j))) ∧
          ∀ x, (x < k ∨ k + n ≤ x) → u.deskAt x = s.deskAt x)) ∧
    (∀ rd ra rb a, s.storesOut t = false →
      th.ptrEa (th.gr (ra % 32)) 0 = some a → s1.casTrap t (ptrBank (th.gr (ra % 32))) (some a) = none →
      s1.region a.addr = .square →
      (s1.casRight t a = false → exec (.cas t rd ra rb 0) s = .next (s1.endedNext t fun th =>
        { th.setG (rd % 32) 0 with flags := { th.flags with z := false } })) ∧
      (s1.casRight t a = true → s1.eaBad a 8 = false →
        let old := BitVec.ofNat 64 (ofLeBytes (s1.eaBytes t a 8))
        let eq := old == th.gr (rd % 32)
        ∃ u, exec (.cas t rd ra rb 0) s = .next u ∧ u.desk = s.desk ∧
          u.thread t = ({ th.setG (rd % 32) old with flags := { th.flags with z := eq } } : Thread).finish
            (th.pcPlus 4) (s.openPacket t) ∧
          ∀ x, u.memAt x = if eq = true ∧ a.addr ≤ x ∧ x < a.addr + 8 then
            BitVec.ofNat 8 ((th.gr (rb % 32)).toNat / 2 ^ (8 * (x - a.addr))) else s.memAt x))) ∧
  (∀ (s : State) (t ra rb rd x rsv : Nat) (e : Bool), s.storesOut t = true →
    ∀ i ∈ [Instr.setev t ra x rsv, .chwr t ra rb e rsv, .chwrx t ra rb e rsv, .hprel t ra rsv, .cas t rd ra rb rsv, .jout t ra rsv,
      .retire t rd rsv], exec i s = .next s)

/-! ## Events, work and the repeat prefix -/

/-- WAITEV and WAITEV.C return the flags of the mask at once or wait; FLAG_WAKE lets a waiting thread return; SETEV
sets the flag of a thread it may set it of, and is ignored otherwise. -/
def Obligations.EventsAreWaitedForAndSet : Prop :=
  (∀ (s : State) (t rd ra flag : Nat), s.canIssue t = true →
    let th := s.thread t
    let mask : BitVec 32 := (th.gr (ra % 32)).setWidth 32
    let ev := th.evf &&& (if t % 8 = 0 then mask ||| 1 else mask)
    (ev ≠ 0 →
      exec (.waitev t rd ra 0) s = .next ((s.issued t).endedNext t fun th => th.setG (rd % 32) (ev.setWidth 64)) ∧
      exec (.waitevC t rd ra 0) s = .next ((s.issued t).endedNext t fun th =>
        { th.setG (rd % 32) (ev.setWidth 64) with evf := th.evf &&& ~~~(ev &&& ~~~0x20) })) ∧
    (ev = 0 →
      exec (.waitev t rd ra 0) s = .next ((s.issued t).waits t (.event (rd % 32) mask false)) ∧
      exec (.waitevC t rd ra 0) s = .next ((s.issued t).waits t (.event (rd % 32) mask true))) ∧
    (s.storesOut t = false → flag < 32 →
     let d := (th.gr (ra % 32)).toNat % 1024
     if d < 768 ∧ 8 ≤ flag ∧ (th.priv = 0 ∨ ((s.boundTo t).isSome = true ∧ s.boundTo d = s.boundTo t)) then
       exec (.setev t ra flag 0) s = .next (((Upd.threads d { s.thread d with
         evf := (s.thread d).evf ||| BitVec.ofNat 32 (2 ^ flag) }).apply (s.issued t)).endedNext t id)
     else exec (.setev t ra flag 0) s = .next ((s.issued t).endedNext t id))) ∧
  ∀ (s : State) (t r : Nat) (mask : BitVec 32) (clear : Bool),
    let th := s.thread t
    let ev := th.evf &&& (if t % 8 = 0 then mask ||| 1 else mask)
    th.state = .waiting → th.wait = .event r mask clear → s.threadRuns t = true → s.streetUp (streetOf t) = true → ev ≠ 0 →
      ∃ u, exec (.flagWake t) s = .next u ∧ u.mem = s.mem ∧ u.desk = s.desk ∧
        u.thread t = ({ th.setG r (ev.setWidth 64) with
          evf := if clear then th.evf &&& ~~~(ev &&& ~~~0x20) else th.evf } : Thread).finish (th.pcPlus 4) (s.openPacket t)

/-- GETWORK returns a pending event without clearing it; else it starts the activation it is given at the address of
its ENTRY in the thread code of its Term, at P2 with FLAGS, REPC, the bank registers and the journal empty, ENTRY in
rd and the activation block at desk offset 0xFF80, or waits for the copy of its saved state; or it blocks; with an
activation in hand it raises UNDEF with reason 5. The order in which seats and ready lists are asked is R160's and
R162's; that the copy has an end of its own is the model's choice (notes/assumptions/47.md). -/
def Obligations.GetworkReturnsEventsAndActivations : Prop :=
  ∀ (s : State) (t rd ra : Nat), s.canIssue t = true →
    let th := s.thread t
    let mask : BitVec 32 := (th.gr (ra % 32)).setWidth 32
    let ev := th.evf &&& (if t % 8 = 0 then mask ||| 1 else mask)
    let seek : Thread := { th with home := th.pc, wmask := mask, wrd := rd % 32 }
    let work := ((Upd.threads t seek).apply (s.issued t)).workNext t
    (th.act = none → ev ≠ 0 →
      ∃ u, exec (.getwork t rd ra 0) s = .next u ∧ u.acts = s.acts ∧ u.mem = s.mem ∧ u.desk = s.desk ∧
        u.thread t = (seek.setG (rd % 32) (BitVec.ofNat 64 (2 ^ 63 + ev.toNat))).finish (th.pcPlus 4) (s.openPacket t) ∧
        ∀ x, x ≠ t → u.thread x = s.thread x) ∧
    (∀ i a, th.act = none → ev = 0 → th.preempt = none → work = some i → s.actsAt i = some a → a.saved = none →
      let term := s.termsAt (s.ctx a.ctx).msg.term
      ∃ u, exec (.getwork t rd ra 0) s = .next u ∧ (u.thread t).act = some i ∧ (u.thread t).priv = 2 ∧
        (u.thread t).flags = ⟨false, false, false, false⟩ ∧ (u.thread t).repc = 0 ∧ (u.thread t).bk = [] ∧
        (u.thread t).journal = .empty ∧ (rd % 32 ≠ 0 → (u.thread t).gr (rd % 32) = BitVec.ofNat 64 (2 ^ 62 + a.entry)) ∧
        (u.thread t).pc = BitVec.ofNat 48 (term.base + term.codeOff + s.leMem (term.base + term.entryOff + 4 * a.entry) 4) ∧
        u.BlockHolds s t i a ∧ u.actsAt i = some { a with place := .running }) ∧
    (∀ i a, th.act = none → ev = 0 → th.preempt = none → work = some i → s.actsAt i = some a → a.saved.isSome = true →
      ∃ u, exec (.getwork t rd ra 0) s = .next u ∧ (u.thread t).act = some i ∧ (u.thread t).state = .waiting ∧
        (u.thread t).wait = .copy i ∧ u.BlockHolds s t i a ∧ u.actsAt i = some { a with place := .running }) ∧
    (th.act = none → ev = 0 → th.haltPending = false → work = none →
      ∃ u, exec (.getwork t rd ra 0) s = .next u ∧ (u.thread t).state = .idle ∧ (u.thread t).home = th.pc ∧
        (u.thread t).pc = th.pc ∧ u.sq.blocked = s.sq.blocked.filter (· != t) ++ [t] ∧ u.mem = s.mem ∧ u.desk = s.desk) ∧
    (th.act.isSome = true → th.inHandler = false →
      exec (.getwork t rd ra 0) s = .next ((s.issued t).trappedHere t causeUndef
        (BitVec.ofNat 64 (wordA 0x24 rd ra 0 0 % 2 ^ 32 + 5 * 2 ^ 32))))

/-- A REP whose follower is SDX into the private page runs it once per repetition: the pointer ends 8 bytes further
for each, the register's bytes stand in every place, REPC is 0 and the pc stands behind the follower. A REP whose
follower is not marked Rep traps with the count in TVAL. -/
def Obligations.RepRunsItsFollower : Prop :=
  (∀ (s : State) (t rd rb n a : Nat), s.canIssue t = true → s.mayFetch t ((s.thread t).pc + 4#48).toNat = true →
    let th := s.thread t
    let ptr := fun (j : Nat) => Nat.repeat (fun p => ptrAdvance p 8) j (th.gr (rb % 32))
    th.repc = 0 → th.preempt = none → 1 ≤ n → n ≤ 256 → rb % 32 ≠ 0 → rd % 32 ≠ rb % 32 →
    a % 8 = 0 → 0xFC00 ≤ a → a + 8 * n ≤ 0x10000 →
    (∀ j, j < n → th.ptrEa (ptr j) 0 = some ⟨true, a + 8 * j⟩ ∧
      s.accessTrap t true 8 (ptrBank (ptr j)) (some ⟨true, a + 8 * j⟩) = none) →
    ∃ u k, exec (.rep t false false 0 (n - 1) 0 (.sdx rd rb 0) none) s = .next u ∧ deskKey t a = some k ∧ u.mem = s.mem ∧
      (u.thread t).repc = 0 ∧ (u.thread t).pc = th.pc + 8#48 ∧ (u.thread t).gr (rb % 32) = ptr n ∧
      (∀ j i, j < n → i < 8 → u.deskAt (k + 8 * j + i) = BitVec.ofNat 8 ((th.gr (rd % 32)).toNat / 2 ^ (8 * i))) ∧
      ∀ x, (x < k ∨ k + 8 * n ≤ x) → u.deskAt x = s.deskAt x) ∧
  ∀ (s : State) (t count : Nat) (i : Bool), s.canIssue t = true →
    s.mayFetch t ((s.thread t).pc + 4#48).toNat = true → (s.thread t).repc = 0 → (s.thread t).preempt = none →
    count < 2 ^ 16 → (s.thread t).inHandler = false →
    exec (.rep t i false 0 count 0 .other none) s =
      .next ((s.issued t).trappedHere t causeRep (BitVec.ofNat 64 (count + 1)))

/-! ## The journal -/

/-- TOKEN, JWR and JOUT stage into the journal of the thread's activation, or mark it overflowed at the limits; what
JWR and JOUT copy of DRAM or of the host's memory they wait for, word by word of 8 bytes, and LOAD_RETURN ends the
wait (that a staging instruction copies a word at a time is the model's choice: notes/assumptions/57.md); without an
activation each of the five instructions raises UNDEF with reason 5. RETIRE seals the journal of a current activation
and answers 0, or answers 1 for one whose context has gone on and 2 for an overflowed journal, whose context goes to
the abandon path. ABANDON 0 below RERUN_MAX puts the activation back at the head of its list with RERUN set, to run
again from its entry; ABANDON 1, and ABANDON 0 at RERUN_MAX (that it then acts as ABANDON 1 does is the model's
choice: notes/assumptions/59.md), frees it and hands its context to the abandon path. -/
def Obligations.TheJournalStagesAndIsEnded : Prop :=
  (∀ (s : State) (t ra rb : Nat), s.canIssue t = true →
    let th := s.thread t
    let s1 := s.issued t
    let p := th.gr (ra % 32)
    let stage := fun (f : Journal → Journal) =>
      (Host.Outcome.next (s1.endedNext t fun th => { th with journal := f th.journal }) : Host.Outcome State Fault Refusal)
    (∀ i a, th.act = some i → s.actsAt i = some a →
      let w := (th.gr (rb % 32)).toNat
      exec (.token t ra rb 0) s = stage fun j =>
        if j.tokens.length < 16 then
          { j with tokens := j.tokens ++ [⟨w % 2 ^ 12, w / 2 ^ 12 % 4, w.testBit 14,
              if w.testBit 22 then w / 2 ^ 16 % 64 else tagIter a.tag, p⟩] }
        else { j with overflowed := true }) ∧
    (∀ i es, th.act = some i → th.ptrBytes p 32 = some es → (es.headD ⟨false, 0⟩).addr % 8 = 0 →
      s1.anyUnreadable t es = none → (∀ e ∈ es, e.desk = true ∨ s.region e.addr = .square) →
      let bs := es.map (s1.eaByte t)
      (s.storesOut t = false → exec (.jout t ra 0) s = stage fun j =>
        if j.outs.length < 4 then
          { j with outs := j.outs ++ [⟨leAt bs 0 4, leAt bs 4 2, leAt bs 8 4, leAt bs 12 4, leAt bs 16 1, leAt bs 17 1 % 16,
              leAt bs 18 2, leAt bs 20 2⟩] }
        else { j with overflowed := true }) ∧
      ∀ fs, th.ptrBytes (ptrAdvance p 32) (s1.putLen t bs) = some fs → (fs.headD ⟨false, 0⟩).addr % 8 = 0 →
        s1.anyUnreadable t fs = none → (∀ e ∈ fs, e.desk = true ∨ s.region e.addr = .square) →
        let cs := bs ++ fs.map (s1.eaByte t)
        exec (.jwr t ra 0) s = stage fun j =>
          if j.writes.length < 32 then
            { j with writes := j.writes ++ [⟨leAt cs 0 1 % 64, leAt cs 1 1, leAt cs 2 1, leAt cs 8 16,
                BitVec.ofNat 64 (leAt cs 24 8), cs.drop 32⟩] }
          else { j with overflowed := true }) ∧
    (∀ i es a, th.act = some i → th.ptrBytes p 32 = some es → es.head? = some ⟨false, a⟩ → a % 8 = 0 →
      s1.anyUnreadable t (es.take 8) = none → s1.right t th.priv false ⟨false, a⟩ = true →
      (s.region a = .dram ∨ s.region a = .host) →
      let waits := fun (c : Instr) (out : Bool) => ∃ u, exec c s = .next u ∧ (u.thread t).state = .waiting ∧
        (u.thread t).wait = .staging out p 32 none [] (BitVec.ofNat 48 a) ∧ (u.thread t).journal = th.journal ∧
        (u.thread t).act = some i ∧ (u.thread t).pc = th.pc ∧ u.mem = s.mem ∧ u.desk = s.desk ∧
        (s.region a = .host → u.outbox = .hostRead ((s.boundTo t).map s.pasidOf) (a - 0x040000000000) 8 :: s.outbox)
      waits (.jwr t ra 0) false ∧ (s.storesOut t = false → waits (.jout t ra 0) true)) ∧
    (∀ es a got, s.threadRuns t = true → th.waiting = true →
      th.wait = .staging true p 32 none got (BitVec.ofNat 48 a) → a < 2 ^ 48 → s.region a = .dram → got.length = 24 →
      th.ptrBytes p 32 = some es → s.readLate t = false → s.answered (coreOf t) (linesOf a 8) = true →
      s.anyUnreadable t (es.drop 24) = none → es.length = 32 → th.journal.outs.length < 4 →
      let bs := got ++ (es.drop 24).map (s.eaByte t)
      exec (.loadReturn t none) s = .next (s.endedNext t fun th => { th with journal := { th.journal with
        outs := th.journal.outs ++ [⟨leAt bs 0 4, leAt bs 4 2, leAt bs 8 4, leAt bs 12 4, leAt bs 16 1, leAt bs 17 1 % 16,
          leAt bs 18 2, leAt bs 20 2⟩] } })) ∧
    (th.act = none → th.inHandler = false → ∀ rd mode, mode < 2 →
      let undef5 := fun (w : Nat) => (Host.Outcome.next (s1.trappedHere t causeUndef
        (BitVec.ofNat 64 (w % 2 ^ 32 + 5 * 2 ^ 32))) : Host.Outcome State Fault Refusal)
      exec (.token t ra rb 0) s = undef5 (wordA 0x25 0 ra rb 0) ∧ exec (.jwr t ra 0) s = undef5 (wordA 0x25 0 ra 0 1) ∧
      (s.storesOut t = false → exec (.jout t ra 0) s = undef5 (wordA 0x25 0 ra 0 2) ∧
        exec (.retire t rd 0) s = undef5 (wordA 0x25 rd 0 0 3)) ∧
      exec (.abandon t mode 0) s = undef5 (wordA 0x25 0 0 0 (mode * 16 + 4)))) ∧
  (∀ (s : State) (t rd i : Nat) (a : Act), s.canIssue t = true → (s.thread t).act = some i → s.actsAt i = some a →
    let th := s.thread t
    let c := s.ctx a.ctx
    let current := c.cgen = a.cgen ∧ c.clgen = s.clgen c.msg.classroom ∧ c.state ≠ .free ∧ c.state ≠ .abandoning
    (s.storesOut t = false → ∃ u r, exec (.retire t rd 0) s = .next u ∧ (u.thread t).act = none ∧ (u.thread t).journal = .empty ∧
      (u.thread t).pc = th.pc + 4#48 ∧ (c.inDram = false → u.mem = s.mem) ∧ u.desk = s.desk ∧
      (rd % 32 ≠ 0 → (u.thread t).gr (rd % 32) = r) ∧
      (current → th.journal.overflowed = false → r = 0 ∧
        u.actsAt i = some { a with place := .retiring, sealed := some (th.journal, s.timeNs, c.order) }) ∧
      (¬current → r = 1 ∧ u.actsAt i = none) ∧
      (current → th.journal.overflowed = true → r = 2 ∧ u.actsAt i = none ∧ (a.ctx, a.cgen) ∈ u.rc.toAbandon)) ∧
    let live := c.cgen = a.cgen ∧ c.state ≠ .free
    (∀ mode, mode = 1 ∨ mode = 0 ∧ s.rerunMax ≤ a.reruns →
      ∃ u, exec (.abandon t mode 0) s = .next u ∧ (u.thread t).journal = .empty ∧ u.actsAt i = none ∧
        (live → (a.ctx, a.cgen) ∈ u.rc.toAbandon) ∧
        u.regsAt Reg.SQ_CNT_ABANDON_DROP = s.regsAt Reg.SQ_CNT_ABANDON_DROP + 1) ∧
    (a.reruns < s.rerunMax → ∃ u, exec (.abandon t 0 0) s = .next u ∧ (u.thread t).journal = .empty ∧
      u.regsAt Reg.SQ_CNT_ABANDON_RERUN = s.regsAt Reg.SQ_CNT_ABANDON_RERUN + 1 ∧
      let again := fun (p : ActPlace) => { a with rerun := true, reruns := min 65535 (a.reruns + 1), place := p, saved := none }
      (live → c.state ≠ .abandoning →
        ((u.thread t).act = some i ∧ u.actsAt i = some (again .running) ∨ u.actsAt i = some (again .ready))) ∧
      (live → c.state ≠ .abandoning → th.evf &&& waitMask t th.wmask ≠ 0 →
        u.actsAt i = some (again .ready) ∧
        if c.msg.cls = 0 then u.sq.bypass = i :: s.sq.bypass
        else u.readyAt (c.msg.classroom * 8 + c.msg.cls) = i :: s.readyAt (c.msg.classroom * 8 + c.msg.cls))))

/-! ## Channels, locks and pools -/

/-- Writing a channel: the word goes behind the last one with its marks, its bytes to the channel's slot in Square
memory; a writer waits while the packet of another thread is open, and CHANNEL_WRITE_RESUME then writes its word to
the next slot. CHWRX moves the word a load reads to the channel and advances its pointer by 8. CHRD and CHRD.NB take
the oldest word with its marks in Z and S; an empty channel makes CHRD wait and CHRD.NB answer 0 with U set;
CHANNEL_READ_RESUME completes a CHRD that waits; CHANNEL_TAIL_TIMEOUT marks a channel left unread. -/
def Obligations.ChannelsCarryWordsInOrder : Prop :=
  ((∀ (s : State) (t ra rb : Nat) (e : Bool), s.canIssue t = true → s.storesOut t = false →
    let th := s.thread t
    let w := th.gr (ra % 32)
    let n := (th.gr (rb % 32)).toNat % 4096
    let c := s.chansAt n
    let slot := squareBase + s.fld Reg.CH_GEOM Fld.CH_GEOM_BASE * 8 + n * 8 * s.chDepth +
      (c.head + c.marks.length) % s.chDepth * 8
    (s.issued t).chAllowed t n = true → th.discard.contains n = false →
    ((c.writer = some t ∨ (c.writer = none ∧ c.waiters = [])) → c.marks.length < s.chDepth - 1 →
      ∃ u, exec (.chwr t ra rb e 0) s = .next u ∧ (u.chansAt n).marks = c.marks ++ [(e, false)] ∧
        (u.chansAt n).writer = (if e then none else some t) ∧
        (u.chansAt n).packets = (if e then c.packets + 1 else c.packets) ∧ (u.thread t).pc = th.pc + 4#48 ∧
        (u.thread t).g = th.g ∧ u.desk = s.desk ∧
        ∀ x, u.memAt x = if slot ≤ x ∧ x < slot + 8 then BitVec.ofNat 8 (w.toNat / 2 ^ (8 * (x - slot))) else s.memAt x) ∧
    (c.writer = none → c.waiters = [] → s.chDepth - 1 ≤ c.marks.length →
      ∃ u, exec (.chwr t ra rb e 0) s = .next u ∧ (u.chansAt n).marks = c.marks ∧ u.mem = s.mem ∧
        u.fld (Reg.CH n) Fld.CH_OVERRUN = 1 ∧ (u.thread t).pc = th.pc + 4#48) ∧
    (∀ x, c.writer = some x → x ≠ t →
      ∃ u, exec (.chwr t ra rb e 0) s = .next u ∧ (u.thread t).state = .waiting ∧
        (u.thread t).wait = .chWrite n w e none none ∧ t ∈ (u.chansAt n).waiters ∧ (u.chansAt n).marks = c.marks ∧
        u.mem = s.mem)) ∧
  ∀ (s : State) (t n : Nat) (w : Word) (e : Bool),
    let th := s.thread t
    let c := s.chansAt n
    th.waiting = true → th.wait = .chWrite n w e none none → s.chAllowed t n = true → th.discard.contains n = false →
    c.writer = none → (c.waiters = [] ∨ c.waiters.head? = some t) → c.marks.length < s.chDepth - 1 →
      ∃ u, exec (.channelWriteResume t) s = .next u ∧ (u.chansAt n).marks = c.marks ++ [(e, false)] ∧
        (u.thread t).pc = th.pc + 4#48 ∧ (u.thread t).wait = .none ∧ u.desk = s.desk ∧
        let slot := s.chSlot n (c.head + c.marks.length)
        ∀ x, u.memAt x = if slot ≤ x ∧ x < slot + 8 then BitVec.ofNat 8 (w.toNat / 2 ^ (8 * (x - slot))) else s.memAt x) ∧
  (∀ (s : State) (t ra rb : Nat) (e : Bool) (a : Ea), s.canIssue t = true → s.storesOut t = false → ra % 32 ≠ 0 →
    let th := s.thread t
    let s1 := s.issued t
    let p := th.gr (ra % 32)
    let n := (th.gr (rb % 32)).toNat % 4096
    let c := s.chansAt n
    th.ptrEa p 0 = some a → s1.accessTrap t false 8 (ptrBank p) (some a) = none → s1.right t th.priv false a = true →
    a.desk = true → s1.chAllowed t n = true → th.discard.contains n = false → c.writer = none → c.waiters = [] →
    c.marks.length < s.chDepth - 1 →
    let w := BitVec.ofNat 64 (ofLeBytes (s1.eaBytes t a 8))
    ∃ u, exec (.chwrx t ra rb e 0) s = .next u ∧ (u.chansAt n).marks = c.marks ++ [(e, false)] ∧
      (u.thread t).pc = th.pc + 4#48 ∧ (u.thread t).gr (ra % 32) = ptrAdvance p 8 ∧
      u.leMem (s.chSlot n (c.head + c.marks.length)) 8 = w.toNat) ∧
  ((∀ (s : State) (t rd rb : Nat), s.canIssue t = true →
    let th := s.thread t
    let n := (th.gr (rb % 32)).toNat % 4096
    let c := s.chansAt n
    (∀ e a rest, (s.issued t).chAllowed t n = true → c.marks = (e, a) :: rest →
      ∀ i ∈ [Instr.chrd t rd rb 0, Instr.chrdNb t rd rb 0],
      ∃ u, exec i s = .next u ∧ u.mem = s.mem ∧ u.desk = s.desk ∧ (u.chansAt n).marks = rest ∧
        (u.chansAt n).head = (c.head + 1) % s.chDepth ∧ (u.thread t).pc = th.pc + 4#48 ∧
        (u.thread t).flags = ⟨e, a, false, th.flags.hb⟩ ∧
        (rd % 32 ≠ 0 → (u.thread t).gr (rd % 32) = BitVec.ofNat 64 (s.leMem (s.chSlot n c.head) 8))) ∧
    (c.marks = [] →
      exec (.chrdNb t rd rb 0) s = .next ((s.issued t).endedNext t fun th =>
        { th.setG (rd % 32) 0 with flags := ⟨false, false, true, th.flags.hb⟩ }) ∧
      ((s.issued t).chAllowed t n = true →
        exec (.chrd t rd rb 0) s = .next ((s.issued t).waits t (.chRead (rd % 32) n))))) ∧
  (∀ (s : State) (t r n : Nat) (e a : Bool) (rest : List (Bool × Bool)),
    (s.thread t).waiting = true → (s.thread t).wait = .chRead r n → s.chAllowed t n = true →
    (s.chansAt n).marks = (e, a) :: rest →
      ∃ u, exec (.channelReadResume t) s = .next u ∧ (u.chansAt n).marks = rest ∧
        (u.thread t).pc = (s.thread t).pc + 4#48 ∧ (u.thread t).flags = ⟨e, a, false, (s.thread t).flags.hb⟩ ∧
        (r ≠ 0 → (u.thread t).gr r = BitVec.ofNat 64 (s.leMem (s.chSlot n (s.chansAt n).head) 8))) ∧
  ∀ (s : State) (n : Nat), n < 4096 → 2 ≤ s.mode → s.inForce (Reg.CH n) Fld.CH_TAIL ≠ 0 →
    (s.chansAt n).marks ≠ [] → (s.chansAt n).tailArmed = true →
      ∃ u, exec (.channelTailTimeout n) s = .next u ∧ u.fld (Reg.CH n) Fld.CH_TAIL_FIRED = 1 ∧
        (u.chansAt n).marks = (s.chansAt n).marks ∧ u.mem = s.mem ∧
        (s.inForce (Reg.CH n) Fld.CH_WATCH_EN = 1 → s.inForce (Reg.CH n) Fld.CH_WATCH < 768 →
          (u.thread (s.inForce (Reg.CH n) Fld.CH_WATCH)).flag evChannel = true))

/-- Hall Pass: a free lock is granted (1), a lock refused to the thread answers 0, a held one answers 3 to HPACQ.T,
makes HPACQ wait and HPACQ.E answer 4; HPREL frees the lock or passes it to the head of the line; LOCK_ORPHAN frees a
lock whose owner record is stale for the next request. -/
def Obligations.LocksAreGrantedQueuedAndReleased : Prop :=
  (∀ (s : State) (t rd ra form : Nat), s.canIssue t = true →
    let th := s.thread t
    let s1 := s.issued t
    let l := (th.gr (ra % 32)).toNat % 4096
    let k := s.locksAt l
    let i := fun (f : Nat) => if f = 1 then Instr.hpacq t rd ra 0 else if f = 2 then Instr.hpacqT t rd ra 0 else Instr.hpacqE t rd ra 0
    (s1.lockAllowed t l = false →
      ∃ u, exec (i form) s = .next u ∧ (rd % 32 ≠ 0 → (u.thread t).gr (rd % 32) = 0) ∧ u.locks = s.locks) ∧
    (s1.lockAllowed t l = true → k.owner = none → k.orphan = false → s.lockQueued t = false →
      ∃ u, exec (i form) s = .next u ∧ (rd % 32 ≠ 0 → (u.thread t).gr (rd % 32) = 1) ∧
        (u.locksAt l).owner = some (s1.ownerOf t false) ∧ (u.thread t).pc = th.pc + 4#48) ∧
    (∀ o, s1.lockAllowed t l = true → k.owner = some o → k.orphan = false → s.lockQueued t = false →
      s1.holdsLock t l = false →
      exec (i 2) s = .next (s1.endedNext t fun th => th.setG (rd % 32) 3) ∧
      (∃ u, exec (i 1) s = .next u ∧ (u.thread t).state = .waiting ∧ (u.thread t).wait = .lock (rd % 32) l ∧
        (u.locksAt l).owner = some o ∧ (u.locksAt l).waiters.any (·.thread = t) = true) ∧
      ∃ u, exec (i 3) s = .next u ∧ (rd % 32 ≠ 0 → (u.thread t).gr (rd % 32) = 4) ∧ (u.locksAt l).owner = some o ∧
        (u.locksAt l).waiters.any (·.thread = t) = true) ∧
    (s.storesOut t = false → s1.holdsLock t l = false → exec (.hprel t ra 0) s = .next (s1.endedNext t id)) ∧
    (s.storesOut t = false → s1.holdsLock t l = true → k.waiters = [] →
      ∃ u, exec (.hprel t ra 0) s = .next u ∧ u.locksAt l = ⟨none, false, [], false⟩ ∧ (u.thread t).pc = th.pc + 4#48) ∧
    (∀ w ws, s.storesOut t = false → s1.holdsLock t l = true → k.waiters = w :: ws → w.thread ≠ t → w.event = false →
      ∃ u, exec (.hprel t ra 0) s = .next u ∧ (u.locksAt l).waiters = ws ∧
        (u.locksAt l).owner.any (fun o => o.holder = .thread w.thread) = true ∧
        (w.rd ≠ 0 → (u.thread w.thread).gr w.rd = 1) ∧ (u.thread t).pc = th.pc + 4#48)) ∧
  ∀ (s : State) (l : Nat), l < 4096 → (s.locksAt l).orphan = false → (s.locksAt l).waiters = [] → s.lockStale l = true →
    ∃ u, exec (.lockOrphan l) s = .next u ∧ (u.locksAt l).orphan = true ∧ u.fld Reg.HP_EVENT Fld.HP_EVENT_ORPHANED = 1 ∧
      u.mem = s.mem

/-- LOAD_RETURN ends a load that waits, with the bytes its DRAM channel holds once all the lines it has asked for are
answered, or with what the host returns; a host read that ends with an error traps with BUS, a load of bytes that
cannot be corrected too. That the return is a command of its own is the model's choice (notes/assumptions/65.md). The
pool port page: ALLOC answers a handle or, with no buffer, bit 63; INFO says where the pool lies; ADD and DROP change
the reference count of a buffer of the classroom; a store to the vector page signals MSI-X. For whose classroom the
port acts, and that the accesses are loads and stores of the thread, is the model's reading (notes/assumptions/67.md,
notes/assumptions/68.md); that buffers never allocated before come in ascending order is its choice
(notes/assumptions/192.md). -/
def Obligations.LoadsReturnAndPagesOfTheSquareAct : Prop :=
  (∀ (s : State) (t r n a : Nat), s.threadRuns t = true → (s.thread t).waiting = true → a < 2 ^ 48 →
    (s.thread t).wait = .load r (BitVec.ofNat 48 a) n →
    let th := s.thread t
    s.readLate t = false →
    (∀ data, s.region a = .dram → s.answered (coreOf t) (linesOf a n) = true → s.eaBad ⟨false, a⟩ n = false →
      exec (.loadReturn t data) s = .next (s.endedNext t fun th => th.setG r
        (BitVec.ofNat 64 (ofLeBytes (s.eaBytes t ⟨false, a⟩ n))))) ∧
    (∀ v : Word, s.region a = .host →
      exec (.loadReturn t (some v)) s = .next (s.endedNext t fun th => th.setG r (BitVec.ofNat 64 (v.toNat % 2 ^ (8 * n))))) ∧
    (∀ data, s.region a = .dram → s.answered (coreOf t) (linesOf a n) = true → s.eaBad ⟨false, a⟩ n = true → th.inHandler = false →
      ∃ u, exec (.loadReturn t data) s = .next u ∧ (u.thread t).pc = th.vector causeBus ∧
        (u.thread t).tcause = BitVec.ofNat 64 causeBus ∧ (u.thread t).tval = BitVec.ofNat 64 a ∧
        (u.thread t).tpc = BitVec.ofNat 64 th.pc.toNat ∧ u.mem = s.mem) ∧
    (s.region a = .host → th.inHandler = false →
      exec (.loadReturn t none) s = .next (s.trappedHere t causeBus (BitVec.ofNat 64 a)))) ∧
  (∀ (s : State) (t rd c p : Nat) (h : Word), s.canIssue t = true → c < 64 → p < 16 → (s.thread t).priv = 1 →
    s.boundTo t = some c → (∀ w a, s.watched t w a = false) →
    let th := s.thread t
    let s1 := s.issued t
    let b := s.bufsAt (bufKey h.toNat)
    (s.poolPick (some c) p 0 = none →
      ∃ u, exec (.poolPortAlloc t rd c p) s = .next u ∧ u.pools = s.pools ∧ u.bufs = s.bufs ∧
        (rd % 32 ≠ 0 → (u.thread t).gr (rd % 32) = 0x8000000000000000)) ∧
    (∀ q, s.poolPick (some c) p 0 = some q → (s.poolsAt q).next < s.poolCount q → th.act = none →
      ∃ u, exec (.poolPortAlloc t rd c p) s = .next u ∧ (u.poolsAt q).next = (s.poolsAt q).next + 1 ∧
        (u.bufsAt (q * 2 ^ 22 + (s.poolsAt q).next)).count = 1 ∧
        (u.bufsAt (q * 2 ^ 22 + (s.poolsAt q).next)).owner = some c ∧
        (rd % 32 ≠ 0 → (u.thread t).gr (rd % 32) = BitVec.ofNat 64 (q % 16 * 2 ^ 28 +
          (s.bufsAt (q * 2 ^ 22 + (s.poolsAt q).next)).gen % 64 * 2 ^ 22 + (s.poolsAt q).next % 2 ^ 22))) ∧
    exec (.poolPortInfo t rd c p) s = .next (s1.endedNext t fun th => th.setG (rd % 32)
      (BitVec.ofNat 64 (s.poolBase p % 2 ^ 48 + s.fld (Reg.BP_POOL_CFG p) Fld.BP_POOL_CFG_SIZE % 8 * 2 ^ 48 +
        (if (s.actAt (Reg.BP_POOL_CL p)).toNat.testBit c then 1 else 0) * 2 ^ 51))) ∧
    (h.toNat < 2 ^ 32 → b.gen = hGen h.toNat → b.owner = some c →
      (1 < b.count → ∃ u, exec (.poolPortDrop t c h) s = .next u ∧ (u.bufsAt (bufKey h.toNat)).count = b.count - 1 ∧
        u.mem = s.mem) ∧
      (b.count = 1 → ∃ u, exec (.poolPortDrop t c h) s = .next u ∧
        u.bufsAt (bufKey h.toNat) = { count := 0, gen := (b.gen + 1) % 64, owner := none } ∧
        (u.poolsAt (hPool h.toNat)).freed = (s.poolsAt (hPool h.toNat)).freed ++ [hIndex h.toNat]) ∧
      (0 < b.count → b.count < 255 → ∃ u, exec (.poolPortAdd t c h) s = .next u ∧
        (u.bufsAt (bufKey h.toNat)).count = b.count + 1 ∧ u.mem = s.mem)) ∧
    (let k := 256 + 16 * c + h.toNat % 16
     2 ≤ h.toNat % 16 → h.toNat % 16 < s.grantLe c 14 1 → (s.msixAt k).masked = false →
      ∃ u, exec (.vectorSignal t c h) s = .next u ∧ u.mem = s.mem ∧ (u.thread t).pc = th.pc + 4#48 ∧
        u.outbox = .msix k (s.msixAt k).addr (s.msixAt k).data :: s.outbox))

/-! ## Helpers -/

/-- Each helper instruction goes to a free unit of its class, which reads the descriptor and accepts the form it
handles; a form that is not handled raises UNDEF with reason 3, a pointer in a bank that is not VALID then BANK, and
one that a register holds does so without a unit; with no unit free the instruction sets HB or waits; while one of the
event form is outstanding it waits for that; where the class is not enabled for the thread it raises UNDEF with reason
4. When a unit is granted is the model's choice (HELPER_GRANT; notes/assumptions/75.md). HELPER_GRANT gives a free
unit to the next request: the head one if it restarts, else the first of a seat, else the first; a seat's request that
finds none takes the unit that started last among those of no seat, whose instruction goes to the head of the queue to
restart. HELPER_COMPLETE frees the unit and ends its instruction: a plain one with code 0 goes on, one that failed
takes HELPER with its code in TVAL, one of the event form sets HELPER_DONE; the instruction of a classroom reset since
ends without a word. That grants and completions are commands, and that an OUT the function does not give is a free
value, is the model's choice (notes/assumptions/74.md, notes/assumptions/75.md). -/
def Obligations.HelpersAreSoughtGrantedAndComplete : Prop :=
  (∀ (op : Nat → Nat → Nat → Nat → Nat → Instr) (k : HelperClass) (fn : Nat) (usesRc : Bool),
    (op, k, fn, usesRc) ∈ ([(Instr.fxBitmap, .fx, 0, true), (Instr.fxIso, .fx, 1, true), (Instr.fxTlv, .fx, 2, true),
      (Instr.fxFields, .fx, 3, true), (Instr.dxAdd, .dx, 0, true), (Instr.dxSub, .dx, 1, true), (Instr.dxMul, .dx, 2, true),
      (Instr.dxRescale, .dx, 3, false), (Instr.dxCcy, .dx, 4, true), (Instr.dxCmp, .dx, 5, true),
      (Instr.dxParse, .dx, 6, false), (Instr.dxFormat, .dx, 7, true), (Instr.cxCmac, .cx, 0, true),
      (Instr.cxCmacVer, .cx, 1, false), (Instr.cxGcmEnc, .cx, 2, true), (Instr.cxGcmDec, .cx, 3, true),
      (Instr.cxSha256, .cx, 4, true), (Instr.cxHmac, .cx, 5, true), (Instr.cxHmacVer, .cx, 6, false),
      (Instr.hxCrc, .hx, 0, false), (Instr.hxKey, .hx, 1, false), (Instr.hxMcmp, .hx, 2, true)] :
        List ((Nat → Nat → Nat → Nat → Nat → Instr) × HelperClass × Nat × Bool)) →
    ∀ (s : State) (t ra rb rc flags : Nat), s.canIssue t = true → flags < 4 → (usesRc = true ∨ rc % 32 = 0) →
      let th := s.thread t
      let st := streetOf t
      let q := helperReqOf s t k fn usesRc ra rb rc flags
      let queue := s.hqueuesAt (4 * st + helperNum k)
      let enabled := th.helperEn.testBit ((if th.priv = 0 then 8 else if th.priv = 1 then 4 else 0) + helperNum k) = true ∧
        s.classUp st k = true
      let free := enabled ∧ s.helperOut t = false
      let d := (s.issued t).helperDesc t q
      let idle := free ∧ queue = [] ∧ (s.issued t).anyUnreadable t (q.descRange d) = none
      let full := free ∧ (queue ≠ [] ∨ s.freeUnit st k = none)
      (∀ u, idle → s.freeUnit st k = some u → (s.issued t).helperHandles t q d.1 (q.form d) = true →
        (q.form d).badBank q = none →
        ∃ w, exec (op t ra rb rc flags) s = .next w ∧
          w.unitsAt (6 * st + u) = some ⟨t, { q with desc := some d }, s.nextStart st⟩ ∧ w.mem = s.mem ∧ w.desk = s.desk ∧
          (q.try_ = true → (w.thread t).flags.hb = false) ∧ (q.event = true → (w.thread t).pc = th.pc + 4#48) ∧
          (q.event = false → (w.thread t).state = .waiting ∧ (w.thread t).wait = .helper k)) ∧
      (∀ u, idle → s.freeUnit st k = some u → (s.issued t).helperHandles t q d.1 (q.form d) = false → q.event = false →
        th.inHandler = false →
        ∃ w, exec (op t ra rb rc flags) s = .next w ∧ (w.thread t).tcause = 1 ∧ w.units = s.units ∧
          (w.thread t).tval = BitVec.ofNat 64 (q.word % 2 ^ 32 + 3 * 2 ^ 32) ∧ (w.thread t).tpc = th.pc.setWidth 64) ∧
      (∀ u p, idle → s.freeUnit st k = some u → (s.issued t).helperHandles t q d.1 (q.form d) = true →
        (q.form d).badBank q = some p → th.inHandler = false →
        ∃ w, exec (op t ra rb rc flags) s = .next w ∧ (w.thread t).tcause = 3 ∧ w.units = s.units ∧
          (w.thread t).tval = BitVec.ofNat 64 (p.toNat / 2 ^ 18 % 8) ∧ (w.thread t).tpc = th.pc.setWidth 64) ∧
      (∀ p, full → (s.issued t).anyUnreadable t (q.descRange d) = none → q.badRegister = some p → th.inHandler = false →
        q.event = false →
        ∃ w, exec (op t ra rb rc flags) s = .next w ∧ w.units = s.units ∧ w.hqueues = s.hqueues ∧
          (w.thread t).tpc = th.pc.setWidth 64 ∧
          if (s.issued t).helperHandles t q d.1 (q.form d) = true then
            (w.thread t).tcause = 3 ∧ (w.thread t).tval = BitVec.ofNat 64 (p.toNat / 2 ^ 18 % 8)
          else (w.thread t).tcause = 1 ∧ (w.thread t).tval = BitVec.ofNat 64 (q.word % 2 ^ 32 + 3 * 2 ^ 32)) ∧
      (full → q.badRegister = none → q.try_ = true →
        ∃ w, exec (op t ra rb rc flags) s = .next w ∧ (w.thread t).flags = { th.flags with hb := true } ∧
          (w.thread t).pc = th.pc + 4#48 ∧ w.units = s.units ∧ w.mem = s.mem) ∧
      (full → q.badRegister = none → q.try_ = false →
        ∃ w, exec (op t ra rb rc flags) s = .next w ∧ (w.thread t).state = .waiting ∧ (w.thread t).wait = .unit q ∧
          w.hqueuesAt (4 * st + helperNum k) = queue ++ [⟨t, q, false⟩] ∧ w.units = s.units ∧ w.mem = s.mem) ∧
      (enabled → s.helperOut t = true →
        exec (op t ra rb rc flags) s = .next ((s.issued t).waits t (.helperEvent q))) ∧
      (¬enabled → q.event = false → th.inHandler = false →
        ∃ w, exec (op t ra rb rc flags) s = .next w ∧ (w.thread t).tcause = 1 ∧
          (w.thread t).tval = BitVec.ofNat 64 (q.word % 2 ^ 32 + 4 * 2 ^ 32) ∧ (w.thread t).tpc = th.pc.setWidth 64)) ∧
  ((∀ (s : State) (st : Nat) (k : HelperClass) (x w : HelperWait) (l : List HelperWait), s.helpersRun st = true →
    s.hqueuesAt (4 * st + helperNum k) = x :: l →
    w = (if x.restart then x else ((x :: l).find? (·.req.seat)).getD x) →
    let d := s.helperDesc w.thread w.req
    let takes := streetOf w.thread = st ∧ s.helperHandles w.thread w.req d.1 (w.req.form d) = true ∧
      (w.req.form d).badBank w.req = none ∧ s.anyUnreadable w.thread (w.req.descRange d) = none
    (∀ u, s.freeUnit st k = some u → w.restart = true →
      ∃ v, exec (.helperGrant st k) s = .next v ∧ v.hqueuesAt (4 * st + helperNum k) = (x :: l).erase w ∧
        v.unitsAt (6 * st + u) = some ⟨w.thread, w.req, s.nextStart st⟩ ∧ v.mem = s.mem ∧ v.threads = s.threads) ∧
    (∀ u, s.freeUnit st k = some u → w.restart = false → takes →
      ∃ v, exec (.helperGrant st k) s = .next v ∧ v.hqueuesAt (4 * st + helperNum k) = (x :: l).erase w ∧
        v.unitsAt (6 * st + u) = some ⟨w.thread, { w.req with desc := some d }, s.nextStart st⟩ ∧ v.mem = s.mem ∧
        (w.req.event = true → (v.thread w.thread).pc = (s.thread w.thread).pc + 4#48) ∧
        (w.req.event = false → (v.thread w.thread).wait = .helper w.req.cls))) ∧
  (∀ (s : State) (st u : Nat) (k : HelperClass) (w : HelperWait) (r : HelperRun), s.helpersRun st = true →
    s.inForce (Reg.HLP_CFG st) Fld.HLP_CFG_URG_TAKE = 1 → s.freeUnit st k = none →
    (s.hqueuesAt (4 * st + helperNum k)).find? (fun w => w.req.seat && !w.restart) = some w →
    s.takeUnit st k = some u → s.unitsAt (6 * st + u) = some r → r.req.cls = k → streetOf w.thread = st →
    let d := s.helperDesc w.thread w.req
    s.helperHandles w.thread w.req d.1 (w.req.form d) = true → (w.req.form d).badBank w.req = none →
    s.anyUnreadable w.thread (w.req.descRange d) = none →
    ∃ v n, exec (.helperGrant st k) s = .next v ∧
      v.hqueuesAt (4 * st + helperNum k) = ⟨r.thread, r.req, true⟩ :: (s.hqueuesAt (4 * st + helperNum k)).erase w ∧
      v.unitsAt (6 * st + u) = some ⟨w.thread, { w.req with desc := some d }, n⟩ ∧ v.mem = s.mem) ∧
  (∀ (s : State) (st u code : Nat) (r : HelperRun), s.helpersRun st = true → s.helperUp st u = true → u < 6 →
    s.unitsAt (6 * st + u) = some r → (∀ c, r.req.room = some c → s.clgen c = r.req.clgen) →
    let q := r.req
    (match q.desc with
      | none => code = hMemUncorr
      | some d => code = (s.helperResult r.thread q d).1.code ∧
        s.anyUnreadable r.thread ((q.form d).srcs.flatMap fun p => q.range p.1 p.2) = none) →
    let th := s.thread r.thread
    ∃ v, exec (.helperComplete st u) s = .next v ∧
      (q.event = false → th.waiting = true → th.wait = .helper q.cls → th.tgen = q.tgen →
        v.unitsAt (6 * st + u) = none ∧
        (code = 0 → (v.thread r.thread).pc = th.pc + 4#48 ∧ (v.thread r.thread).wait = .none) ∧
        (code ≠ 0 → th.inHandler = false → (v.thread r.thread).tcause = 6 ∧
          (v.thread r.thread).tval = BitVec.ofNat 64 code ∧ (v.thread r.thread).tpc = th.pc.setWidth 64)) ∧
      (q.event = true → r.thread < 768 → (∀ x, th.wait ≠ .helperEvent x) →
        v.unitsAt (6 * st + u) = none ∧ (v.thread r.thread).flag evHelperDone = true ∧ (v.thread r.thread).pc = th.pc)) ∧
  ∀ (s : State) (st u c : Nat) (r : HelperRun), s.helpersRun st = true → s.helperUp st u = true → u < 6 →
    s.unitsAt (6 * st + u) = some r → r.req.room = some c → s.clgen c ≠ r.req.clgen → (∀ x, (s.thread r.thread).wait ≠ .helperEvent x) →
    ∃ v, exec (.helperComplete st u) s = .next v ∧ v.unitsAt (6 * st + u) = none ∧ v.mem = s.mem ∧ v.desk = s.desk ∧
      v.threads = s.threads)

/-- CX.GCM_DEC gives back what CX.GCM_ENC was given, and says that the tag verifies, with the same key, initial value
and additional data. -/
def Obligations.GcmDecryptsWhatItEncrypted : Prop :=
  ∀ d key iv aad text : List Byte, (key.length = 16 ∨ key.length = 24 ∨ key.length = 32) → iv.length = 12 →
    cxDecFn d key iv aad (cxEncFn d key iv aad text).1.dst (cxEncFn d key iv aad text).2 = ⟨0, some 1, text, []⟩

/-! ## Roll Call, admission, dispatch and the Crosswalk -/

/-- A bank takes the token at its head, which it serves: one of another life, or of another classroom than its context
(that this counts as another life is the model's choice: notes/assumptions/168.md), is dropped and counted; the first
of a node that needs more takes an entry; a MICRO node of one port fires at once, and its tokens stand in the queues
of their banks. SPILL_REFILL brings back the entry the head token matches; READY_FIRE fires the oldest READY entry,
one that its bank holds or one that it brings back from its spill slot; BANK_RESUME lets a stopped bank go on once it
has room. -/
def Obligations.BanksTakeTokensAndFire : Prop :=
  (∀ (s : State) (b : Nat) (t : Token), b < 4 → s.rollCallOn = true → s.fenced (bankUnit b) = false →
    (s.banksAt b).stopped = false → (s.banksAt b).head = some t → s.bankOfTag t.tag = b → (∀ f, f < 16 → s.fuqAt f = []) →
    (∀ y, y < 4 → s.strayTokens y = []) →
    let k := s.banksAt b
    let d := s.nodeOf t.tag
    (s.tokenAccepted t = false →
      ∃ u, exec (.tokenArrive b) s = .next u ∧ u.banksAt b = k.pop ∧ u.mem = s.mem ∧
        u.regsAt Reg.RC_CNT_LATE_TOKEN = s.regsAt Reg.RC_CNT_LATE_TOKEN + 1) ∧
    (s.tokenAccepted t = true → s.spilledSlot t.tag = none → s.nodeInvalid t.tag t.port = false →
      (s.ctx (tagCtx t.tag)).state = .active → (s.ctx (tagCtx t.tag)).inDram = false →
      (d.alone = false → k.entries.find? (·.tag = t.tag) = none → k.entries.length < 65536 →
        ((s.newEntry t.tag).add t false).due d = false →
        ∃ u, exec (.tokenArrive b) s = .next u ∧ u.banksAt b = { k.pop with
            entries := k.entries ++ [(s.newEntry t.tag).add t false] } ∧ u.mem = s.mem ∧
          u.regsAt Reg.RC_CNT_TOKENS = s.regsAt Reg.RC_CNT_TOKENS + 1) ∧
      (∀ fn, d.kind = kMicro → d.alone = true → d.fn = fn → microArity fn = some 1 → t.absent = false → t.port = 0 →
        let out := microOut fn d.imm t.value 0 0
        let toks := s.destTokens t.tag (tagIter t.tag) d false (microCond fn t.value out) fun _ => out
        s.roomFor toks = true →
        ∃ u, exec (.tokenArrive b) s = .next u ∧ u.mem = s.mem ∧
          u.regsAt Reg.RC_CNT_FIRES_MICRO = s.regsAt Reg.RC_CNT_FIRES_MICRO + 1 ∧
          ∀ x ∈ toks, x ∈ (u.banksAt (s.bankOfTag x.tag)).urgent ∨ x ∈ (u.banksAt (s.bankOfTag x.tag)).inq))) ∧
  ((∀ (s : State) (b i : Nat) (t : Token), b < 4 → s.rollCallOn = true → s.fenced (bankUnit b) = false →
    (s.banksAt b).stopped = false → (s.banksAt b).head = some t → s.tokenAccepted t = true →
    s.spilledSlot t.tag = some i → s.dramReady (s.spillAddr i) = true → s.slotOk i = true →
    (s.banksAt b).entries.length < 65536 →
      ∃ u, exec (.spillRefill b) s = .next u ∧ Entry.ofBytes (s.bytes (s.spillAddr i) 64) ∈ (u.banksAt b).entries ∧
        (u.banksAt b).inq = (s.banksAt b).inq ∧
        u.regsAt Reg.RC_CNT_REFILLS = s.regsAt Reg.RC_CNT_REFILLS + 1) ∧
  (∀ (s : State) (b : Nat) (e : Entry), b < 4 → s.rollCallOn = true → s.fenced (bankUnit b) = false →
    (∀ f, f < 16 → s.fuqAt f = []) → (∀ y, y < 4 → s.strayTokens y = []) → s.readySlot b = none →
    oldest ((s.banksAt b).entries.filter s.mayFire) = some e →
    let d := s.nodeOf e.tag
    d.kind = kMicro → d.skipped e.absent = false → s.canFire b e.tag d e.absent = true →
    (s.ctx (tagCtx e.tag)).inDram = false →
      ∃ u, exec (.readyFire b) s = .next u ∧ u.mem = s.mem ∧
        u.regsAt Reg.RC_CNT_FIRES_MICRO = s.regsAt Reg.RC_CNT_FIRES_MICRO + 1 ∧
        ∀ x ∈ (u.banksAt b).entries, e.same x = false) ∧
  (∀ (s : State) (b x i : Nat) (e : Entry), b < 4 → s.rollCallOn = true → s.fenced (bankUnit b) = false →
    (∀ f, f < 16 → s.fuqAt f = []) → (∀ y, y < 4 → s.strayTokens y = []) → s.readySlot b = some (x, i, e) →
    s.dramReady (s.spillAddr i) = true → s.slotOk i = true → (s.banksAt b).entries.length < 65536 → tagCtx e.tag = x →
    (s.ctx x).inDram = false → (s.chain x).head? = some i →
    let d := s.nodeOf e.tag
    d.kind = kMicro → d.skipped e.absent = false →
      ∃ u, exec (.readyFire b) s = .next u ∧ u.mem = s.mem ∧ i ∈ u.rc.spillFreed ∧
        u.regsAt Reg.RC_CNT_REFILLS = s.regsAt Reg.RC_CNT_REFILLS + 1 ∧
        u.regsAt Reg.RC_CNT_FIRES_MICRO = s.regsAt Reg.RC_CNT_FIRES_MICRO + 1 ∧
        ∀ y ∈ (u.banksAt b).entries, e.same y = false) ∧
  ∀ (s : State) (b : Nat), (s.banksAt b).stopped = true → s.entryRoom b = true →
    ∃ u, exec (.bankResume b) s = .next u ∧ u.banksAt b = { s.banksAt b with stopped := false } ∧ u.mem = s.mem ∧
      u.regs = s.regs ∧ ∀ k, k ≠ b → u.banksAt k = s.banksAt k)

/-- The ends of a context: an ENDING one becomes FREE with the next CGEN, a PARKING one PARKED, a due park timer puts
its token in its bank's queue; the stalemate detector and Tenik's answer to it; the first step of an abandonment and
its end. -/
def Obligations.ContextsEndParkAndAreAbandoned : Prop :=
  ∀ (s : State) (x : Nat), s.rollCallOn = true →
    let c := s.ctx x
    (c.state = .ending → c.acts = 0 → c.reqs = 0 →
      ∃ u, exec (.contextFree x) s = .next u ∧ u.ctx x = { Ctx.zero with cgen := (c.cgen + 1) % 16 } ∧
        (c.inDram = false → u.mem = s.mem) ∧
        u.regsAt Reg.RC_CNT_CONTEXTS_ENDED = s.regsAt Reg.RC_CNT_CONTEXTS_ENDED + 1) ∧
    (c.state = .parking → c.acts = 0 → c.reqs = 0 →
      ∃ u, exec (.contextPark x) s = .next u ∧ (u.ctx x).state = .parked ∧ (u.ctx x).cgen = c.cgen ∧
        (c.pinned = true → u.mem = s.mem) ∧
        (c.pinned = false → s.spillSlots ≠ 0 → ((List.range 4).flatMap fun b =>
          (s.banksAt b).entries.filter fun e => tagCtx e.tag = x).length ≤ s.spillFree → (u.ctx x).inDram = true)) ∧
    (∀ d l w t, (s.delayAt d).arm = some ⟨l, w, .park t⟩ → s.dueNext ⟨l, w, .park t⟩ = true →
      ∃ u, exec (.parkTimeout d) s = .next u ∧ (u.delayAt d).arm = none ∧
        (u.delayAt d).gen = ((s.delayAt d).gen + 1) % 32 ∧
        (t.urgent = true → (u.banksAt (s.bankOfTag t.tag)).urgent = (s.banksAt (s.bankOfTag t.tag)).urgent ++ [t]) ∧
        (t.urgent = false → (u.banksAt (s.bankOfTag t.tag)).inq = (s.banksAt (s.bankOfTag t.tag)).inq ++ [t])) ∧
    (s.inForce Reg.RC_STALL Fld.RC_STALL_EN = 1 → (s.ctxs.any fun e => e.2.state != .free && e.2.state != .parked) = true →
      ∃ u, exec .stalemate s = .next u ∧ u.fld Reg.RC_EVENT Fld.RC_EVENT_STALEMATE = 1 ∧ u.ctxs = s.ctxs ∧ u.mem = s.mem) ∧
    (∀ y, s.tenikUp = true → s.fld Reg.RC_EVENT Fld.RC_EVENT_STALEMATE = 1 → s.youngest = some y →
      (s.ctx y).state ≠ .free →
      ∃ u, exec .tenikStalemateAction s = .next u ∧ u.fld Reg.RC_EVENT Fld.RC_EVENT_STALEMATE = 0 ∧
        (y, (s.ctx y).cgen) ∈ u.rc.toAbandon ∧ u.ctxs = s.ctxs ∧ u.mem = s.mem) ∧
    ((x, c.cgen) ∈ s.rc.toAbandon → s.tenikUp = true → s.clgen c.msg.classroom = c.clgen → c.state ≠ .free →
      c.state ≠ .abandoning → c.inDram = false →
      ∃ u, exec (.abandonContext x) s = .next u ∧ (u.ctx x).state = .abandoning ∧ (u.ctx x).cgen = c.cgen ∧
        (∀ g, (x, g) ∉ u.rc.toAbandon) ∧ u.mem = s.mem ∧
        u.regsAt Reg.RC_CNT_ABANDONED = s.regsAt Reg.RC_CNT_ABANDONED + 1) ∧
    (s.tenikUp = true → c.state = .abandoning → c.reqs = 0 → ((s.actsOf x).any fun e => e.2.place = .retiring) = false →
      s.clgen c.msg.classroom = c.clgen → c.msg.status = none → c.msg.port < 8 → s.actionIn c.msg.port actRetry c.msg.classroom = 0 →
      ∃ u, exec (.abandonFinish x) s = .next u ∧ (u.ctx x).state = .free ∧ (u.ctx x).cgen = (c.cgen + 1) % 16 ∧
        (c.inDram = false → u.mem = s.mem) ∧ u.regsAt (Reg.ETH_CNT_DEFACT_COUNT c.msg.port) =
          s.regsAt (Reg.ETH_CNT_DEFACT_COUNT c.msg.port) + 1)

/-- A frame goes to its pipeline's walkers with the current Term; the result of a finished walk joins the admission
stage, from its walker or from the hold queue; ADMIT places an admissible message in its classroom's queue with the
next ORDER; CONTEXT_CREATE makes it a context. -/
def Obligations.MessagesAreWalkedAndAdmitted : Prop :=
  (∀ (s : State) (port p : Nat) (f : UnseqFrame), (s.portsAt port).unseq.find? (fun f => !f.walking) = some f →
    s.pipeFor (.unseq port) = some p → s.fstOn = true →
    ∃ u w, exec (.messageHandOver (.unseq port)) s = .next u ∧
      (u.pipesAt p).walks = (s.pipesAt p).walks ++ [⟨w, none⟩] ∧ w.src = .unseq port ∧ w.port = port ∧ w.bytes = f.bytes ∧
      w.term = s.curTerm ∧ u.mem = s.mem) ∧
  (∀ (s : State) (p gen : Nat) (k : Walker) (m : MsgDesc), (s.pipesAt p).walks = [k] → (s.pipesAt p).hold = [] →
    k.out = none → s.pipeUp p = true → (walkOutcome p k.walk s).1 = .result m gen → s.held m.classroom = false →
    ∃ u, exec (.walkComplete p 0) s = .next u ∧ (u.pipesAt p).walks = [] ∧
      u.sq.results = s.sq.results ++ [⟨k.walk, .result m gen, none⟩]) ∧
  (∀ (s : State) (p gen : Nat) (w : WalkDone) (rest : List WalkDone) (m : MsgDesc), (s.pipesAt p).walks = [] →
    (s.pipesAt p).hold = w :: rest → s.pipeUp p = true → w.out = .result m gen → s.canLeave w = true →
    ∃ u, exec (.holdQueueRelease p) s = .next u ∧ (u.pipesAt p).hold = rest ∧ u.mem = s.mem ∧
      u.sq.results = s.sq.results ++ [w]) ∧
  (∀ (s : State) (gen b : Nat) (w : WalkDone) (m : MsgDesc), s.datapathOn = true → s.nextResult = some w →
    w.out = .result m gen → s.admissible m gen = true → w.walk.buffer = some b → s.grpDone .sq = true →
    ∃ u, exec .admission s = .next u ∧ u.sq.admitNext = (s.sq.admitNext + 1) % 2 ^ 64 ∧
      u.admitQAt (2 * m.classroom + if m.cls = 0 then 1 else 0) =
        s.admitQAt (2 * m.classroom + if m.cls = 0 then 1 else 0) ++ [⟨m, s.sq.admitNext, gen, s.takenOver w m, none⟩] ∧
      u.regsAt Reg.SQ_CNT_ADMITTED = s.regsAt Reg.SQ_CNT_ADMITTED + 1) ∧
  ∀ (s : State) (a : Admitted) (i j : Nat), s.datapathOn = true → s.nextCreate = some (a, i, j) →
    s.entriesFit a.msg = true → s.grpDone .rc = true →
    ∃ u, exec .contextCreate s = .next u ∧ (u.ctx s.nextCtx).state = .active ∧ (u.ctx s.nextCtx).msg = a.msg ∧
      (u.ctx s.nextCtx).order = a.order ∧ (u.ctx s.nextCtx).cgen = (s.ctx s.nextCtx).cgen ∧
      u.regsAt Reg.RC_CNT_CONTEXTS_CREATED = s.regsAt Reg.RC_CNT_CONTEXTS_CREATED + 1

/-- DISPATCH starts an activation on a thread, at the address of its ENTRY, or chooses a victim for an urgent one;
PREEMPT_SAVE saves the victim's activation and puts it back at the head of its list; STATE_COPY_END restores one;
THREAD_TIMER_DUE sets TIMER. That the saved state holds the privilege level, and that a save waits for an instruction
boundary or breaks the waits that Thread.atBoundary names, is the model's reading of R164 to R166
(notes/assumptions/46.md); that the copy of a saved state has an end of its own is the model's choice
(notes/assumptions/47.md). -/
def Obligations.TheDispatcherGivesSavesAndRestores : Prop :=
  (∀ (s : State) (c t i : Nat) (a : Act), s.dispatchOn = true → s.choice c = some (.give t i) → s.actsAt i = some a →
    a.saved = none →
    let term := s.termsAt (s.ctx a.ctx).msg.term
    let rd := (s.thread t).wrd % 32
    ∃ u, exec (.dispatch c) s = .next u ∧ (u.thread t).act = some i ∧ (u.thread t).priv = 2 ∧
      (u.thread t).pc = BitVec.ofNat 48 (term.base + term.codeOff + s.leMem (term.base + term.entryOff + 4 * a.entry) 4) ∧
      (u.thread t).flags = ⟨false, false, false, false⟩ ∧ (u.thread t).repc = 0 ∧
      (rd ≠ 0 → (u.thread t).gr rd = BitVec.ofNat 64 (2 ^ 62 + a.entry)) ∧
      (∀ r, r ≠ rd → (u.thread t).gr r = (s.thread t).gr r) ∧ u.BlockHolds s t i a ∧
      (u.thread t).journal = .empty ∧ (u.thread t).bk = [] ∧ u.actsAt i = some { a with place := .running } ∧
      u.regsAt Reg.SQ_CNT_DISPATCHED = s.regsAt Reg.SQ_CNT_DISPATCHED + 1) ∧
  (∀ (s : State) (c t i x : Nat), s.dispatchOn = true → s.choice c = some (.preempt t i x) → t < 768 →
    ∃ u, exec (.dispatch c) s = .next u ∧ (u.thread t).preempt = some i ∧ (u.thread t).flag evPreempt = true ∧
      (u.ctx x).seat = some t ∧ u.mem = s.mem) ∧
  (∀ (s : State) (t i o : Nat) (a b : Act), (s.thread t).preempt = some i → s.dispatchOn = true → s.coreServes (coreOf t) = true →
    (s.thread t).atBoundary = true → (s.thread t).haltPending = false → (s.thread t).act = some o → o ≠ i →
    s.actsAt o = some a → s.actsAt i = some b → b.saved = none → (s.ctx a.ctx).cgen = a.cgen →
    (s.ctx a.ctx).state ≠ .free → (s.ctx a.ctx).state ≠ .abandoning →
    ∃ u, exec (.preemptSave t) s = .next u ∧ u.actsAt o = some { a with place := .ready, saved := some ((s.thread t).save t) } ∧
      (u.thread t).act = some i ∧ (u.thread t).preempt = none ∧
      (if (s.ctx a.ctx).msg.cls = 0 then u.sq.bypass = o :: s.sq.bypass.filter (· != i)
       else u.readyAt (readyKey (s.ctx a.ctx)) = o :: (s.readyAt (readyKey (s.ctx a.ctx))).filter (· != i)) ∧
      u.regsAt Reg.SQ_CNT_PREEMPTIONS = s.regsAt Reg.SQ_CNT_PREEMPTIONS + 1) ∧
  (∀ (s : State) (t i : Nat) (a : Act) (v : Saved), (s.thread t).wait = .copy i → s.actsAt i = some a → a.saved = some v →
    ∃ u, exec (.stateCopyEnd t) s = .next u ∧ u.actsAt i = some { a with saved := none } ∧ (u.thread t).act = some i ∧
      (u.thread t).g = v.g ∧ (u.thread t).priv = v.priv ∧ (u.thread t).bk = v.bk ∧ (u.thread t).flags = v.flags ∧ (u.thread t).repc = v.repc ∧
      (u.thread t).pc = v.pc ∧ (u.thread t).journal = v.journal ∧ u.mem = s.mem ∧ u.desk = s.desk) ∧
  ∀ (s : State) (d l w t : Nat), (s.delayAt d).arm = some ⟨l, w, .thread t⟩ → s.threadsOn = true → t < 768 →
    s.dueNext ⟨l, w, .thread t⟩ = true →
    ∃ u, exec (.threadTimerDue d) s = .next u ∧ (u.thread t).flag evTimer = true ∧
      ((s.thread t).timer = some (d + l * 2 ^ 24 + (s.delayAt d).gen * 2 ^ 27) → (u.thread t).timer = none) ∧
      (u.delayAt d).arm = none ∧ u.mem = s.mem ∧
      u.regsAt Reg.SQ_CNT_TIMERS_DUE = s.regsAt Reg.SQ_CNT_TIMERS_DUE + 1

/-- RETIRE_APPLY makes the table writes of the classroom, so that a lookup finds the entry written, sends the tokens,
which the banks drop if the context is ENDING (R111), and frees the record (that all of it happens in one step, which
waits for room, is the model's choice: notes/assumptions/60.md). MESSAGE_RELEASE sends a message on its way and counts
it out: a raw frame goes to its port's queue, one to recirculate to a pipeline, one for a stream to the stream; a
message of an ended generation is discarded, and one whose reference is not held dropped (that a LENGTH outside its
range is counted in FINAL_DROP is the model's reading: notes/assumptions/41.md). LANE_TAKEOVER_END and CROSSWALK_HOLD
change their registers. -/
def Obligations.SealedWorkIsAppliedAndReleased : Prop :=
  (∀ (s : State) (i time order : Nat) (a : Act) (j : Journal), s.actsAt i = some a → a.sealed = some (j, time, order) →
    s.mirrorRoom = true → modeStage ≤ s.mode → (j.outs = [] ∨ s.cwRoom = true) → s.writesFree j.writes = true →
    (∀ n, n < 16 → (s.enginesAt n).taken = []) →
    let c := s.ctx a.ctx
    let toks := sealedTokens a c.pinned j
    s.roomFor toks = true →
    ∃ u, exec (.retireApply i) s = .next u ∧ u.actsAt i = none ∧
      u.regsAt Reg.SQ_CNT_JWR_APPLIED = s.regsAt Reg.SQ_CNT_JWR_APPLIED +
        BitVec.ofNat 64 (j.writes.countP fun w => (s.table w.table).valid && (s.table w.table).classroom == tagClass a.tag) ∧
      (c.state ≠ .ending →
        ∀ x ∈ toks, x ∈ (u.banksAt (s.bankOfTag x.tag)).urgent ∨ x ∈ (u.banksAt (s.bankOfTag x.tag)).inq) ∧
      (c.state = .ending → a.ctx < 2 ^ 24 → ∀ x ∈ toks, u.tokenAccepted x = false) ∧
      ∀ w, j.writes = [w] → j.outs = [] → w.op = 0 → c.inDram = false →
        let t := w.table
        let d := s.table t
        d.valid = true → d.classroom = tagClass a.tag →
        (d.kind ≠ kindHash → d.outside w.key = false → s.slotWritable d (d.elem (w.key % 2 ^ 32)) →
          d.apart [d.elem (w.key % 2 ^ 32)] →
          u.lookup d t w.key = .hit (d.elem (w.key % 2 ^ 32)) (arrayEntry d t (s.period d) w.data)) ∧
        (∀ x e, d.kind = kindHash → 8 + d.keyLen ≤ d.esize → s.lookup d t w.key = .hit x e →
          (∀ y ∈ d.slots t w.key, s.slotClean d t y) → s.slotWritable d x → d.apart (d.slots t w.key) →
          u.lookup d t w.key = .hit x (s.hashEntry d t (d.keyOf w.key) w.data))) ∧
  (∀ (s : State) (l : Nat) (e : CwCtx) (m : CwMsg), s.datapathOn = true →
    (((s.releasable l).find? fun p => p.2.src.cls = 0).orElse fun _ => (s.releasable l).head?) = some (e, m) →
    let cw := cwClean (s.cw.map fun x => if x == e then { x with msgs := x.msgs.drop 1 } else x)
    let out := fun (u : State) => exec (.messageRelease l) s = .next u ∧ u.cw = cw ∧
      u.regsAt Reg.CW_CNT_RELEASED = s.regsAt Reg.CW_CNT_RELEASED + 1 ∧ u.regsAt Reg.CW_CNT_RELEASED_URGENT =
        s.regsAt Reg.CW_CNT_RELEASED_URGENT + (if m.src.cls = 0 then 1 else 0)
    let a := s.bufAddr m.e.buffer + m.e.off
    (s.oldLife e = true → ∃ u, exec (.messageRelease l) s = .next u ∧ u.cw = cw ∧ u.mem = s.mem ∧ u.ports = s.ports ∧
      u.regsAt Reg.CW_CNT_DISCARDED_GEN = s.regsAt Reg.CW_CNT_DISCARDED_GEN + 1) ∧
    (s.oldLife e = false → m.held = false → ∃ u, exec (.messageRelease l) s = .next u ∧ u.cw = cw ∧ u.mem = s.mem ∧
      u.regsAt Reg.BP_CNT_REF_SAT_DROP = s.regsAt Reg.BP_CNT_REF_SAT_DROP + 1) ∧
    (s.oldLife e = false → m.held = true → 1 ≤ m.e.len → m.e.len ≤ 65536 →
      (m.e.flags.testBit 0 = true → m.e.port < 8 → s.portExists m.e.port = true → s.anyBad a m.e.len = false →
        s.fenced (groupOf m.e.port) = false →
        let f : TxFrame := ⟨s.bytes a m.e.len,
          if m.e.flags.testBit 2 = true ∧ m.e.flags.testBit 3 = false then some m.e.tsTag else none,
          if m.e.flags.testBit 3 = true then some m.e.tsOff else none, some m.e.buffer, none, false, none⟩
        ∃ u, out u ∧ u.mem = s.mem ∧ if m.src.cls = 0 then (u.portsAt m.e.port).q0 = (s.portsAt m.e.port).q0 ++ [f]
          else (u.portsAt m.e.port).q2 = (s.portsAt m.e.port).q2 ++ [f]) ∧
      (∀ p, m.e.flags.testBit 0 = true → m.e.port = 8 → s.anyBad a m.e.len = false → s.grpDone .pg = true →
        s.pipeFor (.recirc m.src.port) = some p →
        ∃ u w, out u ∧ u.regsAt Reg.CW_CNT_RECIRCULATED = s.regsAt Reg.CW_CNT_RECIRCULATED + 1 ∧ u.mem = s.mem ∧
          (u.pipesAt p).walks = (s.pipesAt p).walks ++ [⟨w, none⟩] ∧ w.src = .recirc m.src.port ∧
          w.bytes = s.bytes a m.e.len) ∧
      (∀ st, m.e.flags.testBit 0 = false → s.stream m.e.stream = some st → st.tx = true → st.classroom = m.src.classroom →
        st.state = .open_ → s.fenced (groupOf st.port) = false →
        ∃ u, out u ∧ u.mem = s.mem ∧
          u.stream m.e.stream = some { st with waiting := st.waiting ++ [⟨0, m.e, decide (m.src.cls = 0)⟩] }))) ∧
  (∀ (s : State) (l : Nat), l < 4 → (s.fld Reg.CW_STATUS Fld.CW_STATUS_LANE_MOVING).testBit l = true →
    ∃ u, exec (.laneTakeoverEnd l) s = .next u ∧ u.cw = s.cw ∧ u.mem = s.mem ∧
      (u.fld Reg.CW_STATUS Fld.CW_STATUS_LANE_MOVING).testBit l = false ∧
      ∀ k, k < 4 → k ≠ l → (u.fld Reg.CW_STATUS Fld.CW_STATUS_LANE_MOVING).testBit k =
        (s.fld Reg.CW_STATUS Fld.CW_STATUS_LANE_MOVING).testBit k) ∧
  ∀ (s : State) (l : Nat) (e : CwCtx), l < 4 → s.inForce Reg.CW_CFG Fld.CW_CFG_HOLD_EN = 1 →
    s.fld (Reg.CW_LANE l) Fld.CW_LANE_HOLD = 0 → s.holding l = some e → e.ctx < 2 ^ 24 → e.classroom < 64 →
    max 1 (s.inForce Reg.CW_CFG Fld.CW_CFG_HOLD_US) ≤ (s.monoNs - e.since) / 1000 →
    ∃ u, exec (.crosswalkHold l) s = .next u ∧ u.fld (Reg.CW_LANE l) Fld.CW_LANE_HOLD = 1 ∧ u.cw = s.cw ∧
      u.fld (Reg.CW_HOLD_INFO l) Fld.CW_HOLD_INFO_CONTEXT = e.ctx ∧
      u.fld (Reg.CW_HOLD_INFO l) Fld.CW_HOLD_INFO_CLASSROOM = e.classroom ∧
      u.fld (Reg.CW_HOLD_INFO l) Fld.CW_HOLD_INFO_HELD_US = (s.monoNs - e.since) / 1000 % 2 ^ 32 ∧ u.mem = s.mem

/-! ## Thread faults and debugging -/

/-- A fault of a thread that its Monitor can mend stops the thread, with its cause and pc in CORE_TFAULT, its FAULTED
bit set and the Monitor told; SEAT_LIMIT is cause 6; a fault of the Monitor, or in recovery, stops the whole core.
What the Monitor does with a stopped thread: RELEASE and RESET give its activation back, DROP asks for its context to
be abandoned; in each case its FAULTED bit goes and it stands in GETWORK with nothing in its journal. THREAD_STALEMATE
marks every bound thread of the core and tells the Monitor. -/
def Obligations.ThreadFaultsStopAndAreEnded : Prop :=
  (∀ (s : State) (t cause : Nat) (c : Instr), t < 768 → s.threadRuns t = true →
    let th := s.thread t
    let k := t / 8
    let seat := c = .seatLimit t ∧ cause = 6 ∧ s.isSeat t = true ∧ th.state = .running ∧ th.act.isSome = true
    let hard := c = .threadFault t cause ∧ 2 ≤ cause ∧ cause ≤ 5 ∧ (cause = 5 → th.act.isSome = true) ∧
      (cause = 4 → s.lockedWay k = true) ∧ (th.state = .running ∨ th.state = .waiting)
    seat ∨ hard →
    let f := coreReg Reg.CORE_FAULT k
    let tf := Reg.CORE_TFAULT (k / 8) (k % 8) (t % 8)
    let alone := s.datapathOn = true ∧ s.fld (coreReg Reg.CORE_CTL k) Fld.CORE_CTL_RECOVERY = 0 ∧ t % 8 ≠ 0
    ∃ u, exec c s = .next u ∧ (u.thread t).state = .stopped ∧ (u.thread t).wait = .none ∧ (u.thread t).g = th.g ∧
      u.fld tf Fld.CORE_TFAULT_CAUSE = cause ∧ u.fld tf Fld.CORE_TFAULT_PC = th.pc.toNat ∧
      (u.fld f Fld.CORE_FAULT_FAULTED).testBit (t % 8) = true ∧ (u.thread (8 * k)).flag evFaultNotify = true ∧
      (¬alone → u.fld f Fld.CORE_FAULT_CORE_STOPPED = 1 ∧ ∀ i, i < 8 → (u.thread (8 * k + i)).state = .stopped)) ∧
  (∀ (s : State) (o : Who) (k thr : Nat), k < 96 → 1 ≤ thr → thr ≤ 7 →
    s.mayAccess o (coreReg Reg.CORE_THCTL k) = true → (s.thread (8 * k + thr)).state = .stopped →
    let t := 8 * k + thr
    ∀ c ∈ [Instr.threadRelease o k thr, .threadDrop o k thr, .threadReset o k thr],
      ∃ u, exec c s = .next u ∧ (u.thread t).journal = .empty ∧ (u.thread t).repc = 0 ∧
        (u.thread t).tgen = ((s.thread t).tgen + 1) % 256 ∧ (u.thread t).state ≠ .stopped ∧
        (u.fld (coreReg Reg.CORE_FAULT k) Fld.CORE_FAULT_FAULTED).testBit thr = false ∧
        ((s.thread t).haltPending = false → (u.thread t).state = .idle) ∧
        (c = .threadDrop o k thr → ∀ i a, (s.thread t).act = some i → s.actsAt i = some a → (s.ctx a.ctx).cgen = a.cgen →
          (s.ctx a.ctx).state ≠ .free → (a.ctx, a.cgen) ∈ u.rc.toAbandon)) ∧
  (∀ (s : State) (k : Nat), k < 96 → s.threadRuns (8 * k) = true →
    s.inForce (coreReg Reg.CORE_CFG k) Fld.CORE_CFG_TSTALL_EN = 1 → s.boundThreads k ≠ [] →
    (∀ t ∈ s.boundThreads k, (s.thread t).softWait = true) →
    s.fld (coreReg Reg.CORE_FAULT k) Fld.CORE_FAULT_STALLED = 0 →
    ∃ u, exec (.threadStalemate k) s = .next u ∧ (u.thread (8 * k)).flag evFaultNotify = true ∧ u.mem = s.mem ∧
      ∀ i, i < 8 → (u.fld (coreReg Reg.CORE_FAULT k) Fld.CORE_FAULT_STALLED).testBit i = (s.boundTo (8 * k + i)).isSome)

/-- Debugging: a thread is halted, resumed or stepped by its bit; one with an open packet, or inside a channel write,
is halted behind it, or when its time is over; the registers of a halted thread are read and written through
CORE_DBG_DATA. -/
def Obligations.ThreadsAreHaltedResumedSteppedAndRead : Prop :=
  ∀ (s : State) (o : Who) (k i : Nat), k < 96 → i < 8 → s.coreUp k = true →
    let t := 8 * k + i
    let th := s.thread t
    (s.mayAccess o (coreReg Reg.CORE_DBG_CTL k) = true →
      ((th.state = .running ∨ th.state = .waiting ∨ th.state = .idle) → s.openPacket t = false → th.midRep = false →
        th.wait.inChWrite = false →
        ∃ u, exec (.debugHalt o k (2 ^ i)) s = .next u ∧ (u.thread t).state = .halted ∧
          (u.thread t).heldState = th.beforeHelper.state ∧ (u.thread t).pc = th.pc ∧ (u.thread t).g = th.g) ∧
      (th.state = .running ∧ s.openPacket t = true ∨ th.state = .waiting ∧ th.wait.inChWrite = true →
        ∃ u, exec (.debugHalt o k (2 ^ i)) s = .next u ∧ (u.thread t).state = th.state ∧ (u.thread t).wait = th.wait ∧
          (u.thread t).haltPending = true) ∧
      (th.state = .halted →
        (∃ u, exec (.debugResume o k (2 ^ i)) s = .next u ∧ (u.thread t).state = th.heldState ∧
          (u.thread t).pc = th.pc ∧ (th.forced = true → (u.thread t).flag evDebug = true)) ∧
        ∃ u, exec (.debugStep o k (2 ^ i)) s = .next u ∧ (u.thread t).state = th.heldState ∧
          (u.thread t).stepping = true ∧ (u.thread t).pc = th.pc)) ∧
    ((th.state = .running ∨ th.state = .waiting) → th.haltPending = true → s.openChans t ≠ [] →
      ∃ u, exec (.haltForced t) s = .next u ∧ (u.thread t).state = .halted ∧ (u.thread t).forced = true ∧
        (u.thread t).discard = th.discard ++ (s.openChans t).filter fun n => !th.discard.contains n) ∧
    (∀ r, s.mayAccess o (coreReg Reg.CORE_DBG_DATA k) = true → th.state = .halted → s.dbgSel k = (t, r) → r < 32 → r ≠ 0 →
      (∀ v, ∃ u, exec (.dbgDataWrite o k 0xFF v) s = .next u ∧ (u.thread t).gr r = v ∧ (u.thread t).pc = th.pc) ∧
      ∃ u, exec (.dbgDataRead o k) s = .next u ∧ u.outbox.head? = some (.readData (leBytes 8 (th.gr r).toNat) false) ∧
        u.threads = s.threads)

/-! ## Ports and streams -/

/-- A good frame that is neither MAC control nor FST waits in its port's buffer with its timestamp; a frame with a
wrong FCS is counted and goes nowhere; pause and PFC frames stop queues, expiry lets them go; storms and codewords are
marked. That a pause or PFC frame that its port does not obey is counted in RX_PAUSE_IGNORED
(notes/assumptions/21.md), and that RX_FRAMES counts the accepted frames (notes/assumptions/140.md), is the model's
choice. A port sends the frame at the head of its first queue that is not stopped, padded to 60 bytes as IEEE 802.3
asks (taken from outside the spec: notes/assumptions/23.md), with its FCS and the timestamp it asks for; TXTS_POP
drops the oldest timestamp; a change of the link is marked. -/
def Obligations.PortsReceiveAndTransmit : Prop :=
  (∀ (s : State) (p : Nat), p < 8 → s.portUp p = true →
    let q := s.portsAt p
    let cfg := s.actAt (Reg.ETH_CFG p)
    (∀ bytes : List Byte, 64 ≤ bytes.length → bytes.length ≤ 2048 →
      let f := bytes.take (bytes.length - 4)
      (fcsOf f ≠ bytes.drop (bytes.length - 4) →
        ∃ u, exec (.frameReceive p bytes .none) s = .next u ∧ u.ports = s.ports ∧
          u.regsAt (Reg.ETH_CNT_RX_FCS_ERR p) = s.regsAt (Reg.ETH_CNT_RX_FCS_ERR p) + 1) ∧
      (∃ u, exec (.frameReceive p bytes .pcs) s = .next u ∧ u.ports = s.ports ∧
        u.regsAt (Reg.ETH_CNT_RX_PCS_ERR p) = s.regsAt (Reg.ETH_CNT_RX_PCS_ERR p) + 1) ∧
      (fcsOf f = bytes.drop (bytes.length - 4) → beAt f 12 2 ≠ 0x8808 → (s.fstAt p f).isNone = true →
        q.unseqBytes + f.length ≤ 65536 →
        ∃ u, exec (.frameReceive p bytes .none) s = .next u ∧
          u.portsAt p = { q with unseq := q.unseq ++ [⟨f, s.rxStamp p, false⟩] } ∧
          u.regsAt (Reg.ETH_CNT_RX_FRAMES p) = s.regsAt (Reg.ETH_CNT_RX_FRAMES p) + 1)) ∧
    (∀ quanta, Fld.ETH_CFG_PFC_EN.get cfg = 0 → Fld.ETH_CFG_PAUSE_EN.get cfg = 1 →
      ∃ u, exec (.pauseFrameReceive p quanta) s = .next u ∧
        u.portsAt p = { q with paused := quanta % 2 ^ 16 != 0 } ∧
        u.regsAt (Reg.ETH_CNT_RX_MAC_CTRL p) = s.regsAt (Reg.ETH_CNT_RX_MAC_CTRL p) + 1) ∧
    (∀ quanta, (Fld.ETH_CFG_PFC_EN.get cfg ≠ 0 ∨ Fld.ETH_CFG_PAUSE_EN.get cfg ≠ 1) →
      ∃ u, exec (.pauseFrameReceive p quanta) s = .next u ∧ u.ports = s.ports ∧
        u.regsAt (Reg.ETH_CNT_RX_PAUSE_IGNORED p) = s.regsAt (Reg.ETH_CNT_RX_PAUSE_IGNORED p) + 1) ∧
    (∀ enable quanta, Fld.ETH_CFG_PFC_EN.get cfg = 1 → enable < 256 →
      ∃ u, exec (.pfcFrameReceive p enable quanta) s = .next u ∧
        ∀ i, i < 8 → (u.portsAt p).pfc.testBit i =
          if enable.testBit i then quanta.getD i 0 % 2 ^ 16 != 0 else q.pfc.testBit i) ∧
    (q.paused = true →
      ∃ u, exec (.pauseExpire p none) s = .next u ∧ u.portsAt p = { q with paused := false } ∧ u.mem = s.mem) ∧
    (∀ i, i < 8 → q.pfc.testBit i = true →
      ∃ u, exec (.pauseExpire p (some i)) s = .next u ∧ u.mem = s.mem ∧
        ∀ j, (u.portsAt p).pfc.testBit j = (j != i && q.pfc.testBit j)) ∧
    (∀ e, e < 3 → s.qPaused p e = true →
      ∃ u, exec (.pauseStorm p e) s = .next u ∧ u.fld (Reg.ETH_STATUS p) Fld.ETH_STATUS_PAUSE_STORM = 1 ∧ u.ports = s.ports) ∧
    (s.portFec p = true →
      ∃ u, exec (.uncorrectableCodeword p) s = .next u ∧ u.fld (Reg.ETH_STATUS p) Fld.ETH_STATUS_FEC_UNCORR = 1 ∧
        u.ports = s.ports)) ∧
  ((∀ (s : State) (p : Nat) (f : TxFrame) (q : Port), s.portUp p = true → s.nextFrame p = some (f, q) →
    (f.tsTwo = none ∨ q.txts.length < 64) →
    let now := BitVec.ofNat 64 s.timeNs + s.ptpAdj p Fld.ETH_PTP_TX_ADJ
    let bytes := f.tsOne.elim (s.etherNow f) fun off => s.oneStep p f.ether (s.etherNow f) off now.toNat
    let out := bytes ++ zeros (60 - bytes.length)
    ∃ u, exec (.frameTransmit p) s = .next u ∧ u.outbox = .frame p (out ++ fcsOf out) :: s.outbox ∧
      u.portsAt p = { q with txts := q.txts ++ if f.tsOne.isNone then f.tsTwo.toList.map fun tag => (now, tag) else [] } ∧
      u.regsAt (Reg.ETH_CNT_TX_FRAMES p) = s.regsAt (Reg.ETH_CNT_TX_FRAMES p) + 1 ∧ u.mem = s.mem) ∧
  (∀ (s : State) (p : Nat) (f : TxFrame) (r : List TxFrame),
    let x := s.portsAt p
    let no0 := x.q0 = [] ∨ s.qStopped p 0 = true
    let no1 := x.q1 = [] ∨ s.qStopped p 1 = true
    (x.q0 = f :: r → s.qStopped p 0 = false → s.nextFrame p = some (f, { x with q0 := r })) ∧
    (no0 → x.q1 = f :: r → s.qStopped p 1 = false → s.nextFrame p = some (f, { x with q1 := r })) ∧
    (no0 → no1 → x.q2 = f :: r → s.qStopped p 2 = false → s.nextFrame p = some (f, { x with q2 := r }))) ∧
  (∀ (s : State) (o : Who) (p : Nat) (v : Word), s.portAbsent p = false → s.mayAccess o (Reg.ETH_TXTS_POP p) = true →
    v.toNat.testBit 0 = true →
    ∃ u, exec (.txtsPop o p 0xFF v) s = .next u ∧
      u.portsAt p = { s.portsAt p with txts := (s.portsAt p).txts.drop 1 } ∧ u.regs = s.regs) ∧
  ∀ (s : State) (p : Nat) (up : Bool), s.portOn p = true →
    s.fld (Reg.ETH_STATUS p) Fld.ETH_STATUS_LINK_UP = (if up then 0 else 1) →
    ∃ u, exec (.clientLinkChange p up) s = .next u ∧
      u.fld (Reg.ETH_STATUS p) Fld.ETH_STATUS_LINK_UP = (if up then 1 else 0) ∧
      u.fld (Reg.ETH_STATUS p) Fld.ETH_STATUS_LINK_CHANGE = 1)

/-- An RX stream: HELLO opens it at its sequence, DATA within the window is held with its bytes, CLOSE ends it once N
reaches its sequence; ACKs and NAKs are sent when they are due. A TX stream: HELLO opens it, messages take the next
sequence within the windows, ACK lets go of what it covers, NAK has it sent again, timeouts count and at the limit end
it as FAILED, CLOSE ends it. What a NAK of acknowledged messages, or with a GAP outside 1 to 64, does is the model's
choice (notes/assumptions/147.md, notes/assumptions/148.md). -/
def Obligations.StreamsFollowTheirFrames : Prop :=
  ((∀ (s : State) (p : Nat) (f : FstFrame) (rest : List FstFrame) (st : Stream), s.fstFrame p f rest st → st.tx = false →
    (f.ty = 4 → st.state = .openWait →
      ∃ u v, exec (.fstHelloRxStream p) s = .next u ∧ u.stream f.stream = some v ∧ v.state = .open_ ∧ v.n = f.seq ∧
        (u.portsAt p).rx = rest) ∧
    (f.ty = 5 → st.state = .open_ → serBefore 48 f.seq st.n = false →
      ∃ u v, exec (.fstCloseRxStream p) s = .next u ∧ u.stream f.stream = some v ∧ v.state = .closing ∧
        v.closeSeq = some f.seq ∧ v.n = st.n ∧ (u.portsAt p).rx = rest) ∧
    (f.ty = 1 → st.state ≠ .openWait → segGood f = true →
      (crc32c (f.payload.take f.segLen) ≠ f.crc →
        ∃ u, exec (.fstDataReceive p) s = .next u ∧ (u.portsAt p).rx = rest ∧
          u.regsAt Reg.FST_CNT_RX_CRC_ERR = s.regsAt Reg.FST_CNT_RX_CRC_ERR + 1) ∧
      (crc32c (f.payload.take f.segLen) = f.crc → seqDist st.n f.seq < 64 → st.held.find? (·.seq = f.seq) = none →
        (s.poolPick (some st.classroom) (s.inForce Reg.FST_CFG Fld.FST_CFG_REASM_POOL) (f.lenInfo + 128)).isSome = true →
        ∃ u v m, exec (.fstDataReceive p) s = .next u ∧ u.stream f.stream = some v ∧ m ∈ v.held ∧ m.seq = f.seq ∧
          m.msgLen = f.lenInfo ∧ m.segs = [⟨f.segIdx, f.segOff, f.payload.take f.segLen⟩] ∧
          u.regsAt Reg.FST_CNT_RX_DATA = s.regsAt Reg.FST_CNT_RX_DATA + 1))) ∧
  ∀ (s : State) (id : Nat) (st : Stream), s.fstOn = true → s.stream id = some st → st.tx = false →
    s.fenced (groupOf st.port) = false →
    (∀ g, st.nakGap = some g → st.nakOn = true →
      ∃ u, exec (.nakRepeat id) s = .next u ∧ u.regsAt Reg.FST_CNT_TX_NAK = s.regsAt Reg.FST_CNT_TX_NAK + 1 ∧
        (u.portsAt st.port).q1.length = (s.portsAt st.port).q1.length + 1 ∧ u.streams = s.streams) ∧
    (0 < st.sinceAck →
      ∃ u, exec (.ackDelayExpire id) s = .next u ∧ u.stream id = some { st with sinceAck := 0 } ∧
        u.regsAt Reg.FST_CNT_TX_ACK = s.regsAt Reg.FST_CNT_TX_ACK + 1 ∧
        (u.portsAt st.port).q1.length = (s.portsAt st.port).q1.length + 1) ∧
    (st.state = .closing → st.closeSeq = some st.n →
      ∃ u, exec (.rxStreamCloseDone id) s = .next u ∧ u.stream id = none)) ∧
  ((∀ (s : State) (p : Nat) (f : FstFrame) (rest : List FstFrame) (st : Stream), s.fstFrame p f rest st → st.tx = true →
    (f.ty = 4 → st.state = .openWait → f.seq = st.start →
      ∃ u, exec (.fstHelloTxStream p) s = .next u ∧ u.stream f.stream = some { st with state := .open_, retries := 0 } ∧
        (u.portsAt p).rx = rest) ∧
    (f.ty = 5 → st.state = .open_ →
      ∃ u, exec (.fstCloseTxStream p) s = .next u ∧ u.stream f.stream = none) ∧
    (f.ty = 5 → st.state = .closing → f.seq = st.n →
      ∃ u, exec (.fstCloseTxStream p) s = .next u ∧ u.stream f.stream = none) ∧
    (f.ty = 2 → st.state ≠ .openWait → serAfter 48 f.seq st.n = false → serAfter 48 f.seq st.ackSeq = true →
      ∃ u v, exec (.fstAckReceive p) s = .next u ∧ u.stream f.stream = some v ∧ v.lastAck = f.seq ∧ v.ackSeq = f.seq ∧
        v.window = f.lenInfo ∧ v.unacked = st.unacked.filter (fun m => !serBefore 48 m.seq f.seq) ∧ v.retries = 0) ∧
    (f.ty = 3 → (st.state = .openWait ∨ serBefore 48 f.seq st.n = false) →
      ∃ u, exec (.fstNakReceive p) s = .next u ∧ u.streams = s.streams ∧
        u.regsAt Reg.FST_CNT_RX_HDR_ERR = s.regsAt Reg.FST_CNT_RX_HDR_ERR + 1) ∧
    (∀ m, f.ty = 3 → st.state ≠ .openWait → s.fenced (groupOf st.port) = false → serBefore 48 f.seq st.n = true →
      st.unacked.filter (fun m => decide (seqDist f.seq m.seq < min 64 f.lenInfo)) = [m] →
      ∃ u, exec (.fstNakReceive p) s = .next u ∧ u.streams = s.streams ∧
        u.regsAt Reg.FST_CNT_TX_RETX =
          s.regsAt Reg.FST_CNT_TX_RETX + BitVec.ofNat 64 (ceilDiv m.e.len (maxSeg st.endpoint)))) ∧
  ∀ (s : State) (id : Nat) (st : Stream), s.fstOn = true → s.stream id = some st → st.tx = true →
    (∀ m r, st.waiting = m :: r → (st.state = .open_ ∨ st.state = .closing) → st.unacked.length < s.txWindow →
      s.qRoom st.port (if m.urgent then 0 else 2) = true →
      serBefore 48 st.n (seqAdd st.lastAck st.window) = true →
      ∃ u v, exec (.fstTxSend id) s = .next u ∧ u.stream id = some v ∧ v.waiting = r ∧ v.n = seqAdd st.n 1 ∧
        v.unacked = st.unacked ++ [{ m with seq := st.n }]) ∧
    (∀ m r, st.unacked = m :: r → (st.state = .open_ ∨ st.state = .closing) →
      (st.retries < s.retxMax →
        ∃ u, exec (.fstRtoTimeout id) s = .next u ∧ u.stream id = some { st with retries := st.retries + 1 }) ∧
      (s.retxMax ≤ st.retries → st.state = .closing →
        ∃ u, exec (.fstRtoTimeout id) s = .next u ∧ u.stream id = none) ∧
      (s.retxMax ≤ st.retries → st.state = .open_ →
        ∃ u v, exec (.fstRtoTimeout id) s = .next u ∧ u.stream id = some v ∧ v.state = .failed ∧ v.unacked = [] ∧
          u.fld Reg.FST_STATUS Fld.FST_STATUS_STREAM_FAILED = 1)) ∧
    (st.state = .openWait → st.retries + 1 < s.retxMax →
      ∃ u, exec (.helloRtoTimeout id) s = .next u ∧ u.stream id = some { st with retries := st.retries + 1 }) ∧
    (st.state = .openWait → s.retxMax ≤ st.retries + 1 →
      ∃ u v, exec (.helloRtoTimeout id) s = .next u ∧ u.stream id = some v ∧ v.state = .failed) ∧
    (st.state = .closing → st.closeSent = true → st.retries + 1 < s.retxMax →
      ∃ u, exec (.closeRtoTimeout id) s = .next u ∧ u.stream id = some { st with retries := st.retries + 1 }) ∧
    (st.state = .closing → st.closeSent = true → s.retxMax ≤ st.retries + 1 →
      ∃ u, exec (.closeRtoTimeout id) s = .next u ∧ u.stream id = none))

/-! ## DRAM, tables and the Directory -/

/-- The address map loses nothing: an address that lies on a channel is found again from the channel and its address
there, in every interleaving. -/
def Obligations.DramMapIsInvertible : Prop :=
  ∀ (s : State) (a n ca : Nat), 13 ≤ s.capLog2 → s.dramLoc a = some (n, ca) → s.dramAddr n ca = a

/-- A grant of the command bus issues the request R350 picks, opens its row and counts its lines; where a rank owes
eight refreshes, it is a forced refresh instead. REFRESH pays one owed refresh of a rank and closes its rows, ZQCS
calibrates it and closes none, PATROL_SCRUB moves to the next line, in which one column is corrected; readings and
rungs are recorded. How a grant is picked and stands whole (notes/assumptions/92.md), that OWED counts by rank
(notes/assumptions/91.md), and that a DIMM_SENSOR_READ without a reading is the third failed one in a row
(notes/assumptions/176.md), is the model's choice. -/
def Obligations.DramControllersServeRefreshAndScrub : Prop :=
  ∀ (s : State) (n : Nat), n < 8 →
    let d := s.ddrsAt n
    (∀ q, s.ddrReady n = true → s.ddrOut n = false → (∀ r, r < s.ranks n → s.owed n r < 8) → s.grantPick n = some q →
      let cnt := if q.write then Reg.DDR_CNT_WRITES n else Reg.DDR_CNT_READS n
      ∃ u, exec (.dramCommandGrant n []) s = .next u ∧
        (u.ddrsAt n).urgentQ = (d.leave q).urgentQ ∧ (u.ddrsAt n).readQ = (d.leave q).readQ ∧
        (u.ddrsAt n).writeQ = (d.leave q).writeQ ∧
        (u.ddrsAt n).openRow.get (fun _ => none) (s.rowOf n q.addr).1 = some (s.rowOf n q.addr).2 ∧
        u.regsAt cnt = s.regsAt cnt + Word.ofNat q.lines.length ∧
        (q.write = false → q.urgent = true → u.regsAt (Reg.DDR_CNT_URGENT_READS n) =
          s.regsAt (Reg.DDR_CNT_URGENT_READS n) + Word.ofNat q.lines.length) ∧
        u.mem = s.mem ∧ u.bad = s.bad) ∧
    (∀ r, s.ddrRuns n = true → r < s.ranks n → 8 ≤ s.owed n r → (∀ k, k < r → s.owed n k < 8) →
      ∃ u, exec (.dramCommandGrant n []) s = .next u ∧ u.owed n r = s.owed n r - 1 ∧
        (u.ddrsAt n).urgentQ = d.urgentQ ∧ (u.ddrsAt n).readQ = d.readQ ∧ (u.ddrsAt n).writeQ = d.writeQ ∧
        u.regsAt (Reg.DDR_CNT_REF_FORCED n) = s.regsAt (Reg.DDR_CNT_REF_FORCED n) + 1 ∧ u.mem = s.mem) ∧
    (∀ r, s.ddrRuns n = true → r < s.ranks n → 0 < s.owed n r →
      ((s.panic n = false ∧ s.rankBusy n r false = false) ∨ 8 ≤ s.owed n r) →
      ∃ u, exec (.refresh n r) s = .next u ∧ u.owed n r = s.owed n r - 1 ∧
        (∀ e ∈ (u.ddrsAt n).openRow, e.1 / 16 ≠ r) ∧ u.mem = s.mem ∧
        u.regsAt (Reg.DDR_CNT_REFRESHES n) = s.regsAt (Reg.DDR_CNT_REFRESHES n) + 1) ∧
    (∀ r, s.ddrRuns n = true → r < s.ranks n → s.panic n = false → d.urgentQ = [] → s.owed n r ≤ 6 →
      ∃ u, exec (.zqcs n r) s = .next u ∧
        u.ddrsAt n = { d with calibrations := d.calibrations.put (fun _ => 0) r (d.calibrations.get (fun _ => 0) r + 1) } ∧
        u.regs = s.regs ∧ u.mem = s.mem) ∧
    (let a := s.dramAddr n (d.scrub * 64)
     s.ddrRuns n = true → s.panic n = false → s.inForce (Reg.DDR_SCHED n) Fld.DDR_SCHED_SCRUB_H ≠ 0 →
      s.ddrReady n = true → (∀ x ∈ partsOf (alignDown a 64) 64, s.badAt x = false) →
      (∃ u, exec (.patrolScrub n []) s = .next u ∧ (u.ddrsAt n).scrub = (d.scrub + 1) % 2 ^ (s.capLog2 - 6) ∧
        u.regsAt (Reg.DDR_CNT_SCRUB_LINES n) = s.regsAt (Reg.DDR_CNT_SCRUB_LINES n) + 1 ∧ u.mem = s.mem ∧ u.bad = s.bad) ∧
      ∀ c, ∃ u, exec (.patrolScrub n [c]) s = .next u ∧
        u.regsAt (Reg.DDR_CNT_CORR n) = s.regsAt (Reg.DDR_CNT_CORR n) + 1 ∧
        u.fld (Reg.DDR_EVENT n) Fld.DDR_EVENT_CORR = 1 ∧ u.mem = s.mem ∧ u.bad = s.bad) ∧
    (s.ddrEn n = true → (s.fld (Reg.DDR_CFG n) Fld.DDR_CFG_SLOTS).testBit 0 = true →
      s.inForce (Reg.DDR_THERM n) Fld.DDR_THERM_SENSOR_EN = 1 →
      (∀ t : Int, ∃ u, exec (.dimmSensorRead n 0 (some t)) s = .next u ∧
        u.fld (Reg.DDR_STATUS n) Fld.DDR_STATUS_TEMP0 = (BitVec.ofInt 8 t).toNat ∧
        (signedOf 8 (s.inForce (Reg.DDR_THERM n) Fld.DDR_THERM_LIMIT_C) ≤ t →
          u.fld (Reg.DDR_EVENT n) Fld.DDR_EVENT_OVERTEMP = 1) ∧ u.mem = s.mem) ∧
      ∃ u, exec (.dimmSensorRead n 0 none) s = .next u ∧
        u.fld (Reg.DDR_EVENT n) Fld.DDR_EVENT_SENSOR_FAIL = 1 ∧
        u.fld (Reg.DDR_STATUS n) Fld.DDR_STATUS_REF_2X = 1 ∧ u.mem = s.mem) ∧
    (let rung := s.fld (Reg.DDR_PWR n) Fld.DDR_PWR_RUNG
     let act := s.fld (Reg.DDR_STATUS n) Fld.DDR_STATUS_RUNG_ACT
     (s.ddrEn n = true → s.fenced (ddrUnit n) = false → s.ddrInit n = true →
       s.inForce (Reg.DDR_SCHED n) Fld.DDR_SCHED_PD_IDLE ≠ 0 → act < rung →
       d.urgentQ = [] → d.readQ = [] → d.writeQ = [] → d.held = [] →
       ∃ u, exec (.ddrRungDescend n) s = .next u ∧ u.fld (Reg.DDR_STATUS n) Fld.DDR_STATUS_RUNG_ACT = rung ∧ u.mem = s.mem) ∧
     (0 < act → d.waking = true → d.early = [] →
       ∃ u, exec (.ddrRungExit n) s = .next u ∧ u.fld (Reg.DDR_STATUS n) Fld.DDR_STATUS_RUNG_ACT = 0 ∧
         (2 ≤ act → (u.ddrsAt n).owed = []) ∧ u.mem = s.mem))

/-- TABLE_LOOKUP takes the oldest request; LOOKUP_RESULT answers it, a hit or a miss, with its tokens and one request
less of the context, and has a context abandoned whose entry cannot be read; TABLE_MOVE makes the next move of a
chain: the entry is copied to its new slot and its old one invalidated (when a chain may begin, and how it is
searched, is the model's choice: notes/assumptions/83.md); TE_CMD_DONE ends a READ with the entry, and a command whose
key is not the engine's with BAD_PARAM; MIRROR_RESYNC copies a line back. -/
def Obligations.TableEnginesAnswerLookups : Prop :=
  (∀ (s : State) (n : Nat) (r : LookupReq) (rest : List LookupReq), n < 16 → s.threadsOn = true →
    s.fenced (engineUnit n) = false → s.fencing (engineUnit n) = false → (s.enginesAt n).queue = r :: rest →
    (s.enginesAt n).taken.countP (·.replay) < 64 →
    ∃ u, exec (.tableLookup n) s = .next u ∧ (u.enginesAt n).queue = rest ∧
      (u.enginesAt n).taken = (s.enginesAt n).taken ++ [⟨r, s.tableFor r, false, false, false⟩] ∧ u.mem = s.mem ∧
      u.regsAt (Reg.TE_CNT_LOOKUPS n) = s.regsAt (Reg.TE_CNT_LOOKUPS n) + 1) ∧
  (∀ (s : State) (n : Nat) (l : Lookup), n < 16 → s.threadsOn = true → s.fenced (engineUnit n) = false →
    (s.enginesAt n).taken = [l] → s.lookupAnswered n l = true →
    (l.made = true ∨ l.replay = false ∧
      s.laterReads l.table l.req.table l.req.key (l.table.together l.req.urgent) = []) →
    (∀ f, f < 16 → s.fuqAt f = []) → (s.nodeOf l.req.tag).copy = false → (s.ctx l.req.ctx).cgen = l.req.cgen →
    (s.lookupFor l = .unresolved → (s.ctx l.req.ctx).state ≠ .free →
      ∃ u, exec (.lookupResult n 0) s = .next u ∧ (u.enginesAt n).taken = [] ∧
        (u.ctx l.req.ctx).reqs = (s.ctx l.req.ctx).reqs - 1 ∧ (l.req.ctx, l.req.cgen) ∈ u.rc.toAbandon) ∧
    (s.lookupFor l ≠ .unresolved →
    let res := match s.lookupFor l with
      | .hit _ b => some b
      | _ => none
    let toks := s.lookupTokens l.req res none
    s.roomFor toks = true →
    ∃ u, exec (.lookupResult n 0) s = .next u ∧ (u.enginesAt n).taken = [] ∧
      (u.ctx l.req.ctx).reqs = (s.ctx l.req.ctx).reqs - 1 ∧
      u.regsAt (Reg.TE_CNT_HITS n) = s.regsAt (Reg.TE_CNT_HITS n) + (if res.isSome then 1 else 0) ∧
      u.regsAt (Reg.TE_CNT_NO_TABLE n) = s.regsAt (Reg.TE_CNT_NO_TABLE n) + (if l.desc.isNone then 1 else 0) ∧
      ∀ x ∈ toks, x ∈ (u.banksAt (s.bankOfTag x.tag)).urgent ∨ x ∈ (u.banksAt (s.bankOfTag x.tag)).inq)) ∧
  (∀ (s : State) (n p : Nat) (c : PortCmd) (m : Move) (rest : List Move), s.portCmd n p = some c → c.chain = m :: rest →
    let w := s.portEngine c
    s.slotsReady [m.src, m.dst] = true → (s.enginesAt w).taken.any (·.replay) = false →
    (s.enginesAt w).taken.countP (·.touches c.desc c.table m) ≤ 64 →
    ∃ u, exec (.tableMove n p) s = .next u ∧ u.portCmd n p = some { c with chain := rest } ∧
      u.regsAt (Reg.TE_CNT_MOVES w) = s.regsAt (Reg.TE_CNT_MOVES w) + 1 ∧
      (m.src ≠ m.dst → s.slotClean c.desc c.table m.src → s.slotWritable c.desc m.src → s.slotWritable c.desc m.dst →
        c.desc.apart [m.src, m.dst] →
        u.bytes m.dst c.desc.esize = s.bytes m.src c.desc.esize ∧ u.bytes m.src c.desc.esize = zeros c.desc.esize)) ∧
  (∀ (s : State) (n p : Nat) (c : PortCmd), n < 16 → p < 4 → s.portCmd n p = some c →
    s.answered (108 + s.portEngine c) ((c.desc.slots c.table c.key).flatMap fun a => linesOf a c.desc.esize) = true →
    c.chain = [] →
    (c.slot.isSome = true ∨ ∀ x ∈ s.chains (s.portEngine c), x = (n, p)) →
    (∀ a e, c.op = 1 → s.portFits n c = true → (c.desc.kind ≠ kindHash → c.desc.outside c.key = false) →
      s.lookup c.desc c.table c.key = .hit a e →
      let data := decayEntry c.desc (s.period c.desc) e
      data ≠ [] →
      ∃ u, exec (.teCmdDone n p) s = .next u ∧ u.portCmd n p = none ∧
        u.fld (Reg.TE_CMD_RES n p) Fld.TE_CMD_RES_STATUS = stDone ∧ u.fld (Reg.TE_CMD_RES n p) Fld.TE_CMD_RES_BUSY = 0 ∧
        ∀ k, k < 16 → u.regsAt (Reg.TE_CMD_DATA n p k) = Word.ofNat (leAt data (8 * k) 8)) ∧
    (s.portFits n c = false →
      ∃ u, exec (.teCmdDone n p) s = .next u ∧ u.portCmd n p = none ∧
        u.fld (Reg.TE_CMD_RES n p) Fld.TE_CMD_RES_STATUS = stBadParam ∧
        u.fld (Reg.TE_CMD_RES n p) Fld.TE_CMD_RES_BUSY = 0 ∧ u.mem = s.mem)) ∧
  ∀ (s : State) (n dst src : Nat), s.resyncNext n = some (dst, src) → s.dramReady dst = true → s.dramReady src = true →
    (s.dramChan src).any s.ddrOut = false → s.chainOn n = false → s.region dst = .dram → dst % 64 = 0 →
    (src + 64 ≤ dst ∨ dst + 64 ≤ src) → s.lineTakes dst .engine = true → s.rawChan dst = none →
    ∃ u, exec (.mirrorResync n) s = .next u ∧ (∀ i, i < 64 → u.memAt (dst + i) = s.memAt (src + i)) ∧
      (∀ i, i < 4 → u.badAt (dst + 16 * i) = s.badAt (src + 16 * i)) ∧ (dst, src) ∉ (u.enginesAt n).resync ∧
      ∀ x, (x < dst ∨ dst + 64 ≤ x) → u.memAt x = s.memAt x

/-- What a table stores a lookup finds: where memory holds, in one of a key's candidate slots, the entry that an
engine has written for the key at some time, and no slot before it holds the key, the lookup of the key gives that
slot and those bytes; where every candidate slot reads and none holds the key, it misses; where none that reads holds
it and one does not read, it gives no answer. An array's lookup goes by its index. The entry written carries the key,
the period and a good check. -/
def Obligations.StoredEntriesAreFound : Prop :=
  ∀ (w s : State) (d : TableDesc) (t key : Nat) (data : List Byte), t < 64 →
    let reads := fun (a : Nat) => (∀ l ∈ linesOf a d.esize, (s.dramChan l).any s.ddrOut = false ∧ s.unsynced l = false) ∧
      ∀ g ∈ partsOf a d.esize, s.badAt g = false
    (d.kind = kindHash → d.keyLen + 8 ≤ d.esize →
      let k := d.keyOf key
      let e := w.hashEntry d t k data
      let other := fun (a : Nat) => ∀ f, s.entryAt d t a = some f → ¬(slotValid d f = true ∧ storedKey d f = k)
      (e.length = d.esize ∧ slotValid d e = true ∧ slotEmpty d e = false ∧ storedKey d e = k ∧ entryGood d t e = true ∧
        ageOf d e = w.period d % 65536) ∧
      (∀ before a after, d.candidates t k = before ++ a :: after → s.bytes a d.esize = e → reads a →
        (∀ x ∈ before, other x) → s.lookup d t key = .hit a e) ∧
      ((∀ x ∈ d.candidates t k, other x ∧ (s.entryAt d t x).isSome = true) → s.lookup d t key = .miss) ∧
      ((∀ x ∈ d.candidates t k, other x) → (∃ x ∈ d.candidates t k, s.entryAt d t x = none) →
        s.lookup d t key = .unresolved)) ∧
    (d.kind ≠ kindHash → 8 ≤ d.esize →
      (d.outside key = true → s.lookup d t key = .miss) ∧
      (∀ stamp, d.outside key = false → s.bytes (d.elem (key % 2 ^ 32)) d.esize = arrayEntry d t stamp data →
        reads (d.elem (key % 2 ^ 32)) →
        s.lookup d t key = .hit (d.elem (key % 2 ^ 32)) (arrayEntry d t stamp data)))

/-- DIR_SEARCH answers from the urgent lane first: the winner's word with PRESENT tokens or the profile's MISS_ASSOC,
and one request less. SCRUB_VISIT writes the entry of a row that differs from its shadow again, or of one whose shadow
cannot be corrected empty, and moves to the next row. Which image a chain of rows makes is read from the rules
(notes/assumptions/88.md). -/
def Obligations.DirectorySearchesAndScrubs : Prop :=
  (∀ (s : State) (r : SearchReq), s.threadsOn = true → (s.dir.urgent.head?.orElse fun _ => s.dir.queue.head?) = some r →
    (∀ f, f < 16 → s.fuqAt f = []) → (s.ctx r.ctx).inDram = false →
    let p := s.profile (s.ctx r.ctx).msg.term r.profile
    let none_ := s.noPart (tagClass r.tag) p
    let wide := s.wideKey r p
    let n := 20 * segsOf p.width
    (p.width = 0 ∨ none_ = true ∨ ∀ a, wide = some a → (linesOf a n).all s.dramReady = true) →
    (s.ctx r.ctx).cgen = r.cgen →
    let key := if segsOf p.width = 1 then r.key else s.leMem (wide.getD 0) n
    let win := if none_ || (segsOf p.width != 1 && wide.isNone) then none else s.dirWinner (tagClass r.tag) p key
    let out := match win with
      | some i => BitVec.ofNat 64 ((s.dirRowsAt i).assoc + i * 2 ^ 32 + (s.dirRowsAt i).prio * 2 ^ 48)
      | none => BitVec.ofNat 64 p.missAssoc
    let toks := (s.destTokens r.tag (tagIter r.tag) (s.nodeOf r.tag) false win.isSome fun _ => out).map
      fun t => { t with cgen := r.cgen, clgen := r.clgen, urgent := r.urgent }
    s.roomFor toks = true →
    ∃ u, exec .dirSearch s = .next u ∧ (u.ctx r.ctx).reqs = (s.ctx r.ctx).reqs - 1 ∧ u.mem = s.mem ∧
      u.dirRows = s.dirRows ∧ u.regsAt Reg.DIR_CNT_SEARCHES = s.regsAt Reg.DIR_CNT_SEARCHES + 1 ∧
      u.regsAt Reg.DIR_CNT_HITS = s.regsAt Reg.DIR_CNT_HITS + (if win.isSome then 1 else 0) ∧
      ∀ x ∈ toks, x ∈ (u.banksAt (s.bankOfTag x.tag)).urgent ∨ x ∈ (u.banksAt (s.bankOfTag x.tag)).inq) ∧
  ∀ s : State, s.inForce Reg.DIR_CFG Fld.DIR_CFG_SCRUB_EN = 1 → modeStage ≤ s.mode →
    let i := s.fld Reg.DIR_STATUS Fld.DIR_STATUS_SCRUB_IDX
    (∀ upset, ∃ u, exec (.scrubVisit .good upset) s = .next u ∧ u.dirRowsAt i = s.dirShadowAt i ∧
      u.fld Reg.DIR_STATUS Fld.DIR_STATUS_SCRUB_IDX = (i + 1) % 65536 ∧
      (∀ k, u.dirRowsAt k = if k ∈ s.entryOf i ∧ (upset = true ∨ s.dirRowsAt i ≠ s.dirShadowAt i) then s.dirShadowAt k
        else s.dirRowsAt k) ∧
      (∀ k, u.dirShadowAt k = s.dirShadowAt k) ∧ u.mem = s.mem) ∧
    ∀ upset, ∃ u, exec (.scrubVisit .uncorrectable upset) s = .next u ∧
      (∀ k ∈ s.entryOf i, u.dirRowsAt k = DirRow.zero ∧ u.dirShadowAt k = DirRow.zero) ∧
      (∀ k, k ∉ s.entryOf i → u.dirRowsAt k = s.dirRowsAt k) ∧
      u.regsAt Reg.DIR_CNT_SCRUB_UNCORR = s.regsAt Reg.DIR_CNT_SCRUB_UNCORR + 1

/-! ## The ring -/

/-- A good frame for this device in its turn hands over its records and owes an acknowledgement; one out of turn owes
a NAK; one for another device is passed on with one hop less; an unsequenced one hands over its heartbeats alone; a
broadcast of another member that is new is taken; a damaged frame is counted, and one that is to be passed on goes on
marked bad. What is padding behind the last record is the model's reading (notes/assumptions/163.md). What a link
sends and how it is watched: acknowledgements and heartbeats that are due go first, then a frame that is passed on,
then one that is sent again; a timeout sends again what is held, missed heartbeats break it, a change of the line
starts its numbers afresh, a heartbeat names its peer. That acknowledgements ride a heartbeat, and when the numbers
restart, is the model's reading (notes/assumptions/114.md). -/
def Obligations.RingFramesAndLinks : Prop :=
  (∀ (s : State) (l : Nat) (bytes : List Byte), l < 2 → s.ringRuns l = true → 64 ≤ bytes.length → bytes.length ≤ 2048 →
    let b := bytes.take (bytes.length - 4)
    let f := (RingFrame.ofBytes b).1
    let k := s.ringLinksAt l
    beAt b 12 2 = s.inForce Reg.RB_CFG Fld.RB_CFG_ETHERTYPE → beAt b 12 2 ≠ 0x8808 → beAt b 14 1 / 16 = 1 →
    (∀ pcsErr, (pcsErr = true ∨ fcsOf b ≠ bytes.drop (bytes.length - 4)) →
      ((f.unseq = true ∨ (f.bcast = true ∧ s.freshBroadcast f = false) ∨ (f.bcast = false ∧ f.dst = s.deviceId)) →
        ∃ u, exec (.ringFrameReceive l bytes pcsErr) s = .next u ∧ u.ringLinks = s.ringLinks ∧
          u.regsAt Reg.RB_CNT_RX_BAD = s.regsAt Reg.RB_CNT_RX_BAD + 1) ∧
      (f.unseq = false → ((f.bcast = true ∧ s.freshBroadcast f = true) ∨ (f.bcast = false ∧ f.dst ≠ s.deviceId)) →
        f.lseq = k.e → f.hops ≠ 0 → s.ringUp (1 - l) = true →
        ∃ u, exec (.ringFrameReceive l bytes pcsErr) s = .next u ∧ (u.ringLinksAt l).e = k.e ∧
          (u.ringLinksAt (1 - l)).fwd = (s.ringLinksAt (1 - l)).fwd ++ [{ f with bad := true, hops := f.hops - 1 }] ∧
          u.regsAt Reg.RB_CNT_RX_BAD = s.regsAt Reg.RB_CNT_RX_BAD + 1 ∧
          u.regsAt Reg.RB_CNT_FORWARDED = s.regsAt Reg.RB_CNT_FORWARDED + 1)) ∧
    (fcsOf b = bytes.drop (bytes.length - 4) → f.unseq = true →
      ∃ u, exec (.ringFrameReceive l bytes false) s = .next u ∧ (u.ringLinksAt l).e = k.e ∧
        (u.ringLinksAt l).ackDue = k.ackDue ∧ (u.ringLinksAt l).nakDue = k.nakDue ∧
        (u.ringLinksAt l).rx = k.rx ++ (f.recs.filter (·.ty = recHeartbeat)).map fun r => ⟨f.src, f.bcast, r.ty, false, r.body⟩) ∧
    (fcsOf b = bytes.drop (bytes.length - 4) → f.unseq = false → f.bcast = true → f.lseq = k.e → f.src ≠ s.deviceId →
      (∀ e, s.ring.lastB.find? (fun e => e.1 = f.src) = some e → serAfter 32 f.bseq e.2 = true) →
      (∀ r ∈ f.recs, r.ty ≠ recMirror) →
      ∃ u, exec (.ringFrameReceive l bytes false) s = .next u ∧ (u.ringLinksAt l).e = ringAdd k.e 1 ∧
        (f.src, f.bseq) ∈ u.ring.lastB ∧
        (u.ringLinksAt l).rx = k.rx ++ f.recs.map fun r => ⟨f.src, true, r.ty, false, r.body⟩) ∧
    (fcsOf b = bytes.drop (bytes.length - 4) → f.unseq = false → f.bcast = false →
      (f.lseq = k.e → f.dst = s.deviceId → (∀ r ∈ f.recs, r.ty ≠ recMirror) →
        ∃ u, exec (.ringFrameReceive l bytes false) s = .next u ∧ (u.ringLinksAt l).e = ringAdd k.e 1 ∧
          (u.ringLinksAt l).ackDue = true ∧
          (u.ringLinksAt l).rx = k.rx ++ f.recs.map fun r => ⟨f.src, false, r.ty, false, r.body⟩) ∧
      (serAfter 32 f.lseq k.e = true → f.lseq ≠ k.e →
        ∃ u, exec (.ringFrameReceive l bytes false) s = .next u ∧ (u.ringLinksAt l).nakDue = true ∧
          (u.ringLinksAt l).e = k.e ∧ (u.ringLinksAt l).rx = k.rx) ∧
      (f.lseq = k.e → f.dst ≠ s.deviceId → f.hops ≠ 0 → s.ringUp (1 - l) = true →
        ∃ u, exec (.ringFrameReceive l bytes false) s = .next u ∧
          (u.ringLinksAt (1 - l)).fwd = (s.ringLinksAt (1 - l)).fwd ++ [{ f with hops := f.hops - 1 }] ∧
          u.regsAt Reg.RB_CNT_FORWARDED = s.regsAt Reg.RB_CNT_FORWARDED + 1))) ∧
  (∀ (s : State) (l : Nat), l < 2 →
    let k := s.ringLinksAt l
    (s.ringRuns l = true →
      (k.hbDue = true →
        ∃ u b, exec (.ringFrameTransmit l) s = .next u ∧ u.outbox = .ring l b :: s.outbox ∧
          u.ringLinksAt l = { k with hbDue := false, ackDue := false, nakDue := false } ∧
          u.regsAt Reg.RB_CNT_TX_FRAMES = s.regsAt Reg.RB_CNT_TX_FRAMES + 1) ∧
      (∀ f r, k.hbDue = false → k.ackDue = false → k.nakDue = false → s.mode ≠ modeSafe → k.fwd = f :: r → s.ringUp l = true →
        s.fld Reg.RB_STATUS ⟨4 + l, 4 + l⟩ = 0 → k.held.length < 128 → k.midRecord = false →
        ∃ u b, exec (.ringFrameTransmit l) s = .next u ∧ u.outbox = .ring l b :: s.outbox ∧ (u.ringLinksAt l).fwd = r ∧
          (u.ringLinksAt l).retx = k.retx ∧ u.regsAt Reg.RB_CNT_TX_FRAMES = s.regsAt Reg.RB_CNT_TX_FRAMES + 1 ∧
          (f.bad = false → (u.ringLinksAt l).tx = ringAdd k.tx 1 ∧ (u.ringLinksAt l).held = k.held ++ [{ f with lseq := k.tx }])) ∧
      (∀ f r, k.hbDue = false → k.ackDue = false → k.nakDue = false → s.mode ≠ modeSafe → k.fwd = [] → k.retx = f :: r →
        ∃ u b, exec (.ringFrameTransmit l) s = .next u ∧ u.outbox = .ring l b :: s.outbox ∧
          (u.ringLinksAt l).retx = r ∧ u.regsAt Reg.RB_CNT_RETRANSMITTED = s.regsAt Reg.RB_CNT_RETRANSMITTED + 1) ∧
      (∃ u, exec (.heartbeatSend l) s = .next u ∧ u.ringLinksAt l = { k with hbDue := true } ∧ u.regs = s.regs) ∧
      (k.held ≠ [] → k.retries < max 1 (s.inForce Reg.RB_LINK Fld.RB_LINK_RETRY_MAX) →
        ∃ u, exec (.ringRetxTimeout l) s = .next u ∧ (u.ringLinksAt l).retx = k.held ∧ (u.ringLinksAt l).held = k.held ∧
          u.regs = s.regs) ∧
      (s.tenikUp = true →
        ∃ u, exec (.linkBroken l) s = .next u ∧ (u.ringLinksAt l).current = false ∧
          u.fld (Reg.RB_EVENT l) Fld.RB_EVENT_BROKEN = 1)) ∧
    (∀ up, k.up ≠ up →
      ∃ u, exec (.ringLinkChange l up) s = .next u ∧ (u.ringLinksAt l).up = up ∧ (u.ringLinksAt l).tx = 0 ∧
        (u.ringLinksAt l).e = 0) ∧
    ∀ r, k.rx.find? (fun r => r.ty = recHeartbeat) = some r →
      let id := leAt r.body 0 2 % 4096
      ∃ u, exec (.heartbeatReceive l) s = .next u ∧ (u.ringLinksAt l).peer = some id ∧ (u.ringLinksAt l).current = true ∧
        (u.ringLinksAt l).conflict = decide (id = s.deviceId) ∧
        (id = s.deviceId → u.fld (Reg.RB_EVENT l) Fld.RB_EVENT_ID_CONFLICT = 1))

/-- The records of a link: a token goes to its bank or is counted dead, the announcement of a Term is recorded, a
mirror record goes into the log or finds it full, and the log's oldest entry is applied. That one unit of the mirror
log stays free is the model's reading (notes/assumptions/115.md). Accesses to another member's registers (R458): a
load leaves as a request, or waits behind the thread's earlier accesses to that member, and its thread waits; the
answer, or 0 after the timeout, ends it, and the next one that waited leaves; a request of another member is answered
with what it reads. The layout of the bodies is the model's own (notes/assumptions/71.md); what an answer belongs to
and what a timeout ends is read from the rules (notes/assumptions/72.md), and that a request that has left is not
called back is the model's choice (notes/assumptions/181.md). -/
def Obligations.RingRecordsAndRemoteAccesses : Prop :=
  ((∀ (s : State) (l : Nat) (r : RingIn), l < 2 → (s.ringLinksAt l).rx.find? (fun r => r.ty != recHeartbeat) = some r →
    let rest := (s.ringLinksAt l).rx.erase r
    (r.ty = recToken →
      let tag := leAt r.body 8 6
      let x := s.ctx (tagCtx tag)
      let ctl := leAt r.body 14 1
      let t : Token := ⟨BitVec.ofNat 64 (leAt r.body 0 8), tag, ctl % 4, ctl.testBit 2, x.pinned, x.cgen,
        s.clgen (tagClass tag), true⟩
      (s.fld (Reg.CL_BIND (tagClass tag)) Fld.CL_BIND_STATE = 2 → s.tokenAccepted t = true → s.roomFor [t] = true →
        ∃ u, exec (.remoteTokenReceive l) s = .next u ∧ (u.ringLinksAt l).rx = rest ∧
          (t ∈ (u.banksAt (s.bankOfTag tag)).urgent ∨ t ∈ (u.banksAt (s.bankOfTag tag)).inq) ∧
          u.regsAt Reg.RB_CNT_TOKENS_RX = s.regsAt Reg.RB_CNT_TOKENS_RX + 1) ∧
      (s.tokenAccepted t = false →
        ∃ u, exec (.remoteTokenReceive l) s = .next u ∧ (u.ringLinksAt l).rx = rest ∧ u.banks = s.banks ∧
          u.regsAt Reg.RC_CNT_EMIT_DEAD = s.regsAt Reg.RC_CNT_EMIT_DEAD + 1)) ∧
    (r.ty = recTerm → r.src < 4096 →
      ∃ u, exec (.termRecordReceive l) s = .next u ∧ (u.ringLinksAt l).rx = rest ∧ u.terms = s.terms ∧
        u.fld Reg.RB_TERM_LAST Fld.RB_TERM_LAST_SOURCE = r.src ∧
        u.fld Reg.RB_TERM_LAST Fld.RB_TERM_LAST_SLOT = leAt r.body 0 1 % 4 ∧
        u.fld Reg.RB_TERM_LAST Fld.RB_TERM_LAST_EPOCH = leAt r.body 2 2 ∧
        u.fld (Reg.RB_EVENT l) Fld.RB_EVENT_TERM_SEEN = 1) ∧
    (r.ty = recMirror →
      let n := r.logUnits
      (∀ at_, s.mlogPlace n = some at_ →
        ∃ u, exec (.mirrorRecordReceive l) s = .next u ∧ (u.ringLinksAt l).rx = rest ∧
          u.ring.mlog = s.ring.mlog ++ [(at_, n)]) ∧
      (s.mlogPlace n = none → s.inForce Reg.RB_CFG Fld.RB_CFG_MLOG_DROP = 0 →
        ∃ u, exec (.mirrorRecordReceive l) s = .next u ∧ u.ringLinks = s.ringLinks ∧ u.mem = s.mem ∧
          u.fld (Reg.RB_EVENT l) Fld.RB_EVENT_MLOG_FULL = 1))) ∧
  ∀ (s : State) (i n : Nat) (rest : List (Nat × Nat)), s.tenikUp = true → modeStage ≤ s.mode →
    s.inForce Reg.RB_CFG Fld.RB_CFG_MLOG_CONS = 1 → s.ring.mlog = (i, n) :: rest →
    let e := s.bytes (s.fld Reg.RB_MLOG_BASE Fld.RB_MLOG_BASE_BASE * 64 + i * 64) (n * 64)
    s.writesFree (mirrorWrites (leAt e 38 1) (e.drop 40)) = true → (∀ k, k < 16 → (s.enginesAt k).taken = []) →
    ∃ u, exec .mirrorLogApply s = .next u ∧ u.ring.mlog = rest ∧ u.ringLinks = s.ringLinks) ∧
  ((∀ (s : State) (t rd dev off : Nat), s.canIssue t = true → (s.thread t).priv = 0 → dev < 4096 → off < 0x4000000 →
    off % 8 = 0 → dev ≠ s.deviceId → s.reachable dev = true → (∀ w a, s.watched t w a = false) →
    let behind := s.ring.remotes.any fun m => m.thread == t && m.dev == dev
    ∃ u, exec (.remoteWindowAccess t rd dev off 8 none) s = .next u ∧ (u.thread t).state = .waiting ∧
      u.ring.remotes = s.ring.remotes ++ [⟨s.ring.racc, t, dev, off, 8, none, !behind⟩] ∧ u.mem = s.mem ∧
      (behind = true → u.ringLinks = s.ringLinks) ∧
      ∀ k turned, behind = false → s.ringRoute dev = some (k, turned) →
        ∃ f, (u.ringLinksAt k).other = (s.ringLinksAt k).other ++ [f] ∧ f.dst = dev ∧
          f.recs = [⟨recRaccReq, false, raccReq s.ring.racc t off 8 none⟩]) ∧
  (∀ (s : State) (l tag v r n : Nat) (a : Addr) (x : RingIn) (m : Remote), l < 2 →
    (s.ringLinksAt l).rx.find? (fun r => r.ty != recHeartbeat) = some x → x.ty = recRaccRsp →
    raccRspOf x.body = (tag, v) → s.ring.remotes.find? (fun m => m.tag = tag && m.dev = x.src) = some m →
    m.write = none → (s.ring.remotes.any fun y => y.thread = m.thread && y.write.isNone && decide (m.tag < y.tag)) = false →
    (s.thread m.thread).waiting = true → (s.thread m.thread).wait = .load r a n → s.region a.toNat = .remote →
    let left := s.ring.remotes.filter (·.tag != m.tag)
    ∃ u, exec (.raccRspReceive l) s = .next u ∧
      ((∀ y ∈ left, y.thread = m.thread → y.dev = m.dev → y.sent = true) → u.ring.remotes = left) ∧
      (∀ y, left.find? (fun y => y.thread = m.thread && y.dev = m.dev) = some y → y.sent = false → s.reachable m.dev = true →
        u.ring.remotes = left.map fun x => if x.tag = y.tag then { x with sent := true } else x) ∧
      (r ≠ 0 → (u.thread m.thread).gr r = BitVec.ofNat 64 (v % 2 ^ (8 * m.size))) ∧
      (u.thread m.thread).pc = (s.thread m.thread).pc + 4#48) ∧
  (∀ (s : State) (t r n : Nat) (a : Addr) (m : Remote), s.ring.remotes.find? (fun m => m.thread = t) = some m →
    m.write = none → (s.ring.remotes.any fun y => y.thread = t && y.write.isNone && decide (m.tag < y.tag)) = false →
    (∀ y ∈ s.ring.remotes, y.tag ≠ m.tag → y.thread = t → y.dev = m.dev → y.sent = true) →
    (s.thread t).waiting = true → (s.thread t).wait = .load r a n → s.region a.toNat = .remote →
    ∃ u, exec (.raccTimeout t) s = .next u ∧ u.ring.remotes = s.ring.remotes.filter (·.tag != m.tag) ∧
      u.regsAt Reg.RB_CNT_RACC_FAIL = s.regsAt Reg.RB_CNT_RACC_FAIL + 1 ∧ (r ≠ 0 → (u.thread t).gr r = 0) ∧
      (u.thread t).pc = (s.thread t).pc + 4#48) ∧
  ∀ (s : State) (l tag t off k : Nat) (turned : Bool) (x : RingIn), l < 2 →
    (s.ringLinksAt l).rx.find? (fun r => r.ty != recHeartbeat) = some x → x.ty = recRaccReq →
    raccReqOf x.body = (tag, t, off, 8, none) → off % 8 = 0 →
    let s1 := (dropRec l x s).2
    let got := spaceRead (.remote t x.src) off 8 s1
    s.mayAccess (.remote t x.src) off = true → got.2.ringRoute x.src = some (k, turned) → got.2.ring.mute = false →
    ∃ u f, exec (.raccReqReceive l) s = .next u ∧ (u.ringLinksAt k).other = (got.2.ringLinksAt k).other ++ [f] ∧
      f.dst = x.src ∧ f.recs = [⟨recRaccRsp, false, raccRsp tag got.1.toNat⟩])

/-! ## Reset, power, pins -/

/-- PERST# empties every map and queue and puts every register at its reset value; what it does not reach is the test
access port, which only loses an access in progress, and the level of the supplies. At its deassertion the straps are
taken, and the boot ROM goes on to LOAD, or stays in RESET with a bad fuse block, its clocks started, or in
manufacturing test. That the port loses its access is the model's choice (notes/assumptions/131.md), and so are the
fuses' contents (notes/assumptions/118.md) and that every clock has locked behind the boot ROM
(notes/assumptions/126.md). -/
def Obligations.PerstAndTheBootRom : Prop :=
  (∀ s : State,
    exec .perstAssert s = .next { State.reset with
      pending := s.pending, free := s.free, outbox := s.outbox, tap := s.tap.cut, boot := { State.reset.boot with supplyLow := s.boot.supplyLow } }) ∧
  ∀ (s : State) (w a : Nat) (tap fuseOk : Bool), s.boot.perst = true → w < 4 → a < 4 →
    (∃ u, exec (.perstDeassert w a tap false true) s = .next u ∧ u.mode = modeLoad ∧ u.boot.perst = false ∧
      u.boot.straps = ⟨w, a, tap, false⟩ ∧ u.boot.fuses.uid = Config.uid ∧
      u.fld Reg.CLK_STATUS Fld.CLK_STATUS_ROOT_LOCK = 1 ∧ u.regsAt Reg.GB_BOOT = Word.ofNat (Config.random s.free) ∧
      u.fld Reg.DEV_EVENT Fld.DEV_EVENT_MODE_CHANGE = 1) ∧
    (∃ u, exec (.perstDeassert w a tap false false) s = .next u ∧ u.fld Reg.DEV_ID Fld.DEV_ID_FUSE_ERR = 1 ∧
      u.fld Reg.CLK_STATUS Fld.CLK_STATUS_ROOT_LOCK = 1 ∧
      u.mode = s.mode ∧ u.boot.perst = false) ∧
    ∃ u, exec (.perstDeassert w a tap true fuseOk) s = .next u ∧ u.regs = s.regs ∧ u.boot.perst = false

/-- An idle Street goes down to its rung, one in Detention whether idle or not, and comes back to L0 unless a trip or
Detention holds it. That RUNG 4 outside Detention acts as 3 is the model's reading (notes/assumptions/128.md). The
junction sensors warn once and trip, the trip holds every Street at L3, and its end lets them go; a supply, the root
PLL and the PCIe link report what happens to them. MAX_C shows the low byte of a reading, and what is compared with
the thresholds is the reading itself: the model's choice (notes/assumptions/187.md); that a supply's return comes as
an operand is its choice too (notes/assumptions/190.md). -/
def Obligations.RungsSensorsAndLinksReport : Prop :=
  (∀ (s : State) (k : Nat), k < 12 → modeStage ≤ s.mode →
    let now := s.fld (Reg.ST_STATUS k) Fld.ST_STATUS_RUNG_ACT
    (s.streetIdle k = true → s.fenced ⟨.street, k⟩ = false → now < s.streetRung k →
      ∃ u, exec (.streetRungDescend k) s = .next u ∧
        u.fld (Reg.ST_STATUS k) Fld.ST_STATUS_RUNG_ACT = s.streetRung k ∧ u.mem = s.mem ∧ u.desk = s.desk) ∧
    (s.fenced ⟨.street, k⟩ = true → now < s.streetRung k →
      ∃ u, exec (.streetRungDescend k) s = .next u ∧
        u.fld (Reg.ST_STATUS k) Fld.ST_STATUS_RUNG_ACT = s.streetRung k ∧ u.mem = s.mem) ∧
    (s.boot.tripHold = false → s.fenced ⟨.street, k⟩ = false →
      ∃ u, exec (.streetRungExit k) s = .next u ∧ u.fld (Reg.ST_STATUS k) Fld.ST_STATUS_RUNG_ACT = 0 ∧ u.mem = s.mem ∧
        u.desk = s.desk)) ∧
  (∀ (s : State) (reading : Int) (sensor : Nat), s.boot.perst = false → sensor < 16 →
    ((s.warnC : Int) ≤ reading → s.boot.warnArmed = true →
      ∃ u, exec (.thermWarn reading sensor) s = .next u ∧ u.fc.queue = s.fc.queue ++ [⟨156, clsC, 0x0C, none, 0⟩] ∧
        u.junction = reading ∧ u.fld Reg.PWR_TEMP Fld.PWR_TEMP_MAX_C = (reading % 256).toNat ∧
        u.fld Reg.PWR_TEMP Fld.PWR_TEMP_MAX_SENSOR = sensor ∧ u.boot.warnArmed = false) ∧
    ((s.warnC : Int) ≤ reading → s.boot.warnArmed = false →
      ∃ u, exec (.thermWarn reading sensor) s = .next u ∧ u.fc = s.fc ∧ u.junction = reading) ∧
    ((s.tripC : Int) ≤ reading →
      ∃ u, exec (.thermTrip reading sensor) s = .next u ∧ u.fc.queue = s.fc.queue ++ [⟨156, clsF, 0x0D, none, 0⟩] ∧
        u.boot.tripHold = true ∧ ∀ k, k < 12 → 3 ≤ u.fld (Reg.ST_STATUS k) Fld.ST_STATUS_RUNG_ACT) ∧
    (reading < (s.warnC : Int) →
      ∃ u, exec (.junctionReadingFall reading sensor) s = .next u ∧ u.junction = reading ∧ u.fc = s.fc ∧
        (reading ≤ (s.warnC : Int) - 5 → u.boot.warnArmed = true) ∧
        (s.boot.tripHold = true → s.boot.leftSafe = true → u.boot.tripHold = false ∧
          ∀ k, k < 12 → s.fenced ⟨.street, k⟩ = false → u.fld (Reg.ST_STATUS k) Fld.ST_STATUS_RUNG_ACT = 0)) ∧
    (∀ level : SupplyLevel,
      ∃ u, exec (.supply level) s = .next u ∧
        u.boot.supplyLow = (level == .low || level == .dip || (level == .high && s.boot.supplyLow)) ∧
        (u.boot.supplyLow = true → u.errN = false) ∧
        u.fc.queue = s.fc.queue ++ (if level = .low ∨ level = .high then [⟨156, clsF, 0x0E, none, 0⟩] else [])) ∧
    (s.fld Reg.CLK_STATUS Fld.CLK_STATUS_ROOT_LOCK = 1 →
      ∃ u, exec .rootPllLockLoss s = .next u ∧ u.fc.queue = s.fc.queue ++ [⟨156, clsF, 0x0B, none, 0⟩] ∧
        u.fld Reg.CLK_STATUS Fld.CLK_STATUS_ROOT_LOCK = 0) ∧
    ∀ speed width, 1 ≤ speed → speed ≤ 4 → width ∈ [4, 8, 16] → width ≤ s.boot.straps.width →
      s.fld Reg.HI_STATUS Fld.HI_STATUS_LINK_SPEED ≠ speed →
      ∃ u, exec (.pcieLinkChange speed width) s = .next u ∧ u.fld Reg.HI_STATUS Fld.HI_STATUS_LINK_SPEED = speed ∧
        u.fld Reg.HI_STATUS Fld.HI_STATUS_LINK_WIDTH = width ∧ u.fld Reg.HI_EVENT Fld.HI_EVENT_LINK_CHANGE = 1)

/-- A tick advances both counts by 4 × (1 + RATE × 2^−32) ns, both kept with 32 bits of fraction; a set or a step
takes effect at one tick and leaves MONO alone. The fixed-point form of the counts, and that a set clears the
fraction, is the model's reading (notes/assumptions/9.md). -/
def Obligations.TheTimebaseTicksAndIsSet : Prop :=
  (∀ s : State, s.fld Reg.CLK_STATUS Fld.CLK_STATUS_ROOT_LOCK = 1 →
    let d := 4 * (2 ^ 32 + signedOf 32 (s.fld Reg.TB_RATE Fld.TB_RATE_RATE))
    ∃ u, exec .timebaseTick s = .next u ∧ u.regs = s.regs ∧ u.tb.set = none ∧ u.tb.step = none ∧
      (u.tb.mono : Int) = (s.tb.mono + d) % 2 ^ 96 ∧
      (s.tb.set = none → s.tb.step = none → (u.tb.time : Int) = (s.tb.time + d) % 2 ^ 96) ∧
      (∀ v, s.tb.set = some v → s.tb.step = none → u.timeNs = v.toNat) ∧
      ∀ v, s.tb.set = none → s.tb.step = some v → (u.tb.time : Int) = (s.tb.time + d + v.toInt * 2 ^ 32) % 2 ^ 96) ∧
  ∀ (s : State) (o : Who) (v : Word),
    (s.mayAccess o Reg.TB_SET = true →
      ∃ u, exec (.tbSet o 0xFF v) s = .next u ∧ u.tb = { s.tb with set := some v }) ∧
    (s.mayAccess o Reg.TB_STEP = true →
      ∃ u, exec (.tbStep o 0xFF v) s = .next u ∧ u.tb = { s.tb with step := some v })

/-- The test access port loads its instructions; SAMPLE/PRELOAD scans the boundary chain and so does EXTEST while
PERST# is asserted, which acts as BYPASS otherwise; a code that is not listed acts as BYPASS; REGACC captures, starts
an access unless one is in progress or it is misaligned, and acts as BYPASS with STRAP_TAP at 1; the access is made as
the debug port. The order of the chain, and what a code that is not listed leaves in the instruction register, is the
model's choice (notes/assumptions/189.md). What the sideband answers, with a PEC where it is asked for, and that it
changes nothing; a write of a listed code is accepted, a data byte behind it is not, and neither is a code that is not
listed. The PEC's polynomial is presumed (notes/assumptions/188.md), and that such a code comes as the operand of
SB_PART is the model's choice (notes/assumptions/190.md). -/
def Obligations.TheTestPortAndTheSideband : Prop :=
  ((∀ (c : Instr) (code : Nat),
    (c, code) ∈ ([(.tapReset, 0x01), (.highz, 0x03), (.clamp, 0x04), (.bypass 0xFF, 0xFF)] : List (Instr × Nat)) →
    ∀ s : State, exec c s = .next ((Upd.tap { s.tap with ir := code }).apply s)) ∧
  (∀ (s : State) (code : Nat), code < 256 → code ∉ [0x00, 0x01, 0x02, 0x03, 0x04, 0x20] →
    exec (.bypass code) s = .next ((Upd.tap { s.tap with ir := code }).apply s)) ∧
  (∀ (s : State) (ones : List Pin),
    (∃ u, exec (.samplePreload ones) s = .next u ∧ u.tap = { s.tap with ir := 0x02, boundary := ones } ∧
      u.outbox = .scan (((Upd.tap { s.tap with ir := 0x02 }).apply s).pinsHigh s.free) :: s.outbox ∧ u.regs = s.regs ∧
      u.boot = s.boot) ∧
    (s.boot.perst = true →
      ∃ u, exec (.extest ones) s = .next u ∧ u.tap = { s.tap with ir := 0x00, boundary := ones } ∧
        u.outbox = .scan (((Upd.tap { s.tap with ir := 0x00 }).apply s).pinsHigh s.free) :: s.outbox ∧ u.regs = s.regs ∧
        u.boot = s.boot ∧ ∀ p, cellDrives p = true → u.drive p = if p ∈ ones then .high else .low) ∧
    (s.boot.perst = false → exec (.extest ones) s = .next ((Upd.tap { s.tap with ir := 0x00 }).apply s))) ∧
  (∀ s : State, ∃ u, exec .idcode s = .next u ∧ u.tap = { s.tap with ir := 0x01 } ∧
    u.outbox = .readData [0x6F, 0x05, 0x64, 0x19] false :: s.outbox) ∧
  (∀ (s : State) (off rsv : Nat) (wr half : Bool) (data : Word),
    (s.boot.straps.tap = true → exec (.regacc off wr half rsv data) s = .next ((Upd.tap { s.tap with ir := 0x20 }).apply s)) ∧
    (s.boot.straps.tap = false →
      ∃ u b, exec (.regacc off wr half rsv data) s = .next u ∧ u.outbox = .readData b false :: s.outbox ∧ b.length = 12 ∧
        b.drop 4 = leBytes 8 s.tap.data.toNat ∧ u.regs = s.regs ∧
        (s.tap.busy = true → u.tap = { s.tap with ir := 0x20, ignored := true }) ∧
        (s.tap.busy = false → off < 2 ^ 26 → off % (if half then 4 else 8) ≠ 0 →
          u.tap.busy = false ∧ u.tap.done = false ∧ u.tap.access = s.tap.access) ∧
        (s.tap.busy = false → off < 2 ^ 26 → off % (if half then 4 else 8) = 0 →
          u.tap.busy = true ∧ u.tap.done = false ∧ u.tap.ignored = false ∧
          u.tap.access = some (off, if wr then some data else none, half)))) ∧
  ∀ (s : State) (off : Nat),
    (s.tap.access = some (off, none, false) → off % 8 = 0 → dbgDataCore off = none →
      off < 0x300000 ∨ 0xF00000 ≤ off →
      ∃ u, exec .regaccAccessDone s = .next u ∧ u.regs = s.regs ∧
        u.tap = { s.tap with busy := false, done := true, access := none, data := s.regReadBy .debug off }) ∧
    (∀ k, s.tap.access = some (off, none, false) → off % 8 = 0 → dbgDataCore off = none → s.mayAccess .debug off = true →
      k < 12 → off / 0x100000 = 3 + k → s.boot.tripHold = false → s.fenced ⟨.street, k⟩ = false →
      let s1 := (setFld (Reg.ST_STATUS k) Fld.ST_STATUS_RUNG_ACT 0 s).2
      ∃ u, exec .regaccAccessDone s = .next u ∧ u.regs = s1.regs ∧
        u.tap = { s.tap with busy := false, done := true, access := none, data := s1.regReadBy .debug off }) ∧
    ∀ v, s.tap.access = some (off, some v, false) → off % 8 = 0 →
      ∃ u, exec .regaccAccessDone s = .next u ∧
        u.tap = { s.tap with busy := false, done := true, access := none, data := 0 } ∧
        ∃ w, exec (.registerWrite .debug off 0xFF v) s = .next w ∧ u.regs = w.regs ∧ u.gb = w.gb) ∧
  (∀ s : State,
    let a := 0x5C + s.boot.straps.smbA
    let gives := fun (os : List Out) =>
      (Host.Outcome.next ((Upd.outbox (os ++ s.outbox)).apply s) : Host.Outcome State Fault Refusal)
    let serves := fun (code n v : Nat) (c : SbAccess → Instr) =>
      exec (c (.read false)) s = gives [.sideband (some v)] ∧
      exec (c (.read true)) s =
        gives [.sidebandPec (crc8 ([2 * a, code, 2 * a + 1] ++ (leBytes n v).map (·.toNat))), .sideband (some v)] ∧
      exec (c (.write [])) s = gives [.sidebandAck] ∧
      ∀ d ds, exec (c (.write (d :: ds))) s = gives [.sideband none, .sidebandAck]
    serves 0x00 2 0x9640 (.sbPart · none) ∧ (∀ x other, exec (.sbPart x (some other)) s = gives [.sideband none]) ∧
    serves 0x01 1 0xA1 .sbRevision ∧ serves 0x02 1 (s.mode % 8) .sbMode ∧
    serves 0x03 2 (bit s.errN + 256 * s.fld Reg.FC_ERR Fld.FC_ERR_FIRST_SOURCE) .sbErrStatus ∧
    serves 0x04 1 (if s.boot.tempRead then s.fld Reg.PWR_TEMP Fld.PWR_TEMP_MAX_C else 0x80) .sbTemp ∧
    (s.dimmReadings = [] → serves 0x05 1 0x80 .sbDimmTemp) ∧
    (∀ m, m ∈ s.dimmReadings → (∀ x ∈ s.dimmReadings, x ≤ m) → serves 0x05 1 (tempByte m) .sbDimmTemp) ∧
    ((s.errN = true ∨ (s.warnC : Int) ≤ s.junction) →
      exec .sbAlertResponse s = .next ((Upd.outbox (.alert (0x5C + s.boot.straps.smbA) :: s.outbox)).apply s)) ∧
    (s.errN = false → s.junction < (s.warnC : Int) → exec .sbAlertResponse s = .next s))

/-! ## Registers and commit groups -/

/-- GO copies the shadows of a group to its pending copies and clears DONE; at the safe point the pending copies come
into force and DONE is set. -/
def Obligations.CommitGroupsCaptureAndTakeEffect : Prop :=
  (∀ (s : State) (o : Who) (g : Grp) (off go d : Nat), g.exists = true → g.place = some (off, go, d) →
    s.mayAccess o off = true → off < 0x2000000 → s.populated off = true →
    ∃ u, exec (.commitGo o off 0xFF (Word.ofNat (2 ^ go))) s = .next u ∧ u.grpDone g = false ∧
      ∀ x ∈ grpOffsets g, u.pendcAt x = u.regsAt x) ∧
  ∀ (s : State) (g : Grp), g.exists = true → s.grpDone g = false → s.safePoint g = true →
    ∃ u, exec (.commitSafePoint g) s = .next u ∧ u.grpDone g = true ∧
      (g ≠ .pg → ∀ x ∈ grpOffsets g, u.actAt x &&& shadowed x = s.pendcAt x &&& shadowed x)

/-- A write changes the fields of its word as their types say, bit by bit: an RW-L field takes what is written, an
RW-S field's shadow does, an RW-F field does in STAGE alone, a bit of a W1C field is cleared by a 1, an RO and a WO
field stay, and so does what belongs to no field; of a half word only that half is written. A write that does not
reach the registers, or that no register takes, changes nothing; a host write of another size is only counted, in
every mode; a write to a register of a Street below L0 brings it back. A write of the LOAD window stores its bytes,
one of an MSI-X address its address. The LOAD window's GO starts a verification, unless it is written with half a
word, and a write of TE_CMD starts its command unless the port is busy. That a write of LOAD_GO or TE_CMD by half
words does what is said here is the model's choice (notes/assumptions/12.md), and so is the place of the LOAD window
in Square memory (notes/assumptions/185.md). -/
def Obligations.RegisterWritesChangeTheirFields : Prop :=
  (∀ (s : State) (o : Who) (off en : Nat) (v : Word), off % 8 = 0 → off < 0x2000000 →
    ((laneOk en = true → s.mayAccess o off = false) → (laneOk en = true ∨ o ≠ .host none ∨ s.boot.perst = true) →
      exec (.registerWrite o off en v) s = .next s) ∧
    (o = .host none → s.boot.perst = false → laneOk en = false → ∃ u, exec (.registerWrite o off en v) s = .next u ∧
      u.regsAt Reg.HI_CNT_BAD_SIZE = s.regsAt Reg.HI_CNT_BAD_SIZE + 1 ∧
      ∀ x, x ≠ Reg.HI_CNT_BAD_SIZE → u.regsAt x = s.regsAt x) ∧
    (s.mayAccess o off = true → laneOk en = true → inMsix off = false → s.populated off = false →
      exec (.registerWrite o off en v) s = .next s) ∧
    (s.mayAccess o off = true → en = 0xFF → inMsix off = true → off % 16 = 0 →
      ∃ u, exec (.registerWrite o off en v) s = .next u ∧
        (u.msixAt ((off - 0x48000) / 16)).addr = v &&& 0xFFFFFFFFFFFFFFFC) ∧
    ∀ r is, s.mayAccess o off = true → laneOk en = true → inMsix off = false → s.populated off = true →
      regRow? off = some (r, is) → actWrites.find? (fun a => a.1 == r.base) = none → isCommitReg off = false →
      ∃ u, exec (.registerWrite o off en v) s = .next u ∧
        (r.base ∉ [Reg.ST_STATUS 0, Reg.FC_LOG_PTR, Reg.FC_EVENT] →
          u.regsAt off = r.merge (s.mode == modeStage) (s.regsAt off) v en) ∧
        (r.base = Reg.FC_LOG_PTR → u.fld Reg.FC_LOG_PTR Fld.FC_LOG_PTR_HEAD =
          Fld.FC_LOG_PTR_HEAD.get (r.merge (s.mode == modeStage) (s.regsAt off) v en) % 2 ^ s.faultLog2) ∧
        (∀ k, k < 12 → off / 0x100000 = 3 + k → s.boot.tripHold = false → s.fenced ⟨.street, k⟩ = false →
          u.fld (Reg.ST_STATUS k) Fld.ST_STATUS_RUNG_ACT = 0)) ∧
  (∀ (off : Nat) (r : RegRow) (is : List Nat), regRow? off = some (r, is) →
    ∀ (stage : Bool) (old v : Word) (en i : Nat), i < 64 →
      let new := (r.merge stage old v en).getLsbD i
      ((laneMask en).getLsbD i = false → new = old.getLsbD i) ∧
      ((∀ x ∈ r.fields, ¬ (x.fld.lo ≤ i ∧ i ≤ x.fld.hi)) → new = old.getLsbD i) ∧
      ∀ x ∈ r.fields, x.fld.lo ≤ i → i ≤ x.fld.hi → (laneMask en).getLsbD i = true →
        (x.ty = .rwl ∨ x.ty = .rws → new = v.getLsbD i) ∧
        (x.ty = .rwf → new = if stage then v.getLsbD i else old.getLsbD i) ∧
        (x.ty = .w1c → new = (old.getLsbD i && !v.getLsbD i)) ∧
        (x.ty = .ro ∨ x.ty = .wo → new = old.getLsbD i)) ∧
  (∀ (s : State) (off : Nat) (v : Word), s.mode = modeLoad → s.boot.perst = false → 0x2000000 ≤ off → off < 0x4000000 →
    off % 8 = 0 →
    ∃ u, exec (.registerWrite (.host none) off 0xFF v) s = .next u ∧
      ∀ i, i < 8 → u.loadWinAt (off - 0x2000000 + i) = BitVec.ofNat 8 (v.toNat / 2 ^ (8 * i))) ∧
  (∀ (s : State) (o : Who) (en : Nat) (v : Word), en = 0x0F ∨ en = 0xF0 → exec (.loadGo o en v) s = .next s) ∧
  (∀ (s : State) (o : Who) (v : Word), s.mode = modeLoad → s.mayAccess o Reg.HI_LOAD_CTL = true →
    Fld.HI_LOAD_CTL_GO.get v = 1 → s.fld Reg.HI_LOAD_STATUS Fld.HI_LOAD_STATUS_STATE ≠ 1 →
    let len := Fld.HI_LOAD_CTL_LEN.get v
    ∃ u, exec (.loadGo o 0xFF v) s = .next u ∧ u.fld Reg.HI_LOAD_CTL Fld.HI_LOAD_CTL_LEN = len ∧
      u.fld Reg.HI_LOAD_STATUS Fld.HI_LOAD_STATUS_STATE = (if len = 0 ∨ 33554432 < len then 3 else 1)) ∧
  ∀ (op : Who → Nat → Nat → Nat → Instr) (code : Nat),
    (op, code) ∈ ([(Instr.teCmdRead, 1), (Instr.teCmdInsert, 2), (Instr.teCmdUpdate, 3), (Instr.teCmdRemove, 4)] :
      List ((Who → Nat → Nat → Nat → Instr) × Nat)) →
    ∀ (s : State) (o : Who) (n p t : Nat), n < 16 → p < 4 → t < 64 → s.mayAccess o (Reg.TE_CMD n p) = true →
      (s.portBusy n p = false → ∃ u c, exec (op o n p t) s = .next u ∧ u.portBusy n p = true ∧
        u.portCmd n p = some c ∧ c.op = code ∧ c.table = t ∧ c.key = s.portKey n p ∧
        c.entry = s.portData n p) ∧
      (s.portBusy n p = true → ∃ u, exec (op o n p t) s = .next u ∧ u.engines = s.engines ∧
        u.fld (Reg.TE_CMD_RES n p) Fld.TE_CMD_RES_OVERRUN = 1)

/-! ## Commands of the host -/

/-- A queue is enabled, and disabled with what it is owed now and later, and an error of a host access stops it; a
reply stands at the completion tail, or waits while the ring is full; a packet that is not there is not taken; a
classroom cannot issue the manager's commands, and an opcode of no table is answered BAD_OPCODE. That a command comes
decoded, such an opcode as the operand of NOP, and that one entry of a completion ring stays unused is the model's
choice (notes/assumptions/95.md, notes/assumptions/93.md). -/
def Obligations.QueuesTakePacketsAndReply : Prop :=
  (∀ (s : State) (o : Who) (q : Nat), s.mayQueue o q = true →
    (s.fld (qCtl q) Fld.Q_CTL_EN = 0 → ∃ u : State, exec (.queueEnable o q) s = .next u ∧ u.qOn q = !(Fld.Q_STATUS_ERR.isSet (s.regsAt (qStatus q))) ∧
      u.fld (qStatus q) Fld.Q_STATUS_SQ_HEAD = 0 ∧ u.fld (qStatus q) Fld.Q_STATUS_CQ_TAIL = 0 ∧
      u.fld (qStatus q) Fld.Q_STATUS_PHASE = 1 ∧ u.hostqAt q = HostQ.empty) ∧
    (s.fld (qCtl q) Fld.Q_CTL_EN = 1 → ∃ u : State, exec (.queueDisable o q) s = .next u ∧ u.qOn q = false ∧
      u.fld (qStatus q) Fld.Q_STATUS_ERR = 0 ∧ u.hostqAt q = HostQ.empty ∧
      u.bg = s.bg.map fun b => if b.queue = q then { b with muted := true } else b)) ∧
  (∀ (s : State) (q code : Nat), s.qOn q = true → 1 ≤ code → code ≤ 5 →
    ∃ u : State, exec (.queueErr q code) s = .next u ∧ u.qOn q = false ∧ u.fld (qStatus q) Fld.Q_STATUS_ERR_CODE = code ∧
      (q < 16 → u.fld Reg.HI_EVENT Fld.HI_EVENT_QUEUE_ERR = 1)) ∧
  (∀ (s : State) (c : Cmd) (op status result : Nat), c.queue < 16 → s.qOn c.queue = true →
    let n := s.cqSize c.queue
    let tail := s.fld (qStatus c.queue) Fld.Q_STATUS_CQ_TAIL % n
    let ph := s.fld (qStatus c.queue) Fld.Q_STATUS_PHASE
    let u := s.replied c op status result []
    (s.cqFree c.queue = true → (s.hostqAt c.queue).owed = [] →
      .hostWrite none (s.inForce (qCq c.queue) Fld.Q_CQ_BASE * 4096 + 32 * tail) (leBytes 2 status ++ leBytes 2 op ++
        leBytes 2 (s.fld (qStatus c.queue) Fld.Q_STATUS_SQ_HEAD) ++ leBytes 1 ph ++ [0] ++ leBytes 8 c.tag.toNat ++
        leBytes 8 0 ++ leBytes 8 result) ∈ u.outbox ∧
      u.fld (qStatus c.queue) Fld.Q_STATUS_CQ_TAIL = (tail + 1) % n ∧
      u.fld (qStatus c.queue) Fld.Q_STATUS_PHASE = if (tail + 1) % n = 0 then 1 - ph else ph) ∧
    ((s.cqFree c.queue = false ∨ (s.hostqAt c.queue).owed ≠ []) → u.outbox = s.outbox ∧
      (u.hostqAt c.queue).owed =
        (s.hostqAt c.queue).owed ++ [⟨replyBytes status op 0 c.tag 0 result, bitOf c.flags 0, false⟩])) ∧
  ∀ (i : Cmd → Instr) (op : Nat),
    (i, op) ∈ ([(Instr.modeSet, 0x10), (Instr.commit, 0x12), (Instr.fwSwitch, 0x21), (Instr.fwInfo, 0x22), (Instr.dramInit, 0x31),
      (Instr.dramStatus, 0x32), (Instr.termActivate, 0x41), (Instr.termRetire, 0x42), (Instr.classCreate, 0x50),
      (Instr.classDestroy, 0x51), (Instr.classReset, 0x52), (Instr.classShare, 0x53), (Instr.classMigrateLog, 0x54),
      (Instr.tableCreate, 0x60), (Instr.tableDelete, 0x61), (Instr.dirProfile, 0x73), (Instr.portCfg, 0x80),
      (Instr.ringJoin, 0x90), (Instr.ringLeave, 0x91), (Instr.ringStatus, 0x92), (Instr.fence, 0xA0), (Instr.unfence, 0xA1),
      (Instr.faultAck, 0xA2), (Instr.faultInject, 0xA3), (Instr.gbRead, 0xB0), (Instr.gbSeal, 0xB1),
      (Instr.countersRead, 0xC0), (Instr.timeSet, 0xC1), (Instr.powerRung, 0xD0), (Instr.diagRun, 0xF0)] :
        List ((Cmd → Instr) × Nat)) →
    ∀ (s : State) (c : Cmd),
      (s.cmdTaken c = false → exec (i c) s = .next s) ∧
      (s.cmdTaken c = true → 16 ≤ c.queue → exec (i c) s = .next ((s.took c).turnedAway c op stNotFound 0)) ∧
      ∀ other, (s.cmdTaken c = false ∨ other ∈ opcodes → exec (.nop c (some other)) s = .next s) ∧
        (s.cmdTaken c = true → other ∉ opcodes →
          exec (.nop c (some other)) s = .next ((s.took c).turnedAway c other stBadOpcode 0))

/-- The commands that only read: the reply carries what the device shows, and nothing but the queue and its counters
changes, but that a register of a Street below L0 is read once that Street is back (which reads have effects is read
from the rules: notes/assumptions/130.md). -/
def Obligations.CommandsThatReadAnswer : Prop :=
  ∀ (s : State) (c : Cmd),
    let w := s.took c
    let done := fun (op result : Nat) (data : List Byte) =>
      (Host.Outcome.next (w.replied c op stDone result data) : Host.Outcome State Fault Refusal)
    (s.accepts c modesA true 0 0 0 0 0 → exec (.nop c none) s = done 0x00 0 []) ∧
    (s.accepts c modesA true 0 64 0 0 0 → exec (.identify c) s = done 0x01 0 (w.identity c.queue)) ∧
    (c.len ≤ 1024 → s.accepts c modesA true c.len (64 * c.len) 0 0 0 →
      exec (.echo c) s = done 0x02 0 (padTo (64 * c.len) c.payload)) ∧
    (s.accepts c modesA true 0 0 0 0 0 →
      exec (.modeGet c) s = done 0x11 (s.mode + 8 * bit w.errN + w.deviceId * 2 ^ 16) []) ∧
    (s.accepts c modesA false 0 64 0 0 0 → exec (.fwInfo c) s = done 0x22 0 w.fwBlock) ∧
    (s.accepts c modesA false 0 128 0 0 0 →
      exec (.dramStatus c) s = done 0x32 0 ((List.range 8).flatMap fun n => if w.ddrEn n then
        leBytes 8 (w.regRead (Reg.DDR_STATUS n)).toNat ++ leBytes 8 (w.regRead (Reg.DDR_ERR_LOG n)).toNat else zeros 16)) ∧
    (s.accepts c modesA true 0 64 0 0 0 →
      exec (.termStatus c) s = done 0x43 0 ((List.range 4).flatMap w.termEntry)) ∧
    (s.accepts c modesA true 0 64 63 0 0 → ∀ k, k = (if c.queue < 16 then c.p0 else c.queue - 16) → w.clState k = clActive →
      exec (.classStatus c) s = done 0x55 0 (w.classBlock k)) ∧
    (s.accepts c modesA true 0 136 7 0 0 → w.portAbsent c.p0 = false →
      exec (.portStatus c) s = done 0x81 0 (leBytes 8 (w.regRead (Reg.ETH_STATUS c.p0)).toNat ++
        (List.range 16).flatMap fun k => leBytes 8 (w.regRead (0x80000 + c.p0 * 0x2000 + 0x100 + 8 * k)).toNat)) ∧
    (s.accepts c modesA false 0 64 0 0 0 → exec (.ringStatus c) s = done 0x92 0 w.ringBlock) ∧
    (s.accepts c modesA false 0 (8 * c.p1) (2 ^ 26 - 1) (2 ^ 14 - 1) 0 → c.p0 % 8 = 0 → 1 ≤ c.p1 → c.p1 ≤ 8192 →
      ((∀ i < c.p1, dbgDataCore (c.p0 + 8 * i) = none ∧ (c.p0 + 8 * i < 0x300000 ∨ 0xF00000 ≤ c.p0 + 8 * i)) →
        exec (.countersRead c) s = done 0xC0 w.timeNs ((List.range c.p1).flatMap fun i =>
          leBytes 8 (w.regReadBy .tenik (c.p0 + 8 * i)).toNat)) ∧
      ((∀ i < c.p1, dbgDataCore (c.p0 + 8 * i) = none) →
        ∃ u l : _, exec (.countersRead c) s = .next u ∧ (u.hostqAt c.queue).last = some l ∧ l.op = 0xC0 ∧ l.status = stDone ∧
          l.result = w.timeNs ∧ l.data.length = 8 * c.p1 ∧
          ∀ i < c.p1, ∀ k < 12, (c.p0 + 8 * i) / 0x100000 = 3 + k → w.mayAccess .tenik (c.p0 + 8 * i) = true →
            s.boot.tripHold = false → s.fenced ⟨.street, k⟩ = false → u.fld (Reg.ST_STATUS k) Fld.ST_STATUS_RUNG_ACT = 0))

/-- MODE_SET begins a transition or finds it made; it is carried out, refused, or a warm reset. When a transition is
answered at once, and what ends one that is in progress, is read from the rules (notes/assumptions/99.md). -/
def Obligations.ModesAreSetAndReached : Prop :=
  (∀ (s : State) (c : Cmd), s.accepts c modesA false 0 0 7 0 0 → c.p0 ∈ [modeReset, modeStage, modeService, modeSafe] →
    let w := s.took c
    (w.modeThere c.p0 = true → exec (.modeSet c) s = .next (w.replied c 0x10 stDone 0 [])) ∧
    (w.modeThere c.p0 = false →
      exec (.modeSet c) s = .next ((w.started c 0x10 (.modeSet c.p0)).replied c 0x10 stAccepted 0 []))) ∧
  ∀ (s : State) (b : BgOp) (target : Nat), b.kind = .modeSet target →
    s.running (fun k => match k with
      | .modeSet _ => true
      | _ => false) b →
    (∀ st, s.modeAnswer target = some st → (target ≠ modeReset ∨ s.cqFree b.queue = true) →
      exec .modeSetComplete s = .next (s.finished b st 0)) ∧
    (target = modeReset → s.modeAnswer target = none → s.cqFree b.queue = true →
      ∃ u : State, exec .modeSetComplete s = .next u ∧ u.mode = modeLoad ∧ u.boot.straps = s.boot.straps ∧ u.boot.perst = false ∧
        u.mem = [] ∧ u.threads = []) ∧
    (target = modeSafe → s.modeAnswer target = none → s.fc.fencing = [] →
      ∃ u : State, exec .modeSetComplete s = .next u ∧ u.mode = modeSafe ∧ u.ring.leavingUs = true) ∧
    (target = modeService → s.modeAnswer target = none →
      ∃ u : State, exec .modeSetComplete s = .next u ∧ u.bg = s.bg.erase b ∧
        u.mode = if s.anyFenced then modeDegraded else modeService) ∧
    (target = modeStage → s.modeAnswer target = none →
      ∃ u : State, exec .modeSetComplete s = .next u ∧ u.boot.leftSafe = true ∧
        (s.anyFenced = false → s.ctxs = [] → (∀ c < 64, s.clState c ≠ clActive) → u.mode = modeStage))

/-- COMMIT raises the GO bits it names; the profile is taken if it holds; DRAM_INIT begins, and ends by what its lanes
show; the time, a rung and a diagnostic test are set. The order of the profile's checks and what DRAM_INIT refuses are
read from the rules (notes/assumptions/100.md, notes/assumptions/101.md). -/
def Obligations.TheBoardIsSetUpAndRun : Prop :=
  (∀ (s : State) (c : Cmd),
    let w := s.took c
    (s.accepts c modesR false 0 0 (2 ^ 26 - 1) (2 ^ 64 - 1) 0 → w.commitAt c.p0 = true →
      ∃ u : State, exec (.commit c) s = .next u ∧ ∀ g go d, g ∈ allGrps → g.place = some (c.p0, go, d) → bitOf c.p1 go = true →
        u.grpDone g = false ∧ ∀ x ∈ grpOffsets g, u.pendcAt x = s.regsAt x) ∧
    (s.accepts c modesS false 0 0 (2 ^ 64 - 1) (2 ^ 20 - 1) 0 → s.boot.dramStarted = false → ∀ dma,
      let b := padTo c.p1 dma
      (profileCheck b = true → profileBad b = false →
        ∃ u : State, exec (.boardProfileLoad c dma) s = .next (u.replied c 0x30 stDone 0 []) ∧
          u.boot = { w.boot with profile := some b, tenikBase := leAt b 16 8, tenikLen := leAt b 24 8 }) ∧
      (profileCheck b = false →
        ∃ u : State, exec (.boardProfileLoad c dma) s = .next (u.replied c 0x30 stIntegrity 0 []) ∧ u.boot = w.boot ∧
          u.regs = w.regs)) ∧
    (s.accepts c modesS false 0 0 0 0 0 → s.boot.profile.isSome = true → (∀ b ∈ s.bg, b.kind ≠ .dramInit) →
      exec (.dramInit c) s = .next ((((Upd.boot { w.boot with dramStarted := true }).apply w).started c 0x31 .dramInit).replied
        c 0x31 stAccepted 0 [])) ∧
    (s.accepts c modesA false 0 0 3 (2 ^ 64 - 1) 0 →
      (c.p0 = 0 → ∃ u : State, exec (.timeSet c) s = .next u ∧ u.tb = { s.tb with set := some (Word.ofNat c.p1) }) ∧
      (c.p0 = 1 → ∃ u : State, exec (.timeSet c) s = .next u ∧ u.tb = { s.tb with step := some (Word.ofNat c.p1) }) ∧
      (c.p0 = 2 → (Word.ofNat c.p1).toInt.natAbs ≤ 2 ^ 22 → ∃ u : State, exec (.timeSet c) s = .next (u.replied c 0xC1 stDone 0 []) ∧
        u.tb = s.tb ∧ u.fld Reg.TB_RATE Fld.TB_RATE_RATE = c.p1 % 2 ^ 32) ∧
      (c.p0 = 2 → 2 ^ 22 < (Word.ofNat c.p1).toInt.natAbs →
        exec (.timeSet c) s = .next (w.turnedAway c 0xC1 stBadParam 0))) ∧
    (∀ i r, s.accepts c modesR false 0 0 0x70F01 0 0 →
      (c.p0 = 1 + i * 256 + r * 2 ^ 16 → i < 8 → r ≤ 3 →
        ∃ u : State, exec (.powerRung c) s = .next (u.replied c 0xD0 stDone 0 []) ∧ u.fld (Reg.DDR_PWR i) Fld.DDR_PWR_RUNG = r) ∧
      (c.p0 = i * 256 + r * 2 ^ 16 → i < 12 → r ≤ 4 → (r = 4 → s.fenced ⟨.street, i⟩ = true) →
        ∃ u : State, exec (.powerRung c) s = .next (u.replied c 0xD0 stDone 0 []) ∧ u.fld (Reg.PWR_ST i) Fld.PWR_ST_RUNG = r)) ∧
    (s.accepts c modesSF false 0 0 0xFFFF 0 0 → ∀ x, diagUnit c.p0 = some x → (s.mode = modeStage ∨ s.fenced x = true) →
      exec (.diagRun c) s = .next ((w.started c 0xF0 (.diag c.p0)).replied c 0xF0 stAccepted 0 []))) ∧
  (∀ (s : State) (b : BgOp) (fail : List Nat), s.running (· == .dramInit) b →
    let late := (profileEntries (s.boot.profile.getD [])).filter fun e => !earlyEntry e.1
    s.initRefused late = false →
    ((∀ n, n < 8 → s.ddrEn n = true → fail.getD n 0 = 0) →
      ∃ u : State, exec (.dramInitComplete fail) s = .next u ∧ u.boot.dramDone = true ∧ u.boot.profile = s.boot.profile) ∧
    (∀ n, n < 8 → s.ddrEn n = true → 0 < fail.getD n 0 → fail.getD n 0 < 512 →
      ∃ u : State, exec (.dramInitComplete fail) s = .next u ∧ u.boot = s.boot ∧ u.bg = s.bg.erase b ∧
        u.fld (Reg.DDR_STATUS n) Fld.DDR_STATUS_LANE_FAIL = fail.getD n 0)) ∧
  ∀ (s : State) (b : BgOp) (test result : Nat) (x : UnitId), b.kind = .diag test → diagUnit test = some x →
    s.running (fun k => match k with
      | .diag _ => true
      | _ => false) b →
    ∃ u v : State, exec (.diagRunComplete result) s = .next u ∧ u = v.finished b stDone (result % diagMask x) ∧ v.bg = s.bg ∧
      v.regsAt Reg.GB_STATUS = s.regsAt Reg.GB_STATUS + 1

/-- An image is verified and starts Tenik or is refused with its reason; one is staged, switched to, or fallen back
from. Where images lie in Tenik's region, that an image without room there is refused, and where its state block lies
is the model's choice (notes/assumptions/103.md, notes/assumptions/186.md), and so is the LOAD window's place
(notes/assumptions/185.md). BAR4 stores and works on DRAM behind HI_WIN, a poisoned write stores nothing; a doorbell
page answers its classroom's PASID alone. That an AtomicOp is naturally aligned is presumed
(notes/assumptions/105.md); the order of the doorbell pages' checks, and that the word of an AtomicOp waits with the
writes of its channel, is read from the rules (notes/assumptions/106.md, notes/assumptions/153.md). -/
def Obligations.TenikImagesAndHostWindows : Prop :=
  ((∀ s : State, s.mode = modeLoad → s.fld Reg.HI_LOAD_STATUS Fld.HI_LOAD_STATUS_STATE = 1 →
    let b := (List.range (s.fld Reg.HI_LOAD_CTL Fld.HI_LOAD_CTL_LEN)).map s.loadWinAt
    (∀ r, imageFault s.boot.fuses b = some r → ∃ u : State, exec .imageVerifyDone s = .next u ∧ u.mode = modeLoad ∧
      u.fld Reg.HI_LOAD_STATUS Fld.HI_LOAD_STATUS_STATE = 3 ∧ u.fld Reg.HI_LOAD_STATUS Fld.HI_LOAD_STATUS_REASON = r) ∧
    (imageFault s.boot.fuses b = none → ∃ u : State, exec .imageVerifyDone s = .next u ∧ u.mode = modeStage ∧
      u.fld Reg.HI_LOAD_STATUS Fld.HI_LOAD_STATUS_STATE = 2 ∧ u.boot.running = some (FwImage.ofBytes b) ∧
      u.boot.tenikDown = false ∧ ∀ k, k < 96 → (u.thread (8 * k)).state = .running ∧ (u.thread (8 * k)).priv = 0)) ∧
  (∀ (s : State) (c : Cmd),
    let w := s.took c
    (∀ dma, s.accepts c modesR false 0 0 (2 ^ 64 - 1) (2 ^ 26 - 1) 0 → c.p1 ≤ 33554432 → s.dramUp = true → s.fwBusy = false →
      exec (.fwStage c dma) s = .next ((((Upd.outbox (.hostRead none c.p0 c.p1 :: w.outbox)).apply w).started c 0x20
        (.fwStage (padTo c.p1 dma))).replied c 0x20 stAccepted 0 [])) ∧
    (s.accepts c modesR false 0 0 0 0 0 → s.fwBusy = false → s.boot.staged.isSome = true →
      ∃ u : State, exec (.fwSwitch c) s = .next u ∧ u.boot = { w.boot with tenikDown := true } ∧
        (∀ y, (y < s.tenikTop ∨ s.tenikTop + 4096 * Config.tenikWork ≤ y) → u.memAt y = s.memAt y) ∧
        u.bg = s.bg ++ [⟨c.queue, c.tag, 0x21, bitOf c.flags 0, .fwSwitch, 0, false⟩] ∧
        u.fld Reg.SR_STATUS Fld.SR_STATUS_RUNNING = 0)) ∧
  (∀ (s : State) (b : BgOp) (img : List Byte), b.kind = .fwStage img → s.running (fun k => match k with
      | .fwStage _ => true
      | _ => false) b →
    (∀ r, imageFault s.boot.fuses img = some r → exec .fwStageComplete s = .next (s.finished b stIntegrity 0)) ∧
    (imageFault s.boot.fuses img = none →
      (s.freePlace ({ s.boot with staged := none } : BootState).images img.length = none →
        exec .fwStageComplete s = .next (s.finished b stNoRoom 0)) ∧
      ∀ a, s.freePlace ({ s.boot with staged := none } : BootState).images img.length = some a →
        ∃ u : State, exec .fwStageComplete s = .next u ∧ u.bg = s.bg.erase b ∧
          u.boot = { s.boot with staged := some (FwImage.ofBytes img), stagedAt := a })) ∧
  ∀ (s : State) (b : BgOp), s.bgFind (· == .fwSwitch) = some b →
    (∃ u : State, exec .fwSwitchComplete s = .next u ∧ u.boot.running = s.boot.staged ∧
      u.boot.runAt = s.boot.stagedAt ∧ u.boot.staged = none ∧ u.boot.tenikDown = false) ∧
    ∃ u : State, exec .fwSwitchFallback s = .next u ∧ u.boot.running = s.boot.running ∧ u.boot.staged = s.boot.staged ∧
      ((s.gbLog2 = 0 ∨ s.gb.queue.length < 1023) → u.boot.tenikDown = !s.imageGood)) ∧
  ((∀ (s : State) (x : Nat) (bytes : List Byte),
    let a := s.fld Reg.HI_WIN Fld.HI_WIN_WIN * 0x400000000 + x
    modeStage ≤ s.mode → x + bytes.length ≤ 0x400000000 →
    (∃ u : State, exec (.bar4Write none x bytes false) s = .next u ∧
      (0 < bytes.length → a % 64 + bytes.length ≤ 64 → s.lineTakes a .other = true → s.rawChan a = none →
        ∀ j, j < bytes.length → u.memAt (a + j) = bytes.getD j 0) ∧
      ∀ y, (y < a ∨ a + bytes.length ≤ y) → u.memAt y = s.memAt y) ∧
    (∃ u : State, exec (.bar4Write none x bytes true) s = .next u ∧ u.mem = s.mem ∧
      u.fld Reg.HI_EVENT Fld.HI_EVENT_POISON = 1) ∧
    ∀ p bad, exec (.bar4Write (some p) x bytes bad) s = .next s) ∧
  (∀ (s : State) (x size p q : Nat) (k : AtomicKind), (size = 4 ∨ size = 8) → x % size = 0 → x + size ≤ 0x400000000 →
    modeStage ≤ s.mode →
    let a := s.fld Reg.HI_WIN Fld.HI_WIN_WIN * 0x400000000 + x
    let old := ofLeBytes (s.bytes a size)
    s.region a = .dram → s.inStripe a = false →
    (∀ n, s.dramChan a = some n → s.ddrAnswers n = false →
      ∃ u : State, exec (.bar4Atomicop none x k size p q) s = .next u ∧ u.mem = s.mem ∧ u.outbox = s.outbox ∧
        (u.ddrsAt n).early = (s.ddrsAt n).early ++ [⟨a, [], 151, some ⟨k, size, p, q⟩⟩]) ∧
    (s.lineTakes a .other = true → s.rawChan a = none → (∀ n, s.dramChan a = some n → s.ddrAnswers n = true) →
      s.seen a size = s.bytes a size → s.anyBad a size = false →
      ∃ u : State, exec (.bar4Atomicop none x k size p q) s = .next u ∧
        u.outbox.head? = some (.readData (leBytes size old) false) ∧ ∀ j, j < size → u.memAt (a + j) = (leBytes size (match k with
          | .fetchAdd => (old + p) % 2 ^ (8 * size)
          | .swap => p % 2 ^ (8 * size)
          | .cas => if old = p % 2 ^ (8 * size) then q % 2 ^ (8 * size) else old)).getD j 0)) ∧
  ∀ (s : State) (pasid : Option Nat) (c off : Nat), s.boot.perst = false → c < 64 → off < 0x10000 → off % 8 = 0 →
    let x := c * 0x10000 + off
    (∀ en, laneOk en = false → ∃ u : State, exec (.bar2Request pasid x en none) s = .next u ∧
      u.outbox = .readData (zeros 8) false :: s.outbox ∧
      u.regsAt Reg.HI_CNT_BAD_SIZE = s.regsAt Reg.HI_CNT_BAD_SIZE + 1) ∧
    (modeStage ≤ s.mode →
    (s.pageReached pasid c = true →
      exec (.bar2Request pasid x 0xFF none) s =
        .next ((Upd.outbox (.readData (leBytes 8 (s.pageWord c off).toNat) false :: s.outbox)).apply s)) ∧
    (s.pageReached pasid c = false → ∀ wr, ∃ u : State, exec (.bar2Request pasid x 0xFF wr) s = .next u ∧
      u.hostq = s.hostq ∧ u.regsAt (Reg.CL_CNT_PASID_VIOL c) = s.regsAt (Reg.CL_CNT_PASID_VIOL c) + 1 ∧
      (∀ y, y ≠ Reg.CL_CNT_PASID_VIOL c → u.regsAt y = s.regsAt y)) ∧
    (s.pageReached pasid c = true → off = 0 → ∀ v : Word, ∃ u : State, exec (.bar2Request pasid x 0xFF (some v)) s = .next u ∧
      u.fld (qTail (16 + c)) Fld.Q_SQ_TAIL_TAIL = Fld.Q_SQ_TAIL_TAIL.get v)))

/-- A Term is loaded, its urgent descriptors locked into the node cache, becomes the current one, and is retired, its
locks with it. Where it lies in Tenik's region is the model's choice (notes/assumptions/103.md). -/
def Obligations.TermsAreLoadedActivatedAndRetired : Prop :=
  (∀ (s : State) (c : Cmd) (slot : Nat), slot < 4 →
    let w := s.took c
    let t := s.termsAt slot
    (∀ dma len, s.accepts c modesR false 0 0 (2 ^ 64 - 1) (2 ^ 34 - 1) 0 → c.p1 = len + slot * 2 ^ 32 → len < 2 ^ 32 →
      s.dramUp = true → t.state = .empty →
      ∃ u : State, exec (.termLoad c dma) s = .next (u.replied c 0x40 stAccepted 0 []) ∧
        (u.termsAt slot) = { t with state := .loading } ∧ u.outbox = .hostRead none c.p0 len :: w.outbox ∧
        u.bg = s.bg ++ [⟨c.queue, c.tag, 0x40, bitOf c.flags 0, .termLoad slot (padTo len dma), 0, false⟩]) ∧
    (s.accepts c modesR false 0 0 0xFFFF0003 0 0 → c.p0 = slot + t.epoch * 2 ^ 16 → t.state = .ready →
      (∀ k, s.curTerm = some k → serAfter 16 t.epoch (s.termsAt k).epoch = true ∧ k ≠ slot) →
      ∃ u : State, exec (.termActivate c) s = .next (u.replied c 0x41 stDone 0 []) ∧
        (u.termsAt slot).state = .current ∧ (∀ k, s.curTerm = some k → (u.termsAt k).state = .ready) ∧
        ∀ x < 768, (isMonitor x = true ∨ (s.boundTo x).isSome = true) → (u.thread x).flag evTermChange = true) ∧
    (s.accepts c modesR false 0 0 3 0 0 → c.p0 = slot → t.state = .ready →
      ∃ u : State, exec (.termRetire c) s = .next (u.replied c 0x42 stAccepted 0 []) ∧
        u.termsAt slot = { t with state := .retiring } ∧
        u.bg = s.bg ++ [⟨c.queue, c.tag, 0x42, bitOf c.flags 0, .termRetire slot, 0, false⟩])) ∧
  (∀ (s : State) (b : BgOp) (slot : Nat) (img : List Byte), b.kind = .termLoad slot img →
    s.running (fun k => match k with
      | .termLoad n _ => n == slot
      | _ => false) b →
    (∀ st, s.termRefusal img = some st → exec (.termLoadComplete slot) s =
      .next (((Upd.terms slot TermSlot.empty).apply s).finished b st 0)) ∧
    (s.termRefusal img = none → ∃ u : State, exec (.termLoadComplete slot) s = .next u ∧ u.bg = s.bg.erase b ∧
      (u.termsAt slot).state = .ready ∧ (u.termsAt slot).epoch = (TermHdr.ofBytes img).epoch ∧
      (u.termsAt slot).refs = 0 ∧ some (u.termsAt slot).base = s.termPlace img.length ∧
      (u.termsAt slot).locked = lockedNodes img (u.termsAt slot).base)) ∧
  ∀ (s : State) (b : BgOp) (slot : Nat), s.running (· == .termRetire slot) b → (s.termsAt slot).state = .retiring →
    ((s.termsAt slot).refs = 0 → ∃ u : State, exec (.termRetireComplete slot) s = .next u ∧ u.bg = s.bg.erase b ∧
      u.termsAt slot = TermSlot.empty) ∧
    ((s.termsAt slot).refs ≠ 0 → exec (.termRetireComplete slot) s = .next s)

/-- The hasher chains its oldest record, and keeps it on chip or in its slot of the ring; kept records are read, and a
seal closes the chain so far with a checkpoint signed by the device's own key. When the hasher works and what it keeps
is read from the rules (notes/assumptions/117.md); the key and the signature's nonces are free values
(notes/assumptions/118.md, notes/assumptions/191.md). -/
def Obligations.TheGradebookChainsRecords : Prop :=
  (∀ (s : State) (r : GbRec) (rest : List GbRec), s.gb.queue = r :: rest →
    let h := (sha256 (s.gb.hash ++ r.bytes48)).take 16
    ∃ u : State, exec .gbRecordHash s = .next u ∧ u.gb.queue = rest ∧ u.gb.hash = h ∧
      u.regsAt Reg.GB_CNT_RECORDS = s.regsAt Reg.GB_CNT_RECORDS + 1 ∧
      (s.gbLog2 = 0 → u.gb.sram = ((r.bytes48 ++ h) :: s.gb.sram).take 4096 ∧ u.mem = s.mem) ∧
      (s.gbLog2 ≠ 0 → u.gb.sram = s.gb.sram ∧
        let a := s.gbBase + r.seq % 2 ^ s.gbLog2 * 64
        (s.lineTakes a .hasher = true → s.rawChan a = none →
          ∀ j, j < 64 → u.memAt (a + j) = (r.bytes48 ++ h).getD j 0) ∧
        ∀ x, (x < a ∨ a + 64 ≤ x) → u.memAt x = s.memAt x)) ∧
  ∀ (s : State) (c : Cmd),
    let w := s.took c
    (s.accepts c modesA false 0 (64 * c.p1) (2 ^ 64 - 1) (2 ^ 11 - 1) 0 → 1 ≤ c.p1 → c.p1 ≤ 1024 →
      (w.gbAt c.p0 = none → exec (.gbRead c) s = .next (w.replied c 0xB0 stNotFound 0 [])) ∧
      ∀ l : List (List Byte), (List.range c.p1).map (fun i => w.gbAt (c.p0 + i)) = l.map some →
        exec (.gbRead c) s = .next (w.replied c 0xB0 stDone 0 l.flatten)) ∧
    (s.accepts c modesA false 0 256 0 0 0 →
      ∃ (u : State) (body sig : List Byte), exec (.gbSeal c) s = .next (u.replied c 0xB1 stDone 0 (body ++ sig)) ∧
        u.gb.lastSeal = some (s.reg Reg.GB_STATUS).toNat ∧ u.gb.queue = [] ∧
        body.length = 160 ∧ body.take 8 = leBytes 8 (s.reg Reg.GB_STATUS).toNat ∧ slice body 8 16 = padTo 16 u.gb.hash ∧
        slice body 32 16 = leBytes 8 s.boot.fuses.uid.toNat ++ leBytes 8 (s.reg Reg.GB_BOOT).toNat ∧
        body.drop 64 = ecdsaPublic Config.deviceSecret ∧ (∃ n, sig = sealSignature n body) ∧
        u.regsAt Reg.GB_STATUS = s.regsAt Reg.GB_STATUS + 1)

/-- PORT_CFG puts its images in force, the mode of a group at its Detention; streams are opened and closed; the device
joins and leaves the ring. Which parameters are refused, and in which order, is read from the rules
(notes/assumptions/111.md, notes/assumptions/112.md, notes/assumptions/113.md). -/
def Obligations.PortsStreamsAndRingAreCommanded : Prop :=
  (∀ (s : State) (c : Cmd),
    let w := s.took c
    let p := c.p0 % 8
    let img := fun k => Word.ofNat (leAt (padTo 64 c.payload) (8 * k) 8)
    (s.accepts c modesR false 1 0 0x107 0 0 → w.portAbsent p = false → portCfgBad p (padTo 64 c.payload) = false →
      (c.p0 < 8 → ∃ u : State, exec (.portCfg c) s = .next (u.replied c 0x80 stDone 0 []) ∧ u.grpDone (.ethN p) = true ∧
        u.actAt (Reg.ETH_CFG p) &&& shadowed (Reg.ETH_CFG p) = img 0 &&& shadowed (Reg.ETH_CFG p) ∧
        u.actAt (Reg.ETH_PFC p) &&& shadowed (Reg.ETH_PFC p) = img 1 &&& shadowed (Reg.ETH_PFC p) ∧
        u.regsAt (Reg.ETH_PAUSE p) = img 3 ∧ u.regsAt (Reg.ETH_PTP p) = img 4) ∧
      (8 ≤ c.p0 → s.fenced ⟨.portGroup, p / 4⟩ = false → ∃ u : State, exec (.portCfg c) s = .next u ∧
        u.grpDone (.ethGrp (p / 4)) = false ∧
        (⟨c.queue, c.tag, 0x80, bitOf c.flags 0, .portGroup (p / 4), 0, false⟩ : BgOp) ∈ u.bg)) ∧
    (let id := c.p0 % 2 ^ 32
     let tx := bitOf c.p0 32
     let port := c.p0 / 2 ^ 40 % 8
     let k := if c.queue < 16 then c.p0 / 2 ^ 48 % 64 else c.queue - 16
     let ep := if tx then padTo 128 c.payload else []
     s.accepts c modesR true (if tx then 2 else 0) 0 (maskOf 32 0 ||| maskOf 42 40 ||| maskOf 53 48 ||| maskOf 56 56)
       (maskOf 47 0) 0 →
     w.portAbsent port = false → (tx = true → endpointBad ep = false) → s.dramUp = true → w.clState k = clActive →
     (w.stream id = none → (tx = true → s.fenced (groupOf port) = false) → w.openStreams < 65536 → w.streamsOf k < w.grantLe k 48 4 →
       ∃ (u : State) (x : Stream), exec (.streamOpen c) s = .next (u.replied c 0x82 stDone 0 []) ∧ u.stream id = some x ∧
         x.tx = tx ∧ x.port = port ∧ x.classroom = k ∧ x.n = c.p1 ∧
         x.state = if tx || bitOf c.p0 56 then .openWait else .open_) ∧
     ((w.stream id).isSome = true → exec (.streamOpen c) s = .next (w.replied c 0x82 stExists 0 []))) ∧
    (∀ x, s.accepts c modesR true 0 0 (2 ^ 33 - 1) 0 0 →
      let id := c.p0 % 2 ^ 32
      w.stream id = some x → (16 ≤ c.queue → x.classroom = c.queue - 16) →
      (bitOf c.p0 32 = true → x.tx = true → x.state = .open_ → ∃ (u : State) (y : Stream), exec (.streamClose c) s = .next u ∧
        u.stream id = some y ∧ y.state = .closing ∧
        (⟨c.queue, c.tag, 0x83, bitOf c.flags 0, .streamClose id, 0, false⟩ : BgOp) ∈ u.bg) ∧
      (bitOf c.p0 32 = false → ∃ u : State, exec (.streamClose c) s = .next (u.replied c 0x83 stDone 0 []) ∧
        u.stream id = none)) ∧
    (s.accepts c modesR false 0 0 0x30FFF 0x30FFF 0 → s.fld Reg.RB_STATUS Fld.RB_STATUS_JOINED = 0 →
      2 ^ 16 ≤ c.p0 → c.p1 % 4096 ≠ c.p0 % 4096 → s.dramUp = true →
      ∃ u : State, exec (.ringJoin c) s = .next (u.replied c 0x90 stAccepted 0 []) ∧
        u.fld Reg.RB_STATUS Fld.RB_STATUS_JOINED = 1 ∧ u.deviceId = c.p0 % 4096 ∧
        (⟨c.queue, c.tag, 0x90, bitOf c.flags 0, .ringJoin, 0, false⟩ : BgOp) ∈ u.bg) ∧
    (s.accepts c modesR false 0 0 0 0 0 →
      exec (.ringLeave c) s = .next ((((Upd.ring { w.ring with going := true }).apply w).started c 0x91
        .ringLeave).replied c 0x91 stAccepted 0 []))) ∧
  ∀ (s : State) (b : BgOp),
    (s.running (· == .ringJoin) b →
      exec .ringJoinComplete s = .next (s.finished b stDone (bit (s.ringUp 0) + 2 * bit (s.ringUp 1)))) ∧
    (s.running (· == .ringLeave) b →
      ∃ u : State, exec .ringLeaveComplete s = .next u ∧ u.bg = s.bg.erase b ∧ u.fld Reg.RB_STATUS Fld.RB_STATUS_JOINED = 0)

/-- A table is created, deleted, and worked on entry by entry; learn notices go to the consumer that is set. Behind
TABLE_UPDATE and TABLE_INSERT a lookup of the key gives the entry written, and behind TABLE_REMOVE it misses, where
the slots the key can be in read and can be written. What a table's creation and deletion ask of it, and the port a
command uses, is read from the rules (notes/assumptions/84.md, notes/assumptions/85.md, notes/assumptions/158.md); the
consumer of notices is the model's reading too (notes/assumptions/87.md). -/
def Obligations.TableCommandsWorkOnTables : Prop :=
  (∀ (s : State) (c : Cmd),
    let w := s.took c
    let t := c.p0 % 64
    let key := c.p1 + c.p2 * 2 ^ 64
    let e := (w.table t).esize
    let all := 2 ^ 64 - 1
    (let b := padTo 64 c.payload
     let d := TableDesc.ofBytes b
     s.accepts c modesR false 1 0 63 0 0 → descBad b = false → (d.mirror = true → w.mirrorFits d = true) →
     s.dramUp = true → w.tableDying t = false → w.classBusy d.classroom = false → (w.classesAt d.classroom).grant ≠ [] →
     ((w.table t).valid = false → w.tablesOf d.classroom < w.grantLe d.classroom 22 1 →
       ∃ u : State, exec (.tableCreate c) s = .next (u.replied c 0x60 stDone 0 []) ∧ (u.table t).valid = true ∧
         ∀ k, 0 < k → k < 8 → u.regsAt (tableWordOff t k) = Word.ofNat (leAt b (8 * k) 8)) ∧
     ((w.table t).valid = true → exec (.tableCreate c) s = .next (w.replied c 0x60 stExists 0 []))) ∧
    (s.accepts c modesR false 0 0 63 0 0 → w.tableDying t = false → (w.table t).valid = true →
      ∃ u : State, exec (.tableDelete c) s = .next (u.replied c 0x61 stAccepted 0 []) ∧ (u.table t).valid = false ∧
        (∀ k < 8, u.regsAt (tableWordOff t k) = 0) ∧
        u.learnAt t = none ∧ u.bg = s.bg ++ [⟨c.queue, c.tag, 0x61, bitOf c.flags 0, .tableDelete t (w.table t), 0, false⟩]) ∧
    (w.tableSeen c t = true → w.tableDying t = false → s.tableFree t key = true → (∀ n < 16, (s.enginesAt n).taken = []) →
      let did := fun (op code : Nat) =>
        let r := portOp (w.cmdOrigin c) op t (w.table t) key (padTo e c.payload) false w
        (Host.Outcome.next (r.2.replied c code r.1.1 0 r.1.2) : Host.Outcome State Fault Refusal)
      (s.accepts c modesA true 0 e 63 all all → exec (.tableRead c) s = did 1 0x65) ∧
      (s.accepts c modesR true (ceilDiv e 64) (w.victimSize c) 63 all all → exec (.tableInsert c) s = did 2 0x62) ∧
      (s.accepts c modesR true (ceilDiv e 64) 0 63 all all → exec (.tableUpdate c) s = did 3 0x63) ∧
      (s.accepts c modesR true 0 0 63 all all → exec (.tableRemove c) s = did 4 0x64) ∧
      let d := s.table t
      let k := d.keyOf key
      let l := d.candidates t k
      let st := d.stripe t k
      let new := s.hashEntry d t k (padTo e c.payload)
      (d.kind = kindHash → d.keyLen + 8 ≤ d.esize → d.apart l → (∀ a ∈ l, s.slotClean d t a ∧ s.slotWritable d a) →
        s.gb.queue.length < 1000 →
        (∀ a x, s.lookup d t key = .hit a x →
          (s.accepts c modesR true (ceilDiv e 64) 0 63 all all →
            ∃ u : State, exec (.tableUpdate c) s = .next u ∧ u.lookup d t key = .hit a new) ∧
          (s.accepts c modesR true 0 0 63 all all →
            (∀ b ∈ l, b ≠ a → ∀ f, s.entryAt d t b = some f → ¬(slotValid d f = true ∧ storedKey d f = k)) →
            ∃ u : State, exec (.tableRemove c) s = .next u ∧ u.lookup d t key = .miss)) ∧
        (s.lookup d t key = .miss → s.accepts c modesR true (ceilDiv e 64) (w.victimSize c) 63 all all →
          ∀ a, (s.emptyWay d t st (d.buckets t k).1 = some a ∨
              s.emptyWay d t st (d.buckets t k).1 = none ∧ s.emptyWay d t st (d.buckets t k).2 = some a) →
            ∃ u : State, exec (.tableInsert c) s = .next u ∧ u.lookup d t key = .hit a new)) ∧
      (d.kind ≠ kindHash → d.outside key = false → 8 ≤ d.esize →
        let a := d.elem (key % 2 ^ 32)
        d.apart [a] → s.slotClean d t a → s.slotWritable d a → s.gb.queue.length < 1000 →
        (s.accepts c modesR true (ceilDiv e 64) 0 63 all all → ∃ u : State, exec (.tableUpdate c) s = .next u ∧
          u.lookup d t key = .hit a (arrayEntry d t (s.period d) (padTo e c.payload))) ∧
        (s.accepts c modesR true 0 0 63 all all → ∃ u : State, exec (.tableRemove c) s = .next u ∧
          u.lookup d t key = .hit a (zeros d.esize)))) ∧
    (w.tableSeen c t = true → w.tableDying t = false → s.bulkFree = true → (∀ n < 16, (s.enginesAt n).taken = []) →
      s.accepts c modesR true (ceilDiv (c.p1 * (16 + e)) 64) 0 0x13F 0xFFFF 0 →
      ∃ (u : State) (placed : Nat), placed ≤ c.p1 ∧
        exec (.tableBulkLoad c) s = .next (u.replied c 0x66 stDone (placed + (c.p1 - placed) * 2 ^ 32) [])) ∧
    (let k := if c.queue < 16 then c.p0 / 2 ^ 16 % 256 else 0x40 + (c.queue - 16)
     w.tableSeen c t = true → w.tableDying t = false → (k < 16 ∨ (0x40 ≤ k ∧ k < 0x80)) →
     s.accepts c modesR true 0 0 0xFF013F 0 0 →
     ∃ u : State, exec (.tableLearnCfg c) s = .next (u.replied c 0x67 stDone 0 []) ∧ u.learnAt t = some k ∧
       bitOf (u.regsAt (tableWordOff t 0)).toNat 8 = bitOf c.p0 8)) ∧
  (∀ (s : State) (o : Origin) (n t key : Nat) (d : TableDesc) (e : List Byte),
    let gives := fun (op : Nat) => (tableOp o n op t d key e false none s).1
    (d.kind ≠ kindHash → d.outside key = true → ∀ op, gives op = (stBadParam, [])) ∧
    (d.kind = kindHash ∨ d.outside key = false →
      (∀ a x, s.lookup d t key = .hit a x → gives 1 = (stDone, decayEntry d (s.period d) x)) ∧
      (s.lookup d t key = .miss → gives 1 = (stNotFound, [])) ∧
      (s.lookup d t key = .unresolved → gives 1 = (stIntegrity, []))) ∧
    (d.kind = kindHash →
      (∀ a x, s.lookup d t key = .hit a x → gives 2 = (stExists, []) ∧ gives 3 = (stDone, []) ∧ gives 4 = (stDone, [])) ∧
      (s.lookup d t key = .miss → gives 3 = (stNotFound, []) ∧ gives 4 = (stNotFound, [])) ∧
      (s.lookup d t key = .unresolved → ∀ op, 1 ≤ op → op ≤ 4 → gives op = (stIntegrity, [])))) ∧
  (∀ (s : State) (b : BgOp) (t : Nat), s.running (fun k => match k with
      | .tableDelete n _ => n == t
      | _ => false) b → s.tableBusy t = false →
    exec (.tableDeleteComplete t) s = .next (s.finished b stDone 0)) ∧
  ∀ (s : State) (n k : Nat),
    let size := s.fld (Reg.TE_LQ_SIZE n) Fld.TE_LQ_SIZE_RECORDS
    let head := s.fld (Reg.TE_LQ_HEAD n) Fld.TE_LQ_HEAD_HEAD % size
    let a := s.lqAddr n head
    s.tenikRuns = true → n < 16 → 0 < s.lqFill n → (linesOf a 160).all s.dramReady = true →
    s.learnAt ((s.memAt (a + 1)).toNat % 64) = some k →
    ∃ u : State, exec (.learnForward n) s = .next u ∧ u.fld (Reg.TE_LQ_HEAD n) Fld.TE_LQ_HEAD_HEAD = (head + 1) % size ∧
      u.learn = s.learn ∧ u.mem = s.mem

/-- An entry of the Directory is written, made invalid and read, row and shadow alike, and a global mask is put in
force. Which images are bad is read from the rules (notes/assumptions/88.md). -/
def Obligations.DirectoryCommandsWorkOnEntries : Prop :=
  ∀ (s : State) (c : Cmd),
    let w := s.took c
    let i := c.p0
    (∀ n, n = imageSegs c.len → s.accepts c modesR true c.len 0 0xFFFF 0 0 → 1 ≤ c.len → c.len ≤ 3 →
      let b := padTo (48 * n) c.payload
      let rows := (List.range n).map fun k => DirRow.ofBytes k (slice b (48 * k) 48)
      imageBad n b = false → w.dirSeen c i = true → w.blockSegs (i / 4096) = n →
      ∃ u : State, exec (.dirWrite c) s = .next (u.replied c 0x70 stDone 0 []) ∧
        (s.entryRows i).map u.dirRowsAt = rows ∧ (s.entryRows i).map u.dirShadowAt = rows ∧
        ∀ r, r ∉ s.entryRows i → u.dirRowsAt r = s.dirRowsAt r) ∧
    (s.accepts c modesR true 0 0 0xFFFF 0 0 → w.dirSeen c i = true →
      ∃ u : State, exec (.dirInvalidate c) s = .next (u.replied c 0x71 stDone 0 []) ∧
        (∀ r ∈ s.entryOf i, (u.dirRowsAt r).valid = false) ∧ ∀ r, r ∉ s.entryOf i → u.dirRowsAt r = s.dirRowsAt r) ∧
    (s.accepts c modesA true 0 (48 * w.blockSegs (i / 4096)) 0xFFFF 0 0 → w.dirSeen c i = true →
      exec (.dirRead c) s = .next (w.replied c 0x72 stDone 0 (w.dirImage i))) ∧
    (s.accepts c modesR true 0 0 0xFFFF 0 0 → w.dirSeen c i = false →
      exec (.dirInvalidate c) s = .next (w.replied c 0x71 stNotFound 0 [])) ∧
    (let b := padTo 128 c.payload
     s.accepts c modesR false 2 0 7 0 0 → (b.drop 80).all (· == 0) = true →
     ∃ u : State, exec (.dirProfile c) s = .next (u.replied c 0x73 stDone 0 []) ∧ ∀ k < 10,
       u.actAt (Reg.DIR_GMASK i k) &&& shadowed (Reg.DIR_GMASK i k) =
         Word.ofNat (leAt b (8 * k) 8) &&& shadowed (Reg.DIR_GMASK i k))

/-- A classroom is created, reset and destroyed, and its share and dirty log are set. Which grants are refused, which
records are made, and when each step of a reset and a destruction happens is read from the rules
(notes/assumptions/107.md, notes/assumptions/108.md, notes/assumptions/109.md, notes/assumptions/110.md). -/
def Obligations.ClassroomsAreMadeResetAndDestroyed : Prop :=
  (∀ (s : State) (c : Cmd) (k : Nat), k < 64 →
    let w := s.took c
    (∀ ts, s.accepts c modesR false 2 0 (maskOf 5 0 ||| maskOf 27 8) 0 0 → c.p0 % 256 = k →
      let g := padTo 128 c.payload
      grantBad g = false → w.grantClash g = false → w.clState k = clFree → w.pasidTaken (c.p0 / 256 % 2 ^ 20) = false →
      w.grantFits k g = true → w.grantPlan g = some ts →
      (s.dramUp = true → ∃ u : State, exec (.classCreate c) s = .next u ∧ u.classesAt k = ⟨g⟩ ∧ u.clState k = clCreating ∧
        (⟨c.queue, c.tag, 0x50, bitOf c.flags 0, .classCreate k (c.p0 / 256 % 2 ^ 20) g, 0, false⟩ : BgOp) ∈ u.bg) ∧
      (s.dramUp = false → exec (.classCreate c) s = .next (w.replied c 0x50 stBusyRetry 0 []))) ∧
    (s.accepts c modesR false 0 0 63 0 0 → c.p0 = k → w.clState k = clActive →
      (∃ u : State, exec (.classReset c) s = .next u ∧ u.clState k = clResetting ∧
        (⟨c.queue, c.tag, 0x52, bitOf c.flags 0, .classReset k, 0, false⟩ : BgOp) ∈ u.bg) ∧
      ∃ u : State, exec (.classDestroy c) s = .next u ∧ u.clState k = clDestroying ∧
        (⟨c.queue, c.tag, 0x51, bitOf c.flags 0, .classDestroy k, 0, false⟩ : BgOp) ∈ u.bg) ∧
    (s.accepts c modesR false 0 0 63 0xFF01FFFF 0 → c.p0 = k → w.clState k = clActive → c.p1 % 2 ^ 17 ≤ 65536 →
      (List.range 64).foldl (fun a i => if i = k then a else a + w.fld (Reg.SQ_SHARE i) Fld.SQ_SHARE_ENTRIES)
        (c.p1 % 2 ^ 17) ≤ 65536 →
      ∃ u : State, exec (.classShare c) s = .next (u.replied c 0x53 stDone 0 []) ∧
        u.inForce (Reg.SQ_SHARE k) Fld.SQ_SHARE_ENTRIES = c.p1 % 2 ^ 17 ∧
        u.inForce (Reg.SQ_SHARE k) Fld.SQ_SHARE_WEIGHT = c.p1 / 2 ^ 24) ∧
    (s.accepts c modesR false 0 0 0x13F (2 ^ 64 - 1) (2 ^ 32 - 1) → w.clState k = clActive →
      (c.p0 = k + 0x100 → ∃ u : State, exec (.classMigrateLog c) s = .next (u.replied c 0x54 stDone 0 []) ∧
        u.fld (Reg.CL_DLOG_LEN k) Fld.CL_DLOG_LEN_EN = 1 ∧ u.fld (Reg.CL_DLOG_LEN k) Fld.CL_DLOG_LEN_PAGES = c.p2 ∧
        u.regsAt (Reg.CL_DLOG_BASE k) = Word.ofNat c.p1) ∧
      (c.p0 = k → ∃ u : State, exec (.classMigrateLog c) s = .next (u.replied c 0x54 stDone 0 []) ∧
        u.fld (Reg.CL_DLOG_LEN k) Fld.CL_DLOG_LEN_EN = 0))) ∧
  ∀ (s : State) (b : BgOp) (c : Nat), c < 64 →
    (∀ pasid g, b.kind = .classCreate c pasid g → pasid < 2 ^ 20 → s.running (fun k => match k with
        | .classCreate k _ _ => k == c
        | _ => false) b →
      s.thrDone ((List.range 96).filter fun k => (List.range 8).any fun i =>
        bindingOf (s.reg (thrReg (8 * k + i))) == some c) = true →
      ∃ v : State, exec (.classCreateComplete c) s = .next (v.finished b stDone 0) ∧ v.clState c = clActive ∧
        v.pasidOf c = pasid) ∧
    (s.classOp c = some b → s.tenikUp = true → s.fld (qStatus (16 + c)) Fld.Q_STATUS_EN_ACT = 0 → b.phase = 0 →
      ∃ u : State, exec (.classResetPoint c) s = .next u ∧
        u.bg = s.bg.map (fun x => if x == b then { x with phase := 1 } else x) ∧
        ∀ k r, u.unitsAt k = some r → r.req.room ≠ some c) ∧
    (s.running (· = .classReset c) b → s.classIdle c = true → b.phase = 1 →
      ∃ v : State, exec (.classResetComplete c) s = .next (v.finished b stDone (s.clgen c)) ∧ v.clState c = clActive) ∧
    (s.running (· = .classDestroy c) b → b.phase = 1 → s.classIdle c = true →
      (∀ t < 64, (s.table t).valid = true → (s.table t).classroom = c → s.tableBusy t = false) →
      ∃ u : State, exec (.classDestroyComplete c) s = .next u ∧
        ∀ t < 64, (s.table t).valid = true → (s.table t).classroom = c → (u.table t).valid = false) ∧
    (s.running (· = .classDestroy c) b → b.phase = 2 → s.classCores c = [] →
      ∃ v : State, exec (.classDestroyComplete c) s = .next (v.finished b stDone 0) ∧ v.clState c = clFree ∧
        v.classesAt c = Classroom.none)

/-! ## Faults and Detention -/

/-- The collector takes its oldest report: its class is pending afterwards, the log, ERR_N, a fence or SAFE follow as
the reactions say; a unit's own fault arrives first; acknowledging clears what is pending. A watchdog's bite is logged
and reported, and ends the requester's transaction at a DRAM channel: its write is discarded, its lookup has lost its
data. What REACT shows and how often ERR_N is counted is read from the rules (notes/assumptions/119.md), and so are
the records of acknowledgements (notes/assumptions/120.md); that a unit's own fault comes as an operand, how an
injected fault names its unit, and who asks what of a channel is the model's choice (notes/assumptions/162.md,
notes/assumptions/124.md, notes/assumptions/182.md). -/
def Obligations.FaultReportsAreTakenAndAcknowledged : Prop :=
  (∀ (s : State) (r : Report) (rest : List Report), s.fc.queue = r :: rest → s.boot.perst = false → r.source < 157 → r.cls < 3 →
    let k := s.escalated r
    let m := s.reactions r k
    let st := Reg.FC_STAT r.source
    (bitOf m 2 = false → bitOf m 3 = false → bitOf m 4 = false →
      ∃ u : State, exec (.faultReport none) s = .next u ∧ u.fc.queue = rest ∧ u.fc.fencing = s.fc.fencing ∧ u.fld st ⟨k, k⟩ = 1 ∧
        u.fld st Fld.FC_STAT_LAST_CAUSE = r.cause % 256 ∧
        u.fld st Fld.FC_STAT_FAULTS = (s.fld st Fld.FC_STAT_FAULTS + 1) % 2 ^ 32 ∧
        u.regsAt Reg.FC_CNT_REPORTS = s.regsAt Reg.FC_CNT_REPORTS + 1 ∧
        (bitOf m 5 = true → u.fld Reg.FC_ERR Fld.FC_ERR_ASSERTED = 1 ∧ u.fld st Fld.FC_STAT_ERR = 1)) ∧
    (∀ x, bitOf m 2 = true → bitOf m 3 = false → bitOf m 4 = false → r.unit = some x → x.exists = true → s.fenced x = false →
      s.beingFenced x = false → s.mode ≠ modeSafe → x.kind ∈ [UnitKind.core, .helper, .engine, .pipe, .ddr, .portGroup] →
      ∃ u : State, exec (.faultReport none) s = .next u ∧ (⟨x, .collector⟩ : Fencing) ∈ u.fc.fencing) ∧
    (bitOf m 2 = false → bitOf m 3 = false → bitOf m 4 = true → s.fc.fencing = [] →
      s.mode ∈ [modeStage, modeService, modeDegraded] →
      ∃ u : State, exec (.faultReport none) s = .next u ∧ u.mode = modeSafe)) ∧
  (∀ (s : State) (w : OwnFault) (x : UnitId) (cls cause : Nat), ownFault w = some (x, cls, cause) → s.boot.perst = false →
    (x.exists = true → s.fenced x = false → s.fc.queue.length < 255 → exec (.faultReport (some w)) s =
      exec (.faultReport none) ((Upd.fc { s.fc with queue := s.fc.queue ++ [⟨x.source, cls, cause, some x, 0⟩] }).apply s)) ∧
    (s.fenced x = true → exec (.faultReport (some w)) s = exec (.faultReport none) s)) ∧
  (∀ (s : State) (n : Nat), n < 157 →
    (s.inForce (Reg.FC_SRC n) Fld.FC_SRC_ACK_C = 1 → s.fld (Reg.FC_STAT n) Fld.FC_STAT_C_PEND = 1 →
      ∃ u : State, exec (.faultAutoAck n) s = .next u ∧ u.fld (Reg.FC_STAT n) Fld.FC_STAT_C_PEND = 0 ∧
        u.regsAt Reg.FC_CNT_AUTO_ACKS = s.regsAt Reg.FC_CNT_AUTO_ACKS + 1 ∧ u.fc = s.fc) ∧
    (∀ (o : Who) (v : Word), s.mayAccess o Reg.FC_ACK = true → Fld.FC_ACK_GO.get v = 1 → Fld.FC_ACK_SOURCE.get v = n →
      (∃ u : State, exec (.fcAckWrite o 0xFF v) s = .next u ∧
        u.regsAt (Reg.FC_STAT n) = s.regsAt (Reg.FC_STAT n) &&& ~~~0xF ∧
        bitOf (u.regsAt (Reg.FC_ERR_SRC (n / 64))).toNat (n % 64) = false) ∧
      exec (.fcAckWrite o 0x0F v) s = .next s) ∧
    ∀ c : Cmd, s.accepts c modesA false 0 0 0xFF 0 0 → c.p0 = n →
      (s.faultHeld n = true → ∃ u : State, exec (.faultAck c) s = .next (u.replied c 0xA2 stDone 0 []) ∧
        u.regsAt (Reg.FC_STAT n) = s.regsAt (Reg.FC_STAT n) &&& ~~~0xF) ∧
      (s.faultHeld n = false → exec (.faultAck c) s = .next ((s.took c).replied c 0xA2 stDone 0 []))) ∧
  (∀ (s : State) (c : Cmd) (n cls : Nat), s.accepts c modesR false 0 0 0x3FF 0 0 → c.p0 = n + cls * 256 → n < 157 → cls < 3 →
    ∃ u : State, exec (.faultInject c) s = .next (u.replied c 0xA3 stDone 0 []) ∧
      u.fc.queue = s.fc.queue ++ [⟨n, cls, 0x0F, sourceUnit n, 0⟩]) ∧
  ∀ (s : State) (k idx req : Nat), modeStage ≤ s.mode → k < 6 → idx < 256 → req < 157 →
    let bitten := fun (u : State) => u.fld Reg.BP_WDOG_LOG Fld.BP_WDOG_LOG_KIND = k ∧
      u.fld Reg.BP_WDOG_LOG Fld.BP_WDOG_LOG_INDEX = idx ∧ u.fld Reg.BP_WDOG_LOG Fld.BP_WDOG_LOG_REQUESTER = req ∧
      u.fc.queue = s.fc.queue ++ [⟨req, if req = 155 then clsF else clsU, 0x06, sourceUnit req, 0⟩]
    (k ≠ 2 → ∃ u : State, exec (.watchdogBite k idx req) s = .next u ∧ bitten u) ∧
    (k = 2 → idx < 8 → 96 ≤ req → req < 108 → ∀ q, (s.ddrsAt idx).writes.find? (·.who == req) = some q →
      (∀ r ∈ (s.ddrsAt idx).writes, r.addr = q.addr → r.seq ≤ q.seq) →
      ∃ u : State, exec (.watchdogBite k idx req) s = .next u ∧ bitten u ∧
        (u.ddrsAt idx).writeQ = (s.ddrsAt idx).writeQ.erase q ∧ (u.ddrsAt idx).held = (s.ddrsAt idx).held.erase q) ∧
    (k = 2 → idx < 8 → 108 ≤ req → req < 124 → ∀ i, s.lookupOn (req - 108) idx = some i →
      ∃ u : State, exec (.watchdogBite k idx req) s = .next u ∧ bitten u ∧
        ((u.enginesAt (req - 108)).taken[i]?).map (·.lost) = some true)

/-- FENCE begins a fence and its end puts the unit into Detention, a bank's once its queues are drained; UNFENCE
begins a return and its end brings the unit back. When each step of a fence and of a return happens is read from the
rules (notes/assumptions/121.md, notes/assumptions/122.md). A lockstep mismatch or a hang restarts Tenik from an image
that still matches its CRC, which says that it is alive, or does not come back. Where the image is found, and what
brings Tenik back, is read from the rules (notes/assumptions/123.md). -/
def Obligations.DetentionAndRestart : Prop :=
  ((∀ (s : State) (c : Cmd) (x : UnitId), c.p0 % 2 ^ 24 = x.kind.code + x.idx * 256 → x.exists = true →
    let w := s.took c
    (s.accepts c modesA false 0 0 (maskOf 3 0 ||| maskOf 23 8) 0 0 →
      (s.fenced x = true → exec (.fence c) s = .next (w.replied c 0xA0 stDone 0 [])) ∧
      (s.fenced x = false → s.beingFenced x = false → w.lastOne x = true →
        exec (.fence c) s = .next (w.replied c 0xA0 stBadParam 0 [])) ∧
      (s.fenced x = false → s.beingFenced x = false → w.lastOne x = false → s.unitBusy x = false → s.mode ≠ modeSafe →
        x.kind ∈ [UnitKind.core, .helper, .engine, .pipe, .ddr, .portGroup] →
        ∃ (u : State) (o : Origin), exec (.fence c) s = .next u ∧ (⟨x, o⟩ : Fencing) ∈ u.fc.fencing ∧
          u.bg = s.bg ++ [⟨c.queue, c.tag, 0xA0, bitOf c.flags 0, .fence x, 0, false⟩])) ∧
    (s.accepts c modesR false 0 0 (maskOf 3 0 ||| maskOf 24 8) 0 0 →
      (s.fenced x = false → s.beingFenced x = false → exec (.unfence c) s = .next (w.replied c 0xA1 stDone 0 [])) ∧
      (s.fenced x = true → s.beingFenced x = false → s.faultsOpen x = false → s.unitBusy x = false →
        (x.kind ∈ [UnitKind.core, .helper] → ∀ k, x.street? = some k → s.fenced ⟨.street, k⟩ = false) →
        ∃ u : State, exec (.unfence c) s = .next u ∧
          u.bg = s.bg ++ [⟨c.queue, c.tag, 0xA1, bitOf c.flags 0, .unfence x (bitOf c.p0 24), 0, false⟩]))) ∧
  (∀ (s : State) (f : Fencing), s.fc.fencing.find? (fun g => g.unit = f.unit) = some f → f.unit.exists = true →
    (s.mode = modeSafe → f.unit.kind ≠ .link →
      (f.unit.kind = .lane → s.fld Reg.CW_STATUS Fld.CW_STATUS_LANE_MOVING = 0) →
      (f.unit.kind = .bank → (s.banksAt f.unit.idx).urgent = [] ∧ (s.banksAt f.unit.idx).inq = []) →
      ∃ u : State, exec (.fenceComplete f.unit.kind.code f.unit.idx) s = .next u ∧ (∀ x ∈ f.unit.members, u.fenced x = true)) ∧
    (f.unit.kind = .bank → f.unit.idx < 4 → s.mode = modeService →
      ((s.banksAt f.unit.idx).urgent ≠ [] ∨ (s.banksAt f.unit.idx).inq ≠ [] →
        exec (.fenceComplete f.unit.kind.code f.unit.idx) s = .next s) ∧
      ((s.banksAt f.unit.idx).urgent = [] → (s.banksAt f.unit.idx).inq = [] →
      ∃ u : State, exec (.fenceComplete f.unit.kind.code f.unit.idx) s = .next u ∧ u.fenced f.unit = true ∧
        u.mode = modeDegraded ∧ u.banks = s.banks ∧ u.fencing f.unit = false))) ∧
  ∀ (s : State) (b : BgOp) (x : UnitId) (keep : Bool), b.kind = .unfence x keep → x.exists = true →
    s.running (fun b => match b with
      | .unfence v _ => v == x
      | _ => false) b →
    (x.kind = .lane → s.fld Reg.CW_STATUS Fld.CW_STATUS_LANE_MOVING = 0) →
    ∃ u : State, exec (.unfenceComplete x.kind.code x.idx) s = .next u ∧ u.bg = s.bg.erase b ∧
      (x.kind ∈ [UnitKind.core, .helper, .engine, .lane, .portGroup] → u.fenced x = false)) ∧
  ((∀ s : State, s.tenikRuns = true → (s.gbLog2 = 0 ∨ s.gb.queue.length < 1023) →
    let lost : List Report := if s.imageGood then [] else [⟨152, clsF, 0x10, none, 0⟩]
    (∃ u : State, exec .lockstepMismatch s = .next u ∧ u.fc.queue = s.fc.queue ++ [⟨152, clsU, 0x09, none, 0⟩] ++ lost ∧
      u.boot = { s.boot with tenikDown := true, restarting := s.imageGood } ∧ u.fld Reg.SR_STATUS Fld.SR_STATUS_RUNNING = 0 ∧
      u.fld Reg.SR_STATUS Fld.SR_STATUS_RESTARTS = (s.fld Reg.SR_STATUS Fld.SR_STATUS_RESTARTS + 1) % 2 ^ 32) ∧
    ∃ u : State, exec .tenikHang s = .next u ∧ u.fc.queue = s.fc.queue ++ [⟨152, clsU, 0x0A, none, 0⟩] ++ lost ∧
      u.boot = { s.boot with tenikDown := true, restarting := s.imageGood } ∧ u.fld Reg.SR_STATUS Fld.SR_STATUS_RUNNING = 0) ∧
  (∀ (s : State) (v : Word), modeStage ≤ s.mode → Fld.SR_ALIVE_ALIVE.get v = 1 →
    (s.boot.tenikDown = false ∨ s.boot.restarting = true) →
    ∃ u : State, exec (.srAlive .tenik 0xFF v) s = .next u ∧ u.boot.tenikDown = false ∧
      (s.boot.tenikDown = false → u.fld Reg.SR_STATUS Fld.SR_STATUS_RUNNING = 1)) ∧
  (∀ (s : State) (v : Word) (en : Nat), (laneOk en = true → exec (.srAlive (.host none) en v) s = .next s) ∧
    (laneOk en = false → s.boot.perst = false → ∃ u : State, exec (.srAlive (.host none) en v) s = .next u ∧ u.boot = s.boot ∧
      u.regsAt Reg.HI_CNT_BAD_SIZE = s.regsAt Reg.HI_CNT_BAD_SIZE + 1)) ∧
  ∀ s : State, s.boot.tenikDown = true → s.boot.restarting = true →
    ∃ u : State, exec .restartFail s = .next u ∧ u.boot = { s.boot with restarting := false } ∧
      u.fc.queue = s.fc.queue ++ [⟨152, clsF, 0x10, none, 0⟩])
end

