-- ==== Sys2Proof/Laws/Maps.lean ====
section
/-! SUPPORT. Laws of `SMap`: a read after a write, and that every write keeps the canonical form. -/

set_option linter.all false
set_option Elab.async false

namespace Sys2Proof.Machine

theorem SMap.get_insert_same {α : Type} (d : Nat → α) (m : SMap α) (k : Nat) (v : α) : SMap.get d (m.insert k v) k = v := by
  induction m with
  | nil => simp [SMap.insert, SMap.get]
  | cons e r ih =>
    obtain ⟨k', v'⟩ := e
    simp only [SMap.insert]
    split
    · simp [SMap.get]
    · split
      · simp [SMap.get]
      · rename_i h1 h2
        simp [SMap.get, Ne.symm h2, ih]

theorem SMap.get_insert_other {α : Type} (d : Nat → α) (m : SMap α) {k j : Nat} (v : α) (h : j ≠ k) :
    SMap.get d (m.insert k v) j = SMap.get d m j := by
  induction m with
  | nil => simp [SMap.insert, SMap.get, Ne.symm h]
  | cons e r ih =>
    obtain ⟨k', v'⟩ := e
    simp only [SMap.insert]
    split
    · simp [SMap.get, Ne.symm h]
    · split
      · rename_i h1 h2
        subst h2
        simp [SMap.get, Ne.symm h]
      · simp [SMap.get, ih]

theorem SMap.get_filter_other {α : Type} (d : Nat → α) (m : SMap α) {k j : Nat} (h : j ≠ k) :
    SMap.get d (m.filter fun e => e.1 ≠ k) j = SMap.get d m j := by
  induction m with
  | nil => rfl
  | cons e r ih =>
    obtain ⟨k', v'⟩ := e
    by_cases hk : k' = k
    · subst hk
      simp only [SMap.get, Ne.symm h, if_false]
      simpa [List.filter_cons] using ih
    · simp only [SMap.get]
      rw [List.filter_cons_of_pos (by simpa using hk)]
      simp only [SMap.get]
      split
      · rfl
      · exact ih

theorem SMap.get_filter_same {α : Type} (d : Nat → α) (m : SMap α) (k : Nat) :
    SMap.get d (m.filter fun e => e.1 ≠ k) k = d k := by
  induction m with
  | nil => rfl
  | cons e r ih =>
    obtain ⟨k', v'⟩ := e
    by_cases hk : k' = k
    · subst hk
      simpa [List.filter_cons] using ih
    · rw [List.filter_cons_of_pos (by simpa using hk)]
      simp only [SMap.get, hk, if_false]
      exact ih

/-- A read of the key written gives the value written. -/
@[simp] theorem SMap.get_put_same {α : Type} [DecidableEq α] (d : Nat → α) (m : SMap α) (k : Nat) (v : α) :
    SMap.get d (m.put d k v) k = v := by
  unfold SMap.put
  split
  · rename_i h
    rw [SMap.get_filter_same, h]
  · exact SMap.get_insert_same d m k v

/-- A read of another key is as before. -/
theorem SMap.get_put_other {α : Type} [DecidableEq α] (d : Nat → α) (m : SMap α) {k j : Nat} (v : α) (h : j ≠ k) :
    SMap.get d (m.put d k v) j = SMap.get d m j := by
  unfold SMap.put
  split
  · exact SMap.get_filter_other d m h
  · exact SMap.get_insert_other d m v h

/-- Every read after a write. -/
theorem SMap.get_put {α : Type} [DecidableEq α] (d : Nat → α) (m : SMap α) (k j : Nat) (v : α) :
    SMap.get d (m.put d k v) j = if j = k then v else SMap.get d m j := by
  split
  · subst_vars
    exact SMap.get_put_same d m _ v
  · exact SMap.get_put_other d m v ‹_›

/-! The canonical form. -/

theorem SMap.sorted_cons {α : Type} (k : Nat) (v : α) (m : SMap α) :
    SMap.sorted ((k, v) :: m) = true ↔ (∀ e ∈ m, k < e.1) ∧ m.sorted = true := by
  induction m generalizing k v with
  | nil => simp [SMap.sorted]
  | cons e r ih =>
    obtain ⟨k', v'⟩ := e
    simp only [SMap.sorted, Bool.and_eq_true, decide_eq_true_eq, List.mem_cons, forall_eq_or_imp]
    constructor
    · rintro ⟨h, hs⟩
      exact ⟨⟨h, fun e he => Nat.lt_trans h (((ih k' v').1 hs).1 e he)⟩, hs⟩
    · rintro ⟨⟨h, -⟩, hs⟩
      exact ⟨h, hs⟩

theorem SMap.sorted_filter {α : Type} (m : SMap α) (p : Nat × α → Bool) (h : m.sorted = true) :
    SMap.sorted (m.filter p) = true := by
  induction m with
  | nil => rfl
  | cons e r ih =>
    obtain ⟨k, v⟩ := e
    obtain ⟨h1, h2⟩ := (SMap.sorted_cons k v r).1 h
    by_cases hp : p (k, v) = true
    · rw [List.filter_cons_of_pos hp, SMap.sorted_cons]
      exact ⟨fun e he => h1 e (List.mem_filter.1 he).1, ih h2⟩
    · rw [List.filter_cons_of_neg hp]
      exact ih h2

theorem SMap.mem_insert {α : Type} {m : SMap α} {k : Nat} {v : α} {e : Nat × α} (h : e ∈ m.insert k v) :
    e = (k, v) ∨ e ∈ m := by
  induction m with
  | nil => simpa [SMap.insert] using h
  | cons x r ih =>
    obtain ⟨k', v'⟩ := x
    simp only [SMap.insert] at h
    split at h
    · simpa using h
    · split at h
      · rcases List.mem_cons.1 h with h | h
        · exact .inl h
        · exact .inr (List.mem_cons_of_mem _ h)
      · rcases List.mem_cons.1 h with h | h
        · exact .inr (h ▸ List.mem_cons_self ..)
        · exact (ih h).imp_right (List.mem_cons_of_mem _)

theorem SMap.sorted_insert {α : Type} (m : SMap α) (k : Nat) (v : α) (h : m.sorted = true) :
    SMap.sorted (m.insert k v) = true := by
  induction m with
  | nil => rfl
  | cons x r ih =>
    obtain ⟨k', v'⟩ := x
    obtain ⟨h1, h2⟩ := (SMap.sorted_cons k' v' r).1 h
    simp only [SMap.insert]
    split
    · rename_i hlt
      rw [SMap.sorted_cons]
      refine ⟨fun e he => ?_, h⟩
      rcases List.mem_cons.1 he with he | he
      · exact he ▸ hlt
      · exact Nat.lt_trans hlt (h1 e he)
    · split
      · rename_i _ heq
        subst heq
        exact (SMap.sorted_cons k v r).2 ⟨h1, h2⟩
      · rename_i hn hne
        rw [SMap.sorted_cons]
        refine ⟨fun e he => ?_, ih h2⟩
        rcases SMap.mem_insert he with he | he
        · subst he
          exact Nat.lt_of_le_of_ne (Nat.le_of_not_lt hn) (Ne.symm hne)
        · exact h1 e he

theorem SMap.wf_iff {α : Type} [DecidableEq α] (d : Nat → α) (m : SMap α) :
    SMap.wf d m = true ↔ m.sorted = true ∧ ∀ e ∈ m, e.2 ≠ d e.1 := by
  simp [SMap.wf, List.all_eq_true]

theorem SMap.wf_filter {α : Type} [DecidableEq α] (d : Nat → α) (m : SMap α) (p : Nat × α → Bool) (h : SMap.wf d m = true) :
    SMap.wf d (m.filter p) = true := by
  obtain ⟨h1, h2⟩ := (SMap.wf_iff d m).1 h
  exact (SMap.wf_iff d _).2 ⟨SMap.sorted_filter m p h1, fun e he => h2 e (List.mem_filter.1 he).1⟩

/-- Every write keeps the canonical form. -/
theorem SMap.wf_put {α : Type} [DecidableEq α] (d : Nat → α) (m : SMap α) (k : Nat) (v : α) (h : SMap.wf d m = true) :
    SMap.wf d (m.put d k v) = true := by
  unfold SMap.put
  split
  · exact SMap.wf_filter d m _ h
  · rename_i hv
    obtain ⟨h1, h2⟩ := (SMap.wf_iff d m).1 h
    refine (SMap.wf_iff d _).2 ⟨SMap.sorted_insert m k v h1, fun e he => ?_⟩
    rcases SMap.mem_insert he with he | he
    · exact he ▸ hv
    · exact h2 e he

end Sys2Proof.Machine
end

