-- ==== Sys2Proof/Laws/State.lean ====
section
/-! SUPPORT. What each change of the state (`Upd`) does to each field: one lemma per field per change, so that no proof
unfolds a record update. -/

set_option linter.all false
set_option Elab.async false

namespace Sys2Proof.Machine

variable (s : State)

@[simp] theorem Upd.free_pending (v : Nat) : ((Upd.free v).apply s).pending = s.pending := (rfl)
@[simp] theorem Upd.free_free (v : Nat) : ((Upd.free v).apply s).free = v := (rfl)
@[simp] theorem Upd.free_outbox (v : Nat) : ((Upd.free v).apply s).outbox = s.outbox := (rfl)
@[simp] theorem Upd.free_mem (v : Nat) : ((Upd.free v).apply s).mem = s.mem := (rfl)
@[simp] theorem Upd.free_bad (v : Nat) : ((Upd.free v).apply s).bad = s.bad := (rfl)
@[simp] theorem Upd.free_desk (v : Nat) : ((Upd.free v).apply s).desk = s.desk := (rfl)
@[simp] theorem Upd.free_pg (v : Nat) : ((Upd.free v).apply s).pg = s.pg := (rfl)
@[simp] theorem Upd.free_regs (v : Nat) : ((Upd.free v).apply s).regs = s.regs := (rfl)
@[simp] theorem Upd.free_act (v : Nat) : ((Upd.free v).apply s).act = s.act := (rfl)
@[simp] theorem Upd.free_pendc (v : Nat) : ((Upd.free v).apply s).pendc = s.pendc := (rfl)
@[simp] theorem Upd.free_goBy (v : Nat) : ((Upd.free v).apply s).goBy = s.goBy := (rfl)
@[simp] theorem Upd.free_msix (v : Nat) : ((Upd.free v).apply s).msix = s.msix := (rfl)
@[simp] theorem Upd.free_threads (v : Nat) : ((Upd.free v).apply s).threads = s.threads := (rfl)
@[simp] theorem Upd.free_acts (v : Nat) : ((Upd.free v).apply s).acts = s.acts := (rfl)
@[simp] theorem Upd.free_ready (v : Nat) : ((Upd.free v).apply s).ready = s.ready := (rfl)
@[simp] theorem Upd.free_delay (v : Nat) : ((Upd.free v).apply s).delay = s.delay := (rfl)
@[simp] theorem Upd.free_ctxs (v : Nat) : ((Upd.free v).apply s).ctxs = s.ctxs := (rfl)
@[simp] theorem Upd.free_banks (v : Nat) : ((Upd.free v).apply s).banks = s.banks := (rfl)
@[simp] theorem Upd.free_fuq (v : Nat) : ((Upd.free v).apply s).fuq = s.fuq := (rfl)
@[simp] theorem Upd.free_units (v : Nat) : ((Upd.free v).apply s).units = s.units := (rfl)
@[simp] theorem Upd.free_hqueues (v : Nat) : ((Upd.free v).apply s).hqueues = s.hqueues := (rfl)
@[simp] theorem Upd.free_icache (v : Nat) : ((Upd.free v).apply s).icache = s.icache := (rfl)
@[simp] theorem Upd.free_learn (v : Nat) : ((Upd.free v).apply s).learn = s.learn := (rfl)
@[simp] theorem Upd.free_engines (v : Nat) : ((Upd.free v).apply s).engines = s.engines := (rfl)
@[simp] theorem Upd.free_dirRows (v : Nat) : ((Upd.free v).apply s).dirRows = s.dirRows := (rfl)
@[simp] theorem Upd.free_dirShadow (v : Nat) : ((Upd.free v).apply s).dirShadow = s.dirShadow := (rfl)
@[simp] theorem Upd.free_dir (v : Nat) : ((Upd.free v).apply s).dir = s.dir := (rfl)
@[simp] theorem Upd.free_ddrs (v : Nat) : ((Upd.free v).apply s).ddrs = s.ddrs := (rfl)
@[simp] theorem Upd.free_bufs (v : Nat) : ((Upd.free v).apply s).bufs = s.bufs := (rfl)
@[simp] theorem Upd.free_pools (v : Nat) : ((Upd.free v).apply s).pools = s.pools := (rfl)
@[simp] theorem Upd.free_chans (v : Nat) : ((Upd.free v).apply s).chans = s.chans := (rfl)
@[simp] theorem Upd.free_locks (v : Nat) : ((Upd.free v).apply s).locks = s.locks := (rfl)
@[simp] theorem Upd.free_streams (v : Nat) : ((Upd.free v).apply s).streams = s.streams := (rfl)
@[simp] theorem Upd.free_ports (v : Nat) : ((Upd.free v).apply s).ports = s.ports := (rfl)
@[simp] theorem Upd.free_pipes (v : Nat) : ((Upd.free v).apply s).pipes = s.pipes := (rfl)
@[simp] theorem Upd.free_admitQ (v : Nat) : ((Upd.free v).apply s).admitQ = s.admitQ := (rfl)
@[simp] theorem Upd.free_terms (v : Nat) : ((Upd.free v).apply s).terms = s.terms := (rfl)
@[simp] theorem Upd.free_classes (v : Nat) : ((Upd.free v).apply s).classes = s.classes := (rfl)
@[simp] theorem Upd.free_hostq (v : Nat) : ((Upd.free v).apply s).hostq = s.hostq := (rfl)
@[simp] theorem Upd.free_ringLinks (v : Nat) : ((Upd.free v).apply s).ringLinks = s.ringLinks := (rfl)
@[simp] theorem Upd.free_sq (v : Nat) : ((Upd.free v).apply s).sq = s.sq := (rfl)
@[simp] theorem Upd.free_rc (v : Nat) : ((Upd.free v).apply s).rc = s.rc := (rfl)
@[simp] theorem Upd.free_cw (v : Nat) : ((Upd.free v).apply s).cw = s.cw := (rfl)
@[simp] theorem Upd.free_ring (v : Nat) : ((Upd.free v).apply s).ring = s.ring := (rfl)
@[simp] theorem Upd.free_gb (v : Nat) : ((Upd.free v).apply s).gb = s.gb := (rfl)
@[simp] theorem Upd.free_fc (v : Nat) : ((Upd.free v).apply s).fc = s.fc := (rfl)
@[simp] theorem Upd.free_tb (v : Nat) : ((Upd.free v).apply s).tb = s.tb := (rfl)
@[simp] theorem Upd.free_boot (v : Nat) : ((Upd.free v).apply s).boot = s.boot := (rfl)
@[simp] theorem Upd.free_tap (v : Nat) : ((Upd.free v).apply s).tap = s.tap := (rfl)
@[simp] theorem Upd.free_bg (v : Nat) : ((Upd.free v).apply s).bg = s.bg := (rfl)

@[simp] theorem Upd.outbox_pending (v : List Out) : ((Upd.outbox v).apply s).pending = s.pending := (rfl)
@[simp] theorem Upd.outbox_free (v : List Out) : ((Upd.outbox v).apply s).free = s.free := (rfl)
@[simp] theorem Upd.outbox_outbox (v : List Out) : ((Upd.outbox v).apply s).outbox = v := (rfl)
@[simp] theorem Upd.outbox_mem (v : List Out) : ((Upd.outbox v).apply s).mem = s.mem := (rfl)
@[simp] theorem Upd.outbox_bad (v : List Out) : ((Upd.outbox v).apply s).bad = s.bad := (rfl)
@[simp] theorem Upd.outbox_desk (v : List Out) : ((Upd.outbox v).apply s).desk = s.desk := (rfl)
@[simp] theorem Upd.outbox_pg (v : List Out) : ((Upd.outbox v).apply s).pg = s.pg := (rfl)
@[simp] theorem Upd.outbox_regs (v : List Out) : ((Upd.outbox v).apply s).regs = s.regs := (rfl)
@[simp] theorem Upd.outbox_act (v : List Out) : ((Upd.outbox v).apply s).act = s.act := (rfl)
@[simp] theorem Upd.outbox_pendc (v : List Out) : ((Upd.outbox v).apply s).pendc = s.pendc := (rfl)
@[simp] theorem Upd.outbox_goBy (v : List Out) : ((Upd.outbox v).apply s).goBy = s.goBy := (rfl)
@[simp] theorem Upd.outbox_msix (v : List Out) : ((Upd.outbox v).apply s).msix = s.msix := (rfl)
@[simp] theorem Upd.outbox_threads (v : List Out) : ((Upd.outbox v).apply s).threads = s.threads := (rfl)
@[simp] theorem Upd.outbox_acts (v : List Out) : ((Upd.outbox v).apply s).acts = s.acts := (rfl)
@[simp] theorem Upd.outbox_ready (v : List Out) : ((Upd.outbox v).apply s).ready = s.ready := (rfl)
@[simp] theorem Upd.outbox_delay (v : List Out) : ((Upd.outbox v).apply s).delay = s.delay := (rfl)
@[simp] theorem Upd.outbox_ctxs (v : List Out) : ((Upd.outbox v).apply s).ctxs = s.ctxs := (rfl)
@[simp] theorem Upd.outbox_banks (v : List Out) : ((Upd.outbox v).apply s).banks = s.banks := (rfl)
@[simp] theorem Upd.outbox_fuq (v : List Out) : ((Upd.outbox v).apply s).fuq = s.fuq := (rfl)
@[simp] theorem Upd.outbox_units (v : List Out) : ((Upd.outbox v).apply s).units = s.units := (rfl)
@[simp] theorem Upd.outbox_hqueues (v : List Out) : ((Upd.outbox v).apply s).hqueues = s.hqueues := (rfl)
@[simp] theorem Upd.outbox_icache (v : List Out) : ((Upd.outbox v).apply s).icache = s.icache := (rfl)
@[simp] theorem Upd.outbox_learn (v : List Out) : ((Upd.outbox v).apply s).learn = s.learn := (rfl)
@[simp] theorem Upd.outbox_engines (v : List Out) : ((Upd.outbox v).apply s).engines = s.engines := (rfl)
@[simp] theorem Upd.outbox_dirRows (v : List Out) : ((Upd.outbox v).apply s).dirRows = s.dirRows := (rfl)
@[simp] theorem Upd.outbox_dirShadow (v : List Out) : ((Upd.outbox v).apply s).dirShadow = s.dirShadow := (rfl)
@[simp] theorem Upd.outbox_dir (v : List Out) : ((Upd.outbox v).apply s).dir = s.dir := (rfl)
@[simp] theorem Upd.outbox_ddrs (v : List Out) : ((Upd.outbox v).apply s).ddrs = s.ddrs := (rfl)
@[simp] theorem Upd.outbox_bufs (v : List Out) : ((Upd.outbox v).apply s).bufs = s.bufs := (rfl)
@[simp] theorem Upd.outbox_pools (v : List Out) : ((Upd.outbox v).apply s).pools = s.pools := (rfl)
@[simp] theorem Upd.outbox_chans (v : List Out) : ((Upd.outbox v).apply s).chans = s.chans := (rfl)
@[simp] theorem Upd.outbox_locks (v : List Out) : ((Upd.outbox v).apply s).locks = s.locks := (rfl)
@[simp] theorem Upd.outbox_streams (v : List Out) : ((Upd.outbox v).apply s).streams = s.streams := (rfl)
@[simp] theorem Upd.outbox_ports (v : List Out) : ((Upd.outbox v).apply s).ports = s.ports := (rfl)
@[simp] theorem Upd.outbox_pipes (v : List Out) : ((Upd.outbox v).apply s).pipes = s.pipes := (rfl)
@[simp] theorem Upd.outbox_admitQ (v : List Out) : ((Upd.outbox v).apply s).admitQ = s.admitQ := (rfl)
@[simp] theorem Upd.outbox_terms (v : List Out) : ((Upd.outbox v).apply s).terms = s.terms := (rfl)
@[simp] theorem Upd.outbox_classes (v : List Out) : ((Upd.outbox v).apply s).classes = s.classes := (rfl)
@[simp] theorem Upd.outbox_hostq (v : List Out) : ((Upd.outbox v).apply s).hostq = s.hostq := (rfl)
@[simp] theorem Upd.outbox_ringLinks (v : List Out) : ((Upd.outbox v).apply s).ringLinks = s.ringLinks := (rfl)
@[simp] theorem Upd.outbox_sq (v : List Out) : ((Upd.outbox v).apply s).sq = s.sq := (rfl)
@[simp] theorem Upd.outbox_rc (v : List Out) : ((Upd.outbox v).apply s).rc = s.rc := (rfl)
@[simp] theorem Upd.outbox_cw (v : List Out) : ((Upd.outbox v).apply s).cw = s.cw := (rfl)
@[simp] theorem Upd.outbox_ring (v : List Out) : ((Upd.outbox v).apply s).ring = s.ring := (rfl)
@[simp] theorem Upd.outbox_gb (v : List Out) : ((Upd.outbox v).apply s).gb = s.gb := (rfl)
@[simp] theorem Upd.outbox_fc (v : List Out) : ((Upd.outbox v).apply s).fc = s.fc := (rfl)
@[simp] theorem Upd.outbox_tb (v : List Out) : ((Upd.outbox v).apply s).tb = s.tb := (rfl)
@[simp] theorem Upd.outbox_boot (v : List Out) : ((Upd.outbox v).apply s).boot = s.boot := (rfl)
@[simp] theorem Upd.outbox_tap (v : List Out) : ((Upd.outbox v).apply s).tap = s.tap := (rfl)
@[simp] theorem Upd.outbox_bg (v : List Out) : ((Upd.outbox v).apply s).bg = s.bg := (rfl)

@[simp] theorem Upd.mem_pending (k : Nat) (v : Byte) : ((Upd.mem k v).apply s).pending = s.pending := (rfl)
@[simp] theorem Upd.mem_free (k : Nat) (v : Byte) : ((Upd.mem k v).apply s).free = s.free := (rfl)
@[simp] theorem Upd.mem_outbox (k : Nat) (v : Byte) : ((Upd.mem k v).apply s).outbox = s.outbox := (rfl)
@[simp] theorem Upd.mem_mem (k : Nat) (v : Byte) : ((Upd.mem k v).apply s).mem = s.mem.put dfltMem k v := (rfl)
@[simp] theorem Upd.mem_bad (k : Nat) (v : Byte) : ((Upd.mem k v).apply s).bad = s.bad := (rfl)
@[simp] theorem Upd.mem_desk (k : Nat) (v : Byte) : ((Upd.mem k v).apply s).desk = s.desk := (rfl)
@[simp] theorem Upd.mem_pg (k : Nat) (v : Byte) : ((Upd.mem k v).apply s).pg = s.pg := (rfl)
@[simp] theorem Upd.mem_regs (k : Nat) (v : Byte) : ((Upd.mem k v).apply s).regs = s.regs := (rfl)
@[simp] theorem Upd.mem_act (k : Nat) (v : Byte) : ((Upd.mem k v).apply s).act = s.act := (rfl)
@[simp] theorem Upd.mem_pendc (k : Nat) (v : Byte) : ((Upd.mem k v).apply s).pendc = s.pendc := (rfl)
@[simp] theorem Upd.mem_goBy (k : Nat) (v : Byte) : ((Upd.mem k v).apply s).goBy = s.goBy := (rfl)
@[simp] theorem Upd.mem_msix (k : Nat) (v : Byte) : ((Upd.mem k v).apply s).msix = s.msix := (rfl)
@[simp] theorem Upd.mem_threads (k : Nat) (v : Byte) : ((Upd.mem k v).apply s).threads = s.threads := (rfl)
@[simp] theorem Upd.mem_acts (k : Nat) (v : Byte) : ((Upd.mem k v).apply s).acts = s.acts := (rfl)
@[simp] theorem Upd.mem_ready (k : Nat) (v : Byte) : ((Upd.mem k v).apply s).ready = s.ready := (rfl)
@[simp] theorem Upd.mem_delay (k : Nat) (v : Byte) : ((Upd.mem k v).apply s).delay = s.delay := (rfl)
@[simp] theorem Upd.mem_ctxs (k : Nat) (v : Byte) : ((Upd.mem k v).apply s).ctxs = s.ctxs := (rfl)
@[simp] theorem Upd.mem_banks (k : Nat) (v : Byte) : ((Upd.mem k v).apply s).banks = s.banks := (rfl)
@[simp] theorem Upd.mem_fuq (k : Nat) (v : Byte) : ((Upd.mem k v).apply s).fuq = s.fuq := (rfl)
@[simp] theorem Upd.mem_units (k : Nat) (v : Byte) : ((Upd.mem k v).apply s).units = s.units := (rfl)
@[simp] theorem Upd.mem_hqueues (k : Nat) (v : Byte) : ((Upd.mem k v).apply s).hqueues = s.hqueues := (rfl)
@[simp] theorem Upd.mem_icache (k : Nat) (v : Byte) : ((Upd.mem k v).apply s).icache = s.icache := (rfl)
@[simp] theorem Upd.mem_learn (k : Nat) (v : Byte) : ((Upd.mem k v).apply s).learn = s.learn := (rfl)
@[simp] theorem Upd.mem_engines (k : Nat) (v : Byte) : ((Upd.mem k v).apply s).engines = s.engines := (rfl)
@[simp] theorem Upd.mem_dirRows (k : Nat) (v : Byte) : ((Upd.mem k v).apply s).dirRows = s.dirRows := (rfl)
@[simp] theorem Upd.mem_dirShadow (k : Nat) (v : Byte) : ((Upd.mem k v).apply s).dirShadow = s.dirShadow := (rfl)
@[simp] theorem Upd.mem_dir (k : Nat) (v : Byte) : ((Upd.mem k v).apply s).dir = s.dir := (rfl)
@[simp] theorem Upd.mem_ddrs (k : Nat) (v : Byte) : ((Upd.mem k v).apply s).ddrs = s.ddrs := (rfl)
@[simp] theorem Upd.mem_bufs (k : Nat) (v : Byte) : ((Upd.mem k v).apply s).bufs = s.bufs := (rfl)
@[simp] theorem Upd.mem_pools (k : Nat) (v : Byte) : ((Upd.mem k v).apply s).pools = s.pools := (rfl)
@[simp] theorem Upd.mem_chans (k : Nat) (v : Byte) : ((Upd.mem k v).apply s).chans = s.chans := (rfl)
@[simp] theorem Upd.mem_locks (k : Nat) (v : Byte) : ((Upd.mem k v).apply s).locks = s.locks := (rfl)
@[simp] theorem Upd.mem_streams (k : Nat) (v : Byte) : ((Upd.mem k v).apply s).streams = s.streams := (rfl)
@[simp] theorem Upd.mem_ports (k : Nat) (v : Byte) : ((Upd.mem k v).apply s).ports = s.ports := (rfl)
@[simp] theorem Upd.mem_pipes (k : Nat) (v : Byte) : ((Upd.mem k v).apply s).pipes = s.pipes := (rfl)
@[simp] theorem Upd.mem_admitQ (k : Nat) (v : Byte) : ((Upd.mem k v).apply s).admitQ = s.admitQ := (rfl)
@[simp] theorem Upd.mem_terms (k : Nat) (v : Byte) : ((Upd.mem k v).apply s).terms = s.terms := (rfl)
@[simp] theorem Upd.mem_classes (k : Nat) (v : Byte) : ((Upd.mem k v).apply s).classes = s.classes := (rfl)
@[simp] theorem Upd.mem_hostq (k : Nat) (v : Byte) : ((Upd.mem k v).apply s).hostq = s.hostq := (rfl)
@[simp] theorem Upd.mem_ringLinks (k : Nat) (v : Byte) : ((Upd.mem k v).apply s).ringLinks = s.ringLinks := (rfl)
@[simp] theorem Upd.mem_sq (k : Nat) (v : Byte) : ((Upd.mem k v).apply s).sq = s.sq := (rfl)
@[simp] theorem Upd.mem_rc (k : Nat) (v : Byte) : ((Upd.mem k v).apply s).rc = s.rc := (rfl)
@[simp] theorem Upd.mem_cw (k : Nat) (v : Byte) : ((Upd.mem k v).apply s).cw = s.cw := (rfl)
@[simp] theorem Upd.mem_ring (k : Nat) (v : Byte) : ((Upd.mem k v).apply s).ring = s.ring := (rfl)
@[simp] theorem Upd.mem_gb (k : Nat) (v : Byte) : ((Upd.mem k v).apply s).gb = s.gb := (rfl)
@[simp] theorem Upd.mem_fc (k : Nat) (v : Byte) : ((Upd.mem k v).apply s).fc = s.fc := (rfl)
@[simp] theorem Upd.mem_tb (k : Nat) (v : Byte) : ((Upd.mem k v).apply s).tb = s.tb := (rfl)
@[simp] theorem Upd.mem_boot (k : Nat) (v : Byte) : ((Upd.mem k v).apply s).boot = s.boot := (rfl)
@[simp] theorem Upd.mem_tap (k : Nat) (v : Byte) : ((Upd.mem k v).apply s).tap = s.tap := (rfl)
@[simp] theorem Upd.mem_bg (k : Nat) (v : Byte) : ((Upd.mem k v).apply s).bg = s.bg := (rfl)

@[simp] theorem Upd.bad_pending (k : Nat) (v : Bool) : ((Upd.bad k v).apply s).pending = s.pending := (rfl)
@[simp] theorem Upd.bad_free (k : Nat) (v : Bool) : ((Upd.bad k v).apply s).free = s.free := (rfl)
@[simp] theorem Upd.bad_outbox (k : Nat) (v : Bool) : ((Upd.bad k v).apply s).outbox = s.outbox := (rfl)
@[simp] theorem Upd.bad_mem (k : Nat) (v : Bool) : ((Upd.bad k v).apply s).mem = s.mem := (rfl)
@[simp] theorem Upd.bad_bad (k : Nat) (v : Bool) : ((Upd.bad k v).apply s).bad = s.bad.put dfltBad k v := (rfl)
@[simp] theorem Upd.bad_desk (k : Nat) (v : Bool) : ((Upd.bad k v).apply s).desk = s.desk := (rfl)
@[simp] theorem Upd.bad_pg (k : Nat) (v : Bool) : ((Upd.bad k v).apply s).pg = s.pg := (rfl)
@[simp] theorem Upd.bad_regs (k : Nat) (v : Bool) : ((Upd.bad k v).apply s).regs = s.regs := (rfl)
@[simp] theorem Upd.bad_act (k : Nat) (v : Bool) : ((Upd.bad k v).apply s).act = s.act := (rfl)
@[simp] theorem Upd.bad_pendc (k : Nat) (v : Bool) : ((Upd.bad k v).apply s).pendc = s.pendc := (rfl)
@[simp] theorem Upd.bad_goBy (k : Nat) (v : Bool) : ((Upd.bad k v).apply s).goBy = s.goBy := (rfl)
@[simp] theorem Upd.bad_msix (k : Nat) (v : Bool) : ((Upd.bad k v).apply s).msix = s.msix := (rfl)
@[simp] theorem Upd.bad_threads (k : Nat) (v : Bool) : ((Upd.bad k v).apply s).threads = s.threads := (rfl)
@[simp] theorem Upd.bad_acts (k : Nat) (v : Bool) : ((Upd.bad k v).apply s).acts = s.acts := (rfl)
@[simp] theorem Upd.bad_ready (k : Nat) (v : Bool) : ((Upd.bad k v).apply s).ready = s.ready := (rfl)
@[simp] theorem Upd.bad_delay (k : Nat) (v : Bool) : ((Upd.bad k v).apply s).delay = s.delay := (rfl)
@[simp] theorem Upd.bad_ctxs (k : Nat) (v : Bool) : ((Upd.bad k v).apply s).ctxs = s.ctxs := (rfl)
@[simp] theorem Upd.bad_banks (k : Nat) (v : Bool) : ((Upd.bad k v).apply s).banks = s.banks := (rfl)
@[simp] theorem Upd.bad_fuq (k : Nat) (v : Bool) : ((Upd.bad k v).apply s).fuq = s.fuq := (rfl)
@[simp] theorem Upd.bad_units (k : Nat) (v : Bool) : ((Upd.bad k v).apply s).units = s.units := (rfl)
@[simp] theorem Upd.bad_hqueues (k : Nat) (v : Bool) : ((Upd.bad k v).apply s).hqueues = s.hqueues := (rfl)
@[simp] theorem Upd.bad_icache (k : Nat) (v : Bool) : ((Upd.bad k v).apply s).icache = s.icache := (rfl)
@[simp] theorem Upd.bad_learn (k : Nat) (v : Bool) : ((Upd.bad k v).apply s).learn = s.learn := (rfl)
@[simp] theorem Upd.bad_engines (k : Nat) (v : Bool) : ((Upd.bad k v).apply s).engines = s.engines := (rfl)
@[simp] theorem Upd.bad_dirRows (k : Nat) (v : Bool) : ((Upd.bad k v).apply s).dirRows = s.dirRows := (rfl)
@[simp] theorem Upd.bad_dirShadow (k : Nat) (v : Bool) : ((Upd.bad k v).apply s).dirShadow = s.dirShadow := (rfl)
@[simp] theorem Upd.bad_dir (k : Nat) (v : Bool) : ((Upd.bad k v).apply s).dir = s.dir := (rfl)
@[simp] theorem Upd.bad_ddrs (k : Nat) (v : Bool) : ((Upd.bad k v).apply s).ddrs = s.ddrs := (rfl)
@[simp] theorem Upd.bad_bufs (k : Nat) (v : Bool) : ((Upd.bad k v).apply s).bufs = s.bufs := (rfl)
@[simp] theorem Upd.bad_pools (k : Nat) (v : Bool) : ((Upd.bad k v).apply s).pools = s.pools := (rfl)
@[simp] theorem Upd.bad_chans (k : Nat) (v : Bool) : ((Upd.bad k v).apply s).chans = s.chans := (rfl)
@[simp] theorem Upd.bad_locks (k : Nat) (v : Bool) : ((Upd.bad k v).apply s).locks = s.locks := (rfl)
@[simp] theorem Upd.bad_streams (k : Nat) (v : Bool) : ((Upd.bad k v).apply s).streams = s.streams := (rfl)
@[simp] theorem Upd.bad_ports (k : Nat) (v : Bool) : ((Upd.bad k v).apply s).ports = s.ports := (rfl)
@[simp] theorem Upd.bad_pipes (k : Nat) (v : Bool) : ((Upd.bad k v).apply s).pipes = s.pipes := (rfl)
@[simp] theorem Upd.bad_admitQ (k : Nat) (v : Bool) : ((Upd.bad k v).apply s).admitQ = s.admitQ := (rfl)
@[simp] theorem Upd.bad_terms (k : Nat) (v : Bool) : ((Upd.bad k v).apply s).terms = s.terms := (rfl)
@[simp] theorem Upd.bad_classes (k : Nat) (v : Bool) : ((Upd.bad k v).apply s).classes = s.classes := (rfl)
@[simp] theorem Upd.bad_hostq (k : Nat) (v : Bool) : ((Upd.bad k v).apply s).hostq = s.hostq := (rfl)
@[simp] theorem Upd.bad_ringLinks (k : Nat) (v : Bool) : ((Upd.bad k v).apply s).ringLinks = s.ringLinks := (rfl)
@[simp] theorem Upd.bad_sq (k : Nat) (v : Bool) : ((Upd.bad k v).apply s).sq = s.sq := (rfl)
@[simp] theorem Upd.bad_rc (k : Nat) (v : Bool) : ((Upd.bad k v).apply s).rc = s.rc := (rfl)
@[simp] theorem Upd.bad_cw (k : Nat) (v : Bool) : ((Upd.bad k v).apply s).cw = s.cw := (rfl)
@[simp] theorem Upd.bad_ring (k : Nat) (v : Bool) : ((Upd.bad k v).apply s).ring = s.ring := (rfl)
@[simp] theorem Upd.bad_gb (k : Nat) (v : Bool) : ((Upd.bad k v).apply s).gb = s.gb := (rfl)
@[simp] theorem Upd.bad_fc (k : Nat) (v : Bool) : ((Upd.bad k v).apply s).fc = s.fc := (rfl)
@[simp] theorem Upd.bad_tb (k : Nat) (v : Bool) : ((Upd.bad k v).apply s).tb = s.tb := (rfl)
@[simp] theorem Upd.bad_boot (k : Nat) (v : Bool) : ((Upd.bad k v).apply s).boot = s.boot := (rfl)
@[simp] theorem Upd.bad_tap (k : Nat) (v : Bool) : ((Upd.bad k v).apply s).tap = s.tap := (rfl)
@[simp] theorem Upd.bad_bg (k : Nat) (v : Bool) : ((Upd.bad k v).apply s).bg = s.bg := (rfl)

@[simp] theorem Upd.desk_pending (k : Nat) (v : Byte) : ((Upd.desk k v).apply s).pending = s.pending := (rfl)
@[simp] theorem Upd.desk_free (k : Nat) (v : Byte) : ((Upd.desk k v).apply s).free = s.free := (rfl)
@[simp] theorem Upd.desk_outbox (k : Nat) (v : Byte) : ((Upd.desk k v).apply s).outbox = s.outbox := (rfl)
@[simp] theorem Upd.desk_mem (k : Nat) (v : Byte) : ((Upd.desk k v).apply s).mem = s.mem := (rfl)
@[simp] theorem Upd.desk_bad (k : Nat) (v : Byte) : ((Upd.desk k v).apply s).bad = s.bad := (rfl)
@[simp] theorem Upd.desk_desk (k : Nat) (v : Byte) : ((Upd.desk k v).apply s).desk = s.desk.put dfltDesk k v := (rfl)
@[simp] theorem Upd.desk_pg (k : Nat) (v : Byte) : ((Upd.desk k v).apply s).pg = s.pg := (rfl)
@[simp] theorem Upd.desk_regs (k : Nat) (v : Byte) : ((Upd.desk k v).apply s).regs = s.regs := (rfl)
@[simp] theorem Upd.desk_act (k : Nat) (v : Byte) : ((Upd.desk k v).apply s).act = s.act := (rfl)
@[simp] theorem Upd.desk_pendc (k : Nat) (v : Byte) : ((Upd.desk k v).apply s).pendc = s.pendc := (rfl)
@[simp] theorem Upd.desk_goBy (k : Nat) (v : Byte) : ((Upd.desk k v).apply s).goBy = s.goBy := (rfl)
@[simp] theorem Upd.desk_msix (k : Nat) (v : Byte) : ((Upd.desk k v).apply s).msix = s.msix := (rfl)
@[simp] theorem Upd.desk_threads (k : Nat) (v : Byte) : ((Upd.desk k v).apply s).threads = s.threads := (rfl)
@[simp] theorem Upd.desk_acts (k : Nat) (v : Byte) : ((Upd.desk k v).apply s).acts = s.acts := (rfl)
@[simp] theorem Upd.desk_ready (k : Nat) (v : Byte) : ((Upd.desk k v).apply s).ready = s.ready := (rfl)
@[simp] theorem Upd.desk_delay (k : Nat) (v : Byte) : ((Upd.desk k v).apply s).delay = s.delay := (rfl)
@[simp] theorem Upd.desk_ctxs (k : Nat) (v : Byte) : ((Upd.desk k v).apply s).ctxs = s.ctxs := (rfl)
@[simp] theorem Upd.desk_banks (k : Nat) (v : Byte) : ((Upd.desk k v).apply s).banks = s.banks := (rfl)
@[simp] theorem Upd.desk_fuq (k : Nat) (v : Byte) : ((Upd.desk k v).apply s).fuq = s.fuq := (rfl)
@[simp] theorem Upd.desk_units (k : Nat) (v : Byte) : ((Upd.desk k v).apply s).units = s.units := (rfl)
@[simp] theorem Upd.desk_hqueues (k : Nat) (v : Byte) : ((Upd.desk k v).apply s).hqueues = s.hqueues := (rfl)
@[simp] theorem Upd.desk_icache (k : Nat) (v : Byte) : ((Upd.desk k v).apply s).icache = s.icache := (rfl)
@[simp] theorem Upd.desk_learn (k : Nat) (v : Byte) : ((Upd.desk k v).apply s).learn = s.learn := (rfl)
@[simp] theorem Upd.desk_engines (k : Nat) (v : Byte) : ((Upd.desk k v).apply s).engines = s.engines := (rfl)
@[simp] theorem Upd.desk_dirRows (k : Nat) (v : Byte) : ((Upd.desk k v).apply s).dirRows = s.dirRows := (rfl)
@[simp] theorem Upd.desk_dirShadow (k : Nat) (v : Byte) : ((Upd.desk k v).apply s).dirShadow = s.dirShadow := (rfl)
@[simp] theorem Upd.desk_dir (k : Nat) (v : Byte) : ((Upd.desk k v).apply s).dir = s.dir := (rfl)
@[simp] theorem Upd.desk_ddrs (k : Nat) (v : Byte) : ((Upd.desk k v).apply s).ddrs = s.ddrs := (rfl)
@[simp] theorem Upd.desk_bufs (k : Nat) (v : Byte) : ((Upd.desk k v).apply s).bufs = s.bufs := (rfl)
@[simp] theorem Upd.desk_pools (k : Nat) (v : Byte) : ((Upd.desk k v).apply s).pools = s.pools := (rfl)
@[simp] theorem Upd.desk_chans (k : Nat) (v : Byte) : ((Upd.desk k v).apply s).chans = s.chans := (rfl)
@[simp] theorem Upd.desk_locks (k : Nat) (v : Byte) : ((Upd.desk k v).apply s).locks = s.locks := (rfl)
@[simp] theorem Upd.desk_streams (k : Nat) (v : Byte) : ((Upd.desk k v).apply s).streams = s.streams := (rfl)
@[simp] theorem Upd.desk_ports (k : Nat) (v : Byte) : ((Upd.desk k v).apply s).ports = s.ports := (rfl)
@[simp] theorem Upd.desk_pipes (k : Nat) (v : Byte) : ((Upd.desk k v).apply s).pipes = s.pipes := (rfl)
@[simp] theorem Upd.desk_admitQ (k : Nat) (v : Byte) : ((Upd.desk k v).apply s).admitQ = s.admitQ := (rfl)
@[simp] theorem Upd.desk_terms (k : Nat) (v : Byte) : ((Upd.desk k v).apply s).terms = s.terms := (rfl)
@[simp] theorem Upd.desk_classes (k : Nat) (v : Byte) : ((Upd.desk k v).apply s).classes = s.classes := (rfl)
@[simp] theorem Upd.desk_hostq (k : Nat) (v : Byte) : ((Upd.desk k v).apply s).hostq = s.hostq := (rfl)
@[simp] theorem Upd.desk_ringLinks (k : Nat) (v : Byte) : ((Upd.desk k v).apply s).ringLinks = s.ringLinks := (rfl)
@[simp] theorem Upd.desk_sq (k : Nat) (v : Byte) : ((Upd.desk k v).apply s).sq = s.sq := (rfl)
@[simp] theorem Upd.desk_rc (k : Nat) (v : Byte) : ((Upd.desk k v).apply s).rc = s.rc := (rfl)
@[simp] theorem Upd.desk_cw (k : Nat) (v : Byte) : ((Upd.desk k v).apply s).cw = s.cw := (rfl)
@[simp] theorem Upd.desk_ring (k : Nat) (v : Byte) : ((Upd.desk k v).apply s).ring = s.ring := (rfl)
@[simp] theorem Upd.desk_gb (k : Nat) (v : Byte) : ((Upd.desk k v).apply s).gb = s.gb := (rfl)
@[simp] theorem Upd.desk_fc (k : Nat) (v : Byte) : ((Upd.desk k v).apply s).fc = s.fc := (rfl)
@[simp] theorem Upd.desk_tb (k : Nat) (v : Byte) : ((Upd.desk k v).apply s).tb = s.tb := (rfl)
@[simp] theorem Upd.desk_boot (k : Nat) (v : Byte) : ((Upd.desk k v).apply s).boot = s.boot := (rfl)
@[simp] theorem Upd.desk_tap (k : Nat) (v : Byte) : ((Upd.desk k v).apply s).tap = s.tap := (rfl)
@[simp] theorem Upd.desk_bg (k : Nat) (v : Byte) : ((Upd.desk k v).apply s).bg = s.bg := (rfl)

@[simp] theorem Upd.pg_pending (k : Nat) (v : Byte) : ((Upd.pg k v).apply s).pending = s.pending := (rfl)
@[simp] theorem Upd.pg_free (k : Nat) (v : Byte) : ((Upd.pg k v).apply s).free = s.free := (rfl)
@[simp] theorem Upd.pg_outbox (k : Nat) (v : Byte) : ((Upd.pg k v).apply s).outbox = s.outbox := (rfl)
@[simp] theorem Upd.pg_mem (k : Nat) (v : Byte) : ((Upd.pg k v).apply s).mem = s.mem := (rfl)
@[simp] theorem Upd.pg_bad (k : Nat) (v : Byte) : ((Upd.pg k v).apply s).bad = s.bad := (rfl)
@[simp] theorem Upd.pg_desk (k : Nat) (v : Byte) : ((Upd.pg k v).apply s).desk = s.desk := (rfl)
@[simp] theorem Upd.pg_pg (k : Nat) (v : Byte) : ((Upd.pg k v).apply s).pg = s.pg.put dfltPg k v := (rfl)
@[simp] theorem Upd.pg_regs (k : Nat) (v : Byte) : ((Upd.pg k v).apply s).regs = s.regs := (rfl)
@[simp] theorem Upd.pg_act (k : Nat) (v : Byte) : ((Upd.pg k v).apply s).act = s.act := (rfl)
@[simp] theorem Upd.pg_pendc (k : Nat) (v : Byte) : ((Upd.pg k v).apply s).pendc = s.pendc := (rfl)
@[simp] theorem Upd.pg_goBy (k : Nat) (v : Byte) : ((Upd.pg k v).apply s).goBy = s.goBy := (rfl)
@[simp] theorem Upd.pg_msix (k : Nat) (v : Byte) : ((Upd.pg k v).apply s).msix = s.msix := (rfl)
@[simp] theorem Upd.pg_threads (k : Nat) (v : Byte) : ((Upd.pg k v).apply s).threads = s.threads := (rfl)
@[simp] theorem Upd.pg_acts (k : Nat) (v : Byte) : ((Upd.pg k v).apply s).acts = s.acts := (rfl)
@[simp] theorem Upd.pg_ready (k : Nat) (v : Byte) : ((Upd.pg k v).apply s).ready = s.ready := (rfl)
@[simp] theorem Upd.pg_delay (k : Nat) (v : Byte) : ((Upd.pg k v).apply s).delay = s.delay := (rfl)
@[simp] theorem Upd.pg_ctxs (k : Nat) (v : Byte) : ((Upd.pg k v).apply s).ctxs = s.ctxs := (rfl)
@[simp] theorem Upd.pg_banks (k : Nat) (v : Byte) : ((Upd.pg k v).apply s).banks = s.banks := (rfl)
@[simp] theorem Upd.pg_fuq (k : Nat) (v : Byte) : ((Upd.pg k v).apply s).fuq = s.fuq := (rfl)
@[simp] theorem Upd.pg_units (k : Nat) (v : Byte) : ((Upd.pg k v).apply s).units = s.units := (rfl)
@[simp] theorem Upd.pg_hqueues (k : Nat) (v : Byte) : ((Upd.pg k v).apply s).hqueues = s.hqueues := (rfl)
@[simp] theorem Upd.pg_icache (k : Nat) (v : Byte) : ((Upd.pg k v).apply s).icache = s.icache := (rfl)
@[simp] theorem Upd.pg_learn (k : Nat) (v : Byte) : ((Upd.pg k v).apply s).learn = s.learn := (rfl)
@[simp] theorem Upd.pg_engines (k : Nat) (v : Byte) : ((Upd.pg k v).apply s).engines = s.engines := (rfl)
@[simp] theorem Upd.pg_dirRows (k : Nat) (v : Byte) : ((Upd.pg k v).apply s).dirRows = s.dirRows := (rfl)
@[simp] theorem Upd.pg_dirShadow (k : Nat) (v : Byte) : ((Upd.pg k v).apply s).dirShadow = s.dirShadow := (rfl)
@[simp] theorem Upd.pg_dir (k : Nat) (v : Byte) : ((Upd.pg k v).apply s).dir = s.dir := (rfl)
@[simp] theorem Upd.pg_ddrs (k : Nat) (v : Byte) : ((Upd.pg k v).apply s).ddrs = s.ddrs := (rfl)
@[simp] theorem Upd.pg_bufs (k : Nat) (v : Byte) : ((Upd.pg k v).apply s).bufs = s.bufs := (rfl)
@[simp] theorem Upd.pg_pools (k : Nat) (v : Byte) : ((Upd.pg k v).apply s).pools = s.pools := (rfl)
@[simp] theorem Upd.pg_chans (k : Nat) (v : Byte) : ((Upd.pg k v).apply s).chans = s.chans := (rfl)
@[simp] theorem Upd.pg_locks (k : Nat) (v : Byte) : ((Upd.pg k v).apply s).locks = s.locks := (rfl)
@[simp] theorem Upd.pg_streams (k : Nat) (v : Byte) : ((Upd.pg k v).apply s).streams = s.streams := (rfl)
@[simp] theorem Upd.pg_ports (k : Nat) (v : Byte) : ((Upd.pg k v).apply s).ports = s.ports := (rfl)
@[simp] theorem Upd.pg_pipes (k : Nat) (v : Byte) : ((Upd.pg k v).apply s).pipes = s.pipes := (rfl)
@[simp] theorem Upd.pg_admitQ (k : Nat) (v : Byte) : ((Upd.pg k v).apply s).admitQ = s.admitQ := (rfl)
@[simp] theorem Upd.pg_terms (k : Nat) (v : Byte) : ((Upd.pg k v).apply s).terms = s.terms := (rfl)
@[simp] theorem Upd.pg_classes (k : Nat) (v : Byte) : ((Upd.pg k v).apply s).classes = s.classes := (rfl)
@[simp] theorem Upd.pg_hostq (k : Nat) (v : Byte) : ((Upd.pg k v).apply s).hostq = s.hostq := (rfl)
@[simp] theorem Upd.pg_ringLinks (k : Nat) (v : Byte) : ((Upd.pg k v).apply s).ringLinks = s.ringLinks := (rfl)
@[simp] theorem Upd.pg_sq (k : Nat) (v : Byte) : ((Upd.pg k v).apply s).sq = s.sq := (rfl)
@[simp] theorem Upd.pg_rc (k : Nat) (v : Byte) : ((Upd.pg k v).apply s).rc = s.rc := (rfl)
@[simp] theorem Upd.pg_cw (k : Nat) (v : Byte) : ((Upd.pg k v).apply s).cw = s.cw := (rfl)
@[simp] theorem Upd.pg_ring (k : Nat) (v : Byte) : ((Upd.pg k v).apply s).ring = s.ring := (rfl)
@[simp] theorem Upd.pg_gb (k : Nat) (v : Byte) : ((Upd.pg k v).apply s).gb = s.gb := (rfl)
@[simp] theorem Upd.pg_fc (k : Nat) (v : Byte) : ((Upd.pg k v).apply s).fc = s.fc := (rfl)
@[simp] theorem Upd.pg_tb (k : Nat) (v : Byte) : ((Upd.pg k v).apply s).tb = s.tb := (rfl)
@[simp] theorem Upd.pg_boot (k : Nat) (v : Byte) : ((Upd.pg k v).apply s).boot = s.boot := (rfl)
@[simp] theorem Upd.pg_tap (k : Nat) (v : Byte) : ((Upd.pg k v).apply s).tap = s.tap := (rfl)
@[simp] theorem Upd.pg_bg (k : Nat) (v : Byte) : ((Upd.pg k v).apply s).bg = s.bg := (rfl)

@[simp] theorem Upd.regs_pending (k : Nat) (v : Word) : ((Upd.regs k v).apply s).pending = s.pending := (rfl)
@[simp] theorem Upd.regs_free (k : Nat) (v : Word) : ((Upd.regs k v).apply s).free = s.free := (rfl)
@[simp] theorem Upd.regs_outbox (k : Nat) (v : Word) : ((Upd.regs k v).apply s).outbox = s.outbox := (rfl)
@[simp] theorem Upd.regs_mem (k : Nat) (v : Word) : ((Upd.regs k v).apply s).mem = s.mem := (rfl)
@[simp] theorem Upd.regs_bad (k : Nat) (v : Word) : ((Upd.regs k v).apply s).bad = s.bad := (rfl)
@[simp] theorem Upd.regs_desk (k : Nat) (v : Word) : ((Upd.regs k v).apply s).desk = s.desk := (rfl)
@[simp] theorem Upd.regs_pg (k : Nat) (v : Word) : ((Upd.regs k v).apply s).pg = s.pg := (rfl)
@[simp] theorem Upd.regs_regs (k : Nat) (v : Word) : ((Upd.regs k v).apply s).regs = s.regs.put dfltRegs k v := (rfl)
@[simp] theorem Upd.regs_act (k : Nat) (v : Word) : ((Upd.regs k v).apply s).act = s.act := (rfl)
@[simp] theorem Upd.regs_pendc (k : Nat) (v : Word) : ((Upd.regs k v).apply s).pendc = s.pendc := (rfl)
@[simp] theorem Upd.regs_goBy (k : Nat) (v : Word) : ((Upd.regs k v).apply s).goBy = s.goBy := (rfl)
@[simp] theorem Upd.regs_msix (k : Nat) (v : Word) : ((Upd.regs k v).apply s).msix = s.msix := (rfl)
@[simp] theorem Upd.regs_threads (k : Nat) (v : Word) : ((Upd.regs k v).apply s).threads = s.threads := (rfl)
@[simp] theorem Upd.regs_acts (k : Nat) (v : Word) : ((Upd.regs k v).apply s).acts = s.acts := (rfl)
@[simp] theorem Upd.regs_ready (k : Nat) (v : Word) : ((Upd.regs k v).apply s).ready = s.ready := (rfl)
@[simp] theorem Upd.regs_delay (k : Nat) (v : Word) : ((Upd.regs k v).apply s).delay = s.delay := (rfl)
@[simp] theorem Upd.regs_ctxs (k : Nat) (v : Word) : ((Upd.regs k v).apply s).ctxs = s.ctxs := (rfl)
@[simp] theorem Upd.regs_banks (k : Nat) (v : Word) : ((Upd.regs k v).apply s).banks = s.banks := (rfl)
@[simp] theorem Upd.regs_fuq (k : Nat) (v : Word) : ((Upd.regs k v).apply s).fuq = s.fuq := (rfl)
@[simp] theorem Upd.regs_units (k : Nat) (v : Word) : ((Upd.regs k v).apply s).units = s.units := (rfl)
@[simp] theorem Upd.regs_hqueues (k : Nat) (v : Word) : ((Upd.regs k v).apply s).hqueues = s.hqueues := (rfl)
@[simp] theorem Upd.regs_icache (k : Nat) (v : Word) : ((Upd.regs k v).apply s).icache = s.icache := (rfl)
@[simp] theorem Upd.regs_learn (k : Nat) (v : Word) : ((Upd.regs k v).apply s).learn = s.learn := (rfl)
@[simp] theorem Upd.regs_engines (k : Nat) (v : Word) : ((Upd.regs k v).apply s).engines = s.engines := (rfl)
@[simp] theorem Upd.regs_dirRows (k : Nat) (v : Word) : ((Upd.regs k v).apply s).dirRows = s.dirRows := (rfl)
@[simp] theorem Upd.regs_dirShadow (k : Nat) (v : Word) : ((Upd.regs k v).apply s).dirShadow = s.dirShadow := (rfl)
@[simp] theorem Upd.regs_dir (k : Nat) (v : Word) : ((Upd.regs k v).apply s).dir = s.dir := (rfl)
@[simp] theorem Upd.regs_ddrs (k : Nat) (v : Word) : ((Upd.regs k v).apply s).ddrs = s.ddrs := (rfl)
@[simp] theorem Upd.regs_bufs (k : Nat) (v : Word) : ((Upd.regs k v).apply s).bufs = s.bufs := (rfl)
@[simp] theorem Upd.regs_pools (k : Nat) (v : Word) : ((Upd.regs k v).apply s).pools = s.pools := (rfl)
@[simp] theorem Upd.regs_chans (k : Nat) (v : Word) : ((Upd.regs k v).apply s).chans = s.chans := (rfl)
@[simp] theorem Upd.regs_locks (k : Nat) (v : Word) : ((Upd.regs k v).apply s).locks = s.locks := (rfl)
@[simp] theorem Upd.regs_streams (k : Nat) (v : Word) : ((Upd.regs k v).apply s).streams = s.streams := (rfl)
@[simp] theorem Upd.regs_ports (k : Nat) (v : Word) : ((Upd.regs k v).apply s).ports = s.ports := (rfl)
@[simp] theorem Upd.regs_pipes (k : Nat) (v : Word) : ((Upd.regs k v).apply s).pipes = s.pipes := (rfl)
@[simp] theorem Upd.regs_admitQ (k : Nat) (v : Word) : ((Upd.regs k v).apply s).admitQ = s.admitQ := (rfl)
@[simp] theorem Upd.regs_terms (k : Nat) (v : Word) : ((Upd.regs k v).apply s).terms = s.terms := (rfl)
@[simp] theorem Upd.regs_classes (k : Nat) (v : Word) : ((Upd.regs k v).apply s).classes = s.classes := (rfl)
@[simp] theorem Upd.regs_hostq (k : Nat) (v : Word) : ((Upd.regs k v).apply s).hostq = s.hostq := (rfl)
@[simp] theorem Upd.regs_ringLinks (k : Nat) (v : Word) : ((Upd.regs k v).apply s).ringLinks = s.ringLinks := (rfl)
@[simp] theorem Upd.regs_sq (k : Nat) (v : Word) : ((Upd.regs k v).apply s).sq = s.sq := (rfl)
@[simp] theorem Upd.regs_rc (k : Nat) (v : Word) : ((Upd.regs k v).apply s).rc = s.rc := (rfl)
@[simp] theorem Upd.regs_cw (k : Nat) (v : Word) : ((Upd.regs k v).apply s).cw = s.cw := (rfl)
@[simp] theorem Upd.regs_ring (k : Nat) (v : Word) : ((Upd.regs k v).apply s).ring = s.ring := (rfl)
@[simp] theorem Upd.regs_gb (k : Nat) (v : Word) : ((Upd.regs k v).apply s).gb = s.gb := (rfl)
@[simp] theorem Upd.regs_fc (k : Nat) (v : Word) : ((Upd.regs k v).apply s).fc = s.fc := (rfl)
@[simp] theorem Upd.regs_tb (k : Nat) (v : Word) : ((Upd.regs k v).apply s).tb = s.tb := (rfl)
@[simp] theorem Upd.regs_boot (k : Nat) (v : Word) : ((Upd.regs k v).apply s).boot = s.boot := (rfl)
@[simp] theorem Upd.regs_tap (k : Nat) (v : Word) : ((Upd.regs k v).apply s).tap = s.tap := (rfl)
@[simp] theorem Upd.regs_bg (k : Nat) (v : Word) : ((Upd.regs k v).apply s).bg = s.bg := (rfl)

@[simp] theorem Upd.act_pending (k : Nat) (v : Word) : ((Upd.act k v).apply s).pending = s.pending := (rfl)
@[simp] theorem Upd.act_free (k : Nat) (v : Word) : ((Upd.act k v).apply s).free = s.free := (rfl)
@[simp] theorem Upd.act_outbox (k : Nat) (v : Word) : ((Upd.act k v).apply s).outbox = s.outbox := (rfl)
@[simp] theorem Upd.act_mem (k : Nat) (v : Word) : ((Upd.act k v).apply s).mem = s.mem := (rfl)
@[simp] theorem Upd.act_bad (k : Nat) (v : Word) : ((Upd.act k v).apply s).bad = s.bad := (rfl)
@[simp] theorem Upd.act_desk (k : Nat) (v : Word) : ((Upd.act k v).apply s).desk = s.desk := (rfl)
@[simp] theorem Upd.act_pg (k : Nat) (v : Word) : ((Upd.act k v).apply s).pg = s.pg := (rfl)
@[simp] theorem Upd.act_regs (k : Nat) (v : Word) : ((Upd.act k v).apply s).regs = s.regs := (rfl)
@[simp] theorem Upd.act_act (k : Nat) (v : Word) : ((Upd.act k v).apply s).act = s.act.put dfltAct k v := (rfl)
@[simp] theorem Upd.act_pendc (k : Nat) (v : Word) : ((Upd.act k v).apply s).pendc = s.pendc := (rfl)
@[simp] theorem Upd.act_goBy (k : Nat) (v : Word) : ((Upd.act k v).apply s).goBy = s.goBy := (rfl)
@[simp] theorem Upd.act_msix (k : Nat) (v : Word) : ((Upd.act k v).apply s).msix = s.msix := (rfl)
@[simp] theorem Upd.act_threads (k : Nat) (v : Word) : ((Upd.act k v).apply s).threads = s.threads := (rfl)
@[simp] theorem Upd.act_acts (k : Nat) (v : Word) : ((Upd.act k v).apply s).acts = s.acts := (rfl)
@[simp] theorem Upd.act_ready (k : Nat) (v : Word) : ((Upd.act k v).apply s).ready = s.ready := (rfl)
@[simp] theorem Upd.act_delay (k : Nat) (v : Word) : ((Upd.act k v).apply s).delay = s.delay := (rfl)
@[simp] theorem Upd.act_ctxs (k : Nat) (v : Word) : ((Upd.act k v).apply s).ctxs = s.ctxs := (rfl)
@[simp] theorem Upd.act_banks (k : Nat) (v : Word) : ((Upd.act k v).apply s).banks = s.banks := (rfl)
@[simp] theorem Upd.act_fuq (k : Nat) (v : Word) : ((Upd.act k v).apply s).fuq = s.fuq := (rfl)
@[simp] theorem Upd.act_units (k : Nat) (v : Word) : ((Upd.act k v).apply s).units = s.units := (rfl)
@[simp] theorem Upd.act_hqueues (k : Nat) (v : Word) : ((Upd.act k v).apply s).hqueues = s.hqueues := (rfl)
@[simp] theorem Upd.act_icache (k : Nat) (v : Word) : ((Upd.act k v).apply s).icache = s.icache := (rfl)
@[simp] theorem Upd.act_learn (k : Nat) (v : Word) : ((Upd.act k v).apply s).learn = s.learn := (rfl)
@[simp] theorem Upd.act_engines (k : Nat) (v : Word) : ((Upd.act k v).apply s).engines = s.engines := (rfl)
@[simp] theorem Upd.act_dirRows (k : Nat) (v : Word) : ((Upd.act k v).apply s).dirRows = s.dirRows := (rfl)
@[simp] theorem Upd.act_dirShadow (k : Nat) (v : Word) : ((Upd.act k v).apply s).dirShadow = s.dirShadow := (rfl)
@[simp] theorem Upd.act_dir (k : Nat) (v : Word) : ((Upd.act k v).apply s).dir = s.dir := (rfl)
@[simp] theorem Upd.act_ddrs (k : Nat) (v : Word) : ((Upd.act k v).apply s).ddrs = s.ddrs := (rfl)
@[simp] theorem Upd.act_bufs (k : Nat) (v : Word) : ((Upd.act k v).apply s).bufs = s.bufs := (rfl)
@[simp] theorem Upd.act_pools (k : Nat) (v : Word) : ((Upd.act k v).apply s).pools = s.pools := (rfl)
@[simp] theorem Upd.act_chans (k : Nat) (v : Word) : ((Upd.act k v).apply s).chans = s.chans := (rfl)
@[simp] theorem Upd.act_locks (k : Nat) (v : Word) : ((Upd.act k v).apply s).locks = s.locks := (rfl)
@[simp] theorem Upd.act_streams (k : Nat) (v : Word) : ((Upd.act k v).apply s).streams = s.streams := (rfl)
@[simp] theorem Upd.act_ports (k : Nat) (v : Word) : ((Upd.act k v).apply s).ports = s.ports := (rfl)
@[simp] theorem Upd.act_pipes (k : Nat) (v : Word) : ((Upd.act k v).apply s).pipes = s.pipes := (rfl)
@[simp] theorem Upd.act_admitQ (k : Nat) (v : Word) : ((Upd.act k v).apply s).admitQ = s.admitQ := (rfl)
@[simp] theorem Upd.act_terms (k : Nat) (v : Word) : ((Upd.act k v).apply s).terms = s.terms := (rfl)
@[simp] theorem Upd.act_classes (k : Nat) (v : Word) : ((Upd.act k v).apply s).classes = s.classes := (rfl)
@[simp] theorem Upd.act_hostq (k : Nat) (v : Word) : ((Upd.act k v).apply s).hostq = s.hostq := (rfl)
@[simp] theorem Upd.act_ringLinks (k : Nat) (v : Word) : ((Upd.act k v).apply s).ringLinks = s.ringLinks := (rfl)
@[simp] theorem Upd.act_sq (k : Nat) (v : Word) : ((Upd.act k v).apply s).sq = s.sq := (rfl)
@[simp] theorem Upd.act_rc (k : Nat) (v : Word) : ((Upd.act k v).apply s).rc = s.rc := (rfl)
@[simp] theorem Upd.act_cw (k : Nat) (v : Word) : ((Upd.act k v).apply s).cw = s.cw := (rfl)
@[simp] theorem Upd.act_ring (k : Nat) (v : Word) : ((Upd.act k v).apply s).ring = s.ring := (rfl)
@[simp] theorem Upd.act_gb (k : Nat) (v : Word) : ((Upd.act k v).apply s).gb = s.gb := (rfl)
@[simp] theorem Upd.act_fc (k : Nat) (v : Word) : ((Upd.act k v).apply s).fc = s.fc := (rfl)
@[simp] theorem Upd.act_tb (k : Nat) (v : Word) : ((Upd.act k v).apply s).tb = s.tb := (rfl)
@[simp] theorem Upd.act_boot (k : Nat) (v : Word) : ((Upd.act k v).apply s).boot = s.boot := (rfl)
@[simp] theorem Upd.act_tap (k : Nat) (v : Word) : ((Upd.act k v).apply s).tap = s.tap := (rfl)
@[simp] theorem Upd.act_bg (k : Nat) (v : Word) : ((Upd.act k v).apply s).bg = s.bg := (rfl)

@[simp] theorem Upd.pendc_pending (k : Nat) (v : Word) : ((Upd.pendc k v).apply s).pending = s.pending := (rfl)
@[simp] theorem Upd.pendc_free (k : Nat) (v : Word) : ((Upd.pendc k v).apply s).free = s.free := (rfl)
@[simp] theorem Upd.pendc_outbox (k : Nat) (v : Word) : ((Upd.pendc k v).apply s).outbox = s.outbox := (rfl)
@[simp] theorem Upd.pendc_mem (k : Nat) (v : Word) : ((Upd.pendc k v).apply s).mem = s.mem := (rfl)
@[simp] theorem Upd.pendc_bad (k : Nat) (v : Word) : ((Upd.pendc k v).apply s).bad = s.bad := (rfl)
@[simp] theorem Upd.pendc_desk (k : Nat) (v : Word) : ((Upd.pendc k v).apply s).desk = s.desk := (rfl)
@[simp] theorem Upd.pendc_pg (k : Nat) (v : Word) : ((Upd.pendc k v).apply s).pg = s.pg := (rfl)
@[simp] theorem Upd.pendc_regs (k : Nat) (v : Word) : ((Upd.pendc k v).apply s).regs = s.regs := (rfl)
@[simp] theorem Upd.pendc_act (k : Nat) (v : Word) : ((Upd.pendc k v).apply s).act = s.act := (rfl)
@[simp] theorem Upd.pendc_pendc (k : Nat) (v : Word) : ((Upd.pendc k v).apply s).pendc = s.pendc.put dfltPendc k v := (rfl)
@[simp] theorem Upd.pendc_goBy (k : Nat) (v : Word) : ((Upd.pendc k v).apply s).goBy = s.goBy := (rfl)
@[simp] theorem Upd.pendc_msix (k : Nat) (v : Word) : ((Upd.pendc k v).apply s).msix = s.msix := (rfl)
@[simp] theorem Upd.pendc_threads (k : Nat) (v : Word) : ((Upd.pendc k v).apply s).threads = s.threads := (rfl)
@[simp] theorem Upd.pendc_acts (k : Nat) (v : Word) : ((Upd.pendc k v).apply s).acts = s.acts := (rfl)
@[simp] theorem Upd.pendc_ready (k : Nat) (v : Word) : ((Upd.pendc k v).apply s).ready = s.ready := (rfl)
@[simp] theorem Upd.pendc_delay (k : Nat) (v : Word) : ((Upd.pendc k v).apply s).delay = s.delay := (rfl)
@[simp] theorem Upd.pendc_ctxs (k : Nat) (v : Word) : ((Upd.pendc k v).apply s).ctxs = s.ctxs := (rfl)
@[simp] theorem Upd.pendc_banks (k : Nat) (v : Word) : ((Upd.pendc k v).apply s).banks = s.banks := (rfl)
@[simp] theorem Upd.pendc_fuq (k : Nat) (v : Word) : ((Upd.pendc k v).apply s).fuq = s.fuq := (rfl)
@[simp] theorem Upd.pendc_units (k : Nat) (v : Word) : ((Upd.pendc k v).apply s).units = s.units := (rfl)
@[simp] theorem Upd.pendc_hqueues (k : Nat) (v : Word) : ((Upd.pendc k v).apply s).hqueues = s.hqueues := (rfl)
@[simp] theorem Upd.pendc_icache (k : Nat) (v : Word) : ((Upd.pendc k v).apply s).icache = s.icache := (rfl)
@[simp] theorem Upd.pendc_learn (k : Nat) (v : Word) : ((Upd.pendc k v).apply s).learn = s.learn := (rfl)
@[simp] theorem Upd.pendc_engines (k : Nat) (v : Word) : ((Upd.pendc k v).apply s).engines = s.engines := (rfl)
@[simp] theorem Upd.pendc_dirRows (k : Nat) (v : Word) : ((Upd.pendc k v).apply s).dirRows = s.dirRows := (rfl)
@[simp] theorem Upd.pendc_dirShadow (k : Nat) (v : Word) : ((Upd.pendc k v).apply s).dirShadow = s.dirShadow := (rfl)
@[simp] theorem Upd.pendc_dir (k : Nat) (v : Word) : ((Upd.pendc k v).apply s).dir = s.dir := (rfl)
@[simp] theorem Upd.pendc_ddrs (k : Nat) (v : Word) : ((Upd.pendc k v).apply s).ddrs = s.ddrs := (rfl)
@[simp] theorem Upd.pendc_bufs (k : Nat) (v : Word) : ((Upd.pendc k v).apply s).bufs = s.bufs := (rfl)
@[simp] theorem Upd.pendc_pools (k : Nat) (v : Word) : ((Upd.pendc k v).apply s).pools = s.pools := (rfl)
@[simp] theorem Upd.pendc_chans (k : Nat) (v : Word) : ((Upd.pendc k v).apply s).chans = s.chans := (rfl)
@[simp] theorem Upd.pendc_locks (k : Nat) (v : Word) : ((Upd.pendc k v).apply s).locks = s.locks := (rfl)
@[simp] theorem Upd.pendc_streams (k : Nat) (v : Word) : ((Upd.pendc k v).apply s).streams = s.streams := (rfl)
@[simp] theorem Upd.pendc_ports (k : Nat) (v : Word) : ((Upd.pendc k v).apply s).ports = s.ports := (rfl)
@[simp] theorem Upd.pendc_pipes (k : Nat) (v : Word) : ((Upd.pendc k v).apply s).pipes = s.pipes := (rfl)
@[simp] theorem Upd.pendc_admitQ (k : Nat) (v : Word) : ((Upd.pendc k v).apply s).admitQ = s.admitQ := (rfl)
@[simp] theorem Upd.pendc_terms (k : Nat) (v : Word) : ((Upd.pendc k v).apply s).terms = s.terms := (rfl)
@[simp] theorem Upd.pendc_classes (k : Nat) (v : Word) : ((Upd.pendc k v).apply s).classes = s.classes := (rfl)
@[simp] theorem Upd.pendc_hostq (k : Nat) (v : Word) : ((Upd.pendc k v).apply s).hostq = s.hostq := (rfl)
@[simp] theorem Upd.pendc_ringLinks (k : Nat) (v : Word) : ((Upd.pendc k v).apply s).ringLinks = s.ringLinks := (rfl)
@[simp] theorem Upd.pendc_sq (k : Nat) (v : Word) : ((Upd.pendc k v).apply s).sq = s.sq := (rfl)
@[simp] theorem Upd.pendc_rc (k : Nat) (v : Word) : ((Upd.pendc k v).apply s).rc = s.rc := (rfl)
@[simp] theorem Upd.pendc_cw (k : Nat) (v : Word) : ((Upd.pendc k v).apply s).cw = s.cw := (rfl)
@[simp] theorem Upd.pendc_ring (k : Nat) (v : Word) : ((Upd.pendc k v).apply s).ring = s.ring := (rfl)
@[simp] theorem Upd.pendc_gb (k : Nat) (v : Word) : ((Upd.pendc k v).apply s).gb = s.gb := (rfl)
@[simp] theorem Upd.pendc_fc (k : Nat) (v : Word) : ((Upd.pendc k v).apply s).fc = s.fc := (rfl)
@[simp] theorem Upd.pendc_tb (k : Nat) (v : Word) : ((Upd.pendc k v).apply s).tb = s.tb := (rfl)
@[simp] theorem Upd.pendc_boot (k : Nat) (v : Word) : ((Upd.pendc k v).apply s).boot = s.boot := (rfl)
@[simp] theorem Upd.pendc_tap (k : Nat) (v : Word) : ((Upd.pendc k v).apply s).tap = s.tap := (rfl)
@[simp] theorem Upd.pendc_bg (k : Nat) (v : Word) : ((Upd.pendc k v).apply s).bg = s.bg := (rfl)

@[simp] theorem Upd.goBy_pending (k : Nat) (v : Origin) : ((Upd.goBy k v).apply s).pending = s.pending := (rfl)
@[simp] theorem Upd.goBy_free (k : Nat) (v : Origin) : ((Upd.goBy k v).apply s).free = s.free := (rfl)
@[simp] theorem Upd.goBy_outbox (k : Nat) (v : Origin) : ((Upd.goBy k v).apply s).outbox = s.outbox := (rfl)
@[simp] theorem Upd.goBy_mem (k : Nat) (v : Origin) : ((Upd.goBy k v).apply s).mem = s.mem := (rfl)
@[simp] theorem Upd.goBy_bad (k : Nat) (v : Origin) : ((Upd.goBy k v).apply s).bad = s.bad := (rfl)
@[simp] theorem Upd.goBy_desk (k : Nat) (v : Origin) : ((Upd.goBy k v).apply s).desk = s.desk := (rfl)
@[simp] theorem Upd.goBy_pg (k : Nat) (v : Origin) : ((Upd.goBy k v).apply s).pg = s.pg := (rfl)
@[simp] theorem Upd.goBy_regs (k : Nat) (v : Origin) : ((Upd.goBy k v).apply s).regs = s.regs := (rfl)
@[simp] theorem Upd.goBy_act (k : Nat) (v : Origin) : ((Upd.goBy k v).apply s).act = s.act := (rfl)
@[simp] theorem Upd.goBy_pendc (k : Nat) (v : Origin) : ((Upd.goBy k v).apply s).pendc = s.pendc := (rfl)
@[simp] theorem Upd.goBy_goBy (k : Nat) (v : Origin) : ((Upd.goBy k v).apply s).goBy = s.goBy.put dfltGoBy k v := (rfl)
@[simp] theorem Upd.goBy_msix (k : Nat) (v : Origin) : ((Upd.goBy k v).apply s).msix = s.msix := (rfl)
@[simp] theorem Upd.goBy_threads (k : Nat) (v : Origin) : ((Upd.goBy k v).apply s).threads = s.threads := (rfl)
@[simp] theorem Upd.goBy_acts (k : Nat) (v : Origin) : ((Upd.goBy k v).apply s).acts = s.acts := (rfl)
@[simp] theorem Upd.goBy_ready (k : Nat) (v : Origin) : ((Upd.goBy k v).apply s).ready = s.ready := (rfl)
@[simp] theorem Upd.goBy_delay (k : Nat) (v : Origin) : ((Upd.goBy k v).apply s).delay = s.delay := (rfl)
@[simp] theorem Upd.goBy_ctxs (k : Nat) (v : Origin) : ((Upd.goBy k v).apply s).ctxs = s.ctxs := (rfl)
@[simp] theorem Upd.goBy_banks (k : Nat) (v : Origin) : ((Upd.goBy k v).apply s).banks = s.banks := (rfl)
@[simp] theorem Upd.goBy_fuq (k : Nat) (v : Origin) : ((Upd.goBy k v).apply s).fuq = s.fuq := (rfl)
@[simp] theorem Upd.goBy_units (k : Nat) (v : Origin) : ((Upd.goBy k v).apply s).units = s.units := (rfl)
@[simp] theorem Upd.goBy_hqueues (k : Nat) (v : Origin) : ((Upd.goBy k v).apply s).hqueues = s.hqueues := (rfl)
@[simp] theorem Upd.goBy_icache (k : Nat) (v : Origin) : ((Upd.goBy k v).apply s).icache = s.icache := (rfl)
@[simp] theorem Upd.goBy_learn (k : Nat) (v : Origin) : ((Upd.goBy k v).apply s).learn = s.learn := (rfl)
@[simp] theorem Upd.goBy_engines (k : Nat) (v : Origin) : ((Upd.goBy k v).apply s).engines = s.engines := (rfl)
@[simp] theorem Upd.goBy_dirRows (k : Nat) (v : Origin) : ((Upd.goBy k v).apply s).dirRows = s.dirRows := (rfl)
@[simp] theorem Upd.goBy_dirShadow (k : Nat) (v : Origin) : ((Upd.goBy k v).apply s).dirShadow = s.dirShadow := (rfl)
@[simp] theorem Upd.goBy_dir (k : Nat) (v : Origin) : ((Upd.goBy k v).apply s).dir = s.dir := (rfl)
@[simp] theorem Upd.goBy_ddrs (k : Nat) (v : Origin) : ((Upd.goBy k v).apply s).ddrs = s.ddrs := (rfl)
@[simp] theorem Upd.goBy_bufs (k : Nat) (v : Origin) : ((Upd.goBy k v).apply s).bufs = s.bufs := (rfl)
@[simp] theorem Upd.goBy_pools (k : Nat) (v : Origin) : ((Upd.goBy k v).apply s).pools = s.pools := (rfl)
@[simp] theorem Upd.goBy_chans (k : Nat) (v : Origin) : ((Upd.goBy k v).apply s).chans = s.chans := (rfl)
@[simp] theorem Upd.goBy_locks (k : Nat) (v : Origin) : ((Upd.goBy k v).apply s).locks = s.locks := (rfl)
@[simp] theorem Upd.goBy_streams (k : Nat) (v : Origin) : ((Upd.goBy k v).apply s).streams = s.streams := (rfl)
@[simp] theorem Upd.goBy_ports (k : Nat) (v : Origin) : ((Upd.goBy k v).apply s).ports = s.ports := (rfl)
@[simp] theorem Upd.goBy_pipes (k : Nat) (v : Origin) : ((Upd.goBy k v).apply s).pipes = s.pipes := (rfl)
@[simp] theorem Upd.goBy_admitQ (k : Nat) (v : Origin) : ((Upd.goBy k v).apply s).admitQ = s.admitQ := (rfl)
@[simp] theorem Upd.goBy_terms (k : Nat) (v : Origin) : ((Upd.goBy k v).apply s).terms = s.terms := (rfl)
@[simp] theorem Upd.goBy_classes (k : Nat) (v : Origin) : ((Upd.goBy k v).apply s).classes = s.classes := (rfl)
@[simp] theorem Upd.goBy_hostq (k : Nat) (v : Origin) : ((Upd.goBy k v).apply s).hostq = s.hostq := (rfl)
@[simp] theorem Upd.goBy_ringLinks (k : Nat) (v : Origin) : ((Upd.goBy k v).apply s).ringLinks = s.ringLinks := (rfl)
@[simp] theorem Upd.goBy_sq (k : Nat) (v : Origin) : ((Upd.goBy k v).apply s).sq = s.sq := (rfl)
@[simp] theorem Upd.goBy_rc (k : Nat) (v : Origin) : ((Upd.goBy k v).apply s).rc = s.rc := (rfl)
@[simp] theorem Upd.goBy_cw (k : Nat) (v : Origin) : ((Upd.goBy k v).apply s).cw = s.cw := (rfl)
@[simp] theorem Upd.goBy_ring (k : Nat) (v : Origin) : ((Upd.goBy k v).apply s).ring = s.ring := (rfl)
@[simp] theorem Upd.goBy_gb (k : Nat) (v : Origin) : ((Upd.goBy k v).apply s).gb = s.gb := (rfl)
@[simp] theorem Upd.goBy_fc (k : Nat) (v : Origin) : ((Upd.goBy k v).apply s).fc = s.fc := (rfl)
@[simp] theorem Upd.goBy_tb (k : Nat) (v : Origin) : ((Upd.goBy k v).apply s).tb = s.tb := (rfl)
@[simp] theorem Upd.goBy_boot (k : Nat) (v : Origin) : ((Upd.goBy k v).apply s).boot = s.boot := (rfl)
@[simp] theorem Upd.goBy_tap (k : Nat) (v : Origin) : ((Upd.goBy k v).apply s).tap = s.tap := (rfl)
@[simp] theorem Upd.goBy_bg (k : Nat) (v : Origin) : ((Upd.goBy k v).apply s).bg = s.bg := (rfl)

@[simp] theorem Upd.msix_pending (k : Nat) (v : MsixEntry) : ((Upd.msix k v).apply s).pending = s.pending := (rfl)
@[simp] theorem Upd.msix_free (k : Nat) (v : MsixEntry) : ((Upd.msix k v).apply s).free = s.free := (rfl)
@[simp] theorem Upd.msix_outbox (k : Nat) (v : MsixEntry) : ((Upd.msix k v).apply s).outbox = s.outbox := (rfl)
@[simp] theorem Upd.msix_mem (k : Nat) (v : MsixEntry) : ((Upd.msix k v).apply s).mem = s.mem := (rfl)
@[simp] theorem Upd.msix_bad (k : Nat) (v : MsixEntry) : ((Upd.msix k v).apply s).bad = s.bad := (rfl)
@[simp] theorem Upd.msix_desk (k : Nat) (v : MsixEntry) : ((Upd.msix k v).apply s).desk = s.desk := (rfl)
@[simp] theorem Upd.msix_pg (k : Nat) (v : MsixEntry) : ((Upd.msix k v).apply s).pg = s.pg := (rfl)
@[simp] theorem Upd.msix_regs (k : Nat) (v : MsixEntry) : ((Upd.msix k v).apply s).regs = s.regs := (rfl)
@[simp] theorem Upd.msix_act (k : Nat) (v : MsixEntry) : ((Upd.msix k v).apply s).act = s.act := (rfl)
@[simp] theorem Upd.msix_pendc (k : Nat) (v : MsixEntry) : ((Upd.msix k v).apply s).pendc = s.pendc := (rfl)
@[simp] theorem Upd.msix_goBy (k : Nat) (v : MsixEntry) : ((Upd.msix k v).apply s).goBy = s.goBy := (rfl)
@[simp] theorem Upd.msix_msix (k : Nat) (v : MsixEntry) : ((Upd.msix k v).apply s).msix = s.msix.put dfltMsix k v := (rfl)
@[simp] theorem Upd.msix_threads (k : Nat) (v : MsixEntry) : ((Upd.msix k v).apply s).threads = s.threads := (rfl)
@[simp] theorem Upd.msix_acts (k : Nat) (v : MsixEntry) : ((Upd.msix k v).apply s).acts = s.acts := (rfl)
@[simp] theorem Upd.msix_ready (k : Nat) (v : MsixEntry) : ((Upd.msix k v).apply s).ready = s.ready := (rfl)
@[simp] theorem Upd.msix_delay (k : Nat) (v : MsixEntry) : ((Upd.msix k v).apply s).delay = s.delay := (rfl)
@[simp] theorem Upd.msix_ctxs (k : Nat) (v : MsixEntry) : ((Upd.msix k v).apply s).ctxs = s.ctxs := (rfl)
@[simp] theorem Upd.msix_banks (k : Nat) (v : MsixEntry) : ((Upd.msix k v).apply s).banks = s.banks := (rfl)
@[simp] theorem Upd.msix_fuq (k : Nat) (v : MsixEntry) : ((Upd.msix k v).apply s).fuq = s.fuq := (rfl)
@[simp] theorem Upd.msix_units (k : Nat) (v : MsixEntry) : ((Upd.msix k v).apply s).units = s.units := (rfl)
@[simp] theorem Upd.msix_hqueues (k : Nat) (v : MsixEntry) : ((Upd.msix k v).apply s).hqueues = s.hqueues := (rfl)
@[simp] theorem Upd.msix_icache (k : Nat) (v : MsixEntry) : ((Upd.msix k v).apply s).icache = s.icache := (rfl)
@[simp] theorem Upd.msix_learn (k : Nat) (v : MsixEntry) : ((Upd.msix k v).apply s).learn = s.learn := (rfl)
@[simp] theorem Upd.msix_engines (k : Nat) (v : MsixEntry) : ((Upd.msix k v).apply s).engines = s.engines := (rfl)
@[simp] theorem Upd.msix_dirRows (k : Nat) (v : MsixEntry) : ((Upd.msix k v).apply s).dirRows = s.dirRows := (rfl)
@[simp] theorem Upd.msix_dirShadow (k : Nat) (v : MsixEntry) : ((Upd.msix k v).apply s).dirShadow = s.dirShadow := (rfl)
@[simp] theorem Upd.msix_dir (k : Nat) (v : MsixEntry) : ((Upd.msix k v).apply s).dir = s.dir := (rfl)
@[simp] theorem Upd.msix_ddrs (k : Nat) (v : MsixEntry) : ((Upd.msix k v).apply s).ddrs = s.ddrs := (rfl)
@[simp] theorem Upd.msix_bufs (k : Nat) (v : MsixEntry) : ((Upd.msix k v).apply s).bufs = s.bufs := (rfl)
@[simp] theorem Upd.msix_pools (k : Nat) (v : MsixEntry) : ((Upd.msix k v).apply s).pools = s.pools := (rfl)
@[simp] theorem Upd.msix_chans (k : Nat) (v : MsixEntry) : ((Upd.msix k v).apply s).chans = s.chans := (rfl)
@[simp] theorem Upd.msix_locks (k : Nat) (v : MsixEntry) : ((Upd.msix k v).apply s).locks = s.locks := (rfl)
@[simp] theorem Upd.msix_streams (k : Nat) (v : MsixEntry) : ((Upd.msix k v).apply s).streams = s.streams := (rfl)
@[simp] theorem Upd.msix_ports (k : Nat) (v : MsixEntry) : ((Upd.msix k v).apply s).ports = s.ports := (rfl)
@[simp] theorem Upd.msix_pipes (k : Nat) (v : MsixEntry) : ((Upd.msix k v).apply s).pipes = s.pipes := (rfl)
@[simp] theorem Upd.msix_admitQ (k : Nat) (v : MsixEntry) : ((Upd.msix k v).apply s).admitQ = s.admitQ := (rfl)
@[simp] theorem Upd.msix_terms (k : Nat) (v : MsixEntry) : ((Upd.msix k v).apply s).terms = s.terms := (rfl)
@[simp] theorem Upd.msix_classes (k : Nat) (v : MsixEntry) : ((Upd.msix k v).apply s).classes = s.classes := (rfl)
@[simp] theorem Upd.msix_hostq (k : Nat) (v : MsixEntry) : ((Upd.msix k v).apply s).hostq = s.hostq := (rfl)
@[simp] theorem Upd.msix_ringLinks (k : Nat) (v : MsixEntry) : ((Upd.msix k v).apply s).ringLinks = s.ringLinks := (rfl)
@[simp] theorem Upd.msix_sq (k : Nat) (v : MsixEntry) : ((Upd.msix k v).apply s).sq = s.sq := (rfl)
@[simp] theorem Upd.msix_rc (k : Nat) (v : MsixEntry) : ((Upd.msix k v).apply s).rc = s.rc := (rfl)
@[simp] theorem Upd.msix_cw (k : Nat) (v : MsixEntry) : ((Upd.msix k v).apply s).cw = s.cw := (rfl)
@[simp] theorem Upd.msix_ring (k : Nat) (v : MsixEntry) : ((Upd.msix k v).apply s).ring = s.ring := (rfl)
@[simp] theorem Upd.msix_gb (k : Nat) (v : MsixEntry) : ((Upd.msix k v).apply s).gb = s.gb := (rfl)
@[simp] theorem Upd.msix_fc (k : Nat) (v : MsixEntry) : ((Upd.msix k v).apply s).fc = s.fc := (rfl)
@[simp] theorem Upd.msix_tb (k : Nat) (v : MsixEntry) : ((Upd.msix k v).apply s).tb = s.tb := (rfl)
@[simp] theorem Upd.msix_boot (k : Nat) (v : MsixEntry) : ((Upd.msix k v).apply s).boot = s.boot := (rfl)
@[simp] theorem Upd.msix_tap (k : Nat) (v : MsixEntry) : ((Upd.msix k v).apply s).tap = s.tap := (rfl)
@[simp] theorem Upd.msix_bg (k : Nat) (v : MsixEntry) : ((Upd.msix k v).apply s).bg = s.bg := (rfl)

@[simp] theorem Upd.threads_pending (k : Nat) (v : Thread) : ((Upd.threads k v).apply s).pending = s.pending := (rfl)
@[simp] theorem Upd.threads_free (k : Nat) (v : Thread) : ((Upd.threads k v).apply s).free = s.free := (rfl)
@[simp] theorem Upd.threads_outbox (k : Nat) (v : Thread) : ((Upd.threads k v).apply s).outbox = s.outbox := (rfl)
@[simp] theorem Upd.threads_mem (k : Nat) (v : Thread) : ((Upd.threads k v).apply s).mem = s.mem := (rfl)
@[simp] theorem Upd.threads_bad (k : Nat) (v : Thread) : ((Upd.threads k v).apply s).bad = s.bad := (rfl)
@[simp] theorem Upd.threads_desk (k : Nat) (v : Thread) : ((Upd.threads k v).apply s).desk = s.desk := (rfl)
@[simp] theorem Upd.threads_pg (k : Nat) (v : Thread) : ((Upd.threads k v).apply s).pg = s.pg := (rfl)
@[simp] theorem Upd.threads_regs (k : Nat) (v : Thread) : ((Upd.threads k v).apply s).regs = s.regs := (rfl)
@[simp] theorem Upd.threads_act (k : Nat) (v : Thread) : ((Upd.threads k v).apply s).act = s.act := (rfl)
@[simp] theorem Upd.threads_pendc (k : Nat) (v : Thread) : ((Upd.threads k v).apply s).pendc = s.pendc := (rfl)
@[simp] theorem Upd.threads_goBy (k : Nat) (v : Thread) : ((Upd.threads k v).apply s).goBy = s.goBy := (rfl)
@[simp] theorem Upd.threads_msix (k : Nat) (v : Thread) : ((Upd.threads k v).apply s).msix = s.msix := (rfl)
@[simp] theorem Upd.threads_threads (k : Nat) (v : Thread) : ((Upd.threads k v).apply s).threads = s.threads.put dfltThreads k v := (rfl)
@[simp] theorem Upd.threads_acts (k : Nat) (v : Thread) : ((Upd.threads k v).apply s).acts = s.acts := (rfl)
@[simp] theorem Upd.threads_ready (k : Nat) (v : Thread) : ((Upd.threads k v).apply s).ready = s.ready := (rfl)
@[simp] theorem Upd.threads_delay (k : Nat) (v : Thread) : ((Upd.threads k v).apply s).delay = s.delay := (rfl)
@[simp] theorem Upd.threads_ctxs (k : Nat) (v : Thread) : ((Upd.threads k v).apply s).ctxs = s.ctxs := (rfl)
@[simp] theorem Upd.threads_banks (k : Nat) (v : Thread) : ((Upd.threads k v).apply s).banks = s.banks := (rfl)
@[simp] theorem Upd.threads_fuq (k : Nat) (v : Thread) : ((Upd.threads k v).apply s).fuq = s.fuq := (rfl)
@[simp] theorem Upd.threads_units (k : Nat) (v : Thread) : ((Upd.threads k v).apply s).units = s.units := (rfl)
@[simp] theorem Upd.threads_hqueues (k : Nat) (v : Thread) : ((Upd.threads k v).apply s).hqueues = s.hqueues := (rfl)
@[simp] theorem Upd.threads_icache (k : Nat) (v : Thread) : ((Upd.threads k v).apply s).icache = s.icache := (rfl)
@[simp] theorem Upd.threads_learn (k : Nat) (v : Thread) : ((Upd.threads k v).apply s).learn = s.learn := (rfl)
@[simp] theorem Upd.threads_engines (k : Nat) (v : Thread) : ((Upd.threads k v).apply s).engines = s.engines := (rfl)
@[simp] theorem Upd.threads_dirRows (k : Nat) (v : Thread) : ((Upd.threads k v).apply s).dirRows = s.dirRows := (rfl)
@[simp] theorem Upd.threads_dirShadow (k : Nat) (v : Thread) : ((Upd.threads k v).apply s).dirShadow = s.dirShadow := (rfl)
@[simp] theorem Upd.threads_dir (k : Nat) (v : Thread) : ((Upd.threads k v).apply s).dir = s.dir := (rfl)
@[simp] theorem Upd.threads_ddrs (k : Nat) (v : Thread) : ((Upd.threads k v).apply s).ddrs = s.ddrs := (rfl)
@[simp] theorem Upd.threads_bufs (k : Nat) (v : Thread) : ((Upd.threads k v).apply s).bufs = s.bufs := (rfl)
@[simp] theorem Upd.threads_pools (k : Nat) (v : Thread) : ((Upd.threads k v).apply s).pools = s.pools := (rfl)
@[simp] theorem Upd.threads_chans (k : Nat) (v : Thread) : ((Upd.threads k v).apply s).chans = s.chans := (rfl)
@[simp] theorem Upd.threads_locks (k : Nat) (v : Thread) : ((Upd.threads k v).apply s).locks = s.locks := (rfl)
@[simp] theorem Upd.threads_streams (k : Nat) (v : Thread) : ((Upd.threads k v).apply s).streams = s.streams := (rfl)
@[simp] theorem Upd.threads_ports (k : Nat) (v : Thread) : ((Upd.threads k v).apply s).ports = s.ports := (rfl)
@[simp] theorem Upd.threads_pipes (k : Nat) (v : Thread) : ((Upd.threads k v).apply s).pipes = s.pipes := (rfl)
@[simp] theorem Upd.threads_admitQ (k : Nat) (v : Thread) : ((Upd.threads k v).apply s).admitQ = s.admitQ := (rfl)
@[simp] theorem Upd.threads_terms (k : Nat) (v : Thread) : ((Upd.threads k v).apply s).terms = s.terms := (rfl)
@[simp] theorem Upd.threads_classes (k : Nat) (v : Thread) : ((Upd.threads k v).apply s).classes = s.classes := (rfl)
@[simp] theorem Upd.threads_hostq (k : Nat) (v : Thread) : ((Upd.threads k v).apply s).hostq = s.hostq := (rfl)
@[simp] theorem Upd.threads_ringLinks (k : Nat) (v : Thread) : ((Upd.threads k v).apply s).ringLinks = s.ringLinks := (rfl)
@[simp] theorem Upd.threads_sq (k : Nat) (v : Thread) : ((Upd.threads k v).apply s).sq = s.sq := (rfl)
@[simp] theorem Upd.threads_rc (k : Nat) (v : Thread) : ((Upd.threads k v).apply s).rc = s.rc := (rfl)
@[simp] theorem Upd.threads_cw (k : Nat) (v : Thread) : ((Upd.threads k v).apply s).cw = s.cw := (rfl)
@[simp] theorem Upd.threads_ring (k : Nat) (v : Thread) : ((Upd.threads k v).apply s).ring = s.ring := (rfl)
@[simp] theorem Upd.threads_gb (k : Nat) (v : Thread) : ((Upd.threads k v).apply s).gb = s.gb := (rfl)
@[simp] theorem Upd.threads_fc (k : Nat) (v : Thread) : ((Upd.threads k v).apply s).fc = s.fc := (rfl)
@[simp] theorem Upd.threads_tb (k : Nat) (v : Thread) : ((Upd.threads k v).apply s).tb = s.tb := (rfl)
@[simp] theorem Upd.threads_boot (k : Nat) (v : Thread) : ((Upd.threads k v).apply s).boot = s.boot := (rfl)
@[simp] theorem Upd.threads_tap (k : Nat) (v : Thread) : ((Upd.threads k v).apply s).tap = s.tap := (rfl)
@[simp] theorem Upd.threads_bg (k : Nat) (v : Thread) : ((Upd.threads k v).apply s).bg = s.bg := (rfl)

@[simp] theorem Upd.acts_pending (k : Nat) (v : Option Act) : ((Upd.acts k v).apply s).pending = s.pending := (rfl)
@[simp] theorem Upd.acts_free (k : Nat) (v : Option Act) : ((Upd.acts k v).apply s).free = s.free := (rfl)
@[simp] theorem Upd.acts_outbox (k : Nat) (v : Option Act) : ((Upd.acts k v).apply s).outbox = s.outbox := (rfl)
@[simp] theorem Upd.acts_mem (k : Nat) (v : Option Act) : ((Upd.acts k v).apply s).mem = s.mem := (rfl)
@[simp] theorem Upd.acts_bad (k : Nat) (v : Option Act) : ((Upd.acts k v).apply s).bad = s.bad := (rfl)
@[simp] theorem Upd.acts_desk (k : Nat) (v : Option Act) : ((Upd.acts k v).apply s).desk = s.desk := (rfl)
@[simp] theorem Upd.acts_pg (k : Nat) (v : Option Act) : ((Upd.acts k v).apply s).pg = s.pg := (rfl)
@[simp] theorem Upd.acts_regs (k : Nat) (v : Option Act) : ((Upd.acts k v).apply s).regs = s.regs := (rfl)
@[simp] theorem Upd.acts_act (k : Nat) (v : Option Act) : ((Upd.acts k v).apply s).act = s.act := (rfl)
@[simp] theorem Upd.acts_pendc (k : Nat) (v : Option Act) : ((Upd.acts k v).apply s).pendc = s.pendc := (rfl)
@[simp] theorem Upd.acts_goBy (k : Nat) (v : Option Act) : ((Upd.acts k v).apply s).goBy = s.goBy := (rfl)
@[simp] theorem Upd.acts_msix (k : Nat) (v : Option Act) : ((Upd.acts k v).apply s).msix = s.msix := (rfl)
@[simp] theorem Upd.acts_threads (k : Nat) (v : Option Act) : ((Upd.acts k v).apply s).threads = s.threads := (rfl)
@[simp] theorem Upd.acts_acts (k : Nat) (v : Option Act) : ((Upd.acts k v).apply s).acts = s.acts.put dfltActs k v := (rfl)
@[simp] theorem Upd.acts_ready (k : Nat) (v : Option Act) : ((Upd.acts k v).apply s).ready = s.ready := (rfl)
@[simp] theorem Upd.acts_delay (k : Nat) (v : Option Act) : ((Upd.acts k v).apply s).delay = s.delay := (rfl)
@[simp] theorem Upd.acts_ctxs (k : Nat) (v : Option Act) : ((Upd.acts k v).apply s).ctxs = s.ctxs := (rfl)
@[simp] theorem Upd.acts_banks (k : Nat) (v : Option Act) : ((Upd.acts k v).apply s).banks = s.banks := (rfl)
@[simp] theorem Upd.acts_fuq (k : Nat) (v : Option Act) : ((Upd.acts k v).apply s).fuq = s.fuq := (rfl)
@[simp] theorem Upd.acts_units (k : Nat) (v : Option Act) : ((Upd.acts k v).apply s).units = s.units := (rfl)
@[simp] theorem Upd.acts_hqueues (k : Nat) (v : Option Act) : ((Upd.acts k v).apply s).hqueues = s.hqueues := (rfl)
@[simp] theorem Upd.acts_icache (k : Nat) (v : Option Act) : ((Upd.acts k v).apply s).icache = s.icache := (rfl)
@[simp] theorem Upd.acts_learn (k : Nat) (v : Option Act) : ((Upd.acts k v).apply s).learn = s.learn := (rfl)
@[simp] theorem Upd.acts_engines (k : Nat) (v : Option Act) : ((Upd.acts k v).apply s).engines = s.engines := (rfl)
@[simp] theorem Upd.acts_dirRows (k : Nat) (v : Option Act) : ((Upd.acts k v).apply s).dirRows = s.dirRows := (rfl)
@[simp] theorem Upd.acts_dirShadow (k : Nat) (v : Option Act) : ((Upd.acts k v).apply s).dirShadow = s.dirShadow := (rfl)
@[simp] theorem Upd.acts_dir (k : Nat) (v : Option Act) : ((Upd.acts k v).apply s).dir = s.dir := (rfl)
@[simp] theorem Upd.acts_ddrs (k : Nat) (v : Option Act) : ((Upd.acts k v).apply s).ddrs = s.ddrs := (rfl)
@[simp] theorem Upd.acts_bufs (k : Nat) (v : Option Act) : ((Upd.acts k v).apply s).bufs = s.bufs := (rfl)
@[simp] theorem Upd.acts_pools (k : Nat) (v : Option Act) : ((Upd.acts k v).apply s).pools = s.pools := (rfl)
@[simp] theorem Upd.acts_chans (k : Nat) (v : Option Act) : ((Upd.acts k v).apply s).chans = s.chans := (rfl)
@[simp] theorem Upd.acts_locks (k : Nat) (v : Option Act) : ((Upd.acts k v).apply s).locks = s.locks := (rfl)
@[simp] theorem Upd.acts_streams (k : Nat) (v : Option Act) : ((Upd.acts k v).apply s).streams = s.streams := (rfl)
@[simp] theorem Upd.acts_ports (k : Nat) (v : Option Act) : ((Upd.acts k v).apply s).ports = s.ports := (rfl)
@[simp] theorem Upd.acts_pipes (k : Nat) (v : Option Act) : ((Upd.acts k v).apply s).pipes = s.pipes := (rfl)
@[simp] theorem Upd.acts_admitQ (k : Nat) (v : Option Act) : ((Upd.acts k v).apply s).admitQ = s.admitQ := (rfl)
@[simp] theorem Upd.acts_terms (k : Nat) (v : Option Act) : ((Upd.acts k v).apply s).terms = s.terms := (rfl)
@[simp] theorem Upd.acts_classes (k : Nat) (v : Option Act) : ((Upd.acts k v).apply s).classes = s.classes := (rfl)
@[simp] theorem Upd.acts_hostq (k : Nat) (v : Option Act) : ((Upd.acts k v).apply s).hostq = s.hostq := (rfl)
@[simp] theorem Upd.acts_ringLinks (k : Nat) (v : Option Act) : ((Upd.acts k v).apply s).ringLinks = s.ringLinks := (rfl)
@[simp] theorem Upd.acts_sq (k : Nat) (v : Option Act) : ((Upd.acts k v).apply s).sq = s.sq := (rfl)
@[simp] theorem Upd.acts_rc (k : Nat) (v : Option Act) : ((Upd.acts k v).apply s).rc = s.rc := (rfl)
@[simp] theorem Upd.acts_cw (k : Nat) (v : Option Act) : ((Upd.acts k v).apply s).cw = s.cw := (rfl)
@[simp] theorem Upd.acts_ring (k : Nat) (v : Option Act) : ((Upd.acts k v).apply s).ring = s.ring := (rfl)
@[simp] theorem Upd.acts_gb (k : Nat) (v : Option Act) : ((Upd.acts k v).apply s).gb = s.gb := (rfl)
@[simp] theorem Upd.acts_fc (k : Nat) (v : Option Act) : ((Upd.acts k v).apply s).fc = s.fc := (rfl)
@[simp] theorem Upd.acts_tb (k : Nat) (v : Option Act) : ((Upd.acts k v).apply s).tb = s.tb := (rfl)
@[simp] theorem Upd.acts_boot (k : Nat) (v : Option Act) : ((Upd.acts k v).apply s).boot = s.boot := (rfl)
@[simp] theorem Upd.acts_tap (k : Nat) (v : Option Act) : ((Upd.acts k v).apply s).tap = s.tap := (rfl)
@[simp] theorem Upd.acts_bg (k : Nat) (v : Option Act) : ((Upd.acts k v).apply s).bg = s.bg := (rfl)

@[simp] theorem Upd.ready_pending (k : Nat) (v : List Nat) : ((Upd.ready k v).apply s).pending = s.pending := (rfl)
@[simp] theorem Upd.ready_free (k : Nat) (v : List Nat) : ((Upd.ready k v).apply s).free = s.free := (rfl)
@[simp] theorem Upd.ready_outbox (k : Nat) (v : List Nat) : ((Upd.ready k v).apply s).outbox = s.outbox := (rfl)
@[simp] theorem Upd.ready_mem (k : Nat) (v : List Nat) : ((Upd.ready k v).apply s).mem = s.mem := (rfl)
@[simp] theorem Upd.ready_bad (k : Nat) (v : List Nat) : ((Upd.ready k v).apply s).bad = s.bad := (rfl)
@[simp] theorem Upd.ready_desk (k : Nat) (v : List Nat) : ((Upd.ready k v).apply s).desk = s.desk := (rfl)
@[simp] theorem Upd.ready_pg (k : Nat) (v : List Nat) : ((Upd.ready k v).apply s).pg = s.pg := (rfl)
@[simp] theorem Upd.ready_regs (k : Nat) (v : List Nat) : ((Upd.ready k v).apply s).regs = s.regs := (rfl)
@[simp] theorem Upd.ready_act (k : Nat) (v : List Nat) : ((Upd.ready k v).apply s).act = s.act := (rfl)
@[simp] theorem Upd.ready_pendc (k : Nat) (v : List Nat) : ((Upd.ready k v).apply s).pendc = s.pendc := (rfl)
@[simp] theorem Upd.ready_goBy (k : Nat) (v : List Nat) : ((Upd.ready k v).apply s).goBy = s.goBy := (rfl)
@[simp] theorem Upd.ready_msix (k : Nat) (v : List Nat) : ((Upd.ready k v).apply s).msix = s.msix := (rfl)
@[simp] theorem Upd.ready_threads (k : Nat) (v : List Nat) : ((Upd.ready k v).apply s).threads = s.threads := (rfl)
@[simp] theorem Upd.ready_acts (k : Nat) (v : List Nat) : ((Upd.ready k v).apply s).acts = s.acts := (rfl)
@[simp] theorem Upd.ready_ready (k : Nat) (v : List Nat) : ((Upd.ready k v).apply s).ready = s.ready.put dfltReady k v := (rfl)
@[simp] theorem Upd.ready_delay (k : Nat) (v : List Nat) : ((Upd.ready k v).apply s).delay = s.delay := (rfl)
@[simp] theorem Upd.ready_ctxs (k : Nat) (v : List Nat) : ((Upd.ready k v).apply s).ctxs = s.ctxs := (rfl)
@[simp] theorem Upd.ready_banks (k : Nat) (v : List Nat) : ((Upd.ready k v).apply s).banks = s.banks := (rfl)
@[simp] theorem Upd.ready_fuq (k : Nat) (v : List Nat) : ((Upd.ready k v).apply s).fuq = s.fuq := (rfl)
@[simp] theorem Upd.ready_units (k : Nat) (v : List Nat) : ((Upd.ready k v).apply s).units = s.units := (rfl)
@[simp] theorem Upd.ready_hqueues (k : Nat) (v : List Nat) : ((Upd.ready k v).apply s).hqueues = s.hqueues := (rfl)
@[simp] theorem Upd.ready_icache (k : Nat) (v : List Nat) : ((Upd.ready k v).apply s).icache = s.icache := (rfl)
@[simp] theorem Upd.ready_learn (k : Nat) (v : List Nat) : ((Upd.ready k v).apply s).learn = s.learn := (rfl)
@[simp] theorem Upd.ready_engines (k : Nat) (v : List Nat) : ((Upd.ready k v).apply s).engines = s.engines := (rfl)
@[simp] theorem Upd.ready_dirRows (k : Nat) (v : List Nat) : ((Upd.ready k v).apply s).dirRows = s.dirRows := (rfl)
@[simp] theorem Upd.ready_dirShadow (k : Nat) (v : List Nat) : ((Upd.ready k v).apply s).dirShadow = s.dirShadow := (rfl)
@[simp] theorem Upd.ready_dir (k : Nat) (v : List Nat) : ((Upd.ready k v).apply s).dir = s.dir := (rfl)
@[simp] theorem Upd.ready_ddrs (k : Nat) (v : List Nat) : ((Upd.ready k v).apply s).ddrs = s.ddrs := (rfl)
@[simp] theorem Upd.ready_bufs (k : Nat) (v : List Nat) : ((Upd.ready k v).apply s).bufs = s.bufs := (rfl)
@[simp] theorem Upd.ready_pools (k : Nat) (v : List Nat) : ((Upd.ready k v).apply s).pools = s.pools := (rfl)
@[simp] theorem Upd.ready_chans (k : Nat) (v : List Nat) : ((Upd.ready k v).apply s).chans = s.chans := (rfl)
@[simp] theorem Upd.ready_locks (k : Nat) (v : List Nat) : ((Upd.ready k v).apply s).locks = s.locks := (rfl)
@[simp] theorem Upd.ready_streams (k : Nat) (v : List Nat) : ((Upd.ready k v).apply s).streams = s.streams := (rfl)
@[simp] theorem Upd.ready_ports (k : Nat) (v : List Nat) : ((Upd.ready k v).apply s).ports = s.ports := (rfl)
@[simp] theorem Upd.ready_pipes (k : Nat) (v : List Nat) : ((Upd.ready k v).apply s).pipes = s.pipes := (rfl)
@[simp] theorem Upd.ready_admitQ (k : Nat) (v : List Nat) : ((Upd.ready k v).apply s).admitQ = s.admitQ := (rfl)
@[simp] theorem Upd.ready_terms (k : Nat) (v : List Nat) : ((Upd.ready k v).apply s).terms = s.terms := (rfl)
@[simp] theorem Upd.ready_classes (k : Nat) (v : List Nat) : ((Upd.ready k v).apply s).classes = s.classes := (rfl)
@[simp] theorem Upd.ready_hostq (k : Nat) (v : List Nat) : ((Upd.ready k v).apply s).hostq = s.hostq := (rfl)
@[simp] theorem Upd.ready_ringLinks (k : Nat) (v : List Nat) : ((Upd.ready k v).apply s).ringLinks = s.ringLinks := (rfl)
@[simp] theorem Upd.ready_sq (k : Nat) (v : List Nat) : ((Upd.ready k v).apply s).sq = s.sq := (rfl)
@[simp] theorem Upd.ready_rc (k : Nat) (v : List Nat) : ((Upd.ready k v).apply s).rc = s.rc := (rfl)
@[simp] theorem Upd.ready_cw (k : Nat) (v : List Nat) : ((Upd.ready k v).apply s).cw = s.cw := (rfl)
@[simp] theorem Upd.ready_ring (k : Nat) (v : List Nat) : ((Upd.ready k v).apply s).ring = s.ring := (rfl)
@[simp] theorem Upd.ready_gb (k : Nat) (v : List Nat) : ((Upd.ready k v).apply s).gb = s.gb := (rfl)
@[simp] theorem Upd.ready_fc (k : Nat) (v : List Nat) : ((Upd.ready k v).apply s).fc = s.fc := (rfl)
@[simp] theorem Upd.ready_tb (k : Nat) (v : List Nat) : ((Upd.ready k v).apply s).tb = s.tb := (rfl)
@[simp] theorem Upd.ready_boot (k : Nat) (v : List Nat) : ((Upd.ready k v).apply s).boot = s.boot := (rfl)
@[simp] theorem Upd.ready_tap (k : Nat) (v : List Nat) : ((Upd.ready k v).apply s).tap = s.tap := (rfl)
@[simp] theorem Upd.ready_bg (k : Nat) (v : List Nat) : ((Upd.ready k v).apply s).bg = s.bg := (rfl)

@[simp] theorem Upd.delay_pending (k : Nat) (v : DelaySlot) : ((Upd.delay k v).apply s).pending = s.pending := (rfl)
@[simp] theorem Upd.delay_free (k : Nat) (v : DelaySlot) : ((Upd.delay k v).apply s).free = s.free := (rfl)
@[simp] theorem Upd.delay_outbox (k : Nat) (v : DelaySlot) : ((Upd.delay k v).apply s).outbox = s.outbox := (rfl)
@[simp] theorem Upd.delay_mem (k : Nat) (v : DelaySlot) : ((Upd.delay k v).apply s).mem = s.mem := (rfl)
@[simp] theorem Upd.delay_bad (k : Nat) (v : DelaySlot) : ((Upd.delay k v).apply s).bad = s.bad := (rfl)
@[simp] theorem Upd.delay_desk (k : Nat) (v : DelaySlot) : ((Upd.delay k v).apply s).desk = s.desk := (rfl)
@[simp] theorem Upd.delay_pg (k : Nat) (v : DelaySlot) : ((Upd.delay k v).apply s).pg = s.pg := (rfl)
@[simp] theorem Upd.delay_regs (k : Nat) (v : DelaySlot) : ((Upd.delay k v).apply s).regs = s.regs := (rfl)
@[simp] theorem Upd.delay_act (k : Nat) (v : DelaySlot) : ((Upd.delay k v).apply s).act = s.act := (rfl)
@[simp] theorem Upd.delay_pendc (k : Nat) (v : DelaySlot) : ((Upd.delay k v).apply s).pendc = s.pendc := (rfl)
@[simp] theorem Upd.delay_goBy (k : Nat) (v : DelaySlot) : ((Upd.delay k v).apply s).goBy = s.goBy := (rfl)
@[simp] theorem Upd.delay_msix (k : Nat) (v : DelaySlot) : ((Upd.delay k v).apply s).msix = s.msix := (rfl)
@[simp] theorem Upd.delay_threads (k : Nat) (v : DelaySlot) : ((Upd.delay k v).apply s).threads = s.threads := (rfl)
@[simp] theorem Upd.delay_acts (k : Nat) (v : DelaySlot) : ((Upd.delay k v).apply s).acts = s.acts := (rfl)
@[simp] theorem Upd.delay_ready (k : Nat) (v : DelaySlot) : ((Upd.delay k v).apply s).ready = s.ready := (rfl)
@[simp] theorem Upd.delay_delay (k : Nat) (v : DelaySlot) : ((Upd.delay k v).apply s).delay = s.delay.put dfltDelay k v := (rfl)
@[simp] theorem Upd.delay_ctxs (k : Nat) (v : DelaySlot) : ((Upd.delay k v).apply s).ctxs = s.ctxs := (rfl)
@[simp] theorem Upd.delay_banks (k : Nat) (v : DelaySlot) : ((Upd.delay k v).apply s).banks = s.banks := (rfl)
@[simp] theorem Upd.delay_fuq (k : Nat) (v : DelaySlot) : ((Upd.delay k v).apply s).fuq = s.fuq := (rfl)
@[simp] theorem Upd.delay_units (k : Nat) (v : DelaySlot) : ((Upd.delay k v).apply s).units = s.units := (rfl)
@[simp] theorem Upd.delay_hqueues (k : Nat) (v : DelaySlot) : ((Upd.delay k v).apply s).hqueues = s.hqueues := (rfl)
@[simp] theorem Upd.delay_icache (k : Nat) (v : DelaySlot) : ((Upd.delay k v).apply s).icache = s.icache := (rfl)
@[simp] theorem Upd.delay_learn (k : Nat) (v : DelaySlot) : ((Upd.delay k v).apply s).learn = s.learn := (rfl)
@[simp] theorem Upd.delay_engines (k : Nat) (v : DelaySlot) : ((Upd.delay k v).apply s).engines = s.engines := (rfl)
@[simp] theorem Upd.delay_dirRows (k : Nat) (v : DelaySlot) : ((Upd.delay k v).apply s).dirRows = s.dirRows := (rfl)
@[simp] theorem Upd.delay_dirShadow (k : Nat) (v : DelaySlot) : ((Upd.delay k v).apply s).dirShadow = s.dirShadow := (rfl)
@[simp] theorem Upd.delay_dir (k : Nat) (v : DelaySlot) : ((Upd.delay k v).apply s).dir = s.dir := (rfl)
@[simp] theorem Upd.delay_ddrs (k : Nat) (v : DelaySlot) : ((Upd.delay k v).apply s).ddrs = s.ddrs := (rfl)
@[simp] theorem Upd.delay_bufs (k : Nat) (v : DelaySlot) : ((Upd.delay k v).apply s).bufs = s.bufs := (rfl)
@[simp] theorem Upd.delay_pools (k : Nat) (v : DelaySlot) : ((Upd.delay k v).apply s).pools = s.pools := (rfl)
@[simp] theorem Upd.delay_chans (k : Nat) (v : DelaySlot) : ((Upd.delay k v).apply s).chans = s.chans := (rfl)
@[simp] theorem Upd.delay_locks (k : Nat) (v : DelaySlot) : ((Upd.delay k v).apply s).locks = s.locks := (rfl)
@[simp] theorem Upd.delay_streams (k : Nat) (v : DelaySlot) : ((Upd.delay k v).apply s).streams = s.streams := (rfl)
@[simp] theorem Upd.delay_ports (k : Nat) (v : DelaySlot) : ((Upd.delay k v).apply s).ports = s.ports := (rfl)
@[simp] theorem Upd.delay_pipes (k : Nat) (v : DelaySlot) : ((Upd.delay k v).apply s).pipes = s.pipes := (rfl)
@[simp] theorem Upd.delay_admitQ (k : Nat) (v : DelaySlot) : ((Upd.delay k v).apply s).admitQ = s.admitQ := (rfl)
@[simp] theorem Upd.delay_terms (k : Nat) (v : DelaySlot) : ((Upd.delay k v).apply s).terms = s.terms := (rfl)
@[simp] theorem Upd.delay_classes (k : Nat) (v : DelaySlot) : ((Upd.delay k v).apply s).classes = s.classes := (rfl)
@[simp] theorem Upd.delay_hostq (k : Nat) (v : DelaySlot) : ((Upd.delay k v).apply s).hostq = s.hostq := (rfl)
@[simp] theorem Upd.delay_ringLinks (k : Nat) (v : DelaySlot) : ((Upd.delay k v).apply s).ringLinks = s.ringLinks := (rfl)
@[simp] theorem Upd.delay_sq (k : Nat) (v : DelaySlot) : ((Upd.delay k v).apply s).sq = s.sq := (rfl)
@[simp] theorem Upd.delay_rc (k : Nat) (v : DelaySlot) : ((Upd.delay k v).apply s).rc = s.rc := (rfl)
@[simp] theorem Upd.delay_cw (k : Nat) (v : DelaySlot) : ((Upd.delay k v).apply s).cw = s.cw := (rfl)
@[simp] theorem Upd.delay_ring (k : Nat) (v : DelaySlot) : ((Upd.delay k v).apply s).ring = s.ring := (rfl)
@[simp] theorem Upd.delay_gb (k : Nat) (v : DelaySlot) : ((Upd.delay k v).apply s).gb = s.gb := (rfl)
@[simp] theorem Upd.delay_fc (k : Nat) (v : DelaySlot) : ((Upd.delay k v).apply s).fc = s.fc := (rfl)
@[simp] theorem Upd.delay_tb (k : Nat) (v : DelaySlot) : ((Upd.delay k v).apply s).tb = s.tb := (rfl)
@[simp] theorem Upd.delay_boot (k : Nat) (v : DelaySlot) : ((Upd.delay k v).apply s).boot = s.boot := (rfl)
@[simp] theorem Upd.delay_tap (k : Nat) (v : DelaySlot) : ((Upd.delay k v).apply s).tap = s.tap := (rfl)
@[simp] theorem Upd.delay_bg (k : Nat) (v : DelaySlot) : ((Upd.delay k v).apply s).bg = s.bg := (rfl)

@[simp] theorem Upd.ctxs_pending (k : Nat) (v : Ctx) : ((Upd.ctxs k v).apply s).pending = s.pending := (rfl)
@[simp] theorem Upd.ctxs_free (k : Nat) (v : Ctx) : ((Upd.ctxs k v).apply s).free = s.free := (rfl)
@[simp] theorem Upd.ctxs_outbox (k : Nat) (v : Ctx) : ((Upd.ctxs k v).apply s).outbox = s.outbox := (rfl)
@[simp] theorem Upd.ctxs_mem (k : Nat) (v : Ctx) : ((Upd.ctxs k v).apply s).mem = s.mem := (rfl)
@[simp] theorem Upd.ctxs_bad (k : Nat) (v : Ctx) : ((Upd.ctxs k v).apply s).bad = s.bad := (rfl)
@[simp] theorem Upd.ctxs_desk (k : Nat) (v : Ctx) : ((Upd.ctxs k v).apply s).desk = s.desk := (rfl)
@[simp] theorem Upd.ctxs_pg (k : Nat) (v : Ctx) : ((Upd.ctxs k v).apply s).pg = s.pg := (rfl)
@[simp] theorem Upd.ctxs_regs (k : Nat) (v : Ctx) : ((Upd.ctxs k v).apply s).regs = s.regs := (rfl)
@[simp] theorem Upd.ctxs_act (k : Nat) (v : Ctx) : ((Upd.ctxs k v).apply s).act = s.act := (rfl)
@[simp] theorem Upd.ctxs_pendc (k : Nat) (v : Ctx) : ((Upd.ctxs k v).apply s).pendc = s.pendc := (rfl)
@[simp] theorem Upd.ctxs_goBy (k : Nat) (v : Ctx) : ((Upd.ctxs k v).apply s).goBy = s.goBy := (rfl)
@[simp] theorem Upd.ctxs_msix (k : Nat) (v : Ctx) : ((Upd.ctxs k v).apply s).msix = s.msix := (rfl)
@[simp] theorem Upd.ctxs_threads (k : Nat) (v : Ctx) : ((Upd.ctxs k v).apply s).threads = s.threads := (rfl)
@[simp] theorem Upd.ctxs_acts (k : Nat) (v : Ctx) : ((Upd.ctxs k v).apply s).acts = s.acts := (rfl)
@[simp] theorem Upd.ctxs_ready (k : Nat) (v : Ctx) : ((Upd.ctxs k v).apply s).ready = s.ready := (rfl)
@[simp] theorem Upd.ctxs_delay (k : Nat) (v : Ctx) : ((Upd.ctxs k v).apply s).delay = s.delay := (rfl)
@[simp] theorem Upd.ctxs_ctxs (k : Nat) (v : Ctx) : ((Upd.ctxs k v).apply s).ctxs = s.ctxs.put dfltCtxs k v := (rfl)
@[simp] theorem Upd.ctxs_banks (k : Nat) (v : Ctx) : ((Upd.ctxs k v).apply s).banks = s.banks := (rfl)
@[simp] theorem Upd.ctxs_fuq (k : Nat) (v : Ctx) : ((Upd.ctxs k v).apply s).fuq = s.fuq := (rfl)
@[simp] theorem Upd.ctxs_units (k : Nat) (v : Ctx) : ((Upd.ctxs k v).apply s).units = s.units := (rfl)
@[simp] theorem Upd.ctxs_hqueues (k : Nat) (v : Ctx) : ((Upd.ctxs k v).apply s).hqueues = s.hqueues := (rfl)
@[simp] theorem Upd.ctxs_icache (k : Nat) (v : Ctx) : ((Upd.ctxs k v).apply s).icache = s.icache := (rfl)
@[simp] theorem Upd.ctxs_learn (k : Nat) (v : Ctx) : ((Upd.ctxs k v).apply s).learn = s.learn := (rfl)
@[simp] theorem Upd.ctxs_engines (k : Nat) (v : Ctx) : ((Upd.ctxs k v).apply s).engines = s.engines := (rfl)
@[simp] theorem Upd.ctxs_dirRows (k : Nat) (v : Ctx) : ((Upd.ctxs k v).apply s).dirRows = s.dirRows := (rfl)
@[simp] theorem Upd.ctxs_dirShadow (k : Nat) (v : Ctx) : ((Upd.ctxs k v).apply s).dirShadow = s.dirShadow := (rfl)
@[simp] theorem Upd.ctxs_dir (k : Nat) (v : Ctx) : ((Upd.ctxs k v).apply s).dir = s.dir := (rfl)
@[simp] theorem Upd.ctxs_ddrs (k : Nat) (v : Ctx) : ((Upd.ctxs k v).apply s).ddrs = s.ddrs := (rfl)
@[simp] theorem Upd.ctxs_bufs (k : Nat) (v : Ctx) : ((Upd.ctxs k v).apply s).bufs = s.bufs := (rfl)
@[simp] theorem Upd.ctxs_pools (k : Nat) (v : Ctx) : ((Upd.ctxs k v).apply s).pools = s.pools := (rfl)
@[simp] theorem Upd.ctxs_chans (k : Nat) (v : Ctx) : ((Upd.ctxs k v).apply s).chans = s.chans := (rfl)
@[simp] theorem Upd.ctxs_locks (k : Nat) (v : Ctx) : ((Upd.ctxs k v).apply s).locks = s.locks := (rfl)
@[simp] theorem Upd.ctxs_streams (k : Nat) (v : Ctx) : ((Upd.ctxs k v).apply s).streams = s.streams := (rfl)
@[simp] theorem Upd.ctxs_ports (k : Nat) (v : Ctx) : ((Upd.ctxs k v).apply s).ports = s.ports := (rfl)
@[simp] theorem Upd.ctxs_pipes (k : Nat) (v : Ctx) : ((Upd.ctxs k v).apply s).pipes = s.pipes := (rfl)
@[simp] theorem Upd.ctxs_admitQ (k : Nat) (v : Ctx) : ((Upd.ctxs k v).apply s).admitQ = s.admitQ := (rfl)
@[simp] theorem Upd.ctxs_terms (k : Nat) (v : Ctx) : ((Upd.ctxs k v).apply s).terms = s.terms := (rfl)
@[simp] theorem Upd.ctxs_classes (k : Nat) (v : Ctx) : ((Upd.ctxs k v).apply s).classes = s.classes := (rfl)
@[simp] theorem Upd.ctxs_hostq (k : Nat) (v : Ctx) : ((Upd.ctxs k v).apply s).hostq = s.hostq := (rfl)
@[simp] theorem Upd.ctxs_ringLinks (k : Nat) (v : Ctx) : ((Upd.ctxs k v).apply s).ringLinks = s.ringLinks := (rfl)
@[simp] theorem Upd.ctxs_sq (k : Nat) (v : Ctx) : ((Upd.ctxs k v).apply s).sq = s.sq := (rfl)
@[simp] theorem Upd.ctxs_rc (k : Nat) (v : Ctx) : ((Upd.ctxs k v).apply s).rc = s.rc := (rfl)
@[simp] theorem Upd.ctxs_cw (k : Nat) (v : Ctx) : ((Upd.ctxs k v).apply s).cw = s.cw := (rfl)
@[simp] theorem Upd.ctxs_ring (k : Nat) (v : Ctx) : ((Upd.ctxs k v).apply s).ring = s.ring := (rfl)
@[simp] theorem Upd.ctxs_gb (k : Nat) (v : Ctx) : ((Upd.ctxs k v).apply s).gb = s.gb := (rfl)
@[simp] theorem Upd.ctxs_fc (k : Nat) (v : Ctx) : ((Upd.ctxs k v).apply s).fc = s.fc := (rfl)
@[simp] theorem Upd.ctxs_tb (k : Nat) (v : Ctx) : ((Upd.ctxs k v).apply s).tb = s.tb := (rfl)
@[simp] theorem Upd.ctxs_boot (k : Nat) (v : Ctx) : ((Upd.ctxs k v).apply s).boot = s.boot := (rfl)
@[simp] theorem Upd.ctxs_tap (k : Nat) (v : Ctx) : ((Upd.ctxs k v).apply s).tap = s.tap := (rfl)
@[simp] theorem Upd.ctxs_bg (k : Nat) (v : Ctx) : ((Upd.ctxs k v).apply s).bg = s.bg := (rfl)

@[simp] theorem Upd.banks_pending (k : Nat) (v : Bank) : ((Upd.banks k v).apply s).pending = s.pending := (rfl)
@[simp] theorem Upd.banks_free (k : Nat) (v : Bank) : ((Upd.banks k v).apply s).free = s.free := (rfl)
@[simp] theorem Upd.banks_outbox (k : Nat) (v : Bank) : ((Upd.banks k v).apply s).outbox = s.outbox := (rfl)
@[simp] theorem Upd.banks_mem (k : Nat) (v : Bank) : ((Upd.banks k v).apply s).mem = s.mem := (rfl)
@[simp] theorem Upd.banks_bad (k : Nat) (v : Bank) : ((Upd.banks k v).apply s).bad = s.bad := (rfl)
@[simp] theorem Upd.banks_desk (k : Nat) (v : Bank) : ((Upd.banks k v).apply s).desk = s.desk := (rfl)
@[simp] theorem Upd.banks_pg (k : Nat) (v : Bank) : ((Upd.banks k v).apply s).pg = s.pg := (rfl)
@[simp] theorem Upd.banks_regs (k : Nat) (v : Bank) : ((Upd.banks k v).apply s).regs = s.regs := (rfl)
@[simp] theorem Upd.banks_act (k : Nat) (v : Bank) : ((Upd.banks k v).apply s).act = s.act := (rfl)
@[simp] theorem Upd.banks_pendc (k : Nat) (v : Bank) : ((Upd.banks k v).apply s).pendc = s.pendc := (rfl)
@[simp] theorem Upd.banks_goBy (k : Nat) (v : Bank) : ((Upd.banks k v).apply s).goBy = s.goBy := (rfl)
@[simp] theorem Upd.banks_msix (k : Nat) (v : Bank) : ((Upd.banks k v).apply s).msix = s.msix := (rfl)
@[simp] theorem Upd.banks_threads (k : Nat) (v : Bank) : ((Upd.banks k v).apply s).threads = s.threads := (rfl)
@[simp] theorem Upd.banks_acts (k : Nat) (v : Bank) : ((Upd.banks k v).apply s).acts = s.acts := (rfl)
@[simp] theorem Upd.banks_ready (k : Nat) (v : Bank) : ((Upd.banks k v).apply s).ready = s.ready := (rfl)
@[simp] theorem Upd.banks_delay (k : Nat) (v : Bank) : ((Upd.banks k v).apply s).delay = s.delay := (rfl)
@[simp] theorem Upd.banks_ctxs (k : Nat) (v : Bank) : ((Upd.banks k v).apply s).ctxs = s.ctxs := (rfl)
@[simp] theorem Upd.banks_banks (k : Nat) (v : Bank) : ((Upd.banks k v).apply s).banks = s.banks.put dfltBanks k v := (rfl)
@[simp] theorem Upd.banks_fuq (k : Nat) (v : Bank) : ((Upd.banks k v).apply s).fuq = s.fuq := (rfl)
@[simp] theorem Upd.banks_units (k : Nat) (v : Bank) : ((Upd.banks k v).apply s).units = s.units := (rfl)
@[simp] theorem Upd.banks_hqueues (k : Nat) (v : Bank) : ((Upd.banks k v).apply s).hqueues = s.hqueues := (rfl)
@[simp] theorem Upd.banks_icache (k : Nat) (v : Bank) : ((Upd.banks k v).apply s).icache = s.icache := (rfl)
@[simp] theorem Upd.banks_learn (k : Nat) (v : Bank) : ((Upd.banks k v).apply s).learn = s.learn := (rfl)
@[simp] theorem Upd.banks_engines (k : Nat) (v : Bank) : ((Upd.banks k v).apply s).engines = s.engines := (rfl)
@[simp] theorem Upd.banks_dirRows (k : Nat) (v : Bank) : ((Upd.banks k v).apply s).dirRows = s.dirRows := (rfl)
@[simp] theorem Upd.banks_dirShadow (k : Nat) (v : Bank) : ((Upd.banks k v).apply s).dirShadow = s.dirShadow := (rfl)
@[simp] theorem Upd.banks_dir (k : Nat) (v : Bank) : ((Upd.banks k v).apply s).dir = s.dir := (rfl)
@[simp] theorem Upd.banks_ddrs (k : Nat) (v : Bank) : ((Upd.banks k v).apply s).ddrs = s.ddrs := (rfl)
@[simp] theorem Upd.banks_bufs (k : Nat) (v : Bank) : ((Upd.banks k v).apply s).bufs = s.bufs := (rfl)
@[simp] theorem Upd.banks_pools (k : Nat) (v : Bank) : ((Upd.banks k v).apply s).pools = s.pools := (rfl)
@[simp] theorem Upd.banks_chans (k : Nat) (v : Bank) : ((Upd.banks k v).apply s).chans = s.chans := (rfl)
@[simp] theorem Upd.banks_locks (k : Nat) (v : Bank) : ((Upd.banks k v).apply s).locks = s.locks := (rfl)
@[simp] theorem Upd.banks_streams (k : Nat) (v : Bank) : ((Upd.banks k v).apply s).streams = s.streams := (rfl)
@[simp] theorem Upd.banks_ports (k : Nat) (v : Bank) : ((Upd.banks k v).apply s).ports = s.ports := (rfl)
@[simp] theorem Upd.banks_pipes (k : Nat) (v : Bank) : ((Upd.banks k v).apply s).pipes = s.pipes := (rfl)
@[simp] theorem Upd.banks_admitQ (k : Nat) (v : Bank) : ((Upd.banks k v).apply s).admitQ = s.admitQ := (rfl)
@[simp] theorem Upd.banks_terms (k : Nat) (v : Bank) : ((Upd.banks k v).apply s).terms = s.terms := (rfl)
@[simp] theorem Upd.banks_classes (k : Nat) (v : Bank) : ((Upd.banks k v).apply s).classes = s.classes := (rfl)
@[simp] theorem Upd.banks_hostq (k : Nat) (v : Bank) : ((Upd.banks k v).apply s).hostq = s.hostq := (rfl)
@[simp] theorem Upd.banks_ringLinks (k : Nat) (v : Bank) : ((Upd.banks k v).apply s).ringLinks = s.ringLinks := (rfl)
@[simp] theorem Upd.banks_sq (k : Nat) (v : Bank) : ((Upd.banks k v).apply s).sq = s.sq := (rfl)
@[simp] theorem Upd.banks_rc (k : Nat) (v : Bank) : ((Upd.banks k v).apply s).rc = s.rc := (rfl)
@[simp] theorem Upd.banks_cw (k : Nat) (v : Bank) : ((Upd.banks k v).apply s).cw = s.cw := (rfl)
@[simp] theorem Upd.banks_ring (k : Nat) (v : Bank) : ((Upd.banks k v).apply s).ring = s.ring := (rfl)
@[simp] theorem Upd.banks_gb (k : Nat) (v : Bank) : ((Upd.banks k v).apply s).gb = s.gb := (rfl)
@[simp] theorem Upd.banks_fc (k : Nat) (v : Bank) : ((Upd.banks k v).apply s).fc = s.fc := (rfl)
@[simp] theorem Upd.banks_tb (k : Nat) (v : Bank) : ((Upd.banks k v).apply s).tb = s.tb := (rfl)
@[simp] theorem Upd.banks_boot (k : Nat) (v : Bank) : ((Upd.banks k v).apply s).boot = s.boot := (rfl)
@[simp] theorem Upd.banks_tap (k : Nat) (v : Bank) : ((Upd.banks k v).apply s).tap = s.tap := (rfl)
@[simp] theorem Upd.banks_bg (k : Nat) (v : Bank) : ((Upd.banks k v).apply s).bg = s.bg := (rfl)

@[simp] theorem Upd.fuq_pending (k : Nat) (v : List FuItem) : ((Upd.fuq k v).apply s).pending = s.pending := (rfl)
@[simp] theorem Upd.fuq_free (k : Nat) (v : List FuItem) : ((Upd.fuq k v).apply s).free = s.free := (rfl)
@[simp] theorem Upd.fuq_outbox (k : Nat) (v : List FuItem) : ((Upd.fuq k v).apply s).outbox = s.outbox := (rfl)
@[simp] theorem Upd.fuq_mem (k : Nat) (v : List FuItem) : ((Upd.fuq k v).apply s).mem = s.mem := (rfl)
@[simp] theorem Upd.fuq_bad (k : Nat) (v : List FuItem) : ((Upd.fuq k v).apply s).bad = s.bad := (rfl)
@[simp] theorem Upd.fuq_desk (k : Nat) (v : List FuItem) : ((Upd.fuq k v).apply s).desk = s.desk := (rfl)
@[simp] theorem Upd.fuq_pg (k : Nat) (v : List FuItem) : ((Upd.fuq k v).apply s).pg = s.pg := (rfl)
@[simp] theorem Upd.fuq_regs (k : Nat) (v : List FuItem) : ((Upd.fuq k v).apply s).regs = s.regs := (rfl)
@[simp] theorem Upd.fuq_act (k : Nat) (v : List FuItem) : ((Upd.fuq k v).apply s).act = s.act := (rfl)
@[simp] theorem Upd.fuq_pendc (k : Nat) (v : List FuItem) : ((Upd.fuq k v).apply s).pendc = s.pendc := (rfl)
@[simp] theorem Upd.fuq_goBy (k : Nat) (v : List FuItem) : ((Upd.fuq k v).apply s).goBy = s.goBy := (rfl)
@[simp] theorem Upd.fuq_msix (k : Nat) (v : List FuItem) : ((Upd.fuq k v).apply s).msix = s.msix := (rfl)
@[simp] theorem Upd.fuq_threads (k : Nat) (v : List FuItem) : ((Upd.fuq k v).apply s).threads = s.threads := (rfl)
@[simp] theorem Upd.fuq_acts (k : Nat) (v : List FuItem) : ((Upd.fuq k v).apply s).acts = s.acts := (rfl)
@[simp] theorem Upd.fuq_ready (k : Nat) (v : List FuItem) : ((Upd.fuq k v).apply s).ready = s.ready := (rfl)
@[simp] theorem Upd.fuq_delay (k : Nat) (v : List FuItem) : ((Upd.fuq k v).apply s).delay = s.delay := (rfl)
@[simp] theorem Upd.fuq_ctxs (k : Nat) (v : List FuItem) : ((Upd.fuq k v).apply s).ctxs = s.ctxs := (rfl)
@[simp] theorem Upd.fuq_banks (k : Nat) (v : List FuItem) : ((Upd.fuq k v).apply s).banks = s.banks := (rfl)
@[simp] theorem Upd.fuq_fuq (k : Nat) (v : List FuItem) : ((Upd.fuq k v).apply s).fuq = s.fuq.put dfltFuq k v := (rfl)
@[simp] theorem Upd.fuq_units (k : Nat) (v : List FuItem) : ((Upd.fuq k v).apply s).units = s.units := (rfl)
@[simp] theorem Upd.fuq_hqueues (k : Nat) (v : List FuItem) : ((Upd.fuq k v).apply s).hqueues = s.hqueues := (rfl)
@[simp] theorem Upd.fuq_icache (k : Nat) (v : List FuItem) : ((Upd.fuq k v).apply s).icache = s.icache := (rfl)
@[simp] theorem Upd.fuq_learn (k : Nat) (v : List FuItem) : ((Upd.fuq k v).apply s).learn = s.learn := (rfl)
@[simp] theorem Upd.fuq_engines (k : Nat) (v : List FuItem) : ((Upd.fuq k v).apply s).engines = s.engines := (rfl)
@[simp] theorem Upd.fuq_dirRows (k : Nat) (v : List FuItem) : ((Upd.fuq k v).apply s).dirRows = s.dirRows := (rfl)
@[simp] theorem Upd.fuq_dirShadow (k : Nat) (v : List FuItem) : ((Upd.fuq k v).apply s).dirShadow = s.dirShadow := (rfl)
@[simp] theorem Upd.fuq_dir (k : Nat) (v : List FuItem) : ((Upd.fuq k v).apply s).dir = s.dir := (rfl)
@[simp] theorem Upd.fuq_ddrs (k : Nat) (v : List FuItem) : ((Upd.fuq k v).apply s).ddrs = s.ddrs := (rfl)
@[simp] theorem Upd.fuq_bufs (k : Nat) (v : List FuItem) : ((Upd.fuq k v).apply s).bufs = s.bufs := (rfl)
@[simp] theorem Upd.fuq_pools (k : Nat) (v : List FuItem) : ((Upd.fuq k v).apply s).pools = s.pools := (rfl)
@[simp] theorem Upd.fuq_chans (k : Nat) (v : List FuItem) : ((Upd.fuq k v).apply s).chans = s.chans := (rfl)
@[simp] theorem Upd.fuq_locks (k : Nat) (v : List FuItem) : ((Upd.fuq k v).apply s).locks = s.locks := (rfl)
@[simp] theorem Upd.fuq_streams (k : Nat) (v : List FuItem) : ((Upd.fuq k v).apply s).streams = s.streams := (rfl)
@[simp] theorem Upd.fuq_ports (k : Nat) (v : List FuItem) : ((Upd.fuq k v).apply s).ports = s.ports := (rfl)
@[simp] theorem Upd.fuq_pipes (k : Nat) (v : List FuItem) : ((Upd.fuq k v).apply s).pipes = s.pipes := (rfl)
@[simp] theorem Upd.fuq_admitQ (k : Nat) (v : List FuItem) : ((Upd.fuq k v).apply s).admitQ = s.admitQ := (rfl)
@[simp] theorem Upd.fuq_terms (k : Nat) (v : List FuItem) : ((Upd.fuq k v).apply s).terms = s.terms := (rfl)
@[simp] theorem Upd.fuq_classes (k : Nat) (v : List FuItem) : ((Upd.fuq k v).apply s).classes = s.classes := (rfl)
@[simp] theorem Upd.fuq_hostq (k : Nat) (v : List FuItem) : ((Upd.fuq k v).apply s).hostq = s.hostq := (rfl)
@[simp] theorem Upd.fuq_ringLinks (k : Nat) (v : List FuItem) : ((Upd.fuq k v).apply s).ringLinks = s.ringLinks := (rfl)
@[simp] theorem Upd.fuq_sq (k : Nat) (v : List FuItem) : ((Upd.fuq k v).apply s).sq = s.sq := (rfl)
@[simp] theorem Upd.fuq_rc (k : Nat) (v : List FuItem) : ((Upd.fuq k v).apply s).rc = s.rc := (rfl)
@[simp] theorem Upd.fuq_cw (k : Nat) (v : List FuItem) : ((Upd.fuq k v).apply s).cw = s.cw := (rfl)
@[simp] theorem Upd.fuq_ring (k : Nat) (v : List FuItem) : ((Upd.fuq k v).apply s).ring = s.ring := (rfl)
@[simp] theorem Upd.fuq_gb (k : Nat) (v : List FuItem) : ((Upd.fuq k v).apply s).gb = s.gb := (rfl)
@[simp] theorem Upd.fuq_fc (k : Nat) (v : List FuItem) : ((Upd.fuq k v).apply s).fc = s.fc := (rfl)
@[simp] theorem Upd.fuq_tb (k : Nat) (v : List FuItem) : ((Upd.fuq k v).apply s).tb = s.tb := (rfl)
@[simp] theorem Upd.fuq_boot (k : Nat) (v : List FuItem) : ((Upd.fuq k v).apply s).boot = s.boot := (rfl)
@[simp] theorem Upd.fuq_tap (k : Nat) (v : List FuItem) : ((Upd.fuq k v).apply s).tap = s.tap := (rfl)
@[simp] theorem Upd.fuq_bg (k : Nat) (v : List FuItem) : ((Upd.fuq k v).apply s).bg = s.bg := (rfl)

@[simp] theorem Upd.units_pending (k : Nat) (v : Option HelperRun) : ((Upd.units k v).apply s).pending = s.pending := (rfl)
@[simp] theorem Upd.units_free (k : Nat) (v : Option HelperRun) : ((Upd.units k v).apply s).free = s.free := (rfl)
@[simp] theorem Upd.units_outbox (k : Nat) (v : Option HelperRun) : ((Upd.units k v).apply s).outbox = s.outbox := (rfl)
@[simp] theorem Upd.units_mem (k : Nat) (v : Option HelperRun) : ((Upd.units k v).apply s).mem = s.mem := (rfl)
@[simp] theorem Upd.units_bad (k : Nat) (v : Option HelperRun) : ((Upd.units k v).apply s).bad = s.bad := (rfl)
@[simp] theorem Upd.units_desk (k : Nat) (v : Option HelperRun) : ((Upd.units k v).apply s).desk = s.desk := (rfl)
@[simp] theorem Upd.units_pg (k : Nat) (v : Option HelperRun) : ((Upd.units k v).apply s).pg = s.pg := (rfl)
@[simp] theorem Upd.units_regs (k : Nat) (v : Option HelperRun) : ((Upd.units k v).apply s).regs = s.regs := (rfl)
@[simp] theorem Upd.units_act (k : Nat) (v : Option HelperRun) : ((Upd.units k v).apply s).act = s.act := (rfl)
@[simp] theorem Upd.units_pendc (k : Nat) (v : Option HelperRun) : ((Upd.units k v).apply s).pendc = s.pendc := (rfl)
@[simp] theorem Upd.units_goBy (k : Nat) (v : Option HelperRun) : ((Upd.units k v).apply s).goBy = s.goBy := (rfl)
@[simp] theorem Upd.units_msix (k : Nat) (v : Option HelperRun) : ((Upd.units k v).apply s).msix = s.msix := (rfl)
@[simp] theorem Upd.units_threads (k : Nat) (v : Option HelperRun) : ((Upd.units k v).apply s).threads = s.threads := (rfl)
@[simp] theorem Upd.units_acts (k : Nat) (v : Option HelperRun) : ((Upd.units k v).apply s).acts = s.acts := (rfl)
@[simp] theorem Upd.units_ready (k : Nat) (v : Option HelperRun) : ((Upd.units k v).apply s).ready = s.ready := (rfl)
@[simp] theorem Upd.units_delay (k : Nat) (v : Option HelperRun) : ((Upd.units k v).apply s).delay = s.delay := (rfl)
@[simp] theorem Upd.units_ctxs (k : Nat) (v : Option HelperRun) : ((Upd.units k v).apply s).ctxs = s.ctxs := (rfl)
@[simp] theorem Upd.units_banks (k : Nat) (v : Option HelperRun) : ((Upd.units k v).apply s).banks = s.banks := (rfl)
@[simp] theorem Upd.units_fuq (k : Nat) (v : Option HelperRun) : ((Upd.units k v).apply s).fuq = s.fuq := (rfl)
@[simp] theorem Upd.units_units (k : Nat) (v : Option HelperRun) : ((Upd.units k v).apply s).units = s.units.put dfltUnits k v := (rfl)
@[simp] theorem Upd.units_hqueues (k : Nat) (v : Option HelperRun) : ((Upd.units k v).apply s).hqueues = s.hqueues := (rfl)
@[simp] theorem Upd.units_icache (k : Nat) (v : Option HelperRun) : ((Upd.units k v).apply s).icache = s.icache := (rfl)
@[simp] theorem Upd.units_learn (k : Nat) (v : Option HelperRun) : ((Upd.units k v).apply s).learn = s.learn := (rfl)
@[simp] theorem Upd.units_engines (k : Nat) (v : Option HelperRun) : ((Upd.units k v).apply s).engines = s.engines := (rfl)
@[simp] theorem Upd.units_dirRows (k : Nat) (v : Option HelperRun) : ((Upd.units k v).apply s).dirRows = s.dirRows := (rfl)
@[simp] theorem Upd.units_dirShadow (k : Nat) (v : Option HelperRun) : ((Upd.units k v).apply s).dirShadow = s.dirShadow := (rfl)
@[simp] theorem Upd.units_dir (k : Nat) (v : Option HelperRun) : ((Upd.units k v).apply s).dir = s.dir := (rfl)
@[simp] theorem Upd.units_ddrs (k : Nat) (v : Option HelperRun) : ((Upd.units k v).apply s).ddrs = s.ddrs := (rfl)
@[simp] theorem Upd.units_bufs (k : Nat) (v : Option HelperRun) : ((Upd.units k v).apply s).bufs = s.bufs := (rfl)
@[simp] theorem Upd.units_pools (k : Nat) (v : Option HelperRun) : ((Upd.units k v).apply s).pools = s.pools := (rfl)
@[simp] theorem Upd.units_chans (k : Nat) (v : Option HelperRun) : ((Upd.units k v).apply s).chans = s.chans := (rfl)
@[simp] theorem Upd.units_locks (k : Nat) (v : Option HelperRun) : ((Upd.units k v).apply s).locks = s.locks := (rfl)
@[simp] theorem Upd.units_streams (k : Nat) (v : Option HelperRun) : ((Upd.units k v).apply s).streams = s.streams := (rfl)
@[simp] theorem Upd.units_ports (k : Nat) (v : Option HelperRun) : ((Upd.units k v).apply s).ports = s.ports := (rfl)
@[simp] theorem Upd.units_pipes (k : Nat) (v : Option HelperRun) : ((Upd.units k v).apply s).pipes = s.pipes := (rfl)
@[simp] theorem Upd.units_admitQ (k : Nat) (v : Option HelperRun) : ((Upd.units k v).apply s).admitQ = s.admitQ := (rfl)
@[simp] theorem Upd.units_terms (k : Nat) (v : Option HelperRun) : ((Upd.units k v).apply s).terms = s.terms := (rfl)
@[simp] theorem Upd.units_classes (k : Nat) (v : Option HelperRun) : ((Upd.units k v).apply s).classes = s.classes := (rfl)
@[simp] theorem Upd.units_hostq (k : Nat) (v : Option HelperRun) : ((Upd.units k v).apply s).hostq = s.hostq := (rfl)
@[simp] theorem Upd.units_ringLinks (k : Nat) (v : Option HelperRun) : ((Upd.units k v).apply s).ringLinks = s.ringLinks := (rfl)
@[simp] theorem Upd.units_sq (k : Nat) (v : Option HelperRun) : ((Upd.units k v).apply s).sq = s.sq := (rfl)
@[simp] theorem Upd.units_rc (k : Nat) (v : Option HelperRun) : ((Upd.units k v).apply s).rc = s.rc := (rfl)
@[simp] theorem Upd.units_cw (k : Nat) (v : Option HelperRun) : ((Upd.units k v).apply s).cw = s.cw := (rfl)
@[simp] theorem Upd.units_ring (k : Nat) (v : Option HelperRun) : ((Upd.units k v).apply s).ring = s.ring := (rfl)
@[simp] theorem Upd.units_gb (k : Nat) (v : Option HelperRun) : ((Upd.units k v).apply s).gb = s.gb := (rfl)
@[simp] theorem Upd.units_fc (k : Nat) (v : Option HelperRun) : ((Upd.units k v).apply s).fc = s.fc := (rfl)
@[simp] theorem Upd.units_tb (k : Nat) (v : Option HelperRun) : ((Upd.units k v).apply s).tb = s.tb := (rfl)
@[simp] theorem Upd.units_boot (k : Nat) (v : Option HelperRun) : ((Upd.units k v).apply s).boot = s.boot := (rfl)
@[simp] theorem Upd.units_tap (k : Nat) (v : Option HelperRun) : ((Upd.units k v).apply s).tap = s.tap := (rfl)
@[simp] theorem Upd.units_bg (k : Nat) (v : Option HelperRun) : ((Upd.units k v).apply s).bg = s.bg := (rfl)

@[simp] theorem Upd.hqueues_pending (k : Nat) (v : List HelperWait) : ((Upd.hqueues k v).apply s).pending = s.pending := (rfl)
@[simp] theorem Upd.hqueues_free (k : Nat) (v : List HelperWait) : ((Upd.hqueues k v).apply s).free = s.free := (rfl)
@[simp] theorem Upd.hqueues_outbox (k : Nat) (v : List HelperWait) : ((Upd.hqueues k v).apply s).outbox = s.outbox := (rfl)
@[simp] theorem Upd.hqueues_mem (k : Nat) (v : List HelperWait) : ((Upd.hqueues k v).apply s).mem = s.mem := (rfl)
@[simp] theorem Upd.hqueues_bad (k : Nat) (v : List HelperWait) : ((Upd.hqueues k v).apply s).bad = s.bad := (rfl)
@[simp] theorem Upd.hqueues_desk (k : Nat) (v : List HelperWait) : ((Upd.hqueues k v).apply s).desk = s.desk := (rfl)
@[simp] theorem Upd.hqueues_pg (k : Nat) (v : List HelperWait) : ((Upd.hqueues k v).apply s).pg = s.pg := (rfl)
@[simp] theorem Upd.hqueues_regs (k : Nat) (v : List HelperWait) : ((Upd.hqueues k v).apply s).regs = s.regs := (rfl)
@[simp] theorem Upd.hqueues_act (k : Nat) (v : List HelperWait) : ((Upd.hqueues k v).apply s).act = s.act := (rfl)
@[simp] theorem Upd.hqueues_pendc (k : Nat) (v : List HelperWait) : ((Upd.hqueues k v).apply s).pendc = s.pendc := (rfl)
@[simp] theorem Upd.hqueues_goBy (k : Nat) (v : List HelperWait) : ((Upd.hqueues k v).apply s).goBy = s.goBy := (rfl)
@[simp] theorem Upd.hqueues_msix (k : Nat) (v : List HelperWait) : ((Upd.hqueues k v).apply s).msix = s.msix := (rfl)
@[simp] theorem Upd.hqueues_threads (k : Nat) (v : List HelperWait) : ((Upd.hqueues k v).apply s).threads = s.threads := (rfl)
@[simp] theorem Upd.hqueues_acts (k : Nat) (v : List HelperWait) : ((Upd.hqueues k v).apply s).acts = s.acts := (rfl)
@[simp] theorem Upd.hqueues_ready (k : Nat) (v : List HelperWait) : ((Upd.hqueues k v).apply s).ready = s.ready := (rfl)
@[simp] theorem Upd.hqueues_delay (k : Nat) (v : List HelperWait) : ((Upd.hqueues k v).apply s).delay = s.delay := (rfl)
@[simp] theorem Upd.hqueues_ctxs (k : Nat) (v : List HelperWait) : ((Upd.hqueues k v).apply s).ctxs = s.ctxs := (rfl)
@[simp] theorem Upd.hqueues_banks (k : Nat) (v : List HelperWait) : ((Upd.hqueues k v).apply s).banks = s.banks := (rfl)
@[simp] theorem Upd.hqueues_fuq (k : Nat) (v : List HelperWait) : ((Upd.hqueues k v).apply s).fuq = s.fuq := (rfl)
@[simp] theorem Upd.hqueues_units (k : Nat) (v : List HelperWait) : ((Upd.hqueues k v).apply s).units = s.units := (rfl)
@[simp] theorem Upd.hqueues_hqueues (k : Nat) (v : List HelperWait) : ((Upd.hqueues k v).apply s).hqueues = s.hqueues.put dfltHqueues k v := (rfl)
@[simp] theorem Upd.hqueues_icache (k : Nat) (v : List HelperWait) : ((Upd.hqueues k v).apply s).icache = s.icache := (rfl)
@[simp] theorem Upd.hqueues_learn (k : Nat) (v : List HelperWait) : ((Upd.hqueues k v).apply s).learn = s.learn := (rfl)
@[simp] theorem Upd.hqueues_engines (k : Nat) (v : List HelperWait) : ((Upd.hqueues k v).apply s).engines = s.engines := (rfl)
@[simp] theorem Upd.hqueues_dirRows (k : Nat) (v : List HelperWait) : ((Upd.hqueues k v).apply s).dirRows = s.dirRows := (rfl)
@[simp] theorem Upd.hqueues_dirShadow (k : Nat) (v : List HelperWait) : ((Upd.hqueues k v).apply s).dirShadow = s.dirShadow := (rfl)
@[simp] theorem Upd.hqueues_dir (k : Nat) (v : List HelperWait) : ((Upd.hqueues k v).apply s).dir = s.dir := (rfl)
@[simp] theorem Upd.hqueues_ddrs (k : Nat) (v : List HelperWait) : ((Upd.hqueues k v).apply s).ddrs = s.ddrs := (rfl)
@[simp] theorem Upd.hqueues_bufs (k : Nat) (v : List HelperWait) : ((Upd.hqueues k v).apply s).bufs = s.bufs := (rfl)
@[simp] theorem Upd.hqueues_pools (k : Nat) (v : List HelperWait) : ((Upd.hqueues k v).apply s).pools = s.pools := (rfl)
@[simp] theorem Upd.hqueues_chans (k : Nat) (v : List HelperWait) : ((Upd.hqueues k v).apply s).chans = s.chans := (rfl)
@[simp] theorem Upd.hqueues_locks (k : Nat) (v : List HelperWait) : ((Upd.hqueues k v).apply s).locks = s.locks := (rfl)
@[simp] theorem Upd.hqueues_streams (k : Nat) (v : List HelperWait) : ((Upd.hqueues k v).apply s).streams = s.streams := (rfl)
@[simp] theorem Upd.hqueues_ports (k : Nat) (v : List HelperWait) : ((Upd.hqueues k v).apply s).ports = s.ports := (rfl)
@[simp] theorem Upd.hqueues_pipes (k : Nat) (v : List HelperWait) : ((Upd.hqueues k v).apply s).pipes = s.pipes := (rfl)
@[simp] theorem Upd.hqueues_admitQ (k : Nat) (v : List HelperWait) : ((Upd.hqueues k v).apply s).admitQ = s.admitQ := (rfl)
@[simp] theorem Upd.hqueues_terms (k : Nat) (v : List HelperWait) : ((Upd.hqueues k v).apply s).terms = s.terms := (rfl)
@[simp] theorem Upd.hqueues_classes (k : Nat) (v : List HelperWait) : ((Upd.hqueues k v).apply s).classes = s.classes := (rfl)
@[simp] theorem Upd.hqueues_hostq (k : Nat) (v : List HelperWait) : ((Upd.hqueues k v).apply s).hostq = s.hostq := (rfl)
@[simp] theorem Upd.hqueues_ringLinks (k : Nat) (v : List HelperWait) : ((Upd.hqueues k v).apply s).ringLinks = s.ringLinks := (rfl)
@[simp] theorem Upd.hqueues_sq (k : Nat) (v : List HelperWait) : ((Upd.hqueues k v).apply s).sq = s.sq := (rfl)
@[simp] theorem Upd.hqueues_rc (k : Nat) (v : List HelperWait) : ((Upd.hqueues k v).apply s).rc = s.rc := (rfl)
@[simp] theorem Upd.hqueues_cw (k : Nat) (v : List HelperWait) : ((Upd.hqueues k v).apply s).cw = s.cw := (rfl)
@[simp] theorem Upd.hqueues_ring (k : Nat) (v : List HelperWait) : ((Upd.hqueues k v).apply s).ring = s.ring := (rfl)
@[simp] theorem Upd.hqueues_gb (k : Nat) (v : List HelperWait) : ((Upd.hqueues k v).apply s).gb = s.gb := (rfl)
@[simp] theorem Upd.hqueues_fc (k : Nat) (v : List HelperWait) : ((Upd.hqueues k v).apply s).fc = s.fc := (rfl)
@[simp] theorem Upd.hqueues_tb (k : Nat) (v : List HelperWait) : ((Upd.hqueues k v).apply s).tb = s.tb := (rfl)
@[simp] theorem Upd.hqueues_boot (k : Nat) (v : List HelperWait) : ((Upd.hqueues k v).apply s).boot = s.boot := (rfl)
@[simp] theorem Upd.hqueues_tap (k : Nat) (v : List HelperWait) : ((Upd.hqueues k v).apply s).tap = s.tap := (rfl)
@[simp] theorem Upd.hqueues_bg (k : Nat) (v : List HelperWait) : ((Upd.hqueues k v).apply s).bg = s.bg := (rfl)

@[simp] theorem Upd.icache_pending (k : Nat) (v : List Byte) : ((Upd.icache k v).apply s).pending = s.pending := (rfl)
@[simp] theorem Upd.icache_free (k : Nat) (v : List Byte) : ((Upd.icache k v).apply s).free = s.free := (rfl)
@[simp] theorem Upd.icache_outbox (k : Nat) (v : List Byte) : ((Upd.icache k v).apply s).outbox = s.outbox := (rfl)
@[simp] theorem Upd.icache_mem (k : Nat) (v : List Byte) : ((Upd.icache k v).apply s).mem = s.mem := (rfl)
@[simp] theorem Upd.icache_bad (k : Nat) (v : List Byte) : ((Upd.icache k v).apply s).bad = s.bad := (rfl)
@[simp] theorem Upd.icache_desk (k : Nat) (v : List Byte) : ((Upd.icache k v).apply s).desk = s.desk := (rfl)
@[simp] theorem Upd.icache_pg (k : Nat) (v : List Byte) : ((Upd.icache k v).apply s).pg = s.pg := (rfl)
@[simp] theorem Upd.icache_regs (k : Nat) (v : List Byte) : ((Upd.icache k v).apply s).regs = s.regs := (rfl)
@[simp] theorem Upd.icache_act (k : Nat) (v : List Byte) : ((Upd.icache k v).apply s).act = s.act := (rfl)
@[simp] theorem Upd.icache_pendc (k : Nat) (v : List Byte) : ((Upd.icache k v).apply s).pendc = s.pendc := (rfl)
@[simp] theorem Upd.icache_goBy (k : Nat) (v : List Byte) : ((Upd.icache k v).apply s).goBy = s.goBy := (rfl)
@[simp] theorem Upd.icache_msix (k : Nat) (v : List Byte) : ((Upd.icache k v).apply s).msix = s.msix := (rfl)
@[simp] theorem Upd.icache_threads (k : Nat) (v : List Byte) : ((Upd.icache k v).apply s).threads = s.threads := (rfl)
@[simp] theorem Upd.icache_acts (k : Nat) (v : List Byte) : ((Upd.icache k v).apply s).acts = s.acts := (rfl)
@[simp] theorem Upd.icache_ready (k : Nat) (v : List Byte) : ((Upd.icache k v).apply s).ready = s.ready := (rfl)
@[simp] theorem Upd.icache_delay (k : Nat) (v : List Byte) : ((Upd.icache k v).apply s).delay = s.delay := (rfl)
@[simp] theorem Upd.icache_ctxs (k : Nat) (v : List Byte) : ((Upd.icache k v).apply s).ctxs = s.ctxs := (rfl)
@[simp] theorem Upd.icache_banks (k : Nat) (v : List Byte) : ((Upd.icache k v).apply s).banks = s.banks := (rfl)
@[simp] theorem Upd.icache_fuq (k : Nat) (v : List Byte) : ((Upd.icache k v).apply s).fuq = s.fuq := (rfl)
@[simp] theorem Upd.icache_units (k : Nat) (v : List Byte) : ((Upd.icache k v).apply s).units = s.units := (rfl)
@[simp] theorem Upd.icache_hqueues (k : Nat) (v : List Byte) : ((Upd.icache k v).apply s).hqueues = s.hqueues := (rfl)
@[simp] theorem Upd.icache_icache (k : Nat) (v : List Byte) : ((Upd.icache k v).apply s).icache = s.icache.put dfltIcache k v := (rfl)
@[simp] theorem Upd.icache_learn (k : Nat) (v : List Byte) : ((Upd.icache k v).apply s).learn = s.learn := (rfl)
@[simp] theorem Upd.icache_engines (k : Nat) (v : List Byte) : ((Upd.icache k v).apply s).engines = s.engines := (rfl)
@[simp] theorem Upd.icache_dirRows (k : Nat) (v : List Byte) : ((Upd.icache k v).apply s).dirRows = s.dirRows := (rfl)
@[simp] theorem Upd.icache_dirShadow (k : Nat) (v : List Byte) : ((Upd.icache k v).apply s).dirShadow = s.dirShadow := (rfl)
@[simp] theorem Upd.icache_dir (k : Nat) (v : List Byte) : ((Upd.icache k v).apply s).dir = s.dir := (rfl)
@[simp] theorem Upd.icache_ddrs (k : Nat) (v : List Byte) : ((Upd.icache k v).apply s).ddrs = s.ddrs := (rfl)
@[simp] theorem Upd.icache_bufs (k : Nat) (v : List Byte) : ((Upd.icache k v).apply s).bufs = s.bufs := (rfl)
@[simp] theorem Upd.icache_pools (k : Nat) (v : List Byte) : ((Upd.icache k v).apply s).pools = s.pools := (rfl)
@[simp] theorem Upd.icache_chans (k : Nat) (v : List Byte) : ((Upd.icache k v).apply s).chans = s.chans := (rfl)
@[simp] theorem Upd.icache_locks (k : Nat) (v : List Byte) : ((Upd.icache k v).apply s).locks = s.locks := (rfl)
@[simp] theorem Upd.icache_streams (k : Nat) (v : List Byte) : ((Upd.icache k v).apply s).streams = s.streams := (rfl)
@[simp] theorem Upd.icache_ports (k : Nat) (v : List Byte) : ((Upd.icache k v).apply s).ports = s.ports := (rfl)
@[simp] theorem Upd.icache_pipes (k : Nat) (v : List Byte) : ((Upd.icache k v).apply s).pipes = s.pipes := (rfl)
@[simp] theorem Upd.icache_admitQ (k : Nat) (v : List Byte) : ((Upd.icache k v).apply s).admitQ = s.admitQ := (rfl)
@[simp] theorem Upd.icache_terms (k : Nat) (v : List Byte) : ((Upd.icache k v).apply s).terms = s.terms := (rfl)
@[simp] theorem Upd.icache_classes (k : Nat) (v : List Byte) : ((Upd.icache k v).apply s).classes = s.classes := (rfl)
@[simp] theorem Upd.icache_hostq (k : Nat) (v : List Byte) : ((Upd.icache k v).apply s).hostq = s.hostq := (rfl)
@[simp] theorem Upd.icache_ringLinks (k : Nat) (v : List Byte) : ((Upd.icache k v).apply s).ringLinks = s.ringLinks := (rfl)
@[simp] theorem Upd.icache_sq (k : Nat) (v : List Byte) : ((Upd.icache k v).apply s).sq = s.sq := (rfl)
@[simp] theorem Upd.icache_rc (k : Nat) (v : List Byte) : ((Upd.icache k v).apply s).rc = s.rc := (rfl)
@[simp] theorem Upd.icache_cw (k : Nat) (v : List Byte) : ((Upd.icache k v).apply s).cw = s.cw := (rfl)
@[simp] theorem Upd.icache_ring (k : Nat) (v : List Byte) : ((Upd.icache k v).apply s).ring = s.ring := (rfl)
@[simp] theorem Upd.icache_gb (k : Nat) (v : List Byte) : ((Upd.icache k v).apply s).gb = s.gb := (rfl)
@[simp] theorem Upd.icache_fc (k : Nat) (v : List Byte) : ((Upd.icache k v).apply s).fc = s.fc := (rfl)
@[simp] theorem Upd.icache_tb (k : Nat) (v : List Byte) : ((Upd.icache k v).apply s).tb = s.tb := (rfl)
@[simp] theorem Upd.icache_boot (k : Nat) (v : List Byte) : ((Upd.icache k v).apply s).boot = s.boot := (rfl)
@[simp] theorem Upd.icache_tap (k : Nat) (v : List Byte) : ((Upd.icache k v).apply s).tap = s.tap := (rfl)
@[simp] theorem Upd.icache_bg (k : Nat) (v : List Byte) : ((Upd.icache k v).apply s).bg = s.bg := (rfl)

@[simp] theorem Upd.learn_pending (k : Nat) (v : Option Nat) : ((Upd.learn k v).apply s).pending = s.pending := (rfl)
@[simp] theorem Upd.learn_free (k : Nat) (v : Option Nat) : ((Upd.learn k v).apply s).free = s.free := (rfl)
@[simp] theorem Upd.learn_outbox (k : Nat) (v : Option Nat) : ((Upd.learn k v).apply s).outbox = s.outbox := (rfl)
@[simp] theorem Upd.learn_mem (k : Nat) (v : Option Nat) : ((Upd.learn k v).apply s).mem = s.mem := (rfl)
@[simp] theorem Upd.learn_bad (k : Nat) (v : Option Nat) : ((Upd.learn k v).apply s).bad = s.bad := (rfl)
@[simp] theorem Upd.learn_desk (k : Nat) (v : Option Nat) : ((Upd.learn k v).apply s).desk = s.desk := (rfl)
@[simp] theorem Upd.learn_pg (k : Nat) (v : Option Nat) : ((Upd.learn k v).apply s).pg = s.pg := (rfl)
@[simp] theorem Upd.learn_regs (k : Nat) (v : Option Nat) : ((Upd.learn k v).apply s).regs = s.regs := (rfl)
@[simp] theorem Upd.learn_act (k : Nat) (v : Option Nat) : ((Upd.learn k v).apply s).act = s.act := (rfl)
@[simp] theorem Upd.learn_pendc (k : Nat) (v : Option Nat) : ((Upd.learn k v).apply s).pendc = s.pendc := (rfl)
@[simp] theorem Upd.learn_goBy (k : Nat) (v : Option Nat) : ((Upd.learn k v).apply s).goBy = s.goBy := (rfl)
@[simp] theorem Upd.learn_msix (k : Nat) (v : Option Nat) : ((Upd.learn k v).apply s).msix = s.msix := (rfl)
@[simp] theorem Upd.learn_threads (k : Nat) (v : Option Nat) : ((Upd.learn k v).apply s).threads = s.threads := (rfl)
@[simp] theorem Upd.learn_acts (k : Nat) (v : Option Nat) : ((Upd.learn k v).apply s).acts = s.acts := (rfl)
@[simp] theorem Upd.learn_ready (k : Nat) (v : Option Nat) : ((Upd.learn k v).apply s).ready = s.ready := (rfl)
@[simp] theorem Upd.learn_delay (k : Nat) (v : Option Nat) : ((Upd.learn k v).apply s).delay = s.delay := (rfl)
@[simp] theorem Upd.learn_ctxs (k : Nat) (v : Option Nat) : ((Upd.learn k v).apply s).ctxs = s.ctxs := (rfl)
@[simp] theorem Upd.learn_banks (k : Nat) (v : Option Nat) : ((Upd.learn k v).apply s).banks = s.banks := (rfl)
@[simp] theorem Upd.learn_fuq (k : Nat) (v : Option Nat) : ((Upd.learn k v).apply s).fuq = s.fuq := (rfl)
@[simp] theorem Upd.learn_units (k : Nat) (v : Option Nat) : ((Upd.learn k v).apply s).units = s.units := (rfl)
@[simp] theorem Upd.learn_hqueues (k : Nat) (v : Option Nat) : ((Upd.learn k v).apply s).hqueues = s.hqueues := (rfl)
@[simp] theorem Upd.learn_icache (k : Nat) (v : Option Nat) : ((Upd.learn k v).apply s).icache = s.icache := (rfl)
@[simp] theorem Upd.learn_learn (k : Nat) (v : Option Nat) : ((Upd.learn k v).apply s).learn = s.learn.put dfltLearn k v := (rfl)
@[simp] theorem Upd.learn_engines (k : Nat) (v : Option Nat) : ((Upd.learn k v).apply s).engines = s.engines := (rfl)
@[simp] theorem Upd.learn_dirRows (k : Nat) (v : Option Nat) : ((Upd.learn k v).apply s).dirRows = s.dirRows := (rfl)
@[simp] theorem Upd.learn_dirShadow (k : Nat) (v : Option Nat) : ((Upd.learn k v).apply s).dirShadow = s.dirShadow := (rfl)
@[simp] theorem Upd.learn_dir (k : Nat) (v : Option Nat) : ((Upd.learn k v).apply s).dir = s.dir := (rfl)
@[simp] theorem Upd.learn_ddrs (k : Nat) (v : Option Nat) : ((Upd.learn k v).apply s).ddrs = s.ddrs := (rfl)
@[simp] theorem Upd.learn_bufs (k : Nat) (v : Option Nat) : ((Upd.learn k v).apply s).bufs = s.bufs := (rfl)
@[simp] theorem Upd.learn_pools (k : Nat) (v : Option Nat) : ((Upd.learn k v).apply s).pools = s.pools := (rfl)
@[simp] theorem Upd.learn_chans (k : Nat) (v : Option Nat) : ((Upd.learn k v).apply s).chans = s.chans := (rfl)
@[simp] theorem Upd.learn_locks (k : Nat) (v : Option Nat) : ((Upd.learn k v).apply s).locks = s.locks := (rfl)
@[simp] theorem Upd.learn_streams (k : Nat) (v : Option Nat) : ((Upd.learn k v).apply s).streams = s.streams := (rfl)
@[simp] theorem Upd.learn_ports (k : Nat) (v : Option Nat) : ((Upd.learn k v).apply s).ports = s.ports := (rfl)
@[simp] theorem Upd.learn_pipes (k : Nat) (v : Option Nat) : ((Upd.learn k v).apply s).pipes = s.pipes := (rfl)
@[simp] theorem Upd.learn_admitQ (k : Nat) (v : Option Nat) : ((Upd.learn k v).apply s).admitQ = s.admitQ := (rfl)
@[simp] theorem Upd.learn_terms (k : Nat) (v : Option Nat) : ((Upd.learn k v).apply s).terms = s.terms := (rfl)
@[simp] theorem Upd.learn_classes (k : Nat) (v : Option Nat) : ((Upd.learn k v).apply s).classes = s.classes := (rfl)
@[simp] theorem Upd.learn_hostq (k : Nat) (v : Option Nat) : ((Upd.learn k v).apply s).hostq = s.hostq := (rfl)
@[simp] theorem Upd.learn_ringLinks (k : Nat) (v : Option Nat) : ((Upd.learn k v).apply s).ringLinks = s.ringLinks := (rfl)
@[simp] theorem Upd.learn_sq (k : Nat) (v : Option Nat) : ((Upd.learn k v).apply s).sq = s.sq := (rfl)
@[simp] theorem Upd.learn_rc (k : Nat) (v : Option Nat) : ((Upd.learn k v).apply s).rc = s.rc := (rfl)
@[simp] theorem Upd.learn_cw (k : Nat) (v : Option Nat) : ((Upd.learn k v).apply s).cw = s.cw := (rfl)
@[simp] theorem Upd.learn_ring (k : Nat) (v : Option Nat) : ((Upd.learn k v).apply s).ring = s.ring := (rfl)
@[simp] theorem Upd.learn_gb (k : Nat) (v : Option Nat) : ((Upd.learn k v).apply s).gb = s.gb := (rfl)
@[simp] theorem Upd.learn_fc (k : Nat) (v : Option Nat) : ((Upd.learn k v).apply s).fc = s.fc := (rfl)
@[simp] theorem Upd.learn_tb (k : Nat) (v : Option Nat) : ((Upd.learn k v).apply s).tb = s.tb := (rfl)
@[simp] theorem Upd.learn_boot (k : Nat) (v : Option Nat) : ((Upd.learn k v).apply s).boot = s.boot := (rfl)
@[simp] theorem Upd.learn_tap (k : Nat) (v : Option Nat) : ((Upd.learn k v).apply s).tap = s.tap := (rfl)
@[simp] theorem Upd.learn_bg (k : Nat) (v : Option Nat) : ((Upd.learn k v).apply s).bg = s.bg := (rfl)

@[simp] theorem Upd.engines_pending (k : Nat) (v : Engine) : ((Upd.engines k v).apply s).pending = s.pending := (rfl)
@[simp] theorem Upd.engines_free (k : Nat) (v : Engine) : ((Upd.engines k v).apply s).free = s.free := (rfl)
@[simp] theorem Upd.engines_outbox (k : Nat) (v : Engine) : ((Upd.engines k v).apply s).outbox = s.outbox := (rfl)
@[simp] theorem Upd.engines_mem (k : Nat) (v : Engine) : ((Upd.engines k v).apply s).mem = s.mem := (rfl)
@[simp] theorem Upd.engines_bad (k : Nat) (v : Engine) : ((Upd.engines k v).apply s).bad = s.bad := (rfl)
@[simp] theorem Upd.engines_desk (k : Nat) (v : Engine) : ((Upd.engines k v).apply s).desk = s.desk := (rfl)
@[simp] theorem Upd.engines_pg (k : Nat) (v : Engine) : ((Upd.engines k v).apply s).pg = s.pg := (rfl)
@[simp] theorem Upd.engines_regs (k : Nat) (v : Engine) : ((Upd.engines k v).apply s).regs = s.regs := (rfl)
@[simp] theorem Upd.engines_act (k : Nat) (v : Engine) : ((Upd.engines k v).apply s).act = s.act := (rfl)
@[simp] theorem Upd.engines_pendc (k : Nat) (v : Engine) : ((Upd.engines k v).apply s).pendc = s.pendc := (rfl)
@[simp] theorem Upd.engines_goBy (k : Nat) (v : Engine) : ((Upd.engines k v).apply s).goBy = s.goBy := (rfl)
@[simp] theorem Upd.engines_msix (k : Nat) (v : Engine) : ((Upd.engines k v).apply s).msix = s.msix := (rfl)
@[simp] theorem Upd.engines_threads (k : Nat) (v : Engine) : ((Upd.engines k v).apply s).threads = s.threads := (rfl)
@[simp] theorem Upd.engines_acts (k : Nat) (v : Engine) : ((Upd.engines k v).apply s).acts = s.acts := (rfl)
@[simp] theorem Upd.engines_ready (k : Nat) (v : Engine) : ((Upd.engines k v).apply s).ready = s.ready := (rfl)
@[simp] theorem Upd.engines_delay (k : Nat) (v : Engine) : ((Upd.engines k v).apply s).delay = s.delay := (rfl)
@[simp] theorem Upd.engines_ctxs (k : Nat) (v : Engine) : ((Upd.engines k v).apply s).ctxs = s.ctxs := (rfl)
@[simp] theorem Upd.engines_banks (k : Nat) (v : Engine) : ((Upd.engines k v).apply s).banks = s.banks := (rfl)
@[simp] theorem Upd.engines_fuq (k : Nat) (v : Engine) : ((Upd.engines k v).apply s).fuq = s.fuq := (rfl)
@[simp] theorem Upd.engines_units (k : Nat) (v : Engine) : ((Upd.engines k v).apply s).units = s.units := (rfl)
@[simp] theorem Upd.engines_hqueues (k : Nat) (v : Engine) : ((Upd.engines k v).apply s).hqueues = s.hqueues := (rfl)
@[simp] theorem Upd.engines_icache (k : Nat) (v : Engine) : ((Upd.engines k v).apply s).icache = s.icache := (rfl)
@[simp] theorem Upd.engines_learn (k : Nat) (v : Engine) : ((Upd.engines k v).apply s).learn = s.learn := (rfl)
@[simp] theorem Upd.engines_engines (k : Nat) (v : Engine) : ((Upd.engines k v).apply s).engines = s.engines.put dfltEngines k v := (rfl)
@[simp] theorem Upd.engines_dirRows (k : Nat) (v : Engine) : ((Upd.engines k v).apply s).dirRows = s.dirRows := (rfl)
@[simp] theorem Upd.engines_dirShadow (k : Nat) (v : Engine) : ((Upd.engines k v).apply s).dirShadow = s.dirShadow := (rfl)
@[simp] theorem Upd.engines_dir (k : Nat) (v : Engine) : ((Upd.engines k v).apply s).dir = s.dir := (rfl)
@[simp] theorem Upd.engines_ddrs (k : Nat) (v : Engine) : ((Upd.engines k v).apply s).ddrs = s.ddrs := (rfl)
@[simp] theorem Upd.engines_bufs (k : Nat) (v : Engine) : ((Upd.engines k v).apply s).bufs = s.bufs := (rfl)
@[simp] theorem Upd.engines_pools (k : Nat) (v : Engine) : ((Upd.engines k v).apply s).pools = s.pools := (rfl)
@[simp] theorem Upd.engines_chans (k : Nat) (v : Engine) : ((Upd.engines k v).apply s).chans = s.chans := (rfl)
@[simp] theorem Upd.engines_locks (k : Nat) (v : Engine) : ((Upd.engines k v).apply s).locks = s.locks := (rfl)
@[simp] theorem Upd.engines_streams (k : Nat) (v : Engine) : ((Upd.engines k v).apply s).streams = s.streams := (rfl)
@[simp] theorem Upd.engines_ports (k : Nat) (v : Engine) : ((Upd.engines k v).apply s).ports = s.ports := (rfl)
@[simp] theorem Upd.engines_pipes (k : Nat) (v : Engine) : ((Upd.engines k v).apply s).pipes = s.pipes := (rfl)
@[simp] theorem Upd.engines_admitQ (k : Nat) (v : Engine) : ((Upd.engines k v).apply s).admitQ = s.admitQ := (rfl)
@[simp] theorem Upd.engines_terms (k : Nat) (v : Engine) : ((Upd.engines k v).apply s).terms = s.terms := (rfl)
@[simp] theorem Upd.engines_classes (k : Nat) (v : Engine) : ((Upd.engines k v).apply s).classes = s.classes := (rfl)
@[simp] theorem Upd.engines_hostq (k : Nat) (v : Engine) : ((Upd.engines k v).apply s).hostq = s.hostq := (rfl)
@[simp] theorem Upd.engines_ringLinks (k : Nat) (v : Engine) : ((Upd.engines k v).apply s).ringLinks = s.ringLinks := (rfl)
@[simp] theorem Upd.engines_sq (k : Nat) (v : Engine) : ((Upd.engines k v).apply s).sq = s.sq := (rfl)
@[simp] theorem Upd.engines_rc (k : Nat) (v : Engine) : ((Upd.engines k v).apply s).rc = s.rc := (rfl)
@[simp] theorem Upd.engines_cw (k : Nat) (v : Engine) : ((Upd.engines k v).apply s).cw = s.cw := (rfl)
@[simp] theorem Upd.engines_ring (k : Nat) (v : Engine) : ((Upd.engines k v).apply s).ring = s.ring := (rfl)
@[simp] theorem Upd.engines_gb (k : Nat) (v : Engine) : ((Upd.engines k v).apply s).gb = s.gb := (rfl)
@[simp] theorem Upd.engines_fc (k : Nat) (v : Engine) : ((Upd.engines k v).apply s).fc = s.fc := (rfl)
@[simp] theorem Upd.engines_tb (k : Nat) (v : Engine) : ((Upd.engines k v).apply s).tb = s.tb := (rfl)
@[simp] theorem Upd.engines_boot (k : Nat) (v : Engine) : ((Upd.engines k v).apply s).boot = s.boot := (rfl)
@[simp] theorem Upd.engines_tap (k : Nat) (v : Engine) : ((Upd.engines k v).apply s).tap = s.tap := (rfl)
@[simp] theorem Upd.engines_bg (k : Nat) (v : Engine) : ((Upd.engines k v).apply s).bg = s.bg := (rfl)

@[simp] theorem Upd.dirRows_pending (k : Nat) (v : DirRow) : ((Upd.dirRows k v).apply s).pending = s.pending := (rfl)
@[simp] theorem Upd.dirRows_free (k : Nat) (v : DirRow) : ((Upd.dirRows k v).apply s).free = s.free := (rfl)
@[simp] theorem Upd.dirRows_outbox (k : Nat) (v : DirRow) : ((Upd.dirRows k v).apply s).outbox = s.outbox := (rfl)
@[simp] theorem Upd.dirRows_mem (k : Nat) (v : DirRow) : ((Upd.dirRows k v).apply s).mem = s.mem := (rfl)
@[simp] theorem Upd.dirRows_bad (k : Nat) (v : DirRow) : ((Upd.dirRows k v).apply s).bad = s.bad := (rfl)
@[simp] theorem Upd.dirRows_desk (k : Nat) (v : DirRow) : ((Upd.dirRows k v).apply s).desk = s.desk := (rfl)
@[simp] theorem Upd.dirRows_pg (k : Nat) (v : DirRow) : ((Upd.dirRows k v).apply s).pg = s.pg := (rfl)
@[simp] theorem Upd.dirRows_regs (k : Nat) (v : DirRow) : ((Upd.dirRows k v).apply s).regs = s.regs := (rfl)
@[simp] theorem Upd.dirRows_act (k : Nat) (v : DirRow) : ((Upd.dirRows k v).apply s).act = s.act := (rfl)
@[simp] theorem Upd.dirRows_pendc (k : Nat) (v : DirRow) : ((Upd.dirRows k v).apply s).pendc = s.pendc := (rfl)
@[simp] theorem Upd.dirRows_goBy (k : Nat) (v : DirRow) : ((Upd.dirRows k v).apply s).goBy = s.goBy := (rfl)
@[simp] theorem Upd.dirRows_msix (k : Nat) (v : DirRow) : ((Upd.dirRows k v).apply s).msix = s.msix := (rfl)
@[simp] theorem Upd.dirRows_threads (k : Nat) (v : DirRow) : ((Upd.dirRows k v).apply s).threads = s.threads := (rfl)
@[simp] theorem Upd.dirRows_acts (k : Nat) (v : DirRow) : ((Upd.dirRows k v).apply s).acts = s.acts := (rfl)
@[simp] theorem Upd.dirRows_ready (k : Nat) (v : DirRow) : ((Upd.dirRows k v).apply s).ready = s.ready := (rfl)
@[simp] theorem Upd.dirRows_delay (k : Nat) (v : DirRow) : ((Upd.dirRows k v).apply s).delay = s.delay := (rfl)
@[simp] theorem Upd.dirRows_ctxs (k : Nat) (v : DirRow) : ((Upd.dirRows k v).apply s).ctxs = s.ctxs := (rfl)
@[simp] theorem Upd.dirRows_banks (k : Nat) (v : DirRow) : ((Upd.dirRows k v).apply s).banks = s.banks := (rfl)
@[simp] theorem Upd.dirRows_fuq (k : Nat) (v : DirRow) : ((Upd.dirRows k v).apply s).fuq = s.fuq := (rfl)
@[simp] theorem Upd.dirRows_units (k : Nat) (v : DirRow) : ((Upd.dirRows k v).apply s).units = s.units := (rfl)
@[simp] theorem Upd.dirRows_hqueues (k : Nat) (v : DirRow) : ((Upd.dirRows k v).apply s).hqueues = s.hqueues := (rfl)
@[simp] theorem Upd.dirRows_icache (k : Nat) (v : DirRow) : ((Upd.dirRows k v).apply s).icache = s.icache := (rfl)
@[simp] theorem Upd.dirRows_learn (k : Nat) (v : DirRow) : ((Upd.dirRows k v).apply s).learn = s.learn := (rfl)
@[simp] theorem Upd.dirRows_engines (k : Nat) (v : DirRow) : ((Upd.dirRows k v).apply s).engines = s.engines := (rfl)
@[simp] theorem Upd.dirRows_dirRows (k : Nat) (v : DirRow) : ((Upd.dirRows k v).apply s).dirRows = s.dirRows.put dfltDirRows k v := (rfl)
@[simp] theorem Upd.dirRows_dirShadow (k : Nat) (v : DirRow) : ((Upd.dirRows k v).apply s).dirShadow = s.dirShadow := (rfl)
@[simp] theorem Upd.dirRows_dir (k : Nat) (v : DirRow) : ((Upd.dirRows k v).apply s).dir = s.dir := (rfl)
@[simp] theorem Upd.dirRows_ddrs (k : Nat) (v : DirRow) : ((Upd.dirRows k v).apply s).ddrs = s.ddrs := (rfl)
@[simp] theorem Upd.dirRows_bufs (k : Nat) (v : DirRow) : ((Upd.dirRows k v).apply s).bufs = s.bufs := (rfl)
@[simp] theorem Upd.dirRows_pools (k : Nat) (v : DirRow) : ((Upd.dirRows k v).apply s).pools = s.pools := (rfl)
@[simp] theorem Upd.dirRows_chans (k : Nat) (v : DirRow) : ((Upd.dirRows k v).apply s).chans = s.chans := (rfl)
@[simp] theorem Upd.dirRows_locks (k : Nat) (v : DirRow) : ((Upd.dirRows k v).apply s).locks = s.locks := (rfl)
@[simp] theorem Upd.dirRows_streams (k : Nat) (v : DirRow) : ((Upd.dirRows k v).apply s).streams = s.streams := (rfl)
@[simp] theorem Upd.dirRows_ports (k : Nat) (v : DirRow) : ((Upd.dirRows k v).apply s).ports = s.ports := (rfl)
@[simp] theorem Upd.dirRows_pipes (k : Nat) (v : DirRow) : ((Upd.dirRows k v).apply s).pipes = s.pipes := (rfl)
@[simp] theorem Upd.dirRows_admitQ (k : Nat) (v : DirRow) : ((Upd.dirRows k v).apply s).admitQ = s.admitQ := (rfl)
@[simp] theorem Upd.dirRows_terms (k : Nat) (v : DirRow) : ((Upd.dirRows k v).apply s).terms = s.terms := (rfl)
@[simp] theorem Upd.dirRows_classes (k : Nat) (v : DirRow) : ((Upd.dirRows k v).apply s).classes = s.classes := (rfl)
@[simp] theorem Upd.dirRows_hostq (k : Nat) (v : DirRow) : ((Upd.dirRows k v).apply s).hostq = s.hostq := (rfl)
@[simp] theorem Upd.dirRows_ringLinks (k : Nat) (v : DirRow) : ((Upd.dirRows k v).apply s).ringLinks = s.ringLinks := (rfl)
@[simp] theorem Upd.dirRows_sq (k : Nat) (v : DirRow) : ((Upd.dirRows k v).apply s).sq = s.sq := (rfl)
@[simp] theorem Upd.dirRows_rc (k : Nat) (v : DirRow) : ((Upd.dirRows k v).apply s).rc = s.rc := (rfl)
@[simp] theorem Upd.dirRows_cw (k : Nat) (v : DirRow) : ((Upd.dirRows k v).apply s).cw = s.cw := (rfl)
@[simp] theorem Upd.dirRows_ring (k : Nat) (v : DirRow) : ((Upd.dirRows k v).apply s).ring = s.ring := (rfl)
@[simp] theorem Upd.dirRows_gb (k : Nat) (v : DirRow) : ((Upd.dirRows k v).apply s).gb = s.gb := (rfl)
@[simp] theorem Upd.dirRows_fc (k : Nat) (v : DirRow) : ((Upd.dirRows k v).apply s).fc = s.fc := (rfl)
@[simp] theorem Upd.dirRows_tb (k : Nat) (v : DirRow) : ((Upd.dirRows k v).apply s).tb = s.tb := (rfl)
@[simp] theorem Upd.dirRows_boot (k : Nat) (v : DirRow) : ((Upd.dirRows k v).apply s).boot = s.boot := (rfl)
@[simp] theorem Upd.dirRows_tap (k : Nat) (v : DirRow) : ((Upd.dirRows k v).apply s).tap = s.tap := (rfl)
@[simp] theorem Upd.dirRows_bg (k : Nat) (v : DirRow) : ((Upd.dirRows k v).apply s).bg = s.bg := (rfl)

@[simp] theorem Upd.dirShadow_pending (k : Nat) (v : DirRow) : ((Upd.dirShadow k v).apply s).pending = s.pending := (rfl)
@[simp] theorem Upd.dirShadow_free (k : Nat) (v : DirRow) : ((Upd.dirShadow k v).apply s).free = s.free := (rfl)
@[simp] theorem Upd.dirShadow_outbox (k : Nat) (v : DirRow) : ((Upd.dirShadow k v).apply s).outbox = s.outbox := (rfl)
@[simp] theorem Upd.dirShadow_mem (k : Nat) (v : DirRow) : ((Upd.dirShadow k v).apply s).mem = s.mem := (rfl)
@[simp] theorem Upd.dirShadow_bad (k : Nat) (v : DirRow) : ((Upd.dirShadow k v).apply s).bad = s.bad := (rfl)
@[simp] theorem Upd.dirShadow_desk (k : Nat) (v : DirRow) : ((Upd.dirShadow k v).apply s).desk = s.desk := (rfl)
@[simp] theorem Upd.dirShadow_pg (k : Nat) (v : DirRow) : ((Upd.dirShadow k v).apply s).pg = s.pg := (rfl)
@[simp] theorem Upd.dirShadow_regs (k : Nat) (v : DirRow) : ((Upd.dirShadow k v).apply s).regs = s.regs := (rfl)
@[simp] theorem Upd.dirShadow_act (k : Nat) (v : DirRow) : ((Upd.dirShadow k v).apply s).act = s.act := (rfl)
@[simp] theorem Upd.dirShadow_pendc (k : Nat) (v : DirRow) : ((Upd.dirShadow k v).apply s).pendc = s.pendc := (rfl)
@[simp] theorem Upd.dirShadow_goBy (k : Nat) (v : DirRow) : ((Upd.dirShadow k v).apply s).goBy = s.goBy := (rfl)
@[simp] theorem Upd.dirShadow_msix (k : Nat) (v : DirRow) : ((Upd.dirShadow k v).apply s).msix = s.msix := (rfl)
@[simp] theorem Upd.dirShadow_threads (k : Nat) (v : DirRow) : ((Upd.dirShadow k v).apply s).threads = s.threads := (rfl)
@[simp] theorem Upd.dirShadow_acts (k : Nat) (v : DirRow) : ((Upd.dirShadow k v).apply s).acts = s.acts := (rfl)
@[simp] theorem Upd.dirShadow_ready (k : Nat) (v : DirRow) : ((Upd.dirShadow k v).apply s).ready = s.ready := (rfl)
@[simp] theorem Upd.dirShadow_delay (k : Nat) (v : DirRow) : ((Upd.dirShadow k v).apply s).delay = s.delay := (rfl)
@[simp] theorem Upd.dirShadow_ctxs (k : Nat) (v : DirRow) : ((Upd.dirShadow k v).apply s).ctxs = s.ctxs := (rfl)
@[simp] theorem Upd.dirShadow_banks (k : Nat) (v : DirRow) : ((Upd.dirShadow k v).apply s).banks = s.banks := (rfl)
@[simp] theorem Upd.dirShadow_fuq (k : Nat) (v : DirRow) : ((Upd.dirShadow k v).apply s).fuq = s.fuq := (rfl)
@[simp] theorem Upd.dirShadow_units (k : Nat) (v : DirRow) : ((Upd.dirShadow k v).apply s).units = s.units := (rfl)
@[simp] theorem Upd.dirShadow_hqueues (k : Nat) (v : DirRow) : ((Upd.dirShadow k v).apply s).hqueues = s.hqueues := (rfl)
@[simp] theorem Upd.dirShadow_icache (k : Nat) (v : DirRow) : ((Upd.dirShadow k v).apply s).icache = s.icache := (rfl)
@[simp] theorem Upd.dirShadow_learn (k : Nat) (v : DirRow) : ((Upd.dirShadow k v).apply s).learn = s.learn := (rfl)
@[simp] theorem Upd.dirShadow_engines (k : Nat) (v : DirRow) : ((Upd.dirShadow k v).apply s).engines = s.engines := (rfl)
@[simp] theorem Upd.dirShadow_dirRows (k : Nat) (v : DirRow) : ((Upd.dirShadow k v).apply s).dirRows = s.dirRows := (rfl)
@[simp] theorem Upd.dirShadow_dirShadow (k : Nat) (v : DirRow) : ((Upd.dirShadow k v).apply s).dirShadow = s.dirShadow.put dfltDirShadow k v := (rfl)
@[simp] theorem Upd.dirShadow_dir (k : Nat) (v : DirRow) : ((Upd.dirShadow k v).apply s).dir = s.dir := (rfl)
@[simp] theorem Upd.dirShadow_ddrs (k : Nat) (v : DirRow) : ((Upd.dirShadow k v).apply s).ddrs = s.ddrs := (rfl)
@[simp] theorem Upd.dirShadow_bufs (k : Nat) (v : DirRow) : ((Upd.dirShadow k v).apply s).bufs = s.bufs := (rfl)
@[simp] theorem Upd.dirShadow_pools (k : Nat) (v : DirRow) : ((Upd.dirShadow k v).apply s).pools = s.pools := (rfl)
@[simp] theorem Upd.dirShadow_chans (k : Nat) (v : DirRow) : ((Upd.dirShadow k v).apply s).chans = s.chans := (rfl)
@[simp] theorem Upd.dirShadow_locks (k : Nat) (v : DirRow) : ((Upd.dirShadow k v).apply s).locks = s.locks := (rfl)
@[simp] theorem Upd.dirShadow_streams (k : Nat) (v : DirRow) : ((Upd.dirShadow k v).apply s).streams = s.streams := (rfl)
@[simp] theorem Upd.dirShadow_ports (k : Nat) (v : DirRow) : ((Upd.dirShadow k v).apply s).ports = s.ports := (rfl)
@[simp] theorem Upd.dirShadow_pipes (k : Nat) (v : DirRow) : ((Upd.dirShadow k v).apply s).pipes = s.pipes := (rfl)
@[simp] theorem Upd.dirShadow_admitQ (k : Nat) (v : DirRow) : ((Upd.dirShadow k v).apply s).admitQ = s.admitQ := (rfl)
@[simp] theorem Upd.dirShadow_terms (k : Nat) (v : DirRow) : ((Upd.dirShadow k v).apply s).terms = s.terms := (rfl)
@[simp] theorem Upd.dirShadow_classes (k : Nat) (v : DirRow) : ((Upd.dirShadow k v).apply s).classes = s.classes := (rfl)
@[simp] theorem Upd.dirShadow_hostq (k : Nat) (v : DirRow) : ((Upd.dirShadow k v).apply s).hostq = s.hostq := (rfl)
@[simp] theorem Upd.dirShadow_ringLinks (k : Nat) (v : DirRow) : ((Upd.dirShadow k v).apply s).ringLinks = s.ringLinks := (rfl)
@[simp] theorem Upd.dirShadow_sq (k : Nat) (v : DirRow) : ((Upd.dirShadow k v).apply s).sq = s.sq := (rfl)
@[simp] theorem Upd.dirShadow_rc (k : Nat) (v : DirRow) : ((Upd.dirShadow k v).apply s).rc = s.rc := (rfl)
@[simp] theorem Upd.dirShadow_cw (k : Nat) (v : DirRow) : ((Upd.dirShadow k v).apply s).cw = s.cw := (rfl)
@[simp] theorem Upd.dirShadow_ring (k : Nat) (v : DirRow) : ((Upd.dirShadow k v).apply s).ring = s.ring := (rfl)
@[simp] theorem Upd.dirShadow_gb (k : Nat) (v : DirRow) : ((Upd.dirShadow k v).apply s).gb = s.gb := (rfl)
@[simp] theorem Upd.dirShadow_fc (k : Nat) (v : DirRow) : ((Upd.dirShadow k v).apply s).fc = s.fc := (rfl)
@[simp] theorem Upd.dirShadow_tb (k : Nat) (v : DirRow) : ((Upd.dirShadow k v).apply s).tb = s.tb := (rfl)
@[simp] theorem Upd.dirShadow_boot (k : Nat) (v : DirRow) : ((Upd.dirShadow k v).apply s).boot = s.boot := (rfl)
@[simp] theorem Upd.dirShadow_tap (k : Nat) (v : DirRow) : ((Upd.dirShadow k v).apply s).tap = s.tap := (rfl)
@[simp] theorem Upd.dirShadow_bg (k : Nat) (v : DirRow) : ((Upd.dirShadow k v).apply s).bg = s.bg := (rfl)

@[simp] theorem Upd.dir_pending (v : DirState) : ((Upd.dir v).apply s).pending = s.pending := (rfl)
@[simp] theorem Upd.dir_free (v : DirState) : ((Upd.dir v).apply s).free = s.free := (rfl)
@[simp] theorem Upd.dir_outbox (v : DirState) : ((Upd.dir v).apply s).outbox = s.outbox := (rfl)
@[simp] theorem Upd.dir_mem (v : DirState) : ((Upd.dir v).apply s).mem = s.mem := (rfl)
@[simp] theorem Upd.dir_bad (v : DirState) : ((Upd.dir v).apply s).bad = s.bad := (rfl)
@[simp] theorem Upd.dir_desk (v : DirState) : ((Upd.dir v).apply s).desk = s.desk := (rfl)
@[simp] theorem Upd.dir_pg (v : DirState) : ((Upd.dir v).apply s).pg = s.pg := (rfl)
@[simp] theorem Upd.dir_regs (v : DirState) : ((Upd.dir v).apply s).regs = s.regs := (rfl)
@[simp] theorem Upd.dir_act (v : DirState) : ((Upd.dir v).apply s).act = s.act := (rfl)
@[simp] theorem Upd.dir_pendc (v : DirState) : ((Upd.dir v).apply s).pendc = s.pendc := (rfl)
@[simp] theorem Upd.dir_goBy (v : DirState) : ((Upd.dir v).apply s).goBy = s.goBy := (rfl)
@[simp] theorem Upd.dir_msix (v : DirState) : ((Upd.dir v).apply s).msix = s.msix := (rfl)
@[simp] theorem Upd.dir_threads (v : DirState) : ((Upd.dir v).apply s).threads = s.threads := (rfl)
@[simp] theorem Upd.dir_acts (v : DirState) : ((Upd.dir v).apply s).acts = s.acts := (rfl)
@[simp] theorem Upd.dir_ready (v : DirState) : ((Upd.dir v).apply s).ready = s.ready := (rfl)
@[simp] theorem Upd.dir_delay (v : DirState) : ((Upd.dir v).apply s).delay = s.delay := (rfl)
@[simp] theorem Upd.dir_ctxs (v : DirState) : ((Upd.dir v).apply s).ctxs = s.ctxs := (rfl)
@[simp] theorem Upd.dir_banks (v : DirState) : ((Upd.dir v).apply s).banks = s.banks := (rfl)
@[simp] theorem Upd.dir_fuq (v : DirState) : ((Upd.dir v).apply s).fuq = s.fuq := (rfl)
@[simp] theorem Upd.dir_units (v : DirState) : ((Upd.dir v).apply s).units = s.units := (rfl)
@[simp] theorem Upd.dir_hqueues (v : DirState) : ((Upd.dir v).apply s).hqueues = s.hqueues := (rfl)
@[simp] theorem Upd.dir_icache (v : DirState) : ((Upd.dir v).apply s).icache = s.icache := (rfl)
@[simp] theorem Upd.dir_learn (v : DirState) : ((Upd.dir v).apply s).learn = s.learn := (rfl)
@[simp] theorem Upd.dir_engines (v : DirState) : ((Upd.dir v).apply s).engines = s.engines := (rfl)
@[simp] theorem Upd.dir_dirRows (v : DirState) : ((Upd.dir v).apply s).dirRows = s.dirRows := (rfl)
@[simp] theorem Upd.dir_dirShadow (v : DirState) : ((Upd.dir v).apply s).dirShadow = s.dirShadow := (rfl)
@[simp] theorem Upd.dir_dir (v : DirState) : ((Upd.dir v).apply s).dir = v := (rfl)
@[simp] theorem Upd.dir_ddrs (v : DirState) : ((Upd.dir v).apply s).ddrs = s.ddrs := (rfl)
@[simp] theorem Upd.dir_bufs (v : DirState) : ((Upd.dir v).apply s).bufs = s.bufs := (rfl)
@[simp] theorem Upd.dir_pools (v : DirState) : ((Upd.dir v).apply s).pools = s.pools := (rfl)
@[simp] theorem Upd.dir_chans (v : DirState) : ((Upd.dir v).apply s).chans = s.chans := (rfl)
@[simp] theorem Upd.dir_locks (v : DirState) : ((Upd.dir v).apply s).locks = s.locks := (rfl)
@[simp] theorem Upd.dir_streams (v : DirState) : ((Upd.dir v).apply s).streams = s.streams := (rfl)
@[simp] theorem Upd.dir_ports (v : DirState) : ((Upd.dir v).apply s).ports = s.ports := (rfl)
@[simp] theorem Upd.dir_pipes (v : DirState) : ((Upd.dir v).apply s).pipes = s.pipes := (rfl)
@[simp] theorem Upd.dir_admitQ (v : DirState) : ((Upd.dir v).apply s).admitQ = s.admitQ := (rfl)
@[simp] theorem Upd.dir_terms (v : DirState) : ((Upd.dir v).apply s).terms = s.terms := (rfl)
@[simp] theorem Upd.dir_classes (v : DirState) : ((Upd.dir v).apply s).classes = s.classes := (rfl)
@[simp] theorem Upd.dir_hostq (v : DirState) : ((Upd.dir v).apply s).hostq = s.hostq := (rfl)
@[simp] theorem Upd.dir_ringLinks (v : DirState) : ((Upd.dir v).apply s).ringLinks = s.ringLinks := (rfl)
@[simp] theorem Upd.dir_sq (v : DirState) : ((Upd.dir v).apply s).sq = s.sq := (rfl)
@[simp] theorem Upd.dir_rc (v : DirState) : ((Upd.dir v).apply s).rc = s.rc := (rfl)
@[simp] theorem Upd.dir_cw (v : DirState) : ((Upd.dir v).apply s).cw = s.cw := (rfl)
@[simp] theorem Upd.dir_ring (v : DirState) : ((Upd.dir v).apply s).ring = s.ring := (rfl)
@[simp] theorem Upd.dir_gb (v : DirState) : ((Upd.dir v).apply s).gb = s.gb := (rfl)
@[simp] theorem Upd.dir_fc (v : DirState) : ((Upd.dir v).apply s).fc = s.fc := (rfl)
@[simp] theorem Upd.dir_tb (v : DirState) : ((Upd.dir v).apply s).tb = s.tb := (rfl)
@[simp] theorem Upd.dir_boot (v : DirState) : ((Upd.dir v).apply s).boot = s.boot := (rfl)
@[simp] theorem Upd.dir_tap (v : DirState) : ((Upd.dir v).apply s).tap = s.tap := (rfl)
@[simp] theorem Upd.dir_bg (v : DirState) : ((Upd.dir v).apply s).bg = s.bg := (rfl)

@[simp] theorem Upd.ddrs_pending (k : Nat) (v : Ddr) : ((Upd.ddrs k v).apply s).pending = s.pending := (rfl)
@[simp] theorem Upd.ddrs_free (k : Nat) (v : Ddr) : ((Upd.ddrs k v).apply s).free = s.free := (rfl)
@[simp] theorem Upd.ddrs_outbox (k : Nat) (v : Ddr) : ((Upd.ddrs k v).apply s).outbox = s.outbox := (rfl)
@[simp] theorem Upd.ddrs_mem (k : Nat) (v : Ddr) : ((Upd.ddrs k v).apply s).mem = s.mem := (rfl)
@[simp] theorem Upd.ddrs_bad (k : Nat) (v : Ddr) : ((Upd.ddrs k v).apply s).bad = s.bad := (rfl)
@[simp] theorem Upd.ddrs_desk (k : Nat) (v : Ddr) : ((Upd.ddrs k v).apply s).desk = s.desk := (rfl)
@[simp] theorem Upd.ddrs_pg (k : Nat) (v : Ddr) : ((Upd.ddrs k v).apply s).pg = s.pg := (rfl)
@[simp] theorem Upd.ddrs_regs (k : Nat) (v : Ddr) : ((Upd.ddrs k v).apply s).regs = s.regs := (rfl)
@[simp] theorem Upd.ddrs_act (k : Nat) (v : Ddr) : ((Upd.ddrs k v).apply s).act = s.act := (rfl)
@[simp] theorem Upd.ddrs_pendc (k : Nat) (v : Ddr) : ((Upd.ddrs k v).apply s).pendc = s.pendc := (rfl)
@[simp] theorem Upd.ddrs_goBy (k : Nat) (v : Ddr) : ((Upd.ddrs k v).apply s).goBy = s.goBy := (rfl)
@[simp] theorem Upd.ddrs_msix (k : Nat) (v : Ddr) : ((Upd.ddrs k v).apply s).msix = s.msix := (rfl)
@[simp] theorem Upd.ddrs_threads (k : Nat) (v : Ddr) : ((Upd.ddrs k v).apply s).threads = s.threads := (rfl)
@[simp] theorem Upd.ddrs_acts (k : Nat) (v : Ddr) : ((Upd.ddrs k v).apply s).acts = s.acts := (rfl)
@[simp] theorem Upd.ddrs_ready (k : Nat) (v : Ddr) : ((Upd.ddrs k v).apply s).ready = s.ready := (rfl)
@[simp] theorem Upd.ddrs_delay (k : Nat) (v : Ddr) : ((Upd.ddrs k v).apply s).delay = s.delay := (rfl)
@[simp] theorem Upd.ddrs_ctxs (k : Nat) (v : Ddr) : ((Upd.ddrs k v).apply s).ctxs = s.ctxs := (rfl)
@[simp] theorem Upd.ddrs_banks (k : Nat) (v : Ddr) : ((Upd.ddrs k v).apply s).banks = s.banks := (rfl)
@[simp] theorem Upd.ddrs_fuq (k : Nat) (v : Ddr) : ((Upd.ddrs k v).apply s).fuq = s.fuq := (rfl)
@[simp] theorem Upd.ddrs_units (k : Nat) (v : Ddr) : ((Upd.ddrs k v).apply s).units = s.units := (rfl)
@[simp] theorem Upd.ddrs_hqueues (k : Nat) (v : Ddr) : ((Upd.ddrs k v).apply s).hqueues = s.hqueues := (rfl)
@[simp] theorem Upd.ddrs_icache (k : Nat) (v : Ddr) : ((Upd.ddrs k v).apply s).icache = s.icache := (rfl)
@[simp] theorem Upd.ddrs_learn (k : Nat) (v : Ddr) : ((Upd.ddrs k v).apply s).learn = s.learn := (rfl)
@[simp] theorem Upd.ddrs_engines (k : Nat) (v : Ddr) : ((Upd.ddrs k v).apply s).engines = s.engines := (rfl)
@[simp] theorem Upd.ddrs_dirRows (k : Nat) (v : Ddr) : ((Upd.ddrs k v).apply s).dirRows = s.dirRows := (rfl)
@[simp] theorem Upd.ddrs_dirShadow (k : Nat) (v : Ddr) : ((Upd.ddrs k v).apply s).dirShadow = s.dirShadow := (rfl)
@[simp] theorem Upd.ddrs_dir (k : Nat) (v : Ddr) : ((Upd.ddrs k v).apply s).dir = s.dir := (rfl)
@[simp] theorem Upd.ddrs_ddrs (k : Nat) (v : Ddr) : ((Upd.ddrs k v).apply s).ddrs = s.ddrs.put dfltDdrs k v := (rfl)
@[simp] theorem Upd.ddrs_bufs (k : Nat) (v : Ddr) : ((Upd.ddrs k v).apply s).bufs = s.bufs := (rfl)
@[simp] theorem Upd.ddrs_pools (k : Nat) (v : Ddr) : ((Upd.ddrs k v).apply s).pools = s.pools := (rfl)
@[simp] theorem Upd.ddrs_chans (k : Nat) (v : Ddr) : ((Upd.ddrs k v).apply s).chans = s.chans := (rfl)
@[simp] theorem Upd.ddrs_locks (k : Nat) (v : Ddr) : ((Upd.ddrs k v).apply s).locks = s.locks := (rfl)
@[simp] theorem Upd.ddrs_streams (k : Nat) (v : Ddr) : ((Upd.ddrs k v).apply s).streams = s.streams := (rfl)
@[simp] theorem Upd.ddrs_ports (k : Nat) (v : Ddr) : ((Upd.ddrs k v).apply s).ports = s.ports := (rfl)
@[simp] theorem Upd.ddrs_pipes (k : Nat) (v : Ddr) : ((Upd.ddrs k v).apply s).pipes = s.pipes := (rfl)
@[simp] theorem Upd.ddrs_admitQ (k : Nat) (v : Ddr) : ((Upd.ddrs k v).apply s).admitQ = s.admitQ := (rfl)
@[simp] theorem Upd.ddrs_terms (k : Nat) (v : Ddr) : ((Upd.ddrs k v).apply s).terms = s.terms := (rfl)
@[simp] theorem Upd.ddrs_classes (k : Nat) (v : Ddr) : ((Upd.ddrs k v).apply s).classes = s.classes := (rfl)
@[simp] theorem Upd.ddrs_hostq (k : Nat) (v : Ddr) : ((Upd.ddrs k v).apply s).hostq = s.hostq := (rfl)
@[simp] theorem Upd.ddrs_ringLinks (k : Nat) (v : Ddr) : ((Upd.ddrs k v).apply s).ringLinks = s.ringLinks := (rfl)
@[simp] theorem Upd.ddrs_sq (k : Nat) (v : Ddr) : ((Upd.ddrs k v).apply s).sq = s.sq := (rfl)
@[simp] theorem Upd.ddrs_rc (k : Nat) (v : Ddr) : ((Upd.ddrs k v).apply s).rc = s.rc := (rfl)
@[simp] theorem Upd.ddrs_cw (k : Nat) (v : Ddr) : ((Upd.ddrs k v).apply s).cw = s.cw := (rfl)
@[simp] theorem Upd.ddrs_ring (k : Nat) (v : Ddr) : ((Upd.ddrs k v).apply s).ring = s.ring := (rfl)
@[simp] theorem Upd.ddrs_gb (k : Nat) (v : Ddr) : ((Upd.ddrs k v).apply s).gb = s.gb := (rfl)
@[simp] theorem Upd.ddrs_fc (k : Nat) (v : Ddr) : ((Upd.ddrs k v).apply s).fc = s.fc := (rfl)
@[simp] theorem Upd.ddrs_tb (k : Nat) (v : Ddr) : ((Upd.ddrs k v).apply s).tb = s.tb := (rfl)
@[simp] theorem Upd.ddrs_boot (k : Nat) (v : Ddr) : ((Upd.ddrs k v).apply s).boot = s.boot := (rfl)
@[simp] theorem Upd.ddrs_tap (k : Nat) (v : Ddr) : ((Upd.ddrs k v).apply s).tap = s.tap := (rfl)
@[simp] theorem Upd.ddrs_bg (k : Nat) (v : Ddr) : ((Upd.ddrs k v).apply s).bg = s.bg := (rfl)

@[simp] theorem Upd.bufs_pending (k : Nat) (v : Buf) : ((Upd.bufs k v).apply s).pending = s.pending := (rfl)
@[simp] theorem Upd.bufs_free (k : Nat) (v : Buf) : ((Upd.bufs k v).apply s).free = s.free := (rfl)
@[simp] theorem Upd.bufs_outbox (k : Nat) (v : Buf) : ((Upd.bufs k v).apply s).outbox = s.outbox := (rfl)
@[simp] theorem Upd.bufs_mem (k : Nat) (v : Buf) : ((Upd.bufs k v).apply s).mem = s.mem := (rfl)
@[simp] theorem Upd.bufs_bad (k : Nat) (v : Buf) : ((Upd.bufs k v).apply s).bad = s.bad := (rfl)
@[simp] theorem Upd.bufs_desk (k : Nat) (v : Buf) : ((Upd.bufs k v).apply s).desk = s.desk := (rfl)
@[simp] theorem Upd.bufs_pg (k : Nat) (v : Buf) : ((Upd.bufs k v).apply s).pg = s.pg := (rfl)
@[simp] theorem Upd.bufs_regs (k : Nat) (v : Buf) : ((Upd.bufs k v).apply s).regs = s.regs := (rfl)
@[simp] theorem Upd.bufs_act (k : Nat) (v : Buf) : ((Upd.bufs k v).apply s).act = s.act := (rfl)
@[simp] theorem Upd.bufs_pendc (k : Nat) (v : Buf) : ((Upd.bufs k v).apply s).pendc = s.pendc := (rfl)
@[simp] theorem Upd.bufs_goBy (k : Nat) (v : Buf) : ((Upd.bufs k v).apply s).goBy = s.goBy := (rfl)
@[simp] theorem Upd.bufs_msix (k : Nat) (v : Buf) : ((Upd.bufs k v).apply s).msix = s.msix := (rfl)
@[simp] theorem Upd.bufs_threads (k : Nat) (v : Buf) : ((Upd.bufs k v).apply s).threads = s.threads := (rfl)
@[simp] theorem Upd.bufs_acts (k : Nat) (v : Buf) : ((Upd.bufs k v).apply s).acts = s.acts := (rfl)
@[simp] theorem Upd.bufs_ready (k : Nat) (v : Buf) : ((Upd.bufs k v).apply s).ready = s.ready := (rfl)
@[simp] theorem Upd.bufs_delay (k : Nat) (v : Buf) : ((Upd.bufs k v).apply s).delay = s.delay := (rfl)
@[simp] theorem Upd.bufs_ctxs (k : Nat) (v : Buf) : ((Upd.bufs k v).apply s).ctxs = s.ctxs := (rfl)
@[simp] theorem Upd.bufs_banks (k : Nat) (v : Buf) : ((Upd.bufs k v).apply s).banks = s.banks := (rfl)
@[simp] theorem Upd.bufs_fuq (k : Nat) (v : Buf) : ((Upd.bufs k v).apply s).fuq = s.fuq := (rfl)
@[simp] theorem Upd.bufs_units (k : Nat) (v : Buf) : ((Upd.bufs k v).apply s).units = s.units := (rfl)
@[simp] theorem Upd.bufs_hqueues (k : Nat) (v : Buf) : ((Upd.bufs k v).apply s).hqueues = s.hqueues := (rfl)
@[simp] theorem Upd.bufs_icache (k : Nat) (v : Buf) : ((Upd.bufs k v).apply s).icache = s.icache := (rfl)
@[simp] theorem Upd.bufs_learn (k : Nat) (v : Buf) : ((Upd.bufs k v).apply s).learn = s.learn := (rfl)
@[simp] theorem Upd.bufs_engines (k : Nat) (v : Buf) : ((Upd.bufs k v).apply s).engines = s.engines := (rfl)
@[simp] theorem Upd.bufs_dirRows (k : Nat) (v : Buf) : ((Upd.bufs k v).apply s).dirRows = s.dirRows := (rfl)
@[simp] theorem Upd.bufs_dirShadow (k : Nat) (v : Buf) : ((Upd.bufs k v).apply s).dirShadow = s.dirShadow := (rfl)
@[simp] theorem Upd.bufs_dir (k : Nat) (v : Buf) : ((Upd.bufs k v).apply s).dir = s.dir := (rfl)
@[simp] theorem Upd.bufs_ddrs (k : Nat) (v : Buf) : ((Upd.bufs k v).apply s).ddrs = s.ddrs := (rfl)
@[simp] theorem Upd.bufs_bufs (k : Nat) (v : Buf) : ((Upd.bufs k v).apply s).bufs = s.bufs.put dfltBufs k v := (rfl)
@[simp] theorem Upd.bufs_pools (k : Nat) (v : Buf) : ((Upd.bufs k v).apply s).pools = s.pools := (rfl)
@[simp] theorem Upd.bufs_chans (k : Nat) (v : Buf) : ((Upd.bufs k v).apply s).chans = s.chans := (rfl)
@[simp] theorem Upd.bufs_locks (k : Nat) (v : Buf) : ((Upd.bufs k v).apply s).locks = s.locks := (rfl)
@[simp] theorem Upd.bufs_streams (k : Nat) (v : Buf) : ((Upd.bufs k v).apply s).streams = s.streams := (rfl)
@[simp] theorem Upd.bufs_ports (k : Nat) (v : Buf) : ((Upd.bufs k v).apply s).ports = s.ports := (rfl)
@[simp] theorem Upd.bufs_pipes (k : Nat) (v : Buf) : ((Upd.bufs k v).apply s).pipes = s.pipes := (rfl)
@[simp] theorem Upd.bufs_admitQ (k : Nat) (v : Buf) : ((Upd.bufs k v).apply s).admitQ = s.admitQ := (rfl)
@[simp] theorem Upd.bufs_terms (k : Nat) (v : Buf) : ((Upd.bufs k v).apply s).terms = s.terms := (rfl)
@[simp] theorem Upd.bufs_classes (k : Nat) (v : Buf) : ((Upd.bufs k v).apply s).classes = s.classes := (rfl)
@[simp] theorem Upd.bufs_hostq (k : Nat) (v : Buf) : ((Upd.bufs k v).apply s).hostq = s.hostq := (rfl)
@[simp] theorem Upd.bufs_ringLinks (k : Nat) (v : Buf) : ((Upd.bufs k v).apply s).ringLinks = s.ringLinks := (rfl)
@[simp] theorem Upd.bufs_sq (k : Nat) (v : Buf) : ((Upd.bufs k v).apply s).sq = s.sq := (rfl)
@[simp] theorem Upd.bufs_rc (k : Nat) (v : Buf) : ((Upd.bufs k v).apply s).rc = s.rc := (rfl)
@[simp] theorem Upd.bufs_cw (k : Nat) (v : Buf) : ((Upd.bufs k v).apply s).cw = s.cw := (rfl)
@[simp] theorem Upd.bufs_ring (k : Nat) (v : Buf) : ((Upd.bufs k v).apply s).ring = s.ring := (rfl)
@[simp] theorem Upd.bufs_gb (k : Nat) (v : Buf) : ((Upd.bufs k v).apply s).gb = s.gb := (rfl)
@[simp] theorem Upd.bufs_fc (k : Nat) (v : Buf) : ((Upd.bufs k v).apply s).fc = s.fc := (rfl)
@[simp] theorem Upd.bufs_tb (k : Nat) (v : Buf) : ((Upd.bufs k v).apply s).tb = s.tb := (rfl)
@[simp] theorem Upd.bufs_boot (k : Nat) (v : Buf) : ((Upd.bufs k v).apply s).boot = s.boot := (rfl)
@[simp] theorem Upd.bufs_tap (k : Nat) (v : Buf) : ((Upd.bufs k v).apply s).tap = s.tap := (rfl)
@[simp] theorem Upd.bufs_bg (k : Nat) (v : Buf) : ((Upd.bufs k v).apply s).bg = s.bg := (rfl)

@[simp] theorem Upd.pools_pending (k : Nat) (v : Pool) : ((Upd.pools k v).apply s).pending = s.pending := (rfl)
@[simp] theorem Upd.pools_free (k : Nat) (v : Pool) : ((Upd.pools k v).apply s).free = s.free := (rfl)
@[simp] theorem Upd.pools_outbox (k : Nat) (v : Pool) : ((Upd.pools k v).apply s).outbox = s.outbox := (rfl)
@[simp] theorem Upd.pools_mem (k : Nat) (v : Pool) : ((Upd.pools k v).apply s).mem = s.mem := (rfl)
@[simp] theorem Upd.pools_bad (k : Nat) (v : Pool) : ((Upd.pools k v).apply s).bad = s.bad := (rfl)
@[simp] theorem Upd.pools_desk (k : Nat) (v : Pool) : ((Upd.pools k v).apply s).desk = s.desk := (rfl)
@[simp] theorem Upd.pools_pg (k : Nat) (v : Pool) : ((Upd.pools k v).apply s).pg = s.pg := (rfl)
@[simp] theorem Upd.pools_regs (k : Nat) (v : Pool) : ((Upd.pools k v).apply s).regs = s.regs := (rfl)
@[simp] theorem Upd.pools_act (k : Nat) (v : Pool) : ((Upd.pools k v).apply s).act = s.act := (rfl)
@[simp] theorem Upd.pools_pendc (k : Nat) (v : Pool) : ((Upd.pools k v).apply s).pendc = s.pendc := (rfl)
@[simp] theorem Upd.pools_goBy (k : Nat) (v : Pool) : ((Upd.pools k v).apply s).goBy = s.goBy := (rfl)
@[simp] theorem Upd.pools_msix (k : Nat) (v : Pool) : ((Upd.pools k v).apply s).msix = s.msix := (rfl)
@[simp] theorem Upd.pools_threads (k : Nat) (v : Pool) : ((Upd.pools k v).apply s).threads = s.threads := (rfl)
@[simp] theorem Upd.pools_acts (k : Nat) (v : Pool) : ((Upd.pools k v).apply s).acts = s.acts := (rfl)
@[simp] theorem Upd.pools_ready (k : Nat) (v : Pool) : ((Upd.pools k v).apply s).ready = s.ready := (rfl)
@[simp] theorem Upd.pools_delay (k : Nat) (v : Pool) : ((Upd.pools k v).apply s).delay = s.delay := (rfl)
@[simp] theorem Upd.pools_ctxs (k : Nat) (v : Pool) : ((Upd.pools k v).apply s).ctxs = s.ctxs := (rfl)
@[simp] theorem Upd.pools_banks (k : Nat) (v : Pool) : ((Upd.pools k v).apply s).banks = s.banks := (rfl)
@[simp] theorem Upd.pools_fuq (k : Nat) (v : Pool) : ((Upd.pools k v).apply s).fuq = s.fuq := (rfl)
@[simp] theorem Upd.pools_units (k : Nat) (v : Pool) : ((Upd.pools k v).apply s).units = s.units := (rfl)
@[simp] theorem Upd.pools_hqueues (k : Nat) (v : Pool) : ((Upd.pools k v).apply s).hqueues = s.hqueues := (rfl)
@[simp] theorem Upd.pools_icache (k : Nat) (v : Pool) : ((Upd.pools k v).apply s).icache = s.icache := (rfl)
@[simp] theorem Upd.pools_learn (k : Nat) (v : Pool) : ((Upd.pools k v).apply s).learn = s.learn := (rfl)
@[simp] theorem Upd.pools_engines (k : Nat) (v : Pool) : ((Upd.pools k v).apply s).engines = s.engines := (rfl)
@[simp] theorem Upd.pools_dirRows (k : Nat) (v : Pool) : ((Upd.pools k v).apply s).dirRows = s.dirRows := (rfl)
@[simp] theorem Upd.pools_dirShadow (k : Nat) (v : Pool) : ((Upd.pools k v).apply s).dirShadow = s.dirShadow := (rfl)
@[simp] theorem Upd.pools_dir (k : Nat) (v : Pool) : ((Upd.pools k v).apply s).dir = s.dir := (rfl)
@[simp] theorem Upd.pools_ddrs (k : Nat) (v : Pool) : ((Upd.pools k v).apply s).ddrs = s.ddrs := (rfl)
@[simp] theorem Upd.pools_bufs (k : Nat) (v : Pool) : ((Upd.pools k v).apply s).bufs = s.bufs := (rfl)
@[simp] theorem Upd.pools_pools (k : Nat) (v : Pool) : ((Upd.pools k v).apply s).pools = s.pools.put dfltPools k v := (rfl)
@[simp] theorem Upd.pools_chans (k : Nat) (v : Pool) : ((Upd.pools k v).apply s).chans = s.chans := (rfl)
@[simp] theorem Upd.pools_locks (k : Nat) (v : Pool) : ((Upd.pools k v).apply s).locks = s.locks := (rfl)
@[simp] theorem Upd.pools_streams (k : Nat) (v : Pool) : ((Upd.pools k v).apply s).streams = s.streams := (rfl)
@[simp] theorem Upd.pools_ports (k : Nat) (v : Pool) : ((Upd.pools k v).apply s).ports = s.ports := (rfl)
@[simp] theorem Upd.pools_pipes (k : Nat) (v : Pool) : ((Upd.pools k v).apply s).pipes = s.pipes := (rfl)
@[simp] theorem Upd.pools_admitQ (k : Nat) (v : Pool) : ((Upd.pools k v).apply s).admitQ = s.admitQ := (rfl)
@[simp] theorem Upd.pools_terms (k : Nat) (v : Pool) : ((Upd.pools k v).apply s).terms = s.terms := (rfl)
@[simp] theorem Upd.pools_classes (k : Nat) (v : Pool) : ((Upd.pools k v).apply s).classes = s.classes := (rfl)
@[simp] theorem Upd.pools_hostq (k : Nat) (v : Pool) : ((Upd.pools k v).apply s).hostq = s.hostq := (rfl)
@[simp] theorem Upd.pools_ringLinks (k : Nat) (v : Pool) : ((Upd.pools k v).apply s).ringLinks = s.ringLinks := (rfl)
@[simp] theorem Upd.pools_sq (k : Nat) (v : Pool) : ((Upd.pools k v).apply s).sq = s.sq := (rfl)
@[simp] theorem Upd.pools_rc (k : Nat) (v : Pool) : ((Upd.pools k v).apply s).rc = s.rc := (rfl)
@[simp] theorem Upd.pools_cw (k : Nat) (v : Pool) : ((Upd.pools k v).apply s).cw = s.cw := (rfl)
@[simp] theorem Upd.pools_ring (k : Nat) (v : Pool) : ((Upd.pools k v).apply s).ring = s.ring := (rfl)
@[simp] theorem Upd.pools_gb (k : Nat) (v : Pool) : ((Upd.pools k v).apply s).gb = s.gb := (rfl)
@[simp] theorem Upd.pools_fc (k : Nat) (v : Pool) : ((Upd.pools k v).apply s).fc = s.fc := (rfl)
@[simp] theorem Upd.pools_tb (k : Nat) (v : Pool) : ((Upd.pools k v).apply s).tb = s.tb := (rfl)
@[simp] theorem Upd.pools_boot (k : Nat) (v : Pool) : ((Upd.pools k v).apply s).boot = s.boot := (rfl)
@[simp] theorem Upd.pools_tap (k : Nat) (v : Pool) : ((Upd.pools k v).apply s).tap = s.tap := (rfl)
@[simp] theorem Upd.pools_bg (k : Nat) (v : Pool) : ((Upd.pools k v).apply s).bg = s.bg := (rfl)

@[simp] theorem Upd.chans_pending (k : Nat) (v : Chan) : ((Upd.chans k v).apply s).pending = s.pending := (rfl)
@[simp] theorem Upd.chans_free (k : Nat) (v : Chan) : ((Upd.chans k v).apply s).free = s.free := (rfl)
@[simp] theorem Upd.chans_outbox (k : Nat) (v : Chan) : ((Upd.chans k v).apply s).outbox = s.outbox := (rfl)
@[simp] theorem Upd.chans_mem (k : Nat) (v : Chan) : ((Upd.chans k v).apply s).mem = s.mem := (rfl)
@[simp] theorem Upd.chans_bad (k : Nat) (v : Chan) : ((Upd.chans k v).apply s).bad = s.bad := (rfl)
@[simp] theorem Upd.chans_desk (k : Nat) (v : Chan) : ((Upd.chans k v).apply s).desk = s.desk := (rfl)
@[simp] theorem Upd.chans_pg (k : Nat) (v : Chan) : ((Upd.chans k v).apply s).pg = s.pg := (rfl)
@[simp] theorem Upd.chans_regs (k : Nat) (v : Chan) : ((Upd.chans k v).apply s).regs = s.regs := (rfl)
@[simp] theorem Upd.chans_act (k : Nat) (v : Chan) : ((Upd.chans k v).apply s).act = s.act := (rfl)
@[simp] theorem Upd.chans_pendc (k : Nat) (v : Chan) : ((Upd.chans k v).apply s).pendc = s.pendc := (rfl)
@[simp] theorem Upd.chans_goBy (k : Nat) (v : Chan) : ((Upd.chans k v).apply s).goBy = s.goBy := (rfl)
@[simp] theorem Upd.chans_msix (k : Nat) (v : Chan) : ((Upd.chans k v).apply s).msix = s.msix := (rfl)
@[simp] theorem Upd.chans_threads (k : Nat) (v : Chan) : ((Upd.chans k v).apply s).threads = s.threads := (rfl)
@[simp] theorem Upd.chans_acts (k : Nat) (v : Chan) : ((Upd.chans k v).apply s).acts = s.acts := (rfl)
@[simp] theorem Upd.chans_ready (k : Nat) (v : Chan) : ((Upd.chans k v).apply s).ready = s.ready := (rfl)
@[simp] theorem Upd.chans_delay (k : Nat) (v : Chan) : ((Upd.chans k v).apply s).delay = s.delay := (rfl)
@[simp] theorem Upd.chans_ctxs (k : Nat) (v : Chan) : ((Upd.chans k v).apply s).ctxs = s.ctxs := (rfl)
@[simp] theorem Upd.chans_banks (k : Nat) (v : Chan) : ((Upd.chans k v).apply s).banks = s.banks := (rfl)
@[simp] theorem Upd.chans_fuq (k : Nat) (v : Chan) : ((Upd.chans k v).apply s).fuq = s.fuq := (rfl)
@[simp] theorem Upd.chans_units (k : Nat) (v : Chan) : ((Upd.chans k v).apply s).units = s.units := (rfl)
@[simp] theorem Upd.chans_hqueues (k : Nat) (v : Chan) : ((Upd.chans k v).apply s).hqueues = s.hqueues := (rfl)
@[simp] theorem Upd.chans_icache (k : Nat) (v : Chan) : ((Upd.chans k v).apply s).icache = s.icache := (rfl)
@[simp] theorem Upd.chans_learn (k : Nat) (v : Chan) : ((Upd.chans k v).apply s).learn = s.learn := (rfl)
@[simp] theorem Upd.chans_engines (k : Nat) (v : Chan) : ((Upd.chans k v).apply s).engines = s.engines := (rfl)
@[simp] theorem Upd.chans_dirRows (k : Nat) (v : Chan) : ((Upd.chans k v).apply s).dirRows = s.dirRows := (rfl)
@[simp] theorem Upd.chans_dirShadow (k : Nat) (v : Chan) : ((Upd.chans k v).apply s).dirShadow = s.dirShadow := (rfl)
@[simp] theorem Upd.chans_dir (k : Nat) (v : Chan) : ((Upd.chans k v).apply s).dir = s.dir := (rfl)
@[simp] theorem Upd.chans_ddrs (k : Nat) (v : Chan) : ((Upd.chans k v).apply s).ddrs = s.ddrs := (rfl)
@[simp] theorem Upd.chans_bufs (k : Nat) (v : Chan) : ((Upd.chans k v).apply s).bufs = s.bufs := (rfl)
@[simp] theorem Upd.chans_pools (k : Nat) (v : Chan) : ((Upd.chans k v).apply s).pools = s.pools := (rfl)
@[simp] theorem Upd.chans_chans (k : Nat) (v : Chan) : ((Upd.chans k v).apply s).chans = s.chans.put dfltChans k v := (rfl)
@[simp] theorem Upd.chans_locks (k : Nat) (v : Chan) : ((Upd.chans k v).apply s).locks = s.locks := (rfl)
@[simp] theorem Upd.chans_streams (k : Nat) (v : Chan) : ((Upd.chans k v).apply s).streams = s.streams := (rfl)
@[simp] theorem Upd.chans_ports (k : Nat) (v : Chan) : ((Upd.chans k v).apply s).ports = s.ports := (rfl)
@[simp] theorem Upd.chans_pipes (k : Nat) (v : Chan) : ((Upd.chans k v).apply s).pipes = s.pipes := (rfl)
@[simp] theorem Upd.chans_admitQ (k : Nat) (v : Chan) : ((Upd.chans k v).apply s).admitQ = s.admitQ := (rfl)
@[simp] theorem Upd.chans_terms (k : Nat) (v : Chan) : ((Upd.chans k v).apply s).terms = s.terms := (rfl)
@[simp] theorem Upd.chans_classes (k : Nat) (v : Chan) : ((Upd.chans k v).apply s).classes = s.classes := (rfl)
@[simp] theorem Upd.chans_hostq (k : Nat) (v : Chan) : ((Upd.chans k v).apply s).hostq = s.hostq := (rfl)
@[simp] theorem Upd.chans_ringLinks (k : Nat) (v : Chan) : ((Upd.chans k v).apply s).ringLinks = s.ringLinks := (rfl)
@[simp] theorem Upd.chans_sq (k : Nat) (v : Chan) : ((Upd.chans k v).apply s).sq = s.sq := (rfl)
@[simp] theorem Upd.chans_rc (k : Nat) (v : Chan) : ((Upd.chans k v).apply s).rc = s.rc := (rfl)
@[simp] theorem Upd.chans_cw (k : Nat) (v : Chan) : ((Upd.chans k v).apply s).cw = s.cw := (rfl)
@[simp] theorem Upd.chans_ring (k : Nat) (v : Chan) : ((Upd.chans k v).apply s).ring = s.ring := (rfl)
@[simp] theorem Upd.chans_gb (k : Nat) (v : Chan) : ((Upd.chans k v).apply s).gb = s.gb := (rfl)
@[simp] theorem Upd.chans_fc (k : Nat) (v : Chan) : ((Upd.chans k v).apply s).fc = s.fc := (rfl)
@[simp] theorem Upd.chans_tb (k : Nat) (v : Chan) : ((Upd.chans k v).apply s).tb = s.tb := (rfl)
@[simp] theorem Upd.chans_boot (k : Nat) (v : Chan) : ((Upd.chans k v).apply s).boot = s.boot := (rfl)
@[simp] theorem Upd.chans_tap (k : Nat) (v : Chan) : ((Upd.chans k v).apply s).tap = s.tap := (rfl)
@[simp] theorem Upd.chans_bg (k : Nat) (v : Chan) : ((Upd.chans k v).apply s).bg = s.bg := (rfl)

@[simp] theorem Upd.locks_pending (k : Nat) (v : Lock) : ((Upd.locks k v).apply s).pending = s.pending := (rfl)
@[simp] theorem Upd.locks_free (k : Nat) (v : Lock) : ((Upd.locks k v).apply s).free = s.free := (rfl)
@[simp] theorem Upd.locks_outbox (k : Nat) (v : Lock) : ((Upd.locks k v).apply s).outbox = s.outbox := (rfl)
@[simp] theorem Upd.locks_mem (k : Nat) (v : Lock) : ((Upd.locks k v).apply s).mem = s.mem := (rfl)
@[simp] theorem Upd.locks_bad (k : Nat) (v : Lock) : ((Upd.locks k v).apply s).bad = s.bad := (rfl)
@[simp] theorem Upd.locks_desk (k : Nat) (v : Lock) : ((Upd.locks k v).apply s).desk = s.desk := (rfl)
@[simp] theorem Upd.locks_pg (k : Nat) (v : Lock) : ((Upd.locks k v).apply s).pg = s.pg := (rfl)
@[simp] theorem Upd.locks_regs (k : Nat) (v : Lock) : ((Upd.locks k v).apply s).regs = s.regs := (rfl)
@[simp] theorem Upd.locks_act (k : Nat) (v : Lock) : ((Upd.locks k v).apply s).act = s.act := (rfl)
@[simp] theorem Upd.locks_pendc (k : Nat) (v : Lock) : ((Upd.locks k v).apply s).pendc = s.pendc := (rfl)
@[simp] theorem Upd.locks_goBy (k : Nat) (v : Lock) : ((Upd.locks k v).apply s).goBy = s.goBy := (rfl)
@[simp] theorem Upd.locks_msix (k : Nat) (v : Lock) : ((Upd.locks k v).apply s).msix = s.msix := (rfl)
@[simp] theorem Upd.locks_threads (k : Nat) (v : Lock) : ((Upd.locks k v).apply s).threads = s.threads := (rfl)
@[simp] theorem Upd.locks_acts (k : Nat) (v : Lock) : ((Upd.locks k v).apply s).acts = s.acts := (rfl)
@[simp] theorem Upd.locks_ready (k : Nat) (v : Lock) : ((Upd.locks k v).apply s).ready = s.ready := (rfl)
@[simp] theorem Upd.locks_delay (k : Nat) (v : Lock) : ((Upd.locks k v).apply s).delay = s.delay := (rfl)
@[simp] theorem Upd.locks_ctxs (k : Nat) (v : Lock) : ((Upd.locks k v).apply s).ctxs = s.ctxs := (rfl)
@[simp] theorem Upd.locks_banks (k : Nat) (v : Lock) : ((Upd.locks k v).apply s).banks = s.banks := (rfl)
@[simp] theorem Upd.locks_fuq (k : Nat) (v : Lock) : ((Upd.locks k v).apply s).fuq = s.fuq := (rfl)
@[simp] theorem Upd.locks_units (k : Nat) (v : Lock) : ((Upd.locks k v).apply s).units = s.units := (rfl)
@[simp] theorem Upd.locks_hqueues (k : Nat) (v : Lock) : ((Upd.locks k v).apply s).hqueues = s.hqueues := (rfl)
@[simp] theorem Upd.locks_icache (k : Nat) (v : Lock) : ((Upd.locks k v).apply s).icache = s.icache := (rfl)
@[simp] theorem Upd.locks_learn (k : Nat) (v : Lock) : ((Upd.locks k v).apply s).learn = s.learn := (rfl)
@[simp] theorem Upd.locks_engines (k : Nat) (v : Lock) : ((Upd.locks k v).apply s).engines = s.engines := (rfl)
@[simp] theorem Upd.locks_dirRows (k : Nat) (v : Lock) : ((Upd.locks k v).apply s).dirRows = s.dirRows := (rfl)
@[simp] theorem Upd.locks_dirShadow (k : Nat) (v : Lock) : ((Upd.locks k v).apply s).dirShadow = s.dirShadow := (rfl)
@[simp] theorem Upd.locks_dir (k : Nat) (v : Lock) : ((Upd.locks k v).apply s).dir = s.dir := (rfl)
@[simp] theorem Upd.locks_ddrs (k : Nat) (v : Lock) : ((Upd.locks k v).apply s).ddrs = s.ddrs := (rfl)
@[simp] theorem Upd.locks_bufs (k : Nat) (v : Lock) : ((Upd.locks k v).apply s).bufs = s.bufs := (rfl)
@[simp] theorem Upd.locks_pools (k : Nat) (v : Lock) : ((Upd.locks k v).apply s).pools = s.pools := (rfl)
@[simp] theorem Upd.locks_chans (k : Nat) (v : Lock) : ((Upd.locks k v).apply s).chans = s.chans := (rfl)
@[simp] theorem Upd.locks_locks (k : Nat) (v : Lock) : ((Upd.locks k v).apply s).locks = s.locks.put dfltLocks k v := (rfl)
@[simp] theorem Upd.locks_streams (k : Nat) (v : Lock) : ((Upd.locks k v).apply s).streams = s.streams := (rfl)
@[simp] theorem Upd.locks_ports (k : Nat) (v : Lock) : ((Upd.locks k v).apply s).ports = s.ports := (rfl)
@[simp] theorem Upd.locks_pipes (k : Nat) (v : Lock) : ((Upd.locks k v).apply s).pipes = s.pipes := (rfl)
@[simp] theorem Upd.locks_admitQ (k : Nat) (v : Lock) : ((Upd.locks k v).apply s).admitQ = s.admitQ := (rfl)
@[simp] theorem Upd.locks_terms (k : Nat) (v : Lock) : ((Upd.locks k v).apply s).terms = s.terms := (rfl)
@[simp] theorem Upd.locks_classes (k : Nat) (v : Lock) : ((Upd.locks k v).apply s).classes = s.classes := (rfl)
@[simp] theorem Upd.locks_hostq (k : Nat) (v : Lock) : ((Upd.locks k v).apply s).hostq = s.hostq := (rfl)
@[simp] theorem Upd.locks_ringLinks (k : Nat) (v : Lock) : ((Upd.locks k v).apply s).ringLinks = s.ringLinks := (rfl)
@[simp] theorem Upd.locks_sq (k : Nat) (v : Lock) : ((Upd.locks k v).apply s).sq = s.sq := (rfl)
@[simp] theorem Upd.locks_rc (k : Nat) (v : Lock) : ((Upd.locks k v).apply s).rc = s.rc := (rfl)
@[simp] theorem Upd.locks_cw (k : Nat) (v : Lock) : ((Upd.locks k v).apply s).cw = s.cw := (rfl)
@[simp] theorem Upd.locks_ring (k : Nat) (v : Lock) : ((Upd.locks k v).apply s).ring = s.ring := (rfl)
@[simp] theorem Upd.locks_gb (k : Nat) (v : Lock) : ((Upd.locks k v).apply s).gb = s.gb := (rfl)
@[simp] theorem Upd.locks_fc (k : Nat) (v : Lock) : ((Upd.locks k v).apply s).fc = s.fc := (rfl)
@[simp] theorem Upd.locks_tb (k : Nat) (v : Lock) : ((Upd.locks k v).apply s).tb = s.tb := (rfl)
@[simp] theorem Upd.locks_boot (k : Nat) (v : Lock) : ((Upd.locks k v).apply s).boot = s.boot := (rfl)
@[simp] theorem Upd.locks_tap (k : Nat) (v : Lock) : ((Upd.locks k v).apply s).tap = s.tap := (rfl)
@[simp] theorem Upd.locks_bg (k : Nat) (v : Lock) : ((Upd.locks k v).apply s).bg = s.bg := (rfl)

@[simp] theorem Upd.streams_pending (k : Nat) (v : Option Stream) : ((Upd.streams k v).apply s).pending = s.pending := (rfl)
@[simp] theorem Upd.streams_free (k : Nat) (v : Option Stream) : ((Upd.streams k v).apply s).free = s.free := (rfl)
@[simp] theorem Upd.streams_outbox (k : Nat) (v : Option Stream) : ((Upd.streams k v).apply s).outbox = s.outbox := (rfl)
@[simp] theorem Upd.streams_mem (k : Nat) (v : Option Stream) : ((Upd.streams k v).apply s).mem = s.mem := (rfl)
@[simp] theorem Upd.streams_bad (k : Nat) (v : Option Stream) : ((Upd.streams k v).apply s).bad = s.bad := (rfl)
@[simp] theorem Upd.streams_desk (k : Nat) (v : Option Stream) : ((Upd.streams k v).apply s).desk = s.desk := (rfl)
@[simp] theorem Upd.streams_pg (k : Nat) (v : Option Stream) : ((Upd.streams k v).apply s).pg = s.pg := (rfl)
@[simp] theorem Upd.streams_regs (k : Nat) (v : Option Stream) : ((Upd.streams k v).apply s).regs = s.regs := (rfl)
@[simp] theorem Upd.streams_act (k : Nat) (v : Option Stream) : ((Upd.streams k v).apply s).act = s.act := (rfl)
@[simp] theorem Upd.streams_pendc (k : Nat) (v : Option Stream) : ((Upd.streams k v).apply s).pendc = s.pendc := (rfl)
@[simp] theorem Upd.streams_goBy (k : Nat) (v : Option Stream) : ((Upd.streams k v).apply s).goBy = s.goBy := (rfl)
@[simp] theorem Upd.streams_msix (k : Nat) (v : Option Stream) : ((Upd.streams k v).apply s).msix = s.msix := (rfl)
@[simp] theorem Upd.streams_threads (k : Nat) (v : Option Stream) : ((Upd.streams k v).apply s).threads = s.threads := (rfl)
@[simp] theorem Upd.streams_acts (k : Nat) (v : Option Stream) : ((Upd.streams k v).apply s).acts = s.acts := (rfl)
@[simp] theorem Upd.streams_ready (k : Nat) (v : Option Stream) : ((Upd.streams k v).apply s).ready = s.ready := (rfl)
@[simp] theorem Upd.streams_delay (k : Nat) (v : Option Stream) : ((Upd.streams k v).apply s).delay = s.delay := (rfl)
@[simp] theorem Upd.streams_ctxs (k : Nat) (v : Option Stream) : ((Upd.streams k v).apply s).ctxs = s.ctxs := (rfl)
@[simp] theorem Upd.streams_banks (k : Nat) (v : Option Stream) : ((Upd.streams k v).apply s).banks = s.banks := (rfl)
@[simp] theorem Upd.streams_fuq (k : Nat) (v : Option Stream) : ((Upd.streams k v).apply s).fuq = s.fuq := (rfl)
@[simp] theorem Upd.streams_units (k : Nat) (v : Option Stream) : ((Upd.streams k v).apply s).units = s.units := (rfl)
@[simp] theorem Upd.streams_hqueues (k : Nat) (v : Option Stream) : ((Upd.streams k v).apply s).hqueues = s.hqueues := (rfl)
@[simp] theorem Upd.streams_icache (k : Nat) (v : Option Stream) : ((Upd.streams k v).apply s).icache = s.icache := (rfl)
@[simp] theorem Upd.streams_learn (k : Nat) (v : Option Stream) : ((Upd.streams k v).apply s).learn = s.learn := (rfl)
@[simp] theorem Upd.streams_engines (k : Nat) (v : Option Stream) : ((Upd.streams k v).apply s).engines = s.engines := (rfl)
@[simp] theorem Upd.streams_dirRows (k : Nat) (v : Option Stream) : ((Upd.streams k v).apply s).dirRows = s.dirRows := (rfl)
@[simp] theorem Upd.streams_dirShadow (k : Nat) (v : Option Stream) : ((Upd.streams k v).apply s).dirShadow = s.dirShadow := (rfl)
@[simp] theorem Upd.streams_dir (k : Nat) (v : Option Stream) : ((Upd.streams k v).apply s).dir = s.dir := (rfl)
@[simp] theorem Upd.streams_ddrs (k : Nat) (v : Option Stream) : ((Upd.streams k v).apply s).ddrs = s.ddrs := (rfl)
@[simp] theorem Upd.streams_bufs (k : Nat) (v : Option Stream) : ((Upd.streams k v).apply s).bufs = s.bufs := (rfl)
@[simp] theorem Upd.streams_pools (k : Nat) (v : Option Stream) : ((Upd.streams k v).apply s).pools = s.pools := (rfl)
@[simp] theorem Upd.streams_chans (k : Nat) (v : Option Stream) : ((Upd.streams k v).apply s).chans = s.chans := (rfl)
@[simp] theorem Upd.streams_locks (k : Nat) (v : Option Stream) : ((Upd.streams k v).apply s).locks = s.locks := (rfl)
@[simp] theorem Upd.streams_streams (k : Nat) (v : Option Stream) : ((Upd.streams k v).apply s).streams = s.streams.put dfltStreams k v := (rfl)
@[simp] theorem Upd.streams_ports (k : Nat) (v : Option Stream) : ((Upd.streams k v).apply s).ports = s.ports := (rfl)
@[simp] theorem Upd.streams_pipes (k : Nat) (v : Option Stream) : ((Upd.streams k v).apply s).pipes = s.pipes := (rfl)
@[simp] theorem Upd.streams_admitQ (k : Nat) (v : Option Stream) : ((Upd.streams k v).apply s).admitQ = s.admitQ := (rfl)
@[simp] theorem Upd.streams_terms (k : Nat) (v : Option Stream) : ((Upd.streams k v).apply s).terms = s.terms := (rfl)
@[simp] theorem Upd.streams_classes (k : Nat) (v : Option Stream) : ((Upd.streams k v).apply s).classes = s.classes := (rfl)
@[simp] theorem Upd.streams_hostq (k : Nat) (v : Option Stream) : ((Upd.streams k v).apply s).hostq = s.hostq := (rfl)
@[simp] theorem Upd.streams_ringLinks (k : Nat) (v : Option Stream) : ((Upd.streams k v).apply s).ringLinks = s.ringLinks := (rfl)
@[simp] theorem Upd.streams_sq (k : Nat) (v : Option Stream) : ((Upd.streams k v).apply s).sq = s.sq := (rfl)
@[simp] theorem Upd.streams_rc (k : Nat) (v : Option Stream) : ((Upd.streams k v).apply s).rc = s.rc := (rfl)
@[simp] theorem Upd.streams_cw (k : Nat) (v : Option Stream) : ((Upd.streams k v).apply s).cw = s.cw := (rfl)
@[simp] theorem Upd.streams_ring (k : Nat) (v : Option Stream) : ((Upd.streams k v).apply s).ring = s.ring := (rfl)
@[simp] theorem Upd.streams_gb (k : Nat) (v : Option Stream) : ((Upd.streams k v).apply s).gb = s.gb := (rfl)
@[simp] theorem Upd.streams_fc (k : Nat) (v : Option Stream) : ((Upd.streams k v).apply s).fc = s.fc := (rfl)
@[simp] theorem Upd.streams_tb (k : Nat) (v : Option Stream) : ((Upd.streams k v).apply s).tb = s.tb := (rfl)
@[simp] theorem Upd.streams_boot (k : Nat) (v : Option Stream) : ((Upd.streams k v).apply s).boot = s.boot := (rfl)
@[simp] theorem Upd.streams_tap (k : Nat) (v : Option Stream) : ((Upd.streams k v).apply s).tap = s.tap := (rfl)
@[simp] theorem Upd.streams_bg (k : Nat) (v : Option Stream) : ((Upd.streams k v).apply s).bg = s.bg := (rfl)

@[simp] theorem Upd.ports_pending (k : Nat) (v : Port) : ((Upd.ports k v).apply s).pending = s.pending := (rfl)
@[simp] theorem Upd.ports_free (k : Nat) (v : Port) : ((Upd.ports k v).apply s).free = s.free := (rfl)
@[simp] theorem Upd.ports_outbox (k : Nat) (v : Port) : ((Upd.ports k v).apply s).outbox = s.outbox := (rfl)
@[simp] theorem Upd.ports_mem (k : Nat) (v : Port) : ((Upd.ports k v).apply s).mem = s.mem := (rfl)
@[simp] theorem Upd.ports_bad (k : Nat) (v : Port) : ((Upd.ports k v).apply s).bad = s.bad := (rfl)
@[simp] theorem Upd.ports_desk (k : Nat) (v : Port) : ((Upd.ports k v).apply s).desk = s.desk := (rfl)
@[simp] theorem Upd.ports_pg (k : Nat) (v : Port) : ((Upd.ports k v).apply s).pg = s.pg := (rfl)
@[simp] theorem Upd.ports_regs (k : Nat) (v : Port) : ((Upd.ports k v).apply s).regs = s.regs := (rfl)
@[simp] theorem Upd.ports_act (k : Nat) (v : Port) : ((Upd.ports k v).apply s).act = s.act := (rfl)
@[simp] theorem Upd.ports_pendc (k : Nat) (v : Port) : ((Upd.ports k v).apply s).pendc = s.pendc := (rfl)
@[simp] theorem Upd.ports_goBy (k : Nat) (v : Port) : ((Upd.ports k v).apply s).goBy = s.goBy := (rfl)
@[simp] theorem Upd.ports_msix (k : Nat) (v : Port) : ((Upd.ports k v).apply s).msix = s.msix := (rfl)
@[simp] theorem Upd.ports_threads (k : Nat) (v : Port) : ((Upd.ports k v).apply s).threads = s.threads := (rfl)
@[simp] theorem Upd.ports_acts (k : Nat) (v : Port) : ((Upd.ports k v).apply s).acts = s.acts := (rfl)
@[simp] theorem Upd.ports_ready (k : Nat) (v : Port) : ((Upd.ports k v).apply s).ready = s.ready := (rfl)
@[simp] theorem Upd.ports_delay (k : Nat) (v : Port) : ((Upd.ports k v).apply s).delay = s.delay := (rfl)
@[simp] theorem Upd.ports_ctxs (k : Nat) (v : Port) : ((Upd.ports k v).apply s).ctxs = s.ctxs := (rfl)
@[simp] theorem Upd.ports_banks (k : Nat) (v : Port) : ((Upd.ports k v).apply s).banks = s.banks := (rfl)
@[simp] theorem Upd.ports_fuq (k : Nat) (v : Port) : ((Upd.ports k v).apply s).fuq = s.fuq := (rfl)
@[simp] theorem Upd.ports_units (k : Nat) (v : Port) : ((Upd.ports k v).apply s).units = s.units := (rfl)
@[simp] theorem Upd.ports_hqueues (k : Nat) (v : Port) : ((Upd.ports k v).apply s).hqueues = s.hqueues := (rfl)
@[simp] theorem Upd.ports_icache (k : Nat) (v : Port) : ((Upd.ports k v).apply s).icache = s.icache := (rfl)
@[simp] theorem Upd.ports_learn (k : Nat) (v : Port) : ((Upd.ports k v).apply s).learn = s.learn := (rfl)
@[simp] theorem Upd.ports_engines (k : Nat) (v : Port) : ((Upd.ports k v).apply s).engines = s.engines := (rfl)
@[simp] theorem Upd.ports_dirRows (k : Nat) (v : Port) : ((Upd.ports k v).apply s).dirRows = s.dirRows := (rfl)
@[simp] theorem Upd.ports_dirShadow (k : Nat) (v : Port) : ((Upd.ports k v).apply s).dirShadow = s.dirShadow := (rfl)
@[simp] theorem Upd.ports_dir (k : Nat) (v : Port) : ((Upd.ports k v).apply s).dir = s.dir := (rfl)
@[simp] theorem Upd.ports_ddrs (k : Nat) (v : Port) : ((Upd.ports k v).apply s).ddrs = s.ddrs := (rfl)
@[simp] theorem Upd.ports_bufs (k : Nat) (v : Port) : ((Upd.ports k v).apply s).bufs = s.bufs := (rfl)
@[simp] theorem Upd.ports_pools (k : Nat) (v : Port) : ((Upd.ports k v).apply s).pools = s.pools := (rfl)
@[simp] theorem Upd.ports_chans (k : Nat) (v : Port) : ((Upd.ports k v).apply s).chans = s.chans := (rfl)
@[simp] theorem Upd.ports_locks (k : Nat) (v : Port) : ((Upd.ports k v).apply s).locks = s.locks := (rfl)
@[simp] theorem Upd.ports_streams (k : Nat) (v : Port) : ((Upd.ports k v).apply s).streams = s.streams := (rfl)
@[simp] theorem Upd.ports_ports (k : Nat) (v : Port) : ((Upd.ports k v).apply s).ports = s.ports.put dfltPorts k v := (rfl)
@[simp] theorem Upd.ports_pipes (k : Nat) (v : Port) : ((Upd.ports k v).apply s).pipes = s.pipes := (rfl)
@[simp] theorem Upd.ports_admitQ (k : Nat) (v : Port) : ((Upd.ports k v).apply s).admitQ = s.admitQ := (rfl)
@[simp] theorem Upd.ports_terms (k : Nat) (v : Port) : ((Upd.ports k v).apply s).terms = s.terms := (rfl)
@[simp] theorem Upd.ports_classes (k : Nat) (v : Port) : ((Upd.ports k v).apply s).classes = s.classes := (rfl)
@[simp] theorem Upd.ports_hostq (k : Nat) (v : Port) : ((Upd.ports k v).apply s).hostq = s.hostq := (rfl)
@[simp] theorem Upd.ports_ringLinks (k : Nat) (v : Port) : ((Upd.ports k v).apply s).ringLinks = s.ringLinks := (rfl)
@[simp] theorem Upd.ports_sq (k : Nat) (v : Port) : ((Upd.ports k v).apply s).sq = s.sq := (rfl)
@[simp] theorem Upd.ports_rc (k : Nat) (v : Port) : ((Upd.ports k v).apply s).rc = s.rc := (rfl)
@[simp] theorem Upd.ports_cw (k : Nat) (v : Port) : ((Upd.ports k v).apply s).cw = s.cw := (rfl)
@[simp] theorem Upd.ports_ring (k : Nat) (v : Port) : ((Upd.ports k v).apply s).ring = s.ring := (rfl)
@[simp] theorem Upd.ports_gb (k : Nat) (v : Port) : ((Upd.ports k v).apply s).gb = s.gb := (rfl)
@[simp] theorem Upd.ports_fc (k : Nat) (v : Port) : ((Upd.ports k v).apply s).fc = s.fc := (rfl)
@[simp] theorem Upd.ports_tb (k : Nat) (v : Port) : ((Upd.ports k v).apply s).tb = s.tb := (rfl)
@[simp] theorem Upd.ports_boot (k : Nat) (v : Port) : ((Upd.ports k v).apply s).boot = s.boot := (rfl)
@[simp] theorem Upd.ports_tap (k : Nat) (v : Port) : ((Upd.ports k v).apply s).tap = s.tap := (rfl)
@[simp] theorem Upd.ports_bg (k : Nat) (v : Port) : ((Upd.ports k v).apply s).bg = s.bg := (rfl)

@[simp] theorem Upd.pipes_pending (k : Nat) (v : Pipe) : ((Upd.pipes k v).apply s).pending = s.pending := (rfl)
@[simp] theorem Upd.pipes_free (k : Nat) (v : Pipe) : ((Upd.pipes k v).apply s).free = s.free := (rfl)
@[simp] theorem Upd.pipes_outbox (k : Nat) (v : Pipe) : ((Upd.pipes k v).apply s).outbox = s.outbox := (rfl)
@[simp] theorem Upd.pipes_mem (k : Nat) (v : Pipe) : ((Upd.pipes k v).apply s).mem = s.mem := (rfl)
@[simp] theorem Upd.pipes_bad (k : Nat) (v : Pipe) : ((Upd.pipes k v).apply s).bad = s.bad := (rfl)
@[simp] theorem Upd.pipes_desk (k : Nat) (v : Pipe) : ((Upd.pipes k v).apply s).desk = s.desk := (rfl)
@[simp] theorem Upd.pipes_pg (k : Nat) (v : Pipe) : ((Upd.pipes k v).apply s).pg = s.pg := (rfl)
@[simp] theorem Upd.pipes_regs (k : Nat) (v : Pipe) : ((Upd.pipes k v).apply s).regs = s.regs := (rfl)
@[simp] theorem Upd.pipes_act (k : Nat) (v : Pipe) : ((Upd.pipes k v).apply s).act = s.act := (rfl)
@[simp] theorem Upd.pipes_pendc (k : Nat) (v : Pipe) : ((Upd.pipes k v).apply s).pendc = s.pendc := (rfl)
@[simp] theorem Upd.pipes_goBy (k : Nat) (v : Pipe) : ((Upd.pipes k v).apply s).goBy = s.goBy := (rfl)
@[simp] theorem Upd.pipes_msix (k : Nat) (v : Pipe) : ((Upd.pipes k v).apply s).msix = s.msix := (rfl)
@[simp] theorem Upd.pipes_threads (k : Nat) (v : Pipe) : ((Upd.pipes k v).apply s).threads = s.threads := (rfl)
@[simp] theorem Upd.pipes_acts (k : Nat) (v : Pipe) : ((Upd.pipes k v).apply s).acts = s.acts := (rfl)
@[simp] theorem Upd.pipes_ready (k : Nat) (v : Pipe) : ((Upd.pipes k v).apply s).ready = s.ready := (rfl)
@[simp] theorem Upd.pipes_delay (k : Nat) (v : Pipe) : ((Upd.pipes k v).apply s).delay = s.delay := (rfl)
@[simp] theorem Upd.pipes_ctxs (k : Nat) (v : Pipe) : ((Upd.pipes k v).apply s).ctxs = s.ctxs := (rfl)
@[simp] theorem Upd.pipes_banks (k : Nat) (v : Pipe) : ((Upd.pipes k v).apply s).banks = s.banks := (rfl)
@[simp] theorem Upd.pipes_fuq (k : Nat) (v : Pipe) : ((Upd.pipes k v).apply s).fuq = s.fuq := (rfl)
@[simp] theorem Upd.pipes_units (k : Nat) (v : Pipe) : ((Upd.pipes k v).apply s).units = s.units := (rfl)
@[simp] theorem Upd.pipes_hqueues (k : Nat) (v : Pipe) : ((Upd.pipes k v).apply s).hqueues = s.hqueues := (rfl)
@[simp] theorem Upd.pipes_icache (k : Nat) (v : Pipe) : ((Upd.pipes k v).apply s).icache = s.icache := (rfl)
@[simp] theorem Upd.pipes_learn (k : Nat) (v : Pipe) : ((Upd.pipes k v).apply s).learn = s.learn := (rfl)
@[simp] theorem Upd.pipes_engines (k : Nat) (v : Pipe) : ((Upd.pipes k v).apply s).engines = s.engines := (rfl)
@[simp] theorem Upd.pipes_dirRows (k : Nat) (v : Pipe) : ((Upd.pipes k v).apply s).dirRows = s.dirRows := (rfl)
@[simp] theorem Upd.pipes_dirShadow (k : Nat) (v : Pipe) : ((Upd.pipes k v).apply s).dirShadow = s.dirShadow := (rfl)
@[simp] theorem Upd.pipes_dir (k : Nat) (v : Pipe) : ((Upd.pipes k v).apply s).dir = s.dir := (rfl)
@[simp] theorem Upd.pipes_ddrs (k : Nat) (v : Pipe) : ((Upd.pipes k v).apply s).ddrs = s.ddrs := (rfl)
@[simp] theorem Upd.pipes_bufs (k : Nat) (v : Pipe) : ((Upd.pipes k v).apply s).bufs = s.bufs := (rfl)
@[simp] theorem Upd.pipes_pools (k : Nat) (v : Pipe) : ((Upd.pipes k v).apply s).pools = s.pools := (rfl)
@[simp] theorem Upd.pipes_chans (k : Nat) (v : Pipe) : ((Upd.pipes k v).apply s).chans = s.chans := (rfl)
@[simp] theorem Upd.pipes_locks (k : Nat) (v : Pipe) : ((Upd.pipes k v).apply s).locks = s.locks := (rfl)
@[simp] theorem Upd.pipes_streams (k : Nat) (v : Pipe) : ((Upd.pipes k v).apply s).streams = s.streams := (rfl)
@[simp] theorem Upd.pipes_ports (k : Nat) (v : Pipe) : ((Upd.pipes k v).apply s).ports = s.ports := (rfl)
@[simp] theorem Upd.pipes_pipes (k : Nat) (v : Pipe) : ((Upd.pipes k v).apply s).pipes = s.pipes.put dfltPipes k v := (rfl)
@[simp] theorem Upd.pipes_admitQ (k : Nat) (v : Pipe) : ((Upd.pipes k v).apply s).admitQ = s.admitQ := (rfl)
@[simp] theorem Upd.pipes_terms (k : Nat) (v : Pipe) : ((Upd.pipes k v).apply s).terms = s.terms := (rfl)
@[simp] theorem Upd.pipes_classes (k : Nat) (v : Pipe) : ((Upd.pipes k v).apply s).classes = s.classes := (rfl)
@[simp] theorem Upd.pipes_hostq (k : Nat) (v : Pipe) : ((Upd.pipes k v).apply s).hostq = s.hostq := (rfl)
@[simp] theorem Upd.pipes_ringLinks (k : Nat) (v : Pipe) : ((Upd.pipes k v).apply s).ringLinks = s.ringLinks := (rfl)
@[simp] theorem Upd.pipes_sq (k : Nat) (v : Pipe) : ((Upd.pipes k v).apply s).sq = s.sq := (rfl)
@[simp] theorem Upd.pipes_rc (k : Nat) (v : Pipe) : ((Upd.pipes k v).apply s).rc = s.rc := (rfl)
@[simp] theorem Upd.pipes_cw (k : Nat) (v : Pipe) : ((Upd.pipes k v).apply s).cw = s.cw := (rfl)
@[simp] theorem Upd.pipes_ring (k : Nat) (v : Pipe) : ((Upd.pipes k v).apply s).ring = s.ring := (rfl)
@[simp] theorem Upd.pipes_gb (k : Nat) (v : Pipe) : ((Upd.pipes k v).apply s).gb = s.gb := (rfl)
@[simp] theorem Upd.pipes_fc (k : Nat) (v : Pipe) : ((Upd.pipes k v).apply s).fc = s.fc := (rfl)
@[simp] theorem Upd.pipes_tb (k : Nat) (v : Pipe) : ((Upd.pipes k v).apply s).tb = s.tb := (rfl)
@[simp] theorem Upd.pipes_boot (k : Nat) (v : Pipe) : ((Upd.pipes k v).apply s).boot = s.boot := (rfl)
@[simp] theorem Upd.pipes_tap (k : Nat) (v : Pipe) : ((Upd.pipes k v).apply s).tap = s.tap := (rfl)
@[simp] theorem Upd.pipes_bg (k : Nat) (v : Pipe) : ((Upd.pipes k v).apply s).bg = s.bg := (rfl)

@[simp] theorem Upd.admitQ_pending (k : Nat) (v : List Admitted) : ((Upd.admitQ k v).apply s).pending = s.pending := (rfl)
@[simp] theorem Upd.admitQ_free (k : Nat) (v : List Admitted) : ((Upd.admitQ k v).apply s).free = s.free := (rfl)
@[simp] theorem Upd.admitQ_outbox (k : Nat) (v : List Admitted) : ((Upd.admitQ k v).apply s).outbox = s.outbox := (rfl)
@[simp] theorem Upd.admitQ_mem (k : Nat) (v : List Admitted) : ((Upd.admitQ k v).apply s).mem = s.mem := (rfl)
@[simp] theorem Upd.admitQ_bad (k : Nat) (v : List Admitted) : ((Upd.admitQ k v).apply s).bad = s.bad := (rfl)
@[simp] theorem Upd.admitQ_desk (k : Nat) (v : List Admitted) : ((Upd.admitQ k v).apply s).desk = s.desk := (rfl)
@[simp] theorem Upd.admitQ_pg (k : Nat) (v : List Admitted) : ((Upd.admitQ k v).apply s).pg = s.pg := (rfl)
@[simp] theorem Upd.admitQ_regs (k : Nat) (v : List Admitted) : ((Upd.admitQ k v).apply s).regs = s.regs := (rfl)
@[simp] theorem Upd.admitQ_act (k : Nat) (v : List Admitted) : ((Upd.admitQ k v).apply s).act = s.act := (rfl)
@[simp] theorem Upd.admitQ_pendc (k : Nat) (v : List Admitted) : ((Upd.admitQ k v).apply s).pendc = s.pendc := (rfl)
@[simp] theorem Upd.admitQ_goBy (k : Nat) (v : List Admitted) : ((Upd.admitQ k v).apply s).goBy = s.goBy := (rfl)
@[simp] theorem Upd.admitQ_msix (k : Nat) (v : List Admitted) : ((Upd.admitQ k v).apply s).msix = s.msix := (rfl)
@[simp] theorem Upd.admitQ_threads (k : Nat) (v : List Admitted) : ((Upd.admitQ k v).apply s).threads = s.threads := (rfl)
@[simp] theorem Upd.admitQ_acts (k : Nat) (v : List Admitted) : ((Upd.admitQ k v).apply s).acts = s.acts := (rfl)
@[simp] theorem Upd.admitQ_ready (k : Nat) (v : List Admitted) : ((Upd.admitQ k v).apply s).ready = s.ready := (rfl)
@[simp] theorem Upd.admitQ_delay (k : Nat) (v : List Admitted) : ((Upd.admitQ k v).apply s).delay = s.delay := (rfl)
@[simp] theorem Upd.admitQ_ctxs (k : Nat) (v : List Admitted) : ((Upd.admitQ k v).apply s).ctxs = s.ctxs := (rfl)
@[simp] theorem Upd.admitQ_banks (k : Nat) (v : List Admitted) : ((Upd.admitQ k v).apply s).banks = s.banks := (rfl)
@[simp] theorem Upd.admitQ_fuq (k : Nat) (v : List Admitted) : ((Upd.admitQ k v).apply s).fuq = s.fuq := (rfl)
@[simp] theorem Upd.admitQ_units (k : Nat) (v : List Admitted) : ((Upd.admitQ k v).apply s).units = s.units := (rfl)
@[simp] theorem Upd.admitQ_hqueues (k : Nat) (v : List Admitted) : ((Upd.admitQ k v).apply s).hqueues = s.hqueues := (rfl)
@[simp] theorem Upd.admitQ_icache (k : Nat) (v : List Admitted) : ((Upd.admitQ k v).apply s).icache = s.icache := (rfl)
@[simp] theorem Upd.admitQ_learn (k : Nat) (v : List Admitted) : ((Upd.admitQ k v).apply s).learn = s.learn := (rfl)
@[simp] theorem Upd.admitQ_engines (k : Nat) (v : List Admitted) : ((Upd.admitQ k v).apply s).engines = s.engines := (rfl)
@[simp] theorem Upd.admitQ_dirRows (k : Nat) (v : List Admitted) : ((Upd.admitQ k v).apply s).dirRows = s.dirRows := (rfl)
@[simp] theorem Upd.admitQ_dirShadow (k : Nat) (v : List Admitted) : ((Upd.admitQ k v).apply s).dirShadow = s.dirShadow := (rfl)
@[simp] theorem Upd.admitQ_dir (k : Nat) (v : List Admitted) : ((Upd.admitQ k v).apply s).dir = s.dir := (rfl)
@[simp] theorem Upd.admitQ_ddrs (k : Nat) (v : List Admitted) : ((Upd.admitQ k v).apply s).ddrs = s.ddrs := (rfl)
@[simp] theorem Upd.admitQ_bufs (k : Nat) (v : List Admitted) : ((Upd.admitQ k v).apply s).bufs = s.bufs := (rfl)
@[simp] theorem Upd.admitQ_pools (k : Nat) (v : List Admitted) : ((Upd.admitQ k v).apply s).pools = s.pools := (rfl)
@[simp] theorem Upd.admitQ_chans (k : Nat) (v : List Admitted) : ((Upd.admitQ k v).apply s).chans = s.chans := (rfl)
@[simp] theorem Upd.admitQ_locks (k : Nat) (v : List Admitted) : ((Upd.admitQ k v).apply s).locks = s.locks := (rfl)
@[simp] theorem Upd.admitQ_streams (k : Nat) (v : List Admitted) : ((Upd.admitQ k v).apply s).streams = s.streams := (rfl)
@[simp] theorem Upd.admitQ_ports (k : Nat) (v : List Admitted) : ((Upd.admitQ k v).apply s).ports = s.ports := (rfl)
@[simp] theorem Upd.admitQ_pipes (k : Nat) (v : List Admitted) : ((Upd.admitQ k v).apply s).pipes = s.pipes := (rfl)
@[simp] theorem Upd.admitQ_admitQ (k : Nat) (v : List Admitted) : ((Upd.admitQ k v).apply s).admitQ = s.admitQ.put dfltAdmitQ k v := (rfl)
@[simp] theorem Upd.admitQ_terms (k : Nat) (v : List Admitted) : ((Upd.admitQ k v).apply s).terms = s.terms := (rfl)
@[simp] theorem Upd.admitQ_classes (k : Nat) (v : List Admitted) : ((Upd.admitQ k v).apply s).classes = s.classes := (rfl)
@[simp] theorem Upd.admitQ_hostq (k : Nat) (v : List Admitted) : ((Upd.admitQ k v).apply s).hostq = s.hostq := (rfl)
@[simp] theorem Upd.admitQ_ringLinks (k : Nat) (v : List Admitted) : ((Upd.admitQ k v).apply s).ringLinks = s.ringLinks := (rfl)
@[simp] theorem Upd.admitQ_sq (k : Nat) (v : List Admitted) : ((Upd.admitQ k v).apply s).sq = s.sq := (rfl)
@[simp] theorem Upd.admitQ_rc (k : Nat) (v : List Admitted) : ((Upd.admitQ k v).apply s).rc = s.rc := (rfl)
@[simp] theorem Upd.admitQ_cw (k : Nat) (v : List Admitted) : ((Upd.admitQ k v).apply s).cw = s.cw := (rfl)
@[simp] theorem Upd.admitQ_ring (k : Nat) (v : List Admitted) : ((Upd.admitQ k v).apply s).ring = s.ring := (rfl)
@[simp] theorem Upd.admitQ_gb (k : Nat) (v : List Admitted) : ((Upd.admitQ k v).apply s).gb = s.gb := (rfl)
@[simp] theorem Upd.admitQ_fc (k : Nat) (v : List Admitted) : ((Upd.admitQ k v).apply s).fc = s.fc := (rfl)
@[simp] theorem Upd.admitQ_tb (k : Nat) (v : List Admitted) : ((Upd.admitQ k v).apply s).tb = s.tb := (rfl)
@[simp] theorem Upd.admitQ_boot (k : Nat) (v : List Admitted) : ((Upd.admitQ k v).apply s).boot = s.boot := (rfl)
@[simp] theorem Upd.admitQ_tap (k : Nat) (v : List Admitted) : ((Upd.admitQ k v).apply s).tap = s.tap := (rfl)
@[simp] theorem Upd.admitQ_bg (k : Nat) (v : List Admitted) : ((Upd.admitQ k v).apply s).bg = s.bg := (rfl)

@[simp] theorem Upd.terms_pending (k : Nat) (v : TermSlot) : ((Upd.terms k v).apply s).pending = s.pending := (rfl)
@[simp] theorem Upd.terms_free (k : Nat) (v : TermSlot) : ((Upd.terms k v).apply s).free = s.free := (rfl)
@[simp] theorem Upd.terms_outbox (k : Nat) (v : TermSlot) : ((Upd.terms k v).apply s).outbox = s.outbox := (rfl)
@[simp] theorem Upd.terms_mem (k : Nat) (v : TermSlot) : ((Upd.terms k v).apply s).mem = s.mem := (rfl)
@[simp] theorem Upd.terms_bad (k : Nat) (v : TermSlot) : ((Upd.terms k v).apply s).bad = s.bad := (rfl)
@[simp] theorem Upd.terms_desk (k : Nat) (v : TermSlot) : ((Upd.terms k v).apply s).desk = s.desk := (rfl)
@[simp] theorem Upd.terms_pg (k : Nat) (v : TermSlot) : ((Upd.terms k v).apply s).pg = s.pg := (rfl)
@[simp] theorem Upd.terms_regs (k : Nat) (v : TermSlot) : ((Upd.terms k v).apply s).regs = s.regs := (rfl)
@[simp] theorem Upd.terms_act (k : Nat) (v : TermSlot) : ((Upd.terms k v).apply s).act = s.act := (rfl)
@[simp] theorem Upd.terms_pendc (k : Nat) (v : TermSlot) : ((Upd.terms k v).apply s).pendc = s.pendc := (rfl)
@[simp] theorem Upd.terms_goBy (k : Nat) (v : TermSlot) : ((Upd.terms k v).apply s).goBy = s.goBy := (rfl)
@[simp] theorem Upd.terms_msix (k : Nat) (v : TermSlot) : ((Upd.terms k v).apply s).msix = s.msix := (rfl)
@[simp] theorem Upd.terms_threads (k : Nat) (v : TermSlot) : ((Upd.terms k v).apply s).threads = s.threads := (rfl)
@[simp] theorem Upd.terms_acts (k : Nat) (v : TermSlot) : ((Upd.terms k v).apply s).acts = s.acts := (rfl)
@[simp] theorem Upd.terms_ready (k : Nat) (v : TermSlot) : ((Upd.terms k v).apply s).ready = s.ready := (rfl)
@[simp] theorem Upd.terms_delay (k : Nat) (v : TermSlot) : ((Upd.terms k v).apply s).delay = s.delay := (rfl)
@[simp] theorem Upd.terms_ctxs (k : Nat) (v : TermSlot) : ((Upd.terms k v).apply s).ctxs = s.ctxs := (rfl)
@[simp] theorem Upd.terms_banks (k : Nat) (v : TermSlot) : ((Upd.terms k v).apply s).banks = s.banks := (rfl)
@[simp] theorem Upd.terms_fuq (k : Nat) (v : TermSlot) : ((Upd.terms k v).apply s).fuq = s.fuq := (rfl)
@[simp] theorem Upd.terms_units (k : Nat) (v : TermSlot) : ((Upd.terms k v).apply s).units = s.units := (rfl)
@[simp] theorem Upd.terms_hqueues (k : Nat) (v : TermSlot) : ((Upd.terms k v).apply s).hqueues = s.hqueues := (rfl)
@[simp] theorem Upd.terms_icache (k : Nat) (v : TermSlot) : ((Upd.terms k v).apply s).icache = s.icache := (rfl)
@[simp] theorem Upd.terms_learn (k : Nat) (v : TermSlot) : ((Upd.terms k v).apply s).learn = s.learn := (rfl)
@[simp] theorem Upd.terms_engines (k : Nat) (v : TermSlot) : ((Upd.terms k v).apply s).engines = s.engines := (rfl)
@[simp] theorem Upd.terms_dirRows (k : Nat) (v : TermSlot) : ((Upd.terms k v).apply s).dirRows = s.dirRows := (rfl)
@[simp] theorem Upd.terms_dirShadow (k : Nat) (v : TermSlot) : ((Upd.terms k v).apply s).dirShadow = s.dirShadow := (rfl)
@[simp] theorem Upd.terms_dir (k : Nat) (v : TermSlot) : ((Upd.terms k v).apply s).dir = s.dir := (rfl)
@[simp] theorem Upd.terms_ddrs (k : Nat) (v : TermSlot) : ((Upd.terms k v).apply s).ddrs = s.ddrs := (rfl)
@[simp] theorem Upd.terms_bufs (k : Nat) (v : TermSlot) : ((Upd.terms k v).apply s).bufs = s.bufs := (rfl)
@[simp] theorem Upd.terms_pools (k : Nat) (v : TermSlot) : ((Upd.terms k v).apply s).pools = s.pools := (rfl)
@[simp] theorem Upd.terms_chans (k : Nat) (v : TermSlot) : ((Upd.terms k v).apply s).chans = s.chans := (rfl)
@[simp] theorem Upd.terms_locks (k : Nat) (v : TermSlot) : ((Upd.terms k v).apply s).locks = s.locks := (rfl)
@[simp] theorem Upd.terms_streams (k : Nat) (v : TermSlot) : ((Upd.terms k v).apply s).streams = s.streams := (rfl)
@[simp] theorem Upd.terms_ports (k : Nat) (v : TermSlot) : ((Upd.terms k v).apply s).ports = s.ports := (rfl)
@[simp] theorem Upd.terms_pipes (k : Nat) (v : TermSlot) : ((Upd.terms k v).apply s).pipes = s.pipes := (rfl)
@[simp] theorem Upd.terms_admitQ (k : Nat) (v : TermSlot) : ((Upd.terms k v).apply s).admitQ = s.admitQ := (rfl)
@[simp] theorem Upd.terms_terms (k : Nat) (v : TermSlot) : ((Upd.terms k v).apply s).terms = s.terms.put dfltTerms k v := (rfl)
@[simp] theorem Upd.terms_classes (k : Nat) (v : TermSlot) : ((Upd.terms k v).apply s).classes = s.classes := (rfl)
@[simp] theorem Upd.terms_hostq (k : Nat) (v : TermSlot) : ((Upd.terms k v).apply s).hostq = s.hostq := (rfl)
@[simp] theorem Upd.terms_ringLinks (k : Nat) (v : TermSlot) : ((Upd.terms k v).apply s).ringLinks = s.ringLinks := (rfl)
@[simp] theorem Upd.terms_sq (k : Nat) (v : TermSlot) : ((Upd.terms k v).apply s).sq = s.sq := (rfl)
@[simp] theorem Upd.terms_rc (k : Nat) (v : TermSlot) : ((Upd.terms k v).apply s).rc = s.rc := (rfl)
@[simp] theorem Upd.terms_cw (k : Nat) (v : TermSlot) : ((Upd.terms k v).apply s).cw = s.cw := (rfl)
@[simp] theorem Upd.terms_ring (k : Nat) (v : TermSlot) : ((Upd.terms k v).apply s).ring = s.ring := (rfl)
@[simp] theorem Upd.terms_gb (k : Nat) (v : TermSlot) : ((Upd.terms k v).apply s).gb = s.gb := (rfl)
@[simp] theorem Upd.terms_fc (k : Nat) (v : TermSlot) : ((Upd.terms k v).apply s).fc = s.fc := (rfl)
@[simp] theorem Upd.terms_tb (k : Nat) (v : TermSlot) : ((Upd.terms k v).apply s).tb = s.tb := (rfl)
@[simp] theorem Upd.terms_boot (k : Nat) (v : TermSlot) : ((Upd.terms k v).apply s).boot = s.boot := (rfl)
@[simp] theorem Upd.terms_tap (k : Nat) (v : TermSlot) : ((Upd.terms k v).apply s).tap = s.tap := (rfl)
@[simp] theorem Upd.terms_bg (k : Nat) (v : TermSlot) : ((Upd.terms k v).apply s).bg = s.bg := (rfl)

@[simp] theorem Upd.classes_pending (k : Nat) (v : Classroom) : ((Upd.classes k v).apply s).pending = s.pending := (rfl)
@[simp] theorem Upd.classes_free (k : Nat) (v : Classroom) : ((Upd.classes k v).apply s).free = s.free := (rfl)
@[simp] theorem Upd.classes_outbox (k : Nat) (v : Classroom) : ((Upd.classes k v).apply s).outbox = s.outbox := (rfl)
@[simp] theorem Upd.classes_mem (k : Nat) (v : Classroom) : ((Upd.classes k v).apply s).mem = s.mem := (rfl)
@[simp] theorem Upd.classes_bad (k : Nat) (v : Classroom) : ((Upd.classes k v).apply s).bad = s.bad := (rfl)
@[simp] theorem Upd.classes_desk (k : Nat) (v : Classroom) : ((Upd.classes k v).apply s).desk = s.desk := (rfl)
@[simp] theorem Upd.classes_pg (k : Nat) (v : Classroom) : ((Upd.classes k v).apply s).pg = s.pg := (rfl)
@[simp] theorem Upd.classes_regs (k : Nat) (v : Classroom) : ((Upd.classes k v).apply s).regs = s.regs := (rfl)
@[simp] theorem Upd.classes_act (k : Nat) (v : Classroom) : ((Upd.classes k v).apply s).act = s.act := (rfl)
@[simp] theorem Upd.classes_pendc (k : Nat) (v : Classroom) : ((Upd.classes k v).apply s).pendc = s.pendc := (rfl)
@[simp] theorem Upd.classes_goBy (k : Nat) (v : Classroom) : ((Upd.classes k v).apply s).goBy = s.goBy := (rfl)
@[simp] theorem Upd.classes_msix (k : Nat) (v : Classroom) : ((Upd.classes k v).apply s).msix = s.msix := (rfl)
@[simp] theorem Upd.classes_threads (k : Nat) (v : Classroom) : ((Upd.classes k v).apply s).threads = s.threads := (rfl)
@[simp] theorem Upd.classes_acts (k : Nat) (v : Classroom) : ((Upd.classes k v).apply s).acts = s.acts := (rfl)
@[simp] theorem Upd.classes_ready (k : Nat) (v : Classroom) : ((Upd.classes k v).apply s).ready = s.ready := (rfl)
@[simp] theorem Upd.classes_delay (k : Nat) (v : Classroom) : ((Upd.classes k v).apply s).delay = s.delay := (rfl)
@[simp] theorem Upd.classes_ctxs (k : Nat) (v : Classroom) : ((Upd.classes k v).apply s).ctxs = s.ctxs := (rfl)
@[simp] theorem Upd.classes_banks (k : Nat) (v : Classroom) : ((Upd.classes k v).apply s).banks = s.banks := (rfl)
@[simp] theorem Upd.classes_fuq (k : Nat) (v : Classroom) : ((Upd.classes k v).apply s).fuq = s.fuq := (rfl)
@[simp] theorem Upd.classes_units (k : Nat) (v : Classroom) : ((Upd.classes k v).apply s).units = s.units := (rfl)
@[simp] theorem Upd.classes_hqueues (k : Nat) (v : Classroom) : ((Upd.classes k v).apply s).hqueues = s.hqueues := (rfl)
@[simp] theorem Upd.classes_icache (k : Nat) (v : Classroom) : ((Upd.classes k v).apply s).icache = s.icache := (rfl)
@[simp] theorem Upd.classes_learn (k : Nat) (v : Classroom) : ((Upd.classes k v).apply s).learn = s.learn := (rfl)
@[simp] theorem Upd.classes_engines (k : Nat) (v : Classroom) : ((Upd.classes k v).apply s).engines = s.engines := (rfl)
@[simp] theorem Upd.classes_dirRows (k : Nat) (v : Classroom) : ((Upd.classes k v).apply s).dirRows = s.dirRows := (rfl)
@[simp] theorem Upd.classes_dirShadow (k : Nat) (v : Classroom) : ((Upd.classes k v).apply s).dirShadow = s.dirShadow := (rfl)
@[simp] theorem Upd.classes_dir (k : Nat) (v : Classroom) : ((Upd.classes k v).apply s).dir = s.dir := (rfl)
@[simp] theorem Upd.classes_ddrs (k : Nat) (v : Classroom) : ((Upd.classes k v).apply s).ddrs = s.ddrs := (rfl)
@[simp] theorem Upd.classes_bufs (k : Nat) (v : Classroom) : ((Upd.classes k v).apply s).bufs = s.bufs := (rfl)
@[simp] theorem Upd.classes_pools (k : Nat) (v : Classroom) : ((Upd.classes k v).apply s).pools = s.pools := (rfl)
@[simp] theorem Upd.classes_chans (k : Nat) (v : Classroom) : ((Upd.classes k v).apply s).chans = s.chans := (rfl)
@[simp] theorem Upd.classes_locks (k : Nat) (v : Classroom) : ((Upd.classes k v).apply s).locks = s.locks := (rfl)
@[simp] theorem Upd.classes_streams (k : Nat) (v : Classroom) : ((Upd.classes k v).apply s).streams = s.streams := (rfl)
@[simp] theorem Upd.classes_ports (k : Nat) (v : Classroom) : ((Upd.classes k v).apply s).ports = s.ports := (rfl)
@[simp] theorem Upd.classes_pipes (k : Nat) (v : Classroom) : ((Upd.classes k v).apply s).pipes = s.pipes := (rfl)
@[simp] theorem Upd.classes_admitQ (k : Nat) (v : Classroom) : ((Upd.classes k v).apply s).admitQ = s.admitQ := (rfl)
@[simp] theorem Upd.classes_terms (k : Nat) (v : Classroom) : ((Upd.classes k v).apply s).terms = s.terms := (rfl)
@[simp] theorem Upd.classes_classes (k : Nat) (v : Classroom) : ((Upd.classes k v).apply s).classes = s.classes.put dfltClasses k v := (rfl)
@[simp] theorem Upd.classes_hostq (k : Nat) (v : Classroom) : ((Upd.classes k v).apply s).hostq = s.hostq := (rfl)
@[simp] theorem Upd.classes_ringLinks (k : Nat) (v : Classroom) : ((Upd.classes k v).apply s).ringLinks = s.ringLinks := (rfl)
@[simp] theorem Upd.classes_sq (k : Nat) (v : Classroom) : ((Upd.classes k v).apply s).sq = s.sq := (rfl)
@[simp] theorem Upd.classes_rc (k : Nat) (v : Classroom) : ((Upd.classes k v).apply s).rc = s.rc := (rfl)
@[simp] theorem Upd.classes_cw (k : Nat) (v : Classroom) : ((Upd.classes k v).apply s).cw = s.cw := (rfl)
@[simp] theorem Upd.classes_ring (k : Nat) (v : Classroom) : ((Upd.classes k v).apply s).ring = s.ring := (rfl)
@[simp] theorem Upd.classes_gb (k : Nat) (v : Classroom) : ((Upd.classes k v).apply s).gb = s.gb := (rfl)
@[simp] theorem Upd.classes_fc (k : Nat) (v : Classroom) : ((Upd.classes k v).apply s).fc = s.fc := (rfl)
@[simp] theorem Upd.classes_tb (k : Nat) (v : Classroom) : ((Upd.classes k v).apply s).tb = s.tb := (rfl)
@[simp] theorem Upd.classes_boot (k : Nat) (v : Classroom) : ((Upd.classes k v).apply s).boot = s.boot := (rfl)
@[simp] theorem Upd.classes_tap (k : Nat) (v : Classroom) : ((Upd.classes k v).apply s).tap = s.tap := (rfl)
@[simp] theorem Upd.classes_bg (k : Nat) (v : Classroom) : ((Upd.classes k v).apply s).bg = s.bg := (rfl)

@[simp] theorem Upd.hostq_pending (k : Nat) (v : HostQ) : ((Upd.hostq k v).apply s).pending = s.pending := (rfl)
@[simp] theorem Upd.hostq_free (k : Nat) (v : HostQ) : ((Upd.hostq k v).apply s).free = s.free := (rfl)
@[simp] theorem Upd.hostq_outbox (k : Nat) (v : HostQ) : ((Upd.hostq k v).apply s).outbox = s.outbox := (rfl)
@[simp] theorem Upd.hostq_mem (k : Nat) (v : HostQ) : ((Upd.hostq k v).apply s).mem = s.mem := (rfl)
@[simp] theorem Upd.hostq_bad (k : Nat) (v : HostQ) : ((Upd.hostq k v).apply s).bad = s.bad := (rfl)
@[simp] theorem Upd.hostq_desk (k : Nat) (v : HostQ) : ((Upd.hostq k v).apply s).desk = s.desk := (rfl)
@[simp] theorem Upd.hostq_pg (k : Nat) (v : HostQ) : ((Upd.hostq k v).apply s).pg = s.pg := (rfl)
@[simp] theorem Upd.hostq_regs (k : Nat) (v : HostQ) : ((Upd.hostq k v).apply s).regs = s.regs := (rfl)
@[simp] theorem Upd.hostq_act (k : Nat) (v : HostQ) : ((Upd.hostq k v).apply s).act = s.act := (rfl)
@[simp] theorem Upd.hostq_pendc (k : Nat) (v : HostQ) : ((Upd.hostq k v).apply s).pendc = s.pendc := (rfl)
@[simp] theorem Upd.hostq_goBy (k : Nat) (v : HostQ) : ((Upd.hostq k v).apply s).goBy = s.goBy := (rfl)
@[simp] theorem Upd.hostq_msix (k : Nat) (v : HostQ) : ((Upd.hostq k v).apply s).msix = s.msix := (rfl)
@[simp] theorem Upd.hostq_threads (k : Nat) (v : HostQ) : ((Upd.hostq k v).apply s).threads = s.threads := (rfl)
@[simp] theorem Upd.hostq_acts (k : Nat) (v : HostQ) : ((Upd.hostq k v).apply s).acts = s.acts := (rfl)
@[simp] theorem Upd.hostq_ready (k : Nat) (v : HostQ) : ((Upd.hostq k v).apply s).ready = s.ready := (rfl)
@[simp] theorem Upd.hostq_delay (k : Nat) (v : HostQ) : ((Upd.hostq k v).apply s).delay = s.delay := (rfl)
@[simp] theorem Upd.hostq_ctxs (k : Nat) (v : HostQ) : ((Upd.hostq k v).apply s).ctxs = s.ctxs := (rfl)
@[simp] theorem Upd.hostq_banks (k : Nat) (v : HostQ) : ((Upd.hostq k v).apply s).banks = s.banks := (rfl)
@[simp] theorem Upd.hostq_fuq (k : Nat) (v : HostQ) : ((Upd.hostq k v).apply s).fuq = s.fuq := (rfl)
@[simp] theorem Upd.hostq_units (k : Nat) (v : HostQ) : ((Upd.hostq k v).apply s).units = s.units := (rfl)
@[simp] theorem Upd.hostq_hqueues (k : Nat) (v : HostQ) : ((Upd.hostq k v).apply s).hqueues = s.hqueues := (rfl)
@[simp] theorem Upd.hostq_icache (k : Nat) (v : HostQ) : ((Upd.hostq k v).apply s).icache = s.icache := (rfl)
@[simp] theorem Upd.hostq_learn (k : Nat) (v : HostQ) : ((Upd.hostq k v).apply s).learn = s.learn := (rfl)
@[simp] theorem Upd.hostq_engines (k : Nat) (v : HostQ) : ((Upd.hostq k v).apply s).engines = s.engines := (rfl)
@[simp] theorem Upd.hostq_dirRows (k : Nat) (v : HostQ) : ((Upd.hostq k v).apply s).dirRows = s.dirRows := (rfl)
@[simp] theorem Upd.hostq_dirShadow (k : Nat) (v : HostQ) : ((Upd.hostq k v).apply s).dirShadow = s.dirShadow := (rfl)
@[simp] theorem Upd.hostq_dir (k : Nat) (v : HostQ) : ((Upd.hostq k v).apply s).dir = s.dir := (rfl)
@[simp] theorem Upd.hostq_ddrs (k : Nat) (v : HostQ) : ((Upd.hostq k v).apply s).ddrs = s.ddrs := (rfl)
@[simp] theorem Upd.hostq_bufs (k : Nat) (v : HostQ) : ((Upd.hostq k v).apply s).bufs = s.bufs := (rfl)
@[simp] theorem Upd.hostq_pools (k : Nat) (v : HostQ) : ((Upd.hostq k v).apply s).pools = s.pools := (rfl)
@[simp] theorem Upd.hostq_chans (k : Nat) (v : HostQ) : ((Upd.hostq k v).apply s).chans = s.chans := (rfl)
@[simp] theorem Upd.hostq_locks (k : Nat) (v : HostQ) : ((Upd.hostq k v).apply s).locks = s.locks := (rfl)
@[simp] theorem Upd.hostq_streams (k : Nat) (v : HostQ) : ((Upd.hostq k v).apply s).streams = s.streams := (rfl)
@[simp] theorem Upd.hostq_ports (k : Nat) (v : HostQ) : ((Upd.hostq k v).apply s).ports = s.ports := (rfl)
@[simp] theorem Upd.hostq_pipes (k : Nat) (v : HostQ) : ((Upd.hostq k v).apply s).pipes = s.pipes := (rfl)
@[simp] theorem Upd.hostq_admitQ (k : Nat) (v : HostQ) : ((Upd.hostq k v).apply s).admitQ = s.admitQ := (rfl)
@[simp] theorem Upd.hostq_terms (k : Nat) (v : HostQ) : ((Upd.hostq k v).apply s).terms = s.terms := (rfl)
@[simp] theorem Upd.hostq_classes (k : Nat) (v : HostQ) : ((Upd.hostq k v).apply s).classes = s.classes := (rfl)
@[simp] theorem Upd.hostq_hostq (k : Nat) (v : HostQ) : ((Upd.hostq k v).apply s).hostq = s.hostq.put dfltHostq k v := (rfl)
@[simp] theorem Upd.hostq_ringLinks (k : Nat) (v : HostQ) : ((Upd.hostq k v).apply s).ringLinks = s.ringLinks := (rfl)
@[simp] theorem Upd.hostq_sq (k : Nat) (v : HostQ) : ((Upd.hostq k v).apply s).sq = s.sq := (rfl)
@[simp] theorem Upd.hostq_rc (k : Nat) (v : HostQ) : ((Upd.hostq k v).apply s).rc = s.rc := (rfl)
@[simp] theorem Upd.hostq_cw (k : Nat) (v : HostQ) : ((Upd.hostq k v).apply s).cw = s.cw := (rfl)
@[simp] theorem Upd.hostq_ring (k : Nat) (v : HostQ) : ((Upd.hostq k v).apply s).ring = s.ring := (rfl)
@[simp] theorem Upd.hostq_gb (k : Nat) (v : HostQ) : ((Upd.hostq k v).apply s).gb = s.gb := (rfl)
@[simp] theorem Upd.hostq_fc (k : Nat) (v : HostQ) : ((Upd.hostq k v).apply s).fc = s.fc := (rfl)
@[simp] theorem Upd.hostq_tb (k : Nat) (v : HostQ) : ((Upd.hostq k v).apply s).tb = s.tb := (rfl)
@[simp] theorem Upd.hostq_boot (k : Nat) (v : HostQ) : ((Upd.hostq k v).apply s).boot = s.boot := (rfl)
@[simp] theorem Upd.hostq_tap (k : Nat) (v : HostQ) : ((Upd.hostq k v).apply s).tap = s.tap := (rfl)
@[simp] theorem Upd.hostq_bg (k : Nat) (v : HostQ) : ((Upd.hostq k v).apply s).bg = s.bg := (rfl)

@[simp] theorem Upd.ringLinks_pending (k : Nat) (v : RingLink) : ((Upd.ringLinks k v).apply s).pending = s.pending := (rfl)
@[simp] theorem Upd.ringLinks_free (k : Nat) (v : RingLink) : ((Upd.ringLinks k v).apply s).free = s.free := (rfl)
@[simp] theorem Upd.ringLinks_outbox (k : Nat) (v : RingLink) : ((Upd.ringLinks k v).apply s).outbox = s.outbox := (rfl)
@[simp] theorem Upd.ringLinks_mem (k : Nat) (v : RingLink) : ((Upd.ringLinks k v).apply s).mem = s.mem := (rfl)
@[simp] theorem Upd.ringLinks_bad (k : Nat) (v : RingLink) : ((Upd.ringLinks k v).apply s).bad = s.bad := (rfl)
@[simp] theorem Upd.ringLinks_desk (k : Nat) (v : RingLink) : ((Upd.ringLinks k v).apply s).desk = s.desk := (rfl)
@[simp] theorem Upd.ringLinks_pg (k : Nat) (v : RingLink) : ((Upd.ringLinks k v).apply s).pg = s.pg := (rfl)
@[simp] theorem Upd.ringLinks_regs (k : Nat) (v : RingLink) : ((Upd.ringLinks k v).apply s).regs = s.regs := (rfl)
@[simp] theorem Upd.ringLinks_act (k : Nat) (v : RingLink) : ((Upd.ringLinks k v).apply s).act = s.act := (rfl)
@[simp] theorem Upd.ringLinks_pendc (k : Nat) (v : RingLink) : ((Upd.ringLinks k v).apply s).pendc = s.pendc := (rfl)
@[simp] theorem Upd.ringLinks_goBy (k : Nat) (v : RingLink) : ((Upd.ringLinks k v).apply s).goBy = s.goBy := (rfl)
@[simp] theorem Upd.ringLinks_msix (k : Nat) (v : RingLink) : ((Upd.ringLinks k v).apply s).msix = s.msix := (rfl)
@[simp] theorem Upd.ringLinks_threads (k : Nat) (v : RingLink) : ((Upd.ringLinks k v).apply s).threads = s.threads := (rfl)
@[simp] theorem Upd.ringLinks_acts (k : Nat) (v : RingLink) : ((Upd.ringLinks k v).apply s).acts = s.acts := (rfl)
@[simp] theorem Upd.ringLinks_ready (k : Nat) (v : RingLink) : ((Upd.ringLinks k v).apply s).ready = s.ready := (rfl)
@[simp] theorem Upd.ringLinks_delay (k : Nat) (v : RingLink) : ((Upd.ringLinks k v).apply s).delay = s.delay := (rfl)
@[simp] theorem Upd.ringLinks_ctxs (k : Nat) (v : RingLink) : ((Upd.ringLinks k v).apply s).ctxs = s.ctxs := (rfl)
@[simp] theorem Upd.ringLinks_banks (k : Nat) (v : RingLink) : ((Upd.ringLinks k v).apply s).banks = s.banks := (rfl)
@[simp] theorem Upd.ringLinks_fuq (k : Nat) (v : RingLink) : ((Upd.ringLinks k v).apply s).fuq = s.fuq := (rfl)
@[simp] theorem Upd.ringLinks_units (k : Nat) (v : RingLink) : ((Upd.ringLinks k v).apply s).units = s.units := (rfl)
@[simp] theorem Upd.ringLinks_hqueues (k : Nat) (v : RingLink) : ((Upd.ringLinks k v).apply s).hqueues = s.hqueues := (rfl)
@[simp] theorem Upd.ringLinks_icache (k : Nat) (v : RingLink) : ((Upd.ringLinks k v).apply s).icache = s.icache := (rfl)
@[simp] theorem Upd.ringLinks_learn (k : Nat) (v : RingLink) : ((Upd.ringLinks k v).apply s).learn = s.learn := (rfl)
@[simp] theorem Upd.ringLinks_engines (k : Nat) (v : RingLink) : ((Upd.ringLinks k v).apply s).engines = s.engines := (rfl)
@[simp] theorem Upd.ringLinks_dirRows (k : Nat) (v : RingLink) : ((Upd.ringLinks k v).apply s).dirRows = s.dirRows := (rfl)
@[simp] theorem Upd.ringLinks_dirShadow (k : Nat) (v : RingLink) : ((Upd.ringLinks k v).apply s).dirShadow = s.dirShadow := (rfl)
@[simp] theorem Upd.ringLinks_dir (k : Nat) (v : RingLink) : ((Upd.ringLinks k v).apply s).dir = s.dir := (rfl)
@[simp] theorem Upd.ringLinks_ddrs (k : Nat) (v : RingLink) : ((Upd.ringLinks k v).apply s).ddrs = s.ddrs := (rfl)
@[simp] theorem Upd.ringLinks_bufs (k : Nat) (v : RingLink) : ((Upd.ringLinks k v).apply s).bufs = s.bufs := (rfl)
@[simp] theorem Upd.ringLinks_pools (k : Nat) (v : RingLink) : ((Upd.ringLinks k v).apply s).pools = s.pools := (rfl)
@[simp] theorem Upd.ringLinks_chans (k : Nat) (v : RingLink) : ((Upd.ringLinks k v).apply s).chans = s.chans := (rfl)
@[simp] theorem Upd.ringLinks_locks (k : Nat) (v : RingLink) : ((Upd.ringLinks k v).apply s).locks = s.locks := (rfl)
@[simp] theorem Upd.ringLinks_streams (k : Nat) (v : RingLink) : ((Upd.ringLinks k v).apply s).streams = s.streams := (rfl)
@[simp] theorem Upd.ringLinks_ports (k : Nat) (v : RingLink) : ((Upd.ringLinks k v).apply s).ports = s.ports := (rfl)
@[simp] theorem Upd.ringLinks_pipes (k : Nat) (v : RingLink) : ((Upd.ringLinks k v).apply s).pipes = s.pipes := (rfl)
@[simp] theorem Upd.ringLinks_admitQ (k : Nat) (v : RingLink) : ((Upd.ringLinks k v).apply s).admitQ = s.admitQ := (rfl)
@[simp] theorem Upd.ringLinks_terms (k : Nat) (v : RingLink) : ((Upd.ringLinks k v).apply s).terms = s.terms := (rfl)
@[simp] theorem Upd.ringLinks_classes (k : Nat) (v : RingLink) : ((Upd.ringLinks k v).apply s).classes = s.classes := (rfl)
@[simp] theorem Upd.ringLinks_hostq (k : Nat) (v : RingLink) : ((Upd.ringLinks k v).apply s).hostq = s.hostq := (rfl)
@[simp] theorem Upd.ringLinks_ringLinks (k : Nat) (v : RingLink) : ((Upd.ringLinks k v).apply s).ringLinks = s.ringLinks.put dfltRingLinks k v := (rfl)
@[simp] theorem Upd.ringLinks_sq (k : Nat) (v : RingLink) : ((Upd.ringLinks k v).apply s).sq = s.sq := (rfl)
@[simp] theorem Upd.ringLinks_rc (k : Nat) (v : RingLink) : ((Upd.ringLinks k v).apply s).rc = s.rc := (rfl)
@[simp] theorem Upd.ringLinks_cw (k : Nat) (v : RingLink) : ((Upd.ringLinks k v).apply s).cw = s.cw := (rfl)
@[simp] theorem Upd.ringLinks_ring (k : Nat) (v : RingLink) : ((Upd.ringLinks k v).apply s).ring = s.ring := (rfl)
@[simp] theorem Upd.ringLinks_gb (k : Nat) (v : RingLink) : ((Upd.ringLinks k v).apply s).gb = s.gb := (rfl)
@[simp] theorem Upd.ringLinks_fc (k : Nat) (v : RingLink) : ((Upd.ringLinks k v).apply s).fc = s.fc := (rfl)
@[simp] theorem Upd.ringLinks_tb (k : Nat) (v : RingLink) : ((Upd.ringLinks k v).apply s).tb = s.tb := (rfl)
@[simp] theorem Upd.ringLinks_boot (k : Nat) (v : RingLink) : ((Upd.ringLinks k v).apply s).boot = s.boot := (rfl)
@[simp] theorem Upd.ringLinks_tap (k : Nat) (v : RingLink) : ((Upd.ringLinks k v).apply s).tap = s.tap := (rfl)
@[simp] theorem Upd.ringLinks_bg (k : Nat) (v : RingLink) : ((Upd.ringLinks k v).apply s).bg = s.bg := (rfl)

@[simp] theorem Upd.sq_pending (v : SqState) : ((Upd.sq v).apply s).pending = s.pending := (rfl)
@[simp] theorem Upd.sq_free (v : SqState) : ((Upd.sq v).apply s).free = s.free := (rfl)
@[simp] theorem Upd.sq_outbox (v : SqState) : ((Upd.sq v).apply s).outbox = s.outbox := (rfl)
@[simp] theorem Upd.sq_mem (v : SqState) : ((Upd.sq v).apply s).mem = s.mem := (rfl)
@[simp] theorem Upd.sq_bad (v : SqState) : ((Upd.sq v).apply s).bad = s.bad := (rfl)
@[simp] theorem Upd.sq_desk (v : SqState) : ((Upd.sq v).apply s).desk = s.desk := (rfl)
@[simp] theorem Upd.sq_pg (v : SqState) : ((Upd.sq v).apply s).pg = s.pg := (rfl)
@[simp] theorem Upd.sq_regs (v : SqState) : ((Upd.sq v).apply s).regs = s.regs := (rfl)
@[simp] theorem Upd.sq_act (v : SqState) : ((Upd.sq v).apply s).act = s.act := (rfl)
@[simp] theorem Upd.sq_pendc (v : SqState) : ((Upd.sq v).apply s).pendc = s.pendc := (rfl)
@[simp] theorem Upd.sq_goBy (v : SqState) : ((Upd.sq v).apply s).goBy = s.goBy := (rfl)
@[simp] theorem Upd.sq_msix (v : SqState) : ((Upd.sq v).apply s).msix = s.msix := (rfl)
@[simp] theorem Upd.sq_threads (v : SqState) : ((Upd.sq v).apply s).threads = s.threads := (rfl)
@[simp] theorem Upd.sq_acts (v : SqState) : ((Upd.sq v).apply s).acts = s.acts := (rfl)
@[simp] theorem Upd.sq_ready (v : SqState) : ((Upd.sq v).apply s).ready = s.ready := (rfl)
@[simp] theorem Upd.sq_delay (v : SqState) : ((Upd.sq v).apply s).delay = s.delay := (rfl)
@[simp] theorem Upd.sq_ctxs (v : SqState) : ((Upd.sq v).apply s).ctxs = s.ctxs := (rfl)
@[simp] theorem Upd.sq_banks (v : SqState) : ((Upd.sq v).apply s).banks = s.banks := (rfl)
@[simp] theorem Upd.sq_fuq (v : SqState) : ((Upd.sq v).apply s).fuq = s.fuq := (rfl)
@[simp] theorem Upd.sq_units (v : SqState) : ((Upd.sq v).apply s).units = s.units := (rfl)
@[simp] theorem Upd.sq_hqueues (v : SqState) : ((Upd.sq v).apply s).hqueues = s.hqueues := (rfl)
@[simp] theorem Upd.sq_icache (v : SqState) : ((Upd.sq v).apply s).icache = s.icache := (rfl)
@[simp] theorem Upd.sq_learn (v : SqState) : ((Upd.sq v).apply s).learn = s.learn := (rfl)
@[simp] theorem Upd.sq_engines (v : SqState) : ((Upd.sq v).apply s).engines = s.engines := (rfl)
@[simp] theorem Upd.sq_dirRows (v : SqState) : ((Upd.sq v).apply s).dirRows = s.dirRows := (rfl)
@[simp] theorem Upd.sq_dirShadow (v : SqState) : ((Upd.sq v).apply s).dirShadow = s.dirShadow := (rfl)
@[simp] theorem Upd.sq_dir (v : SqState) : ((Upd.sq v).apply s).dir = s.dir := (rfl)
@[simp] theorem Upd.sq_ddrs (v : SqState) : ((Upd.sq v).apply s).ddrs = s.ddrs := (rfl)
@[simp] theorem Upd.sq_bufs (v : SqState) : ((Upd.sq v).apply s).bufs = s.bufs := (rfl)
@[simp] theorem Upd.sq_pools (v : SqState) : ((Upd.sq v).apply s).pools = s.pools := (rfl)
@[simp] theorem Upd.sq_chans (v : SqState) : ((Upd.sq v).apply s).chans = s.chans := (rfl)
@[simp] theorem Upd.sq_locks (v : SqState) : ((Upd.sq v).apply s).locks = s.locks := (rfl)
@[simp] theorem Upd.sq_streams (v : SqState) : ((Upd.sq v).apply s).streams = s.streams := (rfl)
@[simp] theorem Upd.sq_ports (v : SqState) : ((Upd.sq v).apply s).ports = s.ports := (rfl)
@[simp] theorem Upd.sq_pipes (v : SqState) : ((Upd.sq v).apply s).pipes = s.pipes := (rfl)
@[simp] theorem Upd.sq_admitQ (v : SqState) : ((Upd.sq v).apply s).admitQ = s.admitQ := (rfl)
@[simp] theorem Upd.sq_terms (v : SqState) : ((Upd.sq v).apply s).terms = s.terms := (rfl)
@[simp] theorem Upd.sq_classes (v : SqState) : ((Upd.sq v).apply s).classes = s.classes := (rfl)
@[simp] theorem Upd.sq_hostq (v : SqState) : ((Upd.sq v).apply s).hostq = s.hostq := (rfl)
@[simp] theorem Upd.sq_ringLinks (v : SqState) : ((Upd.sq v).apply s).ringLinks = s.ringLinks := (rfl)
@[simp] theorem Upd.sq_sq (v : SqState) : ((Upd.sq v).apply s).sq = v := (rfl)
@[simp] theorem Upd.sq_rc (v : SqState) : ((Upd.sq v).apply s).rc = s.rc := (rfl)
@[simp] theorem Upd.sq_cw (v : SqState) : ((Upd.sq v).apply s).cw = s.cw := (rfl)
@[simp] theorem Upd.sq_ring (v : SqState) : ((Upd.sq v).apply s).ring = s.ring := (rfl)
@[simp] theorem Upd.sq_gb (v : SqState) : ((Upd.sq v).apply s).gb = s.gb := (rfl)
@[simp] theorem Upd.sq_fc (v : SqState) : ((Upd.sq v).apply s).fc = s.fc := (rfl)
@[simp] theorem Upd.sq_tb (v : SqState) : ((Upd.sq v).apply s).tb = s.tb := (rfl)
@[simp] theorem Upd.sq_boot (v : SqState) : ((Upd.sq v).apply s).boot = s.boot := (rfl)
@[simp] theorem Upd.sq_tap (v : SqState) : ((Upd.sq v).apply s).tap = s.tap := (rfl)
@[simp] theorem Upd.sq_bg (v : SqState) : ((Upd.sq v).apply s).bg = s.bg := (rfl)

@[simp] theorem Upd.rc_pending (v : RcState) : ((Upd.rc v).apply s).pending = s.pending := (rfl)
@[simp] theorem Upd.rc_free (v : RcState) : ((Upd.rc v).apply s).free = s.free := (rfl)
@[simp] theorem Upd.rc_outbox (v : RcState) : ((Upd.rc v).apply s).outbox = s.outbox := (rfl)
@[simp] theorem Upd.rc_mem (v : RcState) : ((Upd.rc v).apply s).mem = s.mem := (rfl)
@[simp] theorem Upd.rc_bad (v : RcState) : ((Upd.rc v).apply s).bad = s.bad := (rfl)
@[simp] theorem Upd.rc_desk (v : RcState) : ((Upd.rc v).apply s).desk = s.desk := (rfl)
@[simp] theorem Upd.rc_pg (v : RcState) : ((Upd.rc v).apply s).pg = s.pg := (rfl)
@[simp] theorem Upd.rc_regs (v : RcState) : ((Upd.rc v).apply s).regs = s.regs := (rfl)
@[simp] theorem Upd.rc_act (v : RcState) : ((Upd.rc v).apply s).act = s.act := (rfl)
@[simp] theorem Upd.rc_pendc (v : RcState) : ((Upd.rc v).apply s).pendc = s.pendc := (rfl)
@[simp] theorem Upd.rc_goBy (v : RcState) : ((Upd.rc v).apply s).goBy = s.goBy := (rfl)
@[simp] theorem Upd.rc_msix (v : RcState) : ((Upd.rc v).apply s).msix = s.msix := (rfl)
@[simp] theorem Upd.rc_threads (v : RcState) : ((Upd.rc v).apply s).threads = s.threads := (rfl)
@[simp] theorem Upd.rc_acts (v : RcState) : ((Upd.rc v).apply s).acts = s.acts := (rfl)
@[simp] theorem Upd.rc_ready (v : RcState) : ((Upd.rc v).apply s).ready = s.ready := (rfl)
@[simp] theorem Upd.rc_delay (v : RcState) : ((Upd.rc v).apply s).delay = s.delay := (rfl)
@[simp] theorem Upd.rc_ctxs (v : RcState) : ((Upd.rc v).apply s).ctxs = s.ctxs := (rfl)
@[simp] theorem Upd.rc_banks (v : RcState) : ((Upd.rc v).apply s).banks = s.banks := (rfl)
@[simp] theorem Upd.rc_fuq (v : RcState) : ((Upd.rc v).apply s).fuq = s.fuq := (rfl)
@[simp] theorem Upd.rc_units (v : RcState) : ((Upd.rc v).apply s).units = s.units := (rfl)
@[simp] theorem Upd.rc_hqueues (v : RcState) : ((Upd.rc v).apply s).hqueues = s.hqueues := (rfl)
@[simp] theorem Upd.rc_icache (v : RcState) : ((Upd.rc v).apply s).icache = s.icache := (rfl)
@[simp] theorem Upd.rc_learn (v : RcState) : ((Upd.rc v).apply s).learn = s.learn := (rfl)
@[simp] theorem Upd.rc_engines (v : RcState) : ((Upd.rc v).apply s).engines = s.engines := (rfl)
@[simp] theorem Upd.rc_dirRows (v : RcState) : ((Upd.rc v).apply s).dirRows = s.dirRows := (rfl)
@[simp] theorem Upd.rc_dirShadow (v : RcState) : ((Upd.rc v).apply s).dirShadow = s.dirShadow := (rfl)
@[simp] theorem Upd.rc_dir (v : RcState) : ((Upd.rc v).apply s).dir = s.dir := (rfl)
@[simp] theorem Upd.rc_ddrs (v : RcState) : ((Upd.rc v).apply s).ddrs = s.ddrs := (rfl)
@[simp] theorem Upd.rc_bufs (v : RcState) : ((Upd.rc v).apply s).bufs = s.bufs := (rfl)
@[simp] theorem Upd.rc_pools (v : RcState) : ((Upd.rc v).apply s).pools = s.pools := (rfl)
@[simp] theorem Upd.rc_chans (v : RcState) : ((Upd.rc v).apply s).chans = s.chans := (rfl)
@[simp] theorem Upd.rc_locks (v : RcState) : ((Upd.rc v).apply s).locks = s.locks := (rfl)
@[simp] theorem Upd.rc_streams (v : RcState) : ((Upd.rc v).apply s).streams = s.streams := (rfl)
@[simp] theorem Upd.rc_ports (v : RcState) : ((Upd.rc v).apply s).ports = s.ports := (rfl)
@[simp] theorem Upd.rc_pipes (v : RcState) : ((Upd.rc v).apply s).pipes = s.pipes := (rfl)
@[simp] theorem Upd.rc_admitQ (v : RcState) : ((Upd.rc v).apply s).admitQ = s.admitQ := (rfl)
@[simp] theorem Upd.rc_terms (v : RcState) : ((Upd.rc v).apply s).terms = s.terms := (rfl)
@[simp] theorem Upd.rc_classes (v : RcState) : ((Upd.rc v).apply s).classes = s.classes := (rfl)
@[simp] theorem Upd.rc_hostq (v : RcState) : ((Upd.rc v).apply s).hostq = s.hostq := (rfl)
@[simp] theorem Upd.rc_ringLinks (v : RcState) : ((Upd.rc v).apply s).ringLinks = s.ringLinks := (rfl)
@[simp] theorem Upd.rc_sq (v : RcState) : ((Upd.rc v).apply s).sq = s.sq := (rfl)
@[simp] theorem Upd.rc_rc (v : RcState) : ((Upd.rc v).apply s).rc = v := (rfl)
@[simp] theorem Upd.rc_cw (v : RcState) : ((Upd.rc v).apply s).cw = s.cw := (rfl)
@[simp] theorem Upd.rc_ring (v : RcState) : ((Upd.rc v).apply s).ring = s.ring := (rfl)
@[simp] theorem Upd.rc_gb (v : RcState) : ((Upd.rc v).apply s).gb = s.gb := (rfl)
@[simp] theorem Upd.rc_fc (v : RcState) : ((Upd.rc v).apply s).fc = s.fc := (rfl)
@[simp] theorem Upd.rc_tb (v : RcState) : ((Upd.rc v).apply s).tb = s.tb := (rfl)
@[simp] theorem Upd.rc_boot (v : RcState) : ((Upd.rc v).apply s).boot = s.boot := (rfl)
@[simp] theorem Upd.rc_tap (v : RcState) : ((Upd.rc v).apply s).tap = s.tap := (rfl)
@[simp] theorem Upd.rc_bg (v : RcState) : ((Upd.rc v).apply s).bg = s.bg := (rfl)

@[simp] theorem Upd.cw_pending (v : List CwCtx) : ((Upd.cw v).apply s).pending = s.pending := (rfl)
@[simp] theorem Upd.cw_free (v : List CwCtx) : ((Upd.cw v).apply s).free = s.free := (rfl)
@[simp] theorem Upd.cw_outbox (v : List CwCtx) : ((Upd.cw v).apply s).outbox = s.outbox := (rfl)
@[simp] theorem Upd.cw_mem (v : List CwCtx) : ((Upd.cw v).apply s).mem = s.mem := (rfl)
@[simp] theorem Upd.cw_bad (v : List CwCtx) : ((Upd.cw v).apply s).bad = s.bad := (rfl)
@[simp] theorem Upd.cw_desk (v : List CwCtx) : ((Upd.cw v).apply s).desk = s.desk := (rfl)
@[simp] theorem Upd.cw_pg (v : List CwCtx) : ((Upd.cw v).apply s).pg = s.pg := (rfl)
@[simp] theorem Upd.cw_regs (v : List CwCtx) : ((Upd.cw v).apply s).regs = s.regs := (rfl)
@[simp] theorem Upd.cw_act (v : List CwCtx) : ((Upd.cw v).apply s).act = s.act := (rfl)
@[simp] theorem Upd.cw_pendc (v : List CwCtx) : ((Upd.cw v).apply s).pendc = s.pendc := (rfl)
@[simp] theorem Upd.cw_goBy (v : List CwCtx) : ((Upd.cw v).apply s).goBy = s.goBy := (rfl)
@[simp] theorem Upd.cw_msix (v : List CwCtx) : ((Upd.cw v).apply s).msix = s.msix := (rfl)
@[simp] theorem Upd.cw_threads (v : List CwCtx) : ((Upd.cw v).apply s).threads = s.threads := (rfl)
@[simp] theorem Upd.cw_acts (v : List CwCtx) : ((Upd.cw v).apply s).acts = s.acts := (rfl)
@[simp] theorem Upd.cw_ready (v : List CwCtx) : ((Upd.cw v).apply s).ready = s.ready := (rfl)
@[simp] theorem Upd.cw_delay (v : List CwCtx) : ((Upd.cw v).apply s).delay = s.delay := (rfl)
@[simp] theorem Upd.cw_ctxs (v : List CwCtx) : ((Upd.cw v).apply s).ctxs = s.ctxs := (rfl)
@[simp] theorem Upd.cw_banks (v : List CwCtx) : ((Upd.cw v).apply s).banks = s.banks := (rfl)
@[simp] theorem Upd.cw_fuq (v : List CwCtx) : ((Upd.cw v).apply s).fuq = s.fuq := (rfl)
@[simp] theorem Upd.cw_units (v : List CwCtx) : ((Upd.cw v).apply s).units = s.units := (rfl)
@[simp] theorem Upd.cw_hqueues (v : List CwCtx) : ((Upd.cw v).apply s).hqueues = s.hqueues := (rfl)
@[simp] theorem Upd.cw_icache (v : List CwCtx) : ((Upd.cw v).apply s).icache = s.icache := (rfl)
@[simp] theorem Upd.cw_learn (v : List CwCtx) : ((Upd.cw v).apply s).learn = s.learn := (rfl)
@[simp] theorem Upd.cw_engines (v : List CwCtx) : ((Upd.cw v).apply s).engines = s.engines := (rfl)
@[simp] theorem Upd.cw_dirRows (v : List CwCtx) : ((Upd.cw v).apply s).dirRows = s.dirRows := (rfl)
@[simp] theorem Upd.cw_dirShadow (v : List CwCtx) : ((Upd.cw v).apply s).dirShadow = s.dirShadow := (rfl)
@[simp] theorem Upd.cw_dir (v : List CwCtx) : ((Upd.cw v).apply s).dir = s.dir := (rfl)
@[simp] theorem Upd.cw_ddrs (v : List CwCtx) : ((Upd.cw v).apply s).ddrs = s.ddrs := (rfl)
@[simp] theorem Upd.cw_bufs (v : List CwCtx) : ((Upd.cw v).apply s).bufs = s.bufs := (rfl)
@[simp] theorem Upd.cw_pools (v : List CwCtx) : ((Upd.cw v).apply s).pools = s.pools := (rfl)
@[simp] theorem Upd.cw_chans (v : List CwCtx) : ((Upd.cw v).apply s).chans = s.chans := (rfl)
@[simp] theorem Upd.cw_locks (v : List CwCtx) : ((Upd.cw v).apply s).locks = s.locks := (rfl)
@[simp] theorem Upd.cw_streams (v : List CwCtx) : ((Upd.cw v).apply s).streams = s.streams := (rfl)
@[simp] theorem Upd.cw_ports (v : List CwCtx) : ((Upd.cw v).apply s).ports = s.ports := (rfl)
@[simp] theorem Upd.cw_pipes (v : List CwCtx) : ((Upd.cw v).apply s).pipes = s.pipes := (rfl)
@[simp] theorem Upd.cw_admitQ (v : List CwCtx) : ((Upd.cw v).apply s).admitQ = s.admitQ := (rfl)
@[simp] theorem Upd.cw_terms (v : List CwCtx) : ((Upd.cw v).apply s).terms = s.terms := (rfl)
@[simp] theorem Upd.cw_classes (v : List CwCtx) : ((Upd.cw v).apply s).classes = s.classes := (rfl)
@[simp] theorem Upd.cw_hostq (v : List CwCtx) : ((Upd.cw v).apply s).hostq = s.hostq := (rfl)
@[simp] theorem Upd.cw_ringLinks (v : List CwCtx) : ((Upd.cw v).apply s).ringLinks = s.ringLinks := (rfl)
@[simp] theorem Upd.cw_sq (v : List CwCtx) : ((Upd.cw v).apply s).sq = s.sq := (rfl)
@[simp] theorem Upd.cw_rc (v : List CwCtx) : ((Upd.cw v).apply s).rc = s.rc := (rfl)
@[simp] theorem Upd.cw_cw (v : List CwCtx) : ((Upd.cw v).apply s).cw = v := (rfl)
@[simp] theorem Upd.cw_ring (v : List CwCtx) : ((Upd.cw v).apply s).ring = s.ring := (rfl)
@[simp] theorem Upd.cw_gb (v : List CwCtx) : ((Upd.cw v).apply s).gb = s.gb := (rfl)
@[simp] theorem Upd.cw_fc (v : List CwCtx) : ((Upd.cw v).apply s).fc = s.fc := (rfl)
@[simp] theorem Upd.cw_tb (v : List CwCtx) : ((Upd.cw v).apply s).tb = s.tb := (rfl)
@[simp] theorem Upd.cw_boot (v : List CwCtx) : ((Upd.cw v).apply s).boot = s.boot := (rfl)
@[simp] theorem Upd.cw_tap (v : List CwCtx) : ((Upd.cw v).apply s).tap = s.tap := (rfl)
@[simp] theorem Upd.cw_bg (v : List CwCtx) : ((Upd.cw v).apply s).bg = s.bg := (rfl)

@[simp] theorem Upd.ring_pending (v : RingState) : ((Upd.ring v).apply s).pending = s.pending := (rfl)
@[simp] theorem Upd.ring_free (v : RingState) : ((Upd.ring v).apply s).free = s.free := (rfl)
@[simp] theorem Upd.ring_outbox (v : RingState) : ((Upd.ring v).apply s).outbox = s.outbox := (rfl)
@[simp] theorem Upd.ring_mem (v : RingState) : ((Upd.ring v).apply s).mem = s.mem := (rfl)
@[simp] theorem Upd.ring_bad (v : RingState) : ((Upd.ring v).apply s).bad = s.bad := (rfl)
@[simp] theorem Upd.ring_desk (v : RingState) : ((Upd.ring v).apply s).desk = s.desk := (rfl)
@[simp] theorem Upd.ring_pg (v : RingState) : ((Upd.ring v).apply s).pg = s.pg := (rfl)
@[simp] theorem Upd.ring_regs (v : RingState) : ((Upd.ring v).apply s).regs = s.regs := (rfl)
@[simp] theorem Upd.ring_act (v : RingState) : ((Upd.ring v).apply s).act = s.act := (rfl)
@[simp] theorem Upd.ring_pendc (v : RingState) : ((Upd.ring v).apply s).pendc = s.pendc := (rfl)
@[simp] theorem Upd.ring_goBy (v : RingState) : ((Upd.ring v).apply s).goBy = s.goBy := (rfl)
@[simp] theorem Upd.ring_msix (v : RingState) : ((Upd.ring v).apply s).msix = s.msix := (rfl)
@[simp] theorem Upd.ring_threads (v : RingState) : ((Upd.ring v).apply s).threads = s.threads := (rfl)
@[simp] theorem Upd.ring_acts (v : RingState) : ((Upd.ring v).apply s).acts = s.acts := (rfl)
@[simp] theorem Upd.ring_ready (v : RingState) : ((Upd.ring v).apply s).ready = s.ready := (rfl)
@[simp] theorem Upd.ring_delay (v : RingState) : ((Upd.ring v).apply s).delay = s.delay := (rfl)
@[simp] theorem Upd.ring_ctxs (v : RingState) : ((Upd.ring v).apply s).ctxs = s.ctxs := (rfl)
@[simp] theorem Upd.ring_banks (v : RingState) : ((Upd.ring v).apply s).banks = s.banks := (rfl)
@[simp] theorem Upd.ring_fuq (v : RingState) : ((Upd.ring v).apply s).fuq = s.fuq := (rfl)
@[simp] theorem Upd.ring_units (v : RingState) : ((Upd.ring v).apply s).units = s.units := (rfl)
@[simp] theorem Upd.ring_hqueues (v : RingState) : ((Upd.ring v).apply s).hqueues = s.hqueues := (rfl)
@[simp] theorem Upd.ring_icache (v : RingState) : ((Upd.ring v).apply s).icache = s.icache := (rfl)
@[simp] theorem Upd.ring_learn (v : RingState) : ((Upd.ring v).apply s).learn = s.learn := (rfl)
@[simp] theorem Upd.ring_engines (v : RingState) : ((Upd.ring v).apply s).engines = s.engines := (rfl)
@[simp] theorem Upd.ring_dirRows (v : RingState) : ((Upd.ring v).apply s).dirRows = s.dirRows := (rfl)
@[simp] theorem Upd.ring_dirShadow (v : RingState) : ((Upd.ring v).apply s).dirShadow = s.dirShadow := (rfl)
@[simp] theorem Upd.ring_dir (v : RingState) : ((Upd.ring v).apply s).dir = s.dir := (rfl)
@[simp] theorem Upd.ring_ddrs (v : RingState) : ((Upd.ring v).apply s).ddrs = s.ddrs := (rfl)
@[simp] theorem Upd.ring_bufs (v : RingState) : ((Upd.ring v).apply s).bufs = s.bufs := (rfl)
@[simp] theorem Upd.ring_pools (v : RingState) : ((Upd.ring v).apply s).pools = s.pools := (rfl)
@[simp] theorem Upd.ring_chans (v : RingState) : ((Upd.ring v).apply s).chans = s.chans := (rfl)
@[simp] theorem Upd.ring_locks (v : RingState) : ((Upd.ring v).apply s).locks = s.locks := (rfl)
@[simp] theorem Upd.ring_streams (v : RingState) : ((Upd.ring v).apply s).streams = s.streams := (rfl)
@[simp] theorem Upd.ring_ports (v : RingState) : ((Upd.ring v).apply s).ports = s.ports := (rfl)
@[simp] theorem Upd.ring_pipes (v : RingState) : ((Upd.ring v).apply s).pipes = s.pipes := (rfl)
@[simp] theorem Upd.ring_admitQ (v : RingState) : ((Upd.ring v).apply s).admitQ = s.admitQ := (rfl)
@[simp] theorem Upd.ring_terms (v : RingState) : ((Upd.ring v).apply s).terms = s.terms := (rfl)
@[simp] theorem Upd.ring_classes (v : RingState) : ((Upd.ring v).apply s).classes = s.classes := (rfl)
@[simp] theorem Upd.ring_hostq (v : RingState) : ((Upd.ring v).apply s).hostq = s.hostq := (rfl)
@[simp] theorem Upd.ring_ringLinks (v : RingState) : ((Upd.ring v).apply s).ringLinks = s.ringLinks := (rfl)
@[simp] theorem Upd.ring_sq (v : RingState) : ((Upd.ring v).apply s).sq = s.sq := (rfl)
@[simp] theorem Upd.ring_rc (v : RingState) : ((Upd.ring v).apply s).rc = s.rc := (rfl)
@[simp] theorem Upd.ring_cw (v : RingState) : ((Upd.ring v).apply s).cw = s.cw := (rfl)
@[simp] theorem Upd.ring_ring (v : RingState) : ((Upd.ring v).apply s).ring = v := (rfl)
@[simp] theorem Upd.ring_gb (v : RingState) : ((Upd.ring v).apply s).gb = s.gb := (rfl)
@[simp] theorem Upd.ring_fc (v : RingState) : ((Upd.ring v).apply s).fc = s.fc := (rfl)
@[simp] theorem Upd.ring_tb (v : RingState) : ((Upd.ring v).apply s).tb = s.tb := (rfl)
@[simp] theorem Upd.ring_boot (v : RingState) : ((Upd.ring v).apply s).boot = s.boot := (rfl)
@[simp] theorem Upd.ring_tap (v : RingState) : ((Upd.ring v).apply s).tap = s.tap := (rfl)
@[simp] theorem Upd.ring_bg (v : RingState) : ((Upd.ring v).apply s).bg = s.bg := (rfl)

@[simp] theorem Upd.gb_pending (v : GbState) : ((Upd.gb v).apply s).pending = s.pending := (rfl)
@[simp] theorem Upd.gb_free (v : GbState) : ((Upd.gb v).apply s).free = s.free := (rfl)
@[simp] theorem Upd.gb_outbox (v : GbState) : ((Upd.gb v).apply s).outbox = s.outbox := (rfl)
@[simp] theorem Upd.gb_mem (v : GbState) : ((Upd.gb v).apply s).mem = s.mem := (rfl)
@[simp] theorem Upd.gb_bad (v : GbState) : ((Upd.gb v).apply s).bad = s.bad := (rfl)
@[simp] theorem Upd.gb_desk (v : GbState) : ((Upd.gb v).apply s).desk = s.desk := (rfl)
@[simp] theorem Upd.gb_pg (v : GbState) : ((Upd.gb v).apply s).pg = s.pg := (rfl)
@[simp] theorem Upd.gb_regs (v : GbState) : ((Upd.gb v).apply s).regs = s.regs := (rfl)
@[simp] theorem Upd.gb_act (v : GbState) : ((Upd.gb v).apply s).act = s.act := (rfl)
@[simp] theorem Upd.gb_pendc (v : GbState) : ((Upd.gb v).apply s).pendc = s.pendc := (rfl)
@[simp] theorem Upd.gb_goBy (v : GbState) : ((Upd.gb v).apply s).goBy = s.goBy := (rfl)
@[simp] theorem Upd.gb_msix (v : GbState) : ((Upd.gb v).apply s).msix = s.msix := (rfl)
@[simp] theorem Upd.gb_threads (v : GbState) : ((Upd.gb v).apply s).threads = s.threads := (rfl)
@[simp] theorem Upd.gb_acts (v : GbState) : ((Upd.gb v).apply s).acts = s.acts := (rfl)
@[simp] theorem Upd.gb_ready (v : GbState) : ((Upd.gb v).apply s).ready = s.ready := (rfl)
@[simp] theorem Upd.gb_delay (v : GbState) : ((Upd.gb v).apply s).delay = s.delay := (rfl)
@[simp] theorem Upd.gb_ctxs (v : GbState) : ((Upd.gb v).apply s).ctxs = s.ctxs := (rfl)
@[simp] theorem Upd.gb_banks (v : GbState) : ((Upd.gb v).apply s).banks = s.banks := (rfl)
@[simp] theorem Upd.gb_fuq (v : GbState) : ((Upd.gb v).apply s).fuq = s.fuq := (rfl)
@[simp] theorem Upd.gb_units (v : GbState) : ((Upd.gb v).apply s).units = s.units := (rfl)
@[simp] theorem Upd.gb_hqueues (v : GbState) : ((Upd.gb v).apply s).hqueues = s.hqueues := (rfl)
@[simp] theorem Upd.gb_icache (v : GbState) : ((Upd.gb v).apply s).icache = s.icache := (rfl)
@[simp] theorem Upd.gb_learn (v : GbState) : ((Upd.gb v).apply s).learn = s.learn := (rfl)
@[simp] theorem Upd.gb_engines (v : GbState) : ((Upd.gb v).apply s).engines = s.engines := (rfl)
@[simp] theorem Upd.gb_dirRows (v : GbState) : ((Upd.gb v).apply s).dirRows = s.dirRows := (rfl)
@[simp] theorem Upd.gb_dirShadow (v : GbState) : ((Upd.gb v).apply s).dirShadow = s.dirShadow := (rfl)
@[simp] theorem Upd.gb_dir (v : GbState) : ((Upd.gb v).apply s).dir = s.dir := (rfl)
@[simp] theorem Upd.gb_ddrs (v : GbState) : ((Upd.gb v).apply s).ddrs = s.ddrs := (rfl)
@[simp] theorem Upd.gb_bufs (v : GbState) : ((Upd.gb v).apply s).bufs = s.bufs := (rfl)
@[simp] theorem Upd.gb_pools (v : GbState) : ((Upd.gb v).apply s).pools = s.pools := (rfl)
@[simp] theorem Upd.gb_chans (v : GbState) : ((Upd.gb v).apply s).chans = s.chans := (rfl)
@[simp] theorem Upd.gb_locks (v : GbState) : ((Upd.gb v).apply s).locks = s.locks := (rfl)
@[simp] theorem Upd.gb_streams (v : GbState) : ((Upd.gb v).apply s).streams = s.streams := (rfl)
@[simp] theorem Upd.gb_ports (v : GbState) : ((Upd.gb v).apply s).ports = s.ports := (rfl)
@[simp] theorem Upd.gb_pipes (v : GbState) : ((Upd.gb v).apply s).pipes = s.pipes := (rfl)
@[simp] theorem Upd.gb_admitQ (v : GbState) : ((Upd.gb v).apply s).admitQ = s.admitQ := (rfl)
@[simp] theorem Upd.gb_terms (v : GbState) : ((Upd.gb v).apply s).terms = s.terms := (rfl)
@[simp] theorem Upd.gb_classes (v : GbState) : ((Upd.gb v).apply s).classes = s.classes := (rfl)
@[simp] theorem Upd.gb_hostq (v : GbState) : ((Upd.gb v).apply s).hostq = s.hostq := (rfl)
@[simp] theorem Upd.gb_ringLinks (v : GbState) : ((Upd.gb v).apply s).ringLinks = s.ringLinks := (rfl)
@[simp] theorem Upd.gb_sq (v : GbState) : ((Upd.gb v).apply s).sq = s.sq := (rfl)
@[simp] theorem Upd.gb_rc (v : GbState) : ((Upd.gb v).apply s).rc = s.rc := (rfl)
@[simp] theorem Upd.gb_cw (v : GbState) : ((Upd.gb v).apply s).cw = s.cw := (rfl)
@[simp] theorem Upd.gb_ring (v : GbState) : ((Upd.gb v).apply s).ring = s.ring := (rfl)
@[simp] theorem Upd.gb_gb (v : GbState) : ((Upd.gb v).apply s).gb = v := (rfl)
@[simp] theorem Upd.gb_fc (v : GbState) : ((Upd.gb v).apply s).fc = s.fc := (rfl)
@[simp] theorem Upd.gb_tb (v : GbState) : ((Upd.gb v).apply s).tb = s.tb := (rfl)
@[simp] theorem Upd.gb_boot (v : GbState) : ((Upd.gb v).apply s).boot = s.boot := (rfl)
@[simp] theorem Upd.gb_tap (v : GbState) : ((Upd.gb v).apply s).tap = s.tap := (rfl)
@[simp] theorem Upd.gb_bg (v : GbState) : ((Upd.gb v).apply s).bg = s.bg := (rfl)

@[simp] theorem Upd.fc_pending (v : FcState) : ((Upd.fc v).apply s).pending = s.pending := (rfl)
@[simp] theorem Upd.fc_free (v : FcState) : ((Upd.fc v).apply s).free = s.free := (rfl)
@[simp] theorem Upd.fc_outbox (v : FcState) : ((Upd.fc v).apply s).outbox = s.outbox := (rfl)
@[simp] theorem Upd.fc_mem (v : FcState) : ((Upd.fc v).apply s).mem = s.mem := (rfl)
@[simp] theorem Upd.fc_bad (v : FcState) : ((Upd.fc v).apply s).bad = s.bad := (rfl)
@[simp] theorem Upd.fc_desk (v : FcState) : ((Upd.fc v).apply s).desk = s.desk := (rfl)
@[simp] theorem Upd.fc_pg (v : FcState) : ((Upd.fc v).apply s).pg = s.pg := (rfl)
@[simp] theorem Upd.fc_regs (v : FcState) : ((Upd.fc v).apply s).regs = s.regs := (rfl)
@[simp] theorem Upd.fc_act (v : FcState) : ((Upd.fc v).apply s).act = s.act := (rfl)
@[simp] theorem Upd.fc_pendc (v : FcState) : ((Upd.fc v).apply s).pendc = s.pendc := (rfl)
@[simp] theorem Upd.fc_goBy (v : FcState) : ((Upd.fc v).apply s).goBy = s.goBy := (rfl)
@[simp] theorem Upd.fc_msix (v : FcState) : ((Upd.fc v).apply s).msix = s.msix := (rfl)
@[simp] theorem Upd.fc_threads (v : FcState) : ((Upd.fc v).apply s).threads = s.threads := (rfl)
@[simp] theorem Upd.fc_acts (v : FcState) : ((Upd.fc v).apply s).acts = s.acts := (rfl)
@[simp] theorem Upd.fc_ready (v : FcState) : ((Upd.fc v).apply s).ready = s.ready := (rfl)
@[simp] theorem Upd.fc_delay (v : FcState) : ((Upd.fc v).apply s).delay = s.delay := (rfl)
@[simp] theorem Upd.fc_ctxs (v : FcState) : ((Upd.fc v).apply s).ctxs = s.ctxs := (rfl)
@[simp] theorem Upd.fc_banks (v : FcState) : ((Upd.fc v).apply s).banks = s.banks := (rfl)
@[simp] theorem Upd.fc_fuq (v : FcState) : ((Upd.fc v).apply s).fuq = s.fuq := (rfl)
@[simp] theorem Upd.fc_units (v : FcState) : ((Upd.fc v).apply s).units = s.units := (rfl)
@[simp] theorem Upd.fc_hqueues (v : FcState) : ((Upd.fc v).apply s).hqueues = s.hqueues := (rfl)
@[simp] theorem Upd.fc_icache (v : FcState) : ((Upd.fc v).apply s).icache = s.icache := (rfl)
@[simp] theorem Upd.fc_learn (v : FcState) : ((Upd.fc v).apply s).learn = s.learn := (rfl)
@[simp] theorem Upd.fc_engines (v : FcState) : ((Upd.fc v).apply s).engines = s.engines := (rfl)
@[simp] theorem Upd.fc_dirRows (v : FcState) : ((Upd.fc v).apply s).dirRows = s.dirRows := (rfl)
@[simp] theorem Upd.fc_dirShadow (v : FcState) : ((Upd.fc v).apply s).dirShadow = s.dirShadow := (rfl)
@[simp] theorem Upd.fc_dir (v : FcState) : ((Upd.fc v).apply s).dir = s.dir := (rfl)
@[simp] theorem Upd.fc_ddrs (v : FcState) : ((Upd.fc v).apply s).ddrs = s.ddrs := (rfl)
@[simp] theorem Upd.fc_bufs (v : FcState) : ((Upd.fc v).apply s).bufs = s.bufs := (rfl)
@[simp] theorem Upd.fc_pools (v : FcState) : ((Upd.fc v).apply s).pools = s.pools := (rfl)
@[simp] theorem Upd.fc_chans (v : FcState) : ((Upd.fc v).apply s).chans = s.chans := (rfl)
@[simp] theorem Upd.fc_locks (v : FcState) : ((Upd.fc v).apply s).locks = s.locks := (rfl)
@[simp] theorem Upd.fc_streams (v : FcState) : ((Upd.fc v).apply s).streams = s.streams := (rfl)
@[simp] theorem Upd.fc_ports (v : FcState) : ((Upd.fc v).apply s).ports = s.ports := (rfl)
@[simp] theorem Upd.fc_pipes (v : FcState) : ((Upd.fc v).apply s).pipes = s.pipes := (rfl)
@[simp] theorem Upd.fc_admitQ (v : FcState) : ((Upd.fc v).apply s).admitQ = s.admitQ := (rfl)
@[simp] theorem Upd.fc_terms (v : FcState) : ((Upd.fc v).apply s).terms = s.terms := (rfl)
@[simp] theorem Upd.fc_classes (v : FcState) : ((Upd.fc v).apply s).classes = s.classes := (rfl)
@[simp] theorem Upd.fc_hostq (v : FcState) : ((Upd.fc v).apply s).hostq = s.hostq := (rfl)
@[simp] theorem Upd.fc_ringLinks (v : FcState) : ((Upd.fc v).apply s).ringLinks = s.ringLinks := (rfl)
@[simp] theorem Upd.fc_sq (v : FcState) : ((Upd.fc v).apply s).sq = s.sq := (rfl)
@[simp] theorem Upd.fc_rc (v : FcState) : ((Upd.fc v).apply s).rc = s.rc := (rfl)
@[simp] theorem Upd.fc_cw (v : FcState) : ((Upd.fc v).apply s).cw = s.cw := (rfl)
@[simp] theorem Upd.fc_ring (v : FcState) : ((Upd.fc v).apply s).ring = s.ring := (rfl)
@[simp] theorem Upd.fc_gb (v : FcState) : ((Upd.fc v).apply s).gb = s.gb := (rfl)
@[simp] theorem Upd.fc_fc (v : FcState) : ((Upd.fc v).apply s).fc = v := (rfl)
@[simp] theorem Upd.fc_tb (v : FcState) : ((Upd.fc v).apply s).tb = s.tb := (rfl)
@[simp] theorem Upd.fc_boot (v : FcState) : ((Upd.fc v).apply s).boot = s.boot := (rfl)
@[simp] theorem Upd.fc_tap (v : FcState) : ((Upd.fc v).apply s).tap = s.tap := (rfl)
@[simp] theorem Upd.fc_bg (v : FcState) : ((Upd.fc v).apply s).bg = s.bg := (rfl)

@[simp] theorem Upd.tb_pending (v : TimeState) : ((Upd.tb v).apply s).pending = s.pending := (rfl)
@[simp] theorem Upd.tb_free (v : TimeState) : ((Upd.tb v).apply s).free = s.free := (rfl)
@[simp] theorem Upd.tb_outbox (v : TimeState) : ((Upd.tb v).apply s).outbox = s.outbox := (rfl)
@[simp] theorem Upd.tb_mem (v : TimeState) : ((Upd.tb v).apply s).mem = s.mem := (rfl)
@[simp] theorem Upd.tb_bad (v : TimeState) : ((Upd.tb v).apply s).bad = s.bad := (rfl)
@[simp] theorem Upd.tb_desk (v : TimeState) : ((Upd.tb v).apply s).desk = s.desk := (rfl)
@[simp] theorem Upd.tb_pg (v : TimeState) : ((Upd.tb v).apply s).pg = s.pg := (rfl)
@[simp] theorem Upd.tb_regs (v : TimeState) : ((Upd.tb v).apply s).regs = s.regs := (rfl)
@[simp] theorem Upd.tb_act (v : TimeState) : ((Upd.tb v).apply s).act = s.act := (rfl)
@[simp] theorem Upd.tb_pendc (v : TimeState) : ((Upd.tb v).apply s).pendc = s.pendc := (rfl)
@[simp] theorem Upd.tb_goBy (v : TimeState) : ((Upd.tb v).apply s).goBy = s.goBy := (rfl)
@[simp] theorem Upd.tb_msix (v : TimeState) : ((Upd.tb v).apply s).msix = s.msix := (rfl)
@[simp] theorem Upd.tb_threads (v : TimeState) : ((Upd.tb v).apply s).threads = s.threads := (rfl)
@[simp] theorem Upd.tb_acts (v : TimeState) : ((Upd.tb v).apply s).acts = s.acts := (rfl)
@[simp] theorem Upd.tb_ready (v : TimeState) : ((Upd.tb v).apply s).ready = s.ready := (rfl)
@[simp] theorem Upd.tb_delay (v : TimeState) : ((Upd.tb v).apply s).delay = s.delay := (rfl)
@[simp] theorem Upd.tb_ctxs (v : TimeState) : ((Upd.tb v).apply s).ctxs = s.ctxs := (rfl)
@[simp] theorem Upd.tb_banks (v : TimeState) : ((Upd.tb v).apply s).banks = s.banks := (rfl)
@[simp] theorem Upd.tb_fuq (v : TimeState) : ((Upd.tb v).apply s).fuq = s.fuq := (rfl)
@[simp] theorem Upd.tb_units (v : TimeState) : ((Upd.tb v).apply s).units = s.units := (rfl)
@[simp] theorem Upd.tb_hqueues (v : TimeState) : ((Upd.tb v).apply s).hqueues = s.hqueues := (rfl)
@[simp] theorem Upd.tb_icache (v : TimeState) : ((Upd.tb v).apply s).icache = s.icache := (rfl)
@[simp] theorem Upd.tb_learn (v : TimeState) : ((Upd.tb v).apply s).learn = s.learn := (rfl)
@[simp] theorem Upd.tb_engines (v : TimeState) : ((Upd.tb v).apply s).engines = s.engines := (rfl)
@[simp] theorem Upd.tb_dirRows (v : TimeState) : ((Upd.tb v).apply s).dirRows = s.dirRows := (rfl)
@[simp] theorem Upd.tb_dirShadow (v : TimeState) : ((Upd.tb v).apply s).dirShadow = s.dirShadow := (rfl)
@[simp] theorem Upd.tb_dir (v : TimeState) : ((Upd.tb v).apply s).dir = s.dir := (rfl)
@[simp] theorem Upd.tb_ddrs (v : TimeState) : ((Upd.tb v).apply s).ddrs = s.ddrs := (rfl)
@[simp] theorem Upd.tb_bufs (v : TimeState) : ((Upd.tb v).apply s).bufs = s.bufs := (rfl)
@[simp] theorem Upd.tb_pools (v : TimeState) : ((Upd.tb v).apply s).pools = s.pools := (rfl)
@[simp] theorem Upd.tb_chans (v : TimeState) : ((Upd.tb v).apply s).chans = s.chans := (rfl)
@[simp] theorem Upd.tb_locks (v : TimeState) : ((Upd.tb v).apply s).locks = s.locks := (rfl)
@[simp] theorem Upd.tb_streams (v : TimeState) : ((Upd.tb v).apply s).streams = s.streams := (rfl)
@[simp] theorem Upd.tb_ports (v : TimeState) : ((Upd.tb v).apply s).ports = s.ports := (rfl)
@[simp] theorem Upd.tb_pipes (v : TimeState) : ((Upd.tb v).apply s).pipes = s.pipes := (rfl)
@[simp] theorem Upd.tb_admitQ (v : TimeState) : ((Upd.tb v).apply s).admitQ = s.admitQ := (rfl)
@[simp] theorem Upd.tb_terms (v : TimeState) : ((Upd.tb v).apply s).terms = s.terms := (rfl)
@[simp] theorem Upd.tb_classes (v : TimeState) : ((Upd.tb v).apply s).classes = s.classes := (rfl)
@[simp] theorem Upd.tb_hostq (v : TimeState) : ((Upd.tb v).apply s).hostq = s.hostq := (rfl)
@[simp] theorem Upd.tb_ringLinks (v : TimeState) : ((Upd.tb v).apply s).ringLinks = s.ringLinks := (rfl)
@[simp] theorem Upd.tb_sq (v : TimeState) : ((Upd.tb v).apply s).sq = s.sq := (rfl)
@[simp] theorem Upd.tb_rc (v : TimeState) : ((Upd.tb v).apply s).rc = s.rc := (rfl)
@[simp] theorem Upd.tb_cw (v : TimeState) : ((Upd.tb v).apply s).cw = s.cw := (rfl)
@[simp] theorem Upd.tb_ring (v : TimeState) : ((Upd.tb v).apply s).ring = s.ring := (rfl)
@[simp] theorem Upd.tb_gb (v : TimeState) : ((Upd.tb v).apply s).gb = s.gb := (rfl)
@[simp] theorem Upd.tb_fc (v : TimeState) : ((Upd.tb v).apply s).fc = s.fc := (rfl)
@[simp] theorem Upd.tb_tb (v : TimeState) : ((Upd.tb v).apply s).tb = v := (rfl)
@[simp] theorem Upd.tb_boot (v : TimeState) : ((Upd.tb v).apply s).boot = s.boot := (rfl)
@[simp] theorem Upd.tb_tap (v : TimeState) : ((Upd.tb v).apply s).tap = s.tap := (rfl)
@[simp] theorem Upd.tb_bg (v : TimeState) : ((Upd.tb v).apply s).bg = s.bg := (rfl)

@[simp] theorem Upd.boot_pending (v : BootState) : ((Upd.boot v).apply s).pending = s.pending := (rfl)
@[simp] theorem Upd.boot_free (v : BootState) : ((Upd.boot v).apply s).free = s.free := (rfl)
@[simp] theorem Upd.boot_outbox (v : BootState) : ((Upd.boot v).apply s).outbox = s.outbox := (rfl)
@[simp] theorem Upd.boot_mem (v : BootState) : ((Upd.boot v).apply s).mem = s.mem := (rfl)
@[simp] theorem Upd.boot_bad (v : BootState) : ((Upd.boot v).apply s).bad = s.bad := (rfl)
@[simp] theorem Upd.boot_desk (v : BootState) : ((Upd.boot v).apply s).desk = s.desk := (rfl)
@[simp] theorem Upd.boot_pg (v : BootState) : ((Upd.boot v).apply s).pg = s.pg := (rfl)
@[simp] theorem Upd.boot_regs (v : BootState) : ((Upd.boot v).apply s).regs = s.regs := (rfl)
@[simp] theorem Upd.boot_act (v : BootState) : ((Upd.boot v).apply s).act = s.act := (rfl)
@[simp] theorem Upd.boot_pendc (v : BootState) : ((Upd.boot v).apply s).pendc = s.pendc := (rfl)
@[simp] theorem Upd.boot_goBy (v : BootState) : ((Upd.boot v).apply s).goBy = s.goBy := (rfl)
@[simp] theorem Upd.boot_msix (v : BootState) : ((Upd.boot v).apply s).msix = s.msix := (rfl)
@[simp] theorem Upd.boot_threads (v : BootState) : ((Upd.boot v).apply s).threads = s.threads := (rfl)
@[simp] theorem Upd.boot_acts (v : BootState) : ((Upd.boot v).apply s).acts = s.acts := (rfl)
@[simp] theorem Upd.boot_ready (v : BootState) : ((Upd.boot v).apply s).ready = s.ready := (rfl)
@[simp] theorem Upd.boot_delay (v : BootState) : ((Upd.boot v).apply s).delay = s.delay := (rfl)
@[simp] theorem Upd.boot_ctxs (v : BootState) : ((Upd.boot v).apply s).ctxs = s.ctxs := (rfl)
@[simp] theorem Upd.boot_banks (v : BootState) : ((Upd.boot v).apply s).banks = s.banks := (rfl)
@[simp] theorem Upd.boot_fuq (v : BootState) : ((Upd.boot v).apply s).fuq = s.fuq := (rfl)
@[simp] theorem Upd.boot_units (v : BootState) : ((Upd.boot v).apply s).units = s.units := (rfl)
@[simp] theorem Upd.boot_hqueues (v : BootState) : ((Upd.boot v).apply s).hqueues = s.hqueues := (rfl)
@[simp] theorem Upd.boot_icache (v : BootState) : ((Upd.boot v).apply s).icache = s.icache := (rfl)
@[simp] theorem Upd.boot_learn (v : BootState) : ((Upd.boot v).apply s).learn = s.learn := (rfl)
@[simp] theorem Upd.boot_engines (v : BootState) : ((Upd.boot v).apply s).engines = s.engines := (rfl)
@[simp] theorem Upd.boot_dirRows (v : BootState) : ((Upd.boot v).apply s).dirRows = s.dirRows := (rfl)
@[simp] theorem Upd.boot_dirShadow (v : BootState) : ((Upd.boot v).apply s).dirShadow = s.dirShadow := (rfl)
@[simp] theorem Upd.boot_dir (v : BootState) : ((Upd.boot v).apply s).dir = s.dir := (rfl)
@[simp] theorem Upd.boot_ddrs (v : BootState) : ((Upd.boot v).apply s).ddrs = s.ddrs := (rfl)
@[simp] theorem Upd.boot_bufs (v : BootState) : ((Upd.boot v).apply s).bufs = s.bufs := (rfl)
@[simp] theorem Upd.boot_pools (v : BootState) : ((Upd.boot v).apply s).pools = s.pools := (rfl)
@[simp] theorem Upd.boot_chans (v : BootState) : ((Upd.boot v).apply s).chans = s.chans := (rfl)
@[simp] theorem Upd.boot_locks (v : BootState) : ((Upd.boot v).apply s).locks = s.locks := (rfl)
@[simp] theorem Upd.boot_streams (v : BootState) : ((Upd.boot v).apply s).streams = s.streams := (rfl)
@[simp] theorem Upd.boot_ports (v : BootState) : ((Upd.boot v).apply s).ports = s.ports := (rfl)
@[simp] theorem Upd.boot_pipes (v : BootState) : ((Upd.boot v).apply s).pipes = s.pipes := (rfl)
@[simp] theorem Upd.boot_admitQ (v : BootState) : ((Upd.boot v).apply s).admitQ = s.admitQ := (rfl)
@[simp] theorem Upd.boot_terms (v : BootState) : ((Upd.boot v).apply s).terms = s.terms := (rfl)
@[simp] theorem Upd.boot_classes (v : BootState) : ((Upd.boot v).apply s).classes = s.classes := (rfl)
@[simp] theorem Upd.boot_hostq (v : BootState) : ((Upd.boot v).apply s).hostq = s.hostq := (rfl)
@[simp] theorem Upd.boot_ringLinks (v : BootState) : ((Upd.boot v).apply s).ringLinks = s.ringLinks := (rfl)
@[simp] theorem Upd.boot_sq (v : BootState) : ((Upd.boot v).apply s).sq = s.sq := (rfl)
@[simp] theorem Upd.boot_rc (v : BootState) : ((Upd.boot v).apply s).rc = s.rc := (rfl)
@[simp] theorem Upd.boot_cw (v : BootState) : ((Upd.boot v).apply s).cw = s.cw := (rfl)
@[simp] theorem Upd.boot_ring (v : BootState) : ((Upd.boot v).apply s).ring = s.ring := (rfl)
@[simp] theorem Upd.boot_gb (v : BootState) : ((Upd.boot v).apply s).gb = s.gb := (rfl)
@[simp] theorem Upd.boot_fc (v : BootState) : ((Upd.boot v).apply s).fc = s.fc := (rfl)
@[simp] theorem Upd.boot_tb (v : BootState) : ((Upd.boot v).apply s).tb = s.tb := (rfl)
@[simp] theorem Upd.boot_boot (v : BootState) : ((Upd.boot v).apply s).boot = v := (rfl)
@[simp] theorem Upd.boot_tap (v : BootState) : ((Upd.boot v).apply s).tap = s.tap := (rfl)
@[simp] theorem Upd.boot_bg (v : BootState) : ((Upd.boot v).apply s).bg = s.bg := (rfl)

@[simp] theorem Upd.tap_pending (v : TapState) : ((Upd.tap v).apply s).pending = s.pending := (rfl)
@[simp] theorem Upd.tap_free (v : TapState) : ((Upd.tap v).apply s).free = s.free := (rfl)
@[simp] theorem Upd.tap_outbox (v : TapState) : ((Upd.tap v).apply s).outbox = s.outbox := (rfl)
@[simp] theorem Upd.tap_mem (v : TapState) : ((Upd.tap v).apply s).mem = s.mem := (rfl)
@[simp] theorem Upd.tap_bad (v : TapState) : ((Upd.tap v).apply s).bad = s.bad := (rfl)
@[simp] theorem Upd.tap_desk (v : TapState) : ((Upd.tap v).apply s).desk = s.desk := (rfl)
@[simp] theorem Upd.tap_pg (v : TapState) : ((Upd.tap v).apply s).pg = s.pg := (rfl)
@[simp] theorem Upd.tap_regs (v : TapState) : ((Upd.tap v).apply s).regs = s.regs := (rfl)
@[simp] theorem Upd.tap_act (v : TapState) : ((Upd.tap v).apply s).act = s.act := (rfl)
@[simp] theorem Upd.tap_pendc (v : TapState) : ((Upd.tap v).apply s).pendc = s.pendc := (rfl)
@[simp] theorem Upd.tap_goBy (v : TapState) : ((Upd.tap v).apply s).goBy = s.goBy := (rfl)
@[simp] theorem Upd.tap_msix (v : TapState) : ((Upd.tap v).apply s).msix = s.msix := (rfl)
@[simp] theorem Upd.tap_threads (v : TapState) : ((Upd.tap v).apply s).threads = s.threads := (rfl)
@[simp] theorem Upd.tap_acts (v : TapState) : ((Upd.tap v).apply s).acts = s.acts := (rfl)
@[simp] theorem Upd.tap_ready (v : TapState) : ((Upd.tap v).apply s).ready = s.ready := (rfl)
@[simp] theorem Upd.tap_delay (v : TapState) : ((Upd.tap v).apply s).delay = s.delay := (rfl)
@[simp] theorem Upd.tap_ctxs (v : TapState) : ((Upd.tap v).apply s).ctxs = s.ctxs := (rfl)
@[simp] theorem Upd.tap_banks (v : TapState) : ((Upd.tap v).apply s).banks = s.banks := (rfl)
@[simp] theorem Upd.tap_fuq (v : TapState) : ((Upd.tap v).apply s).fuq = s.fuq := (rfl)
@[simp] theorem Upd.tap_units (v : TapState) : ((Upd.tap v).apply s).units = s.units := (rfl)
@[simp] theorem Upd.tap_hqueues (v : TapState) : ((Upd.tap v).apply s).hqueues = s.hqueues := (rfl)
@[simp] theorem Upd.tap_icache (v : TapState) : ((Upd.tap v).apply s).icache = s.icache := (rfl)
@[simp] theorem Upd.tap_learn (v : TapState) : ((Upd.tap v).apply s).learn = s.learn := (rfl)
@[simp] theorem Upd.tap_engines (v : TapState) : ((Upd.tap v).apply s).engines = s.engines := (rfl)
@[simp] theorem Upd.tap_dirRows (v : TapState) : ((Upd.tap v).apply s).dirRows = s.dirRows := (rfl)
@[simp] theorem Upd.tap_dirShadow (v : TapState) : ((Upd.tap v).apply s).dirShadow = s.dirShadow := (rfl)
@[simp] theorem Upd.tap_dir (v : TapState) : ((Upd.tap v).apply s).dir = s.dir := (rfl)
@[simp] theorem Upd.tap_ddrs (v : TapState) : ((Upd.tap v).apply s).ddrs = s.ddrs := (rfl)
@[simp] theorem Upd.tap_bufs (v : TapState) : ((Upd.tap v).apply s).bufs = s.bufs := (rfl)
@[simp] theorem Upd.tap_pools (v : TapState) : ((Upd.tap v).apply s).pools = s.pools := (rfl)
@[simp] theorem Upd.tap_chans (v : TapState) : ((Upd.tap v).apply s).chans = s.chans := (rfl)
@[simp] theorem Upd.tap_locks (v : TapState) : ((Upd.tap v).apply s).locks = s.locks := (rfl)
@[simp] theorem Upd.tap_streams (v : TapState) : ((Upd.tap v).apply s).streams = s.streams := (rfl)
@[simp] theorem Upd.tap_ports (v : TapState) : ((Upd.tap v).apply s).ports = s.ports := (rfl)
@[simp] theorem Upd.tap_pipes (v : TapState) : ((Upd.tap v).apply s).pipes = s.pipes := (rfl)
@[simp] theorem Upd.tap_admitQ (v : TapState) : ((Upd.tap v).apply s).admitQ = s.admitQ := (rfl)
@[simp] theorem Upd.tap_terms (v : TapState) : ((Upd.tap v).apply s).terms = s.terms := (rfl)
@[simp] theorem Upd.tap_classes (v : TapState) : ((Upd.tap v).apply s).classes = s.classes := (rfl)
@[simp] theorem Upd.tap_hostq (v : TapState) : ((Upd.tap v).apply s).hostq = s.hostq := (rfl)
@[simp] theorem Upd.tap_ringLinks (v : TapState) : ((Upd.tap v).apply s).ringLinks = s.ringLinks := (rfl)
@[simp] theorem Upd.tap_sq (v : TapState) : ((Upd.tap v).apply s).sq = s.sq := (rfl)
@[simp] theorem Upd.tap_rc (v : TapState) : ((Upd.tap v).apply s).rc = s.rc := (rfl)
@[simp] theorem Upd.tap_cw (v : TapState) : ((Upd.tap v).apply s).cw = s.cw := (rfl)
@[simp] theorem Upd.tap_ring (v : TapState) : ((Upd.tap v).apply s).ring = s.ring := (rfl)
@[simp] theorem Upd.tap_gb (v : TapState) : ((Upd.tap v).apply s).gb = s.gb := (rfl)
@[simp] theorem Upd.tap_fc (v : TapState) : ((Upd.tap v).apply s).fc = s.fc := (rfl)
@[simp] theorem Upd.tap_tb (v : TapState) : ((Upd.tap v).apply s).tb = s.tb := (rfl)
@[simp] theorem Upd.tap_boot (v : TapState) : ((Upd.tap v).apply s).boot = s.boot := (rfl)
@[simp] theorem Upd.tap_tap (v : TapState) : ((Upd.tap v).apply s).tap = v := (rfl)
@[simp] theorem Upd.tap_bg (v : TapState) : ((Upd.tap v).apply s).bg = s.bg := (rfl)

@[simp] theorem Upd.bg_pending (v : List BgOp) : ((Upd.bg v).apply s).pending = s.pending := (rfl)
@[simp] theorem Upd.bg_free (v : List BgOp) : ((Upd.bg v).apply s).free = s.free := (rfl)
@[simp] theorem Upd.bg_outbox (v : List BgOp) : ((Upd.bg v).apply s).outbox = s.outbox := (rfl)
@[simp] theorem Upd.bg_mem (v : List BgOp) : ((Upd.bg v).apply s).mem = s.mem := (rfl)
@[simp] theorem Upd.bg_bad (v : List BgOp) : ((Upd.bg v).apply s).bad = s.bad := (rfl)
@[simp] theorem Upd.bg_desk (v : List BgOp) : ((Upd.bg v).apply s).desk = s.desk := (rfl)
@[simp] theorem Upd.bg_pg (v : List BgOp) : ((Upd.bg v).apply s).pg = s.pg := (rfl)
@[simp] theorem Upd.bg_regs (v : List BgOp) : ((Upd.bg v).apply s).regs = s.regs := (rfl)
@[simp] theorem Upd.bg_act (v : List BgOp) : ((Upd.bg v).apply s).act = s.act := (rfl)
@[simp] theorem Upd.bg_pendc (v : List BgOp) : ((Upd.bg v).apply s).pendc = s.pendc := (rfl)
@[simp] theorem Upd.bg_goBy (v : List BgOp) : ((Upd.bg v).apply s).goBy = s.goBy := (rfl)
@[simp] theorem Upd.bg_msix (v : List BgOp) : ((Upd.bg v).apply s).msix = s.msix := (rfl)
@[simp] theorem Upd.bg_threads (v : List BgOp) : ((Upd.bg v).apply s).threads = s.threads := (rfl)
@[simp] theorem Upd.bg_acts (v : List BgOp) : ((Upd.bg v).apply s).acts = s.acts := (rfl)
@[simp] theorem Upd.bg_ready (v : List BgOp) : ((Upd.bg v).apply s).ready = s.ready := (rfl)
@[simp] theorem Upd.bg_delay (v : List BgOp) : ((Upd.bg v).apply s).delay = s.delay := (rfl)
@[simp] theorem Upd.bg_ctxs (v : List BgOp) : ((Upd.bg v).apply s).ctxs = s.ctxs := (rfl)
@[simp] theorem Upd.bg_banks (v : List BgOp) : ((Upd.bg v).apply s).banks = s.banks := (rfl)
@[simp] theorem Upd.bg_fuq (v : List BgOp) : ((Upd.bg v).apply s).fuq = s.fuq := (rfl)
@[simp] theorem Upd.bg_units (v : List BgOp) : ((Upd.bg v).apply s).units = s.units := (rfl)
@[simp] theorem Upd.bg_hqueues (v : List BgOp) : ((Upd.bg v).apply s).hqueues = s.hqueues := (rfl)
@[simp] theorem Upd.bg_icache (v : List BgOp) : ((Upd.bg v).apply s).icache = s.icache := (rfl)
@[simp] theorem Upd.bg_learn (v : List BgOp) : ((Upd.bg v).apply s).learn = s.learn := (rfl)
@[simp] theorem Upd.bg_engines (v : List BgOp) : ((Upd.bg v).apply s).engines = s.engines := (rfl)
@[simp] theorem Upd.bg_dirRows (v : List BgOp) : ((Upd.bg v).apply s).dirRows = s.dirRows := (rfl)
@[simp] theorem Upd.bg_dirShadow (v : List BgOp) : ((Upd.bg v).apply s).dirShadow = s.dirShadow := (rfl)
@[simp] theorem Upd.bg_dir (v : List BgOp) : ((Upd.bg v).apply s).dir = s.dir := (rfl)
@[simp] theorem Upd.bg_ddrs (v : List BgOp) : ((Upd.bg v).apply s).ddrs = s.ddrs := (rfl)
@[simp] theorem Upd.bg_bufs (v : List BgOp) : ((Upd.bg v).apply s).bufs = s.bufs := (rfl)
@[simp] theorem Upd.bg_pools (v : List BgOp) : ((Upd.bg v).apply s).pools = s.pools := (rfl)
@[simp] theorem Upd.bg_chans (v : List BgOp) : ((Upd.bg v).apply s).chans = s.chans := (rfl)
@[simp] theorem Upd.bg_locks (v : List BgOp) : ((Upd.bg v).apply s).locks = s.locks := (rfl)
@[simp] theorem Upd.bg_streams (v : List BgOp) : ((Upd.bg v).apply s).streams = s.streams := (rfl)
@[simp] theorem Upd.bg_ports (v : List BgOp) : ((Upd.bg v).apply s).ports = s.ports := (rfl)
@[simp] theorem Upd.bg_pipes (v : List BgOp) : ((Upd.bg v).apply s).pipes = s.pipes := (rfl)
@[simp] theorem Upd.bg_admitQ (v : List BgOp) : ((Upd.bg v).apply s).admitQ = s.admitQ := (rfl)
@[simp] theorem Upd.bg_terms (v : List BgOp) : ((Upd.bg v).apply s).terms = s.terms := (rfl)
@[simp] theorem Upd.bg_classes (v : List BgOp) : ((Upd.bg v).apply s).classes = s.classes := (rfl)
@[simp] theorem Upd.bg_hostq (v : List BgOp) : ((Upd.bg v).apply s).hostq = s.hostq := (rfl)
@[simp] theorem Upd.bg_ringLinks (v : List BgOp) : ((Upd.bg v).apply s).ringLinks = s.ringLinks := (rfl)
@[simp] theorem Upd.bg_sq (v : List BgOp) : ((Upd.bg v).apply s).sq = s.sq := (rfl)
@[simp] theorem Upd.bg_rc (v : List BgOp) : ((Upd.bg v).apply s).rc = s.rc := (rfl)
@[simp] theorem Upd.bg_cw (v : List BgOp) : ((Upd.bg v).apply s).cw = s.cw := (rfl)
@[simp] theorem Upd.bg_ring (v : List BgOp) : ((Upd.bg v).apply s).ring = s.ring := (rfl)
@[simp] theorem Upd.bg_gb (v : List BgOp) : ((Upd.bg v).apply s).gb = s.gb := (rfl)
@[simp] theorem Upd.bg_fc (v : List BgOp) : ((Upd.bg v).apply s).fc = s.fc := (rfl)
@[simp] theorem Upd.bg_tb (v : List BgOp) : ((Upd.bg v).apply s).tb = s.tb := (rfl)
@[simp] theorem Upd.bg_boot (v : List BgOp) : ((Upd.bg v).apply s).boot = s.boot := (rfl)
@[simp] theorem Upd.bg_tap (v : List BgOp) : ((Upd.bg v).apply s).tap = s.tap := (rfl)
@[simp] theorem Upd.bg_bg (v : List BgOp) : ((Upd.bg v).apply s).bg = v := (rfl)

@[simp] theorem Upd.toReset_pending : (Upd.toReset.apply s).pending = s.pending := (rfl)
@[simp] theorem Upd.toReset_free : (Upd.toReset.apply s).free = s.free := (rfl)
@[simp] theorem Upd.toReset_outbox : (Upd.toReset.apply s).outbox = s.outbox := (rfl)
@[simp] theorem Upd.toReset_mem : (Upd.toReset.apply s).mem = State.reset.mem := (rfl)
@[simp] theorem Upd.toReset_bad : (Upd.toReset.apply s).bad = State.reset.bad := (rfl)
@[simp] theorem Upd.toReset_desk : (Upd.toReset.apply s).desk = State.reset.desk := (rfl)
@[simp] theorem Upd.toReset_pg : (Upd.toReset.apply s).pg = State.reset.pg := (rfl)
@[simp] theorem Upd.toReset_regs : (Upd.toReset.apply s).regs = State.reset.regs := (rfl)
@[simp] theorem Upd.toReset_act : (Upd.toReset.apply s).act = State.reset.act := (rfl)
@[simp] theorem Upd.toReset_pendc : (Upd.toReset.apply s).pendc = State.reset.pendc := (rfl)
@[simp] theorem Upd.toReset_goBy : (Upd.toReset.apply s).goBy = State.reset.goBy := (rfl)
@[simp] theorem Upd.toReset_msix : (Upd.toReset.apply s).msix = State.reset.msix := (rfl)
@[simp] theorem Upd.toReset_threads : (Upd.toReset.apply s).threads = State.reset.threads := (rfl)
@[simp] theorem Upd.toReset_acts : (Upd.toReset.apply s).acts = State.reset.acts := (rfl)
@[simp] theorem Upd.toReset_ready : (Upd.toReset.apply s).ready = State.reset.ready := (rfl)
@[simp] theorem Upd.toReset_delay : (Upd.toReset.apply s).delay = State.reset.delay := (rfl)
@[simp] theorem Upd.toReset_ctxs : (Upd.toReset.apply s).ctxs = State.reset.ctxs := (rfl)
@[simp] theorem Upd.toReset_banks : (Upd.toReset.apply s).banks = State.reset.banks := (rfl)
@[simp] theorem Upd.toReset_fuq : (Upd.toReset.apply s).fuq = State.reset.fuq := (rfl)
@[simp] theorem Upd.toReset_units : (Upd.toReset.apply s).units = State.reset.units := (rfl)
@[simp] theorem Upd.toReset_hqueues : (Upd.toReset.apply s).hqueues = State.reset.hqueues := (rfl)
@[simp] theorem Upd.toReset_icache : (Upd.toReset.apply s).icache = State.reset.icache := (rfl)
@[simp] theorem Upd.toReset_learn : (Upd.toReset.apply s).learn = State.reset.learn := (rfl)
@[simp] theorem Upd.toReset_engines : (Upd.toReset.apply s).engines = State.reset.engines := (rfl)
@[simp] theorem Upd.toReset_dirRows : (Upd.toReset.apply s).dirRows = State.reset.dirRows := (rfl)
@[simp] theorem Upd.toReset_dirShadow : (Upd.toReset.apply s).dirShadow = State.reset.dirShadow := (rfl)
@[simp] theorem Upd.toReset_dir : (Upd.toReset.apply s).dir = State.reset.dir := (rfl)
@[simp] theorem Upd.toReset_ddrs : (Upd.toReset.apply s).ddrs = State.reset.ddrs := (rfl)
@[simp] theorem Upd.toReset_bufs : (Upd.toReset.apply s).bufs = State.reset.bufs := (rfl)
@[simp] theorem Upd.toReset_pools : (Upd.toReset.apply s).pools = State.reset.pools := (rfl)
@[simp] theorem Upd.toReset_chans : (Upd.toReset.apply s).chans = State.reset.chans := (rfl)
@[simp] theorem Upd.toReset_locks : (Upd.toReset.apply s).locks = State.reset.locks := (rfl)
@[simp] theorem Upd.toReset_streams : (Upd.toReset.apply s).streams = State.reset.streams := (rfl)
@[simp] theorem Upd.toReset_ports : (Upd.toReset.apply s).ports = State.reset.ports := (rfl)
@[simp] theorem Upd.toReset_pipes : (Upd.toReset.apply s).pipes = State.reset.pipes := (rfl)
@[simp] theorem Upd.toReset_admitQ : (Upd.toReset.apply s).admitQ = State.reset.admitQ := (rfl)
@[simp] theorem Upd.toReset_terms : (Upd.toReset.apply s).terms = State.reset.terms := (rfl)
@[simp] theorem Upd.toReset_classes : (Upd.toReset.apply s).classes = State.reset.classes := (rfl)
@[simp] theorem Upd.toReset_hostq : (Upd.toReset.apply s).hostq = State.reset.hostq := (rfl)
@[simp] theorem Upd.toReset_ringLinks : (Upd.toReset.apply s).ringLinks = State.reset.ringLinks := (rfl)
@[simp] theorem Upd.toReset_sq : (Upd.toReset.apply s).sq = State.reset.sq := (rfl)
@[simp] theorem Upd.toReset_rc : (Upd.toReset.apply s).rc = State.reset.rc := (rfl)
@[simp] theorem Upd.toReset_cw : (Upd.toReset.apply s).cw = State.reset.cw := (rfl)
@[simp] theorem Upd.toReset_ring : (Upd.toReset.apply s).ring = State.reset.ring := (rfl)
@[simp] theorem Upd.toReset_gb : (Upd.toReset.apply s).gb = State.reset.gb := (rfl)
@[simp] theorem Upd.toReset_fc : (Upd.toReset.apply s).fc = State.reset.fc := (rfl)
@[simp] theorem Upd.toReset_tb : (Upd.toReset.apply s).tb = State.reset.tb := (rfl)
@[simp] theorem Upd.toReset_boot : (Upd.toReset.apply s).boot = State.reset.boot := (rfl)
@[simp] theorem Upd.toReset_tap : (Upd.toReset.apply s).tap = State.reset.tap := (rfl)
@[simp] theorem Upd.toReset_bg : (Upd.toReset.apply s).bg = State.reset.bg := (rfl)

@[simp] theorem Upd.memZero_pending (lo n : Nat) : ((Upd.memZero lo n).apply s).pending = s.pending := (rfl)
@[simp] theorem Upd.memZero_free (lo n : Nat) : ((Upd.memZero lo n).apply s).free = s.free := (rfl)
@[simp] theorem Upd.memZero_outbox (lo n : Nat) : ((Upd.memZero lo n).apply s).outbox = s.outbox := (rfl)
@[simp] theorem Upd.memZero_mem (lo n : Nat) : ((Upd.memZero lo n).apply s).mem = s.mem.filter fun e => !(decide (lo ≤ e.1) && decide (e.1 < lo + n)) := (rfl)
@[simp] theorem Upd.memZero_bad (lo n : Nat) : ((Upd.memZero lo n).apply s).bad = s.bad := (rfl)
@[simp] theorem Upd.memZero_desk (lo n : Nat) : ((Upd.memZero lo n).apply s).desk = s.desk := (rfl)
@[simp] theorem Upd.memZero_pg (lo n : Nat) : ((Upd.memZero lo n).apply s).pg = s.pg := (rfl)
@[simp] theorem Upd.memZero_regs (lo n : Nat) : ((Upd.memZero lo n).apply s).regs = s.regs := (rfl)
@[simp] theorem Upd.memZero_act (lo n : Nat) : ((Upd.memZero lo n).apply s).act = s.act := (rfl)
@[simp] theorem Upd.memZero_pendc (lo n : Nat) : ((Upd.memZero lo n).apply s).pendc = s.pendc := (rfl)
@[simp] theorem Upd.memZero_goBy (lo n : Nat) : ((Upd.memZero lo n).apply s).goBy = s.goBy := (rfl)
@[simp] theorem Upd.memZero_msix (lo n : Nat) : ((Upd.memZero lo n).apply s).msix = s.msix := (rfl)
@[simp] theorem Upd.memZero_threads (lo n : Nat) : ((Upd.memZero lo n).apply s).threads = s.threads := (rfl)
@[simp] theorem Upd.memZero_acts (lo n : Nat) : ((Upd.memZero lo n).apply s).acts = s.acts := (rfl)
@[simp] theorem Upd.memZero_ready (lo n : Nat) : ((Upd.memZero lo n).apply s).ready = s.ready := (rfl)
@[simp] theorem Upd.memZero_delay (lo n : Nat) : ((Upd.memZero lo n).apply s).delay = s.delay := (rfl)
@[simp] theorem Upd.memZero_ctxs (lo n : Nat) : ((Upd.memZero lo n).apply s).ctxs = s.ctxs := (rfl)
@[simp] theorem Upd.memZero_banks (lo n : Nat) : ((Upd.memZero lo n).apply s).banks = s.banks := (rfl)
@[simp] theorem Upd.memZero_fuq (lo n : Nat) : ((Upd.memZero lo n).apply s).fuq = s.fuq := (rfl)
@[simp] theorem Upd.memZero_units (lo n : Nat) : ((Upd.memZero lo n).apply s).units = s.units := (rfl)
@[simp] theorem Upd.memZero_hqueues (lo n : Nat) : ((Upd.memZero lo n).apply s).hqueues = s.hqueues := (rfl)
@[simp] theorem Upd.memZero_icache (lo n : Nat) : ((Upd.memZero lo n).apply s).icache = s.icache := (rfl)
@[simp] theorem Upd.memZero_learn (lo n : Nat) : ((Upd.memZero lo n).apply s).learn = s.learn := (rfl)
@[simp] theorem Upd.memZero_engines (lo n : Nat) : ((Upd.memZero lo n).apply s).engines = s.engines := (rfl)
@[simp] theorem Upd.memZero_dirRows (lo n : Nat) : ((Upd.memZero lo n).apply s).dirRows = s.dirRows := (rfl)
@[simp] theorem Upd.memZero_dirShadow (lo n : Nat) : ((Upd.memZero lo n).apply s).dirShadow = s.dirShadow := (rfl)
@[simp] theorem Upd.memZero_dir (lo n : Nat) : ((Upd.memZero lo n).apply s).dir = s.dir := (rfl)
@[simp] theorem Upd.memZero_ddrs (lo n : Nat) : ((Upd.memZero lo n).apply s).ddrs = s.ddrs := (rfl)
@[simp] theorem Upd.memZero_bufs (lo n : Nat) : ((Upd.memZero lo n).apply s).bufs = s.bufs := (rfl)
@[simp] theorem Upd.memZero_pools (lo n : Nat) : ((Upd.memZero lo n).apply s).pools = s.pools := (rfl)
@[simp] theorem Upd.memZero_chans (lo n : Nat) : ((Upd.memZero lo n).apply s).chans = s.chans := (rfl)
@[simp] theorem Upd.memZero_locks (lo n : Nat) : ((Upd.memZero lo n).apply s).locks = s.locks := (rfl)
@[simp] theorem Upd.memZero_streams (lo n : Nat) : ((Upd.memZero lo n).apply s).streams = s.streams := (rfl)
@[simp] theorem Upd.memZero_ports (lo n : Nat) : ((Upd.memZero lo n).apply s).ports = s.ports := (rfl)
@[simp] theorem Upd.memZero_pipes (lo n : Nat) : ((Upd.memZero lo n).apply s).pipes = s.pipes := (rfl)
@[simp] theorem Upd.memZero_admitQ (lo n : Nat) : ((Upd.memZero lo n).apply s).admitQ = s.admitQ := (rfl)
@[simp] theorem Upd.memZero_terms (lo n : Nat) : ((Upd.memZero lo n).apply s).terms = s.terms := (rfl)
@[simp] theorem Upd.memZero_classes (lo n : Nat) : ((Upd.memZero lo n).apply s).classes = s.classes := (rfl)
@[simp] theorem Upd.memZero_hostq (lo n : Nat) : ((Upd.memZero lo n).apply s).hostq = s.hostq := (rfl)
@[simp] theorem Upd.memZero_ringLinks (lo n : Nat) : ((Upd.memZero lo n).apply s).ringLinks = s.ringLinks := (rfl)
@[simp] theorem Upd.memZero_sq (lo n : Nat) : ((Upd.memZero lo n).apply s).sq = s.sq := (rfl)
@[simp] theorem Upd.memZero_rc (lo n : Nat) : ((Upd.memZero lo n).apply s).rc = s.rc := (rfl)
@[simp] theorem Upd.memZero_cw (lo n : Nat) : ((Upd.memZero lo n).apply s).cw = s.cw := (rfl)
@[simp] theorem Upd.memZero_ring (lo n : Nat) : ((Upd.memZero lo n).apply s).ring = s.ring := (rfl)
@[simp] theorem Upd.memZero_gb (lo n : Nat) : ((Upd.memZero lo n).apply s).gb = s.gb := (rfl)
@[simp] theorem Upd.memZero_fc (lo n : Nat) : ((Upd.memZero lo n).apply s).fc = s.fc := (rfl)
@[simp] theorem Upd.memZero_tb (lo n : Nat) : ((Upd.memZero lo n).apply s).tb = s.tb := (rfl)
@[simp] theorem Upd.memZero_boot (lo n : Nat) : ((Upd.memZero lo n).apply s).boot = s.boot := (rfl)
@[simp] theorem Upd.memZero_tap (lo n : Nat) : ((Upd.memZero lo n).apply s).tap = s.tap := (rfl)
@[simp] theorem Upd.memZero_bg (lo n : Nat) : ((Upd.memZero lo n).apply s).bg = s.bg := (rfl)

@[simp] theorem Upd.deskZero_pending (lo n : Nat) : ((Upd.deskZero lo n).apply s).pending = s.pending := (rfl)
@[simp] theorem Upd.deskZero_free (lo n : Nat) : ((Upd.deskZero lo n).apply s).free = s.free := (rfl)
@[simp] theorem Upd.deskZero_outbox (lo n : Nat) : ((Upd.deskZero lo n).apply s).outbox = s.outbox := (rfl)
@[simp] theorem Upd.deskZero_mem (lo n : Nat) : ((Upd.deskZero lo n).apply s).mem = s.mem := (rfl)
@[simp] theorem Upd.deskZero_bad (lo n : Nat) : ((Upd.deskZero lo n).apply s).bad = s.bad := (rfl)
@[simp] theorem Upd.deskZero_desk (lo n : Nat) : ((Upd.deskZero lo n).apply s).desk = s.desk.filter fun e => !(decide (lo ≤ e.1) && decide (e.1 < lo + n)) := (rfl)
@[simp] theorem Upd.deskZero_pg (lo n : Nat) : ((Upd.deskZero lo n).apply s).pg = s.pg := (rfl)
@[simp] theorem Upd.deskZero_regs (lo n : Nat) : ((Upd.deskZero lo n).apply s).regs = s.regs := (rfl)
@[simp] theorem Upd.deskZero_act (lo n : Nat) : ((Upd.deskZero lo n).apply s).act = s.act := (rfl)
@[simp] theorem Upd.deskZero_pendc (lo n : Nat) : ((Upd.deskZero lo n).apply s).pendc = s.pendc := (rfl)
@[simp] theorem Upd.deskZero_goBy (lo n : Nat) : ((Upd.deskZero lo n).apply s).goBy = s.goBy := (rfl)
@[simp] theorem Upd.deskZero_msix (lo n : Nat) : ((Upd.deskZero lo n).apply s).msix = s.msix := (rfl)
@[simp] theorem Upd.deskZero_threads (lo n : Nat) : ((Upd.deskZero lo n).apply s).threads = s.threads := (rfl)
@[simp] theorem Upd.deskZero_acts (lo n : Nat) : ((Upd.deskZero lo n).apply s).acts = s.acts := (rfl)
@[simp] theorem Upd.deskZero_ready (lo n : Nat) : ((Upd.deskZero lo n).apply s).ready = s.ready := (rfl)
@[simp] theorem Upd.deskZero_delay (lo n : Nat) : ((Upd.deskZero lo n).apply s).delay = s.delay := (rfl)
@[simp] theorem Upd.deskZero_ctxs (lo n : Nat) : ((Upd.deskZero lo n).apply s).ctxs = s.ctxs := (rfl)
@[simp] theorem Upd.deskZero_banks (lo n : Nat) : ((Upd.deskZero lo n).apply s).banks = s.banks := (rfl)
@[simp] theorem Upd.deskZero_fuq (lo n : Nat) : ((Upd.deskZero lo n).apply s).fuq = s.fuq := (rfl)
@[simp] theorem Upd.deskZero_units (lo n : Nat) : ((Upd.deskZero lo n).apply s).units = s.units := (rfl)
@[simp] theorem Upd.deskZero_hqueues (lo n : Nat) : ((Upd.deskZero lo n).apply s).hqueues = s.hqueues := (rfl)
@[simp] theorem Upd.deskZero_icache (lo n : Nat) : ((Upd.deskZero lo n).apply s).icache = s.icache := (rfl)
@[simp] theorem Upd.deskZero_learn (lo n : Nat) : ((Upd.deskZero lo n).apply s).learn = s.learn := (rfl)
@[simp] theorem Upd.deskZero_engines (lo n : Nat) : ((Upd.deskZero lo n).apply s).engines = s.engines := (rfl)
@[simp] theorem Upd.deskZero_dirRows (lo n : Nat) : ((Upd.deskZero lo n).apply s).dirRows = s.dirRows := (rfl)
@[simp] theorem Upd.deskZero_dirShadow (lo n : Nat) : ((Upd.deskZero lo n).apply s).dirShadow = s.dirShadow := (rfl)
@[simp] theorem Upd.deskZero_dir (lo n : Nat) : ((Upd.deskZero lo n).apply s).dir = s.dir := (rfl)
@[simp] theorem Upd.deskZero_ddrs (lo n : Nat) : ((Upd.deskZero lo n).apply s).ddrs = s.ddrs := (rfl)
@[simp] theorem Upd.deskZero_bufs (lo n : Nat) : ((Upd.deskZero lo n).apply s).bufs = s.bufs := (rfl)
@[simp] theorem Upd.deskZero_pools (lo n : Nat) : ((Upd.deskZero lo n).apply s).pools = s.pools := (rfl)
@[simp] theorem Upd.deskZero_chans (lo n : Nat) : ((Upd.deskZero lo n).apply s).chans = s.chans := (rfl)
@[simp] theorem Upd.deskZero_locks (lo n : Nat) : ((Upd.deskZero lo n).apply s).locks = s.locks := (rfl)
@[simp] theorem Upd.deskZero_streams (lo n : Nat) : ((Upd.deskZero lo n).apply s).streams = s.streams := (rfl)
@[simp] theorem Upd.deskZero_ports (lo n : Nat) : ((Upd.deskZero lo n).apply s).ports = s.ports := (rfl)
@[simp] theorem Upd.deskZero_pipes (lo n : Nat) : ((Upd.deskZero lo n).apply s).pipes = s.pipes := (rfl)
@[simp] theorem Upd.deskZero_admitQ (lo n : Nat) : ((Upd.deskZero lo n).apply s).admitQ = s.admitQ := (rfl)
@[simp] theorem Upd.deskZero_terms (lo n : Nat) : ((Upd.deskZero lo n).apply s).terms = s.terms := (rfl)
@[simp] theorem Upd.deskZero_classes (lo n : Nat) : ((Upd.deskZero lo n).apply s).classes = s.classes := (rfl)
@[simp] theorem Upd.deskZero_hostq (lo n : Nat) : ((Upd.deskZero lo n).apply s).hostq = s.hostq := (rfl)
@[simp] theorem Upd.deskZero_ringLinks (lo n : Nat) : ((Upd.deskZero lo n).apply s).ringLinks = s.ringLinks := (rfl)
@[simp] theorem Upd.deskZero_sq (lo n : Nat) : ((Upd.deskZero lo n).apply s).sq = s.sq := (rfl)
@[simp] theorem Upd.deskZero_rc (lo n : Nat) : ((Upd.deskZero lo n).apply s).rc = s.rc := (rfl)
@[simp] theorem Upd.deskZero_cw (lo n : Nat) : ((Upd.deskZero lo n).apply s).cw = s.cw := (rfl)
@[simp] theorem Upd.deskZero_ring (lo n : Nat) : ((Upd.deskZero lo n).apply s).ring = s.ring := (rfl)
@[simp] theorem Upd.deskZero_gb (lo n : Nat) : ((Upd.deskZero lo n).apply s).gb = s.gb := (rfl)
@[simp] theorem Upd.deskZero_fc (lo n : Nat) : ((Upd.deskZero lo n).apply s).fc = s.fc := (rfl)
@[simp] theorem Upd.deskZero_tb (lo n : Nat) : ((Upd.deskZero lo n).apply s).tb = s.tb := (rfl)
@[simp] theorem Upd.deskZero_boot (lo n : Nat) : ((Upd.deskZero lo n).apply s).boot = s.boot := (rfl)
@[simp] theorem Upd.deskZero_tap (lo n : Nat) : ((Upd.deskZero lo n).apply s).tap = s.tap := (rfl)
@[simp] theorem Upd.deskZero_bg (lo n : Nat) : ((Upd.deskZero lo n).apply s).bg = s.bg := (rfl)

end Sys2Proof.Machine
end

