-- ==== Sys2Proof/Laws/Program.lean ====
section
/-! SUPPORT. Laws of programs (`M`): what each way of building one does. -/

set_option linter.all false
set_option Elab.async false

namespace Sys2Proof.Machine

variable {α β : Type}

@[simp] theorem run_pure (a : α) (s : State) : (pure a : M α) s = (a, s) := (rfl)

@[simp] theorem run_bind (p : M α) (f : α → M β) (s : State) : (p >>= f) s = f (p s).1 (p s).2 := (rfl)

@[simp] theorem run_emit (u : Upd) (s : State) : emit u s = ((), u.apply s) := (rfl)

@[simp] theorem run_rd (f : State → α) (s : State) : rd f s = (f s, s) := (rfl)

@[simp] theorem run_onlyIf_true (p : M Unit) (s : State) : onlyIf true p s = p s := (rfl)

@[simp] theorem run_onlyIf_false (p : M Unit) (s : State) : onlyIf false p s = ((), s) := (rfl)

theorem run_onlyIf (c : Bool) (p : M Unit) (s : State) : onlyIf c p s = if c then p s else ((), s) := by cases c <;> rfl

@[simp] theorem run_each_nil (f : α → M Unit) (s : State) : each [] f s = ((), s) := (rfl)

@[simp] theorem run_each_cons (x : α) (xs : List α) (f : α → M Unit) (s : State) :
    each (x :: xs) f s = each xs f (f x s).2 := (rfl)

@[simp] theorem run_mapEach_nil (f : α → M β) (s : State) : mapEach [] f s = ([], s) := (rfl)

@[simp] theorem run_ite (c : Prop) [Decidable c] (p q : M α) (s : State) :
    (if c then p else q) s = if c then p s else q s := by split <;> rfl

/-- What a command answers. -/
theorem commit_eq (p : M Unit) (s : State) : commit p s = .next (p s).2 := (rfl)

/-! Lists of changes, the newest first. -/

/-- The state after a list of changes. -/
def applyAll : List Upd → State → State
  | [], s => s
  | u :: us, s => u.apply (applyAll us s)

@[simp] theorem applyAll_nil (s : State) : applyAll [] s = s := (rfl)

@[simp] theorem applyAll_cons (u : Upd) (us : List Upd) (s : State) : applyAll (u :: us) s = u.apply (applyAll us s) := (rfl)

theorem applyAll_append (us vs : List Upd) (s : State) : applyAll (us ++ vs) s = applyAll us (applyAll vs s) := by
  induction us with
  | nil => rfl
  | cons u us ih => simp [ih]

end Sys2Proof.Machine
end

