-- ==== Sys2Proof/Laws/Canonical.lean ====
section
/-! SUPPORT. Every change keeps every map of the state in its canonical form, and leaves the queue of commands alone. -/

set_option linter.all false
set_option Elab.async false

namespace Sys2Proof.Machine

theorem State.reset_mapsWf : State.reset.mapsWf = true := by
  simp [State.mapsWf, State.reset, SMap.wf, SMap.sorted]

/-- A change keeps the canonical form of every map, the memory among them. -/
theorem Upd.apply_mapsWf (u : Upd) (s : State) (h : s.mapsWf = true) : (u.apply s).mapsWf = true := by
  cases u
  case toReset => exact State.reset_mapsWf
  all_goals
    simp only [State.mapsWf, Bool.and_eq_true] at h ⊢
    simp only [Upd.apply]
    simp [h, SMap.wf_put, SMap.wf_filter]

theorem applyAll_mapsWf (us : List Upd) (s : State) (h : s.mapsWf = true) : (applyAll us s).mapsWf = true := by
  induction us with
  | nil => exact h
  | cons u us ih => exact Upd.apply_mapsWf u _ ih

/-- No change touches the queue. -/
theorem Upd.apply_pending (u : Upd) (s : State) : (u.apply s).pending = s.pending := by cases u <;> rfl

theorem applyAll_pending (us : List Upd) (s : State) : (applyAll us s).pending = s.pending := by
  induction us with
  | nil => rfl
  | cons u us ih => rw [applyAll_cons, Upd.apply_pending, ih]

end Sys2Proof.Machine
end

