-- ==== Sys2Proof/Laws/Changes.lean ====
section
/-! SUPPORT. What each `mod` operation does to the state, and how one key of a map reads after a change of
another. -/

set_option linter.all false
set_option Elab.async false

namespace Sys2Proof.Machine

@[simp] theorem run_modFree (f : Nat → Nat) (s : State) :
    modFree f s = ((), (Upd.free (f s.free)).apply s) := (rfl)

@[simp] theorem run_modOutbox (f : List Out → List Out) (s : State) :
    modOutbox f s = ((), (Upd.outbox (f s.outbox)).apply s) := (rfl)

@[simp] theorem run_modMem (k : Nat) (f : Byte → Byte) (s : State) :
    modMem k f s = ((), (Upd.mem k (f (s.memAt k))).apply s) := (rfl)

@[simp] theorem run_modBad (k : Nat) (f : Bool → Bool) (s : State) :
    modBad k f s = ((), (Upd.bad k (f (s.badAt k))).apply s) := (rfl)

@[simp] theorem run_modDesk (k : Nat) (f : Byte → Byte) (s : State) :
    modDesk k f s = ((), (Upd.desk k (f (s.deskAt k))).apply s) := (rfl)

@[simp] theorem run_modPg (k : Nat) (f : Byte → Byte) (s : State) :
    modPg k f s = ((), (Upd.pg k (f (s.pgAt k))).apply s) := (rfl)

@[simp] theorem run_modRegs (k : Nat) (f : Word → Word) (s : State) :
    modRegs k f s = ((), (Upd.regs k (f (s.regsAt k))).apply s) := (rfl)

@[simp] theorem run_modAct (k : Nat) (f : Word → Word) (s : State) :
    modAct k f s = ((), (Upd.act k (f (s.actAt k))).apply s) := (rfl)

@[simp] theorem run_modPendc (k : Nat) (f : Word → Word) (s : State) :
    modPendc k f s = ((), (Upd.pendc k (f (s.pendcAt k))).apply s) := (rfl)

@[simp] theorem run_modGoBy (k : Nat) (f : Origin → Origin) (s : State) :
    modGoBy k f s = ((), (Upd.goBy k (f (s.goByAt k))).apply s) := (rfl)

@[simp] theorem run_modMsix (k : Nat) (f : MsixEntry → MsixEntry) (s : State) :
    modMsix k f s = ((), (Upd.msix k (f (s.msixAt k))).apply s) := (rfl)

@[simp] theorem run_modThreads (k : Nat) (f : Thread → Thread) (s : State) :
    modThreads k f s = ((), (Upd.threads k (f (s.threadsAt k))).apply s) := (rfl)

@[simp] theorem run_modActs (k : Nat) (f : Option Act → Option Act) (s : State) :
    modActs k f s = ((), (Upd.acts k (f (s.actsAt k))).apply s) := (rfl)

@[simp] theorem run_modReady (k : Nat) (f : List Nat → List Nat) (s : State) :
    modReady k f s = ((), (Upd.ready k (f (s.readyAt k))).apply s) := (rfl)

@[simp] theorem run_modDelay (k : Nat) (f : DelaySlot → DelaySlot) (s : State) :
    modDelay k f s = ((), (Upd.delay k (f (s.delayAt k))).apply s) := (rfl)

@[simp] theorem run_modCtxs (k : Nat) (f : Ctx → Ctx) (s : State) :
    modCtxs k f s = ((), (Upd.ctxs k (f (s.ctxsAt k))).apply s) := (rfl)

@[simp] theorem run_modBanks (k : Nat) (f : Bank → Bank) (s : State) :
    modBanks k f s = ((), (Upd.banks k (f (s.banksAt k))).apply s) := (rfl)

@[simp] theorem run_modFuq (k : Nat) (f : List FuItem → List FuItem) (s : State) :
    modFuq k f s = ((), (Upd.fuq k (f (s.fuqAt k))).apply s) := (rfl)

@[simp] theorem run_modUnits (k : Nat) (f : Option HelperRun → Option HelperRun) (s : State) :
    modUnits k f s = ((), (Upd.units k (f (s.unitsAt k))).apply s) := (rfl)

@[simp] theorem run_modHqueues (k : Nat) (f : List HelperWait → List HelperWait) (s : State) :
    modHqueues k f s = ((), (Upd.hqueues k (f (s.hqueuesAt k))).apply s) := (rfl)

@[simp] theorem run_modIcache (k : Nat) (f : List Byte → List Byte) (s : State) :
    modIcache k f s = ((), (Upd.icache k (f (s.icacheAt k))).apply s) := (rfl)

@[simp] theorem run_modLearn (k : Nat) (f : Option Nat → Option Nat) (s : State) :
    modLearn k f s = ((), (Upd.learn k (f (s.learnAt k))).apply s) := (rfl)

@[simp] theorem run_modEngines (k : Nat) (f : Engine → Engine) (s : State) :
    modEngines k f s = ((), (Upd.engines k (f (s.enginesAt k))).apply s) := (rfl)

@[simp] theorem run_modDirRows (k : Nat) (f : DirRow → DirRow) (s : State) :
    modDirRows k f s = ((), (Upd.dirRows k (f (s.dirRowsAt k))).apply s) := (rfl)

@[simp] theorem run_modDirShadow (k : Nat) (f : DirRow → DirRow) (s : State) :
    modDirShadow k f s = ((), (Upd.dirShadow k (f (s.dirShadowAt k))).apply s) := (rfl)

@[simp] theorem run_modDir (f : DirState → DirState) (s : State) :
    modDir f s = ((), (Upd.dir (f s.dir)).apply s) := (rfl)

@[simp] theorem run_modDdrs (k : Nat) (f : Ddr → Ddr) (s : State) :
    modDdrs k f s = ((), (Upd.ddrs k (f (s.ddrsAt k))).apply s) := (rfl)

@[simp] theorem run_modBufs (k : Nat) (f : Buf → Buf) (s : State) :
    modBufs k f s = ((), (Upd.bufs k (f (s.bufsAt k))).apply s) := (rfl)

@[simp] theorem run_modPools (k : Nat) (f : Pool → Pool) (s : State) :
    modPools k f s = ((), (Upd.pools k (f (s.poolsAt k))).apply s) := (rfl)

@[simp] theorem run_modChans (k : Nat) (f : Chan → Chan) (s : State) :
    modChans k f s = ((), (Upd.chans k (f (s.chansAt k))).apply s) := (rfl)

@[simp] theorem run_modLocks (k : Nat) (f : Lock → Lock) (s : State) :
    modLocks k f s = ((), (Upd.locks k (f (s.locksAt k))).apply s) := (rfl)

@[simp] theorem run_modStreams (k : Nat) (f : Option Stream → Option Stream) (s : State) :
    modStreams k f s = ((), (Upd.streams k (f (s.streamsAt k))).apply s) := (rfl)

@[simp] theorem run_modPorts (k : Nat) (f : Port → Port) (s : State) :
    modPorts k f s = ((), (Upd.ports k (f (s.portsAt k))).apply s) := (rfl)

@[simp] theorem run_modPipes (k : Nat) (f : Pipe → Pipe) (s : State) :
    modPipes k f s = ((), (Upd.pipes k (f (s.pipesAt k))).apply s) := (rfl)

@[simp] theorem run_modAdmitQ (k : Nat) (f : List Admitted → List Admitted) (s : State) :
    modAdmitQ k f s = ((), (Upd.admitQ k (f (s.admitQAt k))).apply s) := (rfl)

@[simp] theorem run_modTerms (k : Nat) (f : TermSlot → TermSlot) (s : State) :
    modTerms k f s = ((), (Upd.terms k (f (s.termsAt k))).apply s) := (rfl)

@[simp] theorem run_modClasses (k : Nat) (f : Classroom → Classroom) (s : State) :
    modClasses k f s = ((), (Upd.classes k (f (s.classesAt k))).apply s) := (rfl)

@[simp] theorem run_modHostq (k : Nat) (f : HostQ → HostQ) (s : State) :
    modHostq k f s = ((), (Upd.hostq k (f (s.hostqAt k))).apply s) := (rfl)

@[simp] theorem run_modRingLinks (k : Nat) (f : RingLink → RingLink) (s : State) :
    modRingLinks k f s = ((), (Upd.ringLinks k (f (s.ringLinksAt k))).apply s) := (rfl)

@[simp] theorem run_modSq (f : SqState → SqState) (s : State) :
    modSq f s = ((), (Upd.sq (f s.sq)).apply s) := (rfl)

@[simp] theorem run_modRc (f : RcState → RcState) (s : State) :
    modRc f s = ((), (Upd.rc (f s.rc)).apply s) := (rfl)

@[simp] theorem run_modCw (f : List CwCtx → List CwCtx) (s : State) :
    modCw f s = ((), (Upd.cw (f s.cw)).apply s) := (rfl)

@[simp] theorem run_modRing (f : RingState → RingState) (s : State) :
    modRing f s = ((), (Upd.ring (f s.ring)).apply s) := (rfl)

@[simp] theorem run_modGb (f : GbState → GbState) (s : State) :
    modGb f s = ((), (Upd.gb (f s.gb)).apply s) := (rfl)

@[simp] theorem run_modFc (f : FcState → FcState) (s : State) :
    modFc f s = ((), (Upd.fc (f s.fc)).apply s) := (rfl)

@[simp] theorem run_modTb (f : TimeState → TimeState) (s : State) :
    modTb f s = ((), (Upd.tb (f s.tb)).apply s) := (rfl)

@[simp] theorem run_modBoot (f : BootState → BootState) (s : State) :
    modBoot f s = ((), (Upd.boot (f s.boot)).apply s) := (rfl)

@[simp] theorem run_modTap (f : TapState → TapState) (s : State) :
    modTap f s = ((), (Upd.tap (f s.tap)).apply s) := (rfl)

@[simp] theorem run_modBg (f : List BgOp → List BgOp) (s : State) :
    modBg f s = ((), (Upd.bg (f s.bg)).apply s) := (rfl)

@[simp] theorem State.memAt_same (s : State) (k : Nat) (v : Byte) : ((Upd.mem k v).apply s).memAt k = v :=
  SMap.get_put_same _ _ _ _

theorem State.memAt_put (s : State) (k j : Nat) (v : Byte) :
    ((Upd.mem k v).apply s).memAt j = if j = k then v else s.memAt j :=
  SMap.get_put _ _ _ _ _

@[simp] theorem State.badAt_same (s : State) (k : Nat) (v : Bool) : ((Upd.bad k v).apply s).badAt k = v :=
  SMap.get_put_same _ _ _ _

theorem State.badAt_put (s : State) (k j : Nat) (v : Bool) :
    ((Upd.bad k v).apply s).badAt j = if j = k then v else s.badAt j :=
  SMap.get_put _ _ _ _ _

@[simp] theorem State.deskAt_same (s : State) (k : Nat) (v : Byte) : ((Upd.desk k v).apply s).deskAt k = v :=
  SMap.get_put_same _ _ _ _

theorem State.deskAt_put (s : State) (k j : Nat) (v : Byte) :
    ((Upd.desk k v).apply s).deskAt j = if j = k then v else s.deskAt j :=
  SMap.get_put _ _ _ _ _

@[simp] theorem State.pgAt_same (s : State) (k : Nat) (v : Byte) : ((Upd.pg k v).apply s).pgAt k = v :=
  SMap.get_put_same _ _ _ _

theorem State.pgAt_put (s : State) (k j : Nat) (v : Byte) :
    ((Upd.pg k v).apply s).pgAt j = if j = k then v else s.pgAt j :=
  SMap.get_put _ _ _ _ _

@[simp] theorem State.regsAt_same (s : State) (k : Nat) (v : Word) : ((Upd.regs k v).apply s).regsAt k = v :=
  SMap.get_put_same _ _ _ _

theorem State.regsAt_put (s : State) (k j : Nat) (v : Word) :
    ((Upd.regs k v).apply s).regsAt j = if j = k then v else s.regsAt j :=
  SMap.get_put _ _ _ _ _

@[simp] theorem State.actAt_same (s : State) (k : Nat) (v : Word) : ((Upd.act k v).apply s).actAt k = v :=
  SMap.get_put_same _ _ _ _

theorem State.actAt_put (s : State) (k j : Nat) (v : Word) :
    ((Upd.act k v).apply s).actAt j = if j = k then v else s.actAt j :=
  SMap.get_put _ _ _ _ _

@[simp] theorem State.pendcAt_same (s : State) (k : Nat) (v : Word) : ((Upd.pendc k v).apply s).pendcAt k = v :=
  SMap.get_put_same _ _ _ _

theorem State.pendcAt_put (s : State) (k j : Nat) (v : Word) :
    ((Upd.pendc k v).apply s).pendcAt j = if j = k then v else s.pendcAt j :=
  SMap.get_put _ _ _ _ _

@[simp] theorem State.goByAt_same (s : State) (k : Nat) (v : Origin) : ((Upd.goBy k v).apply s).goByAt k = v :=
  SMap.get_put_same _ _ _ _

theorem State.goByAt_put (s : State) (k j : Nat) (v : Origin) :
    ((Upd.goBy k v).apply s).goByAt j = if j = k then v else s.goByAt j :=
  SMap.get_put _ _ _ _ _

@[simp] theorem State.msixAt_same (s : State) (k : Nat) (v : MsixEntry) : ((Upd.msix k v).apply s).msixAt k = v :=
  SMap.get_put_same _ _ _ _

theorem State.msixAt_put (s : State) (k j : Nat) (v : MsixEntry) :
    ((Upd.msix k v).apply s).msixAt j = if j = k then v else s.msixAt j :=
  SMap.get_put _ _ _ _ _

@[simp] theorem State.threadsAt_same (s : State) (k : Nat) (v : Thread) : ((Upd.threads k v).apply s).threadsAt k = v :=
  SMap.get_put_same _ _ _ _

theorem State.threadsAt_put (s : State) (k j : Nat) (v : Thread) :
    ((Upd.threads k v).apply s).threadsAt j = if j = k then v else s.threadsAt j :=
  SMap.get_put _ _ _ _ _

@[simp] theorem State.actsAt_same (s : State) (k : Nat) (v : Option Act) : ((Upd.acts k v).apply s).actsAt k = v :=
  SMap.get_put_same _ _ _ _

theorem State.actsAt_put (s : State) (k j : Nat) (v : Option Act) :
    ((Upd.acts k v).apply s).actsAt j = if j = k then v else s.actsAt j :=
  SMap.get_put _ _ _ _ _

@[simp] theorem State.readyAt_same (s : State) (k : Nat) (v : List Nat) : ((Upd.ready k v).apply s).readyAt k = v :=
  SMap.get_put_same _ _ _ _

theorem State.readyAt_put (s : State) (k j : Nat) (v : List Nat) :
    ((Upd.ready k v).apply s).readyAt j = if j = k then v else s.readyAt j :=
  SMap.get_put _ _ _ _ _

@[simp] theorem State.delayAt_same (s : State) (k : Nat) (v : DelaySlot) : ((Upd.delay k v).apply s).delayAt k = v :=
  SMap.get_put_same _ _ _ _

theorem State.delayAt_put (s : State) (k j : Nat) (v : DelaySlot) :
    ((Upd.delay k v).apply s).delayAt j = if j = k then v else s.delayAt j :=
  SMap.get_put _ _ _ _ _

@[simp] theorem State.ctxsAt_same (s : State) (k : Nat) (v : Ctx) : ((Upd.ctxs k v).apply s).ctxsAt k = v :=
  SMap.get_put_same _ _ _ _

theorem State.ctxsAt_put (s : State) (k j : Nat) (v : Ctx) :
    ((Upd.ctxs k v).apply s).ctxsAt j = if j = k then v else s.ctxsAt j :=
  SMap.get_put _ _ _ _ _

@[simp] theorem State.banksAt_same (s : State) (k : Nat) (v : Bank) : ((Upd.banks k v).apply s).banksAt k = v :=
  SMap.get_put_same _ _ _ _

theorem State.banksAt_put (s : State) (k j : Nat) (v : Bank) :
    ((Upd.banks k v).apply s).banksAt j = if j = k then v else s.banksAt j :=
  SMap.get_put _ _ _ _ _

@[simp] theorem State.fuqAt_same (s : State) (k : Nat) (v : List FuItem) : ((Upd.fuq k v).apply s).fuqAt k = v :=
  SMap.get_put_same _ _ _ _

theorem State.fuqAt_put (s : State) (k j : Nat) (v : List FuItem) :
    ((Upd.fuq k v).apply s).fuqAt j = if j = k then v else s.fuqAt j :=
  SMap.get_put _ _ _ _ _

@[simp] theorem State.unitsAt_same (s : State) (k : Nat) (v : Option HelperRun) : ((Upd.units k v).apply s).unitsAt k = v :=
  SMap.get_put_same _ _ _ _

theorem State.unitsAt_put (s : State) (k j : Nat) (v : Option HelperRun) :
    ((Upd.units k v).apply s).unitsAt j = if j = k then v else s.unitsAt j :=
  SMap.get_put _ _ _ _ _

@[simp] theorem State.hqueuesAt_same (s : State) (k : Nat) (v : List HelperWait) : ((Upd.hqueues k v).apply s).hqueuesAt k = v :=
  SMap.get_put_same _ _ _ _

theorem State.hqueuesAt_put (s : State) (k j : Nat) (v : List HelperWait) :
    ((Upd.hqueues k v).apply s).hqueuesAt j = if j = k then v else s.hqueuesAt j :=
  SMap.get_put _ _ _ _ _

@[simp] theorem State.icacheAt_same (s : State) (k : Nat) (v : List Byte) : ((Upd.icache k v).apply s).icacheAt k = v :=
  SMap.get_put_same _ _ _ _

theorem State.icacheAt_put (s : State) (k j : Nat) (v : List Byte) :
    ((Upd.icache k v).apply s).icacheAt j = if j = k then v else s.icacheAt j :=
  SMap.get_put _ _ _ _ _

@[simp] theorem State.learnAt_same (s : State) (k : Nat) (v : Option Nat) : ((Upd.learn k v).apply s).learnAt k = v :=
  SMap.get_put_same _ _ _ _

theorem State.learnAt_put (s : State) (k j : Nat) (v : Option Nat) :
    ((Upd.learn k v).apply s).learnAt j = if j = k then v else s.learnAt j :=
  SMap.get_put _ _ _ _ _

@[simp] theorem State.enginesAt_same (s : State) (k : Nat) (v : Engine) : ((Upd.engines k v).apply s).enginesAt k = v :=
  SMap.get_put_same _ _ _ _

theorem State.enginesAt_put (s : State) (k j : Nat) (v : Engine) :
    ((Upd.engines k v).apply s).enginesAt j = if j = k then v else s.enginesAt j :=
  SMap.get_put _ _ _ _ _

@[simp] theorem State.dirRowsAt_same (s : State) (k : Nat) (v : DirRow) : ((Upd.dirRows k v).apply s).dirRowsAt k = v :=
  SMap.get_put_same _ _ _ _

theorem State.dirRowsAt_put (s : State) (k j : Nat) (v : DirRow) :
    ((Upd.dirRows k v).apply s).dirRowsAt j = if j = k then v else s.dirRowsAt j :=
  SMap.get_put _ _ _ _ _

@[simp] theorem State.dirShadowAt_same (s : State) (k : Nat) (v : DirRow) : ((Upd.dirShadow k v).apply s).dirShadowAt k = v :=
  SMap.get_put_same _ _ _ _

theorem State.dirShadowAt_put (s : State) (k j : Nat) (v : DirRow) :
    ((Upd.dirShadow k v).apply s).dirShadowAt j = if j = k then v else s.dirShadowAt j :=
  SMap.get_put _ _ _ _ _

@[simp] theorem State.ddrsAt_same (s : State) (k : Nat) (v : Ddr) : ((Upd.ddrs k v).apply s).ddrsAt k = v :=
  SMap.get_put_same _ _ _ _

theorem State.ddrsAt_put (s : State) (k j : Nat) (v : Ddr) :
    ((Upd.ddrs k v).apply s).ddrsAt j = if j = k then v else s.ddrsAt j :=
  SMap.get_put _ _ _ _ _

@[simp] theorem State.bufsAt_same (s : State) (k : Nat) (v : Buf) : ((Upd.bufs k v).apply s).bufsAt k = v :=
  SMap.get_put_same _ _ _ _

theorem State.bufsAt_put (s : State) (k j : Nat) (v : Buf) :
    ((Upd.bufs k v).apply s).bufsAt j = if j = k then v else s.bufsAt j :=
  SMap.get_put _ _ _ _ _

@[simp] theorem State.poolsAt_same (s : State) (k : Nat) (v : Pool) : ((Upd.pools k v).apply s).poolsAt k = v :=
  SMap.get_put_same _ _ _ _

theorem State.poolsAt_put (s : State) (k j : Nat) (v : Pool) :
    ((Upd.pools k v).apply s).poolsAt j = if j = k then v else s.poolsAt j :=
  SMap.get_put _ _ _ _ _

@[simp] theorem State.chansAt_same (s : State) (k : Nat) (v : Chan) : ((Upd.chans k v).apply s).chansAt k = v :=
  SMap.get_put_same _ _ _ _

theorem State.chansAt_put (s : State) (k j : Nat) (v : Chan) :
    ((Upd.chans k v).apply s).chansAt j = if j = k then v else s.chansAt j :=
  SMap.get_put _ _ _ _ _

@[simp] theorem State.locksAt_same (s : State) (k : Nat) (v : Lock) : ((Upd.locks k v).apply s).locksAt k = v :=
  SMap.get_put_same _ _ _ _

theorem State.locksAt_put (s : State) (k j : Nat) (v : Lock) :
    ((Upd.locks k v).apply s).locksAt j = if j = k then v else s.locksAt j :=
  SMap.get_put _ _ _ _ _

@[simp] theorem State.streamsAt_same (s : State) (k : Nat) (v : Option Stream) : ((Upd.streams k v).apply s).streamsAt k = v :=
  SMap.get_put_same _ _ _ _

theorem State.streamsAt_put (s : State) (k j : Nat) (v : Option Stream) :
    ((Upd.streams k v).apply s).streamsAt j = if j = k then v else s.streamsAt j :=
  SMap.get_put _ _ _ _ _

@[simp] theorem State.portsAt_same (s : State) (k : Nat) (v : Port) : ((Upd.ports k v).apply s).portsAt k = v :=
  SMap.get_put_same _ _ _ _

theorem State.portsAt_put (s : State) (k j : Nat) (v : Port) :
    ((Upd.ports k v).apply s).portsAt j = if j = k then v else s.portsAt j :=
  SMap.get_put _ _ _ _ _

@[simp] theorem State.pipesAt_same (s : State) (k : Nat) (v : Pipe) : ((Upd.pipes k v).apply s).pipesAt k = v :=
  SMap.get_put_same _ _ _ _

theorem State.pipesAt_put (s : State) (k j : Nat) (v : Pipe) :
    ((Upd.pipes k v).apply s).pipesAt j = if j = k then v else s.pipesAt j :=
  SMap.get_put _ _ _ _ _

@[simp] theorem State.admitQAt_same (s : State) (k : Nat) (v : List Admitted) : ((Upd.admitQ k v).apply s).admitQAt k = v :=
  SMap.get_put_same _ _ _ _

theorem State.admitQAt_put (s : State) (k j : Nat) (v : List Admitted) :
    ((Upd.admitQ k v).apply s).admitQAt j = if j = k then v else s.admitQAt j :=
  SMap.get_put _ _ _ _ _

@[simp] theorem State.termsAt_same (s : State) (k : Nat) (v : TermSlot) : ((Upd.terms k v).apply s).termsAt k = v :=
  SMap.get_put_same _ _ _ _

theorem State.termsAt_put (s : State) (k j : Nat) (v : TermSlot) :
    ((Upd.terms k v).apply s).termsAt j = if j = k then v else s.termsAt j :=
  SMap.get_put _ _ _ _ _

@[simp] theorem State.classesAt_same (s : State) (k : Nat) (v : Classroom) : ((Upd.classes k v).apply s).classesAt k = v :=
  SMap.get_put_same _ _ _ _

theorem State.classesAt_put (s : State) (k j : Nat) (v : Classroom) :
    ((Upd.classes k v).apply s).classesAt j = if j = k then v else s.classesAt j :=
  SMap.get_put _ _ _ _ _

@[simp] theorem State.hostqAt_same (s : State) (k : Nat) (v : HostQ) : ((Upd.hostq k v).apply s).hostqAt k = v :=
  SMap.get_put_same _ _ _ _

theorem State.hostqAt_put (s : State) (k j : Nat) (v : HostQ) :
    ((Upd.hostq k v).apply s).hostqAt j = if j = k then v else s.hostqAt j :=
  SMap.get_put _ _ _ _ _

@[simp] theorem State.ringLinksAt_same (s : State) (k : Nat) (v : RingLink) : ((Upd.ringLinks k v).apply s).ringLinksAt k = v :=
  SMap.get_put_same _ _ _ _

theorem State.ringLinksAt_put (s : State) (k j : Nat) (v : RingLink) :
    ((Upd.ringLinks k v).apply s).ringLinksAt j = if j = k then v else s.ringLinksAt j :=
  SMap.get_put _ _ _ _ _

end Sys2Proof.Machine
end

