-- ==== Sys2Proof/Machine/StateParts.lean ====
section
/-! DEFINITION. The parts of the state, by name, for statements about what a command leaves alone: `StatePart` names the
fields of `State` other than the queue, `StatePart.same` says that two states agree on one. -/

namespace Sys2Proof.Machine

/-- The fields of `State` other than the queue of waiting commands. -/
inductive StatePart
  | free
  | outbox
  | mem
  | bad
  | desk
  | pg
  | regs
  | act
  | pendc
  | goBy
  | msix
  | threads
  | acts
  | ready
  | delay
  | ctxs
  | banks
  | fuq
  | units
  | hqueues
  | icache
  | learn
  | engines
  | dirRows
  | dirShadow
  | dir
  | ddrs
  | bufs
  | pools
  | chans
  | locks
  | streams
  | ports
  | pipes
  | admitQ
  | terms
  | classes
  | hostq
  | ringLinks
  | sq
  | rc
  | cw
  | ring
  | gb
  | fc
  | tb
  | boot
  | tap
  | bg
  deriving DecidableEq, Repr

/-- Two states agree on a part. -/
def StatePart.same (p : StatePart) (s t : State) : Prop :=
  match p with
  | .free => t.free = s.free
  | .outbox => t.outbox = s.outbox
  | .mem => t.mem = s.mem
  | .bad => t.bad = s.bad
  | .desk => t.desk = s.desk
  | .pg => t.pg = s.pg
  | .regs => t.regs = s.regs
  | .act => t.act = s.act
  | .pendc => t.pendc = s.pendc
  | .goBy => t.goBy = s.goBy
  | .msix => t.msix = s.msix
  | .threads => t.threads = s.threads
  | .acts => t.acts = s.acts
  | .ready => t.ready = s.ready
  | .delay => t.delay = s.delay
  | .ctxs => t.ctxs = s.ctxs
  | .banks => t.banks = s.banks
  | .fuq => t.fuq = s.fuq
  | .units => t.units = s.units
  | .hqueues => t.hqueues = s.hqueues
  | .icache => t.icache = s.icache
  | .learn => t.learn = s.learn
  | .engines => t.engines = s.engines
  | .dirRows => t.dirRows = s.dirRows
  | .dirShadow => t.dirShadow = s.dirShadow
  | .dir => t.dir = s.dir
  | .ddrs => t.ddrs = s.ddrs
  | .bufs => t.bufs = s.bufs
  | .pools => t.pools = s.pools
  | .chans => t.chans = s.chans
  | .locks => t.locks = s.locks
  | .streams => t.streams = s.streams
  | .ports => t.ports = s.ports
  | .pipes => t.pipes = s.pipes
  | .admitQ => t.admitQ = s.admitQ
  | .terms => t.terms = s.terms
  | .classes => t.classes = s.classes
  | .hostq => t.hostq = s.hostq
  | .ringLinks => t.ringLinks = s.ringLinks
  | .sq => t.sq = s.sq
  | .rc => t.rc = s.rc
  | .cw => t.cw = s.cw
  | .ring => t.ring = s.ring
  | .gb => t.gb = s.gb
  | .fc => t.fc = s.fc
  | .tb => t.tb = s.tb
  | .boot => t.boot = s.boot
  | .tap => t.tap = s.tap
  | .bg => t.bg = s.bg

end Sys2Proof.Machine
end

