-- ==== Sys2Proof/Laws/Within.lean ====
section
/-! SUPPORT. `Within ps p`: the state a program reads is the one its changes have made, and every change it makes is one of
the parts `ps` of the state.  Both pass from the parts of a program to the whole, so each shared operation and each
meaning has one such lemma (Laws/Within*.lean), generated from the calls it makes. -/

set_option linter.all false
set_option Elab.async false

namespace Sys2Proof.Machine

variable {α β : Type} {ps qs : List StatePart}

/-- A change touches only the parts listed; a reset touches every part but the model's own. -/
def Upd.within (ps : List StatePart) : Upd → Bool
  | .free _ => ps.contains .free
  | .outbox _ => ps.contains .outbox
  | .mem _ _ => ps.contains .mem
  | .bad _ _ => ps.contains .bad
  | .desk _ _ => ps.contains .desk
  | .pg _ _ => ps.contains .pg
  | .regs _ _ => ps.contains .regs
  | .act _ _ => ps.contains .act
  | .pendc _ _ => ps.contains .pendc
  | .goBy _ _ => ps.contains .goBy
  | .msix _ _ => ps.contains .msix
  | .threads _ _ => ps.contains .threads
  | .acts _ _ => ps.contains .acts
  | .ready _ _ => ps.contains .ready
  | .delay _ _ => ps.contains .delay
  | .ctxs _ _ => ps.contains .ctxs
  | .banks _ _ => ps.contains .banks
  | .fuq _ _ => ps.contains .fuq
  | .units _ _ => ps.contains .units
  | .hqueues _ _ => ps.contains .hqueues
  | .icache _ _ => ps.contains .icache
  | .learn _ _ => ps.contains .learn
  | .engines _ _ => ps.contains .engines
  | .dirRows _ _ => ps.contains .dirRows
  | .dirShadow _ _ => ps.contains .dirShadow
  | .dir _ => ps.contains .dir
  | .ddrs _ _ => ps.contains .ddrs
  | .bufs _ _ => ps.contains .bufs
  | .pools _ _ => ps.contains .pools
  | .chans _ _ => ps.contains .chans
  | .locks _ _ => ps.contains .locks
  | .streams _ _ => ps.contains .streams
  | .ports _ _ => ps.contains .ports
  | .pipes _ _ => ps.contains .pipes
  | .admitQ _ _ => ps.contains .admitQ
  | .terms _ _ => ps.contains .terms
  | .classes _ _ => ps.contains .classes
  | .hostq _ _ => ps.contains .hostq
  | .ringLinks _ _ => ps.contains .ringLinks
  | .sq _ => ps.contains .sq
  | .rc _ => ps.contains .rc
  | .cw _ => ps.contains .cw
  | .ring _ => ps.contains .ring
  | .gb _ => ps.contains .gb
  | .fc _ => ps.contains .fc
  | .tb _ => ps.contains .tb
  | .boot _ => ps.contains .boot
  | .tap _ => ps.contains .tap
  | .bg _ => ps.contains .bg
  | .toReset => [.mem, .bad, .desk, .pg, .regs, .act, .pendc, .goBy, .msix, .threads, .acts, .ready, .delay, .ctxs, .banks, .fuq, .units, .hqueues, .icache, .learn, .engines, .dirRows, .dirShadow, .dir, .ddrs, .bufs, .pools, .chans, .locks, .streams, .ports, .pipes, .admitQ, .terms, .classes, .hostq, .ringLinks, .sq, .rc, .cw, .ring, .gb, .fc, .tb, .boot, .tap, .bg].all ps.contains
  | .memZero _ _ => ps.contains .mem
  | .deskZero _ _ => ps.contains .desk

/-- A change leaves every part alone that is not listed. -/
theorem Upd.within_same {ps : List StatePart} {u : Upd} (h : u.within ps = true) {p : StatePart} (hp : p ∉ ps) (s : State) :
    p.same s (u.apply s) := by
  cases u <;> cases p <;> first | rfl | (exfalso; simp_all [Upd.within])

theorem Upd.within_mono {ps qs : List StatePart} {u : Upd} (h : ps.all qs.contains = true) (hu : u.within ps = true) :
    u.within qs = true := by
  have k : ∀ p, p ∈ ps → p ∈ qs := by simpa using h
  cases u <;> simp only [Upd.within, List.contains_iff_mem] at hu ⊢
  case toReset => simp only [List.all_eq_true, List.contains_iff_mem] at hu ⊢; exact fun p hp => k p (hu p hp)
  all_goals exact k _ hu

/-- What the program ends in is reached by changes of the parts listed. -/
def Within (ps : List StatePart) (p : M α) : Prop :=
  ∀ s, ∃ us, (p s).2 = applyAll us s ∧ ∀ u ∈ us, u.within ps = true

theorem Within.pure (a : α) : Within ps (Pure.pure a : M α) := fun _ => ⟨[], rfl, by simp⟩

theorem Within.rd (f : State → α) : Within ps (Machine.rd f) := fun _ => ⟨[], rfl, by simp⟩

theorem Within.emit {u : Upd} (h : u.within ps = true) : Within ps (Machine.emit u) :=
  fun _ => ⟨[u], rfl, by simpa using h⟩

theorem Within.bind {p : M α} {f : α → M β} (hp : Within ps p) (hf : ∀ a, Within ps (f a)) : Within ps (p >>= f) := by
  intro s
  obtain ⟨us, h1, h2⟩ := hp s
  obtain ⟨vs, h3, h4⟩ := hf (p s).1 (p s).2
  refine ⟨vs ++ us, ?_, fun u hu => (List.mem_append.1 hu).elim (h4 u) (h2 u)⟩
  rw [run_bind, h3, h1, applyAll_append]

theorem Within.of {p : M α} (h : Within ps p) (hs : ps.all qs.contains = true) : Within qs p := by
  intro s
  obtain ⟨us, h1, h2⟩ := h s
  exact ⟨us, h1, fun u hu => Upd.within_mono hs (h2 u hu)⟩

/-- A set of parts within a set within a third. -/
theorem parts_trans {ps qs rs : List StatePart} (h : ps.all qs.contains = true) (k : qs.all rs.contains = true) :
    ps.all rs.contains = true := by
  simp only [List.all_eq_true, List.contains_iff_mem] at h k ⊢
  exact fun p hp => k p (h p hp)

theorem parts_mem {qs rs : List StatePart} {u : Upd} (k : qs.all rs.contains = true) (h : u.within qs = true) :
    u.within rs = true := Upd.within_mono k h

theorem Within.onlyIf {c : Bool} {p : M Unit} (hp : Within ps p) : Within ps (Machine.onlyIf c p) := by
  cases c
  · exact Within.pure ()
  · exact hp

theorem Within.each {l : List α} {f : α → M Unit} (hf : ∀ a, Within ps (f a)) : Within ps (Machine.each l f) := by
  induction l with
  | nil => exact Within.pure ()
  | cons x xs ih => exact Within.bind (hf x) fun _ => ih

theorem Within.mapEach {l : List α} {f : α → M β} (hf : ∀ a, Within ps (f a)) : Within ps (Machine.mapEach l f) := by
  induction l with
  | nil => exact Within.pure []
  | cons x xs ih => exact Within.bind (hf x) fun _ => Within.bind ih fun _ => Within.pure _

/-- Changes of the parts listed leave the others alone. -/
theorem applyAll_same {us : List Upd} (h : ∀ u ∈ us, u.within ps = true) {q : StatePart} (hq : ps.contains q = false)
    (s : State) : q.same s (applyAll us s) := by
  have hq : q ∉ ps := by simpa using hq
  induction us with
  | nil => cases q <;> rfl
  | cons u us ih =>
    have k1 := ih fun v hv => h v (List.mem_cons_of_mem _ hv)
    have k2 := Upd.within_same (h u (List.mem_cons_self ..)) hq (applyAll us s)
    cases q <;> exact k2.trans k1

/-- The program leaves every part alone that is not listed. -/
theorem Within.same {p : M α} (h : Within ps p) {q : StatePart} (hq : ps.contains q = false) (s : State) :
    q.same s (p s).2 := by
  obtain ⟨us, h1, h2⟩ := h s
  rw [h1]
  exact applyAll_same h2 hq s

/-- An outcome that is a next state, reached by changes of the parts listed. -/
def Effect (ps : List StatePart) (o : Host.Outcome State Fault Refusal) (s : State) : Prop :=
  ∃ us, o = .next (applyAll us s) ∧ ∀ u ∈ us, u.within ps = true

theorem Within.effect {p : M Unit} (h : Within ps p) (s : State) : Effect ps (Machine.commit p s) s := by
  obtain ⟨us, h1, h2⟩ := h s
  exact ⟨us, by rw [commit_eq, h1], h2⟩

theorem Effect.of {o : Host.Outcome State Fault Refusal} {s : State} (h : Effect ps o s)
    (hs : ps.all qs.contains = true) : Effect qs o s := by
  obtain ⟨us, h1, h2⟩ := h
  exact ⟨us, h1, fun u hu => Upd.within_mono hs (h2 u hu)⟩

/-- Such an outcome agrees with the state before on every part that is not listed. -/
theorem Effect.same {o : Host.Outcome State Fault Refusal} {s t : State} (h : Effect ps o s) (ho : o = .next t)
    {q : StatePart} (hq : ps.contains q = false) : q.same s t := by
  obtain ⟨us, h1, h2⟩ := h
  obtain rfl : applyAll us s = t := by rw [h1] at ho; injection ho
  exact applyAll_same h2 hq s

theorem modFree_within (f) : Within [.free] (modFree f) := Within.bind (Within.rd _) fun _ => Within.emit rfl

theorem modOutbox_within (f) : Within [.outbox] (modOutbox f) := Within.bind (Within.rd _) fun _ => Within.emit rfl

theorem modMem_within (k : Nat) (f) : Within [.mem] (modMem k f) := Within.bind (Within.rd _) fun _ => Within.emit rfl

theorem modBad_within (k : Nat) (f) : Within [.bad] (modBad k f) := Within.bind (Within.rd _) fun _ => Within.emit rfl


theorem modDesk_within (k : Nat) (f) : Within [.desk] (modDesk k f) := Within.bind (Within.rd _) fun _ => Within.emit rfl

theorem modPg_within (k : Nat) (f) : Within [.pg] (modPg k f) := Within.bind (Within.rd _) fun _ => Within.emit rfl

theorem modRegs_within (k : Nat) (f) : Within [.regs] (modRegs k f) := Within.bind (Within.rd _) fun _ => Within.emit rfl

theorem modAct_within (k : Nat) (f) : Within [.act] (modAct k f) := Within.bind (Within.rd _) fun _ => Within.emit rfl

theorem modPendc_within (k : Nat) (f) : Within [.pendc] (modPendc k f) := Within.bind (Within.rd _) fun _ => Within.emit rfl

theorem modGoBy_within (k : Nat) (f) : Within [.goBy] (modGoBy k f) := Within.bind (Within.rd _) fun _ => Within.emit rfl

theorem modMsix_within (k : Nat) (f) : Within [.msix] (modMsix k f) := Within.bind (Within.rd _) fun _ => Within.emit rfl

theorem modThreads_within (k : Nat) (f) : Within [.threads] (modThreads k f) := Within.bind (Within.rd _) fun _ => Within.emit rfl

theorem modActs_within (k : Nat) (f) : Within [.acts] (modActs k f) := Within.bind (Within.rd _) fun _ => Within.emit rfl

theorem modReady_within (k : Nat) (f) : Within [.ready] (modReady k f) := Within.bind (Within.rd _) fun _ => Within.emit rfl

theorem modDelay_within (k : Nat) (f) : Within [.delay] (modDelay k f) := Within.bind (Within.rd _) fun _ => Within.emit rfl

theorem modCtxs_within (k : Nat) (f) : Within [.ctxs] (modCtxs k f) := Within.bind (Within.rd _) fun _ => Within.emit rfl

theorem modBanks_within (k : Nat) (f) : Within [.banks] (modBanks k f) := Within.bind (Within.rd _) fun _ => Within.emit rfl

theorem modFuq_within (k : Nat) (f) : Within [.fuq] (modFuq k f) := Within.bind (Within.rd _) fun _ => Within.emit rfl

theorem modUnits_within (k : Nat) (f) : Within [.units] (modUnits k f) := Within.bind (Within.rd _) fun _ => Within.emit rfl

theorem modHqueues_within (k : Nat) (f) : Within [.hqueues] (modHqueues k f) := Within.bind (Within.rd _) fun _ => Within.emit rfl

theorem modIcache_within (k : Nat) (f) : Within [.icache] (modIcache k f) := Within.bind (Within.rd _) fun _ => Within.emit rfl

theorem modLearn_within (k : Nat) (f) : Within [.learn] (modLearn k f) := Within.bind (Within.rd _) fun _ => Within.emit rfl

theorem modEngines_within (k : Nat) (f) : Within [.engines] (modEngines k f) := Within.bind (Within.rd _) fun _ => Within.emit rfl

theorem modDirRows_within (k : Nat) (f) : Within [.dirRows] (modDirRows k f) := Within.bind (Within.rd _) fun _ => Within.emit rfl

theorem modDirShadow_within (k : Nat) (f) : Within [.dirShadow] (modDirShadow k f) := Within.bind (Within.rd _) fun _ => Within.emit rfl

theorem modDir_within (f) : Within [.dir] (modDir f) := Within.bind (Within.rd _) fun _ => Within.emit rfl

theorem modDdrs_within (k : Nat) (f) : Within [.ddrs] (modDdrs k f) := Within.bind (Within.rd _) fun _ => Within.emit rfl

theorem modBufs_within (k : Nat) (f) : Within [.bufs] (modBufs k f) := Within.bind (Within.rd _) fun _ => Within.emit rfl

theorem modPools_within (k : Nat) (f) : Within [.pools] (modPools k f) := Within.bind (Within.rd _) fun _ => Within.emit rfl

theorem modChans_within (k : Nat) (f) : Within [.chans] (modChans k f) := Within.bind (Within.rd _) fun _ => Within.emit rfl

theorem modLocks_within (k : Nat) (f) : Within [.locks] (modLocks k f) := Within.bind (Within.rd _) fun _ => Within.emit rfl

theorem modStreams_within (k : Nat) (f) : Within [.streams] (modStreams k f) := Within.bind (Within.rd _) fun _ => Within.emit rfl

theorem modPorts_within (k : Nat) (f) : Within [.ports] (modPorts k f) := Within.bind (Within.rd _) fun _ => Within.emit rfl

theorem modPipes_within (k : Nat) (f) : Within [.pipes] (modPipes k f) := Within.bind (Within.rd _) fun _ => Within.emit rfl

theorem modAdmitQ_within (k : Nat) (f) : Within [.admitQ] (modAdmitQ k f) := Within.bind (Within.rd _) fun _ => Within.emit rfl

theorem modTerms_within (k : Nat) (f) : Within [.terms] (modTerms k f) := Within.bind (Within.rd _) fun _ => Within.emit rfl

theorem modClasses_within (k : Nat) (f) : Within [.classes] (modClasses k f) := Within.bind (Within.rd _) fun _ => Within.emit rfl

theorem modHostq_within (k : Nat) (f) : Within [.hostq] (modHostq k f) := Within.bind (Within.rd _) fun _ => Within.emit rfl

theorem modRingLinks_within (k : Nat) (f) : Within [.ringLinks] (modRingLinks k f) := Within.bind (Within.rd _) fun _ => Within.emit rfl

theorem modSq_within (f) : Within [.sq] (modSq f) := Within.bind (Within.rd _) fun _ => Within.emit rfl

theorem modRc_within (f) : Within [.rc] (modRc f) := Within.bind (Within.rd _) fun _ => Within.emit rfl

theorem modCw_within (f) : Within [.cw] (modCw f) := Within.bind (Within.rd _) fun _ => Within.emit rfl

theorem modRing_within (f) : Within [.ring] (modRing f) := Within.bind (Within.rd _) fun _ => Within.emit rfl

theorem modGb_within (f) : Within [.gb] (modGb f) := Within.bind (Within.rd _) fun _ => Within.emit rfl

theorem modFc_within (f) : Within [.fc] (modFc f) := Within.bind (Within.rd _) fun _ => Within.emit rfl

theorem modTb_within (f) : Within [.tb] (modTb f) := Within.bind (Within.rd _) fun _ => Within.emit rfl

theorem modBoot_within (f) : Within [.boot] (modBoot f) := Within.bind (Within.rd _) fun _ => Within.emit rfl

theorem modTap_within (f) : Within [.tap] (modTap f) := Within.bind (Within.rd _) fun _ => Within.emit rfl

theorem modBg_within (f) : Within [.bg] (modBg f) := Within.bind (Within.rd _) fun _ => Within.emit rfl

end Sys2Proof.Machine
end

