-- ==== Sys2Proof/Laws/WithinOps.lean ====
section
/-! SUPPORT. Which parts of the state the programs of Machine/Ops.lean change. -/

set_option linter.all false
set_option Elab.async false

namespace Sys2Proof.Machine

theorem setFld_within {off : Nat} {f : Fld} {n : Nat} : Within [.regs] (setFld off f n) := by
  unfold setFld
  repeat' first
    | with_reducible exact Within.pure _
    | with_reducible exact Within.rd _
    | with_reducible exact (modRegs_within _ _).of (by decide)
    | with_reducible refine Within.bind ?_ fun _ => ?_
    | with_reducible refine Within.onlyIf ?_
    | with_reducible refine Within.each fun _ => ?_
    | with_reducible refine Within.mapEach fun _ => ?_
    | split
    | dsimp only

theorem setBoth_within {off : Nat} {f : Fld} {n : Nat} : Within [.regs, .act] (setBoth off f n) := by
  unfold setBoth
  repeat' first
    | with_reducible exact Within.pure _
    | with_reducible exact Within.rd _
    | with_reducible exact (modAct_within _ _).of (by decide)
    | with_reducible exact (modRegs_within _ _).of (by decide)
    | with_reducible refine Within.bind ?_ fun _ => ?_
    | with_reducible refine Within.onlyIf ?_
    | with_reducible refine Within.each fun _ => ?_
    | with_reducible refine Within.mapEach fun _ => ?_
    | split
    | dsimp only

theorem countBy_within {off : Nat} {n : Nat} : Within [.regs] (countBy off n) := by
  unfold countBy
  repeat' first
    | with_reducible exact Within.pure _
    | with_reducible exact Within.rd _
    | with_reducible exact (modRegs_within _ _).of (by decide)
    | with_reducible refine Within.bind ?_ fun _ => ?_
    | with_reducible refine Within.onlyIf ?_
    | with_reducible refine Within.each fun _ => ?_
    | with_reducible refine Within.mapEach fun _ => ?_
    | split
    | dsimp only

theorem count_within {off : Nat} : Within [.regs] (count off) := by
  unfold count
  repeat' first
    | with_reducible exact Within.pure _
    | with_reducible exact Within.rd _
    | with_reducible exact countBy_within.of (by decide)
    | with_reducible refine Within.bind ?_ fun _ => ?_
    | with_reducible refine Within.onlyIf ?_
    | with_reducible refine Within.each fun _ => ?_
    | with_reducible refine Within.mapEach fun _ => ?_
    | split
    | dsimp only

theorem draw_within : Within [.free] (draw) := by
  unfold draw
  repeat' first
    | with_reducible exact Within.pure _
    | with_reducible exact Within.rd _
    | (with_reducible refine Within.emit ?_); rfl
    | with_reducible refine Within.bind ?_ fun _ => ?_
    | with_reducible refine Within.onlyIf ?_
    | with_reducible refine Within.each fun _ => ?_
    | with_reducible refine Within.mapEach fun _ => ?_
    | split
    | dsimp only

theorem send_within {o : Out} : Within [.outbox] (send o) := by
  unfold send
  repeat' first
    | with_reducible exact Within.pure _
    | with_reducible exact Within.rd _
    | with_reducible exact (modOutbox_within _).of (by decide)
    | with_reducible refine Within.bind ?_ fun _ => ?_
    | with_reducible refine Within.onlyIf ?_
    | with_reducible refine Within.each fun _ => ?_
    | with_reducible refine Within.mapEach fun _ => ?_
    | split
    | dsimp only

theorem msixSignal_within {e : Nat} : Within [.outbox, .regs] (msixSignal e) := by
  unfold msixSignal
  repeat' first
    | with_reducible exact Within.pure _
    | with_reducible exact Within.rd _
    | with_reducible exact (modRegs_within _ _).of (by decide)
    | with_reducible exact send_within.of (by decide)
    | with_reducible refine Within.bind ?_ fun _ => ?_
    | with_reducible refine Within.onlyIf ?_
    | with_reducible refine Within.each fun _ => ?_
    | with_reducible refine Within.mapEach fun _ => ?_
    | split
    | dsimp only

theorem event_within {e : Nat} : Within [.outbox, .regs] (event e) := by
  unfold event
  repeat' first
    | with_reducible exact Within.pure _
    | with_reducible exact Within.rd _
    | with_reducible exact msixSignal_within.of (by decide)
    | with_reducible refine Within.bind ?_ fun _ => ?_
    | with_reducible refine Within.onlyIf ?_
    | with_reducible refine Within.each fun _ => ?_
    | with_reducible refine Within.mapEach fun _ => ?_
    | split
    | dsimp only

theorem sticky_within {off : Nat} {f : Fld} {e : Nat} : Within [.outbox, .regs] (sticky off f e) := by
  unfold sticky
  repeat' first
    | with_reducible exact Within.pure _
    | with_reducible exact Within.rd _
    | with_reducible exact event_within.of (by decide)
    | with_reducible exact setFld_within.of (by decide)
    | with_reducible refine Within.bind ?_ fun _ => ?_
    | with_reducible refine Within.onlyIf ?_
    | with_reducible refine Within.each fun _ => ?_
    | with_reducible refine Within.mapEach fun _ => ?_
    | split
    | dsimp only

theorem queueFull_within : Within [.outbox, .regs] (queueFull) := by
  unfold queueFull
  repeat' first
    | with_reducible exact Within.pure _
    | with_reducible exact Within.rd _
    | with_reducible exact sticky_within.of (by decide)
    | with_reducible refine Within.bind ?_ fun _ => ?_
    | with_reducible refine Within.onlyIf ?_
    | with_reducible refine Within.each fun _ => ?_
    | with_reducible refine Within.mapEach fun _ => ?_
    | split
    | dsimp only

theorem report_within {source : Nat} {cls : Nat} {cause : Nat} {unit : Option UnitId} {info : Nat} : Within [.outbox, .regs, .fc] (report source cls cause unit info) := by
  unfold report
  repeat' first
    | with_reducible exact Within.pure _
    | with_reducible exact Within.rd _
    | with_reducible exact (modFc_within _).of (by decide)
    | with_reducible exact queueFull_within.of (by decide)
    | with_reducible refine Within.bind ?_ fun _ => ?_
    | with_reducible refine Within.onlyIf ?_
    | with_reducible refine Within.each fun _ => ?_
    | with_reducible refine Within.mapEach fun _ => ?_
    | split
    | dsimp only

theorem writeMem_within  {x0 : Nat} {x1 : List Byte} : Within [.mem] (writeMem x0 x1) := by
  fun_induction writeMem x0 x1
  all_goals
  repeat' first
    | with_reducible exact Within.pure _
    | with_reducible exact Within.rd _
    | assumption
    | (with_reducible refine Within.emit ?_); rfl
    | with_reducible refine Within.bind ?_ fun _ => ?_
    | with_reducible refine Within.onlyIf ?_
    | with_reducible refine Within.each fun _ => ?_
    | with_reducible refine Within.mapEach fun _ => ?_
    | split
    | dsimp only

theorem markPages_within {c : Nat} {x0 : Nat} {x1 : Nat} : Within [.outbox, .regs] (markPages c x0 x1) := by
  fun_induction markPages c x0 x1
  all_goals
  repeat' first
    | with_reducible exact Within.pure _
    | with_reducible exact Within.rd _
    | assumption
    | with_reducible exact count_within.of (by decide)
    | with_reducible exact send_within.of (by decide)
    | with_reducible exact sticky_within.of (by decide)
    | with_reducible refine Within.bind ?_ fun _ => ?_
    | with_reducible refine Within.onlyIf ?_
    | with_reducible refine Within.each fun _ => ?_
    | with_reducible refine Within.mapEach fun _ => ?_
    | split
    | dsimp only

theorem hostWrite_within {c : Option Nat} {addr : Nat} {bs : List Byte} : Within [.outbox, .regs] (hostWrite c addr bs) := by
  unfold hostWrite
  repeat' first
    | with_reducible exact Within.pure _
    | with_reducible exact Within.rd _
    | with_reducible exact markPages_within.of (by decide)
    | with_reducible exact send_within.of (by decide)
    | with_reducible refine Within.bind ?_ fun _ => ?_
    | with_reducible refine Within.onlyIf ?_
    | with_reducible refine Within.each fun _ => ?_
    | with_reducible refine Within.mapEach fun _ => ?_
    | split
    | dsimp only

theorem setFenceBit_within {u : UnitId} {b : Bool} : Within [.regs] (setFenceBit u b) := by
  unfold setFenceBit
  repeat' first
    | with_reducible exact Within.pure _
    | with_reducible exact Within.rd _
    | with_reducible exact (modRegs_within _ _).of (by decide)
    | with_reducible refine Within.bind ?_ fun _ => ?_
    | with_reducible refine Within.onlyIf ?_
    | with_reducible refine Within.each fun _ => ?_
    | with_reducible refine Within.mapEach fun _ => ?_
    | split
    | dsimp only

end Sys2Proof.Machine
end

