-- ==== Sys2Proof/Laws/WithinDram.lean ====
section
/-! SUPPORT. Which parts of the state the programs of Machine/Dram.lean change. -/

set_option linter.all false
set_option Elab.async false

namespace Sys2Proof.Machine

theorem ddrIssue_within {n : Nat} {q : DdrReq} : Within [.regs, .ddrs] (ddrIssue n q) := by
  unfold ddrIssue
  repeat' first
    | with_reducible exact Within.pure _
    | with_reducible exact Within.rd _
    | with_reducible exact (modDdrs_within _ _).of (by decide)
    | with_reducible exact count_within.of (by decide)
    | with_reducible exact countBy_within.of (by decide)
    | with_reducible refine Within.bind ?_ fun _ => ?_
    | with_reducible refine Within.onlyIf ?_
    | with_reducible refine Within.each fun _ => ?_
    | with_reducible refine Within.mapEach fun _ => ?_
    | split
    | dsimp only

theorem ddrRequest_within {req : DdrReq} : Within [.ddrs] (ddrRequest req) := by
  unfold ddrRequest
  repeat' first
    | with_reducible exact Within.pure _
    | with_reducible exact Within.rd _
    | with_reducible exact (modDdrs_within _ _).of (by decide)
    | with_reducible refine Within.bind ?_ fun _ => ?_
    | with_reducible refine Within.onlyIf ?_
    | with_reducible refine Within.each fun _ => ?_
    | with_reducible refine Within.mapEach fun _ => ?_
    | split
    | dsimp only

theorem touch_within {who : Nat} {a : Nat} {len : Nat} {urgent : Bool} : Within [.ddrs] (touch who a len urgent) := by
  unfold touch
  repeat' first
    | with_reducible exact Within.pure _
    | with_reducible exact Within.rd _
    | with_reducible exact ddrRequest_within.of (by decide)
    | with_reducible refine Within.bind ?_ fun _ => ?_
    | with_reducible refine Within.onlyIf ?_
    | with_reducible refine Within.each fun _ => ?_
    | with_reducible refine Within.mapEach fun _ => ?_
    | split
    | dsimp only

theorem touchRow_within {who : Nat} {a : Nat} {len : Nat} {urgent : Bool} : Within [.ddrs] (touchRow who a len urgent) := by
  unfold touchRow
  repeat' first
    | with_reducible exact Within.pure _
    | with_reducible exact Within.rd _
    | with_reducible exact ddrRequest_within.of (by decide)
    | with_reducible refine Within.bind ?_ fun _ => ?_
    | with_reducible refine Within.onlyIf ?_
    | with_reducible refine Within.each fun _ => ?_
    | with_reducible refine Within.mapEach fun _ => ?_
    | split
    | dsimp only

theorem markLine_within {a : Nat} {bad : Bool} : Within [.bad] (markLine a bad) := by
  unfold markLine
  repeat' first
    | with_reducible exact Within.pure _
    | with_reducible exact Within.rd _
    | (with_reducible refine Within.emit ?_); rfl
    | with_reducible refine Within.bind ?_ fun _ => ?_
    | with_reducible refine Within.onlyIf ?_
    | with_reducible refine Within.each fun _ => ?_
    | with_reducible refine Within.mapEach fun _ => ?_
    | split
    | dsimp only

theorem reportBad_within {a : Nat} : Within [.free, .outbox, .regs, .fc] (reportBad a) := by
  unfold reportBad
  repeat' first
    | with_reducible exact Within.pure _
    | with_reducible exact Within.rd _
    | (with_reducible refine Within.emit ?_); rfl
    | with_reducible exact count_within.of (by decide)
    | with_reducible exact draw_within.of (by decide)
    | with_reducible exact report_within.of (by decide)
    | with_reducible exact sticky_within.of (by decide)
    | with_reducible refine Within.bind ?_ fun _ => ?_
    | with_reducible refine Within.onlyIf ?_
    | with_reducible refine Within.each fun _ => ?_
    | with_reducible refine Within.mapEach fun _ => ?_
    | split
    | dsimp only

theorem reportBads_within {a : Nat} {len : Nat} : Within [.free, .outbox, .regs, .fc] (reportBads a len) := by
  unfold reportBads
  repeat' first
    | with_reducible exact Within.pure _
    | with_reducible exact Within.rd _
    | with_reducible exact reportBad_within.of (by decide)
    | with_reducible refine Within.bind ?_ fun _ => ?_
    | with_reducible refine Within.onlyIf ?_
    | with_reducible refine Within.each fun _ => ?_
    | with_reducible refine Within.mapEach fun _ => ?_
    | split
    | dsimp only

theorem setLine_within {a : Nat} {bs : List Byte} : Within [.mem, .bad] (setLine a bs) := by
  unfold setLine
  repeat' first
    | with_reducible exact Within.pure _
    | with_reducible exact Within.rd _
    | (with_reducible refine Within.emit ?_); rfl
    | with_reducible exact writeMem_within.of (by decide)
    | with_reducible refine Within.bind ?_ fun _ => ?_
    | with_reducible refine Within.onlyIf ?_
    | with_reducible refine Within.each fun _ => ?_
    | with_reducible refine Within.mapEach fun _ => ?_
    | split
    | dsimp only

theorem putLine_within {who : Nat} {a : Nat} {bs : List Byte} : Within [.mem, .bad, .ddrs] (putLine who a bs) := by
  unfold putLine
  repeat' first
    | with_reducible exact Within.pure _
    | with_reducible exact Within.rd _
    | with_reducible exact ddrRequest_within.of (by decide)
    | with_reducible exact setLine_within.of (by decide)
    | with_reducible refine Within.bind ?_ fun _ => ?_
    | with_reducible refine Within.onlyIf ?_
    | with_reducible refine Within.each fun _ => ?_
    | with_reducible refine Within.mapEach fun _ => ?_
    | split
    | dsimp only

theorem addEarly_within {n : Nat} {e : EarlyWrite} : Within [.ddrs] (addEarly n e) := by
  unfold addEarly
  repeat' first
    | with_reducible exact Within.pure _
    | with_reducible exact Within.rd _
    | with_reducible exact (modDdrs_within _ _).of (by decide)
    | with_reducible refine Within.bind ?_ fun _ => ?_
    | with_reducible refine Within.onlyIf ?_
    | with_reducible refine Within.each fun _ => ?_
    | with_reducible refine Within.mapEach fun _ => ?_
    | split
    | dsimp only

theorem storeLine_within {w : Writer} {who : Nat} {a : Nat} {bs : List Byte} : Within [.mem, .bad, .ddrs] (storeLine w who a bs) := by
  unfold storeLine
  repeat' first
    | with_reducible exact Within.pure _
    | with_reducible exact Within.rd _
    | with_reducible exact addEarly_within.of (by decide)
    | with_reducible exact putLine_within.of (by decide)
    | with_reducible refine Within.bind ?_ fun _ => ?_
    | with_reducible refine Within.onlyIf ?_
    | with_reducible refine Within.each fun _ => ?_
    | with_reducible refine Within.mapEach fun _ => ?_
    | split
    | dsimp only

theorem store_within {who : Nat} {a : Nat} {bs : List Byte} : Within [.mem, .bad, .ddrs] (store who a bs) := by
  unfold store
  repeat' first
    | with_reducible exact Within.pure _
    | with_reducible exact Within.rd _
    | with_reducible exact storeLine_within.of (by decide)
    | with_reducible refine Within.bind ?_ fun _ => ?_
    | with_reducible refine Within.onlyIf ?_
    | with_reducible refine Within.each fun _ => ?_
    | with_reducible refine Within.mapEach fun _ => ?_
    | split
    | dsimp only

theorem engineStore_within {n : Nat} {a : Nat} {bs : List Byte} : Within [.mem, .bad, .ddrs] (engineStore n a bs) := by
  unfold engineStore
  repeat' first
    | with_reducible exact Within.pure _
    | with_reducible exact Within.rd _
    | with_reducible exact storeLine_within.of (by decide)
    | with_reducible refine Within.bind ?_ fun _ => ?_
    | with_reducible refine Within.onlyIf ?_
    | with_reducible refine Within.each fun _ => ?_
    | with_reducible refine Within.mapEach fun _ => ?_
    | split
    | dsimp only

theorem refreshRank_within {n : Nat} {r : Nat} : Within [.regs, .ddrs] (refreshRank n r) := by
  unfold refreshRank
  repeat' first
    | with_reducible exact Within.pure _
    | with_reducible exact Within.rd _
    | with_reducible exact (modDdrs_within _ _).of (by decide)
    | with_reducible exact count_within.of (by decide)
    | with_reducible refine Within.bind ?_ fun _ => ?_
    | with_reducible refine Within.onlyIf ?_
    | with_reducible refine Within.each fun _ => ?_
    | with_reducible refine Within.mapEach fun _ => ?_
    | split
    | dsimp only

theorem refreshForced_within {n : Nat} {r : Nat} : Within [.regs, .ddrs] (refreshForced n r) := by
  unfold refreshForced
  repeat' first
    | with_reducible exact Within.pure _
    | with_reducible exact Within.rd _
    | with_reducible exact count_within.of (by decide)
    | with_reducible exact refreshRank_within.of (by decide)
    | with_reducible refine Within.bind ?_ fun _ => ?_
    | with_reducible refine Within.onlyIf ?_
    | with_reducible refine Within.each fun _ => ?_
    | with_reducible refine Within.mapEach fun _ => ?_
    | split
    | dsimp only

theorem execRefresh_within {n : Nat} {r : Nat} {s : State} : Effect [.regs, .ddrs] (execRefresh n r s) s := by
  unfold execRefresh
  refine Within.effect ?_ _
  repeat' first
    | with_reducible exact Within.pure _
    | with_reducible exact Within.rd _
    | with_reducible exact refreshForced_within.of (by decide)
    | with_reducible exact refreshRank_within.of (by decide)
    | with_reducible refine Within.bind ?_ fun _ => ?_
    | with_reducible refine Within.onlyIf ?_
    | with_reducible refine Within.each fun _ => ?_
    | with_reducible refine Within.mapEach fun _ => ?_
    | split
    | dsimp only

theorem execZqcs_within {n : Nat} {r : Nat} {s : State} : Effect [.ddrs] (execZqcs n r s) s := by
  unfold execZqcs
  refine Within.effect ?_ _
  repeat' first
    | with_reducible exact Within.pure _
    | with_reducible exact Within.rd _
    | with_reducible exact (modDdrs_within _ _).of (by decide)
    | with_reducible refine Within.bind ?_ fun _ => ?_
    | with_reducible refine Within.onlyIf ?_
    | with_reducible refine Within.each fun _ => ?_
    | with_reducible refine Within.mapEach fun _ => ?_
    | split
    | dsimp only

theorem eccOf_within {n : Nat} {errs : List Nat} : Within [.free] (eccOf n errs) := by
  unfold eccOf
  repeat' first
    | with_reducible exact Within.pure _
    | with_reducible exact Within.rd _
    | with_reducible exact draw_within.of (by decide)
    | with_reducible refine Within.bind ?_ fun _ => ?_
    | with_reducible refine Within.onlyIf ?_
    | with_reducible refine Within.each fun _ => ?_
    | with_reducible refine Within.mapEach fun _ => ?_
    | split
    | dsimp only

theorem ddrCorrected_within {n : Nat} {a : Nat} {dev : Nat} : Within [.outbox, .regs, .ddrs, .fc] (ddrCorrected n a dev) := by
  unfold ddrCorrected
  repeat' first
    | with_reducible exact Within.pure _
    | with_reducible exact Within.rd _
    | (with_reducible refine Within.emit ?_); rfl
    | with_reducible exact count_within.of (by decide)
    | with_reducible exact ddrRequest_within.of (by decide)
    | with_reducible exact report_within.of (by decide)
    | with_reducible exact sticky_within.of (by decide)
    | with_reducible refine Within.bind ?_ fun _ => ?_
    | with_reducible refine Within.onlyIf ?_
    | with_reducible refine Within.each fun _ => ?_
    | with_reducible refine Within.mapEach fun _ => ?_
    | split
    | dsimp only

theorem lineRead_within {n : Nat} {a : Nat} {errs : List Nat} : Within [.free, .outbox, .bad, .regs, .ddrs, .fc] (lineRead n a errs) := by
  unfold lineRead
  repeat' first
    | with_reducible exact Within.pure _
    | with_reducible exact Within.rd _
    | with_reducible exact ddrCorrected_within.of (by decide)
    | with_reducible exact eccOf_within.of (by decide)
    | with_reducible exact markLine_within.of (by decide)
    | with_reducible exact reportBad_within.of (by decide)
    | with_reducible refine Within.bind ?_ fun _ => ?_
    | with_reducible refine Within.onlyIf ?_
    | with_reducible refine Within.each fun _ => ?_
    | with_reducible refine Within.mapEach fun _ => ?_
    | split
    | dsimp only

theorem uncache_within {who : Nat} {a : Nat} : Within [.engines] (uncache who a) := by
  unfold uncache
  repeat' first
    | with_reducible exact Within.pure _
    | with_reducible exact Within.rd _
    | with_reducible exact (modEngines_within _ _).of (by decide)
    | with_reducible refine Within.bind ?_ fun _ => ?_
    | with_reducible refine Within.onlyIf ?_
    | with_reducible refine Within.each fun _ => ?_
    | with_reducible refine Within.mapEach fun _ => ?_
    | split
    | dsimp only

theorem ddrGrant_within {n : Nat} {errs : List (List Nat)} : Within [.free, .outbox, .bad, .regs, .engines, .ddrs, .fc] (ddrGrant n errs) := by
  unfold ddrGrant
  repeat' first
    | with_reducible exact Within.pure _
    | with_reducible exact Within.rd _
    | with_reducible exact ddrIssue_within.of (by decide)
    | with_reducible exact lineRead_within.of (by decide)
    | with_reducible exact refreshForced_within.of (by decide)
    | with_reducible exact uncache_within.of (by decide)
    | with_reducible refine Within.bind ?_ fun _ => ?_
    | with_reducible refine Within.onlyIf ?_
    | with_reducible refine Within.each fun _ => ?_
    | with_reducible refine Within.mapEach fun _ => ?_
    | split
    | dsimp only

theorem execDramCommandGrant_within {n : Nat} {errs : List (List Nat)} {s : State} : Effect [.free, .outbox, .bad, .regs, .engines, .ddrs, .fc] (execDramCommandGrant n errs s) s := by
  unfold execDramCommandGrant
  refine Within.effect ?_ _
  repeat' first
    | with_reducible exact Within.pure _
    | with_reducible exact Within.rd _
    | with_reducible exact ddrGrant_within.of (by decide)
    | with_reducible refine Within.bind ?_ fun _ => ?_
    | with_reducible refine Within.onlyIf ?_
    | with_reducible refine Within.each fun _ => ?_
    | with_reducible refine Within.mapEach fun _ => ?_
    | split
    | dsimp only

theorem execPatrolScrub_within {n : Nat} {errs : List Nat} {s : State} : Effect [.free, .outbox, .bad, .regs, .ddrs, .fc] (execPatrolScrub n errs s) s := by
  unfold execPatrolScrub
  refine Within.effect ?_ _
  repeat' first
    | with_reducible exact Within.pure _
    | with_reducible exact Within.rd _
    | with_reducible exact (modDdrs_within _ _).of (by decide)
    | with_reducible exact count_within.of (by decide)
    | with_reducible exact lineRead_within.of (by decide)
    | with_reducible exact touch_within.of (by decide)
    | with_reducible refine Within.bind ?_ fun _ => ?_
    | with_reducible refine Within.onlyIf ?_
    | with_reducible refine Within.each fun _ => ?_
    | with_reducible refine Within.mapEach fun _ => ?_
    | split
    | dsimp only

theorem setRef2x_within {n : Nat} {on : Bool} : Within [.outbox, .regs, .ddrs] (setRef2x n on) := by
  unfold setRef2x
  repeat' first
    | with_reducible exact Within.pure _
    | with_reducible exact Within.rd _
    | with_reducible exact (modDdrs_within _ _).of (by decide)
    | with_reducible exact setFld_within.of (by decide)
    | with_reducible exact sticky_within.of (by decide)
    | with_reducible refine Within.bind ?_ fun _ => ?_
    | with_reducible refine Within.onlyIf ?_
    | with_reducible refine Within.each fun _ => ?_
    | with_reducible refine Within.mapEach fun _ => ?_
    | split
    | dsimp only

theorem execDimmSensorRead_within {n : Nat} {slot : Nat} {reading : Option Int} {s : State} : Effect [.outbox, .regs, .ddrs] (execDimmSensorRead n slot reading s) s := by
  unfold execDimmSensorRead
  refine Within.effect ?_ _
  repeat' first
    | with_reducible exact Within.pure _
    | with_reducible exact Within.rd _
    | with_reducible exact (modDdrs_within _ _).of (by decide)
    | with_reducible exact setFld_within.of (by decide)
    | with_reducible exact setRef2x_within.of (by decide)
    | with_reducible exact sticky_within.of (by decide)
    | with_reducible refine Within.bind ?_ fun _ => ?_
    | with_reducible refine Within.onlyIf ?_
    | with_reducible refine Within.each fun _ => ?_
    | with_reducible refine Within.mapEach fun _ => ?_
    | split
    | dsimp only

theorem execDdrRungDescend_within {n : Nat} {s : State} : Effect [.regs, .ddrs] (execDdrRungDescend n s) s := by
  unfold execDdrRungDescend
  refine Within.effect ?_ _
  repeat' first
    | with_reducible exact Within.pure _
    | with_reducible exact Within.rd _
    | with_reducible exact (modDdrs_within _ _).of (by decide)
    | with_reducible exact count_within.of (by decide)
    | with_reducible exact setFld_within.of (by decide)
    | with_reducible refine Within.bind ?_ fun _ => ?_
    | with_reducible refine Within.onlyIf ?_
    | with_reducible refine Within.each fun _ => ?_
    | with_reducible refine Within.mapEach fun _ => ?_
    | split
    | dsimp only

theorem owePass_within {n : Nat} : Within [.ddrs] (owePass n) := by
  unfold owePass
  repeat' first
    | with_reducible exact Within.pure _
    | with_reducible exact Within.rd _
    | with_reducible exact (modDdrs_within _ _).of (by decide)
    | with_reducible refine Within.bind ?_ fun _ => ?_
    | with_reducible refine Within.onlyIf ?_
    | with_reducible refine Within.each fun _ => ?_
    | with_reducible refine Within.mapEach fun _ => ?_
    | split
    | dsimp only

theorem ddrTick_within {n : Nat} : Within [.ddrs] (ddrTick n) := by
  unfold ddrTick
  repeat' first
    | with_reducible exact Within.pure _
    | with_reducible exact Within.rd _
    | with_reducible exact (modDdrs_within _ _).of (by decide)
    | with_reducible exact owePass_within.of (by decide)
    | with_reducible refine Within.bind ?_ fun _ => ?_
    | with_reducible refine Within.onlyIf ?_
    | with_reducible refine Within.each fun _ => ?_
    | with_reducible refine Within.mapEach fun _ => ?_
    | split
    | dsimp only

end Sys2Proof.Machine
end

