-- ==== Sys2Proof/Laws/WithinGradebook.lean ====
section
/-! SUPPORT. Which parts of the state the programs of Machine/Gradebook.lean change. -/

set_option linter.all false
set_option Elab.async false

namespace Sys2Proof.Machine

theorem gbStore_within {seq : Nat} {rec64 : List Byte} : Within [.outbox, .mem, .bad, .regs, .ddrs] (gbStore seq rec64) := by
  unfold gbStore
  repeat' first
    | with_reducible exact Within.pure _
    | with_reducible exact Within.rd _
    | with_reducible exact count_within.of (by decide)
    | with_reducible exact sticky_within.of (by decide)
    | with_reducible exact storeLine_within.of (by decide)
    | with_reducible refine Within.bind ?_ fun _ => ?_
    | with_reducible refine Within.onlyIf ?_
    | with_reducible refine Within.each fun _ => ?_
    | with_reducible refine Within.mapEach fun _ => ?_
    | split
    | dsimp only

theorem gbHashOne_within : Within [.outbox, .mem, .bad, .regs, .ddrs, .gb] (gbHashOne) := by
  unfold gbHashOne
  repeat' first
    | with_reducible exact Within.pure _
    | with_reducible exact Within.rd _
    | with_reducible exact (modGb_within _).of (by decide)
    | (with_reducible refine Within.emit ?_); rfl
    | with_reducible exact count_within.of (by decide)
    | with_reducible exact gbStore_within.of (by decide)
    | with_reducible refine Within.bind ?_ fun _ => ?_
    | with_reducible refine Within.onlyIf ?_
    | with_reducible refine Within.each fun _ => ?_
    | with_reducible refine Within.mapEach fun _ => ?_
    | split
    | dsimp only

theorem gbTrack_within  {body : M Unit} {qs : List StatePart} (hs : [.outbox, .regs].all qs.contains = true) (h0 : Within qs (body)) : Within qs (gbTrack body) := by
  unfold gbTrack
  repeat' first
    | with_reducible exact Within.pure _
    | with_reducible exact Within.rd _
    | with_reducible exact h0
    | with_reducible exact sticky_within.of (parts_trans (by decide) hs)
    | with_reducible refine Within.bind ?_ fun _ => ?_
    | with_reducible refine Within.onlyIf ?_
    | with_reducible refine Within.each fun _ => ?_
    | with_reducible refine Within.mapEach fun _ => ?_
    | split
    | dsimp only

theorem gbRecord_within {o : Origin} {kind : Nat} {action : Nat} {id : Nat} {old : Nat} {new : Nat} : Within [.outbox, .mem, .bad, .regs, .ddrs, .gb] (gbRecord o kind action id old new) := by
  unfold gbRecord
  repeat' first
    | with_reducible exact Within.pure _
    | with_reducible exact Within.rd _
    | with_reducible exact (modGb_within _).of (by decide)
    | (with_reducible refine Within.emit ?_); rfl
    | with_reducible exact gbHashOne_within.of (by decide)
    | with_reducible refine gbTrack_within (by decide) ?_
    | with_reducible refine Within.bind ?_ fun _ => ?_
    | with_reducible refine Within.onlyIf ?_
    | with_reducible refine Within.each fun _ => ?_
    | with_reducible refine Within.mapEach fun _ => ?_
    | split
    | dsimp only

theorem setMode_within {o : Origin} {m : Nat} : Within [.outbox, .mem, .bad, .regs, .ddrs, .gb] (setMode o m) := by
  unfold setMode
  repeat' first
    | with_reducible exact Within.pure _
    | with_reducible exact Within.rd _
    | with_reducible exact gbRecord_within.of (by decide)
    | with_reducible exact setFld_within.of (by decide)
    | with_reducible exact sticky_within.of (by decide)
    | with_reducible refine Within.bind ?_ fun _ => ?_
    | with_reducible refine Within.onlyIf ?_
    | with_reducible refine Within.each fun _ => ?_
    | with_reducible refine Within.mapEach fun _ => ?_
    | split
    | dsimp only

end Sys2Proof.Machine
end

