-- ==== Sys2Proof/Laws/WithinHost.lean ====
section
/-! SUPPORT. Which parts of the state the programs of Machine/Host.lean change. -/

set_option linter.all false
set_option Elab.async false

namespace Sys2Proof.Machine

/-- A program that answers a command, and what it leaves to be done behind the reply, change only the parts listed. -/
def Answers (ps : List StatePart) (p : M Answer) : Prop := Within ps p ∧ ∀ w, Within ps (p w).1.after

theorem Answers.pure {ps : List StatePart} {a : Answer} (h : Within ps a.after) : Answers ps (Pure.pure a) :=
  ⟨Within.pure a, fun _ => h⟩

theorem Answers.within {ps : List StatePart} {p : M Answer} (h : Answers ps p) : Within ps p := h.1

theorem Answers.bind {ps : List StatePart} {α : Type} {p : M α} {f : α → M Answer} (hp : Within ps p)
    (hf : ∀ a, Answers ps (f a)) : Answers ps (p >>= f) :=
  ⟨Within.bind hp fun a => (hf a).1, fun w => (hf (p w).1).2 (p w).2⟩

theorem Answers.of {ps qs : List StatePart} {p : M Answer} (h : Answers ps p) (hs : ps.all qs.contains = true) :
    Answers qs p := ⟨h.1.of hs, fun w => (h.2 w).of hs⟩

theorem Within.bindAnswer {ps : List StatePart} {β : Type} {p : M Answer} {f : Answer → M β} (hp : Answers ps p)
    (hf : ∀ a, Within ps a.after → Within ps (f a)) : Within ps (p >>= f) := by
  intro s
  obtain ⟨us, h1, h2⟩ := hp.1 s
  obtain ⟨vs, h3, h4⟩ := hf (p s).1 (hp.2 s) (p s).2
  refine ⟨vs ++ us, ?_, fun u hu => (List.mem_append.1 hu).elim (h4 u) (h2 u)⟩
  rw [run_bind, h3, h1, applyAll_append]

/-- Nothing is left to be done. -/
theorem Within.afterAns {ps : List StatePart} {n : Nat} : Within ps (ans n).after := Within.pure ()

theorem Within.afterData {ps : List StatePart} {n : Nat} {d : List Byte} : Within ps (ansData n d).after := Within.pure ()

theorem qWrite_within {k : Nat} {r : OwedReply} : Within [.outbox, .regs, .hostq] (qWrite k r) := by
  unfold qWrite
  repeat' first
    | with_reducible exact Within.pure _
    | with_reducible exact Within.rd _
    | with_reducible exact (modHostq_within _ _).of (by decide)
    | with_reducible exact hostWrite_within.of (by decide)
    | with_reducible exact msixSignal_within.of (by decide)
    | with_reducible exact setFld_within.of (by decide)
    | with_reducible refine Within.bind ?_ fun _ => ?_
    | with_reducible refine Within.onlyIf ?_
    | with_reducible refine Within.each fun _ => ?_
    | with_reducible refine Within.mapEach fun _ => ?_
    | split
    | dsimp only

theorem qSend_within {k : Nat} {r : OwedReply} : Within [.outbox, .regs, .hostq] (qSend k r) := by
  unfold qSend
  repeat' first
    | with_reducible exact Within.pure _
    | with_reducible exact Within.rd _
    | with_reducible exact (modHostq_within _ _).of (by decide)
    | with_reducible exact qWrite_within.of (by decide)
    | with_reducible refine Within.bind ?_ fun _ => ?_
    | with_reducible refine Within.onlyIf ?_
    | with_reducible refine Within.each fun _ => ?_
    | with_reducible refine Within.mapEach fun _ => ?_
    | split
    | dsimp only

theorem qDrain_within  {x0 : Nat} {x1 : Nat} : Within [.outbox, .regs, .hostq] (qDrain x0 x1) := by
  fun_induction qDrain x0 x1
  all_goals
  repeat' first
    | with_reducible exact Within.pure _
    | with_reducible exact Within.rd _
    | assumption
    | (with_reducible refine Within.emit ?_); rfl
    | with_reducible exact qWrite_within.of (by decide)
    | with_reducible refine Within.bind ?_ fun _ => ?_
    | with_reducible refine Within.onlyIf ?_
    | with_reducible refine Within.each fun _ => ?_
    | with_reducible refine Within.mapEach fun _ => ?_
    | split
    | dsimp only

theorem qFreed_within {k : Nat} : Within [.outbox, .regs, .hostq] (qFreed k) := by
  unfold qFreed
  repeat' first
    | with_reducible exact Within.pure _
    | with_reducible exact Within.rd _
    | with_reducible exact (modHostq_within _ _).of (by decide)
    | with_reducible exact qDrain_within.of (by decide)
    | with_reducible refine Within.bind ?_ fun _ => ?_
    | with_reducible refine Within.onlyIf ?_
    | with_reducible refine Within.each fun _ => ?_
    | with_reducible refine Within.mapEach fun _ => ?_
    | split
    | dsimp only

theorem bgEnd_within {b : BgOp} {status : Nat} {result : Nat} : Within [.outbox, .regs, .hostq, .bg] (bgEnd b status result) := by
  unfold bgEnd
  repeat' first
    | with_reducible exact Within.pure _
    | with_reducible exact Within.rd _
    | with_reducible exact (modBg_within _).of (by decide)
    | with_reducible exact count_within.of (by decide)
    | with_reducible exact qSend_within.of (by decide)
    | with_reducible refine Within.bind ?_ fun _ => ?_
    | with_reducible refine Within.onlyIf ?_
    | with_reducible refine Within.each fun _ => ?_
    | with_reducible refine Within.mapEach fun _ => ?_
    | split
    | dsimp only

theorem bgFinish_within {p : BgKind → Bool} {status : Nat} {result : Nat} : Within [.outbox, .regs, .hostq, .bg] (bgFinish p status result) := by
  unfold bgFinish
  repeat' first
    | with_reducible exact Within.pure _
    | with_reducible exact Within.rd _
    | with_reducible exact bgEnd_within.of (by decide)
    | with_reducible refine Within.bind ?_ fun _ => ?_
    | with_reducible refine Within.onlyIf ?_
    | with_reducible refine Within.each fun _ => ?_
    | with_reducible refine Within.mapEach fun _ => ?_
    | split
    | dsimp only

theorem postNotice_within {k : Nat} {kind : Nat} {rec_ : List Byte} : Within [.outbox, .regs, .hostq] (postNotice k kind rec_) := by
  unfold postNotice
  repeat' first
    | with_reducible exact Within.pure _
    | with_reducible exact Within.rd _
    | with_reducible exact (modHostq_within _ _).of (by decide)
    | with_reducible exact count_within.of (by decide)
    | with_reducible exact hostWrite_within.of (by decide)
    | with_reducible exact qSend_within.of (by decide)
    | with_reducible exact sticky_within.of (by decide)
    | with_reducible refine Within.bind ?_ fun _ => ?_
    | with_reducible refine Within.onlyIf ?_
    | with_reducible refine Within.each fun _ => ?_
    | with_reducible refine Within.mapEach fun _ => ?_
    | split
    | dsimp only

theorem queueStart_within {k : Nat} : Within [.regs, .hostq] (queueStart k) := by
  unfold queueStart
  repeat' first
    | with_reducible exact Within.pure _
    | with_reducible exact Within.rd _
    | with_reducible exact (modRegs_within _ _).of (by decide)
    | (with_reducible refine Within.emit ?_); rfl
    | with_reducible refine Within.bind ?_ fun _ => ?_
    | with_reducible refine Within.onlyIf ?_
    | with_reducible refine Within.each fun _ => ?_
    | with_reducible refine Within.mapEach fun _ => ?_
    | split
    | dsimp only

theorem queueStop_within {k : Nat} : Within [.regs, .hostq, .bg] (queueStop k) := by
  unfold queueStop
  repeat' first
    | with_reducible exact Within.pure _
    | with_reducible exact Within.rd _
    | with_reducible exact (modBg_within _).of (by decide)
    | with_reducible exact (modRegs_within _ _).of (by decide)
    | (with_reducible refine Within.emit ?_); rfl
    | with_reducible refine Within.bind ?_ fun _ => ?_
    | with_reducible refine Within.onlyIf ?_
    | with_reducible refine Within.each fun _ => ?_
    | with_reducible refine Within.mapEach fun _ => ?_
    | split
    | dsimp only

theorem queueEn_within {o : Who} {k : Nat} {en : Bool} : Within [.outbox, .mem, .bad, .regs, .ddrs, .hostq, .gb, .bg] (queueEn o k en) := by
  unfold queueEn
  repeat' first
    | with_reducible exact Within.pure _
    | with_reducible exact Within.rd _
    | (with_reducible refine Within.emit ?_); rfl
    | with_reducible exact gbRecord_within.of (by decide)
    | with_reducible exact queueStart_within.of (by decide)
    | with_reducible exact queueStop_within.of (by decide)
    | with_reducible refine Within.bind ?_ fun _ => ?_
    | with_reducible refine Within.onlyIf ?_
    | with_reducible refine Within.each fun _ => ?_
    | with_reducible refine Within.mapEach fun _ => ?_
    | split
    | dsimp only

theorem execQueueEnable_within {o : Who} {q : Nat} {s : State} : Effect [.outbox, .mem, .bad, .regs, .ddrs, .hostq, .gb, .bg] (execQueueEnable o q s) s := by
  unfold execQueueEnable
  refine Within.effect ?_ _
  repeat' first
    | with_reducible exact Within.pure _
    | with_reducible exact Within.rd _
    | with_reducible exact queueEn_within.of (by decide)
    | with_reducible refine Within.bind ?_ fun _ => ?_
    | with_reducible refine Within.onlyIf ?_
    | with_reducible refine Within.each fun _ => ?_
    | with_reducible refine Within.mapEach fun _ => ?_
    | split
    | dsimp only

theorem execQueueDisable_within {o : Who} {q : Nat} {s : State} : Effect [.outbox, .mem, .bad, .regs, .ddrs, .hostq, .gb, .bg] (execQueueDisable o q s) s := by
  unfold execQueueDisable
  refine Within.effect ?_ _
  repeat' first
    | with_reducible exact Within.pure _
    | with_reducible exact Within.rd _
    | with_reducible exact queueEn_within.of (by decide)
    | with_reducible refine Within.bind ?_ fun _ => ?_
    | with_reducible refine Within.onlyIf ?_
    | with_reducible refine Within.each fun _ => ?_
    | with_reducible refine Within.mapEach fun _ => ?_
    | split
    | dsimp only

theorem execQueueErr_within {q : Nat} {code : Nat} {s : State} : Effect [.outbox, .regs] (execQueueErr q code s) s := by
  unfold execQueueErr
  refine Within.effect ?_ _
  repeat' first
    | with_reducible exact Within.pure _
    | with_reducible exact Within.rd _
    | with_reducible exact count_within.of (by decide)
    | with_reducible exact event_within.of (by decide)
    | with_reducible exact setFld_within.of (by decide)
    | with_reducible exact sticky_within.of (by decide)
    | with_reducible refine Within.bind ?_ fun _ => ?_
    | with_reducible refine Within.onlyIf ?_
    | with_reducible refine Within.each fun _ => ?_
    | with_reducible refine Within.mapEach fun _ => ?_
    | split
    | dsimp only

theorem background_within {c : Cmd} {op : Nat} {k : BgKind} : Answers [.bg] (background c op k) := by
  unfold background
  repeat' first
    | with_reducible exact Within.pure _
    | with_reducible exact Within.rd _
    | with_reducible exact (modBg_within _).of (by decide)
    | with_reducible refine Answers.pure ?_
    | with_reducible refine Answers.bind ?_ fun _ => ?_
    | with_reducible exact Within.afterAns
    | with_reducible exact Within.afterData
    | with_reducible refine Within.bind ?_ fun _ => ?_
    | with_reducible refine Within.onlyIf ?_
    | with_reducible refine Within.each fun _ => ?_
    | with_reducible refine Within.mapEach fun _ => ?_
    | split
    | dsimp only

theorem reply_within {c : Cmd} {op : Nat} {status : Nat} {len : Nat} {result : Nat} {data : List Byte} : Within [.outbox, .regs, .hostq] (reply c op status len result data) := by
  unfold reply
  repeat' first
    | with_reducible exact Within.pure _
    | with_reducible exact Within.rd _
    | with_reducible exact hostWrite_within.of (by decide)
    | with_reducible exact qSend_within.of (by decide)
    | with_reducible refine Within.bind ?_ fun _ => ?_
    | with_reducible refine Within.onlyIf ?_
    | with_reducible refine Within.each fun _ => ?_
    | with_reducible refine Within.mapEach fun _ => ?_
    | split
    | dsimp only

theorem noteCmd_within {l : LastCmd} : Within [.hostq] (noteCmd l) := by
  unfold noteCmd
  repeat' first
    | with_reducible exact Within.pure _
    | with_reducible exact Within.rd _
    | with_reducible exact (modHostq_within _ _).of (by decide)
    | with_reducible refine Within.bind ?_ fun _ => ?_
    | with_reducible refine Within.onlyIf ?_
    | with_reducible refine Within.each fun _ => ?_
    | with_reducible refine Within.mapEach fun _ => ?_
    | split
    | dsimp only

theorem replyLast_within {l : LastCmd} : Within [.outbox, .regs, .hostq] (replyLast l) := by
  unfold replyLast
  repeat' first
    | with_reducible exact Within.pure _
    | with_reducible exact Within.rd _
    | with_reducible exact noteCmd_within.of (by decide)
    | with_reducible exact reply_within.of (by decide)
    | with_reducible refine Within.bind ?_ fun _ => ?_
    | with_reducible refine Within.onlyIf ?_
    | with_reducible refine Within.each fun _ => ?_
    | with_reducible refine Within.mapEach fun _ => ?_
    | split
    | dsimp only

theorem replyMissing_within : Within [.outbox, .regs, .hostq] (replyMissing) := by
  unfold replyMissing
  repeat' first
    | with_reducible exact Within.pure _
    | with_reducible exact Within.rd _
    | with_reducible exact replyLast_within.of (by decide)
    | with_reducible refine Within.bind ?_ fun _ => ?_
    | with_reducible refine Within.onlyIf ?_
    | with_reducible refine Within.each fun _ => ?_
    | with_reducible refine Within.mapEach fun _ => ?_
    | split
    | dsimp only

theorem replyUnlisted_within {op : Nat} {c : Cmd} : Within [.outbox, .regs, .hostq] (replyUnlisted op c) := by
  unfold replyUnlisted
  repeat' first
    | with_reducible exact Within.pure _
    | with_reducible exact Within.rd _
    | with_reducible exact count_within.of (by decide)
    | with_reducible exact reply_within.of (by decide)
    | with_reducible refine Within.bind ?_ fun _ => ?_
    | with_reducible refine Within.onlyIf ?_
    | with_reducible refine Within.each fun _ => ?_
    | with_reducible refine Within.mapEach fun _ => ?_
    | split
    | dsimp only

theorem takeSlots_within {c : Cmd} : Within [.regs, .boot] (takeSlots c) := by
  unfold takeSlots
  repeat' first
    | with_reducible exact Within.pure _
    | with_reducible exact Within.rd _
    | with_reducible exact (modBoot_within _).of (by decide)
    | with_reducible exact count_within.of (by decide)
    | with_reducible exact setFld_within.of (by decide)
    | with_reducible refine Within.bind ?_ fun _ => ?_
    | with_reducible refine Within.onlyIf ?_
    | with_reducible refine Within.each fun _ => ?_
    | with_reducible refine Within.mapEach fun _ => ?_
    | split
    | dsimp only

theorem commandUnlisted_within {op : Nat} {c : Cmd} : Within [.outbox, .regs, .hostq, .boot] (commandUnlisted op c) := by
  unfold commandUnlisted
  repeat' first
    | with_reducible exact Within.pure _
    | with_reducible exact Within.rd _
    | with_reducible exact replyUnlisted_within.of (by decide)
    | with_reducible exact takeSlots_within.of (by decide)
    | with_reducible refine Within.bind ?_ fun _ => ?_
    | with_reducible refine Within.onlyIf ?_
    | with_reducible refine Within.each fun _ => ?_
    | with_reducible refine Within.mapEach fun _ => ?_
    | split
    | dsimp only

theorem command_within {row : State → CmdRow} {c : Cmd} {body : M Answer} {qs : List StatePart} (hs : [.outbox, .regs, .hostq, .boot].all qs.contains = true) (h0 : Answers qs body) : Within qs (command row c body) := by
  unfold command
  repeat' first
    | with_reducible exact Within.pure _
    | with_reducible exact Within.rd _
    | with_reducible refine Within.bindAnswer h0 fun _ _ => ?_
    | assumption
    | with_reducible exact count_within.of (parts_trans (by decide) hs)
    | with_reducible exact noteCmd_within.of (parts_trans (by decide) hs)
    | with_reducible exact reply_within.of (parts_trans (by decide) hs)
    | with_reducible exact replyLast_within.of (parts_trans (by decide) hs)
    | with_reducible exact takeSlots_within.of (parts_trans (by decide) hs)
    | with_reducible refine Within.bind ?_ fun _ => ?_
    | with_reducible refine Within.onlyIf ?_
    | with_reducible refine Within.each fun _ => ?_
    | with_reducible refine Within.mapEach fun _ => ?_
    | split
    | dsimp only

end Sys2Proof.Machine
end

