-- ==== Sys2Proof/Laws/WithinRollCall.lean ====
section
/-! SUPPORT. Which parts of the state the programs of Machine/RollCall.lean change. -/

set_option linter.all false
set_option Elab.async false

namespace Sys2Proof.Machine

theorem wantAbandon_within {x : Nat} {cgen : Nat} : Within [.rc] (wantAbandon x cgen) := by
  unfold wantAbandon
  repeat' first
    | with_reducible exact Within.pure _
    | with_reducible exact Within.rd _
    | with_reducible exact (modRc_within _).of (by decide)
    | with_reducible refine Within.bind ?_ fun _ => ?_
    | with_reducible refine Within.onlyIf ?_
    | with_reducible refine Within.each fun _ => ?_
    | with_reducible refine Within.mapEach fun _ => ?_
    | split
    | dsimp only

theorem storeTake_within {x : Nat} : Within [.free, .mem, .bad, .ddrs, .rc] (storeTake x) := by
  unfold storeTake
  repeat' first
    | with_reducible exact Within.pure _
    | with_reducible exact Within.rd _
    | with_reducible exact (modRc_within _).of (by decide)
    | with_reducible exact draw_within.of (by decide)
    | with_reducible exact store_within.of (by decide)
    | with_reducible refine Within.bind ?_ fun _ => ?_
    | with_reducible refine Within.onlyIf ?_
    | with_reducible refine Within.each fun _ => ?_
    | with_reducible refine Within.mapEach fun _ => ?_
    | split
    | dsimp only

theorem storeLeave_within {x : Nat} : Within [.mem, .bad, .ddrs, .rc] (storeLeave x) := by
  unfold storeLeave
  repeat' first
    | with_reducible exact Within.pure _
    | with_reducible exact Within.rd _
    | with_reducible exact (modRc_within _).of (by decide)
    | with_reducible exact store_within.of (by decide)
    | with_reducible refine Within.bind ?_ fun _ => ?_
    | with_reducible refine Within.onlyIf ?_
    | with_reducible refine Within.each fun _ => ?_
    | with_reducible refine Within.mapEach fun _ => ?_
    | split
    | dsimp only

theorem ctxSync_within {x : Nat} : Within [.mem, .bad, .ddrs] (ctxSync x) := by
  unfold ctxSync
  repeat' first
    | with_reducible exact Within.pure _
    | with_reducible exact Within.rd _
    | with_reducible exact store_within.of (by decide)
    | with_reducible refine Within.bind ?_ fun _ => ?_
    | with_reducible refine Within.onlyIf ?_
    | with_reducible refine Within.each fun _ => ?_
    | with_reducible refine Within.mapEach fun _ => ?_
    | split
    | dsimp only

theorem changeCtx_within {x : Nat} {f : Ctx → Ctx} : Within [.mem, .bad, .ctxs, .ddrs] (changeCtx x f) := by
  unfold changeCtx
  repeat' first
    | with_reducible exact Within.pure _
    | with_reducible exact Within.rd _
    | with_reducible exact (modCtxs_within _ _).of (by decide)
    | with_reducible exact ctxSync_within.of (by decide)
    | with_reducible refine Within.bind ?_ fun _ => ?_
    | with_reducible refine Within.onlyIf ?_
    | with_reducible refine Within.each fun _ => ?_
    | with_reducible refine Within.mapEach fun _ => ?_
    | split
    | dsimp only

theorem cwClose_within {x : Nat} {cgen : Nat} : Within [.cw] (cwClose x cgen) := by
  unfold cwClose
  repeat' first
    | with_reducible exact Within.pure _
    | with_reducible exact Within.rd _
    | with_reducible exact (modCw_within _).of (by decide)
    | with_reducible refine Within.bind ?_ fun _ => ?_
    | with_reducible refine Within.onlyIf ?_
    | with_reducible refine Within.each fun _ => ?_
    | with_reducible refine Within.mapEach fun _ => ?_
    | split
    | dsimp only

theorem cwEnded_within {x : Nat} : Within [.cw] (cwEnded x) := by
  unfold cwEnded
  repeat' first
    | with_reducible exact Within.pure _
    | with_reducible exact Within.rd _
    | with_reducible exact cwClose_within.of (by decide)
    | with_reducible refine Within.bind ?_ fun _ => ?_
    | with_reducible refine Within.onlyIf ?_
    | with_reducible refine Within.each fun _ => ?_
    | with_reducible refine Within.mapEach fun _ => ?_
    | split
    | dsimp only

theorem pushToken_within {t : Token} : Within [.banks] (pushToken t) := by
  unfold pushToken
  repeat' first
    | with_reducible exact Within.pure _
    | with_reducible exact Within.rd _
    | with_reducible exact (modBanks_within _ _).of (by decide)
    | with_reducible refine Within.bind ?_ fun _ => ?_
    | with_reducible refine Within.onlyIf ?_
    | with_reducible refine Within.each fun _ => ?_
    | with_reducible refine Within.mapEach fun _ => ?_
    | split
    | dsimp only

theorem handItem_within {i : FuItem} : Within [.regs, .banks, .engines, .dir, .ring] (handItem i) := by
  unfold handItem
  repeat' first
    | with_reducible exact Within.pure _
    | with_reducible exact Within.rd _
    | with_reducible exact (modDir_within _).of (by decide)
    | with_reducible exact (modEngines_within _ _).of (by decide)
    | with_reducible exact (modRing_within _).of (by decide)
    | with_reducible exact count_within.of (by decide)
    | with_reducible exact pushToken_within.of (by decide)
    | with_reducible refine Within.bind ?_ fun _ => ?_
    | with_reducible refine Within.onlyIf ?_
    | with_reducible refine Within.each fun _ => ?_
    | with_reducible refine Within.mapEach fun _ => ?_
    | split
    | dsimp only

theorem drainUnit_within {f : Nat} {x0 : Nat} : Within [.regs, .banks, .fuq, .engines, .dir, .ring] (drainUnit f x0) := by
  fun_induction drainUnit f x0
  all_goals
  repeat' first
    | with_reducible exact Within.pure _
    | with_reducible exact Within.rd _
    | assumption
    | (with_reducible refine Within.emit ?_); rfl
    | with_reducible exact handItem_within.of (by decide)
    | with_reducible refine Within.bind ?_ fun _ => ?_
    | with_reducible refine Within.onlyIf ?_
    | with_reducible refine Within.each fun _ => ?_
    | with_reducible refine Within.mapEach fun _ => ?_
    | split
    | dsimp only

theorem passStrays_within {b : Nat} : Within [.banks] (passStrays b) := by
  unfold passStrays
  repeat' first
    | with_reducible exact Within.pure _
    | with_reducible exact Within.rd _
    | with_reducible exact (modBanks_within _ _).of (by decide)
    | with_reducible exact pushToken_within.of (by decide)
    | with_reducible refine Within.bind ?_ fun _ => ?_
    | with_reducible refine Within.onlyIf ?_
    | with_reducible refine Within.each fun _ => ?_
    | with_reducible refine Within.mapEach fun _ => ?_
    | split
    | dsimp only

theorem pump_within : Within [.regs, .banks, .fuq, .engines, .dir, .ring] (pump) := by
  unfold pump
  repeat' first
    | with_reducible exact Within.pure _
    | with_reducible exact Within.rd _
    | with_reducible exact drainUnit_within.of (by decide)
    | with_reducible exact passStrays_within.of (by decide)
    | with_reducible refine Within.bind ?_ fun _ => ?_
    | with_reducible refine Within.onlyIf ?_
    | with_reducible refine Within.each fun _ => ?_
    | with_reducible refine Within.mapEach fun _ => ?_
    | split
    | dsimp only

theorem actAlloc_within {a : Act} : Within [.acts, .sq] (actAlloc a) := by
  unfold actAlloc
  repeat' first
    | with_reducible exact Within.pure _
    | with_reducible exact Within.rd _
    | (with_reducible refine Within.emit ?_); rfl
    | with_reducible refine Within.bind ?_ fun _ => ?_
    | with_reducible refine Within.onlyIf ?_
    | with_reducible refine Within.each fun _ => ?_
    | with_reducible refine Within.mapEach fun _ => ?_
    | split
    | dsimp only

theorem actRelease_within {i : Nat} : Within [.mem, .bad, .acts, .ctxs, .ddrs, .sq, .cw] (actRelease i) := by
  unfold actRelease
  repeat' first
    | with_reducible exact Within.pure _
    | with_reducible exact Within.rd _
    | with_reducible exact (modSq_within _).of (by decide)
    | (with_reducible refine Within.emit ?_); rfl
    | with_reducible exact changeCtx_within.of (by decide)
    | with_reducible exact cwEnded_within.of (by decide)
    | with_reducible refine Within.bind ?_ fun _ => ?_
    | with_reducible refine Within.onlyIf ?_
    | with_reducible refine Within.each fun _ => ?_
    | with_reducible refine Within.mapEach fun _ => ?_
    | split
    | dsimp only

theorem readyTail_within {i : Nat} {x : Nat} : Within [.ready, .sq] (readyTail i x) := by
  unfold readyTail
  repeat' first
    | with_reducible exact Within.pure _
    | with_reducible exact Within.rd _
    | with_reducible exact (modReady_within _ _).of (by decide)
    | with_reducible exact (modSq_within _).of (by decide)
    | with_reducible refine Within.bind ?_ fun _ => ?_
    | with_reducible refine Within.onlyIf ?_
    | with_reducible refine Within.each fun _ => ?_
    | with_reducible refine Within.mapEach fun _ => ?_
    | split
    | dsimp only

theorem readyHead_within {i : Nat} {x : Nat} : Within [.ready, .sq] (readyHead i x) := by
  unfold readyHead
  repeat' first
    | with_reducible exact Within.pure _
    | with_reducible exact Within.rd _
    | with_reducible exact (modReady_within _ _).of (by decide)
    | with_reducible exact (modSq_within _).of (by decide)
    | with_reducible refine Within.bind ?_ fun _ => ?_
    | with_reducible refine Within.onlyIf ?_
    | with_reducible refine Within.each fun _ => ?_
    | with_reducible refine Within.mapEach fun _ => ?_
    | split
    | dsimp only

theorem delayArm_within {list : Nat} {ticks : Nat} {kind : DelayKind} : Within [.outbox, .regs, .delay, .sq] (delayArm list ticks kind) := by
  unfold delayArm
  repeat' first
    | with_reducible exact Within.pure _
    | with_reducible exact Within.rd _
    | (with_reducible refine Within.emit ?_); rfl
    | with_reducible exact count_within.of (by decide)
    | with_reducible exact sticky_within.of (by decide)
    | with_reducible refine Within.bind ?_ fun _ => ?_
    | with_reducible refine Within.onlyIf ?_
    | with_reducible refine Within.each fun _ => ?_
    | with_reducible refine Within.mapEach fun _ => ?_
    | split
    | dsimp only

theorem delayFree_within {i : Nat} : Within [.delay, .sq] (delayFree i) := by
  unfold delayFree
  repeat' first
    | with_reducible exact Within.pure _
    | with_reducible exact Within.rd _
    | with_reducible exact (modDelay_within _ _).of (by decide)
    | with_reducible exact (modSq_within _).of (by decide)
    | with_reducible refine Within.bind ?_ fun _ => ?_
    | with_reducible refine Within.onlyIf ?_
    | with_reducible refine Within.each fun _ => ?_
    | with_reducible refine Within.mapEach fun _ => ?_
    | split
    | dsimp only

theorem delayCancel_within {h : Nat} : Within [.regs, .delay, .sq] (delayCancel h) := by
  unfold delayCancel
  repeat' first
    | with_reducible exact Within.pure _
    | with_reducible exact Within.rd _
    | with_reducible exact count_within.of (by decide)
    | with_reducible exact delayFree_within.of (by decide)
    | with_reducible refine Within.bind ?_ fun _ => ?_
    | with_reducible refine Within.onlyIf ?_
    | with_reducible refine Within.each fun _ => ?_
    | with_reducible refine Within.mapEach fun _ => ?_
    | split
    | dsimp only

theorem cancelPark_within {x : Nat} : Within [.mem, .bad, .regs, .delay, .ctxs, .ddrs, .sq] (cancelPark x) := by
  unfold cancelPark
  repeat' first
    | with_reducible exact Within.pure _
    | with_reducible exact Within.rd _
    | with_reducible exact changeCtx_within.of (by decide)
    | with_reducible exact delayCancel_within.of (by decide)
    | with_reducible refine Within.bind ?_ fun _ => ?_
    | with_reducible refine Within.onlyIf ?_
    | with_reducible refine Within.each fun _ => ?_
    | with_reducible refine Within.mapEach fun _ => ?_
    | split
    | dsimp only

theorem ctxReload_within {x : Nat} : Within [.free, .outbox, .mem, .bad, .regs, .ctxs, .ddrs, .rc, .fc] (ctxReload x) := by
  unfold ctxReload
  repeat' first
    | with_reducible exact Within.pure _
    | with_reducible exact Within.rd _
    | with_reducible exact (modCtxs_within _ _).of (by decide)
    | with_reducible exact reportBads_within.of (by decide)
    | with_reducible exact storeTake_within.of (by decide)
    | with_reducible refine Within.bind ?_ fun _ => ?_
    | with_reducible refine Within.onlyIf ?_
    | with_reducible refine Within.each fun _ => ?_
    | with_reducible refine Within.mapEach fun _ => ?_
    | split
    | dsimp only

theorem withRecord_within {x : Nat} {p : M Unit} {qs : List StatePart} (hs : [.ddrs].all qs.contains = true) (h0 : Within qs (p)) : Within qs (withRecord x p) := by
  unfold withRecord
  repeat' first
    | with_reducible exact Within.pure _
    | with_reducible exact Within.rd _
    | with_reducible exact h0
    | with_reducible exact touch_within.of (parts_trans (by decide) hs)
    | with_reducible refine Within.bind ?_ fun _ => ?_
    | with_reducible refine Within.onlyIf ?_
    | with_reducible refine Within.each fun _ => ?_
    | with_reducible refine Within.mapEach fun _ => ?_
    | split
    | dsimp only

theorem unstore_within {x : Nat} : Within [.free, .outbox, .mem, .bad, .regs, .ctxs, .ddrs, .rc, .fc] (unstore x) := by
  unfold unstore
  repeat' first
    | with_reducible exact Within.pure _
    | with_reducible exact Within.rd _
    | with_reducible exact (modCtxs_within _ _).of (by decide)
    | with_reducible exact ctxReload_within.of (by decide)
    | with_reducible refine Within.bind ?_ fun _ => ?_
    | with_reducible refine Within.onlyIf ?_
    | with_reducible refine Within.each fun _ => ?_
    | with_reducible refine Within.mapEach fun _ => ?_
    | split
    | dsimp only

theorem noteShort_within {tag : Nat} {d : NodeDesc} {absent : Nat} : Within [.outbox, .regs] (noteShort tag d absent) := by
  unfold noteShort
  repeat' first
    | with_reducible exact Within.pure _
    | with_reducible exact Within.rd _
    | with_reducible exact sticky_within.of (by decide)
    | with_reducible refine Within.bind ?_ fun _ => ?_
    | with_reducible refine Within.onlyIf ?_
    | with_reducible refine Within.each fun _ => ?_
    | with_reducible refine Within.mapEach fun _ => ?_
    | split
    | dsimp only

theorem fireNode_within {b : Nat} {tag : Nat} {port : Nat} {d : NodeDesc} {op : List Word} {absent : Nat} : Within [.free, .outbox, .mem, .bad, .regs, .acts, .ready, .delay, .ctxs, .fuq, .ddrs, .sq, .rc, .cw, .fc] (fireNode b tag port d op absent) := by
  unfold fireNode
  repeat' first
    | with_reducible exact Within.pure _
    | with_reducible exact Within.rd _
    | with_reducible exact (modCtxs_within _ _).of (by decide)
    | with_reducible exact (modFree_within _).of (by decide)
    | with_reducible exact (modFuq_within _ _).of (by decide)
    | with_reducible exact actAlloc_within.of (by decide)
    | with_reducible exact changeCtx_within.of (by decide)
    | with_reducible exact count_within.of (by decide)
    | with_reducible exact cwEnded_within.of (by decide)
    | with_reducible exact delayArm_within.of (by decide)
    | with_reducible exact event_within.of (by decide)
    | with_reducible exact readyTail_within.of (by decide)
    | with_reducible exact unstore_within.of (by decide)
    | with_reducible exact wantAbandon_within.of (by decide)
    | with_reducible refine Within.bind ?_ fun _ => ?_
    | with_reducible refine Within.onlyIf ?_
    | with_reducible refine Within.each fun _ => ?_
    | with_reducible refine Within.mapEach fun _ => ?_
    | split
    | dsimp only

theorem reserveFlags_within : Within [.outbox, .regs] (reserveFlags) := by
  unfold reserveFlags
  repeat' first
    | with_reducible exact Within.pure _
    | with_reducible exact Within.rd _
    | with_reducible exact setFld_within.of (by decide)
    | with_reducible exact sticky_within.of (by decide)
    | with_reducible refine Within.bind ?_ fun _ => ?_
    | with_reducible refine Within.onlyIf ?_
    | with_reducible refine Within.each fun _ => ?_
    | with_reducible refine Within.mapEach fun _ => ?_
    | split
    | dsimp only

theorem spillEntry_within {e : Entry} : Within [.outbox, .mem, .bad, .regs, .ctxs, .ddrs, .rc] (spillEntry e) := by
  unfold spillEntry
  repeat' first
    | with_reducible exact Within.pure _
    | with_reducible exact Within.rd _
    | (with_reducible refine Within.emit ?_); rfl
    | with_reducible exact count_within.of (by decide)
    | with_reducible exact ctxSync_within.of (by decide)
    | with_reducible exact reserveFlags_within.of (by decide)
    | with_reducible exact store_within.of (by decide)
    | with_reducible refine Within.bind ?_ fun _ => ?_
    | with_reducible refine Within.onlyIf ?_
    | with_reducible refine Within.each fun _ => ?_
    | with_reducible refine Within.mapEach fun _ => ?_
    | split
    | dsimp only

theorem unlinkSlot_within {x : Nat} {i : Nat} : Within [.outbox, .mem, .bad, .regs, .ctxs, .ddrs, .rc] (unlinkSlot x i) := by
  unfold unlinkSlot
  repeat' first
    | with_reducible exact Within.pure _
    | with_reducible exact Within.rd _
    | with_reducible exact (modCtxs_within _ _).of (by decide)
    | with_reducible exact (modRc_within _).of (by decide)
    | with_reducible exact changeCtx_within.of (by decide)
    | with_reducible exact reserveFlags_within.of (by decide)
    | with_reducible exact store_within.of (by decide)
    | with_reducible refine Within.bind ?_ fun _ => ?_
    | with_reducible refine Within.onlyIf ?_
    | with_reducible refine Within.each fun _ => ?_
    | with_reducible refine Within.mapEach fun _ => ?_
    | split
    | dsimp only

theorem makeRoom_within {b : Nat} : Within [.outbox, .mem, .bad, .regs, .ctxs, .banks, .ddrs, .rc] (makeRoom b) := by
  unfold makeRoom
  repeat' first
    | with_reducible exact Within.pure _
    | with_reducible exact Within.rd _
    | (with_reducible refine Within.emit ?_); rfl
    | with_reducible exact spillEntry_within.of (by decide)
    | with_reducible refine Within.bind ?_ fun _ => ?_
    | with_reducible refine Within.onlyIf ?_
    | with_reducible refine Within.each fun _ => ?_
    | with_reducible refine Within.mapEach fun _ => ?_
    | split
    | dsimp only

theorem stopBank_within {b : Nat} : Within [.outbox, .regs, .banks] (stopBank b) := by
  unfold stopBank
  repeat' first
    | with_reducible exact Within.pure _
    | with_reducible exact Within.rd _
    | with_reducible exact (modBanks_within _ _).of (by decide)
    | with_reducible exact sticky_within.of (by decide)
    | with_reducible refine Within.bind ?_ fun _ => ?_
    | with_reducible refine Within.onlyIf ?_
    | with_reducible refine Within.each fun _ => ?_
    | with_reducible refine Within.mapEach fun _ => ?_
    | split
    | dsimp only

theorem putEntry_within {b : Nat} {e : Entry} : Within [.outbox, .mem, .bad, .regs, .ctxs, .banks, .ddrs, .rc] (putEntry b e) := by
  unfold putEntry
  repeat' first
    | with_reducible exact Within.pure _
    | with_reducible exact Within.rd _
    | with_reducible exact (modBanks_within _ _).of (by decide)
    | with_reducible exact changeCtx_within.of (by decide)
    | with_reducible exact makeRoom_within.of (by decide)
    | with_reducible refine Within.bind ?_ fun _ => ?_
    | with_reducible refine Within.onlyIf ?_
    | with_reducible refine Within.each fun _ => ?_
    | with_reducible refine Within.mapEach fun _ => ?_
    | split
    | dsimp only

theorem dropEntry_within {b : Nat} {e : Entry} : Within [.mem, .bad, .ctxs, .banks, .ddrs] (dropEntry b e) := by
  unfold dropEntry
  repeat' first
    | with_reducible exact Within.pure _
    | with_reducible exact Within.rd _
    | with_reducible exact (modBanks_within _ _).of (by decide)
    | with_reducible exact changeCtx_within.of (by decide)
    | with_reducible refine Within.bind ?_ fun _ => ?_
    | with_reducible refine Within.onlyIf ?_
    | with_reducible refine Within.each fun _ => ?_
    | with_reducible refine Within.mapEach fun _ => ?_
    | split
    | dsimp only

theorem setEntry_within {b : Nat} {e : Entry} : Within [.banks] (setEntry b e) := by
  unfold setEntry
  repeat' first
    | with_reducible exact Within.pure _
    | with_reducible exact Within.rd _
    | with_reducible exact (modBanks_within _ _).of (by decide)
    | with_reducible refine Within.bind ?_ fun _ => ?_
    | with_reducible refine Within.onlyIf ?_
    | with_reducible refine Within.each fun _ => ?_
    | with_reducible refine Within.mapEach fun _ => ?_
    | split
    | dsimp only

theorem acceptToken_within {x : Nat} : Within [.free, .outbox, .mem, .bad, .regs, .delay, .ctxs, .ddrs, .sq, .rc, .fc] (acceptToken x) := by
  unfold acceptToken
  repeat' first
    | with_reducible exact Within.pure _
    | with_reducible exact Within.rd _
    | with_reducible exact (modCtxs_within _ _).of (by decide)
    | with_reducible exact cancelPark_within.of (by decide)
    | with_reducible exact count_within.of (by decide)
    | with_reducible exact unstore_within.of (by decide)
    | with_reducible refine Within.bind ?_ fun _ => ?_
    | with_reducible refine Within.onlyIf ?_
    | with_reducible refine Within.each fun _ => ?_
    | with_reducible refine Within.mapEach fun _ => ?_
    | split
    | dsimp only

theorem fireEntry_within {b : Nat} {e : Entry} : Within [.free, .outbox, .mem, .bad, .regs, .acts, .ready, .delay, .ctxs, .banks, .fuq, .ddrs, .sq, .rc, .cw, .fc] (fireEntry b e) := by
  unfold fireEntry
  repeat' first
    | with_reducible exact Within.pure _
    | with_reducible exact Within.rd _
    | with_reducible exact dropEntry_within.of (by decide)
    | with_reducible exact fireNode_within.of (by decide)
    | with_reducible exact noteShort_within.of (by decide)
    | with_reducible exact setEntry_within.of (by decide)
    | with_reducible refine Within.bind ?_ fun _ => ?_
    | with_reducible refine Within.onlyIf ?_
    | with_reducible refine Within.each fun _ => ?_
    | with_reducible refine Within.mapEach fun _ => ?_
    | split
    | dsimp only

theorem joinEntry_within {b : Nat} {e : Entry} {t : Token} : Within [.free, .outbox, .mem, .bad, .regs, .acts, .ready, .delay, .ctxs, .banks, .fuq, .ddrs, .sq, .rc, .cw, .fc] (joinEntry b e t) := by
  unfold joinEntry
  repeat' first
    | with_reducible exact Within.pure _
    | with_reducible exact Within.rd _
    | with_reducible exact count_within.of (by decide)
    | with_reducible exact dropEntry_within.of (by decide)
    | with_reducible exact fireEntry_within.of (by decide)
    | with_reducible exact setEntry_within.of (by decide)
    | with_reducible refine Within.bind ?_ fun _ => ?_
    | with_reducible refine Within.onlyIf ?_
    | with_reducible refine Within.each fun _ => ?_
    | with_reducible refine Within.mapEach fun _ => ?_
    | split
    | dsimp only

theorem firstToken_within {b : Nat} {t : Token} {pop : M Unit} {qs : List StatePart} (hs : [.free, .outbox, .mem, .bad, .regs, .acts, .ready, .delay, .ctxs, .banks, .fuq, .ddrs, .sq, .rc, .cw, .fc].all qs.contains = true) (h0 : Within qs (pop)) : Within qs (firstToken b t pop) := by
  unfold firstToken
  repeat' first
    | with_reducible exact Within.pure _
    | with_reducible exact Within.rd _
    | with_reducible exact h0
    | with_reducible exact (modRc_within _).of (parts_trans (by decide) hs)
    | with_reducible exact acceptToken_within.of (parts_trans (by decide) hs)
    | with_reducible exact fireEntry_within.of (parts_trans (by decide) hs)
    | with_reducible exact fireNode_within.of (parts_trans (by decide) hs)
    | with_reducible exact putEntry_within.of (parts_trans (by decide) hs)
    | with_reducible exact stopBank_within.of (parts_trans (by decide) hs)
    | with_reducible refine Within.bind ?_ fun _ => ?_
    | with_reducible refine Within.onlyIf ?_
    | with_reducible refine Within.each fun _ => ?_
    | with_reducible refine Within.mapEach fun _ => ?_
    | split
    | dsimp only

theorem tokenArriveM_within {b : Nat} : Within [.free, .outbox, .mem, .bad, .regs, .acts, .ready, .delay, .ctxs, .banks, .fuq, .engines, .dir, .ddrs, .sq, .rc, .cw, .ring, .fc] (tokenArriveM b) := by
  unfold tokenArriveM
  repeat' first
    | with_reducible exact Within.pure _
    | with_reducible exact Within.rd _
    | with_reducible exact (modBanks_within _ _).of (by decide)
    | with_reducible exact acceptToken_within.of (by decide)
    | with_reducible exact count_within.of (by decide)
    | with_reducible exact event_within.of (by decide)
    | with_reducible refine firstToken_within (by decide) ?_
    | with_reducible exact joinEntry_within.of (by decide)
    | with_reducible exact pump_within.of (by decide)
    | with_reducible exact wantAbandon_within.of (by decide)
    | with_reducible refine withRecord_within (by decide) ?_
    | with_reducible refine Within.bind ?_ fun _ => ?_
    | with_reducible refine Within.onlyIf ?_
    | with_reducible refine Within.each fun _ => ?_
    | with_reducible refine Within.mapEach fun _ => ?_
    | split
    | dsimp only

theorem execTokenArrive_within {b : Nat} {s : State} : Effect [.free, .outbox, .mem, .bad, .regs, .acts, .ready, .delay, .ctxs, .banks, .fuq, .engines, .dir, .ddrs, .sq, .rc, .cw, .ring, .fc] (execTokenArrive b s) s := by
  unfold execTokenArrive
  refine Within.effect ?_ _
  repeat' first
    | with_reducible exact Within.pure _
    | with_reducible exact Within.rd _
    | with_reducible exact tokenArriveM_within.of (by decide)
    | with_reducible refine Within.bind ?_ fun _ => ?_
    | with_reducible refine Within.onlyIf ?_
    | with_reducible refine Within.each fun _ => ?_
    | with_reducible refine Within.mapEach fun _ => ?_
    | split
    | dsimp only

theorem badSlot_within {b : Nat} {x : Nat} {i : Nat} : Within [.free, .outbox, .mem, .bad, .regs, .ctxs, .ddrs, .rc, .fc] (badSlot b x i) := by
  unfold badSlot
  repeat' first
    | with_reducible exact Within.pure _
    | with_reducible exact Within.rd _
    | with_reducible exact report_within.of (by decide)
    | with_reducible exact reportBad_within.of (by decide)
    | with_reducible exact unlinkSlot_within.of (by decide)
    | with_reducible exact wantAbandon_within.of (by decide)
    | with_reducible refine Within.bind ?_ fun _ => ?_
    | with_reducible refine Within.onlyIf ?_
    | with_reducible refine Within.each fun _ => ?_
    | with_reducible refine Within.mapEach fun _ => ?_
    | split
    | dsimp only

theorem execSpillRefill_within {b : Nat} {s : State} : Effect [.free, .outbox, .mem, .bad, .regs, .ctxs, .banks, .ddrs, .rc, .fc] (execSpillRefill b s) s := by
  unfold execSpillRefill
  refine Within.effect ?_ _
  repeat' first
    | with_reducible exact Within.pure _
    | with_reducible exact Within.rd _
    | with_reducible exact badSlot_within.of (by decide)
    | with_reducible exact count_within.of (by decide)
    | with_reducible exact putEntry_within.of (by decide)
    | with_reducible exact stopBank_within.of (by decide)
    | with_reducible exact touch_within.of (by decide)
    | with_reducible exact unlinkSlot_within.of (by decide)
    | with_reducible refine Within.bind ?_ fun _ => ?_
    | with_reducible refine Within.onlyIf ?_
    | with_reducible refine Within.each fun _ => ?_
    | with_reducible refine Within.mapEach fun _ => ?_
    | split
    | dsimp only

theorem fireReady_within {b : Nat} {e : Entry} : Within [.free, .outbox, .mem, .bad, .regs, .acts, .ready, .delay, .ctxs, .banks, .fuq, .ddrs, .sq, .rc, .cw, .fc] (fireReady b e) := by
  unfold fireReady
  repeat' first
    | with_reducible exact Within.pure _
    | with_reducible exact Within.rd _
    | with_reducible exact fireEntry_within.of (by decide)
    | with_reducible refine withRecord_within (by decide) ?_
    | with_reducible refine Within.bind ?_ fun _ => ?_
    | with_reducible refine Within.onlyIf ?_
    | with_reducible refine Within.each fun _ => ?_
    | with_reducible refine Within.mapEach fun _ => ?_
    | split
    | dsimp only

theorem execReadyFire_within {b : Nat} {s : State} : Effect [.free, .outbox, .mem, .bad, .regs, .acts, .ready, .delay, .ctxs, .banks, .fuq, .engines, .dir, .ddrs, .sq, .rc, .cw, .ring, .fc] (execReadyFire b s) s := by
  unfold execReadyFire
  refine Within.effect ?_ _
  repeat' first
    | with_reducible exact Within.pure _
    | with_reducible exact Within.rd _
    | with_reducible exact badSlot_within.of (by decide)
    | with_reducible exact count_within.of (by decide)
    | with_reducible exact fireReady_within.of (by decide)
    | with_reducible exact pump_within.of (by decide)
    | with_reducible exact putEntry_within.of (by decide)
    | with_reducible exact touch_within.of (by decide)
    | with_reducible exact unlinkSlot_within.of (by decide)
    | with_reducible refine Within.bind ?_ fun _ => ?_
    | with_reducible refine Within.onlyIf ?_
    | with_reducible refine Within.each fun _ => ?_
    | with_reducible refine Within.mapEach fun _ => ?_
    | split
    | dsimp only

theorem execBankResume_within {b : Nat} {s : State} : Effect [.banks] (execBankResume b s) s := by
  unfold execBankResume
  refine Within.effect ?_ _
  repeat' first
    | with_reducible exact Within.pure _
    | with_reducible exact Within.rd _
    | with_reducible exact (modBanks_within _ _).of (by decide)
    | with_reducible refine Within.bind ?_ fun _ => ?_
    | with_reducible refine Within.onlyIf ?_
    | with_reducible refine Within.each fun _ => ?_
    | with_reducible refine Within.mapEach fun _ => ?_
    | split
    | dsimp only

end Sys2Proof.Machine
end

