-- ==== Sys2Proof/Laws/WithinTables.lean ====
section
/-! SUPPORT. Which parts of the state the programs of Machine/Tables.lean change. -/

set_option linter.all false
set_option Elab.async false

namespace Sys2Proof.Machine

theorem engineRead_within {n : Nat} {d : TableDesc} {a : Nat} {len : Nat} {urgent : Bool} : Within [.free, .outbox, .regs, .engines, .ddrs, .fc] (engineRead n d a len urgent) := by
  unfold engineRead
  repeat' first
    | with_reducible exact Within.pure _
    | with_reducible exact Within.rd _
    | with_reducible exact (modEngines_within _ _).of (by decide)
    | with_reducible exact count_within.of (by decide)
    | with_reducible exact countBy_within.of (by decide)
    | with_reducible exact draw_within.of (by decide)
    | with_reducible exact report_within.of (by decide)
    | with_reducible exact touchRow_within.of (by decide)
    | with_reducible refine Within.bind ?_ fun _ => ?_
    | with_reducible refine Within.onlyIf ?_
    | with_reducible refine Within.each fun _ => ?_
    | with_reducible refine Within.mapEach fun _ => ?_
    | split
    | dsimp only

theorem logWrite_within {n : Nat} {seq : Nat} : Within [.ddrs] (logWrite n seq) := by
  unfold logWrite
  repeat' first
    | with_reducible exact Within.pure _
    | with_reducible exact Within.rd _
    | with_reducible exact ddrRequest_within.of (by decide)
    | with_reducible refine Within.bind ?_ fun _ => ?_
    | with_reducible refine Within.onlyIf ?_
    | with_reducible refine Within.each fun _ => ?_
    | with_reducible refine Within.mapEach fun _ => ?_
    | split
    | dsimp only

theorem logRecord_within {n : Nat} {t : Nat} {d : TableDesc} {b : LogBody} : Within [.engines, .ddrs] (logRecord n t d b) := by
  unfold logRecord
  repeat' first
    | with_reducible exact Within.pure _
    | with_reducible exact Within.rd _
    | with_reducible exact (modEngines_within _ _).of (by decide)
    | with_reducible exact logWrite_within.of (by decide)
    | with_reducible refine Within.bind ?_ fun _ => ?_
    | with_reducible refine Within.onlyIf ?_
    | with_reducible refine Within.each fun _ => ?_
    | with_reducible refine Within.mapEach fun _ => ?_
    | split
    | dsimp only

theorem logDone_within {n : Nat} {q : Nat} : Within [.engines, .ddrs] (logDone n q) := by
  unfold logDone
  repeat' first
    | with_reducible exact Within.pure _
    | with_reducible exact Within.rd _
    | with_reducible exact (modEngines_within _ _).of (by decide)
    | with_reducible exact logWrite_within.of (by decide)
    | with_reducible refine Within.bind ?_ fun _ => ?_
    | with_reducible refine Within.onlyIf ?_
    | with_reducible refine Within.each fun _ => ?_
    | with_reducible refine Within.mapEach fun _ => ?_
    | split
    | dsimp only

theorem logMoved_within {m : Move} : Within [.engines, .ddrs] (logMoved m) := by
  unfold logMoved
  repeat' first
    | with_reducible exact Within.pure _
    | with_reducible exact Within.rd _
    | with_reducible exact logDone_within.of (by decide)
    | with_reducible refine Within.bind ?_ fun _ => ?_
    | with_reducible refine Within.onlyIf ?_
    | with_reducible refine Within.each fun _ => ?_
    | with_reducible refine Within.mapEach fun _ => ?_
    | split
    | dsimp only

theorem writeCopies_within {n : Nat} {d : TableDesc} {a : Nat} {e : List Byte} : Within [.mem, .bad, .engines, .ddrs] (writeCopies n d a e) := by
  unfold writeCopies
  repeat' first
    | with_reducible exact Within.pure _
    | with_reducible exact Within.rd _
    | with_reducible exact (modEngines_within _ _).of (by decide)
    | with_reducible exact engineStore_within.of (by decide)
    | with_reducible refine Within.bind ?_ fun _ => ?_
    | with_reducible refine Within.onlyIf ?_
    | with_reducible refine Within.each fun _ => ?_
    | with_reducible refine Within.mapEach fun _ => ?_
    | split
    | dsimp only

theorem writeEntry_within {n : Nat} {t : Nat} {d : TableDesc} {a : Nat} {e : List Byte} : Within [.mem, .bad, .engines, .ddrs] (writeEntry n t d a e) := by
  unfold writeEntry
  repeat' first
    | with_reducible exact Within.pure _
    | with_reducible exact Within.rd _
    | with_reducible exact logDone_within.of (by decide)
    | with_reducible exact logRecord_within.of (by decide)
    | with_reducible exact writeCopies_within.of (by decide)
    | with_reducible refine Within.bind ?_ fun _ => ?_
    | with_reducible refine Within.onlyIf ?_
    | with_reducible refine Within.each fun _ => ?_
    | with_reducible refine Within.mapEach fun _ => ?_
    | split
    | dsimp only

theorem readMarks_within {n : Nat} {d : TableDesc} {t : Nat} {a : Nat} : Within [.free, .outbox, .mem, .bad, .regs, .ddrs, .fc] (readMarks n d t a) := by
  unfold readMarks
  repeat' first
    | with_reducible exact Within.pure _
    | with_reducible exact Within.rd _
    | with_reducible exact count_within.of (by decide)
    | with_reducible exact engineStore_within.of (by decide)
    | with_reducible exact report_within.of (by decide)
    | with_reducible exact reportBads_within.of (by decide)
    | with_reducible exact sticky_within.of (by decide)
    | with_reducible refine Within.bind ?_ fun _ => ?_
    | with_reducible refine Within.onlyIf ?_
    | with_reducible refine Within.each fun _ => ?_
    | with_reducible refine Within.mapEach fun _ => ?_
    | split
    | dsimp only

theorem learnNotice_within {n : Nat} {kind : Nat} {d : TableDesc} {t : Nat} {key : Nat} {victim : List Byte} : Within [.outbox, .mem, .bad, .regs, .engines, .ddrs] (learnNotice n kind d t key victim) := by
  unfold learnNotice
  repeat' first
    | with_reducible exact Within.pure _
    | with_reducible exact Within.rd _
    | with_reducible exact (modEngines_within _ _).of (by decide)
    | with_reducible exact count_within.of (by decide)
    | with_reducible exact event_within.of (by decide)
    | with_reducible exact setFld_within.of (by decide)
    | with_reducible exact sticky_within.of (by decide)
    | with_reducible exact store_within.of (by decide)
    | with_reducible refine Within.bind ?_ fun _ => ?_
    | with_reducible refine Within.onlyIf ?_
    | with_reducible refine Within.each fun _ => ?_
    | with_reducible refine Within.mapEach fun _ => ?_
    | split
    | dsimp only

theorem learnMiss_within {n : Nat} {d : TableDesc} {t : Nat} {key : Nat} : Within [.outbox, .mem, .bad, .regs, .engines, .ddrs] (learnMiss n d t key) := by
  unfold learnMiss
  repeat' first
    | with_reducible exact Within.pure _
    | with_reducible exact Within.rd _
    | with_reducible exact (modEngines_within _ _).of (by decide)
    | with_reducible exact count_within.of (by decide)
    | with_reducible exact learnNotice_within.of (by decide)
    | with_reducible refine Within.bind ?_ fun _ => ?_
    | with_reducible refine Within.onlyIf ?_
    | with_reducible refine Within.each fun _ => ?_
    | with_reducible refine Within.mapEach fun _ => ?_
    | split
    | dsimp only

theorem engineReads_within {n : Nat} {d : TableDesc} {l : List (Nat × Nat)} {urgent : Bool} : Within [.free, .outbox, .regs, .engines, .ddrs, .fc] (engineReads n d l urgent) := by
  unfold engineReads
  repeat' first
    | with_reducible exact Within.pure _
    | with_reducible exact Within.rd _
    | with_reducible exact engineRead_within.of (by decide)
    | with_reducible refine Within.bind ?_ fun _ => ?_
    | with_reducible refine Within.onlyIf ?_
    | with_reducible refine Within.each fun _ => ?_
    | with_reducible refine Within.mapEach fun _ => ?_
    | split
    | dsimp only

theorem lookupStart_within {n : Nat} {l : Lookup} : Within [.free, .outbox, .regs, .engines, .ddrs, .fc] (lookupStart n l) := by
  unfold lookupStart
  repeat' first
    | with_reducible exact Within.pure _
    | with_reducible exact Within.rd _
    | with_reducible exact engineReads_within.of (by decide)
    | with_reducible refine Within.bind ?_ fun _ => ?_
    | with_reducible refine Within.onlyIf ?_
    | with_reducible refine Within.each fun _ => ?_
    | with_reducible refine Within.mapEach fun _ => ?_
    | split
    | dsimp only

theorem execTableLookup_within {n : Nat} {s : State} : Effect [.free, .outbox, .regs, .engines, .ddrs, .fc] (execTableLookup n s) s := by
  unfold execTableLookup
  refine Within.effect ?_ _
  repeat' first
    | with_reducible exact Within.pure _
    | with_reducible exact Within.rd _
    | with_reducible exact (modEngines_within _ _).of (by decide)
    | with_reducible exact count_within.of (by decide)
    | with_reducible exact lookupStart_within.of (by decide)
    | with_reducible refine Within.bind ?_ fun _ => ?_
    | with_reducible refine Within.onlyIf ?_
    | with_reducible refine Within.each fun _ => ?_
    | with_reducible refine Within.mapEach fun _ => ?_
    | split
    | dsimp only

theorem requestDone_within {x : Nat} {cgen : Nat} : Within [.mem, .bad, .ctxs, .ddrs] (requestDone x cgen) := by
  unfold requestDone
  repeat' first
    | with_reducible exact Within.pure _
    | with_reducible exact Within.rd _
    | with_reducible exact changeCtx_within.of (by decide)
    | with_reducible refine Within.bind ?_ fun _ => ?_
    | with_reducible refine Within.onlyIf ?_
    | with_reducible refine Within.each fun _ => ?_
    | with_reducible refine Within.mapEach fun _ => ?_
    | split
    | dsimp only

theorem lookupReads_within {n : Nat} {i : Nat} {l : Lookup} : Within [.free, .outbox, .regs, .engines, .ddrs, .fc] (lookupReads n i l) := by
  unfold lookupReads
  repeat' first
    | with_reducible exact Within.pure _
    | with_reducible exact Within.rd _
    | with_reducible exact (modEngines_within _ _).of (by decide)
    | with_reducible exact engineReads_within.of (by decide)
    | with_reducible refine Within.bind ?_ fun _ => ?_
    | with_reducible refine Within.onlyIf ?_
    | with_reducible refine Within.each fun _ => ?_
    | with_reducible refine Within.mapEach fun _ => ?_
    | split
    | dsimp only

theorem lookupMarks_within {n : Nat} {l : Lookup} : Within [.free, .outbox, .mem, .bad, .regs, .ddrs, .fc] (lookupMarks n l) := by
  unfold lookupMarks
  repeat' first
    | with_reducible exact Within.pure _
    | with_reducible exact Within.rd _
    | with_reducible exact readMarks_within.of (by decide)
    | with_reducible refine Within.bind ?_ fun _ => ?_
    | with_reducible refine Within.onlyIf ?_
    | with_reducible refine Within.each fun _ => ?_
    | with_reducible refine Within.mapEach fun _ => ?_
    | split
    | dsimp only

theorem lookupEnd_within {n : Nat} {i : Nat} {l : Lookup} : Within [.free, .outbox, .mem, .bad, .regs, .ctxs, .banks, .engines, .ddrs, .rc, .fc] (lookupEnd n i l) := by
  unfold lookupEnd
  repeat' first
    | with_reducible exact Within.pure _
    | with_reducible exact Within.rd _
    | with_reducible exact (modEngines_within _ _).of (by decide)
    | with_reducible exact (modFree_within _).of (by decide)
    | with_reducible exact count_within.of (by decide)
    | with_reducible exact learnMiss_within.of (by decide)
    | with_reducible exact lookupMarks_within.of (by decide)
    | with_reducible exact pushToken_within.of (by decide)
    | with_reducible exact requestDone_within.of (by decide)
    | with_reducible exact store_within.of (by decide)
    | with_reducible exact wantAbandon_within.of (by decide)
    | with_reducible exact writeEntry_within.of (by decide)
    | with_reducible refine Within.bind ?_ fun _ => ?_
    | with_reducible refine Within.onlyIf ?_
    | with_reducible refine Within.each fun _ => ?_
    | with_reducible refine Within.mapEach fun _ => ?_
    | split
    | dsimp only

theorem execLookupResult_within {n : Nat} {i : Nat} {s : State} : Effect [.free, .outbox, .mem, .bad, .regs, .ctxs, .banks, .fuq, .engines, .dir, .ddrs, .rc, .ring, .fc] (execLookupResult n i s) s := by
  unfold execLookupResult
  refine Within.effect ?_ _
  repeat' first
    | with_reducible exact Within.pure _
    | with_reducible exact Within.rd _
    | with_reducible exact lookupEnd_within.of (by decide)
    | with_reducible exact lookupReads_within.of (by decide)
    | with_reducible exact pump_within.of (by decide)
    | with_reducible refine Answers.pure ?_
    | with_reducible refine Answers.bind ?_ fun _ => ?_
    | with_reducible exact Within.afterAns
    | with_reducible exact Within.afterData
    | with_reducible refine Within.bind ?_ fun _ => ?_
    | with_reducible refine Within.onlyIf ?_
    | with_reducible refine Within.each fun _ => ?_
    | with_reducible refine Within.mapEach fun _ => ?_
    | split
    | dsimp only

theorem doMove_within {n : Nat} {t : Nat} {d : TableDesc} {m : Move} : Within [.free, .outbox, .mem, .bad, .regs, .engines, .ddrs, .fc] (doMove n t d m) := by
  unfold doMove
  repeat' first
    | with_reducible exact Within.pure _
    | with_reducible exact Within.rd _
    | with_reducible exact (modEngines_within _ _).of (by decide)
    | with_reducible exact count_within.of (by decide)
    | with_reducible exact countBy_within.of (by decide)
    | with_reducible exact engineRead_within.of (by decide)
    | with_reducible exact writeCopies_within.of (by decide)
    | with_reducible refine Within.bind ?_ fun _ => ?_
    | with_reducible refine Within.onlyIf ?_
    | with_reducible refine Within.each fun _ => ?_
    | with_reducible refine Within.mapEach fun _ => ?_
    | split
    | dsimp only

theorem loggedMove_within {n : Nat} {t : Nat} {d : TableDesc} {m : Move} : Within [.free, .outbox, .mem, .bad, .regs, .engines, .ddrs, .fc] (loggedMove n t d m) := by
  unfold loggedMove
  repeat' first
    | with_reducible exact Within.pure _
    | with_reducible exact Within.rd _
    | with_reducible exact doMove_within.of (by decide)
    | with_reducible exact logDone_within.of (by decide)
    | with_reducible exact logRecord_within.of (by decide)
    | with_reducible refine Within.bind ?_ fun _ => ?_
    | with_reducible refine Within.onlyIf ?_
    | with_reducible refine Within.each fun _ => ?_
    | with_reducible refine Within.mapEach fun _ => ?_
    | split
    | dsimp only

theorem insertKey_within {n : Nat} {t : Nat} {d : TableDesc} {key : Nat} {data : List Byte} {journal : Bool} : Within [.free, .outbox, .mem, .bad, .regs, .engines, .ddrs, .fc] (insertKey n t d key data journal) := by
  unfold insertKey
  repeat' first
    | with_reducible exact Within.pure _
    | with_reducible exact Within.rd _
    | with_reducible exact count_within.of (by decide)
    | with_reducible exact draw_within.of (by decide)
    | with_reducible exact engineReads_within.of (by decide)
    | with_reducible exact learnNotice_within.of (by decide)
    | with_reducible exact loggedMove_within.of (by decide)
    | with_reducible exact writeEntry_within.of (by decide)
    | with_reducible refine Within.bind ?_ fun _ => ?_
    | with_reducible refine Within.onlyIf ?_
    | with_reducible refine Within.each fun _ => ?_
    | with_reducible refine Within.mapEach fun _ => ?_
    | split
    | dsimp only

theorem quiet_within  {p : M Unit} {qs : List StatePart} (h0 : Within qs (p)) : Within qs (quiet p) := by
  unfold quiet
  repeat' first
    | with_reducible exact Within.pure _
    | with_reducible exact Within.rd _
    | with_reducible exact h0
    | with_reducible refine Within.bind ?_ fun _ => ?_
    | with_reducible refine Within.onlyIf ?_
    | with_reducible refine Within.each fun _ => ?_
    | with_reducible refine Within.mapEach fun _ => ?_
    | split
    | dsimp only

theorem tableReads_within {n : Nat} {op : Nat} {t : Nat} {d : TableDesc} {key : Nat} : Within [.free, .outbox, .regs, .engines, .ddrs, .fc] (tableReads n op t d key) := by
  unfold tableReads
  repeat' first
    | with_reducible exact Within.pure _
    | with_reducible exact Within.rd _
    | with_reducible exact engineReads_within.of (by decide)
    | with_reducible refine Within.bind ?_ fun _ => ?_
    | with_reducible refine Within.onlyIf ?_
    | with_reducible refine Within.each fun _ => ?_
    | with_reducible refine Within.mapEach fun _ => ?_
    | split
    | dsimp only

theorem putKey_within {n : Nat} {t : Nat} {d : TableDesc} {key : Nat} {data : List Byte} : Within [.free, .outbox, .mem, .bad, .regs, .engines, .ddrs, .fc] (putKey n t d key data) := by
  unfold putKey
  repeat' first
    | with_reducible exact Within.pure _
    | with_reducible exact Within.rd _
    | with_reducible exact insertKey_within.of (by decide)
    | with_reducible exact readMarks_within.of (by decide)
    | with_reducible exact tableReads_within.of (by decide)
    | with_reducible exact writeEntry_within.of (by decide)
    | with_reducible refine Within.bind ?_ fun _ => ?_
    | with_reducible refine Within.onlyIf ?_
    | with_reducible refine Within.each fun _ => ?_
    | with_reducible refine Within.mapEach fun _ => ?_
    | split
    | dsimp only

theorem deleteKey_within {n : Nat} {t : Nat} {d : TableDesc} {key : Nat} : Within [.free, .outbox, .mem, .bad, .regs, .engines, .ddrs, .fc] (deleteKey n t d key) := by
  unfold deleteKey
  repeat' first
    | with_reducible exact Within.pure _
    | with_reducible exact Within.rd _
    | with_reducible exact readMarks_within.of (by decide)
    | with_reducible exact tableReads_within.of (by decide)
    | with_reducible exact writeEntry_within.of (by decide)
    | with_reducible refine Within.bind ?_ fun _ => ?_
    | with_reducible refine Within.onlyIf ?_
    | with_reducible refine Within.each fun _ => ?_
    | with_reducible refine Within.mapEach fun _ => ?_
    | split
    | dsimp only

theorem applyWrite_within {classroom : Nat} {w : TableWrite} : Within [.free, .outbox, .mem, .bad, .regs, .engines, .ddrs, .fc] (applyWrite classroom w) := by
  unfold applyWrite
  repeat' first
    | with_reducible exact Within.pure _
    | with_reducible exact Within.rd _
    | with_reducible exact count_within.of (by decide)
    | with_reducible exact deleteKey_within.of (by decide)
    | with_reducible exact engineRead_within.of (by decide)
    | with_reducible exact learnNotice_within.of (by decide)
    | with_reducible exact putKey_within.of (by decide)
    | with_reducible exact readMarks_within.of (by decide)
    | with_reducible exact writeEntry_within.of (by decide)
    | with_reducible refine Within.bind ?_ fun _ => ?_
    | with_reducible refine Within.onlyIf ?_
    | with_reducible refine Within.each fun _ => ?_
    | with_reducible refine Within.mapEach fun _ => ?_
    | split
    | dsimp only

theorem tableRecord_within {o : Origin} {action : Nat} {t : Nat} {d : TableDesc} {key : Nat} {old : List Byte} {new : List Byte} : Within [.outbox, .mem, .bad, .regs, .ddrs, .gb] (tableRecord o action t d key old new) := by
  unfold tableRecord
  repeat' first
    | with_reducible exact Within.pure _
    | with_reducible exact Within.rd _
    | with_reducible exact gbRecord_within.of (by decide)
    | with_reducible refine Within.bind ?_ fun _ => ?_
    | with_reducible refine Within.onlyIf ?_
    | with_reducible refine Within.each fun _ => ?_
    | with_reducible refine Within.mapEach fun _ => ?_
    | split
    | dsimp only

theorem tableInsert_within {o : Origin} {n : Nat} {t : Nat} {d : TableDesc} {k : Nat} {entry : List Byte} {slot : Option Nat} : Within [.free, .outbox, .mem, .bad, .regs, .engines, .ddrs, .gb, .fc] (tableInsert o n t d k entry slot) := by
  unfold tableInsert
  repeat' first
    | with_reducible exact Within.pure _
    | with_reducible exact Within.rd _
    | with_reducible exact count_within.of (by decide)
    | with_reducible exact insertKey_within.of (by decide)
    | with_reducible exact tableRecord_within.of (by decide)
    | with_reducible exact writeEntry_within.of (by decide)
    | with_reducible refine Within.bind ?_ fun _ => ?_
    | with_reducible refine Within.onlyIf ?_
    | with_reducible refine Within.each fun _ => ?_
    | with_reducible refine Within.mapEach fun _ => ?_
    | split
    | dsimp only

theorem tableOp_within {o : Origin} {n : Nat} {op : Nat} {t : Nat} {d : TableDesc} {key : Nat} {entry : List Byte} {replace : Bool} {slot : Option Nat} : Within [.free, .outbox, .mem, .bad, .regs, .engines, .ddrs, .gb, .fc] (tableOp o n op t d key entry replace slot) := by
  unfold tableOp
  repeat' first
    | with_reducible exact Within.pure _
    | with_reducible exact Within.rd _
    | with_reducible exact engineReads_within.of (by decide)
    | with_reducible exact readMarks_within.of (by decide)
    | with_reducible exact tableInsert_within.of (by decide)
    | with_reducible exact tableRecord_within.of (by decide)
    | with_reducible exact writeEntry_within.of (by decide)
    | with_reducible refine Within.bind ?_ fun _ => ?_
    | with_reducible refine Within.onlyIf ?_
    | with_reducible refine Within.each fun _ => ?_
    | with_reducible refine Within.mapEach fun _ => ?_
    | split
    | dsimp only

theorem setPort_within {n : Nat} {p : Nat} {c : Option PortCmd} : Within [.engines] (setPort n p c) := by
  unfold setPort
  repeat' first
    | with_reducible exact Within.pure _
    | with_reducible exact Within.rd _
    | with_reducible exact (modEngines_within _ _).of (by decide)
    | with_reducible refine Within.bind ?_ fun _ => ?_
    | with_reducible refine Within.onlyIf ?_
    | with_reducible refine Within.each fun _ => ?_
    | with_reducible refine Within.mapEach fun _ => ?_
    | split
    | dsimp only

theorem setPortData_within {n : Nat} {p : Nat} {data : List Byte} : Within [.regs] (setPortData n p data) := by
  unfold setPortData
  repeat' first
    | with_reducible exact Within.pure _
    | with_reducible exact Within.rd _
    | (with_reducible refine Within.emit ?_); rfl
    | with_reducible refine Within.bind ?_ fun _ => ?_
    | with_reducible refine Within.onlyIf ?_
    | with_reducible refine Within.each fun _ => ?_
    | with_reducible refine Within.mapEach fun _ => ?_
    | split
    | dsimp only

theorem setPortKey_within {n : Nat} {p : Nat} {key : Nat} : Within [.regs] (setPortKey n p key) := by
  unfold setPortKey
  repeat' first
    | with_reducible exact Within.pure _
    | with_reducible exact Within.rd _
    | (with_reducible refine Within.emit ?_); rfl
    | with_reducible refine Within.bind ?_ fun _ => ?_
    | with_reducible refine Within.onlyIf ?_
    | with_reducible refine Within.each fun _ => ?_
    | with_reducible refine Within.mapEach fun _ => ?_
    | split
    | dsimp only

theorem portEnd_within {n : Nat} {p : Nat} {st : Nat} {data : List Byte} : Within [.regs, .engines] (portEnd n p st data) := by
  unfold portEnd
  repeat' first
    | with_reducible exact Within.pure _
    | with_reducible exact Within.rd _
    | with_reducible exact setFld_within.of (by decide)
    | with_reducible exact setPort_within.of (by decide)
    | with_reducible exact setPortData_within.of (by decide)
    | with_reducible refine Within.bind ?_ fun _ => ?_
    | with_reducible refine Within.onlyIf ?_
    | with_reducible refine Within.each fun _ => ?_
    | with_reducible refine Within.mapEach fun _ => ?_
    | split
    | dsimp only

theorem portOverrun_within {n : Nat} {p : Nat} : Within [.outbox, .regs] (portOverrun n p) := by
  unfold portOverrun
  repeat' first
    | with_reducible exact Within.pure _
    | with_reducible exact Within.rd _
    | with_reducible exact setFld_within.of (by decide)
    | with_reducible exact sticky_within.of (by decide)
    | with_reducible refine Within.bind ?_ fun _ => ?_
    | with_reducible refine Within.onlyIf ?_
    | with_reducible refine Within.each fun _ => ?_
    | with_reducible refine Within.mapEach fun _ => ?_
    | split
    | dsimp only

theorem portChain_within {n : Nat} {p : Nat} {c : PortCmd} {m : Move} {ms : List Move} {slot : Nat} : Within [.free, .outbox, .regs, .engines, .ddrs, .fc] (portChain n p c m ms slot) := by
  unfold portChain
  repeat' first
    | with_reducible exact Within.pure _
    | with_reducible exact Within.rd _
    | with_reducible exact engineReads_within.of (by decide)
    | with_reducible exact logRecord_within.of (by decide)
    | with_reducible exact setPort_within.of (by decide)
    | with_reducible refine Within.bind ?_ fun _ => ?_
    | with_reducible refine Within.onlyIf ?_
    | with_reducible refine Within.each fun _ => ?_
    | with_reducible refine Within.mapEach fun _ => ?_
    | split
    | dsimp only

theorem portStart_within {o : Origin} {n : Nat} {p : Nat} {op : Nat} {t : Nat} : Within [.free, .outbox, .regs, .engines, .ddrs, .fc] (portStart o n p op t) := by
  unfold portStart
  repeat' first
    | with_reducible exact Within.pure _
    | with_reducible exact Within.rd _
    | with_reducible exact portChain_within.of (by decide)
    | with_reducible exact portOverrun_within.of (by decide)
    | with_reducible exact setFld_within.of (by decide)
    | with_reducible exact setPort_within.of (by decide)
    | with_reducible exact tableReads_within.of (by decide)
    | with_reducible refine Within.bind ?_ fun _ => ?_
    | with_reducible refine Within.onlyIf ?_
    | with_reducible refine Within.each fun _ => ?_
    | with_reducible refine Within.mapEach fun _ => ?_
    | split
    | dsimp only

theorem portMove_within {n : Nat} {p : Nat} {c : PortCmd} {m : Move} {rest : List Move} : Within [.free, .outbox, .mem, .bad, .regs, .engines, .ddrs, .fc] (portMove n p c m rest) := by
  unfold portMove
  repeat' first
    | with_reducible exact Within.pure _
    | with_reducible exact Within.rd _
    | with_reducible exact doMove_within.of (by decide)
    | with_reducible exact logMoved_within.of (by decide)
    | with_reducible exact logRecord_within.of (by decide)
    | with_reducible exact setPort_within.of (by decide)
    | with_reducible refine Within.bind ?_ fun _ => ?_
    | with_reducible refine Within.onlyIf ?_
    | with_reducible refine Within.each fun _ => ?_
    | with_reducible refine Within.mapEach fun _ => ?_
    | split
    | dsimp only

theorem execTableMove_within {n : Nat} {p : Nat} {s : State} : Effect [.free, .outbox, .mem, .bad, .regs, .engines, .ddrs, .fc] (execTableMove n p s) s := by
  unfold execTableMove
  refine Within.effect ?_ _
  repeat' first
    | with_reducible exact Within.pure _
    | with_reducible exact Within.rd _
    | with_reducible exact portMove_within.of (by decide)
    | with_reducible refine Within.bind ?_ fun _ => ?_
    | with_reducible refine Within.onlyIf ?_
    | with_reducible refine Within.each fun _ => ?_
    | with_reducible refine Within.mapEach fun _ => ?_
    | split
    | dsimp only

theorem execTeCmdDone_within {n : Nat} {p : Nat} {s : State} : Effect [.free, .outbox, .mem, .bad, .regs, .engines, .ddrs, .gb, .fc] (execTeCmdDone n p s) s := by
  unfold execTeCmdDone
  refine Within.effect ?_ _
  repeat' first
    | with_reducible exact Within.pure _
    | with_reducible exact Within.rd _
    | with_reducible exact portChain_within.of (by decide)
    | with_reducible exact portEnd_within.of (by decide)
    | with_reducible exact tableOp_within.of (by decide)
    | with_reducible refine Within.bind ?_ fun _ => ?_
    | with_reducible refine Within.onlyIf ?_
    | with_reducible refine Within.each fun _ => ?_
    | with_reducible refine Within.mapEach fun _ => ?_
    | split
    | dsimp only

theorem portOp_within {o : Origin} {op : Nat} {t : Nat} {d : TableDesc} {key : Nat} {entry : List Byte} {replace : Bool} : Within [.free, .outbox, .mem, .bad, .regs, .engines, .ddrs, .gb, .fc] (portOp o op t d key entry replace) := by
  unfold portOp
  repeat' first
    | with_reducible exact Within.pure _
    | with_reducible exact Within.rd _
    | with_reducible exact portEnd_within.of (by decide)
    | with_reducible exact setPortData_within.of (by decide)
    | with_reducible exact setPortKey_within.of (by decide)
    | with_reducible exact tableOp_within.of (by decide)
    | with_reducible exact tableReads_within.of (by decide)
    | with_reducible refine Within.bind ?_ fun _ => ?_
    | with_reducible refine Within.onlyIf ?_
    | with_reducible refine Within.each fun _ => ?_
    | with_reducible refine Within.mapEach fun _ => ?_
    | split
    | dsimp only

theorem copyLine_within {n : Nat} {dst : Nat} {src : Nat} : Within [.mem, .bad, .ddrs] (copyLine n dst src) := by
  unfold copyLine
  repeat' first
    | with_reducible exact Within.pure _
    | with_reducible exact Within.rd _
    | (with_reducible refine Within.emit ?_); rfl
    | with_reducible exact engineStore_within.of (by decide)
    | with_reducible refine Within.bind ?_ fun _ => ?_
    | with_reducible refine Within.onlyIf ?_
    | with_reducible refine Within.each fun _ => ?_
    | with_reducible refine Within.mapEach fun _ => ?_
    | split
    | dsimp only

theorem execMirrorResync_within {n : Nat} {s : State} : Effect [.mem, .bad, .engines, .ddrs] (execMirrorResync n s) s := by
  unfold execMirrorResync
  refine Within.effect ?_ _
  repeat' first
    | with_reducible exact Within.pure _
    | with_reducible exact Within.rd _
    | with_reducible exact (modEngines_within _ _).of (by decide)
    | with_reducible exact copyLine_within.of (by decide)
    | with_reducible exact touch_within.of (by decide)
    | with_reducible refine Within.bind ?_ fun _ => ?_
    | with_reducible refine Within.onlyIf ?_
    | with_reducible refine Within.each fun _ => ?_
    | with_reducible refine Within.mapEach fun _ => ?_
    | split
    | dsimp only

end Sys2Proof.Machine
end

