-- ==== Sys2Proof/Laws/WithinRing.lean ====
section
/-! SUPPORT. Which parts of the state the programs of Machine/Ring.lean change. -/

set_option linter.all false
set_option Elab.async false

namespace Sys2Proof.Machine

theorem linkSend_within {l : Nat} {f : RingFrame} : Within [.ringLinks] (linkSend l f) := by
  unfold linkSend
  repeat' first
    | with_reducible exact Within.pure _
    | with_reducible exact Within.rd _
    | with_reducible exact (modRingLinks_within _ _).of (by decide)
    | with_reducible refine Within.bind ?_ fun _ => ?_
    | with_reducible refine Within.onlyIf ?_
    | with_reducible refine Within.each fun _ => ?_
    | with_reducible refine Within.mapEach fun _ => ?_
    | split
    | dsimp only

theorem ringSend_within {d : Nat} {r : RingRec} : Within [.regs, .ringLinks] (ringSend d r) := by
  unfold ringSend
  repeat' first
    | with_reducible exact Within.pure _
    | with_reducible exact Within.rd _
    | with_reducible exact count_within.of (by decide)
    | with_reducible exact linkSend_within.of (by decide)
    | with_reducible refine Within.bind ?_ fun _ => ?_
    | with_reducible refine Within.onlyIf ?_
    | with_reducible refine Within.each fun _ => ?_
    | with_reducible refine Within.mapEach fun _ => ?_
    | split
    | dsimp only

theorem ringBroadcast_within {r : RingRec} : Within [.ringLinks, .ring] (ringBroadcast r) := by
  unfold ringBroadcast
  repeat' first
    | with_reducible exact Within.pure _
    | with_reducible exact Within.rd _
    | with_reducible exact (modRing_within _).of (by decide)
    | with_reducible exact linkSend_within.of (by decide)
    | with_reducible refine Within.bind ?_ fun _ => ?_
    | with_reducible refine Within.onlyIf ?_
    | with_reducible refine Within.each fun _ => ?_
    | with_reducible refine Within.mapEach fun _ => ?_
    | split
    | dsimp only

theorem announceTerm_within {slot : Nat} {epoch : Nat} : Within [.ringLinks, .ring] (announceTerm slot epoch) := by
  unfold announceTerm
  repeat' first
    | with_reducible exact Within.pure _
    | with_reducible exact Within.rd _
    | with_reducible exact ringBroadcast_within.of (by decide)
    | with_reducible refine Within.bind ?_ fun _ => ?_
    | with_reducible refine Within.onlyIf ?_
    | with_reducible refine Within.each fun _ => ?_
    | with_reducible refine Within.mapEach fun _ => ?_
    | split
    | dsimp only

theorem passOn_within {l : Nat} {f : RingFrame} : Within [.regs, .ringLinks] (passOn l f) := by
  unfold passOn
  repeat' first
    | with_reducible exact Within.pure _
    | with_reducible exact Within.rd _
    | with_reducible exact (modRingLinks_within _ _).of (by decide)
    | with_reducible exact count_within.of (by decide)
    | with_reducible refine Within.bind ?_ fun _ => ?_
    | with_reducible refine Within.onlyIf ?_
    | with_reducible refine Within.each fun _ => ?_
    | with_reducible refine Within.mapEach fun _ => ?_
    | split
    | dsimp only

theorem linkOut_within {l : Nat} : Within [.regs, .ringLinks, .ring] (linkOut l) := by
  unfold linkOut
  repeat' first
    | with_reducible exact Within.pure _
    | with_reducible exact Within.rd _
    | with_reducible exact (modRing_within _).of (by decide)
    | with_reducible exact (modRingLinks_within _ _).of (by decide)
    | with_reducible exact countBy_within.of (by decide)
    | with_reducible exact passOn_within.of (by decide)
    | with_reducible exact ringSend_within.of (by decide)
    | with_reducible refine Within.bind ?_ fun _ => ?_
    | with_reducible refine Within.onlyIf ?_
    | with_reducible refine Within.each fun _ => ?_
    | with_reducible refine Within.mapEach fun _ => ?_
    | split
    | dsimp only

theorem ringTrack_within  {p : M Unit} {qs : List StatePart} (hs : [.outbox, .regs, .ringLinks, .ring].all qs.contains = true) (h0 : Within qs (p)) : Within qs (ringTrack p) := by
  unfold ringTrack
  repeat' first
    | with_reducible exact Within.pure _
    | with_reducible exact Within.rd _
    | with_reducible exact h0
    | with_reducible exact linkOut_within.of (parts_trans (by decide) hs)
    | with_reducible exact sticky_within.of (parts_trans (by decide) hs)
    | with_reducible refine Within.bind ?_ fun _ => ?_
    | with_reducible refine Within.onlyIf ?_
    | with_reducible refine Within.each fun _ => ?_
    | with_reducible refine Within.mapEach fun _ => ?_
    | split
    | dsimp only

theorem linkFresh_within {l : Nat} : Within [.regs, .ringLinks] (linkFresh l) := by
  unfold linkFresh
  repeat' first
    | with_reducible exact Within.pure _
    | with_reducible exact Within.rd _
    | with_reducible exact (modRingLinks_within _ _).of (by decide)
    | with_reducible exact setFld_within.of (by decide)
    | with_reducible refine Within.bind ?_ fun _ => ?_
    | with_reducible refine Within.onlyIf ?_
    | with_reducible refine Within.each fun _ => ?_
    | with_reducible refine Within.mapEach fun _ => ?_
    | split
    | dsimp only

theorem linkDetained_within {l : Nat} : Within [.outbox, .regs, .ringLinks, .ring] (linkDetained l) := by
  unfold linkDetained
  repeat' first
    | with_reducible exact Within.pure _
    | with_reducible exact Within.rd _
    | with_reducible exact (modRingLinks_within _ _).of (by decide)
    | with_reducible exact linkFresh_within.of (by decide)
    | with_reducible refine ringTrack_within (by decide) ?_
    | with_reducible refine Within.bind ?_ fun _ => ?_
    | with_reducible refine Within.onlyIf ?_
    | with_reducible refine Within.each fun _ => ?_
    | with_reducible refine Within.mapEach fun _ => ?_
    | split
    | dsimp only

theorem linkAcked_within {l : Nat} {f : RingFrame} : Within [.ringLinks] (linkAcked l f) := by
  unfold linkAcked
  repeat' first
    | with_reducible exact Within.pure _
    | with_reducible exact Within.rd _
    | with_reducible exact (modRingLinks_within _ _).of (by decide)
    | with_reducible refine Within.bind ?_ fun _ => ?_
    | with_reducible refine Within.onlyIf ?_
    | with_reducible refine Within.each fun _ => ?_
    | with_reducible refine Within.mapEach fun _ => ?_
    | split
    | dsimp only

theorem takeRecs_within {l : Nat} {f : RingFrame} : Within [.ringLinks] (takeRecs l f) := by
  unfold takeRecs
  repeat' first
    | with_reducible exact Within.pure _
    | with_reducible exact Within.rd _
    | with_reducible exact (modRingLinks_within _ _).of (by decide)
    | with_reducible refine Within.bind ?_ fun _ => ?_
    | with_reducible refine Within.onlyIf ?_
    | with_reducible refine Within.each fun _ => ?_
    | with_reducible refine Within.mapEach fun _ => ?_
    | split
    | dsimp only

theorem takeBroadcast_within {l : Nat} {f : RingFrame} : Within [.regs, .ringLinks, .ring] (takeBroadcast l f) := by
  unfold takeBroadcast
  repeat' first
    | with_reducible exact Within.pure _
    | with_reducible exact Within.rd _
    | with_reducible exact (modRing_within _).of (by decide)
    | with_reducible exact passOn_within.of (by decide)
    | with_reducible exact takeRecs_within.of (by decide)
    | with_reducible refine Within.bind ?_ fun _ => ?_
    | with_reducible refine Within.onlyIf ?_
    | with_reducible refine Within.each fun _ => ?_
    | with_reducible refine Within.mapEach fun _ => ?_
    | split
    | dsimp only

theorem takeFrameOf_within {l : Nat} {f : RingFrame} : Within [.regs, .ringLinks, .ring] (takeFrameOf l f) := by
  unfold takeFrameOf
  repeat' first
    | with_reducible exact Within.pure _
    | with_reducible exact Within.rd _
    | with_reducible exact passOn_within.of (by decide)
    | with_reducible exact takeBroadcast_within.of (by decide)
    | with_reducible exact takeRecs_within.of (by decide)
    | with_reducible refine Within.bind ?_ fun _ => ?_
    | with_reducible refine Within.onlyIf ?_
    | with_reducible refine Within.each fun _ => ?_
    | with_reducible refine Within.mapEach fun _ => ?_
    | split
    | dsimp only

theorem ringGood_within {l : Nat} {f : RingFrame} : Within [.regs, .ringLinks, .ring] (ringGood l f) := by
  unfold ringGood
  repeat' first
    | with_reducible exact Within.pure _
    | with_reducible exact Within.rd _
    | with_reducible exact (modRingLinks_within _ _).of (by decide)
    | with_reducible exact linkAcked_within.of (by decide)
    | with_reducible exact setFld_within.of (by decide)
    | with_reducible exact takeFrameOf_within.of (by decide)
    | with_reducible exact takeRecs_within.of (by decide)
    | with_reducible refine Within.bind ?_ fun _ => ?_
    | with_reducible refine Within.onlyIf ?_
    | with_reducible refine Within.each fun _ => ?_
    | with_reducible refine Within.mapEach fun _ => ?_
    | split
    | dsimp only

theorem execRingFrameReceive_within {l : Nat} {bytes : List Byte} {pcsErr : Bool} {s : State} : Effect [.regs, .ringLinks, .ring] (execRingFrameReceive l bytes pcsErr s) s := by
  unfold execRingFrameReceive
  refine Within.effect ?_ _
  repeat' first
    | with_reducible exact Within.pure _
    | with_reducible exact Within.rd _
    | with_reducible exact count_within.of (by decide)
    | with_reducible exact countBy_within.of (by decide)
    | with_reducible exact passOn_within.of (by decide)
    | with_reducible exact ringGood_within.of (by decide)
    | with_reducible refine Within.bind ?_ fun _ => ?_
    | with_reducible refine Within.onlyIf ?_
    | with_reducible refine Within.each fun _ => ?_
    | with_reducible refine Within.mapEach fun _ => ?_
    | split
    | dsimp only

theorem ringEmit_within {l : Nat} {f : RingFrame} : Within [.outbox, .regs, .ringLinks] (ringEmit l f) := by
  unfold ringEmit
  repeat' first
    | with_reducible exact Within.pure _
    | with_reducible exact Within.rd _
    | with_reducible exact (modRingLinks_within _ _).of (by decide)
    | with_reducible exact count_within.of (by decide)
    | with_reducible exact send_within.of (by decide)
    | with_reducible refine Within.bind ?_ fun _ => ?_
    | with_reducible refine Within.onlyIf ?_
    | with_reducible refine Within.each fun _ => ?_
    | with_reducible refine Within.mapEach fun _ => ?_
    | split
    | dsimp only

theorem sendNew_within {l : Nat} {f : RingFrame} : Within [.outbox, .regs, .ringLinks] (sendNew l f) := by
  unfold sendNew
  repeat' first
    | with_reducible exact Within.pure _
    | with_reducible exact Within.rd _
    | with_reducible exact (modRingLinks_within _ _).of (by decide)
    | with_reducible exact ringEmit_within.of (by decide)
    | with_reducible refine Within.bind ?_ fun _ => ?_
    | with_reducible refine Within.onlyIf ?_
    | with_reducible refine Within.each fun _ => ?_
    | with_reducible refine Within.mapEach fun _ => ?_
    | split
    | dsimp only

theorem sendToken_within {l : Nat} {e : Nat × Token} {turned : Bool} : Within [.outbox, .regs, .ringLinks, .ring] (sendToken l e turned) := by
  unfold sendToken
  repeat' first
    | with_reducible exact Within.pure _
    | with_reducible exact Within.rd _
    | with_reducible exact (modRing_within _).of (by decide)
    | with_reducible exact sendNew_within.of (by decide)
    | with_reducible refine Within.bind ?_ fun _ => ?_
    | with_reducible refine Within.onlyIf ?_
    | with_reducible refine Within.each fun _ => ?_
    | with_reducible refine Within.mapEach fun _ => ?_
    | split
    | dsimp only

theorem sendNext_within {l : Nat} : Within [.outbox, .regs, .ringLinks, .ring] (sendNext l) := by
  unfold sendNext
  repeat' first
    | with_reducible exact Within.pure _
    | with_reducible exact Within.rd _
    | with_reducible exact (modRingLinks_within _ _).of (by decide)
    | with_reducible exact sendNew_within.of (by decide)
    | with_reducible exact sendToken_within.of (by decide)
    | with_reducible refine Within.bind ?_ fun _ => ?_
    | with_reducible refine Within.onlyIf ?_
    | with_reducible refine Within.each fun _ => ?_
    | with_reducible refine Within.mapEach fun _ => ?_
    | split
    | dsimp only

theorem forwardNext_within {l : Nat} : Within [.outbox, .regs, .ringLinks] (forwardNext l) := by
  unfold forwardNext
  repeat' first
    | with_reducible exact Within.pure _
    | with_reducible exact Within.rd _
    | with_reducible exact (modRingLinks_within _ _).of (by decide)
    | with_reducible exact sendNew_within.of (by decide)
    | with_reducible refine Within.bind ?_ fun _ => ?_
    | with_reducible refine Within.onlyIf ?_
    | with_reducible refine Within.each fun _ => ?_
    | with_reducible refine Within.mapEach fun _ => ?_
    | split
    | dsimp only

theorem resendNext_within {l : Nat} : Within [.outbox, .regs, .ringLinks] (resendNext l) := by
  unfold resendNext
  repeat' first
    | with_reducible exact Within.pure _
    | with_reducible exact Within.rd _
    | with_reducible exact (modRingLinks_within _ _).of (by decide)
    | with_reducible exact count_within.of (by decide)
    | with_reducible exact ringEmit_within.of (by decide)
    | with_reducible refine Within.bind ?_ fun _ => ?_
    | with_reducible refine Within.onlyIf ?_
    | with_reducible refine Within.each fun _ => ?_
    | with_reducible refine Within.mapEach fun _ => ?_
    | split
    | dsimp only

theorem execRingFrameTransmit_within {l : Nat} {s : State} : Effect [.outbox, .regs, .ringLinks, .ring] (execRingFrameTransmit l s) s := by
  unfold execRingFrameTransmit
  refine Within.effect ?_ _
  repeat' first
    | with_reducible exact Within.pure _
    | with_reducible exact Within.rd _
    | with_reducible exact (modRingLinks_within _ _).of (by decide)
    | with_reducible exact forwardNext_within.of (by decide)
    | with_reducible exact resendNext_within.of (by decide)
    | with_reducible exact ringEmit_within.of (by decide)
    | with_reducible exact sendNext_within.of (by decide)
    | with_reducible refine Within.bind ?_ fun _ => ?_
    | with_reducible refine Within.onlyIf ?_
    | with_reducible refine Within.each fun _ => ?_
    | with_reducible refine Within.mapEach fun _ => ?_
    | split
    | dsimp only

theorem execHeartbeatSend_within {l : Nat} {s : State} : Effect [.ringLinks] (execHeartbeatSend l s) s := by
  unfold execHeartbeatSend
  refine Within.effect ?_ _
  repeat' first
    | with_reducible exact Within.pure _
    | with_reducible exact Within.rd _
    | with_reducible exact (modRingLinks_within _ _).of (by decide)
    | with_reducible refine Within.bind ?_ fun _ => ?_
    | with_reducible refine Within.onlyIf ?_
    | with_reducible refine Within.each fun _ => ?_
    | with_reducible refine Within.mapEach fun _ => ?_
    | split
    | dsimp only

theorem execRingRetxTimeout_within {l : Nat} {s : State} : Effect [.ringLinks] (execRingRetxTimeout l s) s := by
  unfold execRingRetxTimeout
  refine Within.effect ?_ _
  repeat' first
    | with_reducible exact Within.pure _
    | with_reducible exact Within.rd _
    | with_reducible exact (modRingLinks_within _ _).of (by decide)
    | with_reducible refine Within.bind ?_ fun _ => ?_
    | with_reducible refine Within.onlyIf ?_
    | with_reducible refine Within.each fun _ => ?_
    | with_reducible refine Within.mapEach fun _ => ?_
    | split
    | dsimp only

theorem execLinkBroken_within {l : Nat} {s : State} : Effect [.outbox, .regs, .ringLinks, .ring, .fc] (execLinkBroken l s) s := by
  unfold execLinkBroken
  refine Within.effect ?_ _
  repeat' first
    | with_reducible exact Within.pure _
    | with_reducible exact Within.rd _
    | with_reducible exact (modRingLinks_within _ _).of (by decide)
    | with_reducible exact report_within.of (by decide)
    | with_reducible refine ringTrack_within (by decide) ?_
    | with_reducible exact sticky_within.of (by decide)
    | with_reducible refine Within.bind ?_ fun _ => ?_
    | with_reducible refine Within.onlyIf ?_
    | with_reducible refine Within.each fun _ => ?_
    | with_reducible refine Within.mapEach fun _ => ?_
    | split
    | dsimp only

theorem execRingLinkChange_within {l : Nat} {up : Bool} {s : State} : Effect [.outbox, .regs, .ringLinks, .ring] (execRingLinkChange l up s) s := by
  unfold execRingLinkChange
  refine Within.effect ?_ _
  repeat' first
    | with_reducible exact Within.pure _
    | with_reducible exact Within.rd _
    | with_reducible exact (modRingLinks_within _ _).of (by decide)
    | with_reducible exact linkFresh_within.of (by decide)
    | with_reducible refine ringTrack_within (by decide) ?_
    | with_reducible refine Within.bind ?_ fun _ => ?_
    | with_reducible refine Within.onlyIf ?_
    | with_reducible refine Within.each fun _ => ?_
    | with_reducible refine Within.mapEach fun _ => ?_
    | split
    | dsimp only

theorem takeRec_within {l : Nat} {ty : Nat} {p : RingIn → M Unit} {qs : List StatePart} (h0 : ∀ a0, Within qs (p a0)) : Within qs (takeRec l ty p) := by
  unfold takeRec
  repeat' first
    | with_reducible exact Within.pure _
    | with_reducible exact Within.rd _
    | with_reducible exact h0 _
    | with_reducible refine Within.bind ?_ fun _ => ?_
    | with_reducible refine Within.onlyIf ?_
    | with_reducible refine Within.each fun _ => ?_
    | with_reducible refine Within.mapEach fun _ => ?_
    | split
    | dsimp only

theorem dropRec_within {l : Nat} {r : RingIn} : Within [.ringLinks] (dropRec l r) := by
  unfold dropRec
  repeat' first
    | with_reducible exact Within.pure _
    | with_reducible exact Within.rd _
    | with_reducible exact (modRingLinks_within _ _).of (by decide)
    | with_reducible refine Within.bind ?_ fun _ => ?_
    | with_reducible refine Within.onlyIf ?_
    | with_reducible refine Within.each fun _ => ?_
    | with_reducible refine Within.mapEach fun _ => ?_
    | split
    | dsimp only

theorem execHeartbeatReceive_within {l : Nat} {s : State} : Effect [.outbox, .regs, .ringLinks, .ring] (execHeartbeatReceive l s) s := by
  unfold execHeartbeatReceive
  refine Within.effect ?_ _
  repeat' first
    | with_reducible exact Within.pure _
    | with_reducible exact Within.rd _
    | with_reducible exact (modRingLinks_within _ _).of (by decide)
    | with_reducible exact dropRec_within.of (by decide)
    | with_reducible refine ringTrack_within (by decide) ?_
    | with_reducible exact sticky_within.of (by decide)
    | with_reducible refine takeRec_within  (fun _ => ?_)
    | with_reducible refine Within.bind ?_ fun _ => ?_
    | with_reducible refine Within.onlyIf ?_
    | with_reducible refine Within.each fun _ => ?_
    | with_reducible refine Within.mapEach fun _ => ?_
    | split
    | dsimp only

theorem execRemoteTokenReceive_within {l : Nat} {s : State} : Effect [.regs, .banks, .ringLinks] (execRemoteTokenReceive l s) s := by
  unfold execRemoteTokenReceive
  refine Within.effect ?_ _
  repeat' first
    | with_reducible exact Within.pure _
    | with_reducible exact Within.rd _
    | with_reducible exact count_within.of (by decide)
    | with_reducible exact dropRec_within.of (by decide)
    | with_reducible exact pushToken_within.of (by decide)
    | with_reducible refine takeRec_within  (fun _ => ?_)
    | with_reducible refine Within.bind ?_ fun _ => ?_
    | with_reducible refine Within.onlyIf ?_
    | with_reducible refine Within.each fun _ => ?_
    | with_reducible refine Within.mapEach fun _ => ?_
    | split
    | dsimp only

theorem execTermRecordReceive_within {l : Nat} {s : State} : Effect [.outbox, .regs, .ringLinks] (execTermRecordReceive l s) s := by
  unfold execTermRecordReceive
  refine Within.effect ?_ _
  repeat' first
    | with_reducible exact Within.pure _
    | with_reducible exact Within.rd _
    | with_reducible exact dropRec_within.of (by decide)
    | with_reducible exact setFld_within.of (by decide)
    | with_reducible exact sticky_within.of (by decide)
    | with_reducible refine takeRec_within  (fun _ => ?_)
    | with_reducible refine Within.bind ?_ fun _ => ?_
    | with_reducible refine Within.onlyIf ?_
    | with_reducible refine Within.each fun _ => ?_
    | with_reducible refine Within.mapEach fun _ => ?_
    | split
    | dsimp only

theorem mirrorJournal_within {x : Nat} {order : Nat} {time : Nat} {classroom : Nat} {clgen : Nat} {j : Journal} : Within [.regs, .ringLinks, .ring] (mirrorJournal x order time classroom clgen j) := by
  unfold mirrorJournal
  repeat' first
    | with_reducible exact Within.pure _
    | with_reducible exact Within.rd _
    | with_reducible exact (modRing_within _).of (by decide)
    | with_reducible exact (modRingLinks_within _ _).of (by decide)
    | with_reducible exact count_within.of (by decide)
    | with_reducible refine Within.bind ?_ fun _ => ?_
    | with_reducible refine Within.onlyIf ?_
    | with_reducible refine Within.each fun _ => ?_
    | with_reducible refine Within.mapEach fun _ => ?_
    | split
    | dsimp only

theorem execMirrorRecordReceive_within {l : Nat} {s : State} : Effect [.outbox, .mem, .bad, .regs, .ddrs, .ringLinks, .ring] (execMirrorRecordReceive l s) s := by
  unfold execMirrorRecordReceive
  refine Within.effect ?_ _
  repeat' first
    | with_reducible exact Within.pure _
    | with_reducible exact Within.rd _
    | with_reducible exact (modRing_within _).of (by decide)
    | with_reducible exact count_within.of (by decide)
    | with_reducible exact dropRec_within.of (by decide)
    | with_reducible exact setFld_within.of (by decide)
    | with_reducible exact sticky_within.of (by decide)
    | with_reducible exact store_within.of (by decide)
    | with_reducible refine takeRec_within  (fun _ => ?_)
    | with_reducible refine Within.bind ?_ fun _ => ?_
    | with_reducible refine Within.onlyIf ?_
    | with_reducible refine Within.each fun _ => ?_
    | with_reducible refine Within.mapEach fun _ => ?_
    | split
    | dsimp only

theorem mlogAdvanced_within : Within [.ring] (mlogAdvanced) := by
  unfold mlogAdvanced
  repeat' first
    | with_reducible exact Within.pure _
    | with_reducible exact Within.rd _
    | with_reducible exact (modRing_within _).of (by decide)
    | with_reducible refine Within.bind ?_ fun _ => ?_
    | with_reducible refine Within.onlyIf ?_
    | with_reducible refine Within.each fun _ => ?_
    | with_reducible refine Within.mapEach fun _ => ?_
    | split
    | dsimp only

theorem execMirrorLogApply_within {s : State} : Effect [.free, .outbox, .mem, .bad, .regs, .engines, .ddrs, .ring, .fc] (execMirrorLogApply s) s := by
  unfold execMirrorLogApply
  refine Within.effect ?_ _
  repeat' first
    | with_reducible exact Within.pure _
    | with_reducible exact Within.rd _
    | with_reducible exact (modRing_within _).of (by decide)
    | with_reducible exact applyWrite_within.of (by decide)
    | with_reducible refine quiet_within  ?_
    | with_reducible exact setFld_within.of (by decide)
    | with_reducible refine Within.bind ?_ fun _ => ?_
    | with_reducible refine Within.onlyIf ?_
    | with_reducible refine Within.each fun _ => ?_
    | with_reducible refine Within.mapEach fun _ => ?_
    | split
    | dsimp only

end Sys2Proof.Machine
end

