-- ==== Sys2Proof/Laws/WithinSquare.lean ====
section
/-! SUPPORT. Which parts of the state the programs of Machine/Square.lean change. -/

set_option linter.all false
set_option Elab.async false

namespace Sys2Proof.Machine

theorem stickyBit_within {off : Nat} {i : Nat} {e : Nat} : Within [.outbox, .regs] (stickyBit off i e) := by
  unfold stickyBit
  repeat' first
    | with_reducible exact Within.pure _
    | with_reducible exact Within.rd _
    | with_reducible exact sticky_within.of (by decide)
    | with_reducible refine Within.bind ?_ fun _ => ?_
    | with_reducible refine Within.onlyIf ?_
    | with_reducible refine Within.each fun _ => ?_
    | with_reducible refine Within.mapEach fun _ => ?_
    | split
    | dsimp only

theorem poolAlloc_within {cls : Option Nat} {p : Nat} {minSize : Nat} {owner : Option Nat} : Within [.outbox, .regs, .bufs, .pools] (poolAlloc cls p minSize owner) := by
  unfold poolAlloc
  repeat' first
    | with_reducible exact Within.pure _
    | with_reducible exact Within.rd _
    | (with_reducible refine Within.emit ?_); rfl
    | with_reducible exact count_within.of (by decide)
    | with_reducible exact stickyBit_within.of (by decide)
    | with_reducible refine Within.bind ?_ fun _ => ?_
    | with_reducible refine Within.onlyIf ?_
    | with_reducible refine Within.each fun _ => ?_
    | with_reducible refine Within.mapEach fun _ => ?_
    | split
    | dsimp only

theorem bufAdd_within {who : Option Nat} {h : Nat} : Within [.outbox, .regs, .bufs] (bufAdd who h) := by
  unfold bufAdd
  repeat' first
    | with_reducible exact Within.pure _
    | with_reducible exact Within.rd _
    | (with_reducible refine Within.emit ?_); rfl
    | with_reducible exact count_within.of (by decide)
    | with_reducible exact sticky_within.of (by decide)
    | with_reducible refine Within.bind ?_ fun _ => ?_
    | with_reducible refine Within.onlyIf ?_
    | with_reducible refine Within.each fun _ => ?_
    | with_reducible refine Within.mapEach fun _ => ?_
    | split
    | dsimp only

theorem bufFree_within {h : Nat} : Within [.regs, .bufs, .pools] (bufFree h) := by
  unfold bufFree
  repeat' first
    | with_reducible exact Within.pure _
    | with_reducible exact Within.rd _
    | with_reducible exact (modBufs_within _ _).of (by decide)
    | with_reducible exact (modPools_within _ _).of (by decide)
    | with_reducible exact count_within.of (by decide)
    | with_reducible refine Within.bind ?_ fun _ => ?_
    | with_reducible refine Within.onlyIf ?_
    | with_reducible refine Within.each fun _ => ?_
    | with_reducible refine Within.mapEach fun _ => ?_
    | split
    | dsimp only

theorem bufDrop_within {who : Option Nat} {h : Nat} : Within [.regs, .bufs, .pools] (bufDrop who h) := by
  unfold bufDrop
  repeat' first
    | with_reducible exact Within.pure _
    | with_reducible exact Within.rd _
    | (with_reducible refine Within.emit ?_); rfl
    | with_reducible exact bufFree_within.of (by decide)
    | with_reducible exact count_within.of (by decide)
    | with_reducible refine Within.bind ?_ fun _ => ?_
    | with_reducible refine Within.onlyIf ?_
    | with_reducible refine Within.each fun _ => ?_
    | with_reducible refine Within.mapEach fun _ => ?_
    | split
    | dsimp only

theorem chAppend_within {n : Nat} {w : Word} {e : Bool} {a : Bool} : Within [.mem, .chans] (chAppend n w e a) := by
  unfold chAppend
  repeat' first
    | with_reducible exact Within.pure _
    | with_reducible exact Within.rd _
    | (with_reducible refine Within.emit ?_); rfl
    | with_reducible exact writeMem_within.of (by decide)
    | with_reducible refine Within.bind ?_ fun _ => ?_
    | with_reducible refine Within.onlyIf ?_
    | with_reducible refine Within.each fun _ => ?_
    | with_reducible refine Within.mapEach fun _ => ?_
    | split
    | dsimp only

theorem chWrite_within {t : Nat} {n : Nat} {w : Word} {e : Bool} : Within [.outbox, .mem, .regs, .threads, .chans] (chWrite t n w e) := by
  unfold chWrite
  repeat' first
    | with_reducible exact Within.pure _
    | with_reducible exact Within.rd _
    | with_reducible exact (modChans_within _ _).of (by decide)
    | with_reducible exact chAppend_within.of (by decide)
    | with_reducible exact count_within.of (by decide)
    | with_reducible exact setFlag_within.of (by decide)
    | with_reducible exact sticky_within.of (by decide)
    | with_reducible refine Within.bind ?_ fun _ => ?_
    | with_reducible refine Within.onlyIf ?_
    | with_reducible refine Within.each fun _ => ?_
    | with_reducible refine Within.mapEach fun _ => ?_
    | split
    | dsimp only

theorem chRead_within {n : Nat} : Within [.regs, .chans] (chRead n) := by
  unfold chRead
  repeat' first
    | with_reducible exact Within.pure _
    | with_reducible exact Within.rd _
    | (with_reducible refine Within.emit ?_); rfl
    | with_reducible exact count_within.of (by decide)
    | with_reducible refine Within.bind ?_ fun _ => ?_
    | with_reducible refine Within.onlyIf ?_
    | with_reducible refine Within.each fun _ => ?_
    | with_reducible refine Within.mapEach fun _ => ?_
    | split
    | dsimp only

theorem chAbort_within {n : Nat} : Within [.mem, .regs, .chans] (chAbort n) := by
  unfold chAbort
  repeat' first
    | with_reducible exact Within.pure _
    | with_reducible exact Within.rd _
    | with_reducible exact (modChans_within _ _).of (by decide)
    | with_reducible exact chAppend_within.of (by decide)
    | with_reducible exact count_within.of (by decide)
    | with_reducible refine Within.bind ?_ fun _ => ?_
    | with_reducible refine Within.onlyIf ?_
    | with_reducible refine Within.each fun _ => ?_
    | with_reducible refine Within.mapEach fun _ => ?_
    | split
    | dsimp only

theorem chLeave_within {t : Nat} : Within [.chans] (chLeave t) := by
  unfold chLeave
  repeat' first
    | with_reducible exact Within.pure _
    | with_reducible exact Within.rd _
    | with_reducible exact (modChans_within _ _).of (by decide)
    | with_reducible refine Within.bind ?_ fun _ => ?_
    | with_reducible refine Within.onlyIf ?_
    | with_reducible refine Within.each fun _ => ?_
    | with_reducible refine Within.mapEach fun _ => ?_
    | split
    | dsimp only

theorem chAbortAll_within {t : Nat} : Within [.mem, .regs, .chans] (chAbortAll t) := by
  unfold chAbortAll
  repeat' first
    | with_reducible exact Within.pure _
    | with_reducible exact Within.rd _
    | with_reducible exact chAbort_within.of (by decide)
    | with_reducible exact chLeave_within.of (by decide)
    | with_reducible refine Within.bind ?_ fun _ => ?_
    | with_reducible refine Within.onlyIf ?_
    | with_reducible refine Within.each fun _ => ?_
    | with_reducible refine Within.mapEach fun _ => ?_
    | split
    | dsimp only

theorem chEmpty_within {n : Nat} : Within [.regs, .chans] (chEmpty n) := by
  unfold chEmpty
  repeat' first
    | with_reducible exact Within.pure _
    | with_reducible exact Within.rd _
    | (with_reducible refine Within.emit ?_); rfl
    | with_reducible exact count_within.of (by decide)
    | with_reducible refine Within.bind ?_ fun _ => ?_
    | with_reducible refine Within.onlyIf ?_
    | with_reducible refine Within.each fun _ => ?_
    | with_reducible refine Within.mapEach fun _ => ?_
    | split
    | dsimp only

theorem lockBoost_within {l : Nat} : Within [.regs, .locks] (lockBoost l) := by
  unfold lockBoost
  repeat' first
    | with_reducible exact Within.pure _
    | with_reducible exact Within.rd _
    | with_reducible exact (modLocks_within _ _).of (by decide)
    | with_reducible exact count_within.of (by decide)
    | with_reducible refine Within.bind ?_ fun _ => ?_
    | with_reducible refine Within.onlyIf ?_
    | with_reducible refine Within.each fun _ => ?_
    | with_reducible refine Within.mapEach fun _ => ?_
    | split
    | dsimp only

theorem lockBoostAll_within : Within [.regs, .locks] (lockBoostAll) := by
  unfold lockBoostAll
  repeat' first
    | with_reducible exact Within.pure _
    | with_reducible exact Within.rd _
    | with_reducible exact lockBoost_within.of (by decide)
    | with_reducible refine Within.bind ?_ fun _ => ?_
    | with_reducible refine Within.onlyIf ?_
    | with_reducible refine Within.each fun _ => ?_
    | with_reducible refine Within.mapEach fun _ => ?_
    | split
    | dsimp only

theorem lockGrantHead_within {l : Nat} {viaOrphan : Bool} : Within [.regs, .threads, .locks] (lockGrantHead l viaOrphan) := by
  unfold lockGrantHead
  repeat' first
    | with_reducible exact Within.pure _
    | with_reducible exact Within.rd _
    | (with_reducible refine Within.emit ?_); rfl
    | with_reducible exact count_within.of (by decide)
    | with_reducible exact finishNext_within.of (by decide)
    | with_reducible exact lockBoost_within.of (by decide)
    | with_reducible exact setFlag_within.of (by decide)
    | with_reducible refine Within.bind ?_ fun _ => ?_
    | with_reducible refine Within.onlyIf ?_
    | with_reducible refine Within.each fun _ => ?_
    | with_reducible refine Within.mapEach fun _ => ?_
    | split
    | dsimp only

theorem lockWithdraw_within {t : Nat} : Within [.regs, .locks] (lockWithdraw t) := by
  unfold lockWithdraw
  repeat' first
    | with_reducible exact Within.pure _
    | with_reducible exact Within.rd _
    | with_reducible exact (modLocks_within _ _).of (by decide)
    | with_reducible exact count_within.of (by decide)
    | with_reducible refine Within.bind ?_ fun _ => ?_
    | with_reducible refine Within.onlyIf ?_
    | with_reducible refine Within.each fun _ => ?_
    | with_reducible refine Within.mapEach fun _ => ?_
    | split
    | dsimp only

theorem lockRequest_within {t : Nat} {l : Nat} {form : Nat} {rd' : Nat} : Within [.regs, .locks] (lockRequest t l form rd') := by
  unfold lockRequest
  repeat' first
    | with_reducible exact Within.pure _
    | with_reducible exact Within.rd _
    | (with_reducible refine Within.emit ?_); rfl
    | with_reducible exact count_within.of (by decide)
    | with_reducible exact lockBoost_within.of (by decide)
    | with_reducible refine Within.bind ?_ fun _ => ?_
    | with_reducible refine Within.onlyIf ?_
    | with_reducible refine Within.each fun _ => ?_
    | with_reducible refine Within.mapEach fun _ => ?_
    | split
    | dsimp only

theorem lockRelease_within {t : Nat} {l : Nat} : Within [.regs, .threads, .locks] (lockRelease t l) := by
  unfold lockRelease
  repeat' first
    | with_reducible exact Within.pure _
    | with_reducible exact Within.rd _
    | with_reducible exact lockGrantHead_within.of (by decide)
    | with_reducible refine Within.bind ?_ fun _ => ?_
    | with_reducible refine Within.onlyIf ?_
    | with_reducible refine Within.each fun _ => ?_
    | with_reducible refine Within.mapEach fun _ => ?_
    | split
    | dsimp only

theorem locksToAct_within {t : Nat} {a : Nat} : Within [.locks] (locksToAct t a) := by
  unfold locksToAct
  repeat' first
    | with_reducible exact Within.pure _
    | with_reducible exact Within.rd _
    | with_reducible exact (modLocks_within _ _).of (by decide)
    | with_reducible refine Within.bind ?_ fun _ => ?_
    | with_reducible refine Within.onlyIf ?_
    | with_reducible refine Within.each fun _ => ?_
    | with_reducible refine Within.mapEach fun _ => ?_
    | split
    | dsimp only

theorem locksToThread_within {a : Nat} {t : Nat} : Within [.regs, .locks] (locksToThread a t) := by
  unfold locksToThread
  repeat' first
    | with_reducible exact Within.pure _
    | with_reducible exact Within.rd _
    | with_reducible exact (modLocks_within _ _).of (by decide)
    | with_reducible exact lockBoost_within.of (by decide)
    | with_reducible refine Within.bind ?_ fun _ => ?_
    | with_reducible refine Within.onlyIf ?_
    | with_reducible refine Within.each fun _ => ?_
    | with_reducible refine Within.mapEach fun _ => ?_
    | split
    | dsimp only

theorem lockOrphan_within {l : Nat} : Within [.outbox, .regs, .threads, .locks] (lockOrphan l) := by
  unfold lockOrphan
  repeat' first
    | with_reducible exact Within.pure _
    | with_reducible exact Within.rd _
    | (with_reducible refine Within.emit ?_); rfl
    | with_reducible exact count_within.of (by decide)
    | with_reducible exact lockGrantHead_within.of (by decide)
    | with_reducible exact sticky_within.of (by decide)
    | with_reducible refine Within.bind ?_ fun _ => ?_
    | with_reducible refine Within.onlyIf ?_
    | with_reducible refine Within.each fun _ => ?_
    | with_reducible refine Within.mapEach fun _ => ?_
    | split
    | dsimp only

end Sys2Proof.Machine
end

