-- ==== Sys2Proof/Laws/WithinContexts.lean ====
section
/-! SUPPORT. Which parts of the state the programs of Machine/Contexts.lean change. -/

set_option linter.all false
set_option Elab.async false

namespace Sys2Proof.Machine

theorem releaseSeat_within {t : Nat} : Within [.regs, .locks] (releaseSeat t) := by
  unfold releaseSeat
  repeat' first
    | with_reducible exact Within.pure _
    | with_reducible exact Within.rd _
    | with_reducible exact lockBoostAll_within.of (by decide)
    | with_reducible exact setFld_within.of (by decide)
    | with_reducible refine Within.bind ?_ fun _ => ?_
    | with_reducible refine Within.onlyIf ?_
    | with_reducible refine Within.each fun _ => ?_
    | with_reducible refine Within.mapEach fun _ => ?_
    | split
    | dsimp only

theorem termUnref_within {slot : Nat} : Within [.terms] (termUnref slot) := by
  unfold termUnref
  repeat' first
    | with_reducible exact Within.pure _
    | with_reducible exact Within.rd _
    | with_reducible exact (modTerms_within _ _).of (by decide)
    | with_reducible refine Within.bind ?_ fun _ => ?_
    | with_reducible refine Within.onlyIf ?_
    | with_reducible refine Within.each fun _ => ?_
    | with_reducible refine Within.mapEach fun _ => ?_
    | split
    | dsimp only

theorem termRef_within {slot : Nat} : Within [.terms] (termRef slot) := by
  unfold termRef
  repeat' first
    | with_reducible exact Within.pure _
    | with_reducible exact Within.rd _
    | with_reducible exact (modTerms_within _ _).of (by decide)
    | with_reducible refine Within.bind ?_ fun _ => ?_
    | with_reducible refine Within.onlyIf ?_
    | with_reducible refine Within.each fun _ => ?_
    | with_reducible refine Within.mapEach fun _ => ?_
    | split
    | dsimp only

theorem freeCtx_within {x : Nat} : Within [.outbox, .mem, .bad, .regs, .delay, .ctxs, .banks, .ddrs, .bufs, .pools, .locks, .terms, .sq, .rc] (freeCtx x) := by
  unfold freeCtx
  repeat' first
    | with_reducible exact Within.pure _
    | with_reducible exact Within.rd _
    | with_reducible exact (modBanks_within _ _).of (by decide)
    | with_reducible exact (modRc_within _).of (by decide)
    | (with_reducible refine Within.emit ?_); rfl
    | with_reducible exact bufDrop_within.of (by decide)
    | with_reducible exact cancelPark_within.of (by decide)
    | with_reducible exact releaseSeat_within.of (by decide)
    | with_reducible exact reserveFlags_within.of (by decide)
    | with_reducible exact store_within.of (by decide)
    | with_reducible exact termUnref_within.of (by decide)
    | with_reducible refine Within.bind ?_ fun _ => ?_
    | with_reducible refine Within.onlyIf ?_
    | with_reducible refine Within.each fun _ => ?_
    | with_reducible refine Within.mapEach fun _ => ?_
    | split
    | dsimp only

theorem execContextFree_within {x : Nat} {s : State} : Effect [.outbox, .mem, .bad, .regs, .delay, .ctxs, .banks, .ddrs, .bufs, .pools, .locks, .terms, .sq, .rc, .cw] (execContextFree x s) s := by
  unfold execContextFree
  refine Within.effect ?_ _
  repeat' first
    | with_reducible exact Within.pure _
    | with_reducible exact Within.rd _
    | with_reducible exact count_within.of (by decide)
    | with_reducible exact cwClose_within.of (by decide)
    | with_reducible exact freeCtx_within.of (by decide)
    | with_reducible refine Within.bind ?_ fun _ => ?_
    | with_reducible refine Within.onlyIf ?_
    | with_reducible refine Within.each fun _ => ?_
    | with_reducible refine Within.mapEach fun _ => ?_
    | split
    | dsimp only

theorem execContextPark_within {x : Nat} {s : State} : Effect [.outbox, .mem, .bad, .regs, .ctxs, .banks, .ddrs, .rc] (execContextPark x s) s := by
  unfold execContextPark
  refine Within.effect ?_ _
  repeat' first
    | with_reducible exact Within.pure _
    | with_reducible exact Within.rd _
    | with_reducible exact (modBanks_within _ _).of (by decide)
    | with_reducible exact (modCtxs_within _ _).of (by decide)
    | with_reducible exact spillEntry_within.of (by decide)
    | with_reducible exact store_within.of (by decide)
    | with_reducible exact storeLeave_within.of (by decide)
    | with_reducible refine Within.bind ?_ fun _ => ?_
    | with_reducible refine Within.onlyIf ?_
    | with_reducible refine Within.each fun _ => ?_
    | with_reducible refine Within.mapEach fun _ => ?_
    | split
    | dsimp only

theorem execParkTimeout_within {d : Nat} {s : State} : Effect [.mem, .bad, .regs, .delay, .ctxs, .banks, .ddrs, .sq] (execParkTimeout d s) s := by
  unfold execParkTimeout
  refine Within.effect ?_ _
  repeat' first
    | with_reducible exact Within.pure _
    | with_reducible exact Within.rd _
    | with_reducible exact changeCtx_within.of (by decide)
    | with_reducible exact count_within.of (by decide)
    | with_reducible exact delayFree_within.of (by decide)
    | with_reducible exact pushToken_within.of (by decide)
    | with_reducible refine Within.bind ?_ fun _ => ?_
    | with_reducible refine Within.onlyIf ?_
    | with_reducible refine Within.each fun _ => ?_
    | with_reducible refine Within.mapEach fun _ => ?_
    | split
    | dsimp only

theorem execStalemate_within {s : State} : Effect [.outbox, .regs] (execStalemate s) s := by
  unfold execStalemate
  refine Within.effect ?_ _
  repeat' first
    | with_reducible exact Within.pure _
    | with_reducible exact Within.rd _
    | with_reducible exact sticky_within.of (by decide)
    | with_reducible refine Within.bind ?_ fun _ => ?_
    | with_reducible refine Within.onlyIf ?_
    | with_reducible refine Within.each fun _ => ?_
    | with_reducible refine Within.mapEach fun _ => ?_
    | split
    | dsimp only

theorem execTenikStalemateAction_within {s : State} : Effect [.regs, .rc] (execTenikStalemateAction s) s := by
  unfold execTenikStalemateAction
  refine Within.effect ?_ _
  repeat' first
    | with_reducible exact Within.pure _
    | with_reducible exact Within.rd _
    | with_reducible exact setFld_within.of (by decide)
    | with_reducible exact wantAbandon_within.of (by decide)
    | with_reducible refine Within.bind ?_ fun _ => ?_
    | with_reducible refine Within.onlyIf ?_
    | with_reducible refine Within.each fun _ => ?_
    | with_reducible refine Within.mapEach fun _ => ?_
    | split
    | dsimp only

theorem unqueueAct_within {i : Nat} : Within [.threads, .ready, .sq] (unqueueAct i) := by
  unfold unqueueAct
  repeat' first
    | with_reducible exact Within.pure _
    | with_reducible exact Within.rd _
    | with_reducible exact (modReady_within _ _).of (by decide)
    | with_reducible exact (modSq_within _).of (by decide)
    | with_reducible exact (modThreads_within _ _).of (by decide)
    | with_reducible exact clearFlag_within.of (by decide)
    | with_reducible refine Within.bind ?_ fun _ => ?_
    | with_reducible refine Within.onlyIf ?_
    | with_reducible refine Within.each fun _ => ?_
    | with_reducible refine Within.mapEach fun _ => ?_
    | split
    | dsimp only

theorem dropQueued_within {x : Nat} : Within [.mem, .bad, .threads, .acts, .ready, .ctxs, .ddrs, .sq, .cw] (dropQueued x) := by
  unfold dropQueued
  repeat' first
    | with_reducible exact Within.pure _
    | with_reducible exact Within.rd _
    | with_reducible exact actRelease_within.of (by decide)
    | with_reducible exact unqueueAct_within.of (by decide)
    | with_reducible refine Within.bind ?_ fun _ => ?_
    | with_reducible refine Within.onlyIf ?_
    | with_reducible refine Within.each fun _ => ?_
    | with_reducible refine Within.mapEach fun _ => ?_
    | split
    | dsimp only

theorem execAbandonContext_within {x : Nat} {s : State} : Effect [.free, .outbox, .mem, .bad, .regs, .threads, .acts, .ready, .delay, .ctxs, .ddrs, .sq, .rc, .cw, .fc] (execAbandonContext x s) s := by
  unfold execAbandonContext
  refine Within.effect ?_ _
  repeat' first
    | with_reducible exact Within.pure _
    | with_reducible exact Within.rd _
    | with_reducible exact (modCtxs_within _ _).of (by decide)
    | with_reducible exact (modRc_within _).of (by decide)
    | with_reducible exact cancelPark_within.of (by decide)
    | with_reducible exact count_within.of (by decide)
    | with_reducible exact dropQueued_within.of (by decide)
    | with_reducible exact unstore_within.of (by decide)
    | with_reducible refine withRecord_within (by decide) ?_
    | with_reducible refine Within.bind ?_ fun _ => ?_
    | with_reducible refine Within.onlyIf ?_
    | with_reducible refine Within.each fun _ => ?_
    | with_reducible refine Within.mapEach fun _ => ?_
    | split
    | dsimp only

end Sys2Proof.Machine
end

