-- ==== Sys2Proof/Laws/WithinMem.lean ====
section
/-! SUPPORT. Which parts of the state the programs of Machine/Mem.lean change. -/

set_option linter.all false
set_option Elab.async false

namespace Sys2Proof.Machine

theorem writeDesk_within {t : Nat} {x0 : Nat} {x1 : List Byte} : Within [.desk] (writeDesk t x0 x1) := by
  fun_induction writeDesk t x0 x1
  all_goals
  repeat' first
    | with_reducible exact Within.pure _
    | with_reducible exact Within.rd _
    | assumption
    | (with_reducible refine Within.emit ?_); rfl
    | with_reducible refine Within.bind ?_ fun _ => ?_
    | with_reducible refine Within.onlyIf ?_
    | with_reducible refine Within.each fun _ => ?_
    | with_reducible refine Within.mapEach fun _ => ?_
    | split
    | dsimp only

theorem eaStore_within {t : Nat} {e : Ea} {bs : List Byte} : Within [.mem, .bad, .desk, .ddrs] (eaStore t e bs) := by
  unfold eaStore
  repeat' first
    | with_reducible exact Within.pure _
    | with_reducible exact Within.rd _
    | with_reducible exact store_within.of (by decide)
    | with_reducible exact writeDesk_within.of (by decide)
    | with_reducible refine Within.bind ?_ fun _ => ?_
    | with_reducible refine Within.onlyIf ?_
    | with_reducible refine Within.each fun _ => ?_
    | with_reducible refine Within.mapEach fun _ => ?_
    | split
    | dsimp only

theorem eaReport_within {e : Ea} {n : Nat} : Within [.free, .outbox, .regs, .fc] (eaReport e n) := by
  unfold eaReport
  repeat' first
    | with_reducible exact Within.pure _
    | with_reducible exact Within.rd _
    | with_reducible exact reportBads_within.of (by decide)
    | with_reducible refine Within.bind ?_ fun _ => ?_
    | with_reducible refine Within.onlyIf ?_
    | with_reducible refine Within.each fun _ => ?_
    | with_reducible refine Within.mapEach fun _ => ?_
    | split
    | dsimp only

end Sys2Proof.Machine
end

