-- ==== Sys2Proof/Laws/WithinSched.lean ====
section
/-! SUPPORT. Which parts of the state the programs of Machine/Sched.lean change. -/

set_option linter.all false
set_option Elab.async false

namespace Sys2Proof.Machine

theorem requeueAct_within {i : Nat} {rerun : Bool} {bump : Bool} : Within [.mem, .bad, .regs, .acts, .ready, .ctxs, .ddrs, .sq, .cw] (requeueAct i rerun bump) := by
  unfold requeueAct
  repeat' first
    | with_reducible exact Within.pure _
    | with_reducible exact Within.rd _
    | (with_reducible refine Within.emit ?_); rfl
    | with_reducible exact actRelease_within.of (by decide)
    | with_reducible exact count_within.of (by decide)
    | with_reducible exact readyHead_within.of (by decide)
    | with_reducible refine Within.bind ?_ fun _ => ?_
    | with_reducible refine Within.onlyIf ?_
    | with_reducible refine Within.each fun _ => ?_
    | with_reducible refine Within.mapEach fun _ => ?_
    | split
    | dsimp only

theorem takeSeat_within {x : Nat} {t : Nat} : Within [.regs, .ctxs] (takeSeat x t) := by
  unfold takeSeat
  repeat' first
    | with_reducible exact Within.pure _
    | with_reducible exact Within.rd _
    | with_reducible exact (modCtxs_within _ _).of (by decide)
    | with_reducible exact count_within.of (by decide)
    | with_reducible exact setFld_within.of (by decide)
    | with_reducible refine Within.bind ?_ fun _ => ?_
    | with_reducible refine Within.onlyIf ?_
    | with_reducible refine Within.each fun _ => ?_
    | with_reducible refine Within.mapEach fun _ => ?_
    | split
    | dsimp only

theorem loseSeat_within {t : Nat} : Within [.regs, .ctxs, .locks] (loseSeat t) := by
  unfold loseSeat
  repeat' first
    | with_reducible exact Within.pure _
    | with_reducible exact Within.rd _
    | with_reducible exact (modCtxs_within _ _).of (by decide)
    | with_reducible exact releaseSeat_within.of (by decide)
    | with_reducible refine Within.bind ?_ fun _ => ?_
    | with_reducible refine Within.onlyIf ?_
    | with_reducible refine Within.each fun _ => ?_
    | with_reducible refine Within.mapEach fun _ => ?_
    | split
    | dsimp only

theorem withdrawPreempt_within {t : Nat} {keepSeat : Bool} : Within [.mem, .bad, .regs, .threads, .acts, .ready, .ctxs, .ddrs, .locks, .sq, .cw] (withdrawPreempt t keepSeat) := by
  unfold withdrawPreempt
  repeat' first
    | with_reducible exact Within.pure _
    | with_reducible exact Within.rd _
    | with_reducible exact (modThreads_within _ _).of (by decide)
    | with_reducible exact clearFlag_within.of (by decide)
    | with_reducible exact loseSeat_within.of (by decide)
    | with_reducible exact requeueAct_within.of (by decide)
    | with_reducible refine Within.bind ?_ fun _ => ?_
    | with_reducible refine Within.onlyIf ?_
    | with_reducible refine Within.each fun _ => ?_
    | with_reducible refine Within.mapEach fun _ => ?_
    | split
    | dsimp only

theorem breakStall_within {t : Nat} : Within [.regs] (breakStall t) := by
  unfold breakStall
  repeat' first
    | with_reducible exact Within.pure _
    | with_reducible exact Within.rd _
    | with_reducible exact setFld_within.of (by decide)
    | with_reducible refine Within.bind ?_ fun _ => ?_
    | with_reducible refine Within.onlyIf ?_
    | with_reducible refine Within.each fun _ => ?_
    | with_reducible refine Within.mapEach fun _ => ?_
    | split
    | dsimp only

theorem withdrawHelper_within {t : Nat} : Within [.hqueues] (withdrawHelper t) := by
  unfold withdrawHelper
  repeat' first
    | with_reducible exact Within.pure _
    | with_reducible exact Within.rd _
    | with_reducible exact (modHqueues_within _ _).of (by decide)
    | with_reducible refine Within.bind ?_ fun _ => ?_
    | with_reducible refine Within.onlyIf ?_
    | with_reducible refine Within.each fun _ => ?_
    | with_reducible refine Within.mapEach fun _ => ?_
    | split
    | dsimp only

theorem forgetRead_within {t : Nat} : Within [.sq] (forgetRead t) := by
  unfold forgetRead
  repeat' first
    | with_reducible exact Within.pure _
    | with_reducible exact Within.rd _
    | with_reducible exact (modSq_within _).of (by decide)
    | with_reducible refine Within.bind ?_ fun _ => ?_
    | with_reducible refine Within.onlyIf ?_
    | with_reducible refine Within.each fun _ => ?_
    | with_reducible refine Within.mapEach fun _ => ?_
    | split
    | dsimp only

theorem stopThread_within {t : Nat} {st : ThState} : Within [.mem, .bad, .regs, .threads, .acts, .ready, .ctxs, .hqueues, .ddrs, .chans, .locks, .sq, .cw] (stopThread t st) := by
  unfold stopThread
  repeat' first
    | with_reducible exact Within.pure _
    | with_reducible exact Within.rd _
    | with_reducible exact (modSq_within _).of (by decide)
    | with_reducible exact (modThreads_within _ _).of (by decide)
    | with_reducible exact breakStall_within.of (by decide)
    | with_reducible exact chAbortAll_within.of (by decide)
    | with_reducible exact forgetRead_within.of (by decide)
    | with_reducible exact lockWithdraw_within.of (by decide)
    | with_reducible exact withdrawHelper_within.of (by decide)
    | with_reducible exact withdrawPreempt_within.of (by decide)
    | with_reducible refine Within.bind ?_ fun _ => ?_
    | with_reducible refine Within.onlyIf ?_
    | with_reducible refine Within.each fun _ => ?_
    | with_reducible refine Within.mapEach fun _ => ?_
    | split
    | dsimp only

theorem cancelTimer_within {t : Nat} : Within [.regs, .threads, .delay, .sq] (cancelTimer t) := by
  unfold cancelTimer
  repeat' first
    | with_reducible exact Within.pure _
    | with_reducible exact Within.rd _
    | with_reducible exact (modThreads_within _ _).of (by decide)
    | with_reducible exact delayCancel_within.of (by decide)
    | with_reducible refine Within.bind ?_ fun _ => ?_
    | with_reducible refine Within.onlyIf ?_
    | with_reducible refine Within.each fun _ => ?_
    | with_reducible refine Within.mapEach fun _ => ?_
    | split
    | dsimp only

theorem notify_within {k : Nat} : Within [.desk, .threads] (notify k) := by
  unfold notify
  repeat' first
    | with_reducible exact Within.pure _
    | with_reducible exact Within.rd _
    | with_reducible exact setFlag_within.of (by decide)
    | with_reducible exact writeDesk_within.of (by decide)
    | with_reducible refine Within.bind ?_ fun _ => ?_
    | with_reducible refine Within.onlyIf ?_
    | with_reducible refine Within.each fun _ => ?_
    | with_reducible refine Within.mapEach fun _ => ?_
    | split
    | dsimp only

theorem threadFault_within {t : Nat} {cause : Nat} : Within [.outbox, .mem, .bad, .desk, .regs, .threads, .acts, .ready, .ctxs, .hqueues, .ddrs, .chans, .locks, .sq, .cw, .fc] (threadFault t cause) := by
  unfold threadFault
  repeat' first
    | with_reducible exact Within.pure _
    | with_reducible exact Within.rd _
    | with_reducible exact (modRegs_within _ _).of (by decide)
    | (with_reducible refine Within.emit ?_); rfl
    | with_reducible exact count_within.of (by decide)
    | with_reducible exact notify_within.of (by decide)
    | with_reducible exact report_within.of (by decide)
    | with_reducible exact setFld_within.of (by decide)
    | with_reducible exact stopThread_within.of (by decide)
    | with_reducible refine Within.bind ?_ fun _ => ?_
    | with_reducible refine Within.onlyIf ?_
    | with_reducible refine Within.each fun _ => ?_
    | with_reducible refine Within.mapEach fun _ => ?_
    | split
    | dsimp only

theorem trap_within {t : Nat} {cause : Nat} {value : Word} {tpc : Addr} : Within [.outbox, .mem, .bad, .desk, .regs, .threads, .acts, .ready, .ctxs, .hqueues, .ddrs, .chans, .locks, .sq, .cw, .fc] (trap t cause value tpc) := by
  unfold trap
  repeat' first
    | with_reducible exact Within.pure _
    | with_reducible exact Within.rd _
    | with_reducible exact finishAt_within.of (by decide)
    | with_reducible exact threadFault_within.of (by decide)
    | with_reducible refine Within.bind ?_ fun _ => ?_
    | with_reducible refine Within.onlyIf ?_
    | with_reducible refine Within.each fun _ => ?_
    | with_reducible refine Within.mapEach fun _ => ?_
    | split
    | dsimp only

theorem startAct_within {t : Nat} {i : Nat} {a : Act} : Within [.threads] (startAct t i a) := by
  unfold startAct
  repeat' first
    | with_reducible exact Within.pure _
    | with_reducible exact Within.rd _
    | with_reducible exact finishAt_within.of (by decide)
    | with_reducible refine Within.bind ?_ fun _ => ?_
    | with_reducible refine Within.onlyIf ?_
    | with_reducible refine Within.each fun _ => ?_
    | with_reducible refine Within.mapEach fun _ => ?_
    | split
    | dsimp only

theorem give_within {t : Nat} {i : Nat} : Within [.desk, .regs, .threads, .acts, .ready, .ctxs, .sq] (give t i) := by
  unfold give
  repeat' first
    | with_reducible exact Within.pure _
    | with_reducible exact Within.rd _
    | with_reducible exact (modSq_within _).of (by decide)
    | with_reducible exact (modThreads_within _ _).of (by decide)
    | (with_reducible refine Within.emit ?_); rfl
    | with_reducible exact count_within.of (by decide)
    | with_reducible exact startAct_within.of (by decide)
    | with_reducible exact takeSeat_within.of (by decide)
    | with_reducible exact unqueueAct_within.of (by decide)
    | with_reducible exact writeDesk_within.of (by decide)
    | with_reducible refine Within.bind ?_ fun _ => ?_
    | with_reducible refine Within.onlyIf ?_
    | with_reducible refine Within.each fun _ => ?_
    | with_reducible refine Within.mapEach fun _ => ?_
    | split
    | dsimp only

theorem wakeStreet_within {k : Nat} : Within [.regs] (wakeStreet k) := by
  unfold wakeStreet
  repeat' first
    | with_reducible exact Within.pure _
    | with_reducible exact Within.rd _
    | with_reducible exact setFld_within.of (by decide)
    | with_reducible refine Within.bind ?_ fun _ => ?_
    | with_reducible refine Within.onlyIf ?_
    | with_reducible refine Within.each fun _ => ?_
    | with_reducible refine Within.mapEach fun _ => ?_
    | split
    | dsimp only

theorem continueAct_within {t : Nat} {i : Nat} {a : Act} {v : Saved} : Within [.regs, .threads, .acts, .locks] (continueAct t i a v) := by
  unfold continueAct
  repeat' first
    | with_reducible exact Within.pure _
    | with_reducible exact Within.rd _
    | (with_reducible refine Within.emit ?_); rfl
    | with_reducible exact finishAt_within.of (by decide)
    | with_reducible exact locksToThread_within.of (by decide)
    | with_reducible refine Within.bind ?_ fun _ => ?_
    | with_reducible refine Within.onlyIf ?_
    | with_reducible refine Within.each fun _ => ?_
    | with_reducible refine Within.mapEach fun _ => ?_
    | split
    | dsimp only

theorem blockThread_within {t : Nat} : Within [.threads, .sq] (blockThread t) := by
  unfold blockThread
  repeat' first
    | with_reducible exact Within.pure _
    | with_reducible exact Within.rd _
    | with_reducible exact (modSq_within _).of (by decide)
    | with_reducible exact (modThreads_within _ _).of (by decide)
    | with_reducible refine Within.bind ?_ fun _ => ?_
    | with_reducible refine Within.onlyIf ?_
    | with_reducible refine Within.each fun _ => ?_
    | with_reducible refine Within.mapEach fun _ => ?_
    | split
    | dsimp only

theorem getWork_within {t : Nat} : Within [.desk, .regs, .threads, .acts, .ready, .ctxs, .sq] (getWork t) := by
  unfold getWork
  repeat' first
    | with_reducible exact Within.pure _
    | with_reducible exact Within.rd _
    | with_reducible exact blockThread_within.of (by decide)
    | with_reducible exact count_within.of (by decide)
    | with_reducible exact finishAt_within.of (by decide)
    | with_reducible exact give_within.of (by decide)
    | with_reducible refine Within.bind ?_ fun _ => ?_
    | with_reducible refine Within.onlyIf ?_
    | with_reducible refine Within.each fun _ => ?_
    | with_reducible refine Within.mapEach fun _ => ?_
    | split
    | dsimp only

theorem dropActRerun_within {t : Nat} : Within [.mem, .bad, .regs, .threads, .acts, .ready, .ctxs, .ddrs, .sq, .cw] (dropActRerun t) := by
  unfold dropActRerun
  repeat' first
    | with_reducible exact Within.pure _
    | with_reducible exact Within.rd _
    | with_reducible exact (modThreads_within _ _).of (by decide)
    | with_reducible exact requeueAct_within.of (by decide)
    | with_reducible refine Within.bind ?_ fun _ => ?_
    | with_reducible refine Within.onlyIf ?_
    | with_reducible refine Within.each fun _ => ?_
    | with_reducible refine Within.mapEach fun _ => ?_
    | split
    | dsimp only

theorem threadAction_within {t : Nat} {action : Nat} : Within [.mem, .bad, .regs, .threads, .acts, .ready, .delay, .ctxs, .hqueues, .ddrs, .chans, .locks, .sq, .rc, .cw] (threadAction t action) := by
  unfold threadAction
  repeat' first
    | with_reducible exact Within.pure _
    | with_reducible exact Within.rd _
    | with_reducible exact (modRegs_within _ _).of (by decide)
    | with_reducible exact (modThreads_within _ _).of (by decide)
    | with_reducible exact actRelease_within.of (by decide)
    | with_reducible exact blockThread_within.of (by decide)
    | with_reducible exact cancelTimer_within.of (by decide)
    | with_reducible exact dropActRerun_within.of (by decide)
    | with_reducible exact loseSeat_within.of (by decide)
    | with_reducible exact stopThread_within.of (by decide)
    | with_reducible exact wantAbandon_within.of (by decide)
    | with_reducible refine Within.bind ?_ fun _ => ?_
    | with_reducible refine Within.onlyIf ?_
    | with_reducible refine Within.each fun _ => ?_
    | with_reducible refine Within.mapEach fun _ => ?_
    | split
    | dsimp only

theorem restartThread_within {t : Nat} : Within [.threads] (restartThread t) := by
  unfold restartThread
  repeat' first
    | with_reducible exact Within.pure _
    | with_reducible exact Within.rd _
    | (with_reducible refine Within.emit ?_); rfl
    | with_reducible refine Within.bind ?_ fun _ => ?_
    | with_reducible refine Within.onlyIf ?_
    | with_reducible refine Within.each fun _ => ?_
    | with_reducible refine Within.mapEach fun _ => ?_
    | split
    | dsimp only

theorem startMonitor_within {k : Nat} : Within [.threads] (startMonitor k) := by
  unfold startMonitor
  repeat' first
    | with_reducible exact Within.pure _
    | with_reducible exact Within.rd _
    | (with_reducible refine Within.emit ?_); rfl
    | with_reducible refine Within.bind ?_ fun _ => ?_
    | with_reducible refine Within.onlyIf ?_
    | with_reducible refine Within.each fun _ => ?_
    | with_reducible refine Within.mapEach fun _ => ?_
    | split
    | dsimp only

theorem withdrawCore_within {k : Nat} : Within [.mem, .bad, .regs, .threads, .acts, .ready, .delay, .ctxs, .hqueues, .ddrs, .chans, .locks, .sq, .cw] (withdrawCore k) := by
  unfold withdrawCore
  repeat' first
    | with_reducible exact Within.pure _
    | with_reducible exact Within.rd _
    | with_reducible exact (modThreads_within _ _).of (by decide)
    | with_reducible exact cancelTimer_within.of (by decide)
    | with_reducible exact dropActRerun_within.of (by decide)
    | with_reducible exact loseSeat_within.of (by decide)
    | with_reducible exact stopThread_within.of (by decide)
    | with_reducible refine Within.bind ?_ fun _ => ?_
    | with_reducible refine Within.onlyIf ?_
    | with_reducible refine Within.each fun _ => ?_
    | with_reducible refine Within.mapEach fun _ => ?_
    | split
    | dsimp only

theorem execDispatch_within {c : Nat} {s : State} : Effect [.desk, .regs, .threads, .acts, .ready, .ctxs, .sq] (execDispatch c s) s := by
  unfold execDispatch
  refine Within.effect ?_ _
  repeat' first
    | with_reducible exact Within.pure _
    | with_reducible exact Within.rd _
    | with_reducible exact (modThreads_within _ _).of (by decide)
    | with_reducible exact give_within.of (by decide)
    | with_reducible exact setFlag_within.of (by decide)
    | with_reducible exact takeSeat_within.of (by decide)
    | with_reducible exact unqueueAct_within.of (by decide)
    | with_reducible refine Within.bind ?_ fun _ => ?_
    | with_reducible refine Within.onlyIf ?_
    | with_reducible refine Within.each fun _ => ?_
    | with_reducible refine Within.mapEach fun _ => ?_
    | split
    | dsimp only

theorem execPreemptSave_within {t : Nat} {s : State} : Effect [.mem, .bad, .desk, .regs, .threads, .acts, .ready, .ctxs, .hqueues, .ddrs, .chans, .locks, .sq, .cw] (execPreemptSave t s) s := by
  unfold execPreemptSave
  refine Within.effect ?_ _
  repeat' first
    | with_reducible exact Within.pure _
    | with_reducible exact Within.rd _
    | with_reducible exact (modActs_within _ _).of (by decide)
    | with_reducible exact (modThreads_within _ _).of (by decide)
    | with_reducible exact breakStall_within.of (by decide)
    | with_reducible exact chLeave_within.of (by decide)
    | with_reducible exact clearFlag_within.of (by decide)
    | with_reducible exact count_within.of (by decide)
    | with_reducible exact give_within.of (by decide)
    | with_reducible exact locksToAct_within.of (by decide)
    | with_reducible exact requeueAct_within.of (by decide)
    | with_reducible exact withdrawHelper_within.of (by decide)
    | with_reducible refine Within.bind ?_ fun _ => ?_
    | with_reducible refine Within.onlyIf ?_
    | with_reducible refine Within.each fun _ => ?_
    | with_reducible refine Within.mapEach fun _ => ?_
    | split
    | dsimp only

theorem execStateCopyEnd_within {t : Nat} {s : State} : Effect [.regs, .threads, .acts, .locks] (execStateCopyEnd t s) s := by
  unfold execStateCopyEnd
  refine Within.effect ?_ _
  repeat' first
    | with_reducible exact Within.pure _
    | with_reducible exact Within.rd _
    | with_reducible exact continueAct_within.of (by decide)
    | with_reducible refine Within.bind ?_ fun _ => ?_
    | with_reducible refine Within.onlyIf ?_
    | with_reducible refine Within.each fun _ => ?_
    | with_reducible refine Within.mapEach fun _ => ?_
    | split
    | dsimp only

theorem execThreadTimerDue_within {d : Nat} {s : State} : Effect [.regs, .threads, .delay, .sq] (execThreadTimerDue d s) s := by
  unfold execThreadTimerDue
  refine Within.effect ?_ _
  repeat' first
    | with_reducible exact Within.pure _
    | with_reducible exact Within.rd _
    | with_reducible exact (modThreads_within _ _).of (by decide)
    | with_reducible exact count_within.of (by decide)
    | with_reducible exact delayFree_within.of (by decide)
    | with_reducible exact setFlag_within.of (by decide)
    | with_reducible refine Within.bind ?_ fun _ => ?_
    | with_reducible refine Within.onlyIf ?_
    | with_reducible refine Within.each fun _ => ?_
    | with_reducible refine Within.mapEach fun _ => ?_
    | split
    | dsimp only

theorem execFlagWake_within {t : Nat} {s : State} : Effect [.desk, .regs, .threads, .acts, .ready, .ctxs, .sq] (execFlagWake t s) s := by
  unfold execFlagWake
  refine Within.effect ?_ _
  repeat' first
    | with_reducible exact Within.pure _
    | with_reducible exact Within.rd _
    | with_reducible exact (modSq_within _).of (by decide)
    | with_reducible exact breakStall_within.of (by decide)
    | with_reducible exact finishNext_within.of (by decide)
    | with_reducible exact getWork_within.of (by decide)
    | with_reducible refine Within.bind ?_ fun _ => ?_
    | with_reducible refine Within.onlyIf ?_
    | with_reducible refine Within.each fun _ => ?_
    | with_reducible refine Within.mapEach fun _ => ?_
    | split
    | dsimp only

end Sys2Proof.Machine
end

