-- ==== Sys2Proof/Laws/WithinCommit.lean ====
section
/-! SUPPORT. Which parts of the state the programs of Machine/Commit.lean change. -/

set_option linter.all false
set_option Elab.async false

namespace Sys2Proof.Machine

theorem setDone_within {g : Grp} {b : Bool} : Within [.regs] (setDone g b) := by
  unfold setDone
  repeat' first
    | with_reducible exact Within.pure _
    | with_reducible exact Within.rd _
    | with_reducible exact (modRegs_within _ _).of (by decide)
    | with_reducible refine Within.bind ?_ fun _ => ?_
    | with_reducible refine Within.onlyIf ?_
    | with_reducible refine Within.each fun _ => ?_
    | with_reducible refine Within.mapEach fun _ => ?_
    | split
    | dsimp only

theorem bringIntoForce_within {o : Origin} {off : Nat} : Within [.outbox, .mem, .bad, .regs, .act, .ddrs, .gb] (bringIntoForce o off) := by
  unfold bringIntoForce
  repeat' first
    | with_reducible exact Within.pure _
    | with_reducible exact Within.rd _
    | with_reducible exact (modAct_within _ _).of (by decide)
    | with_reducible exact gbRecord_within.of (by decide)
    | with_reducible refine Within.bind ?_ fun _ => ?_
    | with_reducible refine Within.onlyIf ?_
    | with_reducible refine Within.each fun _ => ?_
    | with_reducible refine Within.mapEach fun _ => ?_
    | split
    | dsimp only

theorem takeEffect_within {g : Grp} : Within [.outbox, .mem, .bad, .regs, .act, .ddrs, .locks, .ringLinks, .ring, .gb] (takeEffect g) := by
  unfold takeEffect
  repeat' first
    | with_reducible exact Within.pure _
    | with_reducible exact Within.rd _
    | with_reducible exact breakStall_within.of (by decide)
    | with_reducible exact bringIntoForce_within.of (by decide)
    | with_reducible refine gbTrack_within (by decide) ?_
    | with_reducible exact lockBoostAll_within.of (by decide)
    | with_reducible exact reserveFlags_within.of (by decide)
    | with_reducible refine ringTrack_within (by decide) ?_
    | with_reducible exact setRef2x_within.of (by decide)
    | with_reducible refine Within.bind ?_ fun _ => ?_
    | with_reducible refine Within.onlyIf ?_
    | with_reducible refine Within.each fun _ => ?_
    | with_reducible refine Within.mapEach fun _ => ?_
    | split
    | dsimp only

theorem goGrp_within {o : Origin} {g : Grp} : Within [.regs, .pendc, .goBy] (goGrp o g) := by
  unfold goGrp
  repeat' first
    | with_reducible exact Within.pure _
    | with_reducible exact Within.rd _
    | (with_reducible refine Within.emit ?_); rfl
    | with_reducible exact setDone_within.of (by decide)
    | with_reducible refine Within.bind ?_ fun _ => ?_
    | with_reducible refine Within.onlyIf ?_
    | with_reducible refine Within.each fun _ => ?_
    | with_reducible refine Within.mapEach fun _ => ?_
    | split
    | dsimp only

theorem bgCommits_within : Within [.outbox, .regs, .hostq, .bg] (bgCommits) := by
  unfold bgCommits
  repeat' first
    | with_reducible exact Within.pure _
    | with_reducible exact Within.rd _
    | with_reducible exact bgEnd_within.of (by decide)
    | with_reducible refine Within.bind ?_ fun _ => ?_
    | with_reducible refine Within.onlyIf ?_
    | with_reducible refine Within.each fun _ => ?_
    | with_reducible refine Within.mapEach fun _ => ?_
    | split
    | dsimp only

theorem reachSafe_within {g : Grp} : Within [.outbox, .mem, .bad, .regs, .act, .ddrs, .locks, .hostq, .ringLinks, .ring, .gb, .bg] (reachSafe g) := by
  unfold reachSafe
  repeat' first
    | with_reducible exact Within.pure _
    | with_reducible exact Within.rd _
    | with_reducible exact bgCommits_within.of (by decide)
    | with_reducible exact setDone_within.of (by decide)
    | with_reducible exact takeEffect_within.of (by decide)
    | with_reducible refine Within.bind ?_ fun _ => ?_
    | with_reducible refine Within.onlyIf ?_
    | with_reducible refine Within.each fun _ => ?_
    | with_reducible refine Within.mapEach fun _ => ?_
    | split
    | dsimp only

theorem commitGrp_within {o : Origin} {g : Grp} : Within [.outbox, .mem, .bad, .regs, .act, .pendc, .goBy, .ddrs, .locks, .hostq, .ringLinks, .ring, .gb, .bg] (commitGrp o g) := by
  unfold commitGrp
  repeat' first
    | with_reducible exact Within.pure _
    | with_reducible exact Within.rd _
    | with_reducible exact goGrp_within.of (by decide)
    | with_reducible exact reachSafe_within.of (by decide)
    | with_reducible refine Within.bind ?_ fun _ => ?_
    | with_reducible refine Within.onlyIf ?_
    | with_reducible refine Within.each fun _ => ?_
    | with_reducible refine Within.mapEach fun _ => ?_
    | split
    | dsimp only

theorem execCommitSafePoint_within {g : Grp} {s : State} : Effect [.outbox, .mem, .bad, .regs, .act, .ddrs, .locks, .hostq, .ringLinks, .ring, .gb, .bg] (execCommitSafePoint g s) s := by
  unfold execCommitSafePoint
  refine Within.effect ?_ _
  repeat' first
    | with_reducible exact Within.pure _
    | with_reducible exact Within.rd _
    | with_reducible exact reachSafe_within.of (by decide)
    | with_reducible refine Within.bind ?_ fun _ => ?_
    | with_reducible refine Within.onlyIf ?_
    | with_reducible refine Within.each fun _ => ?_
    | with_reducible refine Within.mapEach fun _ => ?_
    | split
    | dsimp only

end Sys2Proof.Machine
end

