-- ==== Sys2Proof/Laws/WithinAccess.lean ====
section
/-! SUPPORT. Which parts of the state the programs of Machine/Access.lean change. -/

set_option linter.all false
set_option Elab.async false

namespace Sys2Proof.Machine

theorem access_within {o : Who} {off : Nat} {en : Nat} {p : M Unit} {qs : List StatePart} (hs : [.regs].all qs.contains = true) (h0 : Within qs (p)) : Within qs (access o off en p) := by
  unfold access
  repeat' first
    | with_reducible exact Within.pure _
    | with_reducible exact Within.rd _
    | with_reducible exact h0
    | with_reducible exact count_within.of (parts_trans (by decide) hs)
    | with_reducible refine Within.bind ?_ fun _ => ?_
    | with_reducible refine Within.onlyIf ?_
    | with_reducible refine Within.each fun _ => ?_
    | with_reducible refine Within.mapEach fun _ => ?_
    | split
    | dsimp only

theorem regRecord_within {o : Origin} {action : Nat} {off : Nat} {old : Word} {new : Word} : Within [.outbox, .mem, .bad, .regs, .ddrs, .gb] (regRecord o action off old new) := by
  unfold regRecord
  repeat' first
    | with_reducible exact Within.pure _
    | with_reducible exact Within.rd _
    | with_reducible exact gbRecord_within.of (by decide)
    | with_reducible refine Within.bind ?_ fun _ => ?_
    | with_reducible refine Within.onlyIf ?_
    | with_reducible refine Within.each fun _ => ?_
    | with_reducible refine Within.mapEach fun _ => ?_
    | split
    | dsimp only

end Sys2Proof.Machine
end

