-- ==== Sys2Proof/Laws/WithinPorts.lean ====
section
/-! SUPPORT. Which parts of the state the programs of Machine/Ports.lean change. -/

set_option linter.all false
set_option Elab.async false

namespace Sys2Proof.Machine

theorem pauseFrame_within {p : Nat} {quanta : Nat} : Within [.regs, .ports] (pauseFrame p quanta) := by
  unfold pauseFrame
  repeat' first
    | with_reducible exact Within.pure _
    | with_reducible exact Within.rd _
    | with_reducible exact (modPorts_within _ _).of (by decide)
    | with_reducible exact count_within.of (by decide)
    | with_reducible refine Within.bind ?_ fun _ => ?_
    | with_reducible refine Within.onlyIf ?_
    | with_reducible refine Within.each fun _ => ?_
    | with_reducible refine Within.mapEach fun _ => ?_
    | split
    | dsimp only

theorem pfcFrame_within {p : Nat} {enable : Nat} {quanta : List Nat} : Within [.regs, .ports] (pfcFrame p enable quanta) := by
  unfold pfcFrame
  repeat' first
    | with_reducible exact Within.pure _
    | with_reducible exact Within.rd _
    | with_reducible exact (modPorts_within _ _).of (by decide)
    | with_reducible exact count_within.of (by decide)
    | with_reducible refine Within.bind ?_ fun _ => ?_
    | with_reducible refine Within.onlyIf ?_
    | with_reducible refine Within.each fun _ => ?_
    | with_reducible refine Within.mapEach fun _ => ?_
    | split
    | dsimp only

theorem macControl_within {p : Nat} {f : List Byte} : Within [.regs, .ports] (macControl p f) := by
  unfold macControl
  repeat' first
    | with_reducible exact Within.pure _
    | with_reducible exact Within.rd _
    | with_reducible exact count_within.of (by decide)
    | with_reducible exact pauseFrame_within.of (by decide)
    | with_reducible exact pfcFrame_within.of (by decide)
    | with_reducible refine Within.bind ?_ fun _ => ?_
    | with_reducible refine Within.onlyIf ?_
    | with_reducible refine Within.each fun _ => ?_
    | with_reducible refine Within.mapEach fun _ => ?_
    | split
    | dsimp only

theorem acceptFrame_within {p : Nat} {f : List Byte} : Within [.regs, .ports] (acceptFrame p f) := by
  unfold acceptFrame
  repeat' first
    | with_reducible exact Within.pure _
    | with_reducible exact Within.rd _
    | with_reducible exact (modPorts_within _ _).of (by decide)
    | with_reducible exact count_within.of (by decide)
    | with_reducible exact macControl_within.of (by decide)
    | with_reducible refine Within.bind ?_ fun _ => ?_
    | with_reducible refine Within.onlyIf ?_
    | with_reducible refine Within.each fun _ => ?_
    | with_reducible refine Within.mapEach fun _ => ?_
    | split
    | dsimp only

theorem uncorrCodeword_within {p : Nat} : Within [.outbox, .regs] (uncorrCodeword p) := by
  unfold uncorrCodeword
  repeat' first
    | with_reducible exact Within.pure _
    | with_reducible exact Within.rd _
    | with_reducible exact count_within.of (by decide)
    | with_reducible exact sticky_within.of (by decide)
    | with_reducible refine Within.bind ?_ fun _ => ?_
    | with_reducible refine Within.onlyIf ?_
    | with_reducible refine Within.each fun _ => ?_
    | with_reducible refine Within.mapEach fun _ => ?_
    | split
    | dsimp only

theorem execFrameReceive_within {p : Nat} {bytes : List Byte} {err : FrameErr} {s : State} : Effect [.outbox, .regs, .ports] (execFrameReceive p bytes err s) s := by
  unfold execFrameReceive
  refine Within.effect ?_ _
  repeat' first
    | with_reducible exact Within.pure _
    | with_reducible exact Within.rd _
    | with_reducible exact acceptFrame_within.of (by decide)
    | with_reducible exact count_within.of (by decide)
    | with_reducible exact countBy_within.of (by decide)
    | with_reducible exact uncorrCodeword_within.of (by decide)
    | with_reducible refine Within.bind ?_ fun _ => ?_
    | with_reducible refine Within.onlyIf ?_
    | with_reducible refine Within.each fun _ => ?_
    | with_reducible refine Within.mapEach fun _ => ?_
    | split
    | dsimp only

theorem execPauseFrameReceive_within {p : Nat} {quanta : Nat} {s : State} : Effect [.regs, .ports] (execPauseFrameReceive p quanta s) s := by
  unfold execPauseFrameReceive
  refine Within.effect ?_ _
  repeat' first
    | with_reducible exact Within.pure _
    | with_reducible exact Within.rd _
    | with_reducible exact count_within.of (by decide)
    | with_reducible exact countBy_within.of (by decide)
    | with_reducible exact pauseFrame_within.of (by decide)
    | with_reducible refine Within.bind ?_ fun _ => ?_
    | with_reducible refine Within.onlyIf ?_
    | with_reducible refine Within.each fun _ => ?_
    | with_reducible refine Within.mapEach fun _ => ?_
    | split
    | dsimp only

theorem execPfcFrameReceive_within {p : Nat} {enable : Nat} {quanta : List Nat} {s : State} : Effect [.regs, .ports] (execPfcFrameReceive p enable quanta s) s := by
  unfold execPfcFrameReceive
  refine Within.effect ?_ _
  repeat' first
    | with_reducible exact Within.pure _
    | with_reducible exact Within.rd _
    | with_reducible exact count_within.of (by decide)
    | with_reducible exact countBy_within.of (by decide)
    | with_reducible exact pfcFrame_within.of (by decide)
    | with_reducible refine Within.bind ?_ fun _ => ?_
    | with_reducible refine Within.onlyIf ?_
    | with_reducible refine Within.each fun _ => ?_
    | with_reducible refine Within.mapEach fun _ => ?_
    | split
    | dsimp only

theorem execPauseExpire_within {p : Nat} {prio : Option Nat} {s : State} : Effect [.free, .regs, .ports] (execPauseExpire p prio s) s := by
  unfold execPauseExpire
  refine Within.effect ?_ _
  repeat' first
    | with_reducible exact Within.pure _
    | with_reducible exact Within.rd _
    | with_reducible exact (modPorts_within _ _).of (by decide)
    | with_reducible exact countBy_within.of (by decide)
    | with_reducible exact draw_within.of (by decide)
    | with_reducible refine Within.bind ?_ fun _ => ?_
    | with_reducible refine Within.onlyIf ?_
    | with_reducible refine Within.each fun _ => ?_
    | with_reducible refine Within.mapEach fun _ => ?_
    | split
    | dsimp only

theorem execPauseStorm_within {p : Nat} {q : Nat} {s : State} : Effect [.outbox, .regs] (execPauseStorm p q s) s := by
  unfold execPauseStorm
  refine Within.effect ?_ _
  repeat' first
    | with_reducible exact Within.pure _
    | with_reducible exact Within.rd _
    | with_reducible exact sticky_within.of (by decide)
    | with_reducible refine Within.bind ?_ fun _ => ?_
    | with_reducible refine Within.onlyIf ?_
    | with_reducible refine Within.each fun _ => ?_
    | with_reducible refine Within.mapEach fun _ => ?_
    | split
    | dsimp only

theorem execUncorrectableCodeword_within {p : Nat} {s : State} : Effect [.outbox, .regs] (execUncorrectableCodeword p s) s := by
  unfold execUncorrectableCodeword
  refine Within.effect ?_ _
  repeat' first
    | with_reducible exact Within.pure _
    | with_reducible exact Within.rd _
    | with_reducible exact uncorrCodeword_within.of (by decide)
    | with_reducible refine Within.bind ?_ fun _ => ?_
    | with_reducible refine Within.onlyIf ?_
    | with_reducible refine Within.each fun _ => ?_
    | with_reducible refine Within.mapEach fun _ => ?_
    | split
    | dsimp only

theorem portPush_within {p : Nat} {q : Nat} {f : TxFrame} : Within [.regs, .ports] (portPush p q f) := by
  unfold portPush
  repeat' first
    | with_reducible exact Within.pure _
    | with_reducible exact Within.rd _
    | with_reducible exact (modPorts_within _ _).of (by decide)
    | with_reducible exact count_within.of (by decide)
    | with_reducible refine Within.bind ?_ fun _ => ?_
    | with_reducible refine Within.onlyIf ?_
    | with_reducible refine Within.each fun _ => ?_
    | with_reducible refine Within.mapEach fun _ => ?_
    | split
    | dsimp only

theorem execFrameTransmit_within {p : Nat} {s : State} : Effect [.outbox, .regs, .bufs, .pools, .ports] (execFrameTransmit p s) s := by
  unfold execFrameTransmit
  refine Within.effect ?_ _
  repeat' first
    | with_reducible exact Within.pure _
    | with_reducible exact Within.rd _
    | with_reducible exact (modPorts_within _ _).of (by decide)
    | (with_reducible refine Within.emit ?_); rfl
    | with_reducible exact bufDrop_within.of (by decide)
    | with_reducible exact count_within.of (by decide)
    | with_reducible exact countBy_within.of (by decide)
    | with_reducible exact send_within.of (by decide)
    | with_reducible exact sticky_within.of (by decide)
    | with_reducible refine Within.bind ?_ fun _ => ?_
    | with_reducible refine Within.onlyIf ?_
    | with_reducible refine Within.each fun _ => ?_
    | with_reducible refine Within.mapEach fun _ => ?_
    | split
    | dsimp only

theorem txtsPop_within {p : Nat} {v : Word} : Within [.ports] (txtsPop p v) := by
  unfold txtsPop
  repeat' first
    | with_reducible exact Within.pure _
    | with_reducible exact Within.rd _
    | with_reducible exact (modPorts_within _ _).of (by decide)
    | with_reducible refine Within.bind ?_ fun _ => ?_
    | with_reducible refine Within.onlyIf ?_
    | with_reducible refine Within.each fun _ => ?_
    | with_reducible refine Within.mapEach fun _ => ?_
    | split
    | dsimp only

theorem execTxtsPop_within {o : Who} {p : Nat} {en : Nat} {v : Word} {s : State} : Effect [.regs, .ports] (execTxtsPop o p en v s) s := by
  unfold execTxtsPop
  refine Within.effect ?_ _
  repeat' first
    | with_reducible exact Within.pure _
    | with_reducible exact Within.rd _
    | with_reducible refine access_within (by decide) ?_
    | with_reducible exact txtsPop_within.of (by decide)
    | with_reducible refine Within.bind ?_ fun _ => ?_
    | with_reducible refine Within.onlyIf ?_
    | with_reducible refine Within.each fun _ => ?_
    | with_reducible refine Within.mapEach fun _ => ?_
    | split
    | dsimp only

end Sys2Proof.Machine
end

