-- ==== Sys2Proof/Laws/WithinFst.lean ====
section
/-! SUPPORT. Which parts of the state the programs of Machine/Fst.lean change. -/

set_option linter.all false
set_option Elab.async false

namespace Sys2Proof.Machine

theorem modStream_within {id : Nat} {g : Stream → Stream} : Within [.streams] (modStream id g) := by
  unfold modStream
  repeat' first
    | with_reducible exact Within.pure _
    | with_reducible exact Within.rd _
    | with_reducible exact (modStreams_within _ _).of (by decide)
    | with_reducible refine Within.bind ?_ fun _ => ?_
    | with_reducible refine Within.onlyIf ?_
    | with_reducible refine Within.each fun _ => ?_
    | with_reducible refine Within.mapEach fun _ => ?_
    | split
    | dsimp only

theorem readData_within {a : Nat} {n : Nat} : Within [.free, .outbox, .regs, .fc] (readData a n) := by
  unfold readData
  repeat' first
    | with_reducible exact Within.pure _
    | with_reducible exact Within.rd _
    | with_reducible exact draw_within.of (by decide)
    | with_reducible exact reportBads_within.of (by decide)
    | with_reducible refine Within.bind ?_ fun _ => ?_
    | with_reducible refine Within.onlyIf ?_
    | with_reducible refine Within.each fun _ => ?_
    | with_reducible refine Within.mapEach fun _ => ?_
    | split
    | dsimp only

theorem sendControl_within {id : Nat} {ty : Nat} {seq : Nat} {lenInfo : Nat} : Within [.free, .regs, .ports] (sendControl id ty seq lenInfo) := by
  unfold sendControl
  repeat' first
    | with_reducible exact Within.pure _
    | with_reducible exact Within.rd _
    | with_reducible exact count_within.of (by decide)
    | with_reducible exact draw_within.of (by decide)
    | with_reducible exact portPush_within.of (by decide)
    | with_reducible refine Within.bind ?_ fun _ => ?_
    | with_reducible refine Within.onlyIf ?_
    | with_reducible refine Within.each fun _ => ?_
    | with_reducible refine Within.mapEach fun _ => ?_
    | split
    | dsimp only

theorem streamRemove_within {id : Nat} : Within [.streams] (streamRemove id) := by
  unfold streamRemove
  repeat' first
    | with_reducible exact Within.pure _
    | with_reducible exact Within.rd _
    | (with_reducible refine Within.emit ?_); rfl
    | with_reducible refine Within.bind ?_ fun _ => ?_
    | with_reducible refine Within.onlyIf ?_
    | with_reducible refine Within.each fun _ => ?_
    | with_reducible refine Within.mapEach fun _ => ?_
    | split
    | dsimp only

theorem nakCheck_within {id : Nat} : Within [.free, .regs, .streams, .ports] (nakCheck id) := by
  unfold nakCheck
  repeat' first
    | with_reducible exact Within.pure _
    | with_reducible exact Within.rd _
    | with_reducible exact modStream_within.of (by decide)
    | with_reducible exact sendControl_within.of (by decide)
    | with_reducible refine Within.bind ?_ fun _ => ?_
    | with_reducible refine Within.onlyIf ?_
    | with_reducible refine Within.each fun _ => ?_
    | with_reducible refine Within.mapEach fun _ => ?_
    | split
    | dsimp only

theorem sendAck_within {id : Nat} : Within [.free, .regs, .streams, .ports] (sendAck id) := by
  unfold sendAck
  repeat' first
    | with_reducible exact Within.pure _
    | with_reducible exact Within.rd _
    | with_reducible exact modStream_within.of (by decide)
    | with_reducible exact sendControl_within.of (by decide)
    | with_reducible refine Within.bind ?_ fun _ => ?_
    | with_reducible refine Within.onlyIf ?_
    | with_reducible refine Within.each fun _ => ?_
    | with_reducible refine Within.mapEach fun _ => ?_
    | split
    | dsimp only

theorem rxDone_within {id : Nat} {seq : Nat} : Within [.free, .regs, .streams, .ports] (rxDone id seq) := by
  unfold rxDone
  repeat' first
    | with_reducible exact Within.pure _
    | with_reducible exact Within.rd _
    | with_reducible exact modStream_within.of (by decide)
    | with_reducible exact nakCheck_within.of (by decide)
    | with_reducible exact sendAck_within.of (by decide)
    | with_reducible refine Within.bind ?_ fun _ => ?_
    | with_reducible refine Within.onlyIf ?_
    | with_reducible refine Within.each fun _ => ?_
    | with_reducible refine Within.mapEach fun _ => ?_
    | split
    | dsimp only

theorem dropRxMsg_within {id : Nat} {seq : Nat} : Within [.regs, .bufs, .pools, .streams] (dropRxMsg id seq) := by
  unfold dropRxMsg
  repeat' first
    | with_reducible exact Within.pure _
    | with_reducible exact Within.rd _
    | with_reducible exact bufDrop_within.of (by decide)
    | with_reducible exact modStream_within.of (by decide)
    | with_reducible refine Within.bind ?_ fun _ => ?_
    | with_reducible refine Within.onlyIf ?_
    | with_reducible refine Within.each fun _ => ?_
    | with_reducible refine Within.mapEach fun _ => ?_
    | split
    | dsimp only

theorem dropHeld_within {id : Nat} : Within [.regs, .bufs, .pools, .streams] (dropHeld id) := by
  unfold dropHeld
  repeat' first
    | with_reducible exact Within.pure _
    | with_reducible exact Within.rd _
    | with_reducible exact dropRxMsg_within.of (by decide)
    | with_reducible exact modStream_within.of (by decide)
    | with_reducible refine Within.bind ?_ fun _ => ?_
    | with_reducible refine Within.onlyIf ?_
    | with_reducible refine Within.each fun _ => ?_
    | with_reducible refine Within.mapEach fun _ => ?_
    | split
    | dsimp only

theorem holdSegment_within {id : Nat} {f : FstFrame} : Within [.streams] (holdSegment id f) := by
  unfold holdSegment
  repeat' first
    | with_reducible exact Within.pure _
    | with_reducible exact Within.rd _
    | with_reducible exact modStream_within.of (by decide)
    | with_reducible refine Within.bind ?_ fun _ => ?_
    | with_reducible refine Within.onlyIf ?_
    | with_reducible refine Within.each fun _ => ?_
    | with_reducible refine Within.mapEach fun _ => ?_
    | split
    | dsimp only

theorem holdFirst_within {id : Nat} {st : Stream} {f : FstFrame} : Within [.outbox, .regs, .bufs, .pools, .streams] (holdFirst id st f) := by
  unfold holdFirst
  repeat' first
    | with_reducible exact Within.pure _
    | with_reducible exact Within.rd _
    | with_reducible exact count_within.of (by decide)
    | with_reducible exact holdSegment_within.of (by decide)
    | with_reducible exact modStream_within.of (by decide)
    | with_reducible exact poolAlloc_within.of (by decide)
    | with_reducible exact sticky_within.of (by decide)
    | with_reducible refine Within.bind ?_ fun _ => ?_
    | with_reducible refine Within.onlyIf ?_
    | with_reducible refine Within.each fun _ => ?_
    | with_reducible refine Within.mapEach fun _ => ?_
    | split
    | dsimp only

theorem windowSegment_within {id : Nat} {st : Stream} {f : FstFrame} : Within [.free, .outbox, .regs, .bufs, .pools, .streams, .ports] (windowSegment id st f) := by
  unfold windowSegment
  repeat' first
    | with_reducible exact Within.pure _
    | with_reducible exact Within.rd _
    | with_reducible exact count_within.of (by decide)
    | with_reducible exact dropRxMsg_within.of (by decide)
    | with_reducible exact holdFirst_within.of (by decide)
    | with_reducible exact holdSegment_within.of (by decide)
    | with_reducible exact nakCheck_within.of (by decide)
    | with_reducible refine Within.bind ?_ fun _ => ?_
    | with_reducible refine Within.onlyIf ?_
    | with_reducible refine Within.each fun _ => ?_
    | with_reducible refine Within.mapEach fun _ => ?_
    | split
    | dsimp only

theorem dataSegment_within {id : Nat} {st : Stream} {f : FstFrame} : Within [.free, .outbox, .regs, .bufs, .pools, .streams, .ports] (dataSegment id st f) := by
  unfold dataSegment
  repeat' first
    | with_reducible exact Within.pure _
    | with_reducible exact Within.rd _
    | with_reducible exact count_within.of (by decide)
    | with_reducible exact modStream_within.of (by decide)
    | with_reducible exact sendAck_within.of (by decide)
    | with_reducible exact windowSegment_within.of (by decide)
    | with_reducible refine Within.bind ?_ fun _ => ?_
    | with_reducible refine Within.onlyIf ?_
    | with_reducible refine Within.each fun _ => ?_
    | with_reducible refine Within.mapEach fun _ => ?_
    | split
    | dsimp only

theorem takeFrame_within {p : Nat} {ty : Nat} {tx : Option Bool} {body : Nat → Stream → FstFrame → M Unit} {qs : List StatePart} (hs : [.free, .regs, .streams, .ports].all qs.contains = true) (h0 : ∀ a0 a1 a2, Within qs (body a0 a1 a2)) : Within qs (takeFrame p ty tx body) := by
  unfold takeFrame
  repeat' first
    | with_reducible exact Within.pure _
    | with_reducible exact Within.rd _
    | with_reducible exact h0 _ _ _
    | (with_reducible refine Within.emit ?_); exact parts_mem hs rfl
    | with_reducible exact count_within.of (parts_trans (by decide) hs)
    | with_reducible exact draw_within.of (parts_trans (by decide) hs)
    | with_reducible exact modStream_within.of (parts_trans (by decide) hs)
    | with_reducible refine Within.bind ?_ fun _ => ?_
    | with_reducible refine Within.onlyIf ?_
    | with_reducible refine Within.each fun _ => ?_
    | with_reducible refine Within.mapEach fun _ => ?_
    | split
    | dsimp only

theorem execFstDataReceive_within {p : Nat} {s : State} : Effect [.free, .outbox, .regs, .bufs, .pools, .streams, .ports] (execFstDataReceive p s) s := by
  unfold execFstDataReceive
  refine Within.effect ?_ _
  repeat' first
    | with_reducible exact Within.pure _
    | with_reducible exact Within.rd _
    | with_reducible exact count_within.of (by decide)
    | with_reducible exact dataSegment_within.of (by decide)
    | with_reducible refine takeFrame_within (by decide) (fun _ _ _ => ?_)
    | with_reducible refine Within.bind ?_ fun _ => ?_
    | with_reducible refine Within.onlyIf ?_
    | with_reducible refine Within.each fun _ => ?_
    | with_reducible refine Within.mapEach fun _ => ?_
    | split
    | dsimp only

theorem execNakRepeat_within {id : Nat} {s : State} : Effect [.free, .regs, .ports] (execNakRepeat id s) s := by
  unfold execNakRepeat
  refine Within.effect ?_ _
  repeat' first
    | with_reducible exact Within.pure _
    | with_reducible exact Within.rd _
    | with_reducible exact sendControl_within.of (by decide)
    | with_reducible refine Within.bind ?_ fun _ => ?_
    | with_reducible refine Within.onlyIf ?_
    | with_reducible refine Within.each fun _ => ?_
    | with_reducible refine Within.mapEach fun _ => ?_
    | split
    | dsimp only

theorem execAckDelayExpire_within {id : Nat} {s : State} : Effect [.free, .regs, .streams, .ports] (execAckDelayExpire id s) s := by
  unfold execAckDelayExpire
  refine Within.effect ?_ _
  repeat' first
    | with_reducible exact Within.pure _
    | with_reducible exact Within.rd _
    | with_reducible exact sendAck_within.of (by decide)
    | with_reducible refine Within.bind ?_ fun _ => ?_
    | with_reducible refine Within.onlyIf ?_
    | with_reducible refine Within.each fun _ => ?_
    | with_reducible refine Within.mapEach fun _ => ?_
    | split
    | dsimp only

theorem execFstHelloRxStream_within {p : Nat} {s : State} : Effect [.free, .regs, .streams, .ports] (execFstHelloRxStream p s) s := by
  unfold execFstHelloRxStream
  refine Within.effect ?_ _
  repeat' first
    | with_reducible exact Within.pure _
    | with_reducible exact Within.rd _
    | with_reducible exact modStream_within.of (by decide)
    | with_reducible exact sendControl_within.of (by decide)
    | with_reducible refine takeFrame_within (by decide) (fun _ _ _ => ?_)
    | with_reducible refine Within.bind ?_ fun _ => ?_
    | with_reducible refine Within.onlyIf ?_
    | with_reducible refine Within.each fun _ => ?_
    | with_reducible refine Within.mapEach fun _ => ?_
    | split
    | dsimp only

theorem execFstCloseRxStream_within {p : Nat} {s : State} : Effect [.free, .regs, .streams, .ports] (execFstCloseRxStream p s) s := by
  unfold execFstCloseRxStream
  refine Within.effect ?_ _
  repeat' first
    | with_reducible exact Within.pure _
    | with_reducible exact Within.rd _
    | with_reducible exact count_within.of (by decide)
    | with_reducible exact modStream_within.of (by decide)
    | with_reducible refine takeFrame_within (by decide) (fun _ _ _ => ?_)
    | with_reducible refine Within.bind ?_ fun _ => ?_
    | with_reducible refine Within.onlyIf ?_
    | with_reducible refine Within.each fun _ => ?_
    | with_reducible refine Within.mapEach fun _ => ?_
    | split
    | dsimp only

theorem execRxStreamCloseDone_within {id : Nat} {s : State} : Effect [.free, .regs, .bufs, .pools, .streams, .ports] (execRxStreamCloseDone id s) s := by
  unfold execRxStreamCloseDone
  refine Within.effect ?_ _
  repeat' first
    | with_reducible exact Within.pure _
    | with_reducible exact Within.rd _
    | with_reducible exact dropHeld_within.of (by decide)
    | with_reducible exact sendControl_within.of (by decide)
    | with_reducible exact streamRemove_within.of (by decide)
    | with_reducible refine Within.bind ?_ fun _ => ?_
    | with_reducible refine Within.onlyIf ?_
    | with_reducible refine Within.each fun _ => ?_
    | with_reducible refine Within.mapEach fun _ => ?_
    | split
    | dsimp only

theorem sendMessage_within {id : Nat} {m : TxMsg} {retx : Bool} : Within [.free, .outbox, .regs, .ports, .fc] (sendMessage id m retx) := by
  unfold sendMessage
  repeat' first
    | with_reducible exact Within.pure _
    | with_reducible exact Within.rd _
    | with_reducible exact count_within.of (by decide)
    | with_reducible exact draw_within.of (by decide)
    | with_reducible exact portPush_within.of (by decide)
    | with_reducible exact readData_within.of (by decide)
    | with_reducible refine Within.bind ?_ fun _ => ?_
    | with_reducible refine Within.onlyIf ?_
    | with_reducible refine Within.each fun _ => ?_
    | with_reducible refine Within.mapEach fun _ => ?_
    | split
    | dsimp only

theorem dropTx_within {m : TxMsg} : Within [.regs, .bufs, .pools] (dropTx m) := by
  unfold dropTx
  repeat' first
    | with_reducible exact Within.pure _
    | with_reducible exact Within.rd _
    | with_reducible exact bufDrop_within.of (by decide)
    | with_reducible exact count_within.of (by decide)
    | with_reducible refine Within.bind ?_ fun _ => ?_
    | with_reducible refine Within.onlyIf ?_
    | with_reducible refine Within.each fun _ => ?_
    | with_reducible refine Within.mapEach fun _ => ?_
    | split
    | dsimp only

theorem txRelease_within {id : Nat} : Within [.regs, .bufs, .pools, .streams] (txRelease id) := by
  unfold txRelease
  repeat' first
    | with_reducible exact Within.pure _
    | with_reducible exact Within.rd _
    | with_reducible exact bufDrop_within.of (by decide)
    | with_reducible exact dropTx_within.of (by decide)
    | with_reducible exact modStream_within.of (by decide)
    | with_reducible refine Within.bind ?_ fun _ => ?_
    | with_reducible refine Within.onlyIf ?_
    | with_reducible refine Within.each fun _ => ?_
    | with_reducible refine Within.mapEach fun _ => ?_
    | split
    | dsimp only

theorem txClose_within {id : Nat} {result : Nat} : Within [.outbox, .mem, .bad, .regs, .ddrs, .bufs, .pools, .streams, .hostq, .gb, .bg] (txClose id result) := by
  unfold txClose
  repeat' first
    | with_reducible exact Within.pure _
    | with_reducible exact Within.rd _
    | with_reducible exact bgEnd_within.of (by decide)
    | with_reducible exact gbRecord_within.of (by decide)
    | with_reducible exact streamRemove_within.of (by decide)
    | with_reducible exact txRelease_within.of (by decide)
    | with_reducible refine Within.bind ?_ fun _ => ?_
    | with_reducible refine Within.onlyIf ?_
    | with_reducible refine Within.each fun _ => ?_
    | with_reducible refine Within.mapEach fun _ => ?_
    | split
    | dsimp only

theorem txFail_within {id : Nat} : Within [.outbox, .mem, .bad, .regs, .ddrs, .bufs, .pools, .streams, .hostq, .gb, .bg] (txFail id) := by
  unfold txFail
  repeat' first
    | with_reducible exact Within.pure _
    | with_reducible exact Within.rd _
    | with_reducible exact count_within.of (by decide)
    | with_reducible exact modStream_within.of (by decide)
    | with_reducible exact sticky_within.of (by decide)
    | with_reducible exact txClose_within.of (by decide)
    | with_reducible exact txRelease_within.of (by decide)
    | with_reducible refine Within.bind ?_ fun _ => ?_
    | with_reducible refine Within.onlyIf ?_
    | with_reducible refine Within.each fun _ => ?_
    | with_reducible refine Within.mapEach fun _ => ?_
    | split
    | dsimp only

theorem closeCheck_within {id : Nat} : Within [.free, .regs, .streams, .ports] (closeCheck id) := by
  unfold closeCheck
  repeat' first
    | with_reducible exact Within.pure _
    | with_reducible exact Within.rd _
    | with_reducible exact modStream_within.of (by decide)
    | with_reducible exact sendControl_within.of (by decide)
    | with_reducible refine Within.bind ?_ fun _ => ?_
    | with_reducible refine Within.onlyIf ?_
    | with_reducible refine Within.each fun _ => ?_
    | with_reducible refine Within.mapEach fun _ => ?_
    | split
    | dsimp only

theorem streamRelease_within {id : Nat} {classroom : Nat} {e : Egress} {urgent : Bool} : Within [.outbox, .mem, .bad, .regs, .ddrs, .bufs, .pools, .streams, .hostq, .gb, .bg] (streamRelease id classroom e urgent) := by
  unfold streamRelease
  repeat' first
    | with_reducible exact Within.pure _
    | with_reducible exact Within.rd _
    | with_reducible exact bufDrop_within.of (by decide)
    | with_reducible exact count_within.of (by decide)
    | with_reducible exact dropTx_within.of (by decide)
    | with_reducible exact modStream_within.of (by decide)
    | with_reducible exact txFail_within.of (by decide)
    | with_reducible refine Within.bind ?_ fun _ => ?_
    | with_reducible refine Within.onlyIf ?_
    | with_reducible refine Within.each fun _ => ?_
    | with_reducible refine Within.mapEach fun _ => ?_
    | split
    | dsimp only

theorem execFstTxSend_within {id : Nat} {s : State} : Effect [.free, .outbox, .regs, .streams, .ports, .fc] (execFstTxSend id s) s := by
  unfold execFstTxSend
  refine Within.effect ?_ _
  repeat' first
    | with_reducible exact Within.pure _
    | with_reducible exact Within.rd _
    | with_reducible exact modStream_within.of (by decide)
    | with_reducible exact sendMessage_within.of (by decide)
    | with_reducible refine Within.bind ?_ fun _ => ?_
    | with_reducible refine Within.onlyIf ?_
    | with_reducible refine Within.each fun _ => ?_
    | with_reducible refine Within.mapEach fun _ => ?_
    | split
    | dsimp only

theorem ackTo_within {id : Nat} {seq : Nat} : Within [.free, .regs, .bufs, .pools, .streams, .ports] (ackTo id seq) := by
  unfold ackTo
  repeat' first
    | with_reducible exact Within.pure _
    | with_reducible exact Within.rd _
    | with_reducible exact bufDrop_within.of (by decide)
    | with_reducible exact closeCheck_within.of (by decide)
    | with_reducible exact count_within.of (by decide)
    | with_reducible exact modStream_within.of (by decide)
    | with_reducible refine Within.bind ?_ fun _ => ?_
    | with_reducible refine Within.onlyIf ?_
    | with_reducible refine Within.each fun _ => ?_
    | with_reducible refine Within.mapEach fun _ => ?_
    | split
    | dsimp only

theorem execFstAckReceive_within {p : Nat} {s : State} : Effect [.free, .regs, .bufs, .pools, .streams, .ports] (execFstAckReceive p s) s := by
  unfold execFstAckReceive
  refine Within.effect ?_ _
  repeat' first
    | with_reducible exact Within.pure _
    | with_reducible exact Within.rd _
    | with_reducible exact ackTo_within.of (by decide)
    | with_reducible exact count_within.of (by decide)
    | with_reducible exact modStream_within.of (by decide)
    | with_reducible refine takeFrame_within (by decide) (fun _ _ _ => ?_)
    | with_reducible refine Within.bind ?_ fun _ => ?_
    | with_reducible refine Within.onlyIf ?_
    | with_reducible refine Within.each fun _ => ?_
    | with_reducible refine Within.mapEach fun _ => ?_
    | split
    | dsimp only

theorem execFstNakReceive_within {p : Nat} {s : State} : Effect [.free, .outbox, .regs, .streams, .ports, .fc] (execFstNakReceive p s) s := by
  unfold execFstNakReceive
  refine Within.effect ?_ _
  repeat' first
    | with_reducible exact Within.pure _
    | with_reducible exact Within.rd _
    | with_reducible exact count_within.of (by decide)
    | with_reducible exact sendMessage_within.of (by decide)
    | with_reducible refine takeFrame_within (by decide) (fun _ _ _ => ?_)
    | with_reducible refine Within.bind ?_ fun _ => ?_
    | with_reducible refine Within.onlyIf ?_
    | with_reducible refine Within.each fun _ => ?_
    | with_reducible refine Within.mapEach fun _ => ?_
    | split
    | dsimp only

theorem execFstHelloTxStream_within {p : Nat} {s : State} : Effect [.free, .regs, .bufs, .pools, .streams, .ports] (execFstHelloTxStream p s) s := by
  unfold execFstHelloTxStream
  refine Within.effect ?_ _
  repeat' first
    | with_reducible exact Within.pure _
    | with_reducible exact Within.rd _
    | with_reducible exact ackTo_within.of (by decide)
    | with_reducible exact count_within.of (by decide)
    | with_reducible exact modStream_within.of (by decide)
    | with_reducible exact sendControl_within.of (by decide)
    | with_reducible refine takeFrame_within (by decide) (fun _ _ _ => ?_)
    | with_reducible refine Within.bind ?_ fun _ => ?_
    | with_reducible refine Within.onlyIf ?_
    | with_reducible refine Within.each fun _ => ?_
    | with_reducible refine Within.mapEach fun _ => ?_
    | split
    | dsimp only

theorem execFstCloseTxStream_within {p : Nat} {s : State} : Effect [.free, .outbox, .mem, .bad, .regs, .ddrs, .bufs, .pools, .streams, .ports, .hostq, .gb, .bg] (execFstCloseTxStream p s) s := by
  unfold execFstCloseTxStream
  refine Within.effect ?_ _
  repeat' first
    | with_reducible exact Within.pure _
    | with_reducible exact Within.rd _
    | with_reducible exact count_within.of (by decide)
    | with_reducible exact sendControl_within.of (by decide)
    | with_reducible exact streamRemove_within.of (by decide)
    | with_reducible refine takeFrame_within (by decide) (fun _ _ _ => ?_)
    | with_reducible exact txClose_within.of (by decide)
    | with_reducible exact txRelease_within.of (by decide)
    | with_reducible refine Within.bind ?_ fun _ => ?_
    | with_reducible refine Within.onlyIf ?_
    | with_reducible refine Within.each fun _ => ?_
    | with_reducible refine Within.mapEach fun _ => ?_
    | split
    | dsimp only

theorem execFstRtoTimeout_within {id : Nat} {s : State} : Effect [.free, .outbox, .mem, .bad, .regs, .ddrs, .bufs, .pools, .streams, .ports, .hostq, .gb, .fc, .bg] (execFstRtoTimeout id s) s := by
  unfold execFstRtoTimeout
  refine Within.effect ?_ _
  repeat' first
    | with_reducible exact Within.pure _
    | with_reducible exact Within.rd _
    | with_reducible exact modStream_within.of (by decide)
    | with_reducible exact sendMessage_within.of (by decide)
    | with_reducible exact txFail_within.of (by decide)
    | with_reducible refine Within.bind ?_ fun _ => ?_
    | with_reducible refine Within.onlyIf ?_
    | with_reducible refine Within.each fun _ => ?_
    | with_reducible refine Within.mapEach fun _ => ?_
    | split
    | dsimp only

theorem sendHello_within {id : Nat} : Within [.free, .regs, .ports] (sendHello id) := by
  unfold sendHello
  repeat' first
    | with_reducible exact Within.pure _
    | with_reducible exact Within.rd _
    | with_reducible exact sendControl_within.of (by decide)
    | with_reducible refine Within.bind ?_ fun _ => ?_
    | with_reducible refine Within.onlyIf ?_
    | with_reducible refine Within.each fun _ => ?_
    | with_reducible refine Within.mapEach fun _ => ?_
    | split
    | dsimp only

theorem execHelloRtoTimeout_within {id : Nat} {s : State} : Effect [.free, .outbox, .mem, .bad, .regs, .ddrs, .bufs, .pools, .streams, .ports, .hostq, .gb, .bg] (execHelloRtoTimeout id s) s := by
  unfold execHelloRtoTimeout
  refine Within.effect ?_ _
  repeat' first
    | with_reducible exact Within.pure _
    | with_reducible exact Within.rd _
    | with_reducible exact modStream_within.of (by decide)
    | with_reducible exact sendHello_within.of (by decide)
    | with_reducible exact txFail_within.of (by decide)
    | with_reducible refine Within.bind ?_ fun _ => ?_
    | with_reducible refine Within.onlyIf ?_
    | with_reducible refine Within.each fun _ => ?_
    | with_reducible refine Within.mapEach fun _ => ?_
    | split
    | dsimp only

theorem execCloseRtoTimeout_within {id : Nat} {s : State} : Effect [.free, .outbox, .mem, .bad, .regs, .ddrs, .bufs, .pools, .streams, .ports, .hostq, .gb, .bg] (execCloseRtoTimeout id s) s := by
  unfold execCloseRtoTimeout
  refine Within.effect ?_ _
  repeat' first
    | with_reducible exact Within.pure _
    | with_reducible exact Within.rd _
    | with_reducible exact modStream_within.of (by decide)
    | with_reducible exact sendControl_within.of (by decide)
    | with_reducible exact txFail_within.of (by decide)
    | with_reducible refine Within.bind ?_ fun _ => ?_
    | with_reducible refine Within.onlyIf ?_
    | with_reducible refine Within.each fun _ => ?_
    | with_reducible refine Within.mapEach fun _ => ?_
    | split
    | dsimp only

theorem linkLost_within {p : Nat} : Within [.regs, .bufs, .pools, .streams, .ports] (linkLost p) := by
  unfold linkLost
  repeat' first
    | with_reducible exact Within.pure _
    | with_reducible exact Within.rd _
    | with_reducible exact (modPorts_within _ _).of (by decide)
    | with_reducible exact dropHeld_within.of (by decide)
    | with_reducible refine Within.bind ?_ fun _ => ?_
    | with_reducible refine Within.onlyIf ?_
    | with_reducible refine Within.each fun _ => ?_
    | with_reducible refine Within.mapEach fun _ => ?_
    | split
    | dsimp only

theorem setLink_within {p : Nat} {up : Bool} : Within [.outbox, .regs, .bufs, .pools, .streams, .ports] (setLink p up) := by
  unfold setLink
  repeat' first
    | with_reducible exact Within.pure _
    | with_reducible exact Within.rd _
    | with_reducible exact linkLost_within.of (by decide)
    | with_reducible exact setFld_within.of (by decide)
    | with_reducible exact sticky_within.of (by decide)
    | with_reducible refine Within.bind ?_ fun _ => ?_
    | with_reducible refine Within.onlyIf ?_
    | with_reducible refine Within.each fun _ => ?_
    | with_reducible refine Within.mapEach fun _ => ?_
    | split
    | dsimp only

theorem execClientLinkChange_within {p : Nat} {up : Bool} {s : State} : Effect [.outbox, .regs, .bufs, .pools, .streams, .ports] (execClientLinkChange p up s) s := by
  unfold execClientLinkChange
  refine Within.effect ?_ _
  repeat' first
    | with_reducible exact Within.pure _
    | with_reducible exact Within.rd _
    | with_reducible exact setLink_within.of (by decide)
    | with_reducible refine Within.bind ?_ fun _ => ?_
    | with_reducible refine Within.onlyIf ?_
    | with_reducible refine Within.each fun _ => ?_
    | with_reducible refine Within.mapEach fun _ => ?_
    | split
    | dsimp only

end Sys2Proof.Machine
end

