-- ==== Sys2Proof/Laws/WithinParse.lean ====
section
/-! SUPPORT. Which parts of the state the programs of Machine/Parse.lean change. -/

set_option linter.all false
set_option Elab.async false

namespace Sys2Proof.Machine

theorem pgCount_within {reg : Nat → Nat} {p : Nat} {n : Nat} : Within [.regs] (pgCount reg p n) := by
  unfold pgCount
  repeat' first
    | with_reducible exact Within.pure _
    | with_reducible exact Within.rd _
    | with_reducible exact countBy_within.of (by decide)
    | with_reducible refine Within.bind ?_ fun _ => ?_
    | with_reducible refine Within.onlyIf ?_
    | with_reducible refine Within.each fun _ => ?_
    | with_reducible refine Within.mapEach fun _ => ?_
    | split
    | dsimp only

theorem walkOutcome_within {p : Nat} {w : Walk} : Within [.regs] (walkOutcome p w) := by
  unfold walkOutcome
  repeat' first
    | with_reducible exact Within.pure _
    | with_reducible exact Within.rd _
    | with_reducible exact pgCount_within.of (by decide)
    | with_reducible refine Within.bind ?_ fun _ => ?_
    | with_reducible refine Within.onlyIf ?_
    | with_reducible refine Within.each fun _ => ?_
    | with_reducible refine Within.mapEach fun _ => ?_
    | split
    | dsimp only

end Sys2Proof.Machine
end

