-- ==== Sys2Proof/Laws/WithinAdmission.lean ====
section
/-! SUPPORT. Which parts of the state the programs of Machine/Admission.lean change. -/

set_option linter.all false
set_option Elab.async false

namespace Sys2Proof.Machine

theorem optRef_within  {x0 : Option Nat} {f : Nat → M Unit} {qs : List StatePart} (h0 : ∀ a0, Within qs (f a0)) : Within qs (optRef f x0) := by
  unfold optRef
  repeat' first
    | with_reducible exact Within.pure _
    | with_reducible exact Within.rd _
    | with_reducible exact h0 _
    | with_reducible refine Within.bind ?_ fun _ => ?_
    | with_reducible refine Within.onlyIf ?_
    | with_reducible refine Within.each fun _ => ?_
    | with_reducible refine Within.mapEach fun _ => ?_
    | split
    | dsimp only

theorem startWalk_within {p : Nat} {w : Walk} {term : Option Nat} : Within [.outbox, .mem, .bad, .regs, .act, .ddrs, .locks, .pipes, .terms, .hostq, .ringLinks, .ring, .gb, .bg] (startWalk p w term) := by
  unfold startWalk
  repeat' first
    | with_reducible exact Within.pure _
    | with_reducible exact Within.rd _
    | with_reducible exact (modPipes_within _ _).of (by decide)
    | with_reducible refine optRef_within  (fun _ => ?_)
    | with_reducible exact pgCount_within.of (by decide)
    | with_reducible exact reachSafe_within.of (by decide)
    | with_reducible exact termRef_within.of (by decide)
    | with_reducible refine Within.bind ?_ fun _ => ?_
    | with_reducible refine Within.onlyIf ?_
    | with_reducible refine Within.each fun _ => ?_
    | with_reducible refine Within.mapEach fun _ => ?_
    | split
    | dsimp only

theorem countDiscard_within {p : Nat} {status : Nat} : Within [.regs] (countDiscard p status) := by
  unfold countDiscard
  repeat' first
    | with_reducible exact Within.pure _
    | with_reducible exact Within.rd _
    | with_reducible exact count_within.of (by decide)
    | with_reducible refine Within.bind ?_ fun _ => ?_
    | with_reducible refine Within.onlyIf ?_
    | with_reducible refine Within.each fun _ => ?_
    | with_reducible refine Within.mapEach fun _ => ?_
    | split
    | dsimp only

theorem hostAction_within {p : Nat} {status : Nat} {stream : Nat} {seq : Nat} {ts : Word} {pres : List Byte} : Within [.outbox, .regs, .hostq] (hostAction p status stream seq ts pres) := by
  unfold hostAction
  repeat' first
    | with_reducible exact Within.pure _
    | with_reducible exact Within.rd _
    | with_reducible exact countDiscard_within.of (by decide)
    | with_reducible exact postNotice_within.of (by decide)
    | with_reducible refine Within.bind ?_ fun _ => ?_
    | with_reducible refine Within.onlyIf ?_
    | with_reducible refine Within.each fun _ => ?_
    | with_reducible refine Within.mapEach fun _ => ?_
    | split
    | dsimp only

theorem dropFrame_within {p : Nat} {w : Walk} : Within [.ports] (dropFrame p w) := by
  unfold dropFrame
  repeat' first
    | with_reducible exact Within.pure _
    | with_reducible exact Within.rd _
    | with_reducible exact (modPorts_within _ _).of (by decide)
    | with_reducible refine Within.bind ?_ fun _ => ?_
    | with_reducible refine Within.onlyIf ?_
    | with_reducible refine Within.each fun _ => ?_
    | with_reducible refine Within.mapEach fun _ => ?_
    | split
    | dsimp only

theorem msgDone_within {w : Walk} : Within [.free, .regs, .streams, .ports] (msgDone w) := by
  unfold msgDone
  repeat' first
    | with_reducible exact Within.pure _
    | with_reducible exact Within.rd _
    | with_reducible exact dropFrame_within.of (by decide)
    | with_reducible exact rxDone_within.of (by decide)
    | with_reducible refine Within.bind ?_ fun _ => ?_
    | with_reducible refine Within.onlyIf ?_
    | with_reducible refine Within.each fun _ => ?_
    | with_reducible refine Within.mapEach fun _ => ?_
    | split
    | dsimp only

theorem finishAction_within {w : Walk} {status : Nat} {kind : Nat} : Within [.free, .outbox, .regs, .bufs, .pools, .streams, .ports, .terms, .hostq] (finishAction w status kind) := by
  unfold finishAction
  repeat' first
    | with_reducible exact Within.pure _
    | with_reducible exact Within.rd _
    | with_reducible exact bufDrop_within.of (by decide)
    | with_reducible exact countDiscard_within.of (by decide)
    | with_reducible exact hostAction_within.of (by decide)
    | with_reducible exact msgDone_within.of (by decide)
    | with_reducible refine optRef_within  (fun _ => ?_)
    | with_reducible exact termUnref_within.of (by decide)
    | with_reducible refine Within.bind ?_ fun _ => ?_
    | with_reducible refine Within.onlyIf ?_
    | with_reducible refine Within.each fun _ => ?_
    | with_reducible refine Within.mapEach fun _ => ?_
    | split
    | dsimp only

theorem graphResult_within {w : Walk} {status : Nat} : Within [.terms] (graphResult w status) := by
  unfold graphResult
  repeat' first
    | with_reducible exact Within.pure _
    | with_reducible exact Within.rd _
    | with_reducible refine optRef_within  (fun _ => ?_)
    | with_reducible exact termRef_within.of (by decide)
    | with_reducible exact termUnref_within.of (by decide)
    | with_reducible refine Within.bind ?_ fun _ => ?_
    | with_reducible refine Within.onlyIf ?_
    | with_reducible refine Within.each fun _ => ?_
    | with_reducible refine Within.mapEach fun _ => ?_
    | split
    | dsimp only

theorem leave_within {w : WalkDone} : Within [.free, .outbox, .regs, .bufs, .pools, .streams, .ports, .terms, .hostq, .sq] (leave w) := by
  unfold leave
  repeat' first
    | with_reducible exact Within.pure _
    | with_reducible exact Within.rd _
    | with_reducible exact (modSq_within _).of (by decide)
    | with_reducible exact finishAction_within.of (by decide)
    | with_reducible exact graphResult_within.of (by decide)
    | with_reducible refine Within.bind ?_ fun _ => ?_
    | with_reducible refine Within.onlyIf ?_
    | with_reducible refine Within.each fun _ => ?_
    | with_reducible refine Within.mapEach fun _ => ?_
    | split
    | dsimp only

theorem noteOverdraw_within {w : WalkDone} : Within [.outbox, .regs] (noteOverdraw w) := by
  unfold noteOverdraw
  repeat' first
    | with_reducible exact Within.pure _
    | with_reducible exact Within.rd _
    | with_reducible exact sticky_within.of (by decide)
    | with_reducible refine Within.bind ?_ fun _ => ?_
    | with_reducible refine Within.onlyIf ?_
    | with_reducible refine Within.each fun _ => ?_
    | with_reducible refine Within.mapEach fun _ => ?_
    | split
    | dsimp only

theorem handWalker_within {p : Nat} {k : Walker} : Within [.free, .outbox, .regs, .bufs, .pools, .streams, .ports, .pipes, .terms, .hostq, .sq] (handWalker p k) := by
  unfold handWalker
  repeat' first
    | with_reducible exact Within.pure _
    | with_reducible exact Within.rd _
    | with_reducible exact (modPipes_within _ _).of (by decide)
    | with_reducible exact leave_within.of (by decide)
    | with_reducible exact noteOverdraw_within.of (by decide)
    | with_reducible refine Within.bind ?_ fun _ => ?_
    | with_reducible refine Within.onlyIf ?_
    | with_reducible refine Within.each fun _ => ?_
    | with_reducible refine Within.mapEach fun _ => ?_
    | split
    | dsimp only

theorem handOn_within {p : Nat} : Within [.free, .outbox, .regs, .bufs, .pools, .streams, .ports, .pipes, .terms, .hostq, .sq] (handOn p) := by
  unfold handOn
  repeat' first
    | with_reducible exact Within.pure _
    | with_reducible exact Within.rd _
    | with_reducible exact handWalker_within.of (by decide)
    | with_reducible refine Within.bind ?_ fun _ => ?_
    | with_reducible refine Within.onlyIf ?_
    | with_reducible refine Within.each fun _ => ?_
    | with_reducible refine Within.mapEach fun _ => ?_
    | split
    | dsimp only

theorem pipeMove_within {p : Nat} : Within [.outbox, .mem, .bad, .regs, .act, .ddrs, .locks, .pipes, .terms, .hostq, .ringLinks, .ring, .gb, .bg] (pipeMove p) := by
  unfold pipeMove
  repeat' first
    | with_reducible exact Within.pure _
    | with_reducible exact Within.rd _
    | with_reducible exact (modPipes_within _ _).of (by decide)
    | with_reducible refine optRef_within  (fun _ => ?_)
    | with_reducible exact pgCount_within.of (by decide)
    | with_reducible exact startWalk_within.of (by decide)
    | with_reducible exact termUnref_within.of (by decide)
    | with_reducible refine Within.bind ?_ fun _ => ?_
    | with_reducible refine Within.onlyIf ?_
    | with_reducible refine Within.each fun _ => ?_
    | with_reducible refine Within.mapEach fun _ => ?_
    | split
    | dsimp only

theorem handStream_within {id : Nat} : Within [.outbox, .mem, .bad, .regs, .act, .ddrs, .locks, .streams, .pipes, .terms, .hostq, .ringLinks, .ring, .gb, .bg] (handStream id) := by
  unfold handStream
  repeat' first
    | with_reducible exact Within.pure _
    | with_reducible exact Within.rd _
    | with_reducible exact modStream_within.of (by decide)
    | with_reducible exact startWalk_within.of (by decide)
    | with_reducible exact store_within.of (by decide)
    | with_reducible refine Within.bind ?_ fun _ => ?_
    | with_reducible refine Within.onlyIf ?_
    | with_reducible refine Within.each fun _ => ?_
    | with_reducible refine Within.mapEach fun _ => ?_
    | split
    | dsimp only

theorem handFrame_within {port : Nat} : Within [.outbox, .mem, .bad, .regs, .act, .ddrs, .locks, .ports, .pipes, .terms, .hostq, .ringLinks, .ring, .gb, .bg] (handFrame port) := by
  unfold handFrame
  repeat' first
    | with_reducible exact Within.pure _
    | with_reducible exact Within.rd _
    | with_reducible exact (modPorts_within _ _).of (by decide)
    | with_reducible exact startWalk_within.of (by decide)
    | with_reducible refine Within.bind ?_ fun _ => ?_
    | with_reducible refine Within.onlyIf ?_
    | with_reducible refine Within.each fun _ => ?_
    | with_reducible refine Within.mapEach fun _ => ?_
    | split
    | dsimp only

theorem execMessageHandOver_within {src : HandOver} {s : State} : Effect [.outbox, .mem, .bad, .regs, .act, .ddrs, .locks, .streams, .ports, .pipes, .terms, .hostq, .ringLinks, .ring, .gb, .bg] (execMessageHandOver src s) s := by
  unfold execMessageHandOver
  refine Within.effect ?_ _
  repeat' first
    | with_reducible exact Within.pure _
    | with_reducible exact Within.rd _
    | with_reducible exact handFrame_within.of (by decide)
    | with_reducible exact handStream_within.of (by decide)
    | with_reducible refine Within.bind ?_ fun _ => ?_
    | with_reducible refine Within.onlyIf ?_
    | with_reducible refine Within.each fun _ => ?_
    | with_reducible refine Within.mapEach fun _ => ?_
    | split
    | dsimp only

theorem execWalkComplete_within {p : Nat} {i : Nat} {s : State} : Effect [.free, .outbox, .regs, .bufs, .pools, .streams, .ports, .pipes, .terms, .hostq, .sq] (execWalkComplete p i s) s := by
  unfold execWalkComplete
  refine Within.effect ?_ _
  repeat' first
    | with_reducible exact Within.pure _
    | with_reducible exact Within.rd _
    | with_reducible exact (modPipes_within _ _).of (by decide)
    | with_reducible exact handOn_within.of (by decide)
    | with_reducible exact walkOutcome_within.of (by decide)
    | with_reducible refine Within.bind ?_ fun _ => ?_
    | with_reducible refine Within.onlyIf ?_
    | with_reducible refine Within.each fun _ => ?_
    | with_reducible refine Within.mapEach fun _ => ?_
    | split
    | dsimp only

theorem execHoldQueueRelease_within {p : Nat} {s : State} : Effect [.free, .outbox, .regs, .bufs, .pools, .streams, .ports, .pipes, .terms, .hostq, .sq] (execHoldQueueRelease p s) s := by
  unfold execHoldQueueRelease
  refine Within.effect ?_ _
  repeat' first
    | with_reducible exact Within.pure _
    | with_reducible exact Within.rd _
    | with_reducible exact (modPipes_within _ _).of (by decide)
    | with_reducible exact handOn_within.of (by decide)
    | with_reducible exact leave_within.of (by decide)
    | with_reducible refine Within.bind ?_ fun _ => ?_
    | with_reducible refine Within.onlyIf ?_
    | with_reducible refine Within.each fun _ => ?_
    | with_reducible refine Within.mapEach fun _ => ?_
    | split
    | dsimp only

theorem admitMsg_within {m : MsgDesc} {gen : Nat} {overdraw : Bool} {heir : Option (Nat × Nat)} : Within [.regs, .bufs, .admitQ, .sq] (admitMsg m gen overdraw heir) := by
  unfold admitMsg
  repeat' first
    | with_reducible exact Within.pure _
    | with_reducible exact Within.rd _
    | with_reducible exact (modAdmitQ_within _ _).of (by decide)
    | with_reducible exact (modBufs_within _ _).of (by decide)
    | with_reducible exact (modSq_within _).of (by decide)
    | with_reducible exact count_within.of (by decide)
    | with_reducible refine Within.bind ?_ fun _ => ?_
    | with_reducible refine Within.onlyIf ?_
    | with_reducible refine Within.each fun _ => ?_
    | with_reducible refine Within.mapEach fun _ => ?_
    | split
    | dsimp only

theorem replaceResult_within {w : WalkDone} {r : List WalkDone} : Within [.sq] (replaceResult w r) := by
  unfold replaceResult
  repeat' first
    | with_reducible exact Within.pure _
    | with_reducible exact Within.rd _
    | with_reducible exact (modSq_within _).of (by decide)
    | with_reducible refine Within.bind ?_ fun _ => ?_
    | with_reducible refine Within.onlyIf ?_
    | with_reducible refine Within.each fun _ => ?_
    | with_reducible refine Within.mapEach fun _ => ?_
    | split
    | dsimp only

theorem failResult_within {w : WalkDone} {m : MsgDesc} : Within [.free, .outbox, .regs, .bufs, .pools, .streams, .ports, .terms, .hostq, .sq] (failResult w m) := by
  unfold failResult
  repeat' first
    | with_reducible exact Within.pure _
    | with_reducible exact Within.rd _
    | with_reducible exact finishAction_within.of (by decide)
    | with_reducible exact replaceResult_within.of (by decide)
    | with_reducible refine Within.bind ?_ fun _ => ?_
    | with_reducible refine Within.onlyIf ?_
    | with_reducible refine Within.each fun _ => ?_
    | with_reducible refine Within.mapEach fun _ => ?_
    | split
    | dsimp only

theorem execAdmit_within {s : State} : Effect [.free, .outbox, .mem, .bad, .regs, .act, .ddrs, .bufs, .pools, .locks, .streams, .ports, .admitQ, .terms, .hostq, .ringLinks, .sq, .ring, .gb, .bg] (execAdmit s) s := by
  unfold execAdmit
  refine Within.effect ?_ _
  repeat' first
    | with_reducible exact Within.pure _
    | with_reducible exact Within.rd _
    | with_reducible exact admitMsg_within.of (by decide)
    | with_reducible exact failResult_within.of (by decide)
    | with_reducible exact finishAction_within.of (by decide)
    | with_reducible exact graphResult_within.of (by decide)
    | with_reducible exact msgDone_within.of (by decide)
    | with_reducible exact poolAlloc_within.of (by decide)
    | with_reducible exact reachSafe_within.of (by decide)
    | with_reducible exact replaceResult_within.of (by decide)
    | with_reducible exact store_within.of (by decide)
    | with_reducible refine Within.bind ?_ fun _ => ?_
    | with_reducible refine Within.onlyIf ?_
    | with_reducible refine Within.each fun _ => ?_
    | with_reducible refine Within.mapEach fun _ => ?_
    | split
    | dsimp only

theorem entryValue_within {x : Nat} {m : MsgDesc} {i : Nat} {d : List Byte} : Within [.free, .outbox, .regs, .fc] (entryValue x m i d) := by
  unfold entryValue
  repeat' first
    | with_reducible exact Within.pure _
    | with_reducible exact Within.rd _
    | with_reducible exact draw_within.of (by decide)
    | with_reducible exact readData_within.of (by decide)
    | with_reducible refine Within.bind ?_ fun _ => ?_
    | with_reducible refine Within.onlyIf ?_
    | with_reducible refine Within.each fun _ => ?_
    | with_reducible refine Within.mapEach fun _ => ?_
    | split
    | dsimp only

theorem injectEntry_within {x : Nat} {m : MsgDesc} {i : Nat} : Within [.free, .outbox, .regs, .banks, .fc] (injectEntry x m i) := by
  unfold injectEntry
  repeat' first
    | with_reducible exact Within.pure _
    | with_reducible exact Within.rd _
    | with_reducible exact entryValue_within.of (by decide)
    | with_reducible exact pushToken_within.of (by decide)
    | with_reducible refine Within.bind ?_ fun _ => ?_
    | with_reducible refine Within.onlyIf ?_
    | with_reducible refine Within.each fun _ => ?_
    | with_reducible refine Within.mapEach fun _ => ?_
    | split
    | dsimp only

theorem registerCw_within {x : Nat} {c : Ctx} {heir : Option (Nat × Nat)} : Within [.cw] (registerCw x c heir) := by
  unfold registerCw
  repeat' first
    | with_reducible exact Within.pure _
    | with_reducible exact Within.rd _
    | with_reducible exact (modCw_within _).of (by decide)
    | with_reducible refine Within.bind ?_ fun _ => ?_
    | with_reducible refine Within.onlyIf ?_
    | with_reducible refine Within.each fun _ => ?_
    | with_reducible refine Within.mapEach fun _ => ?_
    | split
    | dsimp only

theorem execContextCreate_within {s : State} : Effect [.free, .outbox, .mem, .bad, .regs, .act, .ctxs, .banks, .ddrs, .locks, .admitQ, .hostq, .ringLinks, .sq, .rc, .cw, .ring, .gb, .fc, .bg] (execContextCreate s) s := by
  unfold execContextCreate
  refine Within.effect ?_ _
  repeat' first
    | with_reducible exact Within.pure _
    | with_reducible exact Within.rd _
    | with_reducible exact (modAdmitQ_within _ _).of (by decide)
    | with_reducible exact (modRc_within _).of (by decide)
    | with_reducible exact (modSq_within _).of (by decide)
    | (with_reducible refine Within.emit ?_); rfl
    | with_reducible exact count_within.of (by decide)
    | with_reducible exact injectEntry_within.of (by decide)
    | with_reducible exact reachSafe_within.of (by decide)
    | with_reducible exact registerCw_within.of (by decide)
    | with_reducible exact storeTake_within.of (by decide)
    | with_reducible refine Within.bind ?_ fun _ => ?_
    | with_reducible refine Within.onlyIf ?_
    | with_reducible refine Within.each fun _ => ?_
    | with_reducible refine Within.mapEach fun _ => ?_
    | split
    | dsimp only

theorem cwReopen_within {x : Nat} {cgen : Nat} : Within [.cw] (cwReopen x cgen) := by
  unfold cwReopen
  repeat' first
    | with_reducible exact Within.pure _
    | with_reducible exact Within.rd _
    | with_reducible exact (modCw_within _).of (by decide)
    | with_reducible refine Within.bind ?_ fun _ => ?_
    | with_reducible refine Within.onlyIf ?_
    | with_reducible refine Within.each fun _ => ?_
    | with_reducible refine Within.mapEach fun _ => ?_
    | split
    | dsimp only

theorem abandonEnd_within {x : Nat} {cgen : Nat} : Within [.outbox, .mem, .bad, .regs, .delay, .ctxs, .banks, .ddrs, .bufs, .pools, .locks, .terms, .sq, .rc, .cw] (abandonEnd x cgen) := by
  unfold abandonEnd
  repeat' first
    | with_reducible exact Within.pure _
    | with_reducible exact Within.rd _
    | with_reducible exact cwClose_within.of (by decide)
    | with_reducible exact freeCtx_within.of (by decide)
    | with_reducible refine Within.bind ?_ fun _ => ?_
    | with_reducible refine Within.onlyIf ?_
    | with_reducible refine Within.each fun _ => ?_
    | with_reducible refine Within.mapEach fun _ => ?_
    | split
    | dsimp only

theorem execAbandonFinish_within {x : Nat} {s : State} : Effect [.free, .outbox, .mem, .bad, .regs, .delay, .ctxs, .banks, .ddrs, .bufs, .pools, .locks, .admitQ, .terms, .hostq, .sq, .rc, .cw, .fc] (execAbandonFinish x s) s := by
  unfold execAbandonFinish
  refine Within.effect ?_ _
  repeat' first
    | with_reducible exact Within.pure _
    | with_reducible exact Within.rd _
    | with_reducible exact abandonEnd_within.of (by decide)
    | with_reducible exact admitMsg_within.of (by decide)
    | with_reducible exact bufAdd_within.of (by decide)
    | with_reducible exact countDiscard_within.of (by decide)
    | with_reducible exact cwReopen_within.of (by decide)
    | with_reducible exact freeCtx_within.of (by decide)
    | with_reducible exact hostAction_within.of (by decide)
    | with_reducible exact readData_within.of (by decide)
    | with_reducible exact termRef_within.of (by decide)
    | with_reducible refine Within.bind ?_ fun _ => ?_
    | with_reducible refine Within.onlyIf ?_
    | with_reducible refine Within.each fun _ => ?_
    | with_reducible refine Within.mapEach fun _ => ?_
    | split
    | dsimp only

end Sys2Proof.Machine
end

