-- ==== Sys2Proof/Laws/WithinIssue.lean ====
section
/-! SUPPORT. Which parts of the state the programs of Machine/Issue.lean change. -/

set_option linter.all false
set_option Elab.async false

namespace Sys2Proof.Machine

theorem undef_within {t : Nat} {word : Nat} {reason : Nat} : Within [.outbox, .mem, .bad, .desk, .regs, .threads, .acts, .ready, .ctxs, .hqueues, .ddrs, .chans, .locks, .sq, .cw, .fc] (undef t word reason) := by
  unfold undef
  repeat' first
    | with_reducible exact Within.pure _
    | with_reducible exact Within.rd _
    | with_reducible exact trap_within.of (by decide)
    | with_reducible refine Within.bind ?_ fun _ => ?_
    | with_reducible refine Within.onlyIf ?_
    | with_reducible refine Within.each fun _ => ?_
    | with_reducible refine Within.mapEach fun _ => ?_
    | split
    | dsimp only

theorem trapHere_within {t : Nat} {cause : Nat} {value : Word} : Within [.outbox, .mem, .bad, .desk, .regs, .threads, .acts, .ready, .ctxs, .hqueues, .ddrs, .chans, .locks, .sq, .cw, .fc] (trapHere t cause value) := by
  unfold trapHere
  repeat' first
    | with_reducible exact Within.pure _
    | with_reducible exact Within.rd _
    | with_reducible exact trap_within.of (by decide)
    | with_reducible refine Within.bind ?_ fun _ => ?_
    | with_reducible refine Within.onlyIf ?_
    | with_reducible refine Within.each fun _ => ?_
    | with_reducible refine Within.mapEach fun _ => ?_
    | split
    | dsimp only

theorem issue_within {t : Nat} {word : Nat} {ok : Bool} {body : Thread → M Unit} {qs : List StatePart} (hs : [.outbox, .mem, .bad, .desk, .regs, .threads, .acts, .ready, .ctxs, .hqueues, .ddrs, .chans, .locks, .sq, .cw, .fc].all qs.contains = true) (h0 : ∀ a0, Within qs (body a0)) : Within qs (issue t word ok body) := by
  unfold issue
  repeat' first
    | with_reducible exact Within.pure _
    | with_reducible exact Within.rd _
    | with_reducible exact h0 _
    | with_reducible exact count_within.of (parts_trans (by decide) hs)
    | with_reducible exact trap_within.of (parts_trans (by decide) hs)
    | with_reducible exact undef_within.of (parts_trans (by decide) hs)
    | with_reducible refine Within.bind ?_ fun _ => ?_
    | with_reducible refine Within.onlyIf ?_
    | with_reducible refine Within.each fun _ => ?_
    | with_reducible refine Within.mapEach fun _ => ?_
    | split
    | dsimp only

theorem issueRel_within {t : Nat} {word : Nat} {ok : Bool} {body : Thread → M Unit} {qs : List StatePart} (hs : [.outbox, .mem, .bad, .desk, .regs, .threads, .acts, .ready, .ctxs, .hqueues, .ddrs, .chans, .locks, .sq, .cw, .fc].all qs.contains = true) (h0 : ∀ a0, Within qs (body a0)) : Within qs (issueRel t word ok body) := by
  unfold issueRel
  repeat' first
    | with_reducible exact Within.pure _
    | with_reducible exact Within.rd _
    | with_reducible exact h0 _
    | with_reducible refine issue_within (parts_trans (by decide) hs) (fun _ => ?_)
    | with_reducible refine Within.bind ?_ fun _ => ?_
    | with_reducible refine Within.onlyIf ?_
    | with_reducible refine Within.each fun _ => ?_
    | with_reducible refine Within.mapEach fun _ => ?_
    | split
    | dsimp only

end Sys2Proof.Machine
end

