-- ==== Sys2Proof/Laws/WithinAlu.lean ====
section
/-! SUPPORT. Which parts of the state the programs of Machine/Alu.lean change. -/

set_option linter.all false
set_option Elab.async false

namespace Sys2Proof.Machine

theorem alu_within {t : Nat} {fn : Nat} {rd' : Nat} {ra : Nat} {rb : Nat} {rsv : Nat} {ok : Bool} {f : Thread → Word → Word → Thread} : Within [.outbox, .mem, .bad, .desk, .regs, .threads, .acts, .ready, .ctxs, .hqueues, .ddrs, .chans, .locks, .sq, .cw, .fc] (alu t fn rd' ra rb rsv ok f) := by
  unfold alu
  repeat' first
    | with_reducible exact Within.pure _
    | with_reducible exact Within.rd _
    | with_reducible exact finishNext_within.of (by decide)
    | with_reducible refine issue_within (by decide) (fun _ => ?_)
    | with_reducible refine Within.bind ?_ fun _ => ?_
    | with_reducible refine Within.onlyIf ?_
    | with_reducible refine Within.each fun _ => ?_
    | with_reducible refine Within.mapEach fun _ => ?_
    | split
    | dsimp only

theorem aluTo_within {t : Nat} {fn : Nat} {rd' : Nat} {ra : Nat} {rb : Nat} {rsv : Nat} {ok : Bool} {f : Word → Word → Word} : Within [.outbox, .mem, .bad, .desk, .regs, .threads, .acts, .ready, .ctxs, .hqueues, .ddrs, .chans, .locks, .sq, .cw, .fc] (aluTo t fn rd' ra rb rsv ok f) := by
  unfold aluTo
  repeat' first
    | with_reducible exact Within.pure _
    | with_reducible exact Within.rd _
    | with_reducible exact alu_within.of (by decide)
    | with_reducible refine Within.bind ?_ fun _ => ?_
    | with_reducible refine Within.onlyIf ?_
    | with_reducible refine Within.each fun _ => ?_
    | with_reducible refine Within.mapEach fun _ => ?_
    | split
    | dsimp only

theorem execAdd_within {t : Nat} {rd : Nat} {ra : Nat} {rb : Nat} {rsv : Nat} {s : State} : Effect [.outbox, .mem, .bad, .desk, .regs, .threads, .acts, .ready, .ctxs, .hqueues, .ddrs, .chans, .locks, .sq, .cw, .fc] (execAdd t rd ra rb rsv s) s := by
  unfold execAdd
  refine Within.effect ?_ _
  repeat' first
    | with_reducible exact Within.pure _
    | with_reducible exact Within.rd _
    | with_reducible exact aluTo_within.of (by decide)
    | with_reducible refine Within.bind ?_ fun _ => ?_
    | with_reducible refine Within.onlyIf ?_
    | with_reducible refine Within.each fun _ => ?_
    | with_reducible refine Within.mapEach fun _ => ?_
    | split
    | dsimp only

theorem execSub_within {t : Nat} {rd : Nat} {ra : Nat} {rb : Nat} {rsv : Nat} {s : State} : Effect [.outbox, .mem, .bad, .desk, .regs, .threads, .acts, .ready, .ctxs, .hqueues, .ddrs, .chans, .locks, .sq, .cw, .fc] (execSub t rd ra rb rsv s) s := by
  unfold execSub
  refine Within.effect ?_ _
  repeat' first
    | with_reducible exact Within.pure _
    | with_reducible exact Within.rd _
    | with_reducible exact aluTo_within.of (by decide)
    | with_reducible refine Within.bind ?_ fun _ => ?_
    | with_reducible refine Within.onlyIf ?_
    | with_reducible refine Within.each fun _ => ?_
    | with_reducible refine Within.mapEach fun _ => ?_
    | split
    | dsimp only

theorem execAnd_within {t : Nat} {rd : Nat} {ra : Nat} {rb : Nat} {rsv : Nat} {s : State} : Effect [.outbox, .mem, .bad, .desk, .regs, .threads, .acts, .ready, .ctxs, .hqueues, .ddrs, .chans, .locks, .sq, .cw, .fc] (execAnd t rd ra rb rsv s) s := by
  unfold execAnd
  refine Within.effect ?_ _
  repeat' first
    | with_reducible exact Within.pure _
    | with_reducible exact Within.rd _
    | with_reducible exact aluTo_within.of (by decide)
    | with_reducible refine Within.bind ?_ fun _ => ?_
    | with_reducible refine Within.onlyIf ?_
    | with_reducible refine Within.each fun _ => ?_
    | with_reducible refine Within.mapEach fun _ => ?_
    | split
    | dsimp only

theorem execOr_within {t : Nat} {rd : Nat} {ra : Nat} {rb : Nat} {rsv : Nat} {s : State} : Effect [.outbox, .mem, .bad, .desk, .regs, .threads, .acts, .ready, .ctxs, .hqueues, .ddrs, .chans, .locks, .sq, .cw, .fc] (execOr t rd ra rb rsv s) s := by
  unfold execOr
  refine Within.effect ?_ _
  repeat' first
    | with_reducible exact Within.pure _
    | with_reducible exact Within.rd _
    | with_reducible exact aluTo_within.of (by decide)
    | with_reducible refine Within.bind ?_ fun _ => ?_
    | with_reducible refine Within.onlyIf ?_
    | with_reducible refine Within.each fun _ => ?_
    | with_reducible refine Within.mapEach fun _ => ?_
    | split
    | dsimp only

theorem execXor_within {t : Nat} {rd : Nat} {ra : Nat} {rb : Nat} {rsv : Nat} {s : State} : Effect [.outbox, .mem, .bad, .desk, .regs, .threads, .acts, .ready, .ctxs, .hqueues, .ddrs, .chans, .locks, .sq, .cw, .fc] (execXor t rd ra rb rsv s) s := by
  unfold execXor
  refine Within.effect ?_ _
  repeat' first
    | with_reducible exact Within.pure _
    | with_reducible exact Within.rd _
    | with_reducible exact aluTo_within.of (by decide)
    | with_reducible refine Within.bind ?_ fun _ => ?_
    | with_reducible refine Within.onlyIf ?_
    | with_reducible refine Within.each fun _ => ?_
    | with_reducible refine Within.mapEach fun _ => ?_
    | split
    | dsimp only

theorem execAndn_within {t : Nat} {rd : Nat} {ra : Nat} {rb : Nat} {rsv : Nat} {s : State} : Effect [.outbox, .mem, .bad, .desk, .regs, .threads, .acts, .ready, .ctxs, .hqueues, .ddrs, .chans, .locks, .sq, .cw, .fc] (execAndn t rd ra rb rsv s) s := by
  unfold execAndn
  refine Within.effect ?_ _
  repeat' first
    | with_reducible exact Within.pure _
    | with_reducible exact Within.rd _
    | with_reducible exact aluTo_within.of (by decide)
    | with_reducible refine Within.bind ?_ fun _ => ?_
    | with_reducible refine Within.onlyIf ?_
    | with_reducible refine Within.each fun _ => ?_
    | with_reducible refine Within.mapEach fun _ => ?_
    | split
    | dsimp only

theorem execSll_within {t : Nat} {rd : Nat} {ra : Nat} {rb : Nat} {rsv : Nat} {s : State} : Effect [.outbox, .mem, .bad, .desk, .regs, .threads, .acts, .ready, .ctxs, .hqueues, .ddrs, .chans, .locks, .sq, .cw, .fc] (execSll t rd ra rb rsv s) s := by
  unfold execSll
  refine Within.effect ?_ _
  repeat' first
    | with_reducible exact Within.pure _
    | with_reducible exact Within.rd _
    | with_reducible exact aluTo_within.of (by decide)
    | with_reducible refine Within.bind ?_ fun _ => ?_
    | with_reducible refine Within.onlyIf ?_
    | with_reducible refine Within.each fun _ => ?_
    | with_reducible refine Within.mapEach fun _ => ?_
    | split
    | dsimp only

theorem execSrl_within {t : Nat} {rd : Nat} {ra : Nat} {rb : Nat} {rsv : Nat} {s : State} : Effect [.outbox, .mem, .bad, .desk, .regs, .threads, .acts, .ready, .ctxs, .hqueues, .ddrs, .chans, .locks, .sq, .cw, .fc] (execSrl t rd ra rb rsv s) s := by
  unfold execSrl
  refine Within.effect ?_ _
  repeat' first
    | with_reducible exact Within.pure _
    | with_reducible exact Within.rd _
    | with_reducible exact aluTo_within.of (by decide)
    | with_reducible refine Within.bind ?_ fun _ => ?_
    | with_reducible refine Within.onlyIf ?_
    | with_reducible refine Within.each fun _ => ?_
    | with_reducible refine Within.mapEach fun _ => ?_
    | split
    | dsimp only

theorem execSra_within {t : Nat} {rd : Nat} {ra : Nat} {rb : Nat} {rsv : Nat} {s : State} : Effect [.outbox, .mem, .bad, .desk, .regs, .threads, .acts, .ready, .ctxs, .hqueues, .ddrs, .chans, .locks, .sq, .cw, .fc] (execSra t rd ra rb rsv s) s := by
  unfold execSra
  refine Within.effect ?_ _
  repeat' first
    | with_reducible exact Within.pure _
    | with_reducible exact Within.rd _
    | with_reducible exact aluTo_within.of (by decide)
    | with_reducible refine Within.bind ?_ fun _ => ?_
    | with_reducible refine Within.onlyIf ?_
    | with_reducible refine Within.each fun _ => ?_
    | with_reducible refine Within.mapEach fun _ => ?_
    | split
    | dsimp only

theorem execRor_within {t : Nat} {rd : Nat} {ra : Nat} {rb : Nat} {rsv : Nat} {s : State} : Effect [.outbox, .mem, .bad, .desk, .regs, .threads, .acts, .ready, .ctxs, .hqueues, .ddrs, .chans, .locks, .sq, .cw, .fc] (execRor t rd ra rb rsv s) s := by
  unfold execRor
  refine Within.effect ?_ _
  repeat' first
    | with_reducible exact Within.pure _
    | with_reducible exact Within.rd _
    | with_reducible exact aluTo_within.of (by decide)
    | with_reducible refine Within.bind ?_ fun _ => ?_
    | with_reducible refine Within.onlyIf ?_
    | with_reducible refine Within.each fun _ => ?_
    | with_reducible refine Within.mapEach fun _ => ?_
    | split
    | dsimp only

theorem execMul_within {t : Nat} {rd : Nat} {ra : Nat} {rb : Nat} {rsv : Nat} {s : State} : Effect [.outbox, .mem, .bad, .desk, .regs, .threads, .acts, .ready, .ctxs, .hqueues, .ddrs, .chans, .locks, .sq, .cw, .fc] (execMul t rd ra rb rsv s) s := by
  unfold execMul
  refine Within.effect ?_ _
  repeat' first
    | with_reducible exact Within.pure _
    | with_reducible exact Within.rd _
    | with_reducible exact aluTo_within.of (by decide)
    | with_reducible refine Within.bind ?_ fun _ => ?_
    | with_reducible refine Within.onlyIf ?_
    | with_reducible refine Within.each fun _ => ?_
    | with_reducible refine Within.mapEach fun _ => ?_
    | split
    | dsimp only

theorem execMulhu_within {t : Nat} {rd : Nat} {ra : Nat} {rb : Nat} {rsv : Nat} {s : State} : Effect [.outbox, .mem, .bad, .desk, .regs, .threads, .acts, .ready, .ctxs, .hqueues, .ddrs, .chans, .locks, .sq, .cw, .fc] (execMulhu t rd ra rb rsv s) s := by
  unfold execMulhu
  refine Within.effect ?_ _
  repeat' first
    | with_reducible exact Within.pure _
    | with_reducible exact Within.rd _
    | with_reducible exact aluTo_within.of (by decide)
    | with_reducible refine Within.bind ?_ fun _ => ?_
    | with_reducible refine Within.onlyIf ?_
    | with_reducible refine Within.each fun _ => ?_
    | with_reducible refine Within.mapEach fun _ => ?_
    | split
    | dsimp only

theorem execMulhs_within {t : Nat} {rd : Nat} {ra : Nat} {rb : Nat} {rsv : Nat} {s : State} : Effect [.outbox, .mem, .bad, .desk, .regs, .threads, .acts, .ready, .ctxs, .hqueues, .ddrs, .chans, .locks, .sq, .cw, .fc] (execMulhs t rd ra rb rsv s) s := by
  unfold execMulhs
  refine Within.effect ?_ _
  repeat' first
    | with_reducible exact Within.pure _
    | with_reducible exact Within.rd _
    | with_reducible exact aluTo_within.of (by decide)
    | with_reducible refine Within.bind ?_ fun _ => ?_
    | with_reducible refine Within.onlyIf ?_
    | with_reducible refine Within.each fun _ => ?_
    | with_reducible refine Within.mapEach fun _ => ?_
    | split
    | dsimp only

theorem execMinu_within {t : Nat} {rd : Nat} {ra : Nat} {rb : Nat} {rsv : Nat} {s : State} : Effect [.outbox, .mem, .bad, .desk, .regs, .threads, .acts, .ready, .ctxs, .hqueues, .ddrs, .chans, .locks, .sq, .cw, .fc] (execMinu t rd ra rb rsv s) s := by
  unfold execMinu
  refine Within.effect ?_ _
  repeat' first
    | with_reducible exact Within.pure _
    | with_reducible exact Within.rd _
    | with_reducible exact aluTo_within.of (by decide)
    | with_reducible refine Within.bind ?_ fun _ => ?_
    | with_reducible refine Within.onlyIf ?_
    | with_reducible refine Within.each fun _ => ?_
    | with_reducible refine Within.mapEach fun _ => ?_
    | split
    | dsimp only

theorem execMaxu_within {t : Nat} {rd : Nat} {ra : Nat} {rb : Nat} {rsv : Nat} {s : State} : Effect [.outbox, .mem, .bad, .desk, .regs, .threads, .acts, .ready, .ctxs, .hqueues, .ddrs, .chans, .locks, .sq, .cw, .fc] (execMaxu t rd ra rb rsv s) s := by
  unfold execMaxu
  refine Within.effect ?_ _
  repeat' first
    | with_reducible exact Within.pure _
    | with_reducible exact Within.rd _
    | with_reducible exact aluTo_within.of (by decide)
    | with_reducible refine Within.bind ?_ fun _ => ?_
    | with_reducible refine Within.onlyIf ?_
    | with_reducible refine Within.each fun _ => ?_
    | with_reducible refine Within.mapEach fun _ => ?_
    | split
    | dsimp only

theorem execMins_within {t : Nat} {rd : Nat} {ra : Nat} {rb : Nat} {rsv : Nat} {s : State} : Effect [.outbox, .mem, .bad, .desk, .regs, .threads, .acts, .ready, .ctxs, .hqueues, .ddrs, .chans, .locks, .sq, .cw, .fc] (execMins t rd ra rb rsv s) s := by
  unfold execMins
  refine Within.effect ?_ _
  repeat' first
    | with_reducible exact Within.pure _
    | with_reducible exact Within.rd _
    | with_reducible exact aluTo_within.of (by decide)
    | with_reducible refine Within.bind ?_ fun _ => ?_
    | with_reducible refine Within.onlyIf ?_
    | with_reducible refine Within.each fun _ => ?_
    | with_reducible refine Within.mapEach fun _ => ?_
    | split
    | dsimp only

theorem execMaxs_within {t : Nat} {rd : Nat} {ra : Nat} {rb : Nat} {rsv : Nat} {s : State} : Effect [.outbox, .mem, .bad, .desk, .regs, .threads, .acts, .ready, .ctxs, .hqueues, .ddrs, .chans, .locks, .sq, .cw, .fc] (execMaxs t rd ra rb rsv s) s := by
  unfold execMaxs
  refine Within.effect ?_ _
  repeat' first
    | with_reducible exact Within.pure _
    | with_reducible exact Within.rd _
    | with_reducible exact aluTo_within.of (by decide)
    | with_reducible refine Within.bind ?_ fun _ => ?_
    | with_reducible refine Within.onlyIf ?_
    | with_reducible refine Within.each fun _ => ?_
    | with_reducible refine Within.mapEach fun _ => ?_
    | split
    | dsimp only

theorem execCmp_within {t : Nat} {rd : Nat} {ra : Nat} {rb : Nat} {rsv : Nat} {s : State} : Effect [.outbox, .mem, .bad, .desk, .regs, .threads, .acts, .ready, .ctxs, .hqueues, .ddrs, .chans, .locks, .sq, .cw, .fc] (execCmp t rd ra rb rsv s) s := by
  unfold execCmp
  refine Within.effect ?_ _
  repeat' first
    | with_reducible exact Within.pure _
    | with_reducible exact Within.rd _
    | with_reducible exact alu_within.of (by decide)
    | with_reducible refine Within.bind ?_ fun _ => ?_
    | with_reducible refine Within.onlyIf ?_
    | with_reducible refine Within.each fun _ => ?_
    | with_reducible refine Within.mapEach fun _ => ?_
    | split
    | dsimp only

theorem execTst_within {t : Nat} {rd : Nat} {ra : Nat} {rb : Nat} {rsv : Nat} {s : State} : Effect [.outbox, .mem, .bad, .desk, .regs, .threads, .acts, .ready, .ctxs, .hqueues, .ddrs, .chans, .locks, .sq, .cw, .fc] (execTst t rd ra rb rsv s) s := by
  unfold execTst
  refine Within.effect ?_ _
  repeat' first
    | with_reducible exact Within.pure _
    | with_reducible exact Within.rd _
    | with_reducible exact alu_within.of (by decide)
    | with_reducible refine Within.bind ?_ fun _ => ?_
    | with_reducible refine Within.onlyIf ?_
    | with_reducible refine Within.each fun _ => ?_
    | with_reducible refine Within.mapEach fun _ => ?_
    | split
    | dsimp only

theorem execSextb_within {t : Nat} {rd : Nat} {ra : Nat} {rb : Nat} {rsv : Nat} {s : State} : Effect [.outbox, .mem, .bad, .desk, .regs, .threads, .acts, .ready, .ctxs, .hqueues, .ddrs, .chans, .locks, .sq, .cw, .fc] (execSextb t rd ra rb rsv s) s := by
  unfold execSextb
  refine Within.effect ?_ _
  repeat' first
    | with_reducible exact Within.pure _
    | with_reducible exact Within.rd _
    | with_reducible exact aluTo_within.of (by decide)
    | with_reducible refine Within.bind ?_ fun _ => ?_
    | with_reducible refine Within.onlyIf ?_
    | with_reducible refine Within.each fun _ => ?_
    | with_reducible refine Within.mapEach fun _ => ?_
    | split
    | dsimp only

theorem execSexth_within {t : Nat} {rd : Nat} {ra : Nat} {rb : Nat} {rsv : Nat} {s : State} : Effect [.outbox, .mem, .bad, .desk, .regs, .threads, .acts, .ready, .ctxs, .hqueues, .ddrs, .chans, .locks, .sq, .cw, .fc] (execSexth t rd ra rb rsv s) s := by
  unfold execSexth
  refine Within.effect ?_ _
  repeat' first
    | with_reducible exact Within.pure _
    | with_reducible exact Within.rd _
    | with_reducible exact aluTo_within.of (by decide)
    | with_reducible refine Within.bind ?_ fun _ => ?_
    | with_reducible refine Within.onlyIf ?_
    | with_reducible refine Within.each fun _ => ?_
    | with_reducible refine Within.mapEach fun _ => ?_
    | split
    | dsimp only

theorem execSextw_within {t : Nat} {rd : Nat} {ra : Nat} {rb : Nat} {rsv : Nat} {s : State} : Effect [.outbox, .mem, .bad, .desk, .regs, .threads, .acts, .ready, .ctxs, .hqueues, .ddrs, .chans, .locks, .sq, .cw, .fc] (execSextw t rd ra rb rsv s) s := by
  unfold execSextw
  refine Within.effect ?_ _
  repeat' first
    | with_reducible exact Within.pure _
    | with_reducible exact Within.rd _
    | with_reducible exact aluTo_within.of (by decide)
    | with_reducible refine Within.bind ?_ fun _ => ?_
    | with_reducible refine Within.onlyIf ?_
    | with_reducible refine Within.each fun _ => ?_
    | with_reducible refine Within.mapEach fun _ => ?_
    | split
    | dsimp only

theorem execClz_within {t : Nat} {rd : Nat} {ra : Nat} {rb : Nat} {rsv : Nat} {s : State} : Effect [.outbox, .mem, .bad, .desk, .regs, .threads, .acts, .ready, .ctxs, .hqueues, .ddrs, .chans, .locks, .sq, .cw, .fc] (execClz t rd ra rb rsv s) s := by
  unfold execClz
  refine Within.effect ?_ _
  repeat' first
    | with_reducible exact Within.pure _
    | with_reducible exact Within.rd _
    | with_reducible exact aluTo_within.of (by decide)
    | with_reducible refine Within.bind ?_ fun _ => ?_
    | with_reducible refine Within.onlyIf ?_
    | with_reducible refine Within.each fun _ => ?_
    | with_reducible refine Within.mapEach fun _ => ?_
    | split
    | dsimp only

theorem execPopc_within {t : Nat} {rd : Nat} {ra : Nat} {rb : Nat} {rsv : Nat} {s : State} : Effect [.outbox, .mem, .bad, .desk, .regs, .threads, .acts, .ready, .ctxs, .hqueues, .ddrs, .chans, .locks, .sq, .cw, .fc] (execPopc t rd ra rb rsv s) s := by
  unfold execPopc
  refine Within.effect ?_ _
  repeat' first
    | with_reducible exact Within.pure _
    | with_reducible exact Within.rd _
    | with_reducible exact aluTo_within.of (by decide)
    | with_reducible refine Within.bind ?_ fun _ => ?_
    | with_reducible refine Within.onlyIf ?_
    | with_reducible refine Within.each fun _ => ?_
    | with_reducible refine Within.mapEach fun _ => ?_
    | split
    | dsimp only

theorem execBswap_within {t : Nat} {rd : Nat} {ra : Nat} {rb : Nat} {rsv : Nat} {s : State} : Effect [.outbox, .mem, .bad, .desk, .regs, .threads, .acts, .ready, .ctxs, .hqueues, .ddrs, .chans, .locks, .sq, .cw, .fc] (execBswap t rd ra rb rsv s) s := by
  unfold execBswap
  refine Within.effect ?_ _
  repeat' first
    | with_reducible exact Within.pure _
    | with_reducible exact Within.rd _
    | with_reducible exact aluTo_within.of (by decide)
    | with_reducible refine Within.bind ?_ fun _ => ?_
    | with_reducible refine Within.onlyIf ?_
    | with_reducible refine Within.each fun _ => ?_
    | with_reducible refine Within.mapEach fun _ => ?_
    | split
    | dsimp only

theorem execSelz_within {t : Nat} {rd : Nat} {ra : Nat} {rb : Nat} {rsv : Nat} {s : State} : Effect [.outbox, .mem, .bad, .desk, .regs, .threads, .acts, .ready, .ctxs, .hqueues, .ddrs, .chans, .locks, .sq, .cw, .fc] (execSelz t rd ra rb rsv s) s := by
  unfold execSelz
  refine Within.effect ?_ _
  repeat' first
    | with_reducible exact Within.pure _
    | with_reducible exact Within.rd _
    | with_reducible exact alu_within.of (by decide)
    | with_reducible refine Within.bind ?_ fun _ => ?_
    | with_reducible refine Within.onlyIf ?_
    | with_reducible refine Within.each fun _ => ?_
    | with_reducible refine Within.mapEach fun _ => ?_
    | split
    | dsimp only

theorem aluImm_within {t : Nat} {op : Nat} {rd' : Nat} {ra : Nat} {imm : Nat} {rsv : Nat} {ok : Bool} {f : Thread → Word → Thread} : Within [.outbox, .mem, .bad, .desk, .regs, .threads, .acts, .ready, .ctxs, .hqueues, .ddrs, .chans, .locks, .sq, .cw, .fc] (aluImm t op rd' ra imm rsv ok f) := by
  unfold aluImm
  repeat' first
    | with_reducible exact Within.pure _
    | with_reducible exact Within.rd _
    | with_reducible exact finishNext_within.of (by decide)
    | with_reducible refine issue_within (by decide) (fun _ => ?_)
    | with_reducible refine Within.bind ?_ fun _ => ?_
    | with_reducible refine Within.onlyIf ?_
    | with_reducible refine Within.each fun _ => ?_
    | with_reducible refine Within.mapEach fun _ => ?_
    | split
    | dsimp only

theorem execAddi_within {t : Nat} {rd : Nat} {ra : Nat} {imm : Nat} {rsv : Nat} {s : State} : Effect [.outbox, .mem, .bad, .desk, .regs, .threads, .acts, .ready, .ctxs, .hqueues, .ddrs, .chans, .locks, .sq, .cw, .fc] (execAddi t rd ra imm rsv s) s := by
  unfold execAddi
  refine Within.effect ?_ _
  repeat' first
    | with_reducible exact Within.pure _
    | with_reducible exact Within.rd _
    | with_reducible exact aluImm_within.of (by decide)
    | with_reducible refine Within.bind ?_ fun _ => ?_
    | with_reducible refine Within.onlyIf ?_
    | with_reducible refine Within.each fun _ => ?_
    | with_reducible refine Within.mapEach fun _ => ?_
    | split
    | dsimp only

theorem execAndi_within {t : Nat} {rd : Nat} {ra : Nat} {imm : Nat} {rsv : Nat} {s : State} : Effect [.outbox, .mem, .bad, .desk, .regs, .threads, .acts, .ready, .ctxs, .hqueues, .ddrs, .chans, .locks, .sq, .cw, .fc] (execAndi t rd ra imm rsv s) s := by
  unfold execAndi
  refine Within.effect ?_ _
  repeat' first
    | with_reducible exact Within.pure _
    | with_reducible exact Within.rd _
    | with_reducible exact aluImm_within.of (by decide)
    | with_reducible refine Within.bind ?_ fun _ => ?_
    | with_reducible refine Within.onlyIf ?_
    | with_reducible refine Within.each fun _ => ?_
    | with_reducible refine Within.mapEach fun _ => ?_
    | split
    | dsimp only

theorem execOri_within {t : Nat} {rd : Nat} {ra : Nat} {imm : Nat} {rsv : Nat} {s : State} : Effect [.outbox, .mem, .bad, .desk, .regs, .threads, .acts, .ready, .ctxs, .hqueues, .ddrs, .chans, .locks, .sq, .cw, .fc] (execOri t rd ra imm rsv s) s := by
  unfold execOri
  refine Within.effect ?_ _
  repeat' first
    | with_reducible exact Within.pure _
    | with_reducible exact Within.rd _
    | with_reducible exact aluImm_within.of (by decide)
    | with_reducible refine Within.bind ?_ fun _ => ?_
    | with_reducible refine Within.onlyIf ?_
    | with_reducible refine Within.each fun _ => ?_
    | with_reducible refine Within.mapEach fun _ => ?_
    | split
    | dsimp only

theorem execXori_within {t : Nat} {rd : Nat} {ra : Nat} {imm : Nat} {rsv : Nat} {s : State} : Effect [.outbox, .mem, .bad, .desk, .regs, .threads, .acts, .ready, .ctxs, .hqueues, .ddrs, .chans, .locks, .sq, .cw, .fc] (execXori t rd ra imm rsv s) s := by
  unfold execXori
  refine Within.effect ?_ _
  repeat' first
    | with_reducible exact Within.pure _
    | with_reducible exact Within.rd _
    | with_reducible exact aluImm_within.of (by decide)
    | with_reducible refine Within.bind ?_ fun _ => ?_
    | with_reducible refine Within.onlyIf ?_
    | with_reducible refine Within.each fun _ => ?_
    | with_reducible refine Within.mapEach fun _ => ?_
    | split
    | dsimp only

theorem execCmpi_within {t : Nat} {rd : Nat} {ra : Nat} {imm : Nat} {rsv : Nat} {s : State} : Effect [.outbox, .mem, .bad, .desk, .regs, .threads, .acts, .ready, .ctxs, .hqueues, .ddrs, .chans, .locks, .sq, .cw, .fc] (execCmpi t rd ra imm rsv s) s := by
  unfold execCmpi
  refine Within.effect ?_ _
  repeat' first
    | with_reducible exact Within.pure _
    | with_reducible exact Within.rd _
    | with_reducible exact aluImm_within.of (by decide)
    | with_reducible refine Within.bind ?_ fun _ => ?_
    | with_reducible refine Within.onlyIf ?_
    | with_reducible refine Within.each fun _ => ?_
    | with_reducible refine Within.mapEach fun _ => ?_
    | split
    | dsimp only

theorem shiftImm_within {t : Nat} {sub : Nat} {rd' : Nat} {ra : Nat} {sh : Nat} {rsv : Nat} {f : Word → Nat → Word} : Within [.outbox, .mem, .bad, .desk, .regs, .threads, .acts, .ready, .ctxs, .hqueues, .ddrs, .chans, .locks, .sq, .cw, .fc] (shiftImm t sub rd' ra sh rsv f) := by
  unfold shiftImm
  repeat' first
    | with_reducible exact Within.pure _
    | with_reducible exact Within.rd _
    | with_reducible exact finishNext_within.of (by decide)
    | with_reducible refine issue_within (by decide) (fun _ => ?_)
    | with_reducible refine Within.bind ?_ fun _ => ?_
    | with_reducible refine Within.onlyIf ?_
    | with_reducible refine Within.each fun _ => ?_
    | with_reducible refine Within.mapEach fun _ => ?_
    | split
    | dsimp only

theorem execSlli_within {t : Nat} {rd : Nat} {ra : Nat} {sh : Nat} {rsv : Nat} {s : State} : Effect [.outbox, .mem, .bad, .desk, .regs, .threads, .acts, .ready, .ctxs, .hqueues, .ddrs, .chans, .locks, .sq, .cw, .fc] (execSlli t rd ra sh rsv s) s := by
  unfold execSlli
  refine Within.effect ?_ _
  repeat' first
    | with_reducible exact Within.pure _
    | with_reducible exact Within.rd _
    | with_reducible exact shiftImm_within.of (by decide)
    | with_reducible refine Within.bind ?_ fun _ => ?_
    | with_reducible refine Within.onlyIf ?_
    | with_reducible refine Within.each fun _ => ?_
    | with_reducible refine Within.mapEach fun _ => ?_
    | split
    | dsimp only

theorem execSrli_within {t : Nat} {rd : Nat} {ra : Nat} {sh : Nat} {rsv : Nat} {s : State} : Effect [.outbox, .mem, .bad, .desk, .regs, .threads, .acts, .ready, .ctxs, .hqueues, .ddrs, .chans, .locks, .sq, .cw, .fc] (execSrli t rd ra sh rsv s) s := by
  unfold execSrli
  refine Within.effect ?_ _
  repeat' first
    | with_reducible exact Within.pure _
    | with_reducible exact Within.rd _
    | with_reducible exact shiftImm_within.of (by decide)
    | with_reducible refine Within.bind ?_ fun _ => ?_
    | with_reducible refine Within.onlyIf ?_
    | with_reducible refine Within.each fun _ => ?_
    | with_reducible refine Within.mapEach fun _ => ?_
    | split
    | dsimp only

theorem execSrai_within {t : Nat} {rd : Nat} {ra : Nat} {sh : Nat} {rsv : Nat} {s : State} : Effect [.outbox, .mem, .bad, .desk, .regs, .threads, .acts, .ready, .ctxs, .hqueues, .ddrs, .chans, .locks, .sq, .cw, .fc] (execSrai t rd ra sh rsv s) s := by
  unfold execSrai
  refine Within.effect ?_ _
  repeat' first
    | with_reducible exact Within.pure _
    | with_reducible exact Within.rd _
    | with_reducible exact shiftImm_within.of (by decide)
    | with_reducible refine Within.bind ?_ fun _ => ?_
    | with_reducible refine Within.onlyIf ?_
    | with_reducible refine Within.each fun _ => ?_
    | with_reducible refine Within.mapEach fun _ => ?_
    | split
    | dsimp only

theorem execRori_within {t : Nat} {rd : Nat} {ra : Nat} {sh : Nat} {rsv : Nat} {s : State} : Effect [.outbox, .mem, .bad, .desk, .regs, .threads, .acts, .ready, .ctxs, .hqueues, .ddrs, .chans, .locks, .sq, .cw, .fc] (execRori t rd ra sh rsv s) s := by
  unfold execRori
  refine Within.effect ?_ _
  repeat' first
    | with_reducible exact Within.pure _
    | with_reducible exact Within.rd _
    | with_reducible exact shiftImm_within.of (by decide)
    | with_reducible refine Within.bind ?_ fun _ => ?_
    | with_reducible refine Within.onlyIf ?_
    | with_reducible refine Within.each fun _ => ?_
    | with_reducible refine Within.mapEach fun _ => ?_
    | split
    | dsimp only

theorem execMovi_within {t : Nat} {rd : Nat} {h : Nat} {imm : Nat} {rsv : Nat} {s : State} : Effect [.outbox, .mem, .bad, .desk, .regs, .threads, .acts, .ready, .ctxs, .hqueues, .ddrs, .chans, .locks, .sq, .cw, .fc] (execMovi t rd h imm rsv s) s := by
  unfold execMovi
  refine Within.effect ?_ _
  repeat' first
    | with_reducible exact Within.pure _
    | with_reducible exact Within.rd _
    | with_reducible exact finishNext_within.of (by decide)
    | with_reducible refine issue_within (by decide) (fun _ => ?_)
    | with_reducible refine Within.bind ?_ fun _ => ?_
    | with_reducible refine Within.onlyIf ?_
    | with_reducible refine Within.each fun _ => ?_
    | with_reducible refine Within.mapEach fun _ => ?_
    | split
    | dsimp only

theorem execMovk_within {t : Nat} {rd : Nat} {h : Nat} {imm : Nat} {rsv : Nat} {s : State} : Effect [.outbox, .mem, .bad, .desk, .regs, .threads, .acts, .ready, .ctxs, .hqueues, .ddrs, .chans, .locks, .sq, .cw, .fc] (execMovk t rd h imm rsv s) s := by
  unfold execMovk
  refine Within.effect ?_ _
  repeat' first
    | with_reducible exact Within.pure _
    | with_reducible exact Within.rd _
    | with_reducible exact finishNext_within.of (by decide)
    | with_reducible refine issue_within (by decide) (fun _ => ?_)
    | with_reducible refine Within.bind ?_ fun _ => ?_
    | with_reducible refine Within.onlyIf ?_
    | with_reducible refine Within.each fun _ => ?_
    | with_reducible refine Within.mapEach fun _ => ?_
    | split
    | dsimp only

end Sys2Proof.Machine
end

