-- ==== Sys2Proof/Laws/WithinDramWait.lean ====
section
/-! SUPPORT. Which parts of the state the programs of Machine/DramWait.lean change. -/

set_option linter.all false
set_option Elab.async false

namespace Sys2Proof.Machine

theorem atomicNow_within {a : Nat} {x : Atomic} : Within [.free, .outbox, .mem, .bad, .regs, .ddrs, .fc] (atomicNow a x) := by
  unfold atomicNow
  repeat' first
    | with_reducible exact Within.pure _
    | with_reducible exact Within.rd _
    | with_reducible exact reportBads_within.of (by decide)
    | with_reducible exact send_within.of (by decide)
    | with_reducible exact store_within.of (by decide)
    | with_reducible exact touch_within.of (by decide)
    | with_reducible refine Within.bind ?_ fun _ => ?_
    | with_reducible refine Within.onlyIf ?_
    | with_reducible refine Within.each fun _ => ?_
    | with_reducible refine Within.mapEach fun _ => ?_
    | split
    | dsimp only

theorem atomicAt_within {a : Nat} {x : Atomic} : Within [.free, .outbox, .mem, .bad, .regs, .ddrs, .fc] (atomicAt a x) := by
  unfold atomicAt
  repeat' first
    | with_reducible exact Within.pure _
    | with_reducible exact Within.rd _
    | with_reducible exact addEarly_within.of (by decide)
    | with_reducible exact atomicNow_within.of (by decide)
    | with_reducible exact send_within.of (by decide)
    | with_reducible refine Answers.pure ?_
    | with_reducible refine Answers.bind ?_ fun _ => ?_
    | with_reducible exact Within.afterAns
    | with_reducible exact Within.afterData
    | with_reducible refine Within.bind ?_ fun _ => ?_
    | with_reducible refine Within.onlyIf ?_
    | with_reducible refine Within.each fun _ => ?_
    | with_reducible refine Within.mapEach fun _ => ?_
    | split
    | dsimp only

theorem runEarly_within {n : Nat} : Within [.free, .outbox, .mem, .bad, .regs, .ddrs, .fc] (runEarly n) := by
  unfold runEarly
  repeat' first
    | with_reducible exact Within.pure _
    | with_reducible exact Within.rd _
    | (with_reducible refine Within.emit ?_); rfl
    | with_reducible exact atomicNow_within.of (by decide)
    | with_reducible exact putLine_within.of (by decide)
    | with_reducible refine Within.bind ?_ fun _ => ?_
    | with_reducible refine Within.onlyIf ?_
    | with_reducible refine Within.each fun _ => ?_
    | with_reducible refine Within.mapEach fun _ => ?_
    | split
    | dsimp only

theorem dropEarly_within {n : Nat} : Within [.outbox, .ddrs] (dropEarly n) := by
  unfold dropEarly
  repeat' first
    | with_reducible exact Within.pure _
    | with_reducible exact Within.rd _
    | (with_reducible refine Within.emit ?_); rfl
    | with_reducible exact send_within.of (by decide)
    | with_reducible refine Within.bind ?_ fun _ => ?_
    | with_reducible refine Within.onlyIf ?_
    | with_reducible refine Within.each fun _ => ?_
    | with_reducible refine Within.mapEach fun _ => ?_
    | split
    | dsimp only

theorem execDdrRungExit_within {n : Nat} {s : State} : Effect [.free, .outbox, .mem, .bad, .regs, .ddrs, .fc] (execDdrRungExit n s) s := by
  unfold execDdrRungExit
  refine Within.effect ?_ _
  repeat' first
    | with_reducible exact Within.pure _
    | with_reducible exact Within.rd _
    | with_reducible exact (modDdrs_within _ _).of (by decide)
    | with_reducible exact runEarly_within.of (by decide)
    | with_reducible exact setFld_within.of (by decide)
    | with_reducible refine Within.bind ?_ fun _ => ?_
    | with_reducible refine Within.onlyIf ?_
    | with_reducible refine Within.each fun _ => ?_
    | with_reducible refine Within.mapEach fun _ => ?_
    | split
    | dsimp only

end Sys2Proof.Machine
end

