-- ==== Sys2Proof/Laws/WithinHelpers.lean ====
section
/-! SUPPORT. Which parts of the state the programs of Machine/Helpers.lean change. -/

set_option linter.all false
set_option Elab.async false

namespace Sys2Proof.Machine

theorem helperCount_within {reg : Nat → Nat → Nat} {t : Nat} {k : HelperClass} : Within [.regs] (helperCount reg t k) := by
  unfold helperCount
  repeat' first
    | with_reducible exact Within.pure _
    | with_reducible exact Within.rd _
    | with_reducible exact count_within.of (by decide)
    | with_reducible refine Within.bind ?_ fun _ => ?_
    | with_reducible refine Within.onlyIf ?_
    | with_reducible refine Within.each fun _ => ?_
    | with_reducible refine Within.mapEach fun _ => ?_
    | split
    | dsimp only

theorem helperWrite_within {t : Nat} {q : HelperReq} {p : Word} {bs : List Byte} : Within [.mem, .bad, .desk, .ddrs] (helperWrite t q p bs) := by
  unfold helperWrite
  repeat' first
    | with_reducible exact Within.pure _
    | with_reducible exact Within.rd _
    | with_reducible exact eaStore_within.of (by decide)
    | with_reducible refine Within.bind ?_ fun _ => ?_
    | with_reducible refine Within.onlyIf ?_
    | with_reducible refine Within.each fun _ => ?_
    | with_reducible refine Within.mapEach fun _ => ?_
    | split
    | dsimp only

theorem helperRefuse_within {t : Nat} {q : HelperReq} {reason : Nat} : Within [.outbox, .mem, .bad, .desk, .regs, .threads, .acts, .ready, .ctxs, .hqueues, .ddrs, .chans, .locks, .sq, .cw, .fc] (helperRefuse t q reason) := by
  unfold helperRefuse
  repeat' first
    | with_reducible exact Within.pure _
    | with_reducible exact Within.rd _
    | with_reducible exact helperCount_within.of (by decide)
    | with_reducible exact setFlag_within.of (by decide)
    | with_reducible exact undef_within.of (by decide)
    | with_reducible refine Within.bind ?_ fun _ => ?_
    | with_reducible refine Within.onlyIf ?_
    | with_reducible refine Within.each fun _ => ?_
    | with_reducible refine Within.mapEach fun _ => ?_
    | split
    | dsimp only

theorem helperAccept_within {t : Nat} {u : Nat} {q : HelperReq} : Within [.regs, .threads, .units] (helperAccept t u q) := by
  unfold helperAccept
  repeat' first
    | with_reducible exact Within.pure _
    | with_reducible exact Within.rd _
    | (with_reducible refine Within.emit ?_); rfl
    | with_reducible exact enterWait_within.of (by decide)
    | with_reducible exact finishNext_within.of (by decide)
    | with_reducible exact helperCount_within.of (by decide)
    | with_reducible refine Within.bind ?_ fun _ => ?_
    | with_reducible refine Within.onlyIf ?_
    | with_reducible refine Within.each fun _ => ?_
    | with_reducible refine Within.mapEach fun _ => ?_
    | split
    | dsimp only

theorem helperStart_within {t : Nat} {u : Nat} {q : HelperReq} : Within [.free, .outbox, .mem, .bad, .desk, .regs, .threads, .acts, .ready, .ctxs, .units, .hqueues, .ddrs, .chans, .locks, .sq, .cw, .fc] (helperStart t u q) := by
  unfold helperStart
  repeat' first
    | with_reducible exact Within.pure _
    | with_reducible exact Within.rd _
    | with_reducible exact eaReport_within.of (by decide)
    | with_reducible exact helperAccept_within.of (by decide)
    | with_reducible exact helperRefuse_within.of (by decide)
    | with_reducible exact trapHere_within.of (by decide)
    | with_reducible refine Within.bind ?_ fun _ => ?_
    | with_reducible refine Within.onlyIf ?_
    | with_reducible refine Within.each fun _ => ?_
    | with_reducible refine Within.mapEach fun _ => ?_
    | split
    | dsimp only

theorem helperSeek_within {t : Nat} {q : HelperReq} : Within [.free, .outbox, .mem, .bad, .desk, .regs, .threads, .acts, .ready, .ctxs, .units, .hqueues, .ddrs, .chans, .locks, .sq, .cw, .fc] (helperSeek t q) := by
  unfold helperSeek
  repeat' first
    | with_reducible exact Within.pure _
    | with_reducible exact Within.rd _
    | with_reducible exact (modHqueues_within _ _).of (by decide)
    | with_reducible exact (modThreads_within _ _).of (by decide)
    | with_reducible exact enterWait_within.of (by decide)
    | with_reducible exact finishNext_within.of (by decide)
    | with_reducible exact helperCount_within.of (by decide)
    | with_reducible exact helperRefuse_within.of (by decide)
    | with_reducible exact helperStart_within.of (by decide)
    | with_reducible exact trapHere_within.of (by decide)
    | with_reducible refine Within.bind ?_ fun _ => ?_
    | with_reducible refine Within.onlyIf ?_
    | with_reducible refine Within.each fun _ => ?_
    | with_reducible refine Within.mapEach fun _ => ?_
    | split
    | dsimp only

theorem issueUnassigned_within {t : Nat} {w : Nat} : Within [.outbox, .mem, .bad, .desk, .regs, .threads, .acts, .ready, .ctxs, .hqueues, .ddrs, .chans, .locks, .sq, .cw, .fc] (issueUnassigned t w) := by
  unfold issueUnassigned
  repeat' first
    | with_reducible exact Within.pure _
    | with_reducible exact Within.rd _
    | with_reducible exact helperCount_within.of (by decide)
    | with_reducible refine issue_within (by decide) (fun _ => ?_)
    | with_reducible exact setFlag_within.of (by decide)
    | with_reducible exact undef_within.of (by decide)
    | with_reducible refine Within.bind ?_ fun _ => ?_
    | with_reducible refine Within.onlyIf ?_
    | with_reducible refine Within.each fun _ => ?_
    | with_reducible refine Within.mapEach fun _ => ?_
    | split
    | dsimp only

theorem helperM_within {k : HelperClass} {fn : Nat} {usesRc : Bool} {t : Nat} {ra : Nat} {rb : Nat} {rc : Nat} {flags : Nat} : Within [.free, .outbox, .mem, .bad, .desk, .regs, .threads, .acts, .ready, .ctxs, .units, .hqueues, .ddrs, .chans, .locks, .sq, .cw, .fc] (helperM k fn usesRc t ra rb rc flags) := by
  unfold helperM
  repeat' first
    | with_reducible exact Within.pure _
    | with_reducible exact Within.rd _
    | with_reducible exact enterWait_within.of (by decide)
    | with_reducible exact helperRefuse_within.of (by decide)
    | with_reducible exact helperSeek_within.of (by decide)
    | with_reducible refine issue_within (by decide) (fun _ => ?_)
    | with_reducible refine Within.bind ?_ fun _ => ?_
    | with_reducible refine Within.onlyIf ?_
    | with_reducible refine Within.each fun _ => ?_
    | with_reducible refine Within.mapEach fun _ => ?_
    | split
    | dsimp only

theorem helperEnd_within {t : Nat} {q : HelperReq} {code : Nat} {out : Option Nat} : Within [.free, .outbox, .mem, .bad, .desk, .regs, .threads, .acts, .ready, .ctxs, .hqueues, .ddrs, .chans, .locks, .sq, .cw, .fc] (helperEnd t q code out) := by
  unfold helperEnd
  repeat' first
    | with_reducible exact Within.pure _
    | with_reducible exact Within.rd _
    | with_reducible exact draw_within.of (by decide)
    | with_reducible exact finishNext_within.of (by decide)
    | with_reducible exact helperCount_within.of (by decide)
    | with_reducible exact helperWrite_within.of (by decide)
    | with_reducible exact setFlag_within.of (by decide)
    | with_reducible exact trapHere_within.of (by decide)
    | with_reducible refine Within.bind ?_ fun _ => ?_
    | with_reducible refine Within.onlyIf ?_
    | with_reducible refine Within.each fun _ => ?_
    | with_reducible refine Within.mapEach fun _ => ?_
    | split
    | dsimp only

theorem helperAgain_within {t : Nat} : Within [.free, .outbox, .mem, .bad, .desk, .regs, .threads, .acts, .ready, .ctxs, .units, .hqueues, .ddrs, .chans, .locks, .sq, .cw, .fc] (helperAgain t) := by
  unfold helperAgain
  repeat' first
    | with_reducible exact Within.pure _
    | with_reducible exact Within.rd _
    | with_reducible exact helperSeek_within.of (by decide)
    | with_reducible refine Within.bind ?_ fun _ => ?_
    | with_reducible refine Within.onlyIf ?_
    | with_reducible refine Within.each fun _ => ?_
    | with_reducible refine Within.mapEach fun _ => ?_
    | split
    | dsimp only

theorem helperRestart_within {st : Nat} {u : Nat} : Within [.free, .outbox, .mem, .bad, .desk, .regs, .threads, .acts, .ready, .ctxs, .units, .hqueues, .ddrs, .chans, .locks, .sq, .cw, .fc] (helperRestart st u) := by
  unfold helperRestart
  repeat' first
    | with_reducible exact Within.pure _
    | with_reducible exact Within.rd _
    | with_reducible exact (modHqueues_within _ _).of (by decide)
    | (with_reducible refine Within.emit ?_); rfl
    | with_reducible exact helperAgain_within.of (by decide)
    | with_reducible exact helperEnd_within.of (by decide)
    | with_reducible refine Within.bind ?_ fun _ => ?_
    | with_reducible refine Within.onlyIf ?_
    | with_reducible refine Within.each fun _ => ?_
    | with_reducible refine Within.mapEach fun _ => ?_
    | split
    | dsimp only

theorem helperClassLost_within {st : Nat} {k : HelperClass} : Within [.free, .outbox, .mem, .bad, .desk, .regs, .threads, .acts, .ready, .ctxs, .units, .hqueues, .ddrs, .chans, .locks, .sq, .cw, .fc] (helperClassLost st k) := by
  unfold helperClassLost
  repeat' first
    | with_reducible exact Within.pure _
    | with_reducible exact Within.rd _
    | (with_reducible refine Within.emit ?_); rfl
    | with_reducible exact helperAgain_within.of (by decide)
    | with_reducible exact helperEnd_within.of (by decide)
    | with_reducible exact helperRefuse_within.of (by decide)
    | with_reducible refine Within.bind ?_ fun _ => ?_
    | with_reducible refine Within.onlyIf ?_
    | with_reducible refine Within.each fun _ => ?_
    | with_reducible refine Within.mapEach fun _ => ?_
    | split
    | dsimp only

theorem helperGive_within {st : Nat} {u : Nat} {k : HelperClass} {w : HelperWait} : Within [.free, .outbox, .mem, .bad, .desk, .regs, .threads, .acts, .ready, .ctxs, .units, .hqueues, .ddrs, .chans, .locks, .sq, .cw, .fc] (helperGive st u k w) := by
  unfold helperGive
  repeat' first
    | with_reducible exact Within.pure _
    | with_reducible exact Within.rd _
    | with_reducible exact (modHqueues_within _ _).of (by decide)
    | (with_reducible refine Within.emit ?_); rfl
    | with_reducible exact helperCount_within.of (by decide)
    | with_reducible exact helperStart_within.of (by decide)
    | with_reducible refine Within.bind ?_ fun _ => ?_
    | with_reducible refine Within.onlyIf ?_
    | with_reducible refine Within.each fun _ => ?_
    | with_reducible refine Within.mapEach fun _ => ?_
    | split
    | dsimp only

theorem execHelperGrant_within {s1 : Nat} {k : HelperClass} {m : State} : Effect [.free, .outbox, .mem, .bad, .desk, .regs, .threads, .acts, .ready, .ctxs, .units, .hqueues, .ddrs, .chans, .locks, .sq, .cw, .fc] (execHelperGrant s1 k m) m := by
  unfold execHelperGrant
  refine Within.effect ?_ _
  repeat' first
    | with_reducible exact Within.pure _
    | with_reducible exact Within.rd _
    | with_reducible exact (modHqueues_within _ _).of (by decide)
    | with_reducible exact helperCount_within.of (by decide)
    | with_reducible exact helperGive_within.of (by decide)
    | with_reducible exact helperRestart_within.of (by decide)
    | with_reducible exact helperStart_within.of (by decide)
    | with_reducible refine Within.bind ?_ fun _ => ?_
    | with_reducible refine Within.onlyIf ?_
    | with_reducible refine Within.each fun _ => ?_
    | with_reducible refine Within.mapEach fun _ => ?_
    | split
    | dsimp only

theorem execHelperComplete_within {s1 : Nat} {u : Nat} {m : State} : Effect [.free, .outbox, .mem, .bad, .desk, .regs, .threads, .acts, .ready, .ctxs, .units, .hqueues, .ddrs, .chans, .locks, .sq, .cw, .fc] (execHelperComplete s1 u m) m := by
  unfold execHelperComplete
  refine Within.effect ?_ _
  repeat' first
    | with_reducible exact Within.pure _
    | with_reducible exact Within.rd _
    | (with_reducible refine Within.emit ?_); rfl
    | with_reducible exact countBy_within.of (by decide)
    | with_reducible exact draw_within.of (by decide)
    | with_reducible exact eaReport_within.of (by decide)
    | with_reducible exact helperAgain_within.of (by decide)
    | with_reducible exact helperEnd_within.of (by decide)
    | with_reducible exact helperWrite_within.of (by decide)
    | with_reducible refine Within.bind ?_ fun _ => ?_
    | with_reducible refine Within.onlyIf ?_
    | with_reducible refine Within.each fun _ => ?_
    | with_reducible refine Within.mapEach fun _ => ?_
    | split
    | dsimp only

theorem execFxBitmap_within {t : Nat} {ra : Nat} {rb : Nat} {rc : Nat} {flags : Nat} {s : State} : Effect [.free, .outbox, .mem, .bad, .desk, .regs, .threads, .acts, .ready, .ctxs, .units, .hqueues, .ddrs, .chans, .locks, .sq, .cw, .fc] (execFxBitmap t ra rb rc flags s) s := by
  unfold execFxBitmap
  refine Within.effect ?_ _
  repeat' first
    | with_reducible exact Within.pure _
    | with_reducible exact Within.rd _
    | with_reducible exact helperM_within.of (by decide)
    | with_reducible refine Within.bind ?_ fun _ => ?_
    | with_reducible refine Within.onlyIf ?_
    | with_reducible refine Within.each fun _ => ?_
    | with_reducible refine Within.mapEach fun _ => ?_
    | split
    | dsimp only

theorem execFxIso_within {t : Nat} {ra : Nat} {rb : Nat} {rc : Nat} {flags : Nat} {s : State} : Effect [.free, .outbox, .mem, .bad, .desk, .regs, .threads, .acts, .ready, .ctxs, .units, .hqueues, .ddrs, .chans, .locks, .sq, .cw, .fc] (execFxIso t ra rb rc flags s) s := by
  unfold execFxIso
  refine Within.effect ?_ _
  repeat' first
    | with_reducible exact Within.pure _
    | with_reducible exact Within.rd _
    | with_reducible exact helperM_within.of (by decide)
    | with_reducible refine Within.bind ?_ fun _ => ?_
    | with_reducible refine Within.onlyIf ?_
    | with_reducible refine Within.each fun _ => ?_
    | with_reducible refine Within.mapEach fun _ => ?_
    | split
    | dsimp only

theorem execFxTlv_within {t : Nat} {ra : Nat} {rb : Nat} {rc : Nat} {flags : Nat} {s : State} : Effect [.free, .outbox, .mem, .bad, .desk, .regs, .threads, .acts, .ready, .ctxs, .units, .hqueues, .ddrs, .chans, .locks, .sq, .cw, .fc] (execFxTlv t ra rb rc flags s) s := by
  unfold execFxTlv
  refine Within.effect ?_ _
  repeat' first
    | with_reducible exact Within.pure _
    | with_reducible exact Within.rd _
    | with_reducible exact helperM_within.of (by decide)
    | with_reducible refine Within.bind ?_ fun _ => ?_
    | with_reducible refine Within.onlyIf ?_
    | with_reducible refine Within.each fun _ => ?_
    | with_reducible refine Within.mapEach fun _ => ?_
    | split
    | dsimp only

theorem execFxFields_within {t : Nat} {ra : Nat} {rb : Nat} {rc : Nat} {flags : Nat} {s : State} : Effect [.free, .outbox, .mem, .bad, .desk, .regs, .threads, .acts, .ready, .ctxs, .units, .hqueues, .ddrs, .chans, .locks, .sq, .cw, .fc] (execFxFields t ra rb rc flags s) s := by
  unfold execFxFields
  refine Within.effect ?_ _
  repeat' first
    | with_reducible exact Within.pure _
    | with_reducible exact Within.rd _
    | with_reducible exact helperM_within.of (by decide)
    | with_reducible refine Within.bind ?_ fun _ => ?_
    | with_reducible refine Within.onlyIf ?_
    | with_reducible refine Within.each fun _ => ?_
    | with_reducible refine Within.mapEach fun _ => ?_
    | split
    | dsimp only

theorem execDxAdd_within {t : Nat} {ra : Nat} {rb : Nat} {rc : Nat} {flags : Nat} {s : State} : Effect [.free, .outbox, .mem, .bad, .desk, .regs, .threads, .acts, .ready, .ctxs, .units, .hqueues, .ddrs, .chans, .locks, .sq, .cw, .fc] (execDxAdd t ra rb rc flags s) s := by
  unfold execDxAdd
  refine Within.effect ?_ _
  repeat' first
    | with_reducible exact Within.pure _
    | with_reducible exact Within.rd _
    | with_reducible exact helperM_within.of (by decide)
    | with_reducible refine Within.bind ?_ fun _ => ?_
    | with_reducible refine Within.onlyIf ?_
    | with_reducible refine Within.each fun _ => ?_
    | with_reducible refine Within.mapEach fun _ => ?_
    | split
    | dsimp only

theorem execDxSub_within {t : Nat} {ra : Nat} {rb : Nat} {rc : Nat} {flags : Nat} {s : State} : Effect [.free, .outbox, .mem, .bad, .desk, .regs, .threads, .acts, .ready, .ctxs, .units, .hqueues, .ddrs, .chans, .locks, .sq, .cw, .fc] (execDxSub t ra rb rc flags s) s := by
  unfold execDxSub
  refine Within.effect ?_ _
  repeat' first
    | with_reducible exact Within.pure _
    | with_reducible exact Within.rd _
    | with_reducible exact helperM_within.of (by decide)
    | with_reducible refine Within.bind ?_ fun _ => ?_
    | with_reducible refine Within.onlyIf ?_
    | with_reducible refine Within.each fun _ => ?_
    | with_reducible refine Within.mapEach fun _ => ?_
    | split
    | dsimp only

theorem execDxMul_within {t : Nat} {ra : Nat} {rb : Nat} {rc : Nat} {flags : Nat} {s : State} : Effect [.free, .outbox, .mem, .bad, .desk, .regs, .threads, .acts, .ready, .ctxs, .units, .hqueues, .ddrs, .chans, .locks, .sq, .cw, .fc] (execDxMul t ra rb rc flags s) s := by
  unfold execDxMul
  refine Within.effect ?_ _
  repeat' first
    | with_reducible exact Within.pure _
    | with_reducible exact Within.rd _
    | with_reducible exact helperM_within.of (by decide)
    | with_reducible refine Within.bind ?_ fun _ => ?_
    | with_reducible refine Within.onlyIf ?_
    | with_reducible refine Within.each fun _ => ?_
    | with_reducible refine Within.mapEach fun _ => ?_
    | split
    | dsimp only

theorem execDxRescale_within {t : Nat} {ra : Nat} {rb : Nat} {rc : Nat} {flags : Nat} {s : State} : Effect [.free, .outbox, .mem, .bad, .desk, .regs, .threads, .acts, .ready, .ctxs, .units, .hqueues, .ddrs, .chans, .locks, .sq, .cw, .fc] (execDxRescale t ra rb rc flags s) s := by
  unfold execDxRescale
  refine Within.effect ?_ _
  repeat' first
    | with_reducible exact Within.pure _
    | with_reducible exact Within.rd _
    | with_reducible exact helperM_within.of (by decide)
    | with_reducible refine Within.bind ?_ fun _ => ?_
    | with_reducible refine Within.onlyIf ?_
    | with_reducible refine Within.each fun _ => ?_
    | with_reducible refine Within.mapEach fun _ => ?_
    | split
    | dsimp only

theorem execDxCcy_within {t : Nat} {ra : Nat} {rb : Nat} {rc : Nat} {flags : Nat} {s : State} : Effect [.free, .outbox, .mem, .bad, .desk, .regs, .threads, .acts, .ready, .ctxs, .units, .hqueues, .ddrs, .chans, .locks, .sq, .cw, .fc] (execDxCcy t ra rb rc flags s) s := by
  unfold execDxCcy
  refine Within.effect ?_ _
  repeat' first
    | with_reducible exact Within.pure _
    | with_reducible exact Within.rd _
    | with_reducible exact helperM_within.of (by decide)
    | with_reducible refine Within.bind ?_ fun _ => ?_
    | with_reducible refine Within.onlyIf ?_
    | with_reducible refine Within.each fun _ => ?_
    | with_reducible refine Within.mapEach fun _ => ?_
    | split
    | dsimp only

theorem execDxCmp_within {t : Nat} {ra : Nat} {rb : Nat} {rc : Nat} {flags : Nat} {s : State} : Effect [.free, .outbox, .mem, .bad, .desk, .regs, .threads, .acts, .ready, .ctxs, .units, .hqueues, .ddrs, .chans, .locks, .sq, .cw, .fc] (execDxCmp t ra rb rc flags s) s := by
  unfold execDxCmp
  refine Within.effect ?_ _
  repeat' first
    | with_reducible exact Within.pure _
    | with_reducible exact Within.rd _
    | with_reducible exact helperM_within.of (by decide)
    | with_reducible refine Within.bind ?_ fun _ => ?_
    | with_reducible refine Within.onlyIf ?_
    | with_reducible refine Within.each fun _ => ?_
    | with_reducible refine Within.mapEach fun _ => ?_
    | split
    | dsimp only

theorem execDxParse_within {t : Nat} {ra : Nat} {rb : Nat} {rc : Nat} {flags : Nat} {s : State} : Effect [.free, .outbox, .mem, .bad, .desk, .regs, .threads, .acts, .ready, .ctxs, .units, .hqueues, .ddrs, .chans, .locks, .sq, .cw, .fc] (execDxParse t ra rb rc flags s) s := by
  unfold execDxParse
  refine Within.effect ?_ _
  repeat' first
    | with_reducible exact Within.pure _
    | with_reducible exact Within.rd _
    | with_reducible exact helperM_within.of (by decide)
    | with_reducible refine Within.bind ?_ fun _ => ?_
    | with_reducible refine Within.onlyIf ?_
    | with_reducible refine Within.each fun _ => ?_
    | with_reducible refine Within.mapEach fun _ => ?_
    | split
    | dsimp only

theorem execDxFormat_within {t : Nat} {ra : Nat} {rb : Nat} {rc : Nat} {flags : Nat} {s : State} : Effect [.free, .outbox, .mem, .bad, .desk, .regs, .threads, .acts, .ready, .ctxs, .units, .hqueues, .ddrs, .chans, .locks, .sq, .cw, .fc] (execDxFormat t ra rb rc flags s) s := by
  unfold execDxFormat
  refine Within.effect ?_ _
  repeat' first
    | with_reducible exact Within.pure _
    | with_reducible exact Within.rd _
    | with_reducible exact helperM_within.of (by decide)
    | with_reducible refine Within.bind ?_ fun _ => ?_
    | with_reducible refine Within.onlyIf ?_
    | with_reducible refine Within.each fun _ => ?_
    | with_reducible refine Within.mapEach fun _ => ?_
    | split
    | dsimp only

theorem execCxCmac_within {t : Nat} {ra : Nat} {rb : Nat} {rc : Nat} {flags : Nat} {s : State} : Effect [.free, .outbox, .mem, .bad, .desk, .regs, .threads, .acts, .ready, .ctxs, .units, .hqueues, .ddrs, .chans, .locks, .sq, .cw, .fc] (execCxCmac t ra rb rc flags s) s := by
  unfold execCxCmac
  refine Within.effect ?_ _
  repeat' first
    | with_reducible exact Within.pure _
    | with_reducible exact Within.rd _
    | with_reducible exact helperM_within.of (by decide)
    | with_reducible refine Within.bind ?_ fun _ => ?_
    | with_reducible refine Within.onlyIf ?_
    | with_reducible refine Within.each fun _ => ?_
    | with_reducible refine Within.mapEach fun _ => ?_
    | split
    | dsimp only

theorem execCxCmacVer_within {t : Nat} {ra : Nat} {rb : Nat} {rc : Nat} {flags : Nat} {s : State} : Effect [.free, .outbox, .mem, .bad, .desk, .regs, .threads, .acts, .ready, .ctxs, .units, .hqueues, .ddrs, .chans, .locks, .sq, .cw, .fc] (execCxCmacVer t ra rb rc flags s) s := by
  unfold execCxCmacVer
  refine Within.effect ?_ _
  repeat' first
    | with_reducible exact Within.pure _
    | with_reducible exact Within.rd _
    | with_reducible exact helperM_within.of (by decide)
    | with_reducible refine Within.bind ?_ fun _ => ?_
    | with_reducible refine Within.onlyIf ?_
    | with_reducible refine Within.each fun _ => ?_
    | with_reducible refine Within.mapEach fun _ => ?_
    | split
    | dsimp only

theorem execCxGcmEnc_within {t : Nat} {ra : Nat} {rb : Nat} {rc : Nat} {flags : Nat} {s : State} : Effect [.free, .outbox, .mem, .bad, .desk, .regs, .threads, .acts, .ready, .ctxs, .units, .hqueues, .ddrs, .chans, .locks, .sq, .cw, .fc] (execCxGcmEnc t ra rb rc flags s) s := by
  unfold execCxGcmEnc
  refine Within.effect ?_ _
  repeat' first
    | with_reducible exact Within.pure _
    | with_reducible exact Within.rd _
    | with_reducible exact helperM_within.of (by decide)
    | with_reducible refine Within.bind ?_ fun _ => ?_
    | with_reducible refine Within.onlyIf ?_
    | with_reducible refine Within.each fun _ => ?_
    | with_reducible refine Within.mapEach fun _ => ?_
    | split
    | dsimp only

theorem execCxGcmDec_within {t : Nat} {ra : Nat} {rb : Nat} {rc : Nat} {flags : Nat} {s : State} : Effect [.free, .outbox, .mem, .bad, .desk, .regs, .threads, .acts, .ready, .ctxs, .units, .hqueues, .ddrs, .chans, .locks, .sq, .cw, .fc] (execCxGcmDec t ra rb rc flags s) s := by
  unfold execCxGcmDec
  refine Within.effect ?_ _
  repeat' first
    | with_reducible exact Within.pure _
    | with_reducible exact Within.rd _
    | with_reducible exact helperM_within.of (by decide)
    | with_reducible refine Within.bind ?_ fun _ => ?_
    | with_reducible refine Within.onlyIf ?_
    | with_reducible refine Within.each fun _ => ?_
    | with_reducible refine Within.mapEach fun _ => ?_
    | split
    | dsimp only

theorem execCxSha256_within {t : Nat} {ra : Nat} {rb : Nat} {rc : Nat} {flags : Nat} {s : State} : Effect [.free, .outbox, .mem, .bad, .desk, .regs, .threads, .acts, .ready, .ctxs, .units, .hqueues, .ddrs, .chans, .locks, .sq, .cw, .fc] (execCxSha256 t ra rb rc flags s) s := by
  unfold execCxSha256
  refine Within.effect ?_ _
  repeat' first
    | with_reducible exact Within.pure _
    | with_reducible exact Within.rd _
    | with_reducible exact helperM_within.of (by decide)
    | with_reducible refine Within.bind ?_ fun _ => ?_
    | with_reducible refine Within.onlyIf ?_
    | with_reducible refine Within.each fun _ => ?_
    | with_reducible refine Within.mapEach fun _ => ?_
    | split
    | dsimp only

theorem execCxHmac_within {t : Nat} {ra : Nat} {rb : Nat} {rc : Nat} {flags : Nat} {s : State} : Effect [.free, .outbox, .mem, .bad, .desk, .regs, .threads, .acts, .ready, .ctxs, .units, .hqueues, .ddrs, .chans, .locks, .sq, .cw, .fc] (execCxHmac t ra rb rc flags s) s := by
  unfold execCxHmac
  refine Within.effect ?_ _
  repeat' first
    | with_reducible exact Within.pure _
    | with_reducible exact Within.rd _
    | with_reducible exact helperM_within.of (by decide)
    | with_reducible refine Within.bind ?_ fun _ => ?_
    | with_reducible refine Within.onlyIf ?_
    | with_reducible refine Within.each fun _ => ?_
    | with_reducible refine Within.mapEach fun _ => ?_
    | split
    | dsimp only

theorem execCxHmacVer_within {t : Nat} {ra : Nat} {rb : Nat} {rc : Nat} {flags : Nat} {s : State} : Effect [.free, .outbox, .mem, .bad, .desk, .regs, .threads, .acts, .ready, .ctxs, .units, .hqueues, .ddrs, .chans, .locks, .sq, .cw, .fc] (execCxHmacVer t ra rb rc flags s) s := by
  unfold execCxHmacVer
  refine Within.effect ?_ _
  repeat' first
    | with_reducible exact Within.pure _
    | with_reducible exact Within.rd _
    | with_reducible exact helperM_within.of (by decide)
    | with_reducible refine Within.bind ?_ fun _ => ?_
    | with_reducible refine Within.onlyIf ?_
    | with_reducible refine Within.each fun _ => ?_
    | with_reducible refine Within.mapEach fun _ => ?_
    | split
    | dsimp only

theorem execHxCrc_within {t : Nat} {ra : Nat} {rb : Nat} {rc : Nat} {flags : Nat} {s : State} : Effect [.free, .outbox, .mem, .bad, .desk, .regs, .threads, .acts, .ready, .ctxs, .units, .hqueues, .ddrs, .chans, .locks, .sq, .cw, .fc] (execHxCrc t ra rb rc flags s) s := by
  unfold execHxCrc
  refine Within.effect ?_ _
  repeat' first
    | with_reducible exact Within.pure _
    | with_reducible exact Within.rd _
    | with_reducible exact helperM_within.of (by decide)
    | with_reducible refine Within.bind ?_ fun _ => ?_
    | with_reducible refine Within.onlyIf ?_
    | with_reducible refine Within.each fun _ => ?_
    | with_reducible refine Within.mapEach fun _ => ?_
    | split
    | dsimp only

theorem execHxKey_within {t : Nat} {ra : Nat} {rb : Nat} {rc : Nat} {flags : Nat} {s : State} : Effect [.free, .outbox, .mem, .bad, .desk, .regs, .threads, .acts, .ready, .ctxs, .units, .hqueues, .ddrs, .chans, .locks, .sq, .cw, .fc] (execHxKey t ra rb rc flags s) s := by
  unfold execHxKey
  refine Within.effect ?_ _
  repeat' first
    | with_reducible exact Within.pure _
    | with_reducible exact Within.rd _
    | with_reducible exact helperM_within.of (by decide)
    | with_reducible refine Within.bind ?_ fun _ => ?_
    | with_reducible refine Within.onlyIf ?_
    | with_reducible refine Within.each fun _ => ?_
    | with_reducible refine Within.mapEach fun _ => ?_
    | split
    | dsimp only

theorem execHxMcmp_within {t : Nat} {ra : Nat} {rb : Nat} {rc : Nat} {flags : Nat} {s : State} : Effect [.free, .outbox, .mem, .bad, .desk, .regs, .threads, .acts, .ready, .ctxs, .units, .hqueues, .ddrs, .chans, .locks, .sq, .cw, .fc] (execHxMcmp t ra rb rc flags s) s := by
  unfold execHxMcmp
  refine Within.effect ?_ _
  repeat' first
    | with_reducible exact Within.pure _
    | with_reducible exact Within.rd _
    | with_reducible exact helperM_within.of (by decide)
    | with_reducible refine Within.bind ?_ fun _ => ?_
    | with_reducible refine Within.onlyIf ?_
    | with_reducible refine Within.each fun _ => ?_
    | with_reducible refine Within.mapEach fun _ => ?_
    | split
    | dsimp only

end Sys2Proof.Machine
end

