-- ==== Sys2Proof/Laws/WithinFaults.lean ====
section
/-! SUPPORT. Which parts of the state the programs of Machine/Faults.lean change. -/

set_option linter.all false
set_option Elab.async false

namespace Sys2Proof.Machine

theorem dropSaved_within {k : Nat} : Within [.mem, .bad, .regs, .threads, .acts, .ready, .ctxs, .ddrs, .sq, .cw] (dropSaved k) := by
  unfold dropSaved
  repeat' first
    | with_reducible exact Within.pure _
    | with_reducible exact Within.rd _
    | with_reducible exact (modThreads_within _ _).of (by decide)
    | with_reducible exact blockThread_within.of (by decide)
    | with_reducible exact requeueAct_within.of (by decide)
    | with_reducible exact unqueueAct_within.of (by decide)
    | with_reducible refine Within.bind ?_ fun _ => ?_
    | with_reducible refine Within.onlyIf ?_
    | with_reducible refine Within.each fun _ => ?_
    | with_reducible refine Within.mapEach fun _ => ?_
    | split
    | dsimp only

theorem helperDetained_within {i : Nat} : Within [.free, .outbox, .mem, .bad, .desk, .regs, .threads, .acts, .ready, .ctxs, .units, .hqueues, .ddrs, .chans, .locks, .sq, .cw, .fc] (helperDetained i) := by
  unfold helperDetained
  repeat' first
    | with_reducible exact Within.pure _
    | with_reducible exact Within.rd _
    | with_reducible exact helperClassLost_within.of (by decide)
    | with_reducible exact helperRestart_within.of (by decide)
    | with_reducible refine Within.bind ?_ fun _ => ?_
    | with_reducible refine Within.onlyIf ?_
    | with_reducible refine Within.each fun _ => ?_
    | with_reducible refine Within.mapEach fun _ => ?_
    | split
    | dsimp only

theorem replayRecord_within {n : Nat} {w : Nat} {ps : List (Nat × Nat × PortCmd)} {r : LogRec} : Within [.free, .outbox, .mem, .bad, .regs, .engines, .ddrs, .fc] (replayRecord n w ps r) := by
  unfold replayRecord
  repeat' first
    | with_reducible exact Within.pure _
    | with_reducible exact Within.rd _
    | with_reducible exact doMove_within.of (by decide)
    | with_reducible exact logDone_within.of (by decide)
    | with_reducible exact logRecord_within.of (by decide)
    | with_reducible exact setPort_within.of (by decide)
    | with_reducible exact writeCopies_within.of (by decide)
    | with_reducible refine Within.bind ?_ fun _ => ?_
    | with_reducible refine Within.onlyIf ?_
    | with_reducible refine Within.each fun _ => ?_
    | with_reducible refine Within.mapEach fun _ => ?_
    | split
    | dsimp only

theorem engineDetained_within {n : Nat} : Within [.free, .outbox, .mem, .bad, .regs, .engines, .ddrs, .fc] (engineDetained n) := by
  unfold engineDetained
  repeat' first
    | with_reducible exact Within.pure _
    | with_reducible exact Within.rd _
    | with_reducible exact (modEngines_within _ _).of (by decide)
    | with_reducible exact lookupStart_within.of (by decide)
    | with_reducible exact replayRecord_within.of (by decide)
    | with_reducible refine Within.bind ?_ fun _ => ?_
    | with_reducible refine Within.onlyIf ?_
    | with_reducible refine Within.each fun _ => ?_
    | with_reducible refine Within.mapEach fun _ => ?_
    | split
    | dsimp only

theorem engineReturns_within {n : Nat} : Within [.engines, .ddrs] (engineReturns n) := by
  unfold engineReturns
  repeat' first
    | with_reducible exact Within.pure _
    | with_reducible exact Within.rd _
    | with_reducible exact (modEngines_within _ _).of (by decide)
    | with_reducible exact logDone_within.of (by decide)
    | with_reducible exact logRecord_within.of (by decide)
    | with_reducible refine Within.bind ?_ fun _ => ?_
    | with_reducible refine Within.onlyIf ?_
    | with_reducible refine Within.each fun _ => ?_
    | with_reducible refine Within.mapEach fun _ => ?_
    | split
    | dsimp only

theorem adoptEntry_within {e : Entry} : Within [.outbox, .mem, .bad, .regs, .ctxs, .banks, .ddrs, .rc] (adoptEntry e) := by
  unfold adoptEntry
  repeat' first
    | with_reducible exact Within.pure _
    | with_reducible exact Within.rd _
    | with_reducible exact (modBanks_within _ _).of (by decide)
    | with_reducible exact makeRoom_within.of (by decide)
    | with_reducible refine Within.bind ?_ fun _ => ?_
    | with_reducible refine Within.onlyIf ?_
    | with_reducible refine Within.each fun _ => ?_
    | with_reducible refine Within.mapEach fun _ => ?_
    | split
    | dsimp only

theorem moveEntry_within {b : Nat} {e : Entry} : Within [.outbox, .mem, .bad, .regs, .ctxs, .banks, .ddrs, .rc] (moveEntry b e) := by
  unfold moveEntry
  repeat' first
    | with_reducible exact Within.pure _
    | with_reducible exact Within.rd _
    | with_reducible exact (modBanks_within _ _).of (by decide)
    | with_reducible exact adoptEntry_within.of (by decide)
    | with_reducible exact spillEntry_within.of (by decide)
    | with_reducible refine Within.bind ?_ fun _ => ?_
    | with_reducible refine Within.onlyIf ?_
    | with_reducible refine Within.each fun _ => ?_
    | with_reducible refine Within.mapEach fun _ => ?_
    | split
    | dsimp only

theorem drainBank_within {b : Nat} {byFault : Bool} : Within [.free, .outbox, .mem, .bad, .regs, .ctxs, .banks, .ddrs, .rc] (drainBank b byFault) := by
  unfold drainBank
  repeat' first
    | with_reducible exact Within.pure _
    | with_reducible exact Within.rd _
    | with_reducible exact (modBanks_within _ _).of (by decide)
    | with_reducible exact draw_within.of (by decide)
    | with_reducible exact dropEntry_within.of (by decide)
    | with_reducible exact moveEntry_within.of (by decide)
    | with_reducible exact passStrays_within.of (by decide)
    | with_reducible exact wantAbandon_within.of (by decide)
    | with_reducible refine Within.bind ?_ fun _ => ?_
    | with_reducible refine Within.onlyIf ?_
    | with_reducible refine Within.each fun _ => ?_
    | with_reducible refine Within.mapEach fun _ => ?_
    | split
    | dsimp only

theorem refillBank_within {b : Nat} : Within [.outbox, .mem, .bad, .regs, .ctxs, .banks, .ddrs, .rc] (refillBank b) := by
  unfold refillBank
  repeat' first
    | with_reducible exact Within.pure _
    | with_reducible exact Within.rd _
    | with_reducible exact moveEntry_within.of (by decide)
    | with_reducible exact passStrays_within.of (by decide)
    | with_reducible refine Within.bind ?_ fun _ => ?_
    | with_reducible refine Within.onlyIf ?_
    | with_reducible refine Within.each fun _ => ?_
    | with_reducible refine Within.mapEach fun _ => ?_
    | split
    | dsimp only

theorem resyncLines_within {l : List (Nat × Nat × Nat)} : Within [.engines] (resyncLines l) := by
  unfold resyncLines
  repeat' first
    | with_reducible exact Within.pure _
    | with_reducible exact Within.rd _
    | with_reducible exact (modEngines_within _ _).of (by decide)
    | with_reducible refine Within.bind ?_ fun _ => ?_
    | with_reducible refine Within.onlyIf ?_
    | with_reducible refine Within.each fun _ => ?_
    | with_reducible refine Within.mapEach fun _ => ?_
    | split
    | dsimp only

theorem restoreLine_within {q : DdrReq} : Within [.mem, .bad] (restoreLine q) := by
  unfold restoreLine
  repeat' first
    | with_reducible exact Within.pure _
    | with_reducible exact Within.rd _
    | (with_reducible refine Within.emit ?_); rfl
    | with_reducible exact writeMem_within.of (by decide)
    | with_reducible refine Within.bind ?_ fun _ => ?_
    | with_reducible refine Within.onlyIf ?_
    | with_reducible refine Within.each fun _ => ?_
    | with_reducible refine Within.mapEach fun _ => ?_
    | split
    | dsimp only

theorem dropWrite_within {n : Nat} {q : DdrReq} : Within [.mem, .bad, .ddrs] (dropWrite n q) := by
  unfold dropWrite
  repeat' first
    | with_reducible exact Within.pure _
    | with_reducible exact Within.rd _
    | with_reducible exact (modDdrs_within _ _).of (by decide)
    | with_reducible exact restoreLine_within.of (by decide)
    | with_reducible exact setLine_within.of (by decide)
    | with_reducible refine Within.bind ?_ fun _ => ?_
    | with_reducible refine Within.onlyIf ?_
    | with_reducible refine Within.each fun _ => ?_
    | with_reducible refine Within.mapEach fun _ => ?_
    | split
    | dsimp only

theorem ddrDetained_within {n : Nat} : Within [.free, .outbox, .mem, .bad, .regs, .engines, .ddrs] (ddrDetained n) := by
  unfold ddrDetained
  repeat' first
    | with_reducible exact Within.pure _
    | with_reducible exact Within.rd _
    | with_reducible exact (modDdrs_within _ _).of (by decide)
    | with_reducible exact (modEngines_within _ _).of (by decide)
    | with_reducible exact count_within.of (by decide)
    | with_reducible exact draw_within.of (by decide)
    | with_reducible exact dropEarly_within.of (by decide)
    | with_reducible exact event_within.of (by decide)
    | with_reducible exact restoreLine_within.of (by decide)
    | with_reducible exact resyncLines_within.of (by decide)
    | with_reducible exact setFld_within.of (by decide)
    | with_reducible refine Within.bind ?_ fun _ => ?_
    | with_reducible refine Within.onlyIf ?_
    | with_reducible refine Within.each fun _ => ?_
    | with_reducible refine Within.mapEach fun _ => ?_
    | split
    | dsimp only

theorem groupDetained_within {g : Nat} : Within [.outbox, .mem, .bad, .regs, .ddrs, .bufs, .pools, .streams, .ports, .hostq, .gb, .bg] (groupDetained g) := by
  unfold groupDetained
  repeat' first
    | with_reducible exact Within.pure _
    | with_reducible exact Within.rd _
    | with_reducible exact (modPorts_within _ _).of (by decide)
    | with_reducible exact bufDrop_within.of (by decide)
    | with_reducible exact countBy_within.of (by decide)
    | with_reducible exact setLink_within.of (by decide)
    | with_reducible exact txFail_within.of (by decide)
    | with_reducible refine Within.bind ?_ fun _ => ?_
    | with_reducible refine Within.onlyIf ?_
    | with_reducible refine Within.each fun _ => ?_
    | with_reducible refine Within.mapEach fun _ => ?_
    | split
    | dsimp only

theorem fenceSequence_within {u : UnitId} : Within [.free, .outbox, .mem, .bad, .desk, .regs, .act, .threads, .acts, .ready, .delay, .ctxs, .units, .hqueues, .engines, .ddrs, .bufs, .pools, .chans, .locks, .streams, .ports, .pipes, .terms, .hostq, .ringLinks, .sq, .cw, .ring, .gb, .fc, .bg] (fenceSequence u) := by
  unfold fenceSequence
  repeat' first
    | with_reducible exact Within.pure _
    | with_reducible exact Within.rd _
    | with_reducible exact ddrDetained_within.of (by decide)
    | with_reducible exact dropSaved_within.of (by decide)
    | with_reducible exact engineDetained_within.of (by decide)
    | with_reducible exact groupDetained_within.of (by decide)
    | with_reducible exact helperDetained_within.of (by decide)
    | with_reducible exact linkDetained_within.of (by decide)
    | with_reducible exact pipeMove_within.of (by decide)
    | with_reducible exact withdrawCore_within.of (by decide)
    | with_reducible refine Within.bind ?_ fun _ => ?_
    | with_reducible refine Within.onlyIf ?_
    | with_reducible refine Within.each fun _ => ?_
    | with_reducible refine Within.mapEach fun _ => ?_
    | split
    | dsimp only

theorem losePages_within {k : Nat} : Within [.free, .desk] (losePages k) := by
  unfold losePages
  repeat' first
    | with_reducible exact Within.pure _
    | with_reducible exact Within.rd _
    | (with_reducible refine Within.emit ?_); rfl
    | with_reducible exact draw_within.of (by decide)
    | with_reducible refine Within.bind ?_ fun _ => ?_
    | with_reducible refine Within.onlyIf ?_
    | with_reducible refine Within.each fun _ => ?_
    | with_reducible refine Within.mapEach fun _ => ?_
    | split
    | dsimp only

theorem streetTo_within {k : Nat} {r : Nat} : Within [.free, .desk, .regs] (streetTo k r) := by
  unfold streetTo
  repeat' first
    | with_reducible exact Within.pure _
    | with_reducible exact Within.rd _
    | with_reducible exact losePages_within.of (by decide)
    | with_reducible exact setFld_within.of (by decide)
    | with_reducible refine Within.bind ?_ fun _ => ?_
    | with_reducible refine Within.onlyIf ?_
    | with_reducible refine Within.each fun _ => ?_
    | with_reducible refine Within.mapEach fun _ => ?_
    | split
    | dsimp only

theorem streetBack_within {k : Nat} : Within [.regs] (streetBack k) := by
  unfold streetBack
  repeat' first
    | with_reducible exact Within.pure _
    | with_reducible exact Within.rd _
    | with_reducible exact setFld_within.of (by decide)
    | with_reducible refine Within.bind ?_ fun _ => ?_
    | with_reducible refine Within.onlyIf ?_
    | with_reducible refine Within.each fun _ => ?_
    | with_reducible refine Within.mapEach fun _ => ?_
    | split
    | dsimp only

theorem rungSet_within {k : Nat} : Within [.free, .desk, .regs] (rungSet k) := by
  unfold rungSet
  repeat' first
    | with_reducible exact Within.pure _
    | with_reducible exact Within.rd _
    | with_reducible exact setFld_within.of (by decide)
    | with_reducible exact streetTo_within.of (by decide)
    | with_reducible refine Within.bind ?_ fun _ => ?_
    | with_reducible refine Within.onlyIf ?_
    | with_reducible refine Within.each fun _ => ?_
    | with_reducible refine Within.mapEach fun _ => ?_
    | split
    | dsimp only

theorem fenceRecord_within {o : Origin} {u : UnitId} {on : Bool} : Within [.outbox, .mem, .bad, .regs, .ddrs, .gb] (fenceRecord o u on) := by
  unfold fenceRecord
  repeat' first
    | with_reducible exact Within.pure _
    | with_reducible exact Within.rd _
    | with_reducible exact gbRecord_within.of (by decide)
    | with_reducible refine Within.bind ?_ fun _ => ?_
    | with_reducible refine Within.onlyIf ?_
    | with_reducible refine Within.each fun _ => ?_
    | with_reducible refine Within.mapEach fun _ => ?_
    | split
    | dsimp only

theorem modeFollows_within {o : Origin} : Within [.outbox, .mem, .bad, .regs, .ddrs, .gb] (modeFollows o) := by
  unfold modeFollows
  repeat' first
    | with_reducible exact Within.pure _
    | with_reducible exact Within.rd _
    | with_reducible exact setMode_within.of (by decide)
    | with_reducible refine Within.bind ?_ fun _ => ?_
    | with_reducible refine Within.onlyIf ?_
    | with_reducible refine Within.each fun _ => ?_
    | with_reducible refine Within.mapEach fun _ => ?_
    | split
    | dsimp only

theorem bgFences_within : Within [.outbox, .regs, .hostq, .bg] (bgFences) := by
  unfold bgFences
  repeat' first
    | with_reducible exact Within.pure _
    | with_reducible exact Within.rd _
    | with_reducible exact bgEnd_within.of (by decide)
    | with_reducible refine Within.bind ?_ fun _ => ?_
    | with_reducible refine Within.onlyIf ?_
    | with_reducible refine Within.each fun _ => ?_
    | with_reducible refine Within.mapEach fun _ => ?_
    | split
    | dsimp only

theorem detain_within {f : Fencing} : Within [.free, .outbox, .mem, .bad, .desk, .regs, .act, .threads, .acts, .ready, .delay, .ctxs, .units, .hqueues, .engines, .ddrs, .bufs, .pools, .chans, .locks, .streams, .ports, .pipes, .terms, .hostq, .ringLinks, .sq, .cw, .ring, .gb, .fc, .bg] (detain f) := by
  unfold detain
  repeat' first
    | with_reducible exact Within.pure _
    | with_reducible exact Within.rd _
    | with_reducible exact (modFc_within _).of (by decide)
    | with_reducible exact bgFences_within.of (by decide)
    | with_reducible exact fenceSequence_within.of (by decide)
    | with_reducible exact linkDetained_within.of (by decide)
    | with_reducible exact modeFollows_within.of (by decide)
    | with_reducible exact reachSafe_within.of (by decide)
    | with_reducible refine ringTrack_within (by decide) ?_
    | with_reducible exact rungSet_within.of (by decide)
    | with_reducible exact setFenceBit_within.of (by decide)
    | with_reducible refine Within.bind ?_ fun _ => ?_
    | with_reducible refine Within.onlyIf ?_
    | with_reducible refine Within.each fun _ => ?_
    | with_reducible refine Within.mapEach fun _ => ?_
    | split
    | dsimp only

theorem lanesMove_within {l : List Nat} : Within [.regs] (lanesMove l) := by
  unfold lanesMove
  repeat' first
    | with_reducible exact Within.pure _
    | with_reducible exact Within.rd _
    | with_reducible exact setFld_within.of (by decide)
    | with_reducible refine Within.bind ?_ fun _ => ?_
    | with_reducible refine Within.onlyIf ?_
    | with_reducible refine Within.each fun _ => ?_
    | with_reducible refine Within.mapEach fun _ => ?_
    | split
    | dsimp only

theorem beginFence_within {o : Origin} {byFault : Bool} {u : UnitId} : Within [.free, .outbox, .mem, .bad, .desk, .regs, .act, .threads, .acts, .ready, .delay, .ctxs, .banks, .units, .hqueues, .engines, .ddrs, .bufs, .pools, .chans, .locks, .streams, .ports, .pipes, .terms, .hostq, .ringLinks, .sq, .rc, .cw, .ring, .gb, .fc, .bg] (beginFence o byFault u) := by
  unfold beginFence
  repeat' first
    | with_reducible exact Within.pure _
    | with_reducible exact Within.rd _
    | with_reducible exact (modFc_within _).of (by decide)
    | with_reducible exact detain_within.of (by decide)
    | with_reducible exact drainBank_within.of (by decide)
    | with_reducible exact fenceRecord_within.of (by decide)
    | with_reducible exact lanesMove_within.of (by decide)
    | with_reducible refine ringTrack_within (by decide) ?_
    | with_reducible exact streetBack_within.of (by decide)
    | with_reducible refine Within.bind ?_ fun _ => ?_
    | with_reducible refine Within.onlyIf ?_
    | with_reducible refine Within.each fun _ => ?_
    | with_reducible refine Within.mapEach fun _ => ?_
    | split
    | dsimp only

theorem execFenceComplete_within {kind : Nat} {idx : Nat} {s : State} : Effect [.free, .outbox, .mem, .bad, .desk, .regs, .act, .threads, .acts, .ready, .delay, .ctxs, .units, .hqueues, .engines, .ddrs, .bufs, .pools, .chans, .locks, .streams, .ports, .pipes, .terms, .hostq, .ringLinks, .sq, .cw, .ring, .gb, .fc, .bg] (execFenceComplete kind idx s) s := by
  unfold execFenceComplete
  refine Within.effect ?_ _
  repeat' first
    | with_reducible exact Within.pure _
    | with_reducible exact Within.rd _
    | with_reducible exact detain_within.of (by decide)
    | with_reducible refine Within.bind ?_ fun _ => ?_
    | with_reducible refine Within.onlyIf ?_
    | with_reducible refine Within.each fun _ => ?_
    | with_reducible refine Within.mapEach fun _ => ?_
    | split
    | dsimp only

theorem enterSafe_within {o : Origin} : Within [.free, .outbox, .mem, .bad, .desk, .regs, .act, .threads, .acts, .ready, .delay, .ctxs, .units, .hqueues, .engines, .ddrs, .bufs, .pools, .chans, .locks, .streams, .ports, .pipes, .terms, .hostq, .ringLinks, .sq, .cw, .ring, .gb, .fc, .bg] (enterSafe o) := by
  unfold enterSafe
  repeat' first
    | with_reducible exact Within.pure _
    | with_reducible exact Within.rd _
    | with_reducible exact (modRing_within _).of (by decide)
    | with_reducible exact detain_within.of (by decide)
    | with_reducible exact notify_within.of (by decide)
    | with_reducible exact setMode_within.of (by decide)
    | with_reducible exact stopThread_within.of (by decide)
    | with_reducible refine Within.bind ?_ fun _ => ?_
    | with_reducible refine Within.onlyIf ?_
    | with_reducible refine Within.each fun _ => ?_
    | with_reducible refine Within.mapEach fun _ => ?_
    | split
    | dsimp only

theorem safeReaction_within : Within [.free, .outbox, .mem, .bad, .desk, .regs, .act, .threads, .acts, .ready, .delay, .ctxs, .units, .hqueues, .engines, .ddrs, .bufs, .pools, .chans, .locks, .streams, .ports, .pipes, .terms, .hostq, .ringLinks, .sq, .cw, .ring, .gb, .fc, .bg] (safeReaction) := by
  unfold safeReaction
  repeat' first
    | with_reducible exact Within.pure _
    | with_reducible exact Within.rd _
    | with_reducible exact bgEnd_within.of (by decide)
    | with_reducible exact count_within.of (by decide)
    | with_reducible exact enterSafe_within.of (by decide)
    | with_reducible refine Within.bind ?_ fun _ => ?_
    | with_reducible refine Within.onlyIf ?_
    | with_reducible refine Within.each fun _ => ?_
    | with_reducible refine Within.mapEach fun _ => ?_
    | split
    | dsimp only

theorem faultLog_within {rec32 : List Byte} : Within [.outbox, .mem, .bad, .regs, .ddrs] (faultLog rec32) := by
  unfold faultLog
  repeat' first
    | with_reducible exact Within.pure _
    | with_reducible exact Within.rd _
    | with_reducible exact count_within.of (by decide)
    | with_reducible exact setFld_within.of (by decide)
    | with_reducible exact sticky_within.of (by decide)
    | with_reducible exact store_within.of (by decide)
    | with_reducible refine Within.bind ?_ fun _ => ?_
    | with_reducible refine Within.onlyIf ?_
    | with_reducible refine Within.each fun _ => ?_
    | with_reducible refine Within.mapEach fun _ => ?_
    | split
    | dsimp only

theorem assertErr_within {n : Nat} : Within [.outbox, .regs] (assertErr n) := by
  unfold assertErr
  repeat' first
    | with_reducible exact Within.pure _
    | with_reducible exact Within.rd _
    | with_reducible exact (modRegs_within _ _).of (by decide)
    | with_reducible exact setFld_within.of (by decide)
    | with_reducible exact sticky_within.of (by decide)
    | with_reducible refine Within.bind ?_ fun _ => ?_
    | with_reducible refine Within.onlyIf ?_
    | with_reducible refine Within.each fun _ => ?_
    | with_reducible refine Within.mapEach fun _ => ?_
    | split
    | dsimp only

theorem faultNotify_within {n : Nat} : Within [.outbox, .regs, .threads] (faultNotify n) := by
  unfold faultNotify
  repeat' first
    | with_reducible exact Within.pure _
    | with_reducible exact Within.rd _
    | with_reducible exact event_within.of (by decide)
    | with_reducible exact setFlag_within.of (by decide)
    | with_reducible refine Within.bind ?_ fun _ => ?_
    | with_reducible refine Within.onlyIf ?_
    | with_reducible refine Within.each fun _ => ?_
    | with_reducible refine Within.mapEach fun _ => ?_
    | split
    | dsimp only

theorem fenceReaction_within {cls : Nat} {u : UnitId} : Within [.free, .outbox, .mem, .bad, .desk, .regs, .act, .threads, .acts, .ready, .delay, .ctxs, .banks, .units, .hqueues, .engines, .ddrs, .bufs, .pools, .chans, .locks, .streams, .ports, .pipes, .terms, .hostq, .ringLinks, .sq, .rc, .cw, .ring, .gb, .fc, .bg] (fenceReaction cls u) := by
  unfold fenceReaction
  repeat' first
    | with_reducible exact Within.pure _
    | with_reducible exact Within.rd _
    | with_reducible exact beginFence_within.of (by decide)
    | with_reducible exact count_within.of (by decide)
    | with_reducible refine Within.bind ?_ fun _ => ?_
    | with_reducible refine Within.onlyIf ?_
    | with_reducible refine Within.each fun _ => ?_
    | with_reducible refine Within.mapEach fun _ => ?_
    | split
    | dsimp only

theorem takeReport_within {r : Report} : Within [.free, .outbox, .mem, .bad, .desk, .regs, .act, .threads, .acts, .ready, .delay, .ctxs, .banks, .units, .hqueues, .engines, .ddrs, .bufs, .pools, .chans, .locks, .streams, .ports, .pipes, .terms, .hostq, .ringLinks, .sq, .rc, .cw, .ring, .gb, .fc, .bg] (takeReport r) := by
  unfold takeReport
  repeat' first
    | with_reducible exact Within.pure _
    | with_reducible exact Within.rd _
    | with_reducible exact assertErr_within.of (by decide)
    | with_reducible exact count_within.of (by decide)
    | with_reducible exact faultLog_within.of (by decide)
    | with_reducible exact faultNotify_within.of (by decide)
    | with_reducible exact fenceReaction_within.of (by decide)
    | with_reducible exact safeReaction_within.of (by decide)
    | with_reducible exact setFld_within.of (by decide)
    | with_reducible refine Within.bind ?_ fun _ => ?_
    | with_reducible refine Within.onlyIf ?_
    | with_reducible refine Within.each fun _ => ?_
    | with_reducible refine Within.mapEach fun _ => ?_
    | split
    | dsimp only

theorem reportOwn_within {f : OwnFault} : Within [.outbox, .regs, .fc] (reportOwn f) := by
  unfold reportOwn
  repeat' first
    | with_reducible exact Within.pure _
    | with_reducible exact Within.rd _
    | with_reducible exact report_within.of (by decide)
    | with_reducible refine Within.bind ?_ fun _ => ?_
    | with_reducible refine Within.onlyIf ?_
    | with_reducible refine Within.each fun _ => ?_
    | with_reducible refine Within.mapEach fun _ => ?_
    | split
    | dsimp only

theorem execFaultReport_within {own : Option OwnFault} {s : State} : Effect [.free, .outbox, .mem, .bad, .desk, .regs, .act, .threads, .acts, .ready, .delay, .ctxs, .banks, .units, .hqueues, .engines, .ddrs, .bufs, .pools, .chans, .locks, .streams, .ports, .pipes, .terms, .hostq, .ringLinks, .sq, .rc, .cw, .ring, .gb, .fc, .bg] (execFaultReport own s) s := by
  unfold execFaultReport
  refine Within.effect ?_ _
  repeat' first
    | with_reducible exact Within.pure _
    | with_reducible exact Within.rd _
    | with_reducible exact (modFc_within _).of (by decide)
    | with_reducible exact reportOwn_within.of (by decide)
    | with_reducible exact takeReport_within.of (by decide)
    | with_reducible refine Within.bind ?_ fun _ => ?_
    | with_reducible refine Within.onlyIf ?_
    | with_reducible refine Within.each fun _ => ?_
    | with_reducible refine Within.mapEach fun _ => ?_
    | split
    | dsimp only

theorem execFaultAutoAck_within {n : Nat} {s : State} : Effect [.regs] (execFaultAutoAck n s) s := by
  unfold execFaultAutoAck
  refine Within.effect ?_ _
  repeat' first
    | with_reducible exact Within.pure _
    | with_reducible exact Within.rd _
    | with_reducible exact count_within.of (by decide)
    | with_reducible exact setFld_within.of (by decide)
    | with_reducible refine Within.bind ?_ fun _ => ?_
    | with_reducible refine Within.onlyIf ?_
    | with_reducible refine Within.each fun _ => ?_
    | with_reducible refine Within.mapEach fun _ => ?_
    | split
    | dsimp only

theorem ackSource_within {n : Nat} : Within [.regs] (ackSource n) := by
  unfold ackSource
  repeat' first
    | with_reducible exact Within.pure _
    | with_reducible exact Within.rd _
    | with_reducible exact (modRegs_within _ _).of (by decide)
    | with_reducible exact setFld_within.of (by decide)
    | with_reducible refine Within.bind ?_ fun _ => ?_
    | with_reducible refine Within.onlyIf ?_
    | with_reducible refine Within.each fun _ => ?_
    | with_reducible refine Within.mapEach fun _ => ?_
    | split
    | dsimp only

theorem fcAck_within {o : Who} {en : Nat} {v : Word} : Within [.outbox, .mem, .bad, .regs, .ddrs, .gb] (fcAck o en v) := by
  unfold fcAck
  repeat' first
    | with_reducible exact Within.pure _
    | with_reducible exact Within.rd _
    | with_reducible exact ackSource_within.of (by decide)
    | with_reducible exact gbRecord_within.of (by decide)
    | with_reducible refine Within.bind ?_ fun _ => ?_
    | with_reducible refine Within.onlyIf ?_
    | with_reducible refine Within.each fun _ => ?_
    | with_reducible refine Within.mapEach fun _ => ?_
    | split
    | dsimp only

theorem execFcAckWrite_within {o : Who} {en : Nat} {v : Word} {s : State} : Effect [.outbox, .mem, .bad, .regs, .ddrs, .gb] (execFcAckWrite o en v s) s := by
  unfold execFcAckWrite
  refine Within.effect ?_ _
  repeat' first
    | with_reducible exact Within.pure _
    | with_reducible exact Within.rd _
    | with_reducible refine access_within (by decide) ?_
    | with_reducible exact fcAck_within.of (by decide)
    | with_reducible refine Within.bind ?_ fun _ => ?_
    | with_reducible refine Within.onlyIf ?_
    | with_reducible refine Within.each fun _ => ?_
    | with_reducible refine Within.mapEach fun _ => ?_
    | split
    | dsimp only

theorem execFaultAck_within {c : Cmd} {s : State} : Effect [.outbox, .mem, .bad, .regs, .ddrs, .hostq, .gb, .boot] (execFaultAck c s) s := by
  unfold execFaultAck
  refine Within.effect ?_ _
  repeat' first
    | with_reducible exact Within.pure _
    | with_reducible exact Within.rd _
    | with_reducible exact ackSource_within.of (by decide)
    | with_reducible refine command_within (by decide) ?_
    | with_reducible exact gbRecord_within.of (by decide)
    | with_reducible refine Answers.pure ?_
    | with_reducible refine Answers.bind ?_ fun _ => ?_
    | with_reducible exact Within.afterAns
    | with_reducible exact Within.afterData
    | with_reducible refine Within.bind ?_ fun _ => ?_
    | with_reducible refine Within.onlyIf ?_
    | with_reducible refine Within.each fun _ => ?_
    | with_reducible refine Within.mapEach fun _ => ?_
    | split
    | dsimp only

theorem execFaultInject_within {c : Cmd} {s : State} : Effect [.outbox, .mem, .bad, .regs, .ddrs, .hostq, .gb, .fc, .boot] (execFaultInject c s) s := by
  unfold execFaultInject
  refine Within.effect ?_ _
  repeat' first
    | with_reducible exact Within.pure _
    | with_reducible exact Within.rd _
    | with_reducible refine command_within (by decide) ?_
    | with_reducible exact gbRecord_within.of (by decide)
    | with_reducible exact report_within.of (by decide)
    | with_reducible refine Answers.pure ?_
    | with_reducible refine Answers.bind ?_ fun _ => ?_
    | with_reducible exact Within.afterAns
    | with_reducible exact Within.afterData
    | with_reducible refine Within.bind ?_ fun _ => ?_
    | with_reducible refine Within.onlyIf ?_
    | with_reducible refine Within.each fun _ => ?_
    | with_reducible refine Within.mapEach fun _ => ?_
    | split
    | dsimp only

theorem dropReads_within {n : Nat} {who : Nat} {ls : List Nat} : Within [.ddrs] (dropReads n who ls) := by
  unfold dropReads
  repeat' first
    | with_reducible exact Within.pure _
    | with_reducible exact Within.rd _
    | with_reducible exact (modDdrs_within _ _).of (by decide)
    | with_reducible refine Within.bind ?_ fun _ => ?_
    | with_reducible refine Within.onlyIf ?_
    | with_reducible refine Within.each fun _ => ?_
    | with_reducible refine Within.mapEach fun _ => ?_
    | split
    | dsimp only

theorem endTransaction_within {n : Nat} {req : Nat} : Within [.outbox, .mem, .bad, .desk, .regs, .threads, .acts, .ready, .ctxs, .hqueues, .engines, .ddrs, .chans, .locks, .sq, .cw, .fc] (endTransaction n req) := by
  unfold endTransaction
  repeat' first
    | with_reducible exact Within.pure _
    | with_reducible exact Within.rd _
    | with_reducible exact (modEngines_within _ _).of (by decide)
    | with_reducible exact dropReads_within.of (by decide)
    | with_reducible exact dropWrite_within.of (by decide)
    | with_reducible exact trapHere_within.of (by decide)
    | with_reducible refine Within.bind ?_ fun _ => ?_
    | with_reducible refine Within.onlyIf ?_
    | with_reducible refine Within.each fun _ => ?_
    | with_reducible refine Within.mapEach fun _ => ?_
    | split
    | dsimp only

theorem execWatchdogBite_within {k : Nat} {idx : Nat} {req : Nat} {s : State} : Effect [.outbox, .mem, .bad, .desk, .regs, .threads, .acts, .ready, .ctxs, .hqueues, .engines, .ddrs, .chans, .locks, .sq, .cw, .fc] (execWatchdogBite k idx req s) s := by
  unfold execWatchdogBite
  refine Within.effect ?_ _
  repeat' first
    | with_reducible exact Within.pure _
    | with_reducible exact Within.rd _
    | with_reducible exact endTransaction_within.of (by decide)
    | with_reducible exact report_within.of (by decide)
    | with_reducible exact setFld_within.of (by decide)
    | with_reducible refine Within.bind ?_ fun _ => ?_
    | with_reducible refine Within.onlyIf ?_
    | with_reducible refine Within.each fun _ => ?_
    | with_reducible refine Within.mapEach fun _ => ?_
    | split
    | dsimp only

theorem execFence_within {c : Cmd} {s : State} : Effect [.free, .outbox, .mem, .bad, .desk, .regs, .act, .threads, .acts, .ready, .delay, .ctxs, .banks, .units, .hqueues, .engines, .ddrs, .bufs, .pools, .chans, .locks, .streams, .ports, .pipes, .terms, .hostq, .ringLinks, .sq, .rc, .cw, .ring, .gb, .fc, .boot, .bg] (execFence c s) s := by
  unfold execFence
  refine Within.effect ?_ _
  repeat' first
    | with_reducible exact Within.pure _
    | with_reducible exact Within.rd _
    | with_reducible exact background_within.of (by decide)
    | with_reducible exact background_within.within.of (by decide)
    | with_reducible exact beginFence_within.of (by decide)
    | with_reducible refine command_within (by decide) ?_
    | with_reducible refine Answers.pure ?_
    | with_reducible refine Answers.bind ?_ fun _ => ?_
    | with_reducible exact Within.afterAns
    | with_reducible exact Within.afterData
    | with_reducible refine Within.bind ?_ fun _ => ?_
    | with_reducible refine Within.onlyIf ?_
    | with_reducible refine Within.each fun _ => ?_
    | with_reducible refine Within.mapEach fun _ => ?_
    | split
    | dsimp only

theorem beginUnfence_within {u : UnitId} : Within [.regs] (beginUnfence u) := by
  unfold beginUnfence
  repeat' first
    | with_reducible exact Within.pure _
    | with_reducible exact Within.rd _
    | with_reducible exact lanesMove_within.of (by decide)
    | with_reducible exact streetBack_within.of (by decide)
    | with_reducible refine Within.bind ?_ fun _ => ?_
    | with_reducible refine Within.onlyIf ?_
    | with_reducible refine Within.each fun _ => ?_
    | with_reducible refine Within.mapEach fun _ => ?_
    | split
    | dsimp only

theorem execUnfence_within {c : Cmd} {s : State} : Effect [.outbox, .regs, .hostq, .boot, .bg] (execUnfence c s) s := by
  unfold execUnfence
  refine Within.effect ?_ _
  repeat' first
    | with_reducible exact Within.pure _
    | with_reducible exact Within.rd _
    | with_reducible exact background_within.of (by decide)
    | with_reducible exact background_within.within.of (by decide)
    | with_reducible exact beginUnfence_within.of (by decide)
    | with_reducible refine command_within (by decide) ?_
    | with_reducible refine Answers.pure ?_
    | with_reducible refine Answers.bind ?_ fun _ => ?_
    | with_reducible exact Within.afterAns
    | with_reducible exact Within.afterData
    | with_reducible refine Within.bind ?_ fun _ => ?_
    | with_reducible refine Within.onlyIf ?_
    | with_reducible refine Within.each fun _ => ?_
    | with_reducible refine Within.mapEach fun _ => ?_
    | split
    | dsimp only

theorem fillWay_within {slot : Nat} {k : Nat} : Within [.icache] (fillWay slot k) := by
  unfold fillWay
  repeat' first
    | with_reducible exact Within.pure _
    | with_reducible exact Within.rd _
    | (with_reducible refine Within.emit ?_); rfl
    | with_reducible refine Within.bind ?_ fun _ => ?_
    | with_reducible refine Within.onlyIf ?_
    | with_reducible refine Within.each fun _ => ?_
    | with_reducible refine Within.mapEach fun _ => ?_
    | split
    | dsimp only

theorem fillWays_within {slot : Nat} : Within [.icache] (fillWays slot) := by
  unfold fillWays
  repeat' first
    | with_reducible exact Within.pure _
    | with_reducible exact Within.rd _
    | with_reducible exact fillWay_within.of (by decide)
    | with_reducible refine Within.bind ?_ fun _ => ?_
    | with_reducible refine Within.onlyIf ?_
    | with_reducible refine Within.each fun _ => ?_
    | with_reducible refine Within.mapEach fun _ => ?_
    | split
    | dsimp only

theorem coreReturns_within {k : Nat} : Within [.desk, .regs, .threads, .icache] (coreReturns k) := by
  unfold coreReturns
  repeat' first
    | with_reducible exact Within.pure _
    | with_reducible exact Within.rd _
    | (with_reducible refine Within.emit ?_); rfl
    | with_reducible exact fillWay_within.of (by decide)
    | with_reducible exact restartThread_within.of (by decide)
    | with_reducible exact setFld_within.of (by decide)
    | with_reducible exact startMonitor_within.of (by decide)
    | with_reducible refine Within.bind ?_ fun _ => ?_
    | with_reducible refine Within.onlyIf ?_
    | with_reducible refine Within.each fun _ => ?_
    | with_reducible refine Within.mapEach fun _ => ?_
    | split
    | dsimp only

theorem zeroMem_within {a : Nat} {n : Nat} : Within [.mem, .bad] (zeroMem a n) := by
  unfold zeroMem
  repeat' first
    | with_reducible exact Within.pure _
    | with_reducible exact Within.rd _
    | (with_reducible refine Within.emit ?_); rfl
    | with_reducible refine Within.bind ?_ fun _ => ?_
    | with_reducible refine Within.onlyIf ?_
    | with_reducible refine Within.each fun _ => ?_
    | with_reducible refine Within.mapEach fun _ => ?_
    | split
    | dsimp only

theorem streetReturns_within {k : Nat} : Within [.mem, .bad, .desk, .regs, .threads, .icache] (streetReturns k) := by
  unfold streetReturns
  repeat' first
    | with_reducible exact Within.pure _
    | with_reducible exact Within.rd _
    | with_reducible exact coreReturns_within.of (by decide)
    | with_reducible exact zeroMem_within.of (by decide)
    | with_reducible refine Within.bind ?_ fun _ => ?_
    | with_reducible refine Within.onlyIf ?_
    | with_reducible refine Within.each fun _ => ?_
    | with_reducible refine Within.mapEach fun _ => ?_
    | split
    | dsimp only

theorem initChannel_within {n : Nat} {fail : Nat} : Within [.free, .outbox, .mem, .bad, .regs, .ddrs, .fc] (initChannel n fail) := by
  unfold initChannel
  repeat' first
    | with_reducible exact Within.pure _
    | with_reducible exact Within.rd _
    | (with_reducible refine Within.emit ?_); rfl
    | with_reducible exact runEarly_within.of (by decide)
    | with_reducible exact setFld_within.of (by decide)
    | with_reducible refine Within.bind ?_ fun _ => ?_
    | with_reducible refine Within.onlyIf ?_
    | with_reducible refine Within.each fun _ => ?_
    | with_reducible refine Within.mapEach fun _ => ?_
    | split
    | dsimp only

theorem ddrAfresh_within {n : Nat} : Within [.free, .outbox, .mem, .bad, .regs, .engines, .ddrs, .fc] (ddrAfresh n) := by
  unfold ddrAfresh
  repeat' first
    | with_reducible exact Within.pure _
    | with_reducible exact Within.rd _
    | with_reducible exact draw_within.of (by decide)
    | with_reducible exact initChannel_within.of (by decide)
    | with_reducible exact markLine_within.of (by decide)
    | with_reducible exact resyncLines_within.of (by decide)
    | with_reducible exact setFld_within.of (by decide)
    | with_reducible refine Within.bind ?_ fun _ => ?_
    | with_reducible refine Within.onlyIf ?_
    | with_reducible refine Within.each fun _ => ?_
    | with_reducible refine Within.mapEach fun _ => ?_
    | split
    | dsimp only

theorem ddrReturns_within {n : Nat} {keep : Bool} : Within [.free, .outbox, .mem, .bad, .regs, .engines, .ddrs, .fc] (ddrReturns n keep) := by
  unfold ddrReturns
  repeat' first
    | with_reducible exact Within.pure _
    | with_reducible exact Within.rd _
    | with_reducible exact (modDdrs_within _ _).of (by decide)
    | with_reducible exact ddrAfresh_within.of (by decide)
    | with_reducible exact setFld_within.of (by decide)
    | with_reducible refine Within.bind ?_ fun _ => ?_
    | with_reducible refine Within.onlyIf ?_
    | with_reducible refine Within.each fun _ => ?_
    | with_reducible refine Within.mapEach fun _ => ?_
    | split
    | dsimp only

theorem returnSequence_within {u : UnitId} {keep : Bool} : Within [.free, .outbox, .mem, .bad, .desk, .regs, .act, .threads, .ctxs, .banks, .icache, .engines, .ddrs, .locks, .pipes, .terms, .hostq, .ringLinks, .rc, .ring, .gb, .fc, .bg] (returnSequence u keep) := by
  unfold returnSequence
  repeat' first
    | with_reducible exact Within.pure _
    | with_reducible exact Within.rd _
    | with_reducible exact coreReturns_within.of (by decide)
    | with_reducible exact ddrReturns_within.of (by decide)
    | with_reducible exact engineReturns_within.of (by decide)
    | with_reducible exact pipeMove_within.of (by decide)
    | with_reducible exact refillBank_within.of (by decide)
    | with_reducible exact streetReturns_within.of (by decide)
    | with_reducible refine Within.bind ?_ fun _ => ?_
    | with_reducible refine Within.onlyIf ?_
    | with_reducible refine Within.each fun _ => ?_
    | with_reducible refine Within.mapEach fun _ => ?_
    | split
    | dsimp only

theorem execUnfenceComplete_within {kind : Nat} {idx : Nat} {s : State} : Effect [.free, .outbox, .mem, .bad, .desk, .regs, .act, .threads, .ctxs, .banks, .icache, .engines, .ddrs, .locks, .pipes, .terms, .hostq, .ringLinks, .rc, .ring, .gb, .fc, .bg] (execUnfenceComplete kind idx s) s := by
  unfold execUnfenceComplete
  refine Within.effect ?_ _
  repeat' first
    | with_reducible exact Within.pure _
    | with_reducible exact Within.rd _
    | with_reducible exact bgEnd_within.of (by decide)
    | with_reducible exact fenceRecord_within.of (by decide)
    | with_reducible exact modeFollows_within.of (by decide)
    | with_reducible exact returnSequence_within.of (by decide)
    | with_reducible refine ringTrack_within (by decide) ?_
    | with_reducible exact setFenceBit_within.of (by decide)
    | with_reducible refine Within.bind ?_ fun _ => ?_
    | with_reducible refine Within.onlyIf ?_
    | with_reducible refine Within.each fun _ => ?_
    | with_reducible refine Within.mapEach fun _ => ?_
    | split
    | dsimp only

theorem restartTenik_within : Within [.outbox, .mem, .bad, .regs, .ddrs, .gb, .fc, .boot] (restartTenik) := by
  unfold restartTenik
  repeat' first
    | with_reducible exact Within.pure _
    | with_reducible exact Within.rd _
    | with_reducible exact (modBoot_within _).of (by decide)
    | with_reducible exact gbRecord_within.of (by decide)
    | with_reducible exact report_within.of (by decide)
    | with_reducible exact setFld_within.of (by decide)
    | with_reducible refine Within.bind ?_ fun _ => ?_
    | with_reducible refine Within.onlyIf ?_
    | with_reducible refine Within.each fun _ => ?_
    | with_reducible refine Within.mapEach fun _ => ?_
    | split
    | dsimp only

theorem execLockstepMismatch_within {s : State} : Effect [.outbox, .mem, .bad, .regs, .ddrs, .gb, .fc, .boot] (execLockstepMismatch s) s := by
  unfold execLockstepMismatch
  refine Within.effect ?_ _
  repeat' first
    | with_reducible exact Within.pure _
    | with_reducible exact Within.rd _
    | with_reducible exact report_within.of (by decide)
    | with_reducible exact restartTenik_within.of (by decide)
    | with_reducible refine Within.bind ?_ fun _ => ?_
    | with_reducible refine Within.onlyIf ?_
    | with_reducible refine Within.each fun _ => ?_
    | with_reducible refine Within.mapEach fun _ => ?_
    | split
    | dsimp only

theorem execTenikHang_within {s : State} : Effect [.outbox, .mem, .bad, .regs, .ddrs, .gb, .fc, .boot] (execTenikHang s) s := by
  unfold execTenikHang
  refine Within.effect ?_ _
  repeat' first
    | with_reducible exact Within.pure _
    | with_reducible exact Within.rd _
    | with_reducible exact report_within.of (by decide)
    | with_reducible exact restartTenik_within.of (by decide)
    | with_reducible refine Within.bind ?_ fun _ => ?_
    | with_reducible refine Within.onlyIf ?_
    | with_reducible refine Within.each fun _ => ?_
    | with_reducible refine Within.mapEach fun _ => ?_
    | split
    | dsimp only

theorem tenikReturns_within : Within [.outbox, .regs, .hostq, .boot, .bg] (tenikReturns) := by
  unfold tenikReturns
  repeat' first
    | with_reducible exact Within.pure _
    | with_reducible exact Within.rd _
    | with_reducible exact (modBoot_within _).of (by decide)
    | with_reducible exact bgCommits_within.of (by decide)
    | with_reducible exact bgFences_within.of (by decide)
    | with_reducible exact replyMissing_within.of (by decide)
    | with_reducible refine Within.bind ?_ fun _ => ?_
    | with_reducible refine Within.onlyIf ?_
    | with_reducible refine Within.each fun _ => ?_
    | with_reducible refine Within.mapEach fun _ => ?_
    | split
    | dsimp only

theorem srAlive_within {o : Who} {en : Nat} {v : Word} : Within [.outbox, .regs, .hostq, .boot, .bg] (srAlive o en v) := by
  unfold srAlive
  repeat' first
    | with_reducible exact Within.pure _
    | with_reducible exact Within.rd _
    | with_reducible exact setFld_within.of (by decide)
    | with_reducible exact tenikReturns_within.of (by decide)
    | with_reducible refine Within.bind ?_ fun _ => ?_
    | with_reducible refine Within.onlyIf ?_
    | with_reducible refine Within.each fun _ => ?_
    | with_reducible refine Within.mapEach fun _ => ?_
    | split
    | dsimp only

theorem execSrAlive_within {o : Who} {en : Nat} {v : Word} {s : State} : Effect [.outbox, .regs, .hostq, .boot, .bg] (execSrAlive o en v s) s := by
  unfold execSrAlive
  refine Within.effect ?_ _
  repeat' first
    | with_reducible exact Within.pure _
    | with_reducible exact Within.rd _
    | with_reducible refine access_within (by decide) ?_
    | with_reducible exact srAlive_within.of (by decide)
    | with_reducible refine Within.bind ?_ fun _ => ?_
    | with_reducible refine Within.onlyIf ?_
    | with_reducible refine Within.each fun _ => ?_
    | with_reducible refine Within.mapEach fun _ => ?_
    | split
    | dsimp only

theorem execRestartFail_within {s : State} : Effect [.outbox, .regs, .fc, .boot] (execRestartFail s) s := by
  unfold execRestartFail
  refine Within.effect ?_ _
  repeat' first
    | with_reducible exact Within.pure _
    | with_reducible exact Within.rd _
    | with_reducible exact (modBoot_within _).of (by decide)
    | with_reducible exact report_within.of (by decide)
    | with_reducible refine Within.bind ?_ fun _ => ?_
    | with_reducible refine Within.onlyIf ?_
    | with_reducible refine Within.each fun _ => ?_
    | with_reducible refine Within.mapEach fun _ => ?_
    | split
    | dsimp only

end Sys2Proof.Machine
end

