-- ==== Sys2Proof/Laws/WithinBoot.lean ====
section
/-! SUPPORT. Which parts of the state the programs of Machine/Boot.lean change. -/

set_option linter.all false
set_option Elab.async false

namespace Sys2Proof.Machine

theorem wipe_within : Within [.mem, .bad, .desk, .pg, .regs, .act, .pendc, .goBy, .msix, .threads, .acts, .ready, .delay, .ctxs, .banks, .fuq, .units, .hqueues, .icache, .learn, .engines, .dirRows, .dirShadow, .dir, .ddrs, .bufs, .pools, .chans, .locks, .streams, .ports, .pipes, .admitQ, .terms, .classes, .hostq, .ringLinks, .sq, .rc, .cw, .ring, .gb, .fc, .tb, .bg] (wipe) := by
  unfold wipe
  repeat' first
    | with_reducible exact Within.pure _
    | with_reducible exact Within.rd _
    | (with_reducible refine Within.emit ?_); rfl
    | with_reducible refine Within.bind ?_ fun _ => ?_
    | with_reducible refine Within.onlyIf ?_
    | with_reducible refine Within.each fun _ => ?_
    | with_reducible refine Within.mapEach fun _ => ?_
    | split
    | dsimp only

theorem execPerstAssert_within {s : State} : Effect [.mem, .bad, .desk, .pg, .regs, .act, .pendc, .goBy, .msix, .threads, .acts, .ready, .delay, .ctxs, .banks, .fuq, .units, .hqueues, .icache, .learn, .engines, .dirRows, .dirShadow, .dir, .ddrs, .bufs, .pools, .chans, .locks, .streams, .ports, .pipes, .admitQ, .terms, .classes, .hostq, .ringLinks, .sq, .rc, .cw, .ring, .gb, .fc, .tb, .boot, .tap, .bg] (execPerstAssert s) s := by
  unfold execPerstAssert
  refine Within.effect ?_ _
  repeat' first
    | with_reducible exact Within.pure _
    | with_reducible exact Within.rd _
    | with_reducible exact (modTap_within _).of (by decide)
    | (with_reducible refine Within.emit ?_); rfl
    | with_reducible exact wipe_within.of (by decide)
    | with_reducible refine Within.bind ?_ fun _ => ?_
    | with_reducible refine Within.onlyIf ?_
    | with_reducible refine Within.each fun _ => ?_
    | with_reducible refine Within.mapEach fun _ => ?_
    | split
    | dsimp only

theorem bootRom_within : Within [.free, .outbox, .mem, .bad, .regs, .ddrs, .gb, .boot] (bootRom) := by
  unfold bootRom
  repeat' first
    | with_reducible exact Within.pure _
    | with_reducible exact Within.rd _
    | with_reducible exact (modBoot_within _).of (by decide)
    | with_reducible exact (modGb_within _).of (by decide)
    | (with_reducible refine Within.emit ?_); rfl
    | with_reducible exact draw_within.of (by decide)
    | with_reducible exact setMode_within.of (by decide)
    | with_reducible refine Within.bind ?_ fun _ => ?_
    | with_reducible refine Within.onlyIf ?_
    | with_reducible refine Within.each fun _ => ?_
    | with_reducible refine Within.mapEach fun _ => ?_
    | split
    | dsimp only

theorem execPerstDeassert_within {pcieW : Nat} {smbA : Nat} {tap : Bool} {test : Bool} {fuseOk : Bool} {s : State} : Effect [.free, .outbox, .mem, .bad, .regs, .ddrs, .gb, .boot] (execPerstDeassert pcieW smbA tap test fuseOk s) s := by
  unfold execPerstDeassert
  refine Within.effect ?_ _
  repeat' first
    | with_reducible exact Within.pure _
    | with_reducible exact Within.rd _
    | with_reducible exact (modBoot_within _).of (by decide)
    | (with_reducible refine Within.emit ?_); rfl
    | with_reducible exact bootRom_within.of (by decide)
    | with_reducible exact setFld_within.of (by decide)
    | with_reducible refine Within.bind ?_ fun _ => ?_
    | with_reducible refine Within.onlyIf ?_
    | with_reducible refine Within.each fun _ => ?_
    | with_reducible refine Within.mapEach fun _ => ?_
    | split
    | dsimp only

theorem warmReset_within : Within [.free, .outbox, .mem, .bad, .desk, .pg, .regs, .act, .pendc, .goBy, .msix, .threads, .acts, .ready, .delay, .ctxs, .banks, .fuq, .units, .hqueues, .icache, .learn, .engines, .dirRows, .dirShadow, .dir, .ddrs, .bufs, .pools, .chans, .locks, .streams, .ports, .pipes, .admitQ, .terms, .classes, .hostq, .ringLinks, .sq, .rc, .cw, .ring, .gb, .fc, .tb, .boot, .tap, .bg] (warmReset) := by
  unfold warmReset
  repeat' first
    | with_reducible exact Within.pure _
    | with_reducible exact Within.rd _
    | with_reducible exact (modTap_within _).of (by decide)
    | (with_reducible refine Within.emit ?_); rfl
    | with_reducible exact bootRom_within.of (by decide)
    | with_reducible exact wipe_within.of (by decide)
    | with_reducible refine Within.bind ?_ fun _ => ?_
    | with_reducible refine Within.onlyIf ?_
    | with_reducible refine Within.each fun _ => ?_
    | with_reducible refine Within.mapEach fun _ => ?_
    | split
    | dsimp only

theorem execStreetRungDescend_within {k : Nat} {s : State} : Effect [.free, .desk, .regs] (execStreetRungDescend k s) s := by
  unfold execStreetRungDescend
  refine Within.effect ?_ _
  repeat' first
    | with_reducible exact Within.pure _
    | with_reducible exact Within.rd _
    | with_reducible exact streetTo_within.of (by decide)
    | with_reducible refine Within.bind ?_ fun _ => ?_
    | with_reducible refine Within.onlyIf ?_
    | with_reducible refine Within.each fun _ => ?_
    | with_reducible refine Within.mapEach fun _ => ?_
    | split
    | dsimp only

theorem execStreetRungExit_within {k : Nat} {s : State} : Effect [.regs] (execStreetRungExit k s) s := by
  unfold execStreetRungExit
  refine Within.effect ?_ _
  repeat' first
    | with_reducible exact Within.pure _
    | with_reducible exact Within.rd _
    | with_reducible exact setFld_within.of (by decide)
    | with_reducible refine Within.bind ?_ fun _ => ?_
    | with_reducible refine Within.onlyIf ?_
    | with_reducible refine Within.each fun _ => ?_
    | with_reducible refine Within.mapEach fun _ => ?_
    | split
    | dsimp only

theorem noteReading_within {reading : Int} {sensor : Nat} : Within [.regs, .boot] (noteReading reading sensor) := by
  unfold noteReading
  repeat' first
    | with_reducible exact Within.pure _
    | with_reducible exact Within.rd _
    | with_reducible exact (modBoot_within _).of (by decide)
    | with_reducible exact setFld_within.of (by decide)
    | with_reducible refine Within.bind ?_ fun _ => ?_
    | with_reducible refine Within.onlyIf ?_
    | with_reducible refine Within.each fun _ => ?_
    | with_reducible refine Within.mapEach fun _ => ?_
    | split
    | dsimp only

theorem execThermWarn_within {reading : Int} {sensor : Nat} {s : State} : Effect [.outbox, .regs, .fc, .boot] (execThermWarn reading sensor s) s := by
  unfold execThermWarn
  refine Within.effect ?_ _
  repeat' first
    | with_reducible exact Within.pure _
    | with_reducible exact Within.rd _
    | with_reducible exact (modBoot_within _).of (by decide)
    | with_reducible exact noteReading_within.of (by decide)
    | with_reducible exact report_within.of (by decide)
    | with_reducible refine Within.bind ?_ fun _ => ?_
    | with_reducible refine Within.onlyIf ?_
    | with_reducible refine Within.each fun _ => ?_
    | with_reducible refine Within.mapEach fun _ => ?_
    | split
    | dsimp only

theorem execThermTrip_within {reading : Int} {sensor : Nat} {s : State} : Effect [.free, .outbox, .desk, .regs, .fc, .boot] (execThermTrip reading sensor s) s := by
  unfold execThermTrip
  refine Within.effect ?_ _
  repeat' first
    | with_reducible exact Within.pure _
    | with_reducible exact Within.rd _
    | with_reducible exact (modBoot_within _).of (by decide)
    | with_reducible exact noteReading_within.of (by decide)
    | with_reducible exact report_within.of (by decide)
    | with_reducible exact streetTo_within.of (by decide)
    | with_reducible refine Within.bind ?_ fun _ => ?_
    | with_reducible refine Within.onlyIf ?_
    | with_reducible refine Within.each fun _ => ?_
    | with_reducible refine Within.mapEach fun _ => ?_
    | split
    | dsimp only

theorem tripEnds_within : Within [.regs, .boot] (tripEnds) := by
  unfold tripEnds
  repeat' first
    | with_reducible exact Within.pure _
    | with_reducible exact Within.rd _
    | with_reducible exact (modBoot_within _).of (by decide)
    | with_reducible exact setFld_within.of (by decide)
    | with_reducible refine Within.bind ?_ fun _ => ?_
    | with_reducible refine Within.onlyIf ?_
    | with_reducible refine Within.each fun _ => ?_
    | with_reducible refine Within.mapEach fun _ => ?_
    | split
    | dsimp only

theorem execJunctionReadingFall_within {reading : Int} {sensor : Nat} {s : State} : Effect [.regs, .boot] (execJunctionReadingFall reading sensor s) s := by
  unfold execJunctionReadingFall
  refine Within.effect ?_ _
  repeat' first
    | with_reducible exact Within.pure _
    | with_reducible exact Within.rd _
    | with_reducible exact (modBoot_within _).of (by decide)
    | with_reducible exact noteReading_within.of (by decide)
    | with_reducible exact tripEnds_within.of (by decide)
    | with_reducible refine Within.bind ?_ fun _ => ?_
    | with_reducible refine Within.onlyIf ?_
    | with_reducible refine Within.each fun _ => ?_
    | with_reducible refine Within.mapEach fun _ => ?_
    | split
    | dsimp only

theorem execSupply_within {level : SupplyLevel} {s : State} : Effect [.outbox, .regs, .fc, .boot] (execSupply level s) s := by
  unfold execSupply
  refine Within.effect ?_ _
  repeat' first
    | with_reducible exact Within.pure _
    | with_reducible exact Within.rd _
    | with_reducible exact (modBoot_within _).of (by decide)
    | with_reducible exact report_within.of (by decide)
    | with_reducible refine Within.bind ?_ fun _ => ?_
    | with_reducible refine Within.onlyIf ?_
    | with_reducible refine Within.each fun _ => ?_
    | with_reducible refine Within.mapEach fun _ => ?_
    | split
    | dsimp only

theorem execRootPllLockLoss_within {s : State} : Effect [.outbox, .regs, .fc] (execRootPllLockLoss s) s := by
  unfold execRootPllLockLoss
  refine Within.effect ?_ _
  repeat' first
    | with_reducible exact Within.pure _
    | with_reducible exact Within.rd _
    | with_reducible exact report_within.of (by decide)
    | with_reducible exact setFld_within.of (by decide)
    | with_reducible refine Within.bind ?_ fun _ => ?_
    | with_reducible refine Within.onlyIf ?_
    | with_reducible refine Within.each fun _ => ?_
    | with_reducible refine Within.mapEach fun _ => ?_
    | split
    | dsimp only

theorem execPcieLinkChange_within {speed : Nat} {width : Nat} {s : State} : Effect [.outbox, .regs] (execPcieLinkChange speed width s) s := by
  unfold execPcieLinkChange
  refine Within.effect ?_ _
  repeat' first
    | with_reducible exact Within.pure _
    | with_reducible exact Within.rd _
    | with_reducible exact setFld_within.of (by decide)
    | with_reducible exact sticky_within.of (by decide)
    | with_reducible refine Within.bind ?_ fun _ => ?_
    | with_reducible refine Within.onlyIf ?_
    | with_reducible refine Within.each fun _ => ?_
    | with_reducible refine Within.mapEach fun _ => ?_
    | split
    | dsimp only

theorem execTimebaseTick_within {s : State} : Effect [.ddrs, .tb] (execTimebaseTick s) s := by
  unfold execTimebaseTick
  refine Within.effect ?_ _
  repeat' first
    | with_reducible exact Within.pure _
    | with_reducible exact Within.rd _
    | with_reducible exact (modTb_within _).of (by decide)
    | with_reducible exact ddrTick_within.of (by decide)
    | with_reducible refine Within.bind ?_ fun _ => ?_
    | with_reducible refine Within.onlyIf ?_
    | with_reducible refine Within.each fun _ => ?_
    | with_reducible refine Within.mapEach fun _ => ?_
    | split
    | dsimp only

theorem tbSet_within {o : Origin} {v : Word} : Within [.outbox, .mem, .bad, .regs, .ddrs, .gb, .tb] (tbSet o v) := by
  unfold tbSet
  repeat' first
    | with_reducible exact Within.pure _
    | with_reducible exact Within.rd _
    | with_reducible exact (modTb_within _).of (by decide)
    | with_reducible exact gbRecord_within.of (by decide)
    | with_reducible refine Within.bind ?_ fun _ => ?_
    | with_reducible refine Within.onlyIf ?_
    | with_reducible refine Within.each fun _ => ?_
    | with_reducible refine Within.mapEach fun _ => ?_
    | split
    | dsimp only

theorem tbStep_within {o : Origin} {v : Word} : Within [.outbox, .mem, .bad, .regs, .ddrs, .gb, .tb] (tbStep o v) := by
  unfold tbStep
  repeat' first
    | with_reducible exact Within.pure _
    | with_reducible exact Within.rd _
    | with_reducible exact (modTb_within _).of (by decide)
    | with_reducible exact gbRecord_within.of (by decide)
    | with_reducible refine Within.bind ?_ fun _ => ?_
    | with_reducible refine Within.onlyIf ?_
    | with_reducible refine Within.each fun _ => ?_
    | with_reducible refine Within.mapEach fun _ => ?_
    | split
    | dsimp only

theorem tbRate_within {o : Origin} {v : Word} : Within [.outbox, .mem, .bad, .regs, .ddrs, .gb] (tbRate o v) := by
  unfold tbRate
  repeat' first
    | with_reducible exact Within.pure _
    | with_reducible exact Within.rd _
    | with_reducible exact gbRecord_within.of (by decide)
    | with_reducible exact setFld_within.of (by decide)
    | with_reducible refine Within.bind ?_ fun _ => ?_
    | with_reducible refine Within.onlyIf ?_
    | with_reducible refine Within.each fun _ => ?_
    | with_reducible refine Within.mapEach fun _ => ?_
    | split
    | dsimp only

theorem execTbSet_within {o : Who} {en : Nat} {v : Word} {s : State} : Effect [.outbox, .mem, .bad, .regs, .ddrs, .gb, .tb] (execTbSet o en v s) s := by
  unfold execTbSet
  refine Within.effect ?_ _
  repeat' first
    | with_reducible exact Within.pure _
    | with_reducible exact Within.rd _
    | with_reducible refine access_within (by decide) ?_
    | with_reducible exact tbSet_within.of (by decide)
    | with_reducible refine Within.bind ?_ fun _ => ?_
    | with_reducible refine Within.onlyIf ?_
    | with_reducible refine Within.each fun _ => ?_
    | with_reducible refine Within.mapEach fun _ => ?_
    | split
    | dsimp only

theorem execTbStep_within {o : Who} {en : Nat} {v : Word} {s : State} : Effect [.outbox, .mem, .bad, .regs, .ddrs, .gb, .tb] (execTbStep o en v s) s := by
  unfold execTbStep
  refine Within.effect ?_ _
  repeat' first
    | with_reducible exact Within.pure _
    | with_reducible exact Within.rd _
    | with_reducible refine access_within (by decide) ?_
    | with_reducible exact tbStep_within.of (by decide)
    | with_reducible refine Within.bind ?_ fun _ => ?_
    | with_reducible refine Within.onlyIf ?_
    | with_reducible refine Within.each fun _ => ?_
    | with_reducible refine Within.mapEach fun _ => ?_
    | split
    | dsimp only

end Sys2Proof.Machine
end

