-- ==== Sys2Proof/Laws/WithinCrosswalk.lean ====
section
/-! SUPPORT. Which parts of the state the programs of Machine/Crosswalk.lean change. -/

set_option linter.all false
set_option Elab.async false

namespace Sys2Proof.Machine

theorem handEgress_within {a : Act} {live : Bool} {c : Ctx} {e : Egress} : Within [.outbox, .regs, .bufs, .cw] (handEgress a live c e) := by
  unfold handEgress
  repeat' first
    | with_reducible exact Within.pure _
    | with_reducible exact Within.rd _
    | with_reducible exact (modCw_within _).of (by decide)
    | with_reducible exact bufAdd_within.of (by decide)
    | with_reducible exact count_within.of (by decide)
    | with_reducible refine Within.bind ?_ fun _ => ?_
    | with_reducible refine Within.onlyIf ?_
    | with_reducible refine Within.each fun _ => ?_
    | with_reducible refine Within.mapEach fun _ => ?_
    | split
    | dsimp only

theorem execRetireApply_within {i : Nat} {s : State} : Effect [.free, .outbox, .mem, .bad, .regs, .acts, .ctxs, .banks, .engines, .ddrs, .bufs, .ringLinks, .sq, .cw, .ring, .fc] (execRetireApply i s) s := by
  unfold execRetireApply
  refine Within.effect ?_ _
  repeat' first
    | with_reducible exact Within.pure _
    | with_reducible exact Within.rd _
    | with_reducible exact actRelease_within.of (by decide)
    | with_reducible exact applyWrite_within.of (by decide)
    | with_reducible exact count_within.of (by decide)
    | with_reducible exact cwClose_within.of (by decide)
    | with_reducible exact handEgress_within.of (by decide)
    | with_reducible exact mirrorJournal_within.of (by decide)
    | with_reducible exact pushToken_within.of (by decide)
    | with_reducible refine quiet_within  ?_
    | with_reducible refine Within.bind ?_ fun _ => ?_
    | with_reducible refine Within.onlyIf ?_
    | with_reducible refine Within.each fun _ => ?_
    | with_reducible refine Within.mapEach fun _ => ?_
    | split
    | dsimp only

theorem recirculate_within {m : CwMsg} : Within [.free, .outbox, .mem, .bad, .regs, .act, .ddrs, .bufs, .pools, .locks, .pipes, .terms, .hostq, .ringLinks, .ring, .gb, .fc, .bg] (recirculate m) := by
  unfold recirculate
  repeat' first
    | with_reducible exact Within.pure _
    | with_reducible exact Within.rd _
    | with_reducible exact bufDrop_within.of (by decide)
    | with_reducible exact count_within.of (by decide)
    | with_reducible exact readData_within.of (by decide)
    | with_reducible exact startWalk_within.of (by decide)
    | with_reducible refine Within.bind ?_ fun _ => ?_
    | with_reducible refine Within.onlyIf ?_
    | with_reducible refine Within.each fun _ => ?_
    | with_reducible refine Within.mapEach fun _ => ?_
    | split
    | dsimp only

theorem releaseRaw_within {m : CwMsg} : Within [.free, .outbox, .regs, .bufs, .pools, .ports, .fc] (releaseRaw m) := by
  unfold releaseRaw
  repeat' first
    | with_reducible exact Within.pure _
    | with_reducible exact Within.rd _
    | with_reducible exact bufDrop_within.of (by decide)
    | with_reducible exact portPush_within.of (by decide)
    | with_reducible exact readData_within.of (by decide)
    | with_reducible refine Within.bind ?_ fun _ => ?_
    | with_reducible refine Within.onlyIf ?_
    | with_reducible refine Within.each fun _ => ?_
    | with_reducible refine Within.mapEach fun _ => ?_
    | split
    | dsimp only

theorem releaseMsg_within {m : CwMsg} : Within [.free, .outbox, .mem, .bad, .regs, .act, .ddrs, .bufs, .pools, .locks, .streams, .ports, .pipes, .terms, .hostq, .ringLinks, .ring, .gb, .fc, .bg] (releaseMsg m) := by
  unfold releaseMsg
  repeat' first
    | with_reducible exact Within.pure _
    | with_reducible exact Within.rd _
    | with_reducible exact bufDrop_within.of (by decide)
    | with_reducible exact count_within.of (by decide)
    | with_reducible exact recirculate_within.of (by decide)
    | with_reducible exact releaseRaw_within.of (by decide)
    | with_reducible exact streamRelease_within.of (by decide)
    | with_reducible refine Within.bind ?_ fun _ => ?_
    | with_reducible refine Within.onlyIf ?_
    | with_reducible refine Within.each fun _ => ?_
    | with_reducible refine Within.mapEach fun _ => ?_
    | split
    | dsimp only

theorem discardMsg_within {m : CwMsg} : Within [.regs, .bufs, .pools] (discardMsg m) := by
  unfold discardMsg
  repeat' first
    | with_reducible exact Within.pure _
    | with_reducible exact Within.rd _
    | with_reducible exact bufDrop_within.of (by decide)
    | with_reducible exact count_within.of (by decide)
    | with_reducible refine Within.bind ?_ fun _ => ?_
    | with_reducible refine Within.onlyIf ?_
    | with_reducible refine Within.each fun _ => ?_
    | with_reducible refine Within.mapEach fun _ => ?_
    | split
    | dsimp only

theorem execMessageRelease_within {l : Nat} {s : State} : Effect [.free, .outbox, .mem, .bad, .regs, .act, .ddrs, .bufs, .pools, .locks, .streams, .ports, .pipes, .terms, .hostq, .ringLinks, .cw, .ring, .gb, .fc, .bg] (execMessageRelease l s) s := by
  unfold execMessageRelease
  refine Within.effect ?_ _
  repeat' first
    | with_reducible exact Within.pure _
    | with_reducible exact Within.rd _
    | with_reducible exact (modCw_within _).of (by decide)
    | with_reducible exact discardMsg_within.of (by decide)
    | with_reducible exact releaseMsg_within.of (by decide)
    | with_reducible refine Within.bind ?_ fun _ => ?_
    | with_reducible refine Within.onlyIf ?_
    | with_reducible refine Within.each fun _ => ?_
    | with_reducible refine Within.mapEach fun _ => ?_
    | split
    | dsimp only

theorem execLaneTakeoverEnd_within {l : Nat} {s : State} : Effect [.regs] (execLaneTakeoverEnd l s) s := by
  unfold execLaneTakeoverEnd
  refine Within.effect ?_ _
  repeat' first
    | with_reducible exact Within.pure _
    | with_reducible exact Within.rd _
    | with_reducible exact setFld_within.of (by decide)
    | with_reducible refine Within.bind ?_ fun _ => ?_
    | with_reducible refine Within.onlyIf ?_
    | with_reducible refine Within.each fun _ => ?_
    | with_reducible refine Within.mapEach fun _ => ?_
    | split
    | dsimp only

theorem execCrosswalkHold_within {l : Nat} {s : State} : Effect [.outbox, .regs] (execCrosswalkHold l s) s := by
  unfold execCrosswalkHold
  refine Within.effect ?_ _
  repeat' first
    | with_reducible exact Within.pure _
    | with_reducible exact Within.rd _
    | with_reducible exact setFld_within.of (by decide)
    | with_reducible exact sticky_within.of (by decide)
    | with_reducible refine Within.bind ?_ fun _ => ?_
    | with_reducible refine Within.onlyIf ?_
    | with_reducible refine Within.each fun _ => ?_
    | with_reducible refine Within.mapEach fun _ => ?_
    | split
    | dsimp only

end Sys2Proof.Machine
end

