-- ==== Sys2Proof/Laws/WithinDirectory.lean ====
section
/-! SUPPORT. Which parts of the state the programs of Machine/Directory.lean change. -/

set_option linter.all false
set_option Elab.async false

namespace Sys2Proof.Machine

theorem dirPut_within {rows : List (Nat × DirRow)} : Within [.regs, .dirRows, .dirShadow] (dirPut rows) := by
  unfold dirPut
  repeat' first
    | with_reducible exact Within.pure _
    | with_reducible exact Within.rd _
    | (with_reducible refine Within.emit ?_); rfl
    | with_reducible exact count_within.of (by decide)
    | with_reducible refine Within.bind ?_ fun _ => ?_
    | with_reducible refine Within.onlyIf ?_
    | with_reducible refine Within.each fun _ => ?_
    | with_reducible refine Within.mapEach fun _ => ?_
    | split
    | dsimp only

theorem dirUpdate_within {i : Nat} {rows : List DirRow} : Within [.regs, .dirRows, .dirShadow] (dirUpdate i rows) := by
  unfold dirUpdate
  repeat' first
    | with_reducible exact Within.pure _
    | with_reducible exact Within.rd _
    | with_reducible exact dirPut_within.of (by decide)
    | with_reducible refine Within.bind ?_ fun _ => ?_
    | with_reducible refine Within.onlyIf ?_
    | with_reducible refine Within.each fun _ => ?_
    | with_reducible refine Within.mapEach fun _ => ?_
    | split
    | dsimp only

theorem execDirSearch_within {s : State} : Effect [.free, .outbox, .mem, .bad, .regs, .ctxs, .banks, .fuq, .engines, .dir, .ddrs, .ring, .fc] (execDirSearch s) s := by
  unfold execDirSearch
  refine Within.effect ?_ _
  repeat' first
    | with_reducible exact Within.pure _
    | with_reducible exact Within.rd _
    | (with_reducible refine Within.emit ?_); rfl
    | with_reducible exact count_within.of (by decide)
    | with_reducible exact pump_within.of (by decide)
    | with_reducible exact pushToken_within.of (by decide)
    | with_reducible exact reportBads_within.of (by decide)
    | with_reducible exact requestDone_within.of (by decide)
    | with_reducible exact touch_within.of (by decide)
    | with_reducible refine Within.bind ?_ fun _ => ?_
    | with_reducible refine Within.onlyIf ?_
    | with_reducible refine Within.each fun _ => ?_
    | with_reducible refine Within.mapEach fun _ => ?_
    | split
    | dsimp only

theorem dirFault_within {i : Nat} {uncorr : Bool} : Within [.outbox, .regs, .fc] (dirFault i uncorr) := by
  unfold dirFault
  repeat' first
    | with_reducible exact Within.pure _
    | with_reducible exact Within.rd _
    | (with_reducible refine Within.emit ?_); rfl
    | with_reducible exact report_within.of (by decide)
    | with_reducible exact sticky_within.of (by decide)
    | with_reducible refine Within.bind ?_ fun _ => ?_
    | with_reducible refine Within.onlyIf ?_
    | with_reducible refine Within.each fun _ => ?_
    | with_reducible refine Within.mapEach fun _ => ?_
    | split
    | dsimp only

theorem execScrubVisit_within {ecc : EccOutcome} {upset : Bool} {s : State} : Effect [.outbox, .mem, .bad, .regs, .dirRows, .dirShadow, .ddrs, .gb, .fc] (execScrubVisit ecc upset s) s := by
  unfold execScrubVisit
  refine Within.effect ?_ _
  repeat' first
    | with_reducible exact Within.pure _
    | with_reducible exact Within.rd _
    | with_reducible exact count_within.of (by decide)
    | with_reducible exact dirFault_within.of (by decide)
    | with_reducible exact dirPut_within.of (by decide)
    | with_reducible exact gbRecord_within.of (by decide)
    | with_reducible exact setFld_within.of (by decide)
    | with_reducible refine Within.bind ?_ fun _ => ?_
    | with_reducible refine Within.onlyIf ?_
    | with_reducible refine Within.each fun _ => ?_
    | with_reducible refine Within.mapEach fun _ => ?_
    | split
    | dsimp only

end Sys2Proof.Machine
end

