-- ==== Sys2Proof/Laws/WithinClassrooms.lean ====
section
/-! SUPPORT. Which parts of the state the programs of Machine/Classrooms.lean change. -/

set_option linter.all false
set_option Elab.async false

namespace Sys2Proof.Machine

theorem setClState_within {c : Nat} {st : Nat} : Within [.regs] (setClState c st) := by
  unfold setClState
  repeat' first
    | with_reducible exact Within.pure _
    | with_reducible exact Within.rd _
    | with_reducible exact setFld_within.of (by decide)
    | with_reducible refine Within.bind ?_ fun _ => ?_
    | with_reducible refine Within.onlyIf ?_
    | with_reducible refine Within.each fun _ => ?_
    | with_reducible refine Within.mapEach fun _ => ?_
    | split
    | dsimp only

theorem shadowWrite_within {o : Origin} {off : Nat} {w : Word} : Within [.outbox, .mem, .bad, .regs, .ddrs, .gb] (shadowWrite o off w) := by
  unfold shadowWrite
  repeat' first
    | with_reducible exact Within.pure _
    | with_reducible exact Within.rd _
    | (with_reducible refine Within.emit ?_); rfl
    | with_reducible exact regRecord_within.of (by decide)
    | with_reducible refine Within.bind ?_ fun _ => ?_
    | with_reducible refine Within.onlyIf ?_
    | with_reducible refine Within.each fun _ => ?_
    | with_reducible refine Within.mapEach fun _ => ?_
    | split
    | dsimp only

theorem liveWrite_within {o : Origin} {off : Nat} {w : Word} : Within [.outbox, .mem, .bad, .regs, .ddrs, .gb] (liveWrite o off w) := by
  unfold liveWrite
  repeat' first
    | with_reducible exact Within.pure _
    | with_reducible exact Within.rd _
    | (with_reducible refine Within.emit ?_); rfl
    | with_reducible exact regRecord_within.of (by decide)
    | with_reducible refine Within.bind ?_ fun _ => ?_
    | with_reducible refine Within.onlyIf ?_
    | with_reducible refine Within.each fun _ => ?_
    | with_reducible refine Within.mapEach fun _ => ?_
    | split
    | dsimp only

theorem writeGrants_within {o : Origin} {c : Nat} {g : List Byte} {ts : List Nat} : Within [.outbox, .mem, .bad, .regs, .act, .pendc, .goBy, .ddrs, .locks, .hostq, .ringLinks, .ring, .gb, .bg] (writeGrants o c g ts) := by
  unfold writeGrants
  repeat' first
    | with_reducible exact Within.pure _
    | with_reducible exact Within.rd _
    | with_reducible exact commitGrp_within.of (by decide)
    | with_reducible exact shadowWrite_within.of (by decide)
    | with_reducible refine Within.bind ?_ fun _ => ?_
    | with_reducible refine Within.onlyIf ?_
    | with_reducible refine Within.each fun _ => ?_
    | with_reducible refine Within.mapEach fun _ => ?_
    | split
    | dsimp only

theorem zeroPages_within {c : Nat} : Within [.mem, .bad, .desk] (zeroPages c) := by
  unfold zeroPages
  repeat' first
    | with_reducible exact Within.pure _
    | with_reducible exact Within.rd _
    | (with_reducible refine Within.emit ?_); rfl
    | with_reducible exact zeroMem_within.of (by decide)
    | with_reducible refine Within.bind ?_ fun _ => ?_
    | with_reducible refine Within.onlyIf ?_
    | with_reducible refine Within.each fun _ => ?_
    | with_reducible refine Within.mapEach fun _ => ?_
    | split
    | dsimp only

theorem startClass_within {c : Nat} : Within [.threads] (startClass c) := by
  unfold startClass
  repeat' first
    | with_reducible exact Within.pure _
    | with_reducible exact Within.rd _
    | with_reducible exact restartThread_within.of (by decide)
    | with_reducible refine Within.bind ?_ fun _ => ?_
    | with_reducible refine Within.onlyIf ?_
    | with_reducible refine Within.each fun _ => ?_
    | with_reducible refine Within.mapEach fun _ => ?_
    | split
    | dsimp only

theorem execClassCreate_within {c : Cmd} {s : State} : Effect [.outbox, .mem, .bad, .regs, .act, .pendc, .goBy, .ddrs, .locks, .classes, .hostq, .ringLinks, .ring, .gb, .boot, .bg] (execClassCreate c s) s := by
  unfold execClassCreate
  refine Within.effect ?_ _
  repeat' first
    | with_reducible exact Within.pure _
    | with_reducible exact Within.rd _
    | (with_reducible refine Within.emit ?_); rfl
    | with_reducible exact background_within.of (by decide)
    | with_reducible exact background_within.within.of (by decide)
    | with_reducible refine command_within (by decide) ?_
    | with_reducible exact gbRecord_within.of (by decide)
    | with_reducible exact setClState_within.of (by decide)
    | with_reducible exact writeGrants_within.of (by decide)
    | with_reducible refine Answers.pure ?_
    | with_reducible refine Answers.bind ?_ fun _ => ?_
    | with_reducible exact Within.afterAns
    | with_reducible exact Within.afterData
    | with_reducible refine Within.bind ?_ fun _ => ?_
    | with_reducible refine Within.onlyIf ?_
    | with_reducible refine Within.each fun _ => ?_
    | with_reducible refine Within.mapEach fun _ => ?_
    | split
    | dsimp only

theorem execClassCreateComplete_within {c : Nat} {s : State} : Effect [.outbox, .mem, .bad, .desk, .regs, .act, .pendc, .goBy, .threads, .ddrs, .locks, .hostq, .ringLinks, .ring, .gb, .bg] (execClassCreateComplete c s) s := by
  unfold execClassCreateComplete
  refine Within.effect ?_ _
  repeat' first
    | with_reducible exact Within.pure _
    | with_reducible exact Within.rd _
    | with_reducible exact bgEnd_within.of (by decide)
    | with_reducible exact commitGrp_within.of (by decide)
    | with_reducible exact setClState_within.of (by decide)
    | with_reducible exact shadowWrite_within.of (by decide)
    | with_reducible exact startClass_within.of (by decide)
    | with_reducible exact zeroPages_within.of (by decide)
    | with_reducible refine Within.bind ?_ fun _ => ?_
    | with_reducible refine Within.onlyIf ?_
    | with_reducible refine Within.each fun _ => ?_
    | with_reducible refine Within.mapEach fun _ => ?_
    | split
    | dsimp only

theorem dropThreadAct_within {t : Nat} : Within [.mem, .bad, .threads, .acts, .ctxs, .ddrs, .sq, .cw] (dropThreadAct t) := by
  unfold dropThreadAct
  repeat' first
    | with_reducible exact Within.pure _
    | with_reducible exact Within.rd _
    | with_reducible exact (modThreads_within _ _).of (by decide)
    | with_reducible exact actRelease_within.of (by decide)
    | with_reducible refine Within.bind ?_ fun _ => ?_
    | with_reducible refine Within.onlyIf ?_
    | with_reducible refine Within.each fun _ => ?_
    | with_reducible refine Within.mapEach fun _ => ?_
    | split
    | dsimp only

theorem resetPoint_within {c : Nat} : Within [.mem, .bad, .regs, .threads, .acts, .ready, .delay, .ctxs, .units, .hqueues, .ddrs, .chans, .locks, .sq, .cw] (resetPoint c) := by
  unfold resetPoint
  repeat' first
    | with_reducible exact Within.pure _
    | with_reducible exact Within.rd _
    | with_reducible exact (modHqueues_within _ _).of (by decide)
    | (with_reducible refine Within.emit ?_); rfl
    | with_reducible exact cancelTimer_within.of (by decide)
    | with_reducible exact countBy_within.of (by decide)
    | with_reducible exact dropThreadAct_within.of (by decide)
    | with_reducible exact setFld_within.of (by decide)
    | with_reducible exact stopThread_within.of (by decide)
    | with_reducible refine Within.bind ?_ fun _ => ?_
    | with_reducible refine Within.onlyIf ?_
    | with_reducible refine Within.each fun _ => ?_
    | with_reducible refine Within.mapEach fun _ => ?_
    | split
    | dsimp only

theorem discardCtx_within {x : Nat} : Within [.outbox, .mem, .bad, .regs, .threads, .acts, .ready, .delay, .ctxs, .banks, .ddrs, .bufs, .pools, .locks, .terms, .sq, .rc, .cw] (discardCtx x) := by
  unfold discardCtx
  repeat' first
    | with_reducible exact Within.pure _
    | with_reducible exact Within.rd _
    | with_reducible exact actRelease_within.of (by decide)
    | with_reducible exact cwClose_within.of (by decide)
    | with_reducible exact freeCtx_within.of (by decide)
    | with_reducible exact unqueueAct_within.of (by decide)
    | with_reducible refine Within.bind ?_ fun _ => ?_
    | with_reducible refine Within.onlyIf ?_
    | with_reducible refine Within.each fun _ => ?_
    | with_reducible refine Within.mapEach fun _ => ?_
    | split
    | dsimp only

theorem discardAdmitted_within {a : Admitted} : Within [.regs, .bufs, .pools, .terms, .cw] (discardAdmitted a) := by
  unfold discardAdmitted
  repeat' first
    | with_reducible exact Within.pure _
    | with_reducible exact Within.rd _
    | with_reducible exact bufDrop_within.of (by decide)
    | with_reducible exact cwClose_within.of (by decide)
    | with_reducible exact termUnref_within.of (by decide)
    | with_reducible refine Within.bind ?_ fun _ => ?_
    | with_reducible refine Within.onlyIf ?_
    | with_reducible refine Within.each fun _ => ?_
    | with_reducible refine Within.mapEach fun _ => ?_
    | split
    | dsimp only

theorem discardEgress_within {c : Nat} : Within [.regs, .bufs, .pools, .cw] (discardEgress c) := by
  unfold discardEgress
  repeat' first
    | with_reducible exact Within.pure _
    | with_reducible exact Within.rd _
    | with_reducible exact (modCw_within _).of (by decide)
    | with_reducible exact discardMsg_within.of (by decide)
    | with_reducible refine Within.bind ?_ fun _ => ?_
    | with_reducible refine Within.onlyIf ?_
    | with_reducible refine Within.each fun _ => ?_
    | with_reducible refine Within.mapEach fun _ => ?_
    | split
    | dsimp only

theorem discardOld_within {c : Nat} : Within [.outbox, .mem, .bad, .regs, .threads, .acts, .ready, .delay, .ctxs, .banks, .ddrs, .bufs, .pools, .chans, .locks, .admitQ, .terms, .sq, .rc, .cw] (discardOld c) := by
  unfold discardOld
  repeat' first
    | with_reducible exact Within.pure _
    | with_reducible exact Within.rd _
    | with_reducible exact (modAdmitQ_within _ _).of (by decide)
    | with_reducible exact bufFree_within.of (by decide)
    | with_reducible exact chEmpty_within.of (by decide)
    | with_reducible exact discardAdmitted_within.of (by decide)
    | with_reducible exact discardCtx_within.of (by decide)
    | with_reducible exact discardEgress_within.of (by decide)
    | with_reducible refine Within.bind ?_ fun _ => ?_
    | with_reducible refine Within.onlyIf ?_
    | with_reducible refine Within.each fun _ => ?_
    | with_reducible refine Within.mapEach fun _ => ?_
    | split
    | dsimp only

theorem setPhase_within {b : BgOp} {n : Nat} : Within [.bg] (setPhase b n) := by
  unfold setPhase
  repeat' first
    | with_reducible exact Within.pure _
    | with_reducible exact Within.rd _
    | with_reducible exact (modBg_within _).of (by decide)
    | with_reducible refine Within.bind ?_ fun _ => ?_
    | with_reducible refine Within.onlyIf ?_
    | with_reducible refine Within.each fun _ => ?_
    | with_reducible refine Within.mapEach fun _ => ?_
    | split
    | dsimp only

theorem resetRecord_within {o : Origin} {c : Nat} {action : Nat} {st : Nat} : Within [.outbox, .mem, .bad, .regs, .ddrs, .gb] (resetRecord o c action st) := by
  unfold resetRecord
  repeat' first
    | with_reducible exact Within.pure _
    | with_reducible exact Within.rd _
    | with_reducible exact gbRecord_within.of (by decide)
    | with_reducible refine Within.bind ?_ fun _ => ?_
    | with_reducible refine Within.onlyIf ?_
    | with_reducible refine Within.each fun _ => ?_
    | with_reducible refine Within.mapEach fun _ => ?_
    | split
    | dsimp only

theorem beginReset_within {o : Origin} {c : Nat} {st : Nat} : Within [.outbox, .mem, .bad, .regs, .ddrs, .hostq, .gb, .bg] (beginReset o c st) := by
  unfold beginReset
  repeat' first
    | with_reducible exact Within.pure _
    | with_reducible exact Within.rd _
    | (with_reducible refine Within.emit ?_); rfl
    | with_reducible exact gbRecord_within.of (by decide)
    | with_reducible exact queueStop_within.of (by decide)
    | with_reducible exact resetRecord_within.of (by decide)
    | with_reducible exact setClState_within.of (by decide)
    | with_reducible refine Within.bind ?_ fun _ => ?_
    | with_reducible refine Within.onlyIf ?_
    | with_reducible refine Within.each fun _ => ?_
    | with_reducible refine Within.mapEach fun _ => ?_
    | split
    | dsimp only

theorem classCommand_within {c : Cmd} {op : Nat} {st : Nat} {kind : Nat → BgKind} : Within [.outbox, .mem, .bad, .regs, .ddrs, .hostq, .gb, .boot, .bg] (classCommand c op st kind) := by
  unfold classCommand
  repeat' first
    | with_reducible exact Within.pure _
    | with_reducible exact Within.rd _
    | with_reducible exact background_within.of (by decide)
    | with_reducible exact background_within.within.of (by decide)
    | with_reducible exact beginReset_within.of (by decide)
    | with_reducible refine command_within (by decide) ?_
    | with_reducible refine Answers.pure ?_
    | with_reducible refine Answers.bind ?_ fun _ => ?_
    | with_reducible exact Within.afterAns
    | with_reducible exact Within.afterData
    | with_reducible refine Within.bind ?_ fun _ => ?_
    | with_reducible refine Within.onlyIf ?_
    | with_reducible refine Within.each fun _ => ?_
    | with_reducible refine Within.mapEach fun _ => ?_
    | split
    | dsimp only

theorem execClassReset_within {c : Cmd} {s : State} : Effect [.outbox, .mem, .bad, .regs, .ddrs, .hostq, .gb, .boot, .bg] (execClassReset c s) s := by
  unfold execClassReset
  refine Within.effect ?_ _
  repeat' first
    | with_reducible exact Within.pure _
    | with_reducible exact Within.rd _
    | with_reducible exact classCommand_within.of (by decide)
    | with_reducible refine Within.bind ?_ fun _ => ?_
    | with_reducible refine Within.onlyIf ?_
    | with_reducible refine Within.each fun _ => ?_
    | with_reducible refine Within.mapEach fun _ => ?_
    | split
    | dsimp only

theorem execClassDestroy_within {c : Cmd} {s : State} : Effect [.outbox, .mem, .bad, .regs, .ddrs, .hostq, .gb, .boot, .bg] (execClassDestroy c s) s := by
  unfold execClassDestroy
  refine Within.effect ?_ _
  repeat' first
    | with_reducible exact Within.pure _
    | with_reducible exact Within.rd _
    | with_reducible exact classCommand_within.of (by decide)
    | with_reducible refine Within.bind ?_ fun _ => ?_
    | with_reducible refine Within.onlyIf ?_
    | with_reducible refine Within.each fun _ => ?_
    | with_reducible refine Within.mapEach fun _ => ?_
    | split
    | dsimp only

theorem execClassResetPoint_within {c : Nat} {s : State} : Effect [.mem, .bad, .regs, .threads, .acts, .ready, .delay, .ctxs, .units, .hqueues, .ddrs, .chans, .locks, .sq, .cw, .bg] (execClassResetPoint c s) s := by
  unfold execClassResetPoint
  refine Within.effect ?_ _
  repeat' first
    | with_reducible exact Within.pure _
    | with_reducible exact Within.rd _
    | with_reducible exact resetPoint_within.of (by decide)
    | with_reducible exact setPhase_within.of (by decide)
    | with_reducible refine Within.bind ?_ fun _ => ?_
    | with_reducible refine Within.onlyIf ?_
    | with_reducible refine Within.each fun _ => ?_
    | with_reducible refine Within.mapEach fun _ => ?_
    | split
    | dsimp only

theorem execClassResetComplete_within {c : Nat} {s : State} : Effect [.outbox, .mem, .bad, .regs, .threads, .acts, .ready, .delay, .ctxs, .banks, .ddrs, .bufs, .pools, .chans, .locks, .admitQ, .terms, .hostq, .sq, .rc, .cw, .bg] (execClassResetComplete c s) s := by
  unfold execClassResetComplete
  refine Within.effect ?_ _
  repeat' first
    | with_reducible exact Within.pure _
    | with_reducible exact Within.rd _
    | with_reducible exact bgEnd_within.of (by decide)
    | with_reducible exact discardOld_within.of (by decide)
    | with_reducible exact setClState_within.of (by decide)
    | with_reducible exact startClass_within.of (by decide)
    | with_reducible refine Within.bind ?_ fun _ => ?_
    | with_reducible refine Within.onlyIf ?_
    | with_reducible refine Within.each fun _ => ?_
    | with_reducible refine Within.mapEach fun _ => ?_
    | split
    | dsimp only

theorem resetNow_within {o : Origin} {c : Nat} : Within [.outbox, .mem, .bad, .regs, .threads, .acts, .ready, .delay, .ctxs, .banks, .units, .hqueues, .ddrs, .bufs, .pools, .chans, .locks, .admitQ, .terms, .sq, .rc, .cw, .gb] (resetNow o c) := by
  unfold resetNow
  repeat' first
    | with_reducible exact Within.pure _
    | with_reducible exact Within.rd _
    | with_reducible exact discardOld_within.of (by decide)
    | with_reducible exact resetPoint_within.of (by decide)
    | with_reducible exact resetRecord_within.of (by decide)
    | with_reducible exact startClass_within.of (by decide)
    | with_reducible refine Within.bind ?_ fun _ => ?_
    | with_reducible refine Within.onlyIf ?_
    | with_reducible refine Within.each fun _ => ?_
    | with_reducible refine Within.mapEach fun _ => ?_
    | split
    | dsimp only

theorem closeNow_within {o : Origin} {id : Nat} : Within [.outbox, .mem, .bad, .regs, .ddrs, .bufs, .pools, .streams, .hostq, .gb, .bg] (closeNow o id) := by
  unfold closeNow
  repeat' first
    | with_reducible exact Within.pure _
    | with_reducible exact Within.rd _
    | with_reducible exact bgFinish_within.of (by decide)
    | with_reducible exact dropHeld_within.of (by decide)
    | with_reducible exact gbRecord_within.of (by decide)
    | with_reducible exact streamRemove_within.of (by decide)
    | with_reducible exact txRelease_within.of (by decide)
    | with_reducible refine Within.bind ?_ fun _ => ?_
    | with_reducible refine Within.onlyIf ?_
    | with_reducible refine Within.each fun _ => ?_
    | with_reducible refine Within.mapEach fun _ => ?_
    | split
    | dsimp only

theorem tableClear_within {o : Origin} {t : Nat} : Within [.outbox, .mem, .bad, .regs, .learn, .ddrs, .gb] (tableClear o t) := by
  unfold tableClear
  repeat' first
    | with_reducible exact Within.pure _
    | with_reducible exact Within.rd _
    | (with_reducible refine Within.emit ?_); rfl
    | with_reducible exact gbRecord_within.of (by decide)
    | with_reducible refine Within.bind ?_ fun _ => ?_
    | with_reducible refine Within.onlyIf ?_
    | with_reducible refine Within.each fun _ => ?_
    | with_reducible refine Within.mapEach fun _ => ?_
    | split
    | dsimp only

theorem dirClear_within {o : Origin} {i : Nat} : Within [.outbox, .mem, .bad, .regs, .dirRows, .dirShadow, .ddrs, .gb] (dirClear o i) := by
  unfold dirClear
  repeat' first
    | with_reducible exact Within.pure _
    | with_reducible exact Within.rd _
    | with_reducible exact dirPut_within.of (by decide)
    | with_reducible exact gbRecord_within.of (by decide)
    | with_reducible refine Within.bind ?_ fun _ => ?_
    | with_reducible refine Within.onlyIf ?_
    | with_reducible refine Within.each fun _ => ?_
    | with_reducible refine Within.mapEach fun _ => ?_
    | split
    | dsimp only

theorem clearGrants_within {o : Origin} {c : Nat} : Within [.outbox, .mem, .bad, .regs, .act, .pendc, .goBy, .threads, .ddrs, .locks, .hostq, .ringLinks, .ring, .gb, .bg] (clearGrants o c) := by
  unfold clearGrants
  repeat' first
    | with_reducible exact Within.pure _
    | with_reducible exact Within.rd _
    | with_reducible exact (modThreads_within _ _).of (by decide)
    | with_reducible exact commitGrp_within.of (by decide)
    | with_reducible exact shadowWrite_within.of (by decide)
    | with_reducible refine Within.bind ?_ fun _ => ?_
    | with_reducible refine Within.onlyIf ?_
    | with_reducible refine Within.each fun _ => ?_
    | with_reducible refine Within.mapEach fun _ => ?_
    | split
    | dsimp only

theorem endDestroy_within {b : BgOp} {o : Origin} {c : Nat} : Within [.outbox, .mem, .bad, .regs, .act, .pendc, .goBy, .ddrs, .locks, .classes, .hostq, .ringLinks, .ring, .gb, .bg] (endDestroy b o c) := by
  unfold endDestroy
  repeat' first
    | with_reducible exact Within.pure _
    | with_reducible exact Within.rd _
    | (with_reducible refine Within.emit ?_); rfl
    | with_reducible exact bgEnd_within.of (by decide)
    | with_reducible exact commitGrp_within.of (by decide)
    | with_reducible exact setClState_within.of (by decide)
    | with_reducible exact shadowWrite_within.of (by decide)
    | with_reducible refine Within.bind ?_ fun _ => ?_
    | with_reducible refine Within.onlyIf ?_
    | with_reducible refine Within.each fun _ => ?_
    | with_reducible refine Within.mapEach fun _ => ?_
    | split
    | dsimp only

theorem execClassDestroyComplete_within {c : Nat} {s : State} : Effect [.outbox, .mem, .bad, .desk, .regs, .act, .pendc, .goBy, .threads, .acts, .ready, .delay, .ctxs, .banks, .learn, .dirRows, .dirShadow, .ddrs, .bufs, .pools, .chans, .locks, .streams, .admitQ, .terms, .classes, .hostq, .ringLinks, .sq, .rc, .cw, .ring, .gb, .bg] (execClassDestroyComplete c s) s := by
  unfold execClassDestroyComplete
  refine Within.effect ?_ _
  repeat' first
    | with_reducible exact Within.pure _
    | with_reducible exact Within.rd _
    | with_reducible exact bufFree_within.of (by decide)
    | with_reducible exact clearGrants_within.of (by decide)
    | with_reducible exact closeNow_within.of (by decide)
    | with_reducible exact dirClear_within.of (by decide)
    | with_reducible exact discardOld_within.of (by decide)
    | with_reducible exact endDestroy_within.of (by decide)
    | with_reducible exact setPhase_within.of (by decide)
    | with_reducible exact tableClear_within.of (by decide)
    | with_reducible exact zeroPages_within.of (by decide)
    | with_reducible refine Within.bind ?_ fun _ => ?_
    | with_reducible refine Within.onlyIf ?_
    | with_reducible refine Within.each fun _ => ?_
    | with_reducible refine Within.mapEach fun _ => ?_
    | split
    | dsimp only

theorem execClassShare_within {c : Cmd} {s : State} : Effect [.outbox, .mem, .bad, .regs, .act, .pendc, .goBy, .ddrs, .locks, .hostq, .ringLinks, .ring, .gb, .boot, .bg] (execClassShare c s) s := by
  unfold execClassShare
  refine Within.effect ?_ _
  repeat' first
    | with_reducible exact Within.pure _
    | with_reducible exact Within.rd _
    | with_reducible refine command_within (by decide) ?_
    | with_reducible exact commitGrp_within.of (by decide)
    | with_reducible exact gbRecord_within.of (by decide)
    | with_reducible exact shadowWrite_within.of (by decide)
    | with_reducible refine Answers.pure ?_
    | with_reducible refine Answers.bind ?_ fun _ => ?_
    | with_reducible exact Within.afterAns
    | with_reducible exact Within.afterData
    | with_reducible refine Within.bind ?_ fun _ => ?_
    | with_reducible refine Within.onlyIf ?_
    | with_reducible refine Within.each fun _ => ?_
    | with_reducible refine Within.mapEach fun _ => ?_
    | split
    | dsimp only

theorem execClassMigrateLog_within {c : Cmd} {s : State} : Effect [.outbox, .mem, .bad, .regs, .ddrs, .hostq, .gb, .boot] (execClassMigrateLog c s) s := by
  unfold execClassMigrateLog
  refine Within.effect ?_ _
  repeat' first
    | with_reducible exact Within.pure _
    | with_reducible exact Within.rd _
    | with_reducible refine command_within (by decide) ?_
    | with_reducible exact gbRecord_within.of (by decide)
    | with_reducible exact liveWrite_within.of (by decide)
    | with_reducible refine Answers.pure ?_
    | with_reducible refine Answers.bind ?_ fun _ => ?_
    | with_reducible exact Within.afterAns
    | with_reducible exact Within.afterData
    | with_reducible refine Within.bind ?_ fun _ => ?_
    | with_reducible refine Within.onlyIf ?_
    | with_reducible refine Within.each fun _ => ?_
    | with_reducible refine Within.mapEach fun _ => ?_
    | split
    | dsimp only

theorem execClassStatus_within {c : Cmd} {s : State} : Effect [.outbox, .regs, .hostq, .boot] (execClassStatus c s) s := by
  unfold execClassStatus
  refine Within.effect ?_ _
  repeat' first
    | with_reducible exact Within.pure _
    | with_reducible exact Within.rd _
    | with_reducible refine command_within (by decide) ?_
    | with_reducible refine Answers.pure ?_
    | with_reducible refine Answers.bind ?_ fun _ => ?_
    | with_reducible exact Within.afterAns
    | with_reducible exact Within.afterData
    | with_reducible refine Within.bind ?_ fun _ => ?_
    | with_reducible refine Within.onlyIf ?_
    | with_reducible refine Within.each fun _ => ?_
    | with_reducible refine Within.mapEach fun _ => ?_
    | split
    | dsimp only

end Sys2Proof.Machine
end

