-- ==== Sys2Proof/Laws/WithinControl.lean ====
section
/-! SUPPORT. Which parts of the state the programs of Machine/Control.lean change. -/

set_option linter.all false
set_option Elab.async false

namespace Sys2Proof.Machine

theorem execBc_within {t : Nat} {cond : Nat} {disp : Nat} {s : State} : Effect [.outbox, .mem, .bad, .desk, .regs, .threads, .acts, .ready, .ctxs, .hqueues, .ddrs, .chans, .locks, .sq, .cw, .fc] (execBc t cond disp s) s := by
  unfold execBc
  refine Within.effect ?_ _
  repeat' first
    | with_reducible exact Within.pure _
    | with_reducible exact Within.rd _
    | with_reducible exact count_within.of (by decide)
    | with_reducible exact finishAt_within.of (by decide)
    | with_reducible exact finishNext_within.of (by decide)
    | with_reducible refine issue_within (by decide) (fun _ => ?_)
    | with_reducible exact undef_within.of (by decide)
    | with_reducible refine Within.bind ?_ fun _ => ?_
    | with_reducible refine Within.onlyIf ?_
    | with_reducible refine Within.each fun _ => ?_
    | with_reducible refine Within.mapEach fun _ => ?_
    | split
    | dsimp only

theorem jumpTo_within {t : Nat} {rd' : Nat} {target : Word} : Within [.outbox, .mem, .bad, .desk, .regs, .threads, .acts, .ready, .ctxs, .hqueues, .ddrs, .chans, .locks, .sq, .cw, .fc] (jumpTo t rd' target) := by
  unfold jumpTo
  repeat' first
    | with_reducible exact Within.pure _
    | with_reducible exact Within.rd _
    | with_reducible exact count_within.of (by decide)
    | with_reducible exact finishAt_within.of (by decide)
    | with_reducible exact trapHere_within.of (by decide)
    | with_reducible refine Within.bind ?_ fun _ => ?_
    | with_reducible refine Within.onlyIf ?_
    | with_reducible refine Within.each fun _ => ?_
    | with_reducible refine Within.mapEach fun _ => ?_
    | split
    | dsimp only

theorem execJr_within {t : Nat} {ra : Nat} {rsv : Nat} {s : State} : Effect [.outbox, .mem, .bad, .desk, .regs, .threads, .acts, .ready, .ctxs, .hqueues, .ddrs, .chans, .locks, .sq, .cw, .fc] (execJr t ra rsv s) s := by
  unfold execJr
  refine Within.effect ?_ _
  repeat' first
    | with_reducible exact Within.pure _
    | with_reducible exact Within.rd _
    | with_reducible refine issue_within (by decide) (fun _ => ?_)
    | with_reducible exact jumpTo_within.of (by decide)
    | with_reducible refine Within.bind ?_ fun _ => ?_
    | with_reducible refine Within.onlyIf ?_
    | with_reducible refine Within.each fun _ => ?_
    | with_reducible refine Within.mapEach fun _ => ?_
    | split
    | dsimp only

theorem execJalr_within {t : Nat} {rd : Nat} {ra : Nat} {rsv : Nat} {s : State} : Effect [.outbox, .mem, .bad, .desk, .regs, .threads, .acts, .ready, .ctxs, .hqueues, .ddrs, .chans, .locks, .sq, .cw, .fc] (execJalr t rd ra rsv s) s := by
  unfold execJalr
  refine Within.effect ?_ _
  repeat' first
    | with_reducible exact Within.pure _
    | with_reducible exact Within.rd _
    | with_reducible refine issue_within (by decide) (fun _ => ?_)
    | with_reducible exact jumpTo_within.of (by decide)
    | with_reducible refine Within.bind ?_ fun _ => ?_
    | with_reducible refine Within.onlyIf ?_
    | with_reducible refine Within.each fun _ => ?_
    | with_reducible refine Within.mapEach fun _ => ?_
    | split
    | dsimp only

theorem execTrap_within {t : Nat} {imm : Nat} {_rsv : Nat} {other : Option Nat} {s : State} : Effect [.outbox, .mem, .bad, .desk, .regs, .threads, .acts, .ready, .ctxs, .hqueues, .ddrs, .chans, .locks, .sq, .cw, .fc] (execTrap t imm _rsv other s) s := by
  unfold execTrap
  refine Within.effect ?_ _
  repeat' first
    | with_reducible exact Within.pure _
    | with_reducible exact Within.rd _
    | with_reducible refine issue_within (by decide) (fun _ => ?_)
    | with_reducible exact issueUnassigned_within.of (by decide)
    | with_reducible exact trap_within.of (by decide)
    | with_reducible refine Within.bind ?_ fun _ => ?_
    | with_reducible refine Within.onlyIf ?_
    | with_reducible refine Within.each fun _ => ?_
    | with_reducible refine Within.mapEach fun _ => ?_
    | split
    | dsimp only

theorem execEret_within {t : Nat} {rsv : Nat} {s : State} : Effect [.outbox, .mem, .bad, .desk, .regs, .threads, .acts, .ready, .ctxs, .hqueues, .ddrs, .chans, .locks, .sq, .cw, .fc] (execEret t rsv s) s := by
  unfold execEret
  refine Within.effect ?_ _
  repeat' first
    | with_reducible exact Within.pure _
    | with_reducible exact Within.rd _
    | with_reducible exact finishAt_within.of (by decide)
    | with_reducible refine issue_within (by decide) (fun _ => ?_)
    | with_reducible exact trapHere_within.of (by decide)
    | with_reducible refine Within.bind ?_ fun _ => ?_
    | with_reducible refine Within.onlyIf ?_
    | with_reducible refine Within.each fun _ => ?_
    | with_reducible refine Within.mapEach fun _ => ?_
    | split
    | dsimp only

theorem execBkld_within {t : Nat} {bk : Nat} {ra : Nat} {rsv : Nat} {s : State} : Effect [.outbox, .mem, .bad, .desk, .regs, .threads, .acts, .ready, .ctxs, .hqueues, .ddrs, .chans, .locks, .sq, .cw, .fc] (execBkld t bk ra rsv s) s := by
  unfold execBkld
  refine Within.effect ?_ _
  repeat' first
    | with_reducible exact Within.pure _
    | with_reducible exact Within.rd _
    | with_reducible exact finishNext_within.of (by decide)
    | with_reducible refine issue_within (by decide) (fun _ => ?_)
    | with_reducible exact trapHere_within.of (by decide)
    | with_reducible refine Within.bind ?_ fun _ => ?_
    | with_reducible refine Within.onlyIf ?_
    | with_reducible refine Within.each fun _ => ?_
    | with_reducible refine Within.mapEach fun _ => ?_
    | split
    | dsimp only

theorem execBkrd_within {t : Nat} {rd : Nat} {bk : Nat} {rsv : Nat} {s : State} : Effect [.outbox, .mem, .bad, .desk, .regs, .threads, .acts, .ready, .ctxs, .hqueues, .ddrs, .chans, .locks, .sq, .cw, .fc] (execBkrd t rd bk rsv s) s := by
  unfold execBkrd
  refine Within.effect ?_ _
  repeat' first
    | with_reducible exact Within.pure _
    | with_reducible exact Within.rd _
    | with_reducible exact finishNext_within.of (by decide)
    | with_reducible refine issue_within (by decide) (fun _ => ?_)
    | with_reducible refine Within.bind ?_ fun _ => ?_
    | with_reducible refine Within.onlyIf ?_
    | with_reducible refine Within.each fun _ => ?_
    | with_reducible refine Within.mapEach fun _ => ?_
    | split
    | dsimp only

theorem writeTimer_within {t : Nat} {d : Nat} : Within [.outbox, .regs, .threads, .delay, .sq] (writeTimer t d) := by
  unfold writeTimer
  repeat' first
    | with_reducible exact Within.pure _
    | with_reducible exact Within.rd _
    | with_reducible exact (modThreads_within _ _).of (by decide)
    | with_reducible exact cancelTimer_within.of (by decide)
    | with_reducible exact delayArm_within.of (by decide)
    | with_reducible refine Within.bind ?_ fun _ => ?_
    | with_reducible refine Within.onlyIf ?_
    | with_reducible refine Within.each fun _ => ?_
    | with_reducible refine Within.mapEach fun _ => ?_
    | split
    | dsimp only

theorem execCrd_within {t : Nat} {rd : Nat} {num : Nat} {rsv : Nat} {s : State} : Effect [.free, .outbox, .mem, .bad, .desk, .regs, .threads, .acts, .ready, .ctxs, .hqueues, .ddrs, .chans, .locks, .sq, .cw, .fc] (execCrd t rd num rsv s) s := by
  unfold execCrd
  refine Within.effect ?_ _
  repeat' first
    | with_reducible exact Within.pure _
    | with_reducible exact Within.rd _
    | with_reducible exact draw_within.of (by decide)
    | with_reducible exact finishNext_within.of (by decide)
    | with_reducible refine issue_within (by decide) (fun _ => ?_)
    | with_reducible exact trapHere_within.of (by decide)
    | with_reducible exact undef_within.of (by decide)
    | with_reducible refine Within.bind ?_ fun _ => ?_
    | with_reducible refine Within.onlyIf ?_
    | with_reducible refine Within.each fun _ => ?_
    | with_reducible refine Within.mapEach fun _ => ?_
    | split
    | dsimp only

theorem execCwr_within {t : Nat} {rd : Nat} {num : Nat} {rsv : Nat} {s : State} : Effect [.outbox, .mem, .bad, .desk, .regs, .threads, .acts, .ready, .delay, .ctxs, .hqueues, .ddrs, .chans, .locks, .sq, .cw, .fc] (execCwr t rd num rsv s) s := by
  unfold execCwr
  refine Within.effect ?_ _
  repeat' first
    | with_reducible exact Within.pure _
    | with_reducible exact Within.rd _
    | with_reducible exact finishNext_within.of (by decide)
    | with_reducible refine issue_within (by decide) (fun _ => ?_)
    | with_reducible exact trapHere_within.of (by decide)
    | with_reducible exact undef_within.of (by decide)
    | with_reducible exact writeTimer_within.of (by decide)
    | with_reducible refine Within.bind ?_ fun _ => ?_
    | with_reducible refine Within.onlyIf ?_
    | with_reducible refine Within.each fun _ => ?_
    | with_reducible refine Within.mapEach fun _ => ?_
    | split
    | dsimp only

theorem execGetwork_within {t : Nat} {rd : Nat} {ra : Nat} {rsv : Nat} {s : State} : Effect [.outbox, .mem, .bad, .desk, .regs, .threads, .acts, .ready, .ctxs, .hqueues, .ddrs, .chans, .locks, .sq, .cw, .fc] (execGetwork t rd ra rsv s) s := by
  unfold execGetwork
  refine Within.effect ?_ _
  repeat' first
    | with_reducible exact Within.pure _
    | with_reducible exact Within.rd _
    | with_reducible exact (modThreads_within _ _).of (by decide)
    | with_reducible exact getWork_within.of (by decide)
    | with_reducible refine issue_within (by decide) (fun _ => ?_)
    | with_reducible exact undef_within.of (by decide)
    | with_reducible refine Within.bind ?_ fun _ => ?_
    | with_reducible refine Within.onlyIf ?_
    | with_reducible refine Within.each fun _ => ?_
    | with_reducible refine Within.mapEach fun _ => ?_
    | split
    | dsimp only

theorem waitEvent_within {t : Nat} {rd' : Nat} {ra : Nat} {clear : Bool} {th : Thread} : Within [.threads] (waitEvent t rd' ra clear th) := by
  unfold waitEvent
  repeat' first
    | with_reducible exact Within.pure _
    | with_reducible exact Within.rd _
    | with_reducible exact enterWait_within.of (by decide)
    | with_reducible exact finishNext_within.of (by decide)
    | with_reducible refine Within.bind ?_ fun _ => ?_
    | with_reducible refine Within.onlyIf ?_
    | with_reducible refine Within.each fun _ => ?_
    | with_reducible refine Within.mapEach fun _ => ?_
    | split
    | dsimp only

theorem execWaitev_within {t : Nat} {rd : Nat} {ra : Nat} {rsv : Nat} {s : State} : Effect [.outbox, .mem, .bad, .desk, .regs, .threads, .acts, .ready, .ctxs, .hqueues, .ddrs, .chans, .locks, .sq, .cw, .fc] (execWaitev t rd ra rsv s) s := by
  unfold execWaitev
  refine Within.effect ?_ _
  repeat' first
    | with_reducible exact Within.pure _
    | with_reducible exact Within.rd _
    | with_reducible refine issue_within (by decide) (fun _ => ?_)
    | with_reducible exact waitEvent_within.of (by decide)
    | with_reducible refine Within.bind ?_ fun _ => ?_
    | with_reducible refine Within.onlyIf ?_
    | with_reducible refine Within.each fun _ => ?_
    | with_reducible refine Within.mapEach fun _ => ?_
    | split
    | dsimp only

theorem execWaitevC_within {t : Nat} {rd : Nat} {ra : Nat} {rsv : Nat} {s : State} : Effect [.outbox, .mem, .bad, .desk, .regs, .threads, .acts, .ready, .ctxs, .hqueues, .ddrs, .chans, .locks, .sq, .cw, .fc] (execWaitevC t rd ra rsv s) s := by
  unfold execWaitevC
  refine Within.effect ?_ _
  repeat' first
    | with_reducible exact Within.pure _
    | with_reducible exact Within.rd _
    | with_reducible refine issue_within (by decide) (fun _ => ?_)
    | with_reducible exact waitEvent_within.of (by decide)
    | with_reducible refine Within.bind ?_ fun _ => ?_
    | with_reducible refine Within.onlyIf ?_
    | with_reducible refine Within.each fun _ => ?_
    | with_reducible refine Within.mapEach fun _ => ?_
    | split
    | dsimp only

theorem execSetev_within {t : Nat} {ra : Nat} {flag : Nat} {rsv : Nat} {s : State} : Effect [.outbox, .mem, .bad, .desk, .regs, .threads, .acts, .ready, .ctxs, .hqueues, .ddrs, .chans, .locks, .sq, .cw, .fc] (execSetev t ra flag rsv s) s := by
  unfold execSetev
  refine Within.effect ?_ _
  repeat' first
    | with_reducible exact Within.pure _
    | with_reducible exact Within.rd _
    | with_reducible exact finishNext_within.of (by decide)
    | with_reducible refine issueRel_within (by decide) (fun _ => ?_)
    | with_reducible exact setFlag_within.of (by decide)
    | with_reducible refine Within.bind ?_ fun _ => ?_
    | with_reducible refine Within.onlyIf ?_
    | with_reducible refine Within.each fun _ => ?_
    | with_reducible refine Within.mapEach fun _ => ?_
    | split
    | dsimp only

theorem channelWrite_within {t : Nat} {n : Nat} {w : Word} {e : Bool} : Within [.outbox, .mem, .regs, .threads, .chans] (channelWrite t n w e) := by
  unfold channelWrite
  repeat' first
    | with_reducible exact Within.pure _
    | with_reducible exact Within.rd _
    | with_reducible exact (modChans_within _ _).of (by decide)
    | with_reducible exact (modThreads_within _ _).of (by decide)
    | with_reducible exact chWrite_within.of (by decide)
    | with_reducible refine Within.bind ?_ fun _ => ?_
    | with_reducible refine Within.onlyIf ?_
    | with_reducible refine Within.each fun _ => ?_
    | with_reducible refine Within.mapEach fun _ => ?_
    | split
    | dsimp only

theorem execChwr_within {t : Nat} {ra : Nat} {rb : Nat} {e : Bool} {rsv : Nat} {s : State} : Effect [.outbox, .mem, .bad, .desk, .regs, .threads, .acts, .ready, .ctxs, .hqueues, .ddrs, .chans, .locks, .sq, .cw, .fc] (execChwr t ra rb e rsv s) s := by
  unfold execChwr
  refine Within.effect ?_ _
  repeat' first
    | with_reducible exact Within.pure _
    | with_reducible exact Within.rd _
    | with_reducible exact channelWrite_within.of (by decide)
    | with_reducible exact enterWait_within.of (by decide)
    | with_reducible exact finishNext_within.of (by decide)
    | with_reducible refine issueRel_within (by decide) (fun _ => ?_)
    | with_reducible refine Within.bind ?_ fun _ => ?_
    | with_reducible refine Within.onlyIf ?_
    | with_reducible refine Within.each fun _ => ?_
    | with_reducible refine Within.mapEach fun _ => ?_
    | split
    | dsimp only

theorem channelRead_within {t : Nat} {n : Nat} {rd' : Nat} {nb : Bool} : Within [.regs, .threads, .chans] (channelRead t n rd' nb) := by
  unfold channelRead
  repeat' first
    | with_reducible exact Within.pure _
    | with_reducible exact Within.rd _
    | with_reducible exact chRead_within.of (by decide)
    | with_reducible exact finishNext_within.of (by decide)
    | with_reducible refine Within.bind ?_ fun _ => ?_
    | with_reducible refine Within.onlyIf ?_
    | with_reducible refine Within.each fun _ => ?_
    | with_reducible refine Within.mapEach fun _ => ?_
    | split
    | dsimp only

theorem execChrd_within {t : Nat} {rd : Nat} {rb : Nat} {rsv : Nat} {s : State} : Effect [.outbox, .mem, .bad, .desk, .regs, .threads, .acts, .ready, .ctxs, .hqueues, .ddrs, .chans, .locks, .sq, .cw, .fc] (execChrd t rd rb rsv s) s := by
  unfold execChrd
  refine Within.effect ?_ _
  repeat' first
    | with_reducible exact Within.pure _
    | with_reducible exact Within.rd _
    | with_reducible exact channelRead_within.of (by decide)
    | with_reducible exact enterWait_within.of (by decide)
    | with_reducible refine issue_within (by decide) (fun _ => ?_)
    | with_reducible refine Within.bind ?_ fun _ => ?_
    | with_reducible refine Within.onlyIf ?_
    | with_reducible refine Within.each fun _ => ?_
    | with_reducible refine Within.mapEach fun _ => ?_
    | split
    | dsimp only

theorem execChrdNb_within {t : Nat} {rd : Nat} {rb : Nat} {rsv : Nat} {s : State} : Effect [.outbox, .mem, .bad, .desk, .regs, .threads, .acts, .ready, .ctxs, .hqueues, .ddrs, .chans, .locks, .sq, .cw, .fc] (execChrdNb t rd rb rsv s) s := by
  unfold execChrdNb
  refine Within.effect ?_ _
  repeat' first
    | with_reducible exact Within.pure _
    | with_reducible exact Within.rd _
    | with_reducible exact channelRead_within.of (by decide)
    | with_reducible refine issue_within (by decide) (fun _ => ?_)
    | with_reducible refine Within.bind ?_ fun _ => ?_
    | with_reducible refine Within.onlyIf ?_
    | with_reducible refine Within.each fun _ => ?_
    | with_reducible refine Within.mapEach fun _ => ?_
    | split
    | dsimp only

theorem execChannelReadResume_within {t : Nat} {s : State} : Effect [.regs, .threads, .chans] (execChannelReadResume t s) s := by
  unfold execChannelReadResume
  refine Within.effect ?_ _
  repeat' first
    | with_reducible exact Within.pure _
    | with_reducible exact Within.rd _
    | with_reducible exact channelRead_within.of (by decide)
    | with_reducible refine Within.bind ?_ fun _ => ?_
    | with_reducible refine Within.onlyIf ?_
    | with_reducible refine Within.each fun _ => ?_
    | with_reducible refine Within.mapEach fun _ => ?_
    | split
    | dsimp only

theorem execChannelTailTimeout_within {n : Nat} {s : State} : Effect [.regs, .threads, .chans] (execChannelTailTimeout n s) s := by
  unfold execChannelTailTimeout
  refine Within.effect ?_ _
  repeat' first
    | with_reducible exact Within.pure _
    | with_reducible exact Within.rd _
    | (with_reducible refine Within.emit ?_); rfl
    | with_reducible exact setFlag_within.of (by decide)
    | with_reducible exact setFld_within.of (by decide)
    | with_reducible refine Within.bind ?_ fun _ => ?_
    | with_reducible refine Within.onlyIf ?_
    | with_reducible refine Within.each fun _ => ?_
    | with_reducible refine Within.mapEach fun _ => ?_
    | split
    | dsimp only

theorem hpacqM_within {t : Nat} {form : Nat} {rd' : Nat} {ra : Nat} {rsv : Nat} : Within [.outbox, .mem, .bad, .desk, .regs, .threads, .acts, .ready, .ctxs, .hqueues, .ddrs, .chans, .locks, .sq, .cw, .fc] (hpacqM t form rd' ra rsv) := by
  unfold hpacqM
  repeat' first
    | with_reducible exact Within.pure _
    | with_reducible exact Within.rd _
    | with_reducible exact enterWait_within.of (by decide)
    | with_reducible exact finishNext_within.of (by decide)
    | with_reducible refine issue_within (by decide) (fun _ => ?_)
    | with_reducible exact lockRequest_within.of (by decide)
    | with_reducible refine Within.bind ?_ fun _ => ?_
    | with_reducible refine Within.onlyIf ?_
    | with_reducible refine Within.each fun _ => ?_
    | with_reducible refine Within.mapEach fun _ => ?_
    | split
    | dsimp only

theorem execHpacq_within {t : Nat} {rd : Nat} {ra : Nat} {rsv : Nat} {s : State} : Effect [.outbox, .mem, .bad, .desk, .regs, .threads, .acts, .ready, .ctxs, .hqueues, .ddrs, .chans, .locks, .sq, .cw, .fc] (execHpacq t rd ra rsv s) s := by
  unfold execHpacq
  refine Within.effect ?_ _
  repeat' first
    | with_reducible exact Within.pure _
    | with_reducible exact Within.rd _
    | with_reducible exact hpacqM_within.of (by decide)
    | with_reducible refine Within.bind ?_ fun _ => ?_
    | with_reducible refine Within.onlyIf ?_
    | with_reducible refine Within.each fun _ => ?_
    | with_reducible refine Within.mapEach fun _ => ?_
    | split
    | dsimp only

theorem execHpacqT_within {t : Nat} {rd : Nat} {ra : Nat} {rsv : Nat} {s : State} : Effect [.outbox, .mem, .bad, .desk, .regs, .threads, .acts, .ready, .ctxs, .hqueues, .ddrs, .chans, .locks, .sq, .cw, .fc] (execHpacqT t rd ra rsv s) s := by
  unfold execHpacqT
  refine Within.effect ?_ _
  repeat' first
    | with_reducible exact Within.pure _
    | with_reducible exact Within.rd _
    | with_reducible exact hpacqM_within.of (by decide)
    | with_reducible refine Within.bind ?_ fun _ => ?_
    | with_reducible refine Within.onlyIf ?_
    | with_reducible refine Within.each fun _ => ?_
    | with_reducible refine Within.mapEach fun _ => ?_
    | split
    | dsimp only

theorem execHpacqE_within {t : Nat} {rd : Nat} {ra : Nat} {rsv : Nat} {s : State} : Effect [.outbox, .mem, .bad, .desk, .regs, .threads, .acts, .ready, .ctxs, .hqueues, .ddrs, .chans, .locks, .sq, .cw, .fc] (execHpacqE t rd ra rsv s) s := by
  unfold execHpacqE
  refine Within.effect ?_ _
  repeat' first
    | with_reducible exact Within.pure _
    | with_reducible exact Within.rd _
    | with_reducible exact hpacqM_within.of (by decide)
    | with_reducible refine Within.bind ?_ fun _ => ?_
    | with_reducible refine Within.onlyIf ?_
    | with_reducible refine Within.each fun _ => ?_
    | with_reducible refine Within.mapEach fun _ => ?_
    | split
    | dsimp only

theorem execHprel_within {t : Nat} {ra : Nat} {rsv : Nat} {s : State} : Effect [.outbox, .mem, .bad, .desk, .regs, .threads, .acts, .ready, .ctxs, .hqueues, .ddrs, .chans, .locks, .sq, .cw, .fc] (execHprel t ra rsv s) s := by
  unfold execHprel
  refine Within.effect ?_ _
  repeat' first
    | with_reducible exact Within.pure _
    | with_reducible exact Within.rd _
    | with_reducible exact finishNext_within.of (by decide)
    | with_reducible refine issueRel_within (by decide) (fun _ => ?_)
    | with_reducible exact lockRelease_within.of (by decide)
    | with_reducible refine Within.bind ?_ fun _ => ?_
    | with_reducible refine Within.onlyIf ?_
    | with_reducible refine Within.each fun _ => ?_
    | with_reducible refine Within.mapEach fun _ => ?_
    | split
    | dsimp only

theorem execLockOrphan_within {l : Nat} {s : State} : Effect [.outbox, .regs, .threads, .locks] (execLockOrphan l s) s := by
  unfold execLockOrphan
  refine Within.effect ?_ _
  repeat' first
    | with_reducible exact Within.pure _
    | with_reducible exact Within.rd _
    | with_reducible exact lockOrphan_within.of (by decide)
    | with_reducible refine Within.bind ?_ fun _ => ?_
    | with_reducible refine Within.onlyIf ?_
    | with_reducible refine Within.each fun _ => ?_
    | with_reducible refine Within.mapEach fun _ => ?_
    | split
    | dsimp only

end Sys2Proof.Machine
end

