-- ==== Sys2Proof/Laws/WithinPortCmd.lean ====
section
/-! SUPPORT. Which parts of the state the programs of Machine/PortCmd.lean change. -/

set_option linter.all false
set_option Elab.async false

namespace Sys2Proof.Machine

theorem execPortCfg_within {c : Cmd} {s : State} : Effect [.outbox, .mem, .bad, .regs, .act, .pendc, .goBy, .ddrs, .locks, .hostq, .ringLinks, .ring, .gb, .boot, .bg] (execPortCfg c s) s := by
  unfold execPortCfg
  refine Within.effect ?_ _
  repeat' first
    | with_reducible exact Within.pure _
    | with_reducible exact Within.rd _
    | with_reducible exact background_within.of (by decide)
    | with_reducible exact background_within.within.of (by decide)
    | with_reducible refine command_within (by decide) ?_
    | with_reducible exact commitGrp_within.of (by decide)
    | with_reducible exact goGrp_within.of (by decide)
    | with_reducible exact liveWrite_within.of (by decide)
    | with_reducible exact reachSafe_within.of (by decide)
    | with_reducible exact shadowWrite_within.of (by decide)
    | with_reducible refine Answers.pure ?_
    | with_reducible refine Answers.bind ?_ fun _ => ?_
    | with_reducible exact Within.afterAns
    | with_reducible exact Within.afterData
    | with_reducible refine Within.bind ?_ fun _ => ?_
    | with_reducible refine Within.onlyIf ?_
    | with_reducible refine Within.each fun _ => ?_
    | with_reducible refine Within.mapEach fun _ => ?_
    | split
    | dsimp only

theorem execPortStatus_within {c : Cmd} {s : State} : Effect [.outbox, .regs, .hostq, .boot] (execPortStatus c s) s := by
  unfold execPortStatus
  refine Within.effect ?_ _
  repeat' first
    | with_reducible exact Within.pure _
    | with_reducible exact Within.rd _
    | with_reducible refine command_within (by decide) ?_
    | with_reducible refine Answers.pure ?_
    | with_reducible refine Answers.bind ?_ fun _ => ?_
    | with_reducible exact Within.afterAns
    | with_reducible exact Within.afterData
    | with_reducible refine Within.bind ?_ fun _ => ?_
    | with_reducible refine Within.onlyIf ?_
    | with_reducible refine Within.each fun _ => ?_
    | with_reducible refine Within.mapEach fun _ => ?_
    | split
    | dsimp only

theorem execStreamOpen_within {c : Cmd} {s : State} : Effect [.free, .outbox, .mem, .bad, .regs, .ddrs, .bufs, .pools, .streams, .ports, .hostq, .gb, .boot, .bg] (execStreamOpen c s) s := by
  unfold execStreamOpen
  refine Within.effect ?_ _
  repeat' first
    | with_reducible exact Within.pure _
    | with_reducible exact Within.rd _
    | (with_reducible refine Within.emit ?_); rfl
    | with_reducible refine command_within (by decide) ?_
    | with_reducible exact gbRecord_within.of (by decide)
    | with_reducible exact sendHello_within.of (by decide)
    | with_reducible exact txFail_within.of (by decide)
    | with_reducible refine Answers.pure ?_
    | with_reducible refine Answers.bind ?_ fun _ => ?_
    | with_reducible exact Within.afterAns
    | with_reducible exact Within.afterData
    | with_reducible refine Within.bind ?_ fun _ => ?_
    | with_reducible refine Within.onlyIf ?_
    | with_reducible refine Within.each fun _ => ?_
    | with_reducible refine Within.mapEach fun _ => ?_
    | split
    | dsimp only

theorem execStreamClose_within {c : Cmd} {s : State} : Effect [.free, .outbox, .mem, .bad, .regs, .ddrs, .bufs, .pools, .streams, .ports, .hostq, .gb, .boot, .bg] (execStreamClose c s) s := by
  unfold execStreamClose
  refine Within.effect ?_ _
  repeat' first
    | with_reducible exact Within.pure _
    | with_reducible exact Within.rd _
    | with_reducible exact background_within.of (by decide)
    | with_reducible exact background_within.within.of (by decide)
    | with_reducible exact closeCheck_within.of (by decide)
    | with_reducible exact closeNow_within.of (by decide)
    | with_reducible refine command_within (by decide) ?_
    | with_reducible exact modStream_within.of (by decide)
    | with_reducible refine Answers.pure ?_
    | with_reducible refine Answers.bind ?_ fun _ => ?_
    | with_reducible exact Within.afterAns
    | with_reducible exact Within.afterData
    | with_reducible refine Within.bind ?_ fun _ => ?_
    | with_reducible refine Within.onlyIf ?_
    | with_reducible refine Within.each fun _ => ?_
    | with_reducible refine Within.mapEach fun _ => ?_
    | split
    | dsimp only

theorem ringStart_within : Within [.regs, .ringLinks, .ring] (ringStart) := by
  unfold ringStart
  repeat' first
    | with_reducible exact Within.pure _
    | with_reducible exact Within.rd _
    | with_reducible exact (modRing_within _).of (by decide)
    | with_reducible exact (modRingLinks_within _ _).of (by decide)
    | with_reducible exact linkFresh_within.of (by decide)
    | with_reducible exact setFld_within.of (by decide)
    | with_reducible refine Within.bind ?_ fun _ => ?_
    | with_reducible refine Within.onlyIf ?_
    | with_reducible refine Within.each fun _ => ?_
    | with_reducible refine Within.mapEach fun _ => ?_
    | split
    | dsimp only

theorem execRingJoin_within {c : Cmd} {s : State} : Effect [.outbox, .mem, .bad, .regs, .act, .pendc, .goBy, .ddrs, .locks, .hostq, .ringLinks, .ring, .gb, .boot, .bg] (execRingJoin c s) s := by
  unfold execRingJoin
  refine Within.effect ?_ _
  repeat' first
    | with_reducible exact Within.pure _
    | with_reducible exact Within.rd _
    | with_reducible exact background_within.of (by decide)
    | with_reducible exact background_within.within.of (by decide)
    | with_reducible refine command_within (by decide) ?_
    | with_reducible exact commitGrp_within.of (by decide)
    | with_reducible exact gbRecord_within.of (by decide)
    | with_reducible exact ringStart_within.of (by decide)
    | with_reducible exact shadowWrite_within.of (by decide)
    | with_reducible refine Answers.pure ?_
    | with_reducible refine Answers.bind ?_ fun _ => ?_
    | with_reducible exact Within.afterAns
    | with_reducible exact Within.afterData
    | with_reducible refine Within.bind ?_ fun _ => ?_
    | with_reducible refine Within.onlyIf ?_
    | with_reducible refine Within.each fun _ => ?_
    | with_reducible refine Within.mapEach fun _ => ?_
    | split
    | dsimp only

theorem execRingJoinComplete_within {s : State} : Effect [.outbox, .regs, .hostq, .bg] (execRingJoinComplete s) s := by
  unfold execRingJoinComplete
  refine Within.effect ?_ _
  repeat' first
    | with_reducible exact Within.pure _
    | with_reducible exact Within.rd _
    | with_reducible exact bgFinish_within.of (by decide)
    | with_reducible refine Within.bind ?_ fun _ => ?_
    | with_reducible refine Within.onlyIf ?_
    | with_reducible refine Within.each fun _ => ?_
    | with_reducible refine Within.mapEach fun _ => ?_
    | split
    | dsimp only

theorem execRingLeave_within {c : Cmd} {s : State} : Effect [.outbox, .regs, .hostq, .ring, .boot, .bg] (execRingLeave c s) s := by
  unfold execRingLeave
  refine Within.effect ?_ _
  repeat' first
    | with_reducible exact Within.pure _
    | with_reducible exact Within.rd _
    | with_reducible exact (modRing_within _).of (by decide)
    | with_reducible exact background_within.of (by decide)
    | with_reducible exact background_within.within.of (by decide)
    | with_reducible refine command_within (by decide) ?_
    | with_reducible refine Answers.pure ?_
    | with_reducible refine Answers.bind ?_ fun _ => ?_
    | with_reducible exact Within.afterAns
    | with_reducible exact Within.afterData
    | with_reducible refine Within.bind ?_ fun _ => ?_
    | with_reducible refine Within.onlyIf ?_
    | with_reducible refine Within.each fun _ => ?_
    | with_reducible refine Within.mapEach fun _ => ?_
    | split
    | dsimp only

theorem sayLeaving_within {l : Nat} : Within [.outbox, .regs, .ringLinks] (sayLeaving l) := by
  unfold sayLeaving
  repeat' first
    | with_reducible exact Within.pure _
    | with_reducible exact Within.rd _
    | with_reducible exact ringEmit_within.of (by decide)
    | with_reducible refine Within.bind ?_ fun _ => ?_
    | with_reducible refine Within.onlyIf ?_
    | with_reducible refine Within.each fun _ => ?_
    | with_reducible refine Within.mapEach fun _ => ?_
    | split
    | dsimp only

theorem execRingLeaveComplete_within {s : State} : Effect [.outbox, .mem, .bad, .regs, .ddrs, .hostq, .ringLinks, .ring, .gb, .bg] (execRingLeaveComplete s) s := by
  unfold execRingLeaveComplete
  refine Within.effect ?_ _
  repeat' first
    | with_reducible exact Within.pure _
    | with_reducible exact Within.rd _
    | with_reducible exact bgEnd_within.of (by decide)
    | with_reducible exact gbRecord_within.of (by decide)
    | with_reducible exact linkFresh_within.of (by decide)
    | with_reducible refine ringTrack_within (by decide) ?_
    | with_reducible exact sayLeaving_within.of (by decide)
    | with_reducible exact setFld_within.of (by decide)
    | with_reducible refine Within.bind ?_ fun _ => ?_
    | with_reducible refine Within.onlyIf ?_
    | with_reducible refine Within.each fun _ => ?_
    | with_reducible refine Within.mapEach fun _ => ?_
    | split
    | dsimp only

theorem execRingStatus_within {c : Cmd} {s : State} : Effect [.outbox, .regs, .hostq, .boot] (execRingStatus c s) s := by
  unfold execRingStatus
  refine Within.effect ?_ _
  repeat' first
    | with_reducible exact Within.pure _
    | with_reducible exact Within.rd _
    | with_reducible refine command_within (by decide) ?_
    | with_reducible refine Answers.pure ?_
    | with_reducible refine Answers.bind ?_ fun _ => ?_
    | with_reducible exact Within.afterAns
    | with_reducible exact Within.afterData
    | with_reducible refine Within.bind ?_ fun _ => ?_
    | with_reducible refine Within.onlyIf ?_
    | with_reducible refine Within.each fun _ => ?_
    | with_reducible refine Within.mapEach fun _ => ?_
    | split
    | dsimp only

end Sys2Proof.Machine
end

