-- ==== Sys2Proof/Laws/WithinThreads.lean ====
section
/-! SUPPORT. Which parts of the state the programs of Machine/Threads.lean change. -/

set_option linter.all false
set_option Elab.async false

namespace Sys2Proof.Machine

theorem execThreadFault_within {t : Nat} {cause : Nat} {s : State} : Effect [.outbox, .mem, .bad, .desk, .regs, .threads, .acts, .ready, .ctxs, .hqueues, .ddrs, .chans, .locks, .sq, .cw, .fc] (execThreadFault t cause s) s := by
  unfold execThreadFault
  refine Within.effect ?_ _
  repeat' first
    | with_reducible exact Within.pure _
    | with_reducible exact Within.rd _
    | with_reducible exact threadFault_within.of (by decide)
    | with_reducible refine Within.bind ?_ fun _ => ?_
    | with_reducible refine Within.onlyIf ?_
    | with_reducible refine Within.each fun _ => ?_
    | with_reducible refine Within.mapEach fun _ => ?_
    | split
    | dsimp only

theorem execSeatLimit_within {t : Nat} {s : State} : Effect [.outbox, .mem, .bad, .desk, .regs, .threads, .acts, .ready, .ctxs, .hqueues, .ddrs, .chans, .locks, .sq, .cw, .fc] (execSeatLimit t s) s := by
  unfold execSeatLimit
  refine Within.effect ?_ _
  repeat' first
    | with_reducible exact Within.pure _
    | with_reducible exact Within.rd _
    | with_reducible exact threadFault_within.of (by decide)
    | with_reducible refine Within.bind ?_ fun _ => ?_
    | with_reducible refine Within.onlyIf ?_
    | with_reducible refine Within.each fun _ => ?_
    | with_reducible refine Within.mapEach fun _ => ?_
    | split
    | dsimp only

theorem thctl_within {o : Who} {k : Nat} {thr : Nat} {action : Nat} : Within [.mem, .bad, .regs, .threads, .acts, .ready, .delay, .ctxs, .hqueues, .ddrs, .chans, .locks, .sq, .rc, .cw] (thctl o k thr action) := by
  unfold thctl
  repeat' first
    | with_reducible exact Within.pure _
    | with_reducible exact Within.rd _
    | with_reducible refine access_within (by decide) ?_
    | with_reducible exact threadAction_within.of (by decide)
    | with_reducible refine Within.bind ?_ fun _ => ?_
    | with_reducible refine Within.onlyIf ?_
    | with_reducible refine Within.each fun _ => ?_
    | with_reducible refine Within.mapEach fun _ => ?_
    | split
    | dsimp only

theorem execThreadRelease_within {o : Who} {k : Nat} {thr : Nat} {s : State} : Effect [.mem, .bad, .regs, .threads, .acts, .ready, .delay, .ctxs, .hqueues, .ddrs, .chans, .locks, .sq, .rc, .cw] (execThreadRelease o k thr s) s := by
  unfold execThreadRelease
  refine Within.effect ?_ _
  repeat' first
    | with_reducible exact Within.pure _
    | with_reducible exact Within.rd _
    | with_reducible exact thctl_within.of (by decide)
    | with_reducible refine Within.bind ?_ fun _ => ?_
    | with_reducible refine Within.onlyIf ?_
    | with_reducible refine Within.each fun _ => ?_
    | with_reducible refine Within.mapEach fun _ => ?_
    | split
    | dsimp only

theorem execThreadDrop_within {o : Who} {k : Nat} {thr : Nat} {s : State} : Effect [.mem, .bad, .regs, .threads, .acts, .ready, .delay, .ctxs, .hqueues, .ddrs, .chans, .locks, .sq, .rc, .cw] (execThreadDrop o k thr s) s := by
  unfold execThreadDrop
  refine Within.effect ?_ _
  repeat' first
    | with_reducible exact Within.pure _
    | with_reducible exact Within.rd _
    | with_reducible exact thctl_within.of (by decide)
    | with_reducible refine Within.bind ?_ fun _ => ?_
    | with_reducible refine Within.onlyIf ?_
    | with_reducible refine Within.each fun _ => ?_
    | with_reducible refine Within.mapEach fun _ => ?_
    | split
    | dsimp only

theorem execThreadReset_within {o : Who} {k : Nat} {thr : Nat} {s : State} : Effect [.mem, .bad, .regs, .threads, .acts, .ready, .delay, .ctxs, .hqueues, .ddrs, .chans, .locks, .sq, .rc, .cw] (execThreadReset o k thr s) s := by
  unfold execThreadReset
  refine Within.effect ?_ _
  repeat' first
    | with_reducible exact Within.pure _
    | with_reducible exact Within.rd _
    | with_reducible exact thctl_within.of (by decide)
    | with_reducible refine Within.bind ?_ fun _ => ?_
    | with_reducible refine Within.onlyIf ?_
    | with_reducible refine Within.each fun _ => ?_
    | with_reducible refine Within.mapEach fun _ => ?_
    | split
    | dsimp only

theorem execThreadStalemate_within {k : Nat} {s : State} : Effect [.desk, .regs, .threads] (execThreadStalemate k s) s := by
  unfold execThreadStalemate
  refine Within.effect ?_ _
  repeat' first
    | with_reducible exact Within.pure _
    | with_reducible exact Within.rd _
    | with_reducible exact notify_within.of (by decide)
    | with_reducible exact setFld_within.of (by decide)
    | with_reducible refine Within.bind ?_ fun _ => ?_
    | with_reducible refine Within.onlyIf ?_
    | with_reducible refine Within.each fun _ => ?_
    | with_reducible refine Within.mapEach fun _ => ?_
    | split
    | dsimp only

theorem haltThread_within {t : Nat} {forced : Bool} : Within [.mem, .bad, .regs, .threads, .acts, .ready, .ctxs, .hqueues, .ddrs, .locks, .sq, .cw] (haltThread t forced) := by
  unfold haltThread
  repeat' first
    | with_reducible exact Within.pure _
    | with_reducible exact Within.rd _
    | with_reducible exact (modThreads_within _ _).of (by decide)
    | with_reducible exact breakStall_within.of (by decide)
    | with_reducible exact withdrawHelper_within.of (by decide)
    | with_reducible exact withdrawPreempt_within.of (by decide)
    | with_reducible refine Within.bind ?_ fun _ => ?_
    | with_reducible refine Within.onlyIf ?_
    | with_reducible refine Within.each fun _ => ?_
    | with_reducible refine Within.mapEach fun _ => ?_
    | split
    | dsimp only

theorem haltRequest_within {t : Nat} : Within [.mem, .bad, .regs, .threads, .acts, .ready, .ctxs, .hqueues, .ddrs, .locks, .sq, .cw] (haltRequest t) := by
  unfold haltRequest
  repeat' first
    | with_reducible exact Within.pure _
    | with_reducible exact Within.rd _
    | with_reducible exact (modThreads_within _ _).of (by decide)
    | with_reducible exact haltThread_within.of (by decide)
    | with_reducible exact withdrawPreempt_within.of (by decide)
    | with_reducible refine Within.bind ?_ fun _ => ?_
    | with_reducible refine Within.onlyIf ?_
    | with_reducible refine Within.each fun _ => ?_
    | with_reducible refine Within.mapEach fun _ => ?_
    | split
    | dsimp only

theorem execHaltForced_within {t : Nat} {s : State} : Effect [.mem, .bad, .regs, .threads, .acts, .ready, .ctxs, .hqueues, .ddrs, .chans, .locks, .sq, .cw] (execHaltForced t s) s := by
  unfold execHaltForced
  refine Within.effect ?_ _
  repeat' first
    | with_reducible exact Within.pure _
    | with_reducible exact Within.rd _
    | with_reducible exact (modThreads_within _ _).of (by decide)
    | with_reducible exact chAbort_within.of (by decide)
    | with_reducible exact count_within.of (by decide)
    | with_reducible exact haltThread_within.of (by decide)
    | with_reducible refine Within.bind ?_ fun _ => ?_
    | with_reducible refine Within.onlyIf ?_
    | with_reducible refine Within.each fun _ => ?_
    | with_reducible refine Within.mapEach fun _ => ?_
    | split
    | dsimp only

theorem resumeThread_within {t : Nat} : Within [.threads] (resumeThread t) := by
  unfold resumeThread
  repeat' first
    | with_reducible exact Within.pure _
    | with_reducible exact Within.rd _
    | with_reducible exact (modThreads_within _ _).of (by decide)
    | with_reducible exact setFlag_within.of (by decide)
    | with_reducible refine Within.bind ?_ fun _ => ?_
    | with_reducible refine Within.onlyIf ?_
    | with_reducible refine Within.each fun _ => ?_
    | with_reducible refine Within.mapEach fun _ => ?_
    | split
    | dsimp only

theorem stepThread_within {t : Nat} : Within [.threads] (stepThread t) := by
  unfold stepThread
  repeat' first
    | with_reducible exact Within.pure _
    | with_reducible exact Within.rd _
    | with_reducible exact (modThreads_within _ _).of (by decide)
    | with_reducible refine Within.bind ?_ fun _ => ?_
    | with_reducible refine Within.onlyIf ?_
    | with_reducible refine Within.each fun _ => ?_
    | with_reducible refine Within.mapEach fun _ => ?_
    | split
    | dsimp only

theorem wakeFor_within {off : Nat} : Within [.regs] (wakeFor off) := by
  unfold wakeFor
  repeat' first
    | with_reducible exact Within.pure _
    | with_reducible exact Within.rd _
    | with_reducible exact wakeStreet_within.of (by decide)
    | with_reducible refine Within.bind ?_ fun _ => ?_
    | with_reducible refine Within.onlyIf ?_
    | with_reducible refine Within.each fun _ => ?_
    | with_reducible refine Within.mapEach fun _ => ?_
    | split
    | dsimp only

theorem dbgCtl_within {o : Who} {k : Nat} {v : Word} {p : M Unit} {qs : List StatePart} (hs : [.outbox, .mem, .bad, .regs, .ddrs, .gb].all qs.contains = true) (h0 : Within qs (p)) : Within qs (dbgCtl o k v p) := by
  unfold dbgCtl
  repeat' first
    | with_reducible exact Within.pure _
    | with_reducible exact Within.rd _
    | with_reducible exact h0
    | with_reducible refine access_within (parts_trans (by decide) hs) ?_
    | with_reducible exact regRecord_within.of (parts_trans (by decide) hs)
    | with_reducible exact wakeStreet_within.of (parts_trans (by decide) hs)
    | with_reducible refine Within.bind ?_ fun _ => ?_
    | with_reducible refine Within.onlyIf ?_
    | with_reducible refine Within.each fun _ => ?_
    | with_reducible refine Within.mapEach fun _ => ?_
    | split
    | dsimp only

theorem execDebugHalt_within {o : Who} {k : Nat} {mask : Nat} {s : State} : Effect [.outbox, .mem, .bad, .regs, .threads, .acts, .ready, .ctxs, .hqueues, .ddrs, .locks, .sq, .cw, .gb] (execDebugHalt o k mask s) s := by
  unfold execDebugHalt
  refine Within.effect ?_ _
  repeat' first
    | with_reducible exact Within.pure _
    | with_reducible exact Within.rd _
    | with_reducible refine dbgCtl_within (by decide) ?_
    | with_reducible exact haltRequest_within.of (by decide)
    | with_reducible refine Within.bind ?_ fun _ => ?_
    | with_reducible refine Within.onlyIf ?_
    | with_reducible refine Within.each fun _ => ?_
    | with_reducible refine Within.mapEach fun _ => ?_
    | split
    | dsimp only

theorem execDebugResume_within {o : Who} {k : Nat} {mask : Nat} {s : State} : Effect [.outbox, .mem, .bad, .regs, .threads, .ddrs, .gb] (execDebugResume o k mask s) s := by
  unfold execDebugResume
  refine Within.effect ?_ _
  repeat' first
    | with_reducible exact Within.pure _
    | with_reducible exact Within.rd _
    | with_reducible refine dbgCtl_within (by decide) ?_
    | with_reducible exact resumeThread_within.of (by decide)
    | with_reducible refine Within.bind ?_ fun _ => ?_
    | with_reducible refine Within.onlyIf ?_
    | with_reducible refine Within.each fun _ => ?_
    | with_reducible refine Within.mapEach fun _ => ?_
    | split
    | dsimp only

theorem execDebugStep_within {o : Who} {k : Nat} {mask : Nat} {s : State} : Effect [.outbox, .mem, .bad, .regs, .threads, .ddrs, .gb] (execDebugStep o k mask s) s := by
  unfold execDebugStep
  refine Within.effect ?_ _
  repeat' first
    | with_reducible exact Within.pure _
    | with_reducible exact Within.rd _
    | with_reducible refine dbgCtl_within (by decide) ?_
    | with_reducible exact stepThread_within.of (by decide)
    | with_reducible refine Within.bind ?_ fun _ => ?_
    | with_reducible refine Within.onlyIf ?_
    | with_reducible refine Within.each fun _ => ?_
    | with_reducible refine Within.mapEach fun _ => ?_
    | split
    | dsimp only

theorem dbgDataWrite_within {o : Who} {k : Nat} {en : Nat} {v : Word} : Within [.outbox, .mem, .bad, .regs, .threads, .ddrs, .gb] (dbgDataWrite o k en v) := by
  unfold dbgDataWrite
  repeat' first
    | with_reducible exact Within.pure _
    | with_reducible exact Within.rd _
    | with_reducible exact (modThreads_within _ _).of (by decide)
    | with_reducible refine access_within (by decide) ?_
    | with_reducible exact regRecord_within.of (by decide)
    | with_reducible exact wakeStreet_within.of (by decide)
    | with_reducible refine Within.bind ?_ fun _ => ?_
    | with_reducible refine Within.onlyIf ?_
    | with_reducible refine Within.each fun _ => ?_
    | with_reducible refine Within.mapEach fun _ => ?_
    | split
    | dsimp only

theorem execDbgDataWrite_within {o : Who} {k : Nat} {en : Nat} {v : Word} {s : State} : Effect [.outbox, .mem, .bad, .regs, .threads, .ddrs, .gb] (execDbgDataWrite o k en v s) s := by
  unfold execDbgDataWrite
  refine Within.effect ?_ _
  repeat' first
    | with_reducible exact Within.pure _
    | with_reducible exact Within.rd _
    | with_reducible exact dbgDataWrite_within.of (by decide)
    | with_reducible refine Within.bind ?_ fun _ => ?_
    | with_reducible refine Within.onlyIf ?_
    | with_reducible refine Within.each fun _ => ?_
    | with_reducible refine Within.mapEach fun _ => ?_
    | split
    | dsimp only

theorem dbgReadRecord_within {o : Who} {k : Nat} : Within [.outbox, .mem, .bad, .regs, .ddrs, .gb] (dbgReadRecord o k) := by
  unfold dbgReadRecord
  repeat' first
    | with_reducible exact Within.pure _
    | with_reducible exact Within.rd _
    | with_reducible exact gbRecord_within.of (by decide)
    | with_reducible refine Within.bind ?_ fun _ => ?_
    | with_reducible refine Within.onlyIf ?_
    | with_reducible refine Within.each fun _ => ?_
    | with_reducible refine Within.mapEach fun _ => ?_
    | split
    | dsimp only

theorem execDbgDataRead_within {o : Who} {k : Nat} {s : State} : Effect [.outbox, .mem, .bad, .regs, .ddrs, .gb] (execDbgDataRead o k s) s := by
  unfold execDbgDataRead
  refine Within.effect ?_ _
  repeat' first
    | with_reducible exact Within.pure _
    | with_reducible exact Within.rd _
    | with_reducible refine access_within (by decide) ?_
    | with_reducible exact dbgReadRecord_within.of (by decide)
    | with_reducible exact send_within.of (by decide)
    | with_reducible exact wakeStreet_within.of (by decide)
    | with_reducible refine Within.bind ?_ fun _ => ?_
    | with_reducible refine Within.onlyIf ?_
    | with_reducible refine Within.each fun _ => ?_
    | with_reducible refine Within.mapEach fun _ => ?_
    | split
    | dsimp only

end Sys2Proof.Machine
end

