-- ==== Sys2Proof/Laws/WithinRegWrite.lean ====
section
/-! SUPPORT. Which parts of the state the programs of Machine/RegWrite.lean change. -/

set_option linter.all false
set_option Elab.async false

namespace Sys2Proof.Machine

theorem writeRecords_within {r : RegRow} {org : Origin} {off : Nat} {en : Nat} {stage : Bool} {old : Word} {new : Word} : Within [.outbox, .mem, .bad, .regs, .ddrs, .gb] (writeRecords r org off en stage old new) := by
  unfold writeRecords
  repeat' first
    | with_reducible exact Within.pure _
    | with_reducible exact Within.rd _
    | with_reducible exact regRecord_within.of (by decide)
    | with_reducible refine Within.bind ?_ fun _ => ?_
    | with_reducible refine Within.onlyIf ?_
    | with_reducible refine Within.each fun _ => ?_
    | with_reducible refine Within.mapEach fun _ => ?_
    | split
    | dsimp only

theorem gbMoved_within {was : Nat} : Within [.outbox, .mem, .bad, .regs, .ddrs, .ringLinks, .ring, .gb] (gbMoved was) := by
  unfold gbMoved
  repeat' first
    | with_reducible exact Within.pure _
    | with_reducible exact Within.rd _
    | with_reducible exact (modGb_within _).of (by decide)
    | with_reducible exact gbStore_within.of (by decide)
    | with_reducible exact ringStart_within.of (by decide)
    | with_reducible exact sticky_within.of (by decide)
    | with_reducible refine Within.bind ?_ fun _ => ?_
    | with_reducible refine Within.onlyIf ?_
    | with_reducible refine Within.each fun _ => ?_
    | with_reducible refine Within.mapEach fun _ => ?_
    | split
    | dsimp only

theorem afterWrite_within {base : Nat} {i : Nat} {changed : Bool} {gbWas : Nat} : Within [.free, .outbox, .mem, .bad, .desk, .regs, .ddrs, .hostq, .ringLinks, .ring, .gb] (afterWrite base i changed gbWas) := by
  unfold afterWrite
  repeat' first
    | with_reducible exact Within.pure _
    | with_reducible exact Within.rd _
    | with_reducible exact (modRegs_within _ _).of (by decide)
    | with_reducible exact gbMoved_within.of (by decide)
    | with_reducible exact mlogAdvanced_within.of (by decide)
    | with_reducible exact qFreed_within.of (by decide)
    | with_reducible exact queueFull_within.of (by decide)
    | with_reducible exact reserveFlags_within.of (by decide)
    | with_reducible exact rungSet_within.of (by decide)
    | with_reducible refine Within.bind ?_ fun _ => ?_
    | with_reducible refine Within.onlyIf ?_
    | with_reducible refine Within.each fun _ => ?_
    | with_reducible refine Within.mapEach fun _ => ?_
    | split
    | dsimp only

theorem storeWord_within {org : Origin} {off : Nat} {en : Nat} {v : Word} : Within [.free, .outbox, .mem, .bad, .desk, .regs, .ddrs, .hostq, .ringLinks, .ring, .gb] (storeWord org off en v) := by
  unfold storeWord
  repeat' first
    | with_reducible exact Within.pure _
    | with_reducible exact Within.rd _
    | (with_reducible refine Within.emit ?_); rfl
    | with_reducible exact afterWrite_within.of (by decide)
    | with_reducible refine gbTrack_within (by decide) ?_
    | with_reducible exact writeRecords_within.of (by decide)
    | with_reducible refine Within.bind ?_ fun _ => ?_
    | with_reducible refine Within.onlyIf ?_
    | with_reducible refine Within.each fun _ => ?_
    | with_reducible refine Within.mapEach fun _ => ?_
    | split
    | dsimp only

theorem portWrite_within {org : Origin} {off : Nat} {n : Nat} {p : Nat} {en : Nat} {v : Word} : Within [.free, .outbox, .mem, .bad, .desk, .regs, .ddrs, .hostq, .ringLinks, .ring, .gb] (portWrite org off n p en v) := by
  unfold portWrite
  repeat' first
    | with_reducible exact Within.pure _
    | with_reducible exact Within.rd _
    | with_reducible exact portOverrun_within.of (by decide)
    | with_reducible exact storeWord_within.of (by decide)
    | with_reducible refine Within.bind ?_ fun _ => ?_
    | with_reducible refine Within.onlyIf ?_
    | with_reducible refine Within.each fun _ => ?_
    | with_reducible refine Within.mapEach fun _ => ?_
    | split
    | dsimp only

theorem commitWrite_within {org : Origin} {off : Nat} {w : Word} : Within [.regs, .pendc, .goBy] (commitWrite org off w) := by
  unfold commitWrite
  repeat' first
    | with_reducible exact Within.pure _
    | with_reducible exact Within.rd _
    | with_reducible exact goGrp_within.of (by decide)
    | with_reducible refine Within.bind ?_ fun _ => ?_
    | with_reducible refine Within.onlyIf ?_
    | with_reducible refine Within.each fun _ => ?_
    | with_reducible refine Within.mapEach fun _ => ?_
    | split
    | dsimp only

theorem qCtlWrite_within {o : Who} {org : Origin} {k : Nat} {off : Nat} {en : Nat} {w : Word} : Within [.outbox, .mem, .bad, .regs, .pendc, .goBy, .ddrs, .hostq, .gb, .bg] (qCtlWrite o org k off en w) := by
  unfold qCtlWrite
  repeat' first
    | with_reducible exact Within.pure _
    | with_reducible exact Within.rd _
    | with_reducible exact commitWrite_within.of (by decide)
    | with_reducible exact queueEn_within.of (by decide)
    | with_reducible refine Within.bind ?_ fun _ => ?_
    | with_reducible refine Within.onlyIf ?_
    | with_reducible refine Within.each fun _ => ?_
    | with_reducible refine Within.mapEach fun _ => ?_
    | split
    | dsimp only

theorem loadCtl_within {org : Origin} {en : Nat} {v : Word} : Within [.free, .outbox, .mem, .bad, .desk, .regs, .ddrs, .hostq, .ringLinks, .ring, .gb] (loadCtl org en v) := by
  unfold loadCtl
  repeat' first
    | with_reducible exact Within.pure _
    | with_reducible exact Within.rd _
    | with_reducible exact setFld_within.of (by decide)
    | with_reducible exact storeWord_within.of (by decide)
    | with_reducible refine Within.bind ?_ fun _ => ?_
    | with_reducible refine Within.onlyIf ?_
    | with_reducible refine Within.each fun _ => ?_
    | with_reducible refine Within.mapEach fun _ => ?_
    | split
    | dsimp only

theorem actWrites_within {a : Nat × (Who → Origin → List Nat → Nat → Nat → Word → M Unit)} (h : a ∈ actWrites)
    {o : Who} {g : Origin} {is : List Nat} {off en : Nat} {v : Word} : Within [.free, .outbox, .mem, .bad, .desk, .regs, .pendc, .goBy, .threads, .acts, .ready, .delay, .ctxs, .hqueues, .engines, .ddrs, .chans, .locks, .ports, .hostq, .ringLinks, .sq, .rc, .cw, .ring, .gb, .fc, .tb, .boot, .bg] (a.2 o g is off en v) := by
  simp only [actWrites, List.mem_cons, List.not_mem_nil, or_false] at h
  rcases h with rfl | rfl | rfl | rfl | rfl | rfl | rfl | rfl | rfl | rfl | rfl | rfl | rfl | rfl | rfl
  all_goals dsimp only
  all_goals
  repeat' first
    | with_reducible exact Within.pure _
    | with_reducible exact Within.rd _
    | with_reducible refine dbgCtl_within (by decide) ?_
    | with_reducible exact dbgDataWrite_within.of (by decide)
    | with_reducible exact fcAck_within.of (by decide)
    | with_reducible exact haltRequest_within.of (by decide)
    | with_reducible exact loadCtl_within.of (by decide)
    | with_reducible exact portStart_within.of (by decide)
    | with_reducible exact portWrite_within.of (by decide)
    | with_reducible exact qCtlWrite_within.of (by decide)
    | with_reducible exact resumeThread_within.of (by decide)
    | with_reducible exact srAlive_within.of (by decide)
    | with_reducible exact stepThread_within.of (by decide)
    | with_reducible exact tbRate_within.of (by decide)
    | with_reducible exact tbSet_within.of (by decide)
    | with_reducible exact tbStep_within.of (by decide)
    | with_reducible exact threadAction_within.of (by decide)
    | with_reducible exact txtsPop_within.of (by decide)
    | with_reducible refine Within.bind ?_ fun _ => ?_
    | with_reducible refine Within.onlyIf ?_
    | with_reducible refine Within.each fun _ => ?_
    | with_reducible refine Within.mapEach fun _ => ?_
    | split
    | dsimp only

theorem msixWrite_within {off : Nat} {en : Nat} {v : Word} : Within [.outbox, .regs, .msix] (msixWrite off en v) := by
  unfold msixWrite
  repeat' first
    | with_reducible exact Within.pure _
    | with_reducible exact Within.rd _
    | with_reducible exact (modMsix_within _ _).of (by decide)
    | with_reducible exact (modRegs_within _ _).of (by decide)
    | with_reducible exact send_within.of (by decide)
    | with_reducible refine Within.bind ?_ fun _ => ?_
    | with_reducible refine Within.onlyIf ?_
    | with_reducible refine Within.each fun _ => ?_
    | with_reducible refine Within.mapEach fun _ => ?_
    | split
    | dsimp only

theorem regWrite_within {o : Who} {off : Nat} {en : Nat} {v : Word} : Within [.free, .outbox, .mem, .bad, .desk, .regs, .pendc, .goBy, .msix, .threads, .acts, .ready, .delay, .ctxs, .hqueues, .engines, .ddrs, .chans, .locks, .ports, .hostq, .ringLinks, .sq, .rc, .cw, .ring, .gb, .fc, .tb, .boot, .bg] (regWrite o off en v) := by
  unfold regWrite
  repeat' first
    | with_reducible exact Within.pure _
    | with_reducible exact Within.rd _
    | with_reducible exact (actWrites_within (List.mem_of_find?_eq_some (by assumption))).of (by decide)
    | with_reducible exact commitWrite_within.of (by decide)
    | with_reducible exact msixWrite_within.of (by decide)
    | with_reducible exact storeWord_within.of (by decide)
    | with_reducible exact wakeFor_within.of (by decide)
    | with_reducible refine Within.bind ?_ fun _ => ?_
    | with_reducible refine Within.onlyIf ?_
    | with_reducible refine Within.each fun _ => ?_
    | with_reducible refine Within.mapEach fun _ => ?_
    | split
    | dsimp only

theorem loadWinWrite_within {off : Nat} {en : Nat} {v : Word} : Within [.mem] (loadWinWrite off en v) := by
  unfold loadWinWrite
  repeat' first
    | with_reducible exact Within.pure _
    | with_reducible exact Within.rd _
    | (with_reducible refine Within.emit ?_); rfl
    | with_reducible refine Within.bind ?_ fun _ => ?_
    | with_reducible refine Within.onlyIf ?_
    | with_reducible refine Within.each fun _ => ?_
    | with_reducible refine Within.mapEach fun _ => ?_
    | split
    | dsimp only

theorem regWriteBy_within {o : Who} {off : Nat} {en : Nat} {v : Word} : Within [.free, .outbox, .mem, .bad, .desk, .regs, .pendc, .goBy, .msix, .threads, .acts, .ready, .delay, .ctxs, .hqueues, .engines, .ddrs, .chans, .locks, .ports, .hostq, .ringLinks, .sq, .rc, .cw, .ring, .gb, .fc, .tb, .boot, .bg] (regWriteBy o off en v) := by
  unfold regWriteBy
  repeat' first
    | with_reducible exact Within.pure _
    | with_reducible exact Within.rd _
    | with_reducible refine access_within (by decide) ?_
    | with_reducible exact loadWinWrite_within.of (by decide)
    | with_reducible exact regWrite_within.of (by decide)
    | with_reducible refine Within.bind ?_ fun _ => ?_
    | with_reducible refine Within.onlyIf ?_
    | with_reducible refine Within.each fun _ => ?_
    | with_reducible refine Within.mapEach fun _ => ?_
    | split
    | dsimp only

theorem execRegisterWrite_within {o : Who} {off : Nat} {en : Nat} {v : Word} {s : State} : Effect [.free, .outbox, .mem, .bad, .desk, .regs, .pendc, .goBy, .msix, .threads, .acts, .ready, .delay, .ctxs, .hqueues, .engines, .ddrs, .chans, .locks, .ports, .hostq, .ringLinks, .sq, .rc, .cw, .ring, .gb, .fc, .tb, .boot, .bg] (execRegisterWrite o off en v s) s := by
  unfold execRegisterWrite
  refine Within.effect ?_ _
  repeat' first
    | with_reducible exact Within.pure _
    | with_reducible exact Within.rd _
    | with_reducible exact regWriteBy_within.of (by decide)
    | with_reducible refine Within.bind ?_ fun _ => ?_
    | with_reducible refine Within.onlyIf ?_
    | with_reducible refine Within.each fun _ => ?_
    | with_reducible refine Within.mapEach fun _ => ?_
    | split
    | dsimp only

theorem execCommitGo_within {o : Who} {off : Nat} {en : Nat} {v : Word} {s : State} : Effect [.free, .outbox, .mem, .bad, .desk, .regs, .pendc, .goBy, .msix, .threads, .acts, .ready, .delay, .ctxs, .hqueues, .engines, .ddrs, .chans, .locks, .ports, .hostq, .ringLinks, .sq, .rc, .cw, .ring, .gb, .fc, .tb, .boot, .bg] (execCommitGo o off en v s) s := by
  unfold execCommitGo
  refine Within.effect ?_ _
  repeat' first
    | with_reducible exact Within.pure _
    | with_reducible exact Within.rd _
    | with_reducible exact regWriteBy_within.of (by decide)
    | with_reducible refine Within.bind ?_ fun _ => ?_
    | with_reducible refine Within.onlyIf ?_
    | with_reducible refine Within.each fun _ => ?_
    | with_reducible refine Within.mapEach fun _ => ?_
    | split
    | dsimp only

theorem execLoadGo_within {o : Who} {en : Nat} {v : Word} {s : State} : Effect [.free, .outbox, .mem, .bad, .desk, .regs, .pendc, .goBy, .msix, .threads, .acts, .ready, .delay, .ctxs, .hqueues, .engines, .ddrs, .chans, .locks, .ports, .hostq, .ringLinks, .sq, .rc, .cw, .ring, .gb, .fc, .tb, .boot, .bg] (execLoadGo o en v s) s := by
  unfold execLoadGo
  refine Within.effect ?_ _
  repeat' first
    | with_reducible exact Within.pure _
    | with_reducible exact Within.rd _
    | with_reducible exact regWriteBy_within.of (by decide)
    | with_reducible refine Within.bind ?_ fun _ => ?_
    | with_reducible refine Within.onlyIf ?_
    | with_reducible refine Within.each fun _ => ?_
    | with_reducible refine Within.mapEach fun _ => ?_
    | split
    | dsimp only

theorem teCmd_within {o : Who} {n : Nat} {p : Nat} {op : Nat} {table : Nat} : Within [.free, .outbox, .mem, .bad, .desk, .regs, .pendc, .goBy, .msix, .threads, .acts, .ready, .delay, .ctxs, .hqueues, .engines, .ddrs, .chans, .locks, .ports, .hostq, .ringLinks, .sq, .rc, .cw, .ring, .gb, .fc, .tb, .boot, .bg] (teCmd o n p op table) := by
  unfold teCmd
  repeat' first
    | with_reducible exact Within.pure _
    | with_reducible exact Within.rd _
    | with_reducible exact regWriteBy_within.of (by decide)
    | with_reducible refine Within.bind ?_ fun _ => ?_
    | with_reducible refine Within.onlyIf ?_
    | with_reducible refine Within.each fun _ => ?_
    | with_reducible refine Within.mapEach fun _ => ?_
    | split
    | dsimp only

theorem execTeCmdRead_within {o : Who} {n : Nat} {p : Nat} {table : Nat} {s : State} : Effect [.free, .outbox, .mem, .bad, .desk, .regs, .pendc, .goBy, .msix, .threads, .acts, .ready, .delay, .ctxs, .hqueues, .engines, .ddrs, .chans, .locks, .ports, .hostq, .ringLinks, .sq, .rc, .cw, .ring, .gb, .fc, .tb, .boot, .bg] (execTeCmdRead o n p table s) s := by
  unfold execTeCmdRead
  refine Within.effect ?_ _
  repeat' first
    | with_reducible exact Within.pure _
    | with_reducible exact Within.rd _
    | with_reducible exact teCmd_within.of (by decide)
    | with_reducible refine Within.bind ?_ fun _ => ?_
    | with_reducible refine Within.onlyIf ?_
    | with_reducible refine Within.each fun _ => ?_
    | with_reducible refine Within.mapEach fun _ => ?_
    | split
    | dsimp only

theorem execTeCmdInsert_within {o : Who} {n : Nat} {p : Nat} {table : Nat} {s : State} : Effect [.free, .outbox, .mem, .bad, .desk, .regs, .pendc, .goBy, .msix, .threads, .acts, .ready, .delay, .ctxs, .hqueues, .engines, .ddrs, .chans, .locks, .ports, .hostq, .ringLinks, .sq, .rc, .cw, .ring, .gb, .fc, .tb, .boot, .bg] (execTeCmdInsert o n p table s) s := by
  unfold execTeCmdInsert
  refine Within.effect ?_ _
  repeat' first
    | with_reducible exact Within.pure _
    | with_reducible exact Within.rd _
    | with_reducible exact teCmd_within.of (by decide)
    | with_reducible refine Within.bind ?_ fun _ => ?_
    | with_reducible refine Within.onlyIf ?_
    | with_reducible refine Within.each fun _ => ?_
    | with_reducible refine Within.mapEach fun _ => ?_
    | split
    | dsimp only

theorem execTeCmdUpdate_within {o : Who} {n : Nat} {p : Nat} {table : Nat} {s : State} : Effect [.free, .outbox, .mem, .bad, .desk, .regs, .pendc, .goBy, .msix, .threads, .acts, .ready, .delay, .ctxs, .hqueues, .engines, .ddrs, .chans, .locks, .ports, .hostq, .ringLinks, .sq, .rc, .cw, .ring, .gb, .fc, .tb, .boot, .bg] (execTeCmdUpdate o n p table s) s := by
  unfold execTeCmdUpdate
  refine Within.effect ?_ _
  repeat' first
    | with_reducible exact Within.pure _
    | with_reducible exact Within.rd _
    | with_reducible exact teCmd_within.of (by decide)
    | with_reducible refine Within.bind ?_ fun _ => ?_
    | with_reducible refine Within.onlyIf ?_
    | with_reducible refine Within.each fun _ => ?_
    | with_reducible refine Within.mapEach fun _ => ?_
    | split
    | dsimp only

theorem execTeCmdRemove_within {o : Who} {n : Nat} {p : Nat} {table : Nat} {s : State} : Effect [.free, .outbox, .mem, .bad, .desk, .regs, .pendc, .goBy, .msix, .threads, .acts, .ready, .delay, .ctxs, .hqueues, .engines, .ddrs, .chans, .locks, .ports, .hostq, .ringLinks, .sq, .rc, .cw, .ring, .gb, .fc, .tb, .boot, .bg] (execTeCmdRemove o n p table s) s := by
  unfold execTeCmdRemove
  refine Within.effect ?_ _
  repeat' first
    | with_reducible exact Within.pure _
    | with_reducible exact Within.rd _
    | with_reducible exact teCmd_within.of (by decide)
    | with_reducible refine Within.bind ?_ fun _ => ?_
    | with_reducible refine Within.onlyIf ?_
    | with_reducible refine Within.each fun _ => ?_
    | with_reducible refine Within.mapEach fun _ => ?_
    | split
    | dsimp only

end Sys2Proof.Machine
end

