-- ==== Sys2Proof/Laws/WithinTerms.lean ====
section
/-! SUPPORT. Which parts of the state the programs of Machine/Terms.lean change. -/

set_option linter.all false
set_option Elab.async false

namespace Sys2Proof.Machine

theorem hostRead_within {c : Option Nat} {addr : Nat} {len : Nat} {bytes : List Byte} : Within [.outbox] (hostRead c addr len bytes) := by
  unfold hostRead
  repeat' first
    | with_reducible exact Within.pure _
    | with_reducible exact Within.rd _
    | with_reducible exact send_within.of (by decide)
    | with_reducible refine Within.bind ?_ fun _ => ?_
    | with_reducible refine Within.onlyIf ?_
    | with_reducible refine Within.each fun _ => ?_
    | with_reducible refine Within.mapEach fun _ => ?_
    | split
    | dsimp only

theorem writePg_within  {x0 : Nat} {x1 : List Byte} : Within [.pg] (writePg x0 x1) := by
  fun_induction writePg x0 x1
  all_goals
  repeat' first
    | with_reducible exact Within.pure _
    | with_reducible exact Within.rd _
    | assumption
    | (with_reducible refine Within.emit ?_); rfl
    | with_reducible refine Within.bind ?_ fun _ => ?_
    | with_reducible refine Within.onlyIf ?_
    | with_reducible refine Within.each fun _ => ?_
    | with_reducible refine Within.mapEach fun _ => ?_
    | split
    | dsimp only

theorem execTermLoad_within {c : Cmd} {dma : List Byte} {s : State} : Effect [.outbox, .regs, .terms, .hostq, .boot, .bg] (execTermLoad c dma s) s := by
  unfold execTermLoad
  refine Within.effect ?_ _
  repeat' first
    | with_reducible exact Within.pure _
    | with_reducible exact Within.rd _
    | with_reducible exact (modTerms_within _ _).of (by decide)
    | with_reducible exact background_within.of (by decide)
    | with_reducible exact background_within.within.of (by decide)
    | with_reducible refine command_within (by decide) ?_
    | with_reducible exact hostRead_within.of (by decide)
    | with_reducible refine Answers.pure ?_
    | with_reducible refine Answers.bind ?_ fun _ => ?_
    | with_reducible exact Within.afterAns
    | with_reducible exact Within.afterData
    | with_reducible refine Within.bind ?_ fun _ => ?_
    | with_reducible refine Within.onlyIf ?_
    | with_reducible refine Within.each fun _ => ?_
    | with_reducible refine Within.mapEach fun _ => ?_
    | split
    | dsimp only

theorem placeTerm_within {o : Origin} {slot : Nat} {b : List Byte} {base : Nat} : Within [.outbox, .mem, .bad, .pg, .regs, .icache, .ddrs, .terms, .gb] (placeTerm o slot b base) := by
  unfold placeTerm
  repeat' first
    | with_reducible exact Within.pure _
    | with_reducible exact Within.rd _
    | (with_reducible refine Within.emit ?_); rfl
    | with_reducible exact fillWays_within.of (by decide)
    | with_reducible exact gbRecord_within.of (by decide)
    | with_reducible exact store_within.of (by decide)
    | with_reducible exact writePg_within.of (by decide)
    | with_reducible refine Within.bind ?_ fun _ => ?_
    | with_reducible refine Within.onlyIf ?_
    | with_reducible refine Within.each fun _ => ?_
    | with_reducible refine Within.mapEach fun _ => ?_
    | split
    | dsimp only

theorem execTermLoadComplete_within {slot : Nat} {s : State} : Effect [.outbox, .mem, .bad, .pg, .regs, .icache, .ddrs, .terms, .hostq, .gb, .bg] (execTermLoadComplete slot s) s := by
  unfold execTermLoadComplete
  refine Within.effect ?_ _
  repeat' first
    | with_reducible exact Within.pure _
    | with_reducible exact Within.rd _
    | with_reducible exact (modTerms_within _ _).of (by decide)
    | with_reducible exact bgEnd_within.of (by decide)
    | with_reducible exact placeTerm_within.of (by decide)
    | with_reducible refine Within.bind ?_ fun _ => ?_
    | with_reducible refine Within.onlyIf ?_
    | with_reducible refine Within.each fun _ => ?_
    | with_reducible refine Within.mapEach fun _ => ?_
    | split
    | dsimp only

theorem execTermActivate_within {c : Cmd} {s : State} : Effect [.outbox, .mem, .bad, .regs, .threads, .ddrs, .terms, .hostq, .ringLinks, .ring, .gb, .boot] (execTermActivate c s) s := by
  unfold execTermActivate
  refine Within.effect ?_ _
  repeat' first
    | with_reducible exact Within.pure _
    | with_reducible exact Within.rd _
    | with_reducible exact (modTerms_within _ _).of (by decide)
    | with_reducible exact announceTerm_within.of (by decide)
    | with_reducible refine command_within (by decide) ?_
    | with_reducible exact gbRecord_within.of (by decide)
    | with_reducible exact setFlag_within.of (by decide)
    | with_reducible exact setFld_within.of (by decide)
    | with_reducible refine Answers.pure ?_
    | with_reducible refine Answers.bind ?_ fun _ => ?_
    | with_reducible exact Within.afterAns
    | with_reducible exact Within.afterData
    | with_reducible refine Within.bind ?_ fun _ => ?_
    | with_reducible refine Within.onlyIf ?_
    | with_reducible refine Within.each fun _ => ?_
    | with_reducible refine Within.mapEach fun _ => ?_
    | split
    | dsimp only

theorem execTermRetire_within {c : Cmd} {s : State} : Effect [.outbox, .regs, .terms, .hostq, .boot, .bg] (execTermRetire c s) s := by
  unfold execTermRetire
  refine Within.effect ?_ _
  repeat' first
    | with_reducible exact Within.pure _
    | with_reducible exact Within.rd _
    | with_reducible exact (modTerms_within _ _).of (by decide)
    | with_reducible exact background_within.of (by decide)
    | with_reducible exact background_within.within.of (by decide)
    | with_reducible refine command_within (by decide) ?_
    | with_reducible refine Answers.pure ?_
    | with_reducible refine Answers.bind ?_ fun _ => ?_
    | with_reducible exact Within.afterAns
    | with_reducible exact Within.afterData
    | with_reducible refine Within.bind ?_ fun _ => ?_
    | with_reducible refine Within.onlyIf ?_
    | with_reducible refine Within.each fun _ => ?_
    | with_reducible refine Within.mapEach fun _ => ?_
    | split
    | dsimp only

theorem execTermRetireComplete_within {slot : Nat} {s : State} : Effect [.outbox, .mem, .bad, .pg, .regs, .icache, .ddrs, .terms, .hostq, .gb, .bg] (execTermRetireComplete slot s) s := by
  unfold execTermRetireComplete
  refine Within.effect ?_ _
  repeat' first
    | with_reducible exact Within.pure _
    | with_reducible exact Within.rd _
    | (with_reducible refine Within.emit ?_); rfl
    | with_reducible exact bgEnd_within.of (by decide)
    | with_reducible exact fillWays_within.of (by decide)
    | with_reducible exact gbRecord_within.of (by decide)
    | with_reducible refine Within.bind ?_ fun _ => ?_
    | with_reducible refine Within.onlyIf ?_
    | with_reducible refine Within.each fun _ => ?_
    | with_reducible refine Within.mapEach fun _ => ?_
    | split
    | dsimp only

theorem execTermStatus_within {c : Cmd} {s : State} : Effect [.outbox, .regs, .hostq, .boot] (execTermStatus c s) s := by
  unfold execTermStatus
  refine Within.effect ?_ _
  repeat' first
    | with_reducible exact Within.pure _
    | with_reducible exact Within.rd _
    | with_reducible refine command_within (by decide) ?_
    | with_reducible refine Answers.pure ?_
    | with_reducible refine Answers.bind ?_ fun _ => ?_
    | with_reducible exact Within.afterAns
    | with_reducible exact Within.afterData
    | with_reducible refine Within.bind ?_ fun _ => ?_
    | with_reducible refine Within.onlyIf ?_
    | with_reducible refine Within.each fun _ => ?_
    | with_reducible refine Within.mapEach fun _ => ?_
    | split
    | dsimp only

theorem execGbRecordHash_within {s : State} : Effect [.outbox, .mem, .bad, .regs, .ddrs, .gb] (execGbRecordHash s) s := by
  unfold execGbRecordHash
  refine Within.effect ?_ _
  repeat' first
    | with_reducible exact Within.pure _
    | with_reducible exact Within.rd _
    | with_reducible exact gbHashOne_within.of (by decide)
    | with_reducible refine Within.bind ?_ fun _ => ?_
    | with_reducible refine Within.onlyIf ?_
    | with_reducible refine Within.each fun _ => ?_
    | with_reducible refine Within.mapEach fun _ => ?_
    | split
    | dsimp only

theorem execGbRead_within {c : Cmd} {s : State} : Effect [.free, .outbox, .regs, .hostq, .boot] (execGbRead c s) s := by
  unfold execGbRead
  refine Within.effect ?_ _
  repeat' first
    | with_reducible exact Within.pure _
    | with_reducible exact Within.rd _
    | with_reducible refine command_within (by decide) ?_
    | with_reducible exact draw_within.of (by decide)
    | with_reducible refine Answers.pure ?_
    | with_reducible refine Answers.bind ?_ fun _ => ?_
    | with_reducible exact Within.afterAns
    | with_reducible exact Within.afterData
    | with_reducible refine Within.bind ?_ fun _ => ?_
    | with_reducible refine Within.onlyIf ?_
    | with_reducible refine Within.each fun _ => ?_
    | with_reducible refine Within.mapEach fun _ => ?_
    | split
    | dsimp only

theorem gbHashAll_within : Within [.outbox, .mem, .bad, .regs, .ddrs, .gb] (gbHashAll) := by
  unfold gbHashAll
  repeat' first
    | with_reducible exact Within.pure _
    | with_reducible exact Within.rd _
    | with_reducible exact gbHashOne_within.of (by decide)
    | with_reducible refine Within.bind ?_ fun _ => ?_
    | with_reducible refine Within.onlyIf ?_
    | with_reducible refine Within.each fun _ => ?_
    | with_reducible refine Within.mapEach fun _ => ?_
    | split
    | dsimp only

theorem execGbSeal_within {c : Cmd} {s : State} : Effect [.free, .outbox, .mem, .bad, .regs, .ddrs, .hostq, .gb, .boot] (execGbSeal c s) s := by
  unfold execGbSeal
  refine Within.effect ?_ _
  repeat' first
    | with_reducible exact Within.pure _
    | with_reducible exact Within.rd _
    | with_reducible exact (modGb_within _).of (by decide)
    | with_reducible refine command_within (by decide) ?_
    | with_reducible exact count_within.of (by decide)
    | with_reducible exact draw_within.of (by decide)
    | with_reducible exact gbHashAll_within.of (by decide)
    | with_reducible exact gbRecord_within.of (by decide)
    | with_reducible refine Answers.pure ?_
    | with_reducible refine Answers.bind ?_ fun _ => ?_
    | with_reducible exact Within.afterAns
    | with_reducible exact Within.afterData
    | with_reducible refine Within.bind ?_ fun _ => ?_
    | with_reducible refine Within.onlyIf ?_
    | with_reducible refine Within.each fun _ => ?_
    | with_reducible refine Within.mapEach fun _ => ?_
    | split
    | dsimp only

end Sys2Proof.Machine
end

