-- ==== Sys2Proof/Laws/WithinFirmware.lean ====
section
/-! SUPPORT. Which parts of the state the programs of Machine/Firmware.lean change. -/

set_option linter.all false
set_option Elab.async false

namespace Sys2Proof.Machine

theorem startTenik_within {b : List Byte} : Within [.outbox, .mem, .bad, .regs, .threads, .ddrs, .gb, .boot] (startTenik b) := by
  unfold startTenik
  repeat' first
    | with_reducible exact Within.pure _
    | with_reducible exact Within.rd _
    | with_reducible exact (modBoot_within _).of (by decide)
    | with_reducible exact gbRecord_within.of (by decide)
    | with_reducible exact setFld_within.of (by decide)
    | with_reducible exact setMode_within.of (by decide)
    | with_reducible exact startMonitor_within.of (by decide)
    | with_reducible refine Within.bind ?_ fun _ => ?_
    | with_reducible refine Within.onlyIf ?_
    | with_reducible refine Within.each fun _ => ?_
    | with_reducible refine Within.mapEach fun _ => ?_
    | split
    | dsimp only

theorem execImageVerifyDone_within {s : State} : Effect [.outbox, .mem, .bad, .regs, .threads, .ddrs, .gb, .boot] (execImageVerifyDone s) s := by
  unfold execImageVerifyDone
  refine Within.effect ?_ _
  repeat' first
    | with_reducible exact Within.pure _
    | with_reducible exact Within.rd _
    | with_reducible exact setFld_within.of (by decide)
    | with_reducible exact startTenik_within.of (by decide)
    | with_reducible refine Within.bind ?_ fun _ => ?_
    | with_reducible refine Within.onlyIf ?_
    | with_reducible refine Within.each fun _ => ?_
    | with_reducible refine Within.mapEach fun _ => ?_
    | split
    | dsimp only

theorem execFwStage_within {c : Cmd} {dma : List Byte} {s : State} : Effect [.outbox, .regs, .hostq, .boot, .bg] (execFwStage c dma s) s := by
  unfold execFwStage
  refine Within.effect ?_ _
  repeat' first
    | with_reducible exact Within.pure _
    | with_reducible exact Within.rd _
    | with_reducible exact background_within.of (by decide)
    | with_reducible exact background_within.within.of (by decide)
    | with_reducible refine command_within (by decide) ?_
    | with_reducible exact hostRead_within.of (by decide)
    | with_reducible refine Answers.pure ?_
    | with_reducible refine Answers.bind ?_ fun _ => ?_
    | with_reducible exact Within.afterAns
    | with_reducible exact Within.afterData
    | with_reducible refine Within.bind ?_ fun _ => ?_
    | with_reducible refine Within.onlyIf ?_
    | with_reducible refine Within.each fun _ => ?_
    | with_reducible refine Within.mapEach fun _ => ?_
    | split
    | dsimp only

theorem execFwStageComplete_within {s : State} : Effect [.outbox, .mem, .bad, .regs, .ddrs, .hostq, .gb, .boot, .bg] (execFwStageComplete s) s := by
  unfold execFwStageComplete
  refine Within.effect ?_ _
  repeat' first
    | with_reducible exact Within.pure _
    | with_reducible exact Within.rd _
    | with_reducible exact (modBoot_within _).of (by decide)
    | with_reducible exact bgEnd_within.of (by decide)
    | with_reducible exact gbRecord_within.of (by decide)
    | with_reducible exact store_within.of (by decide)
    | with_reducible refine Within.bind ?_ fun _ => ?_
    | with_reducible refine Within.onlyIf ?_
    | with_reducible refine Within.each fun _ => ?_
    | with_reducible refine Within.mapEach fun _ => ?_
    | split
    | dsimp only

theorem execFwSwitch_within {c : Cmd} {s : State} : Effect [.free, .outbox, .mem, .bad, .regs, .ddrs, .hostq, .boot, .bg] (execFwSwitch c s) s := by
  unfold execFwSwitch
  refine Within.effect ?_ _
  repeat' first
    | with_reducible exact Within.pure _
    | with_reducible exact Within.rd _
    | with_reducible exact (modBoot_within _).of (by decide)
    | with_reducible exact background_within.of (by decide)
    | with_reducible exact background_within.within.of (by decide)
    | with_reducible refine command_within (by decide) ?_
    | with_reducible exact draw_within.of (by decide)
    | with_reducible exact setFld_within.of (by decide)
    | with_reducible exact store_within.of (by decide)
    | with_reducible refine Answers.pure ?_
    | with_reducible refine Answers.bind ?_ fun _ => ?_
    | with_reducible exact Within.afterAns
    | with_reducible exact Within.afterData
    | with_reducible refine Within.bind ?_ fun _ => ?_
    | with_reducible refine Within.onlyIf ?_
    | with_reducible refine Within.each fun _ => ?_
    | with_reducible refine Within.mapEach fun _ => ?_
    | split
    | dsimp only

theorem execFwSwitchComplete_within {s : State} : Effect [.outbox, .mem, .bad, .regs, .ddrs, .hostq, .gb, .boot, .bg] (execFwSwitchComplete s) s := by
  unfold execFwSwitchComplete
  refine Within.effect ?_ _
  repeat' first
    | with_reducible exact Within.pure _
    | with_reducible exact Within.rd _
    | with_reducible exact (modBoot_within _).of (by decide)
    | with_reducible exact bgEnd_within.of (by decide)
    | with_reducible exact gbRecord_within.of (by decide)
    | with_reducible exact setFld_within.of (by decide)
    | with_reducible exact tenikReturns_within.of (by decide)
    | with_reducible exact touch_within.of (by decide)
    | with_reducible refine Within.bind ?_ fun _ => ?_
    | with_reducible refine Within.onlyIf ?_
    | with_reducible refine Within.each fun _ => ?_
    | with_reducible refine Within.mapEach fun _ => ?_
    | split
    | dsimp only

theorem execFwSwitchFallback_within {s : State} : Effect [.outbox, .mem, .bad, .regs, .ddrs, .hostq, .gb, .fc, .boot, .bg] (execFwSwitchFallback s) s := by
  unfold execFwSwitchFallback
  refine Within.effect ?_ _
  repeat' first
    | with_reducible exact Within.pure _
    | with_reducible exact Within.rd _
    | with_reducible exact bgEnd_within.of (by decide)
    | with_reducible exact restartTenik_within.of (by decide)
    | with_reducible exact tenikReturns_within.of (by decide)
    | with_reducible refine Within.bind ?_ fun _ => ?_
    | with_reducible refine Within.onlyIf ?_
    | with_reducible refine Within.each fun _ => ?_
    | with_reducible refine Within.mapEach fun _ => ?_
    | split
    | dsimp only

theorem execFwInfo_within {c : Cmd} {s : State} : Effect [.outbox, .regs, .hostq, .boot] (execFwInfo c s) s := by
  unfold execFwInfo
  refine Within.effect ?_ _
  repeat' first
    | with_reducible exact Within.pure _
    | with_reducible exact Within.rd _
    | with_reducible refine command_within (by decide) ?_
    | with_reducible refine Answers.pure ?_
    | with_reducible refine Answers.bind ?_ fun _ => ?_
    | with_reducible exact Within.afterAns
    | with_reducible exact Within.afterData
    | with_reducible refine Within.bind ?_ fun _ => ?_
    | with_reducible refine Within.onlyIf ?_
    | with_reducible refine Within.each fun _ => ?_
    | with_reducible refine Within.mapEach fun _ => ?_
    | split
    | dsimp only

theorem execBar4Write_within {pasid : Option Nat} {x : Nat} {bytes : List Byte} {poisoned : Bool} {s : State} : Effect [.outbox, .mem, .bad, .regs, .ddrs] (execBar4Write pasid x bytes poisoned s) s := by
  unfold execBar4Write
  refine Within.effect ?_ _
  repeat' first
    | with_reducible exact Within.pure _
    | with_reducible exact Within.rd _
    | with_reducible exact count_within.of (by decide)
    | with_reducible exact sticky_within.of (by decide)
    | with_reducible exact store_within.of (by decide)
    | with_reducible refine Within.bind ?_ fun _ => ?_
    | with_reducible refine Within.onlyIf ?_
    | with_reducible refine Within.each fun _ => ?_
    | with_reducible refine Within.mapEach fun _ => ?_
    | split
    | dsimp only

theorem execBar4Atomicop_within {pasid : Option Nat} {x : Nat} {op : AtomicKind} {size : Nat} {a : Nat} {b : Nat} {s : State} : Effect [.free, .outbox, .mem, .bad, .regs, .ddrs, .fc] (execBar4Atomicop pasid x op size a b s) s := by
  unfold execBar4Atomicop
  refine Within.effect ?_ _
  repeat' first
    | with_reducible exact Within.pure _
    | with_reducible exact Within.rd _
    | with_reducible exact atomicAt_within.of (by decide)
    | with_reducible exact send_within.of (by decide)
    | with_reducible refine Within.bind ?_ fun _ => ?_
    | with_reducible refine Within.onlyIf ?_
    | with_reducible refine Within.each fun _ => ?_
    | with_reducible refine Within.mapEach fun _ => ?_
    | split
    | dsimp only

theorem pageWrite_within {pasid : Option Nat} {c : Nat} {off : Nat} {en : Nat} {v : Word} : Within [.free, .outbox, .mem, .bad, .desk, .regs, .pendc, .goBy, .ddrs, .hostq, .ringLinks, .ring, .gb, .bg] (pageWrite pasid c off en v) := by
  unfold pageWrite
  repeat' first
    | with_reducible exact Within.pure _
    | with_reducible exact Within.rd _
    | with_reducible exact qCtlWrite_within.of (by decide)
    | with_reducible exact storeWord_within.of (by decide)
    | with_reducible refine Within.bind ?_ fun _ => ?_
    | with_reducible refine Within.onlyIf ?_
    | with_reducible refine Within.each fun _ => ?_
    | with_reducible refine Within.mapEach fun _ => ?_
    | split
    | dsimp only

theorem execBar2Request_within {pasid : Option Nat} {off : Nat} {en : Nat} {wr : Option Word} {s : State} : Effect [.free, .outbox, .mem, .bad, .desk, .regs, .pendc, .goBy, .ddrs, .hostq, .ringLinks, .ring, .gb, .bg] (execBar2Request pasid off en wr s) s := by
  unfold execBar2Request
  refine Within.effect ?_ _
  repeat' first
    | with_reducible exact Within.pure _
    | with_reducible exact Within.rd _
    | with_reducible exact count_within.of (by decide)
    | with_reducible exact pageWrite_within.of (by decide)
    | with_reducible exact send_within.of (by decide)
    | with_reducible refine Within.bind ?_ fun _ => ?_
    | with_reducible refine Within.onlyIf ?_
    | with_reducible refine Within.each fun _ => ?_
    | with_reducible refine Within.mapEach fun _ => ?_
    | split
    | dsimp only

end Sys2Proof.Machine
end

