-- ==== Sys2Proof/Laws/WithinJournal.lean ====
section
/-! SUPPORT. Which parts of the state the programs of Machine/Journal.lean change. -/

set_option linter.all false
set_option Elab.async false

namespace Sys2Proof.Machine

theorem journalOp_within {t : Nat} {rd' : Nat} {ra : Nat} {rb : Nat} {code : Nat} {rsv : Nat} {body : Thread → Nat → M Unit} {qs : List StatePart} (hs : [.outbox, .mem, .bad, .desk, .regs, .threads, .acts, .ready, .ctxs, .hqueues, .ddrs, .chans, .locks, .sq, .cw, .fc].all qs.contains = true) (h0 : ∀ a0 a1, Within qs (body a0 a1)) : Within qs (journalOp t rd' ra rb code rsv body) := by
  unfold journalOp
  repeat' first
    | with_reducible exact Within.pure _
    | with_reducible exact Within.rd _
    | with_reducible exact h0 _ _
    | with_reducible refine issue_within (parts_trans (by decide) hs) (fun _ => ?_)
    | with_reducible refine issueRel_within (parts_trans (by decide) hs) (fun _ => ?_)
    | with_reducible exact undef_within.of (parts_trans (by decide) hs)
    | with_reducible refine Within.bind ?_ fun _ => ?_
    | with_reducible refine Within.onlyIf ?_
    | with_reducible refine Within.each fun _ => ?_
    | with_reducible refine Within.mapEach fun _ => ?_
    | split
    | dsimp only

theorem stageIn_within {t : Nat} {room : Bool} {stage : Journal → Journal} : Within [.threads] (stageIn t room stage) := by
  unfold stageIn
  repeat' first
    | with_reducible exact Within.pure _
    | with_reducible exact Within.rd _
    | with_reducible exact finishNext_within.of (by decide)
    | with_reducible refine Within.bind ?_ fun _ => ?_
    | with_reducible refine Within.onlyIf ?_
    | with_reducible refine Within.each fun _ => ?_
    | with_reducible refine Within.mapEach fun _ => ?_
    | split
    | dsimp only

theorem execToken_within {t : Nat} {ra : Nat} {rb : Nat} {rsv : Nat} {s : State} : Effect [.outbox, .mem, .bad, .desk, .regs, .threads, .acts, .ready, .ctxs, .hqueues, .ddrs, .chans, .locks, .sq, .cw, .fc] (execToken t ra rb rsv s) s := by
  unfold execToken
  refine Within.effect ?_ _
  repeat' first
    | with_reducible exact Within.pure _
    | with_reducible exact Within.rd _
    | with_reducible refine journalOp_within (by decide) (fun _ _ => ?_)
    | with_reducible exact stageIn_within.of (by decide)
    | with_reducible refine Within.bind ?_ fun _ => ?_
    | with_reducible refine Within.onlyIf ?_
    | with_reducible refine Within.each fun _ => ?_
    | with_reducible refine Within.mapEach fun _ => ?_
    | split
    | dsimp only

theorem stageWord_within {t : Nat} {es : List Ea} : Within [.free, .outbox, .mem, .bad, .desk, .regs, .threads, .acts, .ready, .ctxs, .hqueues, .ddrs, .chans, .locks, .sq, .cw, .fc] (stageWord t es) := by
  unfold stageWord
  repeat' first
    | with_reducible exact Within.pure _
    | with_reducible exact Within.rd _
    | with_reducible exact eaReport_within.of (by decide)
    | with_reducible exact send_within.of (by decide)
    | with_reducible exact touch_within.of (by decide)
    | with_reducible exact trapHere_within.of (by decide)
    | with_reducible exact wakeStreet_within.of (by decide)
    | with_reducible refine Within.bind ?_ fun _ => ?_
    | with_reducible refine Within.onlyIf ?_
    | with_reducible refine Within.each fun _ => ?_
    | with_reducible refine Within.mapEach fun _ => ?_
    | split
    | dsimp only

theorem stageWords_within {t : Nat} {wait : List Byte → Addr → Wait} {x0 : List (List Ea)} {x1 : List Byte} : Within [.free, .outbox, .mem, .bad, .desk, .regs, .threads, .acts, .ready, .ctxs, .hqueues, .ddrs, .chans, .locks, .sq, .cw, .fc] (stageWords t wait x0 x1) := by
  fun_induction stageWords t wait x0 x1
  all_goals
  repeat' first
    | with_reducible exact Within.pure _
    | with_reducible exact Within.rd _
    | assumption
    | with_reducible apply_assumption
    | with_reducible exact enterWait_within.of (by decide)
    | with_reducible exact stageWord_within.of (by decide)
    | with_reducible refine Within.bind ?_ fun _ => ?_
    | with_reducible refine Within.onlyIf ?_
    | with_reducible refine Within.each fun _ => ?_
    | with_reducible refine Within.mapEach fun _ => ?_
    | split
    | dsimp only

theorem stageRest_within {t : Nat} {out : Bool} {p : Word} {n : Nat} {hdr : Option (List Byte)} {got : List Byte} : Within [.free, .outbox, .mem, .bad, .desk, .regs, .threads, .acts, .ready, .ctxs, .hqueues, .ddrs, .chans, .locks, .sq, .cw, .fc] (stageRest t out p n hdr got) := by
  unfold stageRest
  repeat' first
    | with_reducible exact Within.pure _
    | with_reducible exact Within.rd _
    | with_reducible exact stageWords_within.of (by decide)
    | with_reducible refine Within.bind ?_ fun _ => ?_
    | with_reducible refine Within.onlyIf ?_
    | with_reducible refine Within.each fun _ => ?_
    | with_reducible refine Within.mapEach fun _ => ?_
    | split
    | dsimp only

theorem stageWrite_within {t : Nat} {b : List Byte} : Within [.threads] (stageWrite t b) := by
  unfold stageWrite
  repeat' first
    | with_reducible exact Within.pure _
    | with_reducible exact Within.rd _
    | with_reducible exact stageIn_within.of (by decide)
    | with_reducible refine Within.bind ?_ fun _ => ?_
    | with_reducible refine Within.onlyIf ?_
    | with_reducible refine Within.each fun _ => ?_
    | with_reducible refine Within.mapEach fun _ => ?_
    | split
    | dsimp only

theorem stageOut_within {t : Nat} {b : List Byte} : Within [.threads] (stageOut t b) := by
  unfold stageOut
  repeat' first
    | with_reducible exact Within.pure _
    | with_reducible exact Within.rd _
    | with_reducible exact stageIn_within.of (by decide)
    | with_reducible refine Within.bind ?_ fun _ => ?_
    | with_reducible refine Within.onlyIf ?_
    | with_reducible refine Within.each fun _ => ?_
    | with_reducible refine Within.mapEach fun _ => ?_
    | split
    | dsimp only

theorem stageOn_within {t : Nat} {out : Bool} {p : Word} {n : Nat} {hdr : Option (List Byte)} {got : List Byte} : Within [.free, .outbox, .mem, .bad, .desk, .regs, .threads, .acts, .ready, .ctxs, .hqueues, .ddrs, .chans, .locks, .sq, .cw, .fc] (stageOn t out p n hdr got) := by
  unfold stageOn
  repeat' first
    | with_reducible exact Within.pure _
    | with_reducible exact Within.rd _
    | with_reducible exact stageOut_within.of (by decide)
    | with_reducible exact stageRest_within.of (by decide)
    | with_reducible exact stageWrite_within.of (by decide)
    | with_reducible refine Within.bind ?_ fun _ => ?_
    | with_reducible refine Within.onlyIf ?_
    | with_reducible refine Within.each fun _ => ?_
    | with_reducible refine Within.mapEach fun _ => ?_
    | split
    | dsimp only

theorem stageBegin_within {t : Nat} {out : Bool} {p : Word} : Within [.free, .outbox, .mem, .bad, .desk, .regs, .threads, .acts, .ready, .ctxs, .hqueues, .ddrs, .chans, .locks, .sq, .cw, .fc] (stageBegin t out p) := by
  unfold stageBegin
  repeat' first
    | with_reducible exact Within.pure _
    | with_reducible exact Within.rd _
    | with_reducible exact stageOn_within.of (by decide)
    | with_reducible exact trapHere_within.of (by decide)
    | with_reducible refine Within.bind ?_ fun _ => ?_
    | with_reducible refine Within.onlyIf ?_
    | with_reducible refine Within.each fun _ => ?_
    | with_reducible refine Within.mapEach fun _ => ?_
    | split
    | dsimp only

theorem stageArrives_within {t : Nat} {data : Option Word} : Within [.free, .outbox, .mem, .bad, .desk, .regs, .threads, .acts, .ready, .ctxs, .hqueues, .ddrs, .chans, .locks, .sq, .cw, .fc] (stageArrives t data) := by
  unfold stageArrives
  repeat' first
    | with_reducible exact Within.pure _
    | with_reducible exact Within.rd _
    | with_reducible exact eaReport_within.of (by decide)
    | with_reducible exact stageOn_within.of (by decide)
    | with_reducible exact trapHere_within.of (by decide)
    | with_reducible refine Within.bind ?_ fun _ => ?_
    | with_reducible refine Within.onlyIf ?_
    | with_reducible refine Within.each fun _ => ?_
    | with_reducible refine Within.mapEach fun _ => ?_
    | split
    | dsimp only

theorem execJwr_within {t : Nat} {ra : Nat} {rsv : Nat} {s : State} : Effect [.free, .outbox, .mem, .bad, .desk, .regs, .threads, .acts, .ready, .ctxs, .hqueues, .ddrs, .chans, .locks, .sq, .cw, .fc] (execJwr t ra rsv s) s := by
  unfold execJwr
  refine Within.effect ?_ _
  repeat' first
    | with_reducible exact Within.pure _
    | with_reducible exact Within.rd _
    | with_reducible refine journalOp_within (by decide) (fun _ _ => ?_)
    | with_reducible exact stageBegin_within.of (by decide)
    | with_reducible refine Within.bind ?_ fun _ => ?_
    | with_reducible refine Within.onlyIf ?_
    | with_reducible refine Within.each fun _ => ?_
    | with_reducible refine Within.mapEach fun _ => ?_
    | split
    | dsimp only

theorem execJout_within {t : Nat} {ra : Nat} {rsv : Nat} {s : State} : Effect [.free, .outbox, .mem, .bad, .desk, .regs, .threads, .acts, .ready, .ctxs, .hqueues, .ddrs, .chans, .locks, .sq, .cw, .fc] (execJout t ra rsv s) s := by
  unfold execJout
  refine Within.effect ?_ _
  repeat' first
    | with_reducible exact Within.pure _
    | with_reducible exact Within.rd _
    | with_reducible refine journalOp_within (by decide) (fun _ _ => ?_)
    | with_reducible exact stageBegin_within.of (by decide)
    | with_reducible refine Within.bind ?_ fun _ => ?_
    | with_reducible refine Within.onlyIf ?_
    | with_reducible refine Within.each fun _ => ?_
    | with_reducible refine Within.mapEach fun _ => ?_
    | split
    | dsimp only

theorem execRetire_within {t : Nat} {rd : Nat} {rsv : Nat} {s : State} : Effect [.outbox, .mem, .bad, .desk, .regs, .threads, .acts, .ready, .ctxs, .hqueues, .ddrs, .chans, .locks, .sq, .rc, .cw, .fc] (execRetire t rd rsv s) s := by
  unfold execRetire
  refine Within.effect ?_ _
  repeat' first
    | with_reducible exact Within.pure _
    | with_reducible exact Within.rd _
    | (with_reducible refine Within.emit ?_); rfl
    | with_reducible exact actRelease_within.of (by decide)
    | with_reducible exact count_within.of (by decide)
    | with_reducible exact finishNext_within.of (by decide)
    | with_reducible refine journalOp_within (by decide) (fun _ _ => ?_)
    | with_reducible exact wantAbandon_within.of (by decide)
    | with_reducible refine Within.bind ?_ fun _ => ?_
    | with_reducible refine Within.onlyIf ?_
    | with_reducible refine Within.each fun _ => ?_
    | with_reducible refine Within.mapEach fun _ => ?_
    | split
    | dsimp only

theorem execAbandon_within {t : Nat} {mode : Nat} {rsv : Nat} {s : State} : Effect [.outbox, .mem, .bad, .desk, .regs, .threads, .acts, .ready, .ctxs, .hqueues, .ddrs, .chans, .locks, .sq, .rc, .cw, .fc] (execAbandon t mode rsv s) s := by
  unfold execAbandon
  refine Within.effect ?_ _
  repeat' first
    | with_reducible exact Within.pure _
    | with_reducible exact Within.rd _
    | with_reducible exact (modThreads_within _ _).of (by decide)
    | with_reducible exact actRelease_within.of (by decide)
    | with_reducible exact count_within.of (by decide)
    | with_reducible exact getWork_within.of (by decide)
    | with_reducible refine journalOp_within (by decide) (fun _ _ => ?_)
    | with_reducible exact requeueAct_within.of (by decide)
    | with_reducible exact wantAbandon_within.of (by decide)
    | with_reducible refine Within.bind ?_ fun _ => ?_
    | with_reducible refine Within.onlyIf ?_
    | with_reducible refine Within.each fun _ => ?_
    | with_reducible refine Within.mapEach fun _ => ?_
    | split
    | dsimp only

end Sys2Proof.Machine
end

