-- ==== Sys2Proof/Laws/WithinRegRead.lean ====
section
/-! SUPPORT. Which parts of the state the programs of Machine/RegRead.lean change. -/

set_option linter.all false
set_option Elab.async false

namespace Sys2Proof.Machine

theorem readReg_within {o : Who} {off : Nat} : Within [.outbox, .mem, .bad, .regs, .ddrs, .gb] (readReg o off) := by
  unfold readReg
  repeat' first
    | with_reducible exact Within.pure _
    | with_reducible exact Within.rd _
    | with_reducible exact dbgReadRecord_within.of (by decide)
    | with_reducible exact wakeFor_within.of (by decide)
    | with_reducible refine Within.bind ?_ fun _ => ?_
    | with_reducible refine Within.onlyIf ?_
    | with_reducible refine Within.each fun _ => ?_
    | with_reducible refine Within.mapEach fun _ => ?_
    | split
    | dsimp only

theorem bar0Read_within {o : Who} {off : Nat} {en : Nat} : Within [.outbox, .mem, .bad, .regs, .ddrs, .gb] (bar0Read o off en) := by
  unfold bar0Read
  repeat' first
    | with_reducible exact Within.pure _
    | with_reducible exact Within.rd _
    | with_reducible refine access_within (by decide) ?_
    | with_reducible exact readReg_within.of (by decide)
    | with_reducible refine Within.bind ?_ fun _ => ?_
    | with_reducible refine Within.onlyIf ?_
    | with_reducible refine Within.each fun _ => ?_
    | with_reducible refine Within.mapEach fun _ => ?_
    | split
    | dsimp only

end Sys2Proof.Machine
end

