-- ==== Sys2Proof/Laws/WithinMemory.lean ====
section
/-! SUPPORT. Which parts of the state the programs of Machine/Memory.lean change. -/

set_option linter.all false
set_option Elab.async false

namespace Sys2Proof.Machine

theorem firstTrap_within {a : Option TrapVal} {b : Option TrapVal} : Within [.free] (firstTrap a b) := by
  unfold firstTrap
  repeat' first
    | with_reducible exact Within.pure _
    | with_reducible exact Within.rd _
    | with_reducible exact draw_within.of (by decide)
    | with_reducible refine Within.bind ?_ fun _ => ?_
    | with_reducible refine Within.onlyIf ?_
    | with_reducible refine Within.each fun _ => ?_
    | with_reducible refine Within.mapEach fun _ => ?_
    | split
    | dsimp only

theorem attachBuf_within {t : Nat} {h : Nat} : Within [.ctxs] (attachBuf t h) := by
  unfold attachBuf
  repeat' first
    | with_reducible exact Within.pure _
    | with_reducible exact Within.rd _
    | with_reducible exact (modCtxs_within _ _).of (by decide)
    | with_reducible refine Within.bind ?_ fun _ => ?_
    | with_reducible refine Within.onlyIf ?_
    | with_reducible refine Within.each fun _ => ?_
    | with_reducible refine Within.mapEach fun _ => ?_
    | split
    | dsimp only

theorem portAlloc_within {t : Nat} {c : Nat} {p : Nat} : Within [.outbox, .regs, .ctxs, .bufs, .pools] (portAlloc t c p) := by
  unfold portAlloc
  repeat' first
    | with_reducible exact Within.pure _
    | with_reducible exact Within.rd _
    | with_reducible exact attachBuf_within.of (by decide)
    | with_reducible exact poolAlloc_within.of (by decide)
    | with_reducible refine Within.bind ?_ fun _ => ?_
    | with_reducible refine Within.onlyIf ?_
    | with_reducible refine Within.each fun _ => ?_
    | with_reducible refine Within.mapEach fun _ => ?_
    | split
    | dsimp only

theorem portLoad_within {t : Nat} {a : Nat} {n : Nat} : Within [.outbox, .regs, .ctxs, .bufs, .pools] (portLoad t a n) := by
  unfold portLoad
  repeat' first
    | with_reducible exact Within.pure _
    | with_reducible exact Within.rd _
    | with_reducible exact portAlloc_within.of (by decide)
    | with_reducible refine Within.bind ?_ fun _ => ?_
    | with_reducible refine Within.onlyIf ?_
    | with_reducible refine Within.each fun _ => ?_
    | with_reducible refine Within.mapEach fun _ => ?_
    | split
    | dsimp only

theorem vectorStore_within {c : Nat} {v : Word} : Within [.outbox, .regs] (vectorStore c v) := by
  unfold vectorStore
  repeat' first
    | with_reducible exact Within.pure _
    | with_reducible exact Within.rd _
    | with_reducible exact msixSignal_within.of (by decide)
    | with_reducible refine Within.bind ?_ fun _ => ?_
    | with_reducible refine Within.onlyIf ?_
    | with_reducible refine Within.each fun _ => ?_
    | with_reducible refine Within.mapEach fun _ => ?_
    | split
    | dsimp only

theorem portStore_within {t : Nat} {a : Nat} {n : Nat} {v : Word} : Within [.outbox, .regs, .bufs, .pools] (portStore t a n v) := by
  unfold portStore
  repeat' first
    | with_reducible exact Within.pure _
    | with_reducible exact Within.rd _
    | with_reducible exact bufAdd_within.of (by decide)
    | with_reducible exact bufDrop_within.of (by decide)
    | with_reducible exact vectorStore_within.of (by decide)
    | with_reducible refine Within.bind ?_ fun _ => ?_
    | with_reducible refine Within.onlyIf ?_
    | with_reducible refine Within.each fun _ => ?_
    | with_reducible refine Within.mapEach fun _ => ?_
    | split
    | dsimp only

theorem spaceRead_within {o : Who} {off : Nat} {n : Nat} : Within [.outbox, .mem, .bad, .regs, .ddrs, .gb] (spaceRead o off n) := by
  unfold spaceRead
  repeat' first
    | with_reducible exact Within.pure _
    | with_reducible exact Within.rd _
    | with_reducible exact readReg_within.of (by decide)
    | with_reducible refine Within.bind ?_ fun _ => ?_
    | with_reducible refine Within.onlyIf ?_
    | with_reducible refine Within.each fun _ => ?_
    | with_reducible refine Within.mapEach fun _ => ?_
    | split
    | dsimp only

theorem spaceWrite_within {o : Who} {off : Nat} {n : Nat} {v : Word} : Within [.free, .outbox, .mem, .bad, .desk, .regs, .pendc, .goBy, .msix, .threads, .acts, .ready, .delay, .ctxs, .hqueues, .engines, .ddrs, .chans, .locks, .ports, .hostq, .ringLinks, .sq, .rc, .cw, .ring, .gb, .fc, .tb, .boot, .bg] (spaceWrite o off n v) := by
  unfold spaceWrite
  repeat' first
    | with_reducible exact Within.pure _
    | with_reducible exact Within.rd _
    | with_reducible exact regWriteBy_within.of (by decide)
    | with_reducible refine Within.bind ?_ fun _ => ?_
    | with_reducible refine Within.onlyIf ?_
    | with_reducible refine Within.each fun _ => ?_
    | with_reducible refine Within.mapEach fun _ => ?_
    | split
    | dsimp only

theorem remoteSend_within {t : Nat} {d : Nat} {off : Nat} {n : Nat} {wr : Option Nat} : Within [.regs, .ringLinks, .ring] (remoteSend t d off n wr) := by
  unfold remoteSend
  repeat' first
    | with_reducible exact Within.pure _
    | with_reducible exact Within.rd _
    | with_reducible exact (modRing_within _).of (by decide)
    | with_reducible exact count_within.of (by decide)
    | with_reducible exact ringSend_within.of (by decide)
    | with_reducible refine Within.bind ?_ fun _ => ?_
    | with_reducible refine Within.onlyIf ?_
    | with_reducible refine Within.each fun _ => ?_
    | with_reducible refine Within.mapEach fun _ => ?_
    | split
    | dsimp only

theorem memLoad_within {t : Nat} {e : Ea} {n : Nat} : Within [.free, .outbox, .regs, .fc] (memLoad t e n) := by
  unfold memLoad
  repeat' first
    | with_reducible exact Within.pure _
    | with_reducible exact Within.rd _
    | with_reducible exact eaReport_within.of (by decide)
    | with_reducible refine Within.bind ?_ fun _ => ?_
    | with_reducible refine Within.onlyIf ?_
    | with_reducible refine Within.each fun _ => ?_
    | with_reducible refine Within.mapEach fun _ => ?_
    | split
    | dsimp only

theorem loadEa_within {t : Nat} {e : Ea} {n : Nat} : Within [.free, .outbox, .mem, .bad, .regs, .ctxs, .ddrs, .bufs, .pools, .ringLinks, .ring, .gb, .fc] (loadEa t e n) := by
  unfold loadEa
  repeat' first
    | with_reducible exact Within.pure _
    | with_reducible exact Within.rd _
    | with_reducible exact memLoad_within.of (by decide)
    | with_reducible exact portLoad_within.of (by decide)
    | with_reducible exact remoteSend_within.of (by decide)
    | with_reducible exact send_within.of (by decide)
    | with_reducible exact spaceRead_within.of (by decide)
    | with_reducible exact touch_within.of (by decide)
    | with_reducible exact wakeStreet_within.of (by decide)
    | with_reducible refine Within.bind ?_ fun _ => ?_
    | with_reducible refine Within.onlyIf ?_
    | with_reducible refine Within.each fun _ => ?_
    | with_reducible refine Within.mapEach fun _ => ?_
    | split
    | dsimp only

theorem storeEa_within {t : Nat} {e : Ea} {n : Nat} {v : Word} : Within [.free, .outbox, .mem, .bad, .desk, .regs, .pendc, .goBy, .msix, .threads, .acts, .ready, .delay, .ctxs, .hqueues, .engines, .ddrs, .bufs, .pools, .chans, .locks, .ports, .hostq, .ringLinks, .sq, .rc, .cw, .ring, .gb, .fc, .tb, .boot, .bg] (storeEa t e n v) := by
  unfold storeEa
  repeat' first
    | with_reducible exact Within.pure _
    | with_reducible exact Within.rd _
    | with_reducible exact hostWrite_within.of (by decide)
    | with_reducible exact portStore_within.of (by decide)
    | with_reducible exact remoteSend_within.of (by decide)
    | with_reducible exact spaceWrite_within.of (by decide)
    | with_reducible exact store_within.of (by decide)
    | with_reducible exact wakeStreet_within.of (by decide)
    | with_reducible exact writeDesk_within.of (by decide)
    | with_reducible refine Within.bind ?_ fun _ => ?_
    | with_reducible refine Within.onlyIf ?_
    | with_reducible refine Within.each fun _ => ?_
    | with_reducible refine Within.mapEach fun _ => ?_
    | split
    | dsimp only

end Sys2Proof.Machine
end

