-- ==== Sys2Proof/Laws/WithinLoadStore.lean ====
section
/-! SUPPORT. Which parts of the state the programs of Machine/LoadStore.lean change. -/

set_option linter.all false
set_option Elab.async false

namespace Sys2Proof.Machine

theorem conclude_within {t : Nat} {d : Done} : Within [.outbox, .mem, .bad, .desk, .regs, .threads, .acts, .ready, .ctxs, .hqueues, .ddrs, .chans, .locks, .sq, .cw, .fc] (conclude t d) := by
  unfold conclude
  repeat' first
    | with_reducible exact Within.pure _
    | with_reducible exact Within.rd _
    | with_reducible exact enterWait_within.of (by decide)
    | with_reducible exact finishNext_within.of (by decide)
    | with_reducible exact trapHere_within.of (by decide)
    | with_reducible refine Within.bind ?_ fun _ => ?_
    | with_reducible refine Within.onlyIf ?_
    | with_reducible refine Within.each fun _ => ?_
    | with_reducible refine Within.mapEach fun _ => ?_
    | split
    | dsimp only

theorem loadInstr_within {t : Nat} {rd' : Nat} {n : Nat} {b : Nat} {e : Option Ea} : Within [.free, .outbox, .mem, .bad, .regs, .ctxs, .ddrs, .bufs, .pools, .ringLinks, .ring, .gb, .fc] (loadInstr t rd' n b e) := by
  unfold loadInstr
  repeat' first
    | with_reducible exact Within.pure _
    | with_reducible exact Within.rd _
    | with_reducible exact loadEa_within.of (by decide)
    | with_reducible refine Within.bind ?_ fun _ => ?_
    | with_reducible refine Within.onlyIf ?_
    | with_reducible refine Within.each fun _ => ?_
    | with_reducible refine Within.mapEach fun _ => ?_
    | split
    | dsimp only

theorem storeInstr_within {t : Nat} {n : Nat} {b : Nat} {e : Option Ea} {v : Word} {f : Thread → Thread} : Within [.free, .outbox, .mem, .bad, .desk, .regs, .pendc, .goBy, .msix, .threads, .acts, .ready, .delay, .ctxs, .hqueues, .engines, .ddrs, .bufs, .pools, .chans, .locks, .ports, .hostq, .ringLinks, .sq, .rc, .cw, .ring, .gb, .fc, .tb, .boot, .bg] (storeInstr t n b e v f) := by
  unfold storeInstr
  repeat' first
    | with_reducible exact Within.pure _
    | with_reducible exact Within.rd _
    | with_reducible exact storeEa_within.of (by decide)
    | with_reducible refine Within.bind ?_ fun _ => ?_
    | with_reducible refine Within.onlyIf ?_
    | with_reducible refine Within.each fun _ => ?_
    | with_reducible refine Within.mapEach fun _ => ?_
    | split
    | dsimp only

theorem loadM_within {t : Nat} {op : Nat} {n : Nat} {rd' : Nat} {bank : Nat} {short : Nat} {s : State} : Effect [.free, .outbox, .mem, .bad, .desk, .regs, .threads, .acts, .ready, .ctxs, .hqueues, .ddrs, .bufs, .pools, .chans, .locks, .ringLinks, .sq, .cw, .ring, .gb, .fc] (loadM t op n rd' bank short s) s := by
  unfold loadM
  refine Within.effect ?_ _
  repeat' first
    | with_reducible exact Within.pure _
    | with_reducible exact Within.rd _
    | with_reducible exact conclude_within.of (by decide)
    | with_reducible refine issue_within (by decide) (fun _ => ?_)
    | with_reducible exact loadInstr_within.of (by decide)
    | with_reducible refine Within.bind ?_ fun _ => ?_
    | with_reducible refine Within.onlyIf ?_
    | with_reducible refine Within.each fun _ => ?_
    | with_reducible refine Within.mapEach fun _ => ?_
    | split
    | dsimp only

theorem storeM_within {t : Nat} {op : Nat} {n : Nat} {rd' : Nat} {bank : Nat} {short : Nat} {s : State} : Effect [.free, .outbox, .mem, .bad, .desk, .regs, .pendc, .goBy, .msix, .threads, .acts, .ready, .delay, .ctxs, .hqueues, .engines, .ddrs, .bufs, .pools, .chans, .locks, .ports, .hostq, .ringLinks, .sq, .rc, .cw, .ring, .gb, .fc, .tb, .boot, .bg] (storeM t op n rd' bank short s) s := by
  unfold storeM
  refine Within.effect ?_ _
  repeat' first
    | with_reducible exact Within.pure _
    | with_reducible exact Within.rd _
    | with_reducible exact conclude_within.of (by decide)
    | with_reducible refine issue_within (by decide) (fun _ => ?_)
    | with_reducible exact storeInstr_within.of (by decide)
    | with_reducible refine Within.bind ?_ fun _ => ?_
    | with_reducible refine Within.onlyIf ?_
    | with_reducible refine Within.each fun _ => ?_
    | with_reducible refine Within.mapEach fun _ => ?_
    | split
    | dsimp only

theorem execLd_within {t : Nat} {rd : Nat} {bank : Nat} {short : Nat} {s : State} : Effect [.free, .outbox, .mem, .bad, .desk, .regs, .threads, .acts, .ready, .ctxs, .hqueues, .ddrs, .bufs, .pools, .chans, .locks, .ringLinks, .sq, .cw, .ring, .gb, .fc] (execLd t rd bank short s) s := by
  unfold execLd
  repeat' first
    | with_reducible exact Within.pure _
    | with_reducible exact Within.rd _
    | with_reducible exact loadM_within.of (by decide)
    | with_reducible refine Within.bind ?_ fun _ => ?_
    | with_reducible refine Within.onlyIf ?_
    | with_reducible refine Within.each fun _ => ?_
    | with_reducible refine Within.mapEach fun _ => ?_
    | split
    | dsimp only

theorem execLw_within {t : Nat} {rd : Nat} {bank : Nat} {short : Nat} {s : State} : Effect [.free, .outbox, .mem, .bad, .desk, .regs, .threads, .acts, .ready, .ctxs, .hqueues, .ddrs, .bufs, .pools, .chans, .locks, .ringLinks, .sq, .cw, .ring, .gb, .fc] (execLw t rd bank short s) s := by
  unfold execLw
  repeat' first
    | with_reducible exact Within.pure _
    | with_reducible exact Within.rd _
    | with_reducible exact loadM_within.of (by decide)
    | with_reducible refine Within.bind ?_ fun _ => ?_
    | with_reducible refine Within.onlyIf ?_
    | with_reducible refine Within.each fun _ => ?_
    | with_reducible refine Within.mapEach fun _ => ?_
    | split
    | dsimp only

theorem execLh_within {t : Nat} {rd : Nat} {bank : Nat} {short : Nat} {s : State} : Effect [.free, .outbox, .mem, .bad, .desk, .regs, .threads, .acts, .ready, .ctxs, .hqueues, .ddrs, .bufs, .pools, .chans, .locks, .ringLinks, .sq, .cw, .ring, .gb, .fc] (execLh t rd bank short s) s := by
  unfold execLh
  repeat' first
    | with_reducible exact Within.pure _
    | with_reducible exact Within.rd _
    | with_reducible exact loadM_within.of (by decide)
    | with_reducible refine Within.bind ?_ fun _ => ?_
    | with_reducible refine Within.onlyIf ?_
    | with_reducible refine Within.each fun _ => ?_
    | with_reducible refine Within.mapEach fun _ => ?_
    | split
    | dsimp only

theorem execLb_within {t : Nat} {rd : Nat} {bank : Nat} {short : Nat} {s : State} : Effect [.free, .outbox, .mem, .bad, .desk, .regs, .threads, .acts, .ready, .ctxs, .hqueues, .ddrs, .bufs, .pools, .chans, .locks, .ringLinks, .sq, .cw, .ring, .gb, .fc] (execLb t rd bank short s) s := by
  unfold execLb
  repeat' first
    | with_reducible exact Within.pure _
    | with_reducible exact Within.rd _
    | with_reducible exact loadM_within.of (by decide)
    | with_reducible refine Within.bind ?_ fun _ => ?_
    | with_reducible refine Within.onlyIf ?_
    | with_reducible refine Within.each fun _ => ?_
    | with_reducible refine Within.mapEach fun _ => ?_
    | split
    | dsimp only

theorem execSd_within {t : Nat} {rd : Nat} {bank : Nat} {short : Nat} {s : State} : Effect [.free, .outbox, .mem, .bad, .desk, .regs, .pendc, .goBy, .msix, .threads, .acts, .ready, .delay, .ctxs, .hqueues, .engines, .ddrs, .bufs, .pools, .chans, .locks, .ports, .hostq, .ringLinks, .sq, .rc, .cw, .ring, .gb, .fc, .tb, .boot, .bg] (execSd t rd bank short s) s := by
  unfold execSd
  repeat' first
    | with_reducible exact Within.pure _
    | with_reducible exact Within.rd _
    | with_reducible exact storeM_within.of (by decide)
    | with_reducible refine Within.bind ?_ fun _ => ?_
    | with_reducible refine Within.onlyIf ?_
    | with_reducible refine Within.each fun _ => ?_
    | with_reducible refine Within.mapEach fun _ => ?_
    | split
    | dsimp only

theorem execSw_within {t : Nat} {rd : Nat} {bank : Nat} {short : Nat} {s : State} : Effect [.free, .outbox, .mem, .bad, .desk, .regs, .pendc, .goBy, .msix, .threads, .acts, .ready, .delay, .ctxs, .hqueues, .engines, .ddrs, .bufs, .pools, .chans, .locks, .ports, .hostq, .ringLinks, .sq, .rc, .cw, .ring, .gb, .fc, .tb, .boot, .bg] (execSw t rd bank short s) s := by
  unfold execSw
  repeat' first
    | with_reducible exact Within.pure _
    | with_reducible exact Within.rd _
    | with_reducible exact storeM_within.of (by decide)
    | with_reducible refine Within.bind ?_ fun _ => ?_
    | with_reducible refine Within.onlyIf ?_
    | with_reducible refine Within.each fun _ => ?_
    | with_reducible refine Within.mapEach fun _ => ?_
    | split
    | dsimp only

theorem execSh_within {t : Nat} {rd : Nat} {bank : Nat} {short : Nat} {s : State} : Effect [.free, .outbox, .mem, .bad, .desk, .regs, .pendc, .goBy, .msix, .threads, .acts, .ready, .delay, .ctxs, .hqueues, .engines, .ddrs, .bufs, .pools, .chans, .locks, .ports, .hostq, .ringLinks, .sq, .rc, .cw, .ring, .gb, .fc, .tb, .boot, .bg] (execSh t rd bank short s) s := by
  unfold execSh
  repeat' first
    | with_reducible exact Within.pure _
    | with_reducible exact Within.rd _
    | with_reducible exact storeM_within.of (by decide)
    | with_reducible refine Within.bind ?_ fun _ => ?_
    | with_reducible refine Within.onlyIf ?_
    | with_reducible refine Within.each fun _ => ?_
    | with_reducible refine Within.mapEach fun _ => ?_
    | split
    | dsimp only

theorem execSb_within {t : Nat} {rd : Nat} {bank : Nat} {short : Nat} {s : State} : Effect [.free, .outbox, .mem, .bad, .desk, .regs, .pendc, .goBy, .msix, .threads, .acts, .ready, .delay, .ctxs, .hqueues, .engines, .ddrs, .bufs, .pools, .chans, .locks, .ports, .hostq, .ringLinks, .sq, .rc, .cw, .ring, .gb, .fc, .tb, .boot, .bg] (execSb t rd bank short s) s := by
  unfold execSb
  repeat' first
    | with_reducible exact Within.pure _
    | with_reducible exact Within.rd _
    | with_reducible exact storeM_within.of (by decide)
    | with_reducible refine Within.bind ?_ fun _ => ?_
    | with_reducible refine Within.onlyIf ?_
    | with_reducible refine Within.each fun _ => ?_
    | with_reducible refine Within.mapEach fun _ => ?_
    | split
    | dsimp only

theorem loadX_within {t : Nat} {op : Nat} {n : Nat} {rd' : Nat} {rb : Nat} {off : Nat} {s : State} : Effect [.free, .outbox, .mem, .bad, .desk, .regs, .threads, .acts, .ready, .ctxs, .hqueues, .ddrs, .bufs, .pools, .chans, .locks, .ringLinks, .sq, .cw, .ring, .gb, .fc] (loadX t op n rd' rb off s) s := by
  unfold loadX
  refine Within.effect ?_ _
  repeat' first
    | with_reducible exact Within.pure _
    | with_reducible exact Within.rd _
    | with_reducible exact conclude_within.of (by decide)
    | with_reducible refine issue_within (by decide) (fun _ => ?_)
    | with_reducible exact loadInstr_within.of (by decide)
    | with_reducible refine Within.bind ?_ fun _ => ?_
    | with_reducible refine Within.onlyIf ?_
    | with_reducible refine Within.each fun _ => ?_
    | with_reducible refine Within.mapEach fun _ => ?_
    | split
    | dsimp only

theorem execLdx_within {t : Nat} {rd : Nat} {rb : Nat} {off : Nat} {s : State} : Effect [.free, .outbox, .mem, .bad, .desk, .regs, .threads, .acts, .ready, .ctxs, .hqueues, .ddrs, .bufs, .pools, .chans, .locks, .ringLinks, .sq, .cw, .ring, .gb, .fc] (execLdx t rd rb off s) s := by
  unfold execLdx
  repeat' first
    | with_reducible exact Within.pure _
    | with_reducible exact Within.rd _
    | with_reducible exact loadX_within.of (by decide)
    | with_reducible refine Within.bind ?_ fun _ => ?_
    | with_reducible refine Within.onlyIf ?_
    | with_reducible refine Within.each fun _ => ?_
    | with_reducible refine Within.mapEach fun _ => ?_
    | split
    | dsimp only

theorem execLwx_within {t : Nat} {rd : Nat} {rb : Nat} {off : Nat} {s : State} : Effect [.free, .outbox, .mem, .bad, .desk, .regs, .threads, .acts, .ready, .ctxs, .hqueues, .ddrs, .bufs, .pools, .chans, .locks, .ringLinks, .sq, .cw, .ring, .gb, .fc] (execLwx t rd rb off s) s := by
  unfold execLwx
  repeat' first
    | with_reducible exact Within.pure _
    | with_reducible exact Within.rd _
    | with_reducible exact loadX_within.of (by decide)
    | with_reducible refine Within.bind ?_ fun _ => ?_
    | with_reducible refine Within.onlyIf ?_
    | with_reducible refine Within.each fun _ => ?_
    | with_reducible refine Within.mapEach fun _ => ?_
    | split
    | dsimp only

theorem execLhx_within {t : Nat} {rd : Nat} {rb : Nat} {off : Nat} {s : State} : Effect [.free, .outbox, .mem, .bad, .desk, .regs, .threads, .acts, .ready, .ctxs, .hqueues, .ddrs, .bufs, .pools, .chans, .locks, .ringLinks, .sq, .cw, .ring, .gb, .fc] (execLhx t rd rb off s) s := by
  unfold execLhx
  repeat' first
    | with_reducible exact Within.pure _
    | with_reducible exact Within.rd _
    | with_reducible exact loadX_within.of (by decide)
    | with_reducible refine Within.bind ?_ fun _ => ?_
    | with_reducible refine Within.onlyIf ?_
    | with_reducible refine Within.each fun _ => ?_
    | with_reducible refine Within.mapEach fun _ => ?_
    | split
    | dsimp only

theorem execLbx_within {t : Nat} {rd : Nat} {rb : Nat} {off : Nat} {s : State} : Effect [.free, .outbox, .mem, .bad, .desk, .regs, .threads, .acts, .ready, .ctxs, .hqueues, .ddrs, .bufs, .pools, .chans, .locks, .ringLinks, .sq, .cw, .ring, .gb, .fc] (execLbx t rd rb off s) s := by
  unfold execLbx
  repeat' first
    | with_reducible exact Within.pure _
    | with_reducible exact Within.rd _
    | with_reducible exact loadX_within.of (by decide)
    | with_reducible refine Within.bind ?_ fun _ => ?_
    | with_reducible refine Within.onlyIf ?_
    | with_reducible refine Within.each fun _ => ?_
    | with_reducible refine Within.mapEach fun _ => ?_
    | split
    | dsimp only

theorem storeXOnce_within {t : Nat} {n : Nat} {rd' : Nat} {rb : Nat} {off : Nat} {inRep : Bool} : Within [.free, .outbox, .mem, .bad, .desk, .regs, .pendc, .goBy, .msix, .threads, .acts, .ready, .delay, .ctxs, .hqueues, .engines, .ddrs, .bufs, .pools, .chans, .locks, .ports, .hostq, .ringLinks, .sq, .rc, .cw, .ring, .gb, .fc, .tb, .boot, .bg] (storeXOnce t n rd' rb off inRep) := by
  unfold storeXOnce
  repeat' first
    | with_reducible exact Within.pure _
    | with_reducible exact Within.rd _
    | with_reducible exact storeInstr_within.of (by decide)
    | with_reducible refine Within.bind ?_ fun _ => ?_
    | with_reducible refine Within.onlyIf ?_
    | with_reducible refine Within.each fun _ => ?_
    | with_reducible refine Within.mapEach fun _ => ?_
    | split
    | dsimp only

theorem storeX_within {t : Nat} {op : Nat} {n : Nat} {rd' : Nat} {rb : Nat} {off : Nat} {s : State} : Effect [.free, .outbox, .mem, .bad, .desk, .regs, .pendc, .goBy, .msix, .threads, .acts, .ready, .delay, .ctxs, .hqueues, .engines, .ddrs, .bufs, .pools, .chans, .locks, .ports, .hostq, .ringLinks, .sq, .rc, .cw, .ring, .gb, .fc, .tb, .boot, .bg] (storeX t op n rd' rb off s) s := by
  unfold storeX
  refine Within.effect ?_ _
  repeat' first
    | with_reducible exact Within.pure _
    | with_reducible exact Within.rd _
    | with_reducible exact conclude_within.of (by decide)
    | with_reducible refine issue_within (by decide) (fun _ => ?_)
    | with_reducible exact storeXOnce_within.of (by decide)
    | with_reducible refine Within.bind ?_ fun _ => ?_
    | with_reducible refine Within.onlyIf ?_
    | with_reducible refine Within.each fun _ => ?_
    | with_reducible refine Within.mapEach fun _ => ?_
    | split
    | dsimp only

theorem execSdx_within {t : Nat} {rd : Nat} {rb : Nat} {off : Nat} {s : State} : Effect [.free, .outbox, .mem, .bad, .desk, .regs, .pendc, .goBy, .msix, .threads, .acts, .ready, .delay, .ctxs, .hqueues, .engines, .ddrs, .bufs, .pools, .chans, .locks, .ports, .hostq, .ringLinks, .sq, .rc, .cw, .ring, .gb, .fc, .tb, .boot, .bg] (execSdx t rd rb off s) s := by
  unfold execSdx
  repeat' first
    | with_reducible exact Within.pure _
    | with_reducible exact Within.rd _
    | with_reducible exact storeX_within.of (by decide)
    | with_reducible refine Within.bind ?_ fun _ => ?_
    | with_reducible refine Within.onlyIf ?_
    | with_reducible refine Within.each fun _ => ?_
    | with_reducible refine Within.mapEach fun _ => ?_
    | split
    | dsimp only

theorem execSwx_within {t : Nat} {rd : Nat} {rb : Nat} {off : Nat} {s : State} : Effect [.free, .outbox, .mem, .bad, .desk, .regs, .pendc, .goBy, .msix, .threads, .acts, .ready, .delay, .ctxs, .hqueues, .engines, .ddrs, .bufs, .pools, .chans, .locks, .ports, .hostq, .ringLinks, .sq, .rc, .cw, .ring, .gb, .fc, .tb, .boot, .bg] (execSwx t rd rb off s) s := by
  unfold execSwx
  repeat' first
    | with_reducible exact Within.pure _
    | with_reducible exact Within.rd _
    | with_reducible exact storeX_within.of (by decide)
    | with_reducible refine Within.bind ?_ fun _ => ?_
    | with_reducible refine Within.onlyIf ?_
    | with_reducible refine Within.each fun _ => ?_
    | with_reducible refine Within.mapEach fun _ => ?_
    | split
    | dsimp only

theorem execShx_within {t : Nat} {rd : Nat} {rb : Nat} {off : Nat} {s : State} : Effect [.free, .outbox, .mem, .bad, .desk, .regs, .pendc, .goBy, .msix, .threads, .acts, .ready, .delay, .ctxs, .hqueues, .engines, .ddrs, .bufs, .pools, .chans, .locks, .ports, .hostq, .ringLinks, .sq, .rc, .cw, .ring, .gb, .fc, .tb, .boot, .bg] (execShx t rd rb off s) s := by
  unfold execShx
  repeat' first
    | with_reducible exact Within.pure _
    | with_reducible exact Within.rd _
    | with_reducible exact storeX_within.of (by decide)
    | with_reducible refine Within.bind ?_ fun _ => ?_
    | with_reducible refine Within.onlyIf ?_
    | with_reducible refine Within.each fun _ => ?_
    | with_reducible refine Within.mapEach fun _ => ?_
    | split
    | dsimp only

theorem execSbx_within {t : Nat} {rd : Nat} {rb : Nat} {off : Nat} {s : State} : Effect [.free, .outbox, .mem, .bad, .desk, .regs, .pendc, .goBy, .msix, .threads, .acts, .ready, .delay, .ctxs, .hqueues, .engines, .ddrs, .bufs, .pools, .chans, .locks, .ports, .hostq, .ringLinks, .sq, .rc, .cw, .ring, .gb, .fc, .tb, .boot, .bg] (execSbx t rd rb off s) s := by
  unfold execSbx
  repeat' first
    | with_reducible exact Within.pure _
    | with_reducible exact Within.rd _
    | with_reducible exact storeX_within.of (by decide)
    | with_reducible refine Within.bind ?_ fun _ => ?_
    | with_reducible refine Within.onlyIf ?_
    | with_reducible refine Within.each fun _ => ?_
    | with_reducible refine Within.mapEach fun _ => ?_
    | split
    | dsimp only

theorem cpxStore_within {t : Nat} {rd' : Nat} {n : Nat} {v : Word} : Within [.free, .outbox, .mem, .bad, .desk, .regs, .pendc, .goBy, .msix, .threads, .acts, .ready, .delay, .ctxs, .hqueues, .engines, .ddrs, .bufs, .pools, .chans, .locks, .ports, .hostq, .ringLinks, .sq, .rc, .cw, .ring, .gb, .fc, .tb, .boot, .bg] (cpxStore t rd' n v) := by
  unfold cpxStore
  repeat' first
    | with_reducible exact Within.pure _
    | with_reducible exact Within.rd _
    | with_reducible exact storeEa_within.of (by decide)
    | with_reducible refine Within.bind ?_ fun _ => ?_
    | with_reducible refine Within.onlyIf ?_
    | with_reducible refine Within.each fun _ => ?_
    | with_reducible refine Within.mapEach fun _ => ?_
    | split
    | dsimp only

theorem cpxOnce_within {t : Nat} {rd' : Nat} {rb : Nat} {n : Nat} {rep : Option InRep} : Within [.free, .outbox, .mem, .bad, .desk, .regs, .pendc, .goBy, .msix, .threads, .acts, .ready, .delay, .ctxs, .hqueues, .engines, .ddrs, .bufs, .pools, .chans, .locks, .ports, .hostq, .ringLinks, .sq, .rc, .cw, .ring, .gb, .fc, .tb, .boot, .bg] (cpxOnce t rd' rb n rep) := by
  unfold cpxOnce
  repeat' first
    | with_reducible exact Within.pure _
    | with_reducible exact Within.rd _
    | with_reducible exact cpxStore_within.of (by decide)
    | with_reducible exact firstTrap_within.of (by decide)
    | with_reducible exact loadEa_within.of (by decide)
    | with_reducible refine Within.bind ?_ fun _ => ?_
    | with_reducible refine Within.onlyIf ?_
    | with_reducible refine Within.each fun _ => ?_
    | with_reducible refine Within.mapEach fun _ => ?_
    | split
    | dsimp only

theorem execCpx_within {t : Nat} {rd : Nat} {rb : Nat} {size : Nat} {rsv : Nat} {s : State} : Effect [.free, .outbox, .mem, .bad, .desk, .regs, .pendc, .goBy, .msix, .threads, .acts, .ready, .delay, .ctxs, .hqueues, .engines, .ddrs, .bufs, .pools, .chans, .locks, .ports, .hostq, .ringLinks, .sq, .rc, .cw, .ring, .gb, .fc, .tb, .boot, .bg] (execCpx t rd rb size rsv s) s := by
  unfold execCpx
  refine Within.effect ?_ _
  repeat' first
    | with_reducible exact Within.pure _
    | with_reducible exact Within.rd _
    | with_reducible exact conclude_within.of (by decide)
    | with_reducible exact cpxOnce_within.of (by decide)
    | with_reducible refine issue_within (by decide) (fun _ => ?_)
    | with_reducible refine Within.bind ?_ fun _ => ?_
    | with_reducible refine Within.onlyIf ?_
    | with_reducible refine Within.each fun _ => ?_
    | with_reducible refine Within.mapEach fun _ => ?_
    | split
    | dsimp only

theorem chwrxWrite_within {t : Nat} {ra : Nat} {ch : Nat} {e : Bool} {rep : Option InRep} {v : Word} : Within [.outbox, .mem, .regs, .threads, .chans] (chwrxWrite t ra ch e rep v) := by
  unfold chwrxWrite
  repeat' first
    | with_reducible exact Within.pure _
    | with_reducible exact Within.rd _
    | with_reducible exact channelWrite_within.of (by decide)
    | with_reducible refine Within.bind ?_ fun _ => ?_
    | with_reducible refine Within.onlyIf ?_
    | with_reducible refine Within.each fun _ => ?_
    | with_reducible refine Within.mapEach fun _ => ?_
    | split
    | dsimp only

theorem chwrxOnce_within {t : Nat} {ra : Nat} {rb : Nat} {e : Bool} {rep : Option InRep} : Within [.free, .outbox, .mem, .bad, .regs, .threads, .ctxs, .ddrs, .bufs, .pools, .chans, .ringLinks, .ring, .gb, .fc] (chwrxOnce t ra rb e rep) := by
  unfold chwrxOnce
  repeat' first
    | with_reducible exact Within.pure _
    | with_reducible exact Within.rd _
    | with_reducible exact chwrxWrite_within.of (by decide)
    | with_reducible exact loadEa_within.of (by decide)
    | with_reducible refine Within.bind ?_ fun _ => ?_
    | with_reducible refine Within.onlyIf ?_
    | with_reducible refine Within.each fun _ => ?_
    | with_reducible refine Within.mapEach fun _ => ?_
    | split
    | dsimp only

theorem execChwrx_within {t : Nat} {ra : Nat} {rb : Nat} {e : Bool} {rsv : Nat} {s : State} : Effect [.free, .outbox, .mem, .bad, .desk, .regs, .threads, .acts, .ready, .ctxs, .hqueues, .ddrs, .bufs, .pools, .chans, .locks, .ringLinks, .sq, .cw, .ring, .gb, .fc] (execChwrx t ra rb e rsv s) s := by
  unfold execChwrx
  refine Within.effect ?_ _
  repeat' first
    | with_reducible exact Within.pure _
    | with_reducible exact Within.rd _
    | with_reducible exact chwrxOnce_within.of (by decide)
    | with_reducible exact conclude_within.of (by decide)
    | with_reducible refine issueRel_within (by decide) (fun _ => ?_)
    | with_reducible refine Within.bind ?_ fun _ => ?_
    | with_reducible refine Within.onlyIf ?_
    | with_reducible refine Within.each fun _ => ?_
    | with_reducible refine Within.mapEach fun _ => ?_
    | split
    | dsimp only

theorem casMem_within {t : Nat} {rd' : Nat} {rb : Nat} {e : Ea} : Within [.free, .outbox, .mem, .bad, .regs, .ddrs, .fc] (casMem t rd' rb e) := by
  unfold casMem
  repeat' first
    | with_reducible exact Within.pure _
    | with_reducible exact Within.rd _
    | with_reducible exact count_within.of (by decide)
    | with_reducible exact memLoad_within.of (by decide)
    | with_reducible exact store_within.of (by decide)
    | with_reducible refine Within.bind ?_ fun _ => ?_
    | with_reducible refine Within.onlyIf ?_
    | with_reducible refine Within.each fun _ => ?_
    | with_reducible refine Within.mapEach fun _ => ?_
    | split
    | dsimp only

theorem casOnce_within {t : Nat} {rd' : Nat} {ra : Nat} {rb : Nat} : Within [.free, .outbox, .mem, .bad, .regs, .ddrs, .fc] (casOnce t rd' ra rb) := by
  unfold casOnce
  repeat' first
    | with_reducible exact Within.pure _
    | with_reducible exact Within.rd _
    | with_reducible exact casMem_within.of (by decide)
    | with_reducible exact touch_within.of (by decide)
    | with_reducible refine Within.bind ?_ fun _ => ?_
    | with_reducible refine Within.onlyIf ?_
    | with_reducible refine Within.each fun _ => ?_
    | with_reducible refine Within.mapEach fun _ => ?_
    | split
    | dsimp only

theorem execCas_within {t : Nat} {rd : Nat} {ra : Nat} {rb : Nat} {rsv : Nat} {s : State} : Effect [.free, .outbox, .mem, .bad, .desk, .regs, .threads, .acts, .ready, .ctxs, .hqueues, .ddrs, .chans, .locks, .sq, .cw, .fc] (execCas t rd ra rb rsv s) s := by
  unfold execCas
  refine Within.effect ?_ _
  repeat' first
    | with_reducible exact Within.pure _
    | with_reducible exact Within.rd _
    | with_reducible exact casOnce_within.of (by decide)
    | with_reducible exact conclude_within.of (by decide)
    | with_reducible refine issueRel_within (by decide) (fun _ => ?_)
    | with_reducible refine Within.bind ?_ fun _ => ?_
    | with_reducible refine Within.onlyIf ?_
    | with_reducible refine Within.each fun _ => ?_
    | with_reducible refine Within.mapEach fun _ => ?_
    | split
    | dsimp only

theorem repOnce_within {t : Nat} {r : InRep} {last : Bool} : Within [.free, .outbox, .mem, .bad, .desk, .regs, .pendc, .goBy, .msix, .threads, .acts, .ready, .delay, .ctxs, .hqueues, .engines, .ddrs, .bufs, .pools, .chans, .locks, .ports, .hostq, .ringLinks, .sq, .rc, .cw, .ring, .gb, .fc, .tb, .boot, .bg] (repOnce t r last) := by
  unfold repOnce
  repeat' first
    | with_reducible exact Within.pure _
    | with_reducible exact Within.rd _
    | with_reducible exact chwrxOnce_within.of (by decide)
    | with_reducible exact cpxOnce_within.of (by decide)
    | with_reducible exact storeXOnce_within.of (by decide)
    | with_reducible refine Within.bind ?_ fun _ => ?_
    | with_reducible refine Within.onlyIf ?_
    | with_reducible refine Within.each fun _ => ?_
    | with_reducible refine Within.mapEach fun _ => ?_
    | split
    | dsimp only

theorem repPause_within {t : Nat} {left : Nat} : Within [.threads] (repPause t left) := by
  unfold repPause
  repeat' first
    | with_reducible exact Within.pure _
    | with_reducible exact Within.rd _
    | with_reducible exact finishAt_within.of (by decide)
    | with_reducible refine Within.bind ?_ fun _ => ?_
    | with_reducible refine Within.onlyIf ?_
    | with_reducible refine Within.each fun _ => ?_
    | with_reducible refine Within.mapEach fun _ => ?_
    | split
    | dsimp only

theorem repLoop_within {t : Nat} {r : InRep} {x0 : Nat} {x1 : Nat} : Within [.free, .outbox, .mem, .bad, .desk, .regs, .pendc, .goBy, .msix, .threads, .acts, .ready, .delay, .ctxs, .hqueues, .engines, .ddrs, .bufs, .pools, .chans, .locks, .ports, .hostq, .ringLinks, .sq, .rc, .cw, .ring, .gb, .fc, .tb, .boot, .bg] (repLoop t r x0 x1) := by
  fun_induction repLoop t r x0 x1
  all_goals
  repeat' first
    | with_reducible exact Within.pure _
    | with_reducible exact Within.rd _
    | assumption
    | with_reducible exact (modThreads_within _ _).of (by decide)
    | with_reducible exact count_within.of (by decide)
    | with_reducible exact enterWait_within.of (by decide)
    | with_reducible exact repOnce_within.of (by decide)
    | with_reducible exact repPause_within.of (by decide)
    | with_reducible exact trapHere_within.of (by decide)
    | with_reducible refine Within.bind ?_ fun _ => ?_
    | with_reducible refine Within.onlyIf ?_
    | with_reducible refine Within.each fun _ => ?_
    | with_reducible refine Within.mapEach fun _ => ?_
    | split
    | dsimp only

theorem execRep_within {t : Nat} {i : Bool} {r : Bool} {rb : Nat} {count : Nat} {rsv : Nat} {fol : Follower} {stop : Option Nat} {s : State} : Effect [.free, .outbox, .mem, .bad, .desk, .regs, .pendc, .goBy, .msix, .threads, .acts, .ready, .delay, .ctxs, .hqueues, .engines, .ddrs, .bufs, .pools, .chans, .locks, .ports, .hostq, .ringLinks, .sq, .rc, .cw, .ring, .gb, .fc, .tb, .boot, .bg] (execRep t i r rb count rsv fol stop s) s := by
  unfold execRep
  refine Within.effect ?_ _
  repeat' first
    | with_reducible exact Within.pure _
    | with_reducible exact Within.rd _
    | with_reducible refine issue_within (by decide) (fun _ => ?_)
    | with_reducible refine issueRel_within (by decide) (fun _ => ?_)
    | with_reducible exact repLoop_within.of (by decide)
    | with_reducible exact trap_within.of (by decide)
    | with_reducible exact trapHere_within.of (by decide)
    | with_reducible refine Within.bind ?_ fun _ => ?_
    | with_reducible refine Within.onlyIf ?_
    | with_reducible refine Within.each fun _ => ?_
    | with_reducible refine Within.mapEach fun _ => ?_
    | split
    | dsimp only

theorem finishRep_within {t : Nat} {rep : Option InRep} {f : Thread → Thread} : Within [.free, .outbox, .mem, .bad, .desk, .regs, .pendc, .goBy, .msix, .threads, .acts, .ready, .delay, .ctxs, .hqueues, .engines, .ddrs, .bufs, .pools, .chans, .locks, .ports, .hostq, .ringLinks, .sq, .rc, .cw, .ring, .gb, .fc, .tb, .boot, .bg] (finishRep t rep f) := by
  unfold finishRep
  repeat' first
    | with_reducible exact Within.pure _
    | with_reducible exact Within.rd _
    | with_reducible exact (modThreads_within _ _).of (by decide)
    | with_reducible exact finishNext_within.of (by decide)
    | with_reducible exact repLoop_within.of (by decide)
    | with_reducible refine Within.bind ?_ fun _ => ?_
    | with_reducible refine Within.onlyIf ?_
    | with_reducible refine Within.each fun _ => ?_
    | with_reducible refine Within.mapEach fun _ => ?_
    | split
    | dsimp only

theorem concludeRep_within {t : Nat} {rep : Option InRep} {d : Done} : Within [.free, .outbox, .mem, .bad, .desk, .regs, .pendc, .goBy, .msix, .threads, .acts, .ready, .delay, .ctxs, .hqueues, .engines, .ddrs, .bufs, .pools, .chans, .locks, .ports, .hostq, .ringLinks, .sq, .rc, .cw, .ring, .gb, .fc, .tb, .boot, .bg] (concludeRep t rep d) := by
  unfold concludeRep
  repeat' first
    | with_reducible exact Within.pure _
    | with_reducible exact Within.rd _
    | with_reducible exact enterWait_within.of (by decide)
    | with_reducible exact finishRep_within.of (by decide)
    | with_reducible exact trapHere_within.of (by decide)
    | with_reducible refine Within.bind ?_ fun _ => ?_
    | with_reducible refine Within.onlyIf ?_
    | with_reducible refine Within.each fun _ => ?_
    | with_reducible refine Within.mapEach fun _ => ?_
    | split
    | dsimp only

theorem execChannelWriteResume_within {t : Nat} {s : State} : Effect [.free, .outbox, .mem, .bad, .desk, .regs, .pendc, .goBy, .msix, .threads, .acts, .ready, .delay, .ctxs, .hqueues, .engines, .ddrs, .bufs, .pools, .chans, .locks, .ports, .hostq, .ringLinks, .sq, .rc, .cw, .ring, .gb, .fc, .tb, .boot, .bg] (execChannelWriteResume t s) s := by
  unfold execChannelWriteResume
  refine Within.effect ?_ _
  repeat' first
    | with_reducible exact Within.pure _
    | with_reducible exact Within.rd _
    | with_reducible exact channelWrite_within.of (by decide)
    | with_reducible exact finishRep_within.of (by decide)
    | with_reducible refine Within.bind ?_ fun _ => ?_
    | with_reducible refine Within.onlyIf ?_
    | with_reducible refine Within.each fun _ => ?_
    | with_reducible refine Within.mapEach fun _ => ?_
    | split
    | dsimp only

theorem loadArrives_within {t : Nat} {v : Word} : Within [.free, .outbox, .mem, .bad, .desk, .regs, .pendc, .goBy, .msix, .threads, .acts, .ready, .delay, .ctxs, .hqueues, .engines, .ddrs, .bufs, .pools, .chans, .locks, .ports, .hostq, .ringLinks, .sq, .rc, .cw, .ring, .gb, .fc, .tb, .boot, .bg] (loadArrives t v) := by
  unfold loadArrives
  repeat' first
    | with_reducible exact Within.pure _
    | with_reducible exact Within.rd _
    | with_reducible exact chwrxWrite_within.of (by decide)
    | with_reducible exact concludeRep_within.of (by decide)
    | with_reducible exact cpxStore_within.of (by decide)
    | with_reducible exact finishNext_within.of (by decide)
    | with_reducible exact finishRep_within.of (by decide)
    | with_reducible exact stageArrives_within.of (by decide)
    | with_reducible refine Within.bind ?_ fun _ => ?_
    | with_reducible refine Within.onlyIf ?_
    | with_reducible refine Within.each fun _ => ?_
    | with_reducible refine Within.mapEach fun _ => ?_
    | split
    | dsimp only

theorem lateReturn_within {t : Nat} : Within [.sq] (lateReturn t) := by
  unfold lateReturn
  repeat' first
    | with_reducible exact Within.pure _
    | with_reducible exact Within.rd _
    | with_reducible exact (modSq_within _).of (by decide)
    | with_reducible refine Within.bind ?_ fun _ => ?_
    | with_reducible refine Within.onlyIf ?_
    | with_reducible refine Within.each fun _ => ?_
    | with_reducible refine Within.mapEach fun _ => ?_
    | split
    | dsimp only

theorem execLoadReturn_within {t : Nat} {data : Option Word} {s : State} : Effect [.free, .outbox, .mem, .bad, .desk, .regs, .pendc, .goBy, .msix, .threads, .acts, .ready, .delay, .ctxs, .hqueues, .engines, .ddrs, .bufs, .pools, .chans, .locks, .ports, .hostq, .ringLinks, .sq, .rc, .cw, .ring, .gb, .fc, .tb, .boot, .bg] (execLoadReturn t data s) s := by
  unfold execLoadReturn
  refine Within.effect ?_ _
  repeat' first
    | with_reducible exact Within.pure _
    | with_reducible exact Within.rd _
    | with_reducible exact casMem_within.of (by decide)
    | with_reducible exact conclude_within.of (by decide)
    | with_reducible exact lateReturn_within.of (by decide)
    | with_reducible exact loadArrives_within.of (by decide)
    | with_reducible exact memLoad_within.of (by decide)
    | with_reducible exact stageArrives_within.of (by decide)
    | with_reducible exact trapHere_within.of (by decide)
    | with_reducible refine Within.bind ?_ fun _ => ?_
    | with_reducible refine Within.onlyIf ?_
    | with_reducible refine Within.each fun _ => ?_
    | with_reducible refine Within.mapEach fun _ => ?_
    | split
    | dsimp only

theorem loadAt_within {t : Nat} {rd' : Nat} {n : Nat} {a : Nat} : Within [.free, .outbox, .mem, .bad, .desk, .regs, .threads, .acts, .ready, .ctxs, .hqueues, .ddrs, .bufs, .pools, .chans, .locks, .ringLinks, .sq, .cw, .ring, .gb, .fc] (loadAt t rd' n a) := by
  unfold loadAt
  repeat' first
    | with_reducible exact Within.pure _
    | with_reducible exact Within.rd _
    | with_reducible exact conclude_within.of (by decide)
    | with_reducible refine issue_within (by decide) (fun _ => ?_)
    | with_reducible exact loadInstr_within.of (by decide)
    | with_reducible refine Within.bind ?_ fun _ => ?_
    | with_reducible refine Within.onlyIf ?_
    | with_reducible refine Within.each fun _ => ?_
    | with_reducible refine Within.mapEach fun _ => ?_
    | split
    | dsimp only

theorem storeAt_within {t : Nat} {n : Nat} {a : Nat} {v : Word} : Within [.free, .outbox, .mem, .bad, .desk, .regs, .pendc, .goBy, .msix, .threads, .acts, .ready, .delay, .ctxs, .hqueues, .engines, .ddrs, .bufs, .pools, .chans, .locks, .ports, .hostq, .ringLinks, .sq, .rc, .cw, .ring, .gb, .fc, .tb, .boot, .bg] (storeAt t n a v) := by
  unfold storeAt
  repeat' first
    | with_reducible exact Within.pure _
    | with_reducible exact Within.rd _
    | with_reducible exact conclude_within.of (by decide)
    | with_reducible refine issue_within (by decide) (fun _ => ?_)
    | with_reducible exact storeInstr_within.of (by decide)
    | with_reducible refine Within.bind ?_ fun _ => ?_
    | with_reducible refine Within.onlyIf ?_
    | with_reducible refine Within.each fun _ => ?_
    | with_reducible refine Within.mapEach fun _ => ?_
    | split
    | dsimp only

theorem execPoolPortAlloc_within {t : Nat} {rd : Nat} {c : Nat} {p : Nat} {s : State} : Effect [.free, .outbox, .mem, .bad, .desk, .regs, .threads, .acts, .ready, .ctxs, .hqueues, .ddrs, .bufs, .pools, .chans, .locks, .ringLinks, .sq, .cw, .ring, .gb, .fc] (execPoolPortAlloc t rd c p s) s := by
  unfold execPoolPortAlloc
  refine Within.effect ?_ _
  repeat' first
    | with_reducible exact Within.pure _
    | with_reducible exact Within.rd _
    | with_reducible exact loadAt_within.of (by decide)
    | with_reducible refine Within.bind ?_ fun _ => ?_
    | with_reducible refine Within.onlyIf ?_
    | with_reducible refine Within.each fun _ => ?_
    | with_reducible refine Within.mapEach fun _ => ?_
    | split
    | dsimp only

theorem execPoolPortInfo_within {t : Nat} {rd : Nat} {c : Nat} {p : Nat} {s : State} : Effect [.free, .outbox, .mem, .bad, .desk, .regs, .threads, .acts, .ready, .ctxs, .hqueues, .ddrs, .bufs, .pools, .chans, .locks, .ringLinks, .sq, .cw, .ring, .gb, .fc] (execPoolPortInfo t rd c p s) s := by
  unfold execPoolPortInfo
  refine Within.effect ?_ _
  repeat' first
    | with_reducible exact Within.pure _
    | with_reducible exact Within.rd _
    | with_reducible exact loadAt_within.of (by decide)
    | with_reducible refine Within.bind ?_ fun _ => ?_
    | with_reducible refine Within.onlyIf ?_
    | with_reducible refine Within.each fun _ => ?_
    | with_reducible refine Within.mapEach fun _ => ?_
    | split
    | dsimp only

theorem execPoolPortDrop_within {t : Nat} {c : Nat} {h : Word} {s : State} : Effect [.free, .outbox, .mem, .bad, .desk, .regs, .pendc, .goBy, .msix, .threads, .acts, .ready, .delay, .ctxs, .hqueues, .engines, .ddrs, .bufs, .pools, .chans, .locks, .ports, .hostq, .ringLinks, .sq, .rc, .cw, .ring, .gb, .fc, .tb, .boot, .bg] (execPoolPortDrop t c h s) s := by
  unfold execPoolPortDrop
  refine Within.effect ?_ _
  repeat' first
    | with_reducible exact Within.pure _
    | with_reducible exact Within.rd _
    | with_reducible exact storeAt_within.of (by decide)
    | with_reducible refine Within.bind ?_ fun _ => ?_
    | with_reducible refine Within.onlyIf ?_
    | with_reducible refine Within.each fun _ => ?_
    | with_reducible refine Within.mapEach fun _ => ?_
    | split
    | dsimp only

theorem execPoolPortAdd_within {t : Nat} {c : Nat} {h : Word} {s : State} : Effect [.free, .outbox, .mem, .bad, .desk, .regs, .pendc, .goBy, .msix, .threads, .acts, .ready, .delay, .ctxs, .hqueues, .engines, .ddrs, .bufs, .pools, .chans, .locks, .ports, .hostq, .ringLinks, .sq, .rc, .cw, .ring, .gb, .fc, .tb, .boot, .bg] (execPoolPortAdd t c h s) s := by
  unfold execPoolPortAdd
  refine Within.effect ?_ _
  repeat' first
    | with_reducible exact Within.pure _
    | with_reducible exact Within.rd _
    | with_reducible exact storeAt_within.of (by decide)
    | with_reducible refine Within.bind ?_ fun _ => ?_
    | with_reducible refine Within.onlyIf ?_
    | with_reducible refine Within.each fun _ => ?_
    | with_reducible refine Within.mapEach fun _ => ?_
    | split
    | dsimp only

theorem execVectorSignal_within {t : Nat} {c : Nat} {v : Word} {s : State} : Effect [.free, .outbox, .mem, .bad, .desk, .regs, .pendc, .goBy, .msix, .threads, .acts, .ready, .delay, .ctxs, .hqueues, .engines, .ddrs, .bufs, .pools, .chans, .locks, .ports, .hostq, .ringLinks, .sq, .rc, .cw, .ring, .gb, .fc, .tb, .boot, .bg] (execVectorSignal t c v s) s := by
  unfold execVectorSignal
  refine Within.effect ?_ _
  repeat' first
    | with_reducible exact Within.pure _
    | with_reducible exact Within.rd _
    | with_reducible exact storeAt_within.of (by decide)
    | with_reducible refine Within.bind ?_ fun _ => ?_
    | with_reducible refine Within.onlyIf ?_
    | with_reducible refine Within.each fun _ => ?_
    | with_reducible refine Within.mapEach fun _ => ?_
    | split
    | dsimp only

theorem execRemoteWindowAccess_within {t : Nat} {rd : Nat} {dev : Nat} {off : Nat} {size : Nat} {wr : Option Nat} {s : State} : Effect [.free, .outbox, .mem, .bad, .desk, .regs, .pendc, .goBy, .msix, .threads, .acts, .ready, .delay, .ctxs, .hqueues, .engines, .ddrs, .bufs, .pools, .chans, .locks, .ports, .hostq, .ringLinks, .sq, .rc, .cw, .ring, .gb, .fc, .tb, .boot, .bg] (execRemoteWindowAccess t rd dev off size wr s) s := by
  unfold execRemoteWindowAccess
  refine Within.effect ?_ _
  repeat' first
    | with_reducible exact Within.pure _
    | with_reducible exact Within.rd _
    | with_reducible exact loadAt_within.of (by decide)
    | with_reducible exact storeAt_within.of (by decide)
    | with_reducible refine Within.bind ?_ fun _ => ?_
    | with_reducible refine Within.onlyIf ?_
    | with_reducible refine Within.each fun _ => ?_
    | with_reducible refine Within.mapEach fun _ => ?_
    | split
    | dsimp only

theorem execRaccReqReceive_within {l : Nat} {s : State} : Effect [.free, .outbox, .mem, .bad, .desk, .regs, .pendc, .goBy, .msix, .threads, .acts, .ready, .delay, .ctxs, .hqueues, .engines, .ddrs, .chans, .locks, .ports, .hostq, .ringLinks, .sq, .rc, .cw, .ring, .gb, .fc, .tb, .boot, .bg] (execRaccReqReceive l s) s := by
  unfold execRaccReqReceive
  refine Within.effect ?_ _
  repeat' first
    | with_reducible exact Within.pure _
    | with_reducible exact Within.rd _
    | with_reducible exact dropRec_within.of (by decide)
    | with_reducible exact ringSend_within.of (by decide)
    | with_reducible exact spaceRead_within.of (by decide)
    | with_reducible exact spaceWrite_within.of (by decide)
    | with_reducible refine takeRec_within  (fun _ => ?_)
    | with_reducible refine Within.bind ?_ fun _ => ?_
    | with_reducible refine Within.onlyIf ?_
    | with_reducible refine Within.each fun _ => ?_
    | with_reducible refine Within.mapEach fun _ => ?_
    | split
    | dsimp only

theorem remoteEnd_within {m : Remote} {v : Word} : Within [.free, .outbox, .mem, .bad, .desk, .regs, .pendc, .goBy, .msix, .threads, .acts, .ready, .delay, .ctxs, .hqueues, .engines, .ddrs, .bufs, .pools, .chans, .locks, .ports, .hostq, .ringLinks, .sq, .rc, .cw, .ring, .gb, .fc, .tb, .boot, .bg] (remoteEnd m v) := by
  unfold remoteEnd
  repeat' first
    | with_reducible exact Within.pure _
    | with_reducible exact Within.rd _
    | with_reducible exact (modRing_within _).of (by decide)
    | with_reducible exact loadArrives_within.of (by decide)
    | with_reducible refine Within.bind ?_ fun _ => ?_
    | with_reducible refine Within.onlyIf ?_
    | with_reducible refine Within.each fun _ => ?_
    | with_reducible refine Within.mapEach fun _ => ?_
    | split
    | dsimp only

theorem remoteNext_within {t : Nat} {d : Nat} {x0 : Nat} : Within [.free, .outbox, .mem, .bad, .desk, .regs, .pendc, .goBy, .msix, .threads, .acts, .ready, .delay, .ctxs, .hqueues, .engines, .ddrs, .bufs, .pools, .chans, .locks, .ports, .hostq, .ringLinks, .sq, .rc, .cw, .ring, .gb, .fc, .tb, .boot, .bg] (remoteNext t d x0) := by
  fun_induction remoteNext t d x0
  all_goals
  repeat' first
    | with_reducible exact Within.pure _
    | with_reducible exact Within.rd _
    | assumption
    | with_reducible exact (modRing_within _).of (by decide)
    | with_reducible exact count_within.of (by decide)
    | with_reducible exact remoteEnd_within.of (by decide)
    | with_reducible exact ringSend_within.of (by decide)
    | with_reducible refine Within.bind ?_ fun _ => ?_
    | with_reducible refine Within.onlyIf ?_
    | with_reducible refine Within.each fun _ => ?_
    | with_reducible refine Within.mapEach fun _ => ?_
    | split
    | dsimp only

theorem remoteOver_within {m : Remote} {v : Word} : Within [.free, .outbox, .mem, .bad, .desk, .regs, .pendc, .goBy, .msix, .threads, .acts, .ready, .delay, .ctxs, .hqueues, .engines, .ddrs, .bufs, .pools, .chans, .locks, .ports, .hostq, .ringLinks, .sq, .rc, .cw, .ring, .gb, .fc, .tb, .boot, .bg] (remoteOver m v) := by
  unfold remoteOver
  repeat' first
    | with_reducible exact Within.pure _
    | with_reducible exact Within.rd _
    | with_reducible exact remoteEnd_within.of (by decide)
    | with_reducible exact remoteNext_within.of (by decide)
    | with_reducible refine Within.bind ?_ fun _ => ?_
    | with_reducible refine Within.onlyIf ?_
    | with_reducible refine Within.each fun _ => ?_
    | with_reducible refine Within.mapEach fun _ => ?_
    | split
    | dsimp only

theorem execRaccRspReceive_within {l : Nat} {s : State} : Effect [.free, .outbox, .mem, .bad, .desk, .regs, .pendc, .goBy, .msix, .threads, .acts, .ready, .delay, .ctxs, .hqueues, .engines, .ddrs, .bufs, .pools, .chans, .locks, .ports, .hostq, .ringLinks, .sq, .rc, .cw, .ring, .gb, .fc, .tb, .boot, .bg] (execRaccRspReceive l s) s := by
  unfold execRaccRspReceive
  refine Within.effect ?_ _
  repeat' first
    | with_reducible exact Within.pure _
    | with_reducible exact Within.rd _
    | with_reducible exact dropRec_within.of (by decide)
    | with_reducible exact remoteOver_within.of (by decide)
    | with_reducible refine takeRec_within  (fun _ => ?_)
    | with_reducible refine Within.bind ?_ fun _ => ?_
    | with_reducible refine Within.onlyIf ?_
    | with_reducible refine Within.each fun _ => ?_
    | with_reducible refine Within.mapEach fun _ => ?_
    | split
    | dsimp only

theorem execRaccTimeout_within {t : Nat} {s : State} : Effect [.free, .outbox, .mem, .bad, .desk, .regs, .pendc, .goBy, .msix, .threads, .acts, .ready, .delay, .ctxs, .hqueues, .engines, .ddrs, .bufs, .pools, .chans, .locks, .ports, .hostq, .ringLinks, .sq, .rc, .cw, .ring, .gb, .fc, .tb, .boot, .bg] (execRaccTimeout t s) s := by
  unfold execRaccTimeout
  refine Within.effect ?_ _
  repeat' first
    | with_reducible exact Within.pure _
    | with_reducible exact Within.rd _
    | with_reducible exact (modRingLinks_within _ _).of (by decide)
    | with_reducible exact count_within.of (by decide)
    | with_reducible exact remoteOver_within.of (by decide)
    | with_reducible refine Within.bind ?_ fun _ => ?_
    | with_reducible refine Within.onlyIf ?_
    | with_reducible refine Within.each fun _ => ?_
    | with_reducible refine Within.mapEach fun _ => ?_
    | split
    | dsimp only

end Sys2Proof.Machine
end

