-- ==== Sys2Proof/Laws/WithinManage.lean ====
section
/-! SUPPORT. Which parts of the state the programs of Machine/Manage.lean change. -/

set_option linter.all false
set_option Elab.async false

namespace Sys2Proof.Machine

theorem execNop_within {c : Cmd} {other : Option Nat} {s : State} : Effect [.outbox, .regs, .hostq, .boot] (execNop c other s) s := by
  unfold execNop
  refine Within.effect ?_ _
  repeat' first
    | with_reducible exact Within.pure _
    | with_reducible exact Within.rd _
    | with_reducible refine command_within (by decide) ?_
    | with_reducible exact commandUnlisted_within.of (by decide)
    | with_reducible refine Answers.pure ?_
    | with_reducible refine Answers.bind ?_ fun _ => ?_
    | with_reducible exact Within.afterAns
    | with_reducible exact Within.afterData
    | with_reducible refine Within.bind ?_ fun _ => ?_
    | with_reducible refine Within.onlyIf ?_
    | with_reducible refine Within.each fun _ => ?_
    | with_reducible refine Within.mapEach fun _ => ?_
    | split
    | dsimp only

theorem execIdentify_within {c : Cmd} {s : State} : Effect [.outbox, .regs, .hostq, .boot] (execIdentify c s) s := by
  unfold execIdentify
  refine Within.effect ?_ _
  repeat' first
    | with_reducible exact Within.pure _
    | with_reducible exact Within.rd _
    | with_reducible refine command_within (by decide) ?_
    | with_reducible refine Answers.pure ?_
    | with_reducible refine Answers.bind ?_ fun _ => ?_
    | with_reducible exact Within.afterAns
    | with_reducible exact Within.afterData
    | with_reducible refine Within.bind ?_ fun _ => ?_
    | with_reducible refine Within.onlyIf ?_
    | with_reducible refine Within.each fun _ => ?_
    | with_reducible refine Within.mapEach fun _ => ?_
    | split
    | dsimp only

theorem execEcho_within {c : Cmd} {s : State} : Effect [.outbox, .regs, .hostq, .boot] (execEcho c s) s := by
  unfold execEcho
  refine Within.effect ?_ _
  repeat' first
    | with_reducible exact Within.pure _
    | with_reducible exact Within.rd _
    | with_reducible refine command_within (by decide) ?_
    | with_reducible refine Answers.pure ?_
    | with_reducible refine Answers.bind ?_ fun _ => ?_
    | with_reducible exact Within.afterAns
    | with_reducible exact Within.afterData
    | with_reducible refine Within.bind ?_ fun _ => ?_
    | with_reducible refine Within.onlyIf ?_
    | with_reducible refine Within.each fun _ => ?_
    | with_reducible refine Within.mapEach fun _ => ?_
    | split
    | dsimp only

theorem execModeSet_within {c : Cmd} {s : State} : Effect [.outbox, .regs, .hostq, .boot, .bg] (execModeSet c s) s := by
  unfold execModeSet
  refine Within.effect ?_ _
  repeat' first
    | with_reducible exact Within.pure _
    | with_reducible exact Within.rd _
    | with_reducible exact background_within.of (by decide)
    | with_reducible exact background_within.within.of (by decide)
    | with_reducible refine command_within (by decide) ?_
    | with_reducible refine Answers.pure ?_
    | with_reducible refine Answers.bind ?_ fun _ => ?_
    | with_reducible exact Within.afterAns
    | with_reducible exact Within.afterData
    | with_reducible refine Within.bind ?_ fun _ => ?_
    | with_reducible refine Within.onlyIf ?_
    | with_reducible refine Within.each fun _ => ?_
    | with_reducible refine Within.mapEach fun _ => ?_
    | split
    | dsimp only

theorem settleUnit_within {u : UnitId} : Within [.free, .outbox, .mem, .bad, .desk, .regs, .act, .threads, .acts, .ready, .delay, .ctxs, .units, .hqueues, .engines, .ddrs, .bufs, .pools, .chans, .locks, .streams, .ports, .pipes, .terms, .hostq, .ringLinks, .sq, .cw, .ring, .gb, .fc, .bg] (settleUnit u) := by
  unfold settleUnit
  repeat' first
    | with_reducible exact Within.pure _
    | with_reducible exact Within.rd _
    | with_reducible exact ddrDetained_within.of (by decide)
    | with_reducible exact fenceSequence_within.of (by decide)
    | with_reducible exact withdrawCore_within.of (by decide)
    | with_reducible refine Within.bind ?_ fun _ => ?_
    | with_reducible refine Within.onlyIf ?_
    | with_reducible refine Within.each fun _ => ?_
    | with_reducible refine Within.mapEach fun _ => ?_
    | split
    | dsimp only

theorem settleFenced_within : Within [.free, .outbox, .mem, .bad, .desk, .regs, .act, .threads, .acts, .ready, .delay, .ctxs, .units, .hqueues, .engines, .ddrs, .bufs, .pools, .chans, .locks, .streams, .ports, .pipes, .terms, .hostq, .ringLinks, .sq, .cw, .ring, .gb, .fc, .bg] (settleFenced) := by
  unfold settleFenced
  repeat' first
    | with_reducible exact Within.pure _
    | with_reducible exact Within.rd _
    | with_reducible exact settleUnit_within.of (by decide)
    | with_reducible refine Within.bind ?_ fun _ => ?_
    | with_reducible refine Within.onlyIf ?_
    | with_reducible refine Within.each fun _ => ?_
    | with_reducible refine Within.mapEach fun _ => ?_
    | split
    | dsimp only

theorem leaveSafe_within {o : Origin} : Within [.free, .outbox, .mem, .bad, .desk, .regs, .act, .threads, .acts, .ready, .delay, .ctxs, .banks, .units, .hqueues, .engines, .ddrs, .bufs, .pools, .chans, .locks, .streams, .ports, .pipes, .admitQ, .terms, .hostq, .ringLinks, .sq, .rc, .cw, .ring, .gb, .fc, .boot, .bg] (leaveSafe o) := by
  unfold leaveSafe
  repeat' first
    | with_reducible exact Within.pure _
    | with_reducible exact Within.rd _
    | with_reducible exact (modBoot_within _).of (by decide)
    | (with_reducible refine Within.emit ?_); rfl
    | with_reducible exact bufDrop_within.of (by decide)
    | with_reducible exact discardCtx_within.of (by decide)
    | with_reducible exact resetNow_within.of (by decide)
    | with_reducible exact setMode_within.of (by decide)
    | with_reducible exact settleFenced_within.of (by decide)
    | with_reducible exact tripEnds_within.of (by decide)
    | with_reducible refine Within.bind ?_ fun _ => ?_
    | with_reducible refine Within.onlyIf ?_
    | with_reducible refine Within.each fun _ => ?_
    | with_reducible refine Within.mapEach fun _ => ?_
    | split
    | dsimp only

theorem enterService_within {o : Origin} : Within [.outbox, .mem, .bad, .regs, .ddrs, .ring, .gb] (enterService o) := by
  unfold enterService
  repeat' first
    | with_reducible exact Within.pure _
    | with_reducible exact Within.rd _
    | with_reducible exact (modRing_within _).of (by decide)
    | with_reducible exact setMode_within.of (by decide)
    | with_reducible refine Within.bind ?_ fun _ => ?_
    | with_reducible refine Within.onlyIf ?_
    | with_reducible refine Within.each fun _ => ?_
    | with_reducible refine Within.mapEach fun _ => ?_
    | split
    | dsimp only

theorem modeGo_within {o : Origin} {target : Nat} : Within [.free, .outbox, .mem, .bad, .desk, .regs, .act, .threads, .acts, .ready, .delay, .ctxs, .banks, .units, .hqueues, .engines, .ddrs, .bufs, .pools, .chans, .locks, .streams, .ports, .pipes, .admitQ, .terms, .hostq, .ringLinks, .sq, .rc, .cw, .ring, .gb, .fc, .boot, .bg] (modeGo o target) := by
  unfold modeGo
  repeat' first
    | with_reducible exact Within.pure _
    | with_reducible exact Within.rd _
    | with_reducible exact enterSafe_within.of (by decide)
    | with_reducible exact enterService_within.of (by decide)
    | with_reducible exact leaveSafe_within.of (by decide)
    | with_reducible refine Within.bind ?_ fun _ => ?_
    | with_reducible refine Within.onlyIf ?_
    | with_reducible refine Within.each fun _ => ?_
    | with_reducible refine Within.mapEach fun _ => ?_
    | split
    | dsimp only

theorem execModeSetComplete_within {s : State} : Effect [.free, .outbox, .mem, .bad, .desk, .pg, .regs, .act, .pendc, .goBy, .msix, .threads, .acts, .ready, .delay, .ctxs, .banks, .fuq, .units, .hqueues, .icache, .learn, .engines, .dirRows, .dirShadow, .dir, .ddrs, .bufs, .pools, .chans, .locks, .streams, .ports, .pipes, .admitQ, .terms, .classes, .hostq, .ringLinks, .sq, .rc, .cw, .ring, .gb, .fc, .tb, .boot, .tap, .bg] (execModeSetComplete s) s := by
  unfold execModeSetComplete
  refine Within.effect ?_ _
  repeat' first
    | with_reducible exact Within.pure _
    | with_reducible exact Within.rd _
    | with_reducible exact bgEnd_within.of (by decide)
    | with_reducible exact modeGo_within.of (by decide)
    | with_reducible exact setMode_within.of (by decide)
    | with_reducible exact warmReset_within.of (by decide)
    | with_reducible refine Answers.pure ?_
    | with_reducible refine Answers.bind ?_ fun _ => ?_
    | with_reducible exact Within.afterAns
    | with_reducible exact Within.afterData
    | with_reducible refine Within.bind ?_ fun _ => ?_
    | with_reducible refine Within.onlyIf ?_
    | with_reducible refine Within.each fun _ => ?_
    | with_reducible refine Within.mapEach fun _ => ?_
    | split
    | dsimp only

theorem execModeGet_within {c : Cmd} {s : State} : Effect [.outbox, .regs, .hostq, .boot] (execModeGet c s) s := by
  unfold execModeGet
  refine Within.effect ?_ _
  repeat' first
    | with_reducible exact Within.pure _
    | with_reducible exact Within.rd _
    | with_reducible refine command_within (by decide) ?_
    | with_reducible refine Answers.pure ?_
    | with_reducible refine Answers.bind ?_ fun _ => ?_
    | with_reducible exact Within.afterAns
    | with_reducible exact Within.afterData
    | with_reducible refine Within.bind ?_ fun _ => ?_
    | with_reducible refine Within.onlyIf ?_
    | with_reducible refine Within.each fun _ => ?_
    | with_reducible refine Within.mapEach fun _ => ?_
    | split
    | dsimp only

theorem execCommit_within {c : Cmd} {s : State} : Effect [.outbox, .regs, .pendc, .goBy, .hostq, .boot, .bg] (execCommit c s) s := by
  unfold execCommit
  refine Within.effect ?_ _
  repeat' first
    | with_reducible exact Within.pure _
    | with_reducible exact Within.rd _
    | with_reducible exact background_within.of (by decide)
    | with_reducible exact background_within.within.of (by decide)
    | with_reducible exact bgCommits_within.of (by decide)
    | with_reducible refine command_within (by decide) ?_
    | with_reducible exact commitWrite_within.of (by decide)
    | with_reducible refine Answers.pure ?_
    | with_reducible refine Answers.bind ?_ fun _ => ?_
    | with_reducible exact Within.afterAns
    | with_reducible exact Within.afterData
    | with_reducible refine Within.bind ?_ fun _ => ?_
    | with_reducible refine Within.onlyIf ?_
    | with_reducible refine Within.each fun _ => ?_
    | with_reducible refine Within.mapEach fun _ => ?_
    | split
    | dsimp only

theorem applyEntry_within {o : Origin} {e : Nat × Word} : Within [.free, .outbox, .mem, .bad, .desk, .regs, .act, .pendc, .goBy, .ddrs, .locks, .hostq, .ringLinks, .ring, .gb, .bg] (applyEntry o e) := by
  unfold applyEntry
  repeat' first
    | with_reducible exact Within.pure _
    | with_reducible exact Within.rd _
    | with_reducible exact commitGrp_within.of (by decide)
    | with_reducible exact storeWord_within.of (by decide)
    | with_reducible refine Within.bind ?_ fun _ => ?_
    | with_reducible refine Within.onlyIf ?_
    | with_reducible refine Within.each fun _ => ?_
    | with_reducible refine Within.mapEach fun _ => ?_
    | split
    | dsimp only

theorem execBoardProfileLoad_within {c : Cmd} {dma : List Byte} {s : State} : Effect [.free, .outbox, .mem, .bad, .desk, .regs, .act, .pendc, .goBy, .ddrs, .locks, .hostq, .ringLinks, .ring, .gb, .boot, .bg] (execBoardProfileLoad c dma s) s := by
  unfold execBoardProfileLoad
  refine Within.effect ?_ _
  repeat' first
    | with_reducible exact Within.pure _
    | with_reducible exact Within.rd _
    | with_reducible exact (modBoot_within _).of (by decide)
    | with_reducible exact applyEntry_within.of (by decide)
    | with_reducible refine command_within (by decide) ?_
    | with_reducible exact gbRecord_within.of (by decide)
    | with_reducible exact hostRead_within.of (by decide)
    | with_reducible refine Answers.pure ?_
    | with_reducible refine Answers.bind ?_ fun _ => ?_
    | with_reducible exact Within.afterAns
    | with_reducible exact Within.afterData
    | with_reducible refine Within.bind ?_ fun _ => ?_
    | with_reducible refine Within.onlyIf ?_
    | with_reducible refine Within.each fun _ => ?_
    | with_reducible refine Within.mapEach fun _ => ?_
    | split
    | dsimp only

theorem execDramInit_within {c : Cmd} {s : State} : Effect [.outbox, .regs, .hostq, .boot, .bg] (execDramInit c s) s := by
  unfold execDramInit
  refine Within.effect ?_ _
  repeat' first
    | with_reducible exact Within.pure _
    | with_reducible exact Within.rd _
    | with_reducible exact (modBoot_within _).of (by decide)
    | with_reducible exact background_within.of (by decide)
    | with_reducible exact background_within.within.of (by decide)
    | with_reducible refine command_within (by decide) ?_
    | with_reducible refine Answers.pure ?_
    | with_reducible refine Answers.bind ?_ fun _ => ?_
    | with_reducible exact Within.afterAns
    | with_reducible exact Within.afterData
    | with_reducible refine Within.bind ?_ fun _ => ?_
    | with_reducible refine Within.onlyIf ?_
    | with_reducible refine Within.each fun _ => ?_
    | with_reducible refine Within.mapEach fun _ => ?_
    | split
    | dsimp only

theorem execDramInitComplete_within {laneFail : List Nat} {s : State} : Effect [.free, .outbox, .mem, .bad, .desk, .regs, .act, .pendc, .goBy, .ddrs, .locks, .hostq, .ringLinks, .ring, .gb, .fc, .boot, .bg] (execDramInitComplete laneFail s) s := by
  unfold execDramInitComplete
  refine Within.effect ?_ _
  repeat' first
    | with_reducible exact Within.pure _
    | with_reducible exact Within.rd _
    | with_reducible exact (modBoot_within _).of (by decide)
    | with_reducible exact applyEntry_within.of (by decide)
    | with_reducible exact bgEnd_within.of (by decide)
    | with_reducible exact gbRecord_within.of (by decide)
    | with_reducible exact initChannel_within.of (by decide)
    | with_reducible exact store_within.of (by decide)
    | with_reducible refine Within.bind ?_ fun _ => ?_
    | with_reducible refine Within.onlyIf ?_
    | with_reducible refine Within.each fun _ => ?_
    | with_reducible refine Within.mapEach fun _ => ?_
    | split
    | dsimp only

theorem execDramStatus_within {c : Cmd} {s : State} : Effect [.outbox, .regs, .hostq, .boot] (execDramStatus c s) s := by
  unfold execDramStatus
  refine Within.effect ?_ _
  repeat' first
    | with_reducible exact Within.pure _
    | with_reducible exact Within.rd _
    | with_reducible refine command_within (by decide) ?_
    | with_reducible refine Answers.pure ?_
    | with_reducible refine Answers.bind ?_ fun _ => ?_
    | with_reducible exact Within.afterAns
    | with_reducible exact Within.afterData
    | with_reducible refine Within.bind ?_ fun _ => ?_
    | with_reducible refine Within.onlyIf ?_
    | with_reducible refine Within.each fun _ => ?_
    | with_reducible refine Within.mapEach fun _ => ?_
    | split
    | dsimp only

theorem execCountersRead_within {c : Cmd} {s : State} : Effect [.outbox, .mem, .bad, .regs, .ddrs, .hostq, .gb, .boot] (execCountersRead c s) s := by
  unfold execCountersRead
  refine Within.effect ?_ _
  repeat' first
    | with_reducible exact Within.pure _
    | with_reducible exact Within.rd _
    | with_reducible refine command_within (by decide) ?_
    | with_reducible exact readReg_within.of (by decide)
    | with_reducible refine Answers.pure ?_
    | with_reducible refine Answers.bind ?_ fun _ => ?_
    | with_reducible exact Within.afterAns
    | with_reducible exact Within.afterData
    | with_reducible refine Within.bind ?_ fun _ => ?_
    | with_reducible refine Within.onlyIf ?_
    | with_reducible refine Within.each fun _ => ?_
    | with_reducible refine Within.mapEach fun _ => ?_
    | split
    | dsimp only

theorem execTimeSet_within {c : Cmd} {s : State} : Effect [.outbox, .mem, .bad, .regs, .ddrs, .hostq, .gb, .tb, .boot] (execTimeSet c s) s := by
  unfold execTimeSet
  refine Within.effect ?_ _
  repeat' first
    | with_reducible exact Within.pure _
    | with_reducible exact Within.rd _
    | with_reducible refine command_within (by decide) ?_
    | with_reducible exact tbRate_within.of (by decide)
    | with_reducible exact tbSet_within.of (by decide)
    | with_reducible exact tbStep_within.of (by decide)
    | with_reducible refine Answers.pure ?_
    | with_reducible refine Answers.bind ?_ fun _ => ?_
    | with_reducible exact Within.afterAns
    | with_reducible exact Within.afterData
    | with_reducible refine Within.bind ?_ fun _ => ?_
    | with_reducible refine Within.onlyIf ?_
    | with_reducible refine Within.each fun _ => ?_
    | with_reducible refine Within.mapEach fun _ => ?_
    | split
    | dsimp only

theorem execPowerRung_within {c : Cmd} {s : State} : Effect [.free, .outbox, .mem, .bad, .desk, .regs, .ddrs, .hostq, .gb, .boot] (execPowerRung c s) s := by
  unfold execPowerRung
  refine Within.effect ?_ _
  repeat' first
    | with_reducible exact Within.pure _
    | with_reducible exact Within.rd _
    | with_reducible refine command_within (by decide) ?_
    | with_reducible exact gbRecord_within.of (by decide)
    | with_reducible exact rungSet_within.of (by decide)
    | with_reducible exact setFld_within.of (by decide)
    | with_reducible refine Answers.pure ?_
    | with_reducible refine Answers.bind ?_ fun _ => ?_
    | with_reducible exact Within.afterAns
    | with_reducible exact Within.afterData
    | with_reducible refine Within.bind ?_ fun _ => ?_
    | with_reducible refine Within.onlyIf ?_
    | with_reducible refine Within.each fun _ => ?_
    | with_reducible refine Within.mapEach fun _ => ?_
    | split
    | dsimp only

theorem execDiagRun_within {c : Cmd} {s : State} : Effect [.outbox, .regs, .hostq, .boot, .bg] (execDiagRun c s) s := by
  unfold execDiagRun
  refine Within.effect ?_ _
  repeat' first
    | with_reducible exact Within.pure _
    | with_reducible exact Within.rd _
    | with_reducible exact background_within.of (by decide)
    | with_reducible exact background_within.within.of (by decide)
    | with_reducible refine command_within (by decide) ?_
    | with_reducible refine Answers.pure ?_
    | with_reducible refine Answers.bind ?_ fun _ => ?_
    | with_reducible exact Within.afterAns
    | with_reducible exact Within.afterData
    | with_reducible refine Within.bind ?_ fun _ => ?_
    | with_reducible refine Within.onlyIf ?_
    | with_reducible refine Within.each fun _ => ?_
    | with_reducible refine Within.mapEach fun _ => ?_
    | split
    | dsimp only

theorem loseBytes_within {addrs : List Nat} : Within [.free, .mem] (loseBytes addrs) := by
  unfold loseBytes
  repeat' first
    | with_reducible exact Within.pure _
    | with_reducible exact Within.rd _
    | (with_reducible refine Within.emit ?_); rfl
    | with_reducible exact draw_within.of (by decide)
    | with_reducible refine Within.bind ?_ fun _ => ?_
    | with_reducible refine Within.onlyIf ?_
    | with_reducible refine Within.each fun _ => ?_
    | with_reducible refine Within.mapEach fun _ => ?_
    | split
    | dsimp only

theorem diagEffect_within {u : UnitId} : Within [.free, .mem] (diagEffect u) := by
  unfold diagEffect
  repeat' first
    | with_reducible exact Within.pure _
    | with_reducible exact Within.rd _
    | with_reducible exact loseBytes_within.of (by decide)
    | with_reducible refine Within.bind ?_ fun _ => ?_
    | with_reducible refine Within.onlyIf ?_
    | with_reducible refine Within.each fun _ => ?_
    | with_reducible refine Within.mapEach fun _ => ?_
    | split
    | dsimp only

theorem execDiagRunComplete_within {result : Nat} {s : State} : Effect [.free, .outbox, .mem, .bad, .regs, .ddrs, .hostq, .gb, .bg] (execDiagRunComplete result s) s := by
  unfold execDiagRunComplete
  refine Within.effect ?_ _
  repeat' first
    | with_reducible exact Within.pure _
    | with_reducible exact Within.rd _
    | with_reducible exact bgEnd_within.of (by decide)
    | with_reducible exact diagEffect_within.of (by decide)
    | with_reducible exact gbRecord_within.of (by decide)
    | with_reducible refine Within.bind ?_ fun _ => ?_
    | with_reducible refine Within.onlyIf ?_
    | with_reducible refine Within.each fun _ => ?_
    | with_reducible refine Within.mapEach fun _ => ?_
    | split
    | dsimp only

end Sys2Proof.Machine
end

