-- ==== Sys2Proof/Laws/WithinTableCmd.lean ====
section
/-! SUPPORT. Which parts of the state the programs of Machine/TableCmd.lean change. -/

set_option linter.all false
set_option Elab.async false

namespace Sys2Proof.Machine

theorem execTableCreate_within {c : Cmd} {s : State} : Effect [.outbox, .mem, .bad, .regs, .ddrs, .hostq, .gb, .boot] (execTableCreate c s) s := by
  unfold execTableCreate
  refine Within.effect ?_ _
  repeat' first
    | with_reducible exact Within.pure _
    | with_reducible exact Within.rd _
    | (with_reducible refine Within.emit ?_); rfl
    | with_reducible refine command_within (by decide) ?_
    | with_reducible exact gbRecord_within.of (by decide)
    | with_reducible exact zeroMem_within.of (by decide)
    | with_reducible refine Answers.pure ?_
    | with_reducible refine Answers.bind ?_ fun _ => ?_
    | with_reducible exact Within.afterAns
    | with_reducible exact Within.afterData
    | with_reducible refine Within.bind ?_ fun _ => ?_
    | with_reducible refine Within.onlyIf ?_
    | with_reducible refine Within.each fun _ => ?_
    | with_reducible refine Within.mapEach fun _ => ?_
    | split
    | dsimp only

theorem execTableDelete_within {c : Cmd} {s : State} : Effect [.outbox, .mem, .bad, .regs, .learn, .ddrs, .hostq, .gb, .boot, .bg] (execTableDelete c s) s := by
  unfold execTableDelete
  refine Within.effect ?_ _
  repeat' first
    | with_reducible exact Within.pure _
    | with_reducible exact Within.rd _
    | with_reducible exact background_within.of (by decide)
    | with_reducible exact background_within.within.of (by decide)
    | with_reducible refine command_within (by decide) ?_
    | with_reducible exact tableClear_within.of (by decide)
    | with_reducible refine Answers.pure ?_
    | with_reducible refine Answers.bind ?_ fun _ => ?_
    | with_reducible exact Within.afterAns
    | with_reducible exact Within.afterData
    | with_reducible refine Within.bind ?_ fun _ => ?_
    | with_reducible refine Within.onlyIf ?_
    | with_reducible refine Within.each fun _ => ?_
    | with_reducible refine Within.mapEach fun _ => ?_
    | split
    | dsimp only

theorem execTableDeleteComplete_within {t : Nat} {s : State} : Effect [.outbox, .regs, .hostq, .bg] (execTableDeleteComplete t s) s := by
  unfold execTableDeleteComplete
  refine Within.effect ?_ _
  repeat' first
    | with_reducible exact Within.pure _
    | with_reducible exact Within.rd _
    | with_reducible exact bgFinish_within.of (by decide)
    | with_reducible refine Within.bind ?_ fun _ => ?_
    | with_reducible refine Within.onlyIf ?_
    | with_reducible refine Within.each fun _ => ?_
    | with_reducible refine Within.mapEach fun _ => ?_
    | split
    | dsimp only

theorem tableAnswer_within {c : Cmd} {op : Nat} : Answers [.free, .outbox, .mem, .bad, .regs, .engines, .ddrs, .gb, .fc] (tableAnswer c op) := by
  unfold tableAnswer
  repeat' first
    | with_reducible exact Within.pure _
    | with_reducible exact Within.rd _
    | with_reducible exact portOp_within.of (by decide)
    | with_reducible refine Answers.pure ?_
    | with_reducible refine Answers.bind ?_ fun _ => ?_
    | with_reducible exact Within.afterAns
    | with_reducible exact Within.afterData
    | with_reducible refine Within.bind ?_ fun _ => ?_
    | with_reducible refine Within.onlyIf ?_
    | with_reducible refine Within.each fun _ => ?_
    | with_reducible refine Within.mapEach fun _ => ?_
    | split
    | dsimp only

theorem tableCommand_within {c : Cmd} {row : State → CmdRow} {op : Nat} : Within [.free, .outbox, .mem, .bad, .regs, .engines, .ddrs, .hostq, .gb, .fc, .boot] (tableCommand c row op) := by
  unfold tableCommand
  repeat' first
    | with_reducible exact Within.pure _
    | with_reducible exact Within.rd _
    | with_reducible refine command_within (by decide) ?_
    | with_reducible refine quiet_within  ?_
    | with_reducible exact tableAnswer_within.of (by decide)
    | with_reducible exact tableAnswer_within.within.of (by decide)
    | with_reducible refine Answers.pure ?_
    | with_reducible refine Answers.bind ?_ fun _ => ?_
    | with_reducible exact Within.afterAns
    | with_reducible exact Within.afterData
    | with_reducible refine Within.bind ?_ fun _ => ?_
    | with_reducible refine Within.onlyIf ?_
    | with_reducible refine Within.each fun _ => ?_
    | with_reducible refine Within.mapEach fun _ => ?_
    | split
    | dsimp only

theorem execTableInsert_within {c : Cmd} {s : State} : Effect [.free, .outbox, .mem, .bad, .regs, .engines, .ddrs, .hostq, .gb, .fc, .boot] (execTableInsert c s) s := by
  unfold execTableInsert
  refine Within.effect ?_ _
  repeat' first
    | with_reducible exact Within.pure _
    | with_reducible exact Within.rd _
    | with_reducible exact tableCommand_within.of (by decide)
    | with_reducible refine Within.bind ?_ fun _ => ?_
    | with_reducible refine Within.onlyIf ?_
    | with_reducible refine Within.each fun _ => ?_
    | with_reducible refine Within.mapEach fun _ => ?_
    | split
    | dsimp only

theorem execTableUpdate_within {c : Cmd} {s : State} : Effect [.free, .outbox, .mem, .bad, .regs, .engines, .ddrs, .hostq, .gb, .fc, .boot] (execTableUpdate c s) s := by
  unfold execTableUpdate
  refine Within.effect ?_ _
  repeat' first
    | with_reducible exact Within.pure _
    | with_reducible exact Within.rd _
    | with_reducible exact tableCommand_within.of (by decide)
    | with_reducible refine Within.bind ?_ fun _ => ?_
    | with_reducible refine Within.onlyIf ?_
    | with_reducible refine Within.each fun _ => ?_
    | with_reducible refine Within.mapEach fun _ => ?_
    | split
    | dsimp only

theorem execTableRemove_within {c : Cmd} {s : State} : Effect [.free, .outbox, .mem, .bad, .regs, .engines, .ddrs, .hostq, .gb, .fc, .boot] (execTableRemove c s) s := by
  unfold execTableRemove
  refine Within.effect ?_ _
  repeat' first
    | with_reducible exact Within.pure _
    | with_reducible exact Within.rd _
    | with_reducible exact tableCommand_within.of (by decide)
    | with_reducible refine Within.bind ?_ fun _ => ?_
    | with_reducible refine Within.onlyIf ?_
    | with_reducible refine Within.each fun _ => ?_
    | with_reducible refine Within.mapEach fun _ => ?_
    | split
    | dsimp only

theorem execTableRead_within {c : Cmd} {s : State} : Effect [.free, .outbox, .mem, .bad, .regs, .engines, .ddrs, .hostq, .gb, .fc, .boot] (execTableRead c s) s := by
  unfold execTableRead
  refine Within.effect ?_ _
  repeat' first
    | with_reducible exact Within.pure _
    | with_reducible exact Within.rd _
    | with_reducible exact tableCommand_within.of (by decide)
    | with_reducible refine Within.bind ?_ fun _ => ?_
    | with_reducible refine Within.onlyIf ?_
    | with_reducible refine Within.each fun _ => ?_
    | with_reducible refine Within.mapEach fun _ => ?_
    | split
    | dsimp only

theorem bulkOne_within {o : Origin} {t : Nat} {replace : Bool} {r : List Byte} : Within [.free, .outbox, .mem, .bad, .regs, .engines, .ddrs, .gb, .fc] (bulkOne o t replace r) := by
  unfold bulkOne
  repeat' first
    | with_reducible exact Within.pure _
    | with_reducible exact Within.rd _
    | with_reducible exact portOp_within.of (by decide)
    | with_reducible refine Within.bind ?_ fun _ => ?_
    | with_reducible refine Within.onlyIf ?_
    | with_reducible refine Within.each fun _ => ?_
    | with_reducible refine Within.mapEach fun _ => ?_
    | split
    | dsimp only

theorem execTableBulkLoad_within {c : Cmd} {s : State} : Effect [.free, .outbox, .mem, .bad, .regs, .engines, .ddrs, .hostq, .gb, .fc, .boot] (execTableBulkLoad c s) s := by
  unfold execTableBulkLoad
  refine Within.effect ?_ _
  repeat' first
    | with_reducible exact Within.pure _
    | with_reducible exact Within.rd _
    | with_reducible exact bulkOne_within.of (by decide)
    | with_reducible refine command_within (by decide) ?_
    | with_reducible refine quiet_within  ?_
    | with_reducible refine Answers.pure ?_
    | with_reducible refine Answers.bind ?_ fun _ => ?_
    | with_reducible exact Within.afterAns
    | with_reducible exact Within.afterData
    | with_reducible refine Within.bind ?_ fun _ => ?_
    | with_reducible refine Within.onlyIf ?_
    | with_reducible refine Within.each fun _ => ?_
    | with_reducible refine Within.mapEach fun _ => ?_
    | split
    | dsimp only

theorem execTableLearnCfg_within {c : Cmd} {s : State} : Effect [.outbox, .mem, .bad, .regs, .learn, .ddrs, .hostq, .gb, .boot] (execTableLearnCfg c s) s := by
  unfold execTableLearnCfg
  refine Within.effect ?_ _
  repeat' first
    | with_reducible exact Within.pure _
    | with_reducible exact Within.rd _
    | with_reducible exact (modRegs_within _ _).of (by decide)
    | (with_reducible refine Within.emit ?_); rfl
    | with_reducible refine command_within (by decide) ?_
    | with_reducible exact gbRecord_within.of (by decide)
    | with_reducible refine Answers.pure ?_
    | with_reducible refine Answers.bind ?_ fun _ => ?_
    | with_reducible exact Within.afterAns
    | with_reducible exact Within.afterData
    | with_reducible refine Within.bind ?_ fun _ => ?_
    | with_reducible refine Within.onlyIf ?_
    | with_reducible refine Within.each fun _ => ?_
    | with_reducible refine Within.mapEach fun _ => ?_
    | split
    | dsimp only

theorem execLearnForward_within {n : Nat} {s : State} : Effect [.free, .outbox, .regs, .hostq, .fc] (execLearnForward n s) s := by
  unfold execLearnForward
  refine Within.effect ?_ _
  repeat' first
    | with_reducible exact Within.pure _
    | with_reducible exact Within.rd _
    | with_reducible exact postNotice_within.of (by decide)
    | with_reducible exact readData_within.of (by decide)
    | with_reducible exact setFld_within.of (by decide)
    | with_reducible refine Within.bind ?_ fun _ => ?_
    | with_reducible refine Within.onlyIf ?_
    | with_reducible refine Within.each fun _ => ?_
    | with_reducible refine Within.mapEach fun _ => ?_
    | split
    | dsimp only

theorem execDirWrite_within {c : Cmd} {s : State} : Effect [.outbox, .mem, .bad, .regs, .dirRows, .dirShadow, .ddrs, .hostq, .gb, .boot] (execDirWrite c s) s := by
  unfold execDirWrite
  refine Within.effect ?_ _
  repeat' first
    | with_reducible exact Within.pure _
    | with_reducible exact Within.rd _
    | with_reducible refine command_within (by decide) ?_
    | with_reducible exact dirUpdate_within.of (by decide)
    | with_reducible exact gbRecord_within.of (by decide)
    | with_reducible refine Answers.pure ?_
    | with_reducible refine Answers.bind ?_ fun _ => ?_
    | with_reducible exact Within.afterAns
    | with_reducible exact Within.afterData
    | with_reducible refine Within.bind ?_ fun _ => ?_
    | with_reducible refine Within.onlyIf ?_
    | with_reducible refine Within.each fun _ => ?_
    | with_reducible refine Within.mapEach fun _ => ?_
    | split
    | dsimp only

theorem execDirInvalidate_within {c : Cmd} {s : State} : Effect [.outbox, .mem, .bad, .regs, .dirRows, .dirShadow, .ddrs, .hostq, .gb, .boot] (execDirInvalidate c s) s := by
  unfold execDirInvalidate
  refine Within.effect ?_ _
  repeat' first
    | with_reducible exact Within.pure _
    | with_reducible exact Within.rd _
    | with_reducible refine command_within (by decide) ?_
    | with_reducible exact dirClear_within.of (by decide)
    | with_reducible refine Answers.pure ?_
    | with_reducible refine Answers.bind ?_ fun _ => ?_
    | with_reducible exact Within.afterAns
    | with_reducible exact Within.afterData
    | with_reducible refine Within.bind ?_ fun _ => ?_
    | with_reducible refine Within.onlyIf ?_
    | with_reducible refine Within.each fun _ => ?_
    | with_reducible refine Within.mapEach fun _ => ?_
    | split
    | dsimp only

theorem execDirRead_within {c : Cmd} {s : State} : Effect [.outbox, .regs, .hostq, .boot] (execDirRead c s) s := by
  unfold execDirRead
  refine Within.effect ?_ _
  repeat' first
    | with_reducible exact Within.pure _
    | with_reducible exact Within.rd _
    | with_reducible refine command_within (by decide) ?_
    | with_reducible refine Answers.pure ?_
    | with_reducible refine Answers.bind ?_ fun _ => ?_
    | with_reducible exact Within.afterAns
    | with_reducible exact Within.afterData
    | with_reducible refine Within.bind ?_ fun _ => ?_
    | with_reducible refine Within.onlyIf ?_
    | with_reducible refine Within.each fun _ => ?_
    | with_reducible refine Within.mapEach fun _ => ?_
    | split
    | dsimp only

theorem execDirProfile_within {c : Cmd} {s : State} : Effect [.outbox, .mem, .bad, .regs, .act, .pendc, .goBy, .ddrs, .locks, .hostq, .ringLinks, .ring, .gb, .boot, .bg] (execDirProfile c s) s := by
  unfold execDirProfile
  refine Within.effect ?_ _
  repeat' first
    | with_reducible exact Within.pure _
    | with_reducible exact Within.rd _
    | with_reducible refine command_within (by decide) ?_
    | with_reducible exact commitGrp_within.of (by decide)
    | with_reducible exact shadowWrite_within.of (by decide)
    | with_reducible refine Answers.pure ?_
    | with_reducible refine Answers.bind ?_ fun _ => ?_
    | with_reducible exact Within.afterAns
    | with_reducible exact Within.afterData
    | with_reducible refine Within.bind ?_ fun _ => ?_
    | with_reducible refine Within.onlyIf ?_
    | with_reducible refine Within.each fun _ => ?_
    | with_reducible refine Within.mapEach fun _ => ?_
    | split
    | dsimp only

end Sys2Proof.Machine
end

