-- ==== Sys2Proof/Machine/Touches.lean ====
section
/-! DEFINITION. For each command the parts of the state it may change: what a statement about what a command leaves alone
refers to.  A part not named is exactly as before, whatever the command's operands and whatever path it takes. -/

namespace Sys2Proof

/-- The parts of the state a command may change. -/
def Instr.parts : Instr → List Machine.StatePart
  | .registerWrite _ _ _ _ => [.free, .outbox, .mem, .bad, .desk, .regs, .pendc, .goBy, .msix, .threads, .acts, .ready, .delay, .ctxs, .hqueues, .engines, .ddrs, .chans, .locks, .ports, .hostq, .ringLinks, .sq, .rc, .cw, .ring, .gb, .fc, .tb, .boot, .bg]
  | .commitGo _ _ _ _ => [.free, .outbox, .mem, .bad, .desk, .regs, .pendc, .goBy, .msix, .threads, .acts, .ready, .delay, .ctxs, .hqueues, .engines, .ddrs, .chans, .locks, .ports, .hostq, .ringLinks, .sq, .rc, .cw, .ring, .gb, .fc, .tb, .boot, .bg]
  | .commitSafePoint _ => [.outbox, .mem, .bad, .regs, .act, .ddrs, .locks, .hostq, .ringLinks, .ring, .gb, .bg]
  | .frameReceive _ _ _ => [.outbox, .regs, .ports]
  | .pauseFrameReceive _ _ => [.regs, .ports]
  | .pfcFrameReceive _ _ _ => [.regs, .ports]
  | .pauseExpire _ _ => [.free, .regs, .ports]
  | .pauseStorm _ _ => [.outbox, .regs]
  | .clientLinkChange _ _ => [.outbox, .regs, .bufs, .pools, .streams, .ports]
  | .frameTransmit _ => [.outbox, .regs, .bufs, .pools, .ports]
  | .txtsPop _ _ _ _ => [.regs, .ports]
  | .fstDataReceive _ => [.free, .outbox, .regs, .bufs, .pools, .streams, .ports]
  | .nakRepeat _ => [.free, .regs, .ports]
  | .ackDelayExpire _ => [.free, .regs, .streams, .ports]
  | .fstAckReceive _ => [.free, .regs, .bufs, .pools, .streams, .ports]
  | .fstNakReceive _ => [.free, .outbox, .regs, .streams, .ports, .fc]
  | .fstHelloRxStream _ => [.free, .regs, .streams, .ports]
  | .fstHelloTxStream _ => [.free, .regs, .bufs, .pools, .streams, .ports]
  | .fstCloseRxStream _ => [.free, .regs, .streams, .ports]
  | .fstCloseTxStream _ => [.free, .outbox, .mem, .bad, .regs, .ddrs, .bufs, .pools, .streams, .ports, .hostq, .gb, .bg]
  | .rxStreamCloseDone _ => [.free, .regs, .bufs, .pools, .streams, .ports]
  | .messageHandOver _ => [.outbox, .mem, .bad, .regs, .act, .ddrs, .locks, .streams, .ports, .pipes, .terms, .hostq, .ringLinks, .ring, .gb, .bg]
  | .fstTxSend _ => [.free, .outbox, .regs, .streams, .ports, .fc]
  | .fstRtoTimeout _ => [.free, .outbox, .mem, .bad, .regs, .ddrs, .bufs, .pools, .streams, .ports, .hostq, .gb, .fc, .bg]
  | .helloRtoTimeout _ => [.free, .outbox, .mem, .bad, .regs, .ddrs, .bufs, .pools, .streams, .ports, .hostq, .gb, .bg]
  | .closeRtoTimeout _ => [.free, .outbox, .mem, .bad, .regs, .ddrs, .bufs, .pools, .streams, .ports, .hostq, .gb, .bg]
  | .walkComplete _ _ => [.free, .outbox, .regs, .bufs, .pools, .streams, .ports, .pipes, .terms, .hostq, .sq]
  | .holdQueueRelease _ => [.free, .outbox, .regs, .bufs, .pools, .streams, .ports, .pipes, .terms, .hostq, .sq]
  | .admission => [.free, .outbox, .mem, .bad, .regs, .act, .ddrs, .bufs, .pools, .locks, .streams, .ports, .admitQ, .terms, .hostq, .ringLinks, .sq, .ring, .gb, .bg]
  | .contextCreate => [.free, .outbox, .mem, .bad, .regs, .act, .ctxs, .banks, .ddrs, .locks, .admitQ, .hostq, .ringLinks, .sq, .rc, .cw, .ring, .gb, .fc, .bg]
  | .tokenArrive _ => [.free, .outbox, .mem, .bad, .regs, .acts, .ready, .delay, .ctxs, .banks, .fuq, .engines, .dir, .ddrs, .sq, .rc, .cw, .ring, .fc]
  | .readyFire _ => [.free, .outbox, .mem, .bad, .regs, .acts, .ready, .delay, .ctxs, .banks, .fuq, .engines, .dir, .ddrs, .sq, .rc, .cw, .ring, .fc]
  | .spillRefill _ => [.free, .outbox, .mem, .bad, .regs, .ctxs, .banks, .ddrs, .rc, .fc]
  | .bankResume _ => [.banks]
  | .contextPark _ => [.outbox, .mem, .bad, .regs, .ctxs, .banks, .ddrs, .rc]
  | .parkTimeout _ => [.mem, .bad, .regs, .delay, .ctxs, .banks, .ddrs, .sq]
  | .contextFree _ => [.outbox, .mem, .bad, .regs, .delay, .ctxs, .banks, .ddrs, .bufs, .pools, .locks, .terms, .sq, .rc, .cw]
  | .stalemate => [.outbox, .regs]
  | .tenikStalemateAction => [.regs, .rc]
  | .abandonContext _ => [.free, .outbox, .mem, .bad, .regs, .threads, .acts, .ready, .delay, .ctxs, .ddrs, .sq, .rc, .cw, .fc]
  | .abandonFinish _ => [.free, .outbox, .mem, .bad, .regs, .delay, .ctxs, .banks, .ddrs, .bufs, .pools, .locks, .admitQ, .terms, .hostq, .sq, .rc, .cw, .fc]
  | .dispatch _ => [.desk, .regs, .threads, .acts, .ready, .ctxs, .sq]
  | .preemptSave _ => [.mem, .bad, .desk, .regs, .threads, .acts, .ready, .ctxs, .hqueues, .ddrs, .chans, .locks, .sq, .cw]
  | .threadTimerDue _ => [.regs, .threads, .delay, .sq]
  | .retireApply _ => [.free, .outbox, .mem, .bad, .regs, .acts, .ctxs, .banks, .engines, .ddrs, .bufs, .ringLinks, .sq, .cw, .ring, .fc]
  | .messageRelease _ => [.free, .outbox, .mem, .bad, .regs, .act, .ddrs, .bufs, .pools, .locks, .streams, .ports, .pipes, .terms, .hostq, .ringLinks, .cw, .ring, .gb, .fc, .bg]
  | .laneTakeoverEnd _ => [.regs]
  | .crosswalkHold _ => [.outbox, .regs]
  | .loadReturn _ _ => [.free, .outbox, .mem, .bad, .desk, .regs, .pendc, .goBy, .msix, .threads, .acts, .ready, .delay, .ctxs, .hqueues, .engines, .ddrs, .bufs, .pools, .chans, .locks, .ports, .hostq, .ringLinks, .sq, .rc, .cw, .ring, .gb, .fc, .tb, .boot, .bg]
  | .threadFault _ _ => [.outbox, .mem, .bad, .desk, .regs, .threads, .acts, .ready, .ctxs, .hqueues, .ddrs, .chans, .locks, .sq, .cw, .fc]
  | .seatLimit _ => [.outbox, .mem, .bad, .desk, .regs, .threads, .acts, .ready, .ctxs, .hqueues, .ddrs, .chans, .locks, .sq, .cw, .fc]
  | .threadRelease _ _ _ => [.mem, .bad, .regs, .threads, .acts, .ready, .delay, .ctxs, .hqueues, .ddrs, .chans, .locks, .sq, .rc, .cw]
  | .threadDrop _ _ _ => [.mem, .bad, .regs, .threads, .acts, .ready, .delay, .ctxs, .hqueues, .ddrs, .chans, .locks, .sq, .rc, .cw]
  | .threadReset _ _ _ => [.mem, .bad, .regs, .threads, .acts, .ready, .delay, .ctxs, .hqueues, .ddrs, .chans, .locks, .sq, .rc, .cw]
  | .threadStalemate _ => [.desk, .regs, .threads]
  | .debugHalt _ _ _ => [.outbox, .mem, .bad, .regs, .threads, .acts, .ready, .ctxs, .hqueues, .ddrs, .locks, .sq, .cw, .gb]
  | .haltForced _ => [.mem, .bad, .regs, .threads, .acts, .ready, .ctxs, .hqueues, .ddrs, .chans, .locks, .sq, .cw]
  | .debugResume _ _ _ => [.outbox, .mem, .bad, .regs, .threads, .ddrs, .gb]
  | .debugStep _ _ _ => [.outbox, .mem, .bad, .regs, .threads, .ddrs, .gb]
  | .dbgDataWrite _ _ _ _ => [.outbox, .mem, .bad, .regs, .threads, .ddrs, .gb]
  | .dbgDataRead _ _ => [.outbox, .mem, .bad, .regs, .ddrs, .gb]
  | .flagWake _ => [.desk, .regs, .threads, .acts, .ready, .ctxs, .sq]
  | .add _ _ _ _ _ => [.outbox, .mem, .bad, .desk, .regs, .threads, .acts, .ready, .ctxs, .hqueues, .ddrs, .chans, .locks, .sq, .cw, .fc]
  | .sub _ _ _ _ _ => [.outbox, .mem, .bad, .desk, .regs, .threads, .acts, .ready, .ctxs, .hqueues, .ddrs, .chans, .locks, .sq, .cw, .fc]
  | .and _ _ _ _ _ => [.outbox, .mem, .bad, .desk, .regs, .threads, .acts, .ready, .ctxs, .hqueues, .ddrs, .chans, .locks, .sq, .cw, .fc]
  | .or _ _ _ _ _ => [.outbox, .mem, .bad, .desk, .regs, .threads, .acts, .ready, .ctxs, .hqueues, .ddrs, .chans, .locks, .sq, .cw, .fc]
  | .xor _ _ _ _ _ => [.outbox, .mem, .bad, .desk, .regs, .threads, .acts, .ready, .ctxs, .hqueues, .ddrs, .chans, .locks, .sq, .cw, .fc]
  | .andn _ _ _ _ _ => [.outbox, .mem, .bad, .desk, .regs, .threads, .acts, .ready, .ctxs, .hqueues, .ddrs, .chans, .locks, .sq, .cw, .fc]
  | .sll _ _ _ _ _ => [.outbox, .mem, .bad, .desk, .regs, .threads, .acts, .ready, .ctxs, .hqueues, .ddrs, .chans, .locks, .sq, .cw, .fc]
  | .srl _ _ _ _ _ => [.outbox, .mem, .bad, .desk, .regs, .threads, .acts, .ready, .ctxs, .hqueues, .ddrs, .chans, .locks, .sq, .cw, .fc]
  | .sra _ _ _ _ _ => [.outbox, .mem, .bad, .desk, .regs, .threads, .acts, .ready, .ctxs, .hqueues, .ddrs, .chans, .locks, .sq, .cw, .fc]
  | .ror _ _ _ _ _ => [.outbox, .mem, .bad, .desk, .regs, .threads, .acts, .ready, .ctxs, .hqueues, .ddrs, .chans, .locks, .sq, .cw, .fc]
  | .mul _ _ _ _ _ => [.outbox, .mem, .bad, .desk, .regs, .threads, .acts, .ready, .ctxs, .hqueues, .ddrs, .chans, .locks, .sq, .cw, .fc]
  | .mulhu _ _ _ _ _ => [.outbox, .mem, .bad, .desk, .regs, .threads, .acts, .ready, .ctxs, .hqueues, .ddrs, .chans, .locks, .sq, .cw, .fc]
  | .mulhs _ _ _ _ _ => [.outbox, .mem, .bad, .desk, .regs, .threads, .acts, .ready, .ctxs, .hqueues, .ddrs, .chans, .locks, .sq, .cw, .fc]
  | .minu _ _ _ _ _ => [.outbox, .mem, .bad, .desk, .regs, .threads, .acts, .ready, .ctxs, .hqueues, .ddrs, .chans, .locks, .sq, .cw, .fc]
  | .maxu _ _ _ _ _ => [.outbox, .mem, .bad, .desk, .regs, .threads, .acts, .ready, .ctxs, .hqueues, .ddrs, .chans, .locks, .sq, .cw, .fc]
  | .mins _ _ _ _ _ => [.outbox, .mem, .bad, .desk, .regs, .threads, .acts, .ready, .ctxs, .hqueues, .ddrs, .chans, .locks, .sq, .cw, .fc]
  | .maxs _ _ _ _ _ => [.outbox, .mem, .bad, .desk, .regs, .threads, .acts, .ready, .ctxs, .hqueues, .ddrs, .chans, .locks, .sq, .cw, .fc]
  | .cmp _ _ _ _ _ => [.outbox, .mem, .bad, .desk, .regs, .threads, .acts, .ready, .ctxs, .hqueues, .ddrs, .chans, .locks, .sq, .cw, .fc]
  | .tst _ _ _ _ _ => [.outbox, .mem, .bad, .desk, .regs, .threads, .acts, .ready, .ctxs, .hqueues, .ddrs, .chans, .locks, .sq, .cw, .fc]
  | .sextb _ _ _ _ _ => [.outbox, .mem, .bad, .desk, .regs, .threads, .acts, .ready, .ctxs, .hqueues, .ddrs, .chans, .locks, .sq, .cw, .fc]
  | .sexth _ _ _ _ _ => [.outbox, .mem, .bad, .desk, .regs, .threads, .acts, .ready, .ctxs, .hqueues, .ddrs, .chans, .locks, .sq, .cw, .fc]
  | .sextw _ _ _ _ _ => [.outbox, .mem, .bad, .desk, .regs, .threads, .acts, .ready, .ctxs, .hqueues, .ddrs, .chans, .locks, .sq, .cw, .fc]
  | .clz _ _ _ _ _ => [.outbox, .mem, .bad, .desk, .regs, .threads, .acts, .ready, .ctxs, .hqueues, .ddrs, .chans, .locks, .sq, .cw, .fc]
  | .popc _ _ _ _ _ => [.outbox, .mem, .bad, .desk, .regs, .threads, .acts, .ready, .ctxs, .hqueues, .ddrs, .chans, .locks, .sq, .cw, .fc]
  | .bswap _ _ _ _ _ => [.outbox, .mem, .bad, .desk, .regs, .threads, .acts, .ready, .ctxs, .hqueues, .ddrs, .chans, .locks, .sq, .cw, .fc]
  | .selz _ _ _ _ _ => [.outbox, .mem, .bad, .desk, .regs, .threads, .acts, .ready, .ctxs, .hqueues, .ddrs, .chans, .locks, .sq, .cw, .fc]
  | .addi _ _ _ _ _ => [.outbox, .mem, .bad, .desk, .regs, .threads, .acts, .ready, .ctxs, .hqueues, .ddrs, .chans, .locks, .sq, .cw, .fc]
  | .andi _ _ _ _ _ => [.outbox, .mem, .bad, .desk, .regs, .threads, .acts, .ready, .ctxs, .hqueues, .ddrs, .chans, .locks, .sq, .cw, .fc]
  | .ori _ _ _ _ _ => [.outbox, .mem, .bad, .desk, .regs, .threads, .acts, .ready, .ctxs, .hqueues, .ddrs, .chans, .locks, .sq, .cw, .fc]
  | .xori _ _ _ _ _ => [.outbox, .mem, .bad, .desk, .regs, .threads, .acts, .ready, .ctxs, .hqueues, .ddrs, .chans, .locks, .sq, .cw, .fc]
  | .cmpi _ _ _ _ _ => [.outbox, .mem, .bad, .desk, .regs, .threads, .acts, .ready, .ctxs, .hqueues, .ddrs, .chans, .locks, .sq, .cw, .fc]
  | .slli _ _ _ _ _ => [.outbox, .mem, .bad, .desk, .regs, .threads, .acts, .ready, .ctxs, .hqueues, .ddrs, .chans, .locks, .sq, .cw, .fc]
  | .srli _ _ _ _ _ => [.outbox, .mem, .bad, .desk, .regs, .threads, .acts, .ready, .ctxs, .hqueues, .ddrs, .chans, .locks, .sq, .cw, .fc]
  | .srai _ _ _ _ _ => [.outbox, .mem, .bad, .desk, .regs, .threads, .acts, .ready, .ctxs, .hqueues, .ddrs, .chans, .locks, .sq, .cw, .fc]
  | .rori _ _ _ _ _ => [.outbox, .mem, .bad, .desk, .regs, .threads, .acts, .ready, .ctxs, .hqueues, .ddrs, .chans, .locks, .sq, .cw, .fc]
  | .movi _ _ _ _ _ => [.outbox, .mem, .bad, .desk, .regs, .threads, .acts, .ready, .ctxs, .hqueues, .ddrs, .chans, .locks, .sq, .cw, .fc]
  | .movk _ _ _ _ _ => [.outbox, .mem, .bad, .desk, .regs, .threads, .acts, .ready, .ctxs, .hqueues, .ddrs, .chans, .locks, .sq, .cw, .fc]
  | .bkld _ _ _ _ => [.outbox, .mem, .bad, .desk, .regs, .threads, .acts, .ready, .ctxs, .hqueues, .ddrs, .chans, .locks, .sq, .cw, .fc]
  | .bkrd _ _ _ _ => [.outbox, .mem, .bad, .desk, .regs, .threads, .acts, .ready, .ctxs, .hqueues, .ddrs, .chans, .locks, .sq, .cw, .fc]
  | .crd _ _ _ _ => [.free, .outbox, .mem, .bad, .desk, .regs, .threads, .acts, .ready, .ctxs, .hqueues, .ddrs, .chans, .locks, .sq, .cw, .fc]
  | .cwr _ _ _ _ => [.outbox, .mem, .bad, .desk, .regs, .threads, .acts, .ready, .delay, .ctxs, .hqueues, .ddrs, .chans, .locks, .sq, .cw, .fc]
  | .rep _ _ _ _ _ _ _ _ => [.free, .outbox, .mem, .bad, .desk, .regs, .pendc, .goBy, .msix, .threads, .acts, .ready, .delay, .ctxs, .hqueues, .engines, .ddrs, .bufs, .pools, .chans, .locks, .ports, .hostq, .ringLinks, .sq, .rc, .cw, .ring, .gb, .fc, .tb, .boot, .bg]
  | .ld _ _ _ _ => [.free, .outbox, .mem, .bad, .desk, .regs, .threads, .acts, .ready, .ctxs, .hqueues, .ddrs, .bufs, .pools, .chans, .locks, .ringLinks, .sq, .cw, .ring, .gb, .fc]
  | .lw _ _ _ _ => [.free, .outbox, .mem, .bad, .desk, .regs, .threads, .acts, .ready, .ctxs, .hqueues, .ddrs, .bufs, .pools, .chans, .locks, .ringLinks, .sq, .cw, .ring, .gb, .fc]
  | .lh _ _ _ _ => [.free, .outbox, .mem, .bad, .desk, .regs, .threads, .acts, .ready, .ctxs, .hqueues, .ddrs, .bufs, .pools, .chans, .locks, .ringLinks, .sq, .cw, .ring, .gb, .fc]
  | .lb _ _ _ _ => [.free, .outbox, .mem, .bad, .desk, .regs, .threads, .acts, .ready, .ctxs, .hqueues, .ddrs, .bufs, .pools, .chans, .locks, .ringLinks, .sq, .cw, .ring, .gb, .fc]
  | .sd _ _ _ _ => [.free, .outbox, .mem, .bad, .desk, .regs, .pendc, .goBy, .msix, .threads, .acts, .ready, .delay, .ctxs, .hqueues, .engines, .ddrs, .bufs, .pools, .chans, .locks, .ports, .hostq, .ringLinks, .sq, .rc, .cw, .ring, .gb, .fc, .tb, .boot, .bg]
  | .sw _ _ _ _ => [.free, .outbox, .mem, .bad, .desk, .regs, .pendc, .goBy, .msix, .threads, .acts, .ready, .delay, .ctxs, .hqueues, .engines, .ddrs, .bufs, .pools, .chans, .locks, .ports, .hostq, .ringLinks, .sq, .rc, .cw, .ring, .gb, .fc, .tb, .boot, .bg]
  | .sh _ _ _ _ => [.free, .outbox, .mem, .bad, .desk, .regs, .pendc, .goBy, .msix, .threads, .acts, .ready, .delay, .ctxs, .hqueues, .engines, .ddrs, .bufs, .pools, .chans, .locks, .ports, .hostq, .ringLinks, .sq, .rc, .cw, .ring, .gb, .fc, .tb, .boot, .bg]
  | .sb _ _ _ _ => [.free, .outbox, .mem, .bad, .desk, .regs, .pendc, .goBy, .msix, .threads, .acts, .ready, .delay, .ctxs, .hqueues, .engines, .ddrs, .bufs, .pools, .chans, .locks, .ports, .hostq, .ringLinks, .sq, .rc, .cw, .ring, .gb, .fc, .tb, .boot, .bg]
  | .ldx _ _ _ _ => [.free, .outbox, .mem, .bad, .desk, .regs, .threads, .acts, .ready, .ctxs, .hqueues, .ddrs, .bufs, .pools, .chans, .locks, .ringLinks, .sq, .cw, .ring, .gb, .fc]
  | .lwx _ _ _ _ => [.free, .outbox, .mem, .bad, .desk, .regs, .threads, .acts, .ready, .ctxs, .hqueues, .ddrs, .bufs, .pools, .chans, .locks, .ringLinks, .sq, .cw, .ring, .gb, .fc]
  | .lhx _ _ _ _ => [.free, .outbox, .mem, .bad, .desk, .regs, .threads, .acts, .ready, .ctxs, .hqueues, .ddrs, .bufs, .pools, .chans, .locks, .ringLinks, .sq, .cw, .ring, .gb, .fc]
  | .lbx _ _ _ _ => [.free, .outbox, .mem, .bad, .desk, .regs, .threads, .acts, .ready, .ctxs, .hqueues, .ddrs, .bufs, .pools, .chans, .locks, .ringLinks, .sq, .cw, .ring, .gb, .fc]
  | .sdx _ _ _ _ => [.free, .outbox, .mem, .bad, .desk, .regs, .pendc, .goBy, .msix, .threads, .acts, .ready, .delay, .ctxs, .hqueues, .engines, .ddrs, .bufs, .pools, .chans, .locks, .ports, .hostq, .ringLinks, .sq, .rc, .cw, .ring, .gb, .fc, .tb, .boot, .bg]
  | .swx _ _ _ _ => [.free, .outbox, .mem, .bad, .desk, .regs, .pendc, .goBy, .msix, .threads, .acts, .ready, .delay, .ctxs, .hqueues, .engines, .ddrs, .bufs, .pools, .chans, .locks, .ports, .hostq, .ringLinks, .sq, .rc, .cw, .ring, .gb, .fc, .tb, .boot, .bg]
  | .shx _ _ _ _ => [.free, .outbox, .mem, .bad, .desk, .regs, .pendc, .goBy, .msix, .threads, .acts, .ready, .delay, .ctxs, .hqueues, .engines, .ddrs, .bufs, .pools, .chans, .locks, .ports, .hostq, .ringLinks, .sq, .rc, .cw, .ring, .gb, .fc, .tb, .boot, .bg]
  | .sbx _ _ _ _ => [.free, .outbox, .mem, .bad, .desk, .regs, .pendc, .goBy, .msix, .threads, .acts, .ready, .delay, .ctxs, .hqueues, .engines, .ddrs, .bufs, .pools, .chans, .locks, .ports, .hostq, .ringLinks, .sq, .rc, .cw, .ring, .gb, .fc, .tb, .boot, .bg]
  | .cpx _ _ _ _ _ => [.free, .outbox, .mem, .bad, .desk, .regs, .pendc, .goBy, .msix, .threads, .acts, .ready, .delay, .ctxs, .hqueues, .engines, .ddrs, .bufs, .pools, .chans, .locks, .ports, .hostq, .ringLinks, .sq, .rc, .cw, .ring, .gb, .fc, .tb, .boot, .bg]
  | .bc _ _ _ => [.outbox, .mem, .bad, .desk, .regs, .threads, .acts, .ready, .ctxs, .hqueues, .ddrs, .chans, .locks, .sq, .cw, .fc]
  | .jr _ _ _ => [.outbox, .mem, .bad, .desk, .regs, .threads, .acts, .ready, .ctxs, .hqueues, .ddrs, .chans, .locks, .sq, .cw, .fc]
  | .jalr _ _ _ _ => [.outbox, .mem, .bad, .desk, .regs, .threads, .acts, .ready, .ctxs, .hqueues, .ddrs, .chans, .locks, .sq, .cw, .fc]
  | .getwork _ _ _ _ => [.outbox, .mem, .bad, .desk, .regs, .threads, .acts, .ready, .ctxs, .hqueues, .ddrs, .chans, .locks, .sq, .cw, .fc]
  | .waitev _ _ _ _ => [.outbox, .mem, .bad, .desk, .regs, .threads, .acts, .ready, .ctxs, .hqueues, .ddrs, .chans, .locks, .sq, .cw, .fc]
  | .waitevC _ _ _ _ => [.outbox, .mem, .bad, .desk, .regs, .threads, .acts, .ready, .ctxs, .hqueues, .ddrs, .chans, .locks, .sq, .cw, .fc]
  | .setev _ _ _ _ => [.outbox, .mem, .bad, .desk, .regs, .threads, .acts, .ready, .ctxs, .hqueues, .ddrs, .chans, .locks, .sq, .cw, .fc]
  | .token _ _ _ _ => [.outbox, .mem, .bad, .desk, .regs, .threads, .acts, .ready, .ctxs, .hqueues, .ddrs, .chans, .locks, .sq, .cw, .fc]
  | .jwr _ _ _ => [.free, .outbox, .mem, .bad, .desk, .regs, .threads, .acts, .ready, .ctxs, .hqueues, .ddrs, .chans, .locks, .sq, .cw, .fc]
  | .jout _ _ _ => [.free, .outbox, .mem, .bad, .desk, .regs, .threads, .acts, .ready, .ctxs, .hqueues, .ddrs, .chans, .locks, .sq, .cw, .fc]
  | .retire _ _ _ => [.outbox, .mem, .bad, .desk, .regs, .threads, .acts, .ready, .ctxs, .hqueues, .ddrs, .chans, .locks, .sq, .rc, .cw, .fc]
  | .abandon _ _ _ => [.outbox, .mem, .bad, .desk, .regs, .threads, .acts, .ready, .ctxs, .hqueues, .ddrs, .chans, .locks, .sq, .rc, .cw, .fc]
  | .chwr _ _ _ _ _ => [.outbox, .mem, .bad, .desk, .regs, .threads, .acts, .ready, .ctxs, .hqueues, .ddrs, .chans, .locks, .sq, .cw, .fc]
  | .chwrx _ _ _ _ _ => [.free, .outbox, .mem, .bad, .desk, .regs, .threads, .acts, .ready, .ctxs, .hqueues, .ddrs, .bufs, .pools, .chans, .locks, .ringLinks, .sq, .cw, .ring, .gb, .fc]
  | .chrd _ _ _ _ => [.outbox, .mem, .bad, .desk, .regs, .threads, .acts, .ready, .ctxs, .hqueues, .ddrs, .chans, .locks, .sq, .cw, .fc]
  | .chrdNb _ _ _ _ => [.outbox, .mem, .bad, .desk, .regs, .threads, .acts, .ready, .ctxs, .hqueues, .ddrs, .chans, .locks, .sq, .cw, .fc]
  | .channelReadResume _ => [.regs, .threads, .chans]
  | .channelWriteResume _ => [.free, .outbox, .mem, .bad, .desk, .regs, .pendc, .goBy, .msix, .threads, .acts, .ready, .delay, .ctxs, .hqueues, .engines, .ddrs, .bufs, .pools, .chans, .locks, .ports, .hostq, .ringLinks, .sq, .rc, .cw, .ring, .gb, .fc, .tb, .boot, .bg]
  | .cas _ _ _ _ _ => [.free, .outbox, .mem, .bad, .desk, .regs, .threads, .acts, .ready, .ctxs, .hqueues, .ddrs, .chans, .locks, .sq, .cw, .fc]
  | .hpacq _ _ _ _ => [.outbox, .mem, .bad, .desk, .regs, .threads, .acts, .ready, .ctxs, .hqueues, .ddrs, .chans, .locks, .sq, .cw, .fc]
  | .hpacqT _ _ _ _ => [.outbox, .mem, .bad, .desk, .regs, .threads, .acts, .ready, .ctxs, .hqueues, .ddrs, .chans, .locks, .sq, .cw, .fc]
  | .hpacqE _ _ _ _ => [.outbox, .mem, .bad, .desk, .regs, .threads, .acts, .ready, .ctxs, .hqueues, .ddrs, .chans, .locks, .sq, .cw, .fc]
  | .hprel _ _ _ => [.outbox, .mem, .bad, .desk, .regs, .threads, .acts, .ready, .ctxs, .hqueues, .ddrs, .chans, .locks, .sq, .cw, .fc]
  | .trap _ _ _ _ => [.outbox, .mem, .bad, .desk, .regs, .threads, .acts, .ready, .ctxs, .hqueues, .ddrs, .chans, .locks, .sq, .cw, .fc]
  | .eret _ _ => [.outbox, .mem, .bad, .desk, .regs, .threads, .acts, .ready, .ctxs, .hqueues, .ddrs, .chans, .locks, .sq, .cw, .fc]
  | .fxBitmap _ _ _ _ _ => [.free, .outbox, .mem, .bad, .desk, .regs, .threads, .acts, .ready, .ctxs, .units, .hqueues, .ddrs, .chans, .locks, .sq, .cw, .fc]
  | .fxIso _ _ _ _ _ => [.free, .outbox, .mem, .bad, .desk, .regs, .threads, .acts, .ready, .ctxs, .units, .hqueues, .ddrs, .chans, .locks, .sq, .cw, .fc]
  | .fxTlv _ _ _ _ _ => [.free, .outbox, .mem, .bad, .desk, .regs, .threads, .acts, .ready, .ctxs, .units, .hqueues, .ddrs, .chans, .locks, .sq, .cw, .fc]
  | .fxFields _ _ _ _ _ => [.free, .outbox, .mem, .bad, .desk, .regs, .threads, .acts, .ready, .ctxs, .units, .hqueues, .ddrs, .chans, .locks, .sq, .cw, .fc]
  | .dxAdd _ _ _ _ _ => [.free, .outbox, .mem, .bad, .desk, .regs, .threads, .acts, .ready, .ctxs, .units, .hqueues, .ddrs, .chans, .locks, .sq, .cw, .fc]
  | .dxSub _ _ _ _ _ => [.free, .outbox, .mem, .bad, .desk, .regs, .threads, .acts, .ready, .ctxs, .units, .hqueues, .ddrs, .chans, .locks, .sq, .cw, .fc]
  | .dxMul _ _ _ _ _ => [.free, .outbox, .mem, .bad, .desk, .regs, .threads, .acts, .ready, .ctxs, .units, .hqueues, .ddrs, .chans, .locks, .sq, .cw, .fc]
  | .dxRescale _ _ _ _ _ => [.free, .outbox, .mem, .bad, .desk, .regs, .threads, .acts, .ready, .ctxs, .units, .hqueues, .ddrs, .chans, .locks, .sq, .cw, .fc]
  | .dxCcy _ _ _ _ _ => [.free, .outbox, .mem, .bad, .desk, .regs, .threads, .acts, .ready, .ctxs, .units, .hqueues, .ddrs, .chans, .locks, .sq, .cw, .fc]
  | .dxCmp _ _ _ _ _ => [.free, .outbox, .mem, .bad, .desk, .regs, .threads, .acts, .ready, .ctxs, .units, .hqueues, .ddrs, .chans, .locks, .sq, .cw, .fc]
  | .dxParse _ _ _ _ _ => [.free, .outbox, .mem, .bad, .desk, .regs, .threads, .acts, .ready, .ctxs, .units, .hqueues, .ddrs, .chans, .locks, .sq, .cw, .fc]
  | .dxFormat _ _ _ _ _ => [.free, .outbox, .mem, .bad, .desk, .regs, .threads, .acts, .ready, .ctxs, .units, .hqueues, .ddrs, .chans, .locks, .sq, .cw, .fc]
  | .cxCmac _ _ _ _ _ => [.free, .outbox, .mem, .bad, .desk, .regs, .threads, .acts, .ready, .ctxs, .units, .hqueues, .ddrs, .chans, .locks, .sq, .cw, .fc]
  | .cxCmacVer _ _ _ _ _ => [.free, .outbox, .mem, .bad, .desk, .regs, .threads, .acts, .ready, .ctxs, .units, .hqueues, .ddrs, .chans, .locks, .sq, .cw, .fc]
  | .cxGcmEnc _ _ _ _ _ => [.free, .outbox, .mem, .bad, .desk, .regs, .threads, .acts, .ready, .ctxs, .units, .hqueues, .ddrs, .chans, .locks, .sq, .cw, .fc]
  | .cxGcmDec _ _ _ _ _ => [.free, .outbox, .mem, .bad, .desk, .regs, .threads, .acts, .ready, .ctxs, .units, .hqueues, .ddrs, .chans, .locks, .sq, .cw, .fc]
  | .cxSha256 _ _ _ _ _ => [.free, .outbox, .mem, .bad, .desk, .regs, .threads, .acts, .ready, .ctxs, .units, .hqueues, .ddrs, .chans, .locks, .sq, .cw, .fc]
  | .cxHmac _ _ _ _ _ => [.free, .outbox, .mem, .bad, .desk, .regs, .threads, .acts, .ready, .ctxs, .units, .hqueues, .ddrs, .chans, .locks, .sq, .cw, .fc]
  | .cxHmacVer _ _ _ _ _ => [.free, .outbox, .mem, .bad, .desk, .regs, .threads, .acts, .ready, .ctxs, .units, .hqueues, .ddrs, .chans, .locks, .sq, .cw, .fc]
  | .hxCrc _ _ _ _ _ => [.free, .outbox, .mem, .bad, .desk, .regs, .threads, .acts, .ready, .ctxs, .units, .hqueues, .ddrs, .chans, .locks, .sq, .cw, .fc]
  | .hxKey _ _ _ _ _ => [.free, .outbox, .mem, .bad, .desk, .regs, .threads, .acts, .ready, .ctxs, .units, .hqueues, .ddrs, .chans, .locks, .sq, .cw, .fc]
  | .hxMcmp _ _ _ _ _ => [.free, .outbox, .mem, .bad, .desk, .regs, .threads, .acts, .ready, .ctxs, .units, .hqueues, .ddrs, .chans, .locks, .sq, .cw, .fc]
  | .helperGrant _ _ => [.free, .outbox, .mem, .bad, .desk, .regs, .threads, .acts, .ready, .ctxs, .units, .hqueues, .ddrs, .chans, .locks, .sq, .cw, .fc]
  | .helperComplete _ _ => [.free, .outbox, .mem, .bad, .desk, .regs, .threads, .acts, .ready, .ctxs, .units, .hqueues, .ddrs, .chans, .locks, .sq, .cw, .fc]
  | .poolPortAlloc _ _ _ _ => [.free, .outbox, .mem, .bad, .desk, .regs, .threads, .acts, .ready, .ctxs, .hqueues, .ddrs, .bufs, .pools, .chans, .locks, .ringLinks, .sq, .cw, .ring, .gb, .fc]
  | .poolPortInfo _ _ _ _ => [.free, .outbox, .mem, .bad, .desk, .regs, .threads, .acts, .ready, .ctxs, .hqueues, .ddrs, .bufs, .pools, .chans, .locks, .ringLinks, .sq, .cw, .ring, .gb, .fc]
  | .poolPortDrop _ _ _ => [.free, .outbox, .mem, .bad, .desk, .regs, .pendc, .goBy, .msix, .threads, .acts, .ready, .delay, .ctxs, .hqueues, .engines, .ddrs, .bufs, .pools, .chans, .locks, .ports, .hostq, .ringLinks, .sq, .rc, .cw, .ring, .gb, .fc, .tb, .boot, .bg]
  | .poolPortAdd _ _ _ => [.free, .outbox, .mem, .bad, .desk, .regs, .pendc, .goBy, .msix, .threads, .acts, .ready, .delay, .ctxs, .hqueues, .engines, .ddrs, .bufs, .pools, .chans, .locks, .ports, .hostq, .ringLinks, .sq, .rc, .cw, .ring, .gb, .fc, .tb, .boot, .bg]
  | .vectorSignal _ _ _ => [.free, .outbox, .mem, .bad, .desk, .regs, .pendc, .goBy, .msix, .threads, .acts, .ready, .delay, .ctxs, .hqueues, .engines, .ddrs, .bufs, .pools, .chans, .locks, .ports, .hostq, .ringLinks, .sq, .rc, .cw, .ring, .gb, .fc, .tb, .boot, .bg]
  | .tableLookup _ => [.free, .outbox, .regs, .engines, .ddrs, .fc]
  | .lookupResult _ _ => [.free, .outbox, .mem, .bad, .regs, .ctxs, .banks, .fuq, .engines, .dir, .ddrs, .rc, .ring, .fc]
  | .tableMove _ _ => [.free, .outbox, .mem, .bad, .regs, .engines, .ddrs, .fc]
  | .teCmdRead _ _ _ _ => [.free, .outbox, .mem, .bad, .desk, .regs, .pendc, .goBy, .msix, .threads, .acts, .ready, .delay, .ctxs, .hqueues, .engines, .ddrs, .chans, .locks, .ports, .hostq, .ringLinks, .sq, .rc, .cw, .ring, .gb, .fc, .tb, .boot, .bg]
  | .teCmdInsert _ _ _ _ => [.free, .outbox, .mem, .bad, .desk, .regs, .pendc, .goBy, .msix, .threads, .acts, .ready, .delay, .ctxs, .hqueues, .engines, .ddrs, .chans, .locks, .ports, .hostq, .ringLinks, .sq, .rc, .cw, .ring, .gb, .fc, .tb, .boot, .bg]
  | .teCmdUpdate _ _ _ _ => [.free, .outbox, .mem, .bad, .desk, .regs, .pendc, .goBy, .msix, .threads, .acts, .ready, .delay, .ctxs, .hqueues, .engines, .ddrs, .chans, .locks, .ports, .hostq, .ringLinks, .sq, .rc, .cw, .ring, .gb, .fc, .tb, .boot, .bg]
  | .teCmdRemove _ _ _ _ => [.free, .outbox, .mem, .bad, .desk, .regs, .pendc, .goBy, .msix, .threads, .acts, .ready, .delay, .ctxs, .hqueues, .engines, .ddrs, .chans, .locks, .ports, .hostq, .ringLinks, .sq, .rc, .cw, .ring, .gb, .fc, .tb, .boot, .bg]
  | .teCmdDone _ _ => [.free, .outbox, .mem, .bad, .regs, .engines, .ddrs, .gb, .fc]
  | .mirrorResync _ => [.mem, .bad, .engines, .ddrs]
  | .learnForward _ => [.free, .outbox, .regs, .hostq, .fc]
  | .dirSearch => [.free, .outbox, .mem, .bad, .regs, .ctxs, .banks, .fuq, .engines, .dir, .ddrs, .ring, .fc]
  | .scrubVisit _ _ => [.outbox, .mem, .bad, .regs, .dirRows, .dirShadow, .ddrs, .gb, .fc]
  | .dramCommandGrant _ _ => [.free, .outbox, .bad, .regs, .engines, .ddrs, .fc]
  | .refresh _ _ => [.regs, .ddrs]
  | .zqcs _ _ => [.ddrs]
  | .patrolScrub _ _ => [.free, .outbox, .bad, .regs, .ddrs, .fc]
  | .dimmSensorRead _ _ _ => [.outbox, .regs, .ddrs]
  | .ddrRungDescend _ => [.regs, .ddrs]
  | .watchdogBite _ _ _ => [.outbox, .mem, .bad, .desk, .regs, .threads, .acts, .ready, .ctxs, .hqueues, .engines, .ddrs, .chans, .locks, .sq, .cw, .fc]
  | .channelTailTimeout _ => [.regs, .threads, .chans]
  | .lockOrphan _ => [.outbox, .regs, .threads, .locks]
  | .bar4Write _ _ _ _ => [.outbox, .mem, .bad, .regs, .ddrs]
  | .bar4Atomicop _ _ _ _ _ _ => [.free, .outbox, .mem, .bad, .regs, .ddrs, .fc]
  | .bar2Request _ _ _ _ => [.free, .outbox, .mem, .bad, .desk, .regs, .pendc, .goBy, .ddrs, .hostq, .ringLinks, .ring, .gb, .bg]
  | .loadGo _ _ _ => [.free, .outbox, .mem, .bad, .desk, .regs, .pendc, .goBy, .msix, .threads, .acts, .ready, .delay, .ctxs, .hqueues, .engines, .ddrs, .chans, .locks, .ports, .hostq, .ringLinks, .sq, .rc, .cw, .ring, .gb, .fc, .tb, .boot, .bg]
  | .imageVerifyDone => [.outbox, .mem, .bad, .regs, .threads, .ddrs, .gb, .boot]
  | .queueEnable _ _ => [.outbox, .mem, .bad, .regs, .ddrs, .hostq, .gb, .bg]
  | .queueDisable _ _ => [.outbox, .mem, .bad, .regs, .ddrs, .hostq, .gb, .bg]
  | .queueErr _ _ => [.outbox, .regs]
  | .nop _ _ => [.outbox, .regs, .hostq, .boot]
  | .identify _ => [.outbox, .regs, .hostq, .boot]
  | .echo _ => [.outbox, .regs, .hostq, .boot]
  | .modeSet _ => [.outbox, .regs, .hostq, .boot, .bg]
  | .modeSetComplete => [.free, .outbox, .mem, .bad, .desk, .pg, .regs, .act, .pendc, .goBy, .msix, .threads, .acts, .ready, .delay, .ctxs, .banks, .fuq, .units, .hqueues, .icache, .learn, .engines, .dirRows, .dirShadow, .dir, .ddrs, .bufs, .pools, .chans, .locks, .streams, .ports, .pipes, .admitQ, .terms, .classes, .hostq, .ringLinks, .sq, .rc, .cw, .ring, .gb, .fc, .tb, .boot, .tap, .bg]
  | .modeGet _ => [.outbox, .regs, .hostq, .boot]
  | .commit _ => [.outbox, .regs, .pendc, .goBy, .hostq, .boot, .bg]
  | .fwStage _ _ => [.outbox, .regs, .hostq, .boot, .bg]
  | .fwStageComplete => [.outbox, .mem, .bad, .regs, .ddrs, .hostq, .gb, .boot, .bg]
  | .fwSwitch _ => [.free, .outbox, .mem, .bad, .regs, .ddrs, .hostq, .boot, .bg]
  | .fwSwitchComplete => [.outbox, .mem, .bad, .regs, .ddrs, .hostq, .gb, .boot, .bg]
  | .fwSwitchFallback => [.outbox, .mem, .bad, .regs, .ddrs, .hostq, .gb, .fc, .boot, .bg]
  | .fwInfo _ => [.outbox, .regs, .hostq, .boot]
  | .boardProfileLoad _ _ => [.free, .outbox, .mem, .bad, .desk, .regs, .act, .pendc, .goBy, .ddrs, .locks, .hostq, .ringLinks, .ring, .gb, .boot, .bg]
  | .dramInit _ => [.outbox, .regs, .hostq, .boot, .bg]
  | .dramInitComplete _ => [.free, .outbox, .mem, .bad, .desk, .regs, .act, .pendc, .goBy, .ddrs, .locks, .hostq, .ringLinks, .ring, .gb, .fc, .boot, .bg]
  | .dramStatus _ => [.outbox, .regs, .hostq, .boot]
  | .termLoad _ _ => [.outbox, .regs, .terms, .hostq, .boot, .bg]
  | .termLoadComplete _ => [.outbox, .mem, .bad, .pg, .regs, .icache, .ddrs, .terms, .hostq, .gb, .bg]
  | .termActivate _ => [.outbox, .mem, .bad, .regs, .threads, .ddrs, .terms, .hostq, .ringLinks, .ring, .gb, .boot]
  | .termRetire _ => [.outbox, .regs, .terms, .hostq, .boot, .bg]
  | .termRetireComplete _ => [.outbox, .mem, .bad, .pg, .regs, .icache, .ddrs, .terms, .hostq, .gb, .bg]
  | .termStatus _ => [.outbox, .regs, .hostq, .boot]
  | .classCreate _ => [.outbox, .mem, .bad, .regs, .act, .pendc, .goBy, .ddrs, .locks, .classes, .hostq, .ringLinks, .ring, .gb, .boot, .bg]
  | .classCreateComplete _ => [.outbox, .mem, .bad, .desk, .regs, .act, .pendc, .goBy, .threads, .ddrs, .locks, .hostq, .ringLinks, .ring, .gb, .bg]
  | .classDestroy _ => [.outbox, .mem, .bad, .regs, .ddrs, .hostq, .gb, .boot, .bg]
  | .classDestroyComplete _ => [.outbox, .mem, .bad, .desk, .regs, .act, .pendc, .goBy, .threads, .acts, .ready, .delay, .ctxs, .banks, .learn, .dirRows, .dirShadow, .ddrs, .bufs, .pools, .chans, .locks, .streams, .admitQ, .terms, .classes, .hostq, .ringLinks, .sq, .rc, .cw, .ring, .gb, .bg]
  | .classReset _ => [.outbox, .mem, .bad, .regs, .ddrs, .hostq, .gb, .boot, .bg]
  | .classResetPoint _ => [.mem, .bad, .regs, .threads, .acts, .ready, .delay, .ctxs, .units, .hqueues, .ddrs, .chans, .locks, .sq, .cw, .bg]
  | .classResetComplete _ => [.outbox, .mem, .bad, .regs, .threads, .acts, .ready, .delay, .ctxs, .banks, .ddrs, .bufs, .pools, .chans, .locks, .admitQ, .terms, .hostq, .sq, .rc, .cw, .bg]
  | .classShare _ => [.outbox, .mem, .bad, .regs, .act, .pendc, .goBy, .ddrs, .locks, .hostq, .ringLinks, .ring, .gb, .boot, .bg]
  | .classMigrateLog _ => [.outbox, .mem, .bad, .regs, .ddrs, .hostq, .gb, .boot]
  | .classStatus _ => [.outbox, .regs, .hostq, .boot]
  | .tableCreate _ => [.outbox, .mem, .bad, .regs, .ddrs, .hostq, .gb, .boot]
  | .tableDelete _ => [.outbox, .mem, .bad, .regs, .learn, .ddrs, .hostq, .gb, .boot, .bg]
  | .tableDeleteComplete _ => [.outbox, .regs, .hostq, .bg]
  | .tableInsert _ => [.free, .outbox, .mem, .bad, .regs, .engines, .ddrs, .hostq, .gb, .fc, .boot]
  | .tableUpdate _ => [.free, .outbox, .mem, .bad, .regs, .engines, .ddrs, .hostq, .gb, .fc, .boot]
  | .tableRemove _ => [.free, .outbox, .mem, .bad, .regs, .engines, .ddrs, .hostq, .gb, .fc, .boot]
  | .tableRead _ => [.free, .outbox, .mem, .bad, .regs, .engines, .ddrs, .hostq, .gb, .fc, .boot]
  | .tableBulkLoad _ => [.free, .outbox, .mem, .bad, .regs, .engines, .ddrs, .hostq, .gb, .fc, .boot]
  | .tableLearnCfg _ => [.outbox, .mem, .bad, .regs, .learn, .ddrs, .hostq, .gb, .boot]
  | .dirWrite _ => [.outbox, .mem, .bad, .regs, .dirRows, .dirShadow, .ddrs, .hostq, .gb, .boot]
  | .dirInvalidate _ => [.outbox, .mem, .bad, .regs, .dirRows, .dirShadow, .ddrs, .hostq, .gb, .boot]
  | .dirRead _ => [.outbox, .regs, .hostq, .boot]
  | .dirProfile _ => [.outbox, .mem, .bad, .regs, .act, .pendc, .goBy, .ddrs, .locks, .hostq, .ringLinks, .ring, .gb, .boot, .bg]
  | .portCfg _ => [.outbox, .mem, .bad, .regs, .act, .pendc, .goBy, .ddrs, .locks, .hostq, .ringLinks, .ring, .gb, .boot, .bg]
  | .portStatus _ => [.outbox, .regs, .hostq, .boot]
  | .streamOpen _ => [.free, .outbox, .mem, .bad, .regs, .ddrs, .bufs, .pools, .streams, .ports, .hostq, .gb, .boot, .bg]
  | .streamClose _ => [.free, .outbox, .mem, .bad, .regs, .ddrs, .bufs, .pools, .streams, .ports, .hostq, .gb, .boot, .bg]
  | .ringJoin _ => [.outbox, .mem, .bad, .regs, .act, .pendc, .goBy, .ddrs, .locks, .hostq, .ringLinks, .ring, .gb, .boot, .bg]
  | .ringJoinComplete => [.outbox, .regs, .hostq, .bg]
  | .ringLeave _ => [.outbox, .regs, .hostq, .ring, .boot, .bg]
  | .ringLeaveComplete => [.outbox, .mem, .bad, .regs, .ddrs, .hostq, .ringLinks, .ring, .gb, .bg]
  | .ringStatus _ => [.outbox, .regs, .hostq, .boot]
  | .fence _ => [.free, .outbox, .mem, .bad, .desk, .regs, .act, .threads, .acts, .ready, .delay, .ctxs, .banks, .units, .hqueues, .engines, .ddrs, .bufs, .pools, .chans, .locks, .streams, .ports, .pipes, .terms, .hostq, .ringLinks, .sq, .rc, .cw, .ring, .gb, .fc, .boot, .bg]
  | .fenceComplete _ _ => [.free, .outbox, .mem, .bad, .desk, .regs, .act, .threads, .acts, .ready, .delay, .ctxs, .units, .hqueues, .engines, .ddrs, .bufs, .pools, .chans, .locks, .streams, .ports, .pipes, .terms, .hostq, .ringLinks, .sq, .cw, .ring, .gb, .fc, .bg]
  | .unfence _ => [.outbox, .regs, .hostq, .boot, .bg]
  | .unfenceComplete _ _ => [.free, .outbox, .mem, .bad, .desk, .regs, .act, .threads, .ctxs, .banks, .icache, .engines, .ddrs, .locks, .pipes, .terms, .hostq, .ringLinks, .rc, .ring, .gb, .fc, .bg]
  | .faultAck _ => [.outbox, .mem, .bad, .regs, .ddrs, .hostq, .gb, .boot]
  | .faultInject _ => [.outbox, .mem, .bad, .regs, .ddrs, .hostq, .gb, .fc, .boot]
  | .gbRead _ => [.free, .outbox, .regs, .hostq, .boot]
  | .gbSeal _ => [.free, .outbox, .mem, .bad, .regs, .ddrs, .hostq, .gb, .boot]
  | .countersRead _ => [.outbox, .mem, .bad, .regs, .ddrs, .hostq, .gb, .boot]
  | .timeSet _ => [.outbox, .mem, .bad, .regs, .ddrs, .hostq, .gb, .tb, .boot]
  | .powerRung _ => [.free, .outbox, .mem, .bad, .desk, .regs, .ddrs, .hostq, .gb, .boot]
  | .diagRun _ => [.outbox, .regs, .hostq, .boot, .bg]
  | .diagRunComplete _ => [.free, .outbox, .mem, .bad, .regs, .ddrs, .hostq, .gb, .bg]
  | .ringFrameReceive _ _ _ => [.regs, .ringLinks, .ring]
  | .ringFrameTransmit _ => [.outbox, .regs, .ringLinks, .ring]
  | .heartbeatReceive _ => [.outbox, .regs, .ringLinks, .ring]
  | .remoteTokenReceive _ => [.regs, .banks, .ringLinks]
  | .mirrorRecordReceive _ => [.outbox, .mem, .bad, .regs, .ddrs, .ringLinks, .ring]
  | .termRecordReceive _ => [.outbox, .regs, .ringLinks]
  | .raccReqReceive _ => [.free, .outbox, .mem, .bad, .desk, .regs, .pendc, .goBy, .msix, .threads, .acts, .ready, .delay, .ctxs, .hqueues, .engines, .ddrs, .chans, .locks, .ports, .hostq, .ringLinks, .sq, .rc, .cw, .ring, .gb, .fc, .tb, .boot, .bg]
  | .raccRspReceive _ => [.free, .outbox, .mem, .bad, .desk, .regs, .pendc, .goBy, .msix, .threads, .acts, .ready, .delay, .ctxs, .hqueues, .engines, .ddrs, .bufs, .pools, .chans, .locks, .ports, .hostq, .ringLinks, .sq, .rc, .cw, .ring, .gb, .fc, .tb, .boot, .bg]
  | .remoteWindowAccess _ _ _ _ _ _ => [.free, .outbox, .mem, .bad, .desk, .regs, .pendc, .goBy, .msix, .threads, .acts, .ready, .delay, .ctxs, .hqueues, .engines, .ddrs, .bufs, .pools, .chans, .locks, .ports, .hostq, .ringLinks, .sq, .rc, .cw, .ring, .gb, .fc, .tb, .boot, .bg]
  | .raccTimeout _ => [.free, .outbox, .mem, .bad, .desk, .regs, .pendc, .goBy, .msix, .threads, .acts, .ready, .delay, .ctxs, .hqueues, .engines, .ddrs, .bufs, .pools, .chans, .locks, .ports, .hostq, .ringLinks, .sq, .rc, .cw, .ring, .gb, .fc, .tb, .boot, .bg]
  | .heartbeatSend _ => [.ringLinks]
  | .linkBroken _ => [.outbox, .regs, .ringLinks, .ring, .fc]
  | .ringRetxTimeout _ => [.ringLinks]
  | .mirrorLogApply => [.free, .outbox, .mem, .bad, .regs, .engines, .ddrs, .ring, .fc]
  | .gbRecordHash => [.outbox, .mem, .bad, .regs, .ddrs, .gb]
  | .faultReport _ => [.free, .outbox, .mem, .bad, .desk, .regs, .act, .threads, .acts, .ready, .delay, .ctxs, .banks, .units, .hqueues, .engines, .ddrs, .bufs, .pools, .chans, .locks, .streams, .ports, .pipes, .terms, .hostq, .ringLinks, .sq, .rc, .cw, .ring, .gb, .fc, .bg]
  | .faultAutoAck _ => [.regs]
  | .fcAckWrite _ _ _ => [.outbox, .mem, .bad, .regs, .ddrs, .gb]
  | .lockstepMismatch => [.outbox, .mem, .bad, .regs, .ddrs, .gb, .fc, .boot]
  | .tenikHang => [.outbox, .mem, .bad, .regs, .ddrs, .gb, .fc, .boot]
  | .srAlive _ _ _ => [.outbox, .regs, .hostq, .boot, .bg]
  | .restartFail => [.outbox, .regs, .fc, .boot]
  | .perstAssert => [.mem, .bad, .desk, .pg, .regs, .act, .pendc, .goBy, .msix, .threads, .acts, .ready, .delay, .ctxs, .banks, .fuq, .units, .hqueues, .icache, .learn, .engines, .dirRows, .dirShadow, .dir, .ddrs, .bufs, .pools, .chans, .locks, .streams, .ports, .pipes, .admitQ, .terms, .classes, .hostq, .ringLinks, .sq, .rc, .cw, .ring, .gb, .fc, .tb, .boot, .tap, .bg]
  | .perstDeassert _ _ _ _ _ => [.free, .outbox, .mem, .bad, .regs, .ddrs, .gb, .boot]
  | .streetRungDescend _ => [.free, .desk, .regs]
  | .streetRungExit _ => [.regs]
  | .thermWarn _ _ => [.outbox, .regs, .fc, .boot]
  | .thermTrip _ _ => [.free, .outbox, .desk, .regs, .fc, .boot]
  | .supply _ => [.outbox, .regs, .fc, .boot]
  | .rootPllLockLoss => [.outbox, .regs, .fc]
  | .pcieLinkChange _ _ => [.outbox, .regs]
  | .timebaseTick => [.ddrs, .tb]
  | .tbSet _ _ _ => [.outbox, .mem, .bad, .regs, .ddrs, .gb, .tb]
  | .tbStep _ _ _ => [.outbox, .mem, .bad, .regs, .ddrs, .gb, .tb]
  | .tapReset => [.tap]
  | .extest _ => [.free, .outbox, .tap]
  | .idcode => [.outbox, .tap]
  | .samplePreload _ => [.free, .outbox, .tap]
  | .highz => [.tap]
  | .clamp => [.tap]
  | .regacc _ _ _ _ _ => [.outbox, .tap]
  | .bypass _ => [.tap]
  | .sbPart _ _ => [.outbox]
  | .sbRevision _ => [.outbox]
  | .sbMode _ => [.outbox]
  | .sbErrStatus _ => [.outbox]
  | .sbTemp _ => [.outbox]
  | .sbDimmTemp _ => [.outbox]
  | .sbAlertResponse => [.outbox]
  | .ringLinkChange _ _ => [.outbox, .regs, .ringLinks, .ring]
  | .ddrRungExit _ => [.free, .outbox, .mem, .bad, .regs, .ddrs, .fc]
  | .stateCopyEnd _ => [.regs, .threads, .acts, .locks]
  | .regaccAccessDone => [.free, .outbox, .mem, .bad, .desk, .regs, .pendc, .goBy, .msix, .threads, .acts, .ready, .delay, .ctxs, .hqueues, .engines, .ddrs, .chans, .locks, .ports, .hostq, .ringLinks, .sq, .rc, .cw, .ring, .gb, .fc, .tb, .boot, .tap, .bg]
  | .uncorrectableCodeword _ => [.outbox, .regs]
  | .junctionReadingFall _ _ => [.regs, .boot]

end Sys2Proof
end

