-- ==== Sys2Proof/Laws/Effects.lean ====
section
/-! SUPPORT. What `exec` answers, for every command: a next state, reached by changes of the parts `Instr.parts` names. -/

set_option linter.all false
set_option Elab.async false

namespace Sys2Proof.Machine

theorem exec_effect (c : Instr) (s : State) : Effect c.parts (exec c s) s := by
  cases c
  case registerWrite => exact execRegisterWrite_within
  case commitGo => exact execCommitGo_within
  case commitSafePoint => exact execCommitSafePoint_within
  case frameReceive => exact execFrameReceive_within
  case pauseFrameReceive => exact execPauseFrameReceive_within
  case pfcFrameReceive => exact execPfcFrameReceive_within
  case pauseExpire => exact execPauseExpire_within
  case pauseStorm => exact execPauseStorm_within
  case clientLinkChange => exact execClientLinkChange_within
  case frameTransmit => exact execFrameTransmit_within
  case txtsPop => exact execTxtsPop_within
  case fstDataReceive => exact execFstDataReceive_within
  case nakRepeat => exact execNakRepeat_within
  case ackDelayExpire => exact execAckDelayExpire_within
  case fstAckReceive => exact execFstAckReceive_within
  case fstNakReceive => exact execFstNakReceive_within
  case fstHelloRxStream => exact execFstHelloRxStream_within
  case fstHelloTxStream => exact execFstHelloTxStream_within
  case fstCloseRxStream => exact execFstCloseRxStream_within
  case fstCloseTxStream => exact execFstCloseTxStream_within
  case rxStreamCloseDone => exact execRxStreamCloseDone_within
  case messageHandOver => exact execMessageHandOver_within
  case fstTxSend => exact execFstTxSend_within
  case fstRtoTimeout => exact execFstRtoTimeout_within
  case helloRtoTimeout => exact execHelloRtoTimeout_within
  case closeRtoTimeout => exact execCloseRtoTimeout_within
  case walkComplete => exact execWalkComplete_within
  case holdQueueRelease => exact execHoldQueueRelease_within
  case admission => exact execAdmit_within
  case contextCreate => exact execContextCreate_within
  case tokenArrive => exact execTokenArrive_within
  case readyFire => exact execReadyFire_within
  case spillRefill => exact execSpillRefill_within
  case bankResume => exact execBankResume_within
  case contextPark => exact execContextPark_within
  case parkTimeout => exact execParkTimeout_within
  case contextFree => exact execContextFree_within
  case stalemate => exact execStalemate_within
  case tenikStalemateAction => exact execTenikStalemateAction_within
  case abandonContext => exact execAbandonContext_within
  case abandonFinish => exact execAbandonFinish_within
  case dispatch => exact execDispatch_within
  case preemptSave => exact execPreemptSave_within
  case threadTimerDue => exact execThreadTimerDue_within
  case retireApply => exact execRetireApply_within
  case messageRelease => exact execMessageRelease_within
  case laneTakeoverEnd => exact execLaneTakeoverEnd_within
  case crosswalkHold => exact execCrosswalkHold_within
  case loadReturn => exact execLoadReturn_within
  case threadFault => exact execThreadFault_within
  case seatLimit => exact execSeatLimit_within
  case threadRelease => exact execThreadRelease_within
  case threadDrop => exact execThreadDrop_within
  case threadReset => exact execThreadReset_within
  case threadStalemate => exact execThreadStalemate_within
  case debugHalt => exact execDebugHalt_within
  case haltForced => exact execHaltForced_within
  case debugResume => exact execDebugResume_within
  case debugStep => exact execDebugStep_within
  case dbgDataWrite => exact execDbgDataWrite_within
  case dbgDataRead => exact execDbgDataRead_within
  case flagWake => exact execFlagWake_within
  case add => exact execAdd_within
  case sub => exact execSub_within
  case and => exact execAnd_within
  case or => exact execOr_within
  case xor => exact execXor_within
  case andn => exact execAndn_within
  case sll => exact execSll_within
  case srl => exact execSrl_within
  case sra => exact execSra_within
  case ror => exact execRor_within
  case mul => exact execMul_within
  case mulhu => exact execMulhu_within
  case mulhs => exact execMulhs_within
  case minu => exact execMinu_within
  case maxu => exact execMaxu_within
  case mins => exact execMins_within
  case maxs => exact execMaxs_within
  case cmp => exact execCmp_within
  case tst => exact execTst_within
  case sextb => exact execSextb_within
  case sexth => exact execSexth_within
  case sextw => exact execSextw_within
  case clz => exact execClz_within
  case popc => exact execPopc_within
  case bswap => exact execBswap_within
  case selz => exact execSelz_within
  case addi => exact execAddi_within
  case andi => exact execAndi_within
  case ori => exact execOri_within
  case xori => exact execXori_within
  case cmpi => exact execCmpi_within
  case slli => exact execSlli_within
  case srli => exact execSrli_within
  case srai => exact execSrai_within
  case rori => exact execRori_within
  case movi => exact execMovi_within
  case movk => exact execMovk_within
  case bkld => exact execBkld_within
  case bkrd => exact execBkrd_within
  case crd => exact execCrd_within
  case cwr => exact execCwr_within
  case rep => exact execRep_within
  case ld => exact execLd_within
  case lw => exact execLw_within
  case lh => exact execLh_within
  case lb => exact execLb_within
  case sd => exact execSd_within
  case sw => exact execSw_within
  case sh => exact execSh_within
  case sb => exact execSb_within
  case ldx => exact execLdx_within
  case lwx => exact execLwx_within
  case lhx => exact execLhx_within
  case lbx => exact execLbx_within
  case sdx => exact execSdx_within
  case swx => exact execSwx_within
  case shx => exact execShx_within
  case sbx => exact execSbx_within
  case cpx => exact execCpx_within
  case bc => exact execBc_within
  case jr => exact execJr_within
  case jalr => exact execJalr_within
  case getwork => exact execGetwork_within
  case waitev => exact execWaitev_within
  case waitevC => exact execWaitevC_within
  case setev => exact execSetev_within
  case token => exact execToken_within
  case jwr => exact execJwr_within
  case jout => exact execJout_within
  case retire => exact execRetire_within
  case abandon => exact execAbandon_within
  case chwr => exact execChwr_within
  case chwrx => exact execChwrx_within
  case chrd => exact execChrd_within
  case chrdNb => exact execChrdNb_within
  case channelReadResume => exact execChannelReadResume_within
  case channelWriteResume => exact execChannelWriteResume_within
  case cas => exact execCas_within
  case hpacq => exact execHpacq_within
  case hpacqT => exact execHpacqT_within
  case hpacqE => exact execHpacqE_within
  case hprel => exact execHprel_within
  case trap => exact execTrap_within (_rsv := 0)
  case eret => exact execEret_within
  case fxBitmap => exact execFxBitmap_within
  case fxIso => exact execFxIso_within
  case fxTlv => exact execFxTlv_within
  case fxFields => exact execFxFields_within
  case dxAdd => exact execDxAdd_within
  case dxSub => exact execDxSub_within
  case dxMul => exact execDxMul_within
  case dxRescale => exact execDxRescale_within
  case dxCcy => exact execDxCcy_within
  case dxCmp => exact execDxCmp_within
  case dxParse => exact execDxParse_within
  case dxFormat => exact execDxFormat_within
  case cxCmac => exact execCxCmac_within
  case cxCmacVer => exact execCxCmacVer_within
  case cxGcmEnc => exact execCxGcmEnc_within
  case cxGcmDec => exact execCxGcmDec_within
  case cxSha256 => exact execCxSha256_within
  case cxHmac => exact execCxHmac_within
  case cxHmacVer => exact execCxHmacVer_within
  case hxCrc => exact execHxCrc_within
  case hxKey => exact execHxKey_within
  case hxMcmp => exact execHxMcmp_within
  case helperGrant => exact execHelperGrant_within
  case helperComplete => exact execHelperComplete_within
  case poolPortAlloc => exact execPoolPortAlloc_within
  case poolPortInfo => exact execPoolPortInfo_within
  case poolPortDrop => exact execPoolPortDrop_within
  case poolPortAdd => exact execPoolPortAdd_within
  case vectorSignal => exact execVectorSignal_within
  case tableLookup => exact execTableLookup_within
  case lookupResult => exact execLookupResult_within
  case tableMove => exact execTableMove_within
  case teCmdRead => exact execTeCmdRead_within
  case teCmdInsert => exact execTeCmdInsert_within
  case teCmdUpdate => exact execTeCmdUpdate_within
  case teCmdRemove => exact execTeCmdRemove_within
  case teCmdDone => exact execTeCmdDone_within
  case mirrorResync => exact execMirrorResync_within
  case learnForward => exact execLearnForward_within
  case dirSearch => exact execDirSearch_within
  case scrubVisit => exact execScrubVisit_within
  case dramCommandGrant => exact execDramCommandGrant_within
  case refresh => exact execRefresh_within
  case zqcs => exact execZqcs_within
  case patrolScrub => exact execPatrolScrub_within
  case dimmSensorRead => exact execDimmSensorRead_within
  case ddrRungDescend => exact execDdrRungDescend_within
  case watchdogBite => exact execWatchdogBite_within
  case channelTailTimeout => exact execChannelTailTimeout_within
  case lockOrphan => exact execLockOrphan_within
  case bar4Write => exact execBar4Write_within
  case bar4Atomicop => exact execBar4Atomicop_within
  case bar2Request => exact execBar2Request_within
  case loadGo => exact execLoadGo_within
  case imageVerifyDone => exact execImageVerifyDone_within
  case queueEnable => exact execQueueEnable_within
  case queueDisable => exact execQueueDisable_within
  case queueErr => exact execQueueErr_within
  case nop => exact execNop_within
  case identify => exact execIdentify_within
  case echo => exact execEcho_within
  case modeSet => exact execModeSet_within
  case modeSetComplete => exact execModeSetComplete_within
  case modeGet => exact execModeGet_within
  case commit => exact execCommit_within
  case fwStage => exact execFwStage_within
  case fwStageComplete => exact execFwStageComplete_within
  case fwSwitch => exact execFwSwitch_within
  case fwSwitchComplete => exact execFwSwitchComplete_within
  case fwSwitchFallback => exact execFwSwitchFallback_within
  case fwInfo => exact execFwInfo_within
  case boardProfileLoad => exact execBoardProfileLoad_within
  case dramInit => exact execDramInit_within
  case dramInitComplete => exact execDramInitComplete_within
  case dramStatus => exact execDramStatus_within
  case termLoad => exact execTermLoad_within
  case termLoadComplete => exact execTermLoadComplete_within
  case termActivate => exact execTermActivate_within
  case termRetire => exact execTermRetire_within
  case termRetireComplete => exact execTermRetireComplete_within
  case termStatus => exact execTermStatus_within
  case classCreate => exact execClassCreate_within
  case classCreateComplete => exact execClassCreateComplete_within
  case classDestroy => exact execClassDestroy_within
  case classDestroyComplete => exact execClassDestroyComplete_within
  case classReset => exact execClassReset_within
  case classResetPoint => exact execClassResetPoint_within
  case classResetComplete => exact execClassResetComplete_within
  case classShare => exact execClassShare_within
  case classMigrateLog => exact execClassMigrateLog_within
  case classStatus => exact execClassStatus_within
  case tableCreate => exact execTableCreate_within
  case tableDelete => exact execTableDelete_within
  case tableDeleteComplete => exact execTableDeleteComplete_within
  case tableInsert => exact execTableInsert_within
  case tableUpdate => exact execTableUpdate_within
  case tableRemove => exact execTableRemove_within
  case tableRead => exact execTableRead_within
  case tableBulkLoad => exact execTableBulkLoad_within
  case tableLearnCfg => exact execTableLearnCfg_within
  case dirWrite => exact execDirWrite_within
  case dirInvalidate => exact execDirInvalidate_within
  case dirRead => exact execDirRead_within
  case dirProfile => exact execDirProfile_within
  case portCfg => exact execPortCfg_within
  case portStatus => exact execPortStatus_within
  case streamOpen => exact execStreamOpen_within
  case streamClose => exact execStreamClose_within
  case ringJoin => exact execRingJoin_within
  case ringJoinComplete => exact execRingJoinComplete_within
  case ringLeave => exact execRingLeave_within
  case ringLeaveComplete => exact execRingLeaveComplete_within
  case ringStatus => exact execRingStatus_within
  case fence => exact execFence_within
  case fenceComplete => exact execFenceComplete_within
  case unfence => exact execUnfence_within
  case unfenceComplete => exact execUnfenceComplete_within
  case faultAck => exact execFaultAck_within
  case faultInject => exact execFaultInject_within
  case gbRead => exact execGbRead_within
  case gbSeal => exact execGbSeal_within
  case countersRead => exact execCountersRead_within
  case timeSet => exact execTimeSet_within
  case powerRung => exact execPowerRung_within
  case diagRun => exact execDiagRun_within
  case diagRunComplete => exact execDiagRunComplete_within
  case ringFrameReceive => exact execRingFrameReceive_within
  case ringFrameTransmit => exact execRingFrameTransmit_within
  case heartbeatReceive => exact execHeartbeatReceive_within
  case remoteTokenReceive => exact execRemoteTokenReceive_within
  case mirrorRecordReceive => exact execMirrorRecordReceive_within
  case termRecordReceive => exact execTermRecordReceive_within
  case raccReqReceive => exact execRaccReqReceive_within
  case raccRspReceive => exact execRaccRspReceive_within
  case remoteWindowAccess => exact execRemoteWindowAccess_within
  case raccTimeout => exact execRaccTimeout_within
  case heartbeatSend => exact execHeartbeatSend_within
  case linkBroken => exact execLinkBroken_within
  case ringRetxTimeout => exact execRingRetxTimeout_within
  case mirrorLogApply => exact execMirrorLogApply_within
  case gbRecordHash => exact execGbRecordHash_within
  case faultReport => exact execFaultReport_within
  case faultAutoAck => exact execFaultAutoAck_within
  case fcAckWrite => exact execFcAckWrite_within
  case lockstepMismatch => exact execLockstepMismatch_within
  case tenikHang => exact execTenikHang_within
  case srAlive => exact execSrAlive_within
  case restartFail => exact execRestartFail_within
  case perstAssert => exact execPerstAssert_within
  case perstDeassert => exact execPerstDeassert_within
  case streetRungDescend => exact execStreetRungDescend_within
  case streetRungExit => exact execStreetRungExit_within
  case thermWarn => exact execThermWarn_within
  case thermTrip => exact execThermTrip_within
  case supply => exact execSupply_within
  case rootPllLockLoss => exact execRootPllLockLoss_within
  case pcieLinkChange => exact execPcieLinkChange_within
  case timebaseTick => exact execTimebaseTick_within
  case tbSet => exact execTbSet_within
  case tbStep => exact execTbStep_within
  case tapReset => exact execTapReset_within
  case extest => exact execExtest_within
  case idcode => exact execIdcode_within
  case samplePreload => exact execSamplePreload_within
  case highz => exact execHighz_within
  case clamp => exact execClamp_within
  case regacc => exact execRegacc_within (_rsv := 0)
  case bypass => exact execBypass_within
  case sbPart => exact execSbPart_within
  case sbRevision => exact execSbRevision_within
  case sbMode => exact execSbMode_within
  case sbErrStatus => exact execSbErrStatus_within
  case sbTemp => exact execSbTemp_within
  case sbDimmTemp => exact execSbDimmTemp_within
  case sbAlertResponse => exact execSbAlertResponse_within
  case ringLinkChange => exact execRingLinkChange_within
  case ddrRungExit => exact execDdrRungExit_within
  case stateCopyEnd => exact execStateCopyEnd_within
  case regaccAccessDone => exact execRegaccAccessDone_within
  case uncorrectableCodeword => exact execUncorrectableCodeword_within
  case junctionReadingFall => exact execJunctionReadingFall_within

end Sys2Proof.Machine
end

