-- ==== Sys2Proof/Laws/Fields.lean ====
section
/-! SUPPORT. Laws of bit fields: a field read after it is set, and another one after it. -/

set_option linter.all false
set_option Elab.async false

namespace Sys2Proof.Machine

/-- A field that lies within a word. -/
def Fld.ok (f : Fld) : Bool := decide (f.lo ≤ f.hi ∧ f.hi < 64)

/-- Two fields that share no bit. -/
def Fld.apart (f g : Fld) : Bool := decide (f.hi < g.lo ∨ g.hi < f.lo)

theorem Fld.mask_bit (f : Fld) (i : Nat) :
    f.mask.getLsbD i = (decide (i < 64) && decide (f.lo ≤ i) && decide (i - f.lo < f.width)) := by
  simp only [Fld.mask, BitVec.getLsbD_ofNat, Nat.testBit_mul_two_pow, Nat.testBit_two_pow_sub_one]
  simp [Bool.and_assoc]

theorem Fld.place_bit (f : Fld) (v i : Nat) :
    (f.place v).getLsbD i = (decide (i < 64) && (decide (f.lo ≤ i) && (decide (i - f.lo < f.width) && v.testBit (i - f.lo)))) := by
  simp only [Fld.place, BitVec.getLsbD_ofNat, Nat.testBit_mul_two_pow, Nat.testBit_mod_two_pow]

theorem Fld.get_bit (f : Fld) (w : Word) (i : Nat) :
    (f.get w).testBit i = (decide (i < f.hi + 1 - f.lo) && w.getLsbD (i + f.lo)) := by
  simp only [Fld.get, bitsOf, Nat.testBit_mod_two_pow, Nat.testBit_div_two_pow, BitVec.testBit_toNat]

/-- A field reads as the value it was set to. -/
theorem Fld.get_set_same (f : Fld) (w : Word) (v : Nat) (h : f.ok = true) : f.get (f.set w v) = v % 2 ^ f.width := by
  have hb : f.lo ≤ f.hi ∧ f.hi < 64 := by simpa [Fld.ok] using h
  apply Nat.eq_of_testBit_eq
  intro i
  rw [Fld.get_bit, Nat.testBit_mod_two_pow]
  simp only [Fld.set, BitVec.getLsbD_or, BitVec.getLsbD_and, BitVec.getLsbD_not, Fld.mask_bit, Fld.place_bit, Fld.width]
  by_cases hi : i < f.hi + 1 - f.lo
  · have h1 : i + f.lo < 64 := by omega
    simp [hi, h1]
  · simp [hi]

/-- Another field reads as before. -/
theorem Fld.get_set_other (f g : Fld) (w : Word) (v : Nat) (h : f.ok = true) (ha : f.apart g = true) :
    g.get (f.set w v) = g.get w := by
  have hb : f.lo ≤ f.hi ∧ f.hi < 64 := by simpa [Fld.ok] using h
  have hc : f.hi < g.lo ∨ g.hi < f.lo := by simpa [Fld.apart] using ha
  apply Nat.eq_of_testBit_eq
  intro i
  rw [Fld.get_bit, Fld.get_bit]
  simp only [Fld.set, BitVec.getLsbD_or, BitVec.getLsbD_and, BitVec.getLsbD_not, Fld.mask_bit, Fld.place_bit, Fld.width]
  by_cases hi : i < g.hi + 1 - g.lo
  · by_cases h64 : i + g.lo < 64
    · have : ¬(f.lo ≤ i + g.lo ∧ i + g.lo - f.lo < f.hi + 1 - f.lo) := by omega
      by_cases h1 : f.lo ≤ i + g.lo
      · have h2 : ¬(i + g.lo - f.lo < f.hi + 1 - f.lo) := fun h2 => this ⟨h1, h2⟩
        simp [h2, h64]
      · simp [h1, h64]
    · simp [BitVec.getLsbD_of_ge _ _ (Nat.le_of_not_lt h64), h64]
  · simp [hi]

/-- A field is smaller than two to its width. -/
theorem Fld.get_lt (f : Fld) (w : Word) : f.get w < 2 ^ (f.hi + 1 - f.lo) := Nat.mod_lt _ (Nat.two_pow_pos _)

end Sys2Proof.Machine
end

