-- ==== Sys2Proof/Laws/Issue.lean ====
section
/-! SUPPORT. What the operations every instruction shares do: issuing, ending, waiting and trapping. -/

set_option linter.all false
set_option Elab.async false

namespace Sys2Proof.Machine

theorem run_finishAt (t : Nat) (pc : Addr) (f : Thread → Thread) (s : State) :
    finishAt t pc f s = ((), s.ended t pc f) := rfl

theorem run_finishNext (t : Nat) (f : Thread → Thread) (s : State) : finishNext t f s = ((), s.endedNext t f) := rfl

theorem run_enterWait (t : Nat) (w : Wait) (s : State) : enterWait t w s = ((), s.waits t w) := rfl

@[simp] theorem State.issued_thread (s : State) (t u : Nat) : (s.issued t).thread u = s.thread u := by
  simp only [State.thread, State.threadsAt, State.issued, Upd.regs_threads]

@[simp] theorem State.issued_openPacket (s : State) (t u : Nat) : (s.issued t).openPacket u = s.openPacket u := by
  simp only [State.openPacket, State.issued, Upd.regs_chans]

@[simp] theorem State.issued_actAt (s : State) (t k : Nat) : (s.issued t).actAt k = s.actAt k := by
  simp only [State.actAt, State.issued, Upd.regs_act]

@[simp] theorem State.issued_inForce (s : State) (t off : Nat) (f : Fld) : (s.issued t).inForce off f = s.inForce off f := by
  simp only [State.inForce, State.issued_actAt]

@[simp] theorem State.issued_termsAt (s : State) (t k : Nat) : (s.issued t).termsAt k = s.termsAt k := by
  simp only [State.termsAt, State.issued, Upd.regs_terms]

@[simp] theorem State.issued_classesAt (s : State) (t k : Nat) : (s.issued t).classesAt k = s.classesAt k := by
  simp only [State.classesAt, State.issued, Upd.regs_classes]

@[simp] theorem State.issued_grantLe (s : State) (t c i n : Nat) : (s.issued t).grantLe c i n = s.grantLe c i n := by
  simp only [State.grantLe, State.issued_classesAt]

@[simp] theorem State.issued_boundTo (s : State) (t u : Nat) : (s.issued t).boundTo u = s.boundTo u := by
  simp only [State.boundTo, State.issued_inForce]

@[simp] theorem State.issued_table (s : State) (t k : Nat) : (s.issued t).table k = s.table k := by
  have h : ∀ w, (s.issued t).reg (tableWordOff k w) = s.reg (tableWordOff k w) ∨ 48 ≤ w := by
    intro w
    by_cases hw : w < 48
    · left
      have e : ¬tableWordOff k w = coreReg Reg.CORE_CNT_ISSUED (coreOf t) := by
        simp only [tableWordOff, coreReg, Reg.CORE_CNT_ISSUED]
        omega
      simp only [State.reg, State.issued, State.regsAt_put, if_neg e]
    · right; omega
  simp only [State.table, (h 0).resolve_right (by decide), (h 1).resolve_right (by decide), (h 2).resolve_right (by decide),
    (h 3).resolve_right (by decide), (h 4).resolve_right (by decide), (h 5).resolve_right (by decide)]

@[simp] theorem State.issued_inStripe (s : State) (t a : Nat) : (s.issued t).inStripe a = s.inStripe a := by
  have h : (s.issued t).table = s.table := funext fun k => State.issued_table s t k
  have d : (s.issued t).dying = s.dying := by
    funext k
    simp only [State.dying, State.issued, Upd.regs_bg]
  simp only [State.inStripe, State.regions, h, d]

@[simp] theorem State.issued_mayFetch (s : State) (t u pc : Nat) : (s.issued t).mayFetch u pc = s.mayFetch u pc := by
  simp only [State.mayFetch, State.issued_thread, State.issued_boundTo, State.issued_grantLe, State.issued_termsAt,
    State.issued_inStripe]

theorem State.ended_thread (s : State) (t u : Nat) (pc : Addr) (f : Thread → Thread) :
    (s.ended t pc f).thread u = if u = t then (f (s.thread t)).finish pc (s.openPacket t) else s.thread u := by
  simp only [State.thread, State.ended, State.threadsAt_put]

theorem run_count_issued (s : State) (t : Nat) :
    count (coreReg Reg.CORE_CNT_ISSUED (coreOf t)) s = ((), s.issued t) := rfl

theorem run_trap {t : Nat} {s : State} (h : (s.thread t).inHandler = false) (c : Nat) (v : Word) (pc : Addr) :
    trap t c v pc s = ((), s.trapped t c v pc) := by
  simp only [trap, run_bind, run_rd, h, Bool.false_eq_true]
  exact run_finishAt _ _ _ _

theorem run_trapHere {t : Nat} {s : State} (h : (s.thread t).inHandler = false) (c : Nat) (v : Word) :
    trapHere t c v s = ((), s.trappedHere t c v) := by
  simp only [trapHere, run_bind, run_rd, run_trap h]
  rfl

/-- A thread that can issue runs the body of its instruction, its core's counter ISSUED one further. -/
theorem run_issue {t : Nat} {s : State} (h : s.canIssue t = true) (word : Nat) (body : Thread → M Unit) :
    issue t word true body s = body (s.thread t) (s.issued t) := by
  simp only [State.canIssue, Bool.and_eq_true] at h
  simp only [issue, run_bind, run_rd, h.1, run_onlyIf_true, run_count_issued, State.issued_thread, State.issued_mayFetch,
    h.2, run_ite, Bool.not_true, Bool.false_eq_true, if_false]

theorem run_undef {t : Nat} {s : State} (h : (s.thread t).inHandler = false) (word reason : Nat) :
    undef t word reason s = ((), s.trappedHere t causeUndef (Word.ofNat (word % 2 ^ 32 + reason * 2 ^ 32))) := by
  simp only [undef, run_bind, run_rd, run_trap h]
  rfl

/-- A thread that can issue an instruction with a reserved bit set takes UNDEF, reason 0 (R220, R256). -/
theorem run_issue_reserved {t : Nat} {s : State} (h : s.canIssue t = true) (word : Nat) (body : Thread → M Unit) :
    issue t word false body s = undef t word 0 (s.issued t) := by
  simp only [State.canIssue, Bool.and_eq_true] at h
  simp only [issue, run_bind, run_rd, h.1, run_onlyIf_true, run_count_issued, State.issued_thread, State.issued_mayFetch,
    h.2, run_ite, Bool.not_true, Bool.not_false, Bool.false_eq_true, if_false, if_true]

/-- A thread that does not issue does nothing. -/
theorem run_issue_idle {t : Nat} {s : State} (h : s.issues t = false) (word : Nat) (ok : Bool) (body : Thread → M Unit) :
    issue t word ok body s = ((), s) := by
  simp only [issue, run_bind, run_rd, h, run_onlyIf_false]

end Sys2Proof.Machine
end

