-- ==== Sys2Proof/Laws/Memory.lean ====
section
/-! SUPPORT. Memory: what a write of bytes stores and what it leaves, in memory and in a desk, and a store that lies in one
line. -/

set_option linter.all false
set_option Elab.async false

namespace Sys2Proof.Machine

/-- Bytes written from `a` on read back there; every other byte is as before. -/
theorem writeMem_memAt (bs : List Byte) (a x : Nat) (s : State) :
    (writeMem a bs s).2.memAt x = if a ≤ x ∧ x < a + bs.length then bs.getD (x - a) 0 else s.memAt x := by
  induction bs generalizing a s with
  | nil =>
    simp only [writeMem, run_pure, List.length_nil]
    rw [if_neg (by omega)]
  | cons b bs ih =>
    simp only [writeMem, run_bind, run_emit, ih, State.memAt_put, List.length_cons]
    by_cases h0 : x = a
    · subst h0
      have h1 : ¬(x + 1 ≤ x ∧ x < x + 1 + bs.length) := by omega
      have h2 : x ≤ x ∧ x < x + (bs.length + 1) := by omega
      simp [h1, h2]
    · by_cases h1 : a + 1 ≤ x ∧ x < a + 1 + bs.length
      · have h2 : a ≤ x ∧ x < a + (bs.length + 1) := by omega
        have h3 : x - a = (x - (a + 1)) + 1 := by omega
        rw [if_pos h1, if_pos h2, h3]
        simp
      · have h2 : ¬(a ≤ x ∧ x < a + (bs.length + 1)) := by omega
        rw [if_neg h1, if_neg h2, if_neg h0]

/-- Neighbouring offsets of a desk lie side by side, within the shared pages and within a private page. -/
theorem deskKey_next {t off k n : Nat} (h : deskKey t off = some k) (ha : off % n = 0) (hn : n = 1 ∨ n = 2 ∨ n = 4 ∨ n = 8)
    {j : Nat} (hj : j < n) : deskKey t (off + j) = some (k + j) := by
  have hs : off < 0xE000 → off + j < 0xE000 := by rcases hn with rfl | rfl | rfl | rfl <;> omega
  have hp : off < 0x10000 → off + j < 0x10000 := by rcases hn with rfl | rfl | rfl | rfl <;> omega
  simp only [deskKey] at h ⊢
  by_cases h1 : off < 0xE000
  · rw [if_pos h1] at h
    rw [if_pos (hs h1), ← Option.some.inj h, Nat.add_assoc]
  · rw [if_neg h1] at h
    have h2 : ¬off + j < 0xE000 := by omega
    by_cases h3 : 0xFC00 ≤ off ∧ off < 0x10000
    · rw [if_pos h3] at h
      rw [if_neg h2, if_pos ⟨by omega, hp h3.2⟩, ← Option.some.inj h]
      exact congrArg some (by omega)
    · rw [if_neg h3] at h
      cases h

/-- Bytes written to a desk where its offsets lie side by side. -/
theorem writeDesk_deskAt (bs : List Byte) (t off k x : Nat) (s : State)
    (h : ∀ j, j < bs.length → deskKey t (off + j) = some (k + j)) :
    (writeDesk t off bs s).2.deskAt x = if k ≤ x ∧ x < k + bs.length then bs.getD (x - k) 0 else s.deskAt x := by
  induction bs generalizing off k s with
  | nil =>
    simp only [writeDesk, run_pure, List.length_nil]
    rw [if_neg (by omega)]
  | cons b bs ih =>
    have h0 : deskKey t off = some k := by simpa using h 0 (by simp)
    have hs : ∀ j, j < bs.length → deskKey t (off + 1 + j) = some (k + 1 + j) := by
      intro j hj
      have := h (j + 1) (by simpa using hj)
      rw [show off + 1 + j = off + (j + 1) by omega, show k + 1 + j = k + (j + 1) by omega]
      exact this
    simp only [writeDesk, run_bind, h0, run_emit, ih (off + 1) (k + 1) _ hs, State.deskAt_put, List.length_cons]
    by_cases h0 : x = k
    · subst h0
      have h1 : ¬(x + 1 ≤ x ∧ x < x + 1 + bs.length) := by omega
      have h2 : x ≤ x ∧ x < x + (bs.length + 1) := by omega
      simp [h1, h2]
    · by_cases h1 : k + 1 ≤ x ∧ x < k + 1 + bs.length
      · have h2 : k ≤ x ∧ x < k + (bs.length + 1) := by omega
        have h3 : x - k = (x - (k + 1)) + 1 := by omega
        rw [if_pos h1, if_pos h2, h3]
        simp
      · have h2 : ¬(k ≤ x ∧ x < k + (bs.length + 1)) := by omega
        rw [if_neg h1, if_neg h2, if_neg h0]

/-- A store that lies in one line is a store of that line's bytes. -/
theorem store_line {who a : Nat} {bs : List Byte} (h0 : 0 < bs.length) (h : a % 64 + bs.length ≤ 64) (s : State) :
    store who a bs s = storeLine .other who a bs s := by
  have ht : bs.take (64 - a % 64) = bs := List.take_of_length_le (by omega)
  have hd : bs.drop (64 - a % 64) = [] := List.drop_of_length_le (by omega)
  have hb : bs.isEmpty = false := by cases bs with
    | nil => simp at h0
    | cons => rfl
  have hc : cutLines (bs.length / 64 + 2) a bs = [(a, bs)] := by
    simp only [cutLines, hb, Bool.false_eq_true, if_false, ht, hd, List.isEmpty_nil, if_true]
  simp only [store, hc, run_each_cons, run_each_nil]
  rfl

/-- Such a store, where the line takes it and its DRAM is initialised: its bytes read back, and every other byte of memory is as
before. -/
theorem store_memAt {who a : Nat} {bs : List Byte} {s : State} (h0 : 0 < bs.length) (h : a % 64 + bs.length ≤ 64)
    (ht : s.lineTakes a .other = true) (hr : s.rawChan a = none) (x : Nat) :
    (store who a bs s).2.memAt x = if a ≤ x ∧ x < a + bs.length then bs.getD (x - a) 0 else s.memAt x := by
  rw [store_line h0 h, ← writeMem_memAt bs a x s]
  have k1 : ∀ (l : List Nat) (w : State), (each l (fun g => emit (.bad g false)) w).2.memAt x = w.memAt x := by
    intro l
    induction l with
    | nil => intro w; rfl
    | cons g l ih => intro w; rw [run_each_cons, ih]; rfl
  have k2 : ∀ (q : DdrReq) (w : State), (ddrRequest q w).2.memAt x = w.memAt x := by
    intro q w
    have := (ddrRequest_within (req := q)).same (q := .mem) rfl w
    simp only [StatePart.same] at this
    simp only [State.memAt, this]
  simp only [storeLine, putLine, setLine, run_bind, run_rd, ht, hr, run_onlyIf_true, k1, k2]

theorem leBytes_length (n v : Nat) : (leBytes n v).length = n := by
  induction n generalizing v with
  | zero => rfl
  | succ n ih => simp [leBytes, ih]

theorem leBytes_getD (n v j : Nat) (h : j < n) : (leBytes n v).getD j 0 = BitVec.ofNat 8 (v / 2 ^ (8 * j)) := by
  induction n generalizing v j with
  | zero => omega
  | succ n ih =>
    cases j with
    | zero => simp [leBytes]
    | succ j =>
      rw [leBytes, List.getD_cons_succ, ih _ _ (by omega), Nat.div_div_eq_div_mul]
      congr 2
      rw [show 8 * (j + 1) = 8 + 8 * j by omega, Nat.pow_add]

/-- The byte `j` of the low `n` bytes of a register. -/
theorem lowBytes_getD (v : Word) (n j : Nat) (h : j < n) : (lowBytes v n).getD j 0 = BitVec.ofNat 8 (v.toNat / 2 ^ (8 * j)) := by
  rw [lowBytes, leBytes_getD _ _ _ h]
  apply BitVec.eq_of_toNat_eq
  simp only [BitVec.toNat_ofNat]
  rw [show 8 * n = 8 * j + 8 * (n - j) by omega, Nat.pow_add, Nat.mod_mul_right_div_self]
  rw [show 2 ^ (8 * (n - j)) = 2 ^ 8 * 2 ^ (8 * (n - j) - 8) by rw [← Nat.pow_add]; congr 1; omega]
  rw [Nat.mod_mul_right_mod]

theorem lowBytes_length (v : Word) (n : Nat) : (lowBytes v n).length = n := leBytes_length _ _

end Sys2Proof.Machine
end

