-- ==== Sys2Proof/Laws/RemoteAccess.lean ====
section
/-! SUPPORT. The bodies of remote accesses (R458): what one member writes into a record, another reads out of it. -/

set_option linter.all false
set_option Elab.async false

namespace Sys2Proof.Machine

theorem raccCode_length (ty i : Nat) (bs : List Byte) : (raccCode ty i bs).length = bs.length := by
  induction bs generalizing i with
  | nil => rfl
  | cons b bs ih => simp [raccCode, ih]

theorem raccCode_raccCode (ty i : Nat) (bs : List Byte) : raccCode ty i (raccCode ty i bs) = bs := by
  induction bs generalizing i with
  | nil => rfl
  | cons b bs ih => simp [raccCode, ih, BitVec.xor_assoc]

theorem ofLeBytes_leBytes (n v : Nat) : ofLeBytes (leBytes n v) = v % 2 ^ (8 * n) := by
  induction n generalizing v with
  | zero => simp [leBytes, ofLeBytes, Nat.mod_one]
  | succ n ih =>
    have h : 8 * (n + 1) = 8 + 8 * n := by omega
    simp only [leBytes, ofLeBytes, ih, BitVec.toNat_ofNat, h, Nat.pow_add, Nat.mod_mul]

/-- A field of some bytes is found behind those in front of it. -/
theorem leAt_append (a b c : List Byte) (off n : Nat) (h : off = a.length) (hn : n = b.length) :
    leAt (a ++ (b ++ c)) off n = ofLeBytes b := by
  subst h hn
  simp [leAt, slice]

theorem raccRspOf_raccRsp (tag v : Nat) : raccRspOf (raccRsp tag v) = (tag % 2 ^ 64, v % 2 ^ 64) := by
  have h : ((raccRsp tag v).take 16) = raccCode recRaccRsp 0 (leBytes 8 tag ++ leBytes 8 v) := by
    simp [raccRsp, raccCode_length, leBytes_length]
  have h0 := leAt_append [] (leBytes 8 tag) (leBytes 8 v) 0 8 rfl (leBytes_length _ _).symm
  have h1 := leAt_append (leBytes 8 tag) (leBytes 8 v) [] 8 8 (leBytes_length _ _).symm (leBytes_length _ _).symm
  simp only [raccRspOf, h, raccCode_raccCode]
  simp only [List.nil_append] at h0
  simp only [List.append_nil] at h1
  rw [h0, h1, ofLeBytes_leBytes, ofLeBytes_leBytes]

theorem raccReqOf_raccReq (tag t off n : Nat) (wr : Option Nat) : raccReqOf (raccReq tag t off n wr) =
    (tag % 2 ^ 64, t % 2 ^ 16, off % 2 ^ 32, n % 2 ^ 8, wr.map (· % 2 ^ 64)) := by
  let f := leBytes 8 tag ++ (leBytes 2 t ++ (leBytes 4 off ++ (leBytes 1 n ++ (leBytes 1 (bit wr.isSome) ++ leBytes 8 (wr.getD 0)))))
  have h : ((raccReq tag t off n wr).take 24) = raccCode recRaccReq 0 f := by
    simp [raccReq, raccCode_length, leBytes_length, f]
  have at_ : ∀ (a b c : List Byte) (off n v : Nat), f = a ++ (b ++ c) → off = a.length → b = leBytes n v →
      leAt f off n = v % 2 ^ (8 * n) := by
    intro a b c off n v hf ho hb
    rw [hf, leAt_append a b c off n ho (by rw [hb, leBytes_length]), hb, ofLeBytes_leBytes]
  let x0 := leBytes 8 tag
  let x1 := leBytes 2 t
  let x2 := leBytes 4 off
  let x3 := leBytes 1 n
  let x4 := leBytes 1 (bit wr.isSome)
  let x5 := leBytes 8 (wr.getD 0)
  have e0 := at_ [] x0 (x1 ++ (x2 ++ (x3 ++ (x4 ++ x5)))) 0 8 tag rfl rfl rfl
  have e1 := at_ x0 x1 (x2 ++ (x3 ++ (x4 ++ x5))) 8 2 t rfl (by simp [x0, leBytes_length]) rfl
  have e2 := at_ (x0 ++ x1) x2 (x3 ++ (x4 ++ x5)) 10 4 off (by simp [f, x0, x1, x2, x3, x4, x5])
    (by simp [x0, x1, leBytes_length]) rfl
  have e3 := at_ (x0 ++ x1 ++ x2) x3 (x4 ++ x5) 14 1 n (by simp [f, x0, x1, x2, x3, x4, x5])
    (by simp [x0, x1, x2, leBytes_length]) rfl
  have e4 := at_ (x0 ++ x1 ++ x2 ++ x3) x4 x5 15 1 (bit wr.isSome) (by simp [f, x0, x1, x2, x3, x4, x5])
    (by simp [x0, x1, x2, x3, leBytes_length]) rfl
  have e5 := at_ (x0 ++ x1 ++ x2 ++ x3 ++ x4) x5 [] 16 8 (wr.getD 0) (by simp [f, x0, x1, x2, x3, x4, x5])
    (by simp [x0, x1, x2, x3, x4, leBytes_length]) rfl
  simp only [raccReqOf, h, raccCode_raccCode, e0, e1, e2, e3, e4, e5]
  cases wr <;> simp [bitOf, bit]

end Sys2Proof.Machine
end

