-- ==== Sys2Proof/Laws/Words.lean ====
section
/-! SUPPORT. Words: a sign-extended field, and the values of MOVI and MOVK, in the operations of `BitVec`. -/

set_option linter.all false
set_option Elab.async false

namespace Sys2Proof.Machine

/-- A sign-extended field. -/
theorem sextW_eq {n : Nat} (h0 : 0 < n) (h : n ≤ 64) (v : Nat) : sextW n v = (BitVec.ofNat n v).signExtend 64 := by
  apply BitVec.eq_of_toNat_eq
  have hm : (BitVec.ofNat n v).msb = bitOf v (n - 1) := by
    simp only [BitVec.msb_eq_getLsbD_last, BitVec.getLsbD_ofNat, bitOf]
    rw [Nat.testBit_eq_decide_div_mod_eq, decide_eq_true (by omega : n - 1 < n), Bool.true_and]
    rw [Bool.eq_iff_iff]; simp
  have hp : 2 ^ n ≤ 2 ^ 64 := Nat.pow_le_pow_right (by decide) h
  have hl : v % 2 ^ n < 2 ^ n := Nat.mod_lt _ (Nat.two_pow_pos n)
  rw [BitVec.toNat_signExtend, hm]
  simp only [sextW, BitVec.toNat_setWidth, BitVec.toNat_ofNat]
  split
  · simp only [Word.ofNat, BitVec.toNat_ofNat]
    rw [Nat.mod_eq_of_lt (b := 2 ^ 64) (a := v % 2 ^ n) (by omega), Nat.mod_eq_of_lt (by omega)]
  · simp only [Word.ofNat, BitVec.toNat_ofNat]
    omega

/-- The halfword MOVI puts in its place. -/
theorem movi_eq {h : Nat} (hh : h < 4) (imm : Nat) : Word.ofNat (imm % 2 ^ 16 * 2 ^ (16 * (h % 4))) = (BitVec.ofNat 16 imm).setWidth 64 <<< (16 * h) := by
  rw [Nat.mod_eq_of_lt hh]
  apply BitVec.eq_of_toNat_eq
  have : imm % 65536 % 18446744073709551616 = imm % 65536 := Nat.mod_eq_of_lt (by omega)
  simp [Word.ofNat, Nat.shiftLeft_eq]

/-- The halfword MOVK puts in its place. -/
theorem movk_eq {h : Nat} (hh : h < 4) (w : Word) (imm : Nat) : Fld.set ⟨16 * (h % 4) + 15, 16 * (h % 4)⟩ w (imm % 2 ^ 16) = (w &&& ~~~((0xFFFF : Word) <<< (16 * h))) ||| (BitVec.ofNat 16 imm).setWidth 64 <<< (16 * h) := by
  have e : ∀ i < 64, ((0xFFFF : Word)).getLsbD i = decide (i < 16) := by decide
  rw [Nat.mod_eq_of_lt hh]
  apply BitVec.eq_of_getLsbD_eq
  intro i hi
  simp only [Fld.set, Fld.mask, Fld.place, Fld.width, BitVec.getLsbD_or, BitVec.getLsbD_and, BitVec.getLsbD_not,
    BitVec.getLsbD_shiftLeft, BitVec.getLsbD_ofNat, BitVec.getLsbD_setWidth, Word.ofNat, Nat.testBit_mul_two_pow, Nat.testBit_mod_two_pow, Nat.testBit_two_pow_sub_one]
  have e' := e (i - 16 * h) (by omega)
  rw [e']
  by_cases h1 : 16 * h ≤ i
  · have h2 : ¬ i < 16 * h := by omega
    simp [h1, h2, hi]
    by_cases h3 : i - 16 * h < 16
    · have h4 : 16 * h + 15 + 1 - 16 * h = 16 := by omega
      have h5 : i - 16 * h < 64 := by omega
      simp [h3, h4, h5]
    · have h4 : 16 * h + 15 + 1 - 16 * h = 16 := by omega
      simp [h3, h4]
  · have h2 : i < 16 * h := by omega
    simp [h1, h2, hi]

/-- A program counter as a word. -/
theorem word_of_pc (pc : Addr) : Word.ofNat pc.toNat = pc.setWidth 64 := BitVec.ofNat_toNat 64 pc

/-- A register as a program counter. -/
theorem pc_of_word (w : Word) : BitVec.ofNat 48 w.toNat = w.setWidth 48 := BitVec.ofNat_toNat 48 w

/-- The displacement of BC in bytes. -/
theorem disp21_eq (disp : Nat) : BitVec.ofNat 48 ((sextW 21 disp).toNat * 4) = (BitVec.ofNat 21 disp).signExtend 48 <<< 2 := by
  rw [sextW_eq (by decide) (by decide)]
  have e : BitVec.ofNat 48 (((BitVec.ofNat 21 disp).signExtend 64).toNat * 4) =
      (((BitVec.ofNat 21 disp).signExtend 64) <<< 2).setWidth 48 := by
    apply BitVec.eq_of_toNat_eq
    simp only [BitVec.toNat_ofNat, BitVec.toNat_setWidth, BitVec.toNat_shiftLeft, Nat.shiftLeft_eq]
    omega
  rw [e]
  apply BitVec.eq_of_getLsbD_eq
  intro i hi
  simp only [BitVec.getLsbD_setWidth, BitVec.getLsbD_shiftLeft, BitVec.getLsbD_signExtend]
  by_cases h : i < 2
  · simp [h]
  · have : i < 64 := by omega
    have : i - 2 < 64 := by omega
    have : i - 2 < 48 := by omega
    simp [*]

end Sys2Proof.Machine
end

