-- ==== Sys2Proof/WellFormed.lean ====
section
/-! DEFINITION. Which commands are well-formed: each operand is a value that the unit it names, or the field of the word or
packet it stands in, can have.  The machine gives every command an outcome, well-formed or not; what is well-formed is what
the outside world can send. -/

namespace Sys2Proof.WellFormed

/-- A general register (R221). -/
def gpr (r : Nat) : Bool := decide (r < 32)

/-- Who makes a register access (R3, R391, R439). -/
def who : Who → Bool
  | .host p => p.all (decide <| · < 2 ^ 20)
  | .tenik => true
  | .thread t => decide (t < 768)
  | .debug => true
  | .remote t d => decide (t < 768 ∧ d < 4096)

/-- A command packet (R400): each field within its width, the queue one of the manager's or of a classroom's, the payload no
longer than its slots. -/
def cmd (c : Cmd) : Bool :=
  decide (c.queue < 80 ∧ c.flags < 2 ^ 16 ∧ c.len < 2 ^ 32 ∧ c.replyAddr < 2 ^ 64 ∧ c.replyMax < 2 ^ 32 ∧ c.rsv < 2 ^ 32) &&
  decide (c.p0 < 2 ^ 64 ∧ c.p1 < 2 ^ 64 ∧ c.p2 < 2 ^ 64 ∧ c.p3 < 2 ^ 64 ∧ c.payload.length ≤ 64 * c.len)

/-- What is handed to a pipeline (R17, R44). -/
def handOver : HandOver → Bool
  | .stream id => decide (id < 2 ^ 32)
  | .unseq p => decide (p < 8)

/-- The instruction behind a REP (R221, R253). -/
def follower : Follower → Bool
  | .sdx a b o => gpr a && gpr b && decide (o < 2 ^ 16)
  | .swx a b o => gpr a && gpr b && decide (o < 2 ^ 16)
  | .shx a b o => gpr a && gpr b && decide (o < 2 ^ 16)
  | .sbx a b o => gpr a && gpr b && decide (o < 2 ^ 16)
  | .cpx a b s r => gpr a && gpr b && decide (s < 4 ∧ r < 2 ^ 14)
  | .chwrx a b _ r => gpr a && gpr b && decide (r < 2 ^ 6)
  | .other => true

/-- A unit that can find a fault in itself (R415, R483). -/
def ownFault : OwnFault → Bool
  | .stateUncorr k i => ([2, 3, 4, 5, 6].filterMap Machine.UnitKind.ofCode).any fun u => u.code == k && decide (i < u.count)
  | .linkFault g => decide (g < 2)
  | .logic k i => (Machine.UnitKind.ofCode k).any fun u => decide (i < u.count)

/-- A signal there is (R521). -/
def pin : Pin → Bool
  | .ddr n p => decide (n < 8) && match p with
    | .dq i => decide (i < 72)
    | .dqsT i | .dqsC i | .a i => decide (i < 18)
    | .csN i => decide (i < 4)
    | .ba i | .bg i | .cke i | .odt i | .ckT i | .ckC i => decide (i < 2)
    | _ => true
  | .strapPcieW i | .strapSmbA i => decide (i < 2)
  | .clientTx i => decide (i < 8)
  | .ringTx l i => decide (l < 2 ∧ i < 4)
  | .pcieTx i => decide (i < 16)
  | _ => true

/-- A TAP instruction code that acts as BYPASS (R541). -/
def tapCode (k : Nat) : Bool := decide (k < 256) && !(List.contains [0x00, 0x01, 0x02, 0x03, 0x04, 0x20] k)

/-- Bytes of a sideband transfer (R544). -/
def sbAccess : SbAccess → Bool
  | .read _ => true
  | .write d => d.all (decide <| · < 256)

end Sys2Proof.WellFormed

namespace Sys2Proof

open WellFormed

/-- Whether a command is well-formed. -/
def wellFormed : Instr → Bool
  | .registerWrite o off en _ => who o && decide (off < 2 ^ 26) && decide (en < 256)
  | .commitGo o off en _ => who o && decide (off < 2 ^ 26) && decide (en < 256)
  | .commitSafePoint g => g.exists
  | .frameReceive p _ _ => decide (p < 8)
  | .pauseFrameReceive p quanta => decide (p < 8) && decide (quanta < 65536)
  | .pfcFrameReceive p enable _ => decide (p < 8) && decide (enable < 256)
  | .pauseExpire p prio => decide (p < 8) && prio.all (decide <| · < 8)
  | .pauseStorm p q => decide (p < 8) && decide (q < 3)
  | .clientLinkChange p _ => decide (p < 8)
  | .frameTransmit p => decide (p < 8)
  | .txtsPop o p en _ => who o && decide (p < 8) && decide (en < 256)
  | .fstDataReceive p => decide (p < 8)
  | .nakRepeat id => decide (id < 2 ^ 32)
  | .ackDelayExpire id => decide (id < 2 ^ 32)
  | .fstAckReceive p => decide (p < 8)
  | .fstNakReceive p => decide (p < 8)
  | .fstHelloRxStream p => decide (p < 8)
  | .fstHelloTxStream p => decide (p < 8)
  | .fstCloseRxStream p => decide (p < 8)
  | .fstCloseTxStream p => decide (p < 8)
  | .rxStreamCloseDone id => decide (id < 2 ^ 32)
  | .messageHandOver src => handOver src
  | .fstTxSend id => decide (id < 2 ^ 32)
  | .fstRtoTimeout id => decide (id < 2 ^ 32)
  | .helloRtoTimeout id => decide (id < 2 ^ 32)
  | .closeRtoTimeout id => decide (id < 2 ^ 32)
  | .walkComplete p _ => decide (p < 4)
  | .holdQueueRelease p => decide (p < 4)
  | .admission => true
  | .contextCreate => true
  | .tokenArrive b => decide (b < 4)
  | .readyFire b => decide (b < 4)
  | .spillRefill b => decide (b < 4)
  | .bankResume b => decide (b < 4)
  | .contextPark x => decide (x < 2 ^ 24)
  | .parkTimeout d => decide (d < 2 ^ 24)
  | .contextFree x => decide (x < 2 ^ 24)
  | .stalemate => true
  | .tenikStalemateAction => true
  | .abandonContext x => decide (x < 2 ^ 24)
  | .abandonFinish x => decide (x < 2 ^ 24)
  | .dispatch c => decide (c < 64)
  | .preemptSave t => decide (t < 768)
  | .threadTimerDue d => decide (d < 2 ^ 24)
  | .retireApply _ => true
  | .messageRelease l => decide (l < 4)
  | .laneTakeoverEnd l => decide (l < 4)
  | .crosswalkHold l => decide (l < 4)
  | .loadReturn t _ => decide (t < 768)
  | .threadFault t cause => decide (t < 768) && decide (cause < 8)
  | .seatLimit t => decide (t < 768)
  | .threadRelease o k thr => who o && decide (k < 96) && decide (thr < 8)
  | .threadDrop o k thr => who o && decide (k < 96) && decide (thr < 8)
  | .threadReset o k thr => who o && decide (k < 96) && decide (thr < 8)
  | .threadStalemate k => decide (k < 96)
  | .debugHalt o k mask => who o && decide (k < 96) && decide (mask < 256)
  | .haltForced t => decide (t < 768)
  | .debugResume o k mask => who o && decide (k < 96) && decide (mask < 256)
  | .debugStep o k mask => who o && decide (k < 96) && decide (mask < 256)
  | .dbgDataWrite o k en _ => who o && decide (k < 96) && decide (en < 256)
  | .dbgDataRead o k => who o && decide (k < 96)
  | .flagWake t => decide (t < 768)
  | .add t rd ra rb rsv => decide (t < 768) && gpr rd && gpr ra && gpr rb && decide (rsv < 2 ^ 5)
  | .sub t rd ra rb rsv => decide (t < 768) && gpr rd && gpr ra && gpr rb && decide (rsv < 2 ^ 5)
  | .and t rd ra rb rsv => decide (t < 768) && gpr rd && gpr ra && gpr rb && decide (rsv < 2 ^ 5)
  | .or t rd ra rb rsv => decide (t < 768) && gpr rd && gpr ra && gpr rb && decide (rsv < 2 ^ 5)
  | .xor t rd ra rb rsv => decide (t < 768) && gpr rd && gpr ra && gpr rb && decide (rsv < 2 ^ 5)
  | .andn t rd ra rb rsv => decide (t < 768) && gpr rd && gpr ra && gpr rb && decide (rsv < 2 ^ 5)
  | .sll t rd ra rb rsv => decide (t < 768) && gpr rd && gpr ra && gpr rb && decide (rsv < 2 ^ 5)
  | .srl t rd ra rb rsv => decide (t < 768) && gpr rd && gpr ra && gpr rb && decide (rsv < 2 ^ 5)
  | .sra t rd ra rb rsv => decide (t < 768) && gpr rd && gpr ra && gpr rb && decide (rsv < 2 ^ 5)
  | .ror t rd ra rb rsv => decide (t < 768) && gpr rd && gpr ra && gpr rb && decide (rsv < 2 ^ 5)
  | .mul t rd ra rb rsv => decide (t < 768) && gpr rd && gpr ra && gpr rb && decide (rsv < 2 ^ 5)
  | .mulhu t rd ra rb rsv => decide (t < 768) && gpr rd && gpr ra && gpr rb && decide (rsv < 2 ^ 5)
  | .mulhs t rd ra rb rsv => decide (t < 768) && gpr rd && gpr ra && gpr rb && decide (rsv < 2 ^ 5)
  | .minu t rd ra rb rsv => decide (t < 768) && gpr rd && gpr ra && gpr rb && decide (rsv < 2 ^ 5)
  | .maxu t rd ra rb rsv => decide (t < 768) && gpr rd && gpr ra && gpr rb && decide (rsv < 2 ^ 5)
  | .mins t rd ra rb rsv => decide (t < 768) && gpr rd && gpr ra && gpr rb && decide (rsv < 2 ^ 5)
  | .maxs t rd ra rb rsv => decide (t < 768) && gpr rd && gpr ra && gpr rb && decide (rsv < 2 ^ 5)
  | .cmp t rd ra rb rsv => decide (t < 768) && gpr rd && gpr ra && gpr rb && decide (rsv < 2 ^ 5)
  | .tst t rd ra rb rsv => decide (t < 768) && gpr rd && gpr ra && gpr rb && decide (rsv < 2 ^ 5)
  | .sextb t rd ra rb rsv => decide (t < 768) && gpr rd && gpr ra && gpr rb && decide (rsv < 2 ^ 5)
  | .sexth t rd ra rb rsv => decide (t < 768) && gpr rd && gpr ra && gpr rb && decide (rsv < 2 ^ 5)
  | .sextw t rd ra rb rsv => decide (t < 768) && gpr rd && gpr ra && gpr rb && decide (rsv < 2 ^ 5)
  | .clz t rd ra rb rsv => decide (t < 768) && gpr rd && gpr ra && gpr rb && decide (rsv < 2 ^ 5)
  | .popc t rd ra rb rsv => decide (t < 768) && gpr rd && gpr ra && gpr rb && decide (rsv < 2 ^ 5)
  | .bswap t rd ra rb rsv => decide (t < 768) && gpr rd && gpr ra && gpr rb && decide (rsv < 2 ^ 5)
  | .selz t rd ra rb rsv => decide (t < 768) && gpr rd && gpr ra && gpr rb && decide (rsv < 2 ^ 5)
  | .addi t rd ra imm rsv => decide (t < 768) && gpr rd && gpr ra && decide (imm < 2 ^ 14) && decide (rsv < 2 ^ 2)
  | .andi t rd ra imm rsv => decide (t < 768) && gpr rd && gpr ra && decide (imm < 2 ^ 14) && decide (rsv < 2 ^ 2)
  | .ori t rd ra imm rsv => decide (t < 768) && gpr rd && gpr ra && decide (imm < 2 ^ 14) && decide (rsv < 2 ^ 2)
  | .xori t rd ra imm rsv => decide (t < 768) && gpr rd && gpr ra && decide (imm < 2 ^ 14) && decide (rsv < 2 ^ 2)
  | .cmpi t rd ra imm rsv => decide (t < 768) && gpr rd && gpr ra && decide (imm < 2 ^ 14) && decide (rsv < 2 ^ 2)
  | .slli t rd ra sh rsv => decide (t < 768) && gpr rd && gpr ra && decide (sh < 64) && decide (rsv < 2 ^ 8)
  | .srli t rd ra sh rsv => decide (t < 768) && gpr rd && gpr ra && decide (sh < 64) && decide (rsv < 2 ^ 8)
  | .srai t rd ra sh rsv => decide (t < 768) && gpr rd && gpr ra && decide (sh < 64) && decide (rsv < 2 ^ 8)
  | .rori t rd ra sh rsv => decide (t < 768) && gpr rd && gpr ra && decide (sh < 64) && decide (rsv < 2 ^ 8)
  | .movi t rd h imm rsv => decide (t < 768) && gpr rd && decide (h < 4) && decide (imm < 2 ^ 16) && decide (rsv < 2 ^ 3)
  | .movk t rd h imm rsv => decide (t < 768) && gpr rd && decide (h < 4) && decide (imm < 2 ^ 16) && decide (rsv < 2 ^ 3)
  | .bkld t bk ra rsv => decide (t < 768) && decide (bk < 8) && gpr ra && decide (rsv < 2 ^ 17)
  | .bkrd t rd bk rsv => decide (t < 768) && gpr rd && decide (bk < 8) && decide (rsv < 2 ^ 17)
  | .crd t rd num rsv => decide (t < 768) && gpr rd && decide (num < 2 ^ 14) && decide (rsv < 2 ^ 5)
  | .cwr t rd num rsv => decide (t < 768) && gpr rd && decide (num < 2 ^ 14) && decide (rsv < 2 ^ 5)
  | .rep t _ _ rb count rsv fol _ => decide (t < 768) && gpr rb && decide (count < 2 ^ 16) && decide (rsv < 2 ^ 3) && follower fol
  | .ld t rd bank short => decide (t < 768) && gpr rd && decide (bank < 8) && decide (short < 2 ^ 18)
  | .lw t rd bank short => decide (t < 768) && gpr rd && decide (bank < 8) && decide (short < 2 ^ 18)
  | .lh t rd bank short => decide (t < 768) && gpr rd && decide (bank < 8) && decide (short < 2 ^ 18)
  | .lb t rd bank short => decide (t < 768) && gpr rd && decide (bank < 8) && decide (short < 2 ^ 18)
  | .sd t rd bank short => decide (t < 768) && gpr rd && decide (bank < 8) && decide (short < 2 ^ 18)
  | .sw t rd bank short => decide (t < 768) && gpr rd && decide (bank < 8) && decide (short < 2 ^ 18)
  | .sh t rd bank short => decide (t < 768) && gpr rd && decide (bank < 8) && decide (short < 2 ^ 18)
  | .sb t rd bank short => decide (t < 768) && gpr rd && decide (bank < 8) && decide (short < 2 ^ 18)
  | .ldx t rd rb off => decide (t < 768) && gpr rd && gpr rb && decide (off < 2 ^ 16)
  | .lwx t rd rb off => decide (t < 768) && gpr rd && gpr rb && decide (off < 2 ^ 16)
  | .lhx t rd rb off => decide (t < 768) && gpr rd && gpr rb && decide (off < 2 ^ 16)
  | .lbx t rd rb off => decide (t < 768) && gpr rd && gpr rb && decide (off < 2 ^ 16)
  | .sdx t rd rb off => decide (t < 768) && gpr rd && gpr rb && decide (off < 2 ^ 16)
  | .swx t rd rb off => decide (t < 768) && gpr rd && gpr rb && decide (off < 2 ^ 16)
  | .shx t rd rb off => decide (t < 768) && gpr rd && gpr rb && decide (off < 2 ^ 16)
  | .sbx t rd rb off => decide (t < 768) && gpr rd && gpr rb && decide (off < 2 ^ 16)
  | .cpx t rd rb size rsv => decide (t < 768) && gpr rd && gpr rb && decide (size < 4) && decide (rsv < 2 ^ 14)
  | .bc t cond disp => decide (t < 768) && decide (cond < 32) && decide (disp < 2 ^ 21)
  | .jr t ra rsv => decide (t < 768) && gpr ra && decide (rsv < 2 ^ 10)
  | .jalr t rd ra rsv => decide (t < 768) && gpr rd && gpr ra && decide (rsv < 2 ^ 10)
  | .getwork t rd ra rsv => decide (t < 768) && gpr rd && gpr ra && decide (rsv < 2 ^ 7)
  | .waitev t rd ra rsv => decide (t < 768) && gpr rd && gpr ra && decide (rsv < 2 ^ 7)
  | .waitevC t rd ra rsv => decide (t < 768) && gpr rd && gpr ra && decide (rsv < 2 ^ 7)
  | .setev t ra flag rsv => decide (t < 768) && gpr ra && decide (flag < 32) && decide (rsv < 2 ^ 2)
  | .token t ra rb rsv => decide (t < 768) && gpr ra && gpr rb && decide (rsv < 2 ^ 6)
  | .jwr t ra rsv => decide (t < 768) && gpr ra && decide (rsv < 2 ^ 6)
  | .jout t ra rsv => decide (t < 768) && gpr ra && decide (rsv < 2 ^ 6)
  | .retire t rd rsv => decide (t < 768) && gpr rd && decide (rsv < 2 ^ 6)
  | .abandon t mode rsv => decide (t < 768) && decide (mode < 2) && decide (rsv < 2 ^ 6)
  | .chwr t ra rb _ rsv => decide (t < 768) && gpr ra && gpr rb && decide (rsv < 2 ^ 6)
  | .chwrx t ra rb _ rsv => decide (t < 768) && gpr ra && gpr rb && decide (rsv < 2 ^ 6)
  | .chrd t rd rb rsv => decide (t < 768) && gpr rd && gpr rb && decide (rsv < 2 ^ 6)
  | .chrdNb t rd rb rsv => decide (t < 768) && gpr rd && gpr rb && decide (rsv < 2 ^ 6)
  | .channelReadResume t => decide (t < 768)
  | .channelWriteResume t => decide (t < 768)
  | .cas t rd ra rb rsv => decide (t < 768) && gpr rd && gpr ra && gpr rb && decide (rsv < 2 ^ 7)
  | .hpacq t rd ra rsv => decide (t < 768) && gpr rd && gpr ra && decide (rsv < 2 ^ 7)
  | .hpacqT t rd ra rsv => decide (t < 768) && gpr rd && gpr ra && decide (rsv < 2 ^ 7)
  | .hpacqE t rd ra rsv => decide (t < 768) && gpr rd && gpr ra && decide (rsv < 2 ^ 7)
  | .hprel t ra rsv => decide (t < 768) && gpr ra && decide (rsv < 2 ^ 7)
  | .trap t imm rsv other => decide (t < 768) && decide (imm < 2 ^ 14) && decide (rsv < 2 ^ 10) && other.all (decide <| · < 2 ^ 32)
  | .eret t rsv => decide (t < 768) && decide (rsv < 2 ^ 24)
  | .fxBitmap t ra rb rc flags => decide (t < 768) && gpr ra && gpr rb && gpr rc && decide (flags < 2 ^ 5)
  | .fxIso t ra rb rc flags => decide (t < 768) && gpr ra && gpr rb && gpr rc && decide (flags < 2 ^ 5)
  | .fxTlv t ra rb rc flags => decide (t < 768) && gpr ra && gpr rb && gpr rc && decide (flags < 2 ^ 5)
  | .fxFields t ra rb rc flags => decide (t < 768) && gpr ra && gpr rb && gpr rc && decide (flags < 2 ^ 5)
  | .dxAdd t ra rb rc flags => decide (t < 768) && gpr ra && gpr rb && gpr rc && decide (flags < 2 ^ 5)
  | .dxSub t ra rb rc flags => decide (t < 768) && gpr ra && gpr rb && gpr rc && decide (flags < 2 ^ 5)
  | .dxMul t ra rb rc flags => decide (t < 768) && gpr ra && gpr rb && gpr rc && decide (flags < 2 ^ 5)
  | .dxRescale t ra rb rc flags => decide (t < 768) && gpr ra && gpr rb && gpr rc && decide (flags < 2 ^ 5)
  | .dxCcy t ra rb rc flags => decide (t < 768) && gpr ra && gpr rb && gpr rc && decide (flags < 2 ^ 5)
  | .dxCmp t ra rb rc flags => decide (t < 768) && gpr ra && gpr rb && gpr rc && decide (flags < 2 ^ 5)
  | .dxParse t ra rb rc flags => decide (t < 768) && gpr ra && gpr rb && gpr rc && decide (flags < 2 ^ 5)
  | .dxFormat t ra rb rc flags => decide (t < 768) && gpr ra && gpr rb && gpr rc && decide (flags < 2 ^ 5)
  | .cxCmac t ra rb rc flags => decide (t < 768) && gpr ra && gpr rb && gpr rc && decide (flags < 2 ^ 5)
  | .cxCmacVer t ra rb rc flags => decide (t < 768) && gpr ra && gpr rb && gpr rc && decide (flags < 2 ^ 5)
  | .cxGcmEnc t ra rb rc flags => decide (t < 768) && gpr ra && gpr rb && gpr rc && decide (flags < 2 ^ 5)
  | .cxGcmDec t ra rb rc flags => decide (t < 768) && gpr ra && gpr rb && gpr rc && decide (flags < 2 ^ 5)
  | .cxSha256 t ra rb rc flags => decide (t < 768) && gpr ra && gpr rb && gpr rc && decide (flags < 2 ^ 5)
  | .cxHmac t ra rb rc flags => decide (t < 768) && gpr ra && gpr rb && gpr rc && decide (flags < 2 ^ 5)
  | .cxHmacVer t ra rb rc flags => decide (t < 768) && gpr ra && gpr rb && gpr rc && decide (flags < 2 ^ 5)
  | .hxCrc t ra rb rc flags => decide (t < 768) && gpr ra && gpr rb && gpr rc && decide (flags < 2 ^ 5)
  | .hxKey t ra rb rc flags => decide (t < 768) && gpr ra && gpr rb && gpr rc && decide (flags < 2 ^ 5)
  | .hxMcmp t ra rb rc flags => decide (t < 768) && gpr ra && gpr rb && gpr rc && decide (flags < 2 ^ 5)
  | .helperGrant s _ => decide (s < 12)
  | .helperComplete s u => decide (s < 12) && decide (u < 6)
  | .poolPortAlloc t rd c p => decide (t < 768) && gpr rd && decide (c < 64) && decide (p < 16)
  | .poolPortInfo t rd c p => decide (t < 768) && gpr rd && decide (c < 64) && decide (p < 16)
  | .poolPortDrop t c _ => decide (t < 768) && decide (c < 64)
  | .poolPortAdd t c _ => decide (t < 768) && decide (c < 64)
  | .vectorSignal t c _ => decide (t < 768) && decide (c < 64)
  | .tableLookup n => decide (n < 16)
  | .lookupResult n _ => decide (n < 16)
  | .tableMove n p => decide (n < 16) && decide (p < 4)
  | .teCmdRead o n p table => who o && decide (n < 16) && decide (p < 4) && decide (table < 64)
  | .teCmdInsert o n p table => who o && decide (n < 16) && decide (p < 4) && decide (table < 64)
  | .teCmdUpdate o n p table => who o && decide (n < 16) && decide (p < 4) && decide (table < 64)
  | .teCmdRemove o n p table => who o && decide (n < 16) && decide (p < 4) && decide (table < 64)
  | .teCmdDone n p => decide (n < 16) && decide (p < 4)
  | .mirrorResync n => decide (n < 16)
  | .learnForward n => decide (n < 16)
  | .dirSearch => true
  | .scrubVisit _ _ => true
  | .dramCommandGrant n _ => decide (n < 8)
  | .refresh n r => decide (n < 8) && decide (r < 4)
  | .zqcs n r => decide (n < 8) && decide (r < 4)
  | .patrolScrub n _ => decide (n < 8)
  | .dimmSensorRead n slot _ => decide (n < 8) && decide (slot < 2)
  | .ddrRungDescend n => decide (n < 8)
  | .watchdogBite k idx req => decide (k < 6) && decide (idx < 256) && decide (req < 157)
  | .channelTailTimeout n => decide (n < 4096)
  | .lockOrphan l => decide (l < 4096)
  | .bar4Write pasid x _ _ => pasid.all (decide <| · < 2 ^ 20) && decide (x < 0x400000000)
  | .bar4Atomicop pasid x _ size _ _ => pasid.all (decide <| · < 2 ^ 20) && decide (x < 0x400000000) && [4, 8].contains size
  | .bar2Request pasid off en _ => pasid.all (decide <| · < 2 ^ 20) && decide (off < 0x400000) && decide (en < 256)
  | .loadGo o en _ => who o && decide (en < 256)
  | .imageVerifyDone => true
  | .queueEnable o q => who o && decide (q < 80)
  | .queueDisable o q => who o && decide (q < 80)
  | .queueErr q code => decide (q < 80) && decide (code < 8)
  | .nop c other => cmd c && other.all (decide <| · < 2 ^ 16)
  | .identify c => cmd c
  | .echo c => cmd c
  | .modeSet c => cmd c
  | .modeSetComplete => true
  | .modeGet c => cmd c
  | .commit c => cmd c
  | .fwStage c _ => cmd c
  | .fwStageComplete => true
  | .fwSwitch c => cmd c
  | .fwSwitchComplete => true
  | .fwSwitchFallback => true
  | .fwInfo c => cmd c
  | .boardProfileLoad c _ => cmd c
  | .dramInit c => cmd c
  | .dramInitComplete _ => true
  | .dramStatus c => cmd c
  | .termLoad c _ => cmd c
  | .termLoadComplete slot => decide (slot < 4)
  | .termActivate c => cmd c
  | .termRetire c => cmd c
  | .termRetireComplete slot => decide (slot < 4)
  | .termStatus c => cmd c
  | .classCreate c => cmd c
  | .classCreateComplete c => decide (c < 64)
  | .classDestroy c => cmd c
  | .classDestroyComplete c => decide (c < 64)
  | .classReset c => cmd c
  | .classResetPoint c => decide (c < 64)
  | .classResetComplete c => decide (c < 64)
  | .classShare c => cmd c
  | .classMigrateLog c => cmd c
  | .classStatus c => cmd c
  | .tableCreate c => cmd c
  | .tableDelete c => cmd c
  | .tableDeleteComplete t => decide (t < 64)
  | .tableInsert c => cmd c
  | .tableUpdate c => cmd c
  | .tableRemove c => cmd c
  | .tableRead c => cmd c
  | .tableBulkLoad c => cmd c
  | .tableLearnCfg c => cmd c
  | .dirWrite c => cmd c
  | .dirInvalidate c => cmd c
  | .dirRead c => cmd c
  | .dirProfile c => cmd c
  | .portCfg c => cmd c
  | .portStatus c => cmd c
  | .streamOpen c => cmd c
  | .streamClose c => cmd c
  | .ringJoin c => cmd c
  | .ringJoinComplete => true
  | .ringLeave c => cmd c
  | .ringLeaveComplete => true
  | .ringStatus c => cmd c
  | .fence c => cmd c
  | .fenceComplete kind _ => decide (kind < 16)
  | .unfence c => cmd c
  | .unfenceComplete kind _ => decide (kind < 16)
  | .faultAck c => cmd c
  | .faultInject c => cmd c
  | .gbRead c => cmd c
  | .gbSeal c => cmd c
  | .countersRead c => cmd c
  | .timeSet c => cmd c
  | .powerRung c => cmd c
  | .diagRun c => cmd c
  | .diagRunComplete result => decide (result < 2 ^ 32)
  | .ringFrameReceive l _ _ => decide (l < 2)
  | .ringFrameTransmit l => decide (l < 2)
  | .heartbeatReceive l => decide (l < 2)
  | .remoteTokenReceive l => decide (l < 2)
  | .mirrorRecordReceive l => decide (l < 2)
  | .termRecordReceive l => decide (l < 2)
  | .raccReqReceive l => decide (l < 2)
  | .raccRspReceive l => decide (l < 2)
  | .remoteWindowAccess t rd dev off size _ => decide (t < 768) && gpr rd && decide (dev < 4096) && decide (off < 2 ^ 26) && [4, 8].contains size
  | .raccTimeout t => decide (t < 768)
  | .heartbeatSend l => decide (l < 2)
  | .linkBroken l => decide (l < 2)
  | .ringRetxTimeout l => decide (l < 2)
  | .mirrorLogApply => true
  | .gbRecordHash => true
  | .faultReport own => own.all ownFault
  | .faultAutoAck n => decide (n < 157)
  | .fcAckWrite o en _ => who o && decide (en < 256)
  | .lockstepMismatch => true
  | .tenikHang => true
  | .srAlive o en _ => who o && decide (en < 256)
  | .restartFail => true
  | .perstAssert => true
  | .perstDeassert pcieW smbA _ _ _ => decide (pcieW < 4) && decide (smbA < 4)
  | .streetRungDescend s => decide (s < 12)
  | .streetRungExit s => decide (s < 12)
  | .thermWarn _ sensor => decide (sensor < 16)
  | .thermTrip _ sensor => decide (sensor < 16)
  | .supply _ => true
  | .rootPllLockLoss => true
  | .pcieLinkChange speed width => decide (speed < 5) && decide (width < 17)
  | .timebaseTick => true
  | .tbSet o en _ => who o && decide (en < 256)
  | .tbStep o en _ => who o && decide (en < 256)
  | .tapReset => true
  | .extest ones => ones.all pin
  | .idcode => true
  | .samplePreload ones => ones.all pin
  | .highz => true
  | .clamp => true
  | .regacc off _ _ rsv _ => decide (off < 2 ^ 26) && decide (rsv < 2 ^ 5)
  | .bypass code => tapCode code
  | .sbPart x other => sbAccess x && other.all fun o => decide (5 < o ∧ o < 2 ^ 8)
  | .sbRevision x => sbAccess x
  | .sbMode x => sbAccess x
  | .sbErrStatus x => sbAccess x
  | .sbTemp x => sbAccess x
  | .sbDimmTemp x => sbAccess x
  | .sbAlertResponse => true
  | .ringLinkChange l _ => decide (l < 2)
  | .ddrRungExit n => decide (n < 8)
  | .stateCopyEnd t => decide (t < 768)
  | .regaccAccessDone => true
  | .uncorrectableCodeword p => decide (p < 8)
  | .junctionReadingFall _ sensor => decide (sensor < 16)

end Sys2Proof
end

