-- ==== Sys2Proof/Tests/Slice0.lean ====
section
/-! SUPPORT. Tests: what is ill-formed is refused, and for every statement with hypotheses states and operands that meet
them, clause by clause, with what the command then does as the spec's rules give it. -/

set_option maxRecDepth 100000
set_option Elab.async false

namespace Sys2Proof.Tests
open Machine

/-- A state with changes made to it. -/
def but (s : State) (us : List Upd) : State := us.foldl (fun s u => u.apply s) s

/-- The state changes make of the reset state. -/
def st (us : List Upd) : State := but State.reset us

/-- The next state of an outcome. -/
def nx : Host.Outcome State Fault Refusal → State
  | .next s => s
  | _ => State.reset

/-- A command packet without operands, of queue `q`. -/
def cm (q p0 : Nat) : Cmd := ⟨q, 0, 0, 0x11, 0, 0, 0, p0, 0, 0, 0, []⟩

/-! ## What is ill-formed is refused -/

theorem test_illFormed_instruction_fields :
    [Instr.add 768 1 2 3 0, .add 1 32 2 3 0, .add 1 1 32 3 0, .add 1 1 2 32 0, .add 1 1 2 3 32, .addi 1 1 2 0x4000 0,
      .addi 1 1 2 0 4, .slli 1 1 2 64 0, .slli 1 1 2 0 256, .movi 1 1 4 0 0, .movi 1 1 0 0x10000 0, .movi 1 1 0 0 8,
      .bkld 1 8 0 0, .bkld 1 0 0 0x20000, .crd 1 0 0x4000 0, .ld 1 0 8 0, .ld 1 0 0 0x40000, .ldx 1 0 0 0x10000,
      .cpx 1 0 0 4 0, .cpx 1 0 0 0 0x4000, .bc 1 32 0, .bc 1 0 0x200000, .jr 1 0 0x400, .setev 1 0 32 0,
      .abandon 1 2 0, .eret 1 0x1000000, .fxBitmap 1 0 0 32 0, .fxBitmap 1 0 0 0 32, .rep 1 false false 0 0x10000 0 .other none,
      .rep 1 false false 0 0 0 (.sdx 32 0 0) none].all (wellFormed · = false) = true := by decide +kernel

theorem test_illFormed_unit_operands :
    [Instr.frameReceive 8 [] .none, .pauseStorm 0 3, .pfcFrameReceive 0 256 [], .pauseExpire 0 (some 8),
      .pauseFrameReceive 0 65536, .nakRepeat 0x100000000, .messageHandOver (.unseq 8), .walkComplete 4 0, .tokenArrive 4,
      .contextPark 0x1000000, .parkTimeout 0x1000000, .dispatch 64, .messageRelease 4, .threadFault 1 8,
      .threadRelease .tenik 96 1, .threadRelease .tenik 0 8, .debugHalt .tenik 0 256, .dbgDataRead (.thread 768) 0,
      .registerWrite (.remote 0 4096) 0 0xFF 0, .registerWrite (.host (some 0x100000)) 0 0xFF 0,
      .registerWrite .tenik 0 256 0, .registerWrite .tenik 0x4000000 0xFF 0, .commitSafePoint (.ethN 8),
      .helperGrant 12 .fx, .helperComplete 0 6, .poolPortAlloc 0 0 64 0, .poolPortAlloc 0 0 0 16, .tableLookup 16,
      .tableMove 0 4, .teCmdRead .tenik 0 0 64, .dramCommandGrant 8 [], .refresh 0 4, .patrolScrub 8 [],
      .dimmSensorRead 0 2 none, .watchdogBite 6 0 0, .watchdogBite 0 256 0, .watchdogBite 0 0 157,
      .channelTailTimeout 4096, .bar4Write none 0x400000000 [] false, .bar4Atomicop none 0 .swap 2 0 0,
      .bar2Request none 0x400000 0xFF none, .queueEnable .tenik 80, .queueErr 0 8, .termLoadComplete 4,
      .classResetPoint 64, .tableDeleteComplete 64, .fenceComplete 16 0, .diagRunComplete 0x100000000,
      .ringLinkChange 2 true, .remoteWindowAccess 0 0 4096 0 8 none, .remoteWindowAccess 0 0 0 0x4000000 8 none,
      .remoteWindowAccess 0 0 0 0 2 none, .faultAutoAck 157, .perstDeassert 4 0 false false true,
      .perstDeassert 0 4 false false true, .streetRungExit 12, .thermWarn 0 16, .pcieLinkChange 5 4, .pcieLinkChange 1 17,
      .regacc 0x4000000 false false 0 0, .regacc 0 false false 32 0].all (wellFormed · = false) = true := by decide +kernel

theorem test_illFormed_carriers :
    [Instr.trap 9 0 0 (some (2 ^ 32)), .nop (cm 0 0) (some 0x10000), .bypass 0x20, .bypass 256, .sbPart (.read false) (some 5),
      .sbPart (.write [256]) none, .sbMode (.write [256]), .extest [.ddr 8 .actN], .samplePreload [.ddr 0 (.dq 72)],
      .faultReport (some (.linkFault 2)), .faultReport (some (.stateUncorr 1 0)), .faultReport (some (.logic 2 72))].all
      (wellFormed · = false) = true := by decide +kernel

theorem test_illFormed_packets :
    [{ cm 80 0 with tag := 0 }, { cm 0 0 with flags := 0x10000 }, { cm 0 0 with len := 0x100000000 },
      { cm 0 0 with replyAddr := 2 ^ 64 }, { cm 0 0 with replyMax := 0x100000000 }, { cm 0 0 with rsv := 0x100000000 },
      cm 0 (2 ^ 64), { cm 0 0 with p1 := 2 ^ 64 }, { cm 0 0 with p2 := 2 ^ 64 }, { cm 0 0 with p3 := 2 ^ 64 },
      { cm 0 0 with payload := [1] }].all (fun c => wellFormed (.nop c none) = false) = true := by decide +kernel

theorem test_wellFormed_terms :
    [Instr.add 767 31 31 31 31, .ld 0 0 7 0x3FFFF, .nop { cm 79 (2 ^ 64 - 1) with len := 1, payload := [1] } none,
      .tapReset, .fenceComplete 15 0, .commitSafePoint .pg, .trap 9 0 0 (some 0xF0000000), .bypass 0xFF, .sbPart (.read true) (some 6),
      .extest [.ddr 7 (.dq 71), .errN], .faultReport (some (.stateUncorr 2 0))].all wellFormed = true := by decide +kernel

/-! ## The Q core -/

/-- A device in SERVICE. -/
def svc : State := st [.regs Reg.DEV_MODE 3]

/-- A thread that runs at P0. -/
def p0 : Thread := { Thread.zero with state := .running }

/-- Thread 9 runs at P0, with G1 = 5, G2 = 7, G3 = -8, G4 = 0x40 and G5 = 0x41. -/
def core1 : State := but svc [.threads 9 { p0 with g := [(1, 5), (2, 7), (3, 0xFFFFFFFFFFFFFFF8), (4, 0x40), (5, 0x41)] }]

/-- What G7 of thread 9 holds after an instruction. -/
def g7 (s : State) (c : Instr) : Word := ((nx (exec c s)).thread 9).gr 7

theorem test_aluInstructions : core1.canIssue 9 = true ∧
    ([Instr.add 9 7 1 2 0, .sub 9 7 1 2 0, .and 9 7 1 2 0, .or 9 7 1 2 0, .xor 9 7 1 2 0, .andn 9 7 2 1 0, .sll 9 7 1 5 0,
      .srl 9 7 3 1 0, .sra 9 7 3 1 0, .ror 9 7 1 5 0, .mul 9 7 3 2 0, .mulhu 9 7 3 2 0, .mulhs 9 7 3 2 0, .minu 9 7 1 3 0,
      .maxu 9 7 1 3 0, .mins 9 7 1 3 0, .maxs 9 7 1 3 0, .sextb 9 7 3 0 0, .sexth 9 7 4 0 0, .sextw 9 7 3 0 0,
      .clz 9 7 1 0 0, .popc 9 7 3 0 0, .bswap 9 7 1 0 0, .selz 9 7 1 2 0].map (g7 core1)) =
    [12, 0xFFFFFFFFFFFFFFFE, 5, 7, 2, 2, 10, 0x07FFFFFFFFFFFFFF, 0xFFFFFFFFFFFFFFFF, 0x8000000000000002,
      0xFFFFFFFFFFFFFFC8, 6, 0xFFFFFFFFFFFFFFFF, 5, 0xFFFFFFFFFFFFFFF8, 0xFFFFFFFFFFFFFFF8, 5, 0xFFFFFFFFFFFFFFF8,
      0x40, 0xFFFFFFFFFFFFFFF8, 61, 61, 0x0500000000000000, 7] := by decide +kernel

theorem test_immediates_and_compares : core1.canIssue 9 = true ∧
    ([Instr.addi 9 7 1 0x3FFF 0, .andi 9 7 3 0x3FFF 0, .ori 9 7 1 0x10 0, .xori 9 7 1 1 0, .slli 9 7 1 63 0,
      .srli 9 7 3 60 0, .srai 9 7 3 60 0, .rori 9 7 1 1 0, .movi 9 7 3 0xABCD 0, .movk 9 7 0 0xABCD 0].map (g7 core1)) =
    [4, 0x3FF8, 0x15, 4, 0x8000000000000000, 15, 0xFFFFFFFFFFFFFFFF, 0x8000000000000002, 0xABCD000000000000, 0xABCD] ∧
    ([Instr.cmp 9 0 1 3 0, .tst 9 0 1 2 0, .cmpi 9 0 1 5 0].map fun c => ((nx (exec c core1)).thread 9).flags) =
    [⟨false, false, true, false⟩, ⟨false, false, false, false⟩, ⟨true, false, false, false⟩] := by decide +kernel

theorem test_immediates_refuse_reserved_bits : core1.canIssue 9 = true ∧ (core1.thread 9).inHandler = false ∧
    ([Instr.addi 9 7 1 5 1, .cmpi 9 7 1 5 0, .slli 9 7 1 63 1, .rori 9 7 1 1 255, .movi 9 7 3 0xABCD 1, .movk 9 7 0 0xABCD 7].map
      fun c => let u := (nx (exec c core1)).thread 9
        (u.tcause, u.tval, u.gr 7)) =
    [(1, 0x04E14005, 0), (1, 0x14E10005, 0), (1, 0x18E1007F, 0), (1, 0x18E1FFC1, 0), (1, 0x1CE7ABCD, 0), (1, 0x20FCABCD, 0)] := by
  decide +kernel

theorem test_g0_and_modulo : core1.canIssue 9 = true ∧ ((nx (exec (.add 9 0 1 2 0) core1)).thread 9).gr 0 = 0 ∧
    g7 core1 (.add 9 7 3 4 0) = 0x38 ∧ (nx (exec (.add 9 7 3 4 0) core1)).thread 9 =
      { (core1.thread 9) with g := (core1.thread 9).g ++ [(7, 0x38)], pc := 4 } := by decide +kernel

theorem test_registers_hold : (p0.setG 31 7).gr 31 = 7 ∧ (p0.setBank 7 9).bank 7 = 9 ∧ (p0.setG 31 7).gr 30 = 0 := by
  decide +kernel

theorem test_branches : core1.canIssue 9 = true ∧ ((core1.thread 9).gr 4).toNat % 4 = 0 ∧
    ((core1.thread 9).gr 5).toNat % 4 ≠ 0 ∧ (core1.thread 9).inHandler = false ∧
    ([Instr.bc 9 0 1, .bc 9 1 1, .bc 9 31 0x1FFFFF, .bc 9 12 2, .jr 9 4 0, .jalr 9 7 4 0, .jr 9 5 0].map fun c =>
      (((nx (exec c core1)).thread 9).pc, ((nx (exec c core1)).thread 9).gr 31, ((nx (exec c core1)).thread 9).gr 7)) =
    [(4, 0, 0), (4, 0, 0), (0xFFFFFFFFFFFC, 4, 0), (8, 0, 0), (0x40, 0, 0), (0x40, 0, 4), (0x100, 0, 0)] := by decide +kernel

/-- Thread 9 at level `l`, bound to classroom 3, with code of a resident Term at address 0, BK1 its classroom's page of the
Square's pools, BK2 DRAM at 0, BK3 the Square, and BK4 not VALID. -/
def lvl (l : Nat) : State := but core1 [
  .act (thrReg 9) (Fld.CORE_THR_BOUND.set (Fld.CORE_THR_CLASSROOM.set 0 3) 1),
  .regs (Reg.CL_BIND 3) (Fld.CL_BIND_STATE.set 0 2),
  .terms 0 { TermSlot.empty with state := .ready, codeLen := 0x1000 },
  .mem (squareBase + 0x108) 0x5A, .mem (squareBase + 0x10F) 0x80,
  .threads 9 { core1.thread 9 with
    priv := l
    g := (core1.thread 9).g ++ [(8, 0x020004000000), (9, 0x80108), (10, 0xC0108), (11, 0xC0109), (12, 0x0FC08)]
    bk := [(1, 0x8000020004000000), (2, 0x8000000000000000), (3, 0x8000020000000000)] }]

theorem test_trap_entry : let u := ((lvl 2).trapped 9 4 0x41 0x100).thread 9
    (u.tpc, u.tcause, u.tval, u.tstate, u.priv, u.pc) = (0x100, 4, 0x41, 0x42, 1, 0x100) := by decide +kernel

theorem test_trap_and_return :
    let s := but core1 [.threads 9 { core1.thread 9 with tvec0 := 0x4000, tpc := 0x1236, tstate := 0x2A }]
    let u := nx (exec (.trap 9 0x55 0 none) s)
    let v := nx (exec (.eret 9 0) s)
    s.canIssue 9 = true ∧ (s.thread 9).inHandler = false ∧ (s.thread 9).priv ≠ 2 ∧
    ((u.thread 9).tpc, (u.thread 9).tcause, (u.thread 9).tval, (u.thread 9).pc) = (4, 8, 0x55, 0x4200) ∧
    ((v.thread 9).pc, (v.thread 9).priv, (v.thread 9).flags.toNat) = (0x1234, 2, 10) := by decide +kernel

theorem test_unassigned_words : let s := lvl 1
    let w := fun w => let u := (nx (exec (.trap 9 0 0 (some w)) s)).thread 9
      (u.tcause, u.tval, u.tpc)
    s.canIssue 9 = true ∧ (s.thread 9).inHandler = false ∧ [0x0000001A, 0x24000000, 0xFC000000].map unassigned = [some 0, some 0, some 1] ∧
    unassigned 0xE0400000 = some 2 ∧ (0xFC000000 : Nat).testBit 1 = false ∧
    w 0x0000001A = (1, 0x0000001A, 0) ∧ w 0x24000000 = (1, 0x24000000, 0) ∧ w 0xFC000000 = (1, 0x1FC000000, 0) := by decide +kernel

theorem test_eret_at_p2_and_reserved_bits : let s := lvl 2
    let u := nx (exec (.eret 9 0) s)
    let v := nx (exec (.add 9 7 1 2 1) s)
    s.canIssue 9 = true ∧ (s.thread 9).priv = 2 ∧ (s.thread 9).inHandler = false ∧
    ((u.thread 9).tcause, (u.thread 9).tval, (u.thread 9).pc) = (2, 0xA0004000, 0x80) ∧
    ((v.thread 9).tcause, (v.thread 9).tval, (v.thread 9).gr 7) = (1, 0x00E11040, 0) := by decide +kernel

theorem test_bank_loads : let s := lvl 1
    let v := but s [.act (thrReg 9) (Fld.CORE_THR_CLASSROOM.set 0 3)]
    s.canIssue 9 = true ∧ (s.issued 9).windowRight 9 1 0x020004000000 = true ∧ v.canIssue 9 = true ∧
    (v.issued 9).windowRight 9 1 0 = false ∧ ((nx (exec (.bkld 9 5 8 0) s)).thread 9).bank 5 = 0x8000020004000000 ∧
    ((nx (exec (.bkld 9 5 0 0) v)).thread 9).tcause = 3 ∧ ((nx (exec (.bkld 9 0 8 0) s)).thread 9).tcause = 1 ∧
    ((nx (exec (.bkld 9 5 0 0) core1)).thread 9).bank 5 = 0x8000000000000000 ∧ g7 s (.bkrd 9 7 3 0) = 0x8000020000000000 := by
  decide +kernel

theorem test_control_registers : let s := lvl 1
    s.canIssue 9 = true ∧ crAccess 0x000 1 = some (true, false) ∧
    g7 s (.crd 9 7 0 0) = 9 + 3 * 2 ^ 16 + 2 ^ 22 ∧ crAccess 0x014 1 = some (true, true) ∧
    ((nx (exec (.cwr 9 1 0x014 0) s)).thread 9).tval = 5 ∧ crAccess 0x011 1 = some (false, false) ∧
    ((nx (exec (.crd 9 7 0x011 0) s)).thread 9).tcause = 2 ∧ ((nx (exec (.cwr 9 1 0 0) s)).thread 9).pc = 4 := by
  decide +kernel

theorem test_m_format : let s := lvl 0
    let sq : Ea := ⟨false, squareBase + 0x108⟩
    s.canIssue 9 = true ∧ ((s.thread 9).bank 3).msb = true ∧ ((s.thread 9).bank 4).msb = false ∧
    ((s.thread 9).bank 3).extractLsb 47 18 ++ BitVec.ofNat 18 0x108 = BitVec.ofNat 48 sq.addr ∧
    (s.issued 9).accessTrap 9 false 8 3 (some sq) = none ∧ (s.issued 9).right 9 0 false sq = true ∧
    (s.issued 9).region sq.addr = .square ∧ (s.issued 9).eaBad sq 8 = false ∧
    g7 s (.ld 9 7 3 0x108) = 0x800000000000005A ∧ g7 s (.lb 9 7 3 0x10F) = 0x80 ∧ g7 s (.lw 9 7 3 0x10C) = 0x80000000 ∧
    ((nx (exec (.ld 9 7 3 0x109) s)).thread 9).tcause = 4 ∧ ((nx (exec (.ld 9 7 4 0) s)).thread 9).tval = 4 ∧
    (nx (exec (.sh 9 3 3 0x108) s)).mem = [(squareBase + 0x108, 0xF8), (squareBase + 0x109, 0xFF), (squareBase + 0x10F, 0x80)] ∧
    (lvl 2).canIssue 9 = true ∧ ((lvl 2).issued 9).right 9 2 false ⟨false, 0⟩ = false ∧ g7 (lvl 2) (.ld 9 7 2 0) = 0 ∧
    (nx (exec (.sd 9 3 2 0) (lvl 2))).mem = (lvl 2).mem := by decide +kernel

theorem test_x_format : let s := lvl 0
    s.canIssue 9 = true ∧ (s.thread 9).ptrEa 0xC0108 (disp16 0xFFF8) = some ⟨false, squareBase + 0x100⟩ ∧
    (s.thread 9).ptrEa 0xC0004 (disp16 0xFFF8) = some ⟨false, squareBase + 0x3FFFC⟩ ∧ g7 s (.ldx 9 7 10 0) = 0x800000000000005A ∧
    g7 s (.lhx 9 7 10 6) = 0x8000 ∧ (nx (exec (.sbx 9 2 10 1) s)).memAt (squareBase + 0x109) = 7 ∧
    deskKey 9 0xFC08 = some 0x30408 ∧ (nx (exec (.sdx 9 2 12 0) s)).deskAt 0x30408 = 7 := by decide +kernel

/-- DRAM channel 0 is enabled with 8 GiB, and initialised. -/
def dram0 : List Upd := [
  .regs (Reg.DDR_CFG 0) (Fld.DDR_CFG_CAP_LOG2.set (Fld.DDR_CFG_EN.set 0 1) 33),
  .regs (Reg.DDR_STATUS 0) (Fld.DDR_STATUS_INIT_DONE.set 0 1)]

/-- Thread 9 at P0 with BK1 DRAM at 0, BK2 Street 2's memory, BK3 host memory, BK4 the register space, BK5 unmapped. -/
def maps : State := but core1 (dram0 ++ [.mem 0x10 7, .mem 0x010002000010 9, .threads 9 { core1.thread 9 with
  bk := [(1, 0x8000000000000000), (2, 0x8000010002000000), (3, 0x8000040000000000), (4, 0x8000030000080000),
    (5, 0x8000020010000000)] }])

/-- The same with channel 0 in Detention, whose line at 0 cannot be read. -/
def mapsOut : State := but maps [.regs (ddrUnit 0).fenceBit.1 (BitVec.ofNat 64 (2 ^ (ddrUnit 0).fenceBit.2)), .bad 0x10 true]

/-- The same before DRAM_INIT. -/
def mapsRaw : State := but maps [.regs (Reg.DDR_STATUS 0) 0]

theorem test_loads_of_each_region :
    let r := (maps.issued 9).region
    maps.canIssue 9 = true ∧ mapsOut.canIssue 9 = true ∧ r 0x10 = .dram ∧ r 0x010002000010 = .street 2 ∧
    r 0x040000000010 = .host ∧ r 0x030000080000 = .regs ∧ r 0x020010000000 = .unmapped ∧
    ((List.range 5).map fun i => (maps.issued 9).right 9 0 false ⟨false, ((maps.thread 9).bank (i + 1)).toNat % 2 ^ 48⟩) =
      List.replicate 5 true ∧
    ((maps.issued 9).dramChan 0x10).any (maps.issued 9).ddrOut = false ∧
    ((mapsOut.issued 9).dramChan 0x10).any (mapsOut.issued 9).ddrOut = true ∧ (mapsOut.issued 9).eaBad ⟨false, 0x10⟩ 8 = true ∧
    ((wakeStreet 2) (maps.issued 9)).2.eaBad ⟨false, 0x010002000010⟩ 8 = false ∧
    ((nx (exec (.ld 9 7 1 0x10) maps)).thread 9).wait = .load 7 0x10 8 ∧ g7 maps (.ld 9 7 2 0x10) = 9 ∧
    ((nx (exec (.ld 9 7 3 0x10) maps)).thread 9).wait = .load 7 0x040000000010 8 ∧
    (nx (exec (.ld 9 7 3 0x10) maps)).outbox = [.hostRead none 0x10 8] ∧ g7 maps (.ld 9 7 5 0x10) = 0 ∧
    g7 maps (.lw 9 7 4 0) = (spaceRead (.thread 9) 0x80000 4 maps).1 := by decide +kernel

theorem test_stores_of_each_region : maps.canIssue 9 = true ∧ (maps.issued 9).rawChan 0x10 = none ∧
    (mapsRaw.issued 9).rawChan 0x10 = some 0 ∧ (mapsRaw.issued 9).lineTakes 0x10 .other = true ∧
    ((nx (exec (.sb 9 2 1 0x11) mapsRaw)).ddrsAt 0).early = [⟨0x11, [7], 1, none⟩] ∧
    ((wakeStreet 2) (maps.issued 9)).2.lineTakes 0x010002000010 .other = true ∧ (maps.issued 9).lineTakes 0x10 .other = true ∧
    (maps.issued 9).lineTakes 0x010002000010 .other = true ∧ maps.boundTo 9 = none ∧
    inPoolPages 0x020010000010 = false ∧ inVectorPages 0x020010000010 = false ∧
    (nx (exec (.sb 9 2 1 0x11) maps)).memAt 0x11 = 7 ∧ (nx (exec (.sb 9 2 2 0x11) maps)).memAt 0x010002000011 = 7 ∧
    (nx (exec (.sb 9 2 3 0x11) maps)).outbox = [.hostWrite none 0x11 [7]] ∧
    (nx (exec (.sb 9 2 5 0x11) maps)).mem = maps.mem ∧
    ((nx (exec (.sb 9 2 4 0x11) maps)).thread 9).tcause = 5 ∧ (nx (exec (.sd 9 2 4 0) maps)).regsAt 0x80000 =
      (nx (exec (.registerWrite (.thread 9) 0x80000 0xFF 7) maps)).regsAt 0x80000 := by decide +kernel

/-! ## Copies, events, work, REP and the journal -/

/-- Thread 9 at P0: G8 points at its private page at 0xFC00, G9 at 0xFC40, G10 at Square memory, where 0x55 stands. -/
def work9 : State := but core1 [.mem (squareBase + 0x100) 0x55, .desk 0x30400 0xAB, .threads 9 { core1.thread 9 with
  g := (core1.thread 9).g ++ [(8, 0xFC00), (9, 0xFC40), (10, 0x40100), (11, 0x55), (12, 0x99)]
  bk := [(1, 0x8000020000000000)] }]

theorem test_cpx_and_cas :
    let u := nx (exec (.cpx 9 9 8 0 0) work9)
    let v := nx (exec (.cas 9 11 10 12 0) work9)
    let w := nx (exec (.cas 9 1 10 12 0) work9)
    work9.canIssue 9 = true ∧ (work9.thread 9).ptrEa 0xFC00 0 = some ⟨true, 0xFC00⟩ ∧
    (work9.issued 9).accessTrap 9 false 8 0 (some ⟨true, 0xFC00⟩) = none ∧
    (work9.issued 9).accessTrap 9 true 8 0 (some ⟨true, 0xFC40⟩) = none ∧
    (work9.issued 9).right 9 0 false ⟨true, 0xFC00⟩ = true ∧ (work9.issued 9).right 9 0 true ⟨true, 0xFC40⟩ = true ∧
    (work9.issued 9).eaBad ⟨true, 0xFC00⟩ 8 = false ∧ deskKey 9 0xFC40 = some 0x30440 ∧
    u.deskAt 0x30440 = 0xAB ∧ ((u.thread 9).gr 8, (u.thread 9).gr 9) = (0xFC08, 0xFC48) ∧ (u.thread 9).pc = 4 ∧
    (work9.issued 9).casTrap 9 1 (some ⟨false, squareBase + 0x100⟩) = none ∧
    (work9.issued 9).casRight 9 ⟨false, squareBase + 0x100⟩ = true ∧
    ((v.thread 9).gr 11, (v.thread 9).flags.z, v.memAt (squareBase + 0x100)) = (0x55, true, 0x99) ∧
    ((w.thread 9).gr 1, (w.thread 9).flags.z, w.memAt (squareBase + 0x100)) = (0x55, false, 0x55) := by decide +kernel

theorem test_cpx_and_cas_outside_the_rights :
    let s := but (lvl 2) [.threads 9 { (lvl 2).thread 9 with g := [(8, 0xC0100), (9, 0xFC00)] }]
    let u := nx (exec (.cpx 9 8 9 0 0) s)
    let v := nx (exec (.cas 9 1 8 9 0) s)
    s.canIssue 9 = true ∧ (s.issued 9).right 9 2 true ⟨false, squareBase + 0x100⟩ = false ∧
    (s.issued 9).right 9 2 false ⟨true, 0xFC00⟩ = true ∧ u.mem = s.mem ∧ (u.thread 9).gr 8 = 0xC0108 ∧
    (s.issued 9).casRight 9 ⟨false, squareBase + 0x100⟩ = false ∧ v.mem = s.mem ∧ (v.thread 9).flags.z = false := by
  decide +kernel

theorem test_events :
    let s := but core1 [.threads 9 { core1.thread 9 with evf := 0x120, g := [(1, 0x1A0), (2, 8), (3, 9)] }]
    let u := nx (exec (.waitevC 9 7 1 0) s)
    let v := nx (exec (.waitev 9 7 2 0) s)
    let w := but v [.threads 9 { v.thread 9 with evf := 8 }]
    s.canIssue 9 = true ∧ g7 s (.waitev 9 7 1 0) = 0x120 ∧ ((u.thread 9).gr 7, (u.thread 9).evf) = (0x120, 0x20) ∧
    (v.thread 9).wait = .event 7 8 false ∧ (w.thread 9).state = .waiting ∧ w.threadRuns 9 = true ∧
    w.streetUp (streetOf 9) = true ∧ g7 w (.flagWake 9) = 8 ∧ ((nx (exec (.flagWake 9) w)).thread 9).pc = 4 ∧
    ((nx (exec (.setev 9 3 8 0) s)).thread 9).evf = 0x120 ||| 0x100 ∧
    ((nx (exec (.setev 9 2 31 0) s)).thread 8).evf = 0x80000000 ∧
    (nx (exec (.setev 9 2 7 0) s)).thread 8 = s.thread 8 := by decide +kernel

/-- An activation of context 0 of classroom 3 is ready, whose code is at 0x80 of Term 0's, and thread 9 runs at P1. -/
def workReady : State := but (lvl 1) [
  .terms 0 { TermSlot.empty with state := .ready, entryOff := 0x100, codeLen := 0x1000 },
  .mem 0x108 0x80,
  .threads 9 { (lvl 1).thread 9 with tstate := 0, g := [(1, 0)] },
  .ctxs 0 { Ctx.zero with state := .active, msg := { MsgDesc.zero with cls := 1, classroom := 3 }, acts := 1 },
  .acts 5 (some ⟨0, 0, 0, 3 * 2 ^ 40, [0x77], 0, 2, false, 0, .ready, none, none⟩), .ready 25 [5]]

/-- What the search for work of a GETWORK with no event sees. -/
def sought (s : State) : State :=
  (Upd.threads 9 { s.thread 9 with home := (s.thread 9).pc, wmask := 0, wrd := 7 }).apply (s.issued 9)

/-- The activation is one that was pre-empted. -/
def workSaved : State := but workReady [
  .acts 5 (some ⟨0, 0, 0, 3 * 2 ^ 40, [0x77], 0, 2, false, 0, .ready, some ((workReady.thread 9).save 10), none⟩)]

theorem test_getwork_of_a_saved_activation : let u := nx (exec (.getwork 9 7 1 0) workSaved)
    workSaved.canIssue 9 = true ∧ (workSaved.thread 9).act = none ∧ (workSaved.thread 9).preempt = none ∧
    (sought workSaved).workNext 9 = some 5 ∧ (u.thread 9).state = .waiting ∧ (u.thread 9).wait = .copy 5 ∧
    (u.actsAt 5).map (·.place) = some .running := by decide +kernel

theorem test_getwork :
    let e := but core1 [.threads 9 { core1.thread 9 with evf := 0x100, g := [(1, 0x100)] }]
    let u := nx (exec (.getwork 9 7 1 0) workReady)
    let v := nx (exec (.getwork 9 7 1 0) core1)
    let h := but core1 [.threads 9 { core1.thread 9 with act := some 1 }]
    e.canIssue 9 = true ∧ g7 e (.getwork 9 7 1 0) = 0x8000000000000100 ∧ workReady.canIssue 9 = true ∧
    workReady.dispatchOn = true ∧ (sought workReady).workNext 9 = some 5 ∧ workReady.boundTo 9 = some 3 ∧
    ((u.thread 9).act, (u.thread 9).priv, (u.thread 9).gr 7, (u.thread 9).bk) = (some 5, 2, 0x4000000000000002, []) ∧
    (u.thread 9).pc = 0x80 ∧ u.deskAt (0x30400 + 0x380) = 0x77 ∧ leAt (u.deskBytes 9 0xFF80 128) 60 4 = 5 ∧
    (sought core1).workNext 9 = none ∧ (v.thread 9).state = .idle ∧ v.sq.blocked = [9] ∧
    h.canIssue 9 = true ∧ ((nx (exec (.getwork 9 7 1 0) h)).thread 9).tval = 0x590E10000 := by decide +kernel

theorem test_rep : let s := but core1 [.threads 9 { core1.thread 9 with g := [(1, 0xFC00), (2, 0x1122)] }]
    let u := nx (exec (.rep 9 false false 0 2 0 (.sdx 2 1 0) none) s)
    s.canIssue 9 = true ∧ s.mayFetch 9 4 = true ∧
    ((List.range 3).all fun j => (s.thread 9).ptrEa (Nat.repeat (fun p => ptrAdvance p 8) j 0xFC00) 0 = some ⟨true, 0xFC00 + 8 * j⟩ &&
      s.accessTrap 9 true 8 0 (some ⟨true, 0xFC00 + 8 * j⟩) = none) = true ∧
    (u.thread 9).gr 1 = 0xFC18 ∧ (u.thread 9).pc = 8 ∧ u.desk = [(0x30400, 0x22), (0x30401, 0x11), (0x30408, 0x22),
      (0x30409, 0x11), (0x30410, 0x22), (0x30411, 0x11)] ∧
    (s.thread 9).inHandler = false ∧ ((nx (exec (.rep 9 false false 0 2 0 .other none) s)).thread 9).tcause = 7 ∧
    ((nx (exec (.rep 9 false false 0 2 0 .other none) s)).thread 9).tval = 3 := by decide +kernel

/-- Thread 9 runs activation 5, with bytes for JWR and JOUT in its private page at 0xFC00. -/
def working : State := but workReady [.ready 25 [],
  .acts 5 (some ⟨0, 0, 0, 3 * 2 ^ 40, [0x77], 0, 2, false, 0, .running, none, none⟩),
  .desk 0x30400 2, .desk 0x30401 1, .desk 0x30408 0x44,
  .threads 9 { workReady.thread 9 with act := some 5, priv := 2, g := [(1, 0xFC00), (2, 0x4012)] }]

theorem test_journal_stages : let th := working.thread 9
    let j := fun c => ((nx (exec c working)).thread 9).journal
    let full := but working [.threads 9 { th with journal := { Journal.empty with tokens := List.replicate 16 ⟨0, 0, false, 0, 0⟩ } }]
    working.canIssue 9 = true ∧ (th.ptrBytes 0xFC00 32).isSome = true ∧
    (∀ es, th.ptrBytes 0xFC00 32 = some es → (es.headD ⟨false, 0⟩).addr % 8 = 0 ∧ (working.issued 9).anyUnreadable 9 es = none ∧
      (es.all (·.desk)) = true ∧ leAt (es.map ((working.issued 9).eaByte 9)) 1 1 = 1) ∧
    (j (.token 9 2 2 0)).tokens = [⟨0x12, 0, true, 0, 0x4012⟩] ∧
    (j (.jwr 9 1 0)).writes.map (fun w => (w.table, w.op, w.key)) = [(2, 1, 0x44)] ∧
    (j (.jout 9 1 0)).outs.map (·.buffer) = [0x102] ∧
    full.canIssue 9 = true ∧ ((nx (exec (.token 9 2 2 0) full)).thread 9).journal.overflowed = true := by
  refine ⟨?_, ?_, ?_, ?_, ?_, ?_, ?_, ?_⟩
  · decide +kernel
  · decide +kernel
  · intro es h; obtain rfl := Option.some.inj h; decide +kernel
  · decide +kernel
  · decide +kernel
  · decide +kernel
  · decide +kernel
  · decide +kernel

/-- The same at P0 with G1 at DRAM, and with G1 at the host's memory. -/
def stagingAt (bank : Word) : State := but working (dram0 ++ [
  .threads 9 { working.thread 9 with priv := 0, g := [(1, 0x40000), (2, 0x4012)], bk := [(1, bank)] }])

theorem test_staging_waits : let d := stagingAt 0x8000000000000000
    let h := stagingAt 0x8000040000000000
    let u := nx (exec (.jwr 9 1 0) d)
    let v := nx (exec (.jout 9 1 0) h)
    let seen := fun (s : State) => ((s.thread 9).ptrBytes 0x40000 32).map fun es =>
      (es.head?.map (·.addr), (s.issued 9).anyUnreadable 9 (es.take 8) == none, es.length)
    d.canIssue 9 = true ∧ h.canIssue 9 = true ∧ d.storesOut 9 = false ∧ h.storesOut 9 = false ∧
    seen d = some (some 0, true, 32) ∧ seen h = some (some 0x040000000000, true, 32) ∧
    (d.issued 9).right 9 0 false ⟨false, 0⟩ = true ∧ (h.issued 9).right 9 0 false ⟨false, 0x040000000000⟩ = true ∧
    d.region 0 = .dram ∧ h.region 0x040000000000 = .host ∧
    (u.thread 9).wait = .staging false 0x40000 32 none [] 0 ∧ (u.thread 9).state = .waiting ∧
    (v.thread 9).wait = .staging true 0x40000 32 none [] 0x040000000000 ∧
    v.outbox = .hostRead ((h.boundTo 9).map h.pasidOf) 0 8 :: h.outbox := by decide +kernel

/-- JOUT of DRAM waits for its last word. -/
def stagingLast : State := but (stagingAt 0x8000000000000000) [.mem 24 0x66, .threads 9 { (stagingAt 0x8000000000000000).thread 9 with
  state := .waiting, wait := .staging true 0x40000 32 none (zeros 8 ++ [0x99, 0, 0, 0] ++ zeros 12) 24 }]

theorem test_staging_ends : let s := stagingLast
    s.threadRuns 9 = true ∧ (s.thread 9).waiting = true ∧ s.region 24 = .dram ∧
    (s.thread 9).wait = .staging true 0x40000 32 none (zeros 8 ++ [0x99, 0, 0, 0] ++ zeros 12) 24 ∧
    (((s.thread 9).ptrBytes 0x40000 32).map fun es => (s.anyUnreadable 9 (es.drop 24) == none, es.length)) = some (true, 32) ∧
    s.readLate 9 = false ∧ s.answered (coreOf 9) (linesOf 24 8) = true ∧ (s.thread 9).journal.outs.length < 4 ∧
    ((nx (exec (.loadReturn 9 none) s)).thread 9).journal.outs.length = 1 ∧
    ((nx (exec (.loadReturn 9 none) s)).thread 9).pc = 4 := by decide +kernel

theorem test_journal_without_activation_and_ends :
    let u := nx (exec (.retire 9 7 0) working)
    let g := but working [.ctxs 0 { Ctx.zero with state := .active, cgen := 1, msg := { MsgDesc.zero with cls := 1, classroom := 3 }, acts := 1 }]
    let o := but working [.threads 9 { working.thread 9 with journal := { Journal.empty with overflowed := true } }]
    (workReady.thread 9).act = none ∧ (workReady.thread 9).inHandler = false ∧
    ((nx (exec (.token 9 1 2 0) workReady)).thread 9).tval = 0x594011000 ∧
    ((u.thread 9).act, (u.thread 9).gr 7, (u.actsAt 5).map (·.place)) = (none, 0, some .retiring) ∧
    g.canIssue 9 = true ∧ g7 g (.retire 9 7 0) = 1 ∧ o.canIssue 9 = true ∧ g7 o (.retire 9 7 0) = 2 ∧
    (nx (exec (.retire 9 7 0) g)).actsAt 5 = none ∧ (nx (exec (.retire 9 7 0) o)).rc.toAbandon = [(0, 0)] := by decide +kernel

theorem test_abandon :
    let r := fun (n : Nat) => but working [.acts 5 (some ⟨0, 0, 0, 3 * 2 ^ 40, [0x77], 0, 2, false, n, .running, none, none⟩)]
    let e := but working [.threads 9 { working.thread 9 with evf := 0x100, wmask := 0x100 }]
    let u := nx (exec (.abandon 9 0 0) working)
    let v := nx (exec (.abandon 9 0 0) e)
    let x := nx (exec (.abandon 9 1 0) working)
    let y := nx (exec (.abandon 9 0 0) (r (working.rerunMax)))
    0 < working.rerunMax ∧ (working.ctx 0).cgen = 0 ∧ (working.ctx 0).state = .active ∧ (r working.rerunMax).canIssue 9 = true ∧
    u.regsAt Reg.SQ_CNT_ABANDON_RERUN = 1 ∧ ((u.actsAt 5).map fun a => (a.rerun, a.reruns)) = some (true, 1) ∧
    e.canIssue 9 = true ∧ (e.thread 9).evf &&& waitMask 9 (e.thread 9).wmask ≠ 0 ∧ v.readyAt 25 = [5] ∧
    ((v.actsAt 5).map fun a => (a.rerun, a.place)) = some (true, .ready) ∧
    (x.rc.toAbandon, x.actsAt 5, x.regsAt Reg.SQ_CNT_ABANDON_DROP) = ([(0, 0)], none, 1) ∧
    (y.rc.toAbandon, y.actsAt 5) = ([(0, 0)], none) := by decide +kernel

/-! ## Channels, locks, returning loads and the pages of the Square -/

/-- Thread 9 at P0 with G1 = 0xABCD, G2 = 3 (a number) and G8 its private page at 0xFC00; thread 10 runs as well. -/
def square9 : State := but core1 [.desk 0x30400 0xAB, .threads 10 p0, .threads 9 { core1.thread 9 with
  g := [(1, 0xABCD), (2, 3), (8, 0xFC00)] }]

theorem test_channel_writes :
    let n := square9.chDepth - 1
    let c3 := fun (c : Chan) => but square9 [.chans 3 c]
    let open_ := c3 ⟨0, [(false, false)], 0, some 10, true, []⟩
    let full := c3 ⟨0, List.replicate n (false, false), 0, none, true, []⟩
    let u := nx (exec (.chwr 9 1 2 true 0) (c3 ⟨63, [(false, false)], 0, some 9, true, []⟩))
    let v := nx (exec (.chwr 9 1 2 false 0) open_)
    let w := nx (exec (.chwr 9 1 2 false 0) full)
    square9.canIssue 9 = true ∧ open_.canIssue 9 = true ∧ full.canIssue 9 = true ∧ (square9.issued 9).chAllowed 9 3 = true ∧
    square9.chDepth = 64 ∧
    (u.chansAt 3).marks = [(false, false), (true, false)] ∧ (u.chansAt 3).writer = none ∧ (u.chansAt 3).packets = 1 ∧
    u.mem = [(squareBase + 1536, 0xCD), (squareBase + 1536 + 1, 0xAB)] ∧
    (v.thread 9).wait = .chWrite 3 0xABCD false none none ∧ (v.chansAt 3).waiters = [9] ∧
    (w.chansAt 3).marks.length = n ∧ w.fld (Reg.CH 3) Fld.CH_OVERRUN = 1 ∧ (w.thread 9).pc = 4 := by decide +kernel

theorem test_channel_write_resumes :
    let s := but square9 [.chans 3 ⟨0, [], 0, none, true, [9]⟩,
      .threads 9 { square9.thread 9 with state := .waiting, wait := .chWrite 3 0x77 true none none }]
    let u := nx (exec (.channelWriteResume 9) s)
    (s.thread 9).waiting = true ∧ s.chAllowed 9 3 = true ∧ (s.chansAt 3).marks.length < s.chDepth - 1 ∧
    s.chSlot 3 0 = squareBase + 1536 ∧ u.mem = [(squareBase + 1536, 0x77)] ∧
    (u.chansAt 3).marks = [(true, false)] ∧ (u.thread 9).pc = 4 ∧ (u.thread 9).wait = .none := by decide +kernel

theorem test_chwrx : let u := nx (exec (.chwrx 9 8 2 true 0) square9)
    (square9.thread 9).ptrEa 0xFC00 0 = some ⟨true, 0xFC00⟩ ∧
    (square9.issued 9).accessTrap 9 false 8 0 (some ⟨true, 0xFC00⟩) = none ∧
    (square9.issued 9).right 9 0 false ⟨true, 0xFC00⟩ = true ∧ (u.chansAt 3).marks = [(true, false)] ∧
    (u.thread 9).gr 8 = 0xFC08 ∧ u.memAt (squareBase + 1536) = 0xAB := by decide +kernel

theorem test_channel_reads :
    let s := but square9 [.chans 3 ⟨63, [(true, false), (false, false)], 1, none, true, []⟩, .mem (squareBase + 1536 + 504) 0x66]
    let u := nx (exec (.chrd 9 7 2 0) s)
    let e := nx (exec (.chrdNb 9 7 2 0) square9)
    let w := nx (exec (.chrd 9 7 2 0) square9)
    let d := but w [.chans 3 ⟨0, [(false, true)], 0, none, true, []⟩, .mem (squareBase + 1536) 0x67]
    let v := nx (exec (.channelReadResume 9) d)
    s.canIssue 9 = true ∧ (s.issued 9).chAllowed 9 3 = true ∧ ((u.thread 9).gr 7, (u.chansAt 3).head) = (0x66, 0) ∧
    (u.thread 9).flags = ⟨true, false, false, false⟩ ∧ (nx (exec (.chrdNb 9 7 2 0) s)).chans = u.chans ∧
    (square9.chansAt 3).marks = [] ∧ (e.thread 9).flags = ⟨false, false, true, false⟩ ∧ (w.thread 9).wait = .chRead 7 3 ∧
    (d.thread 9).waiting = true ∧ d.chAllowed 9 3 = true ∧ (v.thread 9).gr 7 = 0x67 ∧
    (v.thread 9).flags = ⟨false, true, false, false⟩ := by decide +kernel

theorem test_channel_tail_timeout :
    let s := but square9 [.chans 3 ⟨0, [(false, false)], 0, none, true, []⟩,
      .act (Reg.CH 3) (Fld.CH_TAIL.set (Fld.CH_WATCH.set (Fld.CH_WATCH_EN.set 0 1) 9) 1)]
    let u := nx (exec (.channelTailTimeout 3) s)
    s.threadsOn = true ∧ s.inForce (Reg.CH 3) Fld.CH_TAIL = 1 ∧ s.inForce (Reg.CH 3) Fld.CH_WATCH_EN = 1 ∧
    s.inForce (Reg.CH 3) Fld.CH_WATCH = 9 ∧ u.fld (Reg.CH 3) Fld.CH_TAIL_FIRED = 1 ∧ u.chans ≠ [] ∧
    (u.thread 9).flag evChannel = true := by decide +kernel

theorem test_locks :
    let mine : LockOwner := (square9.issued 9).ownerOf 9 false
    let other : LockOwner := ⟨.thread 10, 0, 0, 0, false⟩
    let k := fun (l : Lock) => but square9 [.locks 3 l]
    let held := k ⟨some other, false, [], false⟩
    let own := k ⟨some mine, false, [], false⟩
    let line := k ⟨some mine, false, [⟨10, 0, false, 5, 0, 0, 0⟩], false⟩
    let line' := but line [.threads 10 { p0 with state := .waiting, wait := .lock 5 3 }]
    let stale := k ⟨some { other with tgen := 1 }, false, [], false⟩
    let u := nx (exec (.hpacq 9 7 2 0) held)
    let v := nx (exec (.hpacqE 9 7 2 0) held)
    let p := nx (exec (.hprel 9 2 0) line')
    (square9.issued 9).lockAllowed 9 3 = true ∧ held.canIssue 9 = true ∧ own.canIssue 9 = true ∧ line'.canIssue 9 = true ∧
    square9.lockQueued 9 = false ∧ held.lockQueued 9 = false ∧ (held.issued 9).holdsLock 9 3 = false ∧
    (own.issued 9).holdsLock 9 3 = true ∧ (line'.issued 9).holdsLock 9 3 = true ∧
    g7 square9 (.hpacq 9 7 2 0) = 1 ∧ ((nx (exec (.hpacq 9 7 2 0) square9)).locksAt 3).owner = some mine ∧
    g7 held (.hpacqT 9 7 2 0) = 3 ∧ ((u.thread 9).wait, (u.locksAt 3).waiters.map (·.thread)) = (.lock 7 3, [9]) ∧
    ((v.thread 9).gr 7, (v.thread 9).pc, (v.locksAt 3).waiters.map (·.thread)) = (4, 4, [9]) ∧
    (nx (exec (.hprel 9 2 0) own)).locksAt 3 = ⟨none, false, [], false⟩ ∧
    (p.locksAt 3).owner.map (·.holder) = some (.thread 10) ∧ (p.thread 10).gr 5 = 1 ∧
    stale.lockStale 3 = true ∧ ((nx (exec (.lockOrphan 3) stale)).locksAt 3).orphan = true ∧
    (nx (exec (.lockOrphan 3) stale)).fld Reg.HP_EVENT Fld.HP_EVENT_ORPHANED = 1 := by decide +kernel

theorem test_lock_refused : let s := but (lvl 2) [.threads 9 { (lvl 2).thread 9 with g := [(2, 3), (7, 9)] }]
    s.canIssue 9 = true ∧ (s.issued 9).lockAllowed 9 3 = false ∧ g7 s (.hpacq 9 7 2 0) = 0 ∧
    g7 s (.hpacqT 9 7 2 0) = 0 ∧ g7 s (.hpacqE 9 7 2 0) = 0 := by decide +kernel

theorem test_load_return :
    let w := fun (a : Addr) => but maps [.threads 9 { maps.thread 9 with state := .waiting, wait := .load 7 a 2 }]
    let d := w 0x10
    let h := w 0x040000000010
    let b := but d [.bad 0x10 true]
    d.threadRuns 9 = true ∧ (d.thread 9).waiting = true ∧ d.region 0x10 = .dram ∧ d.readLate 9 = false ∧ h.readLate 9 = false ∧
    d.answered (coreOf 9) (linesOf 0x10 2) = true ∧ b.answered (coreOf 9) (linesOf 0x10 2) = true ∧ b.readLate 9 = false ∧
    b.eaBad ⟨false, 0x10⟩ 2 = true ∧ (b.thread 9).inHandler = false ∧
    d.eaBad ⟨false, 0x10⟩ 2 = false ∧ h.region 0x040000000010 = .host ∧ (h.thread 9).inHandler = false ∧
    g7 d (.loadReturn 9 none) = 7 ∧ g7 h (.loadReturn 9 (some 0x123456)) = 0x3456 ∧
    ((nx (exec (.loadReturn 9 none) h)).thread 9).tcause = 5 ∧
    ((nx (exec (.loadReturn 9 none) h)).thread 9).tval = 0x040000000010 := by decide +kernel

/-- Thread 9 runs at P1 for classroom 3, which may use pool 2, of 4 buffers, and five MSI-X vectors. -/
def poolUser : State := but (lvl 1) [.regs (Reg.BP_POOL_CFG 2) (Fld.BP_POOL_CFG_SIZE.set (Fld.BP_POOL_CFG_COUNT.set 0 4) 2), .act (Reg.BP_POOL_CL 2) 8, .regs (Reg.BP_POOL_BASE 2) 0x1000,
  .classes 3 { (lvl 1).classesAt 3 with grant := List.replicate 14 0 ++ [5] ++ List.replicate 113 0 },
  .msix 307 ⟨0xFEE00000, 0x44, false⟩]

theorem test_pool_port :
    let s := poolUser
    let c := fun (b : Buf) => but s [.bufs (bufKey 0x20000001) b]
    let full := but s [.pools 2 ⟨4, []⟩]
    let u := nx (exec (.poolPortAlloc 9 7 3 2) s)
    s.canIssue 9 = true ∧ full.canIssue 9 = true ∧ s.boundTo 9 = some 3 ∧
    (∀ w a, s.watched 9 w a = false) ∧ s.poolPick (some 3) 2 0 = some 2 ∧ full.poolPick (some 3) 2 0 = none ∧
    (s.poolsAt 2).next < s.poolCount 2 ∧ (s.thread 9).act = none ∧
    (u.thread 9).gr 7 = 0x20000000 ∧ (u.bufsAt (2 * 2 ^ 22)).count = 1 ∧ (u.bufsAt (2 * 2 ^ 22)).owner = some 3 ∧
    g7 full (.poolPortAlloc 9 7 3 2) = 0x8000000000000000 ∧
    g7 s (.poolPortInfo 9 7 3 2) = 0x000A000000001000 ∧
    (c ⟨2, 0, some 3⟩).canIssue 9 = true ∧
    ((nx (exec (.poolPortDrop 9 3 0x20000001) (c ⟨2, 0, some 3⟩))).bufsAt (bufKey 0x20000001)).count = 1 ∧
    (nx (exec (.poolPortDrop 9 3 0x20000001) (c ⟨1, 0, some 3⟩))).bufsAt (bufKey 0x20000001) = ⟨0, 1, none⟩ ∧
    ((nx (exec (.poolPortAdd 9 3 0x20000001) (c ⟨1, 0, some 3⟩))).bufsAt (bufKey 0x20000001)).count = 2 ∧
    s.grantLe 3 14 1 = 5 ∧ (s.msixAt 307).masked = false ∧
    (nx (exec (.vectorSignal 9 3 3) s)).outbox = [.msix 307 0xFEE00000 0x44] := by
  refine ⟨?_, ?_, ?_, fun w a => ?_, ?_⟩
  · decide +kernel
  · decide +kernel
  · decide +kernel
  · have h : ∀ i ∈ List.range 2, Fld.CORE_WATCH_THREADS.get (poolUser.reg (Reg.CORE_WATCH 0 1 i)) = 0 := by decide +kernel
    simp only [State.watched, List.any_eq_false]
    intro i hi
    have := h i hi
    simp_all [streetOf, coreOf, bitOf]
  · decide +kernel

/-! ## Helpers -/

/-- Thread 9 at P0 with a descriptor of LEN 2 at 0xFC00 (G8), data at 0xFC40 (G9) and a destination at 0xFC80 (G10);
each class is enabled for it. -/
def helper9 : State := but core1 [.desk 0x30404 2, .desk 0x30440 0x12, .desk 0x30441 0x34,
  .threads 9 { core1.thread 9 with helperEn := 0xFFF, g := [(8, 0xFC00), (9, 0xFC40), (10, 0xFC80)] }]

/-- The request thread 9 makes. -/
def req9 (k : HelperClass) (fn : Nat) (usesRc : Bool) (flags : Nat) : HelperReq :=
  helperReqOf helper9 9 k fn usesRc 8 9 (if usesRc then 10 else 0) flags

theorem test_helper_is_sought :
    let q := req9 .hx 1 false 0
    let u := nx (exec (.hxKey 9 8 9 0 0) helper9)
    let e := nx (exec (.hxKey 9 8 9 0 2) helper9)
    let d := (helper9.issued 9).helperDesc 9 q
    let bad := but helper9 [.desk 0x30404 0xFF, .desk 0x30405 0xFF, .desk 0x30406 0xFF]
    let d2 := (bad.issued 9).helperDesc 9 q
    let v := nx (exec (.hxKey 9 8 9 0 0) bad)
    let x := but helper9 [.threads 9 { helper9.thread 9 with g := [(8, 0xFC00), (9, 0x40000)] }]
    let qx := helperReqOf x 9 .hx 1 false 8 9 0 0
    let w := nx (exec (.hxKey 9 8 9 0 0) x)
    helper9.canIssue 9 = true ∧ (helper9.thread 9).helperEn.testBit (8 + helperNum .hx) = true ∧
    helper9.classUp 0 .hx = true ∧ q.valid q.ra = true ∧ q.valid q.rb = true ∧ helper9.helperOut 9 = false ∧
    helper9.hqueuesAt 3 = [] ∧ helper9.freeUnit 0 .hx = some 5 ∧
    (helper9.issued 9).helperHandles 9 q d.1 (q.form d) = true ∧
    (q.form d).badBank q = none ∧ (helper9.issued 9).anyUnreadable 9 (q.descRange d) = none ∧
    u.unitsAt 5 = some ⟨9, { q with desc := some d }, helper9.nextStart 0⟩ ∧ (u.thread 9).wait = .helper .hx ∧
    (e.thread 9).pc = 4 ∧ (e.unitsAt 5).map (·.req.event) = some true ∧
    (q.form d2).badBank q = none ∧ bad.canIssue 9 = true ∧
    (bad.issued 9).helperHandles 9 q d2.1 (q.form d2) = false ∧ (v.thread 9).tval = 0x3EC142400 ∧
    (x.issued 9).helperHandles 9 qx (x.issued 9 |>.helperDesc 9 qx).1 (qx.form ((x.issued 9).helperDesc 9 qx)) = true ∧
    (qx.form ((x.issued 9).helperDesc 9 qx)).badBank qx = some 0x40000 ∧
    (w.thread 9).tcause = 3 ∧ (w.thread 9).tval = 1 := by decide +kernel

theorem test_helper_is_busy :
    let busy := but helper9 [.units 5 (some ⟨8, req9 .hx 1 false 0, 1⟩)]
    let off := but helper9 [.threads 9 { helper9.thread 9 with helperEn := 0 }]
    let u := nx (exec (.hxKey 9 8 9 0 1) busy)
    let v := nx (exec (.hxKey 9 8 9 0 0) busy)
    let w := nx (exec (.hxKey 9 8 9 0 0) off)
    let x := but busy [.threads 9 { busy.thread 9 with g := [(8, 0xFC00), (9, 0x40000)] }]
    let y := but x [.desk 0x30404 0xFF, .desk 0x30405 0xFF, .desk 0x30406 0xFF]
    let qx := helperReqOf x 9 .hx 1 false 8 9 0 0
    let handles := fun (s : State) => let d := (s.issued 9).helperDesc 9 qx
      ((s.issued 9).helperHandles 9 qx d.1 (qx.form d), (s.issued 9).anyUnreadable 9 (qx.descRange d) == none)
    let traps := fun (s : State) => let u := nx (exec (.hxKey 9 8 9 0 0) s)
      ((u.thread 9).tcause, (u.thread 9).tval, u.hqueuesAt 3)
    x.canIssue 9 = true ∧ y.canIssue 9 = true ∧ x.freeUnit 0 .hx = none ∧ x.helperOut 9 = false ∧
    qx.badRegister = some 0x40000 ∧ (req9 .hx 1 false 0).badRegister = none ∧ (req9 .hx 1 false 1).badRegister = none ∧
    handles x = (true, true) ∧ handles y = (false, true) ∧ traps x = (3, 1, []) ∧ traps y = (1, 0x3EC142400, []) ∧
    busy.canIssue 9 = true ∧ off.canIssue 9 = true ∧ busy.classUp 0 .hx = true ∧ busy.freeUnit 0 .hx = none ∧
    busy.helperOut 9 = false ∧ (u.thread 9).flags.hb = true ∧ (u.thread 9).pc = 4 ∧
    v.hqueuesAt 3 = [⟨9, req9 .hx 1 false 0, false⟩] ∧ (v.thread 9).wait = .unit (req9 .hx 1 false 0) ∧
    (off.thread 9).inHandler = false ∧ (w.thread 9).tcause = 1 ∧ (w.thread 9).tval = 0x4EC142400 := by decide +kernel

theorem test_helper_grant :
    let q := req9 .hx 1 false 0
    let s := but helper9 [.hqueues 3 [⟨9, q, true⟩]]
    let u := nx (exec (.helperGrant 0 .hx) s)
    let w := but helper9 [.hqueues 3 [⟨9, q, false⟩]]
    let v := nx (exec (.helperGrant 0 .hx) w)
    let d := w.helperDesc 9 q
    let z := { q with seat := true }
    let t := but helper9 [.hqueues 3 [⟨9, z, false⟩], .units 5 (some ⟨17, q, 1⟩), .act (Reg.HLP_CFG 0) (Fld.HLP_CFG_URG_TAKE.set 0 1)]
    let y := nx (exec (.helperGrant 0 .hx) t)
    s.helpersRun 0 = true ∧ s.freeUnit 0 .hx = some 5 ∧ u.hqueuesAt 3 = [] ∧
    u.unitsAt 5 = some ⟨9, q, s.nextStart 0⟩ ∧ streetOf 9 = 0 ∧ w.helperHandles 9 q d.1 (q.form d) = true ∧
    (q.form d).badBank q = none ∧ w.anyUnreadable 9 (q.descRange d) = none ∧
    v.unitsAt 5 = some ⟨9, { q with desc := some d }, w.nextStart 0⟩ ∧ t.freeUnit 0 .hx = none ∧ t.takeUnit 0 .hx = some 5 ∧
    t.inForce (Reg.HLP_CFG 0) Fld.HLP_CFG_URG_TAKE = 1 ∧ y.hqueuesAt 3 = [⟨17, q, true⟩] ∧
    (y.unitsAt 5).map (·.thread) = some 9 := by decide +kernel

theorem test_helper_completes :
    let run := fun (q : HelperReq) (w : Wait) => but helper9 [.units (if q.cls = .hx then 5 else 0) (some ⟨9, q, 1⟩),
      .threads 9 { helper9.thread 9 with state := if q.event then .running else .waiting, wait := w }]
    let read := fun (q : HelperReq) => { q with desc := some (helper9.helperDesc 9 q) }
    let q := read (req9 .hx 1 false 0)
    let e := read (req9 .hx 1 false 2)
    let b := read (req9 .fx 0 true 0)
    let l := run (req9 .hx 1 false 0) (.helper .hx)
    let a := run q (.helper .hx)
    let c := run e .none
    let d := run b (.helper .fx)
    let ok := fun (s : State) (q : HelperReq) =>
      (s.anyUnreadable 9 ((q.form (helper9.helperDesc 9 q)).srcs.flatMap fun p => q.range p.1 p.2)).isNone
    let res := fun (s : State) (q : HelperReq) => (s.helperResult 9 q (helper9.helperDesc 9 q)).1.code
    let x := nx (exec (.helperComplete 0 5) l)
    let u := nx (exec (.helperComplete 0 5) a)
    let v := nx (exec (.helperComplete 0 5) c)
    let w := nx (exec (.helperComplete 0 0) d)
    a.helpersRun 0 = true ∧ a.helperUp 0 5 = true ∧ a.unitsAt 5 = some ⟨9, q, 1⟩ ∧ q.room = none ∧
    (a.thread 9).tgen = q.tgen ∧ ok a q ∧ ok c e ∧ ok d b ∧ res a q = 0 ∧ res c e = 0 ∧ (l.thread 9).inHandler = false ∧
    ((x.thread 9).tcause, (x.thread 9).tval) = (6, BitVec.ofNat 64 hMemUncorr) ∧
    u.unitsAt 5 = none ∧ (u.thread 9).pc = 4 ∧ (u.thread 9).wait = .none ∧
    keyFold [0x12, 0x34] = 0x1234 ∧
    v.unitsAt 5 = none ∧ (v.thread 9).flag evHelperDone = true ∧
    (d.thread 9).inHandler = false ∧ res d b ≠ 0 ∧
    ((w.thread 9).tcause, (w.thread 9).tval) = (6, BitVec.ofNat 64 (res d b)) := by decide +kernel

theorem test_helper_of_a_classroom_reset_since :
    let q := { req9 .hx 1 false 0 with room := some 3, clgen := 1 }
    let s := but helper9 [.units 5 (some ⟨9, q, 1⟩)]
    let u := nx (exec (.helperComplete 0 5) s)
    s.helpersRun 0 = true ∧ s.helperUp 0 5 = true ∧ s.clgen 3 ≠ q.clgen ∧ u.unitsAt 5 = none ∧ u.threads = s.threads := by
  decide +kernel

/-- A key of AES-128, an initial value and a text, and that their lengths are ones CX.GCM takes. -/
theorem test_gcm_lengths : (List.replicate 16 (0x2B : Byte)).length = 16 ∧ (List.replicate 12 (0 : Byte)).length = 12 := by
  decide

/-! ## Roll Call -/

/-- Bytes of memory from an address on. -/
def put (a : Nat) (bs : List Byte) : List Upd := bs.mapIdx fun i b => .mem (a + i) b

/-- A message of classroom 3, class 2, graph 0 of the Term in slot 0. -/
def msg3 : MsgDesc := { MsgDesc.zero with cls := 2, classroom := 3 }

/-- Context 7 of classroom 3 is ACTIVE; the graph's node 0 adds two operands and sends the sum to node 1, which sends
what it gets to node 2; DRAM channel 0 is ready. -/
def graph3 : State := but svc (dram0 ++ [.terms 0 { TermSlot.empty with state := .current, base := 0x1000 },
  .ctxs 7 { Ctx.zero with state := .active, msg := msg3 }, .regs Reg.RC_SPILL_SIZE 16] ++
  put 0x1000 [8, 0, 0, 0, 0, 0, 0, 0, 0, 1] ++
  put 0x1100 ([0x20, 0x20, 0, 0, 0, 0, 0, 0] ++ List.replicate 8 0 ++ [1, 0, 0, 0xC0, 0, 0xC0, 0, 0xC0] ++ List.replicate 8 0) ++
  put 0x1120 ([0x10, 0, 0, 0, 0, 0, 0, 0] ++ List.replicate 8 0 ++ [2, 0, 0, 0xC0, 0, 0xC0, 0, 0xC0] ++ List.replicate 8 0))

/-- A token for a port of a node of context 7. -/
def tok (node port : Nat) (v : Word) : Token := ⟨v, tagOf 3 7 node 0, port, false, false, 0, 0, false⟩

/-- The graph with a token at the head of its bank, and that bank. -/
def withTok (t : Token) : State := but graph3 [.banks (homeOf t.tag) { Bank.empty with inq := [t] }]

theorem test_tokens_arrive :
    let t := tok 0 0 5
    let b := homeOf t.tag
    let s := withTok t
    let late := withTok { t with cgen := 1 }
    let k := s.banksAt b
    let m := tok 1 0 9
    let sm := withTok m
    let bm := homeOf m.tag
    let u := nx (exec (.tokenArrive b) s)
    let v := nx (exec (.tokenArrive bm) sm)
    let l := nx (exec (.tokenArrive b) late)
    s.rollCallOn = true ∧ s.fenced (bankUnit b) = false ∧ k.stopped = false ∧ k.head = some t ∧ s.bankOfTag t.tag = b ∧
    ((List.range 4).all fun y => s.strayTokens y = [] ∧ sm.strayTokens y = [] ∧ late.strayTokens y = []) = true ∧
    ((List.range 16).all fun f => s.fuqAt f = []) = true ∧ s.tokenAccepted t = true ∧
    s.spilledSlot t.tag = none ∧ s.nodeInvalid t.tag t.port = false ∧ (s.nodeOf t.tag).alone = false ∧
    ((s.newEntry t.tag).add t false).due (s.nodeOf t.tag) = false ∧
    (u.banksAt b).entries.map (fun e => (e.opnds, e.present)) = [([5, 0, 0, 0], 1)] ∧
    (s.ctx 7).state = .active ∧ (s.ctx 7).inDram = false ∧ ((List.range 16).all fun f => sm.fuqAt f = [] ∧ late.fuqAt f = []) = true ∧
    late.tokenAccepted { t with cgen := 1 } = false ∧ (l.banksAt b) = k.pop ∧ l.regsAt Reg.RC_CNT_LATE_TOKEN = 1 ∧
    sm.tokenAccepted m = true ∧ (sm.nodeOf m.tag).kind = kMicro ∧ (sm.nodeOf m.tag).alone = true ∧ (sm.ctx 7).state = .active ∧ (sm.ctx 7).inDram = false ∧ sm.spilledSlot m.tag = none ∧
    sm.nodeInvalid m.tag 0 = false ∧ microArity (sm.nodeOf m.tag).fn = some 1 ∧
    sm.roomFor (sm.destTokens m.tag 0 (sm.nodeOf m.tag) false true fun _ => 9) = true ∧
    v.regsAt Reg.RC_CNT_FIRES_MICRO = 1 ∧ (v.banksAt (homeOf (tok 2 0 9).tag)).inq.contains (tok 2 0 9) = true := by
  decide +kernel

theorem test_spill_refill :
    let t := tok 0 0 5
    let b := homeOf t.tag
    let e : Entry := ⟨[0, 3, 0, 0], t.tag, 2, 0, false, false, false, 0, 0⟩
    let s := but (withTok t) (put 128 (e.bytes chainEnd) ++
      [.ctxs 7 { Ctx.zero with state := .active, msg := msg3, spilled := 1, spillHead := 2 }])
    let u := nx (exec (.spillRefill b) s)
    s.rollCallOn = true ∧ s.spilledSlot t.tag = some 2 ∧ s.dramReady (s.spillAddr 2) = true ∧ s.slotOk 2 = true ∧
    s.tokenAccepted t = true ∧ (u.banksAt b).entries = [e] ∧ (u.banksAt b).inq = [t] ∧ u.regsAt Reg.RC_CNT_REFILLS = 1 := by
  decide +kernel

theorem test_ready_fire_and_resume :
    let t := tok 0 0 5
    let b := homeOf t.tag
    let e : Entry := ⟨[5, 3, 0, 0], t.tag, 3, 0, false, true, false, 0, 0⟩
    let s := but graph3 [.banks b { Bank.empty with entries := [e] }]
    let d := s.nodeOf t.tag
    let u := nx (exec (.readyFire b) s)
    let h := but graph3 [.banks 2 { Bank.empty with stopped := true }]
    let far := but graph3 (put 128 (e.bytes chainEnd) ++
      [.ctxs 7 { Ctx.zero with state := .active, msg := msg3, spilled := 1, spillHead := 2 }])
    let v := nx (exec (.readyFire b) far)
    far.readySlot b = some (7, 2, e) ∧ ((List.range 4).all fun y => far.strayTokens y = [] ∧ s.strayTokens y = []) = true ∧
    far.dramReady (far.spillAddr 2) = true ∧ far.slotOk 2 = true ∧ (far.banksAt b).entries = [] ∧ tagCtx e.tag = 7 ∧
    (far.ctx 7).inDram = false ∧ (far.chain 7).head? = some 2 ∧ v.rc.spillFreed = [2] ∧ v.regsAt Reg.RC_CNT_REFILLS = 1 ∧
    v.regsAt Reg.RC_CNT_FIRES_MICRO = 1 ∧ (v.banksAt b).entries = [] ∧ s.readySlot b = none ∧
    oldest ((s.banksAt b).entries.filter s.mayFire) = some e ∧ d.kind = kMicro ∧ d.skipped 0 = false ∧
    s.canFire b t.tag d 0 = true ∧ (s.ctx 7).inDram = false ∧ (s.mayFire e) = true ∧ (u.banksAt b).entries.all (fun x => e.same x = false) ∧ (u.banksAt b).entries = [] ∧
    u.regsAt Reg.RC_CNT_FIRES_MICRO = 1 ∧ (u.banksAt (homeOf (tok 1 0 8).tag)).inq.contains (tok 1 0 8) = true ∧
    h.entryRoom 2 = true ∧ (nx (exec (.bankResume 2) h)).banksAt 2 = Bank.empty := by decide +kernel

theorem test_contexts :
    let c := fun (k : CtxState) => but svc [.ctxs 7 { Ctx.zero with state := k, cgen := 15, msg := msg3 }]
    let e := nx (exec (.contextFree 7) (c .ending))
    let p := nx (exec (.contextPark 7) (but svc [.ctxs 7 { Ctx.zero with state := .parking, pinned := true, msg := msg3 }]))
    let t := tok 0 0 5
    let d := but svc [.delay 4 ⟨31, some ⟨2, 0, .park t⟩⟩]
    let ut := { t with urgent := true }
    let du := but svc [.delay 4 ⟨31, some ⟨2, 0, .park ut⟩⟩]
    let q := but graph3 [.ctxs 7 { Ctx.zero with state := .parking, msg := msg3 }]
    let v := nx (exec (.contextPark 7) q)
    let w := nx (exec (.parkTimeout 4) d)
    let wu := nx (exec (.parkTimeout 4) du)
    svc.rollCallOn = true ∧ e.ctx 7 = Ctx.zero ∧ e.regsAt Reg.RC_CNT_CONTEXTS_ENDED = 1 ∧ (p.ctx 7).state = .parked ∧
    d.dueNext ⟨2, 0, .park t⟩ = true ∧ du.dueNext ⟨2, 0, .park ut⟩ = true ∧ (v.ctx 7).inDram = true ∧ q.spillSlots ≠ 0 ∧
    ((List.range 4).flatMap fun b => (q.banksAt b).entries.filter fun e => tagCtx e.tag = 7).length ≤ q.spillFree ∧ (w.delayAt 4) = ⟨0, none⟩ ∧ (w.banksAt (homeOf t.tag)).inq = [t] ∧
    (wu.banksAt (homeOf t.tag)).urgent = [ut] := by decide +kernel

theorem test_stalemate_and_abandonment :
    let s := but svc [.ctxs 7 { Ctx.zero with state := .active, cgen := 15, msg := msg3 }, 
      .act Reg.RC_STALL (Fld.RC_STALL_EN.set 0 1), .boot { svc.boot with tenikDown := false }]
    let u := nx (exec .stalemate s)
    let v := nx (exec .tenikStalemateAction u)
    let w := nx (exec (.abandonContext 7) v)
    let x := nx (exec (.abandonFinish 7) w)
    s.inForce Reg.RC_STALL Fld.RC_STALL_EN = 1 ∧ u.fld Reg.RC_EVENT Fld.RC_EVENT_STALEMATE = 1 ∧ u.tenikUp = true ∧
    u.youngest = some 7 ∧ v.fld Reg.RC_EVENT Fld.RC_EVENT_STALEMATE = 0 ∧ v.rc.toAbandon = [(7, 15)] ∧ v.tenikUp = true ∧
    (w.ctx 7).state = .abandoning ∧ w.regsAt Reg.RC_CNT_ABANDONED = 1 ∧ w.tenikUp = true ∧ w.rollCallOn = true ∧
    v.clgen 3 = (v.ctx 7).clgen ∧ (v.ctx 7).inDram = false ∧ w.rc.toAbandon = [] ∧ (w.actsOf 7) = [] ∧ (w.ctx 7).msg.status = none ∧ (w.ctx 7).reqs = 0 ∧ w.actionIn 0 actRetry 3 = 0 ∧ (x.ctx 7).state = .free ∧ (x.ctx 7).cgen = 0 ∧
    x.regsAt (Reg.ETH_CNT_DEFACT_COUNT 0) = 1 := by decide +kernel

/-! ## Admission, dispatch and the Crosswalk -/

/-- A device in SERVICE with classroom 3 ACTIVE, granted class 2 and 256 contexts; the current Term's graph of port 1 accepts
at its first node for classroom 3, class 2, graph 0. -/
def admit3 : State := but graph3 ([.boot { svc.boot with perst := false }, .regs (Reg.CL_BIND 3) (Fld.CL_BIND_STATE.set 0 2), .act (Reg.SQ_SHARE 3) 0x1000100,
  .regs Reg.RC_CTX_COUNT 64, .act Reg.RC_ADMIT 0, .act (Reg.PG_CLMASK 1) 8,
  .regs Reg.PG_STATUS (Fld.PG_STATUS_CUR_VALID.set 0 1),
  .terms 0 { graph3.termsAt 0 with graphs := 1 },
  .classes 3 { graph3.classesAt 3 with grant := List.replicate 12 0 ++ [4] ++ List.replicate 12 0 ++ [1] ++ List.replicate 102 0 },
  .ports 1 { Port.empty with unseq := [⟨[1, 2, 3, 4], 9, false⟩] }] ++
  ([3, 0, 0, 0, 0, 0, 0, 0, 0xC0, 0xA1, 2, 0, 0, 1] : List Byte).mapIdx fun i b => .pg (0x8000 + i) b)

/-- The walk of that frame. -/
def walk3 : Walk := { src := .unseq 1, port := 1, term := some 0, epoch := 0, buffer := none, bytes := [1, 2, 3, 4], hdrLen := 0,
                      ts := 9, classroom := none, strm := 0, visits := 5, mask := 8 }

theorem test_message_is_walked :
    let s := admit3
    let u := nx (exec (.messageHandOver (.unseq 1)) s)
    let w := but s [.pipes 1 { Pipe.empty with walks := [⟨walk3, none⟩] }]
    let v := nx (exec (.walkComplete 1 0) w)
    let r := (walkOutcome 1 walk3 w).1
    (s.portsAt 1).unseq.find? (fun f => !f.walking) = some ⟨[1, 2, 3, 4], 9, false⟩ ∧ s.pipeFor (.unseq 1) = some 1 ∧
    s.fstOn = true ∧ (u.pipesAt 1).walks.map (fun k => (k.walk.bytes, k.walk.term)) = [([1, 2, 3, 4], some 0)] ∧
    w.pipeUp 1 = true ∧ (match r with | .result m g => (m.classroom, m.cls, m.graph, g) | _ => (0, 0, 0, 9)) = (3, 2, 0, 0) ∧
    w.held 3 = false ∧ (v.pipesAt 1).walks = [] ∧ v.sq.results = [⟨walk3, r, none⟩] := by decide +kernel

/-- A finished walk of classroom 3 with a buffer. -/
def done3 : WalkDone := ⟨{ walk3 with buffer := some 7 }, .result msg3 0, none⟩

theorem test_message_is_admitted :
    let h := but admit3 [.pipes 1 { Pipe.empty with hold := [done3] }]
    let a := but admit3 [.sq { admit3.sq with results := [done3], admitNext := 5 }]
    let u := nx (exec (.holdQueueRelease 1) h)
    let v := nx (exec .admission a)
    let q : Admitted := ⟨msg3, 5, 0, false, none⟩
    let c := but admit3 [.admitQ 6 [q]]
    let w := nx (exec .contextCreate c)
    h.pipeUp 1 = true ∧ h.canLeave done3 = true ∧ (u.pipesAt 1).hold = [] ∧ u.sq.results = [done3] ∧
    a.datapathOn = true ∧ a.nextResult = some done3 ∧ a.admissible msg3 0 = true ∧ a.grpDone .sq = true ∧ c.grpDone .rc = true ∧ a.takenOver done3 msg3 = false ∧ c.entriesFit msg3 = true ∧
    v.sq.admitNext = 6 ∧ v.admitQAt 6 = [q] ∧ v.regsAt Reg.SQ_CNT_ADMITTED = 1 ∧
    (c.nextCreate.map (·.1)) = some q ∧ (w.ctx c.nextCtx).state = .active ∧ (w.ctx c.nextCtx).msg = msg3 ∧
    (w.ctx c.nextCtx).order = 5 := by decide +kernel

/-- Activation 5 is ready and thread 9 stands in GETWORK. -/
def blocked9 : State := but workReady [.sq { workReady.sq with blocked := [9] },
  .threads 9 { workReady.thread 9 with state := .idle, wrd := 7 }]

theorem test_dispatch : let u := nx (exec (.dispatch 3) blocked9)
    blocked9.dispatchOn = true ∧ blocked9.choice 3 = some (.give 9 5) ∧ (blocked9.actsAt 5).map (·.saved) = some none ∧
    (u.thread 9).act = some 5 ∧ (u.thread 9).priv = 2 ∧ (u.actsAt 5).map (·.place) = some .running ∧
    (u.thread 9).pc = 0x80 ∧ (u.thread 9).gr 7 = 0x4000000000000002 ∧ (u.thread 9).gr 1 = (blocked9.thread 9).gr 1 ∧
    u.regsAt Reg.SQ_CNT_DISPATCHED = 1 := by decide +kernel

/-- Thread 9 runs activation 5; an urgent activation 6 of context 1 waits in the bypass lane. -/
def urgent9 : State := but workReady [.ready 25 [], .sq { workReady.sq with bypass := [6] },
  .ctxs 1 { Ctx.zero with state := .active, pinned := true, msg := { MsgDesc.zero with classroom := 3 }, acts := 1 },
  .acts 5 (some ⟨0, 0, 0, 3 * 2 ^ 40, [0x77], 0, 2, false, 0, .running, none, none⟩),
  .acts 6 (some ⟨1, 0, 0, tagOf 3 1 0 0, [0x88], 0, 2, false, 0, .ready, none, none⟩),
  .threads 9 { workReady.thread 9 with act := some 5, priv := 2 }]

theorem test_preemption :
    let u := nx (exec (.dispatch 3) urgent9)
    let v := nx (exec (.preemptSave 9) u)
    urgent9.choice 3 = some (.preempt 9 6 1) ∧ (u.thread 9).preempt = some 6 ∧ (u.thread 9).flag evPreempt = true ∧
    (u.ctx 1).seat = some 9 ∧ u.dispatchOn = true ∧ u.coreServes 1 = true ∧ v.readyAt 25 = [5] ∧ (u.thread 9).atBoundary = true ∧ (u.thread 9).haltPending = false ∧
    (u.thread 9).act = some 5 ∧ ((u.actsAt 6).map (·.saved)) = some none ∧
    ((u.actsAt 5).map fun a => ((u.ctx a.ctx).cgen == a.cgen, (u.ctx a.ctx).state)) = some (true, .active) ∧
    (v.actsAt 5).map (fun a => (a.place, a.saved)) = some (.ready, some ((u.thread 9).save 9)) ∧ (v.thread 9).act = some 6 ∧
    v.regsAt Reg.SQ_CNT_PREEMPTIONS = 1 := by decide +kernel

theorem test_state_copy_and_timer :
    let v := { (core1.thread 9).save 9 with pc := 0x440 }
    let s := but svc [.acts 5 (some ⟨0, 0, 0, 0, [], 0, 2, false, 0, .running, some v, none⟩),
      .threads 9 { p0 with state := .waiting, wait := .copy 5 }]
    let u := nx (exec (.stateCopyEnd 9) s)
    let d := but core1 [.delay 4 ⟨31, some ⟨2, 0, .thread 9⟩⟩]
    let w := nx (exec (.threadTimerDue 4) d)
    ((s.actsAt 5).map (·.saved)) = some (some v) ∧ (u.thread 9).act = some 5 ∧ (u.thread 9).g = v.g ∧ (u.thread 9).pc = 0x440 ∧
    d.threadsOn = true ∧ d.dueNext ⟨2, 0, .thread 9⟩ = true ∧ (w.thread 9).flag evTimer = true ∧ (w.delayAt 4).arm = none ∧
    w.regsAt Reg.SQ_CNT_TIMERS_DUE = 1 := by decide +kernel

/-- An egress message of a class-0 context to port 0, raw. -/
def out0 : Egress := ⟨0, 0, 4, 0, 0, 1, 0, 0⟩

/-- Its context at the Crosswalk with that message; `h`: its reference was made. -/
def cw0 (h : Bool) : CwCtx := ⟨7, 0, 0, 0, 3, 0, 5, false, [⟨out0, { MsgDesc.zero with classroom := 3 }, h, false⟩], 0⟩

/-- A table engine's write of an entry of a table without mirror takes effect at once, as a check says it. -/
def canWrite (s : State) (d : TableDesc) (a : Nat) : Bool :=
  decide (0 < d.esize ∧ d.esize % 16 = 0 ∧ a % 16 = 0) && !d.mirror && (linesOf a d.esize).all (!s.unsynced ·) &&
    (linesOf a d.esize).all (fun l => !(s.dramChan l).any s.ddrOut) &&
    (List.range d.esize).all fun i => s.lineTakes (a + i) .engine && (s.rawChan (a + i)).isNone

theorem writable_of {s : State} {d : TableDesc} {a : Nat} (h : canWrite s d a = true) : s.slotWritable d a := by
  simp only [canWrite, Bool.and_eq_true, decide_eq_true_eq, Bool.not_eq_true', List.all_eq_true, List.mem_range,
    Option.isNone_iff_eq_none] at h
  obtain ⟨⟨⟨⟨⟨h0, h1, h2⟩, hm⟩, hs⟩, ho⟩, ht⟩ := h
  refine ⟨h0, h1, hs, ?_⟩
  rintro c (rfl | ⟨hm', -⟩)
  · exact ⟨h2, ho, ht⟩
  · rw [hm] at hm'; cases hm'

/-- An entry of a table reads good by itself, as a check says it. -/
def readsGood (s : State) (d : TableDesc) (t a : Nat) : Bool :=
  (linesOf a d.esize).all (fun l => !(s.dramChan l).any s.ddrOut && !s.unsynced l) &&
    (partsOf a d.esize).all (!s.badAt ·) && entryGood d t (s.bytes a d.esize)

theorem clean_of {s : State} {d : TableDesc} {t a : Nat} (h : readsGood s d t a = true) : s.slotClean d t a := by
  simpa [readsGood, State.slotClean, and_assoc] using h

theorem apart_of {d : TableDesc} {l : List Nat} (hm : d.mirror = false)
    (h : (l.all fun x => l.all fun y => decide (x = y ∨ x + d.esize ≤ y ∨ y + d.esize ≤ x)) = true) : d.apart l := by
  simp only [List.all_eq_true, decide_eq_true_eq] at h
  exact fun x hx y hy => ⟨h x hx y hy, fun h' => by rw [hm] at h'; cases h'⟩

/-- A descriptor: an array of eight entries of 16 bytes, or a hash table of two buckets of entries of 32 bytes, of
classroom `c`. -/
def descOf (c : Byte) (hash : Bool) : List Byte :=
  (if hash then [0x05, 0, 0x04, c, 1, 0, 0, 0] ++ leBytes 8 0x200000 else [0x02, 0, 0x04, c, 0, 0, 0, 0] ++ leBytes 8 0x201000) ++
    leBytes 8 0x1000 ++ zeros 8 ++ leBytes 8 8 ++ zeros 24

/-- The array as table 3 and the hash table as table 4, both VALID. -/
def tablesOf (c : Byte) : List Upd := (List.range 5).flatMap fun k =>
  [.regs (tableWordOff 3 k) (Word.ofNat (setBit (leAt (descOf c false) (8 * k) 8) 13 (k == 0))),
   .regs (tableWordOff 4 k) (Word.ofNat (setBit (leAt (descOf c true) (8 * k) 8) 13 (k == 0)))]

/-- The graph with the two tables of classroom 3; the hash table holds key 1. -/
def tables3 : State := but graph3 (tablesOf 3 ++ put 0x200000 ((but graph3 (tablesOf 3)).hashEntry ((but graph3 (tablesOf 3)).table 4) 4 1 [7]))

/-- A sealed journal with one write. -/
def sealedWrite (t key : Nat) (data : List Byte) : State :=
  but tables3 [.acts 5 (some ⟨7, 0, 0, tagOf 3 7 0 0, [], 0, 2, false, 0, .retiring, none, some (⟨[⟨t, 0, 0, key, 0, data⟩], [], [], false⟩, 0, 5)⟩)]

theorem test_sealed_write_of_an_array : let s := sealedWrite 3 7 [9]
    let d := s.table 3
    let u := nx (exec (.retireApply 5) s)
    s.mirrorRoom = true ∧ modeStage ≤ s.mode ∧ s.writesFree [⟨3, 0, 0, 7, 0, [9]⟩] = true ∧ s.roomFor [] = true ∧
    ((List.range 16).all fun n => (s.enginesAt n).taken = []) = true ∧ (s.ctx 7).inDram = false ∧
    (d.valid, d.classroom, tagClass (tagOf 3 7 0 0), d.outside 7) = (true, 3, 3, false) ∧ d.kind ≠ kindHash ∧
    canWrite s d (d.elem 7) = true ∧ d.mirror = false ∧ u.bytes (d.elem 7) 16 = arrayEntry d 3 0 [9] := by decide +kernel

theorem test_sealed_write_of_a_key : let s := sealedWrite 4 1 [8]
    let d := s.table 4
    let u := nx (exec (.retireApply 5) s)
    s.writesFree [⟨4, 0, 0, 1, 0, [8]⟩] = true ∧ (d.valid, d.classroom, d.keyLen, d.esize) = (true, 3, 8, 32) ∧ d.kind = kindHash ∧
    (match s.lookup d 4 1 with | .hit x _ => x | _ => 0) = 0x200000 ∧
    (d.slots 4 1).all (readsGood s d 4) = true ∧ canWrite s d 0x200000 = true ∧ d.mirror = false ∧
    ((d.slots 4 1).all fun x => (d.slots 4 1).all fun y => decide (x = y ∨ x + d.esize ≤ y ∨ y + d.esize ≤ x)) = true ∧
    u.bytes 0x200000 32 = s.hashEntry d 4 1 [8] := by decide +kernel

theorem test_sealed_work :
    let j : Journal := ⟨[⟨1, 1, 0, 5, 0, []⟩], [], [⟨0, 0, false, 0, 0x66⟩], false⟩
    let a : Act := ⟨7, 0, 0, tagOf 3 7 0 0, [], 0, 2, false, 0, .retiring, none, some (j, 0, 5)⟩
    let s := but graph3 [.acts 5 (some a)]
    let e := but s [.ctxs 7 { s.ctx 7 with state := .ending }]
    let v := nx (exec (.retireApply 5) e)
    (s.ctx 7).state ≠ .ending ∧ (e.ctx 7).state = .ending ∧ ((sealedTokens a (e.ctx 7).pinned j).any v.tokenAccepted) = false ∧
    let u := nx (exec (.retireApply 5) s)
    s.mirrorRoom = true ∧ modeStage ≤ s.mode ∧ s.roomFor (sealedTokens a (s.ctx 7).pinned j) = true ∧ s.writesFree j.writes = true ∧
    ((List.range 16).all fun n => (s.enginesAt n).taken = []) = true ∧ u.actsAt 5 = none ∧
    u.regsAt Reg.SQ_CNT_JWR_APPLIED = 0 ∧
    (u.banksAt (homeOf (tok 0 0 0x66).tag)).inq = [{ tok 0 0 0x66 with value := 0x66 }] := by decide +kernel

theorem test_messages_are_released :
    let l := homeLane 0 3 0
    let s := fun h => but svc [.cw [cw0 h], .act (Reg.ETH_GRP 0) (Fld.ETH_GRP_MODE.set 0 2)]
    let u := nx (exec (.messageRelease l) (s false))
    let v := nx (exec (.messageRelease l) (s true))
    let o := but (s true) [.regs (Reg.CL_BIND 3) (Fld.CL_BIND_GEN.set 0 1)]
    let w := nx (exec (.messageRelease l) o)
    let a := (s true).bufAddr 0
    o.oldLife (cw0 true) = true ∧ (o.releasable l).map Prod.fst = [cw0 true] ∧ w.regsAt Reg.CW_CNT_DISCARDED_GEN = 1 ∧
    (s true).oldLife (cw0 true) = false ∧ (s true).anyBad a 4 = false ∧ (s true).fenced (groupOf 0) = false ∧
    (v.portsAt 0).q0.map (fun f => (f.bytes, f.tsTwo)) = [((s true).bytes a 4, none)] ∧
    (s true).datapathOn = true ∧ ((s true).releasable l).map Prod.fst = [cw0 true] ∧
    ((s false).releasable l).map Prod.fst = [cw0 false] ∧ (s true).portExists 0 = true ∧
    u.regsAt Reg.BP_CNT_REF_SAT_DROP = 1 ∧ v.regsAt Reg.CW_CNT_RELEASED = 1 ∧ v.regsAt Reg.CW_CNT_RELEASED_URGENT = 1 := by
  decide +kernel

theorem test_messages_leave_by_stream_and_recirculate :
    let l := homeLane 0 3 0
    let r := but svc [.cw [{ cw0 true with msgs := [⟨⟨0, 0, 4, 0, 8, 1, 0, 0⟩, { MsgDesc.zero with classroom := 3 }, true, false⟩] }]]
    let t := but svc [.cw [{ cw0 true with msgs := [⟨⟨0, 0, 4, 0x44, 0, 0, 0, 0⟩, { MsgDesc.zero with classroom := 3 }, true, false⟩] }],
      .streams 0x44 (some { Stream.opened true 0 3 false 9 [] with state := .open_ })]
    let u := nx (exec (.messageRelease l) r)
    let v := nx (exec (.messageRelease l) t)
    r.anyBad (r.bufAddr 0) 4 = false ∧ r.grpDone .pg = true ∧ r.pipeFor (.recirc 0) = some 0 ∧ (u.pipesAt 0).walks.length = 1 ∧
    t.oldLife (cw0 true) = false ∧ (r.releasable l).length = 1 ∧ (t.releasable l).length = 1 ∧ t.fenced (groupOf 0) = false ∧
    u.regsAt Reg.CW_CNT_RECIRCULATED = 1 ∧ u.cw.map (·.msgs) = [[]] ∧
    (v.stream 0x44).map (·.waiting) = some [⟨0, ⟨0, 0, 4, 0x44, 0, 0, 0, 0⟩, true⟩] := by decide +kernel

theorem test_lanes :
    let m := but svc [.regs Reg.CW_STATUS (Fld.CW_STATUS_LANE_MOVING.set 0 6)]
    let u := nx (exec (.laneTakeoverEnd 1) m)
    let old : CwCtx := { cw0 true with ctx := 6, msgs := [] }
    let l := homeLane 0 3 0
    let h := but svc [.cw [old, cw0 true], .act Reg.CW_CFG (Fld.CW_CFG_HOLD_US.set (Fld.CW_CFG_HOLD_EN.set 0 1) 3),
      .tb { svc.tb with mono := 5000 * 2 ^ 32 }]
    let v := nx (exec (.crosswalkHold l) h)
    (m.fld Reg.CW_STATUS Fld.CW_STATUS_LANE_MOVING) = 6 ∧ u.fld Reg.CW_STATUS Fld.CW_STATUS_LANE_MOVING = 4 ∧ l < 4 ∧
    h.inForce Reg.CW_CFG Fld.CW_CFG_HOLD_EN = 1 ∧ h.inForce Reg.CW_CFG Fld.CW_CFG_HOLD_US = 3 ∧ h.monoNs = 5000 ∧ old.since = 0 ∧
    v.fld (Reg.CW_HOLD_INFO l) Fld.CW_HOLD_INFO_HELD_US = 5 ∧ h.holding l = some old ∧ h.fld (Reg.CW_LANE l) Fld.CW_LANE_HOLD = 0 ∧
    v.fld (Reg.CW_LANE l) Fld.CW_LANE_HOLD = 1 ∧ v.fld (Reg.CW_HOLD_INFO l) Fld.CW_HOLD_INFO_CONTEXT = 6 := by decide +kernel

/-! ## Thread faults and debugging -/

theorem test_thread_faults :
    let s := but (lvl 2) [.threads 9 { (lvl 2).thread 9 with act := some 5 }]
    let st := but s [.regs (coreReg Reg.CORE_STATUS 1) (Fld.CORE_STATUS_SEAT_VALID.set (Fld.CORE_STATUS_SEAT_THR.set 0 1) 1)]
    let r := but s [.regs (coreReg Reg.CORE_CTL 1) (Fld.CORE_CTL_RECOVERY.set 0 1)]
    let u := nx (exec (.threadFault 9 5) s)
    let v := nx (exec (.seatLimit 9) st)
    let w := nx (exec (.threadFault 9 2) r)
    s.threadRuns 9 = true ∧ st.isSeat 9 = true ∧ (u.thread 9).state = .stopped ∧
    u.fld (Reg.CORE_TFAULT 0 1 1) Fld.CORE_TFAULT_CAUSE = 5 ∧ (u.fld (coreReg Reg.CORE_FAULT 1) Fld.CORE_FAULT_FAULTED) = 2 ∧
    (u.thread 8).flag evFaultNotify = true ∧ v.fld (Reg.CORE_TFAULT 0 1 1) Fld.CORE_TFAULT_CAUSE = 6 ∧
    (v.thread 9).state = .stopped ∧ w.fld (coreReg Reg.CORE_FAULT 1) Fld.CORE_FAULT_CORE_STOPPED = 1 ∧
    ((List.range 8).all fun i => (w.thread (8 + i)).state = .stopped) = true := by decide +kernel

theorem test_thread_faults_are_ended :
    let s := but (lvl 2) [.boot { svc.boot with tenikDown := false, perst := false },
      .threads 9 { (lvl 2).thread 9 with state := .stopped, act := some 5, repc := 3 },
      .acts 5 (some ⟨7, 0, 0, 3 * 2 ^ 42, [], 0, 2, false, 0, .running, none, none⟩),
      .ctxs 7 { Ctx.zero with state := .active, msg := msg3, acts := 1 },
      .regs (coreReg Reg.CORE_FAULT 1) (Fld.CORE_FAULT_FAULTED.set 0 2)]
    let ends := fun c => let u := nx (exec c s)
      ((u.thread 9).repc, (u.thread 9).tgen, (u.thread 9).state == .stopped, u.fld (coreReg Reg.CORE_FAULT 1) Fld.CORE_FAULT_FAULTED)
    s.mayAccess .tenik (coreReg Reg.CORE_THCTL 1) = true ∧
    [Instr.threadRelease .tenik 1 1, .threadDrop .tenik 1 1, .threadReset .tenik 1 1].map ends = List.replicate 3 (0, 1, false, 0) ∧
    (nx (exec (.threadDrop .tenik 1 1) s)).rc.toAbandon = [(7, 0)] := by decide +kernel

theorem test_thread_stalemate :
    let s := but (lvl 2) [.act (coreReg Reg.CORE_CFG 1) (Fld.CORE_CFG_TSTALL_EN.set 0 1),
      .threads 9 { (lvl 2).thread 9 with state := .waiting, wait := .event 0 0x100 false }]
    let u := nx (exec (.threadStalemate 1) s)
    s.threadRuns 8 = true ∧ s.inForce (coreReg Reg.CORE_CFG 1) Fld.CORE_CFG_TSTALL_EN = 1 ∧ s.boundThreads 1 = [9] ∧
    (s.thread 9).softWait = true ∧ (u.thread 8).flag evFaultNotify = true ∧
    u.fld (coreReg Reg.CORE_FAULT 1) Fld.CORE_FAULT_STALLED = 2 := by decide +kernel

/-- Thread 9 in a state of debugging, where Tenik may write. -/
def dbg (f : Thread → Thread) : State := but core1 [.boot { svc.boot with tenikDown := false, perst := false },
  .threads 9 (f (core1.thread 9)), .regs (coreReg Reg.CORE_DBG_SEL 1) (Fld.CORE_DBG_SEL_THREAD.set (Fld.CORE_DBG_SEL_REG.set 0 5) 1)]

theorem test_debugging :
    let r := dbg id
    let o := but r [.chans 3 ⟨0, [(false, false)], 0, some 9, true, []⟩]
    let h := dbg fun th => { th with state := .halted, heldState := .running, forced := true }
    let f := but o [.threads 9 { o.thread 9 with haltPending := true }]
    let u := nx (exec (.debugHalt .tenik 1 2) r)
    let v := nx (exec (.debugHalt .tenik 1 2) o)
    let w := nx (exec (.debugResume .tenik 1 2) h)
    let x := nx (exec (.debugStep .tenik 1 2) h)
    let y := nx (exec (.haltForced 9) f)
    let c := dbg fun th => { th with state := .waiting, wait := .chWrite 3 0x77 true none none }
    let z := nx (exec (.debugHalt .tenik 1 2) c)
    (c.thread 9).wait.inChWrite = true ∧ (r.thread 9).wait.inChWrite = false ∧ (z.thread 9).state = .waiting ∧
    (z.thread 9).haltPending = true ∧ (z.thread 9).wait = (c.thread 9).wait ∧
    r.coreUp 1 = true ∧ r.mayAccess .tenik (coreReg Reg.CORE_DBG_CTL 1) = true ∧ r.openPacket 9 = false ∧
    (r.thread 9).midRep = false ∧ o.openPacket 9 = true ∧ (u.thread 9).state = .halted ∧ (u.thread 9).heldState = .running ∧
    (v.thread 9).state = .running ∧ (v.thread 9).haltPending = true ∧ (w.thread 9).state = .running ∧
    (w.thread 9).flag evDebug = true ∧ (x.thread 9).stepping = true ∧ f.openChans 9 = [3] ∧ (y.thread 9).state = .halted ∧
    (y.thread 9).discard = [3] ∧ h.mayAccess .tenik (coreReg Reg.CORE_DBG_DATA 1) = true ∧ h.dbgSel 1 = (9, 5) ∧
    ((nx (exec (.dbgDataWrite .tenik 1 0xFF 0x99) h)).thread 9).gr 5 = 0x99 ∧
    (nx (exec (.dbgDataRead .tenik 1) h)).outbox.head? = some (.readData [0x41, 0, 0, 0, 0, 0, 0, 0] false) := by decide +kernel

/-! ## Ports and streams -/

/-- Port 0 is up, with a state of its own. -/
def port0 (q : Port) (cfg : Word) : State := but svc [.boot { svc.boot with tenikDown := false, perst := false },
  .act (Reg.ETH_GRP 0) (Fld.ETH_GRP_MODE.set 0 1), .act (Reg.ETH_CFG 0) (Fld.ETH_CFG_PORT_EN.set cfg 1),
  .regs (Reg.ETH_STATUS 0) (Fld.ETH_STATUS_LINK_UP.set 0 1), .act (Reg.ETH_PFC 0) 1, .ports 0 q]

/-- A frame of 60 bytes of an unused EtherType. -/
def frame60 : List Byte := List.replicate 12 2 ++ [0x88, 0xB7] ++ List.replicate 46 5

theorem test_frames_are_received : let s := port0 Port.empty 0
    let u := nx (exec (.frameReceive 0 (frame60 ++ [0, 0, 0, 0]) .none) s)
    let v := nx (exec (.frameReceive 0 (frame60 ++ fcsOf frame60) .none) s)
    s.portUp 0 = true ∧ fcsOf frame60 ≠ [0, 0, 0, 0] ∧ u.ports = s.ports ∧ u.regsAt (Reg.ETH_CNT_RX_FCS_ERR 0) = 1 ∧
    beAt frame60 12 2 ≠ 0x8808 ∧ (s.fstAt 0 frame60).isNone = true ∧ (v.portsAt 0).unseq = [⟨frame60, s.rxStamp 0, false⟩] ∧
    v.regsAt (Reg.ETH_CNT_RX_FRAMES 0) = 1 := by decide +kernel

theorem test_flow_control :
    let pa := port0 Port.empty (Fld.ETH_CFG_PAUSE_EN.set 0 1)
    let pf := port0 { Port.empty with pfc := 2 } (Fld.ETH_CFG_PFC_EN.set 0 1)
    let on := port0 { Port.empty with paused := true } (Fld.ETH_CFG_PAUSE_EN.set 0 1)
    (pa.actAt (Reg.ETH_CFG 0) |> Fld.ETH_CFG_PFC_EN.get) = 0 ∧ (pa.actAt (Reg.ETH_CFG 0) |> Fld.ETH_CFG_PAUSE_EN.get) = 1 ∧
    (pf.actAt (Reg.ETH_CFG 0) |> Fld.ETH_CFG_PFC_EN.get) = 1 ∧ on.qPaused 0 2 = true ∧ pa.portFec 0 = true ∧ pf.portUp 0 = true ∧ on.portUp 0 = true ∧
    ((nx (exec (.pauseFrameReceive 0 9) pa)).portsAt 0).paused = true ∧
    ((nx (exec (.pauseFrameReceive 0 0x10000) on)).portsAt 0).paused = false ∧
    ((nx (exec (.pfcFrameReceive 0 3 [7, 0]) pf)).portsAt 0).pfc = 1 ∧
    ((nx (exec (.pauseExpire 0 none) on)).portsAt 0).paused = false ∧
    (nx (exec (.pauseStorm 0 2) on)).fld (Reg.ETH_STATUS 0) Fld.ETH_STATUS_PAUSE_STORM = 1 ∧
    (nx (exec (.uncorrectableCodeword 0) pa)).fld (Reg.ETH_STATUS 0) Fld.ETH_STATUS_FEC_UNCORR = 1 := by decide +kernel

theorem test_frames_are_sent :
    let q := { Port.empty with q1 := [⟨[1, 2, 3], none, none, none, none, false, none⟩], txts := [(7, 1), (8, 2)] }
    let s := port0 q 0
    let u := nx (exec (.frameTransmit 0) s)
    let out : List Byte := [1, 2, 3] ++ List.replicate 57 0
    let d := nx (exec (.clientLinkChange 0 false) s)
    s.nextFrame 0 = some (⟨[1, 2, 3], none, none, none, none, false, none⟩, { q with q1 := [] }) ∧ u.outbox = [.frame 0 (out ++ fcsOf out)] ∧
    (port0 { q with q0 := q.q1 } 0).qStopped 0 0 = false ∧ u.regsAt (Reg.ETH_CNT_TX_FRAMES 0) = 1 ∧ s.portAbsent 0 = false ∧
    s.mayAccess .tenik (Reg.ETH_TXTS_POP 0) = true ∧
    ((nx (exec (.txtsPop .tenik 0 0xFF 1) s)).portsAt 0).txts = [(8, 2)] ∧ s.portOn 0 = true ∧
    d.fld (Reg.ETH_STATUS 0) Fld.ETH_STATUS_LINK_UP = 0 ∧ d.fld (Reg.ETH_STATUS 0) Fld.ETH_STATUS_LINK_CHANGE = 1 ∧
    (nx (exec (.clientLinkChange 0 true) d)).fld (Reg.ETH_STATUS 0) Fld.ETH_STATUS_LINK_UP = 1 := by decide +kernel

/-- Stream 0x44 of port 0 and classroom 3. -/
def strm (tx : Bool) (k : StreamState) : Stream := {
  tx := tx, port := 0, classroom := 3, state := k, n := 10, closeSeq := none, held := [], sinceAck := 0, dupAckAt := none
  nakOn := false, endpoint := List.replicate 64 0, start := 10, unacked := [], waiting := [], ackSeq := 10, lastAck := 10
  window := 8, retries := 0, closeSent := false }

/-- A received frame of it. -/
def fst (ty seq len : Nat) (data : List Byte) : FstFrame := {
  port := 0, ver := 1, ty := ty, flags := 0, segLen := data.length, stream := 0x44, seq := seq, segIdx := 0, segCnt := 1
  lenInfo := len, segOff := 0, crc := crc32c data, hdr := [], payload := data, udp := false, udpLen := 0, ts := 5 }

/-- Port 0 with a frame in front of the FST engine, and the stream; pool 2 serves its classroom. -/
def fst0 (f : FstFrame) (x : Stream) : State := but (port0 { Port.empty with rx := [f] } 0) [.streams 0x44 (some x),
  .regs (Reg.BP_POOL_CFG 2) (Fld.BP_POOL_CFG_SIZE.set (Fld.BP_POOL_CFG_COUNT.set 0 4) 2), .act (Reg.BP_POOL_CL 2) 8,
  .act Reg.FST_CFG (Fld.FST_CFG_REASM_POOL.set 0 2), .act Reg.FST_RETX (Fld.FST_RETX_RETX_MAX.set (Fld.FST_RETX_TX_WINDOW.set 0 4) 3)]

/-- What becomes of the stream. -/
def after (c : Instr) (s : State) : Option Stream := (nx (exec c s)).stream 0x44

theorem test_rx_streams :
    let h := fst0 (fst 4 17 0 []) (strm false .openWait)
    let c := fst0 (fst 5 12 0 []) (strm false .open_)
    let d := fst0 (fst 1 11 3 [1, 2, 3]) (strm false .open_)
    let b := fst0 { fst 1 11 3 [1, 2, 3] with crc := 0 } (strm false .open_)
    h.fstOn = true ∧ (h.portsAt 0).rx = [fst 4 17 0 []] ∧ h.stream 0x44 = some (strm false .openWait) ∧
    h.fstReject (fst 4 17 0 []) = none ∧ c.fstReject (fst 5 12 0 []) = none ∧ d.fstReject (fst 1 11 3 [1, 2, 3]) = none ∧
    (after (.fstHelloRxStream 0) h).map (fun x => (x.state, x.n)) = some (.open_, 17) ∧ serBefore 48 12 10 = false ∧
    (after (.fstCloseRxStream 0) c).map (fun x => (x.state, x.closeSeq, x.n)) = some (.closing, some 12, 10) ∧
    segGood (fst 1 11 3 [1, 2, 3]) = true ∧ crc32c [1, 2, 3] ≠ 0 ∧
    (nx (exec (.fstDataReceive 0) b)).regsAt Reg.FST_CNT_RX_CRC_ERR = 1 ∧ seqDist 10 11 < 64 ∧
    (d.poolPick (some 3) (d.inForce Reg.FST_CFG Fld.FST_CFG_REASM_POOL) 131).isSome = true ∧
    (after (.fstDataReceive 0) d).map (fun x => x.held.map fun m => (m.seq, m.msgLen, m.segs)) =
      some [(11, 3, [⟨0, 0, [1, 2, 3]⟩])] ∧ (nx (exec (.fstDataReceive 0) d)).regsAt Reg.FST_CNT_RX_DATA = 1 := by decide +kernel

theorem test_rx_stream_timers :
    let later : RxMsg := ⟨11, 1, 3, 0, [], [⟨0, 0, [1, 2, 3]⟩], false, 0, .complete⟩
    let n := fst0 (fst 4 0 0 []) { strm false .open_ with held := [later], nakOn := true }
    let a := fst0 (fst 4 0 0 []) { strm false .open_ with sinceAck := 2 }
    let c := fst0 (fst 4 0 0 []) { strm false .closing with closeSeq := some 10 }
    let u := nx (exec (.nakRepeat 0x44) n)
    let v := nx (exec (.ackDelayExpire 0x44) a)
    n.fenced (groupOf 0) = false ∧ ({ strm false .open_ with held := [later], nakOn := true } : Stream).nakGap = some 1 ∧
    u.regsAt Reg.FST_CNT_TX_NAK = 1 ∧ (u.portsAt 0).q1.length = 1 ∧ v.regsAt Reg.FST_CNT_TX_ACK = 1 ∧
    (v.stream 0x44).map (·.sinceAck) = some 0 ∧ (v.portsAt 0).q1.length = 1 ∧ after (.rxStreamCloseDone 0x44) c = none := by
  decide +kernel

/-- A message of a TX stream. -/
def tx (seq : Nat) : TxMsg := ⟨seq, ⟨0x20000000, 0, 5, 0x44, 0, 0, 0, 0⟩, false⟩

theorem test_tx_stream_frames :
    let x := { strm true .open_ with n := 13, unacked := [tx 10, tx 11, tx 12] }
    let h := fst0 (fst 4 10 0 []) { strm true .openWait with retries := 2 }
    let c := fst0 (fst 5 10 0 []) (strm true .open_)
    let a := fst0 (fst 2 12 6 []) x
    let n := fst0 (fst 3 11 1 []) x
    let bad := fst0 (fst 3 14 1 []) x
    h.fstReject (fst 4 10 0 []) = none ∧ c.fstReject (fst 5 10 0 []) = none ∧ a.fstReject (fst 2 12 6 []) = none ∧
    n.fstReject (fst 3 11 1 []) = none ∧ bad.fstReject (fst 3 14 1 []) = none ∧
    after (.fstHelloTxStream 0) h = some { strm true .openWait with state := .open_ } ∧ after (.fstCloseTxStream 0) c = none ∧
    serAfter 48 12 13 = false ∧ serAfter 48 12 10 = true ∧
    (after (.fstAckReceive 0) a).map (fun y => (y.lastAck, y.ackSeq, y.window, y.unacked)) = some (12, 12, 6, [tx 12]) ∧
    serBefore 48 11 13 = true ∧ x.unacked.filter (fun m => decide (seqDist 11 m.seq < min 64 1)) = [tx 11] ∧
    (nx (exec (.fstNakReceive 0) n)).regsAt Reg.FST_CNT_TX_RETX = 1 ∧ serBefore 48 14 13 = false ∧
    (nx (exec (.fstNakReceive 0) bad)).regsAt Reg.FST_CNT_RX_HDR_ERR = 1 := by decide +kernel

theorem test_tx_stream_timers :
    let s := fst0 (fst 4 0 0 [])
    let w := s { strm true .open_ with waiting := [tx 0] }
    let r := fun k => s { strm true .open_ with n := 11, unacked := [tx 10], retries := k }
    let o := fun k => s { strm true .openWait with retries := k }
    let c := s { strm true .closing with closeSent := true }
    (s (strm true .open_)).retxMax = 3 ∧ w.txWindow = 4 ∧ serBefore 48 10 (seqAdd 10 8) = true ∧
    (after (.fstTxSend 0x44) w).map (fun y => (y.waiting, y.n, y.unacked)) = some ([], 11, [tx 10]) ∧
    (after (.fstRtoTimeout 0x44) (r 1)).map (·.retries) = some 2 ∧
    (after (.fstRtoTimeout 0x44) (r 3)).map (fun y => (y.state, y.unacked)) = some (.failed, []) ∧
    (nx (exec (.fstRtoTimeout 0x44) (r 3))).fld Reg.FST_STATUS Fld.FST_STATUS_STREAM_FAILED = 1 ∧
    (after (.helloRtoTimeout 0x44) (o 1)).map (·.retries) = some 2 ∧
    (after (.helloRtoTimeout 0x44) (o 2)).map (·.state) = some .failed ∧
    (after (.closeRtoTimeout 0x44) c).map (·.retries) = some 1 := by decide +kernel

/-! ## DRAM, tables and the Directory -/

/-- All eight channels with 8 GiB each, interleaved as `m` says. -/
def dram8 (m : Nat) : State := but svc ([.regs Reg.DDR_ILV (Word.ofNat m)] ++ (List.range 8).map fun n =>
  .regs (Reg.DDR_CFG n) (Fld.DDR_CFG_CAP_LOG2.set (Fld.DDR_CFG_EN.set 0 1) 33))

theorem test_dram_map : ∀ m < 3, 13 ≤ (dram8 m).capLog2 ∧
    (dram8 m).dramLoc 0xA12345678 = [some (5, 0x12345678), some (5, 0x142468678), some (5, 0x848D1678)].getD m none := by
  decide +kernel

/-- A controller with two ranks, its state as given. -/
def ddr0 (d : Ddr) (us : List Upd) : State := but svc (dram0 ++ [
  .regs (Reg.DDR_CFG 0) (Fld.DDR_CFG_RANKS.set (Fld.DDR_CFG_SLOTS.set ((but svc dram0).regsAt (Reg.DDR_CFG 0)) 1) 1),
  .act (Reg.DDR_THERM 0) (Fld.DDR_THERM_SENSOR_EN.set (Fld.DDR_THERM_LIMIT_C.set 0 85) 1), .ddrs 0 d] ++ us)

theorem test_dram_controller :
    let q : DdrReq := ⟨[0x40], false, true, 0, noLine, 9, 0, []⟩
    let g := ddr0 { Ddr.empty with urgentQ := [q] } []
    let o := ddr0 { Ddr.empty with owed := [(1, 3)], openRow := [(0, some 5), (17, some 6)] } []
    let f := ddr0 { Ddr.empty with owed := [(1, 8)], readQ := [⟨[0x20000], false, false, 0, noLine, 9, 0, []⟩] } []
    let u := nx (exec (.dramCommandGrant 0 []) g)
    let v := nx (exec (.refresh 0 1) o)
    let w := nx (exec (.patrolScrub 0 []) o)
    g.ddrReady 0 = true ∧ g.ddrOut 0 = false ∧ g.owed 0 0 = 0 ∧ g.owed 0 1 = 0 ∧ g.grantPick 0 = some q ∧ (u.ddrsAt 0).urgentQ = [] ∧
    (u.ddrsAt 0).openRow = [(0, some 0)] ∧ u.regsAt (Reg.DDR_CNT_URGENT_READS 0) = 1 ∧ o.ddrRuns 0 = true ∧ o.ranks 0 = 2 ∧
    o.panic 0 = false ∧ o.rankBusy 0 1 false = false ∧ (v.ddrsAt 0).owed = [(1, 2)] ∧ (v.ddrsAt 0).openRow = [(0, some 5)] ∧
    v.regsAt (Reg.DDR_CNT_REFRESHES 0) = 1 ∧ ((nx (exec (.refresh 0 1) f)).ddrsAt 0).owed = [(1, 7)] ∧
    ((nx (exec (.zqcs 0 1) o)).ddrsAt 0).openRow = (o.ddrsAt 0).openRow ∧ o.owed 0 1 = 3 ∧
    ((nx (exec (.zqcs 0 1) o)).ddrsAt 0).calibrations = [(1, 1)] ∧ f.owed 0 1 = 8 ∧ f.owed 0 0 = 0 ∧ f.ddrRuns 0 = true ∧
    (nx (exec (.dramCommandGrant 0 []) f)).owed 0 1 = 7 ∧ (nx (exec (.dramCommandGrant 0 []) f)).regsAt (Reg.DDR_CNT_REF_FORCED 0) = 1 ∧ o.inForce (Reg.DDR_SCHED 0) Fld.DDR_SCHED_SCRUB_H ≠ 0 ∧
    o.ddrReady 0 = true ∧ ((partsOf 0 64).all fun x => !o.badAt x) = true ∧ o.dramAddr 0 0 = 0 ∧
    (nx (exec (.patrolScrub 0 [3]) o)).regsAt (Reg.DDR_CNT_CORR 0) = 1 ∧ (w.ddrsAt 0).scrub = 1 ∧
    w.regsAt (Reg.DDR_CNT_SCRUB_LINES 0) = 1 := by decide +kernel

theorem test_dram_sensors_and_rungs :
    let s := ddr0 Ddr.empty [.regs (Reg.DDR_PWR 0) 2]
    let x := ddr0 { Ddr.empty with waking := true, owed := [(0, 2)] } [.regs (Reg.DDR_STATUS 0) 0]
    let x := but x [.regs (Reg.DDR_STATUS 0) (Fld.DDR_STATUS_RUNG_ACT.set 0 2)]
    let t := nx (exec (.dimmSensorRead 0 0 (some 85)) s)
    let u := nx (exec (.ddrRungDescend 0) s)
    let v := nx (exec (.ddrRungExit 0) x)
    s.ddrEn 0 = true ∧ (s.fld (Reg.DDR_CFG 0) Fld.DDR_CFG_SLOTS).testBit 0 = true ∧
    s.inForce (Reg.DDR_THERM 0) Fld.DDR_THERM_SENSOR_EN = 1 ∧ signedOf 8 (s.inForce (Reg.DDR_THERM 0) Fld.DDR_THERM_LIMIT_C) = 85 ∧
    t.fld (Reg.DDR_STATUS 0) Fld.DDR_STATUS_TEMP0 = 85 ∧ t.fld (Reg.DDR_EVENT 0) Fld.DDR_EVENT_OVERTEMP = 1 ∧
    s.fld (Reg.DDR_STATUS 0) Fld.DDR_STATUS_INIT_DONE = 1 ∧ s.inForce (Reg.DDR_SCHED 0) Fld.DDR_SCHED_PD_IDLE ≠ 0 ∧
    s.fld (Reg.DDR_STATUS 0) Fld.DDR_STATUS_RUNG_ACT < s.fld (Reg.DDR_PWR 0) Fld.DDR_PWR_RUNG ∧
    u.fld (Reg.DDR_STATUS 0) Fld.DDR_STATUS_RUNG_ACT = 2 ∧ x.fld (Reg.DDR_STATUS 0) Fld.DDR_STATUS_RUNG_ACT = 2 ∧
    v.fld (Reg.DDR_STATUS 0) Fld.DDR_STATUS_RUNG_ACT = 0 ∧ (v.ddrsAt 0).owed = [] := by decide +kernel

/-- A request of context 7, node 1, for key 9 of table 5, which is not VALID. -/
def look9 : LookupReq := ⟨7, 0, 0, (tok 1 0 0).tag, 5, 9, 0x33, false⟩

theorem test_table_lookups :
    let q := but graph3 [.engines 4 { Engine.empty with queue := [look9] }]
    let s := but graph3 [.engines 4 { Engine.empty with taken := [⟨look9, none, false, false, false⟩] },
      .ctxs 7 { graph3.ctx 7 with reqs := 1 }]
    let l : Lookup := ⟨look9, none, false, false, false⟩
    let u := nx (exec (.tableLookup 4) q)
    let v := nx (exec (.lookupResult 4 0) s)
    q.threadsOn = true ∧ q.fenced (engineUnit 4) = false ∧ (q.enginesAt 4).queue = [look9] ∧
    q.fencing (engineUnit 4) = false ∧ (u.enginesAt 4).taken = [l] ∧ (q.enginesAt 4).taken.countP (·.replay) < 64 ∧
    s.lookupAnswered 4 l = true ∧ s.laterReads l.table 5 9 (l.table.together l.req.urgent) = [] ∧ (s.table 5).valid = false ∧ (s.nodeOf look9.tag).copy = false ∧
    s.lookupFor l = .miss ∧ s.roomFor (s.lookupTokens look9 none none) = true ∧ ((List.range 16).all fun f => s.fuqAt f = []) = true ∧
    (s.ctx 7).cgen = 0 ∧ (v.enginesAt 4).taken = [] ∧ (v.ctx 7).reqs = 0 ∧ v.regsAt (Reg.TE_CNT_NO_TABLE 4) = 1 ∧
    (v.banksAt (homeOf (tok 2 0 0).tag)).inq = [tok 2 0 0x33] := by decide +kernel

/-- The request of a lookup of key 1 of table 4, which the engine has made all its reads for, and whose entry is bad in DRAM. -/
def lostLook : Lookup := ⟨{ look9 with table := 4, key := 1 }, some (tables3.table 4), false, false, true⟩

theorem test_table_lookup_of_a_bad_entry :
    let s := but tables3 [.engines 4 { Engine.empty with taken := [lostLook] }, .ctxs 7 { graph3.ctx 7 with reqs := 1 },
      .bad 0x200000 true]
    s.lookupAnswered 4 lostLook = true ∧ lostLook.made = true ∧ (s.nodeOf lostLook.req.tag).copy = false ∧ (s.ctx 7).cgen = 0 ∧
    (s.ctx 7).state ≠ .free ∧ s.lookupFor lostLook = .unresolved ∧ ((List.range 16).all fun f => s.fuqAt f = []) = true := by
  decide +kernel

theorem test_table_moves_copy :
    let c : PortCmd := ⟨.tenik, 2, 4, tables3.table 4, 9, [], [⟨0x200000, 0x200100⟩], none⟩
    let s := but tables3 [.engines 4 { Engine.empty with ports := [(1, some c)] }]
    let u := nx (exec (.tableMove 4 1) s)
    s.portCmd 4 1 = some c ∧ s.slotsReady [0x200000, 0x200100] = true ∧ (s.enginesAt (s.portEngine c)).taken = [] ∧
    readsGood s c.desc 4 0x200000 = true ∧ canWrite s c.desc 0x200000 = true ∧ canWrite s c.desc 0x200100 = true ∧
    c.desc.mirror = false ∧
    (([0x200000, 0x200100] : List Nat).all fun x => ([0x200000, 0x200100] : List Nat).all fun y =>
      decide (x = y ∨ x + c.desc.esize ≤ y ∨ y + c.desc.esize ≤ x)) = true ∧
    u.bytes 0x200100 32 = s.bytes 0x200000 32 ∧ u.bytes 0x200000 32 = zeros 32 := by decide +kernel

theorem test_table_ports :
    let c : PortCmd := ⟨.tenik, 2, 5, svc.table 5, 9, [], [⟨0x1000, 0x2000⟩], none⟩
    let m := but svc (dram0 ++ [.engines 4 { Engine.empty with ports := [(1, some c)] }])
    let d := but svc (dram0 ++ [.engines 4 { Engine.empty with ports := [(1, some { c with chain := [] })] }])
    let r := but svc (dram0 ++ [.mem 0x1003 7, .engines 4 { Engine.empty with resync := [(0x2000, 0x1000)] }])
    let u := nx (exec (.tableMove 4 1) m)
    let v := nx (exec (.teCmdDone 4 1) d)
    let w := nx (exec (.mirrorResync 4) r)
    m.portCmd 4 1 = some c ∧ m.slotsReady [0x1000, 0x2000] = true ∧ m.portEngine c = 0 ∧ (m.enginesAt 0).taken = [] ∧ ((u.enginesAt 4).ports.get (fun _ => none) 1).map (·.chain) = some [] ∧
    d.answered (108 + d.portEngine c) ((c.desc.slots 5 9).flatMap fun a => linesOf a c.desc.esize) = true ∧ d.chains 0 = [] ∧ d.portFits 4 { c with chain := [] } = false ∧
    (v.enginesAt 4).ports.get (fun _ => none) 1 = none ∧ v.fld (Reg.TE_CMD_RES 4 1) Fld.TE_CMD_RES_STATUS = stBadParam ∧
    r.resyncNext 4 = some (0x2000, 0x1000) ∧ r.dramReady 0x2000 = true ∧ r.dramReady 0x1000 = true ∧ r.chainOn 4 = false ∧
    r.region 0x2000 = .dram ∧ (r.dramChan 0x1000).any r.ddrOut = false ∧ r.rawChan 0x2000 = none ∧ r.lineTakes 0x2000 .engine = true ∧ w.memAt 0x2003 = 7 ∧
    (w.enginesAt 4).resync = [] := by decide +kernel

theorem test_stored_entries : let s := tables3
    let d := s.table 4
    let a := but s (put 0x201070 (arrayEntry (s.table 3) 3 0 [9]))
    let b := but s [.bad 0x200000 true]
    d.kind = kindHash ∧ d.keyLen + 8 ≤ d.esize ∧ d.keyOf 1 = 1 ∧ s.bytes 0x200000 32 = s.hashEntry d 4 1 [7] ∧
    (d.candidates 4 1).head? = some 0x200000 ∧ (d.candidates 4 2).length = 8 ∧
    (linesOf 0x200000 32).all (fun l => !(s.dramChan l).any s.ddrOut && !s.unsynced l) = true ∧
    (partsOf 0x200000 32).all (!s.badAt ·) = true ∧
    ((d.candidates 4 2).all fun x => (s.entryAt d 4 x).any fun f => !(slotValid d f && storedKey d f == 2)) = true ∧
    s.lookup d 4 2 = .miss ∧ b.entryAt d 4 0x200000 = none ∧ b.lookup d 4 1 = .unresolved ∧
    ((d.candidates 4 1).all fun x => (b.entryAt d 4 x).all fun f => !(slotValid d f && storedKey d f == 1)) = true ∧
    (s.table 3).kind ≠ kindHash ∧ 8 ≤ (s.table 3).esize ∧ (s.table 3).outside 8 = true ∧ (s.table 3).outside 7 = false ∧
    (s.table 3).elem 7 = 0x201070 ∧ a.bytes 0x201070 16 = arrayEntry (s.table 3) 3 0 [9] ∧ (partsOf 0x201070 16).all (!a.badAt ·) = true ∧
    (linesOf 0x201070 16).all (fun l => !(a.dramChan l).any a.ddrOut && !a.unsynced l) = true := by decide +kernel

/-- The Directory with one row for classroom 3 in block 0, and profile 0 of the Term over it. -/
def dir3 : State := but graph3 (put 0x1300 [0x80, 0, 1, 0, 0x99, 0, 0, 0] ++ [
  .terms 0 { graph3.termsAt 0 with profileOff := 0x300 }, .ctxs 7 { graph3.ctx 7 with reqs := 1 },
  .act (Reg.DIR_PART 3) (Fld.DIR_PART_ROWS.set (Fld.DIR_PART_BLOCKS.set 0 1) 16),
  .dirRows 2 ⟨0x55, 0xFF, 7, true, 0xABC⟩, .dirShadow 0 ⟨1, 1, 1, true, 1⟩, .act Reg.DIR_CFG (Fld.DIR_CFG_SCRUB_EN.set 0 1)])

/-- A search for a key. -/
def seek (key : Nat) (u : Bool) : SearchReq := ⟨7, 0, 0, (tok 1 0 0).tag, 0, key, u⟩

theorem test_directory :
    let s := but dir3 [.dir ⟨[seek 0x55 false], []⟩]
    let m := but dir3 [.dir ⟨[seek 0x54 false], []⟩]
    let t := but dir3 [.dir ⟨[seek 0x54 false], [seek 0x55 true]⟩]
    let u := nx (exec .dirSearch s)
    let v := nx (exec .dirSearch m)
    let w := nx (exec (.scrubVisit .good false) dir3)
    s.threadsOn = true ∧ (s.ctx 7).inDram = false ∧ (s.profile 0 0).width = 0 ∧ s.noPart 3 (s.profile 0 0) = false ∧
    s.dirWinner 3 (s.profile 0 0) 0x55 = some 2 ∧ m.dirWinner 3 (m.profile 0 0) 0x54 = none ∧ (s.ctx 7).cgen = 0 ∧
    (u.ctx 7).reqs = 0 ∧ u.regsAt Reg.DIR_CNT_HITS = 1 ∧ u.regsAt Reg.DIR_CNT_SEARCHES = 1 ∧
    (u.banksAt (homeOf (tok 2 0 0).tag)).inq = [tok 2 0 0x7000200000ABC] ∧ v.regsAt Reg.DIR_CNT_HITS = 0 ∧
    (v.banksAt (homeOf (tok 2 0 0).tag)).inq.map (·.value) = [0x99] ∧ (nx (exec .dirSearch t)).dir.queue = [seek 0x54 false] ∧
    dir3.inForce Reg.DIR_CFG Fld.DIR_CFG_SCRUB_EN = 1 ∧ dir3.entryOf 0 = [0] ∧ w.dirRowsAt 0 = ⟨1, 1, 1, true, 1⟩ ∧ modeStage ≤ dir3.mode ∧
    (nx (exec (.scrubVisit .uncorrectable false) dir3)).dirShadowAt 0 = DirRow.zero ∧ ((List.range 16).all fun f => s.fuqAt f = []) = true ∧
    w.fld Reg.DIR_STATUS Fld.DIR_STATUS_SCRUB_IDX = 1 := by decide +kernel

/-! ## The ring -/

/-- Device 5 has joined; both links are in service, the east link in the given state. -/
def ring5 (k : RingLink) : State := but graph3 [.boot { svc.boot with tenikDown := false, perst := false },
  .regs (Reg.CL_BIND 3) (Fld.CL_BIND_STATE.set 0 2),
  .regs Reg.RB_STATUS (Fld.RB_STATUS_JOINED.set 0 1),
  .act Reg.RB_CFG (Fld.RB_CFG_ETHERTYPE.set (Fld.RB_CFG_RACC_EN.set (Fld.RB_CFG_EAST_EN.set (Fld.RB_CFG_WEST_EN.set 5 1) 1) 1) 0x88B6),
  .regs Reg.RB_MLOG_SIZE 16, .act Reg.RB_LINK (Fld.RB_LINK_RETRY_MAX.set 0 3),
  .ringLinks 0 k, .ringLinks 1 { RingLink.empty with up := true, current := true }]

/-- A link that is up, its peer's heartbeats current. -/
def lk : RingLink := { RingLink.empty with up := true, current := true }

/-- A frame to device `d` with a LSEQ and records. -/
def fr (d q : Nat) (rs : List RingRec) : RingFrame := ⟨false, false, false, false, false, 9, d, 4, q, 0, 0, rs, false, []⟩

theorem test_ring_frames :
    let s := ring5 { lk with e := 7 }
    let w := fun (f : RingFrame) (good : Bool) => let b := s.ringBytes f; b ++ (if good then fcsOf b else [0, 0, 0, 0])
    let f := fr 5 7 [⟨recTerm, false, [1, 2, 3, 4]⟩]
    let b := s.ringBytes f
    let u := nx (exec (.ringFrameReceive 0 (w f true) false) s)
    let v := nx (exec (.ringFrameReceive 0 (w f false) false) s)
    let x := nx (exec (.ringFrameReceive 0 (w (fr 5 9 []) true) false) s)
    let y := nx (exec (.ringFrameReceive 0 (w (fr 6 7 []) true) false) s)
    let z := nx (exec (.ringFrameReceive 0 (w (fr 6 7 []) false) false) s)
    let cast := fun (src : Nat) => { fr 0 7 [] with bcast := true, src := src }
    let c := nx (exec (.ringFrameReceive 0 (w (cast 9) false) false) s)
    let o := nx (exec (.ringFrameReceive 0 (w (cast 5) false) false) s)
    let of := fun (g : RingFrame) => (RingFrame.ofBytes (s.ringBytes g)).1
    (of (fr 6 7 [])).lseq = 7 ∧ (of (fr 6 7 [])).hops = 4 ∧ (of (cast 9)).bcast = true ∧ s.freshBroadcast (of (cast 9)) = true ∧
    s.freshBroadcast (of (cast 5)) = false ∧ o.ringLinks = s.ringLinks ∧ o.regsAt Reg.RB_CNT_RX_BAD = 1 ∧
    [z, c].map (fun u => ((u.ringLinksAt 1).fwd.map fun g => (g.bad, g.hops), (u.ringLinksAt 0).e, u.regsAt Reg.RB_CNT_RX_BAD,
      u.regsAt Reg.RB_CNT_FORWARDED)) = [([(true, 3)], 7, 1, 1), ([(true, 3)], 7, 1, 1)] ∧
    s.ringRuns 0 = true ∧ (w f true).length = 64 ∧ beAt b 12 2 = 0x88B6 ∧ s.inForce Reg.RB_CFG Fld.RB_CFG_ETHERTYPE = 0x88B6 ∧
    beAt b 14 1 / 16 = 1 ∧ { (RingFrame.ofBytes b).1 with raw := [] } = f ∧ s.deviceId = 5 ∧ fcsOf b ≠ [0, 0, 0, 0] ∧
    (u.ringLinksAt 0).e = 8 ∧ (u.ringLinksAt 0).ackDue = true ∧ (u.ringLinksAt 0).rx = [⟨9, false, recTerm, false, [1, 2, 3, 4]⟩] ∧
    v.ringLinks = s.ringLinks ∧ v.regsAt Reg.RB_CNT_RX_BAD = 1 ∧ serAfter 32 9 7 = true ∧ (x.ringLinksAt 0).nakDue = true ∧
    s.ringUp 1 = true ∧ (y.ringLinksAt 1).fwd.map (fun g => (g.dst, g.hops)) = [(6, 3)] ∧ y.regsAt Reg.RB_CNT_FORWARDED = 1 := by
  decide +kernel

theorem test_ring_links :
    let h := ring5 { lk with hbDue := true, ackDue := true }
    let r := ring5 { lk with retx := [fr 6 1 []], held := [fr 6 1 []] }
    let d := ring5 { lk with tx := 4, e := 6 }
    let p := ring5 { lk with tx := 4, fwd := [fr 6 1 []], retx := [fr 6 1 []], held := [fr 6 1 []] }
    let q := nx (exec (.ringFrameTransmit 0) p)
    let c := ring5 { lk with rx := [⟨9, true, recHeartbeat, false, [5, 0, 0, 0, 0, 0, 0, 0]⟩] }
    let u := nx (exec (.ringFrameTransmit 0) h)
    let v := nx (exec (.ringFrameTransmit 0) r)
    let w := nx (exec (.ringRetxTimeout 0) r)
    let x := nx (exec (.linkBroken 0) d)
    let y := nx (exec (.ringLinkChange 0 false) d)
    let z := nx (exec (.heartbeatReceive 0) c)
    h.ringRuns 0 = true ∧ r.ringRuns 0 = true ∧ d.tenikUp = true ∧ c.deviceId = 5 ∧
    p.ringUp 0 = true ∧ p.fld Reg.RB_STATUS ⟨4, 4⟩ = 0 ∧ (p.ringLinksAt 0).midRecord = false ∧
    ((q.ringLinksAt 0).fwd, (q.ringLinksAt 0).retx, (q.ringLinksAt 0).tx) = ([], [fr 6 1 []], 5) ∧
    u.ringLinksAt 0 = lk ∧ u.outbox.length = 1 ∧ u.regsAt Reg.RB_CNT_TX_FRAMES = 1 ∧ r.mode ≠ modeSafe ∧
    (v.ringLinksAt 0).retx = [] ∧ v.regsAt Reg.RB_CNT_RETRANSMITTED = 1 ∧ ((nx (exec (.heartbeatSend 0) d)).ringLinksAt 0).hbDue = true ∧
    (r.ringLinksAt 0).retries < max 1 (r.inForce Reg.RB_LINK Fld.RB_LINK_RETRY_MAX) ∧ (w.ringLinksAt 0).retx = [fr 6 1 []] ∧
    (x.ringLinksAt 0).current = false ∧ x.fld (Reg.RB_EVENT 0) Fld.RB_EVENT_BROKEN = 1 ∧
    ((y.ringLinksAt 0).up, (y.ringLinksAt 0).tx, (y.ringLinksAt 0).e) = (false, 0, 0) ∧
    (z.ringLinksAt 0).peer = some 5 ∧ (z.ringLinksAt 0).conflict = true ∧ z.fld (Reg.RB_EVENT 0) Fld.RB_EVENT_ID_CONFLICT = 1 := by
  decide +kernel

theorem test_ring_records :
    let t := { tok 0 0 0x44 with emitted := true }
    let body := leBytes 8 0x44 ++ leBytes 6 t.tag ++ [0, 0]
    let k := ring5 { lk with rx := [⟨9, false, recToken, false, body⟩] }
    let dead := ring5 { lk with rx := [⟨9, false, recToken, false, leBytes 8 0x44 ++ leBytes 6 (tagOf 3 8 0 0) ++ [0, 0]⟩] }
    let m := ring5 { lk with rx := [⟨9, false, recTerm, false, [2, 0, 0x34, 0x12]⟩] }
    let l := ring5 { lk with rx := [⟨9, false, recMirror, false, List.replicate 60 1⟩] }
    let full := but l [.regs Reg.RB_MLOG_SIZE 0]
    let a := but (ring5 lk) [.act Reg.RB_CFG (Fld.RB_CFG_MLOG_CONS.set ((ring5 lk).actAt Reg.RB_CFG) 1),
      .ring { (ring5 lk).ring with mlog := [(0, 2), (2, 1)] }]
    let u := nx (exec (.remoteTokenReceive 0) k)
    let v := nx (exec (.remoteTokenReceive 0) dead)
    let w := nx (exec (.termRecordReceive 0) m)
    let x := nx (exec (.mirrorRecordReceive 0) full)
    k.tokenAccepted t = true ∧ k.roomFor [t] = true ∧ (u.banksAt (homeOf t.tag)).inq = [t] ∧ u.regsAt Reg.RB_CNT_TOKENS_RX = 1 ∧
    dead.tokenAccepted { t with tag := tagOf 3 8 0 0 } = false ∧ v.regsAt Reg.RC_CNT_EMIT_DEAD = 1 ∧
    w.fld Reg.RB_TERM_LAST Fld.RB_TERM_LAST_SLOT = 2 ∧ w.fld Reg.RB_TERM_LAST Fld.RB_TERM_LAST_EPOCH = 0x1234 ∧
    w.fld Reg.RB_TERM_LAST Fld.RB_TERM_LAST_SOURCE = 9 ∧ l.mlogPlace 2 = some 0 ∧
    (nx (exec (.mirrorRecordReceive 0) l)).ring.mlog = [(0, 2)] ∧ full.mlogPlace 2 = none ∧
    full.inForce Reg.RB_CFG Fld.RB_CFG_MLOG_DROP = 0 ∧ x.ringLinks = full.ringLinks ∧
    x.fld (Reg.RB_EVENT 0) Fld.RB_EVENT_MLOG_FULL = 1 ∧ a.tenikUp = true ∧ a.inForce Reg.RB_CFG Fld.RB_CFG_MLOG_CONS = 1 ∧
    (nx (exec .mirrorLogApply a)).ring.mlog = [(2, 1)] := by decide +kernel

/-- Thread 9 of a ring member waits for the load of G7 it has sent as access 2, or runs. -/
def remote9 (k : RingLink) (waits : Bool) : State := but (ring5 k) [.threads 9 { p0 with
    state := if waits then .waiting else .running
    wait := if waits then .load 7 0x050018000008 8 else .none },
  .ring { (ring5 k).ring with racc := 3, remotes := if waits then [⟨2, 9, 6, 8, 8, none, true⟩] else [] }]

theorem test_remote_accesses :
    let s := remote9 lk false
    let w := remote9 lk true
    let u := nx (exec (.remoteWindowAccess 9 7 6 8 8 none) s)
    let t := nx (exec (.raccTimeout 9) w)
    let b := but s [.ring { s.ring with remotes := [⟨2, 9, 6, 8, 8, some 1, true⟩] }]
    let v := nx (exec (.remoteWindowAccess 9 7 6 8 8 none) b)
    s.canIssue 9 = true ∧ s.deviceId ≠ 6 ∧ s.reachable 6 = true ∧ (u.thread 9).wait = .load 7 0x050018000008 8 ∧
    (b.ring.remotes.any fun m => m.thread == 9 && m.dev == 6) = true ∧ b.canIssue 9 = true ∧ (v.thread 9).state = .waiting ∧
    v.ring.remotes.map (fun m => (m.tag, m.sent)) = [(2, true), (3, false)] ∧ v.ringLinks = b.ringLinks ∧
    s.ringRoute 6 = some (0, false) ∧ ((u.ringLinksAt 0).other.map fun f => f.dst) = [6] ∧
    u.ring.remotes = [⟨3, 9, 6, 8, 8, none, true⟩] ∧ (w.thread 9).waiting = true ∧ w.region 0x050018000008 = .remote ∧
    (w.ring.remotes.any fun y => y.thread = 9 && y.write.isNone && decide (2 < y.tag)) = false ∧ t.ring.remotes = [] ∧
    t.regsAt Reg.RB_CNT_RACC_FAIL = 1 ∧ (t.thread 9).pc = 4 ∧
    ((List.range 2).all fun i => Fld.CORE_WATCH_THREADS.get (s.reg (Reg.CORE_WATCH 0 1 i)) = 0) = true := by decide +kernel

/-- The answer to that access. -/
def answer9 : RingIn := ⟨6, false, recRaccRsp, false, raccRsp 2 0x77⟩

theorem test_remote_answer : let s := remote9 { lk with rx := [answer9] } true
    (s.ringLinksAt 0).rx.find? (fun r => r.ty != recHeartbeat) = some answer9 ∧ raccRspOf answer9.body = (2, 0x77) ∧
    s.ring.remotes.find? (fun m => m.tag = 2 && m.dev = answer9.src) = some ⟨2, 9, 6, 8, 8, none, true⟩ ∧ s.ring.remotes.filter (·.tag != 2) = [] ∧
    (s.thread 9).wait = .load 7 0x050018000008 8 ∧ s.region 0x050018000008 = .remote := by
  refine ⟨rfl, raccRspOf_raccRsp 2 0x77, ?_, ?_, ?_, ?_⟩ <;> decide +kernel

/-- The same while a store of the thread waits behind the load. -/
theorem test_remote_answer_lets_the_next_leave :
    let s := remote9 { lk with rx := [answer9] } true
    let y : Remote := ⟨3, 9, 6, 16, 8, some 1, false⟩
    let b := but s [.ring { s.ring with remotes := s.ring.remotes ++ [y] }]
    b.ring.remotes.find? (fun m => m.tag = 2 && m.dev = answer9.src) = some ⟨2, 9, 6, 8, 8, none, true⟩ ∧
    (b.ring.remotes.any fun y => y.thread = 9 && y.write.isNone && decide (2 < y.tag)) = false ∧
    (b.ring.remotes.filter (·.tag != 2)).find? (fun y => y.thread = 9 && y.dev = 6) = some y ∧ b.reachable 6 = true := by
  decide +kernel

/-- Device 6's request to read a register. -/
def ask6 : RingIn := ⟨6, false, recRaccReq, false, raccReq 2 9 0x80000 8 none⟩

theorem test_remote_request : let s := remote9 { lk with rx := [ask6] } false
    let got := spaceRead (.remote 9 6) 0x80000 8 (dropRec 0 ask6 s).2
    (s.ringLinksAt 0).rx.find? (fun r => r.ty != recHeartbeat) = some ask6 ∧ raccReqOf ask6.body = (2, 9, 0x80000, 8, none) ∧
    s.mayAccess (.remote 9 6) 0x80000 = true ∧ got.2.ringRoute 6 = some (0, false) ∧ got.2.ring.mute = false := by
  refine ⟨rfl, raccReqOf_raccReq 2 9 0x80000 8 none, ?_, ?_, ?_⟩ <;> decide +kernel

/-! ## Reset, power, pins -/

theorem test_perst :
    let v := nx (exec (.perstDeassert 2 3 false false false) State.reset)
    let w := nx (exec .perstAssert (but core1 [.tap { TapState.zero with busy := true }]))
    State.reset.boot.perst = true ∧ v.fld Reg.CLK_STATUS Fld.CLK_STATUS_ROOT_LOCK = 1 ∧ v.fld Reg.DEV_ID Fld.DEV_ID_FUSE_ERR = 1 ∧ v.mode = State.reset.mode ∧
    (nx (exec (.perstDeassert 2 3 true true true) State.reset)).regs = [] ∧ w.threads = [] ∧ w.mode = State.reset.mode := by
  decide +kernel

/-- A device in SERVICE after PERST#, with WARN_C 90 and TRIP_C 100. -/
def live : State := but svc [.boot { svc.boot with
    tenikDown := false
    perst := false
    warnArmed := true
    straps := ⟨0, 2, false, false⟩ },
  .regs Reg.PWR_THERM (Fld.PWR_THERM_TRIP_C.set (Fld.PWR_THERM_WARN_C.set 0 90) 100),
  .regs Reg.CLK_STATUS (Fld.CLK_STATUS_ROOT_LOCK.set 0 1)]

theorem test_street_rungs :
    let s := but live [.regs (Reg.PWR_ST 2) 2]
    let d := nx (exec (.streetRungDescend 2) s)
    s.streetIdle 2 = true ∧ s.fenced ⟨.street, 2⟩ = false ∧ s.streetRung 2 = 2 ∧
    s.fld (Reg.ST_STATUS 2) Fld.ST_STATUS_RUNG_ACT = 0 ∧ d.fld (Reg.ST_STATUS 2) Fld.ST_STATUS_RUNG_ACT = 2 ∧
    d.boot.tripHold = false ∧ (nx (exec (.streetRungExit 2) d)).fld (Reg.ST_STATUS 2) Fld.ST_STATUS_RUNG_ACT = 0 := by
  decide +kernel

theorem test_fenced_street_descends :
    let s := but live [.regs (Reg.PWR_ST 2) 3, .regs Reg.DEV_FENCE_MISC 4]
    s.fenced ⟨.street, 2⟩ = true ∧ s.streetRung 2 = 3 ∧
    (nx (exec (.streetRungDescend 2) s)).fld (Reg.ST_STATUS 2) Fld.ST_STATUS_RUNG_ACT = 3 := by decide +kernel

theorem test_thermal_sensors :
    let off := but live [.boot { live.boot with warnArmed := false }]
    let t := nx (exec (.thermTrip 101 5) live)
    let held := but t [.boot { t.boot with leftSafe := true }]
    let u := nx (exec (.thermWarn 90 5) live)
    let v := nx (exec (.junctionReadingFall 85 5) held)
    let hot := nx (exec (.thermTrip 155 5) live)
    hot.junction = 155 ∧ hot.fld Reg.PWR_TEMP Fld.PWR_TEMP_MAX_C = 155 ∧
    live.boot.perst = false ∧ live.warnC = 90 ∧ live.tripC = 100 ∧ u.fc.queue = [⟨156, clsC, 0x0C, none, 0⟩] ∧ u.junction = 90 ∧
    u.boot.warnArmed = false ∧ (nx (exec (.thermWarn 90 5) off)).fc = off.fc ∧
    t.fc.queue = [⟨156, clsF, 0x0D, none, 0⟩] ∧ t.boot.tripHold = true ∧ t.fld (Reg.ST_STATUS 11) Fld.ST_STATUS_RUNG_ACT = 3 ∧
    held.boot.perst = false ∧ held.warnC = 90 ∧ v.boot.warnArmed = true ∧ v.boot.tripHold = false ∧ v.junction = 85 ∧
    v.fld (Reg.ST_STATUS 11) Fld.ST_STATUS_RUNG_ACT = 0 := by decide +kernel

theorem test_supply_clock_and_link :
    let u := nx (exec (.pcieLinkChange 3 8) live)
    let err := but live [.regs Reg.FC_ERR 1]
    ([SupplyLevel.high, .low, .dip, .back].map fun l => let u := nx (exec (.supply l) err)
      (u.fc.queue.length, u.boot.supplyLow, u.errN)) = [(1, false, true), (1, true, false), (0, true, false), (0, false, true)] ∧
    live.boot.perst = false ∧ (nx (exec (.supply .low) live)).fc.queue = [⟨156, clsF, 0x0E, none, 0⟩] ∧
    live.fld Reg.CLK_STATUS Fld.CLK_STATUS_ROOT_LOCK = 1 ∧ (nx (exec .rootPllLockLoss live)).fld Reg.CLK_STATUS Fld.CLK_STATUS_ROOT_LOCK = 0 ∧
    live.fld Reg.HI_STATUS Fld.HI_STATUS_LINK_SPEED ≠ 3 ∧ 8 ≤ live.boot.straps.width ∧
    u.fld Reg.HI_STATUS Fld.HI_STATUS_LINK_SPEED = 3 ∧
    u.fld Reg.HI_STATUS Fld.HI_STATUS_LINK_WIDTH = 8 ∧ u.fld Reg.HI_EVENT Fld.HI_EVENT_LINK_CHANGE = 1 := by decide +kernel

theorem test_timebase :
    let t := fun (a b : Option Word) => but live [.tb ⟨2 ^ 96 - 2 ^ 32, 5, a, b⟩, .regs Reg.TB_RATE 0xFFFFFFFF]
    let n := fun (a b : Option Word) => (nx (exec .timebaseTick (t a b))).tb
    (t none none).fld Reg.CLK_STATUS Fld.CLK_STATUS_ROOT_LOCK = 1 ∧ n none none = ⟨3 * 2 ^ 32 - 4, 4 * 2 ^ 32 + 1, none, none⟩ ∧
    (n (some 77) none).time / 2 ^ 32 = 77 ∧ (n none (some 10)).time = 13 * 2 ^ 32 - 4 ∧
    live.mayAccess .tenik Reg.TB_SET = true ∧ live.mayAccess .tenik Reg.TB_STEP = true ∧
    (nx (exec (.tbSet .tenik 0xFF 9) live)).tb.set = some 9 ∧ (nx (exec (.tbStep .tenik 0xFF 9) live)).tb.step = some 9 := by
  decide +kernel

theorem test_boundary_scan :
    let pins : List Pin := [.errN, .ddr 3 (.cke 1)]
    let u := nx (exec (.samplePreload pins) live)
    let v := nx (exec (.extest pins) State.reset)
    let w := nx (exec (.extest pins) live)
    0xAB ∉ [0x00, 0x01, 0x02, 0x03, 0x04, 0x20] ∧ (nx (exec (.bypass 0xAB) live)).tap.ir = 0xAB ∧
    (u.tap.ir, u.tap.boundary, u.outbox.length) = (2, pins, 1) ∧ State.reset.boot.perst = true ∧ (v.tap.ir, v.tap.boundary) = (0, pins) ∧
    cellDrives .errN = true ∧ v.drive .errN = .high ∧ v.drive (.ddr 3 (.cke 0)) = .low ∧ live.boot.perst = false ∧
    w.outbox = [] ∧ w.tap.boundary = [] := by decide +kernel

theorem test_regacc :
    let b := but live [.tap { TapState.zero with data := 0x1122, busy := true }]
    let f := but live [.tap { TapState.zero with data := 0x1122, done := true, ignored := true }]
    let x := but live [.boot { live.boot with straps := ⟨0, 2, true, false⟩ }]
    let go := fun (s : State) (off : Nat) (wr : Bool) => (nx (exec (.regacc off wr false 0 0x55) s)).tap
    x.boot.straps.tap = true ∧ live.boot.straps.tap = false ∧ (go x 8 false).ir = 0x20 ∧ (go b 8 false).ignored = true ∧
    (go f 9 false).busy = false ∧ (go f 9 false).done = false ∧ (go f 16 true).access = some (16, some 0x55, false) ∧
    (go f 16 true).ignored = false ∧
    ((nx (exec (.regacc 16 false false 0 0) f)).outbox.map fun o => match o with | .readData d _ => d.drop 4 | _ => []) =
      [[0x22, 0x11, 0, 0, 0, 0, 0, 0]] := by decide +kernel

theorem test_regacc_access :
    let r := but live [.tap { TapState.zero with busy := true, access := some (Reg.DEV_MODE, none, false) }]
    let w := but live [.tap { TapState.zero with busy := true, access := some (Reg.TB_RATE, some 6, false) }]
    let u := nx (exec .regaccAccessDone r)
    let v := nx (exec .regaccAccessDone w)
    let off := coreReg Reg.CORE_CFG 16
    let l := but live [.regs (Reg.ST_STATUS 2) (Fld.ST_STATUS_RUNG_ACT.set 0 2),
      .tap { TapState.zero with busy := true, access := some (off, none, false) }]
    let x := nx (exec .regaccAccessDone l)
    off % 8 = 0 ∧ dbgDataCore off = none ∧ l.mayAccess .debug off = true ∧ off / 0x100000 = 5 ∧ l.boot.tripHold = false ∧
    l.fenced ⟨.street, 2⟩ = false ∧ x.fld (Reg.ST_STATUS 2) Fld.ST_STATUS_RUNG_ACT = 0 ∧ x.tap.done = true ∧
    Reg.DEV_MODE < 0x300000 ∧ Reg.DEV_MODE % 8 = 0 ∧ dbgDataCore Reg.DEV_MODE = none ∧ u.tap.done = true ∧ u.tap.busy = false ∧
    u.tap.data = r.regReadBy .debug Reg.DEV_MODE ∧ v.tap.done = true ∧ v.fld Reg.TB_RATE Fld.TB_RATE_RATE = 6 := by decide +kernel

theorem test_sideband :
    let d := but live [.regs (Reg.DDR_CFG 0) (Fld.DDR_CFG_SLOTS.set (Fld.DDR_CFG_EN.set 0 1) 3),
      .ddrs 0 { Ddr.empty with seen := [0, 1] },
      .regs (Reg.DDR_STATUS 0) (Fld.DDR_STATUS_TEMP1.set (Fld.DDR_STATUS_TEMP0.set 0 40) 55), .regs Reg.FC_ERR 1]
    live.dimmReadings = [] ∧ d.dimmReadings = [40, 55] ∧ (nx (exec (.sbDimmTemp (.read false)) d)).outbox = [.sideband (some 55)] ∧
    (nx (exec (.sbDimmTemp (.read false)) live)).outbox = [.sideband (some 0x80)] ∧
    (nx (exec (.sbPart (.read true) none) live)).outbox =
      [.sidebandPec (crc8 [0xBC, 0x00, 0xBD, 0x40, 0x96]), .sideband (some 0x9640)] ∧
    (nx (exec (.sbMode (.write [])) live)).outbox = [.sidebandAck] ∧
    (nx (exec (.sbRevision (.write [1, 2])) live)).outbox = [.sideband none, .sidebandAck] ∧
    (nx (exec (.sbPart (.read false) (some 6)) live)).outbox = [.sideband none] ∧ live.errN = false ∧ live.junction < (live.warnC : Int) ∧
    d.errN = true ∧ (nx (exec .sbAlertResponse d)).outbox = [.alert 0x5E] ∧ (nx (exec .sbAlertResponse live)) = live := by
  decide +kernel

/-! ## Registers and commit groups -/

theorem test_commit_groups :
    let s := but live [.regs (Reg.ETH_CFG 0) 5, .act (Reg.ETH_CFG 0) 4]
    let u := nx (exec (.commitGo .tenik (Reg.ETH_COMMIT 0) 0xFF (Word.ofNat (2 ^ 0))) s)
    let v := nx (exec (.commitSafePoint (.ethN 0)) u)
    (Grp.ethN 0).exists = true ∧ (Grp.ethN 0).place = some (Reg.ETH_COMMIT 0, 0, 32) ∧
    s.mayAccess .tenik (Reg.ETH_COMMIT 0) = true ∧ s.populated (Reg.ETH_COMMIT 0) = true ∧ Reg.ETH_CFG 0 ∈ grpOffsets (.ethN 0) ∧
    u.grpDone (.ethN 0) = false ∧ u.pendcAt (Reg.ETH_CFG 0) = 5 ∧ u.safePoint (.ethN 0) = true ∧ v.grpDone (.ethN 0) = true ∧
    v.actAt (Reg.ETH_CFG 0) &&& shadowed (Reg.ETH_CFG 0) = 5 &&& shadowed (Reg.ETH_CFG 0) := by decide +kernel

theorem test_register_writes :
    let off := Reg.ETH_CFG 0
    let u := nx (exec (.registerWrite (.host none) off 0x0F 0x1) live)
    let h := nx (exec (.registerWrite (.host none) off 0x11 0x1) live)
    live.mayAccess (.host (some 4)) off = false ∧ nx (exec (.registerWrite (.host (some 4)) off 0xFF 1) live) = live ∧
    live.mayAccess (.host none) off = true ∧ laneOk 0x11 = false ∧ h.regsAt Reg.HI_CNT_BAD_SIZE = 1 ∧
    laneOk 0x0F = true ∧ inMsix off = false ∧ live.populated 0x40 = false ∧ live.mayAccess (.host none) 0x40 = true ∧
    live.populated off = true ∧ (actWrites.find? (fun a => a.1 == Reg.ETH_CFG 0)).isNone = true ∧ isCommitReg off = false ∧
    ((regRow? off).map fun r => (r.1.base == off, u.regsAt off == r.1.merge false (live.regsAt off) 1 0x0F)) = some (true, true) ∧
    Reg.ETH_CFG 0 ≠ Reg.ST_STATUS 0 := by decide +kernel

theorem test_fault_log_head_and_street_registers :
    let s := but live [.regs Reg.FC_LOG (Fld.FC_LOG_SIZE_LOG2.set 0 10)]
    let u := nx (exec (.registerWrite .tenik Reg.FC_LOG_PTR 0xFF (Fld.FC_LOG_PTR_HEAD.set 0 1030)) s)
    let off := coreReg Reg.CORE_CFG 16
    let l := but live [.regs (Reg.ST_STATUS 2) (Fld.ST_STATUS_RUNG_ACT.set 0 2)]
    let v := nx (exec (.registerWrite .tenik off 0xFF 0) l)
    s.mayAccess .tenik Reg.FC_LOG_PTR = true ∧ s.populated Reg.FC_LOG_PTR = true ∧ s.faultLog2 = 10 ∧
    ((regRow? Reg.FC_LOG_PTR).map fun r => r.1.base == Reg.FC_LOG_PTR && (actWrites.find? (fun a => a.1 == r.1.base)).isNone) = some true ∧
    isCommitReg Reg.FC_LOG_PTR = false ∧ u.fld Reg.FC_LOG_PTR Fld.FC_LOG_PTR_HEAD = 6 ∧
    l.mayAccess .tenik off = true ∧ l.populated off = true ∧ isCommitReg off = false ∧ inMsix off = false ∧
    ((regRow? off).map fun r => r.1.base == Reg.CORE_CFG 0 0 && (actWrites.find? (fun a => a.1 == r.1.base)).isNone) = some true ∧
    off / 0x100000 = 5 ∧ l.boot.tripHold = false ∧ l.fenced ⟨.street, 2⟩ = false ∧
    v.fld (Reg.ST_STATUS 2) Fld.ST_STATUS_RUNG_ACT = 0 := by decide +kernel

/-- A register with a field of each type, with a bit of it. -/
def ofType : List (Nat × Nat × FieldType) := [(Reg.ETH_PTP 0, 0, .rwl), (Reg.ETH_CFG 0, 1, .rws), (Reg.RC_SPILL_SIZE, 3, .rwf),
  (Reg.ETH_STATUS 0, 17, .w1c), (Reg.ETH_STATUS 0, 0, .ro), (Reg.ETH_COMMIT 0, 1, .wo)]

theorem test_field_types :
    (ofType.all fun x => (regRow? x.1).any fun r => r.1.fields.any fun f =>
      f.ty == x.2.2 && decide (f.fld.lo ≤ x.2.1 ∧ x.2.1 ≤ f.fld.hi)) = true ∧
    (ofType.map fun x => (regRow? x.1).map fun r => [(false, 0), (true, 1), (false, 1)].map fun y =>
      (r.1.merge false (if y.1 then 0xFFFFFFFFFFFFFFFF else 0) (if y.2 = 1 then 0xFFFFFFFFFFFFFFFF else 0) 0xFF).getLsbD x.2.1) =
      [some [false, true, true], some [false, true, true], some [false, true, false], some [false, false, false],
        some [false, true, false], some [false, true, false]] ∧
    (laneMask 0x0F).getLsbD 40 = false ∧ (laneMask 0x0F).getLsbD 17 = true ∧
    ((regRow? (Reg.ETH_STATUS 0)).any fun r => r.1.fields.all fun f => !decide (f.fld.lo ≤ 63 ∧ 63 ≤ f.fld.hi)) = true := by
  decide +kernel

theorem test_load_window_and_table_ports :
    let s := but live [.regs Reg.DEV_MODE 1]
    let v : Word := Fld.HI_LOAD_CTL_LEN.set (Fld.HI_LOAD_CTL_GO.set 0 1) 64
    let u := nx (exec (.loadGo (.host none) 0xFF v) s)
    let p := nx (exec (.teCmdInsert .tenik 3 1 5) live)
    let q := nx (exec (.teCmdRemove .tenik 3 1 5) p)
    let w := nx (exec (.registerWrite (.host none) 0x2000008 0xFF 0x1122) s)
    s.boot.perst = false ∧ w.mem = [(squareBase + 8, 0x22), (squareBase + 9, 0x11)] ∧
    s.mode = modeLoad ∧ s.mayAccess (.host none) Reg.HI_LOAD_CTL = true ∧ Fld.HI_LOAD_CTL_GO.get v = 1 ∧
    s.fld Reg.HI_LOAD_STATUS Fld.HI_LOAD_STATUS_STATE ≠ 1 ∧ u.fld Reg.HI_LOAD_STATUS Fld.HI_LOAD_STATUS_STATE = 1 ∧
    u.fld Reg.HI_LOAD_CTL Fld.HI_LOAD_CTL_LEN = 64 ∧ live.mayAccess .tenik (Reg.TE_CMD 3 1) = true ∧
    live.portBusy 3 1 = false ∧ p.portBusy 3 1 = true ∧
    ((p.enginesAt 3).ports.get (fun _ => none) 1).map (fun c => (c.op, c.table)) = some (2, 5) ∧
    p.mayAccess .tenik (Reg.TE_CMD 3 1) = true ∧ q.engines = p.engines ∧
    q.fld (Reg.TE_CMD_RES 3 1) Fld.TE_CMD_RES_OVERRUN = 1 := by decide +kernel

/-! ## The host's queues and the manager's commands -/

/-- The device `live` in a mode, its manager queue 2 enabled with nine slots posted. -/
def host (m : Nat) : State := but live [.regs Reg.DEV_MODE (Word.ofNat m), .regs (qStatus 2) (Fld.Q_STATUS_PHASE.set
  (Fld.Q_STATUS_EN_ACT.set 0 1) 1), .regs (qCtl 2) 1, .regs (qTail 2) 9]

/-- A command packet of queue 2 with operands and room for a reply of `r` bytes. -/
def pk (p0 p1 p2 r : Nat) : Cmd := ⟨2, 0, 0, 0x11, 0x8000, r, 0, p0, p1, p2, 0, []⟩

/-- STATUS and RESULT of the newest reply. -/
def said (s : State) : Option (Nat × Nat) :=
  (s.outbox.findSome? fun o => match o with
    | .hostWrite none _ b => if b.length = 32 then some (leAt b 0 2, leAt b 24 8) else none
    | _ => none)

/-- What a command answers. -/
def answer (s : State) (c : Instr) : Option (Nat × Nat) := said (nx (exec c s))

/-- The newest payload of a reply. -/
def paid (s : State) (c : Instr) : List Byte :=
  ((nx (exec c s)).outbox.findSome? fun o => match o with
    | .hostWrite none 0x8000 b => some b
    | _ => none).getD []

/-- `s` with an unfinished background operation of queue 2. -/
def doing (s : State) (k : BgKind) : State := but s [.bg [⟨2, 0x11, 0, false, k, 0, false⟩]]

/-- The unfinished operation of `doing`. -/
def bop (k : BgKind) : BgOp := ⟨2, 0x11, 0, false, k, 0, false⟩

/-- `State.accepts` by evaluation. -/
theorem accepts_of {s : State} {c : Cmd} {modes : List Nat} {k : Bool} {len need m0 m1 m2 : Nat}
    (h : (s.cmdTaken c && decide (s.mode ∈ modes) && (k || decide (c.queue < 16)) && c.len == len && decide (need ≤ c.replyMax) &&
      (need == 0 || c.replyAddr % 8 == 0) && c.rsv % 2 ^ 32 == 0 && decide (c.flags % 2 ^ 16 < 4) && within c.p0 m0 &&
      within c.p1 m1 && within c.p2 m2 && c.p3 == 0) = true) : s.accepts c modes k len need m0 m1 m2 := by
  simp only [Bool.and_eq_true, Bool.or_eq_true, decide_eq_true_eq, beq_iff_eq] at h
  obtain ⟨⟨⟨⟨⟨⟨⟨⟨⟨⟨⟨a, b⟩, c⟩, d⟩, e⟩, f⟩, g⟩, i⟩, j⟩, k⟩, l⟩, m⟩ := h
  exact ⟨a, b, c, d, e, f, g, i, j, k, l, m⟩

theorem test_queue_enable_disable_err :
    let s := host 3
    let off := but s [.regs (qCtl 2) 0, .regs (qStatus 2) 0]
    let u := nx (exec (.queueEnable .tenik 2) off)
    let d := nx (exec (.queueDisable .tenik 2) s)
    let e := nx (exec (.queueErr 2 5) s)
    s.mayQueue .tenik 2 = true ∧ off.fld (qCtl 2) Fld.Q_CTL_EN = 0 ∧ s.fld (qCtl 2) Fld.Q_CTL_EN = 1 ∧ u.qOn 2 = true ∧
    u.fld (qStatus 2) Fld.Q_STATUS_PHASE = 1 ∧ d.qOn 2 = false ∧ s.qOn 2 = true ∧ e.qOn 2 = false ∧
    (nx (exec (.queueErr 2 1) s)).fld (qStatus 2) Fld.Q_STATUS_ERR_CODE = 1 ∧
    e.fld (qStatus 2) Fld.Q_STATUS_ERR_CODE = 5 ∧ e.fld Reg.HI_EVENT Fld.HI_EVENT_QUEUE_ERR = 1 := by decide +kernel

theorem test_replies_wait_for_room :
    let s := host 3
    let full := but s [.regs (qHead 2) 1]
    let owed := but s [.hostq 2 { HostQ.empty with owed := [⟨[], false, false⟩] }]
    let last := but s [.regs (qStatus 2) (Fld.Q_STATUS_CQ_TAIL.set (s.regsAt (qStatus 2)) 15), .regs (qHead 2) 3]
    s.qOn 2 = true ∧ s.cqFree 2 = true ∧ (s.hostqAt 2).owed = [] ∧ s.cqSize 2 = 16 ∧ full.cqFree 2 = false ∧
    (owed.hostqAt 2).owed ≠ [] ∧ (full.replied (pk 0 0 0 0) 0 0 7 []).outbox = full.outbox ∧
    said (s.replied (pk 0 0 0 0) 0 0x22 7 []) = some (0x22, 7) ∧ last.cqFree 2 = true ∧
    (last.replied (pk 0 0 0 0) 0 0 0 []).fld (qStatus 2) Fld.Q_STATUS_PHASE = 0 := by decide +kernel

theorem test_packets_are_taken :
    let s := host 3
    let l := but s [.regs (qStatus 17) (Fld.Q_STATUS_EN_ACT.set 0 1), .regs (qTail 17) 9, .boot { s.boot with lastQueue := 2 }]
    let r := but l [.regs (Reg.CL_BIND 1) (Fld.CL_BIND_STATE.set 0 clActive)]
    s.cmdTaken (pk 0 0 0 0) = true ∧ s.cmdTaken { (pk 0 0 0 0) with queue := 3 } = false ∧
    l.cmdTaken { (pk 0 0 0 0) with queue := 17 } = false ∧ r.cmdTaken { (pk 0 0 0 0) with queue := 17 } = true ∧
    r.cmdTaken (pk 0 0 0 0) = false ∧ answer s (.fwInfo { (pk 0 0 0 64) with flags := 4 }) = some (0x12, 0) ∧
    answer s (.fwInfo { (pk 0 0 0 64) with len := 1 }) = some (0x11, 0) := by decide +kernel

theorem test_bad_opcode :
    let s := host 3
    let c := pk 0 0 0 0
    let k := but s [.regs (qStatus 17) (Fld.Q_STATUS_PHASE.set (Fld.Q_STATUS_EN_ACT.set 0 1) 1), .regs (qCtl 17) 1, .regs (qTail 17) 9,
      .regs (Reg.CL_BIND 1) (Fld.CL_BIND_STATE.set 0 clActive), .act (Reg.CL_BIND 1) (Fld.CL_BIND_PASID.set 0 0x55),
      .boot { s.boot with lastQueue := 2 }]
    s.cmdTaken c = true ∧ 0x03 ∉ opcodes ∧ 0x22 ∈ opcodes ∧ s.cmdTaken { c with queue := 3 } = false ∧
    answer s (.nop c (some 0x03)) = some (stBadOpcode, 0) ∧ nx (exec (.nop c (some 0x22)) s) = s ∧
    (nx (exec (.fwInfo { (pk 0 0 0 64) with queue := 17 }) k)).outbox.head?.map (fun o => match o with
      | .hostWrite (some p) _ b => (p, leAt b 0 2)
      | _ => (0, 0)) = some (0x55, stNotFound) := by decide +kernel

theorem test_accepts_reads :
    (host 3).accepts (pk 0 0 0 0) modesA true 0 0 0 0 0 ∧ (host 3).accepts (pk 0 0 0 64) modesA true 0 64 0 0 0 ∧
    (host 3).accepts { (pk 0 0 0 64) with len := 1 } modesA true 1 64 0 0 0 ∧
    (host 3).accepts (pk 0 0 0 64) modesA false 0 64 0 0 0 ∧ (host 3).accepts (pk 0 0 0 128) modesA false 0 128 0 0 0 ∧
    (host 3).accepts (pk 5 0 0 64) modesA true 0 64 63 0 0 ∧ (host 3).accepts (pk 7 0 0 136) modesA true 0 136 7 0 0 ∧
    (host 3).accepts (pk (2 ^ 26 - 8) 1 0 8) modesA false 0 8 (2 ^ 26 - 1) (2 ^ 14 - 1) 0 :=
  ⟨accepts_of (by decide +kernel), accepts_of (by decide +kernel), accepts_of (by decide +kernel), accepts_of (by decide +kernel),
    accepts_of (by decide +kernel), accepts_of (by decide +kernel), accepts_of (by decide +kernel), accepts_of (by decide +kernel)⟩

theorem test_simple_commands :
    let s := host 3
    (s.took (pk 0 0 0 0)).portAbsent 7 = false ∧
    answer s (.nop (pk 0 0 0 0) none) = some (0, 0) ∧ answer s (.modeGet (pk 0 0 0 0)) = some (0, 3) ∧
    (paid s (.identify (pk 0 0 0 64))).take 16 =
      [0x45, 0x51, 0x39, 0x36, 0x34, 0x30, 0x2D, 0x46, 0x43, 0x33, 0x34, 0x38, 0x31, 0x2D, 0x41, 0x31] ∧
    paid s (.echo { (pk 0 0 0 64) with len := 1, payload := [7] }) = 7 :: zeros 63 := by decide +kernel

theorem test_reading_commands :
    let s := but (host 3) [.act (Reg.CL_BIND 5) (Fld.CL_BIND_STATE.set 0 2), .regs (Reg.CL_BIND 5) (Fld.CL_BIND_STATE.set 0 2)]
    ((s.took (pk 5 0 0 64)).clState 5 = clActive) ∧ dbgDataCore Reg.DEV_ID = none ∧
    (paid s (.classStatus (pk 5 0 0 64))).length = 64 ∧ (paid s (.portStatus (pk 7 0 0 136))).length = 136 ∧
    paid s (.countersRead (pk Reg.DEV_MODE 1 0 8)) = [3, 0, 0, 0, 0, 0, 0, 0] ∧ (paid s (.fwInfo (pk 0 0 0 64))).length = 64 ∧
    (paid s (.dramStatus (pk 0 0 0 128))).length = 128 ∧ (paid s (.ringStatus (pk 0 0 0 64))).length = 64 ∧
    paid s (.termStatus (pk 0 0 0 64)) = zeros 64 := by decide +kernel

theorem test_counters_of_a_sleeping_street :
    let s := but (host 3) [.regs (Reg.ST_STATUS 2) (Fld.ST_STATUS_RUNG_ACT.set 0 3)]
    let c := pk (Reg.ST_STATUS 2) 1 0 8
    let u := nx (exec (.countersRead c) s)
    s.cmdTaken c = true ∧ dbgDataCore c.p0 = none ∧ c.p0 / 0x100000 = 3 + 2 ∧ (s.took c).mayAccess .tenik c.p0 = true ∧
    s.boot.tripHold = false ∧ s.fenced ⟨.street, 2⟩ = false ∧ s.fld (Reg.ST_STATUS 2) Fld.ST_STATUS_RUNG_ACT = 3 ∧
    u.fld (Reg.ST_STATUS 2) Fld.ST_STATUS_RUNG_ACT = 0 ∧ (u.hostqAt 2).last.map (fun l => (l.op, l.status, l.data.length)) =
      some (0xC0, stDone, 8) := by decide +kernel

theorem test_mode_set :
    (host 2).accepts (pk 2 0 0 0) modesA false 0 0 7 0 0 ∧ (host 2).accepts (pk 5 0 0 0) modesA false 0 0 7 0 0 ∧
    ((host 2).took (pk 2 0 0 0)).modeThere 2 = true ∧ ((host 2).took (pk 5 0 0 0)).modeThere 5 = false ∧
    answer (host 2) (.modeSet (pk 2 0 0 0)) = some (0, 0) ∧ answer (host 2) (.modeSet (pk 5 0 0 0)) = some (1, 0) ∧
    ((host 4).took (pk 3 0 0 0)).modeThere 3 = true :=
  ⟨accepts_of (by decide +kernel), accepts_of (by decide +kernel), by decide +kernel, by decide +kernel, by decide +kernel,
    by decide +kernel, by decide +kernel⟩

/-- `host m` with a MODE_SET to `t` unfinished. -/
def ms (m t : Nat) : State := doing (host m) (.modeSet t)

/-- Whether a background operation is a MODE_SET. -/
def isMs : BgKind → Bool := fun k => match k with
  | .modeSet _ => true
  | _ => false

theorem test_mode_set_refused :
    let s := ms 3 2
    let u := nx (exec .modeSetComplete s)
    s.running isMs (bop (.modeSet 2)) ∧ s.modeAnswer 2 = some stWrongMode ∧ said u = some (stWrongMode, 0) := by
  unfold State.running; decide +kernel

theorem test_mode_set_reset :
    let s := ms 3 0
    s.running isMs (bop (.modeSet 0)) ∧ s.modeAnswer 0 = none ∧ s.cqFree 2 = true := by
  unfold State.running; decide +kernel

theorem test_mode_set_safe :
    let s := ms 3 5
    let u := nx (exec .modeSetComplete s)
    s.running isMs (bop (.modeSet 5)) ∧ s.modeAnswer 5 = none ∧ s.fc.fencing = [] ∧ u.mode = 5 ∧ u.ring.leavingUs = true := by
  unfold State.running; decide +kernel

theorem test_mode_set_service :
    let s := but (ms 2 3) [.regs Reg.PG_STATUS (Fld.PG_STATUS_CUR_VALID.set 0 1)]
    let u := nx (exec .modeSetComplete s)
    s.running isMs (bop (.modeSet 3)) ∧ s.modeAnswer 3 = none ∧ s.anyFenced = false ∧ u.mode = 3 ∧ u.bg = [] := by
  unfold State.running; decide +kernel

theorem test_mode_set_stage :
    let s := ms 5 2
    s.running isMs (bop (.modeSet 2)) ∧ s.modeAnswer 2 = none ∧ s.anyFenced = false ∧ s.ctxs = [] ∧
    ((List.range 64).all fun c => s.clState c ≠ clActive) = true := by
  unfold State.running; decide +kernel

/-- A board profile of one entry: DDR_CFG 0 with EN and capacity 31, Tenik's region at 1 MiB. -/
def prof : List Byte :=
  let b := [0x51, 0x42, 0x52, 0x44, 1, 0, 0, 0, 1, 0, 0, 0] ++ zeros 4 ++ leBytes 8 0x100000 ++ leBytes 8 0x20000000 ++ zeros 32 ++
    leBytes 4 (Reg.DDR_CFG 0) ++ zeros 4 ++ leBytes 8 (Fld.DDR_CFG_CAP_LOG2.set (Fld.DDR_CFG_EN.set 0 1) 31).toNat
  b.take 12 ++ leBytes 4 (crc32c b) ++ b.drop 16

theorem test_commit_and_profile :
    let s := host 2
    let b := padTo 80 prof
    let go := pk (Reg.TE_COMMIT 3) 1 0 0
    let u := nx (exec (.boardProfileLoad (pk 0x9000 80 0 0) prof) s)
    s.accepts go modesR false 0 0 (2 ^ 26 - 1) (2 ^ 64 - 1) 0 ∧ (s.took go).commitAt go.p0 = true ∧ bitOf go.p1 0 = true ∧
    s.accepts (pk 0x9000 80 0 0) modesS false 0 0 (2 ^ 64 - 1) (2 ^ 20 - 1) 0 ∧ s.boot.dramStarted = false ∧
    profileCheck b = true ∧ profileBad b = false ∧ profileCheck (padTo 80 (prof.take 72)) = false ∧
    said u = some (0, 0) ∧ u.boot.tenikBase = 0x100000 ∧ u.boot.profile = some b ∧ u.ddrEn 0 = true ∧
    answer s (.boardProfileLoad (pk 0x9000 80 0 0) (prof.take 72)) = some (stIntegrity, 0) := by
  unfold State.accepts; decide +kernel

theorem test_dram_init :
    let s := but (host 2) [.boot { (host 2).boot with profile := some (padTo 80 prof) },
      .regs (Reg.DDR_CFG 0) (Fld.DDR_CFG_CAP_LOG2.set (Fld.DDR_CFG_EN.set 0 1) 31)]
    let u := nx (exec (.dramInit (pk 0 0 0 0)) s)
    let late := (profileEntries (u.boot.profile.getD [])).filter fun e => !earlyEntry e.1
    s.accepts (pk 0 0 0 0) modesS false 0 0 0 0 0 ∧ s.boot.profile.isSome = true ∧ s.bg = [] ∧ u.boot.dramStarted = true ∧
    u.running (· == .dramInit) ⟨2, 0x11, 0x31, false, .dramInit, 0, false⟩ ∧ u.initRefused late = false ∧ u.ddrEn 0 = true ∧
    u.ddrEn 1 = false ∧ (nx (exec (.dramInitComplete []) u)).boot.dramDone = true ∧
    (nx (exec (.dramInitComplete [5]) u)).boot.dramDone = false ∧
    (nx (exec (.dramInitComplete [5]) u)).fld (Reg.DDR_STATUS 0) Fld.DDR_STATUS_LANE_FAIL = 5 := by
  unfold State.accepts State.running; decide +kernel

theorem test_accepts_time_rung_diag :
    (host 3).accepts (pk 0 9 0 0) modesA false 0 0 3 (2 ^ 64 - 1) 0 ∧
    (host 3).accepts (pk 2 (2 ^ 64 - 1) 0 0) modesA false 0 0 3 (2 ^ 64 - 1) 0 ∧
    (host 3).accepts (pk (1 + 7 * 256 + 3 * 65536) 0 0 0) modesR false 0 0 0x70F01 0 0 ∧
    (host 3).accepts (pk (2 * 256 + 4 * 65536) 0 0 0) modesR false 0 0 0x70F01 0 0 ∧
    (host 2).accepts (pk 0x301 0 0 0) modesSF false 0 0 0xFFFF 0 0 :=
  ⟨accepts_of (by decide +kernel), accepts_of (by decide +kernel), accepts_of (by decide +kernel), accepts_of (by decide +kernel),
    accepts_of (by decide +kernel)⟩

theorem test_time_rung :
    let s := host 3
    let f := but s [.regs Reg.DEV_FENCE_MISC 4]
    (Word.ofNat (2 ^ 64 - 1)).toInt.natAbs ≤ 2 ^ 22 ∧ 2 ^ 22 < (Word.ofNat (2 ^ 22 + 1)).toInt.natAbs ∧
    (nx (exec (.timeSet (pk 0 9 0 0)) s)).tb.set = some 9 ∧ (nx (exec (.timeSet (pk 1 9 0 0)) s)).tb.step = some 9 ∧
    (nx (exec (.timeSet (pk 2 (2 ^ 64 - 1) 0 0)) s)).fld Reg.TB_RATE Fld.TB_RATE_RATE = 0xFFFFFFFF ∧
    answer s (.timeSet (pk 2 (2 ^ 22 + 1) 0 0)) = some (0x12, 0) ∧ f.fenced ⟨.street, 2⟩ = true ∧ f.cmdTaken (pk 0 0 0 0) = true := by decide +kernel

theorem test_power_rungs :
    (nx (exec (.powerRung (pk (1 + 7 * 256 + 3 * 65536) 0 0 0)) (host 3))).fld (Reg.DDR_PWR 7) Fld.DDR_PWR_RUNG = 3 ∧
    (nx (exec (.powerRung (pk (2 * 256 + 3 * 65536) 0 0 0)) (host 3))).fld (Reg.PWR_ST 2) Fld.PWR_ST_RUNG = 3 := by decide +kernel

theorem test_diag :
    let u := nx (exec (.diagRun (pk 0x301 0 0 0)) (host 2))
    diagUnit 0x301 = some ⟨.portGroup, 1⟩ ∧ (host 2).mode = modeStage ∧ said u = some (1, 0) ∧
    u.running (fun k => match k with
      | .diag _ => true
      | _ => false) ⟨2, 0x11, 0xF0, false, .diag 0x301, 0, false⟩ ∧
    answer u (.diagRunComplete 0x3F) = some (0, 0xF) := by
  unfold State.running; decide +kernel

/-! ## Tenik images, Terms and the Gradebook -/

/-- An image of version 7, SVN 3 and a body of two bytes, signed with a key of these tests. -/
def image : List Byte :=
  [0x54, 0x4E, 0x49, 0x4B, 1, 0, 0, 0, 7, 0, 0, 0, 3, 0, 0, 0, 2, 0, 0, 0] ++ zeros 12 ++
  beBytes 48 0x7ae9e1db1160794c70c1ef071be5191f6c66240f4608fbe8a44ecd36c3ed5db97500f2e4d84e3fb45850fd6f4303302b ++
  beBytes 48 0xd8ac21444cd80d241538d8034b399a0dee3636eb5cb00b9499d061a571db0f14bb47ed79453948ed63f3a6ccbbf6e74f ++
  beBytes 48 0x8568a35a879b0d506132993c6d911d3136a731409ab8c5d26fd7a01e81425281453a6c6adf4cd2f38c77a5042815ea48 ++
  beBytes 48 0xba1750c17f8fed8fcbc08427c88309899dbec4a652ac738f6257c590d27efdd41da37f08a193130ebd08f89f3870469a ++
  zeros 3872 ++ [0xAA, 0xBB]

/-- Fuses that hold the hash of that key. -/
def fuses7 : Fuses :=
  ⟨1, beBytes 48 0x4938b309efca0e50cab9f949ab849d045c5a676ac0163690ab822a7a4e19d90650792c29353c5bf4461f331495630270, zeros 48, 3⟩

theorem test_image_checks : image.length = 4098 ∧
    imageFault { fuses7 with vendorHash := zeros 48 } image = some 3 ∧ imageFault fuses7 (image.set 4097 0) = some 4 := by
  decide +kernel

/-- Bytes from an address on, as a canonical map. -/
def listed : Nat → List Byte → SMap Byte
  | _, [] => []
  | o, b :: r => if b = 0 then listed (o + 1) r else (o, b) :: listed (o + 1) r

theorem listed_below (l : List Byte) : ∀ o k, k < o → (listed o l).get dfltMem k = 0 := by
  induction l with
  | nil => exact fun o k h => rfl
  | cons b r ih =>
    intro o k h
    unfold listed
    split
    · exact ih _ _ (by omega)
    · simp only [SMap.get, show o ≠ k by omega, if_false]
      exact ih _ _ (by omega)

theorem listed_get (l : List Byte) : ∀ o i, (listed o l).get dfltMem (o + i) = l.getD i 0 := by
  induction l with
  | nil => exact fun o i => by simp [listed, SMap.get, dfltMem]
  | cons b r ih =>
    intro o i
    unfold listed
    cases i with
    | zero =>
      split
      · rw [listed_below _ _ _ (by omega)]; simp_all
      · simp [SMap.get]
    | succ i =>
      have e : o + (i + 1) = o + 1 + i := by omega
      split
      · rw [e, ih]; rfl
      · simp only [SMap.get, show o ≠ o + (i + 1) by omega, if_false]
        rw [e, ih]; rfl

theorem listed_all (o : Nat) (l : List Byte) :
    (List.range l.length).map (fun i => (listed o l).get dfltMem (o + i)) = l := by
  apply List.ext_getElem
  · simp
  · intro i h _
    have := listed_get l o i
    simp_all

/-- A device in LOAD that verifies the bytes of the LOAD window. -/
def loading (b : List Byte) : State :=
  let s := but live [.regs Reg.DEV_MODE 1, .regs Reg.HI_LOAD_STATUS (Fld.HI_LOAD_STATUS_STATE.set 0 1),
    .regs Reg.HI_LOAD_CTL (Fld.HI_LOAD_CTL_LEN.set 0 b.length), .boot { live.boot with fuses := fuses7 }]
  { s with mem := listed squareBase b }

theorem test_image_is_rejected :
    let s := loading [1]
    let u := nx (exec .imageVerifyDone s)
    s.mode = modeLoad ∧ s.fld Reg.HI_LOAD_STATUS Fld.HI_LOAD_STATUS_STATE = 1 ∧
    imageFault s.boot.fuses ((List.range (s.fld Reg.HI_LOAD_CTL Fld.HI_LOAD_CTL_LEN)).map s.loadWinAt) = some 1 ∧
    u.mode = modeLoad ∧ u.fld Reg.HI_LOAD_STATUS Fld.HI_LOAD_STATUS_STATE = 3 ∧
    u.fld Reg.HI_LOAD_STATUS Fld.HI_LOAD_STATUS_REASON = 1 := by decide +kernel

theorem test_image_is_accepted :
    let s := loading image
    s.mode = modeLoad ∧ s.fld Reg.HI_LOAD_STATUS Fld.HI_LOAD_STATUS_STATE = 1 ∧
    imageFault s.boot.fuses ((List.range (s.fld Reg.HI_LOAD_CTL Fld.HI_LOAD_CTL_LEN)).map s.loadWinAt) = none := by
  have l : (loading image).fld Reg.HI_LOAD_CTL Fld.HI_LOAD_CTL_LEN = image.length := by decide +kernel
  refine ⟨by decide +kernel, by decide +kernel, ?_⟩
  rw [l]
  exact (congrArg _ (listed_all squareBase image)).trans (by decide +kernel)

/-- Whether a background operation is a FW_STAGE. -/
def isStage : BgKind → Bool := fun k => match k with
  | .fwStage _ => true
  | _ => false

/-- The device `host` with DRAM set up. -/
def hostUp (m : Nat) : State := but (host m) (dram0 ++ [.boot { live.boot with fuses := fuses7, dramDone := true, tenikBase := 0x100000 }])

theorem test_accepts_firmware :
    (hostUp 3).accepts (pk 0x9000 4098 0 0) modesR false 0 0 (2 ^ 64 - 1) (2 ^ 26 - 1) 0 ∧
    (hostUp 3).accepts (pk 0 0 0 0) modesR false 0 0 0 0 0 :=
  ⟨accepts_of (by decide +kernel), accepts_of (by decide +kernel)⟩

theorem test_firmware_is_staged_and_switched :
    let s := hostUp 3
    let g := but s [.boot { s.boot with staged := some ⟨7, 3, 5, [1]⟩ }]
    let w := doing g .fwSwitch
    let bad := but w [.boot { w.boot with running := some ⟨7, 3, 5, [1]⟩, runAt := 0x100000 }]
    s.dramUp = true ∧ s.fwBusy = false ∧ g.boot.staged.isSome = true ∧ g.fwBusy = false ∧ g.cmdTaken (pk 0 0 0 0) = true ∧
    answer s (.fwStage (pk 0x9000 1 0 0) [7]) = some (1, 0) ∧ w.bgFind (· == .fwSwitch) = some (bop .fwSwitch) ∧
    s.gbLog2 = 0 ∧ s.imageGood = true ∧ bad.imageGood = false ∧ bad.bgFind (· == .fwSwitch) = some (bop .fwSwitch) ∧
    (nx (exec .fwSwitchFallback w)).boot.staged = some ⟨7, 3, 5, [1]⟩ ∧ (nx (exec .fwSwitchFallback w)).boot.tenikDown = false ∧
    (nx (exec .fwSwitchFallback bad)).boot.tenikDown = true := by decide +kernel

/-- The first image or Term finds its place at the start of Tenik's region. -/
theorem freePlace_empty (s : State) (len : Nat) (h : ((List.range 4).map s.termsAt).filter (·.resident) = []) :
    s.freePlace [] len = if s.boot.tenikBase + len ≤ s.tenikTop then some s.boot.tenikBase else none := by
  unfold State.freePlace
  simp only [h, List.map_nil, List.append_nil, List.all_nil, Bool.and_true]
  by_cases c : s.boot.tenikBase + len ≤ s.tenikTop <;> simp [c]

/-- FW_STAGE of `image` at its end, with `n` bytes of Tenik's region before its working space. -/
def stagingImage (n : Nat) : State := doing (but (hostUp 3)
  [.boot { (hostUp 3).boot with tenikLen := 4096 * Config.tenikWork + n }]) (.fwStage image)

theorem test_firmware_finds_a_place :
    imageFault (stagingImage 0).boot.fuses image = none ∧
    (stagingImage 0).freePlace ({ (stagingImage 0).boot with staged := none } : BootState).images image.length = none ∧
    (stagingImage 5000).freePlace ({ (stagingImage 5000).boot with staged := none } : BootState).images image.length =
      some 0x100000 := by
  refine ⟨by decide +kernel, ?_, ?_⟩ <;>
    rw [show ({ (stagingImage _).boot with staged := none } : BootState).images = [] from rfl,
      freePlace_empty _ _ (by decide +kernel), show image.length = 4098 by decide +kernel]
  · have : (stagingImage 0).boot.tenikLen = 4096 * Config.tenikWork + 0 := rfl
    have : (stagingImage 0).boot.tenikBase = 0x100000 := rfl
    rw [State.tenikTop, if_neg (by omega)]
  · have : (stagingImage 5000).boot.tenikLen = 4096 * Config.tenikWork + 5000 := rfl
    have : (stagingImage 5000).boot.tenikBase = 0x100000 := rfl
    rw [State.tenikTop, if_pos (by omega)]
    rfl

theorem test_firmware_stage_ends :
    let bad := doing (hostUp 3) (.fwStage [1])
    bad.running isStage (bop (.fwStage [1])) ∧ imageFault bad.boot.fuses [1] = some 1 ∧
    said (nx (exec .fwStageComplete bad)) = some (stIntegrity, 0) ∧
    (doing (hostUp 3) (.fwStage image)).running isStage (bop (.fwStage image)) := by
  unfold State.running; decide +kernel

theorem test_bar4 :
    let s := but (hostUp 3) [.regs Reg.HI_WIN 0]
    let u := nx (exec (.bar4Write none 0x203E [7, 8] false) s)
    let p := nx (exec (.bar4Write none 0x203E [7, 8] true) s)
    let a := nx (exec (.bar4Atomicop none 0x2038 .fetchAdd 8 (2 ^ 56) 0) u)
    let z := but s [.regs (Reg.DDR_STATUS 0) 0]
    let e := nx (exec (.bar4Atomicop none 0x2038 .fetchAdd 8 (2 ^ 56) 0) z)
    modeStage ≤ s.mode ∧ s.lineTakes 0x203E .other = true ∧ (0x203E % 64 + 2 ≤ 64) ∧ u.memAt 0x203E = 7 ∧ u.memAt 0x203F = 8 ∧
    p.mem = s.mem ∧ p.fld Reg.HI_EVENT Fld.HI_EVENT_POISON = 1 ∧ nx (exec (.bar4Write (some 5) 0x203E [7] false) s) = s ∧
    u.region 0x2038 = .dram ∧ u.inStripe 0x2038 = false ∧ s.rawChan 0x203E = none ∧ u.rawChan 0x2038 = none ∧ u.seen 0x2038 8 = u.bytes 0x2038 8 ∧ u.lineTakes 0x2038 .other = true ∧ u.anyBad 0x2038 8 = false ∧
    (u.dramChan 0x2038).all u.ddrAnswers = true ∧ (e.ddrsAt 0).early.map (·.bytes) = [[]] ∧ z.ddrAnswers 0 = false ∧
    (e.ddrsAt 0).early.map (·.atomic) = [some ⟨.fetchAdd, 8, 2 ^ 56, 0⟩] ∧ e.outbox = z.outbox ∧ a.memAt 0x203F = 9 ∧ a.outbox.head? = some (.readData [0, 0, 0, 0, 0, 0, 7, 8] false) := by decide +kernel

theorem test_bar2 :
    let s := but (host 3) [.act (Reg.CL_BIND 63) (Fld.CL_BIND_BOUND.set (Fld.CL_BIND_PASID.set 0 0x55) 1)]
    let x := 63 * 0x10000
    let u := nx (exec (.bar2Request (some 0x55) x 0xFF (some 9)) s)
    let off := but s [.regs Reg.DEV_MODE 1]
    let b := nx (exec (.bar2Request none x 0x05 none) off)
    off.boot.perst = false ∧ laneOk 0x05 = false ∧ b.outbox.head? = some (.readData (zeros 8) false) ∧
    b.regsAt Reg.HI_CNT_BAD_SIZE = 1 ∧ s.pageReached (some 0x55) 63 = true ∧ s.pageReached (some 0x56) 63 = false ∧ s.pageReached none 63 = false ∧
    u.fld (qTail 79) Fld.Q_SQ_TAIL_TAIL = 9 ∧
    (nx (exec (.bar2Request (some 0x55) x 0xFF none) u)).outbox.head? = some (.readData [9, 0, 0, 0, 0, 0, 0, 0] false) ∧
    (nx (exec (.bar2Request none x 0xFF (some 9)) s)).regsAt (Reg.CL_CNT_PASID_VIOL 63) = 1 := by decide +kernel

theorem test_accepts_terms :
    (hostUp 3).accepts (pk 0x9000 (64 + 3 * 2 ^ 32) 0 0) modesR false 0 0 (2 ^ 64 - 1) (2 ^ 34 - 1) 0 ∧
    (hostUp 3).accepts (pk (3 + 9 * 2 ^ 16) 0 0 0) modesR false 0 0 0xFFFF0003 0 0 ∧
    (hostUp 3).accepts (pk 3 0 0 0) modesR false 0 0 3 0 0 :=
  ⟨accepts_of (by decide +kernel), accepts_of (by decide +kernel), accepts_of (by decide +kernel)⟩

/-- `hostUp` with slot 3 in a state, EPOCH 9, and slot 0 current, EPOCH 8. -/
def term3 (st : TermState) (refs : Nat) : State := but (hostUp 3) [.terms 3 { TermSlot.empty with state := st, epoch := 9, refs := refs },
  .terms 0 { TermSlot.empty with state := .current, epoch := 8 }, .regs Reg.PG_STATUS (Fld.PG_STATUS_CUR_VALID.set 0 1)]

theorem test_terms :
    let l := nx (exec (.termLoad (pk 0x9000 (1 + 3 * 2 ^ 32) 0 0) [7]) (hostUp 3))
    let s := term3 .ready 0
    let r := nx (exec (.termRetire (pk 3 0 0 0)) s)
    (hostUp 3).dramUp = true ∧ ((hostUp 3).termsAt 3).state = .empty ∧ (l.termsAt 3).state = .loading ∧ said l = some (1, 0) ∧
    (s.termsAt 3).state = .ready ∧ s.curTerm = some 0 ∧ serAfter 16 9 8 = true ∧ isMonitor 0 = true ∧ said r = some (1, 0) ∧ (r.termsAt 3).state = .retiring := by decide +kernel

theorem test_terms_retire :
    let s := doing (term3 .retiring 0) (.termRetire 3)
    let h := doing (term3 .retiring 5) (.termRetire 3)
    s.running (· == .termRetire 3) (bop (.termRetire 3)) ∧ (s.termsAt 3).state = .retiring ∧ (s.termsAt 3).refs = 0 ∧
    h.running (· == .termRetire 3) (bop (.termRetire 3)) ∧ (h.termsAt 3).state = .retiring ∧ (h.termsAt 3).refs ≠ 0 ∧
    (nx (exec (.termRetireComplete 3) s)).termsAt 3 = TermSlot.empty ∧ nx (exec (.termRetireComplete 3) h) = h := by
  unfold State.running; decide +kernel

theorem test_term_load_refused :
    let s := doing (term3 .loading 0) (.termLoad 3 [1])
    s.running (fun k => match k with
      | .termLoad n _ => n == 3
      | _ => false) (bop (.termLoad 3 [1])) ∧ s.termRefusal [1] = some stBadParam ∧
    (nx (exec (.termLoadComplete 3) s)).termsAt 3 = TermSlot.empty := by
  unfold State.running; decide +kernel

/-- The header of a Term image up to CHECK: EPOCH 10, one graph, one entry point. -/
def termHead : List Byte := [0x51, 0x54, 0x52, 0x4D, 1, 0, 10, 0, 1, 0, 1, 0]

/-- What stands behind CHECK: a graph of one END node. -/
def termTail : List Byte :=
  let desc := leBytes 2 1 ++ [1, 0] ++ zeros 4 ++ leBytes 8 0x500 ++ leBytes 8 0x600 ++ zeros 4
  let node := [9] ++ zeros 31
  zeros 8 ++ leBytes 4 0 ++ leBytes 4 0x200 ++ leBytes 4 0x400 ++ leBytes 4 0x440 ++ leBytes 4 0 ++ leBytes 4 4 ++ zeros 16 ++
    zeros 0x3C0 ++ desc ++ leBytes 4 (crc32c (desc ++ node ++ zeros 16)) ++ zeros 0xE0 ++ node ++ zeros 0x1AE0

/-- A Term image. -/
def termImage : List Byte := termHead ++ (leBytes 4 (crc32c (termHead ++ zeros 4 ++ termTail)) ++ termTail)

theorem termImage_length : termImage.length = 0x2000 := by
  simp [termImage, termHead, termTail, leBytes_length, zeros]

theorem crcReg_lt (bs : List Byte) : ∀ seed, seed < 2 ^ 32 → crcReg polyC seed bs < 2 ^ 32 := by
  have bitLt : ∀ c, c < 2 ^ 32 → crcBit polyC c < 2 ^ 32 := by
    intro c h
    unfold crcBit
    split
    · exact Nat.xor_lt_two_pow (by omega) (by decide)
    · omega
  have each8 : ∀ (l : List Nat) c, c < 2 ^ 32 → l.foldl (fun r _ => crcBit polyC r) c < 2 ^ 32 := by
    intro l
    induction l with
    | nil => exact fun c h => h
    | cons a l ih => exact fun c h => ih _ (bitLt c h)
  induction bs with
  | nil => exact fun s h => h
  | cons b bs ih =>
    intro s h
    exact ih _ (each8 _ _ (Nat.xor_lt_two_pow h (by omega)))

theorem termImage_check : imageCheck termImage = true := by
  have hl : crc32c (termHead ++ zeros 4 ++ termTail) < 2 ^ 32 :=
    Nat.xor_lt_two_pow (crcReg_lt _ _ (by decide)) (by decide)
  have h1 : termImage.take 12 = termHead := by simp [termImage, termHead]
  have h2 : termImage.drop 16 = termTail := by simp [termImage, termHead, leBytes]
  have h3 : (TermHdr.ofBytes termImage).check = crc32c (termHead ++ zeros 4 ++ termTail) := by
    show leAt (termHead ++ (_ ++ termTail)) 12 4 = _
    rw [leAt_append _ _ _ _ _ (by rfl) (leBytes_length _ _).symm, ofLeBytes_leBytes, Nat.mod_eq_of_lt hl]
  unfold imageCheck
  rw [h1, h2, h3]
  exact beq_self_eq_true _

theorem termImage_shape : imageShape termImage = true := by
  unfold imageShape
  simp only [termImage_length]
  decide +kernel

theorem termImage_allowed : termAllowed termImage = true := by decide +kernel

/-- `hostUp` with that image being loaded, and room for exactly it in Tenik's region. -/
def roomy : State := doing (but (hostUp 3)
  [.boot { (hostUp 3).boot with tenikLen := 4096 * Config.tenikWork + 0x2000 }]) (.termLoad 3 termImage)

theorem roomy_place : roomy.termPlace 0x2000 = some 0x100000 := by
  rw [State.termPlace, show roomy.boot.images = [] by decide +kernel, freePlace_empty _ _ (by decide +kernel)]
  have hl : roomy.boot.tenikLen = 4096 * Config.tenikWork + 0x2000 := rfl
  have hb : roomy.boot.tenikBase = 0x100000 := rfl
  rw [State.tenikTop, hl, hb, if_pos (by omega)]

theorem test_term_load_accepted : roomy.termRefusal termImage = none := by
  have e : ((List.range 4).any fun k => (roomy.termsAt k).resident && (roomy.termsAt k).epoch == (TermHdr.ofBytes termImage).epoch) = false := by
    decide +kernel
  simp only [State.termRefusal, termImage_length, termImage_shape, termImage_check, termImage_allowed, roomy_place, e]
  rfl

theorem test_term_load_runs : roomy.running (fun k => match k with
      | .termLoad n _ => n == 3
      | _ => false) (bop (.termLoad 3 termImage)) :=
  ⟨by decide +kernel, rfl⟩

theorem test_gradebook :
    let r : GbRec := ⟨1, 2, 3, 4, 5, 0⟩
    let s := but (hostUp 3) [.gb { svc.gb with queue := [r] }]
    let u := nx (exec .gbRecordHash s)
    u.gb.queue = [] ∧ u.gb.hash = (sha256 (s.gb.hash ++ r.bytes48)).take 16 ∧ s.gbLog2 = 0 ∧
    u.gb.sram = [r.bytes48 ++ u.gb.hash] ∧ u.regsAt Reg.GB_CNT_RECORDS = 1 := by decide +kernel

theorem test_accepts_gradebook :
    (hostUp 3).accepts (pk 0 1024 0 65536) modesA false 0 65536 (2 ^ 64 - 1) (2 ^ 11 - 1) 0 ∧
    (hostUp 3).accepts (pk 0 0 0 256) modesA false 0 256 0 0 0 :=
  ⟨accepts_of (by decide +kernel), accepts_of (by decide +kernel)⟩

theorem test_gradebook_is_read :
    let s := but (hostUp 3) [.gb { svc.gb with sram := [List.replicate 64 7] }, .regs Reg.GB_STATUS 1]
    let w := s.took (pk 0 1 0 64)
    w.gbAt 1 = none ∧ w.gbAt 0 = some (List.replicate 64 7) ∧ answer s (.gbRead (pk 1 1 0 64)) = some (stNotFound, 0) ∧
    paid s (.gbRead (pk 0 1 0 64)) = List.replicate 64 7 := by decide +kernel

theorem test_gradebook_ring :
    let r : GbRec := ⟨1, 2, 3, 4, 5, 1025⟩
    let s := but (hostUp 3) [.gb { svc.gb with queue := [r] }, .regs Reg.GB_CFG (Fld.GB_CFG_SIZE_LOG2.set 0 10),
      .regs Reg.GB_BASE (Fld.GB_BASE_BASE.set 0 2)]
    let u := nx (exec .gbRecordHash s)
    s.gbLog2 = 10 ∧ s.gbBase = 0x2000 ∧ u.gb.sram = [] ∧ u.memAt 0x2040 = 1 ∧ u.memAt (0x2040 + 63) = (u.gb.hash.getD 15 0) := by
  decide +kernel

/-! ## Ports, streams, the ring, tables, the Directory and classrooms by command -/

/-- `hostUp 3` with classroom 5 ACTIVE, granted two tables and a stream. -/
def room5 : State := but (hostUp 3) [.regs (Reg.CL_BIND 5) (Fld.CL_BIND_STATE.set 0 2), .regs Reg.RC_CTX_COUNT 64,
  .classes 5 ⟨zeros 22 ++ [2] ++ zeros 25 ++ [1] ++ zeros 79⟩]

/-- A packet of queue 2 with a payload of `n` units of 64 bytes. -/
def pkd (p0 p1 p2 r n : Nat) (b : List Byte) : Cmd := { (pk p0 p1 p2 r) with len := n, payload := b }

theorem test_accepts_ports_streams_ring :
    room5.accepts (pkd 7 0 0 0 1 []) modesR false 1 0 0x107 0 0 ∧ room5.accepts (pkd 0x107 0 0 0 1 []) modesR false 1 0 0x107 0 0 ∧
    room5.accepts (pk (7 + 2 ^ 56 + 5 * 2 ^ 48) 9 0 0) modesR true 0 0 (maskOf 32 0 ||| maskOf 42 40 ||| maskOf 53 48 ||| maskOf 56 56)
      (maskOf 47 0) 0 ∧
    room5.accepts (pkd (7 + 2 ^ 32 + 5 * 2 ^ 48) 9 0 0 2 []) modesR true 2 0
      (maskOf 32 0 ||| maskOf 42 40 ||| maskOf 53 48 ||| maskOf 56 56) (maskOf 47 0) 0 ∧
    room5.accepts (pk 7 0 0 0) modesR true 0 0 (2 ^ 33 - 1) 0 0 ∧ room5.accepts (pk (7 + 2 ^ 32) 0 0 0) modesR true 0 0 (2 ^ 33 - 1) 0 0 ∧
    room5.accepts (pk 0x10005 0x30FF6 0 0) modesR false 0 0 0x30FFF 0x30FFF 0 ∧ room5.accepts (pk 0 0 0 0) modesR false 0 0 0 0 0 :=
  ⟨accepts_of (by decide +kernel), accepts_of (by decide +kernel), accepts_of (by decide +kernel), accepts_of (by decide +kernel),
    accepts_of (by decide +kernel), accepts_of (by decide +kernel), accepts_of (by decide +kernel), accepts_of (by decide +kernel)⟩

theorem test_port_cfg :
    let w := room5.took (pkd 7 0 0 0 1 [])
    let u := nx (exec (.portCfg (pkd 7 0 0 0 1 [1])) room5)
    let v := nx (exec (.portCfg (pkd 0x107 0 0 0 1 (zeros 40 ++ [1]))) room5)
    w.portAbsent 7 = false ∧ portCfgBad 7 (padTo 64 []) = false ∧ portCfgBad 7 (padTo 64 (zeros 56 ++ [1])) = true ∧
    said u = some (0, 0) ∧ u.grpDone (.ethN 7) = true ∧ u.inForce (Reg.ETH_CFG 7) Fld.ETH_CFG_PORT_EN = 1 ∧
    room5.fenced ⟨.portGroup, 1⟩ = false ∧ said v = some (1, 0) ∧ v.grpDone (.ethGrp 1) = false ∧
    v.bg = [⟨2, 0x11, 0x80, false, .portGroup 1, 0, false⟩] := by decide +kernel

/-- An open stream 7 of classroom 5. -/
def str7 (tx : Bool) : State := but room5 [.streams 7 (some { Stream.opened tx 0 5 false 9 [] with state := .open_ })]

theorem test_streams_are_opened_and_closed :
    let w := room5.took (pk 0 0 0 0)
    let u := nx (exec (.streamOpen (pk (7 + 2 ^ 56 + 5 * 2 ^ 48) 9 0 0)) room5)
    let r := nx (exec (.streamClose (pk 7 0 0 0)) (str7 false))
    w.portAbsent 0 = false ∧ endpointBad (padTo 128 []) = false ∧ room5.dramUp = true ∧ w.clState 5 = clActive ∧
    w.stream 7 = none ∧ w.openStreams = 0 ∧ w.streamsOf 5 = 0 ∧ w.grantLe 5 48 4 = 1 ∧
    (u.stream 7).map (fun x => (x.tx, x.port, x.classroom, x.n, x.state)) = some (false, 0, 5, 9, .openWait) ∧
    ((str7 false).took (pk 7 0 0 0)).stream 7 = some { Stream.opened false 0 5 false 9 [] with state := .open_ } ∧
    answer (str7 true) (.streamOpen (pk (7 + 5 * 2 ^ 48) 9 0 0)) = some (stExists, 0) ∧
    ((str7 true).stream 7).map (fun x => (x.tx, x.state)) = some (true, .open_) ∧
    said r = some (0, 0) ∧ r.stream 7 = none := by decide +kernel

theorem test_ring_is_joined_and_left :
    let u := nx (exec (.ringJoin (pk 0x10005 6 0 0)) room5)
    let l := nx (exec (.ringLeave (pk 0 0 0 0)) room5)
    room5.fld Reg.RB_STATUS Fld.RB_STATUS_JOINED = 0 ∧ said u = some (1, 0) ∧ u.fld Reg.RB_STATUS Fld.RB_STATUS_JOINED = 1 ∧
    u.deviceId = 5 ∧ u.running (· == .ringJoin) ⟨2, 0x11, 0x90, false, .ringJoin, 0, false⟩ ∧
    said (nx (exec .ringJoinComplete u)) = some (0, 0) ∧ l.ring.going = true ∧ l.ring.leavingUs = false ∧
    l.running (· == .ringLeave) ⟨2, 0x11, 0x91, false, .ringLeave, 0, false⟩ ∧
    (doing room5 .ringLeave).running (· == .ringLeave) (bop .ringLeave) ∧
    (nx (exec .ringLeaveComplete (doing room5 .ringLeave))).bg = [] := by
  unfold State.running; decide +kernel

/-- `room5` with the array as table 3 and the hash table as table 4. -/
def tabs : State := but room5 (tablesOf 5)

theorem test_accepts_tables :
    room5.accepts (pkd 3 0 0 0 1 (descOf 5 false)) modesR false 1 0 63 0 0 ∧ tabs.accepts (pk 3 0 0 0) modesR false 0 0 63 0 0 ∧
    tabs.accepts (pk 3 1 2 16) modesA true 0 16 63 (2 ^ 64 - 1) (2 ^ 64 - 1) ∧
    tabs.accepts (pkd 4 1 2 0 1 []) modesR true 1 0 63 (2 ^ 64 - 1) (2 ^ 64 - 1) ∧
    tabs.accepts (pk 4 1 2 0) modesR true 0 0 63 (2 ^ 64 - 1) (2 ^ 64 - 1) ∧
    tabs.accepts (pkd 0x104 1 0 0 1 []) modesR true (ceilDiv (1 * (16 + 32)) 64) 0 0x13F 0xFFFF 0 ∧
    tabs.accepts (pk (0x104 + 15 * 2 ^ 16) 0 0 0) modesR true 0 0 0xFF013F 0 0 :=
  ⟨accepts_of (by decide +kernel), accepts_of (by decide +kernel), accepts_of (by decide +kernel), accepts_of (by decide +kernel),
    accepts_of (by decide +kernel), accepts_of (by decide +kernel), accepts_of (by decide +kernel)⟩

theorem test_tables_are_created_and_deleted :
    let w := room5.took (pk 0 0 0 0)
    let d := TableDesc.ofBytes (padTo 64 (descOf 5 false))
    let u := nx (exec (.tableCreate (pkd 3 0 0 0 1 (descOf 5 false))) room5)
    let v := nx (exec (.tableDelete (pk 3 0 0 0)) tabs)
    descBad (padTo 64 (descOf 5 false)) = false ∧ d.mirror = false ∧ d.classroom = 5 ∧ room5.dramUp = true ∧ w.tableDying 3 = false ∧
    w.classBusy 5 = false ∧ (w.classesAt 5).grant ≠ [] ∧ (w.table 3).valid = false ∧ w.tablesOf 5 = 0 ∧ w.grantLe 5 22 1 = 2 ∧
    said u = some (0, 0) ∧ (u.table 3).valid = true ∧ ((List.range 8).all fun k => k = 0 || u.regsAt (tableWordOff 3 k) == Word.ofNat (leAt (padTo 64 (descOf 5 false)) (8 * k) 8)) = true ∧
    ((List.range 8).all fun k => v.regsAt (tableWordOff 3 k) == 0) = true ∧ (tabs.table 3).valid = true ∧
    answer tabs (.tableCreate (pkd 3 0 0 0 1 (descOf 5 false))) = some (stExists, 0) ∧ tabs.tableDying 3 = false ∧
    said v = some (1, 0) ∧ (v.table 3).valid = false ∧ v.running (fun k => match k with
      | .tableDelete n _ => n == 3
      | _ => false) ⟨2, 0x11, 0x61, false, .tableDelete 3 (tabs.table 3), 0, false⟩ ∧
    v.tableBusy 3 = false ∧ said (nx (exec (.tableDeleteComplete 3) v)) = some (0, 0) := by
  unfold State.running; decide +kernel

theorem test_table_entries :
    let w := tabs.took (pk 3 0 0 0)
    let i := but tabs [.mem 0x200010 1, .mem 0x200018 0xD7, .mem 0x200019 0xFE, .mem 0x20001C 1]
    let x := nx (exec (.tableInsert (pkd 4 1 0 0 1 (zeros 16 ++ [9]))) tabs)
    let a := nx (exec (.tableUpdate (pkd 3 7 0 0 1 [9])) tabs)
    w.tableSeen (pk 3 0 0 0) 3 = true ∧ w.tableSeen (pk 4 0 0 0) 4 = true ∧ w.tableDying 3 = false ∧ w.tableDying 4 = false ∧
    tabs.tableFree 3 7 = true ∧ tabs.tableFree 4 1 = true ∧ (w.table 3).esize = 16 ∧ (w.table 4).esize = 32 ∧
    w.victimSize (pkd 4 1 0 0 1 []) = 0 ∧ said x = some (0, 0) ∧ x.mem = i.mem ∧ said a = some (0, 0) ∧
    answer tabs (.tableRead (pk 4 1 0 32)) = some (stNotFound, 0) ∧ answer i (.tableRead (pk 4 1 0 32)) = some (0, 0) ∧
    answer i (.tableRemove (pk 4 1 0 0)) = some (0, 0) ∧ answer i (.tableInsert (pkd 4 1 0 0 1 [])) = some (stExists, 0) ∧
    (tabs.table 3).kind = kindArray ∧ (tabs.table 3).count = 8 ∧ answer tabs (.tableRead (pk 3 8 0 16)) = some (stBadParam, 0) ∧
    (tabs.table 4).kind = kindHash ∧ tabs.lookup (tabs.table 4) 4 1 = .miss ∧ (tabs.table 3).outside 8 = true ∧ (tabs.table 3).outside 7 = false ∧
    ((List.range 16).all fun n => (tabs.enginesAt n).taken = []) = true ∧
    (match i.lookup (i.table 4) 4 1 with | .hit _ x => x.length | _ => 0) = 32 := by decide +kernel

/-- `tabs` with key 1 in the hash table, and with four entries of key 9 in the first bucket of key 1. -/
def key1 : State := but tabs (put 0x200000 (tabs.hashEntry (tabs.table 4) 4 1 [7]))
def full1 : State := but tabs ((List.range 4).flatMap fun i => put (0x200000 + 32 * i) (tabs.hashEntry (tabs.table 4) 4 9 [7]))

/-- What a lookup of key 1 of the hash table finds behind a command. -/
def found (s : State) (c : Instr) : Option (Nat × List Byte) :=
  match (nx (exec c s)).lookup (s.table 4) 4 1 with
  | .hit a x => some (a, x)
  | _ => none

theorem test_accepts_lookups :
    key1.accepts (pkd 4 1 0 0 1 [8]) modesR true 1 0 63 (2 ^ 64 - 1) (2 ^ 64 - 1) ∧
    key1.accepts (pk 4 1 0 0) modesR true 0 0 63 (2 ^ 64 - 1) (2 ^ 64 - 1) ∧
    full1.accepts (pkd 4 1 0 0 1 [8]) modesR true 1 0 63 (2 ^ 64 - 1) (2 ^ 64 - 1) :=
  ⟨accepts_of (by decide +kernel), accepts_of (by decide +kernel), accepts_of (by decide +kernel)⟩

/-- Whether an entry can be written does not rest on what memory holds. -/
theorem canWrite_put (d : TableDesc) (x : Nat) (us : List Upd) : ∀ s : State, (∀ u ∈ us, ∃ k v, u = .mem k v) →
    canWrite (but s us) d x = canWrite s d x := by
  induction us with
  | nil => exact fun s _ => rfl
  | cons u us ih =>
    intro s h
    obtain ⟨k, v, rfl⟩ := h u (List.mem_cons_self ..)
    exact (ih _ fun u hu => h u (List.mem_cons_of_mem _ hu)).trans rfl

theorem put_mem {a : Nat} {bs : List Byte} : ∀ u ∈ put a bs, ∃ k v, u = .mem k v := by
  intro u h
  obtain ⟨i, hi, rfl⟩ := List.mem_mapIdx.1 h
  exact ⟨_, _, rfl⟩

theorem test_candidates_can_be_written :
    let d := tabs.table 4
    ∀ a ∈ d.candidates 4 1, canWrite tabs d a = true ∧ canWrite key1 d a = true ∧ canWrite full1 d a = true := by
  intro d a h
  have c : (d.candidates 4 1).all (canWrite tabs d) = true := by decide +kernel
  have c := List.all_eq_true.1 c a h
  refine ⟨c, (canWrite_put d a _ tabs put_mem).trans c, (canWrite_put d a _ tabs fun u hu => ?_).trans c⟩
  obtain ⟨i, -, hi⟩ := List.mem_flatMap.1 hu
  exact put_mem u hi

theorem test_lookups_meet_commands_of_a_hash_table :
    let d := tabs.table 4
    let l := d.candidates 4 1
    let st := d.stripe 4 1
    d.kind = kindHash ∧ d.keyOf 1 = 1 ∧ d.keyLen + 8 ≤ d.esize ∧ d.mirror = false ∧ tabs.gb.queue = [] ∧ key1.gb.queue = [] ∧
    (l.all fun x => l.all fun y => decide (x = y ∨ x + d.esize ≤ y ∨ y + d.esize ≤ x)) = true ∧ d.buckets 4 1 = (0, 1) ∧
    l.all (readsGood tabs d 4) = true ∧ l.all (readsGood key1 d 4) = true ∧
    l.all (readsGood full1 d 4) = true ∧ tabs.lookup d 4 1 = .miss ∧ full1.lookup d 4 1 = .miss ∧
    tabs.emptyWay d 4 st 0 = some 0x200000 ∧ full1.emptyWay d 4 st 0 = none ∧ full1.emptyWay d 4 st 1 = some 0x200080 ∧
    (match key1.lookup d 4 1 with | .hit a _ => a | _ => 0) = 0x200000 ∧
    (l.all fun b => b == 0x200000 || (key1.entryAt d 4 b).all fun f => !(slotValid d f && storedKey d f == 1)) = true := by
  decide +kernel

theorem test_commands_of_a_hash_table_are_found :
    let d := tabs.table 4
    (tabs.took (pkd 4 1 0 0 1 [8])).victimSize (pkd 4 1 0 0 1 [8]) = 0 ∧
    found tabs (.tableInsert (pkd 4 1 0 0 1 [8])) = some (0x200000, tabs.hashEntry d 4 1 (padTo 32 [8])) ∧
    found full1 (.tableInsert (pkd 4 1 0 0 1 [8])) = some (0x200080, full1.hashEntry d 4 1 (padTo 32 [8])) ∧
    found key1 (.tableUpdate (pkd 4 1 0 0 1 [8])) = some (0x200000, key1.hashEntry d 4 1 (padTo 32 [8])) ∧
    found key1 (.tableRemove (pk 4 1 0 0)) = none := by decide +kernel

theorem test_commands_of_an_array_are_found :
    let d := tabs.table 3
    let u := nx (exec (.tableUpdate (pkd 3 7 0 0 1 [9])) tabs)
    let z := but tabs (put (d.elem 7) (arrayEntry d 3 0 [9]))
    let v := nx (exec (.tableRemove (pk 3 7 0 0)) z)
    readsGood z d 3 (d.elem 7) = true ∧ canWrite z d (d.elem 7) = true ∧ d.kind ≠ kindHash ∧ d.outside 7 = false ∧ 8 ≤ d.esize ∧ d.mirror = false ∧ readsGood tabs d 3 (d.elem 7) = true ∧
    canWrite tabs d (d.elem 7) = true ∧
    (match u.lookup d 3 7 with | .hit a x => (a, x) | _ => (0, [])) = (d.elem 7, arrayEntry d 3 0 (padTo 16 [9])) ∧
    (match v.lookup d 3 7 with | .hit a x => (a, x) | _ => (0, [])) = (d.elem 7, zeros 16) := by decide +kernel

theorem test_table_bulk_and_learn :
    let s := but tabs [.learn 3 (some 2), .mem 0x4001 3, .regs (Reg.TE_LQ_BASE 15) (Fld.TE_LQ_BASE_BASE.set 0 0x200),
      .regs (Reg.TE_LQ_SIZE 15) (Fld.TE_LQ_SIZE_RECORDS.set 0 2), .regs (Reg.TE_LQ_TAIL 15) (Fld.TE_LQ_TAIL_TAIL.set 0 1)]
    let u := nx (exec (.learnForward 15) s)
    let l := nx (exec (.tableLearnCfg (pk (0x104 + 15 * 2 ^ 16) 0 0 0)) tabs)
    ((List.range 16).all fun n => !tabs.chainOn n) = true ∧ tabs.bulkFree = true ∧
    ((List.range 16).all fun n => (tabs.enginesAt n).taken = []) = true ∧
    answer tabs (.tableBulkLoad (pkd 0x104 1 0 0 1 [1])) = some (0, 1) ∧ l.learnAt 4 = some 15 ∧ (l.table 4).learn = true ∧
    s.tenikRuns = true ∧ s.lqFill 15 = 1 ∧ s.lqAddr 15 0 = 0x4000 ∧ (linesOf 0x4000 160).all s.dramReady = true ∧
    s.learnAt 3 = some 2 ∧ u.fld (Reg.TE_LQ_HEAD 15) Fld.TE_LQ_HEAD_HEAD = 1 ∧ u.mem = s.mem := by decide +kernel

theorem test_accepts_directory :
    room5.accepts (pkd 0xFFFF 0 0 0 1 []) modesR true 1 0 0xFFFF 0 0 ∧ room5.accepts (pk 0xFFFF 0 0 0) modesR true 0 0 0xFFFF 0 0 ∧
    room5.accepts (pk 5 0 0 48) modesA true 0 48 0xFFFF 0 0 ∧ room5.accepts (pkd 7 0 0 0 2 []) modesR false 2 0 7 0 0 :=
  ⟨accepts_of (by decide +kernel), accepts_of (by decide +kernel), accepts_of (by decide +kernel), accepts_of (by decide +kernel)⟩

theorem test_directory_commands :
    let w := room5.took (pk 0 0 0 0)
    let b := padTo 48 [0x55]
    let u := nx (exec (.dirWrite (pkd 0xFFFF 0 0 0 1 [0x55])) room5)
    let d := but room5 [.dirRows 0xFFFF { DirRow.ofBytes 0 b with valid := true },
      .dirShadow 0xFFFF { DirRow.ofBytes 0 b with valid := true }]
    let v := nx (exec (.dirInvalidate (pk 0xFFFF 0 0 0)) d)
    let p := nx (exec (.dirProfile (pkd 7 0 0 0 2 [0xF0])) room5)
    let q := but room5 [.regs (qStatus 21) (Fld.Q_STATUS_EN_ACT.set 0 1), .regs (qTail 21) 9,
      .boot { room5.boot with lastQueue := 2 }]
    imageBad 1 b = false ∧ imageSegs 1 = 1 ∧ w.dirSeen (pk 0xFFFF 0 0 0) 0xFFFF = true ∧ w.blockSegs 15 = 1 ∧ w.blockSegs 0 = 1 ∧
    said u = some (0, 0) ∧ u.dirRowsAt 0xFFFF = DirRow.ofBytes 0 b ∧ u.dirShadowAt 0xFFFF = DirRow.ofBytes 0 b ∧
    (d.dirRowsAt 0xFFFF).valid = true ∧ (v.dirRowsAt 0xFFFF).valid = false ∧
    paid d (.dirRead (pk 0xFFFF 0 0 48)) = d.dirImage 0xFFFF ∧
    said p = some (0, 0) ∧ p.actAt (Reg.DIR_GMASK 7 0) &&& 0xFF = 0xF0 ∧
    (q.took { (pk 5 0 0 0) with queue := 21 }).dirSeen { (pk 5 0 0 0) with queue := 21 } 5 = false ∧
    q.cmdTaken { (pk 5 0 0 0) with queue := 21 } = true := by decide +kernel

/-- A grant of one thread of Street 0, with DRAM from 64 MiB on. -/
def grant : List Byte :=
  [1] ++ zeros 11 ++ [1, 0, 1, 0] ++ leBytes 4 16 ++ [1, 0, 2, 0] ++ leBytes 4 4 ++ zeros 36 ++ leBytes 8 0x4000000 ++ leBytes 8 0x100000 ++
    zeros 16 ++ leBytes 8 0x4000000 ++ leBytes 4 0x1000 ++ leBytes 4 0 ++ leBytes 8 0x4000000 ++ zeros 8

theorem test_accepts_classrooms :
    room5.accepts (pkd (63 + 0x77 * 256) 0 0 0 2 grant) modesR false 2 0 (maskOf 5 0 ||| maskOf 27 8) 0 0 ∧
    room5.accepts (pk 5 0 0 0) modesR false 0 0 63 0 0 ∧ room5.accepts (pk 5 0xFF010000 0 0) modesR false 0 0 63 0xFF01FFFF 0 ∧
    room5.accepts (pk 0x105 0x9000 7 0) modesR false 0 0 0x13F (2 ^ 64 - 1) (2 ^ 32 - 1) ∧
    room5.accepts (pk 5 0 0 0) modesR false 0 0 0x13F (2 ^ 64 - 1) (2 ^ 32 - 1) :=
  ⟨accepts_of (by decide +kernel), accepts_of (by decide +kernel), accepts_of (by decide +kernel), accepts_of (by decide +kernel),
    accepts_of (by decide +kernel)⟩

theorem test_classroom_can_be_created :
    let w := room5.took (pkd (63 + 0x77 * 256) 0 0 0 2 grant)
    grant.length = 128 ∧ grantBad grant = false ∧ w.grantClash grant = false ∧ w.clState 63 = clFree ∧ w.pasidTaken 0x77 = false ∧
    w.grantFits 63 grant = true ∧ w.grantPlan grant = some [1] ∧ room5.dramUp = true := by decide +kernel

theorem test_classroom_waits_for_dram :
    let s := but room5 [.boot { room5.boot with dramDone := false }]
    let c := pkd (63 + 0x77 * 256) 0 0 0 2 grant
    let w := s.took c
    s.accepts c modesR false 2 0 (maskOf 5 0 ||| maskOf 27 8) 0 0 ∧ s.dramUp = false ∧ w.grantClash grant = false ∧
    w.clState 63 = clFree ∧ w.pasidTaken 0x77 = false ∧ w.grantFits 63 grant = true ∧ answer s (.classCreate c) = some (stBusyRetry, 0) := by
  refine ⟨accepts_of (by decide +kernel), ?_⟩
  decide +kernel

theorem test_classroom_commands :
    let w := room5.took (pk 5 0 0 0)
    let r := nx (exec (.classReset (pk 5 0 0 0)) room5)
    let d := nx (exec (.classDestroy (pk 5 0 0 0)) room5)
    let h := nx (exec (.classShare (pk 5 0x07010000 0 0)) room5)
    let m := nx (exec (.classMigrateLog (pk 0x105 0x9000 7 0)) room5)
    w.clState 5 = clActive ∧ r.clState 5 = clResetting ∧ d.clState 5 = clDestroying ∧
    (List.range 64).foldl (fun a i => if i = 5 then a else a + w.fld (Reg.SQ_SHARE i) Fld.SQ_SHARE_ENTRIES) 65536 ≤ 65536 ∧
    h.inForce (Reg.SQ_SHARE 5) Fld.SQ_SHARE_ENTRIES = 65536 ∧ h.inForce (Reg.SQ_SHARE 5) Fld.SQ_SHARE_WEIGHT = 7 ∧
    m.fld (Reg.CL_DLOG_LEN 5) Fld.CL_DLOG_LEN_EN = 1 ∧ m.fld (Reg.CL_DLOG_LEN 5) Fld.CL_DLOG_LEN_PAGES = 7 := by decide +kernel

/-- `room5` with an operation of classroom 5 in a phase. -/
def busy5 (k : BgKind) (ph : Nat) : State := but room5 [.bg [⟨2, 0x11, 0, false, k, ph, false⟩]]

theorem test_classroom_creation_ends :
    let c := busy5 (.classCreate 63 0x77 grant) 0
    c.running (fun k => match k with
      | .classCreate k _ _ => k == 63
      | _ => false) ⟨2, 0x11, 0, false, .classCreate 63 0x77 grant, 0, false⟩ ∧
    c.thrDone ((List.range 96).filter fun k => (List.range 8).any fun i => bindingOf (c.reg (thrReg (8 * k + i))) == some 63) = true := by
  unfold State.running; decide +kernel

theorem test_classroom_reset_point :
    let p := busy5 (.classReset 5) 0
    p.classOp 5 = some ⟨2, 0x11, 0, false, .classReset 5, 0, false⟩ ∧ p.tenikUp = true ∧ p.fld (qStatus 21) Fld.Q_STATUS_EN_ACT = 0 := by decide +kernel

theorem test_classroom_is_idle :
    let r := busy5 (.classReset 5) 1
    let d := busy5 (.classDestroy 5) 2
    r.running (· = .classReset 5) ⟨2, 0x11, 0, false, .classReset 5, 1, false⟩ ∧ r.classIdle 5 = true ∧
    (busy5 (.classDestroy 5) 1).classIdle 5 = true ∧
    d.running (· = .classDestroy 5) ⟨2, 0x11, 0, false, .classDestroy 5, 2, false⟩ ∧ d.classCores 5 = [] := by
  unfold State.running; decide +kernel

/-! ## Clauses beside the ones above -/

theorem test_releasing_instructions_wait :
    let s := but square9 [.ring { square9.ring with remotes := [⟨2, 9, 6, 8, 8, some 5, true⟩] }]
    s.storesOut 9 = true ∧ square9.storesOut 9 = false ∧ working.storesOut 9 = false ∧
    ((nx (exec (.setev 9 1 8 0) s)).thread 9).pc = 0 ∧ (nx (exec (.chwr 9 1 2 true 0) s)).chans = [] := by decide +kernel

theorem test_timer :
    let s := but core1 [.regs Reg.SQ_DLY_SIZE 16]
    let u := nx (exec (.cwr 9 1 6 0) s)
    s.canIssue 9 = true ∧ (s.thread 9).timer = none ∧ s.dlyFree ≠ 0 ∧ (u.thread 9).timer.isSome = true ∧
    (u.delay.map fun e => e.2.arm.map (·.kind)) = [some (.thread 9)] := by decide +kernel

theorem test_more_of_streams :
    let c := fst0 (fst 5 10 0 []) { strm true .closing with n := 10 }
    let h := fst0 (fst 4 10 0 []) { strm true .openWait with retries := 2 }
    let w := fst0 (fst 4 0 0 []) { strm true .open_ with waiting := [tx 0] }
    let r := fst0 (fst 4 0 0 []) { strm true .closing with n := 11, unacked := [tx 10], retries := 3 }
    let l := fst0 (fst 4 0 0 []) { strm true .closing with closeSent := true, retries := 2 }
    let p := port0 { Port.empty with pfc := 2 } 0
    c.fstReject (fst 5 10 0 []) = none ∧ c.portUp 0 = true ∧ after (.fstCloseTxStream 0) c = none ∧ h.portUp 0 = true ∧
    w.qRoom 0 2 = true ∧ after (.fstRtoTimeout 0x44) r = none ∧ after (.closeRtoTimeout 0x44) l = none ∧
    ((nx (exec (.pauseExpire 0 (some 1)) p)).portsAt 0).pfc = 0 ∧
    (nx (exec (.frameReceive 0 (frame60 ++ [0, 0, 0, 0]) .pcs) p)).regsAt (Reg.ETH_CNT_RX_PCS_ERR 0) = 1 ∧
    (nx (exec (.pauseFrameReceive 0 9) p)).regsAt (Reg.ETH_CNT_RX_PAUSE_IGNORED 0) = 1 := by decide +kernel

theorem test_more_ring_frames :
    let s := ring5 { lk with e := 7 }
    let w := fun (f : RingFrame) => let b := s.ringBytes f; b ++ fcsOf b
    let hb : RingRec := ⟨recHeartbeat, false, [9, 0, 0, 0, 0, 0, 0, 0]⟩
    let un := { fr 5 0 [hb] with unseq := true }
    let bc := { fr 0xFFF 7 [⟨recTerm, false, [1, 2, 3, 4]⟩] with bcast := true, bseq := 3 }
    let u := nx (exec (.ringFrameReceive 0 (w un) false) s)
    let v := nx (exec (.ringFrameReceive 0 (w bc) false) s)
    (RingFrame.ofBytes (s.ringBytes un)).1 = { un with raw := s.ringBytes un } ∧
    (RingFrame.ofBytes (s.ringBytes bc)).1 = { bc with raw := s.ringBytes bc } ∧ s.deviceId ≠ 9 ∧
    s.ring.lastB = [] ∧ (w un).length = 64 ∧ (w bc).length = 64 ∧
    ((u.ringLinksAt 0).e, (u.ringLinksAt 0).rx.map (·.ty)) = (7, [recHeartbeat]) ∧ v.ring.lastB = [(9, 3)] ∧
    ((v.ringLinksAt 0).e, (v.ringLinksAt 0).rx) = (8, [⟨9, true, recTerm, false, [1, 2, 3, 4]⟩]) := by decide +kernel

theorem test_mirror_log_is_applied :
    let s := but (ring5 lk) [.act Reg.RB_CFG (Fld.RB_CFG_MLOG_CONS.set ((ring5 lk).actAt Reg.RB_CFG) 1),
      .ring { (ring5 lk).ring with mlog := [(0, 1)] }]
    let e := s.bytes (s.fld Reg.RB_MLOG_BASE Fld.RB_MLOG_BASE_BASE * 64) 64
    s.writesFree (mirrorWrites (leAt e 38 1) (e.drop 40)) = true ∧ ((List.range 16).all fun k => (s.enginesAt k).taken = []) = true ∧
    (nx (exec .mirrorLogApply s)).ring.mlog = [] := by decide +kernel

theorem test_more_register_writes :
    let s := but live [.regs Reg.DEV_MODE 1]
    let u := nx (exec (.registerWrite (.host none) 0x2000008 0xFF 0x1234) s)
    let m := nx (exec (.registerWrite (.host none) 0x48010 0xFF 0xFEE00007) live)
    let g := nx (exec (.loadGo (.host none) 0x0F (Word.ofNat (2 ^ 64 - 1))) s)
    s.mode = modeLoad ∧ (u.loadWinAt 8, u.loadWinAt 9) = (0x34, 0x12) ∧ inMsix 0x48010 = true ∧
    live.mayAccess (.host none) 0x48010 = true ∧ (m.msixAt 1).addr = 0xFEE00004 ∧
    g.fld Reg.HI_LOAD_STATUS Fld.HI_LOAD_STATUS_STATE = 0 := by decide +kernel

theorem test_table_port_reads :
    let c : PortCmd := ⟨.tenik, 1, 3, tabs.table 3, 7, [], [], none⟩
    let n := tabs.keyEngine (tabs.table 3) 3 7
    let s := but tabs [.regs (Reg.TE_CMD_DATA n 1 0) 5, .engines n { Engine.empty with ports := [(1, some c)] }]
    let u := nx (exec (.teCmdDone n 1) s)
    s.portCmd n 1 = some c ∧ s.portFits n c = true ∧ s.slotsReady (c.desc.slots 3 7) = true ∧ c.desc.kind ≠ kindHash ∧
    c.desc.outside 7 = false ∧ s.chains (s.portEngine c) = [] ∧
    (match s.lookup c.desc 3 7 with | .hit _ e => decayEntry c.desc (s.period c.desc) e | _ => []) ≠ [] ∧
    u.fld (Reg.TE_CMD_RES n 1) Fld.TE_CMD_RES_STATUS = stDone ∧ u.regsAt (Reg.TE_CMD_DATA n 1 0) = 0 := by decide +kernel

/-! ## Faults and Detention -/

/-- The device `live` with a report waiting. -/
def reported (r : Report) : State := but live [.fc { live.fc with queue := [r] }]

theorem test_reports_are_taken :
    let rc : Report := ⟨110, clsC, 0x21, some ⟨.engine, 2⟩, 0⟩
    let ru : Report := ⟨8, clsU, 0x21, some ⟨.core, 8⟩, 0⟩
    let rf : Report := ⟨152, clsF, 0x21, none, 0⟩
    let u := nx (exec (.faultReport none) (reported rc))
    let v := nx (exec (.faultReport none) (reported ru))
    let w := nx (exec (.faultReport none) (reported rf))
    (reported rc).escalated rc = clsC ∧ (reported rc).reactions rc clsC = 1 ∧ u.fc.queue = [] ∧
    u.fld (Reg.FC_STAT 110) Fld.FC_STAT_C_PEND = 1 ∧ u.fld (Reg.FC_STAT 110) Fld.FC_STAT_LAST_CAUSE = 0x21 ∧
    (reported ru).reactions ru clsU = 7 ∧ (reported ru).fenced ⟨.core, 8⟩ = false ∧
    (reported ru).beingFenced ⟨.core, 8⟩ = false ∧ v.fc.fencing = [⟨⟨.core, 8⟩, .collector⟩] ∧
    (reported rf).reactions rf clsF = 0x33 ∧ (reported rf).fc.fencing = [] ∧ w.mode = modeSafe ∧
    w.fld Reg.FC_ERR Fld.FC_ERR_ASSERTED = 1 := by decide +kernel

theorem test_units_report_their_own_faults :
    let f := but live [.regs (Reg.DEV_FENCE_MISC) (Word.ofNat (2 ^ 64 - 1))]
    let u := nx (exec (.faultReport (some (.stateUncorr UnitKind.bank.code 1))) live)
    ownFault (.stateUncorr UnitKind.bank.code 1) = some (⟨.bank, 1⟩, clsU, 0x03) ∧
    ownFault (.linkFault 1) = some (⟨.portGroup, 1⟩, clsU, 0x08) ∧
    ownFault (.logic UnitKind.engine.code 2) = some (⟨.engine, 2⟩, clsF, 0x0B) ∧ ownFault (.stateUncorr UnitKind.core.code 1) = none ∧
    live.boot.perst = false ∧ (UnitId.mk .bank 1).exists = true ∧ live.fenced ⟨.bank, 1⟩ = false ∧ f.fenced ⟨.engine, 2⟩ = true ∧
    live.fc.queue = [] ∧ u.fld (Reg.FC_STAT (UnitId.mk .bank 1).source) Fld.FC_STAT_LAST_CAUSE = 0x03 ∧ u.fc.queue = [] := by
  decide +kernel

theorem test_faults_are_acknowledged :
    let s := but (host 3) [.regs (Reg.FC_STAT 110) 7, .regs (Reg.FC_ERR_SRC 1) (2 ^ 46), .act (Reg.FC_SRC 110)
      (Fld.FC_SRC_ACK_C.set 0 1)]
    let v : Word := Fld.FC_ACK_GO.set (Fld.FC_ACK_SOURCE.set 0 110) 1
    let u := nx (exec (.faultAutoAck 110) s)
    let a := nx (exec (.fcAckWrite .tenik 0xFF v) s)
    let i := nx (exec (.faultInject (pk (110 + 256) 0 0 0)) s)
    s.inForce (Reg.FC_SRC 110) Fld.FC_SRC_ACK_C = 1 ∧ s.fld (Reg.FC_STAT 110) Fld.FC_STAT_C_PEND = 1 ∧
    u.fld (Reg.FC_STAT 110) Fld.FC_STAT_C_PEND = 0 ∧ s.mayAccess .tenik Reg.FC_ACK = true ∧ Fld.FC_ACK_GO.get v = 1 ∧
    Fld.FC_ACK_SOURCE.get v = 110 ∧ (a.regsAt (Reg.FC_STAT 110), a.regsAt (Reg.FC_ERR_SRC 1)) = (0, 0) ∧
    s.accepts (pk 110 0 0 0) modesA false 0 0 0xFF 0 0 ∧ s.faultHeld 110 = true ∧ s.faultHeld 109 = false ∧
    answer s (.faultAck (pk 110 0 0 0)) = some (0, 0) ∧ answer s (.faultAck (pk 109 0 0 0)) = some (0, 0) ∧
    s.accepts (pk (110 + 256) 0 0 0) modesR false 0 0 0x3FF 0 0 ∧ i.fc.queue = [⟨110, 1, 0x0F, some ⟨.engine, 2⟩, 0⟩] := by
  unfold State.accepts; decide +kernel

theorem test_watchdog :
    let q : DdrReq := ⟨[0x40], true, false, 4, noLine, 100, 0x40, []⟩
    let o : DdrReq := ⟨[0x80], true, false, 5, noLine, 9, 0x80, []⟩
    let s := but (but graph3 [.boot { svc.boot with tenikDown := false, perst := false }]) [
      .regs (tableWordOff 5 0) (Word.ofNat (setBit (leAt ([0x02, 0, 0x04, 3, 0, 0, 0, 0] : List Byte) 0 8) 13 true)),
      .ddrs 0 { Ddr.empty with writeQ := [o, q], readQ := [⟨[0x240], false, false, 6, noLine, 112, 0, []⟩] },
      .engines 4 { Engine.empty with taken := [⟨look9, some { svc.table 5 with kind := kindArray, esize := 64, count := 16 }, false, false, false⟩] }]
    let u := nx (exec (.watchdogBite 1 7 155) s)
    let v := nx (exec (.watchdogBite 2 0 100) s)
    let w := nx (exec (.watchdogBite 2 0 112) s)
    modeStage ≤ s.mode ∧ u.fld Reg.BP_WDOG_LOG Fld.BP_WDOG_LOG_REQUESTER = 155 ∧ u.fc.queue = [⟨155, clsF, 0x06, none, 0⟩] ∧
    (s.ddrsAt 0).writes.find? (·.who == 100) = some q ∧
    ((s.ddrsAt 0).writes.all fun r => r.addr != q.addr || decide (r.seq ≤ q.seq)) = true ∧ (v.ddrsAt 0).writeQ = [o] ∧ s.lookupOn 4 0 = some 0 ∧
    (w.enginesAt 4).taken.map (·.lost) = [true] := by decide +kernel

/-- Roll Call bank 1 of a unit id. -/
def bank1 : UnitId := ⟨.bank, 1⟩

theorem test_fences_begin :
    let s := host 3
    let eng := but s [.regs Reg.DEV_FENCE_MISC (Word.ofNat ((2 ^ 16 - 2) * 2 ^ 16))]
    let cmd := fun (x : UnitId) (k : Nat) => pk (x.kind.code + x.idx * 256 + k * 2 ^ 24) 0 0 0
    let core : UnitId := ⟨.core, 9⟩
    let f := but s [.regs (Reg.DEV_FENCE_CORE_0) 0x200]
    let u := nx (exec (.fence (cmd core 0)) s)
    let v := nx (exec (.unfence (cmd core 1)) f)
    s.accepts (cmd core 0) modesA false 0 0 (maskOf 3 0 ||| maskOf 23 8) 0 0 ∧ f.fenced core = true ∧ s.fenced core = false ∧
    s.beingFenced core = false ∧ (s.took (cmd core 0)).lastOne core = false ∧ s.unitBusy core = false ∧
    u.fc.fencing.map (·.unit) = [core] ∧ u.bg = [⟨2, 0x11, 0xA0, false, .fence core, 0, false⟩] ∧
    answer f (.fence (cmd core 0)) = some (0, 0) ∧ (eng.took (cmd ⟨.engine, 0⟩ 0)).lastOne ⟨.engine, 0⟩ = true ∧
    answer eng (.fence (cmd ⟨.engine, 0⟩ 0)) = some (stBadParam, 0) ∧
    f.accepts (cmd core 1) modesR false 0 0 (maskOf 3 0 ||| maskOf 24 8) 0 0 ∧ f.faultsOpen core = false ∧
    f.fenced ⟨.street, 1⟩ = false ∧ v.bg = [⟨2, 0x11, 0xA1, false, .unfence core true, 0, false⟩] ∧
    answer s (.unfence (cmd core 0)) = some (0, 0) := by
  unfold State.accepts; decide +kernel

theorem test_fences_end :
    let a := but (host 5) [.fc { (host 5).fc with fencing := [⟨⟨.engine, 3⟩, .collector⟩] }]
    let b := but (host 3) [.fc { (host 3).fc with fencing := [⟨bank1, .collector⟩] }]
    let full := but b [.banks 1 { Bank.empty with inq := [tok 1 0 5] }]
    let r := doing (but (host 3) [.regs (Reg.DEV_FENCE_CORE_0) 0x200]) (.unfence ⟨.core, 9⟩ false)
    let u := nx (exec (.fenceComplete UnitKind.engine.code 3) a)
    let v := nx (exec (.fenceComplete UnitKind.bank.code 1) b)
    let w := nx (exec (.unfenceComplete UnitKind.core.code 9) r)
    a.mode = modeSafe ∧ u.fenced ⟨.engine, 3⟩ = true ∧ b.mode = modeService ∧ v.fenced bank1 = true ∧ v.mode = modeDegraded ∧
    v.fencing bank1 = false ∧ bank1.idx < 4 ∧ (b.banksAt 1).urgent = [] ∧ (b.banksAt 1).inq = [] ∧ (full.banksAt 1).inq ≠ [] ∧
    nx (exec (.fenceComplete UnitKind.bank.code 1) full) = full ∧ r.running (fun b => match b with
      | .unfence v _ => v == ⟨.core, 9⟩
      | _ => false) (bop (.unfence ⟨.core, 9⟩ false)) ∧ w.bg = [] ∧ w.fenced ⟨.core, 9⟩ = false := by
  unfold State.running; decide +kernel

theorem test_tenik_restarts :
    let s := live
    let d := but live [.boot { live.boot with tenikDown := true, restarting := true }]
    let u := nx (exec .lockstepMismatch s)
    let v := nx (exec .tenikHang s)
    let x := but live [.boot { live.boot with running := some ⟨7, 3, 5, [1]⟩, runAt := 0x100000 }]
    let y := nx (exec .lockstepMismatch x)
    let b := nx (exec (.srAlive (.host none) 0x03 0) s)
    s.gbLog2 = 0 ∧ s.imageGood = true ∧ x.tenikRuns = true ∧ x.gbLog2 = 0 ∧ x.imageGood = false ∧ y.boot.restarting = false ∧
    y.fc.queue = [⟨152, clsU, 0x09, none, 0⟩, ⟨152, clsF, 0x10, none, 0⟩] ∧ laneOk 0x03 = false ∧ s.boot.perst = false ∧
    b.regsAt Reg.HI_CNT_BAD_SIZE = 1 ∧ b.boot = s.boot ∧
    s.tenikRuns = true ∧ u.fc.queue = [⟨152, clsU, 0x09, none, 0⟩] ∧ u.boot.restarting = true ∧
    u.fld Reg.SR_STATUS Fld.SR_STATUS_RESTARTS = 1 ∧ v.fc.queue = [⟨152, clsU, 0x0A, none, 0⟩] ∧ modeStage ≤ d.mode ∧
    (nx (exec (.srAlive .tenik 0xFF (Fld.SR_ALIVE_ALIVE.set 0 1)) d)).boot.tenikDown = false ∧
    (nx (exec (.srAlive .tenik 0xFF (Fld.SR_ALIVE_ALIVE.set 0 1)) s)).fld Reg.SR_STATUS Fld.SR_STATUS_RUNNING = 1 ∧
    (nx (exec .restartFail d)).boot.restarting = false ∧ (nx (exec .restartFail d)).fc.queue = [⟨152, clsF, 0x10, none, 0⟩] := by
  decide +kernel

/-! ## The queue of commands -/

theorem test_step :
    let s := { live with pending := [.bypass 0xFF, .nop (cm 0 0) none] }
    (nx (step s)).pending = [.nop (cm 0 0) none] ∧ (nx (step s)).tap.ir = 0xFF ∧ live.pending = [] ∧ nx (step live) = live ∧
    s.mapsWf = true := by decide +kernel

theorem test_own_units_change :
    let s := but live [.classes 5 ⟨[1]⟩, .dirRows 3 ⟨1, 1, 1, true, 1⟩, .dirShadow 3 ⟨1, 1, 1, true, 1⟩, .pg 4 7, .learn 2 (some 9),
      .tap { live.tap with busy := true }, .icache 3 [5]]
    let u := nx (exec .perstAssert s)
    u.classes ≠ s.classes ∧ u.dirRows ≠ s.dirRows ∧ u.dirShadow ≠ s.dirShadow ∧ u.pg ≠ s.pg ∧ u.learn ≠ s.learn ∧ u.tap ≠ s.tap ∧
    u.icache ≠ s.icache := by decide +kernel

/-- The header of an ECHO of one payload unit with tag 0x1122334455667788, P0 = 3. -/
def echoHeader : List Byte :=
  [0x02, 0, 0, 0, 1, 0, 0, 0, 0x88, 0x77, 0x66, 0x55, 0x44, 0x33, 0x22, 0x11] ++ [0, 0x80, 0, 0, 0, 0, 0, 0, 64, 0, 0, 0, 0, 0, 0, 0] ++
    [3] ++ zeros 31

theorem test_packets_are_read :
    (Instr.echo ⟨2, 0, 1, 0x1122334455667788, 0x8000, 64, 0, 3, 0, 0, 0, [7]⟩).spelledBy 2 echoHeader [7] = true ∧
    (Instr.identify (Cmd.ofPacket 2 echoHeader [7])).spelledBy 2 echoHeader [7] = false := by decide +kernel

end Sys2Proof.Tests
end

/-! PROOFS. Instructions of the ALU (R234, R235): how one that issues completes, how a reserved bit refuses it, and the
zero register (R222). -/

namespace Sys2Proof.Machine

section
variable {s : State} {t : Nat}

/-- What an instruction does to its thread may be computed from the thread as it was before the issue, which only counts. -/
theorem State.issued_endedNext_congr {f g : Thread → Thread} (h : f (s.thread t) = g (s.thread t)) :
    (s.issued t).endedNext t f = (s.issued t).endedNext t g := by
  simp only [State.endedNext, State.ended, State.issued_thread, h]

/-! The shared shapes of instructions. -/

/-- An instruction whose body ends it by `f`. -/
theorem commit_issue_finishNext (hs : s.canIssue t = true) (word : Nat) (f : Thread → Thread) :
    commit (issue t word true fun th => finishNext t fun _ => f th) s = .next ((s.issued t).endedNext t f) := by
  have h : (s.issued t).endedNext t (fun _ => f (s.thread t)) = (s.issued t).endedNext t f :=
    State.issued_endedNext_congr rfl
  simp only [commit_eq, run_issue hs, run_finishNext, h]

/-- UNDEF with reason 0 is all that an instruction with a reserved bit set does (R220, R256). -/
theorem commit_issue_reserved (hs : s.canIssue t = true) (hh : (s.thread t).inHandler = false) {ok : Bool}
    (hok : ok = false) (word : Nat) (body : Thread → M Unit) :
    commit (issue t word ok body) s =
      .next ((s.issued t).trappedHere t causeUndef (BitVec.ofNat 64 (word % 2 ^ 32))) := by
  have hi : ((s.issued t).thread t).inHandler = false := by rw [State.issued_thread, hh]
  rw [hok, commit_eq, run_issue_reserved hs, run_undef hi, Nat.zero_mul, Nat.add_zero]

theorem commit_alu (hs : s.canIssue t = true) (fn rd ra rb : Nat) (f : Thread → Word → Word → Thread) :
    commit (alu t fn rd ra rb 0 true f) s =
      .next ((s.issued t).endedNext t fun th => f th (th.gr (ra % 32)) (th.gr (rb % 32))) :=
  commit_issue_finishNext hs _ fun th => f th (th.gr (ra % 32)) (th.gr (rb % 32))

theorem commit_aluTo (hs : s.canIssue t = true) (fn rd ra rb : Nat) (f : Word → Word → Word) :
    commit (aluTo t fn rd ra rb 0 true f) s =
      .next ((s.issued t).endedNext t fun th => th.setG (rd % 32) (f (th.gr (ra % 32)) (th.gr (rb % 32)))) :=
  commit_alu hs fn rd ra rb _

/-- The result, computed from the registers as they were before the issue. -/
theorem commit_aluTo_of_eq (hs : s.canIssue t = true) (fn rd ra rb : Nat) {f : Word → Word → Word} {v : Word}
    (hv : f ((s.thread t).gr (ra % 32)) ((s.thread t).gr (rb % 32)) = v) :
    commit (aluTo t fn rd ra rb 0 true f) s = .next ((s.issued t).endedNext t fun th => th.setG (rd % 32) v) :=
  (commit_aluTo hs fn rd ra rb f).trans (congrArg _ (State.issued_endedNext_congr (by rw [hv])))

theorem commit_aluImm (hs : s.canIssue t = true) (op rd ra imm : Nat) (f : Thread → Word → Thread) :
    commit (aluImm t op rd ra imm 0 true f) s = .next ((s.issued t).endedNext t fun th => f th (th.gr (ra % 32))) :=
  commit_issue_finishNext hs _ fun th => f th (th.gr (ra % 32))

theorem commit_aluImm_reserved (hs : s.canIssue t = true) (hh : (s.thread t).inHandler = false) (op rd ra imm : Nat)
    {rsv : Nat} {ok : Bool} (hr : rsv % 4 ≠ 0 ∨ ok = false) (f : Thread → Word → Thread) :
    commit (aluImm t op rd ra imm rsv ok f) s =
      .next ((s.issued t).trappedHere t causeUndef (BitVec.ofNat 64 (wordI op rd ra rsv imm % 2 ^ 32))) := by
  have hok : (decide (rsv % 4 = 0) && ok) = false := by
    rcases hr with hr | hr <;> simp [hr]
  exact commit_issue_reserved hs hh hok _ _

theorem commit_shiftImm (hs : s.canIssue t = true) (sub rd ra sh : Nat) (f : Word → Nat → Word) :
    commit (shiftImm t sub rd ra sh 0 f) s =
      .next ((s.issued t).endedNext t fun th => th.setG (rd % 32) (f (th.gr (ra % 32)) (sh % 64))) :=
  commit_issue_finishNext hs _ fun th => th.setG (rd % 32) (f (th.gr (ra % 32)) (sh % 64))

theorem commit_shiftImm_reserved (hs : s.canIssue t = true) (hh : (s.thread t).inHandler = false) (sub rd ra sh : Nat)
    {rsv : Nat} (hr : rsv % 256 ≠ 0) (f : Word → Nat → Word) :
    commit (shiftImm t sub rd ra sh rsv f) s =
      .next ((s.issued t).trappedHere t causeUndef
        (BitVec.ofNat 64 (wordI 0x06 rd ra sub (rsv % 256 * 64 + sh % 64) % 2 ^ 32))) :=
  commit_issue_reserved hs hh (decide_eq_false hr) _ _

end

/-! The zero register (R222). -/

@[simp] theorem Thread.gr_zero (th : Thread) : th.gr 0 = 0 := rfl

@[simp] theorem Thread.setG_zero (th : Thread) (v : Word) : th.setG 0 v = th := rfl

/-! Words as fields and as integers. -/

/-- A zero-extended field. -/
theorem zextW_eq (n v : Nat) : Word.ofNat (v % 2 ^ n) = (BitVec.ofNat n v).setWidth 64 :=
  BitVec.ofNat_toNat 64 (BitVec.ofNat n v)

/-- An immediate of 14 bits, sign-extended. -/
theorem sextW_14 (imm : Nat) : sextW 14 imm = (BitVec.ofNat 14 imm).signExtend 64 :=
  sextW_eq (by decide) (by decide) imm

theorem word_add_eq_ofInt (a b : Word) : a + b = BitVec.ofInt 64 (a.toInt + b.toInt) := by
  rw [BitVec.ofInt_add, BitVec.ofInt_toInt, BitVec.ofInt_toInt]

theorem word_sub_eq_ofInt (a b : Word) : a - b = BitVec.ofInt 64 (a.toInt - b.toInt) := by
  rw [Int.sub_eq_add_neg, BitVec.ofInt_add, BitVec.ofInt_neg, BitVec.ofInt_toInt, BitVec.ofInt_toInt, BitVec.sub_eq_add_neg]

theorem word_mul_eq_ofInt (a b : Word) : a * b = BitVec.ofInt 64 (a.toInt * b.toInt) := by
  rw [BitVec.ofInt_mul, BitVec.ofInt_toInt, BitVec.ofInt_toInt]

theorem word_add_sextW_14_eq_ofInt (a : Word) (imm : Nat) :
    a + sextW 14 imm = BitVec.ofInt 64 (a.toInt + (BitVec.ofNat 14 imm).toInt) := by
  rw [sextW_14, word_add_eq_ofInt, BitVec.toInt_signExtend_of_le (by decide)]

/-! The obligations. -/

/-- Settles O7: each instruction is one of the shared shapes, whose laws say how it completes and how a reserved bit
refuses it; what is left are the immediates, written as fields of `BitVec`. -/
theorem immediatesAndComparesActAsTheyShould : Obligations.ImmediatesAndComparesActAsTheyShould := by
  unfold Obligations.ImmediatesAndComparesActAsTheyShould
  refine ⟨?completes, ?reserved, ?compares⟩
  case completes =>
    intro s t rd ra imm sh h hs hh done
    -- MOVK's value contains MOVI's, so it is rewritten first.
    simp only [← sextW_14, ← zextW_eq 14, ← movk_eq hh]
    simp only [← movi_eq hh]
    exact ⟨commit_aluImm hs 0x01 rd ra imm _, commit_aluImm hs 0x02 rd ra imm _,
      commit_aluImm hs 0x03 rd ra imm _, commit_aluImm hs 0x04 rd ra imm _,
      commit_shiftImm hs 0 rd ra sh _, commit_shiftImm hs 1 rd ra sh _,
      commit_shiftImm hs 2 rd ra sh _, commit_shiftImm hs 3 rd ra sh _,
      commit_issue_finishNext hs _ _, commit_issue_finishNext hs _ _⟩
  case reserved =>
    intro s t rd ra imm sh h rsv hs hi undef
    refine ⟨fun hr => ?rdForms, fun hr => ?cmpi, fun hr => ?shifts, fun hr => ?moves⟩
    case rdForms =>
      have hr' : rsv % 4 ≠ 0 ∨ true = false := .inl hr
      exact ⟨commit_aluImm_reserved hs hi 0x01 rd ra imm hr' _, commit_aluImm_reserved hs hi 0x02 rd ra imm hr' _,
        commit_aluImm_reserved hs hi 0x03 rd ra imm hr' _, commit_aluImm_reserved hs hi 0x04 rd ra imm hr' _⟩
    case cmpi => exact commit_aluImm_reserved hs hi 0x05 rd ra imm (hr.imp_right decide_eq_false) _
    case shifts =>
      exact ⟨commit_shiftImm_reserved hs hi 0 rd ra sh hr _, commit_shiftImm_reserved hs hi 1 rd ra sh hr _,
        commit_shiftImm_reserved hs hi 2 rd ra sh hr _, commit_shiftImm_reserved hs hi 3 rd ra sh hr _⟩
    case moves =>
      have hok : decide (rsv % 8 = 0) = false := decide_eq_false hr
      exact ⟨commit_issue_reserved hs hi hok _ _, commit_issue_reserved hs hi hok _ _⟩
  case compares =>
    intro s t ra rb imm hs
    simp only [← sextW_14]
    exact ⟨commit_alu hs 0x11 0 ra rb _, commit_alu hs 0x12 0 ra rb _, commit_aluImm hs 0x05 0 ra imm _⟩

/-- Settles O8: arithmetic of words is that of the integers they stand for, and a result for G0 is discarded. -/
theorem zeroRegisterAndArithmeticModulo : Obligations.ZeroRegisterAndArithmeticModulo := by
  unfold Obligations.ZeroRegisterAndArithmeticModulo
  refine ⟨fun th v => ⟨th.gr_zero, th.setG_zero v⟩, ?modulo, ?discards⟩
  case modulo =>
    intro s t rd ra rb imm hs x y gives
    have addi : gives (x + (BitVec.ofNat 14 imm).toInt) =
        .next ((s.issued t).endedNext t fun th => th.setG (rd % 32) (th.gr (ra % 32) + sextW 14 imm)) :=
      congrArg _ (State.issued_endedNext_congr (by rw [word_add_sextW_14_eq_ofInt]))
    exact ⟨commit_aluTo_of_eq hs 0x00 rd ra rb (word_add_eq_ofInt _ _),
      commit_aluTo_of_eq hs 0x01 rd ra rb (word_sub_eq_ofInt _ _),
      commit_aluTo_of_eq hs 0x0A rd ra rb (word_mul_eq_ofInt _ _),
      (commit_aluImm hs 0x01 rd ra imm _).trans addi.symm⟩
  case discards =>
    -- Each result goes to `setG 0`, which leaves the thread as it is.
    intro s t ra rb imm hs
    exact ⟨commit_aluTo hs 0x00 0 ra rb _, commit_aluTo hs 0x01 0 ra rb _, commit_aluTo hs 0x0A 0 ra rb _,
      commit_aluImm hs 0x01 0 ra imm _⟩

end Sys2Proof.Machine
